-- ==== Sys2Proof/Word.lean ====
section
/-! DEFINITION. The word types and the sparse tables every other file uses: bytes, 64-bit registers, 1024-bit
lines (00: lines are 128 bytes everywhere), and lists of (key, value) pairs read by key. -/
namespace Sys2Proof

/-- One byte of memory (R2). -/
abbrev Byte := BitVec 8
/-- A 64-bit general register or device register. -/
abbrev Word := BitVec 64
/-- A w register, or the 128 bytes of a line; byte 0 is bits [7:0] (R2). -/
abbrev Line := BitVec 1024

/-- A table that lists only some keys, in increasing order of key. -/
abbrev Sparse (α : Type) := List (Nat × α)

/-- The value listed under a key. -/
def Sparse.get? {α : Type} : Sparse α → Nat → Option α
  | [], _ => none
  | (k, v) :: r, n => if k = n then some v else Sparse.get? r n

/-- The value listed under a key, or the value an unlisted key reads as. -/
def Sparse.getD {α : Type} (m : Sparse α) (n : Nat) (d : α) : α := (Sparse.get? m n).getD d

/-- List a value under a key, in the place its key gives it. -/
def Sparse.set {α : Type} : Sparse α → Nat → α → Sparse α
  | [], n, v => [(n, v)]
  | (k, w) :: r, n, v =>
    if n < k then (n, v) :: (k, w) :: r
    else if n = k then (n, v) :: r
    else (k, w) :: Sparse.set r n v

/-- Take a key out of the table. -/
def Sparse.erase {α : Type} : Sparse α → Nat → Sparse α
  | [], _ => []
  | (k, v) :: r, n => if k = n then Sparse.erase r n else (k, v) :: Sparse.erase r n

/-- Keep the entries that satisfy a test. -/
def Sparse.keep {α : Type} (m : Sparse α) (f : Nat → α → Bool) : Sparse α :=
  m.filter fun e => f e.1 e.2

/-- Change every value. -/
def Sparse.mapVals {α : Type} (m : Sparse α) (f : Nat → α → α) : Sparse α :=
  m.map fun e => (e.1, f e.1 e.2)

/-- The keys rise strictly: the one form in which a table is kept. -/
def Sparse.sorted {α : Type} : Sparse α → Bool
  | [] => true
  | [_] => true
  | (a, _) :: (b, w) :: r => decide (a < b) && Sparse.sorted ((b, w) :: r)

/-- The bits [lo + n - 1 : lo] of a number. -/
def bitsOf (x lo n : Nat) : Nat := (x >>> lo) % 2 ^ n

/-- One bit of a number. -/
def bitOf (x i : Nat) : Bool := x.testBit i

/-- A two's complement reading of the low w bits. -/
def signedOf (w x : Nat) : Int :=
  let p := x % 2 ^ w
  if p < 2 ^ (w - 1) then (p : Int) else (p : Int) - (2 ^ w : Nat)

/-- The w-bit pattern of an integer. -/
def patternOf (w : Nat) (r : Int) : Nat := (r % ((2 ^ w : Nat) : Int)).toNat

end Sys2Proof
end

