-- ==== Sys2Proof/Config.lean ====
section
/-! DEFINITION. What the spec fixes by naming the part, and the free values: constants without a body, for every
value the spec leaves open. Nothing in Lean can evaluate one of them. -/
namespace Sys2Proof.Config

/-- A fresh word each time it is asked, for a value the spec calls undefined or leaves unstated (log entry 3). -/
opaque freeWord : Nat → BitVec 64

/-- Byte i of the plaintext a line shows when it is read under another key or another address than it was written under
(R32, R44): of the key and line address of the write, those of the read, and the line written. -/
opaque wrongKeyByte : Nat → Nat → Nat → Nat → Nat → Nat → BitVec 8

/-- The two fixed hashes of PA[51:7] that index a slice's Bloom filter of 16,384 bits (R33). -/
opaque bloomHash0 : Nat → BitVec 14
/-- The second of the two hashes of R33. -/
opaque bloomHash1 : Nat → BitVec 14

/-- The 2-bit size code the controller's compressor gives a line (R35). -/
opaque sizeCode : BitVec 1024 → BitVec 2

/-- The set of a line in a structure (1 an L1D, 2 an L2 slice, 3 an L3 slice, 4 a tile TLB): the spec states the ways and not the
index (R172, R208, R212, R229) (log entry 8). -/
opaque setIndex : Nat → Nat → Nat

/-- The value every new TOKEN is mixed with (R161: the device chooses each TOKEN). -/
opaque tokenSalt : BitVec 32

/-- The launch queue's and the firmware's signature check (R67): does an image of this many bytes with this digest
verify against the fused public key. The spec names the algorithms; their keys are fused in the part. -/
opaque imageVerifies : BitVec 512 → Bool
/-- The fused minimum of the security version (R67). -/
opaque minSecurityVersion : BitVec 4
/-- The security version that an image of this digest carries (R67); the spec does not say where in the image it stands. -/
opaque imageVersion : BitVec 512 → BitVec 4
/-- SHA3-512 of a list of bytes (R67, R69), named and not computed here. -/
opaque sha3 : List (BitVec 8) → BitVec 512
/-- The bytes of the exchange that an SPDM answer closes, for its number, the block and the measurement (R69): DMTF SPDM 1.4 makes them of
the messages, nonces among them, which the spec does not give (log entry 7). -/
opaque spdmTranscript : Nat → Nat → BitVec 512 → List (BitVec 8)
/-- The device identity key's signature over a digest (R69). -/
opaque identitySignature : BitVec 512 → BitVec 512

/-- What the record of a saved Porter job says once a program has altered it: the instruction's two words, the six values latched, the
progress; none where it holds no job. The spec gives the record no layout (log entry 21). -/
opaque porterRecord : List (BitVec 64) → Option (List (BitVec 64))

end Sys2Proof.Config
end

