-- ==== Sys2Proof/Syntax.lean ====
section
/-! DEFINITION. The abstract syntax: operand forms, and one constructor of Instr for every row of the opcode table.
The first 147 constructors are encoded instructions (13_encoding_and_assembly.md); the other 115 are the table's events,
the indivisible steps of the device's other agents, which have no encoding. -/
namespace Sys2Proof

/-- The parts every instruction word has: guards, cache hint and switch marker (R289, R294 to R296). -/
structure Hdr where
  pg : BitVec 4
  mg : BitVec 4
  ch : BitVec 3
  sw : Bool
deriving DecidableEq, Repr

/-- A g register, g0 to g15. -/
abbrev GReg := BitVec 4
/-- A w register, w0 to w31. -/
abbrev WReg := BitVec 5
/-- An m register, m0 to m7. -/
abbrev MReg := BitVec 3
/-- A p register, p0 to p7. -/
abbrev PReg := BitVec 3

/-- The types of R300. -/
inductive Ty where
  | none | s8 | s16 | s32 | s64 | n8 | n16 | n32 | n64 | s4 | n4
  | f16 | bf16 | f32 | f64 | w80 | e4m3 | e5m2 | q4
  | nf (k : BitVec 3)
deriving DecidableEq, Repr

/-- The scopes of R1, in the order of their codes (R301). -/
inductive Scope where | thread | core | tile | quad | dev | sys
deriving DecidableEq, Repr

/-- The ordering annotations of R301. -/
inductive Ord where | relaxed | acq | rel | acqrel
deriving DecidableEq, Repr

/-- SCOPE, ORD and SC of shape M (R299). -/
structure MemOrd where
  scope : Scope
  ord : Ord
  sc : Bool
deriving DecidableEq, Repr

/-- Rounding modes (R267). -/
inductive Rm where | rne | rtz | rdn | rup | sr
deriving DecidableEq, Repr

/-- Integer comparisons of pcmp and vcmp (R322). -/
inductive Cmp where | eq | ne | lt | le | gt | ge
deriving DecidableEq, Repr

/-- Comparisons of vfcmp (R345). -/
inductive FCmp where | eq | ne | lt | le | gt | ge | uo
deriving DecidableEq, Repr

/-- Sub-operations of plog, mlog and vlog (R322). -/
inductive LogOp where | and | or | xor | andn | not
deriving DecidableEq, Repr

/-- Sub-operations of bit (R317). -/
inductive BitOp where | clz | ctz | popc | brev
deriving DecidableEq, Repr

/-- Sub-operations of mcnt (R324). -/
inductive CntOp where | popc | first | last
deriving DecidableEq, Repr

/-- Sub-operations of vfsgn (R349). -/
inductive SgnOp where | abs | neg | copysign
deriving DecidableEq, Repr

/-- Sub-operations of vfred (R355). -/
inductive FRedOp where | sum | max | min
deriving DecidableEq, Repr

/-- Sub-operations of vred (R355). -/
inductive RedOp where | sum | min | max | and | or | xor
deriving DecidableEq, Repr

/-- Sub-operations of vsh (R359). -/
inductive ShOp where | shl | shr | sar
deriving DecidableEq, Repr

/-- Sub-operations of vslide (R361). -/
inductive SlideOp where | down | up | rot
deriving DecidableEq, Repr

/-- Atomic operations (R385). -/
inductive AtomOp where | add | min | max | and | or | xor | swap | cas
deriving DecidableEq, Repr

/-- Format codes of R216. -/
inductive View where | full | f16 | bf16 | e5m2 | e4m3
deriving DecidableEq, Repr

/-- Block counts of packed ld and st (R375). -/
inductive Blk where | one | two | four | all
deriving DecidableEq, Repr

/-- Task hint modes (R107). -/
inductive HMode where | none | hash | addr | tile
deriving DecidableEq, Repr

/-- Operations of prrow (R410). -/
inductive RowOp where | sum | max | merge
deriving DecidableEq, Repr

/-- A last source: a g register, imm32 or imm64 (R298). -/
inductive Src where
  | reg (r : GReg)
  | imm32 (v : BitVec 32)
  | imm64 (v : BitVec 64)
deriving DecidableEq, Repr

/-- A last source of an opcode that has no 128-bit form: a g register or imm32. -/
inductive Src32 where
  | reg (r : GReg)
  | imm (v : BitVec 32)
deriving DecidableEq, Repr

/-- An immediate with two lengths. -/
inductive Imm where
  | imm32 (v : BitVec 32)
  | imm64 (v : BitVec 64)
deriving DecidableEq, Repr

/-- The extension of nop, ignored whatever it holds (R321). -/
inductive NopExt where
  | none
  | ext32 (v : BitVec 32)
  | ext64 (v : BitVec 64)
deriving DecidableEq, Repr

/-- The register number of sysr and sysw: from gA, or imm32[11:0] (R303). -/
inductive RegSel where
  | reg (r : GReg)
  | num (n : BitVec 12)
deriving DecidableEq, Repr

/-- A g or a w operand. -/
inductive GW where
  | g (r : GReg)
  | w (r : WReg)
deriving DecidableEq, Repr

/-- A memory operand: gA, and a displacement in the 96-bit form (R368). -/
structure Addr where
  base : GReg
  disp : Option (BitVec 32)
deriving DecidableEq, Repr

/-- Outcome of a page or unit a fault can name, kept as the numbers the events carry. -/
abbrev TileId := Nat

/-- One constructor per row of spec/opcode_table.json. A thread slot, tile, core, queue, run slot or line is a number:
thread slots count global core id · 8 + slot (R11), lines are PA[51:7]. -/
inductive Instr where
  -- scalar integer and address (R313)
  | add (h : Hdr) (ty : Ty) (sat : Bool) (d a : GReg) (b : Src)
  | sub (h : Hdr) (ty : Ty) (sat : Bool) (d a : GReg) (b : Src)
  | mul (h : Hdr) (ty : Ty) (sat : Bool) (d a : GReg) (b : Src)
  | mulh (h : Hdr) (ty : Ty) (d a : GReg) (b : Src)
  | div (h : Hdr) (ty : Ty) (d a : GReg) (b : Src)
  | rem (h : Hdr) (ty : Ty) (d a : GReg) (b : Src)
  | min (h : Hdr) (ty : Ty) (d a : GReg) (b : Src)
  | max (h : Hdr) (ty : Ty) (d a : GReg) (b : Src)
  | and (h : Hdr) (ty : Ty) (d a : GReg) (b : Src)
  | or (h : Hdr) (ty : Ty) (d a : GReg) (b : Src)
  | xor (h : Hdr) (ty : Ty) (d a : GReg) (b : Src)
  | andn (h : Hdr) (ty : Ty) (d a : GReg) (b : Src)
  | shl (h : Hdr) (ty : Ty) (d a : GReg) (b : Src32)
  | shr (h : Hdr) (ty : Ty) (d a : GReg) (b : Src32)
  | sar (h : Hdr) (ty : Ty) (d a : GReg) (b : Src32)
  | rot (h : Hdr) (left : Bool) (ty : Ty) (d a : GReg) (b : Src32)
  | mov (h : Hdr) (ty : Ty) (d : GReg) (a : Src)
  | sel (h : Hdr) (d a b : GReg) (c : PReg)
  | bit (h : Hdr) (op : BitOp) (ty : Ty) (d a : GReg)
  | bext (h : Hdr) (ty : Ty) (d a : GReg) (b : Src32)
  | bins (h : Hdr) (ty : Ty) (d a : GReg) (b : Src32)
  | cvt (h : Hdr) (src dst : Ty) (d a : GReg)
  | lea (h : Hdr) (scale : BitVec 3) (d a : GReg) (b : Src32)
  | bkpt (h : Hdr)
  | swtrap (h : Hdr) (n : BitVec 4)
  | nop (h : Hdr) (ext : NopExt)
  -- predicates and masks (R322)
  | pcmp (h : Hdr) (rel : Cmp) (ty : Ty) (d : PReg) (a : GReg) (b : Src32)
  | plog (h : Hdr) (op : LogOp) (d a b : PReg)
  | mlog (h : Hdr) (op : LogOp) (d a b : MReg)
  | mmovMG (h : Hdr) (d : MReg) (a : GReg)
  | mmovGM (h : Hdr) (d : GReg) (a : MReg)
  | mmovMImm (h : Hdr) (d : MReg) (v : Imm)
  | mcnt (h : Hdr) (op : CntOp) (d : GReg) (a : MReg)
  | mfirst (h : Hdr) (ty : Ty) (d : MReg) (n : Src32)
  | pmovPG (h : Hdr) (d : PReg) (a : GReg)
  | pmovGP (h : Hdr) (d : GReg) (a : PReg)
  -- control (R325, R327)
  | br (h : Hdr) (off : BitVec 32)
  | jr (h : Hdr) (a : GReg)
  | callr (h : Hdr) (d a : GReg)
  | call (h : Hdr) (d : GReg) (off : BitVec 32)
  | ret (h : Hdr) (a : GReg)
  | loop (h : Hdr) (d : GReg) (off : BitVec 32)
  | repeatReg (h : Hdr) (km1 : BitVec 4) (a : GReg)
  | repeatImm (h : Hdr) (km1 : BitVec 4) (n : BitVec 32)
  -- identity, user control and time (R328, R329)
  | idr (h : Hdr) (d : GReg) (num : BitVec 8)
  | ucrr (h : Hdr) (d : GReg) (num : BitVec 8)
  | ucrw (h : Hdr) (a : GReg) (num : BitVec 8)
  | rdtimeCyc (h : Hdr) (d : GReg)
  | rdtimeNs (h : Hdr) (d : GReg)
  -- system (R330)
  | sysr (h : Hdr) (d : GReg) (n : RegSel)
  | sysw (h : Hdr) (n : RegSel) (b : GReg)
  | faultreplyRetry (h : Hdr) (a : Src32)
  | faultreplyRemote (h : Hdr) (b : GReg) (a : Src32)
  | faultreplyKilltask (h : Hdr) (a : Src32)
  | faultreplyKillrun (h : Hdr) (a : Src32)
  | fltwait (h : Hdr) (d : GReg) (a : Src32)
  | purge (h : Hdr) (addr : Addr) (b : GReg)
  | cflush (h : Hdr) (addr : Addr) (b : GReg)
  | cinval (h : Hdr) (addr : Addr) (b : GReg)
  | tlbinvPage (h : Hdr) (a : GReg) (b : Src32)
  | tlbinvAsid (h : Hdr) (b : Src32)
  | tlbinvAll (h : Hdr)
  -- vector floating point (R345)
  | vfadd (h : Hdr) (ty : Ty) (rm : Rm) (sat : Bool) (d a b : WReg)
  | vfsub (h : Hdr) (ty : Ty) (rm : Rm) (sat : Bool) (d a b : WReg)
  | vfmul (h : Hdr) (ty : Ty) (rm : Rm) (sat : Bool) (d a b : WReg)
  | vfma (h : Hdr) (ty : Ty) (rm : Rm) (sat : Bool) (d a b c : WReg)
  | vfms (h : Hdr) (ty : Ty) (rm : Rm) (sat : Bool) (d a b c : WReg)
  | vfnma (h : Hdr) (ty : Ty) (rm : Rm) (sat : Bool) (d a b c : WReg)
  | vfmin (h : Hdr) (ty : Ty) (d a b : WReg)
  | vfmax (h : Hdr) (ty : Ty) (d a b : WReg)
  | vfsgn (h : Hdr) (op : SgnOp) (ty : Ty) (d a b : WReg)
  | vfcmp (h : Hdr) (rel : FCmp) (ty : Ty) (d : MReg) (a b : WReg)
  | vfcvt (h : Hdr) (src dst : Ty) (part : BitVec 4) (rm : Rm) (sat : Bool) (d a : WReg)
  | vfdiv (h : Hdr) (ty : Ty) (rm : Rm) (sat : Bool) (d a b : WReg)
  | vfsqrt (h : Hdr) (ty : Ty) (rm : Rm) (sat : Bool) (d a : WReg)
  | vfrcp (h : Hdr) (ty : Ty) (rm : Rm) (sat : Bool) (d a : WReg)
  | vfrsq (h : Hdr) (ty : Ty) (rm : Rm) (sat : Bool) (d a : WReg)
  | vfexp2 (h : Hdr) (ty : Ty) (rm : Rm) (sat : Bool) (d a : WReg)
  | vflog2 (h : Hdr) (ty : Ty) (rm : Rm) (sat : Bool) (d a : WReg)
  | vfred (h : Hdr) (op : FRedOp) (ty : Ty) (rm : Rm) (d a : WReg) (c : Option WReg)
  | vfmerge (h : Hdr) (ty : Ty) (d a b : WReg)
  | vfscale (h : Hdr) (e8m0 : Bool) (ty : Ty) (rm : Rm) (sat : Bool) (d a b : WReg)
  | vfrint (h : Hdr) (ty : Ty) (rm : Rm) (d a : WReg)
  -- vector integer and lanes (R358)
  | vadd (h : Hdr) (ty : Ty) (sat : Bool) (d a b : WReg)
  | vsub (h : Hdr) (ty : Ty) (sat : Bool) (d a b : WReg)
  | vmul (h : Hdr) (hi : Bool) (ty : Ty) (sat : Bool) (d a b : WReg)
  | vmm (h : Hdr) (max : Bool) (ty : Ty) (d a b : WReg)
  | vlog (h : Hdr) (op : LogOp) (ty : Ty) (d a b : WReg)
  | vsh (h : Hdr) (op : ShOp) (ty : Ty) (d a b : WReg)
  | vcmp (h : Hdr) (rel : Cmp) (ty : Ty) (d : MReg) (a b : WReg)
  | vcvt (h : Hdr) (src dst : Ty) (part : BitVec 4) (d a : WReg)
  | vbcastG (h : Hdr) (ty : Ty) (d : WReg) (a : GReg)
  | vbcastImm (h : Hdr) (ty : Ty) (d : WReg) (v : Imm)
  | vbcastLane (h : Hdr) (ty : Ty) (d a : WReg) (b : GReg)
  | vshuf (h : Hdr) (ty : Ty) (d a b : WReg)
  | vslide (h : Hdr) (op : SlideOp) (ty : Ty) (d a : WReg) (b : GReg)
  | vsel (h : Hdr) (ty : Ty) (d a b : WReg) (c : MReg)
  | vmovgG (h : Hdr) (ty : Ty) (d : GReg) (a : WReg) (b : GReg)
  | vmovgW (h : Hdr) (ty : Ty) (d : WReg) (a b : GReg)
  | vred (h : Hdr) (op : RedOp) (ty : Ty) (sat : Bool) (d a : WReg) (c : Option WReg)
  | vscan (h : Hdr) (excl : Bool) (ty : Ty) (sat : Bool) (d a : WReg)
  | vcomp (h : Hdr) (ty : Ty) (d a : WReg)
  -- loads, stores, streams (R373, R377, R380, R382, R364)
  | ld (h : Hdr) (ty : Ty) (mo : MemOrd) (blk : Blk) (d : GW) (addr : Addr)
  | st (h : Hdr) (ty : Ty) (mo : MemOrd) (blk : Blk) (addr : Addr) (b : GW)
  | lds (h : Hdr) (ty : Ty) (scope : Scope) (acq sat : Bool) (view : View) (d : GW) (addr : Addr)
  | gather (h : Hdr) (ty : Ty) (mo : MemOrd) (d : WReg) (addr : Addr) (b : WReg)
  | scatter (h : Hdr) (ty : Ty) (mo : MemOrd) (addr : Addr) (b c : WReg)
  | pref (h : Hdr) (l1 : Bool) (addr : Addr)
  | sbind (h : Hdr) (d : BitVec 2) (addr : Addr)
  | sbindUnbind (h : Hdr) (d : BitVec 2)
  -- atomics (R385)
  | atomAdd (h : Hdr) (ty : Ty) (mo : MemOrd) (d : GReg) (addr : Addr) (b : GReg)
  | atomMin (h : Hdr) (ty : Ty) (mo : MemOrd) (d : GReg) (addr : Addr) (b : GReg)
  | atomMax (h : Hdr) (ty : Ty) (mo : MemOrd) (d : GReg) (addr : Addr) (b : GReg)
  | atomAnd (h : Hdr) (ty : Ty) (mo : MemOrd) (d : GReg) (addr : Addr) (b : GReg)
  | atomOr (h : Hdr) (ty : Ty) (mo : MemOrd) (d : GReg) (addr : Addr) (b : GReg)
  | atomXor (h : Hdr) (ty : Ty) (mo : MemOrd) (d : GReg) (addr : Addr) (b : GReg)
  | atomSwap (h : Hdr) (ty : Ty) (mo : MemOrd) (d : GReg) (addr : Addr) (b : GReg)
  | atomCas (h : Hdr) (ty : Ty) (mo : MemOrd) (d : GReg) (addr : Addr) (b c : GReg)
  | atomRed (h : Hdr) (op : AtomOp) (ty : Ty) (mo : MemOrd) (addr : Addr) (b c : GReg)
  -- counters and fence (R389, R394)
  | ctradd (h : Hdr) (scope : Scope) (addr : Addr) (b : GReg)
  | ctrread (h : Hdr) (scope : Scope) (d : GReg) (addr : Addr)
  | ctrwait (h : Hdr) (scope : Scope) (d e : GReg) (addr : Addr) (b c : GReg)
  | ctrarriveMax (h : Hdr) (ty : Ty) (scope : Scope) (d : GReg) (addr : Addr) (b : GReg)
  | ctrarriveSum (h : Hdr) (scope : Scope) (d : GReg) (addr : Addr) (b : GReg)
  | fence (h : Hdr) (sc : Bool) (scope : Scope)
  -- stash and tasks (R405, R397, R401 to R403)
  | stashmap (h : Hdr) (upd : Bool) (a b : GReg) (c : Src32)
  | stashunmap (h : Hdr) (addr : Addr)
  | stashflush (h : Hdr) (addr : Addr) (b : GReg)
  | task (h : Hdr) (spec : Bool) (hm : HMode) (n : BitVec 4) (b c e : GReg) (func : Src32)
  | tgrid (h : Hdr) (n : BitVec 4) (b c e : GReg) (func : Src32)
  | depart (h : Hdr) (a : GReg) (func : Src32)
  | tend (h : Hdr)
  | mswait (h : Hdr)
  -- Porter (R410): ctl is IMMA
  | prpush (h : Hdr) (urg : Bool) (ctl : BitVec 32) (d a b c e : GReg)
  | prget (h : Hdr) (urg : Bool) (ctl : BitVec 32) (d a b c e : GReg)
  | prcopy (h : Hdr) (urg : Bool) (ctl : BitVec 32) (d a b c e : GReg)
  | prfill (h : Hdr) (urg : Bool) (ctl : BitVec 32) (d a b c e : GReg)
  | prgath (h : Hdr) (urg : Bool) (ctl rows : BitVec 32) (d a b c e : GReg)
  | prscat (h : Hdr) (urg : Bool) (ty : Ty) (ctl rows : BitVec 32) (d a b c e : GReg)
  | prrow (h : Hdr) (urg : Bool) (op : RowOp) (ty : Ty) (ctl : BitVec 32) (mask : BitVec 8) (tag : BitVec 16)
      (d a b c e : GReg)
  -- matrix engine (R424): ctl is IMMA, ldc is IMMB
  | mma (h : Hdr) (tc : Ty) (ctl ldc : BitVec 32) (d a b c e : GReg)
  | mmaq (h : Hdr) (tc : Ty) (ctl ldc : BitVec 32) (d a b c e : GReg)
  | mmab (h : Hdr) (tc : Ty) (ctl ldc : BitVec 32) (d a b c e : GReg)
  | accld (h : Hdr) (tc : Ty) (ctl ldc : BitVec 32) (d c e : GReg)
  | accst (h : Hdr) (tc : Ty) (ctl ldc : BitVec 32) (d c e : GReg)
  | jwait (h : Hdr) (st : Bool) (d a : GReg)
  | jpoll (h : Hdr) (d : PReg) (a : GReg)
  -- events: thread and engine progress
  | switchMarkerWake (th : Nat)
  | variableLatencyResult (th n : Nat)
  | engineQueueAccept (tile unit : Nat)
  | matrixJobStart (tile : Nat)
  | matrixBlockDone (tile : Nat)
  | matrixJobComplete (tile : Nat)
  | matrixJobFault (tile : Nat)
  | porterLineRequest (tile lane : Nat)
  | porterSourceBump (tile lane : Nat)
  | porterJobComplete (tile lane : Nat)
  | porterFault (tile lane : Nat)
  | prrowInstanceStart (tile tag : Nat)
  -- translation and faults
  | pageWalk (run : Nat) (core : Nat) (va : Nat) (write : Bool)
  | privateRelease (core : Nat) (page : Nat)
  | faultPost (die : Nat)
  | faultHeadWrite (die : Nat) (v : BitVec 64)
  | faultCfgWrite (v : BitVec 64)
  | fatalTileFault (tile : Nat)
  | deviceFatalError
  -- Lodges
  | taskAccept (n : Nat)
  | taskDispatch (tile : Nat)
  | spill (tile : Nat)
  | refill (tile : Nat)
  | discard (tile : Nat) (specid : Nat)
  | specMarkRequest (tile run line : Nat)
  | storeAtHome (n : Nat)
  | storeProbe (tile run line : Nat) (cv : BitVec 5) (ts : BitVec 64) (tb : BitVec 32) (specid : Nat)
  | loadProbe (tile run line : Nat) (ts : BitVec 64) (tb : BitVec 32) (specid : Nat)
  | restoreAtHome (tile : Nat)
  | probeAnswer (tile line : Nat)
  | milestoneLatch
  | milestoneBroadcast
  | otherRunReprobe (line : Nat)
  | loadBalance
  -- launch unit
  | queueEnable (q : Nat) (v : BitVec 64)
  | queueDisable (q : Nat)
  | reservationEnd (q : Nat)
  | headerReread (q : Nat)
  | launchTake
  | recordSeqRetry (q : Nat)
  | nopRecord (n : Nat)
  | taskRecord (n : Nat)
  | gridRecord (n : Nat)
  | gridEnter (tile : Nat)
  | queueAgeing
  | timedOverrun (n : Nat)
  | launchComplete (n : Nat)
  | runLoad (slot : Nat) (v : BitVec 64)
  | runCfgBadClear (slot : Nat) (v : BitVec 64)
  | preempt (slot : Nat)
  | resume (slot : Nat)
  | runTeardown (slot : Nat)
  | runKill (slot : Nat)
  -- memory system registers, keys, bias, host
  | spreadSizeWrite (v : BitVec 64)
  | hmaskWrite (k : Nat) (v : BitVec 64)
  | memkeyLoad (v : BitVec 64)
  | memkeyGenerate (v : BitVec 64)
  | memkeyDestroy (v : BitVec 64)
  | biasFlipToHost (host : Bool) (v : BitVec 64)
  | biasFlipToDevice (host : Bool) (v : BitVec 64)
  | birsp (line : Nat) (half : Bool) (modified : Bool) (data : BitVec 512)
  | hostMemRead (half : Nat)
  | hostMemWrite (half : Nat) (data : BitVec 512) (poison : Bool)
  | hostSnoop (half : Nat) (invalidate : Bool)
  | unassignedBar0Access (off : Nat) (write : Bool) (v : BitVec 64)
  -- links, power, firmware
  | flitReplay
  | lateralRetrainFail
  | fabricPortFail (port : Nat)
  | fabricPortUp (port : Nat)
  | hostPortFail
  | portTrainingHeld
  | powerThrottle (watts : Nat) (thermal : Bool)
  | criticalTemperature
  | fwSubmit (v : BitVec 64)
  | firmwareLoss
  | svcSubmit (v : BitVec 64)
  | spdmRequest (block : Nat)
  -- memory controllers
  | scrubRead (ctl : Nat) (err : Nat)
  | scrubDeadline (ctl : Nat)
  | scrubForcedRead (ctl : Nat)
  | selfRefreshEntry (pc : Nat)
  | selfRefreshExit (pc : Nat)
  | bloomClear
  | hbmWrite (line : Nat)
  -- coherence and replication
  | directoryEvict (lvl3 : Bool) (die line : Nat)
  | upgradeRequest (tile line : Nat) (v : View)
  | ownershipRequest (die line : Nat)
  | ownershipRecall (line : Nat)
  | sharerInvalidate (tile line : Nat) (cv : BitVec 5)
  | sourceFormatDemote (line : Nat)
  | replicaFill (quad line : Nat)
  | replicaDrop (quad line : Nat)
  | eagerCollapse (line : Nat)
  | lazyCollapse (line : Nat)
  | collapseAck (quad line : Nat)
  | regionEvaluation
  | replRstateWrite (v : BitVec 64)
  | pageHotnessHalving
  | hotSel (die : Nat) (v : BitVec 64)
  | dirSel (die : Nat) (v : BitVec 64)
  | lodgeCfgWrite (v : BitVec 64)
  -- waits
  | ctrwaitNotify (th : Nat)
  | ctrwaitTimeout (th : Nat)
  | ctrwaitPoll (th : Nat)
  | fltwaitTimeout (th : Nat)
  -- debug, sampling, replay
  | dbgHalt (tile : Nat)
  | dbgResume (tile : Nat)
  | dbgStep (tile : Nat)
  | crossTrigger (tile : Nat)
  | bell
  | bellRestart (v : BitVec 64)
  | coreDump (v : BitVec 64)
  | itineraryRecord (kind tile : Nat) (w1 w2 w3 : BitVec 64)
  | deviceReset
  | registerWrite (bar0 : Bool) (die num : Nat) (v : BitVec 64)
deriving DecidableEq, Repr

end Sys2Proof
end

