-- ==== Sys2Proof/Machine/State.lean ====
section
/-! DEFINITION. The state of the package as plain data, and its value after reset. Units are numbered as R10 and R11
number them: tiles 0–255, global core ids 0–2047, thread slots global core id · 8 + slot, dies and quadrants 0–3, run
slots 0–15, queues 0–63; a line is PA[51:7]. Sparse tables list only what differs from the unit's reset value. -/
namespace Sys2Proof.Machine
open Sys2Proof

/-- A task key (ts, tb) (R4). -/
structure Key where
  ts : BitVec 64
  tb : BitVec 32
deriving DecidableEq, Repr

/-- The three components of a grid value (R85). -/
structure V3 where
  x : BitVec 64
  y : BitVec 64
  z : BitVec 64
deriving DecidableEq, Repr

/-- Grid identity of a task (R84, R85, R188). -/
structure Ident where
  org : V3
  ext : V3
  gidx : V3
  gdim : V3
deriving DecidableEq, Repr

/-- A task (R94), with what the device keeps beside the fields of the table: the launch it counts towards (R87), the
line its ADDR hint resolved to (R110), and for a task entered by the launch unit whether a milestone round has shown it:
2 no latch has seen it, 1 a latch has and its broadcast is to come, 0 seen (R103); id tells apart the threads that a task is
dispatched to, 0 before the first (R165); readyUs counts the microseconds for which it has been ready on its tile (R81); standing: it has
earliest standing, which it keeps until it commits (R105, R106). -/
structure Task where
  func : BitVec 56
  ts : BitVec 64
  tb : BitVec 32
  hasTb : Bool
  floor : Key
  spec : Bool
  hmode : HMode
  hint : BitVec 64
  nargs : Nat
  args : List (BitVec 64)
  run : Nat
  aborts : Nat
  mw : Bool
  parent : Option Nat
  ident : Ident
  launch : Nat
  hintLine : Nat
  unseen : Nat
  id : Nat := 0
  readyUs : Nat := 0
  standing : Bool := false
deriving DecidableEq, Repr

/-- A stream descriptor with its state fields (R190). -/
structure Stream where
  base : BitVec 56
  bound : List Nat
  stride : List (BitVec 32)
  esz : Nat
  dir : Bool
  ch : BitVec 3
  pos : Nat
  bnd : Bool
  addr : BitVec 56
deriving DecidableEq, Repr

/-- REPEAT state (R196). -/
structure RepeatState where
  act : Bool
  next : Nat
  lenm : Nat
  left : Nat
  start : BitVec 56
deriving DecidableEq, Repr

/-- Trap causes (R160). -/
inductive Cause where
  | illop | fetchx | pendread | tsorder | streamx | align | page | prot | poison | peerfault | bkpt | swtrap | priv
  | tilefatal
deriving DecidableEq, Repr

/-- What the trapping access was (R161 ACC). -/
inductive Acc where | none | read | write | atomic | fetch | walk
deriving DecidableEq, Repr

/-- Ordering classes of pages (R242). -/
inductive Cls where | t | r | u
deriving DecidableEq, Repr

/-- A trap before it becomes a record: cause, access, addresses and detail (R161, R162), with the class and key slot of the leaf
that faulted, where there is one (R166), and WORD and PC where they are not those of the instruction that the thread stands at: WORD
where its block does not hold all of it (R291), both where an access that was issued before traps (log entry 47). -/
structure Trap where
  cause : Cause
  acc : Acc
  va : Nat
  pa : Option Nat
  detail : BitVec 32
  leaf : Option (Cls × Nat) := none
  word : Option (BitVec 64) := none
  pc : Option (BitVec 56) := none
deriving DecidableEq, Repr

/-- A map-remote reply not yet used: the reply page, and the class and key slot it is accessed with (R166). -/
structure Remote where
  page : Nat
  cls : Cls
  key : Nat
deriving DecidableEq, Repr

/-- Where a translated access is performed (R239): at a global line, in a tile's stash, or at the host or a peer. -/
inductive Place where
  | line
  | stash (tile : Nat)
  | system
deriving DecidableEq, Repr

/-- One translated part of an access, lying in one line: physical address (or stash offset), bytes, class, key slot,
what the leaf says of it (R169), for a peer's line the fabric port that the request was sent on (R63), and the level of the leaf
(R168). -/
structure Part where
  va : Nat
  place : Place
  pa : Nat
  len : Nat
  cls : Cls
  key : Nat
  sub : Bool
  priv : Bool
  bias : Bool
  remote : Bool
  port : Option Nat := none
  level : Nat := 0
deriving DecidableEq, Repr

/-- Who makes an access (R239). -/
inductive Agent where
  | thread (th : Nat)
  | porter (tile lane : Nat)
  | matrix (tile : Nat)
  | lodge (tile : Nat)
  | launch (id : Nat)
  | host
deriving DecidableEq, Repr

/-- What a store does at its home: write the bits of its mask, from data that may be poisoned (R55), or combine (R384,
R390). -/
inductive StoreOp where
  | write
  | poisoned
  | atom (op : AtomOp) (ty : Ty) (c : BitVec 64)
  | ctradd
deriving DecidableEq, Repr

/-- A store that has left its agent and is not yet performed (R247), or is performed and awaits collapses; sc: of an atom.red
with .sc (R253); next: the scope code of the first release or fence that its thread has issued after it (R284); twin: the other
part of its packed block (R266); pc and word of its instruction; stopped: its trap waits for a reply (R165). -/
structure PendStore where
  id : Nat
  agent : Agent
  run : Nat
  key : Key
  specid : Option Nat
  seq : Nat
  part : Part
  mask : Line
  data : Line
  op : StoreOp
  cls : Cls
  rel : Option Scope
  after : Nat
  log : Option (Nat × Part)
  hint : BitVec 3
  sc : Bool := false
  next : Option Nat := none
  twin : Option Nat := none
  pc : BitVec 56 := 0
  word : BitVec 64 := 0
  stopped : Bool := false
  answer : Bool := false
deriving DecidableEq, Repr

/-- A lane-guarded memory result still to be delivered (R156): what is read, and how it is written. -/
inductive OutKind where
  /-- Values known at issue (div, rem). -/
  | ready (v : BitVec 64)
  /-- ld into g: type. -/
  | loadG (ty : Ty)
  /-- ld of a line into w: element width, lane mask. -/
  | loadW (w : Nat) (mask : BitVec 64)
  /-- ld of packed blocks into w: element width, blocks, lane mask, base address. -/
  | loadPacked (w blocks : Nat) (mask : BitVec 64) (base : Nat)
  /-- lds: source, view, saturation, lane mask, into a w register. -/
  | loadSub (src : Ty) (view : View) (sat : Bool) (mask : BitVec 64) (toW : Bool)
  /-- gather: type, lane mask. -/
  | gather (ty : Ty) (mask : BitVec 64)
  /-- An atomic that returns the old value. -/
  | atom (op : AtomOp) (ty : Ty) (b c : BitVec 64)
  /-- ctrread. -/
  | ctrRead
  /-- ctrarrive, with its combine (max over f32, max over s64, sum over f32). -/
  | ctrArrive (max : Bool) (ty : Ty) (b : BitVec 64)
  /-- jpoll of a job id. -/
  | jpoll (id : Nat)
deriving DecidableEq, Repr

/-- A variable-latency result outstanding (R156); next and stopped as for a store in flight. -/
structure Outstanding where
  dst : BitVec 6
  kind : OutKind
  parts : List Part
  acq : Option Scope
  rel : Option Scope
  seq : Nat
  pc : BitVec 56
  word : BitVec 64
  hint : BitVec 3
  sc : Bool
  log : Option (Nat × Part)
  next : Option Nat := none
  stopped : Bool := false
deriving DecidableEq, Repr

/-- A matrix job as latched at issue (R421, R438): its instruction, the registers it names, the thread slot and task that issued
it, row-progress, and the map-remote
replies it has had for the block in hand, by VA line and kind of access (R437). -/
structure MatrixJob where
  id : Nat
  ins : Instr
  aval : BitVec 64
  bval : BitVec 64
  cval : BitVec 64
  dims : BitVec 64
  lds : BitVec 64
  ctrva : BitVec 64
  mq : List (BitVec 64)
  fmt : List (BitVec 64)
  run : Option Nat
  runid : Nat
  key : Key
  launch : Nat
  th : Nat
  task : Nat
  hint : BitVec 3
  rp : Nat
  started : Bool
  remotes : List ((Nat × Acc) × Remote)
deriving DecidableEq, Repr

/-- A Porter job as latched at issue (R410 to R415): its instruction, the registers it names, the thread slot and task that issued
it, byte-progress, whether its
source bump is done, the row instance it joined (R420), and its map-remote replies for the line access in hand. -/
structure PorterJob where
  id : Nat
  ins : Instr
  dst : BitVec 64
  src : BitVec 64
  cval : BitVec 64
  count : BitVec 64
  dctr : BitVec 64
  sctr : BitVec 64
  run : Option Nat
  key : Key
  launch : Nat
  th : Nat
  task : Nat
  hint : BitVec 3
  progress : Nat
  srcBumped : Bool
  rowInst : Option Nat
  remotes : List ((Nat × Acc) × Remote)
deriving DecidableEq, Repr

/-- A job of either engine. -/
inductive Job where
  | matrix (j : MatrixJob)
  | porter (j : PorterJob)
deriving DecidableEq, Repr

/-- Why a thread issues nothing; the instruction at its PC is issued again when the cause ends, unless the case says
otherwise. -/
inductive Park where
  /-- Not parked. -/
  | run
  /-- At a marked instruction with results pending (R157, R159). -/
  | marker
  /-- PENDREAD: the trap is taken once the outstanding results have arrived (R158). -/
  | pendread
  /-- At an irrevocable action, a full undo log or mswait, until the task is earliest (R114, R143, R403, R409, R422). -/
  | earliest
  /-- Holding a trap until the task is earliest (R116). -/
  | held (t : Trap)
  /-- A record waits to be posted, or is posted and waits for its reply (R161). -/
  | fault
  /-- A job waits for a full engine queue: unit 0 matrix, 1 normal lane, 2 urgent lane (R204, R205). -/
  | offer (unit : Nat) (job : Job) (d : GReg) (len : Nat)
  /-- A task created and not yet accepted by its Lodge (R122): its number, the instruction's length, and whether the
  instruction ends the task (depart). -/
  | send (id len : Nat) (ends : Bool)
  /-- tgrid waits for grid records, with the descriptor it has read (R399, R400). -/
  | grid (image : Nat)
  /-- Earlier stores of the thread must be performed with respect to the scope (R248, R249, R331, R402, R413). -/
  | stores (scope : Scope)
  /-- The line or register waited for belongs to another run, or to a page in migration (R59, R120). -/
  | home
  /-- jwait (R439). -/
  | jwait (id : Nat)
  /-- ctrwait (R392): destinations, address, target, cycles left, next poll interval (0: holds a wait-table entry). -/
  | ctrwait (d e : GReg) (part : Part) (target : BitVec 64) (left : Nat) (poll : Nat) (wait : Nat) (scope : Scope)
      (len : Nat)
  /-- fltwait (R333). -/
  | fltwait (d : GReg) (left : Nat) (len : Nat)
  /-- Stopped by pre-emption or kill (R179, R183). -/
  | stop
  /-- At a BKPT that halted the tile: on resume the thread continues after it (R277). -/
  | bkpt
deriving DecidableEq, Repr

/-- What a release left with an 8-byte word it wrote (R250, R251): its scope, the thread slot that stands for its agent, and the
collapses (quadrant, line) that the agent still waited for (log entry 72). -/
structure Carry where
  word : Nat
  scope : Scope
  th : Nat
  due : List (Nat × Nat)
deriving DecidableEq, Repr

/-- A thread slot's state (R184), with what the slot keeps of its task and of its outstanding accesses. fences holds the
sequence numbers of fences whose earlier accesses are not all bound; remote the map-remote replies not yet used, by VA page
(R166); fenceScope the widest scope of a fence it has executed, and seen what releases left with words that it has read without an
acquire, for a fence after them (R250). -/
structure Thread where
  task : Option Task
  g : Vector (BitVec 64) 16
  w : Vector Line 32
  m : Vector (BitVec 64) 8
  p : Vector Bool 8
  pc : BitVec 56
  streams : List Stream
  rep : RepeatState
  fmt : List (BitVec 64)
  sr : BitVec 32
  mq : List (BitVec 64)
  sbase : BitVec 56
  pend : BitVec 64
  park : Park
  outs : List Outstanding
  block : Option (Nat × BitVec 256)
  kept : List (Nat × BitVec 256)
  entry : Option Nat
  nolog : Bool
  seq : Nat
  lastIssue : Nat
  ending : Bool
  fences : List Nat
  remote : List (Nat × Remote)
  fenceScope : Option Scope := none
  seen : List Carry := []
deriving DecidableEq, Repr

/-- One undo-log entry as the Lodge holds it until it is written (R142). -/
structure LogEntry where
  pa : Nat
  key : Nat
  old : BitVec 64
  valid : Bool
deriving DecidableEq, Repr

/-- A commit-queue entry (R124, R131 to R133); doneAt is the cycle in which its task finished (R148). -/
structure CqEntry where
  task : Task
  th : Option Nat
  finished : Bool
  marked : Bool
  incarnation : Nat
  write : List (BitVec 512)
  full : List (BitVec 512)
  reduced : List (BitVec 512)
  tag : View
  lines : List Nat
  linesOvf : Bool
  log : List LogEntry
  children : List Nat
  depart : Option Nat
  ovf : Bool
  seq : Nat
  aborting : Bool
  creatorAborted : Bool
  doneAt : Nat := 0
deriving DecidableEq, Repr

/-- A grid record of a Lodge (R400), or a launch's share of a grid on one tile (R86). -/
structure GridRec where
  func : BitVec 56
  ts : BitVec 64
  ext : List Nat
  sub : List Nat
  dims : List Nat
  next : Nat
  stop : Nat
  nargs : Nat
  args : List (BitVec 64)
  run : Nat
  launch : Nat
  parent : Option Nat
  tile : Nat
  launchUnit : Bool
deriving DecidableEq, Repr

/-- A task sent and not yet accepted: sender tile (none for the launch unit), destination (R122, R147). -/
structure Sent where
  id : Nat
  sender : Option Nat
  tile : Nat
  task : Task
  th : Option Nat
deriving DecidableEq, Repr

/-- What the device keeps of a spilled record beside its 256 bytes: the task's launch (R87), the line of its ADDR hint (R110)
whether a round has shown it (R103), whether it has a creator whose speculation id is 0, which PARENT can not tell from none (log
entry 13), and of a task with a tiebreaker its key and whether it has earliest standing (R106). -/
structure SpillNote where
  launch : Nat
  hintLine : Nat
  unseen : Nat
  ofZero : Bool := false
  key : Option Key := none
  standing : Bool := false
deriving DecidableEq, Repr

/-- A spilled block (R126): its number in the area and its records' notes. -/
structure SpillBlock where
  block : Nat
  notes : List SpillNote
deriving DecidableEq, Repr

/-- A Lodge (06), one per tile. Tables by run slot: those of a saved run stand at 16 + its RUNID. blocks lists a run's
spilled blocks, the one spilled last at the end; discards the speculation ids, with their runs, whose spilled children are
still to be marked (R129). -/
structure Lodge where
  queue : List Task
  cq : Sparse CqEntry
  incarnations : Sparse Nat
  ctr : Sparse Nat
  maxTs : Sparse (BitVec 64)
  spmin : Sparse Key
  spblk : Sparse Nat
  blocks : Sparse (List SpillBlock)
  grids : List GridRec
  lastRun : Nat
  spillFault : Bool
  discards : List (Nat × Nat)
deriving DecidableEq, Repr

/-- The configuration a run was loaded with (R79). -/
structure RunCfg where
  runid : Nat
  asid : Nat
  ptroot : Nat
  spill : Nat
  loga : Nat
  stack : Nat
  save : Nat
  bmap : Nat
  splog : Nat
deriving DecidableEq, Repr

/-- Run-slot states (R79). -/
inductive RunPhase where | free | resident | preempting | ending
deriving DecidableEq, Repr

/-- A run slot (R79), with its milestone and commit floor (R83, R102 to R104); ended lists the timestamps of finished
assured tasks that do not yet count as committed; ends: a launch of it had ENDRUN (R89); resuming: its save area is still to
be read; returning: the saved threads that have not yet found their slots free, with their tasks (R180). -/
structure Run where
  phase : RunPhase
  gen : Nat
  cfgpa : Nat
  bad : Bool
  cfg : RunCfg
  milestone : Key
  latched : Key
  floor : Key
  killed : Bool
  ended : List (BitVec 64)
  ends : Bool
  resuming : Bool
  returning : List (Nat × Task)
  loading : Bool := false
deriving DecidableEq, Repr

/-- A stash mapping (R200), with its mode and the run that made it. -/
structure Mapping where
  tile : Nat
  idx : Nat
  run : Nat
  vbase : Nat
  pages : Nat
  soff : Nat
  upd : Bool
deriving DecidableEq, Repr

/-- A saved run (R80): its configuration, and what its save area does not hold: the jobs, each under tile · 128 + its
place (matrix queue 0–15, normal lane 64–95, urgent lane 96–127), the tasks of its saved threads by slot, its mappings, the
tiles whose stash was copied, and the timestamps of finished assured tasks that do not yet count as committed (R104). -/
structure SavedRun where
  jobs : List (Nat × Job)
  tasks : List (Nat × Task)
  maps : List Mapping
  images : List Nat
  cfg : RunCfg
  cfgpa : Nat
  milestone : Key
  floor : Key
  level : Nat
  order : Nat
  ends : Bool
  killed : Bool
  ended : List (BitVec 64) := []
  porter : List (Nat × List (BitVec 64)) := []
deriving DecidableEq, Repr

/-- How far an enabling has come: off, its header still to be read (R73), a timed queue's tiles being cleared (R90), on. -/
inductive QueuePhase where | off | opening | clearing | on
deriving DecidableEq, Repr

/-- A queue as the launch unit holds it (R72 to R77). mismatch: the next record's SEQ did not match when it was last read
(R75); base: DONE as the last enabling found it (R72). -/
structure Queue where
  phase : QueuePhase
  hdr : Nat
  mismatch : Bool
  tail : Nat
  taken : Nat
  done : Nat
  doneSet : List Nat
  base : Nat
  ring : Nat
  prio : Nat
  logn : Nat
  timed : Bool
  window : Nat
  frac : Nat
  tmask : BitVec 256
  rej : Nat
  ovr : Nat
  err : Nat
  waitUs : Nat
deriving DecidableEq, Repr

/-- How far a launch has come: its work still to be entered, waiting there for a fault's reply (R84), its work entered,
its counter still to be bumped, waiting there for a reply (R87). -/
inductive LaunchPhase where | ready | held | working | bump | bumpHeld
deriving DecidableEq, Repr

/-- A live launch (R77, R87 to R92). run is noRun for a record that joined none; status a code that ends it early; old:
taken before an enabling that changed its queue's counts (R72); deadline in cycles, budget and charge in tile-cycles; args the
argument words of a GRID record once they are read (R84); tmask the reservation it was taken under, held for a NOP launch of a timed
queue, and for the others once their queue has been enabled again (R90). -/
structure Launch where
  id : Nat
  queue : Nat
  record : Nat
  slotPa : Nat
  words : List (BitVec 64)
  run : Nat
  level : Nat
  aged : Nat
  deadline : Nat
  budget : Nat
  charge : Nat
  overrun : Bool
  timed : Bool
  status : Option Nat
  entered : Bool
  old : Bool
  phase : LaunchPhase
  args : Option (List (BitVec 64)) := none
  tmask : Option (BitVec 256) := none
deriving DecidableEq, Repr

/-- A TLB or walk-cache entry (R172, R173): holder (core id, or 2048 + tile, or 4096 + quadrant for a walk cache). -/
structure TlbEntry where
  unit : Nat
  run : Nat
  gen : Nat
  asid : Nat
  page : Nat
  level : Nat
  pte : BitVec 64
deriving DecidableEq, Repr

/-- A line in a core's L1D (R208, R216), or L1I; hint is the cache hint and cls the page class of the access that brought it (R231,
R296). -/
structure L1Line where
  core : Nat
  line : Nat
  icache : Bool
  key : Nat
  src : Ty
  tag : View
  untracked : Bool
  hint : BitVec 3
  data : Line
  cls : Cls := .t
deriving DecidableEq, Repr

/-- An L2 home entry (R213), per die and line, with the key slot its data is tagged with (R44) and the cache hint of the access
that brought it (R296). -/
structure L2Entry where
  die : Nat
  line : Nat
  swm : BitVec 64
  srm : BitVec 64
  srun : Nat
  hw : Bool
  dst : Nat
  dfmt : View
  sf : Option Ty
  recs : List (Nat × View × Bool)
  ovf : Bool
  vec : BitVec 64
  key : Nat
  hint : BitVec 3
  data : Line
deriving DecidableEq, Repr

/-- An L3 home entry (R214). -/
structure L3Entry where
  line : Nat
  cpq : BitVec 4
  srun : Nat
  swm : BitVec 4
  srm : BitVec 4
  hw : Bool
  sf : Option Ty
  own : Option Nat
  rep : BitVec 4
  drec : List (Option (View × Bool))
  data : Bool
deriving DecidableEq, Repr

/-- A replica in a waystation, or the fill of one in flight (R229), with the class of the page whose access asked for it
(R233). -/
structure Replica where
  quad : Nat
  line : Nat
  key : Nat
  cls : Cls
  data : Line
deriving DecidableEq, Repr

/-- A region's replication state (R227, R228). -/
structure Region where
  deg : Nat
  qset : BitVec 4
  floor : Nat
  ceil : Nat
  rq : List Nat
  wr : Nat
deriving DecidableEq, Repr

/-- A lazily acknowledged collapse, who is charged with it (R232), the performed stores that await it (R284), and the mapped stash
line whose write-back caused it last, which stays clean (R203): its tile and offset. -/
structure Collapse where
  quad : Nat
  line : Nat
  cv : BitVec 5
  charged : List Agent
  held : List PendStore
  spare : Option (Nat × Nat) := none
deriving DecidableEq, Repr

/-- A page-hotness entry (R237). -/
structure HotEntry where
  page : Nat
  count : Nat
  sx : Nat
  sy : Nat
  qc : List Nat
deriving DecidableEq, Repr

/-- A scope-checker tag (R283): the word's release scope, the thread slot of the releasing agent (for a job, that of the thread
that issued it, R1), and whether the agent is no thread itself. -/
structure ScopeTag where
  word : Nat
  scope : Scope
  th : Nat
  engine : Bool
deriving DecidableEq, Repr

/-- An operation carrying .sc that is issued and not yet performed with respect to .dev (R253): its 16-cycle window, its thread
slot, and its place in the thread's program order; done: it is performed at its serialising point, and its collapses are awaited. -/
structure ScOp where
  window : Nat
  th : Nat
  seq : Nat
  done : Bool := false
deriving DecidableEq, Repr

/-- Coherence state (09); wide lists the wide tiles (tile, run, sequence number of the eviction) and wideDies the wide dies (R136);
filling the replica fills in flight (R214, R229); carries what releases left with the words they wrote (R251); leaving the pages whose
private state a core has still to give up: owner core, first byte and size (R210); headers the queue header lines that the launch unit
holds a copy of: queue and line (R74). -/
structure Coherence where
  l1 : List L1Line
  l2 : List L2Entry
  l3 : List L3Entry
  replicas : List Replica
  filling : List Replica
  wide : List (Nat × Nat × Nat)
  wideDies : List (Nat × Nat × Nat)
  regions : Sparse Region
  collapses : List Collapse
  fills : Sparse Nat
  colls : Sparse Nat
  hits : Sparse Nat
  hot : Sparse HotEntry
  scopeTags : List ScopeTag
  bloom : Sparse Bool
  carries : List Carry
  leaving : List (Nat × Nat × Nat)
  headers : List (Nat × Nat)
deriving DecidableEq, Repr

/-- Key material of a key slot (R45, R46): made by the device's random source, or loaded. -/
inductive KeyMaterial where
  | generated (n : Nat)
  | loaded (v : BitVec 512)
deriving DecidableEq, Repr

/-- A line modified on the chip and not yet in HBM: its key slot, its bytes, its poison bit (R40, R44). -/
structure ChipLine where
  key : Nat
  data : Line
  poison : Bool
deriving DecidableEq, Repr

/-- The copy of a half that the host or a peer holds (R43, R59): one of which it has answered BISnpData, one that it may come to modify
with no word to the home, one that it has modified. -/
inductive HostCopy where | shared | sole | modified
deriving DecidableEq, Repr

/-- Main memory and what lies above it on the chip (02). HBM bytes are listed by line-slot byte address, an unlisted one reading 0 (log
entry 2); hostLines lists the 64-byte halves the home records at the host or a peer, snoops the back-invalidate snoops sent and not
answered (true: invalidating) (R59); slotKey gives the key material and the tweak each slot was last written under (R44), and slotPoison
the slots that hold the poison code (R40); errors the slots whose stored bursts have an error that no read has found yet (true:
uncorrectable) (R26, R36). Per pseudo-channel: how many of its slots the pass has read (R36), and the cycle of its last request (R39).
Per memory controller: the cycle its pass began, its level, the cycle of its last scrub read, and whether the pass is past its deadline
(R36, R37). Lines modified on the chip are listed by line address; bytes of system space by physical address. Per half of a system-space
line that the device holds through CXL.cache: the state granted (1 shared, 2 owned), whether the device has modified it, and asked, the
requests not yet granted (true: to own it) (R53); heldPort gives the fabric port that a peer line was requested through (R63, R65). -/
structure Memory where
  hbm : List Host.Cell
  chip : Sparse ChipLine
  sys : List Host.Cell
  slotPoison : List Nat
  sysPoison : List Nat
  slotKey : Sparse (KeyMaterial × Nat)
  size : Sparse (BitVec 2)
  keys : Sparse KeyMaterial
  randoms : Nat
  errors : Sparse Bool
  selfRefresh : List Nat
  requested : Sparse Nat
  scrub : Sparse Nat
  scrubLast : Sparse Nat
  scrubStart : Sparse Nat
  scrubLevel : Sparse Nat
  scrubLate : List Nat
  bias : Sparse (BitVec 2)
  hostLines : Sparse HostCopy
  snoops : Sparse Bool
  grants : Sparse Nat
  dirty : List Nat
  asked : Sparse Bool
  heldPort : Sparse Nat
deriving DecidableEq, Repr

/-- A mapped stash line that is not invalid (R201), the agents whose stores stand in it since it was last clean (R232), and the
stores in it that await its write-back (R284). -/
structure MapLine where
  tile : Nat
  off : Nat
  pa : Nat
  key : Nat
  cls : Cls
  dirty : Bool
  upd : Bool
  by_ : List Agent
  held : List PendStore
  level : Nat := 0
deriving DecidableEq, Repr

/-- The stashes (R199 to R203): bytes keyed by tile · 2^20 + offset, an unlisted one reading 0. -/
structure Stash where
  cells : List Host.Cell
  maps : List Mapping
  lines : List MapLine
  poison : List Nat
  touched : List (Nat × Nat)
deriving DecidableEq, Repr

/-- An instance of the row collective (R420). -/
structure RowInst where
  quad : Nat
  row : Nat
  tag : Nat
  run : Nat
  inst : Nat
  mask : BitVec 8
  op : RowOp
  ty : Ty
  elems : Nat
  joined : BitVec 8
  started : Bool
  faulted : Bool
deriving DecidableEq, Repr

/-- A tile's engines (R204 to R206, R421 to R441). -/
structure Engines where
  mq : List MatrixJob
  lanes : List (List PorterJob)
  mcount : Nat
  pcount : List Nat
  mdone : List (Nat × Bool)
  pdone : List (List (Nat × Bool))
  last : List (Option Nat)
  mfault : Bool
  pfault : List Bool
deriving DecidableEq, Repr

/-- A record raised and not yet answered (R161, R163): its agent, die, the eight words but TOKEN, its TOKEN once
posted, and the requests of the same page that have joined it, each by its agent and VA (R173). -/
structure Record where
  agent : Agent
  die : Nat
  words : List (BitVec 64)
  token : Option (BitVec 32)
  trap : Trap
  run : Option Nat
  joined : List (Agent × Nat)
deriving DecidableEq, Repr

/-- Where an uncorrectable soft error strikes (R40): a line's copies above HBM, or a line of a tile's stash. -/
inductive Struck where
  | line (n : Nat)
  | stash (tile line : Nat)
deriving DecidableEq, Repr

/-- One move of the schedule: a step of one of the table's events, an instruction issue of one thread slot, cycles that pass, or
something that happens to the device from outside and that no row of the table names: the host port trains (R48, HOSTW's code), the
host or a switch grants one half of a system-space line (R53), the host or a peer modifies its copy of a half (R43, R59), the stored
bursts of an HBM slot come to hold an error (R26), an uncorrectable soft error strikes (R40). The model's own data (log entry 1). -/
inductive Move where
  | perform (e : Instr)
  | issue (th : Nat)
  | pass (n : Nat)
  | hostTrain (width : Nat)
  | cacheGrant (half state : Nat)
  | holderModify (k : Nat)
  | hbmError (slot : Nat) (uncorrectable : Bool)
  | softError (s : Struck)
deriving DecidableEq, Repr

/-- A CXL.cache message that the device sends for one half of a system-space line (R53, R54): a request to hold it, a write-back or
eviction with its dirty indication, a snoop response with its final state (0 invalid, 1 shared). -/
inductive CacheMsg where
  | request (half : Nat) (own : Bool)
  | writeBack (half : Nat) (dirty : Bool)
  | response (half state : Nat)
deriving DecidableEq, Repr

/-- The host side (03): ports, firmware and device-side bookkeeping the registers show; events the records of the CXL device event
log (severity 0 Warning, 1 Failure, 2 Fatal, and what is reported) and msix the interrupts sent with them, by the log's vector
(R66); cache the CXL.cache messages sent (R53, R54); waiting the host and peer reads that wait at their homes, as HOST_MEM_READ names
them (R57). -/
structure HostSide where
  hostUp : Bool
  fabUp : BitVec 12
  hostWidth : Nat
  staging : List Host.Cell
  fwDigest : Option (BitVec 512)
  svcDigest : Option (BitVec 512)
  layoutDigest : Option (BitVec 512)
  svn : BitVec 4
  events : List (Nat × Nat)
  read : BitVec 512
  readPoison : Bool
  msix : List Nat
  signature : BitVec 512
  bar0Read : BitVec 64
  cache : List CacheMsg
  waiting : List Nat
deriving DecidableEq, Repr

/-- Debug, sampling and replay (12). stepping lists the threads that still issue one instruction of a step; triggers the
halted tiles whose cross-trigger is on its way (R278); window the host's writes to thread state, by BAR0 offset, that take
effect at resume (R280). -/
structure Debug where
  halted : List Nat
  stepping : List Nat
  triggers : List Nat
  window : List (Nat × BitVec 64)
  bellTick : Nat
  bellPrev : List (Nat × BitVec 64)
  bellNext : Nat
  pmcVal : Sparse (BitVec 64)
  pmcEvt : Sparse (BitVec 64)
  csn : Nat
  itinOff : Nat
  itinTaken : Sparse Nat
  itinStopped : Bool
deriving DecidableEq, Repr

/-- The package. balance is the cycle at which the balancing interval under way ends (R125); rounded: the milestone round under way
has been counted in ROUND (R148). -/
structure State where
  cycle : Nat
  agenda : List Move
  focus : Nat
  fresh : Nat
  fatal : Bool
  threads : Sparse Thread
  stores : List PendStore
  nextStore : Nat
  scOps : List ScOp
  regs : Sparse (BitVec 64)
  bar0 : Sparse (BitVec 64)
  mem : Memory
  stash : Stash
  coh : Coherence
  tlb : List TlbEntry
  lodges : Sparse Lodge
  sent : List Sent
  runs : Sparse Run
  saved : List SavedRun
  queues : Sparse Queue
  launches : List Launch
  lastQueue : Option Nat
  latchCycle : Option Nat
  rounded : Bool
  round : BitVec 32
  balance : Nat
  periodic : Sparse Nat
  grids : List GridRec
  engines : Sparse Engines
  acc : Sparse (BitVec 80)
  accTag : Sparse Nat
  rows : List RowInst
  rowCount : Sparse Nat
  records : List Record
  tokens : Nat
  host : HostSide
  dbg : Debug
deriving DecidableEq, Repr

/-- Faults: why the model's step has no next state although it runs. -/
inductive Fault where
  /-- An instruction was executed by itself on a thread slot that holds no thread; raised by every instruction's meaning
  when the focus slot is empty. Safe: the hardware issues no instruction there. -/
  | noThread
  /-- The device has stopped every run for a fatal error and accepts no work until reset, and nothing is scheduled
  (R17, R24, R65, R167); raised by step. Safe: nothing happens in the hardware either. -/
  | fatalStop
deriving DecidableEq, Repr

/-- Refusals. -/
inductive Refusal where
  /-- The instruction has no meaning in the model yet; raised by its arm of exec. Safe. -/
  | notModelled (mnemonic : String)
deriving DecidableEq, Repr

/-- The all-ones key of a run with nothing counted (R103). -/
def Key.allOnes : Key := ⟨BitVec.allOnes 64, BitVec.allOnes 32⟩
/-- The zero key (R83: the commit floor of a new run). -/
def Key.zero : Key := ⟨0, 0⟩

/-- A free run slot's configuration. -/
def RunCfg.none : RunCfg := ⟨0, 0, 0, 0, 0, 0, 0, 0, 0⟩

/-- A run slot after reset (R79). -/
def Run.reset : Run :=
  { phase := .free, gen := 0, cfgpa := 0, bad := false, cfg := RunCfg.none, milestone := Key.allOnes,
    latched := Key.allOnes, floor := Key.zero, killed := false, ended := [], ends := false, resuming := false,
    returning := [] }

/-- A Lodge after reset. -/
def Lodge.reset : Lodge :=
  { queue := [], cq := [], incarnations := [], ctr := [], maxTs := [], spmin := [], spblk := [], blocks := [],
    grids := [], lastRun := 16, spillFault := false, discards := [] }

/-- A tile's engines after reset (R204, R206). -/
def Engines.reset : Engines :=
  { mq := [], lanes := [[], []], mcount := 0, pcount := [0, 0], mdone := [], pdone := [[], []],
    last := [none, none, none], mfault := false, pfault := [false, false] }

/-- A queue after reset (R71). -/
def Queue.reset : Queue :=
  { phase := .off, hdr := 0, mismatch := false, tail := 0, taken := 0, done := 0, doneSet := [], base := 0, ring := 0, prio := 0, logn := 4, timed := false, window := 0, frac := 0, tmask := 0, rej := 0, ovr := 0, err := 0,
    waitUs := 0 }

/-- A region after reset (R235: CEIL 3, FLOOR 0, DEG 0). -/
def Region.reset : Region := { deg := 0, qset := 0, floor := 0, ceil := 3, rq := [0, 0, 0, 0], wr := 0 }

/-- The package right after reset: no thread, no run, no task; every register at its map's reset value (regs and bar0
list only what was written; R8), memory and stash listing nothing (R203 gives the stash zero; log entry 2 the rest). -/
def State.reset : State :=
  { cycle := 0, agenda := [], focus := 0, fresh := 0, fatal := false, threads := [], stores := [], nextStore := 0, scOps := [],
    regs := [], bar0 := [],
    mem := { hbm := [], chip := [], sys := [], slotPoison := [], sysPoison := [], slotKey := [], size := [],
             keys := [(0, .generated 0)], randoms := 1, errors := [], selfRefresh := [], requested := [], scrub := [],
             scrubLast := [], scrubStart := [],
             scrubLevel := [], scrubLate := [], bias := [], hostLines := [], snoops := [], grants := [], dirty := [], asked := [],
             heldPort := [] },
    stash := { cells := [], maps := [], lines := [], poison := [], touched := [] },
    coh := { l1 := [], l2 := [], l3 := [], replicas := [], filling := [], wide := [], wideDies := [], regions := [], collapses := [],
             fills := [], colls := [], hits := [], hot := [], scopeTags := [], bloom := [],
             carries := [], leaving := [], headers := [] },
    tlb := [], lodges := [], sent := [], runs := [], saved := [], queues := [], launches := [], lastQueue := none,
    latchCycle := none, rounded := false, round := 0, balance := 4096, periodic := [], grids := [], engines := [], acc := [], accTag := [], rows := [], rowCount := [],
    records := [], tokens := 0,
    host := { hostUp := false, fabUp := 0, hostWidth := 0, staging := [], fwDigest := none, svcDigest := none,
              layoutDigest := none, svn := 0, events := [], msix := [], read := 0, readPoison := false, signature := 0,
              bar0Read := 0, cache := [], waiting := [] },
    dbg := { halted := [], stepping := [], triggers := [], window := [], bellTick := 0, bellPrev := [], bellNext := 0, pmcVal := [], pmcEvt := [],
             csn := 0, itinOff := 0, itinTaken := [], itinStopped := false } }

end Sys2Proof.Machine
end

