-- ==== Sys2Proof/Machine/Ops.lean ====
section
/-! DEFINITION. The operations every meaning shares: the register file of a thread, parking, taking a trap and answering
it, the issue checks of R293, and the end of an instruction with its REPEAT step (R327). -/
namespace Sys2Proof.Machine
open Sys2Proof

/-- What exec and step answer. -/
abbrev Out := Host.Outcome State Fault Refusal

/-- Clear the bits of a number above n. -/
def maskBits (n x : Nat) : Nat := x % 2 ^ n

-- Units (R10, R11).

/-- Global core id of a thread slot. -/
def coreOf (th : Nat) : Nat := th / 8
/-- Tile id of a thread slot. -/
def tileOf (th : Nat) : Nat := th / 64
/-- Die (quadrant) of a tile. -/
def dieOfTile (tile : Nat) : Nat := tile / 64
/-- The Innkeeper cores are core 0 of tiles 0x00, 0x40, 0x80 and 0xC0 (R155). -/
def isInnkeeperCore (core : Nat) : Bool := core % 512 == 0
/-- A tile that holds an Innkeeper. -/
def isInnkeeperTile (tile : Nat) : Bool := tile % 64 == 0
/-- The Innkeeper tile of a die. -/
def innkeeperTile (die : Nat) : Nat := die * 64

-- Keys (R4).

/-- Earlier than. -/
def Key.lt (a b : Key) : Bool := decide (a.ts.toNat < b.ts.toNat) || (a.ts == b.ts && decide (a.tb.toNat < b.tb.toNat))
/-- Earlier than or equal to. -/
def Key.le (a b : Key) : Bool := a == b || a.lt b
/-- The earlier of two keys. -/
def Key.min (a b : Key) : Key := if b.lt a then b else a

/-- The key of a task that has its TB; (TS, 0) for an assured one (R4). -/
def Task.key (t : Task) : Key := if t.spec then ⟨t.ts, t.tb⟩ else ⟨t.ts, 0⟩
/-- The key at which a task counts (R103). -/
def Task.counted (t : Task) : Key :=
  if !t.spec then ⟨t.ts, 0⟩
  else if t.hasTb then ⟨t.ts, t.tb⟩
  else if t.floor.ts == t.ts then ⟨t.ts, t.floor.tb + 1⟩ else ⟨t.ts, 1⟩

-- The register file (R184, R185).

/-- Read a g register. -/
def Thread.getG (t : Thread) (r : GReg) : BitVec 64 := t.g.get ⟨r.toNat, r.isLt⟩
/-- Write a g register. -/
def Thread.setG (t : Thread) (r : GReg) (v : BitVec 64) : Thread := { t with g := t.g.set r.toNat v r.isLt }
/-- Read a w register. -/
def Thread.getW (t : Thread) (r : WReg) : Line := t.w.get ⟨r.toNat, r.isLt⟩
/-- Write a w register. -/
def Thread.setW (t : Thread) (r : WReg) (v : Line) : Thread := { t with w := t.w.set r.toNat v r.isLt }
/-- Read an m register; m0 reads all-ones. -/
def Thread.getM (t : Thread) (r : MReg) : BitVec 64 :=
  if r = 0 then BitVec.allOnes 64 else t.m.get ⟨r.toNat, r.isLt⟩
/-- Write an m register; a write to m0 is discarded. -/
def Thread.setM (t : Thread) (r : MReg) (v : BitVec 64) : Thread :=
  if r = 0 then t else { t with m := t.m.set r.toNat v r.isLt }
/-- Read a p register; p0 reads true. -/
def Thread.getP (t : Thread) (r : PReg) : Bool := if r = 0 then true else t.p.get ⟨r.toNat, r.isLt⟩
/-- Write a p register; a write to p0 is discarded. -/
def Thread.setP (t : Thread) (r : PReg) (v : Bool) : Thread :=
  if r = 0 then t else { t with p := t.p.set r.toNat v r.isLt }

/-- Operand numbers (R185) of registers, for pending bits and names. -/
def numG (r : GReg) : Nat := r.toNat
/-- The number of a w register. -/
def numW (r : WReg) : Nat := 16 + r.toNat
/-- The number of an m register. -/
def numM (r : MReg) : Nat := 48 + r.toNat
/-- The number of a p register. -/
def numP (r : PReg) : Nat := 56 + r.toNat
/-- The number of a g or w operand. -/
def numGW : GW → Nat
  | .g r => numG r
  | .w r => numW r
/-- The g register a last source names, if it names one. -/
def numSrc : Src → List Nat
  | .reg r => [numG r]
  | _ => []
/-- The same for a form with two lengths. -/
def numSrc32 : Src32 → List Nat
  | .reg r => [numG r]
  | .imm _ => []

/-- Set the pending bit of a register; those of m0 and p0 never set (R185). -/
def Thread.setPend (t : Thread) (n : Nat) : Thread :=
  if n = 48 ∨ n = 56 then t else { t with pend := t.pend ||| (1#64 <<< n) }
/-- Clear the pending bit of a register. -/
def Thread.clearPend (t : Thread) (n : Nat) : Thread := { t with pend := t.pend &&& ~~~(1#64 <<< n) }
/-- A register named by its number is pending. -/
def Thread.pending (t : Thread) (n : Nat) : Bool := t.pend.getLsbD n

/-- The scalar guard (R294). -/
def Thread.guard (t : Thread) (pg : BitVec 4) : Bool := t.getP (pg.setWidth 3) != pg.getLsbD 3
/-- The mask the lane guard selects with, after its negation (R295). -/
def Thread.laneMask (t : Thread) (mg : BitVec 4) : BitVec 64 :=
  if mg.getLsbD 3 then ~~~(t.getM (mg.setWidth 3)) else t.getM (mg.setWidth 3)

-- Threads of the package.

/-- The thread in a slot. -/
def State.thread? (s : State) (th : Nat) : Option Thread := Sparse.get? s.threads th
/-- Put a thread into a slot. -/
def State.setThread (s : State) (th : Nat) (t : Thread) : State := { s with threads := Sparse.set s.threads th t }
/-- Free a slot; a place that its task has in S ends with it (R253), and its part in a single-step (R280). -/
def State.freeThread (s : State) (th : Nat) : State :=
  { s with threads := Sparse.erase s.threads th, scOps := s.scOps.filter fun o => o.th != th,
           dbg := { s.dbg with stepping := s.dbg.stepping.filter fun x => x != th } }
/-- Change the thread in a slot, if it holds one. -/
def State.onThread (s : State) (th : Nat) (f : Thread → Thread) : State :=
  match s.thread? th with
  | none => s
  | some t => s.setThread th (f t)

/-- A run slot. -/
def State.run (s : State) (n : Nat) : Run := Sparse.getD s.runs n Run.reset
/-- Change a run slot. -/
def State.setRun (s : State) (n : Nat) (r : Run) : State := { s with runs := Sparse.set s.runs n r }
/-- A tile's Lodge. -/
def State.lodge (s : State) (tile : Nat) : Lodge := Sparse.getD s.lodges tile Lodge.reset
/-- Change a tile's Lodge. -/
def State.setLodge (s : State) (tile : Nat) (l : Lodge) : State := { s with lodges := Sparse.set s.lodges tile l }
/-- A tile's engines. -/
def State.engine (s : State) (tile : Nat) : Engines := Sparse.getD s.engines tile Engines.reset
/-- Change a tile's engines. -/
def State.setEngine (s : State) (tile : Nat) (e : Engines) : State := { s with engines := Sparse.set s.engines tile e }
/-- A queue. -/
def State.queue (s : State) (q : Nat) : Queue := Sparse.getD s.queues q Queue.reset
/-- Change a queue. -/
def State.setQueue (s : State) (q : Nat) (x : Queue) : State := { s with queues := Sparse.set s.queues q x }
/-- A fresh free value, and the counter moved on (log entry 3). -/
def State.free (s : State) : BitVec 64 × State := (Config.freeWord s.fresh, { s with fresh := s.fresh + 1 })

/-- The RUNID of a thread's run; 0 for an Innkeeper slot (R423). -/
def State.runidOf (s : State) (t : Thread) : Nat :=
  match t.task with
  | none => 0
  | some k => (s.run k.run).cfg.runid

/-- The task is speculative. -/
def Thread.spec (t : Thread) : Bool := match t.task with | none => false | some k => k.spec
/-- The key of the task a thread runs; (0, 0) for an Innkeeper slot, which runs none. -/
def Thread.key (t : Thread) : Key := match t.task with | none => Key.zero | some k => k.key

/-- The task holds earliest standing (R105, R106). -/
def State.isEarliest (s : State) (t : Thread) : Bool :=
  match t.task with
  | none => false
  | some k => k.spec && (k.standing || (s.run k.run).milestone == k.key)

/-- A speculative task that is not earliest: its traps are held and it parks at irrevocable actions (R114, R116). -/
def State.provisional (s : State) (t : Thread) : Bool := t.spec && !s.isEarliest t

/-- Nanoseconds since reset by the device timer, whose clock is the 2.25 GHz of the cycles (R3, R329; log entry 6). -/
def State.nanos (s : State) : Nat := s.cycle * 4 / 9

/-- The debug module has halted the tile (R277). -/
def State.halted (s : State) (tile : Nat) : Bool := s.dbg.halted.contains tile

-- The fetched bytes and WORD (R161, R292).

/-- The 32-byte block a PC lies in. -/
def blockBase (pc : BitVec 56) : Nat := pc.toNat / 32 * 32
/-- The block a thread executes from: one kept for a REPEAT (R327), or the block it fetched last (R292). -/
def Thread.blockAt (t : Thread) (base : Nat) : Option (BitVec 256) :=
  match (if t.rep.act then t.kept.find? (fun e => e.1 == base) else none) with
  | some e => some e.2
  | none => match t.block with
    | some (b, v) => if b = base then some v else none
    | none => none
/-- Bits [63:0] of the instruction at PC, as the block that the thread executes from holds them. -/
def State.wordOf (_s : State) (t : Thread) : BitVec 64 :=
  match t.blockAt (blockBase t.pc) with
  | none => 0
  | some v => (v >>> (8 * (t.pc.toNat % 32))).setWidth 64

-- Traps (R160 to R165).

/-- Cause codes (R160). -/
def Cause.code : Cause → Nat
  | .illop => 1 | .fetchx => 2 | .pendread => 3 | .tsorder => 4 | .streamx => 5 | .align => 6 | .page => 7 | .prot => 8
  | .poison => 9 | .peerfault => 10 | .bkpt => 11 | .swtrap => 12 | .priv => 13 | .tilefatal => 16
/-- ACC codes (R161). -/
def Acc.code : Acc → Nat
  | .none => 0 | .read => 1 | .write => 2 | .atomic => 3 | .fetch => 4 | .walk => 5

/-- A trap with no address. -/
def Trap.plain (c : Cause) : Trap := { cause := c, acc := .none, va := 0, pa := none, detail := 0 }
/-- A trap that names an address. -/
def Trap.at (c : Cause) (acc : Acc) (va : Nat) : Trap := { cause := c, acc := acc, va := va, pa := none, detail := 0 }
/-- PROT with its reason (R162). -/
def Trap.protAt (acc : Acc) (va reason : Nat) : Trap :=
  { cause := .prot, acc := acc, va := va, pa := none, detail := BitVec.ofNat 32 reason }

/-- The words of a fault record but TOKEN (R161). -/
def recordWords (t : Trap) (erl : Bool) (run src pc gen asid tile core slot : Nat) (ts : BitVec 64) (tb : BitVec 32)
    (word : BitVec 64) : List (BitVec 64) :=
  [ BitVec.ofNat 64 ((if erl then 2 ^ 20 else 0) + 2 ^ 16 * (run % 16) + 2 ^ 12 * t.acc.code + 2 ^ 8 * src + t.cause.code),
    BitVec.ofNat 64 (t.va % 2 ^ 56),
    (match t.pa with | none => 0 | some p => BitVec.ofNat 64 (2 ^ 63 + p % 2 ^ 52)),
    BitVec.ofNat 64 (pc % 2 ^ 56),
    BitVec.ofNat 64 (2 ^ 36 * (gen % 16) + 2 ^ 24 * (asid % 4096) + 2 ^ 16 * (tile % 256) + 2 ^ 11 * (slot % 8) + core % 2048),
    ts,
    (t.detail ++ tb),
    word ]

/-- The record a thread raises (R161). -/
def State.threadRecord (s : State) (th : Nat) (t : Thread) (tr : Trap) : Record :=
  let run := match t.task with | none => 0 | some k => k.run
  let cfg := (s.run run).cfg
  { agent := .thread th, die := dieOfTile (tileOf th), token := none, trap := tr,
    run := t.task.map (fun k => k.run), joined := [],
    words := recordWords tr (s.isEarliest t) run 0 (tr.pc.getD t.pc).toNat (s.run run).gen
      (match t.task with | none => 0 | some _ => cfg.asid) (tileOf th) (coreOf th) (th % 8) t.key.ts t.key.tb
      (tr.word.getD (s.wordOf t)) }

/-- Append a record to the CXL device event log and signal it with the log's MSI-X vector (R66): its severity, 0 Warning, 1
Failure, 2 Fatal, and what it reports. -/
def State.logEvent (s : State) (severity what : Nat) : State :=
  { s with host := { s.host with events := s.host.events ++ [(severity, what)], msix := s.host.msix ++ [severity] } }
/-- The fatal stop of the whole device: every run stops, and the event is reported (R17, R24, R65, R66, R167). -/
def State.fatalStop (s : State) (event : Nat) : State := ({ s with fatal := true } : State).logEvent 2 event

/-- An event that falls in each cycle that is a multiple of a period is done, once in such a cycle (log entry 64). -/
def State.oncePer (s : State) (id period : Nat) (f : State → State) : State :=
  if s.cycle % period = 0 ∧ Sparse.get? s.periodic id ≠ some s.cycle then
    f { s with periodic := Sparse.set s.periodic id s.cycle }
  else s

/-- Tile of a record (R161). -/
def Record.tile (r : Record) : Nat := bitsOf (r.words.getD 4 0).toNat 16 8
/-- The trap was found by a walk. -/
def Trap.ofWalk (t : Trap) : Bool := t.cause == .page || t.acc == .walk
/-- A walk's fault joins a record for the same page, access class and tile that is not yet posted (R173) (log entry 32). -/
def Record.joins (r x : Record) : Bool :=
  r.trap.ofWalk && x.token.isNone && x.run == r.run && x.tile == r.tile && x.trap.cause == r.trap.cause &&
    x.trap.acc == r.trap.acc && x.trap.va / 2 ^ 16 == r.trap.va / 2 ^ 16
/-- The requests that a record stands for, each by its agent and VA. -/
def Record.requests (x : Record) : List (Agent × Nat) := (x.agent, x.trap.va) :: x.joined
/-- A record that one more request joins: DETAIL counts it for PAGE, saturating (R162) (log entry 32). -/
def Record.join (x : Record) (a : Agent) (va : Nat) : Record :=
  let w := (x.words.getD 6 0).toNat
  { x with joined := x.joined ++ [(a, va)],
           words := if x.trap.cause = .page ∧ bitsOf w 40 8 < 255 then x.words.set 6 (BitVec.ofNat 64 (w + 2 ^ 40)) else x.words }
/-- Raise a record. -/
def State.addRecord (s : State) (r : Record) : State :=
  { s with records := if s.records.any r.joins then
      s.records.map fun x => if r.joins x && (s.records.find? r.joins) == some x then x.join r.agent r.trap.va else x
    else s.records ++ [r] }

/-- A trap taken by a thread (R160): an Innkeeper slot's is fatal to the device (R167); a speculative task holds it until
it is earliest (R116); otherwise the thread parks and its record is raised, to be posted by FAULT_POST (R161). The
trapping instruction changes no other state. -/
def State.trap (s : State) (th : Nat) (tr : Trap) : State :=
  match s.thread? th with
  | none => s
  | some t =>
    match t.task with
    | none => s.fatalStop 0x167
    | some _ =>
      if s.provisional t then s.setThread th { t with park := .held tr }
      else
        (s.setThread th { t with park := .fault }).addRecord (s.threadRecord th t tr)

-- The end of an instruction.

/-- PC := PC + its length, with the step of an active REPEAT (R291, R327), after whose last step the thread still executes from the
block it is in (R292). That NEXT, LENM, LEFT and START then keep their last values, as a saved record shows them while ACT is 0, is the
model's choice (log entry 80). -/
def Thread.advance (t : Thread) (len : Nat) : Thread :=
  let next := t.pc + BitVec.ofNat 56 len
  if t.rep.act then
    if t.rep.next < t.rep.lenm then { t with pc := next, rep := { t.rep with next := t.rep.next + 1 } }
    else if t.rep.left > 1 then { t with pc := t.rep.start, rep := { t.rep with next := 0, left := t.rep.left - 1 } }
    else { t with pc := next, rep := { t.rep with act := false }, kept := [],
                  block := match t.kept.find? fun e => e.1 == blockBase t.pc with | some e => some e | none => t.block }
  else { t with pc := next }

/-- Park the thread at its instruction. -/
def State.parkAt (s : State) (th : Nat) (p : Park) : State := s.onThread th fun t => { t with park := p }

/-- Write a thread's results and end its instruction. -/
def State.finish (s : State) (th : Nat) (len : Nat) (t : Thread) : State :=
  s.setThread th { t.advance len with park := .run, lastIssue := s.cycle }

/-- What an instruction brings to the issue checks of R293: its header, length, the registers it names (R158), whether
it acts as marked (R159), whether it is privileged (R303), and ILLOP cases that depend on the thread's own state. -/
structure Issue where
  h : Hdr
  len : Nat
  names : List Nat
  marked : Bool
  priv : Bool
  ill : Bool

/-- The registers an instruction names, with its guards. -/
def Issue.allNames (i : Issue) : List Nat :=
  numP (i.h.pg.setWidth 3) :: numM (i.h.mg.setWidth 3) :: i.names

/-- The checks of R293 from step 3 on, in order: ILLOP; the SW wait (R157, R159) and PENDREAD (R158); the scalar guard
(R187); PRIV (R167). Then the operation, which a false guard replaces by no effect. -/
def issue (s : State) (i : Thread → Issue) (body : Thread → State) : Out :=
  match s.thread? s.focus with
  | none => .fault .noThread
  | some t =>
    let x := i t
    if x.ill then .next (s.trap s.focus (.plain .illop))
    else if (x.h.sw || x.marked) && t.pend != 0 then .next (s.parkAt s.focus .marker)
    else if !x.marked && x.allNames.any t.pending then .next (s.parkAt s.focus .pendread)
    else if !t.guard x.h.pg then .next (s.finish s.focus x.len t)
    else if x.priv && !isInnkeeperCore (coreOf s.focus) then .next (s.trap s.focus (.plain .priv))
    else .next (body t)

/-- An instruction of fixed latency that only changes its thread's registers. -/
def regOp (s : State) (h : Hdr) (len : Nat) (names : List Nat) (f : Thread → Thread) : Out :=
  issue s (fun _ => ⟨h, len, names, false, false, false⟩) fun t => s.finish s.focus len (f t)

/-- Add a variable-latency result: its destination pends until the result is written (R156). -/
def Thread.addOut (t : Thread) (o : Outstanding) : Thread :=
  { t.setPend o.dst.toNat with outs := t.outs ++ [o] }

/-- A result whose value is known at issue and is delivered later (div and rem, R313). -/
def readyOut (t : Thread) (dst : Nat) (v : BitVec 64) : Outstanding :=
  { dst := BitVec.ofNat 6 dst, kind := .ready v, parts := [], acq := none, rel := none, seq := t.seq, pc := t.pc, word := 0,
    hint := 0, sc := false, log := none }

/-- An instruction that produces a variable-latency result does not issue while 16 of the slot's are outstanding
(R154). -/
def varOp (s : State) (h : Hdr) (len : Nat) (names : List Nat) (f : Thread → State) : Out :=
  issue s (fun _ => ⟨h, len, names, false, false, false⟩) fun t => if t.outs.length < 16 then f t else s

end Sys2Proof.Machine
end

