-- ==== Sys2Proof/WellFormed.lean ====
section
/-! DEFINITION. Which terms of Instr are instructions: the checks of R293 step 3 that depend on the instruction's own
bits alone. A check that needs state (a usable .nf format, a bound stream) is the meaning's. -/
namespace Sys2Proof

/-- Type codes 1–8 (R312). -/
def Ty.isInt : Ty → Bool
  | .s8 | .s16 | .s32 | .s64 | .n8 | .n16 | .n32 | .n64 => true
  | _ => false

/-- Type codes 11–14. -/
def Ty.isFp : Ty → Bool
  | .f16 | .bf16 | .f32 | .f64 => true
  | _ => false

/-- Type codes 1–8 and 11–14. -/
def Ty.isLane (t : Ty) : Bool := t.isInt || t.isFp

/-- Type codes 24–31. -/
def Ty.isNf : Ty → Bool
  | .nf _ => true
  | _ => false

/-- Floating-point formats a conversion may name: 11–14, 16, 17, 24–31 (R353). -/
def Ty.isCvtFp : Ty → Bool
  | .f16 | .bf16 | .f32 | .f64 | .e4m3 | .e5m2 | .nf _ => true
  | _ => false

/-- Codes 1–10 (R353). -/
def Ty.isCvtInt : Ty → Bool
  | .s4 | .n4 => true
  | t => t.isInt

/-- 32- and 64-bit integer types (R385). -/
def Ty.isAtomInt : Ty → Bool
  | .s32 | .s64 | .n32 | .n64 => true
  | _ => false

/-- Types of gather, scatter and, without the floating-point ones, vcmp: widths 16 to 64 (R380, R358). -/
def Ty.isWide : Ty → Bool
  | .s16 | .s32 | .s64 | .n16 | .n32 | .n64 | .f16 | .bf16 | .f32 | .f64 => true
  | _ => false

/-- Element width of a type whose width does not depend on state (R341, R324); 0 for the others. -/
def Ty.fixedWidth : Ty → Nat
  | .s4 | .n4 | .q4 => 4
  | .s8 | .n8 | .e4m3 | .e5m2 => 8
  | .s16 | .n16 | .f16 | .bf16 => 16
  | .s32 | .n32 | .f32 => 32
  | .s64 | .n64 | .f64 => 64
  | .w80 => 128
  | .none | .nf _ => 0

/-- Parts of a conversion between registers of these element counts (R353). -/
def partsOf (ns nd : Nat) : Nat :=
  let n := Nat.min ns nd
  if n = 0 then 0 else (Nat.max ns nd + n - 1) / n

/-- No lanes (R295) and no memory operand (R296). -/
def Hdr.plain (h : Hdr) : Bool := h.mg == 0 && h.ch == 0
/-- No lanes, and a cache hint that is not code 7. -/
def Hdr.mem (h : Hdr) : Bool := h.mg == 0 && h.ch != 7
/-- Lanes, and no memory operand. -/
def Hdr.lanes (h : Hdr) : Bool := h.ch == 0

/-- An annotation without order or `.sc` names no scope (R301). -/
def MemOrd.scopeOk (m : MemOrd) : Bool := m.ord != .relaxed || m.sc || m.scope == .thread
/-- Annotations of a load (R301). -/
def MemOrd.load (m : MemOrd) : Bool := m.scopeOk && !m.sc && (m.ord == .relaxed || m.ord == .acq)
/-- Annotations of a store (R301). -/
def MemOrd.store (m : MemOrd) : Bool := m.scopeOk && !m.sc && (m.ord == .relaxed || m.ord == .rel)
/-- Annotations of an atomic that returns nothing (R385). -/
def MemOrd.red (m : MemOrd) : Bool := m.scopeOk && (m.ord == .relaxed || m.ord == .rel)

/-- A view that subscribes from this source (R217). -/
def View.subscribes (src : Ty) (v : View) : Bool :=
  match src, v with
  | .f32, .f16 | .f32, .bf16 | .f32, .e5m2 | .f32, .e4m3 => true
  | .f16, .e5m2 | .f16, .e4m3 | .bf16, .e5m2 | .bf16, .e4m3 => true
  | _, _ => false

/-- A view that makes a FULL request: FULL itself, or the source (R217). -/
def View.isFull (src : Ty) (v : View) : Bool :=
  match src, v with
  | _, .full => true
  | .f16, .f16 | .bf16, .bf16 => true
  | _, _ => false

/-- Register type lists of ld and st (R373); a count of blocks is for packed w operands alone (R375). -/
def ldstType (ty : Ty) (blk : Blk) : GW → Bool
  | .g _ => ty.isLane && blk == .one
  | .w _ =>
    match ty with
    | .s4 | .n4 | .nf _ => true
    | .e4m3 | .e5m2 => blk == .one
    | t => t.isLane && blk == .one

/-- The lane guard of opcodes 0x60–0x62 needs a w operand (R295). -/
def ldstHdr (h : Hdr) : GW → Bool
  | .g _ => h.mem
  | .w _ => h.ch != 7

/-- A vbcast immediate in the length its type takes (R360). -/
def vbcastImmOk (ty : Ty) : Imm → Bool
  | .imm32 v =>
    match ty with
    | .f32 => true
    | .f16 | .bf16 => v.toNat < 2 ^ 16
    | .f64 => false
    | t => t.isInt
  | .imm64 _ =>
    match ty with
    | .f64 => true
    | t => t.isInt

/-- The control word of a Porter instruction (R411). E is the first counter register. -/
def porterCtlOk (ctl : BitVec 32) (e : GReg) (idx src : Bool) : Bool :=
  let n := ctl.toNat
  let dct := n.testBit 3
  let sct := n.testBit 7
  n < 2 ^ 9 && decide (n % 8 < 6) && decide (n / 16 % 8 < 6) &&
  (dct || n % 8 == 0) && (sct || n / 16 % 8 == 0) &&
  (dct || sct || e == 0) && !(sct && e == 15) && (src || !sct) && (idx || !n.testBit 8)

/-- The arguments of task and tgrid (R397). -/
def argsOk (n : BitVec 4) (e : GReg) : Bool :=
  decide (n.toNat ≤ 8) && decide (e.toNat + n.toNat ≤ 16) && (n != 0 || e == 0)

/-- The types and part of vfcvt and vcvt whose widths do not depend on state (R353). -/
def cvtPartOk (src dst : Ty) (part : BitVec 4) : Bool :=
  src.isNf || dst.isNf ||
    (let p := partsOf (1024 / src.fixedWidth) (1024 / dst.fixedWidth)
     decide (part.toNat < p) && decide (p ≤ 16))

/-- A well-formed term: one that some instruction word stands for (R293 step 3), or an event. -/
def Instr.wf : Instr → Bool
  | .add h ty _ _ _ _ | .sub h ty _ _ _ _ | .mul h ty _ _ _ _ => h.plain && ty.isInt
  | .mulh h ty _ _ _ | .div h ty _ _ _ | .rem h ty _ _ _ | .min h ty _ _ _ | .max h ty _ _ _
  | .and h ty _ _ _ | .or h ty _ _ _ | .xor h ty _ _ _ | .andn h ty _ _ _ => h.plain && ty.isInt
  | .shl h ty _ _ _ | .shr h ty _ _ _ | .sar h ty _ _ _ | .rot h _ ty _ _ _ => h.plain && ty.isInt
  | .mov h ty _ _ => h.plain && ty.isInt
  | .sel h _ _ _ _ => h.plain
  | .bit h _ ty _ _ => h.plain && ty.isInt
  | .bext h ty _ _ _ | .bins h ty _ _ _ => h.plain && (ty == .s64 || ty == .n64)
  | .cvt h src dst _ _ => h.plain && src.isInt && dst.isInt
  | .lea h sc _ _ _ => h.plain && sc != 7
  | .bkpt h | .swtrap h _ | .nop h _ => h.plain
  | .pcmp h _ ty _ _ _ => h.plain && ty.isInt
  | .plog h op _ _ b => h.plain && (op != .not || b == 0)
  | .mlog h op _ _ b => h.plain && (op != .not || b == 0)
  | .mmovMG h _ _ | .mmovGM h _ _ | .mmovMImm h _ _ | .mcnt h _ _ _ => h.plain
  | .mfirst h ty _ _ => h.plain &&
      (match ty with | .s4 | .n4 | .e4m3 | .e5m2 => true | t => t.isLane)
  | .pmovPG h _ _ | .pmovGP h _ _ => h.plain
  | .br h _ | .jr h _ | .callr h _ _ | .call h _ _ | .ret h _ | .loop h _ _
  | .repeatReg h _ _ | .repeatImm h _ _ => h.plain
  | .idr h _ _ | .ucrr h _ _ | .ucrw h _ _ | .rdtimeCyc h _ | .rdtimeNs h _ => h.plain
  | .sysr h _ _ | .sysw h _ _ | .faultreplyRetry h _ | .faultreplyRemote h _ _
  | .faultreplyKilltask h _ | .faultreplyKillrun h _ | .fltwait h _ _ | .purge h _ _ | .cflush h _ _
  | .cinval h _ _ | .tlbinvPage h _ _ | .tlbinvAsid h _ | .tlbinvAll h => h.plain
  | .vfadd h ty _ _ _ _ _ | .vfsub h ty _ _ _ _ _ | .vfmul h ty _ _ _ _ _
  | .vfma h ty _ _ _ _ _ _ | .vfms h ty _ _ _ _ _ _ | .vfnma h ty _ _ _ _ _ _
  | .vfmin h ty _ _ _ | .vfmax h ty _ _ _ => h.lanes && ty.isFp
  | .vfsgn h op ty _ _ b => h.lanes && ty.isFp && (op == .copysign || b == 0)
  | .vfcmp h _ ty _ _ _ => h.lanes && ty.isFp
  | .vfcvt h src dst part _ sat _ _ => h.lanes &&
      (src.isCvtFp || src.isCvtInt) && (dst.isCvtFp || dst.isCvtInt) && (src.isCvtFp || dst.isCvtFp) &&
      (!sat || dst.isCvtFp) && cvtPartOk src dst part
  | .vfdiv h ty _ _ _ _ _ | .vfsqrt h ty _ _ _ _ | .vfrcp h ty _ _ _ _ | .vfrsq h ty _ _ _ _
  | .vfexp2 h ty _ _ _ _ | .vflog2 h ty _ _ _ _ => h.lanes && ty.isFp
  | .vfred h op ty rm _ _ _ => h.lanes && ty.isFp && rm != .sr && (op == .sum || rm == .rne)
  | .vfmerge h ty _ _ _ | .vfscale h _ ty _ _ _ _ _ | .vfrint h ty _ _ _ => h.lanes && ty.isFp
  | .vadd h ty _ _ _ _ | .vsub h ty _ _ _ _ => h.lanes && ty.isInt
  | .vmul h hi ty sat _ _ _ => h.lanes && ty.isInt && !(hi && sat)
  | .vmm h _ ty _ _ _ | .vsh h _ ty _ _ _ => h.lanes && ty.isInt
  | .vlog h op ty _ _ b => h.lanes && ty.isInt && (op != .not || b == 0)
  | .vcmp h _ ty _ _ _ => h.lanes && ty.isInt && ty.isWide
  | .vcvt h src dst part _ _ => h.lanes && src.isCvtInt && dst.isCvtInt && cvtPartOk src dst part
  | .vbcastG h ty _ _ | .vbcastLane h ty _ _ _ => h.lanes && ty.isLane
  | .vbcastImm h ty _ v => h.lanes && vbcastImmOk ty v
  | .vshuf h ty _ _ _ | .vslide h _ ty _ _ _ | .vsel h ty _ _ _ _ | .vmovgG h ty _ _ _
  | .vmovgW h ty _ _ _ | .vcomp h ty _ _ => h.lanes && ty.isLane
  | .vred h op ty sat _ _ _ => h.lanes && ty.isInt && (!sat || op == .sum)
  | .vscan h _ ty _ _ _ => h.lanes && ty.isInt
  | .ld h ty mo blk d _ => ldstHdr h d && ldstType ty blk d && mo.load
  | .st h ty mo blk _ b => ldstHdr h b && ldstType ty blk b && mo.store
  | .lds h ty scope acq sat view d _ => ldstHdr h d && (ty == .f16 || ty == .bf16 || ty == .f32) &&
      (view.subscribes ty || view.isFull ty) && (!sat || view.subscribes ty) && (acq || scope == .thread)
  | .gather h ty mo _ _ _ => h.ch != 7 && ty.isWide && mo.load
  | .scatter h ty mo _ _ _ => h.ch != 7 && ty.isWide && mo.store
  | .pref h _ _ => h.mem
  | .sbind h _ _ => h.mem
  | .sbindUnbind h _ => h.plain
  | .atomAdd h ty mo _ _ _ => h.mem && (ty.isAtomInt || ty == .bf16 || ty == .f32) && mo.scopeOk
  | .atomMin h ty mo _ _ _ | .atomMax h ty mo _ _ _ | .atomAnd h ty mo _ _ _ | .atomOr h ty mo _ _ _
  | .atomXor h ty mo _ _ _ | .atomSwap h ty mo _ _ _ => h.mem && ty.isAtomInt && mo.scopeOk
  | .atomCas h ty mo _ _ _ _ => h.mem && ty.isAtomInt && mo.scopeOk
  | .atomRed h op ty mo _ _ c => h.mem &&
      (ty.isAtomInt || (op == .add && (ty == .bf16 || ty == .f32))) && mo.red && (op == .cas || c == 0)
  | .ctradd h _ _ _ | .ctrread h _ _ _ | .ctrwait h _ _ _ _ _ _ | .ctrarriveSum h _ _ _ _ => h.mem
  | .ctrarriveMax h ty _ _ _ _ => h.mem && (ty == .f32 || ty == .s64)
  | .fence h _ _ => h.mem
  | .stashmap h _ _ _ _ => h.plain
  | .stashunmap h _ | .stashflush h _ _ => h.mem
  | .task h _ hm n _ c e _ => h.plain && argsOk n e && (hm != .none || c == 0)
  | .tgrid h n _ _ e _ => h.mem && argsOk n e
  | .depart h _ _ | .tend h | .mswait h => h.plain
  | .prpush h _ ctl _ _ _ _ e | .prget h _ ctl _ _ _ _ e | .prcopy h _ ctl _ _ _ _ e =>
      h.mem && porterCtlOk ctl e false true
  | .prfill h _ ctl _ _ _ _ e => h.mem && porterCtlOk ctl e false false
  | .prgath h _ ctl _ _ _ _ c e => h.mem && porterCtlOk ctl e true true && c != 15
  | .prscat h _ ty ctl _ _ _ _ c e =>
      h.mem && porterCtlOk ctl e true true && c != 15 && (ty == .none || ty == .bf16 || ty == .f32)
  | .prrow h _ _ ty ctl _ _ _ _ _ _ e => h.mem && porterCtlOk ctl e false true && (ty == .bf16 || ty == .f32)
  | .mma h _ _ _ _ _ _ _ _ | .mmaq h _ _ _ _ _ _ _ _ | .mmab h _ _ _ _ _ _ _ _
  | .accld h _ _ _ _ _ _ | .accst h _ _ _ _ _ _ => h.mem
  | .jwait h s d _ => h.plain && (s || d == 0)
  | .jpoll h _ _ => h.plain
  | _ => true

end Sys2Proof
end

