-- ==== Sys2Proof/Machine/Operands.lean ====
section
/-! DEFINITION. Operand forms: the values of immediates (R298), Val, Ext and Clamp (R312), elements of w registers
(R186, R341), lane selection (R187, R342), and addresses (R368). -/
namespace Sys2Proof

-- Lengths (R290).

/-- Bytes of an instruction with this last source. -/
def Src.len : Src → Nat
  | .reg _ => 8
  | .imm32 _ => 12
  | .imm64 _ => 16
/-- The same for a form with two lengths. -/
def Src32.len : Src32 → Nat
  | .reg _ => 8
  | .imm _ => 12
/-- The same for an immediate form. -/
def Imm.len : Imm → Nat
  | .imm32 _ => 12
  | .imm64 _ => 16
/-- The same for nop. -/
def NopExt.len : NopExt → Nat
  | .none => 8
  | .ext32 _ => 12
  | .ext64 _ => 16
/-- The same for sysr and sysw. -/
def RegSel.len : RegSel → Nat
  | .reg _ => 8
  | .num _ => 12
/-- The same for a memory operand. -/
def Addr.len (x : Addr) : Nat := if x.disp.isSome then 12 else 8

/-- A signed integer type (R264). -/
def Ty.signed : Ty → Bool
  | .s4 | .s8 | .s16 | .s32 | .s64 => true
  | _ => false
/-- An unsigned integer type. -/
def Ty.unsigned : Ty → Bool
  | .n4 | .n8 | .n16 | .n32 | .n64 => true
  | _ => false

end Sys2Proof

namespace Sys2Proof.Machine
open Sys2Proof

/-- imm32 as a 64-bit value (R298): zero-extended for an unsigned integer type, sign-extended otherwise. -/
def immValue (ty : Ty) (v : BitVec 32) : BitVec 64 := if ty.unsigned then v.setWidth 64 else v.signExtend 64

/-- The 64-bit value of a last source. -/
def Thread.src (t : Thread) (ty : Ty) : Src → BitVec 64
  | .reg r => t.getG r
  | .imm32 v => immValue ty v
  | .imm64 v => v
/-- The same for a form with two lengths. -/
def Thread.src32 (t : Thread) (ty : Ty) : Src32 → BitVec 64
  | .reg r => t.getG r
  | .imm v => immValue ty v
/-- A last source whose immediate is zero-extended (repeat, fltwait, faultreply's TOKEN, tlbinv's ASID). -/
def Thread.srcZ (t : Thread) : Src32 → BitVec 64
  | .reg r => t.getG r
  | .imm v => v.setWidth 64

/-- Val(TY, x) (R312): bits [w−1:0] by the type's signedness. -/
def valOf (ty : Ty) (x : BitVec 64) : Int :=
  let w := ty.fixedWidth
  if ty.signed then signedOf w x.toNat else ((x.toNat % 2 ^ w : Nat) : Int)
/-- Ext(TY, r) (R312): r modulo 2^w, extended by the type's signedness. -/
def extOf (ty : Ty) (r : Int) : BitVec 64 :=
  let w := ty.fixedWidth
  let p := patternOf w r
  if ty.signed then BitVec.ofInt 64 (signedOf w p) else BitVec.ofNat 64 p
/-- The least value of an integer type (R264). -/
def tyMin (ty : Ty) : Int := if ty.signed then -((2 ^ (ty.fixedWidth - 1) : Nat) : Int) else 0
/-- The greatest value of an integer type. -/
def tyMax (ty : Ty) : Int :=
  if ty.signed then ((2 ^ (ty.fixedWidth - 1) : Nat) : Int) - 1 else ((2 ^ ty.fixedWidth : Nat) : Int) - 1
/-- Clamp(TY, r) (R312). -/
def clampOf (ty : Ty) (r : Int) : Int := if r < tyMin ty then tyMin ty else if tyMax ty < r then tyMax ty else r

-- Elements of a w register (R186).

/-- Element i of width w, as a number. -/
def elem (w : Nat) (x : Line) (i : Nat) : Nat := (x.toNat >>> (w * i)) % 2 ^ w
/-- Put element i of width w. -/
def putElem (w : Nat) (x : Line) (i v : Nat) : Line :=
  (x &&& ~~~(BitVec.ofNat 1024 ((2 ^ w - 1) <<< (w * i)))) ||| BitVec.ofNat 1024 ((v % 2 ^ w) <<< (w * i))
/-- The low n elements of width w; the bits above them are zero. -/
def keepElems (w n : Nat) (x : Line) : Line := BitVec.ofNat 1024 (x.toNat % 2 ^ (w * n))
/-- Elements of width w in one register. -/
def elemCount (w : Nat) : Nat := if w = 0 then 0 else 1024 / w
/-- The mask bit that governs element i at width w (R186, R341). -/
def maskBitOf (w i : Nat) : Nat := if w < 16 then w * i / 16 else i
/-- Selected(i) for a mask, at width w (R342). -/
def selectedBy (mask : BitVec 64) (w i : Nat) : Bool := mask.getLsbD (maskBitOf w i)
/-- A register from its elements, element 0 first. -/
def packElems (w : Nat) : List Nat → Nat
  | [] => 0
  | v :: r => v % 2 ^ w + 2 ^ w * packElems w r
/-- The elements of a register, in increasing index. -/
def elemsOf (w n : Nat) (x : Line) : List Nat := (List.range n).map (elem w x)

/-- Write the selected elements of a w destination of width w; the others keep their values and the bits above the last
element are zero (R341, R342). -/
def writeElems (mask : BitVec 64) (w : Nat) (old : Line) (f : Nat → Nat) : Line :=
  let n := elemCount w
  BitVec.ofNat 1024 (packElems w ((List.range n).map fun i =>
    if selectedBy mask w i then f i else elem w old i))

/-- The mask register bits of the elements selected (m destinations, R342): bit i from f i, the others kept, bits n to 63
zero. -/
def writeMask (mask : BitVec 64) (w : Nat) (old : BitVec 64) (f : Nat → Bool) : BitVec 64 :=
  let n := elemCount w
  BitVec.ofNat 64 (packElems 1 ((List.range 64).map fun i =>
    if i < n then (if selectedBy mask w i then (f i).toNat else (old.getLsbD i).toNat) else 0))

-- Addresses (R368).

/-- gA[55:0], or (gA + imm32 sign-extended) mod 2^56. -/
def Thread.addr (t : Thread) (x : Addr) : Nat :=
  match x.disp with
  | none => (t.getG x.base).toNat % 2 ^ 56
  | some d => (t.getG x.base + d.signExtend 64).toNat % 2 ^ 56

/-- A 64-bit sum gA + displacement, not reduced to 56 bits (R336 to R338). -/
def Thread.physAddr (t : Thread) (x : Addr) : Nat :=
  match x.disp with
  | none => (t.getG x.base).toNat
  | some d => (t.getG x.base + d.signExtend 64).toNat

/-- The entry function of task, tgrid and depart: a register, or PC + imm, modulo 2^56 (R397, R398). -/
def Thread.target (t : Thread) : Src32 → BitVec 56
  | .reg r => (t.getG r).setWidth 56
  | .imm v => t.pc + (v.signExtend 56)

-- Formats of a thread (R262).

/-- FMTn. -/
def Thread.fmtReg (t : Thread) (k : BitVec 3) : BitVec 64 := t.fmt.getD k.toNat 0
/-- The fields of FMTn. -/
structure NfFmt where
  e : Nat
  m : Nat
  s : Bool
  bias : Int
  spec : Nat
  sat : Bool
deriving DecidableEq, Repr
/-- FMTn read by its layout. -/
def nfFields (v : BitVec 64) : NfFmt :=
  { e := bitsOf v.toNat 0 3, m := bitsOf v.toNat 4 3, s := v.getLsbD 7, bias := signedOf 8 (bitsOf v.toNat 8 8),
    spec := bitsOf v.toNat 16 2, sat := v.getLsbD 20 }
/-- Element width of an .nf format. -/
def NfFmt.width (f : NfFmt) : Nat := f.s.toNat + f.e + f.m
/-- A usable format (R262). -/
def NfFmt.usable (f : NfFmt) : Bool :=
  decide (2 ≤ f.e) && decide (f.e ≤ 7) && decide (f.width ≤ 8) && (f.spec != 1 || decide (1 ≤ f.m))

/-- Element width of a type in a thread, whose FMTn give the widths of the .nf types (R341). -/
def Thread.width (t : Thread) : Ty → Nat
  | .nf k => (nfFields (t.fmtReg k)).width
  | ty => ty.fixedWidth
/-- The type is not an .nf type, or its format is usable (R262). -/
def Thread.usable (t : Thread) : Ty → Bool
  | .nf k => (nfFields (t.fmtReg k)).usable
  | _ => true
/-- SUB of a ld or st is not 0 for elements of width 8 of an .nf type, which are not packed (R373, R375). -/
def Thread.wideBlocks (t : Thread) (ty : Ty) (blk : Blk) : Bool :=
  match ty with
  | .nf _ => decide (8 ≤ t.width ty) && blk != .one
  | _ => false

end Sys2Proof.Machine
end

