-- ==== Sys2Proof/Machine/Float.lean ====
section
/-! DEFINITION. Floating-point values and rounding, written with exact numbers (R259 to R263, R267 to R273): a finite
value is m · 2^e, an inexact one carries a lowest bit that stands below every rounding decision. -/
namespace Sys2Proof.Machine
open Sys2Proof

/-- A floating-point format (R260, R262): exponent and fraction bits, sign bit, bias, and SPEC (0 all codes finite, 1
IEEE-like, 2 NaN at all ones). -/
structure Fmt where
  e : Nat
  m : Nat
  s : Bool
  bias : Int
  spec : Nat
deriving DecidableEq, Repr

/-- A value: NaN, an infinity, or (−1)^s · m · 2^e. -/
inductive Fl where
  | nan
  | inf (s : Bool)
  | fin (s : Bool) (m : Nat) (e : Int)
deriving DecidableEq, Repr

/-- FP64 (R260). -/
def Fmt.f64 : Fmt := ⟨11, 52, true, 1023, 1⟩
/-- FP32. -/
def Fmt.f32 : Fmt := ⟨8, 23, true, 127, 1⟩
/-- FP16. -/
def Fmt.f16 : Fmt := ⟨5, 10, true, 15, 1⟩
/-- BF16. -/
def Fmt.bf16 : Fmt := ⟨8, 7, true, 127, 1⟩
/-- W80 (R261). -/
def Fmt.w80 : Fmt := ⟨15, 64, true, 16383, 1⟩
/-- E5M2. -/
def Fmt.e5m2 : Fmt := ⟨5, 2, true, 15, 1⟩
/-- E4M3. -/
def Fmt.e4m3 : Fmt := ⟨4, 3, true, 7, 2⟩
/-- The format of a usable FMTn value. -/
def NfFmt.fmt (f : NfFmt) : Fmt := ⟨f.e, f.m, f.s, f.bias, f.spec⟩

/-- The format of a floating-point type, and the saturation FMTn adds (R267). -/
def Thread.fmtOf (t : Thread) : Ty → Fmt × Bool
  | .f16 => (.f16, false) | .bf16 => (.bf16, false) | .f64 => (.f64, false) | .w80 => (.w80, false)
  | .e4m3 => (.e4m3, false) | .e5m2 => (.e5m2, false)
  | .nf k => let f := nfFields (t.fmtReg k); (f.fmt, f.sat)
  | _ => (.f32, false)
end Sys2Proof.Machine

namespace Sys2Proof
open Sys2Proof.Machine

/-- The format of a floating-point type with a fixed format. -/
def Ty.fmt : Ty → Fmt
  | .f16 => .f16 | .bf16 => .bf16 | .f64 => .f64 | .w80 => .w80 | .e4m3 => .e4m3 | .e5m2 => .e5m2 | _ => .f32
/-- The format of a view (R216); FULL has none. -/
def View.fmt : View → Fmt
  | .f16 => .f16 | .bf16 => .bf16 | .e5m2 => .e5m2 | .e4m3 => .e4m3 | .full => .f32
/-- The code of a view (R216). -/
def View.num : View → Nat
  | .full => 0 | .f16 => 1 | .bf16 => 2 | .e5m2 => 3 | .e4m3 => 4

end Sys2Proof

namespace Sys2Proof.Machine
open Sys2Proof

/-- Bits of a code. -/
def Fmt.width (f : Fmt) : Nat := f.s.toNat + f.e + f.m
/-- Exponent of the least quantum: 1 − bias − M. -/
def Fmt.quantum (f : Fmt) : Int := 1 - f.bias - (f.m : Int)
/-- The magnitude code of the largest finite value. -/
def Fmt.maxCode (f : Fmt) : Nat :=
  match f.spec with
  | 0 => 2 ^ (f.e + f.m) - 1
  | 1 => (2 ^ f.e - 1) * 2 ^ f.m - 1
  | _ => 2 ^ (f.e + f.m) - 2
/-- The canonical NaN (R260, R263); +0 for a format without NaN (R267 step 1). -/
def Fmt.nanCode (f : Fmt) : Nat :=
  match f.spec with
  | 0 => 0
  | 1 => (2 ^ f.e - 1) * 2 ^ f.m + 2 ^ (f.m - 1)
  | _ => 2 ^ (f.e + f.m) - 1
/-- A magnitude code with its sign bit. -/
def Fmt.withSign (f : Fmt) (s : Bool) (c : Nat) : Nat := if s && f.s then c + 2 ^ (f.e + f.m) else c

/-- The value of a code (R260, R263). -/
def Fmt.value (f : Fmt) (code : Nat) : Fl :=
  let s := f.s && code.testBit (f.e + f.m)
  let e := code / 2 ^ f.m % 2 ^ f.e
  let m := code % 2 ^ f.m
  if f.spec = 1 ∧ e = 2 ^ f.e - 1 then (if m = 0 then .inf s else .nan)
  else if f.spec = 2 ∧ e = 2 ^ f.e - 1 ∧ m = 2 ^ f.m - 1 then .nan
  else if e = 0 then .fin s m f.quantum
  else .fin s (2 ^ f.m + m) (f.quantum + (e : Int) - 1)

/-- Does rounding go away from zero: from the truncated multiple n, the discarded part rem of 2^sh, the sign and the
draw (R267, R268). -/
def roundsUp (rm : Rm) (draw : Nat) (s : Bool) (n rem sh : Nat) : Bool :=
  match rm with
  | .rne => decide (2 ^ sh < 2 * rem) || (decide (2 * rem = 2 ^ sh) && n % 2 == 1 && rem != 0)
  | .rtz => false
  | .rdn => s && rem != 0
  | .rup => !s && rem != 0
  | .sr => decide (2 ^ 16 ≤ 2 ^ 16 * rem / 2 ^ sh + draw)

/-- Did step 3 round towards zero, for the overflow rule of R267 step 5. -/
def overflowsToMax (rm : Rm) (s up : Bool) : Bool :=
  match rm with
  | .rne => false
  | .rtz => true
  | .rdn => !s
  | .rup => s
  | .sr => !up

/-- RoundTo(fmt, mode, sat, x) as a code (R267); draw is the draw of SR. -/
def Fmt.roundTo (f : Fmt) (rm : Rm) (draw : Nat) (sat : Bool) : Fl → Nat
  | .nan => f.nanCode
  | .inf s =>
    if s && !f.s then 0
    else if f.spec = 1 then f.withSign s ((2 ^ f.e - 1) * 2 ^ f.m)
    else if sat || f.spec = 0 then f.withSign s f.maxCode
    else f.nanCode
  | .fin s m e =>
    if s && !f.s then 0
    else if m = 0 then f.withSign s 0
    else
      let q := max ((Nat.log2 m : Int) + e - (f.m : Int)) f.quantum
      let sh := (q - e).toNat
      let up0 := (m <<< (e - q).toNat)
      let n := up0 >>> sh
      let rem := up0 % 2 ^ sh
      let up := roundsUp rm draw s n rem sh
      let code := (q - f.quantum).toNat * 2 ^ f.m + (if up then n + 1 else n)
      if code ≤ f.maxCode then f.withSign s code
      else if sat || f.spec = 0 || overflowsToMax rm s up then f.withSign s f.maxCode
      else if f.spec = 1 then f.withSign s ((2 ^ f.e - 1) * 2 ^ f.m)
      else f.nanCode

/-- RoundTo by RNE without saturation. -/
def Fmt.rne (f : Fmt) (x : Fl) : Nat := f.roundTo .rne 0 false x

-- Exact arithmetic.

/-- The sign inverted. -/
def Fl.neg : Fl → Fl
  | .nan => .nan
  | .inf s => .inf (!s)
  | .fin s m e => .fin (!s) m e
/-- The value is negative, −0 included. -/
def Fl.sign : Fl → Bool
  | .nan => false
  | .inf s => s
  | .fin s _ _ => s
/-- The value is a NaN. -/
def Fl.isNan : Fl → Bool
  | .nan => true
  | _ => false
/-- The value is a zero. -/
def Fl.isZero : Fl → Bool
  | .fin _ m _ => m == 0
  | _ => false

/-- The integer m · 2^(e − lo) with its sign, for lo ≤ e. -/
def scaled (s : Bool) (m : Nat) (e lo : Int) : Int :=
  let v : Int := ((m <<< (e - lo).toNat : Nat) : Int)
  if s then -v else v
/-- An integer times 2^e as a value, +0 for 0. -/
def Fl.ofInt (v e : Int) : Fl := .fin (decide (v < 0)) v.natAbs e

/-- x + y exactly; a zero sum of unlike signs is −0 under RDN and +0 otherwise (R259). -/
def Fl.add (rm : Rm) : Fl → Fl → Fl
  | .nan, _ => .nan
  | _, .nan => .nan
  | .inf s, .inf r => if s = r then .inf s else .nan
  | .inf s, _ => .inf s
  | _, .inf r => .inf r
  | .fin s m e, .fin r n f =>
    let lo := min e f
    let v := scaled s m e lo + scaled r n f lo
    if v = 0 then .fin (if m = 0 ∧ n = 0 ∧ s = r then s else decide (rm = .rdn)) 0 lo
    else .ofInt v lo

/-- x · y exactly. -/
def Fl.mul : Fl → Fl → Fl
  | .nan, _ => .nan
  | _, .nan => .nan
  | .inf s, .inf r => .inf (s != r)
  | .inf s, .fin r n _ => if n = 0 then .nan else .inf (s != r)
  | .fin s m _, .inf r => if m = 0 then .nan else .inf (s != r)
  | .fin s m e, .fin r n f => .fin (s != r) (m * n) (e + f)

/-- An inexact magnitude strictly between m and m + 1 units: one more bit below. -/
def jammed (s : Bool) (m : Nat) (e : Int) (exact : Bool) : Fl :=
  if exact then .fin s m e else .fin s (2 * m + 1) (e - 1)

/-- x / y (R273): the quotient to 90 bits, with what remains below. -/
def Fl.div : Fl → Fl → Fl
  | .nan, _ => .nan
  | _, .nan => .nan
  | .inf _, .inf _ => .nan
  | .inf s, .fin r _ _ => .inf (s != r)
  | .fin s _ _, .inf r => .fin (s != r) 0 0
  | .fin s m e, .fin r n f =>
    if n = 0 then (if m = 0 then .nan else .inf (s != r))
    else
      let k := 90 + Nat.log2 n
      jammed (s != r) ((m <<< k) / n) (e - f - (k : Int)) (decide ((m <<< k) % n = 0))

/-- The integer square root, bit by bit from bit i − 1 down. -/
def isqrtFrom (x : Nat) : Nat → Nat → Nat
  | 0, r => r
  | i + 1, r => if (r + 2 ^ i) * (r + 2 ^ i) ≤ x then isqrtFrom x i (r + 2 ^ i) else isqrtFrom x i r
/-- The integer square root of x. -/
def isqrt (x : Nat) : Nat := isqrtFrom x (Nat.log2 x / 2 + 1) 0

/-- √x (R273). -/
def Fl.sqrt : Fl → Fl
  | .nan => .nan
  | .inf s => if s then .nan else .inf false
  | .fin s m e =>
    if m = 0 then .fin s 0 e
    else if s then .nan
    else
      let k : Nat := 180 + (e % 2).toNat
      let r := isqrt (m <<< k)
      jammed false r ((e - (k : Int)) / 2) (decide (r * r = m <<< k))

/-- 1/x (R273). -/
def Fl.rcp : Fl → Fl
  | .nan => .nan
  | .inf s => .fin s 0 0
  | .fin s m e => if m = 0 then .inf s else Fl.div (.fin false 1 0) (.fin s m e)

/-- 1/√x (R273): −0 gives −Inf. -/
def Fl.rsqrt : Fl → Fl
  | .nan => .nan
  | .inf s => if s then .nan else .fin false 0 0
  | .fin s m e =>
    if m = 0 then .inf s
    else if s then .nan
    else
      -- m · 2^e = n · 2^(2h): 1/√x = 2^−h / √n, and √(2^(2k) / n) gives it to k bits
      let n := m <<< (e % 2).toNat
      let h := (e - e % 2) / 2
      let k := 100 + Nat.log2 n
      let r := isqrt (2 ^ (2 * k) / n)
      jammed false r (-h - (k : Int)) (decide (r * r * n = 2 ^ (2 * k)))

/-- Precision of the fixed-point powers below (log entry 9). -/
def expBits : Nat := 256

/-- Π 2^(2^−i) over the set bits of f, from its top bit: root is 2^(2^−i) to expBits bits. -/
def exp2Loop : Nat → Nat → Nat → Nat → Nat
  | 0, _, _, acc => acc
  | n + 1, f, root, acc =>
    let r := isqrt (root <<< expBits)
    exp2Loop n f r (if f.testBit n then (acc * r) >>> expBits else acc)
/-- 2^(f / 2^n) for f < 2^n, to expBits fraction bits. -/
def exp2Frac (n f : Nat) : Nat := exp2Loop n f (2 <<< expBits) (1 <<< expBits)

/-- ln 2 to 320 fraction bits, by its series Σ 1 / (k · 2^k). -/
def ln2Bits : Nat := ((List.range 340).foldl (fun a k => a + 2 ^ 340 / ((k + 1) * 2 ^ (k + 1))) 0) >>> 20
/-- 2^v for 0 < |v| < 2^-100, v = s · m · 2^e: 1 + t + t²/2 + t³/6 with t = v · ln 2, so that its distance from 1 has about 250 bits,
and a bit below (log entry 9). -/
def exp2Tiny (s : Bool) (m : Nat) (e : Int) : Fl :=
  let t : Int := if s then -((m * ln2Bits : Nat) : Int) else ((m * ln2Bits : Nat) : Int)
  let k := (320 - e).toNat
  let one : Int := ((2 ^ k : Nat) : Int)
  let x := (6 * one * one * one + 6 * t * one * one + 3 * t * t * one + t * t * t) / 6
  .fin false (2 * x.toNat + 1) (-(3 * (k : Int)) - 1)
/-- 2^v for v = s · m · 2^e that is no zero: exact when v is an integer; otherwise irrational, to about 250 bits, with a
bit below (log entry 9). An exponent beyond every format's range is cut at 2^20. -/
def exp2Fin (s : Bool) (m : Nat) (e : Int) : Fl :=
  let v := scaled s m e (min e 0)
  let n := (-(min e 0)).toNat
  if decide (20 < (Nat.log2 m : Int) + e) then .fin false 1 (if s then -(2 ^ 20 : Nat) else (2 ^ 20 : Nat))
  else if decide ((Nat.log2 m : Int) + e < -100) then exp2Tiny s m e
  else
    let k := v / ((2 ^ n : Nat) : Int)
    let f := (v % ((2 ^ n : Nat) : Int)).toNat
    if f = 0 then .fin false 1 k
    else
      .fin false (2 * exp2Frac n f + 1) (k - (expBits : Int) - 1)

/-- 2^x (R273). -/
def Fl.exp2 : Fl → Fl
  | .nan => .nan
  | .inf s => if s then .fin false 0 0 else .inf false
  | .fin s m e => if m = 0 then .fin false 1 0 else exp2Fin s m e

/-- The first n fraction bits of log2 y, y in [1, 2) with 512 fraction bits, by repeated squaring. -/
def log2Loop : Nat → Nat → Nat → Nat
  | 0, _, acc => acc
  | n + 1, y, acc =>
    let z := (y * y) >>> 512
    if 2 ^ 513 ≤ z then log2Loop n (z / 2) (2 * acc + 1) else log2Loop n z (2 * acc)

/-- log2 x (R273); irrational unless x is a power of two (log entry 9). -/
def Fl.log2 : Fl → Fl
  | .nan => .nan
  | .inf s => if s then .nan else .inf false
  | .fin s m e =>
    if m = 0 then .inf true
    else if s then .nan
    else
      let b := Nat.log2 m
      let k : Int := (b : Int) + e
      if m = 2 ^ b then .ofInt k 0
      else
        let frac := log2Loop 256 (m <<< (512 - b)) 0
        let v : Int := k * ((2 ^ 256 : Nat) : Int) + (frac : Int)
        if v < 0 then .fin true (2 * (v.natAbs - 1) + 1) (-257) else .fin false (2 * v.natAbs + 1) (-257)

/-- The order of values that are no NaN; −0 equals +0. -/
def Fl.less : Fl → Fl → Bool
  | .inf s, .inf r => s && !r
  | .inf s, _ => s
  | _, .inf r => !r
  | .fin s m e, .fin r n f => let lo := min e f; decide (scaled s m e lo < scaled r n f lo)
  | _, _ => false
/-- Equality of real values. -/
def Fl.same (a b : Fl) : Bool := !a.isNan && !b.isNan && !a.less b && !b.less a

/-- Maximum as vfmax (R347): NaN if either is, −0 below +0. -/
def Fl.max (a b : Fl) : Fl :=
  if a.isNan || b.isNan then .nan
  else if a.less b then b else if b.less a then a else if a.sign then b else a
/-- Minimum as vfmin. -/
def Fl.min (a b : Fl) : Fl :=
  if a.isNan || b.isNan then .nan
  else if a.less b then a else if b.less a then b else if a.sign then a else b

/-- x · 2^k, zeros and infinities unchanged (R351). -/
def Fl.scale (k : Int) : Fl → Fl
  | .fin s m e => .fin s m (e + k)
  | x => x

/-- A magnitude rounded to an integer (R270, R350). -/
def roundInt (rm : Rm) (draw : Nat) (s : Bool) (m : Nat) (e : Int) : Nat :=
  if 0 ≤ e then m <<< e.toNat
  else
    let sh := (-e).toNat
    let n := m >>> sh
    if roundsUp rm draw s n (m % 2 ^ sh) sh then n + 1 else n
/-- Floating point to integer (R270): NaN gives 0; the caller clamps; infinities go past every range. -/
def Fl.toInt (rm : Rm) (draw : Nat) : Fl → Int
  | .nan => 0
  | .inf s => if s then -(2 ^ 70 : Nat) else (2 ^ 70 : Nat)
  | .fin s m e =>
    let n : Int := (roundInt rm draw s m (Max.max e (-20000)) : Nat)
    if s then -n else n
/-- vfrint (R350): the sign stays on a zero result. -/
def Fl.rint (rm : Rm) (draw : Nat) : Fl → Fl
  | .fin s m e => if 0 ≤ e then .fin s m e else .fin s (roundInt rm draw s m e) 0
  | x => x

/-- An integer as a value. -/
def Fl.int (v : Int) : Fl := .ofInt v 0

-- Stochastic rounding (R268).

/-- One step of the shift register. -/
def lfsrStep (s : BitVec 32) : BitVec 32 :=
  (s <<< 1) ||| (BitVec.ofBool (s.getLsbD 31 != (s.getLsbD 21 != (s.getLsbD 1 != s.getLsbD 0)))).setWidth 32
/-- n steps. -/
def lfsrSteps : Nat → BitVec 32 → BitVec 32
  | 0, s => s
  | n + 1, s => lfsrSteps n (lfsrStep s)
/-- A draw: the new state, whose low 16 bits are the draw. -/
def srDraw (s : BitVec 32) : BitVec 32 := lfsrSteps 16 s

/-- Round a list of elements in increasing order: under SR each one draws (R269). -/
def roundAll (rm : Rm) (g : Fl → Nat → Nat) : List (Option Fl) → BitVec 32 → List (Option Nat) × BitVec 32
  | [], sr => ([], sr)
  | none :: r, sr => let p := roundAll rm g r sr; (none :: p.1, p.2)
  | some x :: r, sr =>
    let sr' := if rm = .sr then srDraw sr else sr
    let p := roundAll rm g r sr'
    (some (g x (sr'.toNat % 2 ^ 16)) :: p.1, p.2)

/-- Every value of the source format is a value of the destination's, and the destination is no narrower: the
conversion R270 calls exact. -/
def Fmt.holds (src dst : Fmt) : Bool :=
  decide (src.width ≤ dst.width) &&
  (if src.width ≤ 8 then
    (List.range (2 ^ src.width)).all fun c =>
      let v := src.value c
      let w := dst.value (dst.rne v)
      match v with
      | .nan => w.isNan
      | _ => w.same v && w.sign == v.sign
  else src == dst || (decide (src.e ≤ dst.e) && decide (src.m ≤ dst.m) && src.spec == 1 && dst.spec == 1))

/-- FpMax of ctrarrive and the row collective (R391): vfmax on FP32 codes. -/
def f32Max (a b : Nat) : Nat := Fmt.f32.rne ((Fmt.f32.value a).max (Fmt.f32.value b))
/-- An FP32 sum rounded once by RNE. -/
def f32Add (a b : Nat) : Nat := Fmt.f32.rne ((Fmt.f32.value a).add .rne (Fmt.f32.value b))
/-- A BF16 sum rounded once by RNE. -/
def bf16Add (a b : Nat) : Nat := Fmt.bf16.rne ((Fmt.bf16.value a).add .rne (Fmt.bf16.value b))

/-- Term of R356, for a value x no greater than m. -/
def mergeTerm (sx x m : Fl) : Fl :=
  if x.same m then sx
  else match x, m with
    | .inf true, _ => .fin false 0 0
    | _, .inf false => .fin false 0 0
    | x, m => match x.add .rne m.neg with
      | .fin s d e => sx.mul (exp2Fin s d e)
      | y => y
/-- MergePair on values (R356): m exactly, and the sum before its rounding. -/
def mergePair (ma sa mb sb : Fl) : Fl × Fl :=
  if ma.isNan || mb.isNan then (.nan, .nan)
  else
    let m := ma.max mb
    (m, (mergeTerm sa ma m).add .rne (mergeTerm sb mb m))

end Sys2Proof.Machine
end

