-- ==== Sys2Proof/Machine/Flags.lean ====
section
/-! DEFINITION. The device has no flags register (14): a result that a later instruction tests goes into a predicate or a
mask. This file holds those computations: comparisons (R323, R352), predicate and mask logic (R323), counts (R324) and
the mask of the first elements (R324). -/
namespace Sys2Proof
open Sys2Proof.Machine

/-- An integer relation (R323). -/
def Cmp.holds (c : Cmp) (a b : Int) : Bool :=
  match c with
  | .eq => decide (a = b) | .ne => decide (a ≠ b) | .lt => decide (a < b) | .le => decide (a ≤ b)
  | .gt => decide (b < a) | .ge => decide (b ≤ a)

/-- Bitwise logic on 64 bits; not uses its first operand alone (R323). -/
def LogOp.apply {w : Nat} (op : LogOp) (a b : BitVec w) : BitVec w :=
  match op with
  | .and => a &&& b | .or => a ||| b | .xor => a ^^^ b | .andn => a &&& ~~~b | .not => ~~~a
/-- The same on one bit. -/
def LogOp.applyBool (op : LogOp) (a b : Bool) : Bool :=
  match op with
  | .and => a && b | .or => a || b | .xor => a != b | .andn => a && !b | .not => !a

/-- Set bits of a number below bit n. -/
def popCount : Nat → Nat → Nat
  | 0, _ => 0
  | n + 1, x => (if x.testBit n then 1 else 0) + popCount n x
/-- Index of the lowest set bit below n, counted from bit i; the fallback when none is set. -/
def firstSet : Nat → Nat → Nat → Nat → Nat
  | 0, _, _, d => d
  | n + 1, i, x, d => if x.testBit i then i else firstSet n (i + 1) x d
/-- Index of the highest set bit below n; the fallback when none is set. -/
def lastSet : Nat → Nat → Nat → Nat
  | 0, _, d => d
  | n + 1, x, d => if x.testBit n then n else lastSet n x d

/-- mcnt (R324). -/
def CntOp.count (op : CntOp) (v : BitVec 64) : Nat :=
  match op with
  | .popc => popCount 64 v.toNat
  | .first => firstSet 64 0 v.toNat 64
  | .last => lastSet 64 v.toNat 64

/-- bit.clz, .ctz and .popc of the w-bit pattern p (R317); they give w when p = 0. -/
def bitCount (op : BitOp) (w p : Nat) : Nat :=
  match op with
  | .clz => match lastSet w p w with
    | i => if p % 2 ^ w = 0 then w else w - 1 - i
  | .ctz => firstSet w 0 p w
  | .popc => popCount w p
  | .brev => 0
/-- The w bits of p in reverse order. -/
def reverseBits : Nat → Nat → Nat
  | 0, _ => 0
  | w + 1, p => (if p.testBit 0 then 2 ^ w else 0) + reverseBits w (p / 2)

/-- mfirst (R324): each mask bit that governs an element with index below n, of the elements of width w. -/
def firstMask (w : Nat) (n : Int) : BitVec 64 :=
  let c := if n ≤ 0 then 0 else Nat.min n.toNat (elemCount w)
  -- element c − 1 is the last one below n, and governing bits rise with the element
  if c = 0 then 0 else BitVec.ofNat 64 (2 ^ (maskBitOf w (c - 1) + 1) - 1)

/-- The lane mask of a final pop (R192): bits that govern one of the first n elements of width w. -/
def finalMask (w n : Nat) : BitVec 64 := firstMask w n

end Sys2Proof
end

