-- ==== Sys2Proof/Machine/Registers.lean ====
section
/-! DEFINITION. The device registers as stored values: number, reset value and access codes of every register map (R5),
for the registers whose fields are held as written. A register kept for each die stands at number + 0x1000 · die. The
registers that show other state are read in System.lean. -/
namespace Sys2Proof.Machine
open Sys2Proof

/-- A mask of n bits from bit lo. -/
def field (lo n : Nat) : Nat := (2 ^ n - 1) <<< lo

/-- A register map: reset value, RW bits and W1C bits; the other bits are RO or RZ (R5). -/
structure RegSpec where
  reset : Nat
  rw : Nat
  w1c : Nat

/-- The default hash masks (R31). -/
def hmaskReset : Nat → Nat
  | 0 => 0x0000000000800080 | 1 => 0x0000000001000100 | 2 => 0x0000000002000200 | 3 => 0x0000000004000400
  | 4 => 0x0000000008000800 | 5 => 0x0000000000001000 | 6 => 0x0000000000002000 | 7 => 0x0000000000004000
  | 8 => 0x0000000010008000 | 9 => 0x0000000020010000 | 10 => 0x0000000040020000 | 11 => 0x0000000080040000
  | _ => 0x0000000100400000

/-- The register maps, by SYSR number; none where no map assigns the number. -/
def regSpec (n : Nat) : Option RegSpec :=
  match n with
  | 0x000 => some ⟨0x0B1A0F3110040100, 0, 0⟩
  | 0x008 => some ⟨64, field 63 1 + field 0 7, 0⟩
  | 0x00C => some ⟨2000, field 0 12, 0⟩
  | 0x00D => some ⟨0, 0, field 2 2⟩
  | 0x030 => some ⟨18 <<< 8, field 8 5 + field 0 2, 0⟩
  | 0x031 => some ⟨(1 <<< 63) + (4 <<< 20) + 1440, field 63 1 + field 20 8 + field 0 20, 0⟩
  | 0x032 => some ⟨0, 0, field 2 3⟩
  | 0x033 => some ⟨(1 <<< 63) + 0x100000, field 63 1 + field 0 24, 0⟩
  | 0x034 => some ⟨0, 0, field 63 1⟩
  | 0x038 => some ⟨0, field 16 20 + field 4 4 + field 0 2, 0⟩
  | 0x039 => some ⟨1, 0, 0⟩
  | 0x040 => some ⟨0, field 63 1 + field 16 36 + field 0 2, 0⟩
  | 0x041 => some ⟨0, 0, 0⟩
  | 0x050 => some ⟨(50 <<< 32) + (8 <<< 24) + 100, field 32 16 + field 24 6 + field 0 16, 0⟩
  | 0x0E0 => some ⟨(1 <<< 63) + (0xF0 <<< 12) + 8, field 63 1 + field 12 8 + field 0 4, 0⟩
  | 0x0E1 => some ⟨0, 0, 0⟩
  | 0x0E2 => some ⟨0, field 0 32, 0⟩
  | 0x0F0 => some ⟨0, field 63 1 + field 56 2 + field 7 45, 0⟩
  | 0x0F1 | 0x0F2 | 0x0F3 | 0x0F4 => some ⟨0, 0, 0⟩
  | 0x200 => some ⟨(4096 <<< 44) + (1 <<< 40) + (8 <<< 32) + 64, field 44 20 + field 40 1 + field 32 8 + field 0 7, 0⟩
  | 0x400 => some ⟨(64 <<< 16) + 256, field 16 8 + field 0 10, 0⟩
  | 0x401 => some ⟨64, field 0 10, 0⟩
  | 0x402 => some ⟨16, field 0 9, 0⟩
  | 0x403 => some ⟨(1 <<< 63) + 4, field 63 1 + field 0 4, 0⟩
  | 0x404 => some ⟨0, field 21 31, 0⟩
  | 0x405 => some ⟨3 <<< 4, field 2 4, 0⟩
  | 0x420 => some ⟨0, field 0 20, 0⟩
  | 0x421 | 0x422 | 0x423 => some ⟨0, 0, 0⟩
  | 0x600 => some ⟨(20 <<< 32) + 0x100000, field 63 1 + field 32 5 + field 0 32, 0⟩
  | 0x601 => some ⟨0, field 12 40, 0⟩
  | 0x602 => some ⟨0, field 0 32, 0⟩
  | 0x610 => some ⟨0, field 8 8 + field 0 4, 0⟩
  | 0x611 => some ⟨0, field 63 1 + field 8 5 + field 0 8, 0⟩
  | 0x612 => some ⟨0, field 0 64, 0⟩
  | 0x620 => some ⟨0, field 63 1, field 62 1⟩
  | 0x621 => some ⟨0, 0, 0⟩
  | 0x630 => some ⟨20, field 63 1 + field 12 40 + field 0 6, 0⟩
  | 0x640 => some ⟨24 <<< 32, field 62 2 + field 32 5 + field 0 4, 0⟩
  | 0x641 => some ⟨0, field 12 40, 0⟩
  | 0x642 => some ⟨0, 0, field 62 2⟩
  | 0x643 => some ⟨0, 0, 0⟩
  | _ =>
    if 0x020 ≤ n ∧ n ≤ 0x02C then some ⟨hmaskReset (n - 0x020), field 7 32, 0⟩
    else if 0x060 ≤ n ∧ n ≤ 0x06F then some ⟨0, field 7 45, field 0 1⟩
    else if 0x080 ≤ n ∧ n ≤ 0x0BF then some ⟨0, field 63 1 + field 7 45, 0⟩
    else if 0x0E8 ≤ n ∧ n ≤ 0x0EB then some ⟨0, 0, 0⟩
    else if 0x100 ≤ n ∧ n ≤ 0x1FF then some ⟨0, field 63 1 + field 0 12, 0⟩
    else if 0x210 ≤ n ∧ n ≤ 0x22F then some ⟨0, 0, 0⟩
    else if 0x300 ≤ n ∧ n ≤ 0x3FF then some ⟨0, 0, field 0 1⟩
    else if 0x410 ≤ n ∧ n ≤ 0x417 then some ⟨0, 0, 0⟩
    else if 0x500 ≤ n ∧ n ≤ 0x5FF then some ⟨0, field 8 4 + field 2 1 + field 0 2, 0⟩
    else none

/-- Registers of which each die has its own (R163, R215, R238). -/
def perDie (n : Nat) : Bool := n == 0x0E1 || n == 0x0E2 || (0x0F0 ≤ n && n ≤ 0x0F4) || (0x420 ≤ n && n ≤ 0x423)
/-- Where a register is kept. -/
def regKey (die n : Nat) : Nat := if perDie n then n + 0x1000 * die else n

/-- A stored register: its value, or its reset value. -/
def State.reg (s : State) (key : Nat) : Nat :=
  match Sparse.get? s.regs key with
  | some v => v.toNat
  | none => match regSpec (key % 0x1000) with
    | some r => r.reset
    | none => 0
/-- Store a register's value. -/
def State.setReg (s : State) (key v : Nat) : State := { s with regs := Sparse.set s.regs key (BitVec.ofNat 64 v) }

/-- What a write leaves in a register (R5): RW bits take the value, W1C bits clear where it is 1, the others stay. -/
def maskedWrite (r : RegSpec) (old v : Nat) : Nat :=
  let o := BitVec.ofNat 64 old
  let x := BitVec.ofNat 64 v
  let rw := BitVec.ofNat 64 r.rw
  let wc := BitVec.ofNat 64 r.w1c
  (((o &&& ~~~rw) ||| (x &&& rw)) &&& ~~~(x &&& wc)).toNat

/-- A write by the access codes alone (R5). -/
def State.writeReg (s : State) (key v : Nat) : State :=
  match regSpec (key % 0x1000) with
  | none => s
  | some r => s.setReg key (maskedWrite r (s.reg key) v)

/-- Replace a bit field of a number. -/
def putField (x lo n v : Nat) : Nat := x - (bitsOf x lo n <<< lo) + ((v % 2 ^ n) <<< lo)
/-- Add to a bit field, saturating at its greatest value. -/
def satField (x lo n d : Nat) : Nat := putField x lo n (Nat.min (2 ^ n - 1) (bitsOf x lo n + d))
/-- Change a stored register. -/
def State.onReg (s : State) (key : Nat) (f : Nat → Nat) : State := s.setReg key (f (s.reg key))

/-- A BAR0 register as stored. -/
def State.bar (s : State) (off reset : Nat) : Nat := (Sparse.getD s.bar0 off (BitVec.ofNat 64 reset)).toNat
/-- Store a BAR0 register. -/
def State.setBar (s : State) (off v : Nat) : State := { s with bar0 := Sparse.set s.bar0 off (BitVec.ofNat 64 v) }

-- Fields used by several parts of the device.

/-- SPREAD_SIZE.S (R20). -/
def State.spread (s : State) : Nat := bitsOf (s.reg 0x008) 0 7
/-- SPREAD_SIZE.LOCK. -/
def State.locked (s : State) : Bool := bitOf (s.reg 0x008) 63
/-- TILE_FENCE (R178). -/
def State.fenced (s : State) (tile : Nat) : Bool := bitOf (s.reg (0x0E8 + tile / 64)) (tile % 64)
/-- LODGE_CFG.CQLIM (R125). -/
def State.cqlim (s : State) : Nat :=
  let n := bitsOf (s.reg 0x200) 0 7
  if n = 0 ∨ 64 < n then 64 else n
/-- FAULT_CFG: EN, ring offset in bytes, records in the ring (R163). -/
def State.faultCfg (s : State) : Bool × Nat × Nat :=
  let v := s.reg 0x0E0
  (bitOf v 63, 4096 * (bitsOf v 12 8), 2 ^ Nat.min 12 (Nat.max 4 (bitsOf v 0 4)))

/-- Bits of MQn that its layout gives (R427). -/
def mqMask : Nat → Nat
  | 0 | 1 => field 0 56
  | 2 => field 0 64
  | _ => field 0 3
/-- Write a user control register (R6, R189, R262): RZ bits are ignored; SR_STATE never holds zero. -/
def Thread.setUcr (t : Thread) (n : Nat) (v : BitVec 64) : Thread :=
  if n < 8 then { t with fmt := t.fmt.set n (v &&& BitVec.ofNat 64 (field 20 1 + field 16 2 + field 8 8 + field 4 4 + field 0 3)) }
  else if n = 8 then { t with sr := if v.setWidth 32 = 0#32 then 1 else v.setWidth 32 }
  else if 0x0C ≤ n ∧ n ≤ 0x0F then { t with mq := t.mq.set (n - 0x0C) (v &&& BitVec.ofNat 64 (mqMask (n - 0x0C))) }
  else { t with sbase := v.setWidth 56 }

end Sys2Proof.Machine
end

