-- ==== Sys2Proof/Machine/Hbm.lean ====
section
/-! DEFINITION. Physical memory (01, 02): the address map (R18), line slots (R27, R28), line contents under keys (R44),
poison (R40), slices and homes (R207), and the signature hashes of the Lodges (R133, R134). -/
namespace Sys2Proof.Machine
open Sys2Proof

/-- One gibibyte. -/
def gib : Nat := 2 ^ 30

/-- A window of the physical address map (R18). -/
inductive Window where
  | spread
  | quad (q : Nat)
  | system
  | unbacked
deriving DecidableEq, Repr

/-- The window of a physical address (R18, R50). -/
def State.window (s : State) (pa : Nat) : Window :=
  let sg := s.spread
  if pa < gib * (8 * sg) then .spread
  else if 2 ^ 51 ≤ pa ∧ pa < 2 ^ 52 then
    (if bitOf pa 50 && !bitOf (s.reg (0x100 + bitsOf pa 42 8)) 63 then .unbacked else .system)
  else if 2 ^ 40 ≤ pa ∧ pa < 2 ^ 40 + 4 * 2 ^ 37 ∧ pa % 2 ^ 37 < gib * (2 * (64 - sg)) then
    .quad (bitsOf pa 37 2)
  else .unbacked

/-- Backed under R18. -/
def State.backed (s : State) (pa : Nat) : Bool := s.window pa != .unbacked
/-- In system space. -/
def State.isSystem (s : State) (pa : Nat) : Bool := s.window pa == .system

/-- The parity of the low n bits. -/
def parity (n x : Nat) : Bool := popCount n x % 2 == 1

/-- The mapping address (R27). -/
def State.mapping (s : State) (pa : Nat) : Nat :=
  match s.window pa with
  | .quad _ => let o := pa % 2 ^ 37; (bitsOf o 13 24 <<< 15) + o % 2 ^ 13
  | _ => pa % 2 ^ 39

/-- Hash output k of a mapping address (R28). -/
def State.hashOut (s : State) (m k : Nat) : Nat := (parity 39 (m &&& s.reg (0x020 + k))).toNat

/-- The stack of an address (R28). -/
def State.stackOf (s : State) (pa : Nat) : Nat :=
  let m := s.mapping pa
  match s.window pa with
  | .quad q => 2 * q + s.hashOut m 5
  | _ => s.hashOut m 5 + 2 * s.hashOut m 6 + 4 * s.hashOut m 7

/-- The row of an address (R28). -/
def State.rowOf (s : State) (pa : Nat) : Nat :=
  let m := s.mapping pa
  match s.window pa with
  | .quad _ => 1024 * s.spread + bitsOf m 23 16
  | _ => bitsOf m 23 16

/-- The line slot of a line of device memory, as one number: stack, channel, pseudo-channel, bank group, bank, row,
column (R28). -/
def State.slotOf (s : State) (line : Nat) : Nat :=
  let pa := line * 128
  let m := s.mapping pa
  let ch := s.hashOut m 0 + 2 * s.hashOut m 1 + 4 * s.hashOut m 2 + 8 * s.hashOut m 3 + 16 * s.hashOut m 4
  let bg := s.hashOut m 8 + 2 * s.hashOut m 9
  let ba := s.hashOut m 10 + 2 * s.hashOut m 11
  (2 ^ 16 * ((((s.stackOf pa * 32 + ch) * 2 + s.hashOut m 12) * 4 + bg) * 4 + ba) + s.rowOf pa) * 8 + bitsOf m 19 3

/-- The home quadrant of a line (R207). -/
def State.homeQuad (s : State) (line : Nat) : Nat :=
  match s.window (line * 128) with
  | .quad q => q
  | .system => 0
  | _ => s.stackOf (line * 128) / 2

/-- Does bit i of a line address count for bit j of the slice index (R207). -/
def sliceMaskFrom : Nat → Nat → Nat
  | 0, _ => 0
  | n + 1, j => (if n % 6 = j then 2 ^ n else 0) + sliceMaskFrom n j
/-- The slice index of a line (R207). -/
def sliceOf (line : Nat) : Nat :=
  (List.range 6).foldl (fun a j => a + (parity 45 (line &&& sliceMaskFrom 45 j)).toNat * 2 ^ j) 0
/-- The tile whose L2 slice is a line's home on a die. -/
def l2HomeTile (die line : Nat) : Nat := die * 64 + sliceOf line

-- Bytes and lines.

/-- The byte an address reads as (log entry 2). -/
def cellRead (m : List Host.Cell) (a : Nat) : Byte := Sparse.getD m a 0
/-- Write one byte, keeping the one form: a byte that an unlisted address reads as is not listed. -/
def cellWrite (m : List Host.Cell) (a : Nat) (v : Byte) : List Host.Cell :=
  if v = 0 then Sparse.erase m a else Sparse.set m a v
/-- Write bytes at rising addresses. -/
def cellsWrite : List Host.Cell → Nat → List Byte → List Host.Cell
  | m, _, [] => m
  | m, a, b :: r => cellsWrite (cellWrite m a b) (a + 1) r
/-- The canonical form of a list of cells: addresses strictly rising, no entry equal to an unlisted byte. -/
def cellsWf (m : List Host.Cell) : Bool := Sparse.sorted m && m.all fun c => c.2 != 0
/-- Canonical memory. -/
def Memory.wf (m : Memory) : Bool := cellsWf m.hbm && cellsWf m.sys

/-- A line from its bytes. -/
def lineOf (f : Nat → Byte) : Line := BitVec.ofNat 1024 (packElems 8 ((List.range 128).map fun i => (f i).toNat))
/-- Byte i of a line. -/
def byteOf (x : Line) (i : Nat) : Byte := BitVec.ofNat 8 (elem 8 x i)
/-- The 128 bytes of a line. -/
def lineBytes (x : Line) : List Byte := (List.range 128).map (byteOf x)
/-- The bits of old where the mask is clear, of new where it is set. -/
def mergeLine (mask old new : Line) : Line := (old &&& ~~~mask) ||| (new &&& mask)
/-- n bytes from offset o of a line, as a number, little-endian (R2). -/
def lineNat (x : Line) (o n : Nat) : Nat := (x.toNat >>> (8 * o)) % 2 ^ (8 * n)
/-- Put n bytes at offset o. -/
def putLine (x : Line) (o n v : Nat) : Line :=
  (x &&& ~~~(BitVec.ofNat 1024 ((2 ^ (8 * n) - 1) <<< (8 * o)))) ||| BitVec.ofNat 1024 ((v % 2 ^ (8 * n)) <<< (8 * o))
/-- A mask of n bytes from offset o. -/
def byteMask (o n : Nat) : Line := BitVec.ofNat 1024 ((2 ^ (8 * n) - 1) <<< (8 * o))

/-- Key material as a number. -/
def KeyMaterial.code : KeyMaterial → Nat
  | .generated n => 2 * n
  | .loaded v => 2 * v.toNat + 1
/-- The key a slot holds (R45). -/
def State.keyAt (s : State) (k : Nat) : Option KeyMaterial := Sparse.get? s.mem.keys k

/-- What a line written under one key and address shows under another (R32, R44) (log entry 7). -/
def seenUnder (wk : KeyMaterial × Nat) (rk : Option KeyMaterial) (line : Nat) (data : Line) : Line :=
  match rk with
  | none => data
  | some m =>
    if wk.1 = m ∧ wk.2 = line then data
    else lineOf fun i => Config.wrongKeyByte wk.1.code wk.2 m.code line data.toNat i

/-- The plaintext of a line slot as HBM returns it under a key slot. -/
def State.hbmLine (s : State) (line key : Nat) : Line :=
  let slot := s.slotOf line
  let data := lineOf fun i => cellRead s.mem.hbm (slot * 128 + i)
  match Sparse.get? s.mem.slotKey slot with
  | none => data
  | some wk => seenUnder wk (s.keyAt key) line data

/-- The coherent contents of a line read under a key slot: the last store performed to it (R239) (log entry 2). -/
def State.lineAt (s : State) (line key : Nat) : Line :=
  match s.window (line * 128) with
  | .unbacked => 0
  | .system => lineOf fun i => cellRead s.mem.sys (line * 128 + i)
  | _ =>
    match Sparse.get? s.mem.chip line with
    | none => s.hbmLine line key
    | some c =>
      if c.key = key then c.data
      else match s.keyAt c.key with
        | none => c.data
        | some m => seenUnder (m, line) (s.keyAt key) line c.data

/-- The byte at a physical address under a key slot. -/
def State.byteAt (s : State) (pa key : Nat) : Byte := byteOf (s.lineAt (pa / 128) key) (pa % 128)

/-- Insert into a rising list of numbers. -/
def insertNat : List Nat → Nat → List Nat
  | [], n => [n]
  | a :: r, n => if n < a then n :: a :: r else if n = a then a :: r else a :: insertNat r n

/-- The line is poisoned (R40). -/
def State.poisoned (s : State) (line : Nat) : Bool :=
  match s.window (line * 128) with
  | .unbacked => false
  | .system => s.mem.sysPoison.contains line
  | _ => match Sparse.get? s.mem.chip line with
    | some c => c.poison
    | none => s.mem.slotPoison.contains (s.slotOf line)

/-- Give a line its contents and poison bit; device memory keeps it on the chip until it is written to HBM. -/
def State.storeLine (s : State) (line key : Nat) (data : Line) (poison : Bool) : State :=
  match s.window (line * 128) with
  | .unbacked => s
  | .system => { s with mem := { s.mem with
      sys := cellsWrite s.mem.sys (line * 128) (lineBytes data),
      sysPoison := if poison then insertNat s.mem.sysPoison line else s.mem.sysPoison.filter (· != line) } }
  | _ => { s with mem := { s.mem with chip := Sparse.set s.mem.chip line ⟨key, data, poison⟩ } }

/-- A line is written to its HBM slot: compressed, encrypted under its key slot (R35, R44). -/
def State.writeBack (s : State) (line : Nat) : State :=
  match Sparse.get? s.mem.chip line with
  | none => s
  | some c =>
    let slot := s.slotOf line
    { s with mem := { s.mem with
        chip := Sparse.erase s.mem.chip line,
        hbm := cellsWrite s.mem.hbm (slot * 128) (lineBytes c.data),
        slotPoison := if c.poison then insertNat s.mem.slotPoison slot else s.mem.slotPoison.filter (· != slot),
        slotKey := match s.keyAt c.key with
          | none => s.mem.slotKey
          | some m => Sparse.set s.mem.slotKey slot (m, line),
        errors := Sparse.erase s.mem.errors slot,
        size := Sparse.set s.mem.size slot (if c.poison then 0 else Config.sizeCode c.data) } }

/-- A new poisoning: counted, flagged, its line recorded while MEMERR_ADDR holds none (R40), and logged for the host (R66). -/
def State.newPoison (s : State) (line : Nat) : State :=
  let s := s.onReg 0x032 fun v => satField (putField v 2 1 1) 24 16 1
  let s := if bitOf (s.reg 0x034) 63 then s else s.setReg 0x034 (2 ^ 63 + line * 128 % 2 ^ 52)
  s.logEvent 0 line
/-- Set the poison bit of a line. -/
def State.setPoison (s : State) (line : Nat) : State :=
  match s.window (line * 128) with
  | .unbacked => s
  | .system => { s with mem := { s.mem with sysPoison := insertNat s.mem.sysPoison line } }
  | _ => match Sparse.get? s.mem.chip line with
    | some c => { s with mem := { s.mem with chip := Sparse.set s.mem.chip line { c with poison := true } } }
    | none => { s with mem := { s.mem with slotPoison := insertNat s.mem.slotPoison (s.slotOf line) } }
/-- A line becomes poisoned; only where it was not is that a new poisoning (R40). -/
def State.poisonLine (s : State) (line : Nat) : State :=
  if s.poisoned line then s else (s.setPoison line).newPoison line

/-- The pseudo-channel of a slot (R25). -/
def pcOfSlot (slot : Nat) : Nat := slot / 2 ^ 23
/-- A request reaches a pseudo-channel: it leaves self-refresh, and its idle count starts again (R39). -/
def State.hbmRequest (s : State) (pc : Nat) : State :=
  { s with mem := { s.mem with selfRefresh := s.mem.selfRefresh.filter (· != pc), requested := Sparse.set s.mem.requested pc s.cycle } }
/-- A demand read of a line that the chip does not hold goes to HBM. An error standing in the slot is found: a correctable one is
counted and corrected there, an uncorrectable one poisons the line (R26, R36, R40); a read of a line with no error changes no
byte. -/
def State.hbmRead (s : State) (line : Nat) : State :=
  if s.isSystem (line * 128) || !s.backed (line * 128) || (Sparse.get? s.mem.chip line).isSome then s
  else
    let slot := s.slotOf line
    let s := s.hbmRequest (pcOfSlot slot)
    match Sparse.get? s.mem.errors slot with
    | none => s
    | some bad =>
      let s : State := { s with mem := { s.mem with errors := Sparse.erase s.mem.errors slot } }
      if bad then s.poisonLine line else s.onReg 0x032 fun v => satField v 40 24 1
/-- A line goes to its slot: the write is a request of its pseudo-channel (R35, R39). -/
def State.hbmStore (s : State) (line : Nat) : State :=
  if (Sparse.get? s.mem.chip line).isSome then (s.hbmRequest (pcOfSlot (s.slotOf line))).writeBack line else s

-- System-space lines held through CXL.cache (R53).

/-- Send a CXL.cache message. -/
def State.sendCache (s : State) (m : CacheMsg) : State := { s with host := { s.host with cache := s.host.cache ++ [m] } }
/-- The state in which the device holds a system-space line: the weaker of those granted for its halves (R53). -/
def State.sysHeld (s : State) (line : Nat) : Nat :=
  Nat.min (Sparse.getD s.mem.grants (2 * line) 0) (Sparse.getD s.mem.grants (2 * line + 1) 0)
/-- A half is granted in a state. -/
def State.setGrant (s : State) (half state : Nat) : State :=
  { s with mem := { s.mem with grants := if state = 0 then Sparse.erase s.mem.grants half else Sparse.set s.mem.grants half state } }
/-- The port of a peer address (R63). -/
def State.portOf (s : State) (pa : Nat) : Option Nat :=
  let up := (List.range 12).filter fun k => s.host.fabUp.getLsbD k
  if up.isEmpty || !bitOf pa 50 || !bitOf pa 51 then none
  else up[(bitsOf pa 42 8 ^^^ bitsOf pa 7 8) % up.length]?
/-- The device asks for both halves of a system-space line with one opcode, unless a request for it is still unanswered (R53); the
request for a peer's line keeps the port it goes out on (R63). -/
def State.askHost (s : State) (line : Nat) (own : Bool) : State :=
  let hs := [2 * line, 2 * line + 1]
  if hs.any fun h => (Sparse.get? s.mem.asked h).isSome then s
  else
    let s := hs.foldl (fun (s : State) h => s.sendCache (.request h own)) s
    { s with mem := { s.mem with
        asked := hs.foldl (fun m h => Sparse.set m h own) s.mem.asked,
        heldPort := match s.portOf (line * 128) with
          | some k => Sparse.set s.mem.heldPort line k
          | none => s.mem.heldPort } }
/-- The request for one half is answered: it is granted a state, at most the one asked for (R53). -/
def State.answerHost (s : State) (half state : Nat) : State :=
  match Sparse.get? s.mem.asked half with
  | none => s
  | some own =>
    let s := s.setGrant half (Nat.min state (if own then 2 else 1))
    { s with mem := { s.mem with asked := Sparse.erase s.mem.asked half } }
/-- The device holds a system-space line in the state that an access needs, or has asked for it (R53). -/
def State.sysReady (s : State) (line : Nat) (own : Bool) : Bool × State :=
  if (if own then 2 else 1) ≤ s.sysHeld line then (true, s) else (false, s.askHost line own)
/-- An access that does not wait for its grants, as those that the device makes for itself, is granted what it asks at once (log entry
76). -/
def State.hostHold (s : State) (line : Nat) (own : Bool) : State :=
  let want := if own then 2 else 1
  if !s.isSystem (line * 128) || decide (want ≤ s.sysHeld line) then s
  else
    let s := s.askHost line own
    let s := ((s.answerHost (2 * line) want).answerHost (2 * line + 1) want)
    (s.setGrant (2 * line) want).setGrant (2 * line + 1) want
/-- The device modifies halves of a system-space line. -/
def State.hostDirty (s : State) (line : Nat) (mask : Line) : State :=
  if !s.isSystem (line * 128) then s
  else
    let hs := (if mask.setWidth 512 = 0 then [] else [2 * line]) ++ (if (mask >>> 512).setWidth 512 = 0#512 then [] else [2 * line + 1])
    { s with mem := { s.mem with dirty := hs.foldl insertNat s.mem.dirty } }
/-- What the device modified of a system-space line goes back: both halves, each with its own dirty indication (R53). It holds the
line in a state afterwards. -/
def State.hostBack (s : State) (line state : Nat) : State :=
  if !s.isSystem (line * 128) then s
  else [2 * line, 2 * line + 1].foldl (fun (s : State) h =>
    if Sparse.getD s.mem.grants h 0 = 0 then s
    else
      let s := (s.sendCache (.writeBack h (s.mem.dirty.contains h))).setGrant h state
      { s with mem := { s.mem with dirty := s.mem.dirty.filter (· != h),
                                   heldPort := if state = 0 then Sparse.erase s.mem.heldPort line else s.mem.heldPort } }) s

-- Signatures (R133, R134).

/-- Mask(b, i): bits 9k + ((i + b·k) mod 9). -/
def sigMask (b i : Nat) : Nat := (List.range 5).foldl (fun a k => a + 2 ^ (9 * k + (i + b * k) % 9)) 0
/-- Ib of a line address. -/
def sigIndex (b line : Nat) : Nat := (List.range 9).foldl (fun a i => a + (parity 45 (line &&& sigMask b i)).toNat * 2 ^ i) 0
/-- An empty filter. -/
def sigEmpty : List (BitVec 512) := [0, 0, 0, 0]
/-- Enter a line. -/
def sigInsert (f : List (BitVec 512)) (line : Nat) : List (BitVec 512) :=
  f.mapIdx fun b v => v ||| (1#512 <<< sigIndex b line)
/-- The line matches: all four of its bits are set. -/
def sigMatch (f : List (BitVec 512)) (line : Nat) : Bool :=
  (List.range 4).all fun b => (f.getD b 0).getLsbD (sigIndex b line)

end Sys2Proof.Machine
end

