-- ==== Sys2Proof/Machine/Coherence.lean ====
section
/-! DEFINITION. Caches, precision subscription and replication (09), conflict detection and aborts (06): what the homes
do when a line is read or a store is performed. A home serialises its accesses, and here one access runs at a time, with
the invalidations, collapses it waits for, probes, aborts and restores it causes. -/
namespace Sys2Proof
open Sys2Proof.Machine

/-- Serve masks (R216). -/
def View.mask : View → BitVec 5
  | .full => 0b00001 | .f16 => 0b01010 | .bf16 => 0b11100 | .e5m2 => 0b01000 | .e4m3 => 0b10000
/-- A copy tagged f serves a load at view g (R216). -/
def View.serves (f g : View) : Bool :=
  match f, g with
  | .full, _ => true
  | .f16, .f16 | .f16, .e5m2 | .bf16, .bf16 | .bf16, .e5m2 | .bf16, .e4m3 | .e5m2, .e5m2 | .e4m3, .e4m3 => true
  | _, _ => false
/-- Join (R216). -/
def View.join (a b : View) : View :=
  if a.serves b then a else if b.serves a then b else .full
/-- The change vector affects a copy of this format (R216, R221). -/
def View.hit (cv : BitVec 5) (f : View) : Bool := cv &&& f.mask != 0

end Sys2Proof

namespace Sys2Proof.Machine
open Sys2Proof

/-- Every bit of a change vector. -/
def cvAll : BitVec 5 := 0b11111

/-- Do two lines differ at view f, in some element, under either saturation choice (R220). -/
def viewDiffers (src : Ty) (f : View) (old new : Line) : Bool :=
  let w := src.fixedWidth
  (List.range (1024 / w)).any fun i =>
    [false, true].any fun sat =>
      f.fmt.roundTo .rne 0 sat (src.fmt.value (elem w old i)) != f.fmt.roundTo .rne 0 sat (src.fmt.value (elem w new i))

/-- The change vector (R220). -/
def changeVector (old new : Line) (sf : Option Ty) : BitVec 5 :=
  let c0 := old != new
  let bit (f : View) : Bool :=
    match sf with
    | none => c0
    | some src => if f.subscribes src then viewDiffers src f old new else c0
  BitVec.ofBool (bit .e4m3) ++ BitVec.ofBool (bit .e5m2) ++ BitVec.ofBool (bit .bf16) ++ BitVec.ofBool (bit .f16) ++
    BitVec.ofBool c0

-- Counters of R282.

/-- A tile event is counted by each of the tile's counters that is set to it (log entry 45). -/
def State.countEvt (s : State) (tile evt : Nat) (run : Option Nat) (n : Nat) : State :=
  let vals := s.dbg.pmcEvt.foldl (fun m e =>
    if e.1 / 16 = tile ∧ e.2.getLsbD 63 ∧ bitsOf e.2.toNat 0 8 = evt ∧
        (0x10 ≤ evt ∨ !e.2.getLsbD 12 ∨ run = some (bitsOf e.2.toNat 8 4)) then
      Sparse.set m e.1 (Sparse.getD m e.1 0 + BitVec.ofNat 64 n)
    else m) s.dbg.pmcVal
  { s with dbg := { s.dbg with pmcVal := vals } }

-- Directory entries.

/-- The L3 home's entry. -/
def State.l3? (s : State) (line : Nat) : Option L3Entry := s.coh.l3.find? fun e => e.line == line
/-- A new L3 entry. -/
def L3Entry.new (line : Nat) : L3Entry :=
  { line := line, cpq := 0, srun := 0, swm := 0, srm := 0, hw := false, sf := none, own := none, rep := 0,
    drec := [none, none, none, none], data := false }
/-- The entry, or a new one. -/
def State.l3 (s : State) (line : Nat) : L3Entry := (s.l3? line).getD (L3Entry.new line)
/-- Replace or add an entry. -/
def State.setL3 (s : State) (e : L3Entry) : State :=
  { s with coh := { s.coh with
      l3 := if s.coh.l3.any (fun x => x.line == e.line) then s.coh.l3.map fun x => if x.line == e.line then e else x
        else s.coh.l3 ++ [e] } }
/-- Remove an entry. -/
def State.dropL3 (s : State) (line : Nat) : State :=
  { s with coh := { s.coh with l3 := s.coh.l3.filter fun x => x.line != line } }

/-- An L2 home's entry. -/
def State.l2? (s : State) (die line : Nat) : Option L2Entry := s.coh.l2.find? fun e => e.die == die && e.line == line
/-- A new L2 entry. -/
def L2Entry.new (die line : Nat) : L2Entry :=
  { die := die, line := line, swm := 0, srm := 0, srun := 0, hw := false, dst := 0, dfmt := .full, sf := none, recs := [],
    ovf := false, vec := 0, key := 0, hint := 0, data := 0 }
/-- The entry, or a new one, with HW and SF as the L3 home holds them (R218, R225). -/
def State.l2 (s : State) (die line : Nat) : L2Entry :=
  (s.l2? die line).getD { L2Entry.new die line with hw := (s.l3 line).hw, sf := (s.l3 line).sf }
/-- Replace or add an entry. -/
def State.setL2 (s : State) (e : L2Entry) : State :=
  { s with coh := { s.coh with
      l2 := if s.coh.l2.any (fun x => x.die == e.die && x.line == e.line) then
          s.coh.l2.map fun x => if x.die == e.die && x.line == e.line then e else x
        else s.coh.l2 ++ [e] } }
/-- Remove an entry. -/
def State.dropL2 (s : State) (die line : Nat) : State :=
  { s with coh := { s.coh with l2 := s.coh.l2.filter fun x => !(x.die == die && x.line == line) } }

/-- Die d's record. -/
def L3Entry.die (e : L3Entry) (d : Nat) : Option (View × Bool) := e.drec.getD d none
/-- Change die d's record. -/
def L3Entry.setDie (e : L3Entry) (d : Nat) (r : Option (View × Bool)) : L3Entry := { e with drec := e.drec.set d r }
/-- Present dies. -/
def L3Entry.present (e : L3Entry) : List Nat := (List.range 4).filter fun d => (e.die d).isSome
/-- Some present die record is sub-FULL: the condition of home-written lines (R225). -/
def L3Entry.subFull (e : L3Entry) : Bool :=
  e.drec.any fun r => match r with | some (f, _) => f != .full | none => false

/-- The tiles an L2 entry records (R213). -/
def L2Entry.tiles (e : L2Entry) : List (Nat × View × Bool) :=
  if e.ovf then ((List.range 64).filter fun i => e.vec.getLsbD i).map fun i => (i, View.full, false) else e.recs
/-- Join of an L2 entry's tile records with their mode; none when no tile is recorded (R219). -/
def L2Entry.joined (e : L2Entry) : Option (View × Bool) :=
  e.tiles.foldl (fun a r => match a with
    | none => some (r.2.1, r.2.2)
    | some (f, m) => some (f.join r.2.1, m || r.2.2)) none
/-- What a die still holds of a line, as its record at the L3 home says it (R219): the Join of the tile records, and of the format at
which its data is current. -/
def L2Entry.left (e : L2Entry) : Option (View × Bool) :=
  if e.dst = 0 then e.joined
  else some ((match e.joined with | some (f, _) => f.join e.dfmt | none => e.dfmt), (match e.joined with | some (_, m) => m | none => false))
/-- Record a tile as a sharer (R219, R223). -/
def L2Entry.record (e : L2Entry) (tile : Nat) (f : View) (upd : Bool) : L2Entry :=
  if e.ovf then { e with vec := e.vec ||| (1#64 <<< tile) }
  else if e.recs.any (fun r => r.1 == tile) then
    { e with recs := e.recs.map fun r => if r.1 == tile then (tile, r.2.1.join f, r.2.2 && upd) else r }
  else if e.recs.length < 6 then { e with recs := e.recs ++ [(tile, f, upd)] }
  else { e with ovf := true, recs := [], vec := e.recs.foldl (fun v r => v ||| (1#64 <<< r.1)) (1#64 <<< tile) }
/-- Forget a tile; with no sharer left the entry returns to records (R223). -/
def L2Entry.forget (e : L2Entry) (tile : Nat) : L2Entry :=
  if e.ovf then
    let v := e.vec &&& ~~~(1#64 <<< tile)
    { e with vec := v, ovf := v != 0 }
  else { e with recs := e.recs.filter fun r => r.1 != tile }

/-- Wide tiles with their run: a tile stops being wide once it holds no task of the run dispatched before the eviction
(R136). -/
def State.wideTiles (s : State) : List (Nat × Nat) :=
  (s.coh.wide.filter fun w => (s.lodge w.1).cq.any fun e => e.2.task.run == w.2.1 && decide (e.2.seq < w.2.2)).map
    fun w => (w.1, w.2.1)
/-- Wide dies with their run, while a tile of theirs holds such a task (R136). -/
def State.liveWideDies (s : State) : List (Nat × Nat × Nat) :=
  s.coh.wideDies.filter fun w => s.lodges.any fun l => dieOfTile l.1 == w.1 &&
    l.2.cq.any fun e => e.2.task.run == w.2.1 && decide (e.2.seq < w.2.2)

/-- HW follows the die records and is told to every present die; ownership and HW exclude each other (R225). -/
def State.followHw (s : State) (e : L3Entry) : State :=
  let hw := e.subFull
  let s := s.setL3 { e with hw := hw, own := if hw then none else e.own }
  { s with coh := { s.coh with l2 := s.coh.l2.map fun x =>
    if x.line == e.line then { x with hw := hw, dst := if hw && 2 ≤ x.dst then 1 else x.dst } else x } }
/-- SF of a line, in its L3 entry and its L2 entries. -/
def State.setSf (s : State) (line : Nat) (sf : Option Ty) : State :=
  { s with coh := { s.coh with
      l3 := s.coh.l3.map (fun x => if x.line == line then { x with sf := sf } else x),
      l2 := s.coh.l2.map fun x => if x.line == line then { x with sf := sf } else x } }
/-- SF clears when nothing of the line is subscribed or marked, and no wide status stands (R224). -/
def State.clearSf (s : State) (line : Nat) : State :=
  let e := s.l3 line
  let sub := e.subFull || s.coh.l2.any fun x => x.line == line && x.tiles.any fun r => r.2.1 != .full
  let marked := e.swm != 0 || e.srm != 0 || s.coh.l2.any fun x => x.line == line && (x.swm != 0 || x.srm != 0)
  if sub || marked || !s.wideTiles.isEmpty || !s.liveWideDies.isEmpty then s else s.setSf line none
/-- R225 and R224 after a change of the die records. -/
def State.settleL3 (s : State) (e : L3Entry) : State := (s.followHw e).clearSf e.line
/-- The same for the line's entry as it stands, if it has one. -/
def State.settle (s : State) (line : Nat) : State := if (s.l3? line).isSome then s.settleL3 (s.l3 line) else s
/-- The die's record at the L3 home follows its L2 entry (R219): the Join of the tile records, and of the format at which the die
holds data; update mode when a tile record is. Where the format becomes one that the die's data does not serve, the L3 home
returns the current line (R222). -/
def State.syncDie (s : State) (die line : Nat) : State :=
  match s.l2? die line, (s.l3 line).die die with
  | some e, some old =>
    let j := e.joined
    let f := match j with
      | some (g, _) => if e.dst = 0 then g else g.join e.dfmt
      | none => if e.dst = 0 then old.1 else e.dfmt
    let upd := match j with | some (_, m) => m | none => false
    let s := if e.dst != 0 && e.dfmt != f then s.setL2 { e with dfmt := f, data := s.lineAt line e.key } else s
    s.settleL3 ((s.l3 line).setDie die (some (f, upd)))
  | _, _ => s

-- Regions (R227, R228).

/-- The region of a line: PA[51:21]. -/
def regionOf (line : Nat) : Nat := line / 2 ^ 14
/-- A region's state. -/
def State.region (s : State) (r : Nat) : Region := Sparse.getD s.coh.regions r Region.reset
/-- Change a region's state. -/
def State.setRegion (s : State) (r : Nat) (x : Region) : State :=
  { s with coh := { s.coh with regions := Sparse.set s.coh.regions r x } }
/-- The quadrant may hold a replica of the line (R229). -/
def State.mayReplicate (s : State) (q line : Nat) : Bool :=
  !s.isSystem (line * 128) && (s.region (regionOf line)).qset.getLsbD q && s.homeQuad line != q
/-- Count an L2-home miss from quadrant q (R228). -/
def State.countRead (s : State) (q line : Nat) : State :=
  if s.isSystem (line * 128) then s
  else
    let r := s.region (regionOf line)
    s.setRegion (regionOf line) { r with rq := r.rq.set q (Nat.min 255 (r.rq.getD q 0 + 1)) }
/-- Count an event that collapses replicas (R228). -/
def State.countWrite (s : State) (line : Nat) : State :=
  if s.isSystem (line * 128) then s
  else
    let r := s.region (regionOf line)
    s.setRegion (regionOf line) { r with wr := Nat.min 255 (r.wr + 1) }
/-- Saturating event counts of a quadrant (R236). -/
def bump32 (m : Sparse Nat) (q : Nat) : Sparse Nat := Sparse.set m q (Nat.min 0xFFFFFFFF (Sparse.getD m q 0 + 1))

-- Page hotness (R237).

/-- Halve every field of an entry. -/
def HotEntry.halve (e : HotEntry) : HotEntry :=
  { e with count := e.count / 2, sx := e.sx / 2, sy := e.sy / 2, qc := e.qc.map fun x => x / 2 }
/-- Package X of a tile (R10). -/
def tileX (tile : Nat) : Nat := tile / 64 % 2 * 8 + tile % 8
/-- Package Y of a tile. -/
def tileY (tile : Nat) : Nat := tile / 128 * 8 + tile / 8 % 8
/-- The way of a set that a page counts in: its own entry, else the one of least COUNT, ties to the lowest; an empty way has COUNT 0. -/
def hotWay (m : Sparse HotEntry) (base page : Nat) : Nat :=
  match (List.range 4).find? (fun w => match Sparse.get? m (base + w) with | some e => e.page == page | none => false) with
  | some w => w
  | none => (List.range 4).foldl (fun b w =>
      let c (x : Nat) : Nat := match Sparse.get? m (base + x) with | some e => e.count | none => 0
      if c w < c b then w else b) 0
/-- A request from a tile reaches the L3 home of a line, or a replica fill (R237). Entries are keyed by quadrant, slice,
set and way. -/
def State.countHot (s : State) (tile line : Nat) : State :=
  let page := line / 2 ^ 9
  let base := (1024 * (s.homeQuad line * 64 + sliceOf line) + page % 1024) * 4
  let k := base + hotWay s.coh.hot base page
  let fresh : HotEntry := { page := page, count := 0, sx := 0, sy := 0, qc := [0, 0, 0, 0] }
  let e := match Sparse.get? s.coh.hot k with
    | some e => if e.page = page then (if e.count = 65535 then e.halve else e) else fresh
    | none => fresh
  let q := dieOfTile tile
  let e := { e with count := e.count + 1, sx := e.sx + tileX tile, sy := e.sy + tileY tile,
                    qc := e.qc.set q (e.qc.getD q 0 + 1) }
  { s with coh := { s.coh with hot := Sparse.set s.coh.hot k e } }

-- Second-touch filters (R33, R34).

/-- A request misses in an L3 slice's data array: does it allocate there (R34), and what the filter then holds (R33). That hint 6 wins
over MODE 1 is the model's choice: the spec does not say whether it does (log entry 7). -/
def State.l3Miss (s : State) (line : Nat) (hint : BitVec 3) (always : Bool) : Bool × State :=
  let slice := (s.homeQuad line * 64 + sliceOf line) * 16384
  let k0 := slice + (Config.bloomHash0 line).toNat
  let k1 := slice + (Config.bloomHash1 line).toNat
  let mode := bitsOf (s.reg 0x030) 0 2
  let present := Sparse.getD s.coh.bloom k0 false && Sparse.getD s.coh.bloom k1 false
  if always || hint == 5 then (true, s)
  else if hint == 6 || mode = 2 then (false, s)
  else if mode = 1 || present then (true, s)
  else (false, { s with coh := { s.coh with bloom := Sparse.set (Sparse.set s.coh.bloom k0 true) k1 true } })

/-- The class of the page whose access asked for a line decides how its replicas collapse (R231 to R233). -/
def Cls.eager (c : Cls) : Bool := c == .t

/-- A line modified on the chip goes to its HBM slot, where the layout is known and its key slot holds a key (R20, R35, R47). -/
def State.toHbm (s : State) (line : Nat) : State :=
  match Sparse.get? s.mem.chip line with
  | none => s
  | some c => if s.locked && (s.keyAt c.key).isSome then s.hbmStore line else s
/-- An L2 home writes its modified line back to the L3 home: the data array takes it, or it goes on to HBM (R33). No access's hint
governs it: it allocates as with hint 0, a choice of the model's where R34 names none (log entry 7). -/
def State.l3WriteBack (s : State) (line : Nat) : State :=
  if (s.l3 line).data then s
  else
    let m := s.l3Miss line 0 false
    if m.1 then m.2.setL3 { m.2.l3 line with data := true }
    else if s.isSystem (line * 128) then m.2 else m.2.toHbm line

-- Copies in tiles.

/-- The copies that a store has already seen to: the L1D line of its own core (R208), and the mapped stash line that it is
written through or that is written back (R201, R203). -/
structure Spared where
  core : Option Nat
  via : Option (Nat × Nat)
/-- No copy is spared. -/
def Spared.none : Spared := ⟨Option.none, Option.none⟩

/-- What an invalidation or update does to a tile's copies of a line (R221): an L1D line or a clean mapped line that the change
vector hits goes, or in update mode receives the line's new bytes; an L1I line goes (R292), and so does the launch unit's copy of a queue
header, which stands at tile 0x00 (R74) (log entry 34). Answers whether the tile keeps a copy. -/
def State.sendTile (s : State) (tile line : Nat) (cv : BitVec 5) (upd : Bool) (new : Line) (sp : Spared) : Bool × State :=
  let here (l : L1Line) : Bool := l.core / 8 == tile && l.line == line && (l.icache || sp.core != some l.core) && View.hit cv l.tag
  let l1 := s.coh.l1.filterMap fun l =>
    if !here l then some l else if upd && !l.icache then some { l with data := new } else none
  let mine (m : MapLine) : Bool := m.tile == tile && m.pa == line && !m.dirty && sp.via != some (m.tile, m.off)
  let stash := if View.hit cv .full then
      (if upd then
        let cells := s.stash.lines.foldl (fun c m =>
          if mine m then cellsWrite c (2 ^ 20 * tile + m.off) (lineBytes new) else c) s.stash.cells
        { s.stash with cells := cells }
       else { s.stash with lines := s.stash.lines.filter fun m => !mine m })
    else s.stash
  let headers := if View.hit cv .full then s.coh.headers.filter fun h => !(tile == 0 && h.2 == line) else s.coh.headers
  let s : State := { s with coh := { s.coh with l1 := l1, headers := headers }, stash := stash }
  (s.coh.l1.any (fun l => l.core / 8 == tile && l.line == line && !l.untracked) ||
     s.stash.lines.any (fun m => m.tile == tile && m.pa == line) || s.coh.headers.any (fun h => tile == 0 && h.2 == line), s)

/-- A tile holds no copy of a line but the one that the store has already seen to: no message goes to it for the store (R460). -/
def State.sparedTile (s : State) (tile line : Nat) (sp : Spared) : Bool :=
  (sp.core.any fun c => c / 8 == tile) &&
    !(s.coh.l1.any fun l => l.core / 8 == tile && l.line == line && (l.icache || sp.core != some l.core)) &&
    !(s.stash.lines.any fun m => m.tile == tile && m.pa == line && sp.via != some (m.tile, m.off))
/-- A home's filter over one tile record (R221), with the counts of R282; the storer's own tile counts only where another copy stands
there (R460) (log entry 45). -/
def State.filterTile (s : State) (e : L2Entry) (r : Nat × View × Bool) (cv : BitVec 5) (new : Line) (sp : Spared) :
    L2Entry × State :=
  let home := l2HomeTile e.die e.line
  let tile := e.die * 64 + r.1
  let n := if s.sparedTile tile e.line sp then 0 else 1
  if View.hit cv r.2.1 then
    let p := s.sendTile tile e.line cv r.2.2 new sp
    let s := p.2.countEvt home (0x18 + r.2.1.num) none n
    ((if p.1 then e else e.forget r.1), s)
  else (e, s.countEvt home (0x10 + r.2.1.num) none n)

/-- An L2 home filters its tile records by a change vector (R221). -/
def State.filterDie (s : State) (die line : Nat) (cv : BitVec 5) (new : Line) (sp : Spared) : State :=
  match s.l2? die line with
  | none => s
  | some e =>
    let p := e.tiles.foldl (fun (a : L2Entry × State) r => a.2.filterTile a.1 r cv new sp) (e, s)
    p.2.setL2 p.1

/-- The L3 home sends a change vector to a present die: its tiles are filtered, its data goes if the record's format is
hit (or is updated in update mode), and the answer is the Join of the surviving records (R221). A die whose record is not hit is
sent nothing: what its home would have sent to tiles is suppressed, and counts as that (R282) (log entry 45). -/
def State.sendDie (s : State) (die line : Nat) (f : View) (upd : Bool) (cv : BitVec 5) (new : Line) (sp : Spared) :
    Option (View × Bool) × State :=
  if !View.hit cv f then (some (f, upd), s.filterDie die line 0 new sp)
  else
    let s := s.filterDie die line cv new sp
    match s.l2? die line with
    | none => (none, s)
    | some e =>
      let e := if upd then { e with data := new } else { e with dst := 0 }
      let j := e.joined
      let keeps := upd && 0 < e.dst
      let f' := match j with | some (g, _) => if keeps then g.join f else g | none => f
      let m := match j with | some (_, m) => m | none => false
      let e := if j.isSome || keeps then { e with dfmt := f' } else e
      (if j.isSome || keeps then some (f', m) else none, s.setL2 e)

/-- Every L1D copy of a line in the package goes (R135, R211). -/
def State.dropL1 (s : State) (line : Nat) : State :=
  { s with coh := { s.coh with l1 := s.coh.l1.filter fun l => l.line != line } }

/-- A die's sharers of a line take the invalidate mode, before all of its copies go. -/
def State.noUpdates (s : State) (die line : Nat) : State :=
  { s with coh := { s.coh with l2 := s.coh.l2.map fun x =>
      if x.line == line && x.die == die then { x with recs := x.recs.map fun r => (r.1, r.2.1, false) } else x } }

/-- A waystation handles a collapse (R231): if any byte changed, the replica goes, a fill in flight installs nothing (R229), and
REP clears; the die's L2 home filters, and the die's record at the L3 home becomes, with the acknowledgement, the Join of what
survives there (R219, R221) (log entry 68). Where another die has come to own the line nothing survives (R226). counted: the collapse
counts in REPL_STAT (R236). -/
def State.collapseAt (s : State) (q line : Nat) (cv : BitVec 5) (new : Line) (counted : Bool) (sp : Spared) : State :=
  let here (r : Replica) : Bool := r.quad == q && r.line == line
  let gone := cv.getLsbD 0
  let n := s.coh.replicas.any here
  let s := if gone then
      let s : State := { s with coh := { s.coh with
        replicas := s.coh.replicas.filter fun r => !here r, filling := s.coh.filling.filter fun r => !here r,
        colls := if n && counted then bump32 s.coh.colls q else s.coh.colls } }
      if n then s.countEvt (q * 64 + sliceOf line) 0x22 none 1 else s
    else s
  let owned := gone && (s.l3 line).own.any fun d => d != q
  let s := (if owned then s.noUpdates q line else s).filterDie q line cv new sp
  let s := match s.l2? q line with
    | some e => if View.hit cv e.dfmt && e.dst == 1 then s.setL2 { e with dst := 0 } else s
    | none => s
  if !gone then s
  else
    let e := s.l3 line
    let e := { e with rep := e.rep &&& ~~~(1#4 <<< q) }
    let e := if e.own = some q then e
      else e.setDie q (if owned then none else match s.l2? q line with | some x => x.left | none => none)
    if (s.l3? line).isSome then s.settleL3 e else s

/-- Send a line's replicas a collapse (R231, R232): eagerly, waiting for every acknowledgement, those of collapses sent before
among them; or lazily, charged to those whose stores cause it. The copies that the store has seen to are spared (R201, R203). -/
def State.collapse (s : State) (line : Nat) (cv : BitVec 5) (new : Line) (eager counted : Bool) (charge : List Agent) (sp : Spared) : State :=
  let e := s.l3 line
  let old := s.coh.collapses.filter fun c => c.line == line
  if eager then
    let qs := (List.range 4).filter fun q => e.rep.getLsbD q || old.any fun c => c.quad == q
    let s := qs.foldl (fun (s : State) q =>
      s.collapseAt q line (match old.find? fun c => c.quad == q with | some c => cv ||| c.cv | none => cv) new counted sp) s
    let s : State := { s with coh := { s.coh with collapses := s.coh.collapses.filter fun c => c.line != line } }
    let e := s.l3 line
    if e.cpq = 0 then s else s.setL3 { e with cpq := 0 }
  else
    let cs := s.coh.collapses.map fun c =>
      if c.line == line then { c with cv := c.cv ||| cv, charged := c.charged ++ charge.filter (fun a => !c.charged.contains a), spare := sp.via }
      else c
    let qs := (List.range 4).filter fun q => e.rep.getLsbD q
    let more := (qs.filter fun q => !old.any fun c => c.quad == q).map fun q =>
      ({ quad := q, line := line, cv := cv, charged := charge, held := [], spare := sp.via } : Collapse)
    let s : State := { s with coh := { s.coh with collapses := cs ++ more } }
    if qs.isEmpty then s else s.setL3 { e with cpq := e.cpq ||| e.rep }

/-- A waystation acknowledges a lazy collapse, and its quadrant leaves CPQ (R232). -/
def State.ackCollapse (s : State) (q line : Nat) : State :=
  match s.coh.collapses.find? fun c => c.quad == q && c.line == line with
  | none => s
  | some c =>
    let s : State := { s with coh := { s.coh with
      collapses := s.coh.collapses.filter fun c => !(c.quad == q && c.line == line) } }
    let s := s.collapseAt q line c.cv (s.lineAt line (match Sparse.get? s.mem.chip line with | some c => c.key | none => 0)) true
      ⟨none, c.spare⟩
    let e := s.l3 line
    s.setL3 { e with cpq := e.cpq &&& ~~~(1#4 <<< q) }

/-- Charge an agent with collapses under way that meet a test (R232, R251). -/
def State.chargeWith (s : State) (a : Agent) (f : Collapse → Bool) : State :=
  { s with coh := { s.coh with collapses := s.coh.collapses.map fun c =>
      if (f c) && !c.charged.contains a then { c with charged := c.charged ++ [a] } else c } }

/-- Ownership comes back to the L3 home with the data, and the owner keeps a shared copy (R226). -/
def State.recallOwner (s : State) (line : Nat) : State :=
  let e := s.l3 line
  match e.own with
  | none => s
  | some d =>
    let s := s.setL3 { e with own := none }
    match s.l2? d line with
    | some x =>
      let s := s.setL2 { x with dst := if 2 ≤ x.dst then 1 else x.dst }
      if x.dst = 3 then s.l3WriteBack line else s
    | none => s

/-- Every copy of a line that the directories record goes (CV = 0b1_1111), with its replicas (R212); system-space and device lines
alike. -/
def State.invalidateAll (s : State) (line : Nat) : State :=
  let s := ((List.range 4).foldl (fun (s : State) d => s.noUpdates d line) (s.recallOwner line)).dropL1 line
  let e := s.l3 line
  let s := (e.present.foldl (fun (s : State) d => (s.sendDie d line .full false cvAll 0 Spared.none).2) s).hostBack line 0
  if (s.l3? line).isNone then s
  else
    let e := s.l3 line
    (s.settleL3 { e with drec := [none, none, none, none], data := false }).collapse line cvAll 0 true false [] Spared.none

/-- The bytes a mapped stash line holds. -/
def State.mapData (s : State) (m : MapLine) : Line := lineOf fun i => cellRead s.stash.cells (2 ^ 20 * m.tile + m.off + i)
/-- The stash line of a mapped line is poisoned. -/
def State.mapPoison (s : State) (m : MapLine) : Bool := s.stash.poison.contains (8192 * m.tile + m.off / 128)
/-- A mapped line becomes invalid. -/
def State.loseMap (s : State) (m : MapLine) : State :=
  { s with stash := { s.stash with lines := s.stash.lines.filter fun x => !(x.tile == m.tile && x.off == m.off) } }
/-- A modified mapped line whose directory entry goes comes home, and every other copy goes (R212). -/
def State.absorb (s : State) (m : MapLine) : State :=
  ((s.invalidateAll m.pa).storeLine m.pa m.key (s.mapData m) (s.mapPoison m)).loseMap m

-- Evictions (R212).

/-- The tiles an L2 entry marks become wide for the marks' run (R136). -/
def State.widen (s : State) (e : L2Entry) : State :=
  let ts := (List.range 64).filter fun i => e.swm.getLsbD i || e.srm.getLsbD i
  { s with coh := { s.coh with wide := s.coh.wide ++ ts.map fun i => (e.die * 64 + i, e.srun, s.nextStore) } }
/-- The dies an L3 entry marks become wide for the marks' run (R136). -/
def State.widenDies (s : State) (e : L3Entry) : State :=
  let ds := (List.range 4).filter fun d => e.swm.getLsbD d || e.srm.getLsbD d
  { s with coh := { s.coh with wideDies := s.coh.wideDies ++ ds.map fun d => (d, e.srun, s.nextStore) } }
/-- An L2 entry is evicted (R212): its copies go, a modified line goes back to the L3 home, its die is no longer present, its marks
become wide. -/
def State.evictL2 (s : State) (die line : Nat) : State :=
  match s.l2? die line with
  | none => s
  | some e =>
    let dirty := s.stash.lines.filter fun m => m.pa == line && m.dirty && dieOfTile m.tile == die
    let s := (dirty.foldl (fun (s : State) m => s.absorb m) (s.widen e)).noUpdates die line
    let s := if (s.l3 line).own = some die then s.recallOwner line else s
    let s := (s.filterDie die line cvAll 0 Spared.none).dropL2 die line
    if (s.l3? line).isSome then s.settleL3 ((s.l3 line).setDie die none) else s
/-- An L3 entry is evicted (R212): copies, replicas and ownership go, modified mapped lines come home, its marks become wide. A
scope tag is lost with its entry (R283). -/
def State.evictL3 (s : State) (line : Nat) : State :=
  if (s.l3? line).isNone then s
  else
    let s := s.widenDies (s.l3 line)
    let s := (s.stash.lines.filter fun m => m.pa == line && m.dirty).foldl (fun (s : State) m => s.absorb m) s
    let s := (s.invalidateAll line).dropL3 line
    { s with coh := { s.coh with scopeTags := s.coh.scopeTags.filter fun t => t.word / 16 != line } }

/-- One of several, which the device chooses (log entry 8). -/
def State.victim {α : Type} (s : State) (l : List α) : Option α := l[s.free.1.toNat % l.length]?
/-- The candidates for replacement: lines brought with .strm are the first, lines brought with .keep the last (R296). -/
def candidatesBy {α : Type} (hint : α → BitVec 3) (l : List α) : List α :=
  let strm := l.filter fun x => hint x == 1
  let plain := l.filter fun x => hint x != 2
  if !strm.isEmpty then strm else if !plain.isEmpty then plain else l
/-- An L2 home makes room for an entry of a line that is to carry data (R212): at most 16 entries of a set, at most 4,096 of a slice
with data. -/
def State.roomL2 (s : State) (die line : Nat) : State :=
  let others (s : State) : List L2Entry := s.coh.l2.filter fun e => e.die == die && sliceOf e.line == sliceOf line && e.line != line
  if (others s).length < 16 then s
  else
    let set := (others s).filter fun e => Config.setIndex 2 e.line % 512 == Config.setIndex 2 line % 512
    let evict (s : State) (l : List L2Entry) : State := match s.victim (candidatesBy L2Entry.hint l) with
      | some e => s.free.2.evictL2 die e.line
      | none => s
    let s := if (s.l2? die line).isNone && 16 ≤ set.length then evict s set else s
    let full := (others s).filter fun e => e.dst != 0
    if 4096 ≤ full.length then evict s full else s

/-- A waystation's replica of a line goes, and sends a drop notice: REP clears, and what its die still holds of the line is recorded at
the L3 home (log entry 68), but of a line that a die owns, whose collapse is under way. -/
def State.dropReplica (s : State) (quad line : Nat) : State :=
  if !(s.coh.replicas.any fun r => r.quad == quad && r.line == line) then s
  else
    let s : State := { s with coh := { s.coh with replicas := s.coh.replicas.filter fun r => !(r.quad == quad && r.line == line) } }
    let e := s.l3 line
    let e := { e with rep := e.rep &&& ~~~(1#4 <<< quad) }
    let left := match s.l2? quad line with | some x => x.left | none => none
    let e := if (e.die quad).isNone && left.isSome && e.own.isNone then e.setDie quad left else e
    if left.isNone then s.setL3 e else s.settleL3 e

/-- What stands in one L3 slice (R212): the entries of the lines it homes, and the replicas that it holds as a waystation (true). -/
def State.inSlice (s : State) (quad slice : Nat) : List (Nat × Bool) :=
  ((s.coh.l3.filter fun e => sliceOf e.line == slice && s.homeQuad e.line == quad).map fun e => (e.line, false)) ++
    (s.coh.replicas.filter fun r => r.quad == quad && sliceOf r.line == slice).map fun r => (r.line, true)
/-- One of them carries data: a line in the data array, or a replica. -/
def State.sliceData (s : State) (x : Nat × Bool) : Bool := x.2 || (s.l3 x.1).data
/-- Two lines fall in one set of an L3 slice. -/
def sameSet3 (a b : Nat) : Bool := Config.setIndex 3 a % 4096 == Config.setIndex 3 b % 4096
/-- One of several lines leaves an L3 slice, which the device chooses (log entry 8). -/
def State.evictSlice (s : State) (quad : Nat) (l : List (Nat × Bool)) : State :=
  match s.victim l with
  | some x => if x.2 then s.free.2.dropReplica quad x.1 else s.free.2.evictL3 x.1
  | none => s
/-- An L3 slice makes room for a line, an entry of its own or a replica: 16 ways of a set, 32,768 of a slice with data or replicas
(R212). isNew: nothing of the line stands there yet. -/
def State.roomSlice (s : State) (quad line : Nat) (isNew : Bool) : State :=
  let others (s : State) : List (Nat × Bool) := (s.inSlice quad (sliceOf line)).filter fun x => x.1 != line
  if (others s).length < 16 then s
  else
    let set := (others s).filter fun x => sameSet3 x.1 line
    let s := if isNew && decide (16 ≤ set.length) then s.evictSlice quad set else s
    let full := (others s).filter s.sliceData
    if 32768 ≤ full.length then s.evictSlice quad full else s
/-- Room for a line's entry at its L3 home. -/
def State.roomL3 (s : State) (line : Nat) : State := s.roomSlice (s.homeQuad line) line (s.l3? line).isNone
/-- A line enters a core's L1D or L1I; where the set (8 ways of 64 sets in the L1D) or the 32 KiB of the L1I is full, another line
silently goes (R208). -/
def State.addL1 (s : State) (x : L1Line) : State :=
  let l1 := s.coh.l1.filter fun l => !(l.core == x.core && l.line == x.line && l.icache == x.icache)
  let mine := l1.filter fun l => l.core == x.core && l.icache == x.icache
  let set := if x.icache then mine else mine.filter fun l => Config.setIndex 1 l.line % 64 == Config.setIndex 1 x.line % 64
  if mine.length < 8 || set.length < (if x.icache then 256 else 8) then { s with coh := { s.coh with l1 := l1 ++ [x] } }
  else
    let l1 := match s.victim (candidatesBy L1Line.hint set) with
      | some v => l1.filter fun l => !(l.core == v.core && l.line == v.line && l.icache == v.icache)
      | none => l1
    { s.free.2 with coh := { s.coh with l1 := l1 ++ [x] } }

/-- A request reaches the L3 home of a line (R33, R34): the entry gets room, and the data array takes the line or not; data that
neither it nor the chip holds is read from HBM. always: an atomic, a counter operation or a home-written store. -/
def State.atL3 (s : State) (line : Nat) (hint : BitVec 3) (always : Bool) : State :=
  let s := s.roomL3 line
  if (s.l3 line).data then s
  else
    let m := (s.hbmRead line).l3Miss line hint always
    m.2.setL3 { m.2.l3 line with data := m.1 }

/-- An uncached read of a line at its L3 home (R168, R226, R384): its owner gives it back, and data that the chip does not hold is
read from HBM. -/
def State.homeRead (s : State) (line : Nat) (always : Bool) : State := (s.recallOwner line).atL3 line 0 always
/-- A line is poisoned as a read at its home finds it, which first recalls modified mapped copies (R40, R202). -/
def State.poisonedAt (s : State) (line : Nat) : Bool :=
  match (s.stash.lines.filter fun m => m.pa == line && m.dirty).getLast? with
  | some m => s.mapPoison m
  | none => s.poisoned line
/-- Reading the line now finds it poisoned: it is, or its slot has an uncorrectable error that the read would find (R26, R40). -/
def State.readsPoison (s : State) (line : Nat) : Bool :=
  s.poisonedAt line || (!s.isSystem (line * 128) && (Sparse.get? s.mem.chip line).isNone && !(s.l3 line).data &&
    Sparse.get? s.mem.errors (s.slotOf line) == some true)

-- Speculation ids and entries (R131).

/-- The speculation id of entry n of a tile. -/
def specId (tile n inc : Nat) : Nat := 2 ^ 24 * (tile % 256) + 2 ^ 18 * (n % 64) + inc % 2 ^ 18
/-- The tile a speculation id names. -/
def specTile (id : Nat) : Nat := id / 2 ^ 24
/-- The entry a speculation id names. -/
def specEntry (id : Nat) : Nat := id / 2 ^ 18 % 64
/-- The speculation id of an entry. -/
def CqEntry.id (e : CqEntry) (tile n : Nat) : Nat := specId tile n e.incarnation
/-- The entry of a speculation id, while its incarnation lives. -/
def State.specEntry? (s : State) (id : Nat) : Option CqEntry :=
  match Sparse.get? (s.lodge (specTile id)).cq (specEntry id) with
  | some e => if e.incarnation = id % 2 ^ 18 then some e else none
  | none => none
/-- Change an entry. -/
def State.setEntry (s : State) (tile n : Nat) (e : CqEntry) : State :=
  let l := s.lodge tile
  s.setLodge tile { l with cq := Sparse.set l.cq n e }
/-- Change the entry of a speculation id, while its incarnation lives. -/
def State.onEntry (s : State) (id : Nat) (f : CqEntry → CqEntry) : State :=
  match s.specEntry? id with
  | some e => s.setEntry (specTile id) (specEntry id) (f e)
  | none => s

/-- The entry's task holds earliest standing (R105, R106). -/
def State.entryEarliest (s : State) (e : CqEntry) : Bool := e.task.standing || (s.run e.task.run).milestone == e.task.key

/-- The line matches one of an entry's filters. -/
def CqEntry.matches (e : CqEntry) (line : Nat) : Bool :=
  sigMatch e.write line || sigMatch e.full line || sigMatch e.reduced line
/-- R138: what a store probe aborts. -/
def CqEntry.conflicts (e : CqEntry) (line : Nat) (cv : BitVec 5) : Bool :=
  sigMatch e.write line || (sigMatch e.full line && cv.getLsbD 0) ||
    (sigMatch e.reduced line && cv.getLsbD e.tag.num)
/-- The exact list knows that the line was not entered (R282 event 0x08). -/
def CqEntry.falsePositive (e : CqEntry) (line : Nat) : Bool :=
  e.matches line && !e.linesOvf && !e.lines.contains line
/-- Note a line in the exact list of the first 16. -/
def CqEntry.note (e : CqEntry) (line : Nat) : CqEntry :=
  if e.lines.contains line then e
  else if e.lines.length < 16 then { e with lines := e.lines ++ [line] } else { e with linesOvf := true }
/-- Enter a line in the write filter (R133). -/
def CqEntry.enterWrite (e : CqEntry) (line : Nat) : CqEntry := { e.note line with write := sigInsert e.write line }
/-- Enter a line in the full-read filter. -/
def CqEntry.enterFull (e : CqEntry) (line : Nat) : CqEntry := { e.note line with full := sigInsert e.full line }
/-- Enter a read granted at a format: the reduced-read filter while TAG is 0 or that format. -/
def CqEntry.enterRead (e : CqEntry) (line : Nat) (f : View) : CqEntry :=
  if f = .full then e.enterFull line
  else if e.tag = .full ∨ e.tag = f then { e.note line with reduced := sigInsert e.reduced line, tag := f }
  else e.enterFull line

-- Marks (R135, R136, R141).

/-- Mark a tile, and its die at the L3 home, for a run. -/
def State.markSpec (s : State) (tile run line : Nat) (write : Bool) : State :=
  let die := dieOfTile tile
  let b := 1#64 <<< (tile % 64)
  let s := (s.roomL3 line).roomL2 die line
  let e := s.l2 die line
  let e := if write then { e with swm := e.swm ||| b, srun := run } else { e with srm := e.srm ||| b, srun := run }
  let s := s.setL2 e
  let x := s.l3 line
  let d := 1#4 <<< die
  s.setL3 (if write then { x with swm := x.swm ||| d, srun := run } else { x with srm := x.srm ||| d, srun := run })

/-- The marks of a die at the L3 home of a line end where no tile of the die is marked there any more (R141). -/
def State.unmarkDie (s : State) (die line : Nat) : State :=
  let x := s.l3 line
  let none' (f : L2Entry → BitVec 64) : Bool := match s.l2? die line with | some e => f e == 0 | none => true
  let d := ~~~(1#4 <<< die)
  if (s.l3? line).isNone then s
  else s.settleL3 { x with swm := if none' L2Entry.swm then x.swm &&& d else x.swm, srm := if none' L2Entry.srm then x.srm &&& d else x.srm }
/-- Clear a tile's marks (R141). -/
def State.unmark (s : State) (tile line : Nat) : State :=
  let die := dieOfTile tile
  match s.l2? die line with
  | none => s
  | some e =>
    let b := ~~~(1#64 <<< (tile % 64))
    (s.setL2 { e with swm := e.swm &&& b, srm := e.srm &&& b }).unmarkDie die line

/-- Tiles a home marks for a line, spec-write marks only or any marks. -/
def State.markedTiles (s : State) (line : Nat) (writeOnly : Bool) : List Nat :=
  (s.coh.l2.filter fun e => e.line == line).flatMap fun e =>
    ((List.range 64).filter fun i => e.swm.getLsbD i || (!writeOnly && e.srm.getLsbD i)).map fun i => e.die * 64 + i
/-- Marked or wide tiles of a run (R136, R137). -/
def State.probeTiles (s : State) (line run : Nat) (writeOnly : Bool) : List Nat :=
  let wide := (s.wideTiles.filter fun w => w.2 == run).map fun w => w.1
  let m := s.markedTiles line writeOnly
  m ++ wide.filter fun t => !m.contains t
/-- The run whose marks a line carries, if any. -/
def State.markRun (s : State) (line : Nat) : Option Nat :=
  match s.coh.l2.find? fun e => e.line == line && (e.swm != 0 || e.srm != 0) with
  | some e => some e.srun
  | none => none
/-- A tile answers a probe with match or no-match over all of the run's entries (R141). -/
def State.tileMatches (s : State) (tile run line : Nat) : Bool :=
  (s.lodge tile).cq.any fun e => e.2.task.run == run && e.2.matches line
/-- Dies that the L3 home marks for a line. -/
def L3Entry.markedDies (e : L3Entry) : List Nat := (List.range 4).filter fun d => e.swm.getLsbD d || e.srm.getLsbD d
/-- Probe without effect on tasks, and clear the marks of tiles that answer no-match, and at the L3 home those of a die none of whose
tiles answers match (R141). -/
def State.reprobe (s : State) (line : Nat) : State :=
  let s := match s.markRun line with
    | none => s
    | some run => (s.markedTiles line false).foldl (fun s t => if s.tileMatches t run line then s else s.unmark t line) s
  let e := s.l3 line
  e.markedDies.foldl (fun (s : State) d =>
    if s.lodges.any fun l => dieOfTile l.1 == d && s.tileMatches l.1 e.srun line then s else s.unmarkDie d line) s
/-- A line carries speculative state of a run (marked, or matched in a wide tile). -/
def State.specBy (s : State) (line run : Nat) : Bool :=
  (s.markRun line == some run) || s.wideTiles.any fun w => w.2 == run && s.tileMatches w.1 run line
/-- An access of a run (none: the host) meets another run's speculative state and waits (R57, R120). -/
def State.otherSpec (s : State) (line : Nat) (run : Option Nat) : Bool :=
  (List.range 16).any fun r => run != some r && s.specBy line r

-- Stores at the home, probes and aborts.

/-- Who performs a store, and how: die, the die whose L2 home may perform it; eager, with eager collapses; probes, on a T page;
restore, without the storer's translation (R211); atHome, at the L3 home; rmw, an atomic or counter operation; hint, its cache
hint (R34); via, the mapped stash line it is written through, or that is written back; back, of a write-back, whether the mapped
line is poisoned; charge, who besides the agent is charged with its collapses. -/
structure Storer where
  agent : Agent
  die : Option Nat
  core : Option Nat
  run : Option Nat
  key : Key
  specid : Option Nat
  eager : Bool
  probes : Bool
  restore : Bool
  atHome : Bool
  rmw : Bool := false
  uncached : Bool := false
  hint : BitVec 3 := 0
  via : Option (Nat × Nat) := none
  back : Option Bool := none
  charge : List Agent := []

/-- How an abort counts and ends (R118, R146): counted against the budget; the task is discarded. -/
structure AbortKind where
  counted : Bool
  discarded : Bool
  cause : Nat

/-- The agent of a speculation id holds earliest standing: it counts as earlier than every late entry (R106). -/
def State.standingId (s : State) (id : Option Nat) : Bool :=
  match id with
  | some i => match s.specEntry? i with
    | some e => s.entryEarliest e
    | none => false
  | none => false

/-- The later entries of the probed tiles that a store aborts, latest key first (R138, R140). -/
def State.storeVictims (s : State) (line : Nat) (cv : BitVec 5) (st : Storer) : List (Key × Nat × Nat) :=
  let runs := match st.run with | some r => [r] | none => List.range 16
  let all := runs.flatMap fun r => (s.probeTiles line r false).flatMap fun t =>
    ((s.lodge t).cq.filter fun e => e.2.task.run == r && !s.entryEarliest e.2 &&
      (s.standingId st.specid || st.key.lt e.2.task.key) &&
      some (e.2.id t e.1) != st.specid && e.2.conflicts line cv).map fun e => (e.2.task.key, t, e.1)
  all.foldl (fun l x => (l.takeWhile fun y => x.1.lt y.1) ++ [x] ++ (l.dropWhile fun y => x.1.lt y.1)) []

/-- The later writers that a load probe aborts (R139). -/
def State.loadVictims (s : State) (line run : Nat) (key : Key) (specid : Option Nat) : List (Key × Nat × Nat) :=
  let all := (s.probeTiles line run true).flatMap fun t =>
    ((s.lodge t).cq.filter fun e => e.2.task.run == run && !s.entryEarliest e.2 &&
      (s.standingId specid || key.lt e.2.task.key) &&
      some (e.2.id t e.1) != specid && sigMatch e.2.write line).map fun e => (e.2.task.key, t, e.1)
  all.foldl (fun l x => (l.takeWhile fun y => x.1.lt y.1) ++ [x] ++ (l.dropWhile fun y => x.1.lt y.1)) []

/-- A probe of a run that reaches a tile counts its false positives there (R282). -/
def State.countFalseAt (s : State) (tile line run : Nat) : State :=
  let n := ((s.lodge tile).cq.filter fun e => e.2.task.run == run && e.2.falsePositive line).length
  if n = 0 then s else s.countEvt tile 0x08 (some run) n
/-- The same for every tile it is sent to. -/
def State.countFalse (s : State) (line : Nat) (run : Nat) (writeOnly : Bool) : State :=
  (s.probeTiles line run writeOnly).foldl (fun s t => s.countFalseAt t line run) s

/-- Send a store's probes: abort what conflicts, then clear the marks of tiles that answer no-match. -/
def State.probeWith (rec : AbortKind → Nat → Nat → State → State) (s : State) (line : Nat) (cv : BitVec 5) (st : Storer) :
    State :=
  if !st.probes then s
  else
    let s := (match st.run with | some r => [r] | none => List.range 16).foldl (fun (s : State) r => s.countFalse line r false) s
    let s := (s.storeVictims line cv st).foldl (fun s v => rec ⟨true, false, 0x03⟩ v.2.1 v.2.2 s) s
    s.reprobe line

/-- The storer's own L1D copy meets its store (R208): a sub-FULL line goes, as any line does for a store made at the L3 home and
not through the L2 home of the core; a store without its storer's translation and a speculative one drop every L1D copy
(R135, R211). -/
def State.storerL1 (s : State) (line : Nat) (st : Storer) : State :=
  if st.restore || st.specid.isSome then s.dropL1 line
  else { s with coh := { s.coh with l1 := s.coh.l1.filter fun l =>
    !(l.line == line && st.core == some l.core && !l.icache && (st.atHome || l.tag != .full)) } }
/-- The die obtains ownership of a line (R226): every other present die loses its copies, whatever its mode, and the replicas
collapse; the collapse of the die's own waystation is acknowledged before its tiles read again (log entry 69). -/
def State.takeOwner (s : State) (line d : Nat) (now : Line) (hint : BitVec 3) (eager : Bool) (charge : List Agent) (sp : Spared) : State :=
  let s := ((s.recallOwner line).countWrite line).atL3 line hint false
  let s := (s.l3 line).present.foldl (fun (s : State) x =>
    if x = d then s
    else
      let s := ((s.noUpdates x line).sendDie x line .full false cvAll now Spared.none).2
      s.setL3 ((s.l3 line).setDie x none)) s
  let s := s.setL3 { (s.l3 line).setDie d (some (.full, false)) with own := some d }
  let s := s.collapse line cvAll now eager true charge sp
  s.ackCollapse d line
/-- Clean mapped copies of a line are poisoned as the line is: the copies of a line do not differ in poison (R42) (log entry 73). -/
def State.samePoison (s : State) (line : Nat) (poison : Bool) : State :=
  let ns := (s.stash.lines.filter fun m => m.pa == line && !m.dirty).map fun m => 8192 * m.tile + m.off / 128
  if ns.isEmpty then s
  else { s with stash := { s.stash with
    poison := if poison then ns.foldl insertNat s.stash.poison else s.stash.poison.filter fun n => !ns.contains n } }
/-- The masked bytes of a store are written where its line is homed (R211, R221, R225, R226, R231, R232), once its probes are
answered: the sharers are filtered first. An L2 home without the line's data keeps none for a store with .nol2: the line goes back to
the L3 home at once (R296). Answers the line as it stood just before. -/
def State.place (s : State) (line key : Nat) (mask data : Line) (st : Storer) : Line × State :=
  let full := mask == BitVec.allOnes 1024
  let s := if full then s else s.hbmRead line
  let s := s.storerL1 line st
  let old := s.lineAt line key
  let new := mergeLine mask old data
  let s := s.clearSf line
  let sf := (s.l3 line).sf
  let cv := changeVector old new sf
  let sp : Spared := ⟨st.core, st.via⟩
  let who := if st.charge.isEmpty then [st.agent] else st.charge
  let home := match st.die with
    | some d => if (s.l3 line).hw || st.atHome then none else some d
    | none => none
  let passes := st.hint == 4 && home.any fun d => (s.l2 d line).dst == 0
  let s := match home with
    | none =>
      -- at the L3 home: recall the owner, filter every present die, collapse replicas
      let s := ((s.recallOwner line).countWrite line).atL3 line st.hint ((s.l3 line).hw || st.rmw)
      let s := (s.l3 line).present.foldl (fun (s : State) d =>
        match (s.l3 line).die d with
        | none => s
        | some (f, u) => let r := s.sendDie d line f u cv new sp; r.2.setL3 ((r.2.l3 line).setDie d r.1)) s
      (s.settle line).collapse line cv new st.eager true who sp
    | some d =>
      let s := if (s.l3 line).own = some d then
          (if (s.l3 line).cpq = 0 then s else s.collapse line cv new st.eager true who sp)
        else s.takeOwner line d new st.hint st.eager who sp
      let s := (s.roomL2 d line).filterDie d line cv new sp
      if passes then s.settleL3 { (s.l3 line).setDie d (s.l2 d line).joined with own := none }
      else
        let s := s.setL2 { s.l2 d line with dst := 3, dfmt := .full, key := key, hint := st.hint, data := new, sf := sf, hw := false }
        (s.syncDie d line).settle line
  let s := if st.uncached || st.agent == .host then s else (s.hostHold line true).hostDirty line mask
  let poison := match st.back with | some p => p | none => s.poisoned line && !full
  let l1 := s.coh.l1.map fun l =>
    if l.line == line && st.core == some l.core && !l.icache then { l with data := mergeLine mask l.data data } else l
  let s : State := { s with coh := { s.coh with l1 := l1 } }
  let s := (s.storeLine line key new poison).samePoison line poison
  (old, if passes then s.l3WriteBack line else s)

/-- A modified mapped line is recalled (R202): its data comes home, as a store that the collapses it causes are charged for to
those whose stores stand in it, and the mapped line becomes invalid. -/
def State.recallMap (s : State) (m : MapLine) : State :=
  let st : Storer :=
    { agent := .lodge m.tile, die := some (dieOfTile m.tile), core := none, run := none, key := Key.zero, specid := none,
      eager := m.cls.eager, probes := false, restore := false, atHome := false, via := some (m.tile, m.off),
      back := some (s.mapPoison m), charge := m.by_ }
  (s.place m.pa m.key (BitVec.allOnes 1024) (s.mapData m) st).2.loseMap m
/-- The modified mapped copies of a line are recalled before its home acts (R202), but the one an access goes through. -/
def State.recallStash (s : State) (line : Nat) (via : Option (Nat × Nat)) : State :=
  (s.stash.lines.filter fun m => m.pa == line && m.dirty && via != some (m.tile, m.off)).foldl
    (fun (s : State) m => s.recallMap m) s

/-- An agent reads a line of which it has stored, or must see (R240, R251), a value that a collapse under way has still to bring to
its quadrant, or that stands in a modified mapped line of its tile: the collapse is acknowledged, and the mapped line comes home,
before it reads. -/
def State.mustSee (s : State) (a : Agent) (tile line : Nat) (via : Option (Nat × Nat)) : State :=
  let s := if s.stash.lines.any fun m => m.tile == tile && m.pa == line && m.dirty then s.recallStash line via else s
  match s.coh.collapses.find? fun c => c.quad == dieOfTile tile && c.line == line && c.charged.contains a with
  | some c => s.ackCollapse c.quad c.line
  | none => s

/-- An access names another key slot than the copy on the chip is tagged with (R44): the copies are written back under
their own slot and invalidated. -/
def State.rekey (s : State) (line key : Nat) : State :=
  match Sparse.get? s.mem.chip line with
  | none =>
    if s.coh.l1.any (fun l => l.line == line && l.key != key) ||
        s.coh.l2.any (fun e => e.line == line && e.dst != 0 && e.key != key) ||
        s.coh.replicas.any (fun r => r.line == line && r.key != key) then s.invalidateAll line
    else s
  | some c => if c.key = key then s else (if s.locked then s.hbmStore line else s).invalidateAll line

/-- A store is performed at its home (R137, R140): modified mapped copies come home, the probes abort what conflicts, then the
masked bytes are written. Answers the line as it stood just before. -/
def State.performWith (rec : AbortKind → Nat → Nat → State → State) (s : State) (line key : Nat) (mask : Line)
    (data : Line) (st : Storer) : Line × State :=
  let s := (s.recallStash line st.via).rekey line key
  let old := s.lineAt line key
  let s := s.probeWith rec line (changeVector old (mergeLine mask old data) (s.l3 line).sf) st
  s.place line key mask data st

/-- One restore (R140, R146): a store at the home with the aborted task's key, which drops every L1D copy (R211). With an empty key slot
it changes no memory (R47). -/
def State.restoreOne (rec : AbortKind → Nat → Nat → State → State) (tile n : Nat) (e : CqEntry) (x : LogEntry) (s : State) :
    State :=
  if x.valid && (s.keyAt x.key).isSome then
    (s.performWith rec (x.pa / 128) x.key (byteMask (x.pa % 128) 8) (putLine 0 (x.pa % 128) 8 x.old.toNat)
      { agent := .lodge tile, die := some (dieOfTile tile), core := none, run := some e.task.run, key := e.task.key,
        specid := some (e.id tile n), eager := true, probes := true, restore := true, atHome := false }).2
  else s

/-- The log of an aborted task is restored, last entry first (R146). -/
def State.restoreWith (rec : AbortKind → Nat → Nat → State → State) (tile n : Nat) (e : CqEntry) (s : State) : State :=
  e.log.foldr (fun x s => State.restoreOne rec tile n e x s) s

/-- A tile acts on a discard request (R146): queued tasks of the creator go, running and finished ones are aborted
without re-enqueue; spilled ones are left to a DISCARD step (R129). -/
def State.discardWith (rec : AbortKind → Nat → Nat → State → State) (tile id run : Nat) (s : State) : State :=
  let l := s.lodge tile
  let l := { l with queue := l.queue.filter fun t => t.parent != some id,
                    grids := l.grids.filter fun g => g.parent != some id,
                    discards := if (Sparse.getD l.blocks run []).isEmpty then l.discards else l.discards ++ [(id, run)] }
  let s := s.setLodge tile l
  let s : State := { s with sent := s.sent.filter fun x => !(x.tile == tile && x.task.parent == some id) }
  (l.cq.filter fun e => e.2.task.parent == some id).foldl (fun s e => rec ⟨false, true, 0x06⟩ tile e.1 s) s

/-- The task as it is re-enqueued (R118, R119): the eighth counted abort sets MW. -/
def Task.aborted (t : Task) (counted : Bool) : Task :=
  if counted then { t with aborts := Nat.min 7 (t.aborts + 1), mw := t.mw || decide (7 ≤ t.aborts) } else t

/-- One abort (R146); rec aborts the entries that its restores and discards reach. -/
def State.abortStep (rec : AbortKind → Nat → Nat → State → State) (k : AbortKind) (tile n : Nat) (s : State) : State :=
  match Sparse.get? (s.lodge tile).cq n with
  | none => s
  | some e =>
    if e.aborting then s
    else
      let id := e.id tile n
      let s := s.setEntry tile n { e with aborting := true }
      let s := match e.th with | some th => if e.finished then s else s.freeThread th | none => s
      let s : State := { s with stores := s.stores.filter fun x => x.specid != some id }
      let s := State.restoreWith rec tile n e s
      let s := if e.ovf then (List.range 256).foldl (fun s t => State.discardWith rec t id e.task.run s) s
        else e.children.foldl (fun s t => State.discardWith rec t id e.task.run s) s
      let s := match e.depart with | some t => State.discardWith rec t id e.task.run s | none => s
      let l := s.lodge tile
      let drop := k.discarded || e.creatorAborted
      let l := { l with cq := Sparse.erase l.cq n,
                        queue := if drop then l.queue else l.queue ++ [e.task.aborted k.counted] }
      let s := s.setLodge tile l
      let s := s.countEvt tile k.cause (some e.task.run) 1
      if !drop && k.counted && 7 ≤ e.task.aborts then s.countEvt tile 0x0A (some e.task.run) 1 else s

/-- Aborts, with a bound on their nesting: each removes an entry before it reaches others. -/
def State.abortFuel : Nat → AbortKind → Nat → Nat → State → State
  | 0, _, _, _, s => s
  | f + 1, k, tile, n, s => State.abortStep (State.abortFuel f) k tile n s

/-- The commit-queue entries in use in the package. -/
def State.entries (s : State) : Nat := s.lodges.foldl (fun a l => a + l.2.cq.length) 0

/-- Abort entry n of a tile (R146) (log entry 12). -/
def State.abort (s : State) (k : AbortKind) (tile n : Nat) : State := State.abortFuel (s.entries + 1) k tile n s

/-- The same as a continuation. -/
def abortRec (k : AbortKind) (tile n : Nat) (s : State) : State := s.abort k tile n

/-- A store performed at its home. -/
def State.perform (s : State) (line key : Nat) (mask : Line) (data : Line) (st : Storer) : Line × State :=
  s.performWith abortRec line key mask data st

/-- A load probe (R139): later writers of the line abort before the load returns. -/
def State.loadProbe (s : State) (line run : Nat) (key : Key) (specid : Option Nat) : State :=
  if (s.probeTiles line run true).isEmpty then s
  else
    let s := s.countFalse line run true
    let s := (s.loadVictims line run key specid).foldl (fun s v => s.abort ⟨true, false, 0x04⟩ v.2.1 v.2.2) s
    s.reprobe line

-- Reading a line.

/-- A read that reaches the caches: for which agent, through which core's L1D if any or for a mapped stash line, at which view and
source, and what its page allows (R218). -/
structure Req where
  agent : Agent
  core : Option Nat
  icache : Bool
  tile : Nat
  line : Nat
  key : Nat
  cls : Cls
  view : View
  src : Ty
  sub : Bool
  priv : Bool
  alloc : Bool
  hint : BitVec 3
  mapped : Bool := false
deriving DecidableEq, Repr

/-- R224: a request that names another source demotes every die record and tile record to FULL, and each demoted die
receives the current line. -/
def State.demote (s : State) (line key : Nat) : State :=
  let now := s.lineAt line key
  let e := s.l3 line
  let s : State := { s with coh := { s.coh with l2 := s.coh.l2.map fun x =>
    if x.line == line && (e.die x.die).isSome then
      { x with recs := x.recs.map (fun r => (r.1, View.full, r.2.2)), dfmt := .full,
               key := key, data := (if x.dfmt = .full then x.data else now) }
    else x } }
  s.settleL3 { e with drec := e.drec.map fun r => r.map fun p => (View.full, p.2) }

/-- The format a request is granted at its home (R218): an unset SF takes the request's source, at the L3 home and in every L2
entry of the line; another source demotes the records. -/
def State.grant (s : State) (r : Req) : View × State :=
  if r.view.isFull r.src || !r.sub || r.priv || s.isSystem (r.line * 128) then (.full, s)
  else
    let s := s.clearSf r.line
    let e := s.l3 r.line
    match e.sf with
    | none =>
      (r.view, ((s.roomL3 r.line).setL3 e).setSf r.line (some r.src))
    | some x => if x = r.src then (r.view, s) else (.full, s.demote r.line r.key)

/-- Replicas are replaced until a waystation's set holds fewer than n of them. -/
def State.replaceReplicas (s : State) (quad line n : Nat) : Nat → State
  | 0 => s
  | f + 1 =>
    let set := s.coh.replicas.filter fun r => r.quad == quad && sliceOf r.line == sliceOf line && sameSet3 r.line line
    if set.length < n then s
    else match s.victim set with
      | some r => (s.free.2.dropReplica quad r.line).replaceReplicas quad line n f
      | none => s
/-- Room for one more replica in a waystation's set, where any way is open to replicas: REPL_CTL.WAYS of them, at most 12 (R229). -/
def State.roomReplica (s : State) (quad line : Nat) : Bool × State :=
  let ways := Nat.min 12 (bitsOf (s.reg 0x403) 0 4)
  if ways = 0 then (false, s)
  else (true, (if (s.coh.replicas.filter fun r => r.quad == quad && sliceOf r.line == sliceOf line).length < ways then s
    else s.replaceReplicas quad line ways 16).roomSlice quad line true)
/-- The fill of a replica arrives at its waystation, which installs it, unless a collapse of the line arrived while it was in flight
(R229); with no way open to it, it is dropped as a replaced replica is. -/
def State.endFill (s : State) (quad line : Nat) : State :=
  match s.coh.filling.find? fun r => r.quad == quad && r.line == line with
  | none => s
  | some x =>
    let s : State := { s with coh := { s.coh with filling := s.coh.filling.filter fun r => !(r.quad == quad && r.line == line) } }
    let m := s.roomReplica quad line
    let s := m.2
    let s : State := { s with coh := { s.coh with
      replicas := s.coh.replicas ++ [x], fills := if m.1 then bump32 s.coh.fills quad else s.coh.fills } }
    if m.1 then s.countEvt (quad * 64 + sliceOf line) 0x21 none 1 else s.dropReplica quad line

/-- An L2-home miss goes to the waystation or to the L3 home (R222, R226, R229): the line's data, and the format at which the die then
holds it, which is at least the grant, with the die recorded unless its own waystation serves it, now or when the fill that the miss
starts arrives. A die whose record at the L3 home does not serve the grant is upgraded there. Misses of loads and other reads count
for page hotness (R237) (log entry 79). -/
def State.missL2 (s : State) (r : Req) (granted : View) : Line × View × State :=
  let die := dieOfTile r.tile
  let s := s.countRead die r.line
  let old := (s.l3 r.line).die die
  let way := s.mayReplicate die r.line && old.all fun x => x.1.serves granted
  let whole : View := match old with | some (f, _) => f | none => .full
  match way, s.coh.replicas.find? fun x => x.quad == die && x.line == r.line with
  | true, some x =>
    let s : State := { s with coh := { s.coh with hits := bump32 s.coh.hits die } }
    (x.data, whole, s.countEvt (die * 64 + sliceOf r.line) 0x20 none 1)
  | _, _ =>
    let s := if (s.l3 r.line).own = some die then s else s.recallOwner r.line
    let s := ((s.countHot r.tile r.line).atL3 r.line r.hint false).hostHold r.line false
    let now := s.lineAt r.line r.key
    let e := s.l3 r.line
    if way then
      let fill : Replica := { quad := die, line := r.line, key := r.key, cls := r.cls, data := now }
      let s := s.setL3 { e with rep := e.rep ||| (1#4 <<< die) }
      let s : State := if s.coh.filling.any (fun x => x.quad == die && x.line == r.line) then s
        else { s with coh := { s.coh with filling := s.coh.filling ++ [fill] } }
      (now, whole, s)
    else
      let f := match e.die die with | some (g, _) => g.join granted | none => granted
      let m := match e.die die with | some (_, m) => m | none => false
      (now, f, s.followHw (e.setDie die (some (f, m))))

/-- A read at the L2 home of the requester's die (R217, R218, R219, R222): the data, the granted format, and the records, of which
upd is the mode; an L1I line is recorded on a private page too (R292). The data stays in the L2 unless the access's hint is .nol2 (R296). -/
def State.readHomeAs (s : State) (r : Req) (upd : Bool) : Line × View × State :=
  let die := dieOfTile r.tile
  let s := (((s.mustSee r.agent r.tile r.line none).recallStash r.line none).rekey r.line r.key).roomL2 die r.line
  let g := s.grant r
  let granted := g.1
  let s := g.2
  let e := s.l2 die r.line
  let hit := e.dst != 0 && e.dfmt.serves granted
  let m := if hit then (e.data, e.dfmt, s) else s.missL2 r granted
  let s := m.2.2
  let e := s.l2 die r.line
  let e := if hit then e
    else if r.hint == 4 && e.dst == 0 then { e with dfmt := m.2.1, hw := (s.l3 r.line).hw, sf := (s.l3 r.line).sf }
    else { e with dst := if 2 ≤ e.dst then e.dst else 1, dfmt := m.2.1, key := r.key, hint := r.hint, data := m.1, hw := (s.l3 r.line).hw,
                  sf := (s.l3 r.line).sf }
  let track := r.core.isSome && (!r.priv || r.icache) || r.mapped
  let e := if track then e.record (r.tile % 64) granted upd else e
  (m.1, granted, ((s.setL2 e).syncDie die r.line).clearSf r.line)
/-- The same, for a sharer in invalidate mode. -/
def State.readHome (s : State) (r : Req) : Line × View × State := s.readHomeAs r false

/-- A load through a core's L1D (R208, R216, R217, R222): served there when the line's tag serves the view of the same source, else
by the home. A line with spec-write marks is not allocated (R135). A hit on a line newer than what its die's L2 home or waystation would
still serve is a value that the reader must not go behind (R240). -/
def State.readLine (s : State) (r : Req) : Line × View × State :=
  match r.core with
  | none => s.readHome r
  | some c =>
    let s := s.mustSee r.agent r.tile r.line none
    let s := if s.coh.l1.any (fun l => l.core == c && l.line == r.line && l.key != r.key) then s.rekey r.line r.key else s
    match s.coh.l1.find? fun l => l.core == c && l.line == r.line && l.icache == r.icache && l.key == r.key &&
        l.tag.serves (if r.view.isFull r.src then .full else r.view) && (l.tag == .full || l.src == r.src) with
    | some l =>
      let die := dieOfTile r.tile
      let behind := (s.coh.l2.any fun e => e.die == die && e.line == r.line && e.dst != 0 && e.data != l.data) ||
        s.coh.replicas.any fun x => x.quad == die && x.line == r.line && x.data != l.data
      (l.data, l.tag, if behind then s.chargeWith r.agent fun c => c.line == r.line && c.quad == die else s)
    | none =>
      let m := s.readHome r
      let s := m.2.2
      if !r.alloc || r.hint == 3 || !(s.markedTiles r.line true).isEmpty then (m.1, m.2.1, s)
      else (m.1, m.2.1, s.addL1 { core := c, line := r.line, icache := r.icache, key := r.key, cls := r.cls, src := r.src, tag := m.2.1,
                                  untracked := r.priv && !r.icache, hint := r.hint, data := m.1 })

end Sys2Proof.Machine
end

