-- ==== Sys2Proof/Machine/Itinerary.lean ====
section
/-! DEFINITION. Physical accesses the device makes itself, and the Itinerary (R286 to R288): its records, the log of a
replay, and the places where a run takes a value from the log. -/
namespace Sys2Proof.Machine
open Sys2Proof

/-- A storer for accesses the device makes itself, on a page of a class (R231, R232): no probes; those of a tile go through a
translation, the others, which are physical and collapse eagerly (log entry 34), drop every L1D copy (R211). -/
def plainStorer (a : Agent) (tile : Option Nat) (cls : Cls) : Storer :=
  { agent := a, die := tile.map dieOfTile, core := none, run := none, key := Key.zero, specid := none, eager := cls.eager,
    probes := false, restore := tile.isNone, atHome := false }

/-- A physical store of the device's own, of n bytes that lie in one line, as it waits at its home, after those that wait there
(R20). -/
def State.waitingStore (s : State) (pa n v key : Nat) : PendStore :=
  let last := (s.stores.filter fun x => x.agent == .launch 0).getLast?
  { id := s.nextStore + 1, agent := .launch 0, run := 16, key := Key.zero, specid := none, seq := 0,
    part := { va := 0, place := if s.isSystem pa then .system else .line, pa := pa, len := n, cls := .u, key := key, sub := false,
              priv := false, bias := true, remote := false },
    mask := byteMask (pa % 128) n, data := putLine 0 (pa % 128) n v, op := .write, cls := .u, rel := none,
    after := (match last with | some x => x.id | none => 0), log := none, hint := 0 }
/-- Store n bytes, that lie in one line, at a physical address under a key slot; where nothing is backed nothing is stored
(log entry 34). Before the layout is locked the store waits at its home, and those made after it wait behind it (R20). -/
def State.physStore (s : State) (pa n v key : Nat) : State :=
  if !s.backed pa then s
  else if (!s.locked && !s.isSystem pa) || s.stores.any (fun x => x.agent == .launch 0) then
    let x := s.waitingStore pa n v key
    { s with stores := s.stores ++ [x], nextStore := x.id }
  else (s.perform (pa / 128) key (byteMask (pa % 128) n) (putLine 0 (pa % 128) n v) (plainStorer (.launch 0) none .t)).2

/-- Store words at rising physical addresses under key slot 0. -/
def State.physWords (s : State) (pa : Nat) : List (BitVec 64) → State
  | [] => s
  | w :: r => (s.physStore pa 8 w.toNat 0).physWords (pa + 8) r

/-- Read n bytes, that lie in one line, at a physical address under a key slot. -/
def State.physNat (s : State) (pa n key : Nat) : Nat := lineNat (s.lineAt (pa / 128) key) (pa % 128) n

/-- The recorder is on for a run: none when it is off or has stopped, some true in replay (R286 to R288). -/
def State.itinMode (s : State) (run : Nat) : Option Bool :=
  let c := s.reg 0x640
  if bitOf c 63 && bitsOf c 0 4 == run && !s.dbg.itinStopped then some (bitOf c 62) else none
/-- Records are made for the run. -/
def State.recording (s : State) (run : Nat) : Bool := s.itinMode run == some false
/-- The log is read for the run. -/
def State.replaying (s : State) (run : Nat) : Bool := s.itinMode run == some true

/-- Bytes of the log (R288). -/
def State.itinSize (s : State) : Nat := 2 ^ Nat.max 16 (bitsOf (s.reg 0x640) 32 5)
/-- Physical base of the log. -/
def State.itinBase (s : State) : Nat := 4096 * (bitsOf (s.reg 0x641) 12 40)

/-- Write one record at the write offset. -/
def State.itinWrite (s : State) (kind tile : Nat) (w1 w2 w3 : BitVec 64) : State :=
  let w0 := BitVec.ofNat 64 (kind + 2 ^ 8 * (tile % 256) + 2 ^ 16 * (s.dbg.csn % 2 ^ 48))
  let s' := s.physWords (s.itinBase + s.dbg.itinOff) [w0, w1, w2, w3]
  { s' with dbg := { s'.dbg with itinOff := s.dbg.itinOff + 32 } }

/-- Append a record, or FULL when it would use the last 32 bytes (R287). -/
def State.itinAppend (s : State) (kind tile : Nat) (w1 w2 w3 : BitVec 64) : State :=
  if s.dbg.itinStopped then s
  else if s.dbg.itinOff + 64 ≤ s.itinSize then s.itinWrite kind tile w1 w2 w3
  else
    let s := s.itinWrite 8 tile (BitVec.ofNat 64 s.dbg.csn) 0 0
    let s : State := { s with dbg := { s.dbg with itinStopped := true } }
    s.onReg 0x642 fun v => putField (putField v 63 1 1) 14 48 s.dbg.csn

/-- The record of a kind, if the run is recorded. -/
def State.itin (s : State) (run kind tile : Nat) (w1 w2 w3 : BitVec 64) : State :=
  if s.recording run then s.itinAppend kind tile w1 w2 w3 else s

/-- The four DATA records of a line or launch record: 24 bytes each, the last 8 in the fourth record holding nothing
(R286). -/
def State.itinData (s : State) (run tile : Nat) (ws : List (BitVec 64)) : State :=
  (List.range 4).foldl (fun s i =>
    let w (k : Nat) : BitVec 64 := if i = 3 && k != 0 then 0 else ws.getD (i * 3 + k) 0
    s.itin run 15 tile (w 0) (w 1) (w 2)) s

/-- Record n of the log. -/
def State.itinRecord (s : State) (n : Nat) : List Nat :=
  let a := s.itinBase + 32 * n
  (List.range 4).map fun i => s.physNat (a + 8 * i) 8 0

/-- Search the log from record n for the k-th record of a kind and tile from there, whose words have the low bits wanted: word,
bits, value. -/
def State.itinFind (s : State) (kind tile : Nat) (want : List (Nat × Nat × Nat)) : Nat → Nat → Nat → Option Nat
  | 0, _, _ => none
  | f + 1, n, k =>
    let r := s.itinRecord n
    let w := r.getD 0 0
    if w % 256 = 0 ∨ w % 256 = 8 then none
    else if w % 256 = kind ∧ bitsOf w 8 8 = tile ∧ (want.all fun x => r.getD x.1 0 % 2 ^ x.2.1 == x.2.2) then
      (if k = 0 then some n else s.itinFind kind tile want f (n + 1) (k - 1))
    else s.itinFind kind tile want f (n + 1) k

/-- In replay, take the next record of a kind and tile with the words wanted: its number, and the log moved on for such records. -/
def State.itinTake (s : State) (run kind tile : Nat) (want : List (Nat × Nat × Nat)) : Option Nat × State :=
  if !s.replaying run then (none, s)
  else
    let key := 2 ^ 16 * packElems 64 (want.map fun x => x.2.2) + kind * 256 + tile
    let k := Sparse.getD s.dbg.itinTaken key 0
    match s.itinFind kind tile want (s.itinSize / 32) 0 k with
    | none => (none, s)
    | some n => (some n, { s with dbg := { s.dbg with itinTaken := Sparse.set s.dbg.itinTaken key (k + 1) } })

/-- Word i of a record, or a fallback. -/
def State.itinWord (s : State) (n i : Nat) : BitVec 64 := BitVec.ofNat 64 ((s.itinRecord n).getD i 0)

/-- The 16 words that the DATA records after record n hold. -/
def State.itinPayload (s : State) (n : Nat) : List (BitVec 64) :=
  ((List.range 4).flatMap fun i => [s.itinWord (n + 1 + i) 1, s.itinWord (n + 1 + i) 2, s.itinWord (n + 1 + i) 3]).take 10

/-- The replay diverges from its log: DIV, and the run continues without replay (R288). -/
def State.itinDiverge (s : State) : State :=
  let s : State := { s with dbg := { s.dbg with itinStopped := true } }
  s.onReg 0x642 fun v => putField v 62 1 1

/-- A value of a run that is recorded, or taken from the log in replay (R329: the timer). -/
def State.itinTimer (s : State) (run : Option Nat) (tile : Nat) (v : BitVec 64) : BitVec 64 × State :=
  match run with
  | none => (v, s)
  | some r =>
    let x := s.itinTake r 5 tile []
    match x.1 with
    | some n => (x.2.itinWord n 1, x.2)
    | none => (v, s.itin r 5 tile v 0 0)

/-- A line read from system space: HOSTRD with its data, or the data that the log holds for it (R286, R288). The log holds the
first 80 bytes of a line. -/
def State.itinHostRead (s : State) (run : Option Nat) (tile line : Nat) (data : Line) : Line × State :=
  match run with
  | none => (data, s)
  | some r =>
    if (s.itinMode r).isNone then (data, s)
    else
      let x := s.itinTake r 2 tile [(1, 64, line * 128)]
      match x.1 with
      | some n =>
        let ws := x.2.itinPayload n
        ((List.range 10).foldl (fun d i => putLine d (8 * i) 8 (ws.getD i 0).toNat) data, x.2)
      | none =>
        let s := s.itin r 2 tile (BitVec.ofNat 64 (line * 128)) 0 0
        (data, s.itinData r tile ((List.range 10).map fun i => BitVec.ofNat 64 (lineNat data (8 * i) 8)))

end Sys2Proof.Machine
end

