-- ==== Sys2Proof/Machine/Translate.lean ====
section
/-! DEFINITION. Apertures (R197 to R199), the page-table walk and its checks (R168 to R172, R209, R210), and whether a
home can serve an access now (R20, R57, R59, R120). -/
namespace Sys2Proof.Machine
open Sys2Proof

/-- Who makes an access: its tile, its core if a thread, its run (none: an Innkeeper slot, which has none), and the core
that issued it with its thread slot (2 ^ 14 and more: no thread's), and the map-remote replies it holds, by VA page (R166). -/
structure Who where
  agent : Agent
  tile : Nat
  core : Option Nat
  run : Option Nat
  issuer : Nat
  th : Nat := 2 ^ 14
  remote : List (Nat × Remote)
deriving DecidableEq, Repr

/-- A thread as accessing agent. -/
def Thread.who (t : Thread) (th : Nat) : Who :=
  { agent := .thread th, tile := tileOf th, core := some (coreOf th), run := t.task.map fun k => k.run,
    issuer := coreOf th, th := th, remote := t.remote }

/-- The device physical address of the Innkeepers' identity table (R70): the first 64 KiB boundary at or after the end of
the service image. -/
def State.identityRoot (s : State) : Nat :=
  let base := 2 ^ 16 * (bitsOf (s.bar 0x0118 0) 16 36)
  2 ^ 16 * ((base + bitsOf (s.bar 0x0110 (64 <<< 50)) 0 25 + 2 ^ 16 - 1) / 2 ^ 16)

/-- Table root, run tag, generation and ASID an agent translates with (R70, R172); the run tag of no run is 16. -/
def State.space (s : State) (run : Option Nat) : Nat × Nat × Nat × Nat :=
  match run with
  | none => (s.identityRoot, 16, 0, 0)
  | some n => let r := s.run n; (r.cfg.ptroot, n, r.gen, r.cfg.asid)

/-- Bits of VA below the index of a level (R168). -/
def levelShift : Nat → Nat
  | 0 => 16 | 1 => 26 | 2 => 36 | _ => 46
/-- The index of a VA at a level. -/
def levelIndex (level va : Nat) : Nat := bitsOf va (levelShift level) 10

/-- An entry that is malformed at its level (R170). -/
def malformed (level e : Nat) : Bool :=
  if bitOf e 1 then
    level == 3 || bitsOf e 7 2 == 3 || bitsOf e 11 2 == 3 || (level == 1 && bitsOf e 28 10 != 0) ||
      (level == 2 && bitsOf e 28 20 != 0)
  else level == 0 || bitsOf e 2 11 != 0 || bitsOf e 52 12 != 0

-- Homes that cannot serve an access yet.

/-- The half of a record at a holder: holder 0 is the host, port + 1 a peer behind a fabric port (R51, R65). -/
def heldAt (half holder : Nat) : Nat := half + 2 ^ 46 * holder
/-- The half that a record names. -/
def heldHalf (k : Nat) : Nat := k % 2 ^ 46
/-- The holder that a record names. -/
def heldBy (k : Nat) : Nat := k / 2 ^ 46
/-- The back-invalidate snoops that an access to a line still needs (R59): for a read, of the halves that may be held modified; for
a write, of both halves of each holder; with those sent and not answered. -/
def State.snoopsFor (s : State) (line : Nat) (write : Bool) : List Nat :=
  let recs := s.mem.hostLines.filter fun h => heldHalf h.1 / 2 == line && (h.2 != .shared || write)
  let sent := (s.mem.snoops.filter fun h => heldHalf h.1 / 2 == line && h.2 && write).map fun h => h.1
  (if write then recs.flatMap fun h => [heldAt (2 * line) (heldBy h.1), heldAt (2 * line + 1) (heldBy h.1)]
   else recs.map fun h => h.1) ++ sent
/-- Modified data that a holder has returned for a line stands before its home (R59, R61). -/
def State.answering (s : State) (line : Nat) : Bool := s.stores.any fun x => x.answer && x.part.pa / 128 == line
/-- The home of a line can serve an access now. It waits while memory is not enabled (R20), while another run's speculative
state stands on the line (R57, R120), while its page is in a bias flip, and while the host or a peer may hold it (R59), for which
it sends snoops (log entry 34). -/
def State.ready (s : State) (line : Nat) (run : Option Nat) (write : Bool) : Bool × State :=
  let s := s.reprobe line
  if s.isSystem (line * 128) then (!s.otherSpec line run, s)
  else if !s.locked && (Sparse.get? s.mem.chip line).isNone then (false, s)
  else if s.otherSpec line run then (false, s)
  else if (Sparse.getD s.mem.bias (line / 512) 0).getLsbD 1 || s.answering line then (false, s)
  else
    let need := s.snoopsFor line write
    if need.isEmpty then (true, s)
    else (false, { s with mem := { s.mem with
      snoops := need.foldl (fun m h => Sparse.set m h (write || Sparse.getD m h false)) s.mem.snoops } })

/-- Why an access does not go on: it traps, or it waits: for a line at its home, to be written or not, or for the fills of a page
that the owner core gives up (R210), whose leaf is then swapped first (the leaf, its level and its address). -/
inductive Stop where
  | trap (t : Trap)
  | wait (line : Option (Nat × Bool))
  | leave (pte level addr : Nat)
deriving DecidableEq, Repr

/-- What a walk finds: the leaf with its level and address, the trap it raises, or the line it waits for. -/
inductive Walk where
  | leaf (pte level addr : Nat)
  | trap (t : Trap)
  | wait (line : Nat)
deriving DecidableEq, Repr

/-- Peer window addresses need a fabric port that is up (R63). -/
def State.noPort (s : State) (pa : Nat) : Bool := s.isSystem pa && bitOf pa 50 && s.host.fabUp == 0
/-- A line of a table as a walk for a tile's agent reads it: one of system space is noted by the Itinerary, and in replay is the one
that the log holds (R286, R288). -/
def State.walkLine (s : State) (tile run line : Nat) : Line × State :=
  if s.isSystem (line * 128) then s.itinHostRead (if run = 16 then none else some run) tile line (s.lineAt line 0)
  else (s.lineAt line 0, s)
/-- A cached non-leaf entry of the quadrant (R173). -/
def State.cachedDir (s : State) (quad run gen asid level va : Nat) : Option Nat :=
  (s.tlb.find? fun e => e.unit == 4096 + quad && e.run == run && e.gen == gen && e.asid == asid && e.level == level &&
    e.page == va / 2 ^ levelShift level).map fun e => e.pte.toNat

/-- The walk for a tile's agent from a table at a level down (R168, R170). Entries are physical accesses under key slot 0. DETAIL of a
PAGE fault counts its one request (R162). -/
def State.walkFrom (s : State) (tile run gen asid va : Nat) : Nat → Nat → Walk
  | 0, table => .wait (table / 128)
  | n + 1, table =>
    -- n is the level of this table
    match (if n = 0 then none else s.cachedDir (dieOfTile tile) run gen asid n va) with
    | some e => s.walkFrom tile run gen asid va n (2 ^ 13 * (bitsOf e 13 39))
    | none =>
      let a := table + 8 * levelIndex n va
      if !s.backed a then .trap { cause := .prot, acc := .walk, va := va, pa := some a, detail := 2 }
      else if s.noPort a then .trap { cause := .prot, acc := .walk, va := va, pa := some a, detail := 5 }
      else if !(s.ready (a / 128) (if run = 16 then none else some run) false).1 then .wait (a / 128)
      else if s.readsPoison (a / 128) then .trap { cause := .poison, acc := .walk, va := va, pa := some a, detail := 0 }
      else
        let e := lineNat (s.walkLine tile run (a / 128)).1 (a % 128) 8
        if !bitOf e 0 then .trap { cause := .page, acc := .none, va := va, pa := none, detail := BitVec.ofNat 32 (n + 256) }
        else if malformed n e then
          .trap { cause := .page, acc := .none, va := va, pa := none, detail := BitVec.ofNat 32 (n + 260) }
        else if bitOf e 1 then .leaf e n a
        else s.walkFrom tile run gen asid va n (2 ^ 13 * (bitsOf e 13 39))

/-- A TLB entry that hits: the core's own, or the tile's (R172, R173); a private page's entry in the tile's TLB serves its
owner core alone (R210). -/
def State.tlbHit (s : State) (w : Who) (va : Nat) : Option TlbEntry :=
  let sp := s.space w.run
  let tagged (u : Nat) (e : TlbEntry) : Bool :=
    e.unit == u && e.run == sp.2.1 && e.gen == sp.2.2.1 && e.asid == sp.2.2.2 && e.page == va / 2 ^ levelShift e.level
  let own := match w.core with | some c => s.tlb.find? (tagged c) | none => none
  match own with
  | some e => some e
  | none => s.tlb.find? fun e => tagged (2048 + w.tile) e &&
      !(bitsOf e.pte.toNat 11 2 == 1 && w.core != some (bitsOf e.pte.toNat 13 11))

/-- The translation of a VA: from a TLB, or by a walk. A write needs D in a cached entry (R171). -/
def State.lookup (s : State) (w : Who) (va : Nat) (write : Bool) : Walk × Bool :=
  match s.tlbHit w va with
  | some e =>
    if write && !e.pte.getLsbD 6 then
      (let sp := s.space w.run; s.walkFrom w.tile sp.2.1 sp.2.2.1 sp.2.2.2 va 4 sp.1, true)
    else (.leaf e.pte.toNat e.level 0, false)
  | none => (let sp := s.space w.run; s.walkFrom w.tile sp.2.1 sp.2.2.1 sp.2.2.2 va 4 sp.1, true)

/-- An access kind has its permission in a leaf (R170). -/
def permitted (acc : Acc) (pte : Nat) : Bool :=
  match acc with
  | .read => bitOf pte 2
  | .write => bitOf pte 3
  | .atomic => bitOf pte 2 && bitOf pte 3
  | .fetch => bitOf pte 4
  | _ => true

/-- The physical address a leaf gives (R168). -/
def leafPa (pte level va : Nat) : Nat :=
  let sh := levelShift level
  2 ^ 16 * (bitsOf pte 28 36) / 2 ^ sh * 2 ^ sh + va % 2 ^ sh

/-- The ordering class of a leaf (R169). -/
def leafCls (pte : Nat) : Cls :=
  match bitsOf pte 7 2 with
  | 0 => .t
  | 1 => .r
  | _ => .u

/-- A located part of an access, with the walk that must still take effect: the leaf, its level and its address. -/
structure Located where
  part : Part
  walk : Option (Nat × Nat × Nat)
deriving DecidableEq, Repr

/-- What locating an access answers. -/
abbrev Loc := Except Stop Located

/-- A stash part (R199). -/
def stashPart (va tile off n : Nat) : Located :=
  { part := { va := va, place := .stash tile, pa := off, len := n, cls := .u, key := 0, sub := false, priv := false,
              bias := false, remote := false }, walk := none }

/-- Bytes of a tile's stash that belong to the fault mailbox ring (R164). -/
def State.inRing (s : State) (tile off n : Nat) : Bool :=
  let c := s.faultCfg
  isInnkeeperTile tile && c.1 && decide (off < c.2.1 + 64 * c.2.2) && decide (c.2.1 < off + n)
/-- Bytes of a tile's stash inside a mapped range. -/
def State.inMapped (s : State) (tile off n : Nat) : Bool :=
  s.stash.maps.any fun m => m.tile == tile && decide (off < m.soff + 4096 * m.pages) && decide (m.soff < off + n)

/-- A stash access through an aperture: mailbox ring, mapped range, fenced tile (R164, R177, R199). -/
def State.stashLoc (s : State) (w : Who) (acc : Acc) (va tile off n : Nat) : Loc :=
  if s.fenced tile then .error (.trap (.at .peerfault acc va))
  else if s.inRing tile off n && w.issuer != tile * 8 then .error (.trap (.protAt acc va 1))
  else if s.inMapped tile off n then .error (.trap (.protAt acc va 1))
  else .ok (stashPart va tile off n)


/-- The reply page serves the faulting page's part of an access, with the class and key of the leaf that faulted (R165, R166):
backing, key slot and port are checked as for any access (R19, R47, R63). -/
def State.remoteLoc (s : State) (acc : Acc) (va n : Nat) (r : Remote) : Loc :=
  let pa := 2 ^ 16 * r.page + va % 2 ^ 16
  let fault (reason : Nat) : Stop := .trap { Trap.protAt acc va reason with pa := some pa, leaf := some (r.cls, r.key) }
  if !s.backed pa then .error (fault 2)
  else if (s.keyAt r.key).isNone then .error (fault 3)
  else if s.noPort pa then .error (fault 5)
  else .ok { part := { va := va, place := if s.isSystem pa then .system else .line, pa := pa, len := n, cls := r.cls,
                       key := r.key, sub := false, priv := false, bias := true, remote := true,
                       port := if s.isSystem pa then s.portOf pa else none }, walk := none }
/-- The reply that an access at a VA holds (R166). -/
def Who.remoteAt (w : Who) (va : Nat) : Option Remote := (w.remote.find? fun r => r.1 == va / 2 ^ 16).map fun r => r.2

/-- The leaf as the walker leaves it: A, D for a write, CLS and OWNER (R171, R209, R210). -/
def usedPte (w : Who) (write : Bool) (pte : Nat) : Nat :=
  let p := putField pte 5 1 1
  let p := if write then putField p 6 1 1 else p
  match bitsOf pte 11 2, w.core with
  | 0, some c => putField (putField p 11 2 1) 13 11 c
  | 0, none => putField p 11 2 2
  | 1, c => if c = some (bitsOf pte 13 11) then p else putField p 11 2 2
  | _, _ => p
/-- A leaf is private to another core than the accessing agent's, so that a walk releases it (R210). -/
def Who.releases (w : Who) (pte : Nat) : Bool := bitsOf pte 11 2 == 1 && w.core != some (bitsOf pte 13 11)
/-- First byte and size of the page of a leaf. -/
def leafPage (pte level : Nat) : Nat × Nat := (leafPa pte level 0, 2 ^ levelShift level)
/-- The owner core has fills under the private translation of a page under way (R210). -/
def State.fillsPrivate (s : State) (owner : Nat) (page : Nat × Nat) : Bool :=
  s.threads.any fun x => coreOf x.1 == owner && x.2.outs.any fun o => o.parts.any fun p =>
    p.priv && decide (page.1 ≤ p.pa) && decide (p.pa < page.1 + page.2)
/-- The release of a page waits for the owner core's fills. -/
def State.releaseWaits (s : State) (pa : Nat) : Bool :=
  s.coh.leaving.any fun x => decide (x.2.1 ≤ pa) && decide (pa < x.2.1 + x.2.2) && s.fillsPrivate x.1 (x.2.1, x.2.2)

/-- What a leaf denies an access, by the reasons of PROT (R162, R170, R19, R47, R52, R63). -/
def State.leafDenies (s : State) (acc : Acc) (pte pa : Nat) : Option Nat :=
  if !permitted acc pte then some 1
  else if !s.backed pa then some 2
  else if s.isSystem pa && leafCls pte == .t then some 4
  else if (s.keyAt (bitsOf pte 24 4)).isNone then some 3
  else if s.noPort pa then some 5
  else none

/-- Translate n bytes that lie in one line (R170, R171). A walk waits where its leaf is to be changed and cannot be written now
(R59), and where the owner core must first give up its page (R210). -/
def State.globalLoc (s : State) (w : Who) (acc : Acc) (va n : Nat) : Loc :=
  match w.remoteAt va with
  | some r => s.remoteLoc acc va n r
  | none =>
    let write := acc == .write || acc == .atomic
    let l := s.lookup w va write
    match l.1 with
    | .wait line => .error (.wait (some (line, false)))
    | .trap t => .error (.trap (if t.acc == .walk then t else { t with acc := acc }))
    | .leaf pte level addr =>
      let pa := leafPa pte level va
      let key := bitsOf pte 24 4
      match s.leafDenies acc pte pa with
      | some r => .error (.trap { Trap.protAt acc va r with pa := some pa, leaf := some (leafCls pte, key) })
      | none =>
        if l.2 && usedPte w write pte != pte && !(s.ready (addr / 128) w.run true).1 then .error (.wait (some (addr / 128, true)))
        else if l.2 && w.releases pte && s.fillsPrivate (bitsOf pte 13 11) (leafPage pte level) then .error (.leave pte level addr)
        else if s.releaseWaits pa then .error (.wait none)
        else
          let cv := bitsOf pte 11 2
          .ok { part := { va := va, place := if s.isSystem pa then .system else .line, pa := pa, len := n, cls := leafCls pte,
                          key := key, sub := bitOf pte 9,
                          priv := match w.core with
                            | some c => cv == 0 || (cv == 1 && bitsOf pte 13 11 == c)
                            | none => false,
                          bias := bitOf pte 10, remote := false, port := if s.isSystem pa then s.portOf pa else none, level := level },
                walk := if l.2 then some (pte, level, addr) else none }

/-- The global VA of a stack access of a slot (R198). -/
def State.stackVa (s : State) (run th va : Nat) : Nat := ((s.run run).cfg.stack + 65536 * th + va % 2 ^ 16) % 2 ^ 56
/-- The VA by which the parts of an access are named: that of R198 for the stack window, else the VA itself. -/
def State.partVa (s : State) (w : Who) (va : Nat) : Nat :=
  let va := va % 2 ^ 56
  match w.run, w.agent with
  | some r, .thread th => if va / 2 ^ 48 = 0xFD then s.stackVa r th va else va
  | _, _ => va

/-- Locate n bytes in one line at a VA: the apertures, then translation (R197, R198, R371 steps 2 and 3). A job has no slot, and the
rules do not say what its access through the stack window does: that it faults with PROT reason 2 is the model's choice (log entry
18). -/
def State.locate (s : State) (w : Who) (acc : Acc) (va n : Nat) : Loc :=
  let va := va % 2 ^ 56
  let no : Loc := .error (.trap (.protAt acc va 2))
  match va / 2 ^ 48, w.remoteAt va with
  | 0xFF, some r | 0xFE, some r | 0xFD, some r => s.remoteLoc acc va n r
  | 0xFF, none => if bitsOf va 20 28 != 0 then no else s.stashLoc w acc va w.tile (va % 2 ^ 20) n
  | 0xFE, none => if bitsOf va 20 20 != 0 then no else s.stashLoc w acc va (bitsOf va 40 8) (va % 2 ^ 20) n
  | 0xFD, _ =>
    if bitsOf va 16 32 != 0 then no
    else match w.run, w.agent with
      | some r, .thread th =>
        let ga := s.stackVa r th va
        if 0xFD ≤ ga / 2 ^ 48 then no else s.globalLoc w acc ga n
      | _, _ => no
  | _, _ => s.globalLoc w acc va n

/-- The window end an access must not pass (R197, R370): the bytes after va in its window, none for a global one. -/
def windowPast (va n : Nat) : Bool :=
  let v := va % 2 ^ 56
  match v / 2 ^ 48 with
  | 0xFF | 0xFE => decide (2 ^ 20 < v % 2 ^ 20 + n)
  | 0xFD => decide (2 ^ 16 < v % 2 ^ 16 + n)
  | _ => false

-- The walk takes effect.

/-- Write a table entry at its home, as the walker's swap does (R171): no translation, so every L1D copy goes (R211). -/
def State.storePte (s : State) (addr pte : Nat) : State :=
  (s.perform (addr / 128) 0 (byteMask (addr % 128) 8) (putLine 0 (addr % 128) 8 pte)
    { agent := .launch 0, die := none, core := none, run := none, key := Key.zero, specid := none, eager := true,
      probes := false, restore := true, atHome := true }).2

/-- The translations of the owner core of a page go (R210), the one of its tile with it, so that its next access walks again. -/
def State.dropOwnerTlb (s : State) (owner base : Nat) : State :=
  { s with tlb := s.tlb.filter fun e =>
      !((e.unit == owner || e.unit == 2048 + owner / 8) && leafPa e.pte.toNat e.level 0 == base) }
/-- A core drops its L1D lines of a page (R210). -/
def State.dropPageL1 (s : State) (owner : Nat) (pg : Nat × Nat) : State :=
  { s with coh := { s.coh with l1 := s.coh.l1.filter fun l =>
      !(l.core == owner && !l.icache && decide (pg.1 ≤ l.line * 128) && decide (l.line * 128 < pg.1 + pg.2)) } }
/-- A page's private state ends (R210): the owner core drops its L1D lines of the page and its TLB entry. -/
def State.releasePrivate (s : State) (owner pte level : Nat) : State :=
  let pg := leafPage pte level
  let s := (s.dropOwnerTlb owner pg.1).dropPageL1 owner pg
  { s with coh := { s.coh with leaving := s.coh.leaving.filter fun x => x != (owner, pg.1, pg.2) } }
/-- The release of a private page begins while its owner core has fills under way: CLS becomes 2 at once, and the owner's next
access waits with the one that walks (R210) (log entry 70). -/
def State.beginRelease (s : State) (pte level addr : Nat) : State :=
  let owner := bitsOf pte 13 11
  let pg := leafPage pte level
  let s := (s.storePte addr (putField pte 11 2 2)).dropOwnerTlb owner pg.1
  { s with coh := { s.coh with leaving := s.coh.leaving ++ [(owner, pg.1, pg.2)] } }
/-- The releases of the pages around an address end, the owners having no fill under way. -/
def State.endReleases (s : State) (pa : Nat) : State :=
  (s.coh.leaving.filter fun x => decide (x.2.1 ≤ pa) && decide (pa < x.2.1 + x.2.2)).foldl (fun (s : State) x =>
    let s := s.dropPageL1 x.1 x.2
    { s with coh := { s.coh with leaving := s.coh.leaving.filter fun y => y != x } }) s
/-- What a stopped access leaves behind: the snoops that its home sends (R59), a release begun (R210), an error that a walk has
found in its table (R40, R168). Answers the trap, if it is one. -/
def State.stopped (s : State) (run : Option Nat) : Stop → Option Trap × State
  | .wait none => (none, s)
  | .wait (some (line, write)) => (none, (s.ready line run write).2)
  | .leave pte level addr => (none, s.beginRelease pte level addr)
  | .trap t => (some t, match t.cause, t.acc, t.pa with
      | .poison, .walk, some pa => s.homeRead (pa / 128) false
      | _, _, _ => s)

/-- The entries that a walk for a tile's agent reads on its way, from a table at a level down, with their levels and addresses. -/
def State.walkEntries (s : State) (tile run gen asid va : Nat) : Nat → Nat → List (Nat × Nat × Nat)
  | 0, _ => []
  | n + 1, table =>
    match (if n = 0 then none else s.cachedDir (dieOfTile tile) run gen asid n va) with
    | some e => s.walkEntries tile run gen asid va n (2 ^ 13 * (bitsOf e 13 39))
    | none =>
      let a := table + 8 * levelIndex n va
      let e := lineNat (s.walkLine tile run (a / 128)).1 (a % 128) 8
      (n, a, e) :: (if n = 0 || !bitOf e 0 || bitOf e 1 then [] else s.walkEntries tile run gen asid va n (2 ^ 13 * (bitsOf e 13 39)))

/-- A translation enters a TLB or a walk cache; where the 64 of a core, the 8 ways of one of a tile's 256 sets or the 512 of a
quadrant are taken, another goes (R173) (log entry 8). -/
def State.addTlb (s : State) (x : TlbEntry) : State :=
  let rest := s.tlb.filter fun e =>
    !(e.unit == x.unit && e.run == x.run && e.gen == x.gen && e.asid == x.asid && e.level == x.level && e.page == x.page)
  let mine := rest.filter fun e => e.unit == x.unit
  let set := if 2048 ≤ x.unit ∧ x.unit < 4096 then
      mine.filter fun e => Config.setIndex 4 e.page % 256 == Config.setIndex 4 x.page % 256
    else mine
  let most := if x.unit < 2048 then 64 else if x.unit < 4096 then 8 else 512
  if set.length < most then { s with tlb := rest ++ [x] }
  else match s.victim set with
    | some v => { s.free.2 with tlb := (rest.filter fun e => e != v) ++ [x] }
    | none => { s with tlb := rest ++ [x] }

/-- A located access is used: its walk writes A, D, CLS and OWNER back, its translation is installed, and the non-leaf entries
it read stay in the quadrant's walk cache (R171 to R173, R209, R210) (log entry 61). -/
def State.useWalk (s : State) (w : Who) (write : Bool) (l : Located) : State :=
  match l.walk with
  | none => s
  | some (pte, level, addr) =>
    let p := usedPte w write pte
    let sp := s.space w.run
    let quad := dieOfTile w.tile
    let read := s.walkEntries w.tile sp.2.1 sp.2.2.1 sp.2.2.2 l.part.va 4 sp.1
    let entry (unit level : Nat) (e : Nat) : TlbEntry :=
      { unit := unit, run := sp.2.1, gen := sp.2.2.1, asid := sp.2.2.2, page := l.part.va / 2 ^ levelShift level,
        level := level, pte := BitVec.ofNat 64 e }
    let s := read.foldl (fun (s : State) d => (s.walkLine w.tile sp.2.1 (d.2.1 / 128)).2.homeRead (d.2.1 / 128) false) s
    let s := if p = pte then s else s.storePte addr p
    let s := if w.releases pte then s.releasePrivate (bitsOf pte 13 11) pte level else s
    let s := s.endReleases (leafPa pte level l.part.va)
    let s := (read.filter fun d => d.2.1 != addr).foldl (fun (s : State) d => s.addTlb (entry (4096 + quad) d.1 d.2.2)) s
    (w.core.toList ++ [2048 + w.tile]).foldl (fun (s : State) u => s.addTlb (entry u level p)) s

/-- Whether an access writes, for D (R171). That a counter's read or wait and a failed compare, which write nothing, count as the
atomic access that they are reported as (R161) is the model's choice (log entry 78). -/
def Acc.writes : Acc → Bool
  | .write | .atomic => true
  | _ => false

/-- Locate several pieces in order: all of them, or the first that fails (R371). -/
def State.locateAll (s : State) (w : Who) (acc : Acc) : List (Nat × Nat) → Except Stop (List Located)
  | [] => .ok []
  | (va, n) :: r =>
    match s.locate w acc va n with
    | .error e => .error e
    | .ok l => match s.locateAll w acc r with
      | .error e => .error e
      | .ok ls => .ok (l :: ls)

/-- Use every piece. -/
def State.useAll (s : State) (w : Who) (acc : Acc) (ls : List Located) : State :=
  ls.foldl (fun s l => s.useWalk w acc.writes l) s

/-- The pieces of n bytes from va, one for each line they touch. -/
def pieces (va n : Nat) : List (Nat × Nat) :=
  let va := va % 2 ^ 56
  if n = 0 then []
  else
    let first := va / 128
    let last := (va + n - 1) / 128
    (List.range (last - first + 1)).map fun i =>
      let lo := if i = 0 then va else (first + i) * 128
      let hi := if first + i = last then va + n else (first + i + 1) * 128
      (lo % 2 ^ 56, hi - lo)

/-- A DESTROY of a key slot is in progress: accesses that name it wait (R46). -/
def State.keyHeld (s : State) (k : Nat) : Bool := bitOf (s.reg 0x038) 63 && bitsOf (s.reg 0x038) 4 4 == k
/-- A copy on the chip under another key slot, which would be written back first, waits for the layout (R20, R44). -/
def State.otherKey (s : State) (p : Part) : Bool :=
  !s.locked && (Sparse.get? s.mem.chip (p.pa / 128)).any fun c => c.key != p.key
/-- A part of an access can be performed now: its key slot is not being destroyed (R46), its home serves it (R20, R59, R120), and the
device holds a system-space line that it may cache (R53). -/
def State.partReady (s : State) (run : Option Nat) (write : Bool) (p : Part) : Bool × State :=
  match p.place with
  | .stash _ => (true, s)
  | .line => if s.keyHeld p.key || s.otherKey p then (false, s) else s.ready (p.pa / 128) run write
  | .system =>
    let r := s.ready (p.pa / 128) run write
    if !r.1 || p.bias || p.remote then r else r.2.sysReady (p.pa / 128) write

/-- Every part can be performed now. -/
def State.allReady (s : State) (run : Option Nat) (write : Bool) : List Part → Bool × State
  | [] => (true, s)
  | p :: r =>
    let x := s.partReady run write p
    if x.1 then x.2.allReady run write r else (false, x.2)

end Sys2Proof.Machine
end

