-- ==== Sys2Proof/Machine/Access.lean ====
section
/-! DEFINITION. Accesses of threads: when a load may be bound and a store performed (R243 to R249), reading parts of
lines through the caches, mapped stash ranges (R201), stores and atomics at their serialising points (R239, R384), undo
logs (R142, R143), and the checks of R371. -/
namespace Sys2Proof.Machine
open Sys2Proof

/-- Scopes in order (R1). -/
def scopeNum : Scope → Nat
  | .thread => 0 | .core => 1 | .tile => 2 | .quad => 3 | .dev => 4 | .sys => 5
/-- The scope is .dev or wider. -/
def devScope (sc : Scope) : Bool := 4 ≤ scopeNum sc

-- Stash storage.

/-- Byte address of an offset in a tile's stash. -/
def stashAddr (tile off : Nat) : Nat := 2 ^ 20 * tile + off % 2 ^ 20
/-- A stash line's number. -/
def stashLine (tile off : Nat) : Nat := 8192 * tile + off % 2 ^ 20 / 128
/-- n bytes of a stash as a number. -/
def State.stashNat (s : State) (tile off n : Nat) : Nat :=
  packElems 8 ((List.range n).map fun i => (cellRead s.stash.cells (stashAddr tile off + i)).toNat)
/-- The stash line that holds an offset. -/
def State.stashData (s : State) (tile off : Nat) : Line :=
  lineOf fun i => cellRead s.stash.cells (stashAddr tile (off / 128 * 128) + i)
/-- Write masked bytes of a stash line; a store of the whole line clears its poison (R42). -/
def State.stashWrite (s : State) (tile off : Nat) (mask : Line) (data : Line) : State :=
  let base := off / 128 * 128
  { s with stash := { s.stash with
      cells := cellsWrite s.stash.cells (stashAddr tile base) (lineBytes (mergeLine mask (s.stashData tile base) data)),
      poison := if mask == BitVec.allOnes 1024 then s.stash.poison.filter (· != stashLine tile off) else s.stash.poison } }

/-- A mapping applies to the accesses of threads, Porter jobs and matrix jobs (R200) (log entry 60). -/
def Agent.usesMaps : Agent → Bool
  | .thread _ | .porter _ _ | .matrix _ => true
  | .lodge _ | .launch _ | .host => false
/-- The mapping of a run on a tile that a global VA falls in, and the stash offset it gives (R200); a mapping that a service
slot made has run tag 16 (log entry 60). -/
def State.mapped (s : State) (w : Who) (va : Nat) : Option (Mapping × Nat) :=
  match s.stash.maps.find? fun m => m.tile == w.tile && m.run == w.run.getD 16 && decide (m.vbase ≤ va) &&
      decide (va < m.vbase + 4096 * m.pages) && w.agent.usesMaps with
  | some m => some (m, m.soff + (va - m.vbase))
  | none => none

/-- A mapped line, when it is not invalid. -/
def State.mapLine? (s : State) (tile off : Nat) : Option MapLine :=
  s.stash.lines.find? fun l => l.tile == tile && l.off == off / 128 * 128
/-- Make a mapped line invalid. -/
def State.dropMapLine (s : State) (tile off : Nat) : State :=
  { s with stash := { s.stash with lines := s.stash.lines.filter fun l => !(l.tile == tile && l.off == off / 128 * 128) } }

/-- The mapped line that an access goes through, where it holds what the access names (R201). -/
def State.mapHit (s : State) (w : Who) (p : Part) : Option MapLine :=
  if p.remote then none
  else match s.mapped w p.va with
    | some (_, off) => match s.mapLine? w.tile off with
      | some l => if l.key = p.key ∧ l.pa = p.pa / 128 then some l else none
      | none => none
    | none => none

/-- Write a dirty mapped line back to its tagged address, from where it stays clean (R203). The collapses that this causes are
charged to those whose stores stand in the line, and to the agent that asks for the write-back (R232, R251). The hint is that of the
instruction that writes it back, 0 for any other cause (R396). -/
def State.cleanMapLine (s : State) (tile off : Nat) (asker : List Agent) (hint : BitVec 3 := 0) : State :=
  match s.mapLine? tile off with
  | none => s
  | some l =>
    if !l.dirty then s
    else
      let s : State := { s with stash := { s.stash with lines := s.stash.lines.map fun x =>
        if x.tile == tile && x.off == l.off then { x with dirty := false, by_ := [], held := [] } else x } }
      let st : Storer :=
        { agent := .lodge tile, die := some (dieOfTile tile), core := none, run := none, key := Key.zero, specid := none,
          eager := l.cls.eager, probes := false, restore := false, atHome := false, via := some (tile, l.off),
          back := some (s.mapPoison l), hint := hint, charge := l.by_ ++ asker.filter fun a => !l.by_.contains a }
      (s.perform l.pa l.key (BitVec.allOnes 1024) (s.mapData l) st).2
/-- The dirty mapped lines of a tile. -/
def State.dirtyLines (s : State) (tile : Nat) : List MapLine := s.stash.lines.filter fun l => l.tile == tile && l.dirty
/-- A release of scope .quad or wider by an agent writes back the dirty mapped lines of its tile (R247, R248). -/
def State.cleanTile (s : State) (a : Agent) (tile : Nat) (scope : Scope) : State :=
  if 3 ≤ scopeNum scope then (s.dirtyLines tile).foldl (fun (s : State) (l : MapLine) => s.cleanMapLine tile l.off [a]) s
  else s
/-- A line leaves the mapping of a tile: written back where dirty, then invalid. -/
def State.evictMapLine (s : State) (tile off : Nat) (asker : List Agent) : State :=
  (s.cleanMapLine tile off asker).dropMapLine tile off

/-- Fill an invalid mapped line from its home as a FULL read; the tile becomes a sharer, and poison comes with the data (R41,
R201, R219). A line of system space is noted by the Itinerary (R286). -/
def State.fillMapLine (s : State) (w : Who) (m : Mapping) (p : Part) (off : Nat) : State :=
  if (s.mapHit w p).isSome then s
  else
    let s := s.evictMapLine w.tile off []
    let line := p.pa / 128
    let r := s.readHomeAs { agent := w.agent, core := none, icache := false, tile := w.tile, line := line, key := p.key, cls := p.cls,
                            view := .full, src := .none, sub := false, priv := false, alloc := false, hint := 0, mapped := true } m.upd
    let x : MapLine := { tile := w.tile, off := off / 128 * 128, pa := line, key := p.key, cls := p.cls, dirty := false,
                         upd := m.upd, by_ := [], held := [], level := p.level }
    let d := if p.place == Place.system then r.2.2.itinHostRead w.run w.tile line r.1 else (r.1, r.2.2)
    let s : State := { d.2 with stash := { d.2.stash with lines := d.2.stash.lines ++ [x] } }
    let s := s.stashWrite w.tile off (BitVec.allOnes 1024) d.1
    if s.poisoned line then { s with stash := { s.stash with poison := insertNat s.stash.poison (stashLine w.tile off) } } else s

-- What a thread is, to the memory system.

/-- The speculation id of a thread's task, where it holds a commit-queue entry (R131). -/
def State.specidOf (s : State) (th : Nat) (t : Thread) : Option Nat :=
  match t.entry with
  | none => none
  | some n => (Sparse.get? (s.lodge (tileOf th)).cq n).map fun e => e.id (tileOf th) n

/-- The storer a thread is, for a class of page (R137, R211, R231). -/
def State.threadStorer (s : State) (th : Nat) (t : Thread) (cls : Cls) (hint : BitVec 3) : Storer :=
  let phys := t.task.isNone
  { agent := .thread th, die := if phys then none else some (dieOfTile (tileOf th)),
    core := if phys then none else some (coreOf th), run := t.task.map fun k => k.run, key := t.key,
    specid := s.specidOf th t, eager := cls.eager, probes := cls == .t, restore := phys, atHome := phys, hint := hint }

/-- In-flight stores of a thread. -/
def State.storesOf (s : State) (th : Nat) : List PendStore := s.stores.filter fun x => x.agent == .thread th
/-- Lazy collapses charged to an agent (R232). -/
def State.charged (s : State) (a : Agent) : Bool := s.coh.collapses.any fun c => c.charged.contains a

/-- The line of a part, stash lines apart from global ones. -/
def Part.home (p : Part) : Nat :=
  match p.place with
  | .stash t => 2 ^ 52 + stashLine t p.pa
  | _ => p.pa / 128
/-- The weaker of two classes (R245). -/
def Cls.weaker (a b : Cls) : Cls :=
  match a, b with
  | .u, _ => .u | _, .u => .u | .r, _ => .r | _, .r => .r | .t, .t => .t
/-- The class an instruction is ordered by. -/
def weakest (ps : List Part) : Cls := ps.foldl (fun c p => c.weaker p.cls) .t
/-- An access to memory, which a fence orders. -/
def Outstanding.isMem (o : Outstanding) : Bool := !o.parts.isEmpty
/-- An access ordered as one to a T page (R243, R245). -/
def Outstanding.isT (o : Outstanding) : Bool := o.isMem && weakest o.parts == .t
/-- Two accesses touch one line. -/
def Outstanding.touches (o : Outstanding) (line : Nat) : Bool := o.parts.any fun p => p.home == line
/-- An operation that changes memory. -/
def Outstanding.isRmw (o : Outstanding) : Bool :=
  match o.kind with
  | .atom .. | .ctrArrive .. => true
  | _ => false
/-- An operation that its line's home performs (R384, R388). -/
def Outstanding.atHome (o : Outstanding) : Bool :=
  o.isRmw || (match o.kind with | .ctrRead => true | _ => false)
/-- What its accesses are (R161). -/
def Outstanding.acc (o : Outstanding) : Acc := if o.atHome then .atomic else .read

/-- Every access of a thread before a sequence number is performed at its serialising point. -/
def State.earlierDone (s : State) (th : Nat) (t : Thread) (seq : Nat) : Bool :=
  (t.outs.all fun o => !o.isMem || seq ≤ o.seq) && ((s.storesOf th).all fun x => seq ≤ x.seq)
/-- Everything of a thread before a sequence number is performed with respect to a scope (R247, R248). -/
def State.before (s : State) (th : Nat) (t : Thread) (seq : Nat) (sc : Scope) : Bool :=
  s.earlierDone th t seq && !(decide (3 ≤ scopeNum sc) && !(s.dirtyLines (tileOf th)).isEmpty) &&
    !(devScope sc && s.charged (.thread th))
/-- A release about to be performed has its tile's dirty mapped lines written back, once what precedes it is performed. -/
def State.cleanBefore (s : State) (th seq : Nat) (rel : Option Scope) : State :=
  match rel, s.thread? th with
  | some sc, some t => if s.earlierDone th t seq then s.cleanTile (.thread th) (tileOf th) sc else s
  | _, _ => s

/-- The barriers that stand before an access: earlier acquires not yet bound (a jpoll among them, R254), and fences whose earlier
loads are not all bound (R248, R249). -/
def Thread.clearOf (t : Thread) (seq : Nat) : Bool :=
  t.outs.all fun o => seq ≤ o.seq ||
    (o.acq.isNone && (!o.isMem || t.fences.all fun f => !(decide (o.seq < f) && decide (f ≤ seq))))

/-- An operation comes before another in S (R253): by window, then by core, then by program order (the slots of one core in their
order, log entry 71). -/
def ScOp.before (a b : ScOp) : Bool :=
  decide (a.window < b.window) || (a.window == b.window &&
    (decide (a.th < b.th) || (a.th == b.th && decide (a.seq < b.seq))))
/-- An operation takes its place in S as it issues (R253). -/
def State.enterS (s : State) (th seq : Nat) : State :=
  if s.scOps.any fun o => o.th == th && o.seq == seq then s
  else { s with scOps := s.scOps ++ [{ window := s.cycle / 16, th := th, seq := seq }] }
/-- An operation leaves S. -/
def State.leaveS (s : State) (th seq : Nat) : State :=
  { s with scOps := s.scOps.filter fun o => !(o.th == th && o.seq == seq) }
/-- An operation is performed at its serialising point; it leaves S once its collapses are acknowledged (R253). -/
def State.doneS (s : State) (th seq : Nat) : State :=
  { s with scOps := s.scOps.map fun o => if o.th == th && o.seq == seq then { o with done := true } else o }
/-- An operation is not yet performed with respect to .dev: collapses that it waits for are among those that its thread waits for. -/
def State.openInS (s : State) (o : ScOp) : Bool := !o.done || s.charged (.thread o.th)
/-- A thread waits for an operation of its own, in flight or performed, and so issues nothing (R253). -/
def State.waitsInS (s : State) (th : Nat) : Bool :=
  (s.storesOf th).any (fun x => x.sc) || s.scOps.any fun o => o.th == th && o.done && s.openInS o
/-- A thread issues again: its operations that are performed with respect to .dev leave S. -/
def State.settleS (s : State) (th : Nat) : State :=
  if s.scOps.any fun o => o.th == th && !s.openInS o then { s with scOps := s.scOps.filter fun o => !(o.th == th && !s.openInS o) } else s
/-- Every operation earlier in S is performed with respect to .dev: the window has ended, and none stands before it (R253). -/
def State.turnInS (s : State) (th seq : Nat) : Bool :=
  match s.scOps.find? fun o => o.th == th && o.seq == seq with
  | none => true
  | some o => decide (o.window < s.cycle / 16) && s.scOps.all fun x => !(x.before o && s.openInS x)

/-- Nothing earlier of the thread that touches the lines of a read still comes before it: in-flight plain stores are forwarded to it,
but to an operation at the home (R240). -/
def State.linesClear (s : State) (th : Nat) (t : Thread) (o : Outstanding) : Bool :=
  (t.outs.all fun p => o.seq ≤ p.seq || !(o.parts.any fun x => p.touches x.home)) &&
    ((s.storesOf th).all fun x => o.seq ≤ x.seq || !o.touches x.part.home || (x.op == .write && !o.atHome))
/-- An outstanding result may be delivered now, as far as the thread's own order and S go (R240, R243 to R245, R248, R249,
R253). -/
def State.mayBind (s : State) (th : Nat) (t : Thread) (o : Outstanding) : Bool :=
  !o.isMem ||
    (t.clearOf o.seq && s.linesClear th t o &&
     (!o.isT ||
       ((t.outs.all fun p => o.seq ≤ p.seq || !p.isT) &&
        ((s.storesOf th).all fun x => o.seq ≤ x.seq || x.cls != .t) && !s.charged (.thread th))) &&
     (!o.sc || s.turnInS th o.seq) &&
     (match o.rel with | some sc => s.before th t o.seq sc | none => true))

/-- An in-flight store may be performed now (R240, R243, R244, R248, R249, R253). -/
def State.mayPerform (s : State) (x : PendStore) : Bool :=
  (s.stores.all fun y => y.id != x.after || y.id == x.id) &&
  (match x.agent with
   | .thread th =>
     (s.stores.all fun y => y.agent != x.agent || x.seq ≤ y.seq || y.part.home != x.part.home) &&
     (match s.thread? th with
      | none => true
      | some t =>
        t.clearOf x.seq &&
        (t.outs.all fun o => x.seq ≤ o.seq || !o.touches x.part.home) &&
        (!(x.cls == .t) || s.before th t x.seq .dev) &&
        (!x.sc || s.turnInS th x.seq) &&
        (match x.rel with | some sc => s.before th t x.seq sc | none => true))
   | _ => true)

-- The scope checker (R283).

/-- The scope checker is on. -/
def State.checking (s : State) : Bool := bitOf (s.reg 0x620) 63
/-- The 8-byte words that a part touches, numbered over the package's homes. -/
def Part.words (p : Part) : List Nat :=
  ((List.range 16).filter fun i => decide (i * 8 < p.pa % 128 + p.len) && decide (p.pa % 128 < i * 8 + 8)).map fun i => p.home * 16 + i
/-- A store tags its words with its release scope, or clears their tags. -/
def State.tagStore (s : State) (p : Part) (rel : Option Scope) (w : Who) : State :=
  if !s.checking || p.cls != .r then s
  else
    let keep := s.coh.scopeTags.filter fun t => !(p.words.contains t.word)
    let new := match rel with
      | none => []
      | some sc => p.words.map fun i => ({ word := i, scope := sc, th := w.th, engine := w.core.isNone } : ScopeTag)
    { s with coh := { s.coh with scopeTags := keep ++ new } }
/-- Two agents, by the thread slots that stand for them, lie in one instance of a scope (R1). -/
def sameInstance (sc : Scope) (a b : Nat) : Bool :=
  match sc with
  | .thread => a == b
  | .core => coreOf a == coreOf b
  | .tile => tileOf a == tileOf b
  | .quad => dieOfTile (tileOf a) == dieOfTile (tileOf b)
  | .dev | .sys => true
/-- The core id that SCOPE_REC shows: 0x7FF for an engine or the host. -/
def shownCore (th : Nat) (engine : Bool) : Nat := if engine then 0x7FF else coreOf th % 2048
/-- An acquire that reads tagged words is checked at each; a failure is counted and the first is latched. -/
def State.checkAcquire (s : State) (p : Part) (acq : Option Scope) (w : Who) : State :=
  match acq with
  | none => s
  | some a =>
    if !s.checking || p.cls != .r then s
    else (s.coh.scopeTags.filter fun t => p.words.contains t.word).foldl (fun (s : State) t =>
      if sameInstance t.scope t.th w.th && sameInstance a t.th w.th then s
      else
        let v := s.reg 0x620
        let s := if bitOf v 62 then s else s.setReg 0x621
          (2 ^ 61 * (scopeNum t.scope) + 2 ^ 58 * (scopeNum a) + 2 ^ 47 * shownCore t.th t.engine +
            2 ^ 36 * shownCore w.th w.core.isNone + p.pa / 2 ^ 16)
        s.setReg 0x620 (satField (putField v 62 1 1) 0 32 1)) s

-- Collapses that follow happens-before (R232, R251).

/-- A fence that a thread has executed makes a release of its later stores (R250): the scope at which a store of its own releases. -/
def State.releases (s : State) (a : Agent) (rel : Option Scope) : Option Scope :=
  match rel, a with
  | some sc, _ => some sc
  | none, .thread th => (s.thread? th).bind fun t => t.fenceScope
  | none, _ => none
/-- A release leaves with the words it writes the collapses that its agent still waits for, so that an acquire that synchronises with
it waits for the same (R250, R251). An atomic goes on with what its words carry, as a release sequence does, and so does a word that a
stale copy may still serve, whatever is stored to it (log entry 72). -/
def State.carryOut (s : State) (w : Who) (p : Part) (rel : Option Scope) (rmw : Bool) : State :=
  let line := p.pa / 128
  let stale := rmw || s.coh.collapses.any fun c => c.line == line
  let keep := if stale then s.coh.carries else s.coh.carries.filter fun c => !p.words.contains c.word
  let due := (s.coh.collapses.filter fun c => c.charged.contains w.agent).map fun c => (c.quad, c.line)
  let new : List Carry := match s.releases w.agent rel with
    | some sc => if due.isEmpty then [] else p.words.map fun i => { word := i, scope := sc, th := w.th, due := due }
    | none => []
  if new.isEmpty && keep.length == s.coh.carries.length then s
  else { s with coh := { s.coh with carries := keep ++ new } }
/-- An acquire, or a fence, synchronises with a release that left this (R250). -/
def Carry.meets (c : Carry) (acq : Scope) (th : Nat) : Bool := sameInstance c.scope c.th th && sameInstance acq c.th th
/-- What a release left is still to be waited for. -/
def State.carryDue (s : State) (c : Carry) : Bool := s.coh.collapses.any fun x => c.due.contains (x.quad, x.line)
/-- An agent waits for the collapses that releases left and that are not yet acknowledged. -/
def State.takeCarries (s : State) (a : Agent) (cs : List Carry) : State :=
  if cs.isEmpty then s else s.chargeWith a fun x => cs.any fun c => c.due.contains (x.quad, x.line)
/-- An agent has read words: its acquire takes what the releases it synchronises with left there, and a thread notes the rest for a
fence after the read (R250, R251). -/
def State.carryIn (s : State) (w : Who) (p : Part) (acq : Option Scope) : State :=
  let got := s.coh.carries.filter fun c => p.words.contains c.word && s.carryDue c
  if got.isEmpty then s
  else
    let mine (c : Carry) : Bool := acq.any fun sc => c.meets sc w.th
    let s := s.takeCarries w.agent (got.filter mine)
    match w.agent with
    | .thread th => s.onThread th fun t => { t with seen := (t.seen.filter s.carryDue) ++ got.filter fun c => !mine c && !t.seen.contains c }
    | _ => s
/-- A fence is an acquire of its scope for the reads before it (R249, R250). -/
def State.fenceCarries (s : State) (th : Nat) (t : Thread) (scope : Scope) : State :=
  s.takeCarries (.thread th) (t.seen.filter fun c => c.meets scope th)
/-- A thread as a fence leaves it: earlier loads not yet bound order what follows, and the fence is a release for the stores after it
(R249, R250). -/
def State.fencedThread (s : State) (th : Nat) (t : Thread) (scope : Scope) : Thread :=
  { t with fences := t.fences ++ [t.seq], seq := t.seq + 1,
           seen := t.seen.filter fun c => s.carryDue c && !c.meets scope th,
           fenceScope := some (match t.fenceScope with
             | some f => if scopeNum scope < scopeNum f then f else scope
             | none => scope) }
/-- The fence that has been executed since a load was issued: an acquire for that load too (R249). -/
def Thread.fenceOver (t : Thread) (seq : Nat) : Option Scope := if t.fences.any fun f => decide (seq < f) then t.fenceScope else none
/-- What an agent that has read a part learns: its acquire is checked (R283), and it waits for what a release left there, as a fence
after the read makes it do too (R249, R250). -/
def State.acquired (s : State) (w : Who) (p : Part) (acq fence : Option Scope) : State :=
  let s := (s.checkAcquire p acq w).carryIn w p acq
  match fence with
  | none => s
  | some _ => s.carryIn w p fence
/-- What one agent waits for, another waits for from now on (R251, R254). -/
def State.passCharges (s : State) (a b : Agent) : State := s.chargeWith b fun c => c.charged.contains a

-- Reading.

/-- Bytes the thread itself has stored and that are not yet performed, over a line it reads (R240). -/
def State.forward (s : State) (th seq : Nat) (home : Nat) (x : Line) : Line :=
  (s.storesOf th).foldl (fun x y =>
    if y.seq < seq ∧ y.part.home = home ∧ y.op = .write then mergeLine y.mask x y.data else x) x

/-- A part's line is poisoned, so that a read of it traps (R41) (log entry 63): in a stash, in the mapped line it goes through, or
at its home. -/
def State.partPoisoned (s : State) (w : Who) (p : Part) : Bool :=
  match p.place with
  | .stash t => s.stash.poison.contains (stashLine t p.pa)
  | _ => match s.mapHit w p with
    | some l => s.mapPoison l
    | none => s.poisonedAt (p.pa / 128)
/-- An operation at the home finds the part poisoned (R41). -/
def State.homePoisoned (s : State) (w : Who) (p : Part) : Bool :=
  s.partPoisoned w p || (match p.place with | .stash _ => false | _ => (s.mapHit w p).isNone && s.readsPoison (p.pa / 128))

/-- Data written at a part is poisoned: the line it was written to becomes so, which is a new poisoning only where it was not
poisoned just before the write (R40, R41). An aperture line of a stash, which has no physical address, is recorded as the line
of its tile and offset from 0 (log entry 73). -/
def State.poisonPart (s : State) (w : Who) (p : Part) (was : Bool) : State :=
  let stash (s : State) (n line : Nat) : State :=
    let s : State := { s with stash := { s.stash with poison := insertNat s.stash.poison n } }
    if was then s else s.newPoison line
  match p.place with
  | .stash t => stash s (stashLine t p.pa) (stashLine t p.pa)
  | _ => match s.mapHit w p with
    | some l =>
      let s := stash s (stashLine l.tile l.off) l.pa
      if l.dirty then s else s.setPoison l.pa
    | none =>
      let s := s.setPoison (p.pa / 128)
      if was then s else s.newPoison (p.pa / 128)

/-- What a read does in the Lodge of a speculative task: the line enters a read filter, and the home marks the tile
(R133, R135). -/
def State.trackRead (s : State) (tile run : Nat) (specid : Option Nat) (line : Nat) (f : View) : State :=
  match specid with
  | none => s
  | some id => (s.onEntry id fun e => e.enterRead line f).markSpec tile run line false

/-- Read the line of a part for an agent: stash, mapped range, system space or caches. view and src are FULL for a plain
load. A read of a T page by a task first makes later writers abort (R139). -/
def State.readPart (s : State) (w : Who) (key : Key) (specid : Option Nat) (p : Part) (view : View) (src : Ty) (hint : BitVec 3)
    (track : Bool) : Line × State :=
  let line := p.pa / 128
  match p.place with
  | .stash t => (s.stashData t p.pa, s)
  | _ =>
    let s := match w.run with
      | some r => if p.cls == Cls.t then s.loadProbe line r key specid else s
      | none => s
    let spec := if p.cls == Cls.t && track && !p.remote then specid else none
    let run := w.run.getD 16
    if p.remote || (p.place == Place.system && p.bias) then
      let s := (s.recallStash line none).rekey line p.key
      let s := if p.place == Place.system then s.recallOwner line else s.homeRead line false
      (if p.place == Place.system then s.itinHostRead w.run w.tile line (s.lineAt line p.key) else (s.lineAt line p.key, s))
    else match s.mapped w p.va with
      | some (m, off) =>
        let s := (s.mustSee w.agent w.tile line (some (w.tile, off / 128 * 128))).fillMapLine w m p off
        (s.stashData w.tile off, s.trackRead w.tile run spec line .full)
      | none =>
        let r := s.readLine { agent := w.agent, core := w.core, icache := false, tile := w.tile, line := line, key := p.key,
                              cls := p.cls, view := view, src := src, sub := p.sub && p.place == Place.line, priv := p.priv,
                              alloc := true, hint := hint }
        if p.place == Place.system then r.2.2.itinHostRead w.run w.tile line r.1
        else (r.1, r.2.2.trackRead w.tile run spec line r.2.1)

-- Undo logs (R142, R143).

/-- The aligned 8-byte words of a line that a mask touches, in rising address. -/
def maskWords (mask : Line) : List Nat :=
  (List.range 16).filter fun i => (mask >>> (64 * i)).setWidth 64 != 0#64

/-- Store n bytes of a located part for an agent of the device that is no part of the memory model (R144): the log and spill
areas. -/
def State.plainStore (s : State) (a : Agent) (tile : Nat) (p : Part) (v : Nat) : State :=
  let mask := byteMask (p.pa % 128) p.len
  let data := putLine 0 (p.pa % 128) p.len v
  match p.place with
  | .stash t => s.stashWrite t p.pa mask data
  | _ =>
    let out := p.place == Place.system && p.bias
    (s.perform (p.pa / 128) p.key mask data { plainStorer a (some tile) p.cls with uncached := out, atHome := out }).2

/-- Write log entry k: to the Lodge and to the log area (R142, R144). -/
def State.putLog (s : State) (tile specid k : Nat) (area : Part) (pa dkey old : Nat) : State :=
  let s := s.onEntry specid fun e => { e with log := e.log.set k { pa := pa, key := dkey, old := BitVec.ofNat 64 old, valid := true } }
  s.plainStore (.lodge tile) tile { area with pa := area.pa + 16 * k, len := 16 } (pa + 2 ^ 64 * old)

/-- Fill the log entries reserved for the words a mask touches with the values they had. -/
def State.fillLog (s : State) (tile : Nat) (specid : Option Nat) (log : Option (Nat × Part)) (line dkey : Nat) (mask : Line)
    (old : Line) : State :=
  match log, specid with
  | some (k, area), some id =>
    ((maskWords mask).foldl (fun (a : Nat × State) i =>
      (a.1 + 1, a.2.putLog tile id a.1 area (line * 128 + 8 * i) dkey (lineNat old (8 * i) 8))) (k, s)).2
  | _, _ => s

-- Writing.

/-- A store of a speculative task to a T page enters the write filter and marks the tile (R133, R135). -/
def State.trackWrite (s : State) (tile run : Nat) (specid : Option Nat) (line : Nat) (alsoRead : Bool) : State :=
  match specid with
  | none => s
  | some id =>
    let s := s.onEntry id fun e => if alsoRead then (e.enterWrite line).enterFull line else e.enterWrite line
    let s := s.markSpec tile run line true
    if alsoRead then s.markSpec tile run line false else s

/-- Change a mapped line. -/
def State.onMapLine (s : State) (tile off : Nat) (f : MapLine → MapLine) : State :=
  { s with stash := { s.stash with lines := s.stash.lines.map fun l => if l.tile == tile && l.off == off / 128 * 128 then f l else l } }

/-- Perform masked bytes at a part's serialising point (R239): stash, mapped line, or home. Answers the old line. A map-remote
access enters no filter (R166). -/
def State.writePart (s : State) (w : Who) (st : Storer) (p : Part) (mask : Line) (data : Line) (rmw : Bool) : Line × State :=
  let line := p.pa / 128
  match p.place with
  | .stash t =>
    let old := s.stashData t p.pa
    let s := s.stashWrite t p.pa mask data
    let mark := match w.run with
      | some r => if p.va / 2 ^ 48 = 0xFF ∧ !s.stash.touched.contains (t, r) then [(t, r)] else []
      | none => []
    (old, { s with stash := { s.stash with touched := s.stash.touched ++ mark } })
  | _ =>
    let spec := if p.cls == Cls.t && !p.remote then st.specid else none
    let st := { st with specid := if p.cls == Cls.t then st.specid else none, rmw := rmw,
                        uncached := p.place == Place.system && p.bias,
                        atHome := st.atHome || rmw || p.remote || (p.place == Place.system && p.bias) }
    let home (s : State) (st : Storer) : Line × State :=
      let r := s.perform line p.key mask data st
      (r.1, r.2.trackWrite w.tile (w.run.getD 16) spec line rmw)
    match (if p.remote || st.uncached then none else s.mapped w p.va) with
    | none => home s st
    | some (m, off) =>
      if rmw then home (s.evictMapLine w.tile off [w.agent]) st
      else
        let s := s.fillMapLine w m p off
        if p.cls == Cls.t then
          let r := home s { st with via := some (w.tile, off / 128 * 128) }
          (r.1, r.2.stashWrite w.tile off mask data)
        else
          let old := s.stashData w.tile off
          let s := s.stashWrite w.tile off mask data
          (old, s.onMapLine w.tile off fun l =>
            { l with dirty := true, by_ := if l.by_.contains w.agent then l.by_ else l.by_ ++ [w.agent] })

/-- A write at its serialising point, with what it leaves for those who read it: the scope checker's tags, and, of a release, the
collapses that its agent still waits for, its own among them. -/
def State.taggedWrite (s : State) (w : Who) (st : Storer) (p : Part) (mask : Line) (data : Line) (rel : Option Scope)
    (rmw : Bool) : Line × State :=
  let r := s.writePart w st p mask data rmw
  let s := r.2.carryOut w p rel rmw
  (r.1, if rmw && rel.isNone then s else s.tagStore p rel w)

/-- The new value of an atomic (R385, R386), on w-bit patterns. -/
def atomNew (op : AtomOp) (ty : Ty) (old b c : Nat) : Nat :=
  let w := ty.fixedWidth
  let o := valOf ty (BitVec.ofNat 64 old)
  let v := valOf ty (BitVec.ofNat 64 b)
  match op with
  | .add => match ty with
    | .f32 => f32Add (old % 2 ^ 32) (b % 2 ^ 32)
    | .bf16 => bf16Add (old % 2 ^ 16) (b % 2 ^ 16) + 2 ^ 16 * bf16Add (bitsOf old 16 16) (bitsOf b 16 16)
    | _ => patternOf w (o + v)
  | .min => patternOf w (if v < o then v else o)
  | .max => patternOf w (if o < v then v else o)
  | .and => (old &&& b) % 2 ^ w
  | .or => (old ||| b) % 2 ^ w
  | .xor => (old ^^^ b) % 2 ^ w
  | .swap => b % 2 ^ w
  | .cas => if old % 2 ^ w = b % 2 ^ w then c % 2 ^ w else old % 2 ^ w

/-- Bytes an atomic's type moves: bf16 acts on a 4-byte word (R386). -/
def atomBytes (ty : Ty) : Nat := match ty with | .bf16 => 4 | t => t.fixedWidth / 8

/-- A saturating counter addition (R390). -/
def ctrSum (old d : Nat) : Nat := Nat.min (old + d) (2 ^ 64 - 1)

/-- A part's line as an operation at its serialising point finds it (R226, R384): the mapped copy of the agent's own tile has gone,
modified copies have come home, later writers of a T page have aborted (R139), ownership is recalled, the L1D copy of the agent's
core is gone (R208). A line of system space
is noted by the Itinerary (R286). -/
def State.homeLine (s : State) (w : Who) (st : Storer) (p : Part) : Line × State :=
  let line := p.pa / 128
  match p.place with
  | .stash t => (s.stashData t p.pa, s)
  | _ =>
    let s := match (if p.remote then none else s.mapped w p.va) with
      | some (_, off) => s.evictMapLine w.tile off [w.agent]
      | none => s
    let s := (s.recallStash line none).rekey line p.key
    let s := match st.run with
      | some r => if p.cls == Cls.t && st.probes then s.loadProbe line r st.key st.specid else s
      | none => s
    let s := if p.place == Place.system && p.bias then s.recallOwner line else (s.homeRead line true).hostHold line false
    let s : State := { s with coh := { s.coh with l1 := s.coh.l1.filter fun l => !(l.line == line && w.core == some l.core && !l.icache) } }
    let s := s.chargeWith w.agent fun c => c.line == line
    if p.place == Place.system then s.itinHostRead w.run w.tile line (s.lineAt line p.key) else (s.lineAt line p.key, s)

/-- Read, compute and write n bytes in one step at the serialising point (R384, R388): answers the old bytes. A speculative
task's log entry is then written (R384). -/
def State.rmwPart (s : State) (w : Who) (st : Storer) (p : Part) (f : Nat → Nat) (log : Option (Nat × Part))
    (rel : Option Scope) : Nat × State :=
  let x := s.homeLine w st p
  let o := p.pa % 128
  let old := lineNat x.1 o p.len
  let r := x.2.taggedWrite w st p (byteMask o p.len) (putLine 0 o p.len (f old)) rel true
  (old, r.2.fillLog w.tile st.specid log (p.pa / 128) p.key (byteMask o p.len) x.1)

/-- An operation at the home meets an error of the memory there, which makes its line poisoned (R36). -/
def State.meetHome (s : State) (t : Trap) (p : Part) : State :=
  if t.cause == .poison && p.place == Place.line then s.homeRead (p.pa / 128) true else s
/-- A performed store that still awaits a collapse or the write-back of its mapped line is kept for the core dump (R284).
-/
def State.holdStore (s : State) (x : PendStore) : State :=
  match x.part.place with
  | .line =>
    { s with
      coh := { s.coh with collapses := s.coh.collapses.map fun c =>
        if c.line == x.part.pa / 128 && c.charged.contains x.agent then { c with held := c.held ++ [x] } else c },
      stash := { s.stash with lines := s.stash.lines.map fun l =>
        if l.pa == x.part.pa / 128 && l.dirty && x.op == .write then { l with held := l.held ++ [x] } else l } }
  | _ => s

/-- The tile of an agent. -/
def Agent.tile : Agent → Nat
  | .thread th => tileOf th
  | .porter t _ | .matrix t | .lodge t => t
  | _ => 0
/-- The accessing agent that an in-flight store stands for. -/
def PendStore.who (x : PendStore) : Who :=
  let core : Option Nat := match x.agent with | .thread th => some (coreOf th) | _ => none
  { agent := x.agent, tile := x.agent.tile, core := core, run := if isInnkeeperCore (core.getD 1) then none else some x.run,
    issuer := core.getD 0, th := (match x.agent with | .thread th => th | _ => 2 ^ 14), remote := [] }
/-- How it is performed: an Innkeeper's, the host's and a physical one of the device at the L3 home, without a translation of theirs
(R56, R211). -/
def PendStore.storer (x : PendStore) : Storer :=
  let w := x.who
  let home := w.run.isNone || x.agent == .host || x.agent == .launch 0
  { agent := x.agent, die := if home then none else some (dieOfTile w.tile), core := if w.run.isNone then none else w.core,
    run := if home then none else w.run, key := x.key, specid := x.specid, eager := x.part.cls.eager || x.agent == .host || x.agent == .launch 0,
    probes := x.part.cls == .t || x.agent == .host, restore := home, atHome := home, hint := x.hint }
/-- The operation reads its line and so meets its poison (R41). -/
def StoreOp.reads : StoreOp → Bool
  | .atom .. | .ctradd => true
  | .write | .poisoned => false

/-- The trap of a part that holds poison. -/
def poisonAt (acc : Acc) (p : Part) : Trap :=
  { cause := .poison, acc := acc, va := p.va, pa := some p.pa, detail := 0, leaf := some (p.cls, p.key) }
/-- The key slot that an access names has been emptied while it waited (R46, R47). -/
def State.keyGone (s : State) (p : Part) : Bool := p.place == Place.line && (s.keyAt p.key).isNone
/-- The trap of such an access (R47). -/
def keyTrap (acc : Acc) (p : Part) : Trap := { Trap.protAt acc p.va 3 with pa := some p.pa, leaf := some (p.cls, p.key) }

/-- The trap of an access that was issued before, as one of the instruction that issued it (R160, R161). -/
def Trap.late (t : Trap) (pc : BitVec 56) (word : BitVec 64) : Trap := { t with pc := some pc, word := some word }
/-- A store and, where it is one part of a packed block, the other part while that is in flight too (R266). -/
def State.twins (s : State) (x : PendStore) : List PendStore := s.stores.filter fun y => y.id == x.id || x.twin == some y.id
/-- The other part of its packed block has been performed (R266). -/
def State.halfDone (s : State) (x : PendStore) : Bool := x.twin.any fun i => !(s.stores.any fun y => y.id == i)
/-- The thread that an in-flight store belongs to, while its slot still holds it. -/
def State.ownerOf (s : State) (x : PendStore) : Option Thread :=
  match x.agent with
  | .thread th => (s.thread? th).filter fun t => (match t.task with | some k => k.run | none => 16) == x.run
  | _ => none
/-- A result is no longer outstanding: its pending bit clears, and fences whose earlier loads are all bound go. -/
def Thread.endOut (t : Thread) (o : Outstanding) : Thread :=
  let outs := t.outs.erase o
  { t.clearPend o.dst.toNat with
    outs := outs, fences := t.fences.filter fun f => outs.any fun x => x.isMem && decide (x.seq < f) }
/-- A thread that is saved goes back to a memory instruction whose access has trapped: that access and those it has issued since are
dropped where they are not yet performed, and are issued again from there (R179) (log entry 47). -/
def State.rewind (s : State) (th seq : Nat) (pc : BitVec 56) : State :=
  match s.thread? th with
  | none => s
  | some t =>
    let gone := t.outs.filter fun o => o.isMem && decide (seq ≤ o.seq)
    ({ s with stores := s.stores.filter fun x => !(x.agent == .thread th && decide (seq ≤ x.seq)),
              scOps := s.scOps.filter fun o => !(o.th == th && decide (seq ≤ o.seq) && !o.done) } : State).setThread th
      { gone.foldl Thread.endOut t with pc := pc }
/-- The instruction that a park holds gives up what it has marked pending, so that it can be issued again (R179). -/
def Thread.unwait (t : Thread) : Thread :=
  match t.park with
  | .ctrwait d e .. => (t.clearPend (numG d)).clearPend (numG e)
  | .fltwait d .. => t.clearPend (numG d)
  | _ => t
/-- Stores leave flight without effect. -/
def State.loseStores (s : State) (xs : List PendStore) : State :=
  { s with stores := s.stores.filter fun y => !xs.any fun z => z.id == y.id }
/-- In-flight stores wait for the reply to their trap, or, of a thread that is being saved, are to be issued again from the PC at which
it is saved (R165, R179); those of a thread that is no more are lost (log entry 47). -/
def State.stopStores (s : State) (th : Nat) (xs : List PendStore) (x : PendStore) (t : Trap) : State :=
  match s.ownerOf x with
  | none => s.loseStores xs
  | some u =>
    if u.park == .stop then s.rewind th x.seq x.pc
    else
      (({ s with stores := s.stores.map fun y => if xs.any fun z => z.id == y.id then { y with stopped := true } else y } : State).setThread th
        u.unwait).trap th (t.late x.pc x.word)
/-- The trap of an in-flight store (R41, R47): its key slot has been emptied, which of a packed block names the part at the higher
address (R266), or its operation meets poison. -/
def State.storeTrap (s : State) (x : PendStore) : Option Trap :=
  match ((s.twins x).filter fun y => s.keyGone y.part).getLast? with
  | some y => some (keyTrap (if x.op.reads then .atomic else .write) y.part)
  | none => if x.op.reads && s.homePoisoned x.who x.part then some (poisonAt .atomic x.part) else none

/-- An in-flight store is performed (R137, R239, R247). An operation that now finds its line poisoned, and a store whose key slot has
been emptied, change nothing, and the thread traps (R41, R47) (log entry 73). -/
def State.performStore (s : State) (x : PendStore) : State :=
  let w := x.who
  let st := x.storer
  let p := x.part
  match s.storeTrap x, x.agent with
  | some t, .thread th =>
    (s.meetHome t p).stopStores th (s.twins x) x t
  | some _, _ => s.loseStores [x]
  | none, _ =>
    let s : State := { s with stores := s.stores.filter fun y => y.id != x.id }
    let s := match x.op with
      | .write => (s.taggedWrite w st p x.mask x.data x.rel false).2
      | .poisoned =>
        let was := s.partPoisoned w p
        (s.taggedWrite w st p x.mask x.data x.rel false).2.poisonPart w p was
      | .atom op ty c => (s.rmwPart w st p (fun old => atomNew op ty old (lineNat x.data 0 8) c.toNat) x.log x.rel).2
      | .ctradd => (s.rmwPart w st p (fun old => ctrSum old (lineNat x.data 0 8)) none x.rel).2
    let s := match x.agent with | .thread th => s.doneS th x.seq | _ => s
    s.holdStore (if x.op.reads then { x with op := .write, data := s.lineAt (p.pa / 128) p.key } else x)

/-- A store from outside to a line of device memory can be performed now (R20, R56, R140): while a round is between its latch and its
broadcast, one that matches a task finished before the latch is held (log entry 40). -/
def State.outerReady (s : State) (line : Nat) : Bool :=
  (s.locked || (Sparse.get? s.mem.chip line).isSome) &&
    !(s.latchCycle.isSome && s.lodges.any fun l => l.2.cq.any fun e => e.2.finished && e.2.marked && e.2.matches line)
/-- A host or peer access can be performed now: no bias flip stands on the line either, nor an answer to a snoop (R59). -/
def State.hostReady (s : State) (line : Nat) : Bool :=
  s.isSystem (line * 128) ||
    (s.outerReady line && !(Sparse.getD s.mem.bias (line / 512) 0).getLsbD 1 && !s.answering line)
/-- The home can serve the host, or a peer, now: other holders of the line have first to answer its snoops (R59) (log entry 40). -/
def State.hostServes (s : State) (line holder : Nat) (write : Bool) : Bool × State :=
  let need := (s.snoopsFor line write).filter fun h => heldBy h != holder
  if !s.hostReady line then (false, s)
  else if s.isSystem (line * 128) || need.isEmpty then (true, s)
  else (false, { s with mem := { s.mem with
    snoops := need.foldl (fun m h => Sparse.set m h (write || Sparse.getD m h false)) s.mem.snoops } })
/-- A thread may take the trap of an access issued before without losing what its park holds: it waits to issue its instruction
again, or has been stopped to be saved. -/
def Park.reissues : Park → Bool
  | .run | .marker | .pendread | .earliest | .stores _ | .home | .grid _ | .jwait _ | .ctrwait .. | .fltwait .. | .stop => true
  | .held _ | .fault | .offer .. | .send .. | .bkpt => false
/-- Can an in-flight store be performed now: the thread's order, its release (R248), then its home. -/
def State.storeReady (s : State) (x : PendStore) : Bool × State :=
  let s := match x.agent with | .thread th => s.cleanBefore th x.seq x.rel | _ => s
  if x.stopped || !s.mayPerform x then (false, s)
  else if x.answer then (s.outerReady (x.part.pa / 128), s)
  else if x.agent == .host then s.hostServes (x.part.pa / 128) (match x.part.port with | some k => k + 1 | none => 0) true
  else
    let waits : Bool := (s.storeTrap x).isSome && (s.ownerOf x).any fun t => !t.park.reissues
    if waits then (false, s)
    else if s.halfDone x then s.ready (x.part.pa / 128) (some x.run) true
    else s.partReady (some x.run) true x.part

-- Issue of stores.

/-- Who writes a task's log. -/
def Thread.logWho (t : Thread) (th : Nat) : Who :=
  { agent := .lodge (tileOf th), tile := tileOf th, core := none, run := t.task.map fun k => k.run, issuer := coreOf th, remote := t.remote }
/-- The log area of a task's entry (R131), located as a write. -/
def State.logArea (s : State) (th : Nat) (t : Thread) : Loc :=
  match t.entry, t.task with
  | some n, some k => s.locate (t.logWho th) .write ((s.run k.run).cfg.loga + 4096 * (tileOf th * 64 + n)) 8
  | _, _ => .error (.wait none)

/-- What a store still to issue brings: its part, mask, data and operation; half: it is the lower (1) or upper (2) part of a packed
block in two parts (R266). -/
structure StoreReq where
  part : Part
  mask : Line
  data : Line
  op : StoreOp
  half : Nat := 0

/-- The outcome of the checks that a memory instruction makes after translation. -/
inductive Gate where
  | go
  | park (p : Park)
  | stop (e : Stop)
deriving DecidableEq, Repr

/-- The words, by physical address, of which an instruction writes at least one byte on a T page: one log entry each, in rising
address (R142) (log entry 74). A map-remote access is untracked (R166). -/
def logWords (reqs : List StoreReq) : List Nat :=
  (reqs.filter fun r => r.part.cls == .t && !r.part.remote).foldl (fun l r =>
    (maskWords r.mask).foldl (fun l i => insertNat l (r.part.pa / 128 * 16 + i)) l) []
/-- Entries that a thread's log holds. -/
def State.logUsed (s : State) (th : Nat) (t : Thread) : Nat :=
  match t.entry with
  | some n => match Sparse.get? (s.lodge (tileOf th)).cq n with | some e => e.log.length | none => 0
  | none => 0
/-- An instruction's stores are logged (R142), unless the task stores without logging (R143). -/
def State.logs (s : State) (th : Nat) (t : Thread) (reqs : List StoreReq) : Bool :=
  t.spec && !t.nolog && decide (s.logUsed th t + (logWords reqs).length ≤ 256) && !(logWords reqs).isEmpty
/-- Log entries a task would need beyond the 256 mean that it stores without logging from now on (R143). -/
def State.stopsLogging (s : State) (th : Nat) (t : Thread) (reqs : List StoreReq) : Bool :=
  t.spec && !t.nolog && decide (256 < s.logUsed th t + (logWords reqs).length)

/-- R114, R142, R143: a provisional task parks at a write to an R or U page; a write to a T page needs log entries, whose area
can be written. -/
def State.writeGate (s : State) (th : Nat) (t : Thread) (reqs : List StoreReq) : Gate :=
  if !t.spec || reqs.isEmpty then .go
  else if s.provisional t && reqs.any (fun r => r.part.cls != .t) then .park .earliest
  else if s.stopsLogging th t reqs then (if s.provisional t then .park .earliest else .go)
  else if !s.logs th t reqs then .go
  else match s.logArea th t with
    | .error e => .stop e
    | .ok l =>
      let run := t.task.map fun k => k.run
      if !(s.partReady run true l.part).1 then .stop (.wait (some (l.part.pa / 128, true)))
      else match reqs.find? fun r => r.part.cls == .t && !(s.partReady run true r.part).1 with
        | some r => .stop (.wait (some (r.part.pa / 128, true)))
        | none => .go

/-- Reserve n log entries: the first one's number and the area. -/
def State.reserveLog (s : State) (th : Nat) (t : Thread) (n : Nat) : Option (Nat × Part) × State :=
  match t.entry, s.logArea th t with
  | some k, .ok l =>
    match Sparse.get? (s.lodge (tileOf th)).cq k with
    | none => (none, s)
    | some e =>
      let blank : LogEntry := { pa := 0, key := 0, old := 0, valid := false }
      let s := s.setEntry (tileOf th) k { e with log := e.log ++ List.replicate n blank }
      (some (e.log.length, l.part), s.useWalk (t.logWho th) true l)
  | _, _ => (none, s)

/-- The log entries of an instruction's stores are appended before the stores leave the thread, with the values that their words
have now, in-flight stores of the thread over them; the lines enter the write filter with them (R133, R142) (log entry 74). -/
def State.appendLog (s : State) (th : Nat) (t : Thread) (reqs : List StoreReq) : State :=
  let run := (t.task.map fun k => k.run).getD 16
  let id := s.specidOf th t
  let words := logWords reqs
  let lg := s.reserveLog th t words.length
  match lg.1, id with
  | some (k, area), some id =>
    (words.foldl (fun (a : Nat × State) word =>
      let line := word / 16
      let key := match reqs.find? fun r => r.part.pa / 128 == line with | some r => r.part.key | none => 0
      let s := ((a.2.recallStash line none).rekey line key).loadProbe line run t.key (some id)
      let old := s.forward th t.seq line (s.lineAt line key)
      let s := s.putLog (tileOf th) id a.1 area (8 * word) key (lineNat old (8 * (word % 16)) 8)
      (a.1 + 1, s.trackWrite (tileOf th) run (some id) line false)) (k, lg.2)).2
  | _, _ => lg.2

/-- The release an instruction makes: its annotation on R and T pages, .dev at least where all is T (R243, R244). -/
def relOf (cls : Cls) (mo : MemOrd) : Option Scope :=
  let named := mo.ord == .rel || mo.ord == .acqrel || mo.sc
  let sc := if mo.sc && scopeNum mo.scope < 4 then .dev else mo.scope
  match cls with
  | .u => none
  | .r => if named then some sc else none
  | .t => some (if named && scopeNum sc = 5 then .sys else .dev)
/-- The acquire an instruction makes. -/
def acqOf (cls : Cls) (mo : MemOrd) : Option Scope :=
  let named := mo.ord == .acq || mo.ord == .acqrel || mo.sc
  let sc := if mo.sc && scopeNum mo.scope < 4 then .dev else mo.scope
  match cls with
  | .u => none
  | .r => if named then some sc else none
  | .t => some (if named && scopeNum sc = 5 then .sys else .dev)

/-- Put stores in flight, each after the one before. A single access, a scatter among them, is ordered by its weakest class
(R245, R381); the elements of a push each have their own. -/
def State.sendStores (s : State) (th : Nat) (t : Thread) (whole : Option Cls) (relf : Cls → Option Scope)
    (hint : BitVec 3) (sc : Bool) (log : Option (Nat × Part)) : List StoreReq → Nat → State
  | [], _ => s
  | r :: rest, prev =>
    let cls := whole.getD r.part.cls
    let x : PendStore := { id := s.nextStore + 1, agent := .thread th, run := (match t.task with | some k => k.run | none => 16),
                           key := t.key, specid := s.specidOf th t, seq := t.seq, part := r.part, mask := r.mask,
                           data := r.data, op := r.op, cls := cls, rel := relf cls,
                           after := prev, log := log, hint := hint, sc := sc, pc := t.pc, word := s.wordOf t,
                           twin := match r.half with | 1 => some (s.nextStore + 2) | 2 => some s.nextStore | _ => none }
    let s : State := { s with stores := s.stores ++ [x], nextStore := s.nextStore + 1 }
    s.sendStores th t whole relf hint sc log rest x.id

/-- A store of a thread that no release or fence has followed yet notes the one that is issued now. -/
def PendStore.noted (x : PendStore) (th sc : Nat) : PendStore :=
  if x.agent == .thread th && x.next.isNone then { x with next := some sc } else x
/-- A thread issues a release or fence: its earlier stores that are not yet performed with respect to .dev note its scope (R284). -/
def State.noteStores (s : State) (th : Nat) : Option Scope → State
  | none => s
  | some sc =>
    let f (x : PendStore) : PendStore := x.noted th (scopeNum sc)
    { s with stores := s.stores.map f,
             coh := { s.coh with collapses := s.coh.collapses.map fun c => { c with held := c.held.map f } },
             stash := { s.stash with lines := s.stash.lines.map fun l => { l with held := l.held.map f } } }
/-- The same for its outstanding operations that write. -/
def Thread.noteOuts (t : Thread) : Option Scope → Thread
  | none => t
  | some sc => { t with outs := t.outs.map fun o => if o.isRmw && o.next.isNone then { o with next := some (scopeNum sc) } else o }

/-- A memory instruction that stores is issued: the gate, its log entries, then the stores leave the thread (R376). done is the
thread as the stores leave it; one says that they are one access, which with no element selected is none and releases nothing. An
atomic's entry is reserved alone (R384). -/
def State.sendGated (s : State) (th : Nat) (t done : Thread) (relf : Cls → Option Scope) (hint : BitVec 3) (one sc : Bool) (w : Who)
    (ls : List Located) (reqs : List StoreReq) : Except Gate (Thread × State) :=
  match s.writeGate th t reqs with
  | .go =>
    let stop := s.stopsLogging th t reqs
    let logs := s.logs th t reqs
    let s := s.useAll w .write ls
    let lg := if !logs then (none, s)
      else if reqs.any fun r => r.op.reads then s.reserveLog th t (logWords reqs).length
      else (none, s.appendLog th t reqs)
    let s := if sc then lg.2.enterS th t.seq else lg.2
    let whole := weakest (reqs.map fun r => r.part)
    let rel := if !one then (reqs.filterMap fun r => relf r.part.cls).head? else if reqs.isEmpty then none else relf whole
    let done := { done.noteOuts rel with seq := t.seq + 1, nolog := done.nolog || stop, remote := [] }
    .ok (done, (s.noteStores th rel).sendStores th t (if one then some whole else none) relf hint sc lg.1 reqs 0)
  | g => .error g

/-- An access that does not issue because it faults or waits. -/
def State.stopAccess (s : State) (th : Nat) (e : Stop) : State :=
  let run := match s.thread? th with | some t => t.task.map fun k => k.run | none => none
  match s.stopped run e with
  | (some t, s) => s.trap th t
  | (none, s) => s.parkAt th .home

/-- What the gate stopped. -/
def State.gated (s : State) (th : Nat) : Gate → State
  | .park p => s.parkAt th p
  | .stop e => s.stopAccess th e
  | .go => s

/-- The same, and the instruction ends. -/
def State.issueStores (s : State) (th len : Nat) (t done : Thread) (relf : Cls → Option Scope) (hint : BitVec 3) (one : Bool)
    (w : Who) (ls : List Located) (reqs : List StoreReq) : State :=
  match s.sendGated th t done relf hint one false w ls reqs with
  | .error g => s.gated th g
  | .ok (done, s) => s.finish th len done

/-- Add an outstanding memory read and end the instruction (R156, R376). -/
def State.issueLoad (s : State) (th len : Nat) (t : Thread) (acqf relf : Cls → Option Scope) (sc : Bool)
    (hint : BitVec 3) (w : Who) (acc : Acc) (ls : List Located) (dst : Nat) (kind : OutKind)
    (log : Option (Nat × Part)) : State :=
  let parts := ls.map fun l => l.part
  let s := s.useAll w acc ls
  let s := if sc then s.enterS th t.seq else s
  let cls := weakest parts
  let o : Outstanding := { dst := BitVec.ofNat 6 dst, kind := kind, parts := parts, acq := acqf cls, rel := relf cls,
                           seq := t.seq, pc := t.pc, word := s.wordOf t, hint := hint, sc := sc, log := log }
  (s.noteStores th (relf cls)).finish th len { (t.noteOuts (relf cls)).addOut o with seq := t.seq + 1, remote := [] }

/-- No ordering of its own. -/
def noOrd (_ : Cls) : Option Scope := none
/-- The acquire a load makes: its annotation, or what its T page implies (R243, R244). -/
def loadAcq (mo : MemOrd) (cls : Cls) : Option Scope := acqOf cls mo
/-- The release a store makes. -/
def storeRel (mo : MemOrd) (cls : Cls) : Option Scope := relOf cls mo

/-- Poison on data read (R371 step 4) (log entry 47). -/
def State.poisonTrap (s : State) (w : Who) (acc : Acc) (ls : List Located) : Option Trap :=
  (ls.find? fun l => s.partPoisoned w l.part).map fun l => poisonAt acc l.part

end Sys2Proof.Machine
end

