-- ==== Sys2Proof/Machine/Streams.lean ====
section
/-! DEFINITION. Streams (R190 to R194): descriptors, the addresses of their elements, pops and pushes, and the frame that
every vector instruction shares (R340 to R344). -/
namespace Sys2Proof
open Sys2Proof.Machine

/-- Bytes of an element. -/
def Machine.Stream.bytes (x : Stream) : Nat := 2 ^ x.esz
/-- The stream's length L (R191). -/
def Machine.Stream.length (x : Stream) : Nat := x.bound.foldl (fun a b => a * b) 1
/-- Elements that one pop or push moves: E (R192). -/
def Machine.Stream.count (x : Stream) : Nat := 128 / x.bytes

end Sys2Proof

namespace Sys2Proof.Machine
open Sys2Proof

/-- An unbound descriptor (R184). -/
def Stream.unbound : Stream :=
  { base := 0, bound := [0, 0, 0, 0], stride := [0, 0, 0, 0], esz := 0, dir := false, ch := 0, pos := 0, bnd := false,
    addr := 0 }

/-- The indices of element e, dimension 0 innermost (R191). -/
def elemIndices : List Nat → Nat → List Nat
  | [], _ => []
  | b :: r, e => (if b = 0 then 0 else e % b) :: elemIndices r (if b = 0 then 0 else e / b)

/-- The address of element e (R191). -/
def Stream.addrOf (x : Stream) (e : Nat) : Nat :=
  let sum := ((elemIndices x.bound e).zip x.stride).foldl (fun (a : Int) p => a + (p.1 : Int) * p.2.toInt) 0
  (((x.addr.toNat : Int) + sum) % ((2 ^ 56 : Nat) : Int)).toNat

/-- The stream bound to a register, if it is one of w0 to w3 and bound. -/
def Thread.stream? (t : Thread) (r : WReg) : Option Stream :=
  if r.toNat < 4 then
    match t.streams[r.toNat]? with
    | some x => if x.bnd then some x else none
    | none => none
  else none

/-- A read of a register bound to a write stream, or a write of one bound to a read stream (R193). -/
def Thread.streamIll (t : Thread) (srcs : List WReg) (dst : Option WReg) : Bool :=
  (srcs.any fun r => match t.stream? r with | some x => x.dir | none => false) ||
  (match dst with
   | some r => (match t.stream? r with | some x => !x.dir | none => false)
   | none => false)

/-- The elements the next pop or push moves: index in the register, and address. -/
def Stream.next (x : Stream) : List (Nat × Nat) :=
  (List.range (Nat.min x.count (x.length - x.pos))).map fun i => (i, x.addrOf (x.pos + i))
/-- The stream after a pop or push. -/
def Stream.moved (x : Stream) : Stream := { x with pos := Nat.min x.length (x.pos + x.count) }
/-- The next pop is final (R192). -/
def Stream.final (x : Stream) : Bool := decide (x.length ≤ x.pos + x.count)
/-- Replace a stream. -/
def Thread.setStream (t : Thread) (n : Nat) (x : Stream) : Thread := { t with streams := t.streams.set n x }

/-- Keep the first of equal registers. -/
def distinctRegs : List WReg → List WReg
  | [] => []
  | r :: l => r :: (distinctRegs l).filter fun x => x != r

/-- What the checks of a vector instruction's pops and pushes find (R343): the located elements of each popped register,
and of the pushed one. -/
structure StreamPlan where
  pops : List (WReg × Stream × List Located)
  push : Option (WReg × Stream × List (Nat × Located))

/-- Locate a stream's next elements. -/
def State.streamParts (s : State) (w : Who) (acc : Acc) (x : Stream) (es : List (Nat × Nat)) :
    Except Stop (List Located) :=
  if x.length ≤ x.pos then .error (.trap (.plain .streamx))
  else s.locateAll w acc (es.map fun e => (e.2, x.bytes))

/-- Check every pop, in operand order. -/
def State.planPops (s : State) (w : Who) : List (WReg × Stream) → Except Stop (List (WReg × Stream × List Located))
  | [] => .ok []
  | (r, x) :: rest =>
    match s.streamParts w .read x x.next with
    | .error e => .error e
    | .ok ls =>
      match s.poisonTrap w .read ls with
      | some e => .error (.trap e)
      | none => match s.planPops w rest with
        | .error e => .error e
        | .ok ps => .ok ((r, x, ls) :: ps)

/-- Check the push, of the selected elements alone (R187, R193). -/
def State.planPush (s : State) (w : Who) (mask : BitVec 64) : Option (WReg × Stream) →
    Except Stop (Option (WReg × Stream × List (Nat × Located)))
  | none => .ok none
  | some (r, x) =>
    let es := x.next.filter fun e => selectedBy mask (8 * x.bytes) e.1
    match s.streamParts w .write x es with
    | .error e => .error e
    | .ok ls => .ok (some (r, x, (es.map fun e => e.1).zip ls))

/-- Read a popped element, the thread's own earlier stores over it (R240), and put it into the register. -/
def State.popElems (s : State) (w : Who) (th : Nat) (t : Thread) (x : Stream) : List Located → Nat → Line → Line × State
  | [], _, v => (v, s)
  | l :: rest, i, v =>
    let r := s.readPart w t.key (s.specidOf th t) l.part .full .none x.ch true
    let n := lineNat (r.2.forward th t.seq l.part.home r.1) (l.part.pa % 128) x.bytes
    (r.2.carryIn w l.part none).popElems w th t x rest (i + 1) (putElem (8 * x.bytes) v i n)

/-- The pops take effect: registers, POS, and m7 for a final pop (R192, R343). -/
def State.doPops (s : State) (w : Who) (th : Nat) (t : Thread) : List (WReg × Stream × List Located) → Thread × State
  | [] => (t, s)
  | (r, x, ls) :: rest =>
    let p := s.popElems w th t x ls 0 0
    let t := (t.setW r p.1).setStream r.toNat x.moved
    let t := if x.final then t.setM 7 (finalMask (8 * x.bytes) ls.length) else t
    p.2.doPops w th t rest

/-- A relaxed read made at issue, as its thread's order sees it. -/
def Thread.relaxedRead (t : Thread) (hint : BitVec 3) (parts : List Part) : Outstanding :=
  { dst := 0, kind := .ready 0, parts := parts, acq := none, rel := none, seq := t.seq, pc := t.pc, word := 0, hint := hint,
    sc := false, log := none }

/-- The relaxed annotation of a stream's element accesses (R367). -/
def relaxedOrd : MemOrd := ⟨.thread, .relaxed, false⟩

/-- The stores of a push. -/
def pushReqs (x : Stream) (v : Line) (es : List (Nat × Located)) : List StoreReq :=
  es.map fun e =>
    { part := e.2.part, mask := byteMask (e.2.part.pa % 128) x.bytes,
      data := putLine 0 (e.2.part.pa % 128) x.bytes (elem (8 * x.bytes) v e.1), op := .write }

/-- The body of a vector instruction that names a bound register (R343). mask selects the elements that a push stores. A pop waits
for the thread's own accesses to its lines alone: no fence, acquire or T page orders it (R194, R240, R367). -/
def streamBody (s : State) (th len : Nat) (t : Thread) (mask : BitVec 64) (srcs : List WReg) (dst : Option WReg)
    (f : Thread → Thread) : State :=
  let w := t.who th
  let pops := (distinctRegs srcs).filterMap fun r => (t.stream? r).map fun x => (r, x)
  let push := dst.bind fun r => (t.stream? r).map fun x => (r, x)
  match s.planPops w pops, s.planPush w mask push with
  | .error e, _ => s.stopAccess th e
  | _, .error e => s.stopAccess th e
  | .ok ps, .ok pu =>
    let reads := ps.flatMap fun p => p.2.2
    let writes := match pu with | some p => p.2.2.map fun e => e.2 | none => []
    let gate := s.writeGate th t (match pu with | some p => pushReqs p.2.1 0 p.2.2 | none => [])
    match gate with
    | .park p => s.parkAt th p
    | .stop e => s.stopAccess th e
    | .go =>
      let parts := reads.map fun l => l.part
      let rdy := s.allReady w.run false parts
      if !rdy.1 || !s.linesClear th t (t.relaxedRead 0 parts) then rdy.2.parkAt th .home
      else
        let s := rdy.2.useAll w .read reads
        let r := s.doPops w th t ps
        let s := r.2
        let done := f r.1
        match s.poisonTrap w .read reads with
        | some e => s.trap th e
        | none => match pu with
        | none => s.finish th len { done with remote := [] }
        | some (reg, x, es) =>
          let done := done.setStream reg.toNat x.moved
          s.issueStores th len t done (storeRel relaxedOrd) x.ch false w writes
            (pushReqs x (done.getW reg) es)

/-- A vector instruction (R340 to R344): its registers, the w registers it reads in operand order and the one it writes,
and its effect on the thread's registers under the lane mask. whole: the lane guard selects source elements and the whole register
is written, so that a push stores all its elements (R342, R355, R363) (log entry 81). -/
def vecOp (s : State) (h : Hdr) (len : Nat) (names : List Nat) (ill : Thread → Bool) (srcs : List WReg) (dst : Option WReg)
    (f : BitVec 64 → Thread → Thread) (whole : Bool := false) : Out :=
  issue s (fun t => ⟨h, len, names, false, false, ill t || t.streamIll srcs dst⟩) fun t =>
    let mask := t.laneMask h.mg
    if (srcs.any fun r => (t.stream? r).isSome) || (dst.any fun r => (t.stream? r).isSome) then
      streamBody s s.focus len t (if whole then BitVec.allOnes 64 else mask) srcs dst (f mask)
    else s.finish s.focus len (f mask t)

end Sys2Proof.Machine
end

