-- ==== Sys2Proof/Machine/Memory.lean ====
section
/-! DEFINITION. Loads, stores, gather, scatter, prefetch and the binding of streams, opcodes 0x60–0x66 (R364 to R383). -/
namespace Sys2Proof.Machine
open Sys2Proof

/-- The w operands of a memory instruction may not be bound (R372). -/
def Thread.anyBound (t : Thread) (rs : List WReg) : Bool := rs.any fun r => (t.stream? r).isSome
/-- The w register of a g or w operand. -/
def wOfGW : GW → List WReg
  | .g _ => []
  | .w r => [r]

/-- A memory instruction with no result (R293). -/
def memOp (s : State) (h : Hdr) (len : Nat) (names : List Nat) (ill : Thread → Bool) (f : Thread → State) : Out :=
  issue s (fun t => ⟨h, len, names, false, false, ill t⟩) f
/-- A memory instruction with a variable-latency result: not ready while 16 are outstanding (R154). -/
def memVarOp (s : State) (h : Hdr) (len : Nat) (names : List Nat) (ill : Thread → Bool) (f : Thread → State) : Out :=
  issue s (fun t => ⟨h, len, names, false, false, ill t⟩) fun t => if t.outs.length < 16 then f t else s

/-- Locate an access: its alignment and window, then every line in order, then poison for a read (R371) (log entry 63). -/
def State.reach (s : State) (w : Who) (acc : Acc) (va n align : Nat) : Except Stop (List Located) :=
  if va % align ≠ 0 ∨ windowPast va n then .error (.trap (.at .align acc va))
  else match s.locateAll w acc (pieces va n) with
    | .error e => .error e
    | .ok ls => match (if acc = .write then none else s.poisonTrap w acc ls) with
      | some t => .error (.trap t)
      | none => .ok ls

/-- Locate one part of a packed block, poison included. -/
def State.reachPart (s : State) (w : Who) (acc : Acc) (p : Nat × Nat) : Except Stop Located :=
  match s.locateAll w acc [p] with
  | .ok [l] => match (if acc = .write then none else s.poisonTrap w acc [l]) with
    | some t => .error (.trap t)
    | none => .ok l
  | .ok _ => .error (.wait none)
  | .error e => .error e

/-- Locate a packed block (R266): the part at the higher address names the fault when both fault. -/
def State.reachBlock (s : State) (w : Who) (acc : Acc) (va n : Nat) : Except Stop (List Located) :=
  (pieces va n).foldr (fun p r =>
    match s.reachPart w acc p, r with
    | _, .error e => .error e
    | .error e, .ok _ => .error e
    | .ok l, .ok ls => .ok (l :: ls)) (.ok [])

/-- Locate blocks in increasing order: those before the first that fails, and why it fails. -/
def State.reachBlocks (s : State) (w : Who) (acc : Acc) (n : Nat) : List (Nat × Nat) →
    List (Nat × List Located) × Option Stop
  | [] => ([], none)
  | (b, va) :: r =>
    match s.reachBlock w acc va n with
    | .error e => ([], some e)
    | .ok ls => let p := s.reachBlocks w acc n r; ((b, ls) :: p.1, p.2)

/-- Blocks that a packed access of element width w moves (R375). -/
def blockCount (w : Nat) : Blk → Nat
  | .one => 1
  | .two => 2
  | .four => 4
  | .all => elemCount w / 32
/-- The blocks with a selected element, with their addresses. -/
def liveBlocks (w va n : Nat) (mask : BitVec 64) : List (Nat × Nat) :=
  ((List.range n).filter fun b => (List.range 32).any fun j => selectedBy mask w (32 * b + j)).map fun b =>
    (b, (va + 4 * w * b) % 2 ^ 56)
/-- ALIGN of a packed access (R370): 8 bytes, and within its window. -/
def packedAlign (acc : Acc) (va n w : Nat) : Option Trap :=
  if va % 8 ≠ 0 ∨ windowPast va (4 * w * n) then some (.at .align acc va) else none

/-- The bits of the elements of width w that the lane guard selects. -/
def laneBits (w : Nat) (mask : BitVec 64) : Line :=
  BitVec.ofNat 1024 (packElems w ((List.range (elemCount w)).map fun i => if selectedBy mask w i then 2 ^ w - 1 else 0))

/-- ld (R373 to R376). -/
def execLd (h : Hdr) (ty : Ty) (mo : MemOrd) (blk : Blk) (d : GW) (addr : Addr) (s : State) : Out :=
  memVarOp s h addr.len [numGW d, numG addr.base] (fun t => !t.usable ty || t.wideBlocks ty blk || t.anyBound (wOfGW d)) fun t =>
    let th := s.focus
    let w := t.who th
    let va := t.addr addr
    let b := t.width ty
    let send (ls : List Located) (k : OutKind) : State := s.issueLoad th addr.len t (loadAcq mo) noOrd false h.ch w .read ls (numGW d) k none
    match d with
    | .g _ =>
      match s.reach w .read va (b / 8) (b / 8) with
      | .error e => s.stopAccess th e
      | .ok ls => send ls (.loadG ty)
    | .w _ =>
      let mask := t.laneMask h.mg
      if 8 ≤ b then
        if va % 128 ≠ 0 then s.trap th (.at .align .read va)
        else if laneBits b mask = 0 then send [] (.loadW b mask)
        else match s.reach w .read va 128 128 with
          | .error e => s.stopAccess th e
          | .ok ls => send ls (.loadW b mask)
      else
        let n := blockCount b blk
        match packedAlign .read va n b with
        | some e => s.trap th e
        | none =>
          let p := s.reachBlocks w .read (4 * b) (liveBlocks b va n mask)
          match p.2 with
          | some e => s.stopAccess th e
          | none => send (p.1.flatMap fun x => x.2) (.loadPacked b n mask (s.partVa w va))

/-- The store of the bytes of one located part: bits of a value that starts at address va. -/
def partReq (va : Nat) (bits data : Nat) (l : Located) : StoreReq :=
  let skip := 8 * ((l.part.va + 2 ^ 56 - va % 2 ^ 56) % 2 ^ 56)
  let o := 8 * (l.part.pa % 128)
  let m := 2 ^ (8 * l.part.len)
  { part := l.part, mask := BitVec.ofNat 1024 (((bits >>> skip) % m) <<< o),
    data := BitVec.ofNat 1024 (((data >>> skip) % m) <<< o), op := .write }

/-- The stores of the located blocks of a packed register. -/
def blockReqs (w va : Nat) (mask : BitVec 64) (x : Line) (bs : List (Nat × List Located)) : List StoreReq :=
  bs.flatMap fun b =>
    let bits := packElems w ((List.range 32).map fun j => if selectedBy mask w (32 * b.1 + j) then 2 ^ w - 1 else 0)
    let data := packElems w ((List.range 32).map fun j => elem w x (32 * b.1 + j))
    b.2.mapIdx fun i l => { partReq (va + 4 * w * b.1) bits data l with half := if b.2.length = 2 then i + 1 else 0 }

/-- st (R373 to R376). Blocks of a packed store that come before one that faults stay written (R266). -/
def execSt (h : Hdr) (ty : Ty) (mo : MemOrd) (blk : Blk) (addr : Addr) (b : GW) (s : State) : Out :=
  memOp s h addr.len [numG addr.base, numGW b] (fun t => !t.usable ty || t.wideBlocks ty blk || t.anyBound (wOfGW b)) fun t =>
    let th := s.focus
    let w := t.who th
    let va := t.addr addr
    let bw := t.width ty
    match b with
    | .g r =>
      match s.reach w .write va (bw / 8) (bw / 8) with
      | .error e => s.stopAccess th e
      | .ok ls => s.issueStores th addr.len t t (storeRel mo) h.ch true w ls (ls.map (partReq (s.partVa w va) (2 ^ bw - 1) ((t.getG r).toNat % 2 ^ bw)))
    | .w r =>
      let mask := t.laneMask h.mg
      let x := t.getW r
      if 8 ≤ bw then
        let bits := laneBits bw mask
        if va % 128 ≠ 0 then s.trap th (.at .align .write va)
        else if bits = 0 then s.finish th addr.len t
        else match s.reach w .write va 128 128 with
          | .error e => s.stopAccess th e
          | .ok ls => s.issueStores th addr.len t t (storeRel mo) h.ch true w ls (ls.map (partReq (s.partVa w va) bits.toNat x.toNat))
      else
        let n := blockCount bw blk
        match packedAlign .write va n bw with
        | some e => s.trap th e
        | none =>
          let p := s.reachBlocks w .write (4 * bw) (liveBlocks bw va n mask)
          let ls := p.1.flatMap fun y => y.2
          let reqs := blockReqs bw (s.partVa w va) mask x p.1
          match p.2 with
          | none => s.issueStores th addr.len t t (storeRel mo) h.ch true w ls reqs
          | some (.trap e) =>
            match s.sendGated th t t (storeRel mo) h.ch true false w ls reqs with
            | .error g => s.gated th g
            | .ok (done, s) => (s.setThread th done).stopAccess th (.trap e)
          | some e => s.stopAccess th e

/-- lds (R377 to R379): an access of the source bytes; the conversion is made when the value is bound. -/
def execLds (h : Hdr) (ty : Ty) (scope : Scope) (acq sat : Bool) (view : View) (d : GW) (addr : Addr) (s : State) : Out :=
  memVarOp s h addr.len [numGW d, numG addr.base] (fun t => t.anyBound (wOfGW d)) fun t =>
    let th := s.focus
    let w := t.who th
    let va := t.addr addr
    let n := ty.fixedWidth / 8
    let mo : MemOrd := ⟨scope, if acq then .acq else .relaxed, false⟩
    let mask := t.laneMask h.mg
    let send (ls : List Located) (toW : Bool) : State :=
      s.issueLoad th addr.len t (loadAcq mo) noOrd false h.ch w .read ls (numGW d) (.loadSub ty view sat mask toW) none
    match d with
    | .g _ =>
      match s.reach w .read va n n with
      | .error e => s.stopAccess th e
      | .ok ls => send ls false
    | .w _ =>
      let vw := if view.isFull ty then ty.fixedWidth else view.fmt.width
      if va % 128 ≠ 0 then s.trap th (.at .align .read va)
      else if !((List.range (128 / n)).any fun i => selectedBy mask vw i) then send [] true
      else match s.reach w .read va 128 128 with
        | .error e => s.stopAccess th e
        | .ok ls => send ls true

/-- The address of element i of a gather or scatter (R380). -/
def elemAddr (base w : Nat) (offs : Line) (i : Nat) : Nat :=
  (((base : Int) + signedOf w (elem w offs i) * ((w / 8 : Nat) : Int)) % ((2 ^ 56 : Nat) : Int)).toNat
/-- The selected elements with their addresses. -/
def elemAddrs (base w : Nat) (offs : Line) (mask : BitVec 64) : List (Nat × Nat) :=
  ((List.range (elemCount w)).filter fun i => selectedBy mask w i).map fun i => (i, elemAddr base w offs i)
/-- Locate every selected element (R371, R381). -/
def State.reachElems (s : State) (w : Who) (acc : Acc) (n : Nat) (es : List (Nat × Nat)) :
    Except Stop (List Located) :=
  match es.find? fun e => e.2 % n != 0 with
  | some e => .error (.trap (.at .align acc e.2))
  | none => match s.locateAll w acc (es.map fun e => (e.2, n)) with
    | .error e => .error e
    | .ok ls => match (if acc = .write then none else s.poisonTrap w acc ls) with
      | some t => .error (.trap t)
      | none => .ok ls

/-- gather (R380, R381). -/
def execGather (h : Hdr) (ty : Ty) (mo : MemOrd) (d : WReg) (addr : Addr) (b : WReg) (s : State) : Out :=
  memVarOp s h addr.len [numW d, numG addr.base, numW b] (fun t => t.anyBound [d, b]) fun t =>
    let th := s.focus
    let w := t.who th
    let bw := ty.fixedWidth
    let mask := t.laneMask h.mg
    match s.reachElems w .read (bw / 8) (elemAddrs (t.addr addr) bw (t.getW b) mask) with
    | .error e => s.stopAccess th e
    | .ok ls => s.issueLoad th addr.len t (loadAcq mo) noOrd false h.ch w .read ls (numW d) (.gather ty mask) none

/-- scatter (R380, R381): the elements leave in increasing index. -/
def execScatter (h : Hdr) (ty : Ty) (mo : MemOrd) (addr : Addr) (b c : WReg) (s : State) : Out :=
  memOp s h addr.len [numG addr.base, numW b, numW c] (fun t => t.anyBound [b, c]) fun t =>
    let th := s.focus
    let w := t.who th
    let bw := ty.fixedWidth
    let es := elemAddrs (t.addr addr) bw (t.getW b) (t.laneMask h.mg)
    match s.reachElems w .write (bw / 8) es with
    | .error e => s.stopAccess th e
    | .ok ls =>
      s.issueStores th addr.len t t (storeRel mo) h.ch true w ls
        ((es.zip ls).map fun p => partReq (s.partVa w p.1.2) (2 ^ bw - 1) (elem bw (t.getW c) p.1.1) p.2)

/-- pref (R382): a FULL request that records a FULL sharer; dropped where it would fault, meet poison or wait, and where a
task has written the line. -/
def execPref (h : Hdr) (l1 : Bool) (addr : Addr) (s : State) : Out :=
  memOp s h addr.len [numG addr.base] (fun _ => false) fun t =>
    let th := s.focus
    let w := t.who th
    let s := match s.locate w .read (t.addr addr) 1 with
      | .ok l =>
        let line := l.part.pa / 128
        if l.part.place != Place.line || s.homePoisoned w l.part || !(s.markedTiles line true).isEmpty then s
        else
          let r := s.partReady w.run false l.part
          if !r.1 then r.2
          else
            let s := r.2.useWalk w false l
            (s.readLine { agent := w.agent, core := w.core, icache := false, tile := w.tile, line := line, key := l.part.key,
                          cls := l.part.cls, view := .full, src := .none, sub := false, priv := l.part.priv, alloc := l1, hint := h.ch }).2.2
      | _ => s
    s.finish th addr.len t

-- Binding streams.

/-- Word i of the 64-byte image of a descriptor. -/
def imageWord (x : Nat) (i : Nat) : Nat := (x >>> (64 * i)) % 2 ^ 64
/-- The 32-bit half i of the image. -/
def imageHalf (x : Nat) (i : Nat) : Nat := (x >>> (32 * i)) % 2 ^ 32
/-- The descriptor an image gives (R190), bound at SBASE. -/
def streamOf (x : Nat) (sbase : BitVec 56) : Stream :=
  let base := BitVec.ofNat 56 (imageWord x 0)
  let f := imageWord x 5
  { base := base, bound := [imageHalf x 2, imageHalf x 3, imageHalf x 4, imageHalf x 5],
    stride := [imageHalf x 6, imageHalf x 7, imageHalf x 8, imageHalf x 9].map fun v => BitVec.ofNat 32 v,
    esz := bitsOf f 0 3, dir := bitOf f 8, ch := BitVec.ofNat 3 (bitsOf f 16 3), pos := 0, bnd := true,
    addr := base + sbase }
/-- The checks of R191 on an image: the trap they raise. -/
def imageTrap (x : Nat) (sbase : BitVec 56) : Option Trap :=
  let f := imageWord x 5
  let d := streamOf x sbase
  if bitsOf (imageWord x 0) 56 8 ≠ 0 ∨ bitsOf f 3 5 ≠ 0 ∨ bitsOf f 9 7 ≠ 0 ∨ bitsOf f 19 45 ≠ 0 ∨ imageWord x 6 ≠ 0 ∨
      imageWord x 7 ≠ 0 ∨ 3 < d.esz ∨ d.ch = 7 then some (.plain .illop)
  else if 2 ^ 48 ≤ d.length then some (.plain .illop)
  else if d.addr.toNat % d.bytes ≠ 0 ∨
      ((d.bound.zip d.stride).any fun p => decide (1 < p.1) && decide (p.2.toNat % d.bytes ≠ 0)) then
    some (.at .align .none d.addr.toNat)
  else none

/-- A relaxed load performed at issue: the bytes, or none while it must wait (R240, R243). -/
def State.readNow (s : State) (th : Nat) (t : Thread) (w : Who) (hint : BitVec 3) (ls : List Located) :
    Option Nat × State :=
  let parts := ls.map fun l => l.part
  let r := s.allReady w.run false parts
  if !s.mayBind th t (t.relaxedRead hint parts) || !r.1 then (none, r.2)
  else
    let s := r.2.useAll w .read ls
    let x := (parts.foldl (fun (a : Nat × Nat × State) p =>
      let x := a.2.2.readPart w t.key (s.specidOf th t) p .full .none hint true
      let v := lineNat (x.2.forward th t.seq p.home x.1) (p.pa % 128) p.len
      (a.1 + 8 * p.len, a.2.1 + (v <<< a.1), x.2.carryIn w p none)) (0, 0, s)).2
    (some x.1, x.2)

/-- sbind (R364, R365): one relaxed load of the 64-byte image, performed before the thread issues anything further. -/
def execSbind (h : Hdr) (d : BitVec 2) (addr : Addr) (s : State) : Out :=
  memOp s h addr.len [16 + d.toNat, numG addr.base] (fun _ => false) fun t =>
    let th := s.focus
    let w := t.who th
    match s.reach w .read (t.addr addr) 64 64 with
    | .error e => s.stopAccess th e
    | .ok ls =>
      match s.readNow th t w h.ch ls with
      | (none, s) => s.parkAt th .home
      | (some x, s) =>
        match (match s.poisonTrap w .read ls with | some e => some e | none => imageTrap x t.sbase) with
        | some e => s.trap th e
        | none => s.finish th addr.len { t.setStream d.toNat (streamOf x t.sbase) with remote := [] }

/-- sbind.unbind (R366). -/
def execSbindUnbind (h : Hdr) (d : BitVec 2) (s : State) : Out :=
  memOp s h 8 [16 + d.toNat] (fun _ => false) fun t =>
    s.finish s.focus 8 { t with streams := t.streams.modify d.toNat fun x => { x with bnd := false } }

end Sys2Proof.Machine
end

