-- ==== Sys2Proof/Machine/Atomics.lean ====
section
/-! DEFINITION. Atomics at memory, counters and fences, opcodes 0x6C–0x72 (R384 to R395), and the waits of ctrwait:
CTRWAIT_NOTIFY, CTRWAIT_TIMEOUT, CTRWAIT_POLL. -/
namespace Sys2Proof.Machine
open Sys2Proof

/-- A store request that stands for an atomic's effect on the log and the write gate. -/
def atomReq (p : Part) (op : StoreOp) (b : BitVec 64) : StoreReq :=
  { part := p, mask := byteMask (p.pa % 128) p.len, data := b.setWidth 1024, op := op }

/-- A .sc operation of a speculative task is irrevocable (R253). -/
def State.scGate (s : State) (t : Thread) (sc : Bool) : Bool := sc && s.provisional t

/-- An atomic that returns the old value (R384, R385): issued with its log entry reserved. -/
def State.issueAtom (s : State) (th len : Nat) (t : Thread) (mo : MemOrd) (hint : BitVec 3) (op : AtomOp) (ty : Ty)
    (va : Nat) (d : Nat) (b c : BitVec 64) : State :=
  let w := t.who th
  let n := atomBytes ty
  match s.reach w .atomic va n n with
  | .error e => s.stopAccess th e
  | .ok ls =>
    if s.scGate t mo.sc then s.parkAt th .earliest
    else
      let reqs := ls.map fun l => atomReq l.part .ctradd b
      match s.writeGate th t reqs with
      | .go =>
        let stop := s.stopsLogging th t reqs
        let lg := if s.logs th t reqs then s.reserveLog th t (logWords reqs).length else (none, s)
        lg.2.issueLoad th len { t with nolog := t.nolog || stop } (loadAcq mo) (storeRel mo) mo.sc hint w .atomic ls d
          (.atom op ty b c) lg.1
      | g => s.gated th g

/-- The atomics with a result. -/
def atomOp (op : AtomOp) (h : Hdr) (ty : Ty) (mo : MemOrd) (d : GReg) (addr : Addr) (b : GReg) (s : State) : Out :=
  memVarOp s h addr.len [numG d, numG addr.base, numG b] (fun _ => false) fun t =>
    s.issueAtom s.focus addr.len t mo h.ch op ty (t.addr addr) (numG d) (t.getG b) 0

/-- atom.add. -/
def execAtomAdd (h : Hdr) (ty : Ty) (mo : MemOrd) (d : GReg) (addr : Addr) (b : GReg) (s : State) : Out :=
  atomOp .add h ty mo d addr b s
/-- atom.min. -/
def execAtomMin (h : Hdr) (ty : Ty) (mo : MemOrd) (d : GReg) (addr : Addr) (b : GReg) (s : State) : Out :=
  atomOp .min h ty mo d addr b s
/-- atom.max. -/
def execAtomMax (h : Hdr) (ty : Ty) (mo : MemOrd) (d : GReg) (addr : Addr) (b : GReg) (s : State) : Out :=
  atomOp .max h ty mo d addr b s
/-- atom.and. -/
def execAtomAnd (h : Hdr) (ty : Ty) (mo : MemOrd) (d : GReg) (addr : Addr) (b : GReg) (s : State) : Out :=
  atomOp .and h ty mo d addr b s
/-- atom.or. -/
def execAtomOr (h : Hdr) (ty : Ty) (mo : MemOrd) (d : GReg) (addr : Addr) (b : GReg) (s : State) : Out :=
  atomOp .or h ty mo d addr b s
/-- atom.xor. -/
def execAtomXor (h : Hdr) (ty : Ty) (mo : MemOrd) (d : GReg) (addr : Addr) (b : GReg) (s : State) : Out :=
  atomOp .xor h ty mo d addr b s
/-- atom.swap. -/
def execAtomSwap (h : Hdr) (ty : Ty) (mo : MemOrd) (d : GReg) (addr : Addr) (b : GReg) (s : State) : Out :=
  atomOp .swap h ty mo d addr b s
/-- atom.cas: C holds the new value. -/
def execAtomCas (h : Hdr) (ty : Ty) (mo : MemOrd) (d : GReg) (addr : Addr) (b c : GReg) (s : State) : Out :=
  memVarOp s h addr.len [numG d, numG addr.base, numG b, numG c] (fun _ => false) fun t =>
    s.issueAtom s.focus addr.len t mo h.ch .cas ty (t.addr addr) (numG d) (t.getG b) (t.getG c)

/-- atom.red (R385): no result. After a .sc form the thread issues nothing until it is performed with respect to .dev (R253). -/
def execAtomRed (h : Hdr) (op : AtomOp) (ty : Ty) (mo : MemOrd) (addr : Addr) (b c : GReg) (s : State) : Out :=
  let names := match op with | .cas => [numG addr.base, numG b, numG c] | _ => [numG addr.base, numG b]
  memOp s h addr.len names (fun _ => false) fun t =>
    let th := s.focus
    let w := t.who th
    let n := atomBytes ty
    match s.reach w .atomic (t.addr addr) n n with
    | .error e => s.stopAccess th e
    | .ok ls =>
      if s.scGate t mo.sc then s.parkAt th .earliest
      else
        let c := match op with | .cas => t.getG c | _ => 0
        match s.sendGated th t t (storeRel mo) h.ch true mo.sc w ls (ls.map fun l => atomReq l.part (.atom op ty c) (t.getG b)) with
        | .error g => s.gated th g
        | .ok (done, s) => s.finish th addr.len done

-- Counters.

/-- A counter operation's checks (R371, R388): it needs RD and WR, and traps with PROT reason 1 on a T page, but where the reply to that
trap serves it (R165). -/
def State.reachCtr (s : State) (w : Who) (va n align : Nat) : Except Stop Located :=
  if va % align ≠ 0 then .error (.trap (.at .align .atomic va))
  else match s.locateAll w .atomic [(va, n)] with
    | .error e => .error e
    | .ok [l] =>
      if l.part.cls == .t && !l.part.remote then .error (.trap { Trap.protAt .atomic va 1 with leaf := some (l.part.cls, l.part.key) }) else .ok l
    | .ok _ => .error (.wait none)

/-- The release of a counter operation, on every class of page (R252). -/
def ctrOrd (scope : Scope) (_ : Cls) : Option Scope := some scope

/-- A counter operation of a speculative task is irrevocable (R114). -/
def State.ctrGate (s : State) (th : Nat) (t : Thread) (va : Nat) (x : Except Stop Located) (f : Located → State) :
    State :=
  match x with
  | .error e => s.stopAccess th e
  | .ok l =>
    match s.poisonTrap (t.who th) .atomic [l] with
    | some e => s.trap th { e with va := va }
    | none => if s.provisional t then s.parkAt th .earliest else f l

/-- ctradd (R390). -/
def execCtradd (h : Hdr) (scope : Scope) (addr : Addr) (b : GReg) (s : State) : Out :=
  memOp s h addr.len [numG addr.base, numG b] (fun _ => false) fun t =>
    let th := s.focus
    let w := t.who th
    let va := t.addr addr
    s.ctrGate th t va (s.reachCtr w va 8 8) fun l =>
      s.issueStores th addr.len t t (ctrOrd scope) h.ch true w [l] [atomReq l.part .ctradd (t.getG b)]

/-- ctrread (R390). -/
def execCtrread (h : Hdr) (scope : Scope) (d : GReg) (addr : Addr) (s : State) : Out :=
  memVarOp s h addr.len [numG d, numG addr.base] (fun _ => false) fun t =>
    let th := s.focus
    let w := t.who th
    let va := t.addr addr
    s.ctrGate th t va (s.reachCtr w va 8 8) fun l =>
      s.issueLoad th addr.len t (ctrOrd scope) noOrd false h.ch w .atomic [l] (numG d) .ctrRead none

/-- ctrarrive (R391). -/
def ctrArriveOp (h : Hdr) (max : Bool) (ty : Ty) (scope : Scope) (d : GReg) (addr : Addr) (b : GReg) (s : State) : Out :=
  memVarOp s h addr.len [numG d, numG addr.base, numG b] (fun _ => false) fun t =>
    let th := s.focus
    let w := t.who th
    let va := t.addr addr
    s.ctrGate th t va (s.reachCtr w va 16 16) fun l =>
      s.issueLoad th addr.len t noOrd (ctrOrd scope) false h.ch w .atomic [l] (numG d) (.ctrArrive max ty (t.getG b)) none

/-- ctrarrive.max. -/
def execCtrarriveMax (h : Hdr) (ty : Ty) (scope : Scope) (d : GReg) (addr : Addr) (b : GReg) (s : State) : Out :=
  ctrArriveOp h true ty scope d addr b s
/-- ctrarrive.sum.f32. -/
def execCtrarriveSum (h : Hdr) (scope : Scope) (d : GReg) (addr : Addr) (b : GReg) (s : State) : Out :=
  ctrArriveOp h false .f32 scope d addr b s

/-- The 16 bytes of a combining pair after an arrival (R391). -/
def ctrArrived (max : Bool) (ty : Ty) (b old : Nat) : Nat :=
  let count := ctrSum (old % 2 ^ 64) 1
  let lane := old / 2 ^ 64 % 2 ^ 64
  let lane := if max then
      (if ty = .f32 then f32Max (lane % 2 ^ 32) (b % 2 ^ 32)
       else if signedOf 64 lane < signedOf 64 b then b % 2 ^ 64 else lane)
    else f32Add (lane % 2 ^ 32) (b % 2 ^ 32)
  count + 2 ^ 64 * lane

/-- A counter operation that only reads is an event at the L3 home too (R228, R389). -/
def State.countCtr (s : State) (p : Part) : State := if p.place == Place.line then s.countWrite (p.pa / 128) else s
/-- The bytes of a counter as its serialising point holds them (R388). -/
def State.ctrValue (s : State) (th : Nat) (t : Thread) (p : Part) : Nat × State :=
  let r := s.homeLine (t.who th) (s.threadStorer th t p.cls 0) p
  (lineNat r.1 (p.pa % 128) p.len, r.2)

-- ctrwait (R392, R393).

/-- Entries of a tile's wait table in use. -/
def State.waitEntries (s : State) (tile : Nat) : Nat :=
  (s.threads.filter fun e => tileOf e.1 == tile &&
    match e.2.park with | .ctrwait _ _ _ _ _ 0 _ _ _ => true | _ => false).length

/-- End a ctrwait with its code: gD, gE, and the record of the Itinerary (R286), whose two words for the counter, the code and the
lane hold the lane's bits [63:62] above the counter's PA (log entry 75). -/
def State.endWait (s : State) (th : Nat) (d e : GReg) (pa len code lane count : Nat) : State :=
  match s.thread? th with
  | none => s
  | some t =>
    let t := (t.clearPend (numG d)).clearPend (numG e)
    let t := if e = d then t else t.setG e (BitVec.ofNat 64 lane)
    let t := t.setG d (BitVec.ofNat 64 code)
    let s := match t.task with
      | some k => s.itin k.run 4 (tileOf th) (BitVec.ofNat 64 (pa + lane / 2 ^ 62 % 4 * 2 ^ 62))
          (BitVec.ofNat 64 (code + 4 * (lane % 2 ^ 62))) (BitVec.ofNat 64 count)
      | none => s
    s.finish th len t

/-- What the home shows a ctrwait (R392): nothing yet; a fault of the counter; a trap of the access; the count and lane. -/
inductive CtrLook where
  | later
  | faulted
  | stops (t : Trap)
  | shows (count lane : Nat)
deriving DecidableEq, Repr

/-- A ctrwait looks at its counter, as an acquiring read of its thread at the home (R240, R248, R249, R252). -/
def State.waitLook (s : State) (th : Nat) (t : Thread) (p : Part) : CtrLook × State :=
  let w := t.who th
  let fenced := match p.place with | .stash x => s.fenced x | _ => false
  if !t.clearOf t.seq || !s.linesClear th t { t.relaxedRead 0 [p] with kind := .ctrRead } then (.later, s)
  else if s.keyGone p then (.stops (keyTrap .atomic p), s)
  else if fenced || s.homePoisoned w p then (.faulted, s.meetHome (poisonAt .atomic p) p)
  else
    let r := s.partReady w.run false p
    if !r.1 then (.later, r.2)
    else
      let pair := p.va % 16 == 0
      let v := r.2.ctrValue th t { p with len := if pair then 16 else 8 }
      (.shows (v.1 % 2 ^ 64) (if pair then v.1 / 2 ^ 64 else 0), v.2)

/-- Look once: end with 0 when satisfied, with 2 when faulted, trap where the access does; otherwise go on as other says, or as later
says when the home does not show the counter yet. asks: the thread sends a request, which the home counts (R228). -/
def State.waitTry (s : State) (th : Nat) (d e : GReg) (p : Part) (target : BitVec 64) (scope : Scope) (len : Nat)
    (asks : Bool) (other later : State → State) : State :=
  match s.thread? th with
  | none => s
  | some t =>
    match s.waitLook th t p with
    | (.faulted, s) => s.endWait th d e p.pa len 2 0 0
    | (.stops x, s) => (s.setThread th t.unwait).trap th x
    | (.shows count lane, s) =>
      let s := if asks then s.countCtr p else s
      if target.toNat ≤ count then
        (s.acquired (t.who th) p (some scope) none).endWait th d e p.pa len 0 lane count
      else other s
    | (.later, s) => later s

/-- ctrwait (R392): in replay the logged result is returned (R288). The first look is made at issue; then the wait holds an entry of
the tile's wait table, or polls when none of the 64 is free (R393). -/
def execCtrwait (h : Hdr) (scope : Scope) (d e : GReg) (addr : Addr) (b c : GReg) (s : State) : Out :=
  memVarOp s h addr.len [numG d, numG e, numG addr.base, numG b, numG c] (fun _ => false) fun t =>
    let th := s.focus
    let w := t.who th
    let va := t.addr addr
    let n := addr.len
    let ls := s.reachCtr w va 8 8
    let fault : Bool := match ls with
      | .error (.trap x) => x.cause == .peerfault
      | .error _ => false
      | .ok l => s.homePoisoned w l.part
    let pa : Nat := match ls with | .ok l => l.part.pa | .error _ => 0
    let stops : Bool := match ls with | .error _ => !fault | .ok _ => false
    if stops then s.ctrGate th t va ls fun _ => s
    else if s.provisional t then s.parkAt th .earliest
    else
      let rep := match t.task with
        | some k => s.itinTake k.run 4 (tileOf th) [(1, 52, pa)]
        | none => (none, s)
      let s := rep.2
      match rep.1, ls with
      | some r, _ =>
        let x := (s.itinWord r 2).toNat
        (s.setThread th { t with seq := t.seq + 1, remote := [] }).endWait th d e pa n (x % 4)
          (x / 4 + (s.itinWord r 1).toNat / 2 ^ 62 * 2 ^ 62) (s.itinWord r 3).toNat
      | none, .error _ => s.endWait th d e pa n 2 0 0
      | none, .ok l =>
        if fault then s.endWait th d e pa n 2 0 0
        else
          let s := s.useAll w .atomic [l]
          let s := s.setThread th { t with seq := t.seq + 1, remote := [] }
          let wait (s : State) : State :=
            let poll := if 64 ≤ s.waitEntries (tileOf th) then 64 else 0
            let s := s.onThread th fun t => (t.setPend (numG d)).setPend (numG e)
            s.parkAt th (.ctrwait d e l.part (t.getG b) (t.getG c).toNat poll poll scope n)
          s.waitTry th d e l.part (t.getG b) scope n true
            (fun s => if (t.getG c).toNat = 0 then s.endWait th d e l.part.pa n 1 0 0 else wait s)
            (fun s => if (t.getG c).toNat = 0 then (s.setThread th t).parkAt th .home else wait (s.countCtr l.part))

/-- CTRWAIT_NOTIFY: the home notifies a wait-table entry when its condition holds, or its counter has faulted; until then nothing
happens. -/
def State.ctrNotify (s : State) (th : Nat) : State :=
  match (if s.fatal then none else s.thread? th) with
  | some t => match t.park with
    | .ctrwait d e p target _ 0 _ scope len => s.waitTry th d e p target scope len false (fun _ => s) (fun s => s)
    | _ => s
  | none => s

/-- CTRWAIT_TIMEOUT: the cycles have passed; SATISFIED wins in the same cycle. Time-outs do not advance on a halted tile
(R279). -/
def State.ctrTimeout (s : State) (th : Nat) : State :=
  match (if s.fatal then none else s.thread? th) with
  | some t => match t.park with
    | .ctrwait d e p target 0 poll wait scope len =>
      let stop (s : State) : State := s.endWait th d e p.pa len 1 0 0
      if s.halted (tileOf th) then s
      else if poll = 0 ∨ wait = 0 then s.waitTry th d e p target scope len false stop stop else stop s
    | _ => s
  | none => s

/-- CTRWAIT_POLL: a thread without an entry polls at doubling intervals, and returns 3 when the next would pass 8,192
cycles. -/
def State.ctrPoll (s : State) (th : Nat) : State :=
  match (if s.fatal then none else s.thread? th) with
  | some t => match t.park with
    | .ctrwait d e p target left poll 0 scope len =>
      if poll = 0 then s
      else
        let next (s : State) : State :=
          if 8192 < 2 * poll then s.endWait th d e p.pa len 3 0 0
          else s.parkAt th (.ctrwait d e p target left (2 * poll) (2 * poll) scope len)
        s.waitTry th d e p target scope len true next next
    | _ => s
  | none => s

/-- CTRWAIT_NOTIFY (R393). -/
def execCtrwaitNotify (th : Nat) (s : State) : Out := .next (s.ctrNotify th)
/-- CTRWAIT_TIMEOUT (R392). -/
def execCtrwaitTimeout (th : Nat) (s : State) : Out := .next (s.ctrTimeout th)
/-- CTRWAIT_POLL (R393). -/
def execCtrwaitPoll (th : Nat) (s : State) : Out := .next (s.ctrPoll th)

-- Fences (R249, R394).

/-- Every earlier store of the thread, of an atomic or arrival among them, is performed with respect to a scope (R247). -/
def State.storesDone (s : State) (th : Nat) (scope : Scope) : Bool :=
  (s.storesOf th).isEmpty && !(match s.thread? th with | some t => t.outs.any fun o => o.isMem && o.isRmw | none => false) &&
    !(devScope scope && s.charged (.thread th))

/-- fence: it waits for the thread's earlier stores and then takes its place before every later access; loads not yet
bound order the later accesses (R249). A .sc fence acts at .dev or wider, in its place in S (R253). -/
def execFence (h : Hdr) (sc : Bool) (scope : Scope) (s : State) : Out :=
  memOp s h 8 [] (fun _ => false) fun t =>
    let th := s.focus
    let scope := if sc && scopeNum scope < 4 then .dev else scope
    let s := (if sc then s.enterS th t.seq else s).cleanTile (.thread th) (tileOf th) scope
    if s.storesDone th scope && s.turnInS th t.seq then
      (((s.leaveS th t.seq).noteStores th (some scope)).fenceCarries th t scope).finish th 8 (s.fencedThread th t scope)
    else s.parkAt th (.stores scope)

end Sys2Proof.Machine
end

