-- ==== Sys2Proof/Decode.lean ====
section
/-! DEFINITION. The decoder (R289 to R303 and the encoding tables of 13 to 18), total on any bytes and rejecting by
name; then the encoder, written from the same tables. -/
namespace Sys2Proof

/-- Why bytes are no instruction. Every reason but fetchx and short raises ILLOP. -/
inductive Reject where
  /-- LEN is 0b11 (R291): FETCHX. -/
  | fetchx
  /-- Fewer bytes than LEN names. -/
  | short
  /-- The major opcode is not in the map (R302). -/
  | opcode
  /-- The SUB or MODX value is not in the map (R302). -/
  | minor
  /-- The length is not one the opcode and SUB define (R290). -/
  | length
  /-- A reserved field is not zero (R6, R297). -/
  | reserved
  /-- An operand names a register of another class (R185). -/
  | operandClass
  /-- A type, scope, view or mode code that is reserved (R300, R301, R267). -/
  | code
  /-- A combination of fields that the instruction does not accept (Instr.wf). -/
  | form
deriving DecidableEq, Repr

/-- The fields of R289, and the extension: imm32 in [31:0], or the 64 bits of a 128-bit form. -/
structure Raw where
  e : BitVec 6
  c : BitVec 6
  b : BitVec 6
  a : BitVec 6
  d : BitVec 6
  fn : BitVec 13
  ch : BitVec 3
  mg : BitVec 4
  pg : BitVec 4
  op : BitVec 7
  sw : Bool
  len : BitVec 2
  ext : BitVec 64
deriving DecidableEq, Repr

/-- Pull the fields of R289 out of the first 64 bits. -/
def Raw.ofWord (w ext : BitVec 64) : Raw where
  e := w.extractLsb' 58 6
  c := w.extractLsb' 52 6
  b := w.extractLsb' 46 6
  a := w.extractLsb' 40 6
  d := w.extractLsb' 34 6
  fn := w.extractLsb' 21 13
  ch := w.extractLsb' 18 3
  mg := w.extractLsb' 14 4
  pg := w.extractLsb' 10 4
  op := w.extractLsb' 3 7
  sw := w.getLsbD 2
  len := w.extractLsb' 0 2
  ext := ext

/-- The first 64 bits that hold the fields. -/
def Raw.word (r : Raw) : BitVec 64 :=
  r.e ++ r.c ++ r.b ++ r.a ++ r.d ++ r.fn ++ r.ch ++ r.mg ++ r.pg ++ r.op ++ BitVec.ofBool r.sw ++ r.len

/-- TY of shapes A, M, L and X (R299). -/
def Raw.ty (r : Raw) : BitVec 5 := r.fn.extractLsb' 8 5
/-- SUB of shapes A and X. -/
def Raw.sub (r : Raw) : BitVec 4 := r.fn.extractLsb' 4 4
/-- SAT of shapes A and L. -/
def Raw.sat (r : Raw) : Bool := r.fn.getLsbD 3
/-- RM of shape A, VIEW of shape L. -/
def Raw.rm (r : Raw) : BitVec 3 := r.fn.extractLsb' 0 3
/-- MODX of shape X. -/
def Raw.modx (r : Raw) : BitVec 4 := r.fn.extractLsb' 0 4
/-- SCOPE of shapes M and L. -/
def Raw.scope (r : Raw) : BitVec 3 := r.fn.extractLsb' 5 3
/-- ORD of shape M. -/
def Raw.ord (r : Raw) : BitVec 2 := r.fn.extractLsb' 3 2
/-- SC of shape M. -/
def Raw.sc (r : Raw) : Bool := r.fn.getLsbD 2
/-- SUB of shape M. -/
def Raw.msub (r : Raw) : BitVec 2 := r.fn.extractLsb' 0 2
/-- ACQ of shape L. -/
def Raw.acq (r : Raw) : Bool := r.fn.getLsbD 4
/-- The imm32 of a 96-bit form, and IMMA of a 128-bit form. -/
def Raw.imma (r : Raw) : BitVec 32 := r.ext.extractLsb' 0 32
/-- IMMB of a 128-bit form. -/
def Raw.immb (r : Raw) : BitVec 32 := r.ext.extractLsb' 32 32
/-- The guards, hint and marker. -/
def Raw.hdr (r : Raw) : Hdr := ⟨r.pg, r.mg, r.ch, r.sw⟩

/-- Type codes (R300). -/
def Ty.code : Ty → BitVec 5
  | .none => 0 | .s8 => 1 | .s16 => 2 | .s32 => 3 | .s64 => 4 | .n8 => 5 | .n16 => 6 | .n32 => 7 | .n64 => 8
  | .s4 => 9 | .n4 => 10 | .f16 => 11 | .bf16 => 12 | .f32 => 13 | .f64 => 14 | .w80 => 15 | .e4m3 => 16
  | .e5m2 => 17 | .q4 => 18 | .nf k => 24 + k.setWidth 5

/-- The type a code names; 19–23 are reserved. -/
def Ty.ofCode (c : BitVec 5) : Except Reject Ty :=
  match c.toNat with
  | 0 => .ok .none | 1 => .ok .s8 | 2 => .ok .s16 | 3 => .ok .s32 | 4 => .ok .s64 | 5 => .ok .n8 | 6 => .ok .n16
  | 7 => .ok .n32 | 8 => .ok .n64 | 9 => .ok .s4 | 10 => .ok .n4 | 11 => .ok .f16 | 12 => .ok .bf16 | 13 => .ok .f32
  | 14 => .ok .f64 | 15 => .ok .w80 | 16 => .ok .e4m3 | 17 => .ok .e5m2 | 18 => .ok .q4
  | n => if n < 24 then .error .code else .ok (.nf (c.setWidth 3))

/-- Scope codes (R301). -/
def Scope.code : Scope → BitVec 3
  | .thread => 0 | .core => 1 | .tile => 2 | .quad => 3 | .dev => 4 | .sys => 5

/-- The scope a code names; 6 and 7 are reserved. -/
def Scope.ofCode (c : BitVec 3) : Except Reject Scope :=
  match c.toNat with
  | 0 => .ok .thread | 1 => .ok .core | 2 => .ok .tile | 3 => .ok .quad | 4 => .ok .dev | 5 => .ok .sys
  | _ => .error .code

/-- Annotation codes (R301). -/
def Ord.code : Ord → BitVec 2
  | .relaxed => 0 | .acq => 1 | .rel => 2 | .acqrel => 3

/-- The annotation a code names. -/
def Ord.ofCode (c : BitVec 2) : Ord :=
  match c.toNat with
  | 0 => .relaxed | 1 => .acq | 2 => .rel | _ => .acqrel

/-- Rounding-mode codes (R267). -/
def Rm.code : Rm → BitVec 3
  | .rne => 0 | .rtz => 1 | .rdn => 2 | .rup => 3 | .sr => 4

/-- The mode a code names; 5 to 7 trap. -/
def Rm.ofCode (c : BitVec 3) : Except Reject Rm :=
  match c.toNat with
  | 0 => .ok .rne | 1 => .ok .rtz | 2 => .ok .rdn | 3 => .ok .rup | 4 => .ok .sr | _ => .error .code

/-- View codes (R216). -/
def View.code : View → BitVec 3
  | .full => 0 | .f16 => 1 | .bf16 => 2 | .e5m2 => 3 | .e4m3 => 4

/-- The view a code names; 5 to 7 trap. -/
def View.ofCode (c : BitVec 3) : Except Reject View :=
  match c.toNat with
  | 0 => .ok .full | 1 => .ok .f16 | 2 => .ok .bf16 | 3 => .ok .e5m2 | 4 => .ok .e4m3 | _ => .error .code

/-- SUB codes of pcmp and vcmp (R302). -/
def Cmp.code : Cmp → BitVec 4
  | .eq => 0 | .ne => 1 | .lt => 2 | .le => 3 | .gt => 4 | .ge => 5
/-- The comparison a SUB names. -/
def Cmp.ofCode (c : BitVec 4) : Except Reject Cmp :=
  match c.toNat with
  | 0 => .ok .eq | 1 => .ok .ne | 2 => .ok .lt | 3 => .ok .le | 4 => .ok .gt | 5 => .ok .ge | _ => .error .minor

/-- SUB codes of vfcmp. -/
def FCmp.code : FCmp → BitVec 4
  | .eq => 0 | .ne => 1 | .lt => 2 | .le => 3 | .gt => 4 | .ge => 5 | .uo => 6
/-- The comparison a SUB of vfcmp names. -/
def FCmp.ofCode (c : BitVec 4) : Except Reject FCmp :=
  match c.toNat with
  | 0 => .ok .eq | 1 => .ok .ne | 2 => .ok .lt | 3 => .ok .le | 4 => .ok .gt | 5 => .ok .ge | 6 => .ok .uo
  | _ => .error .minor

/-- SUB codes of plog, mlog and vlog. -/
def LogOp.code : LogOp → BitVec 4
  | .and => 0 | .or => 1 | .xor => 2 | .andn => 3 | .not => 4
/-- The operation a SUB names. -/
def LogOp.ofCode (c : BitVec 4) : Except Reject LogOp :=
  match c.toNat with
  | 0 => .ok .and | 1 => .ok .or | 2 => .ok .xor | 3 => .ok .andn | 4 => .ok .not | _ => .error .minor

/-- SUB codes of bit. -/
def BitOp.code : BitOp → BitVec 4
  | .clz => 0 | .ctz => 1 | .popc => 2 | .brev => 3
/-- The operation a SUB of bit names. -/
def BitOp.ofCode (c : BitVec 4) : Except Reject BitOp :=
  match c.toNat with
  | 0 => .ok .clz | 1 => .ok .ctz | 2 => .ok .popc | 3 => .ok .brev | _ => .error .minor

/-- SUB codes of mcnt. -/
def CntOp.code : CntOp → BitVec 4
  | .popc => 0 | .first => 1 | .last => 2
/-- The count a SUB of mcnt names. -/
def CntOp.ofCode (c : BitVec 4) : Except Reject CntOp :=
  match c.toNat with
  | 0 => .ok .popc | 1 => .ok .first | 2 => .ok .last | _ => .error .minor

/-- SUB codes of vfsgn. -/
def SgnOp.code : SgnOp → BitVec 4
  | .abs => 0 | .neg => 1 | .copysign => 2
/-- The operation a SUB of vfsgn names. -/
def SgnOp.ofCode (c : BitVec 4) : Except Reject SgnOp :=
  match c.toNat with
  | 0 => .ok .abs | 1 => .ok .neg | 2 => .ok .copysign | _ => .error .minor

/-- SUB codes of vfred. -/
def FRedOp.code : FRedOp → BitVec 4
  | .sum => 0 | .max => 1 | .min => 2
/-- The reduction a SUB of vfred names. -/
def FRedOp.ofCode (c : BitVec 4) : Except Reject FRedOp :=
  match c.toNat with
  | 0 => .ok .sum | 1 => .ok .max | 2 => .ok .min | _ => .error .minor

/-- SUB codes of vred. -/
def RedOp.code : RedOp → BitVec 4
  | .sum => 0 | .min => 1 | .max => 2 | .and => 3 | .or => 4 | .xor => 5
/-- The reduction a SUB of vred names. -/
def RedOp.ofCode (c : BitVec 4) : Except Reject RedOp :=
  match c.toNat with
  | 0 => .ok .sum | 1 => .ok .min | 2 => .ok .max | 3 => .ok .and | 4 => .ok .or | 5 => .ok .xor
  | _ => .error .minor

/-- SUB codes of vsh. -/
def ShOp.code : ShOp → BitVec 4
  | .shl => 0 | .shr => 1 | .sar => 2
/-- The shift a SUB of vsh names. -/
def ShOp.ofCode (c : BitVec 4) : Except Reject ShOp :=
  match c.toNat with
  | 0 => .ok .shl | 1 => .ok .shr | 2 => .ok .sar | _ => .error .minor

/-- SUB codes of vslide. -/
def SlideOp.code : SlideOp → BitVec 4
  | .down => 0 | .up => 1 | .rot => 2
/-- The slide a SUB of vslide names. -/
def SlideOp.ofCode (c : BitVec 4) : Except Reject SlideOp :=
  match c.toNat with
  | 0 => .ok .down | 1 => .ok .up | 2 => .ok .rot | _ => .error .minor

/-- SUB of atom within opcodes 0x6C/0x6E (false) and 0x6D/0x6F (true) (R385). -/
def AtomOp.code : AtomOp → Bool × BitVec 2
  | .add => (false, 0) | .min => (false, 1) | .max => (false, 2) | .and => (false, 3)
  | .or => (true, 0) | .xor => (true, 1) | .swap => (true, 2) | .cas => (true, 3)
/-- The atomic that an opcode and SUB name. -/
def AtomOp.ofCode (hi : Bool) (c : BitVec 2) : AtomOp :=
  match hi, c.toNat with
  | false, 0 => .add | false, 1 => .min | false, 2 => .max | false, _ => .and
  | true, 0 => .or | true, 1 => .xor | true, 2 => .swap | true, _ => .cas

/-- SUB codes of packed ld and st (R375). -/
def Blk.code : Blk → BitVec 2
  | .one => 0 | .two => 1 | .four => 2 | .all => 3
/-- The block count a SUB names. -/
def Blk.ofCode (c : BitVec 2) : Blk :=
  match c.toNat with
  | 0 => .one | 1 => .two | 2 => .four | _ => .all

/-- Hint-mode codes (R107). -/
def HMode.code : HMode → BitVec 2
  | .none => 0 | .hash => 1 | .addr => 2 | .tile => 3
/-- The hint mode a code names. -/
def HMode.ofCode (c : BitVec 2) : HMode :=
  match c.toNat with
  | 0 => .none | 1 => .hash | 2 => .addr | _ => .tile

/-- MODX[3:1] of prrow (R410). -/
def RowOp.code : RowOp → BitVec 3
  | .sum => 0 | .max => 1 | .merge => 2
/-- The operation MODX[3:1] names; 3 and above trap. -/
def RowOp.ofCode (c : BitVec 3) : Except Reject RowOp :=
  match c.toNat with
  | 0 => .ok .sum | 1 => .ok .max | 2 => .ok .merge | _ => .error .minor

/-- Operand numbering (R185): g0–g15 are 0–15. -/
def GReg.code (g : GReg) : BitVec 6 := g.setWidth 6
/-- w0–w31 are 16–47. -/
def WReg.code (w : WReg) : BitVec 6 := w.setWidth 6 + 16
/-- m0–m7 are 48–55. -/
def MReg.code (m : MReg) : BitVec 6 := m.setWidth 6 + 48
/-- p0–p7 are 56–63. -/
def PReg.code (p : PReg) : BitVec 6 := p.setWidth 6 + 56
/-- A field that names a g register. -/
def gOf (x : BitVec 6) : Except Reject GReg := if x.toNat < 16 then .ok (x.setWidth 4) else .error .operandClass
/-- A field that names a w register. -/
def wOf (x : BitVec 6) : Except Reject WReg :=
  if 16 ≤ x.toNat ∧ x.toNat < 48 then .ok ((x - 16).setWidth 5) else .error .operandClass
/-- A field that names an m register. -/
def mOf (x : BitVec 6) : Except Reject MReg :=
  if 48 ≤ x.toNat ∧ x.toNat < 56 then .ok ((x - 48).setWidth 3) else .error .operandClass
/-- A field that names a p register. -/
def pOf (x : BitVec 6) : Except Reject PReg :=
  if 56 ≤ x.toNat then .ok ((x - 56).setWidth 3) else .error .operandClass
/-- A field that names a g or a w register. -/
def gwOf (x : BitVec 6) : Except Reject GW :=
  if x.toNat < 16 then .ok (.g (x.setWidth 4))
  else if x.toNat < 48 then .ok (.w ((x - 16).setWidth 5)) else .error .operandClass
/-- The number of a g or w operand. -/
def GW.code : GW → BitVec 6
  | .g r => GReg.code r
  | .w r => WReg.code r

/-- A condition the encoding must meet. -/
def need (p : Bool) (x : Reject) : Except Reject Unit := if p then .ok () else .error x

/-- The operand fields that the instruction leaves unused are zero (R297). -/
def Raw.unused (r : Raw) (d a b c e : Bool) : Except Reject Unit :=
  need ((!d || r.d == 0) && (!a || r.a == 0) && (!b || r.b == 0) && (!c || r.c == 0) && (!e || r.e == 0)) .reserved

/-- The length is 64 bits. -/
def Raw.len64 (r : Raw) : Except Reject Unit := need (r.len == 0) .length
/-- The length is 96 bits. -/
def Raw.len96 (r : Raw) : Except Reject Unit := need (r.len == 1) .length
/-- The length is 128 bits. -/
def Raw.len128 (r : Raw) : Except Reject Unit := need (r.len == 2) .length

/-- The last source of a form with three lengths; its field is x (R298). -/
def Raw.src (r : Raw) (x : BitVec 6) : Except Reject Src :=
  match r.len.toNat with
  | 0 => do return .reg (← gOf x)
  | 1 => do need (x == 0) .reserved; return .imm32 r.imma
  | _ => do need (x == 0) .reserved; return .imm64 r.ext

/-- The last source of a form with two lengths. -/
def Raw.src32 (r : Raw) (x : BitVec 6) : Except Reject Src32 :=
  match r.len.toNat with
  | 0 => do return .reg (← gOf x)
  | 1 => do need (x == 0) .reserved; return .imm r.imma
  | _ => .error .length

/-- A memory operand based on gA (R368). -/
def Raw.addr (r : Raw) : Except Reject Addr :=
  match r.len.toNat with
  | 0 => do return ⟨← gOf r.a, none⟩
  | 1 => do return ⟨← gOf r.a, some r.imma⟩
  | _ => .error .length

/-- SCOPE, ORD and SC of shape M. -/
def Raw.memOrd (r : Raw) : Except Reject MemOrd := do return ⟨← Scope.ofCode r.scope, Ord.ofCode r.ord, r.sc⟩

/-- A shape-A scalar instruction with SUB 0, RM 0 and three lengths. -/
def Raw.scalar3 (r : Raw) (sat : Bool) (k : Hdr → Ty → Bool → GReg → GReg → Src → Instr) : Except Reject Instr := do
  need (r.sub == 0) .minor
  need (r.rm == 0 && (sat || !r.sat)) .reserved
  r.unused false false false true true
  return k r.hdr (← Ty.ofCode r.ty) r.sat (← gOf r.d) (← gOf r.a) (← r.src r.b)

/-- A shape-A scalar instruction with two lengths. -/
def Raw.scalar2 (r : Raw) (sub : BitVec 4) (k : Hdr → Ty → GReg → GReg → Src32 → Instr) : Except Reject Instr := do
  need (r.sub == sub) .minor
  need (r.rm == 0 && !r.sat) .reserved
  r.unused false false false true true
  return k r.hdr (← Ty.ofCode r.ty) (← gOf r.d) (← gOf r.a) (← r.src32 r.b)

/-- Opcodes 0x00 to 0x17 (R313, R320, R321). -/
def decodeScalar (r : Raw) : Except Reject Instr :=
  match r.op.toNat with
  | 0x00 => r.scalar3 true fun h t s d a b => .add h t s d a b
  | 0x01 => r.scalar3 true fun h t s d a b => .sub h t s d a b
  | 0x02 => r.scalar3 true fun h t s d a b => .mul h t s d a b
  | 0x03 => r.scalar3 false fun h t _ d a b => .mulh h t d a b
  | 0x04 => r.scalar3 false fun h t _ d a b => .div h t d a b
  | 0x05 => r.scalar3 false fun h t _ d a b => .rem h t d a b
  | 0x06 => r.scalar3 false fun h t _ d a b => .min h t d a b
  | 0x07 => r.scalar3 false fun h t _ d a b => .max h t d a b
  | 0x08 => r.scalar3 false fun h t _ d a b => .and h t d a b
  | 0x09 => r.scalar3 false fun h t _ d a b => .or h t d a b
  | 0x0A => r.scalar3 false fun h t _ d a b => .xor h t d a b
  | 0x0B => r.scalar3 false fun h t _ d a b => .andn h t d a b
  | 0x0C => r.scalar2 0 .shl
  | 0x0D => r.scalar2 0 .shr
  | 0x0E => r.scalar2 0 .sar
  | 0x0F => r.scalar2 (if r.sub == 1 then 1 else 0) fun h t d a b => .rot h (r.sub == 1) t d a b
  | 0x10 => do
    need (r.sub == 0) .minor
    need (r.rm == 0 && !r.sat) .reserved
    r.unused false false true true true
    return .mov r.hdr (← Ty.ofCode r.ty) (← gOf r.d) (← r.src r.a)
  | 0x11 => do
    r.len64
    need (r.sub == 0) .minor
    need (r.rm == 0 && !r.sat && r.ty == 0) .reserved
    r.unused false false false false true
    return .sel r.hdr (← gOf r.d) (← gOf r.a) (← gOf r.b) (← pOf r.c)
  | 0x12 => do
    r.len64
    need (r.rm == 0 && !r.sat) .reserved
    r.unused false false true true true
    return .bit r.hdr (← BitOp.ofCode r.sub) (← Ty.ofCode r.ty) (← gOf r.d) (← gOf r.a)
  | 0x13 => if r.sub == 1 then r.scalar2 1 .bins else r.scalar2 0 .bext
  | 0x14 => do
    r.len64
    need (r.sub == 0) .minor
    need (r.rm == 0 && !r.sat && !r.e.getLsbD 5) .reserved
    r.unused false false true true false
    return .cvt r.hdr (← Ty.ofCode (r.e.setWidth 5)) (← Ty.ofCode r.ty) (← gOf r.d) (← gOf r.a)
  | 0x15 => do
    need (!r.sub.getLsbD 3) .minor
    need (r.rm == 0 && !r.sat && r.ty == 0) .reserved
    r.unused false false false true true
    return .lea r.hdr (r.sub.setWidth 3) (← gOf r.d) (← gOf r.a) (← r.src32 r.b)
  | 0x16 => do
    r.len64
    need (r.ty == 0) .reserved
    r.unused true true true true true
    match r.sub.toNat with
    | 0 => do need (r.modx == 0) .reserved; return .bkpt r.hdr
    | 1 => return .swtrap r.hdr r.modx
    | _ => .error .minor
  | 0x17 => do
    need (r.sub == 0) .minor
    need (r.ty == 0 && r.modx == 0) .reserved
    r.unused true true true true true
    return .nop r.hdr (match r.len.toNat with | 0 => .none | 1 => .ext32 r.imma | _ => .ext64 r.ext)
  | _ => .error .opcode

/-- Shape X with TY 0 and MODX 0. -/
def Raw.plainX (r : Raw) : Except Reject Unit := need (r.ty == 0 && r.modx == 0) .reserved

/-- Opcodes 0x18 to 0x1E (R322). -/
def decodePred (r : Raw) : Except Reject Instr :=
  match r.op.toNat with
  | 0x18 => do
    need (r.rm == 0 && !r.sat) .reserved
    r.unused false false false true true
    return .pcmp r.hdr (← Cmp.ofCode r.sub) (← Ty.ofCode r.ty) (← pOf r.d) (← gOf r.a) (← r.src32 r.b)
  | 0x19 => do
    r.len64
    r.plainX
    r.unused false false false true true
    let op ← LogOp.ofCode r.sub
    if op == .not then do
      need (r.b == 0) .reserved
      return .plog r.hdr op (← pOf r.d) (← pOf r.a) 0
    else return .plog r.hdr op (← pOf r.d) (← pOf r.a) (← pOf r.b)
  | 0x1A => do
    r.len64
    r.plainX
    r.unused false false false true true
    let op ← LogOp.ofCode r.sub
    if op == .not then do
      need (r.b == 0) .reserved
      return .mlog r.hdr op (← mOf r.d) (← mOf r.a) 0
    else return .mlog r.hdr op (← mOf r.d) (← mOf r.a) (← mOf r.b)
  | 0x1B => do
    r.plainX
    r.unused false false true true true
    match r.sub.toNat with
    | 0 => do r.len64; return .mmovMG r.hdr (← mOf r.d) (← gOf r.a)
    | 1 => do r.len64; return .mmovGM r.hdr (← gOf r.d) (← mOf r.a)
    | 2 => do
      need (r.a == 0) .reserved
      match r.len.toNat with
      | 1 => do return .mmovMImm r.hdr (← mOf r.d) (.imm32 r.imma)
      | 2 => do return .mmovMImm r.hdr (← mOf r.d) (.imm64 r.ext)
      | _ => .error .length
    | _ => .error .minor
  | 0x1C => do
    r.len64
    r.plainX
    r.unused false false true true true
    return .mcnt r.hdr (← CntOp.ofCode r.sub) (← gOf r.d) (← mOf r.a)
  | 0x1D => do
    need (r.sub == 0) .minor
    need (r.modx == 0) .reserved
    r.unused false false true true true
    return .mfirst r.hdr (← Ty.ofCode r.ty) (← mOf r.d) (← r.src32 r.a)
  | 0x1E => do
    r.len64
    r.plainX
    r.unused false false true true true
    match r.sub.toNat with
    | 0 => do return .pmovPG r.hdr (← pOf r.d) (← gOf r.a)
    | 1 => do return .pmovGP r.hdr (← gOf r.d) (← pOf r.a)
    | _ => .error .minor
  | _ => .error .opcode

/-- Opcodes 0x20 to 0x2F (R325, R328, R329). -/
def decodeControl (r : Raw) : Except Reject Instr :=
  match r.op.toNat with
  | 0x20 => do
    r.len96
    need (r.sub == 0) .minor
    r.plainX
    r.unused true true true true true
    return .br r.hdr r.imma
  | 0x21 => do
    r.len64
    r.plainX
    r.unused false false true true true
    match r.sub.toNat with
    | 0 => do need (r.d == 0) .reserved; return .jr r.hdr (← gOf r.a)
    | 1 => do return .callr r.hdr (← gOf r.d) (← gOf r.a)
    | _ => .error .minor
  | 0x22 => do
    r.len96
    need (r.sub == 0) .minor
    r.plainX
    r.unused false true true true true
    return .call r.hdr (← gOf r.d) r.imma
  | 0x23 => do
    r.len64
    need (r.sub == 0) .minor
    r.plainX
    r.unused true false true true true
    return .ret r.hdr (← gOf r.a)
  | 0x24 => do
    r.len96
    need (r.sub == 0) .minor
    r.plainX
    r.unused false true true true true
    return .loop r.hdr (← gOf r.d) r.imma
  | 0x25 => do
    need (r.ty == 0) .reserved
    r.unused true false true true true
    match r.sub.toNat with
    | 0 => do r.len64; return .repeatReg r.hdr r.modx (← gOf r.a)
    | 1 => do r.len96; need (r.a == 0) .reserved; return .repeatImm r.hdr r.modx r.imma
    | _ => .error .minor
  | 0x2C => do
    r.len64
    need (r.ty == 0) .reserved
    r.unused false true true true true
    return .idr r.hdr (← gOf r.d) (r.fn.setWidth 8)
  | 0x2D => do
    r.len64
    need (r.ty == 0) .reserved
    r.unused false true true true true
    return .ucrr r.hdr (← gOf r.d) (r.fn.setWidth 8)
  | 0x2E => do
    r.len64
    need (r.ty == 0) .reserved
    r.unused true false true true true
    return .ucrw r.hdr (← gOf r.a) (r.fn.setWidth 8)
  | 0x2F => do
    r.len64
    r.plainX
    r.unused false true true true true
    match r.sub.toNat with
    | 0 => do return .rdtimeCyc r.hdr (← gOf r.d)
    | 1 => do return .rdtimeNs r.hdr (← gOf r.d)
    | _ => .error .minor
  | _ => .error .opcode

/-- The register number of sysr and sysw (R303). -/
def Raw.regSel (r : Raw) : Except Reject RegSel :=
  match r.len.toNat with
  | 0 => do return .reg (← gOf r.a)
  | 1 => do
    need (r.a == 0 && r.imma.toNat < 2 ^ 12) .reserved
    return .num (r.imma.setWidth 12)
  | _ => .error .length

/-- Opcode 0x7F (R330). -/
def decodeSystem (r : Raw) : Except Reject Instr := do
  need (r.ty == 0) .reserved
  match r.sub.toNat with
  | 0 => do
    need (r.modx == 0) .reserved
    r.unused false false true true true
    return .sysr r.hdr (← gOf r.d) (← r.regSel)
  | 1 => do
    need (r.modx == 0) .reserved
    r.unused true false false true true
    return .sysw r.hdr (← r.regSel) (← gOf r.b)
  | 2 => do
    r.unused true false false true true
    match r.modx.toNat with
    | 0 => do need (r.b == 0) .reserved; return .faultreplyRetry r.hdr (← r.src32 r.a)
    | 1 => do return .faultreplyRemote r.hdr (← gOf r.b) (← r.src32 r.a)
    | 2 => do need (r.b == 0) .reserved; return .faultreplyKilltask r.hdr (← r.src32 r.a)
    | 3 => do need (r.b == 0) .reserved; return .faultreplyKillrun r.hdr (← r.src32 r.a)
    | _ => .error .minor
  | 3 => do
    need (r.modx == 0) .reserved
    r.unused false false true true true
    return .fltwait r.hdr (← gOf r.d) (← r.src32 r.a)
  | 4 => do
    need (r.modx == 0) .reserved
    r.unused true false false true true
    return .purge r.hdr (← r.addr) (← gOf r.b)
  | 5 => do
    need (r.modx == 0) .reserved
    r.unused true false false true true
    return .cflush r.hdr (← r.addr) (← gOf r.b)
  | 6 => do
    need (r.modx == 0) .reserved
    r.unused true false false true true
    return .cinval r.hdr (← r.addr) (← gOf r.b)
  | 7 => do
    r.unused true false false true true
    match r.modx.toNat with
    | 0 => do return .tlbinvPage r.hdr (← gOf r.a) (← r.src32 r.b)
    | 1 => do need (r.a == 0) .reserved; return .tlbinvAsid r.hdr (← r.src32 r.b)
    | 2 => do r.len64; need (r.a == 0 && r.b == 0) .reserved; return .tlbinvAll r.hdr
    | _ => .error .minor
  | _ => .error .minor

/-- A vector instruction with w operands D, A and B, SUB 0, RM and SAT as the table gives them (R345). -/
def Raw.vf2 (r : Raw) (rm sat : Bool) (k : Hdr → Ty → Rm → Bool → WReg → WReg → WReg → Instr) :
    Except Reject Instr := do
  need (r.sub == 0) .minor
  need ((rm || r.rm == 0) && (sat || !r.sat)) .reserved
  r.unused false false false true true
  return k r.hdr (← Ty.ofCode r.ty) (← Rm.ofCode r.rm) r.sat (← wOf r.d) (← wOf r.a) (← wOf r.b)

/-- A fused vector instruction: D, A, B and C. -/
def Raw.vf3 (r : Raw) (k : Hdr → Ty → Rm → Bool → WReg → WReg → WReg → WReg → Instr) : Except Reject Instr := do
  need (r.sub == 0) .minor
  r.unused false false false false true
  return k r.hdr (← Ty.ofCode r.ty) (← Rm.ofCode r.rm) r.sat (← wOf r.d) (← wOf r.a) (← wOf r.b) (← wOf r.c)

/-- A vector instruction with one w source. -/
def Raw.vf1 (r : Raw) (sat : Bool) (k : Hdr → Ty → Rm → Bool → WReg → WReg → Instr) : Except Reject Instr := do
  need (r.sub == 0) .minor
  need (sat || !r.sat) .reserved
  r.unused false false true true true
  return k r.hdr (← Ty.ofCode r.ty) (← Rm.ofCode r.rm) r.sat (← wOf r.d) (← wOf r.a)

/-- The optional accumulator of a reduction (R355). -/
def Raw.accum (r : Raw) : Except Reject (Option WReg) :=
  if r.c == 0 then .ok none else do return some (← wOf r.c)

/-- Opcodes 0x30 to 0x44 (R345). -/
def decodeVectorFp (r : Raw) : Except Reject Instr := do
  r.len64
  match r.op.toNat with
  | 0x30 => r.vf2 true true .vfadd
  | 0x31 => r.vf2 true true .vfsub
  | 0x32 => r.vf2 true true .vfmul
  | 0x33 => r.vf3 .vfma
  | 0x34 => r.vf3 .vfms
  | 0x35 => r.vf3 .vfnma
  | 0x36 => r.vf2 false false fun h t _ _ d a b => .vfmin h t d a b
  | 0x37 => r.vf2 false false fun h t _ _ d a b => .vfmax h t d a b
  | 0x38 => do
    need (r.rm == 0 && !r.sat) .reserved
    r.unused false false false true true
    let op ← SgnOp.ofCode r.sub
    if op == .copysign then return .vfsgn r.hdr op (← Ty.ofCode r.ty) (← wOf r.d) (← wOf r.a) (← wOf r.b)
    else do
      need (r.b == 0) .reserved
      return .vfsgn r.hdr op (← Ty.ofCode r.ty) (← wOf r.d) (← wOf r.a) 0
  | 0x39 => do
    need (r.rm == 0 && !r.sat) .reserved
    r.unused false false false true true
    return .vfcmp r.hdr (← FCmp.ofCode r.sub) (← Ty.ofCode r.ty) (← mOf r.d) (← wOf r.a) (← wOf r.b)
  | 0x3A => do
    need (!r.e.getLsbD 5) .reserved
    r.unused false false true true false
    return .vfcvt r.hdr (← Ty.ofCode (r.e.setWidth 5)) (← Ty.ofCode r.ty) r.sub (← Rm.ofCode r.rm) r.sat
      (← wOf r.d) (← wOf r.a)
  | 0x3B => r.vf2 true true .vfdiv
  | 0x3C => r.vf1 true .vfsqrt
  | 0x3D => r.vf1 true .vfrcp
  | 0x3E => r.vf1 true .vfrsq
  | 0x3F => r.vf1 true .vfexp2
  | 0x40 => r.vf1 true .vflog2
  | 0x41 => do
    need (!r.sat) .reserved
    r.unused false false true false true
    return .vfred r.hdr (← FRedOp.ofCode r.sub) (← Ty.ofCode r.ty) (← Rm.ofCode r.rm) (← wOf r.d) (← wOf r.a)
      (← r.accum)
  | 0x42 => r.vf2 false false fun h t _ _ d a b => .vfmerge h t d a b
  | 0x43 => do
    need (r.sub == 0 || r.sub == 1) .minor
    r.unused false false false true true
    return .vfscale r.hdr (r.sub == 1) (← Ty.ofCode r.ty) (← Rm.ofCode r.rm) r.sat (← wOf r.d) (← wOf r.a)
      (← wOf r.b)
  | 0x44 => r.vf1 false fun h t m _ d a => .vfrint h t m d a
  | _ => .error .opcode

/-- An integer vector instruction with w operands D, A and B. -/
def Raw.vi2 (r : Raw) (k : Hdr → Ty → Bool → WReg → WReg → WReg → Instr) : Except Reject Instr := do
  need (r.rm == 0) .reserved
  r.unused false false false true true
  return k r.hdr (← Ty.ofCode r.ty) r.sat (← wOf r.d) (← wOf r.a) (← wOf r.b)

/-- Opcodes 0x50 to 0x5F (R358). -/
def decodeVectorInt (r : Raw) : Except Reject Instr :=
  match r.op.toNat with
  | 0x50 => do r.len64; need (r.sub == 0) .minor; r.vi2 .vadd
  | 0x51 => do r.len64; need (r.sub == 0) .minor; r.vi2 .vsub
  | 0x52 => do
    r.len64
    need (r.sub == 0 || r.sub == 1) .minor
    r.vi2 fun h t s d a b => .vmul h (r.sub == 1) t s d a b
  | 0x53 => do
    r.len64
    need (r.sub == 0 || r.sub == 1) .minor
    need (!r.sat) .reserved
    r.vi2 fun h t _ d a b => .vmm h (r.sub == 1) t d a b
  | 0x54 => do
    r.len64
    need (r.rm == 0 && !r.sat) .reserved
    r.unused false false false true true
    let op ← LogOp.ofCode r.sub
    if op == .not then do
      need (r.b == 0) .reserved
      return .vlog r.hdr op (← Ty.ofCode r.ty) (← wOf r.d) (← wOf r.a) 0
    else return .vlog r.hdr op (← Ty.ofCode r.ty) (← wOf r.d) (← wOf r.a) (← wOf r.b)
  | 0x55 => do
    r.len64
    need (!r.sat) .reserved
    let op ← ShOp.ofCode r.sub
    r.vi2 fun h t _ d a b => .vsh h op t d a b
  | 0x56 => do
    r.len64
    need (r.rm == 0 && !r.sat) .reserved
    r.unused false false false true true
    return .vcmp r.hdr (← Cmp.ofCode r.sub) (← Ty.ofCode r.ty) (← mOf r.d) (← wOf r.a) (← wOf r.b)
  | 0x57 => do
    r.len64
    need (r.rm == 0 && !r.sat && !r.e.getLsbD 5) .reserved
    r.unused false false true true false
    return .vcvt r.hdr (← Ty.ofCode (r.e.setWidth 5)) (← Ty.ofCode r.ty) r.sub (← wOf r.d) (← wOf r.a)
  | 0x58 => do
    need (r.rm == 0 && !r.sat) .reserved
    r.unused false false false true true
    match r.sub.toNat with
    | 0 => do
      r.len64
      need (r.b == 0) .reserved
      return .vbcastG r.hdr (← Ty.ofCode r.ty) (← wOf r.d) (← gOf r.a)
    | 1 => do
      need (r.a == 0 && r.b == 0) .reserved
      match r.len.toNat with
      | 1 => do return .vbcastImm r.hdr (← Ty.ofCode r.ty) (← wOf r.d) (.imm32 r.imma)
      | 2 => do return .vbcastImm r.hdr (← Ty.ofCode r.ty) (← wOf r.d) (.imm64 r.ext)
      | _ => .error .length
    | 2 => do
      r.len64
      return .vbcastLane r.hdr (← Ty.ofCode r.ty) (← wOf r.d) (← wOf r.a) (← gOf r.b)
    | _ => .error .minor
  | 0x59 => do
    r.len64
    need (r.sub == 0) .minor
    need (!r.sat) .reserved
    r.vi2 fun h t _ d a b => .vshuf h t d a b
  | 0x5A => do
    r.len64
    need (r.rm == 0 && !r.sat) .reserved
    r.unused false false false true true
    return .vslide r.hdr (← SlideOp.ofCode r.sub) (← Ty.ofCode r.ty) (← wOf r.d) (← wOf r.a) (← gOf r.b)
  | 0x5B => do
    r.len64
    need (r.sub == 0) .minor
    need (r.rm == 0 && !r.sat) .reserved
    r.unused false false false false true
    return .vsel r.hdr (← Ty.ofCode r.ty) (← wOf r.d) (← wOf r.a) (← wOf r.b) (← mOf r.c)
  | 0x5C => do
    r.len64
    need (r.rm == 0 && !r.sat) .reserved
    r.unused false false false true true
    match r.sub.toNat with
    | 0 => do return .vmovgG r.hdr (← Ty.ofCode r.ty) (← gOf r.d) (← wOf r.a) (← gOf r.b)
    | 1 => do return .vmovgW r.hdr (← Ty.ofCode r.ty) (← wOf r.d) (← gOf r.a) (← gOf r.b)
    | _ => .error .minor
  | 0x5D => do
    r.len64
    need (r.rm == 0) .reserved
    r.unused false false true false true
    return .vred r.hdr (← RedOp.ofCode r.sub) (← Ty.ofCode r.ty) r.sat (← wOf r.d) (← wOf r.a) (← r.accum)
  | 0x5E => do
    r.len64
    need (r.sub == 0 || r.sub == 1) .minor
    need (r.rm == 0) .reserved
    r.unused false false true true true
    return .vscan r.hdr (r.sub == 1) (← Ty.ofCode r.ty) r.sat (← wOf r.d) (← wOf r.a)
  | 0x5F => do
    r.len64
    need (r.sub == 0) .minor
    need (r.rm == 0 && !r.sat) .reserved
    r.unused false false true true true
    return .vcomp r.hdr (← Ty.ofCode r.ty) (← wOf r.d) (← wOf r.a)
  | _ => .error .opcode

/-- A returning atomic of opcodes 0x6C and 0x6D. -/
def Raw.atom (r : Raw) (op : AtomOp) : Except Reject Instr := do
  r.unused false false false (op != .cas) true
  let h := r.hdr
  let ty ← Ty.ofCode r.ty
  let mo ← r.memOrd
  let d ← gOf r.d
  let addr ← r.addr
  let b ← gOf r.b
  match op with
  | .add => return .atomAdd h ty mo d addr b
  | .min => return .atomMin h ty mo d addr b
  | .max => return .atomMax h ty mo d addr b
  | .and => return .atomAnd h ty mo d addr b
  | .or => return .atomOr h ty mo d addr b
  | .xor => return .atomXor h ty mo d addr b
  | .swap => return .atomSwap h ty mo d addr b
  | .cas => do return .atomCas h ty mo d addr b (← gOf r.c)

/-- An atomic that returns nothing, of opcodes 0x6E and 0x6F. -/
def Raw.atomRed (r : Raw) (op : AtomOp) : Except Reject Instr := do
  r.unused true false false (op != .cas) true
  return .atomRed r.hdr op (← Ty.ofCode r.ty) (← r.memOrd) (← r.addr) (← gOf r.b) (← gOf r.c)

/-- A counter operation or fence takes ORD 0, and a counter operation SC 0 (R301). -/
def Raw.ctrScope (r : Raw) : Except Reject Scope := do
  need (r.ord == 0 && !r.sc) .reserved
  Scope.ofCode r.scope

/-- Opcodes 0x60 to 0x72 (R373, R377, R380, R382, R364, R385, R389, R394). -/
def decodeMemory (r : Raw) : Except Reject Instr :=
  match r.op.toNat with
  | 0x60 => do
    r.unused false false true true true
    return .ld r.hdr (← Ty.ofCode r.ty) (← r.memOrd) (Blk.ofCode r.msub) (← gwOf r.d) (← r.addr)
  | 0x61 => do
    r.unused true false false true true
    return .st r.hdr (← Ty.ofCode r.ty) (← r.memOrd) (Blk.ofCode r.msub) (← r.addr) (← gwOf r.b)
  | 0x62 => do
    r.unused false false true true true
    return .lds r.hdr (← Ty.ofCode r.ty) (← Scope.ofCode r.scope) r.acq r.sat (← View.ofCode r.rm) (← gwOf r.d)
      (← r.addr)
  | 0x63 => do
    need (r.msub == 0) .minor
    r.unused false false false true true
    return .gather r.hdr (← Ty.ofCode r.ty) (← r.memOrd) (← wOf r.d) (← r.addr) (← wOf r.b)
  | 0x64 => do
    need (r.msub == 0) .minor
    r.unused true false false false true
    return .scatter r.hdr (← Ty.ofCode r.ty) (← r.memOrd) (← r.addr) (← wOf r.b) (← wOf r.c)
  | 0x65 => do
    need (r.msub == 0 || r.msub == 1) .minor
    need (r.ty == 0 && r.scope == 0 && r.ord == 0 && !r.sc) .reserved
    r.unused true false true true true
    return .pref r.hdr (r.msub == 1) (← r.addr)
  | 0x66 => do
    r.plainX
    r.unused false false true true true
    let d ← wOf r.d
    need (d.toNat < 4) .operandClass
    match r.sub.toNat with
    | 0 => do return .sbind r.hdr (d.setWidth 2) (← r.addr)
    | 1 => do r.len64; need (r.a == 0) .reserved; return .sbindUnbind r.hdr (d.setWidth 2)
    | _ => .error .minor
  | 0x6C => r.atom (AtomOp.ofCode false r.msub)
  | 0x6D => r.atom (AtomOp.ofCode true r.msub)
  | 0x6E => r.atomRed (AtomOp.ofCode false r.msub)
  | 0x6F => r.atomRed (AtomOp.ofCode true r.msub)
  | 0x70 => do
    need (r.ty == 0) .reserved
    let sc ← r.ctrScope
    match r.msub.toNat with
    | 0 => do r.unused true false false true true; return .ctradd r.hdr sc (← r.addr) (← gOf r.b)
    | 1 => do r.unused false false true true true; return .ctrread r.hdr sc (← gOf r.d) (← r.addr)
    | 2 => do return .ctrwait r.hdr sc (← gOf r.d) (← gOf r.e) (← r.addr) (← gOf r.b) (← gOf r.c)
    | _ => .error .minor
  | 0x71 => do
    let sc ← r.ctrScope
    r.unused false false false true true
    match r.msub.toNat with
    | 0 => do return .ctrarriveMax r.hdr (← Ty.ofCode r.ty) sc (← gOf r.d) (← r.addr) (← gOf r.b)
    | 1 => do
      need (r.ty == Ty.f32.code) .form
      return .ctrarriveSum r.hdr sc (← gOf r.d) (← r.addr) (← gOf r.b)
    | _ => .error .minor
  | 0x72 => do
    r.len64
    need (r.msub == 0) .minor
    need (r.ty == 0 && r.ord == 0) .reserved
    r.unused true true true true true
    return .fence r.hdr r.sc (← Scope.ofCode r.scope)
  | _ => .error .opcode

/-- The control word and row operation of a Porter instruction: MODX[3:1] is 0 but on prrow (R410). -/
def Raw.porter (r : Raw) (k : Hdr → Bool → BitVec 32 → GReg → GReg → GReg → GReg → GReg → Instr) :
    Except Reject Instr := do
  need (r.modx.extractLsb' 1 3 == 0) .minor
  return k r.hdr (r.modx.getLsbD 0) r.imma (← gOf r.d) (← gOf r.a) (← gOf r.b) (← gOf r.c) (← gOf r.e)

/-- Opcodes 0x74 to 0x7D (R405, R397, R401 to R403, R410). -/
def decodeTask (r : Raw) : Except Reject Instr :=
  match r.op.toNat with
  | 0x74 => do
    r.plainX
    need (r.sub == 0 || r.sub == 1) .minor
    r.unused true false false false true
    return .stashmap r.hdr (r.sub == 1) (← gOf r.a) (← gOf r.b) (← r.src32 r.c)
  | 0x75 => do
    r.plainX
    need (r.sub == 0) .minor
    r.unused true false true true true
    return .stashunmap r.hdr (← r.addr)
  | 0x76 => do
    r.plainX
    need (r.sub == 0) .minor
    r.unused true false false true true
    return .stashflush r.hdr (← r.addr) (← gOf r.b)
  | 0x78 => do
    need (r.ty == 0) .reserved
    need (!r.sub.getLsbD 3) .minor
    r.unused true false false false false
    return .task r.hdr (r.sub.getLsbD 2) (HMode.ofCode (r.sub.extractLsb' 0 2)) r.modx (← gOf r.b) (← gOf r.c)
      (← gOf r.e) (← r.src32 r.a)
  | 0x79 => do
    need (r.ty == 0) .reserved
    need (r.sub == 0) .minor
    r.unused true false false false false
    return .tgrid r.hdr r.modx (← gOf r.b) (← gOf r.c) (← gOf r.e) (← r.src32 r.a)
  | 0x7A => do
    r.plainX
    need (r.sub == 0) .minor
    r.unused true false false true true
    return .depart r.hdr (← gOf r.a) (← r.src32 r.b)
  | 0x7B => do
    r.len64
    r.plainX
    r.unused true true true true true
    match r.sub.toNat with
    | 0 => return .tend r.hdr
    | 1 => return .mswait r.hdr
    | _ => .error .minor
  | 0x7C => do
    r.len128
    need (r.ty == 0 && r.immb == 0) .reserved
    match r.sub.toNat with
    | 0 => r.porter .prpush
    | 1 => r.porter .prget
    | 2 => r.porter .prcopy
    | 3 => r.porter .prfill
    | _ => .error .minor
  | 0x7D => do
    r.len128
    match r.sub.toNat with
    | 0 => do
      need (r.ty == 0) .reserved
      r.porter fun h u ctl d a b c e => .prgath h u ctl r.immb d a b c e
    | 1 => do
      let ty ← Ty.ofCode r.ty
      r.porter fun h u ctl d a b c e => .prscat h u ty ctl r.immb d a b c e
    | 2 => do
      need (r.immb.extractLsb' 24 8 == 0) .reserved
      return .prrow r.hdr (r.modx.getLsbD 0) (← RowOp.ofCode (r.modx.extractLsb' 1 3)) (← Ty.ofCode r.ty) r.imma
        (r.immb.extractLsb' 0 8) (r.immb.extractLsb' 8 16) (← gOf r.d) (← gOf r.a) (← gOf r.b) (← gOf r.c) (← gOf r.e)
    | _ => .error .minor
  | _ => .error .opcode

/-- A multiplying job (R424). -/
def Raw.mmaForm (r : Raw) (k : Hdr → Ty → BitVec 32 → BitVec 32 → GReg → GReg → GReg → GReg → GReg → Instr) :
    Except Reject Instr := do
  r.len128
  need (r.modx == 0) .reserved
  return k r.hdr (← Ty.ofCode r.ty) r.imma r.immb (← gOf r.d) (← gOf r.a) (← gOf r.b) (← gOf r.c) (← gOf r.e)

/-- An accumulator move (R424). -/
def Raw.accForm (r : Raw) (k : Hdr → Ty → BitVec 32 → BitVec 32 → GReg → GReg → GReg → Instr) :
    Except Reject Instr := do
  r.len128
  need (r.modx == 0) .reserved
  r.unused false true true false false
  return k r.hdr (← Ty.ofCode r.ty) r.imma r.immb (← gOf r.d) (← gOf r.c) (← gOf r.e)

/-- Opcode 0x7E (R424). -/
def decodeMatrix (r : Raw) : Except Reject Instr :=
  match r.sub.toNat with
  | 0 => r.mmaForm .mma
  | 1 => r.mmaForm .mmaq
  | 2 => r.mmaForm .mmab
  | 3 => r.accForm .accld
  | 4 => r.accForm .accst
  | 8 => do
    r.len64
    need (r.ty == 0 && r.modx.extractLsb' 1 3 == 0) .reserved
    r.unused false false true true true
    return .jwait r.hdr (r.modx.getLsbD 0) (← gOf r.d) (← gOf r.a)
  | 9 => do
    r.len64
    r.plainX
    r.unused false false true true true
    return .jpoll r.hdr (← pOf r.d) (← gOf r.a)
  | _ => .error .minor

/-- The fields read by the table of the opcode's group (R302). -/
def decodeFields (r : Raw) : Except Reject Instr :=
  let op := r.op.toNat
  if r.len == 3 then .error .fetchx
  else if op < 0x18 then decodeScalar r
  else if op < 0x1F then decodePred r
  else if op < 0x30 then decodeControl r
  else if op < 0x45 then decodeVectorFp r
  else if op < 0x60 then decodeVectorInt r
  else if op < 0x74 then decodeMemory r
  else if op < 0x7E then decodeTask r
  else if op = 0x7E then decodeMatrix r
  else decodeSystem r

/-- The decode of an instruction's fields: the reserved fields, classes, codes and lengths, then the combinations. -/
def decodeRaw (r : Raw) : Except Reject Instr :=
  match decodeFields r with
  | .error x => .error x
  | .ok i => if i.wf then .ok i else .error .form

/-- Bytes that LEN names (R290); 0b11 names none. -/
def lenBytes (l : BitVec 2) : Nat := match l.toNat with | 0 => 8 | 1 => 12 | 2 => 16 | _ => 0

/-- A little-endian number from bytes (R2). -/
def leNat : List Byte → Nat
  | [] => 0
  | x :: r => x.toNat + 256 * leNat r

/-- The n low bytes of a number, lowest first. -/
def leBytes : Nat → Nat → List Byte
  | 0, _ => []
  | n + 1, w => BitVec.ofNat 8 w :: leBytes n (w / 256)

/-- The instruction that the first bytes hold, and the bytes that follow it. -/
def decode (bs : List Byte) : Except Reject (Instr × List Byte) :=
  match bs with
  | [] => .error .short
  | b0 :: _ =>
    let n := lenBytes (b0.setWidth 2)
    if n = 0 then .error .fetchx
    else if bs.length < n then .error .short
    else
      match decodeRaw (Raw.ofWord (BitVec.ofNat 64 (leNat (bs.take 8))) (BitVec.ofNat 64 (leNat ((bs.take n).drop 8)))) with
      | .error x => .error x
      | .ok i => .ok (i, bs.drop n)

/-- The instruction in a word numbered as the opcode table numbers its bits: 16 bytes, bit 0 lowest. -/
def decodeTableWord (nbits w : Nat) : Option Instr :=
  match decode (leBytes 16 (w % 2 ^ nbits)) with
  | .ok (i, _) => some i
  | .error _ => none

-- The encoder.

/-- FN in shape A (R299). -/
def fnA (ty : Ty) (sub : BitVec 4) (sat : Bool) (rm : BitVec 3) : BitVec 13 :=
  ty.code ++ sub ++ BitVec.ofBool sat ++ rm
/-- FN in shape X. -/
def fnX (ty : Ty) (sub modx : BitVec 4) : BitVec 13 := ty.code ++ sub ++ modx
/-- FN in shape M. -/
def fnM (ty : Ty) (mo : MemOrd) (sub : BitVec 2) : BitVec 13 :=
  ty.code ++ mo.scope.code ++ mo.ord.code ++ BitVec.ofBool mo.sc ++ sub
/-- FN in shape L. -/
def fnL (ty : Ty) (scope : Scope) (acq sat : Bool) (view : View) : BitVec 13 :=
  ty.code ++ scope.code ++ BitVec.ofBool acq ++ BitVec.ofBool sat ++ view.code

/-- The fields an opcode, FN and header give, with no operand and 64 bits. -/
def Raw.base (h : Hdr) (op : BitVec 7) (fn : BitVec 13) : Raw :=
  { e := 0, c := 0, b := 0, a := 0, d := 0, fn := fn, ch := h.ch, mg := h.mg, pg := h.pg, op := op, sw := h.sw,
    len := 0, ext := 0 }

/-- Length, register field and extension of a last source. -/
def Src.fields : Src → BitVec 2 × BitVec 6 × BitVec 64
  | .reg g => (0, GReg.code g, 0)
  | .imm32 v => (1, 0, v.setWidth 64)
  | .imm64 v => (2, 0, v)
/-- The same for a form with two lengths. -/
def Src32.fields : Src32 → BitVec 2 × BitVec 6 × BitVec 64
  | .reg g => (0, GReg.code g, 0)
  | .imm v => (1, 0, v.setWidth 64)
/-- The same for an immediate with two lengths. -/
def Imm.fields : Imm → BitVec 2 × BitVec 64
  | .imm32 v => (1, v.setWidth 64)
  | .imm64 v => (2, v)

/-- Place a last source in field B. -/
def Raw.withB (r : Raw) (f : BitVec 2 × BitVec 6 × BitVec 64) : Raw := { r with len := f.1, b := f.2.1, ext := f.2.2 }
/-- Place a last source in field A. -/
def Raw.withA (r : Raw) (f : BitVec 2 × BitVec 6 × BitVec 64) : Raw := { r with len := f.1, a := f.2.1, ext := f.2.2 }
/-- Place a last source in field C. -/
def Raw.withC (r : Raw) (f : BitVec 2 × BitVec 6 × BitVec 64) : Raw := { r with len := f.1, c := f.2.1, ext := f.2.2 }
/-- Place a memory operand. -/
def Raw.withAddr (r : Raw) (x : Addr) : Raw :=
  match x.disp with
  | none => { r with a := GReg.code x.base }
  | some v => { r with a := GReg.code x.base, len := 1, ext := v.setWidth 64 }
/-- Place the register number of sysr and sysw. -/
def Raw.withSel (r : Raw) : RegSel → Raw
  | .reg g => { r with a := GReg.code g }
  | .num n => { r with len := 1, ext := n.setWidth 64 }
/-- Place IMMA and IMMB. -/
def Raw.withImm (r : Raw) (a b : BitVec 32) : Raw := { r with len := 2, ext := b ++ a }
/-- Place an optional accumulator. -/
def Raw.withAcc (r : Raw) : Option WReg → Raw
  | none => r
  | some c => { r with c := WReg.code c }

/-- A shape-A scalar instruction. -/
def encS (h : Hdr) (op : BitVec 7) (ty : Ty) (sub : BitVec 4) (sat : Bool) (d a : GReg)
    (f : BitVec 2 × BitVec 6 × BitVec 64) : Raw :=
  { Raw.base h op (fnA ty sub sat 0) with d := GReg.code d, a := GReg.code a }.withB f
/-- A vector instruction with D, A and B in w registers. -/
def encV (h : Hdr) (op : BitVec 7) (ty : Ty) (sub : BitVec 4) (sat : Bool) (rm : BitVec 3) (d a b : WReg) : Raw :=
  { Raw.base h op (fnA ty sub sat rm) with d := WReg.code d, a := WReg.code a, b := WReg.code b }
/-- A vector instruction with D and A in w registers. -/
def encV1 (h : Hdr) (op : BitVec 7) (ty : Ty) (sub : BitVec 4) (sat : Bool) (rm : BitVec 3) (d a : WReg) : Raw :=
  { Raw.base h op (fnA ty sub sat rm) with d := WReg.code d, a := WReg.code a }
/-- A returning atomic. -/
def encAtom (h : Hdr) (op : AtomOp) (ty : Ty) (mo : MemOrd) (d : GReg) (x : Addr) (b : GReg) : Raw :=
  { Raw.base h (if op.code.1 then 0x6D else 0x6C) (fnM ty mo op.code.2) with
    d := GReg.code d, b := GReg.code b }.withAddr x
/-- A counter operation. -/
def encCtr (h : Hdr) (op : BitVec 7) (ty : Ty) (scope : Scope) (sub : BitVec 2) (x : Addr) : Raw :=
  (Raw.base h op (fnM ty ⟨scope, .relaxed, false⟩ sub)).withAddr x
/-- A Porter instruction. -/
def encPorter (h : Hdr) (op : BitVec 7) (ty : Ty) (sub : BitVec 4) (top : BitVec 3) (urg : Bool) (ctl immb : BitVec 32)
    (d a b c e : GReg) : Raw :=
  { Raw.base h op (fnX ty sub (top ++ BitVec.ofBool urg)) with
    d := GReg.code d, a := GReg.code a, b := GReg.code b, c := GReg.code c, e := GReg.code e }.withImm ctl immb
/-- A matrix job. -/
def encMatrix (h : Hdr) (tc : Ty) (sub : BitVec 4) (ctl ldc : BitVec 32) (d a b c e : BitVec 6) : Raw :=
  { Raw.base h 0x7E (fnX tc sub 0) with d := d, a := a, b := b, c := c, e := e }.withImm ctl ldc
/-- A plain shape-X instruction. -/
def encX (h : Hdr) (op : BitVec 7) (sub modx : BitVec 4) (d a b : BitVec 6) : Raw :=
  { Raw.base h op (fnX .none sub modx) with d := d, a := a, b := b }
/-- A control instruction with an offset. -/
def encOff (h : Hdr) (op : BitVec 7) (d : BitVec 6) (off : BitVec 32) : Raw :=
  { Raw.base h op 0 with d := d, len := 1, ext := off.setWidth 64 }
/-- idr, ucrr and ucrw. -/
def encNum (h : Hdr) (op : BitVec 7) (d a : BitVec 6) (num : BitVec 8) : Raw :=
  { Raw.base h op (num.setWidth 13) with d := d, a := a }
/-- A system instruction. -/
def encSys (h : Hdr) (sub modx : BitVec 4) : Raw := Raw.base h 0x7F (fnX .none sub modx)

/-- The fields of an instruction's words; none for an event, which has no words. -/
def encodeRaw : Instr → Option Raw
  | .add h ty sat d a b => some (encS h 0x00 ty 0 sat d a b.fields)
  | .sub h ty sat d a b => some (encS h 0x01 ty 0 sat d a b.fields)
  | .mul h ty sat d a b => some (encS h 0x02 ty 0 sat d a b.fields)
  | .mulh h ty d a b => some (encS h 0x03 ty 0 false d a b.fields)
  | .div h ty d a b => some (encS h 0x04 ty 0 false d a b.fields)
  | .rem h ty d a b => some (encS h 0x05 ty 0 false d a b.fields)
  | .min h ty d a b => some (encS h 0x06 ty 0 false d a b.fields)
  | .max h ty d a b => some (encS h 0x07 ty 0 false d a b.fields)
  | .and h ty d a b => some (encS h 0x08 ty 0 false d a b.fields)
  | .or h ty d a b => some (encS h 0x09 ty 0 false d a b.fields)
  | .xor h ty d a b => some (encS h 0x0A ty 0 false d a b.fields)
  | .andn h ty d a b => some (encS h 0x0B ty 0 false d a b.fields)
  | .shl h ty d a b => some (encS h 0x0C ty 0 false d a b.fields)
  | .shr h ty d a b => some (encS h 0x0D ty 0 false d a b.fields)
  | .sar h ty d a b => some (encS h 0x0E ty 0 false d a b.fields)
  | .rot h left ty d a b => some (encS h 0x0F ty (if left then 1 else 0) false d a b.fields)
  | .mov h ty d a => some ({ Raw.base h 0x10 (fnA ty 0 false 0) with d := GReg.code d }.withA a.fields)
  | .sel h d a b c => some { Raw.base h 0x11 0 with
      d := GReg.code d, a := GReg.code a, b := GReg.code b, c := PReg.code c }
  | .bit h op ty d a => some { Raw.base h 0x12 (fnA ty op.code false 0) with d := GReg.code d, a := GReg.code a }
  | .bext h ty d a b => some (encS h 0x13 ty 0 false d a b.fields)
  | .bins h ty d a b => some (encS h 0x13 ty 1 false d a b.fields)
  | .cvt h src dst d a => some { Raw.base h 0x14 (fnA dst 0 false 0) with
      d := GReg.code d, a := GReg.code a, e := src.code.setWidth 6 }
  | .lea h sc d a b => some (encS h 0x15 .none (sc.setWidth 4) false d a b.fields)
  | .bkpt h => some (encX h 0x16 0 0 0 0 0)
  | .swtrap h n => some (encX h 0x16 1 n 0 0 0)
  | .nop h .none => some (encX h 0x17 0 0 0 0 0)
  | .nop h (.ext32 v) => some { encX h 0x17 0 0 0 0 0 with len := 1, ext := v.setWidth 64 }
  | .nop h (.ext64 v) => some { encX h 0x17 0 0 0 0 0 with len := 2, ext := v }
  | .pcmp h rel ty d a b => some ({ Raw.base h 0x18 (fnA ty rel.code false 0) with
      d := PReg.code d, a := GReg.code a }.withB b.fields)
  | .plog h op d a b => some (encX h 0x19 op.code 0 (PReg.code d) (PReg.code a) (if op == .not then 0 else PReg.code b))
  | .mlog h op d a b => some (encX h 0x1A op.code 0 (MReg.code d) (MReg.code a) (if op == .not then 0 else MReg.code b))
  | .mmovMG h d a => some (encX h 0x1B 0 0 (MReg.code d) (GReg.code a) 0)
  | .mmovGM h d a => some (encX h 0x1B 1 0 (GReg.code d) (MReg.code a) 0)
  | .mmovMImm h d v => some { encX h 0x1B 2 0 (MReg.code d) 0 0 with len := v.fields.1, ext := v.fields.2 }
  | .mcnt h op d a => some (encX h 0x1C op.code 0 (GReg.code d) (MReg.code a) 0)
  | .mfirst h ty d n => some ({ Raw.base h 0x1D (fnX ty 0 0) with d := MReg.code d }.withA n.fields)
  | .pmovPG h d a => some (encX h 0x1E 0 0 (PReg.code d) (GReg.code a) 0)
  | .pmovGP h d a => some (encX h 0x1E 1 0 (GReg.code d) (PReg.code a) 0)
  | .br h off => some (encOff h 0x20 0 off)
  | .jr h a => some (encX h 0x21 0 0 0 (GReg.code a) 0)
  | .callr h d a => some (encX h 0x21 1 0 (GReg.code d) (GReg.code a) 0)
  | .call h d off => some (encOff h 0x22 (GReg.code d) off)
  | .ret h a => some (encX h 0x23 0 0 0 (GReg.code a) 0)
  | .loop h d off => some (encOff h 0x24 (GReg.code d) off)
  | .repeatReg h k a => some (encX h 0x25 0 k 0 (GReg.code a) 0)
  | .repeatImm h k n => some { encX h 0x25 1 k 0 0 0 with len := 1, ext := n.setWidth 64 }
  | .idr h d num => some (encNum h 0x2C (GReg.code d) 0 num)
  | .ucrr h d num => some (encNum h 0x2D (GReg.code d) 0 num)
  | .ucrw h a num => some (encNum h 0x2E 0 (GReg.code a) num)
  | .rdtimeCyc h d => some (encX h 0x2F 0 0 (GReg.code d) 0 0)
  | .rdtimeNs h d => some (encX h 0x2F 1 0 (GReg.code d) 0 0)
  | .sysr h d n => some ({ encSys h 0 0 with d := GReg.code d }.withSel n)
  | .sysw h n b => some ({ encSys h 1 0 with b := GReg.code b }.withSel n)
  | .faultreplyRetry h a => some ((encSys h 2 0).withA a.fields)
  | .faultreplyRemote h b a => some ({ encSys h 2 1 with b := GReg.code b }.withA a.fields)
  | .faultreplyKilltask h a => some ((encSys h 2 2).withA a.fields)
  | .faultreplyKillrun h a => some ((encSys h 2 3).withA a.fields)
  | .fltwait h d a => some ({ encSys h 3 0 with d := GReg.code d }.withA a.fields)
  | .purge h x b => some ({ encSys h 4 0 with b := GReg.code b }.withAddr x)
  | .cflush h x b => some ({ encSys h 5 0 with b := GReg.code b }.withAddr x)
  | .cinval h x b => some ({ encSys h 6 0 with b := GReg.code b }.withAddr x)
  | .tlbinvPage h a b => some ({ encSys h 7 0 with a := GReg.code a }.withB b.fields)
  | .tlbinvAsid h b => some ((encSys h 7 1).withB b.fields)
  | .tlbinvAll h => some (encSys h 7 2)
  | .vfadd h ty rm sat d a b => some (encV h 0x30 ty 0 sat rm.code d a b)
  | .vfsub h ty rm sat d a b => some (encV h 0x31 ty 0 sat rm.code d a b)
  | .vfmul h ty rm sat d a b => some (encV h 0x32 ty 0 sat rm.code d a b)
  | .vfma h ty rm sat d a b c => some { encV h 0x33 ty 0 sat rm.code d a b with c := WReg.code c }
  | .vfms h ty rm sat d a b c => some { encV h 0x34 ty 0 sat rm.code d a b with c := WReg.code c }
  | .vfnma h ty rm sat d a b c => some { encV h 0x35 ty 0 sat rm.code d a b with c := WReg.code c }
  | .vfmin h ty d a b => some (encV h 0x36 ty 0 false 0 d a b)
  | .vfmax h ty d a b => some (encV h 0x37 ty 0 false 0 d a b)
  | .vfsgn h op ty d a b => some { encV1 h 0x38 ty op.code false 0 d a with
      b := if op == .copysign then WReg.code b else 0 }
  | .vfcmp h rel ty d a b => some { Raw.base h 0x39 (fnA ty rel.code false 0) with
      d := MReg.code d, a := WReg.code a, b := WReg.code b }
  | .vfcvt h src dst part rm sat d a => some { encV1 h 0x3A dst part sat rm.code d a with e := src.code.setWidth 6 }
  | .vfdiv h ty rm sat d a b => some (encV h 0x3B ty 0 sat rm.code d a b)
  | .vfsqrt h ty rm sat d a => some (encV1 h 0x3C ty 0 sat rm.code d a)
  | .vfrcp h ty rm sat d a => some (encV1 h 0x3D ty 0 sat rm.code d a)
  | .vfrsq h ty rm sat d a => some (encV1 h 0x3E ty 0 sat rm.code d a)
  | .vfexp2 h ty rm sat d a => some (encV1 h 0x3F ty 0 sat rm.code d a)
  | .vflog2 h ty rm sat d a => some (encV1 h 0x40 ty 0 sat rm.code d a)
  | .vfred h op ty rm d a c => some ((encV1 h 0x41 ty op.code false rm.code d a).withAcc c)
  | .vfmerge h ty d a b => some (encV h 0x42 ty 0 false 0 d a b)
  | .vfscale h e8m0 ty rm sat d a b => some (encV h 0x43 ty (if e8m0 then 1 else 0) sat rm.code d a b)
  | .vfrint h ty rm d a => some (encV1 h 0x44 ty 0 false rm.code d a)
  | .vadd h ty sat d a b => some (encV h 0x50 ty 0 sat 0 d a b)
  | .vsub h ty sat d a b => some (encV h 0x51 ty 0 sat 0 d a b)
  | .vmul h hi ty sat d a b => some (encV h 0x52 ty (if hi then 1 else 0) sat 0 d a b)
  | .vmm h mx ty d a b => some (encV h 0x53 ty (if mx then 1 else 0) false 0 d a b)
  | .vlog h op ty d a b => some { encV1 h 0x54 ty op.code false 0 d a with
      b := if op == .not then 0 else WReg.code b }
  | .vsh h op ty d a b => some (encV h 0x55 ty op.code false 0 d a b)
  | .vcmp h rel ty d a b => some { Raw.base h 0x56 (fnA ty rel.code false 0) with
      d := MReg.code d, a := WReg.code a, b := WReg.code b }
  | .vcvt h src dst part d a => some { encV1 h 0x57 dst part false 0 d a with e := src.code.setWidth 6 }
  | .vbcastG h ty d a => some { Raw.base h 0x58 (fnA ty 0 false 0) with d := WReg.code d, a := GReg.code a }
  | .vbcastImm h ty d v => some { Raw.base h 0x58 (fnA ty 1 false 0) with
      d := WReg.code d, len := v.fields.1, ext := v.fields.2 }
  | .vbcastLane h ty d a b => some { encV1 h 0x58 ty 2 false 0 d a with b := GReg.code b }
  | .vshuf h ty d a b => some (encV h 0x59 ty 0 false 0 d a b)
  | .vslide h op ty d a b => some { encV1 h 0x5A ty op.code false 0 d a with b := GReg.code b }
  | .vsel h ty d a b c => some { encV h 0x5B ty 0 false 0 d a b with c := MReg.code c }
  | .vmovgG h ty d a b => some { Raw.base h 0x5C (fnA ty 0 false 0) with
      d := GReg.code d, a := WReg.code a, b := GReg.code b }
  | .vmovgW h ty d a b => some { Raw.base h 0x5C (fnA ty 1 false 0) with
      d := WReg.code d, a := GReg.code a, b := GReg.code b }
  | .vred h op ty sat d a c => some ((encV1 h 0x5D ty op.code sat 0 d a).withAcc c)
  | .vscan h excl ty sat d a => some (encV1 h 0x5E ty (if excl then 1 else 0) sat 0 d a)
  | .vcomp h ty d a => some (encV1 h 0x5F ty 0 false 0 d a)
  | .ld h ty mo blk d x => some ({ Raw.base h 0x60 (fnM ty mo blk.code) with d := d.code }.withAddr x)
  | .st h ty mo blk x b => some ({ Raw.base h 0x61 (fnM ty mo blk.code) with b := b.code }.withAddr x)
  | .lds h ty scope acq sat view d x =>
      some ({ Raw.base h 0x62 (fnL ty scope acq sat view) with d := d.code }.withAddr x)
  | .gather h ty mo d x b => some ({ Raw.base h 0x63 (fnM ty mo 0) with d := WReg.code d, b := WReg.code b }.withAddr x)
  | .scatter h ty mo x b c => some ({ Raw.base h 0x64 (fnM ty mo 0) with b := WReg.code b, c := WReg.code c }.withAddr x)
  | .pref h l1 x => some ((Raw.base h 0x65 (if l1 then 1 else 0)).withAddr x)
  | .sbind h d x => some ({ Raw.base h 0x66 0 with d := WReg.code (d.setWidth 5) }.withAddr x)
  | .sbindUnbind h d => some (encX h 0x66 1 0 (WReg.code (d.setWidth 5)) 0 0)
  | .atomAdd h ty mo d x b => some (encAtom h .add ty mo d x b)
  | .atomMin h ty mo d x b => some (encAtom h .min ty mo d x b)
  | .atomMax h ty mo d x b => some (encAtom h .max ty mo d x b)
  | .atomAnd h ty mo d x b => some (encAtom h .and ty mo d x b)
  | .atomOr h ty mo d x b => some (encAtom h .or ty mo d x b)
  | .atomXor h ty mo d x b => some (encAtom h .xor ty mo d x b)
  | .atomSwap h ty mo d x b => some (encAtom h .swap ty mo d x b)
  | .atomCas h ty mo d x b c => some { encAtom h .cas ty mo d x b with c := GReg.code c }
  | .atomRed h op ty mo x b c => some ({ Raw.base h (if op.code.1 then 0x6F else 0x6E) (fnM ty mo op.code.2) with
      b := GReg.code b, c := GReg.code c }.withAddr x)
  | .ctradd h scope x b => some { encCtr h 0x70 .none scope 0 x with b := GReg.code b }
  | .ctrread h scope d x => some { encCtr h 0x70 .none scope 1 x with d := GReg.code d }
  | .ctrwait h scope d e x b c => some { encCtr h 0x70 .none scope 2 x with
      d := GReg.code d, e := GReg.code e, b := GReg.code b, c := GReg.code c }
  | .ctrarriveMax h ty scope d x b => some { encCtr h 0x71 ty scope 0 x with d := GReg.code d, b := GReg.code b }
  | .ctrarriveSum h scope d x b => some { encCtr h 0x71 .f32 scope 1 x with d := GReg.code d, b := GReg.code b }
  | .fence h sc scope => some (Raw.base h 0x72 (fnM .none ⟨scope, .relaxed, sc⟩ 0))
  | .stashmap h upd a b c => some ((encX h 0x74 (if upd then 1 else 0) 0 0 (GReg.code a) (GReg.code b)).withC c.fields)
  | .stashunmap h x => some ((Raw.base h 0x75 0).withAddr x)
  | .stashflush h x b => some ({ Raw.base h 0x76 0 with b := GReg.code b }.withAddr x)
  | .task h spec hm n b c e f => some ({ Raw.base h 0x78 (fnX .none ((0 : BitVec 1) ++ BitVec.ofBool spec ++ hm.code) n)
      with b := GReg.code b, c := GReg.code c, e := GReg.code e }.withA f.fields)
  | .tgrid h n b c e f => some ({ Raw.base h 0x79 (fnX .none 0 n) with
      b := GReg.code b, c := GReg.code c, e := GReg.code e }.withA f.fields)
  | .depart h a f => some ((encX h 0x7A 0 0 0 (GReg.code a) 0).withB f.fields)
  | .tend h => some (encX h 0x7B 0 0 0 0 0)
  | .mswait h => some (encX h 0x7B 1 0 0 0 0)
  | .prpush h u ctl d a b c e => some (encPorter h 0x7C .none 0 0 u ctl 0 d a b c e)
  | .prget h u ctl d a b c e => some (encPorter h 0x7C .none 1 0 u ctl 0 d a b c e)
  | .prcopy h u ctl d a b c e => some (encPorter h 0x7C .none 2 0 u ctl 0 d a b c e)
  | .prfill h u ctl d a b c e => some (encPorter h 0x7C .none 3 0 u ctl 0 d a b c e)
  | .prgath h u ctl rows d a b c e => some (encPorter h 0x7D .none 0 0 u ctl rows d a b c e)
  | .prscat h u ty ctl rows d a b c e => some (encPorter h 0x7D ty 1 0 u ctl rows d a b c e)
  | .prrow h u op ty ctl mask tag d a b c e =>
      some (encPorter h 0x7D ty 2 op.code u ctl ((0 : BitVec 8) ++ tag ++ mask) d a b c e)
  | .mma h tc ctl ldc d a b c e =>
      some (encMatrix h tc 0 ctl ldc (GReg.code d) (GReg.code a) (GReg.code b) (GReg.code c) (GReg.code e))
  | .mmaq h tc ctl ldc d a b c e =>
      some (encMatrix h tc 1 ctl ldc (GReg.code d) (GReg.code a) (GReg.code b) (GReg.code c) (GReg.code e))
  | .mmab h tc ctl ldc d a b c e =>
      some (encMatrix h tc 2 ctl ldc (GReg.code d) (GReg.code a) (GReg.code b) (GReg.code c) (GReg.code e))
  | .accld h tc ctl ldc d c e => some (encMatrix h tc 3 ctl ldc (GReg.code d) 0 0 (GReg.code c) (GReg.code e))
  | .accst h tc ctl ldc d c e => some (encMatrix h tc 4 ctl ldc (GReg.code d) 0 0 (GReg.code c) (GReg.code e))
  | .jwait h st d a => some (encX h 0x7E 8 (if st then 1 else 0) (GReg.code d) (GReg.code a) 0)
  | .jpoll h d a => some (encX h 0x7E 9 0 (PReg.code d) (GReg.code a) 0)
  | _ => none

/-- The bytes of an instruction, from the lowest address; none for an event. -/
def encode (i : Instr) : List Byte :=
  match encodeRaw i with
  | none => []
  | some r => leBytes 8 r.word.toNat ++ leBytes (lenBytes r.len - 8) r.ext.toNat

end Sys2Proof
end

