-- ==== Sys2Proof/Machine/Fetch.lean ====
section
/-! DEFINITION. Instruction fetch (R290 to R293): the 32-byte blocks a thread executes from, the checks of a fetch, and
the decoding of the instruction at PC. -/
namespace Sys2Proof.Machine
open Sys2Proof

/-- What a fetch of a block answers. -/
inductive Fetched where
  | block (v : BitVec 256) (s : State)
  | trap (t : Trap) (s : State)
  | wait (s : State)
  | stop (e : Stop)

/-- Read the aligned 32-byte block of an address through L1I: PAGE, PROT and POISON of a fetch (R170, R292, R293). A fetch
is entered in no filter. -/
def State.fetchBlock (s : State) (th : Nat) (t : Thread) (base : Nat) : Fetched :=
  let w := t.who th
  match s.locate w .fetch base 32 with
  | .error e => .stop e
  | .ok l =>
    let p := l.part
    let line := p.pa / 128
    let bad (s : State) : Bool := s.partPoisoned w p
    let trap (s : State) : Fetched := .trap { poisonAt .fetch p with va := base } s
    if bad s then trap s
    else
      let r := s.partReady w.run false p
      if !r.1 then .wait r.2
      else
        let s := r.2.useWalk w false l
        let x : Line × State := match p.place with
          | .stash tile => (s.stashData tile p.pa, s)
          | _ =>
            if p.remote || (p.place == Place.system && p.bias) then s.readPart w t.key none p .full .none 0 false
            else match s.mapped w p.va with
              | some (m, off) => let s := s.fillMapLine w m p off; (s.stashData w.tile off, s)
              | none =>
                let r := s.readLine { agent := w.agent, core := w.core, icache := true, tile := w.tile, line := line, key := p.key,
                                      cls := p.cls, view := .full, src := .none, sub := false, priv := p.priv, alloc := true,
                                      hint := 0 }
                if p.place == Place.system then r.2.2.itinHostRead w.run w.tile line r.1 else (r.1, r.2.2)
        if bad x.2 then trap x.2 else .block (BitVec.ofNat 256 (lineNat x.1 (p.pa % 128) 32)) x.2

/-- The block of an address: the one the thread executes from, or a fetch. -/
def State.blockFor (s : State) (th : Nat) (t : Thread) (base : Nat) : Fetched :=
  match t.blockAt base with
  | some v => .block v s
  | none => s.fetchBlock th t base

/-- The thread keeps the block it fetched: beside the others while a REPEAT is active (R327). -/
def Thread.keepBlock (t : Thread) (base : Nat) (v : BitVec 256) : Thread :=
  if t.rep.act then
    (if t.kept.any (fun e => e.1 == base) then t else { t with kept := t.kept ++ [(base, v)] })
  else { t with block := some (base, v) }

/-- The length in bytes that the LEN code at an offset of a block names: 0 for 0b11. -/
def lenAt (v : BitVec 256) (off : Nat) : Nat := lenBytes ((v >>> (8 * off)).setWidth 2)
/-- FETCHX (R291): LEN 0b11, or the bytes pass the end of the block. -/
def fetchx (v : BitVec 256) (off : Nat) : Bool := lenAt v off == 0 || decide (32 < off + lenAt v off)
/-- The bytes of the instruction at an offset. -/
def instrBytes (v : BitVec 256) (off : Nat) : List Byte :=
  (List.range (lenAt v off)).map fun i => (v >>> (8 * (off + i))).setWidth 8

/-- The trap of an instruction that passes the end of its block (R291). WORD holds its first 64 bits; those past the block stand in
the next one, and are a free value where that cannot be read (log entry 3). -/
def State.fetchxTrap (s : State) (th : Nat) (t : Thread) (v : BitVec 256) : Trap :=
  let off := t.pc.toNat % 32
  let low := ((v >>> (8 * off)).setWidth 64).toNat
  if off ≤ 24 then .plain .fetchx
  else
    let n := 32 - off
    let rest := match s.locate (t.who th) .fetch (blockBase t.pc + 32) (8 - n) with
      | .ok l => match l.part.place with
        | .stash tile => s.stashNat tile l.part.pa (8 - n)
        | _ =>
          let x := match s.mapHit (t.who th) l.part with
            | some m => s.mapData m
            | none => (s.recallStash (l.part.pa / 128) none).lineAt (l.part.pa / 128) l.part.key
          lineNat x (l.part.pa % 128) (8 - n)
      | .error _ => (Config.freeWord s.fresh).toNat % 2 ^ (8 * (8 - n))
    { Trap.plain .fetchx with word := some (BitVec.ofNat 64 (low % 2 ^ (8 * n) + 2 ^ (8 * n) * rest)) }

/-- What fetching the instruction at PC answers. -/
inductive Ready where
  | run (i : Instr) (s : State)
  | trap (t : Trap) (s : State)
  | wait (s : State)

/-- The first fetch of a task whose FUNC is not 8-byte aligned (R97). -/
def Thread.badFunc (t : Thread) : Bool := t.pc.toNat % 8 != 0 && t.task.any fun k => k.func == t.pc
/-- Steps 1 to 3 of R293 for the instruction at PC, as far as its bits decide them: ALIGN, the block's own traps, FETCHX,
ILLOP. A thread whose task the fetch's own write-back has aborted executes nothing (log entry 61). -/
def State.fetch (s : State) (th : Nat) (t : Thread) : Ready :=
  let pc := t.pc.toNat
  if pc % 4 ≠ 0 || t.badFunc then .trap (.at .align .fetch pc) s
  else
    let base := blockBase t.pc
    match s.blockFor th t base with
    | .trap x s => .trap x s
    | .wait s => .wait s
    | .stop e => match s.stopped (t.task.map fun k => k.run) e with
      | (some x, s) => .trap x s
      | (none, s) => .wait s
    | .block v s =>
      let s := s.onThread th fun t =>
        let t := t.keepBlock base v
        { t with remote := t.remote.filter fun r => r.1 != base / 2 ^ 16 || (s.thread? th).any fun u => (u.blockAt base).isSome }
      let off := pc % 32
      if fetchx v off then .trap (s.fetchxTrap th t v) s
      else match decode (instrBytes v off) with
        | .ok (i, _) => if (s.thread? th).isNone then .wait s else .run i s
        | .error _ => .trap (.plain .illop) s

/-- The scan of a REPEAT block (R327): the blocks its instructions lie in, the address after them, and how it ended. -/
structure Scan where
  s : State
  kept : List (Nat × BitVec 256)
  pc : BitVec 56
  bad : Bool
  trap : Option Trap
  wait : Bool

/-- Fetch the blocks of k instructions from an address, as far as that succeeds. -/
def Scan.go (th : Nat) (t : Thread) : Nat → Scan → Scan
  | 0, x => x
  | k + 1, x =>
    if x.bad || x.trap.isSome || x.wait then x
    else
      let base := blockBase x.pc
      let f : Fetched := match x.kept.find? fun e => e.1 == base with
        | some e => .block e.2 x.s
        | none => x.s.fetchBlock th t base
      match f with
      | .trap y s => { x with s := s, trap := some y }
      | .wait s => { x with s := s, wait := true }
      | .stop e => match x.s.stopped (t.task.map fun k => k.run) e with
        | (some y, s) => { x with s := s, trap := some y }
        | (none, s) => { x with s := s, wait := true }
      | .block v s =>
        let kept := if x.kept.any (fun e => e.1 == base) then x.kept else x.kept ++ [(base, v)]
        let off := x.pc.toNat % 32
        if fetchx v off then { x with s := s, kept := kept, bad := true }
        else Scan.go th t k { x with s := s, kept := kept, pc := x.pc + BitVec.ofNat 56 (lenAt v off) }

end Sys2Proof.Machine
end

