-- ==== Sys2Proof/Machine/Control.lean ====
section
/-! DEFINITION. Branches, calls, loops and REPEAT, opcodes 0x20–0x25 (R195, R325 to R327), identity, user control and
time, 0x2C–0x2F (R188, R189, R328, R329). -/
namespace Sys2Proof.Machine
open Sys2Proof

/-- A control transfer: results of the thread, then PC. Inside a REPEAT block it traps with ILLOP (R195). -/
def ctlOp (s : State) (h : Hdr) (len : Nat) (names : List Nat) (f : Thread → Thread) : Out :=
  issue s (fun t => ⟨h, len, names, false, false, t.rep.act⟩) fun t =>
    s.setThread s.focus { f t with park := .run, lastIssue := s.cycle }

/-- PC + a signed byte offset (R298). -/
def Thread.rel (t : Thread) (off : BitVec 32) : BitVec 56 := t.pc + off.signExtend 56
/-- The address after an instruction of n bytes, as a register value. -/
def Thread.link (t : Thread) (n : Nat) : BitVec 64 := (t.pc + BitVec.ofNat 56 n).setWidth 64

/-- br (R326). -/
def execBr (h : Hdr) (off : BitVec 32) (s : State) : Out := ctlOp s h 12 [] fun t => { t with pc := t.rel off }
/-- jr (R326): bits [63:56] of the target are ignored. -/
def execJr (h : Hdr) (a : GReg) (s : State) : Out := ctlOp s h 8 [numG a] fun t => { t with pc := (t.getG a).setWidth 56 }
/-- callr (R326); gD may name gA. -/
def execCallr (h : Hdr) (d a : GReg) (s : State) : Out :=
  ctlOp s h 8 [numG d, numG a] fun t => { t.setG d (t.link 8) with pc := (t.getG a).setWidth 56 }
/-- call (R326). -/
def execCall (h : Hdr) (d : GReg) (off : BitVec 32) (s : State) : Out :=
  ctlOp s h 12 [numG d] fun t => { t.setG d (t.link 12) with pc := t.rel off }
/-- ret has the effect of jr (R326). -/
def execRet (h : Hdr) (a : GReg) (s : State) : Out := ctlOp s h 8 [numG a] fun t => { t with pc := (t.getG a).setWidth 56 }
/-- loop (R326). -/
def execLoop (h : Hdr) (d : GReg) (off : BitVec 32) (s : State) : Out :=
  ctlOp s h 12 [numG d] fun t =>
    let v := t.getG d - 1
    { t.setG d v with pc := if v = 0 then t.pc + 12 else t.rel off }

/-- REPEAT (R195, R327). With n = 0 the block is skipped by the lengths its instructions name: one that FETCHX would stop
is left to trap at its own address, and a fault of a fetch is taken here. Otherwise the block is fetched once and kept; an
instruction that cannot be fetched traps when it is reached. -/
def repeatOp (s : State) (h : Hdr) (len : Nat) (names : List Nat) (km1 : BitVec 4) (n : Thread → Nat) : Out :=
  issue s (fun t => ⟨h, len, names, false, false, t.rep.act⟩) fun t =>
    let start := t.pc + BitVec.ofNat 56 len
    let x := Scan.go s.focus t (km1.toNat + 1)
      { s := s, kept := t.block.toList, pc := start, bad := false, trap := none, wait := false }
    if n t = 0 then
      match x.trap with
      | some y => x.s.trap s.focus y
      | none =>
        if x.wait then x.s.parkAt s.focus .home
        else x.s.setThread s.focus { t with pc := x.pc, park := .run, lastIssue := s.cycle }
    else
      x.s.setThread s.focus { t with
        pc := start, park := .run, lastIssue := s.cycle, kept := x.kept,
        rep := { act := true, next := 0, lenm := km1.toNat, left := n t, start := start } }

/-- repeat k, gA: the count is limited to 0xFFFF_FFFF. -/
def execRepeatReg (h : Hdr) (km1 : BitVec 4) (a : GReg) (s : State) : Out :=
  repeatOp s h 8 [numG a] km1 fun t => Nat.min (t.getG a).toNat 0xFFFFFFFF
/-- repeat k, imm. -/
def execRepeatImm (h : Hdr) (km1 : BitVec 4) (n : BitVec 32) (s : State) : Out :=
  repeatOp s h 12 [] km1 fun _ => n.toNat

/-- A component of a grid value. -/
def V3.comp (v : V3) : Nat → BitVec 64
  | 0 => v.x
  | 1 => v.y
  | _ => v.z

/-- The identity registers (R188); none for a number not listed. A service slot runs no task and no run: what is of the
task or the run reads 0 there (log entry 5). -/
def State.idReg (s : State) (th : Nat) (t : Thread) (n : Nat) : Option (BitVec 64) :=
  let id (f : Ident → V3) (k : Nat) : Option (BitVec 64) :=
    some (match t.task with | some x => (f x.ident).comp k | none => 0)
  match n with
  | 0x00 => some t.key.ts
  | 0x01 => some (t.key.tb.setWidth 64)
  | 0x02 => some (BitVec.ofNat 64 (tileOf th))
  | 0x03 => some (BitVec.ofNat 64 (coreOf th))
  | 0x04 => some (BitVec.ofNat 64 (th % 8))
  | 0x05 => some (BitVec.ofNat 64 (s.runidOf t))
  | 0x06 => some (if t.spec then 1 else 0)
  | 0x08 | 0x09 | 0x0A => id (fun i => i.org) (n - 0x08)
  | 0x0C | 0x0D | 0x0E => id (fun i => i.ext) (n - 0x0C)
  | 0x10 | 0x11 | 0x12 => id (fun i => i.gidx) (n - 0x10)
  | 0x14 | 0x15 | 0x16 => id (fun i => i.gdim) (n - 0x14)
  | _ => none

/-- idr (R188, R328) (log entry 5). -/
def execIdr (h : Hdr) (d : GReg) (num : BitVec 8) (s : State) : Out :=
  issue s (fun t => ⟨h, 8, [numG d], false, false, (s.idReg s.focus t num.toNat).isNone⟩) fun t =>
    s.finish s.focus 8 (t.setG d ((s.idReg s.focus t num.toNat).getD 0))

/-- The user control registers (R189); none for a number not listed. -/
def Thread.ucr (t : Thread) (n : Nat) : Option (BitVec 64) :=
  if n < 8 then some (t.fmt.getD n 0)
  else if n = 8 then some (t.sr.setWidth 64)
  else if 0x0C ≤ n ∧ n ≤ 0x0F then some (t.mq.getD (n - 0x0C) 0)
  else if n = 0x10 then some (t.sbase.setWidth 64)
  else none

/-- A write whose code is reserved (R7): SPEC = 3 (R262), GS = 3 (R427). -/
def ucrReserved (n : Nat) (v : BitVec 64) : Bool :=
  (decide (n < 8) && bitsOf v.toNat 16 2 == 3) || (n == 0x0F && bitsOf v.toNat 0 2 == 3)

/-- ucrr (R189, R328). -/
def execUcrr (h : Hdr) (d : GReg) (num : BitVec 8) (s : State) : Out :=
  issue s (fun t => ⟨h, 8, [numG d], false, false, (t.ucr num.toNat).isNone⟩) fun t =>
    s.finish s.focus 8 (t.setG d ((t.ucr num.toNat).getD 0))

/-- ucrw (R189, R328). -/
def execUcrw (h : Hdr) (a : GReg) (num : BitVec 8) (s : State) : Out :=
  issue s (fun t => ⟨h, 8, [numG a], false, false, (t.ucr num.toNat).isNone⟩) fun t =>
    if ucrReserved num.toNat (t.getG a) then s.trap s.focus (.plain .illop)
    else s.finish s.focus 8 (t.setUcr num.toNat (t.getG a))

/-- rdtime (R329): recorded by the Itinerary, and taken from its log in replay (R288). -/
def timeOp (h : Hdr) (d : GReg) (v : BitVec 64) (s : State) : Out :=
  issue s (fun _ => ⟨h, 8, [numG d], false, false, false⟩) fun t =>
    let x := s.itinTimer (t.task.map fun k => k.run) (tileOf s.focus) v
    x.2.finish s.focus 8 (t.setG d x.1)

/-- rdtime.cyc: cycles since reset. -/
def execRdtimeCyc (h : Hdr) (d : GReg) (s : State) : Out := timeOp h d (BitVec.ofNat 64 s.cycle) s
/-- rdtime.ns: nanoseconds since reset. -/
def execRdtimeNs (h : Hdr) (d : GReg) (s : State) : Out := timeOp h d (BitVec.ofNat 64 s.nanos) s

end Sys2Proof.Machine
end

