-- ==== Sys2Proof/Machine/Upkeep.lean ====
section
/-! DEFINITION. The memory controllers (02): the layout and its hash masks (R20, R30, R32), memory keys (R45 to R47),
scrubbing (R36 to R38), self-refresh (R39), writes to HBM (R35); and the cleaning and invalidation of lines that key
destruction, cflush, cinval and bias flips share. -/
namespace Sys2Proof.Machine
open Sys2Proof

-- Lines written back and invalidated.

/-- Dirty mapped stash copies of a line go home; they stay, clean. -/
def State.cleanMapped (s : State) (line : Nat) : State :=
  (s.stash.lines.filter fun (l : MapLine) => l.pa == line && l.dirty).foldl
    (fun (s : State) (l : MapLine) => s.cleanMapLine l.tile l.off []) s
/-- Every dirty copy of a line is written back, to HBM or to its owner, and stays valid and clean (R337). Without the layout, or the
line's key, it stays on the chip (R20, R47). -/
def State.cleanLine (s : State) (line : Nat) : State :=
  let s := s.cleanMapped line
  let s : State := { s with coh := { s.coh with l2 := s.coh.l2.map fun x =>
    if x.line == line && x.dst == 3 then { x with dst := 2 } else x } }
  if s.isSystem (line * 128) then s.hostBack line (s.sysHeld line) else s.toHbm line
/-- The same, and every copy goes, mapped stash lines among them (R338). -/
def State.dropLine (s : State) (line : Nat) : State :=
  let s := (s.cleanLine line).invalidateAll line
  { s with stash := { s.stash with lines := s.stash.lines.filter fun l => l.pa != line } }

/-- The key slot a line's copies are tagged with (R44). -/
def State.lineKey (s : State) (line : Nat) : Nat :=
  match Sparse.get? s.mem.chip line, s.coh.l2.find? fun e => e.line == line && e.dst != 0 with
  | some c, _ => c.key
  | none, some e => e.key
  | none, none => 0

-- Layout (R20, R29 to R32).

/-- A value that a SYSW to SPREAD_SIZE refuses with ILLOP (R20). -/
def State.spreadRefused (s : State) (v : Nat) : Bool := !s.locked && decide (64 < bitsOf v 0 7)
/-- The registers whose digest is the third measurement block, as bytes (R69) (log entry 38). -/
def State.layoutBytes (s : State) : List Byte :=
  ((s.reg 0x008) :: (List.range 13).map fun k => s.reg (0x020 + k)).flatMap fun w =>
    (List.range 8).map fun i => BitVec.ofNat 8 (bitsOf w (8 * i) 8)
/-- A write to SPREAD_SIZE (R20); when LOCK comes to be 1 the layout is measured (R69). -/
def State.spreadWrite (s : State) (v : Nat) : State :=
  if s.locked || s.spreadRefused v then s
  else
    let s := s.setReg 0x008 (putField (putField (s.reg 0x008) 63 1 (bitsOf v 63 1)) 0 7 (bitsOf v 0 7))
    if s.locked then { s with host := { s.host with layoutDigest := some (Config.sha3 s.layoutBytes) } } else s

/-- The designated bit of hash output k (R28). -/
def designated (k : Nat) : Nat := if k = 12 then 22 else 7 + k
/-- A mask that a SYSW to HMASKk refuses with ILLOP (R30). -/
def hmaskRefused (k v : Nat) : Bool :=
  !bitOf v (designated k) || (List.range k).any fun j => bitOf v (designated j)
/-- A write to HMASKk (R29, R32): controllers hold no queued request between two steps. -/
def State.hmaskWrite (s : State) (k v : Nat) : State :=
  if 12 < k || hmaskRefused k v then s else s.writeReg (0x020 + k) v

/-- The designated bits of M from the thirteen outputs, the last first: each is its output with what else its mask
selects taken away (R30). -/
def designatedBits (s : State) (out : Nat → Bool) : Nat → Nat → Nat
  | 0, m => m
  | k + 1, m =>
    let other := parity 39 (m &&& s.reg (0x020 + k))
    designatedBits s out k (if out k != other then m + 2 ^ designated k else m)
/-- The line a slot holds (R27, R28). -/
def State.lineOfSlot (s : State) (slot : Nat) : Nat :=
  let col := slot % 8
  let row := slot / 8 % 2 ^ 16
  let ba := slot / 2 ^ 19 % 4
  let bg := slot / 2 ^ 21 % 4
  let pc := slot / 2 ^ 23 % 2
  let ch := slot / 2 ^ 24 % 32
  let stack := slot / 2 ^ 29 % 8
  let quad := decide (1024 * s.spread ≤ row)
  let out (k : Nat) : Bool :=
    if k < 5 then bitOf ch k
    else if k < 8 then bitOf stack (k - 5)
    else if k < 10 then bitOf bg (k - 8)
    else if k < 12 then bitOf ba (k - 10)
    else pc == 1
  let base := 2 ^ 19 * col + 2 ^ 23 * (if quad then row - 1024 * s.spread else row)
  if quad then
    -- M[14:13] is zero in a quadrant-local window, and outputs 6 and 7 are not used
    let hi := (List.range 5).foldl (fun m i =>
      let k := 12 - i
      if out k != parity 39 (m &&& s.reg (0x020 + k)) then m + 2 ^ designated k else m) base
    let m := (List.range 6).foldl (fun m i =>
      let k := 5 - i
      if out k != parity 39 (m &&& s.reg (0x020 + k)) then m + 2 ^ designated k else m) hi
    (2 ^ 40 + 2 ^ 37 * (stack / 2) + 2 ^ 13 * (m / 2 ^ 15) + m % 2 ^ 13) / 128
  else designatedBits s out 13 base / 128

-- Keys (R45 to R47).

/-- An access that names a key slot has not been performed yet. -/
def State.keyInFlight (s : State) (k : Nat) : Bool :=
  let uses (p : Part) : Bool := p.place == .line && p.key == k
  s.stores.any (fun x => uses x.part) || s.threads.any fun t =>
    (t.2.outs.any fun o => o.parts.any uses) || (match t.2.park with | .ctrwait _ _ p .. => uses p | _ => false)
/-- Lines with a copy that is tagged with a key slot (R44). -/
def State.keyLines (s : State) (k : Nat) : List Nat :=
  ((s.mem.chip.filter fun c => c.2.key == k).map fun c => c.1) ++
    ((s.coh.l1.filter fun l => l.key == k).map fun l => l.line) ++
    ((s.stash.lines.filter fun l => l.key == k).map fun l => l.pa) ++
    ((s.coh.l2.filter fun e => e.dst != 0 && e.key == k).map fun e => e.line) ++
    ((s.coh.replicas.filter fun r => r.key == k).map fun r => r.line) ++
    ((s.coh.filling.filter fun r => r.key == k).map fun r => r.line)
/-- A modified mapped line that a fenced tile holds is lost with its key (R46 step 3). -/
def State.lostLines (s : State) (k : Nat) : List MapLine :=
  s.stash.lines.filter fun l => l.key == k && l.dirty && s.fenced l.tile
/-- The result of a command: CMD reads 0, BUSY is clear. -/
def State.keyDone (s : State) (err : Nat) : State :=
  s.onReg 0x038 fun v => putField (putField (putField v 63 1 0) 60 3 err) 0 2 0
/-- DESTROY: every copy tagged with the slot is written back and invalidated, what can not be written back is lost, and the key
goes (R46 steps 2 to 4). Accesses that name the slot have waited since BUSY was set, and fault from now on (R47). -/
def State.keyDestroy (s : State) (k : Nat) : State :=
  let lost := s.lostLines k
  let s := lost.foldl (fun (s : State) (l : MapLine) => (s.dropMapLine l.tile l.off).poisonLine l.pa) s
  let s := if lost.isEmpty then s else s.onReg 0x032 fun v => putField v 4 1 1
  let s := (s.keyLines k).foldl (fun s line => s.dropLine line) s
  let s : State := { s with mem := { s.mem with keys := Sparse.erase s.mem.keys k } }
  s.keyDone (if lost.isEmpty then 0 else 3)
/-- A write to MEMKEY_CTL, by an Innkeeper slot of a die (R45, R46) (log entry 35). -/
def State.memkeyWrite (s : State) (die v : Nat) : State :=
  let r := s.reg 0x038
  if bitOf r 63 then s
  else
    let s := s.onReg 0x038 fun o => putField (putField o 16 20 (bitsOf v 16 20)) 4 4 (bitsOf v 4 4)
    let k := bitsOf v 4 4
    let tile := innkeeperTile die
    let off := bitsOf v 16 20 / 64 * 64
    match bitsOf v 0 2 with
    | 0 => s
    | 1 =>
      if (s.keyAt k).isSome then s.keyDone 1
      else
        let m : BitVec 512 := BitVec.ofNat 512 (s.stashNat tile off 64)
        let s : State := { s with mem := { s.mem with keys := Sparse.set s.mem.keys k (.loaded m) } }
        (s.stashWrite tile off (byteMask (off % 128) 64) 0).keyDone 0
    | 2 =>
      if (s.keyAt k).isSome then s.keyDone 1
      else
        let n := s.mem.randoms
        let s : State := { s with mem := { s.mem with keys := Sparse.set s.mem.keys k (.generated n), randoms := n + 1 } }
        s.keyDone 0
    | _ =>
      if k = 0 ∨ (s.keyAt k).isNone then s.keyDone 2
      else
        let s := s.onReg 0x038 fun o => putField (putField o 63 1 1) 0 2 3
        if s.keyInFlight k then s else s.keyDestroy k
/-- A DESTROY that found accesses under way goes on: they wait at their homes (R46 step 1), but for a packed block that is half
performed, which it lets end (R266) (log entry 35). -/
def State.memkeyStep (s : State) : State :=
  let r := s.reg 0x038
  let k := bitsOf r 4 4
  let half := s.stores.any fun x => x.part.place == .line && x.part.key == k && s.halfDone x
  if bitOf r 63 && !half then s.keyDestroy k else s

-- Scrubbing (R36 to R38).

/-- Line slots of a pseudo-channel. -/
def slotsPerPc : Nat := 2 ^ 23
/-- The pseudo-channels of a controller, in the order of its pass. A stack has two controllers, and the rules do not say which
pseudo-channels each has: that the even one has channels 0–15 and the odd one 16–31 is the model's choice (log entry 36). -/
def pcsOf (c : Nat) : List Nat := (List.range 32).map fun i => 32 * c + i
/-- Slots of a controller that its pass has read. -/
def State.scrubDone (s : State) (c : Nat) : Nat := (pcsOf c).foldl (fun a pc => a + Sparse.getD s.mem.scrub pc 0) 0
/-- Cycles of a pass deadline (R3, R36). That they pass while SCRUB_CFG.EN is 0 too, and that setting EN
again does not begin the pass anew, is the model's choice (log entry 36). -/
def State.scrubPeriod (s : State) : Nat := 2250000000 * (60 * Nat.max 1 (bitsOf (s.reg 0x031) 0 20))
/-- The scrub level that a controller has now (R37): by its lag, which it keeps as elapsed · slots − done · period; the cycles elapsed
count while SCRUB_CFG.EN is 0 too (log entry 36). -/
def State.scrubLevelNow (s : State) (c : Nat) : Nat :=
  let n := 32 * slotsPerPc
  let p := s.scrubPeriod
  let ahead := (s.cycle - Sparse.getD s.mem.scrubStart c 0) * n
  let done := s.scrubDone c * p
  let old := Sparse.getD s.mem.scrubLevel c 0
  if ahead ≤ done then 0
  else
    let lag := ahead - done
    if n * p < lag * 8 then 2
    else if n * p < lag * 16 then Nat.max old 1
    else old
/-- Keep a controller's level. -/
def State.setScrubLevel (s : State) (c : Nat) : State :=
  let n := s.scrubLevelNow c
  { s with mem := { s.mem with
      scrubLevel := if n = 0 then Sparse.erase s.mem.scrubLevel c else Sparse.set s.mem.scrubLevel c n } }
/-- The next slot of a pass: of the first pseudo-channel, in order, that has slots unread; those in self-refresh are skipped for now
where asked (R36, R37). -/
def State.scrubNext (s : State) (c : Nat) (skip : Bool) : Option Nat :=
  ((pcsOf c).find? fun pc => decide (Sparse.getD s.mem.scrub pc 0 < slotsPerPc) && !(skip && s.mem.selfRefresh.contains pc)).map
    fun pc => pc * slotsPerPc + Sparse.getD s.mem.scrub pc 0
/-- A scrub read finds an error in a slot (R36): a correctable one is corrected there, which changes no value; an uncorrectable one
writes the poison code. -/
def State.scrubFound (s : State) (slot err : Nat) : State :=
  let s : State := { s with mem := { s.mem with errors := Sparse.erase s.mem.errors slot } }
  match err with
  | 0 => s
  | 1 => s.onReg 0x032 fun v => satField v 40 24 1
  | _ =>
    let line := s.lineOfSlot slot
    let was := s.mem.slotPoison.contains slot || s.poisoned line
    let s : State := { s with mem := { s.mem with slotPoison := insertNat s.mem.slotPoison slot } }
    if was then s else s.newPoison line
/-- One slot is read: the pass goes on, and a pass that ends starts the next (R36). -/
def State.scrubMoved (s : State) (c slot : Nat) : State :=
  let pc := pcOfSlot slot
  let m := Sparse.set s.mem.scrub pc (slot % slotsPerPc + 1)
  let last := Sparse.set s.mem.scrubLast c s.cycle
  if (pcsOf c).all fun x => decide (slotsPerPc ≤ Sparse.getD m x 0) then
    { s with mem := { s.mem with
      scrub := s.mem.scrub.filter fun x => x.1 / 32 != c, scrubLast := last,
      scrubStart := Sparse.set s.mem.scrubStart c s.cycle, scrubLate := s.mem.scrubLate.filter (· != c) } }
  else { s with mem := { s.mem with scrub := m, scrubLast := last } }
/-- One scrub read (R36): err 1 is a correctable error of the read, 2 an uncorrectable one, beside those that the slot holds. At level
0, and at level 1 unless the timer forces it, pseudo-channels in self-refresh are skipped, to be revisited; any other read is a request,
which wakes them (R37, R39). A read that nothing forces needs a queue of fewer than THRESH entries below level 2: between two steps it
is empty, so only THRESH 0 bars it (R37) (log entry 36). -/
def State.scrubReadAs (s : State) (c err : Nat) (forced : Bool) : State :=
  if !bitOf (s.reg 0x031) 63 || decide (16 ≤ c) then s
  else
    let s := s.setScrubLevel c
    let level := Sparse.getD s.mem.scrubLevel c 0
    if !forced && level != 2 && bitsOf (s.reg 0x031) 20 8 == 0 then s
    else match s.scrubNext c (level == 0 || (level == 1 && !forced)) with
      | none => s
      | some slot =>
        let s := if level = 0 then s else s.hbmRequest (pcOfSlot slot)
        let err := match Sparse.get? s.mem.errors slot with
          | some true => 2
          | some false => Nat.max err 1
          | none => err
        (s.scrubFound slot err).scrubMoved c slot
/-- A scrub read that nothing forces. -/
def State.scrubRead (s : State) (c err : Nat) : State := s.scrubReadAs c err false
/-- A pass is past its deadline: LATE is set, once for each pass, and the pass goes on (R36). -/
def State.scrubDeadline (s : State) (c : Nat) : State :=
  if !bitOf (s.reg 0x031) 63 || decide (16 ≤ c) || s.mem.scrubLate.contains c ||
      decide (s.cycle - Sparse.getD s.mem.scrubStart c 0 < s.scrubPeriod) then s
  else
    let s : State := { s with mem := { s.mem with scrubLate := insertNat s.mem.scrubLate c } }
    s.onReg 0x032 fun v => putField v 3 1 1
/-- The interval timer of level 1 or 2 forces a read (R37). -/
def State.scrubForced (s : State) (c : Nat) : State :=
  let s := s.setScrubLevel c
  if Sparse.getD s.mem.scrubLevel c 0 = 0 then s else s.scrubReadAs c 0 true
/-- The interval of a controller's level has passed without a read: 4,096 cycles at level 1, 256 at level 2 (R37). -/
def State.scrubDue (s : State) : State :=
  (s.mem.scrubLevel.filter fun l =>
    decide ((if l.2 = 2 then 256 else 4096) ≤ s.cycle - Sparse.getD s.mem.scrubLast l.1 0)).foldl
    (fun (s : State) l => s.scrubForced l.1) s

-- Self-refresh, filters, writes to HBM.

/-- IDLE of SREF_CFG, in cycles (R39). -/
def State.idleLimit (s : State) : Nat := Nat.max 4096 (bitsOf (s.reg 0x033) 0 24)
/-- A pseudo-channel has had no request for IDLE cycles; one that arrives in the same cycle wins (R39). -/
def State.idleLong (s : State) (pc : Nat) : Bool :=
  decide (s.idleLimit ≤ s.cycle - Sparse.getD s.mem.requested pc 0)
/-- A pseudo-channel enters self-refresh (R39). -/
def State.refreshEntry (s : State) (pc : Nat) : State :=
  if bitOf (s.reg 0x033) 63 && decide (pc < 512) && s.idleLong pc then
    { s with mem := { s.mem with selfRefresh := insertNat s.mem.selfRefresh pc } }
  else s
/-- The pseudo-channels whose idle count has expired enter self-refresh (R39). -/
def State.refreshDue (s : State) : State :=
  if !bitOf (s.reg 0x033) 63 || decide (s.cycle < s.idleLimit) || decide (512 ≤ s.mem.selfRefresh.length) then s
  else (List.range 512).foldl (fun (s : State) pc => s.refreshEntry pc) s
/-- A pseudo-channel leaves self-refresh: a request has reached it (R39). -/
def State.refreshExit (s : State) (pc : Nat) : State := if s.mem.selfRefresh.contains pc then s.hbmRequest pc else s
/-- A modified line is written to its slot (R35); without its key it changes no memory (R47), and without the layout it waits
(R20) (log entry 7). -/
def State.hbmWrite (s : State) (line : Nat) : State :=
  match Sparse.get? s.mem.chip line with
  | none => s
  | some c => if s.locked && (s.keyAt c.key).isSome then s.hbmStore line else s

/-- SPREAD_SIZE_WRITE (R20). -/
def execSpreadSizeWrite (v : BitVec 64) (s : State) : Out := .next (s.spreadWrite v.toNat)
/-- HMASK_WRITE (R32). -/
def execHmaskWrite (k : Nat) (v : BitVec 64) (s : State) : Out := .next (s.hmaskWrite k v.toNat)
/-- MEMKEY_LOAD, by the Innkeeper of die 0 (R46). -/
def execMemkeyLoad (v : BitVec 64) (s : State) : Out := .next (s.memkeyWrite 0 (putField v.toNat 0 2 1))
/-- MEMKEY_GENERATE (R46) (log entry 35). -/
def execMemkeyGenerate (v : BitVec 64) (s : State) : Out := .next (s.memkeyWrite 0 (putField v.toNat 0 2 2))
/-- MEMKEY_DESTROY: the command, or the one in progress going on (R46). -/
def execMemkeyDestroy (v : BitVec 64) (s : State) : Out :=
  .next (if bitOf (s.reg 0x038) 63 then s.memkeyStep else s.memkeyWrite 0 (putField v.toNat 0 2 3))
/-- SCRUB_READ (R36). -/
def execScrubRead (ctl err : Nat) (s : State) : Out := .next (s.scrubRead ctl err)
/-- SCRUB_DEADLINE (R36). -/
def execScrubDeadline (ctl : Nat) (s : State) : Out := .next (s.scrubDeadline ctl)
/-- SCRUB_FORCED_READ (R37). -/
def execScrubForcedRead (ctl : Nat) (s : State) : Out := .next (s.scrubForced ctl)
/-- SELF_REFRESH_ENTRY (R39). -/
def execSelfRefreshEntry (pc : Nat) (s : State) : Out := .next (s.refreshEntry pc)
/-- SELF_REFRESH_EXIT (R39). -/
def execSelfRefreshExit (pc : Nat) (s : State) : Out := .next (s.refreshExit pc)
/-- BLOOM_CLEAR (R33). -/
def execBloomClear (s : State) : Out := .next { s with coh := { s.coh with bloom := [] } }
/-- HBM_WRITE (R35). -/
def execHbmWrite (line : Nat) (s : State) : Out := .next (s.hbmWrite line)

end Sys2Proof.Machine
end

