-- ==== Sys2Proof/Machine/Homes.lean ====
section
/-! DEFINITION. The steps of the homes (09) on their own: directory evictions (R212, R136), upgrades, ownership, filtering
and demotion (R221 to R226), replicas and regions (R227 to R236), page hotness (R237, R238), and the snapshots that DIR_SEL
and HOT_SEL take (R215, R238). -/
namespace Sys2Proof.Machine
open Sys2Proof

-- Directories.

/-- A line is read again for a tile, as the access that brought it was made. -/
def upgradeReq (l : L1Line) (tile : Nat) (v : View) : Req :=
  { agent := .lodge tile, core := some l.core, icache := false, tile := tile, line := l.line, key := l.key, cls := l.cls, view := v, src := l.src,
    sub := !l.untracked, priv := l.untracked, alloc := true, hint := l.hint }
/-- An upgrade request (R222): every line of a tile whose tag does not serve the view is fetched again. -/
def State.upgrade (s : State) (tile line : Nat) (v : View) : State :=
  (s.coh.l1.filter fun l => l.core / 8 == tile && l.line == line && !l.icache && !l.tag.serves v).foldl
    (fun (s : State) l => (s.readLine (upgradeReq l tile v)).2.2) s
/-- The line's replicas collapse eagerly: none of them, nor any fill on its way, is of an R or U page (R231, R232). -/
def State.eagerLine (s : State) (line : Nat) : Bool :=
  !((s.coh.replicas ++ s.coh.filling).any fun r => r.line == line && !r.cls.eager)
/-- A die obtains ownership of a line that is not home-written (R226): every other present die and the replicas give their copies up. A
line that has to come from HBM waits for the layout (R20). -/
def State.obtain (s : State) (die line : Nat) : State :=
  let e := s.l3 line
  let waits := !s.locked && !s.isSystem (line * 128) && (Sparse.get? s.mem.chip line).isNone
  if e.hw ∨ e.own = some die ∨ 4 ≤ die ∨ waits then s
  else
    let key := s.lineKey line
    let now := s.lineAt line key
    let s := (s.roomL2 die line).takeOwner line die now 0 (s.eagerLine line) [] Spared.none
    let s := s.setL2 { s.l2 die line with dst := 2, dfmt := .full, key := key, data := now, hw := false }
    (s.syncDie die line).settle line
/-- One tile record of a line meets a change vector (R221): a tile that keeps no copy loses its record, and a die that is no owner its
data, where the vector hits them; the record at the L3 home follows, and goes with the last of both. -/
def State.sharer (s : State) (tile line : Nat) (cv : BitVec 5) : State :=
  let die := dieOfTile tile
  match s.l2? die line with
  | none => s
  | some e => match e.tiles.find? fun r => r.1 == tile % 64 with
    | none => s
    | some r =>
      let p := s.filterTile e r cv (s.lineAt line (s.lineKey line)) Spared.none
      let e := if p.1.dst == 1 && View.hit cv p.1.dfmt then { p.1 with dst := 0 } else p.1
      let s := p.2.setL2 e
      if e.dst = 0 && e.joined.isNone then
        (if (s.l3? line).isSome then s.settleL3 ((s.l3 line).setDie die none) else s)
      else (s.syncDie die line).settle line

-- Replicas (R229 to R233).

/-- A collapse of a line's replicas with CV[0], eager or lazy, charged to nobody (R231, R232). -/
def State.collapseLine (s : State) (line : Nat) (eager : Bool) : State :=
  s.collapse line 1 (s.lineAt line (s.lineKey line)) eager true [] Spared.none
/-- One quadrant's replica of a line collapses, or the fill on its way to it (R233): eagerly on a T page; lazily on R and U pages, where
the quadrant stands in CPQ until it acknowledges, and a collapse already on its way takes the replica with it; charged to nobody. -/
def State.leaveQuad (s : State) (x : Replica) : State :=
  let here (c : Collapse) : Bool := c.quad == x.quad && c.line == x.line
  if x.cls.eager then s.collapseAt x.quad x.line 1 x.data true Spared.none
  else if s.coh.collapses.any here then
    { s with coh := { s.coh with collapses := s.coh.collapses.map fun c => if here c then { c with cv := c.cv ||| 1 } else c } }
  else
    let c : Collapse := { quad := x.quad, line := x.line, cv := 1, charged := [], held := [] }
    let s : State := { s with coh := { s.coh with collapses := s.coh.collapses ++ [c] } }
    let e := s.l3 x.line
    s.setL3 { e with cpq := e.cpq ||| (1#4 <<< x.quad) }

/-- The quadrants of most reads first, ties to the lower (R234). -/
def byReads (rq : List Nat) (qs : List Nat) : List Nat :=
  qs.foldl (fun l q => (l.takeWhile fun p => decide (rq.getD q 0 ≤ rq.getD p 0)) ++ [q] ++
    (l.dropWhile fun p => decide (rq.getD q 0 ≤ rq.getD p 0))) []
/-- Min of a register field and the value it acts as. -/
def State.regField (s : State) (n lo len cap : Nat) : Nat := Nat.min cap (bitsOf (s.reg n) lo len)
/-- The degree an evaluation gives a region, and its quadrants (R234). -/
def State.evalRegion (s : State) (h : Nat) (r : Region) : Region :=
  let others := (List.range 4).filter fun q => q != h
  let rr := others.foldl (fun a q => a + r.rq.getD q 0) 0
  let t := rr + r.wr
  let e := (others.filter fun q => decide (bitsOf (s.reg 0x400) 16 8 ≤ r.rq.getD q 0)).length
  let frac := s.regField 0x402 0 9 256
  let target :=
    if !bitOf (s.reg 0x403) 63 then 0
    else if bitsOf (s.reg 0x400) 0 10 ≤ rr ∧ 256 * r.wr ≤ frac * t then Nat.max r.deg (Nat.min (r.deg + 1) e)
    else if rr < bitsOf (s.reg 0x401) 0 10 ∨ frac * t < 256 * r.wr then r.deg - 1
    else r.deg
  let deg := Nat.min (Nat.max target r.floor) r.ceil
  let qs := (byReads r.rq others).take deg
  { r with deg := deg, qset := qs.foldl (fun v q => v ||| (1#4 <<< q)) 0, rq := r.rq.map fun x => x / 2, wr := r.wr / 2 }
/-- One region is evaluated; the replicas of the quadrants that leave go (R233) (log entry 44). The region's home quadrant is that of its
first line (R227) (log entry 77). -/
def State.evaluate (s : State) (n : Nat) : State :=
  let old := s.region n
  let new := s.evalRegion (s.homeQuad (2 ^ 14 * n)) old
  let s := if new = old then s else s.setRegion n new
  let gone := (s.coh.replicas ++ s.coh.filling).filter fun x => regionOf x.line == n && old.qset.getLsbD x.quad && !new.qset.getLsbD x.quad
  gone.foldl (fun (s : State) x => s.leaveQuad x) s
/-- REGION_EVALUATION: the region whose turn this cycle is, once; every region of device memory has a number below 2^20 (R18, R234). -/
def State.regionStep (s : State) : State :=
  let n := s.cycle % 2 ^ 20
  if !s.backed (2 ^ 21 * n) || s.isSystem (2 ^ 21 * n) then s else s.oncePer 0 1 fun s => s.evaluate n
/-- PAGE_HOTNESS_HALVING: every 2^20 cycles (R237). -/
def State.halveHot (s : State) : State :=
  s.oncePer 1 (2 ^ 20) fun s => { s with coh := { s.coh with hot := s.coh.hot.mapVals fun _ e => e.halve } }

/-- The region REPL_RSEL names; none where it is unbacked or system space (R235). -/
def State.selectedRegion (s : State) : Option Nat :=
  let n := bitsOf (s.reg 0x404) 21 31
  if !s.backed (2 ^ 21 * n) || s.isSystem (2 ^ 21 * n) then none else some n
/-- A write that REPL_RSTATE refuses with ILLOP (R235). -/
def State.rstateRefused (s : State) (v : Nat) : Bool := s.selectedRegion.isSome && decide (bitsOf v 4 2 < bitsOf v 2 2)
/-- A write to REPL_RSTATE (R235). -/
def State.rstateWrite (s : State) (v : Nat) : State :=
  match s.selectedRegion with
  | none => s
  | some n => if s.rstateRefused v then s else s.setRegion n { s.region n with floor := bitsOf v 2 2, ceil := bitsOf v 4 2 }
/-- REPL_RSTATE as it reads (R235). -/
def State.rstateRead (s : State) : Nat :=
  match s.selectedRegion with
  | none => 0
  | some n =>
    let r := s.region n
    r.deg + 2 ^ 2 * r.floor + 2 ^ 4 * r.ceil + 2 ^ 16 * r.qset.toNat +
      (List.range 4).foldl (fun a q => a + r.rq.getD q 0 * 2 ^ (24 + 8 * q)) 0 + 2 ^ 56 * r.wr

-- Snapshots.

/-- A write to HOT_SEL takes a snapshot for the die (R238). -/
def State.hotSelect (s : State) (die v : Nat) : State :=
  let s := s.writeReg (regKey die 0x420) v
  let w : Nat × Nat × Nat := match Sparse.get? s.coh.hot (bitsOf v 0 20) with
    | none => (0, 0, 0)
    | some e => (2 ^ 63 + 2 ^ 16 * (e.page % 2 ^ 36), 2 ^ 48 * (e.count % 2 ^ 16) + 2 ^ 24 * (e.sy % 2 ^ 24) + e.sx % 2 ^ 24,
        (List.range 4).foldl (fun a q => a + e.qc.getD q 0 % 2 ^ 16 * 2 ^ (16 * q)) 0)
  ((s.setReg (regKey die 0x421) w.1).setReg (regKey die 0x422) w.2.1).setReg (regKey die 0x423) w.2.2

/-- Source format codes (R213). -/
def sfCode : Option Ty → Nat
  | some .f32 => 1
  | some .f16 => 2
  | some .bf16 => 3
  | _ => 0
/-- The layout of an L2 entry (R213). -/
def L2Entry.bits (e : L2Entry) : Nat :=
  let recs := (e.recs.mapIdx fun k r => (r.1 % 64 * 16 + r.2.1.num * 2 + r.2.2.toNat) * 2 ^ (10 * k)).foldl (fun a x => a + x) 0
  (if e.ovf then e.vec.toNat else recs) + 2 ^ 64 * e.ovf.toNat + 2 ^ 65 * (if e.ovf then 0 else e.recs.length) +
    2 ^ 68 * (sfCode e.sf) + 2 ^ 70 * e.dfmt.num + 2 ^ 73 * (e.dst % 4) + 2 ^ 75 * e.hw.toNat + 2 ^ 76 * (e.srun % 16) +
    2 ^ 80 * e.srm.toNat + 2 ^ 144 * e.swm.toNat
/-- The layout of an L3 entry (R214); fill: a replica fill of the line is in flight. -/
def L3Entry.bits (e : L3Entry) (fill : Bool) : Nat :=
  (List.range 4).foldl (fun a d => a + (match e.die d with
    | some (f, u) => (16 + f.num * 2 + u.toNat) * 2 ^ (5 * d)
    | none => 0)) 0 + 2 ^ 20 * e.rep.toNat +
    (match e.own with | some d => 2 ^ 24 * (4 + d % 4) | none => 0) + 2 ^ 27 * (sfCode e.sf) + 2 ^ 29 * e.hw.toNat +
    2 ^ 30 * e.srm.toNat + 2 ^ 34 * e.swm.toNat + 2 ^ 38 * (e.srun % 16) +
    2 ^ 42 * (fill.toNat + (e.cpq != 0).toNat * 2) + 2 ^ 44 * e.cpq.toNat
/-- A write to DIR_SEL takes a snapshot for the die (R215), where SF is clear once no wide status keeps it (R224). -/
def State.dirSelect (s : State) (die v : Nat) : State :=
  let line := bitsOf v 7 45
  let s := (s.clearSf line).writeReg (regKey die 0x0F0) v
  let x : Option Nat := if bitOf v 63 then ((s.l3? line).map fun e => e.bits (s.coh.filling.any fun r => r.line == line)) else (s.l2? (bitsOf v 56 2) line).map L2Entry.bits
  let n := x.getD 0
  let s := (List.range 3).foldl (fun (s : State) i => s.setReg (regKey die (0x0F1 + i)) (bitsOf n (64 * i) 64)) s
  s.setReg (regKey die 0x0F4) (bitsOf n 192 16 + 2 ^ 63 * x.isSome.toNat)

/-- DIRECTORY_EVICT (R212). -/
def execDirectoryEvict (lvl3 : Bool) (die line : Nat) (s : State) : Out :=
  .next (if lvl3 then s.evictL3 line else s.evictL2 die line)
/-- UPGRADE_REQUEST (R222). -/
def execUpgradeRequest (tile line : Nat) (v : View) (s : State) : Out := .next (s.upgrade tile line v)
/-- OWNERSHIP_REQUEST (R226). -/
def execOwnershipRequest (die line : Nat) (s : State) : Out := .next (s.obtain die line)
/-- OWNERSHIP_RECALL (R226). -/
def execOwnershipRecall (line : Nat) (s : State) : Out := .next (s.recallOwner line)
/-- SHARER_INVALIDATE (R221). -/
def execSharerInvalidate (tile line : Nat) (cv : BitVec 5) (s : State) : Out := .next (s.sharer tile line cv)
/-- SOURCE_FORMAT_DEMOTE (R224). -/
def execSourceFormatDemote (line : Nat) (s : State) : Out :=
  .next (if (s.l3? line).isNone then s else s.demote line (s.lineKey line))
/-- REPLICA_FILL: a fill on its way arrives (R229). -/
def execReplicaFill (quad line : Nat) (s : State) : Out := .next (s.endFill quad line)
/-- REPLICA_DROP (R229). -/
def execReplicaDrop (quad line : Nat) (s : State) : Out := .next (s.dropReplica quad line)
/-- EAGER_COLLAPSE (R231). -/
def execEagerCollapse (line : Nat) (s : State) : Out := .next (s.collapseLine line true)
/-- LAZY_COLLAPSE (R232). -/
def execLazyCollapse (line : Nat) (s : State) : Out := .next (s.collapseLine line false)
/-- COLLAPSE_ACK (R232). -/
def execCollapseAck (quad line : Nat) (s : State) : Out := .next (s.ackCollapse quad line)
/-- REGION_EVALUATION (R234). -/
def execRegionEvaluation (s : State) : Out := .next s.regionStep
/-- REPL_RSTATE_WRITE (R235). -/
def execReplRstateWrite (v : BitVec 64) (s : State) : Out := .next (s.rstateWrite v.toNat)
/-- PAGE_HOTNESS_HALVING (R237). -/
def execPageHotnessHalving (s : State) : Out := .next s.halveHot
/-- HOT_SEL (R238). -/
def execHotSel (die : Nat) (v : BitVec 64) (s : State) : Out := .next (s.hotSelect die v.toNat)
/-- DIR_SEL (R215). -/
def execDirSel (die : Nat) (v : BitVec 64) (s : State) : Out := .next (s.dirSelect die v.toNat)
/-- LODGE_CFG_WRITE (R125). -/
def execLodgeCfgWrite (v : BitVec 64) (s : State) : Out := .next (s.writeReg 0x200 v.toNat)

end Sys2Proof.Machine
end

