-- ==== Sys2Proof/Machine/Placement.lean ====
section
/-! DEFINITION. Where a task goes and how it gets there: hints (R107 to R110), the redirection of reserved and fenced tiles
(R90, R178), child records (R132), sending and acceptance (R122), and the division of grids (R85, R86). Also the fault
records that agents other than threads raise (R161). -/
namespace Sys2Proof.Machine
open Sys2Proof

-- Records of engines, Lodges, the launch unit and tiles (R161).

/-- Raise a record for an agent that is not a thread: SRC, run slot, tile, key, the PC field (a job id) and WORD. -/
def State.raise (s : State) (a : Agent) (src : Nat) (run : Option Nat) (tile : Nat) (key : Key) (pc : Nat)
    (word : BitVec 64) (tr : Trap) : State :=
  let r := s.run (run.getD 0)
  let die := match a with | .launch _ => 0 | _ => dieOfTile tile
  s.addRecord
    { agent := a, die := die, token := none, trap := tr, run := run, joined := [],
      words := recordWords tr false (run.getD 0) src pc (match run with | some _ => r.gen | none => 0)
        (match run with | some _ => r.cfg.asid | none => 0) tile 0 0
        key.ts key.tb word }

/-- A run, resident or saved, is to be killed (R96, R178, R183): RUN_KILL carries it out. -/
def State.orderKill (s : State) (run : Nat) : State :=
  let r := s.run run
  if 16 ≤ run then { s with saved := s.saved.map fun x => if 16 + x.cfg.runid = run then { x with killed := true } else x }
  else if r.phase = .free then s
  else s.setRun run { r with killed := true }

-- Reservations (R90) and fences (R178).

/-- A live launch. -/
def State.launch? (s : State) (id : Nat) : Option Launch := s.launches.find? fun l => l.id == id
/-- The timed queue a launch was taken from. -/
def State.timedQueue (s : State) (launch : Nat) : Option Nat :=
  match s.launch? launch with
  | some l => if l.timed then some l.queue else none
  | none => none
/-- The tiles that a timed launch is kept on: those of the TMASK under which it was taken (R90). -/
def State.launchMask (s : State) (l : Launch) : BitVec 256 := l.tmask.getD (s.queue l.queue).tmask
/-- A live launch keeps its queue's reservation: one taken from a timed queue, whatever its kind (R90). -/
def Launch.reserves (l : Launch) : Bool := l.timed || l.tmask.isSome
/-- The tiles that a queue reserves: those of a timed queue's TMASK from the clearing of its tiles until EN is clear, and those of its
live launches (R90). -/
def State.queueMask (s : State) (q : Nat) : BitVec 256 :=
  let x := s.queue q
  s.launches.foldl (fun m l => if l.queue == q && l.reserves then m ||| s.launchMask l else m)
    (if x.timed && (x.phase == .on || x.phase == .clearing) then x.tmask else 0)
/-- The queue that reserves a tile. -/
def State.reservedBy (s : State) (tile : Nat) : Option Nat :=
  (List.range 64).find? fun q => (s.queueMask q).getLsbD tile
/-- A tile may hold the tasks of a launch. -/
def State.mayHold (s : State) (launch tile : Nat) : Bool :=
  !s.fenced tile &&
    match s.launch? launch with
    | some l => if l.timed then (s.launchMask l).getLsbD tile else (s.reservedBy tile).isNone
    | none => (s.reservedBy tile).isNone
/-- Manhattan distance in package coordinates (R10). -/
def tileDistance (a b : Nat) : Nat :=
  (tileX a - tileX b) + (tileX b - tileX a) + ((tileY a - tileY b) + (tileY b - tileY a))
/-- The nearest tile of a list, ties to the lowest id. -/
def nearestTile (ts : List Nat) (a : Nat) : Option Nat :=
  ts.foldl (fun b t => match b with
    | none => some t
    | some u => if tileDistance a t < tileDistance a u then some t else some u) none
/-- The tile a placement comes to: itself, or the nearest that may hold the launch's tasks; none while there is none. -/
def State.settleTile (s : State) (launch tile : Nat) : Option Nat :=
  if s.mayHold launch tile then some tile else nearestTile ((List.range 256).filter (s.mayHold launch)) tile
/-- The tiles of a grid's TMASK after R90 and R178, rising. -/
def State.gridTiles (s : State) (launch : Nat) (mask : BitVec 256) : List Nat :=
  ((List.range 256).filter fun t => mask.getLsbD t).foldl (fun ts t =>
    let own := match s.timedQueue launch, s.reservedBy t with
      | _, none => true
      | some q, some p => q == p
      | none, some _ => false
    match (if own then s.settleTile launch t else none) with
    | some u => insertNat ts u
    | none => ts) []

-- Hints (R107 to R109).

/-- Bucket(h) (R108). -/
def bucketOf (h : Nat) : Nat :=
  (bitsOf h 0 12) ^^^ (bitsOf h 12 12) ^^^ (bitsOf h 24 12) ^^^ (bitsOf h 36 12) ^^^ (bitsOf h 48 12) ^^^ (bitsOf h 60 4)

/-- What resolving a hint answers: the tile, and the line that equal ADDR hints share (R110); or why it stops. -/
inductive Hinted where
  | ok (tile line : Nat) (s : State)
  | stop (e : Stop) (s : State)

/-- The home of the line a leaf maps a hint to; no permission is checked and nothing in the table changes (R109). -/
def State.hintLine (s : State) (w : Who) (va : Nat) : Hinted :=
  let at_ (pa : Nat) (leaf : Option (Cls × Nat)) : Hinted :=
    if !s.backed pa then .stop (.trap { Trap.protAt .none va 2 with pa := some pa, leaf := leaf }) s
    else .ok (s.homeQuad (pa / 128) * 64 + sliceOf (pa / 128)) (pa / 128) s
  match w.remoteAt va with
  | some r => at_ (2 ^ 16 * r.page + va % 2 ^ 16) (some (r.cls, r.key))
  | none => match (s.lookup w va false).1 with
    | .wait line => .stop (.wait (some (line, false))) s
    | .trap t => .stop (.trap t) s
    | .leaf pte level _ => at_ (leafPa pte level va) (some (leafCls pte, bitsOf pte 24 4))

/-- An ADDR hint (R107, R109). base is the creating thread's tile, tile 0x00 for a launch. Of a hint in the stack window the
rules say nothing: that it is translated as the thread's own stack, and that a launch record's, which has none, faults with PROT
reason 2, is the model's choice (log entry 18). -/
def State.hintAddr (s : State) (w : Who) (base va : Nat) : Hinted :=
  let no : Hinted := .stop (.trap (.protAt .none va 2)) s
  match va / 2 ^ 48 with
  | 0xFF => if bitsOf va 20 28 != 0 then no else .ok base (2 ^ 52 + stashLine base va) s
  | 0xFE => if bitsOf va 20 20 != 0 then no else .ok (bitsOf va 40 8) (2 ^ 52 + stashLine (bitsOf va 40 8) va) s
  | 0xFD =>
    if bitsOf va 16 32 != 0 then no
    else match w.run, w.agent with
      | some r, .thread th =>
        let ga := s.stackVa r th va
        if 0xFD ≤ ga / 2 ^ 48 then no else s.hintLine w ga
      | _, _ => no
  | _ => s.hintLine w va

/-- The Lodge, or the launch unit, that reads the bucket map for an agent. -/
def Who.placer (w : Who) : Who :=
  match w.agent with
  | .thread _ => { w with agent := .lodge w.tile, core := none }
  | _ => w
/-- A HASH hint: the byte of the bucket map, read through the run's translation; the Lodge is a FULL sharer of the line (R107 to
R109) (log entry 18). -/
def State.hintHash (s : State) (w : Who) (hint : Nat) : Hinted :=
  let w := w.placer
  let va := ((s.run (w.run.getD 0)).cfg.bmap + bucketOf hint) % 2 ^ 56
  match s.locate w .read va 1 with
  | .error e => .stop e s
  | .ok l =>
    let p := l.part
    if s.partPoisoned w p then .stop (.trap (poisonAt .read p)) s
    else
      let r := s.partReady w.run false p
      if !r.1 then .stop (.wait none) r.2
      else
        let s := r.2.useWalk w false l
        let x : Line × State := match p.place with
          | .stash t => (s.stashData t p.pa, s)
          | _ =>
            if p.remote || (p.place == Place.system && p.bias) then s.readPart w Key.zero none p .full .none 0 false
            else
              let r := s.readHome { agent := w.agent, core := none, icache := false, tile := w.tile, line := p.pa / 128, key := p.key,
                                    cls := p.cls, view := .full, src := .none, sub := false, priv := false, alloc := false,
                                    hint := 0, mapped := true }
              (r.1, r.2.2)
        if x.2.partPoisoned w p then .stop (.trap (poisonAt .read p)) x.2
        else .ok (lineNat x.1 (p.pa % 128) 1) 0 x.2

/-- Resolve a hint (R107): before the redirection of settleTile. -/
def State.hintTile (s : State) (w : Who) (base : Nat) (hm : HMode) (hint : BitVec 64) : Hinted :=
  match hm with
  | .none => .ok base 0 s
  | .hash => s.hintHash w hint.toNat
  | .addr => s.hintAddr w base (hint.toNat % 2 ^ 56)
  | .tile => .ok (hint.toNat % 256) 0 s

/-- Two tasks have equal hints (R110) (log entry 10). -/
def equalHints (a b : Task) : Bool :=
  a.run == b.run && a.hmode == b.hmode && a.hmode != .none &&
    (match a.hmode with
     | .addr => a.hintLine == b.hintLine
     | _ => a.hint == b.hint)

-- Child records (R132).

/-- The creator's entry notes where a child was sent. -/
def State.recordChild (s : State) (creator : Option Nat) (tile : Nat) : State :=
  match creator with
  | none => s
  | some id => s.onEntry id fun e =>
      if e.children.length < 8 then { e with children := e.children ++ [tile] } else { e with ovf := true }
/-- The creator's entry notes where its continuation was sent. -/
def State.recordDepart (s : State) (creator : Option Nat) (tile : Nat) : State :=
  match creator with
  | none => s
  | some id => s.onEntry id fun e => { e with depart := some tile }
/-- Replace the first of a list. -/
def replaceFirst (a b : Nat) : List Nat → List Nat
  | [] => []
  | x :: r => if x = a then b :: r else x :: replaceFirst a b r
/-- A task passed on: its creator's record names the new tile. -/
def State.repoint (s : State) (creator : Option Nat) (a b : Nat) : State :=
  match creator with
  | none => s
  | some id => s.onEntry id fun e =>
      if e.depart = some a ∧ !e.children.contains a then { e with depart := some b }
      else { e with children := replaceFirst a b e.children }

-- Sending and acceptance (R122).

/-- A queue has room for one more. -/
def State.queueRoom (s : State) (tile : Nat) : Bool := decide ((s.lodge tile).queue.length < 256)
/-- Put a task into a tile's queue (log entry 12). -/
def State.enqueue (s : State) (tile : Nat) (t : Task) : State :=
  let l := s.lodge tile
  s.setLodge tile { l with queue := l.queue ++ [t] }
/-- Send a task: accepted at once where the queue has room and no earlier one waits for it, else held by the sender.
Answers the number under which it is held. -/
def State.sendTask (s : State) (sender : Option Nat) (tile : Nat) (th : Option Nat) (t : Task) : Option Nat × State :=
  if s.queueRoom tile && !(s.sent.any fun x => x.tile == tile) then (none, s.enqueue tile t)
  else
    let id := s.nextStore + 1
    (some id, { s with nextStore := id, sent := s.sent ++ [{ id := id, sender := sender, tile := tile, task := t, th := th }] })

-- Grids (R85, R86).

/-- Grid dimensions from extents and sub-tile shapes: unused dimensions take 1. -/
def gridDims (ext sub : List Nat) : List Nat := (ext.zip sub).map fun p => (p.1 + p.2 - 1) / p.2
/-- Number of tasks of a grid. -/
def gridCount (dims : List Nat) : Nat := dims.foldl (fun a d => a * d) 1
/-- The three values of a list as grid components. -/
def v3Of (l : List Nat) : V3 :=
  ⟨BitVec.ofNat 64 (l.getD 0 0), BitVec.ofNat 64 (l.getD 1 0), BitVec.ofNat 64 (l.getD 2 0)⟩
/-- The identity of linear index L (R85, R86). -/
def gridIdent (ext sub dims : List Nat) (l : Nat) : Ident :=
  let g0 := dims.getD 0 1
  let g1 := dims.getD 1 1
  let idx := [l % g0, l / g0 % g1, l / (g0 * g1)]
  let org := (idx.zip sub).map fun p => p.1 * p.2
  { org := v3Of org, ext := v3Of ((org.zip (sub.zip ext)).map fun p => Nat.min p.2.1 (p.2.2 - p.1)), gidx := v3Of idx,
    gdim := v3Of dims }
/-- The shares of a grid's tiles (R86). -/
def gridShares (g : GridRec) (tiles : List Nat) : List GridRec :=
  let n := gridCount g.dims
  let t := tiles.length
  (tiles.mapIdx fun j tile => { g with tile := tile, next := n * j / t, stop := n * (j + 1) / t }).filter fun x =>
    decide (x.next < x.stop)
/-- The task of the next index of a share. -/
def GridRec.task (g : GridRec) : Task :=
  { func := g.func, ts := g.ts, tb := 0, hasTb := true, floor := Key.zero, spec := false, hmode := .tile,
    hint := BitVec.ofNat 64 g.tile, nargs := g.nargs, args := g.args, run := g.run, aborts := 0, mw := false,
    parent := g.parent, ident := gridIdent g.ext g.sub g.dims g.next, launch := g.launch, hintLine := 0,
    id := 0, unseen := if g.launchUnit then 2 else 0 }
/-- The identity of a task that no grid made (R84). -/
def Ident.single : Ident := { org := v3Of [0, 0, 0], ext := v3Of [1, 1, 1], gidx := v3Of [0, 0, 0], gdim := v3Of [1, 1, 1] }

end Sys2Proof.Machine
end

