-- ==== Sys2Proof/Machine/Engine.lean ====
section
/-! DEFINITION. What both engines of a tile share: their accesses (R414, R435), counter bumps (R415, R436), the acceptance
of jobs with their ids (R204 to R206), and jwait and jpoll (R439 to R441). -/
namespace Sys2Proof.Machine
open Sys2Proof

-- Accesses.

/-- An engine as accessing agent: with the issuing task's key, the core and the thread slot that issued the job, and its map-remote
replies by VA line and kind of access. -/
structure Eng where
  agent : Agent
  tile : Nat
  run : Option Nat
  key : Key
  issuer : Nat
  th : Nat
  hint : BitVec 3
  remotes : List ((Nat × Acc) × Remote)

/-- The agent for an access of a kind to one line; a reply to the fault of a table walk serves the access that walked (R165). -/
def Eng.who (e : Eng) (acc : Acc) (va : Nat) : Who :=
  { agent := e.agent, tile := e.tile, core := none, run := e.run, issuer := e.issuer, th := e.th,
    remote := (e.remotes.filter fun r => r.1 == (va / 128, acc) || r.1 == (va / 128, Acc.walk)).map fun r => (va / 2 ^ 16, r.2) }

/-- Locate the lines of n bytes, and see that their homes can serve them (R371). -/
def State.engReach (s : State) (e : Eng) (acc : Acc) : List (Nat × Nat) → Except Stop (List Located × State)
  | [] => .ok ([], s)
  | (va, n) :: r =>
    match s.locate (e.who acc va) acc va n with
    | .error y => .error y
    | .ok l =>
      let x := s.partReady e.run acc.writes l.part
      if !x.1 then .error (.wait (some (l.part.pa / 128, acc.writes)))
      else match x.2.engReach e acc r with
        | .error y => .error y
        | .ok (ls, s) => .ok (l :: ls, s)

/-- Read n bytes: their value, the stretches of them (offset and length) that lie in poisoned lines, and the state after. -/
def State.engRead (s : State) (e : Eng) (va n : Nat) : Except Stop (Nat × List (Nat × Nat) × State) :=
  match s.engReach e .read (pieces va n) with
  | .error y => .error y
  | .ok (ls, s) =>
    .ok ((ls.foldl (fun (a : Nat × Nat × List (Nat × Nat) × State) l =>
      let w := e.who .read l.part.va
      let s := a.2.2.2.useWalk w false l
      let bad := s.partPoisoned w l.part
      let x := s.readPart w e.key none l.part .full .none e.hint false
      (a.1 + 8 * l.part.len, a.2.1 + (lineNat x.1 (l.part.pa % 128) l.part.len <<< a.1),
        (if bad || x.2.partPoisoned w l.part then a.2.2.1 ++ [(a.1 / 8, l.part.len)] else a.2.2.1), x.2))
      (0, 0, [], s)).2)

/-- The same, where poison is a fault (R419, R437). -/
def State.engReadClean (s : State) (e : Eng) (va n : Nat) : Except Stop (Nat × State) :=
  match s.engRead e va n with
  | .error y => .error y
  | .ok (v, bad, s') =>
    if !bad.isEmpty then .error (.trap (match s.locate (e.who .read va) .read va n with
      | .ok l => { poisonAt .read l.part with va := va % 2 ^ 56 }
      | .error _ => .at .poison .read (va % 2 ^ 56)))
    else .ok (v, s')

/-- The storer an engine is: an assured store with the task's key on a T page (R414, R435). -/
def Eng.storer (e : Eng) (cls : Cls) : Storer :=
  { agent := e.agent, die := some (dieOfTile e.tile), core := none, run := e.run, key := e.key, specid := none,
    eager := cls.eager, probes := cls == .t, restore := false, atHome := false, hint := e.hint }

/-- Write the bytes of located parts, from a value that starts at address va; the lines that receive bytes of the poisoned stretches of
the value become poisoned (R41). A write to a stash is performed in this step, before the job's bump (log entry 82). -/
def State.engWrite (s : State) (e : Eng) (va v n : Nat) (ls : List Located) (bad : List (Nat × Nat)) : State :=
  ls.foldl (fun s l =>
    let w := e.who .write l.part.va
    let s := s.useWalk w true l
    let r := partReq va (2 ^ (8 * n) - 1) v l
    let was := s.partPoisoned w l.part
    let s := (s.taggedWrite w (e.storer l.part.cls) l.part r.mask r.data none false).2
    let o := (l.part.va + 2 ^ 56 - va % 2 ^ 56) % 2 ^ 56
    if bad.any fun b => decide (b.1 < o + l.part.len) && decide (o < b.1 + b.2) then s.poisonPart w l.part was else s) s

/-- The agent's lazy collapses stand in the way of a release at a scope (R232, R247). -/
def State.engHeld (s : State) (a : Agent) (scope : Scope) : Bool := devScope scope && s.charged a

/-- A counter bump (R388, R390, R415): a release of its scope, so the tile's dirty mapped lines go home first, and the collapses
that the job is charged with are acknowledged. Answers why it stops, if it does. -/
def State.engBump (s : State) (e : Eng) (va d : Nat) (scope : Scope) : Option Stop × State :=
  let s := s.cleanTile e.agent e.tile scope
  if s.engHeld e.agent scope then (some (.wait none), s)
  else if va % 8 ≠ 0 then (some (.trap (.at .align .atomic va)), s)
  else
    let w := e.who .atomic va
    match s.engReach e .atomic [(va % 2 ^ 56, 8)] with
    | .error y => (some y, s)
    | .ok ([l], s) =>
      let p := l.part
      if p.cls == Cls.t && !p.remote then (some (.trap { Trap.protAt .atomic va 1 with pa := some p.pa, leaf := some (p.cls, p.key) }), s)
      else if s.homePoisoned w p then (some (.trap { poisonAt .atomic p with va := va }), s)
      else (none, ((s.useWalk w true l).rmwPart w (e.storer p.cls) p (fun old => ctrSum old d) none (some scope)).2)
    | .ok (_, s) => (some (.wait none), s)

-- Jobs.

/-- The number of a job. -/
def Job.id : Job → Nat
  | .matrix j => j.id
  | .porter j => j.id
/-- Live jobs of a tile by id. -/
def State.jobLive (s : State) (tile id : Nat) : Bool :=
  let e := s.engine tile
  e.mq.any (fun j => j.id == id) || e.lanes.any fun l => l.any fun j => j.id == id
/-- The status of an id that no live job holds (R441). -/
def State.jobStatus (s : State) (tile id : Nat) : Bool :=
  let e := s.engine tile
  let done := if id < 2 ^ 15 then e.mdone else e.pdone.getD (bitsOf id 14 1) []
  match (done.reverse.find? fun d => d.1 == id) with
  | some d => d.2
  | none => false
/-- The 64 most recent of a list. -/
def last64 {α : Type} (l : List α) : List α := l.drop (l.length - 64)

/-- A matrix job leaves the queue, complete or faulted. -/
def State.endMatrix (s : State) (tile id : Nat) (faulted : Bool) : State :=
  let e := s.engine tile
  s.setEngine tile { e with mq := e.mq.filter fun j => j.id != id, mdone := last64 (e.mdone ++ [(id, faulted)]) }
/-- A Porter job leaves its lane. -/
def State.endPorter (s : State) (tile lane id : Nat) (faulted : Bool) : State :=
  let e := s.engine tile
  s.setEngine tile { e with
    lanes := e.lanes.modify lane fun l => l.filter fun j => j.id != id,
    pdone := e.pdone.modify lane fun l => last64 (l ++ [(id, faulted)]) }

/-- A queue has room: unit 0 the matrix engine, 1 the normal lane, 2 the urgent lane. -/
def State.unitRoom (s : State) (tile unit : Nat) : Bool :=
  let e := s.engine tile
  if unit = 0 then decide (e.mq.length < 16) else decide ((e.lanes.getD (unit - 1) []).length < 32)
/-- An id is held: by a live job, or by a job of a saved run, which comes back with it (R180); that the second keeps its id from being
handed out is the model's choice (log entry 21). -/
def State.idHeld (s : State) (tile id : Nat) : Bool :=
  s.jobLive tile id || s.saved.any fun x => x.jobs.any fun j => j.1 / 128 == tile && j.2.id == id
/-- The first count from n whose id no job holds (R206). -/
def State.freeId (s : State) (tile base n size : Nat) : Nat :=
  match (List.range (65 + s.saved.foldl (fun a x => a + x.jobs.length) 0)).find? fun i => !s.idHeld tile (base + (n + i) % size) with
  | some i => (n + i) % size
  | none => n % size

/-- The mask, operation, type and element count of a prrow. -/
def rowParts (i : Instr) : Option (RowOp × Ty × BitVec 8 × BitVec 16) :=
  match i with
  | .prrow _ _ op ty _ mask tag _ _ _ _ _ => some (op, ty, mask, tag)
  | _ => none
/-- Die row of a tile. -/
def dieRow (tile : Nat) : Nat := tile / 8 % 8
/-- A prrow joins the next instance of its row and tag (R420) (log entry 15). -/
def State.joinRow (s : State) (tile : Nat) (j : PorterJob) : PorterJob × State :=
  match rowParts j.ins with
  | none => (j, s)
  | some (op, ty, mask, tag) =>
    let run := j.run.getD 16
    let key := 2 ^ 16 * (run * 256 + tile) + tag.toNat
    let k := Sparse.getD s.rowCount key 0
    let s : State := { s with rowCount := Sparse.set s.rowCount key (k + 1) }
    let q := dieOfTile tile
    let here (r : RowInst) : Bool := r.quad == q && r.row == dieRow tile && r.tag == tag.toNat && r.run == run && r.inst == k
    let col := 1#8 <<< (tile % 8)
    let n := j.cval.toNat
    let rows := match s.rows.find? here with
      | none => s.rows ++ [{ quad := q, row := dieRow tile, tag := tag.toNat, run := run, inst := k, mask := mask, op := op,
                             ty := ty, elems := n, joined := col, started := false, faulted := false }]
      | some _ => s.rows.map fun r =>
          if here r then { r with joined := r.joined ||| col,
                                  faulted := r.faulted || r.mask != mask || r.op != op || r.ty != ty || r.elems != n }
          else r
    ({ j with rowInst := some k }, { s with rows := rows })

/-- Put a job into its queue, with the next id of the engine or lane (R206). -/
def State.joinQueue (s : State) (tile unit : Nat) (job : Job) : Nat × State :=
  let e := s.engine tile
  match job with
  | .matrix j =>
    let n := s.freeId tile 0 e.mcount (2 ^ 15)
    (n, s.setEngine tile { e with mq := e.mq ++ [{ j with id := n }], mcount := n + 1 })
  | .porter j =>
    let lane := unit - 1
    let base := 2 ^ 15 + 2 ^ 14 * lane
    let n := s.freeId tile base (e.pcount.getD lane 0) (2 ^ 14)
    let id := base + n
    let x := s.joinRow tile { j with id := id }
    let e := x.2.engine tile
    (id, x.2.setEngine tile { e with lanes := e.lanes.modify lane fun l => l ++ [x.1], pcount := e.pcount.set lane (n + 1) })

/-- The agent that runs the jobs of a unit. -/
def unitAgent (tile unit : Nat) : Agent := if unit = 0 then .matrix tile else .porter tile (unit - 1)
/-- A thread's job is accepted: gD := job id, and the instruction completes (R413, R421). What the thread waits for, the job waits
for (R251, R254). -/
def State.acceptJob (s : State) (th unit : Nat) (job : Job) (d : GReg) (len : Nat) : State :=
  let x := s.joinQueue (tileOf th) unit job
  let e := x.2.engine (tileOf th)
  let s := x.2.passCharges (.thread th) (unitAgent (tileOf th) unit)
  let s := s.setEngine (tileOf th) { e with last := e.last.set unit (some (coreOf th % 8)) }
  match s.thread? th with
  | none => s
  | some t => s.finish th len { t.setG d (BitVec.ofNat 64 x.1) with remote := [], seq := t.seq + 1 }

/-- The unit a parked thread offers a job to. -/
def Park.offers (unit : Nat) : Park → Bool
  | .offer u _ _ _ => u == unit
  | _ => false
/-- Offer a job: accepted at once where there is room and no other offer waits, else the thread parks (R204). -/
def State.offerJob (s : State) (th unit : Nat) (job : Job) (d : GReg) (len : Nat) : State :=
  let waiting := s.threads.any fun e => tileOf e.1 == tileOf th && e.1 != th && e.2.park.offers unit
  if s.unitRoom (tileOf th) unit && !waiting then s.acceptJob th unit job d len
  else s.parkAt th (.offer unit job d len)

/-- The order in which a unit looks at the cores: from the one accepted last, from core 0 at first (R204) (log entry 62). -/
def coreRank (last : Option Nat) (core : Nat) : Nat := (core + 8 - last.getD 0) % 8
/-- ENGINE_QUEUE_ACCEPT: one parked offer enters a unit that has room (R204, R205) (log entry 62), unless the device or the tile
accepts no work any more (R17, R24, R176). -/
def State.acceptOffer (s : State) (tile unit : Nat) : State :=
  if !s.unitRoom tile unit || s.fatal || s.fenced tile then s
  else
    let last := (s.engine tile).last.getD unit none
    let best := s.threads.foldl (fun (a : Option (Nat × Thread)) e =>
      if tileOf e.1 = tile ∧ e.2.park.offers unit then
        match a with
        | none => some e
        | some b => if coreRank last (coreOf e.1 % 8) < coreRank last (coreOf b.1 % 8) then some e else some b
      else a) none
    match best with
    | none => s
    | some (th, t) => match t.park with
      | .offer _ job d len => s.acceptJob th unit job d len
      | _ => s

/-- An instruction that makes a job, once its checks have passed: the speculative park (R413, R422), the wait for earlier
accesses (R254), then the offer. -/
def State.forkJob (s : State) (th unit : Nat) (t : Thread) (job : Job) (d : GReg) (len : Nat) : State :=
  if s.provisional t then s.parkAt th .earliest
  else if t.outs.any Outstanding.isMem then s.parkAt th .marker
  else if !s.storesDone th .tile then s.parkAt th (.stores .tile)
  else s.offerJob th unit job d len

-- jwait and jpoll.

/-- The end of a job, seen by the thread that issued it: what the job waits for, the thread waits for (R251, R254). -/
def State.joinJobs (s : State) (th : Nat) : State :=
  (List.range 3).foldl (fun (s : State) unit => s.passCharges (unitAgent (tileOf th) unit) (.thread th)) s
/-- jwait (R439). -/
def execJwait (h : Hdr) (st : Bool) (d a : GReg) (s : State) : Out :=
  issue s (fun _ => ⟨h, 8, (if st then [numG d] else []) ++ [numG a], false, false, false⟩) fun t =>
    let th := s.focus
    let id := (t.getG a).toNat % 2 ^ 16
    if s.jobLive (tileOf th) id then s.parkAt th (.jwait id)
    else (s.joinJobs th).finish th 8 (if st then t.setG d (if s.jobStatus (tileOf th) id then 1 else 0) else t)

/-- jpoll (R440): what follows it is performed after its answer (R254). -/
def execJpoll (h : Hdr) (d : PReg) (a : GReg) (s : State) : Out :=
  varOp s h 8 [numP d, numG a] fun t =>
    let o : Outstanding := { readyOut t (numP d) 0 with kind := .jpoll ((t.getG a).toNat % 2 ^ 16), acq := some .thread }
    s.finish s.focus 8 { t.addOut o with seq := t.seq + 1 }

/-- ENGINE_QUEUE_ACCEPT (R204). -/
def execEngineQueueAccept (tile unit : Nat) (s : State) : Out := .next (s.acceptOffer tile unit)

end Sys2Proof.Machine
end

