-- ==== Sys2Proof/Machine/Tasks.lean ====
section
/-! DEFINITION. Creating and ending tasks, opcodes 0x78–0x7B (R100, R112, R397 to R404), and the acceptance of a task by
its Lodge (R122). -/
namespace Sys2Proof.Machine
open Sys2Proof

/-- The speculation id that a thread's children name as PARENT (R131). -/
def State.parentId (s : State) (th : Nat) (t : Thread) : Option Nat := if t.spec then s.specidOf th t else none

/-- A task ends (R402): a speculative one is finished and keeps its entry, an assured one stops being counted; the slot
becomes free. -/
def State.endTask (s : State) (th : Nat) : State :=
  match s.thread? th with
  | none => s
  | some t =>
    match t.task with
    | none => s
    | some k =>
      let s := s.freeThread th
      if k.spec then
        match t.entry with
        | none => s
        | some n => match Sparse.get? (s.lodge (tileOf th)).cq n with
          | some e => s.setEntry (tileOf th) n { e with finished := true, th := none, doneAt := s.cycle }
          | none => s
      else
        let r := s.run k.run
        s.setRun k.run { r with ended := if r.ended.contains k.ts then r.ended else r.ended ++ [k.ts] }

/-- Every earlier store of a thread is performed with respect to .dev, or the thread waits at its instruction (R255, R256)
(log entry 11). -/
def State.whenStored (s : State) (th : Nat) (f : State → State) : State :=
  let s := s.cleanTile (.thread th) (tileOf th) .dev
  if s.storesDone th .dev then f s else s.parkAt th (.stores .dev)

/-- End the task as tend does: after its results have arrived and its stores are performed (R402). -/
def State.tryEnd (s : State) (th : Nat) : State :=
  match s.thread? th with
  | none => s
  | some t =>
    if t.pend != 0 then s.parkAt th .marker
    else s.whenStored th fun s => s.endTask th

/-- An instruction of opcodes 0x78–0x7B that acts as marked; a service slot runs no task and may not issue it (R155,
R159). -/
def taskOp (s : State) (h : Hdr) (len : Nat) (f : Thread → Task → State) : Out :=
  issue s (fun t => ⟨h, len, [], true, false, t.task.isNone⟩) fun t =>
    match t.task with
    | none => s
    | some k => f t k

/-- TSORDER (R100): a child earlier than its creator, or an assured one of equal TS under a speculative creator. -/
def tsorder (k : Task) (ts : BitVec 64) (spec : Bool) : Bool :=
  decide (ts.toNat < k.ts.toNat) || (!spec && k.spec && ts == k.ts)

/-- Place a new task and send it: a fault of its hint is the instruction's (R109); the thread waits while no tile may hold
it, and while the receiving queue is full (R122). -/
def State.placeTask (s : State) (th len : Nat) (t : Thread) (c : Task) (ends : Bool) : State :=
  match s.hintTile (t.who th) (tileOf th) c.hmode c.hint with
  | .stop e s => s.stopAccess th e
  | .ok tile line s =>
    s.whenStored th fun s =>
      match s.settleTile c.launch tile with
      | none => s.parkAt th .home
      | some tile =>
        let s := if ends then s.recordDepart c.parent tile else s.recordChild c.parent tile
        match s.sendTask (some (tileOf th)) tile (some th) { c with hintLine := line } with
        | (some id, s) => s.parkAt th (.send id len ends)
        | (none, s) => if ends then s.endTask th else s.finish th len { t with remote := [] }

/-- task (R398) (log entry 11). -/
def execTask (h : Hdr) (spec : Bool) (hm : HMode) (n : BitVec 4) (b c e : GReg) (func : Src32) (s : State) : Out :=
  taskOp s h func.len fun t k =>
    let ts := t.getG b
    if tsorder k ts spec then s.trap s.focus (.plain .tsorder)
    else s.placeTask s.focus func.len t
      { func := t.target func, ts := ts, tb := 0, hasTb := !spec, floor := if spec && ts == k.ts then k.key else Key.zero,
        spec := spec, hmode := hm, hint := (match hm with | .none => 0 | _ => t.getG c), nargs := n.toNat,
        args := (List.range n.toNat).map fun i => t.getG (e + BitVec.ofNat 4 i), run := k.run, aborts := 0, mw := false,
        parent := s.parentId s.focus t, ident := Ident.single, launch := k.launch, hintLine := 0, unseen := 0 } false

-- tgrid (R399, R400).

/-- A grid as a descriptor or a launch record gives it. -/
structure Grid where
  mask : BitVec 256
  ext : List Nat
  sub : List Nat
  ndim : Nat
deriving DecidableEq, Repr

/-- Fields of unused dimensions are zero, used sub-tiles are not (R83, R399). -/
def Grid.fieldsOk (g : Grid) : Bool :=
  g.ndim != 0 && (List.range 3).all fun d =>
    if d < g.ndim then g.sub.getD d 0 != 0 else g.ext.getD d 0 == 0 && g.sub.getD d 0 == 0
/-- Extents with unused dimensions taken as 1 (R85). -/
def Grid.exts (g : Grid) : List Nat := (List.range 3).map fun d => if d < g.ndim then g.ext.getD d 0 else 1
/-- Sub-tile shapes with unused dimensions taken as 1. -/
def Grid.subs (g : Grid) : List Nat := (List.range 3).map fun d => if d < g.ndim then g.sub.getD d 0 else 1
/-- Grid dimensions. -/
def Grid.dims (g : Grid) : List Nat := gridDims g.exts g.subs
/-- The checks of a grid's shape. -/
def Grid.ok (g : Grid) : Bool := g.fieldsOk && decide (gridCount g.dims < 2 ^ 48)

/-- The grid of a 64-byte descriptor. -/
def gridOfImage (x : Nat) : Grid :=
  { mask := BitVec.ofNat 256 x, ext := [imageHalf x 8, imageHalf x 9, imageHalf x 10],
    sub := [bitsOf (imageWord x 5) 32 16, bitsOf (imageWord x 5) 48 16, bitsOf (imageWord x 6) 0 16],
    ndim := bitsOf (imageWord x 6) 16 2 }
/-- Reserved bits of a descriptor. -/
def gridReserved (x : Nat) : Bool := bitsOf (imageWord x 6) 18 46 != 0 || imageWord x 7 != 0

/-- Grid records of a Lodge in use (R400). -/
def State.gridRoom (s : State) (tile : Nat) : Bool := decide ((s.lodge tile).grids.length < 16)
/-- Write one share into its Lodge's grid record. -/
def State.addGrid (s : State) (g : GridRec) : State :=
  let l := s.lodge g.tile
  s.setLodge g.tile { l with grids := l.grids ++ [g] }

/-- tgrid once its descriptor is read: the checks, then all reservations at once or none (R399, R400). -/
def State.makeGrid (s : State) (th len : Nat) (t : Thread) (k : Task) (ts : BitVec 64) (func : BitVec 56)
    (args : List (BitVec 64)) (x : Nat) : State :=
  let g := gridOfImage x
  let tiles := s.gridTiles k.launch g.mask
  if gridReserved x || !g.ok || tiles.isEmpty then s.trap th (.plain .illop)
  else if tsorder k ts false then s.trap th (.plain .tsorder)
  else if gridCount g.dims = 0 then s.finish th len { t with remote := [] }
  else
    let base : GridRec := { func := func, ts := ts, ext := g.exts, sub := g.subs, dims := g.dims, next := 0, stop := 0,
                            nargs := args.length, args := args, run := k.run, launch := k.launch,
                            parent := s.parentId th t, tile := 0, launchUnit := false }
    let shares := gridShares base tiles
    if shares.all fun g => s.gridRoom g.tile then
      let s := shares.foldl (fun s g => (s.addGrid g).recordChild g.parent g.tile) s
      s.finish th len { t with remote := [] }
    else s.parkAt th (.grid x)

/-- tgrid (R399): the descriptor is read once; a thread that waits for grid records keeps what it read (log entry 11). -/
def execTgrid (h : Hdr) (n : BitVec 4) (b c e : GReg) (func : Src32) (s : State) : Out :=
  taskOp s h func.len fun t k =>
    let th := s.focus
    let w := t.who th
    let args := (List.range n.toNat).map fun i => t.getG (e + BitVec.ofNat 4 i)
    let go (s : State) (x : Nat) : State := s.makeGrid th func.len t k (t.getG b) (t.target func) args x
    match t.park with
    | .grid x => go s x
    | _ =>
      s.whenStored th fun s =>
        match s.reach w .read ((t.getG c).toNat % 2 ^ 56) 64 64 with
        | .error e => s.stopAccess th e
        | .ok ls =>
          match s.readNow th t w h.ch ls with
          | (none, s) => s.parkAt th .home
          | (some x, s) => match s.poisonTrap w .read ls with
            | some e => s.trap th e
            | none => go s x

/-- depart (R112, R113, R401): the continuation, then the end of the task (log entry 11). -/
def execDepart (h : Hdr) (a : GReg) (func : Src32) (s : State) : Out :=
  taskOp s h func.len fun t k =>
    s.placeTask s.focus func.len t
      { func := t.target func, ts := k.ts, tb := 0, hasTb := !k.spec, floor := if k.spec then k.key else Key.zero,
        spec := k.spec, hmode := .addr, hint := t.getG a, nargs := 16,
        args := (List.range 16).map fun i => t.getG (BitVec.ofNat 4 i), run := k.run, aborts := 0, mw := false,
        parent := s.parentId s.focus t, ident := k.ident, launch := k.launch, hintLine := 0, unseen := 0 } true

/-- tend (R402). -/
def execTend (h : Hdr) (s : State) : Out := taskOp s h 8 fun _ _ => s.tryEnd s.focus

/-- mswait (R403). -/
def execMswait (h : Hdr) (s : State) : Out :=
  issue s (fun t => ⟨h, 8, [], false, false, t.task.isNone⟩) fun t =>
    if s.provisional t then s.parkAt s.focus .earliest else s.finish s.focus 8 t

/-- A task on its way is redirected where its tile may no longer hold it (R90, R178). -/
def State.resend (s : State) (x : Sent) : Sent × State :=
  match s.settleTile x.task.launch x.tile with
  | none => (x, s)
  | some tile =>
    if tile = x.tile then (x, s)
    else
      let y : Sent := { x with tile := tile }
      let s : State := { s with sent := s.sent.map fun z => if z.id == x.id then y else z }
      (y, s.repoint x.task.parent x.tile tile)
/-- TASK_ACCEPT: the Lodge takes a task that its sender holds, once its queue has room and no earlier one waits; the
creating instruction then completes (R122). -/
def State.acceptTask (s : State) (id : Nat) : State :=
  match (if s.fatal then none else s.sent.find? fun x => x.id == id) with
  | none => s
  | some x =>
    let r := s.resend x
    let x := r.1
    let s := r.2
    if !s.mayHold x.task.launch x.tile then s
    else if !s.queueRoom x.tile || s.sent.any (fun y => y.tile == x.tile && decide (y.id < x.id)) then s
    else
      let s : State := { s with sent := s.sent.filter fun y => y.id != id }
      let s := s.enqueue x.tile x.task
      match x.th with
      | none => s
      | some th => match s.thread? th with
        | some t => match t.park with
          | .send i len ends =>
            if i != id then s
            else if ends then s.endTask th else s.finish th len { t with remote := [] }
          | _ => s
        | none => s

/-- TASK_ACCEPT (R122). -/
def execTaskAccept (n : Nat) (s : State) : Out := .next (s.acceptTask n)

end Sys2Proof.Machine
end

