-- ==== Sys2Proof/Machine/Lodge.lean ====
section
/-! DEFINITION. The Lodges (06): dispatch with tiebreakers and commit-queue entries (R95, R96, R110, R119, R123, R124),
milestone rounds and commit (R103 to R106, R147 to R151), grid entry (R86, R400), load levelling (R152), and the steps of
conflict detection (R135 to R141, R146). -/
namespace Sys2Proof.Machine
open Sys2Proof

/-- Threads of a tile, with their slots. -/
def State.tileThreads (s : State) (tile : Nat) : List (Nat × Thread) := s.threads.filter fun e => tileOf e.1 == tile
/-- Threads of a run, with their slots. -/
def State.runThreads (s : State) (run : Nat) : List (Nat × Thread) :=
  s.threads.filter fun e => match e.2.task with | some k => k.run == run | none => false

-- Levels (R78).

/-- A run's level: the highest among its live launches, 0 when it has none. -/
def State.runLevel (s : State) (run : Nat) : Nat :=
  s.launches.foldl (fun a l => if l.run = run then Nat.max a l.level else a) 0
/-- The run accepts dispatch: resident and not ordered to end. -/
def State.runLive (s : State) (run : Nat) : Bool :=
  (s.run run).phase == .resident && !(s.run run).killed && !(s.run run).resuming

-- What may be dispatched (R103, R110, R119, R123, R124).

/-- The least task by counted key; of equal ones the first. -/
def leastTask (l : List Task) : Option Task :=
  l.foldl (fun a t => match a with
    | none => some t
    | some b => if t.counted.lt b.counted then some t else some b) none

/-- R110 holds a queued task back: a thread of the tile runs a task with equal hints, or an earlier one waits. -/
def State.hintHeld (s : State) (tile : Nat) (t : Task) : Bool :=
  ((s.tileThreads tile).any fun e => match e.2.task with | some k => equalHints k t | none => false) ||
    (s.lodge tile).queue.any fun u => equalHints u t && u.counted.lt t.counted
/-- How a speculative task gets an entry (R124): a free one, or that of the run's latest entry, which is later than the
task. Entries with earliest standing count as earlier (R106). -/
inductive EntryFor where
  | free (n : Nat)
  | evict (n : Nat)
  | stall
deriving DecidableEq, Repr

/-- The commit-queue entry that a task takes (R124). That it is the lowest not in use is the model's choice: the rules name none, and it
shows in speculation ids and log areas (log entry 12). -/
def State.freeEntry (s : State) (tile : Nat) : Option Nat :=
  (List.range 64).find? fun n => (Sparse.get? (s.lodge tile).cq n).isNone
/-- The latest entry of a run on a tile that may be aborted. -/
def State.latestEntry (s : State) (tile run : Nat) : Option (Nat × CqEntry) :=
  (s.lodge tile).cq.foldl (fun a e =>
    if e.2.task.run = run ∧ !s.entryEarliest e.2 then
      match a with
      | none => some e
      | some b => if b.2.task.key.lt e.2.task.key then some e else some b
    else a) none
/-- The entry a speculative task would get now. -/
def State.entryFor (s : State) (tile : Nat) (t : Task) : EntryFor :=
  match (if (s.lodge tile).cq.length < s.cqlim then s.freeEntry tile else none) with
  | some n => .free n
  | none => match s.latestEntry tile t.run with
    | some (n, e) => if t.counted.lt e.task.key then .evict n else .stall
    | none => .stall
/-- The speculative creator of a task has not committed (R101). -/
def State.provisionalChild (s : State) (t : Task) : Bool :=
  match t.parent with
  | none => false
  | some id => (s.specEntry? id).isSome
/-- A queued task may be dispatched, entries apart; an assured child waits for its creator's commit (R101, R103). -/
def State.eligible (s : State) (tile : Nat) (t : Task) : Bool :=
  s.runLive t.run && s.mayHold t.launch tile && !s.hintHeld tile t &&
    (if t.spec then !t.mw || t.counted == (s.run t.run).milestone
     else t.unseen == 0 && !s.provisionalChild t && decide (t.ts.toNat ≤ (s.run t.run).milestone.ts.toNat))
/-- A queued task may be dispatched (R123). -/
def State.dispatchable (s : State) (tile : Nat) (t : Task) : Bool :=
  s.eligible tile t && (!t.spec || s.entryFor tile t != .stall)
/-- Speculative dispatch of a run on a tile is stalled under R124: the task it would dispatch next gets no entry, and then no later
one does either. -/
def State.cqStallRun (s : State) (tile run : Nat) : Bool :=
  match leastTask ((s.lodge tile).queue.filter fun t => t.run == run && t.spec && s.eligible tile t) with
  | some t => s.entryFor tile t == .stall
  | none => false
/-- Speculative dispatch of a tile is stalled under R124 (LODGE_STAT.CQSTALL). -/
def State.cqStall (s : State) (tile : Nat) : Bool := (List.range 16).any fun r => s.cqStallRun tile r
/-- The launch has used up its budget (R93). -/
def State.overrun (s : State) (launch : Nat) : Bool :=
  match s.launch? launch with
  | some l => l.overrun
  | none => false
/-- The tasks that a Lodge may dispatch now: those of overrun launches only while no task of a launch within its budget is
ready (R93). -/
def State.choices (s : State) (tile : Nat) : List Task :=
  let c := (s.lodge tile).queue.filter (s.dispatchable tile)
  let within := c.filter fun t => !s.overrun t.launch
  if within.isEmpty then c else c.filter fun t => !s.overrun t.launch || (s.timedQueue t.launch).isNone
/-- The run a Lodge dispatches from (R78): highest level, then a run other than the one dispatched last, then the lowest
slot. -/
def State.chooseRun (s : State) (tile : Nat) (c : List Task) : Option Nat :=
  let rank (r : Nat) : Nat := (63 - s.runLevel r) * 64 + (if r = (s.lodge tile).lastRun then 32 else 0) + r
  c.foldl (fun a t => match a with
    | none => some t.run
    | some r => if rank t.run < rank r then some t.run else some r) none
/-- The slot a task goes to (R123, R155): in the core with the fewest occupied slots, ties to the lowest; none while every
slot is occupied. -/
def State.freeSlot (s : State) (tile : Nat) : Option Nat :=
  let used (c : Nat) : Nat := (s.threads.filter fun e => e.1 / 8 == tile * 8 + c).length
  let cores := (List.range 8).filter fun c => !isInnkeeperCore (tile * 8 + c) && decide (used c < 8)
  match cores.foldl (fun a c => match a with
    | none => some c
    | some b => if used c < used b then some c else some b) none with
  | none => none
  | some c => ((List.range 8).map fun i => (tile * 8 + c) * 8 + i).find? fun th => (s.thread? th).isNone

-- Tiebreakers (R95, R96).

/-- FLOOR.SEQ of a task. -/
def Task.floorSeq (t : Task) : Nat := if t.floor.ts == t.ts then t.floor.tb.toNat / 256 else 0
/-- Max(CTR, FLOOR.SEQ) of a tile for a task. -/
def State.seqBase (s : State) (tile : Nat) (t : Task) : Nat := Nat.max (Sparse.getD (s.lodge tile).ctr t.run 0) t.floorSeq
/-- The next tile that can still assign a tiebreaker, in increasing id with wrapping (R96). That a tile which R90 or R178 keeps the task
from is passed over, and that the run is killed where no other is left, is the model's choice (log entry 12). -/
def State.nextAssigner (s : State) (tile : Nat) (t : Task) : Option Nat :=
  ((List.range 255).map fun i => (tile + 1 + i) % 256).find? fun u => decide (s.seqBase u t < 0xFFFFFF) && s.mayHold t.launch u
/-- Take a task out of a queue. -/
def State.unqueue (s : State) (tile : Nat) (t : Task) : State :=
  let l := s.lodge tile
  s.setLodge tile { l with queue := l.queue.erase t }
/-- Pass a task on with its hint overridden, or end the run where no tile can assign (R96). That the task then holds hint
mode TILE and the number of the tile it goes to, by which R110 and R111 take it from now on, is the model's choice (log entry 12). -/
def State.passOn (s : State) (tile : Nat) (t : Task) : State :=
  match s.nextAssigner tile t with
  | none => s.orderKill t.run
  | some u =>
    let s := (s.unqueue tile t).repoint t.parent tile u
    (s.sendTask (some tile) u none { t with hmode := .tile, hint := BitVec.ofNat 64 u }).2
/-- Assign a tiebreaker (R95): in replay the recorded one, and a record of another TS ends the replay (R288). -/
def State.assignTb (s : State) (tile : Nat) (t : Task) : BitVec 32 × State :=
  let seq := s.seqBase tile t + 1
  let own := BitVec.ofNat 32 (seq * 256 + tile)
  let x := s.itinTake t.run 3 tile []
  let r : BitVec 32 × State := match x.1 with
    | some n => if x.2.itinWord n 1 = t.ts then ((x.2.itinWord n 2).setWidth 32, x.2) else (own, x.2.itinDiverge)
    | none => (own, s)
  let l := r.2.lodge tile
  let top := Sparse.getD l.maxTs t.run 0
  let s := r.2.setLodge tile { l with ctr := Sparse.set l.ctr t.run (r.1.toNat / 256),
                                      maxTs := Sparse.set l.maxTs t.run (if top.toNat < t.ts.toNat then t.ts else top) }
  (r.1, s.itin t.run 3 tile t.ts (r.1.setWidth 64) (BitVec.ofNat 64 (t.parent.getD 0)))

-- Starting a thread (R97, R131, R189).

/-- SrSeed (R189). -/
def Task.seed (t : Task) : BitVec 32 :=
  let g := (t.ident.gidx.x + (t.ident.gidx.y <<< 10) + (t.ident.gidx.z <<< 20)).setWidth 32
  let v := t.ts.setWidth 32 ^^^ (t.ts >>> 32).setWidth 32 ^^^ t.tb ^^^ g
  if v = 0 then 1 else v
/-- An unbound stream descriptor. -/
def Stream.none : Stream :=
  { base := 0, bound := [0, 0, 0, 0], stride := [0, 0, 0, 0], esz := 0, dir := false, ch := 0, pos := 0, bnd := false, addr := 0 }
/-- A thread slot with nothing in it (R97) (log entry 4). -/
def Thread.fresh (pc : BitVec 56) : Thread :=
  { task := none, g := Vector.replicate 16 0, w := Vector.replicate 32 0, m := Vector.replicate 8 0,
    p := Vector.replicate 8 false, pc := pc, streams := List.replicate 4 Stream.none,
    rep := { act := false, next := 0, lenm := 0, left := 0, start := 0 }, fmt := List.replicate 8 0, sr := 1,
    mq := [0, 0, 0, 0], sbase := 0, pend := 0, park := .run, outs := [], block := none, kept := [], entry := none,
    nolog := false, seq := 0, lastIssue := 0, ending := false, fences := [], remote := [] }
/-- The thread of a new task (R97, R113). -/
def Task.start (t : Task) (sr : BitVec 32) (entry : Option Nat) (now : Nat) : Thread :=
  let th := { Thread.fresh t.func with task := some t, sr := sr, entry := entry, lastIssue := now }
  (List.range 16).foldl (fun th i => if i < t.nargs then th.setG (BitVec.ofNat 4 i) (t.args.getD i 0) else th) th
/-- Take entry n for a task (R131). -/
def State.takeEntry (s : State) (tile n th : Nat) (t : Task) : State :=
  let l := s.lodge tile
  let inc := (Sparse.getD l.incarnations n 0 + 1) % 2 ^ 18
  let e : CqEntry := { task := t, th := some th, finished := false, marked := false, incarnation := inc, write := sigEmpty,
                       full := sigEmpty, reduced := sigEmpty, tag := .full, lines := [], linesOvf := false, log := [],
                       children := [], depart := none, ovf := false, seq := s.nextStore, aborting := false, creatorAborted := false }
  { s.setLodge tile { l with cq := Sparse.set l.cq n e, incarnations := Sparse.set l.incarnations n inc } with
    nextStore := s.nextStore + 1 }
/-- Start a task in a slot; its seed goes into the Itinerary, or in replay comes from the record of its key (R286, R288). -/
def State.startTask (s : State) (tile th : Nat) (entry : Option Nat) (t : Task) : State :=
  let t := { t with id := s.nextStore + 1, readyUs := 0 }
  let s : State := { s with nextStore := s.nextStore + 1 }
  let x := s.itinTake t.run 6 tile [(1, 64, t.ts.toNat), (2, 32, t.tb.toNat)]
  let sr := match x.1 with | some n => (x.2.itinWord n 3).setWidth 32 | none => t.seed
  let s := x.2.itin t.run 6 tile t.ts (t.tb.setWidth 64) (sr.setWidth 64)
  let s := match entry with | some n => s.takeEntry tile n th t | none => s
  let l := s.lodge tile
  (s.setLodge tile { l with lastRun := t.run }).setThread th (t.start sr entry s.cycle)

/-- A chosen task is dispatched: an entry, a tiebreaker, a slot. -/
def State.launchTask (s : State) (tile th : Nat) (t : Task) : State :=
  if !t.spec then (s.unqueue tile t).startTask tile th none t
  else
    let p : Option Nat × State := match s.entryFor tile t with
      | .free n => (some n, s)
      | .evict n => (some n, s.abort ⟨true, false, 0x05⟩ tile n)
      | .stall => (none, s)
    match p.1 with
    | none => p.2
    | some n =>
      let s := p.2
      if !t.hasTb && decide (0xFFFFFF ≤ s.seqBase tile t) then s.passOn tile t
      else
        let s := s.unqueue tile t
        let b := if t.hasTb then (t.tb, s) else s.assignTb tile t
        b.2.startTask tile th (some n) { t with tb := b.1, hasTb := true }

/-- A resuming speculative thread of the tile has no commit-queue entry yet: it takes one before any dispatch (R180). -/
def State.awaitsEntry (s : State) (tile : Nat) : Bool :=
  s.runs.any fun r => r.2.returning.any fun x => x.2.spec && tileOf x.1 == tile &&
    !((s.lodge tile).cq.any fun e => e.2.th == some x.1 && e.2.task.run == r.1)

/-- TASK_DISPATCH: one task of the tile (R123). -/
def State.dispatch (s : State) (tile : Nat) : State :=
  if s.fatal || s.fenced tile || s.halted tile || s.awaitsEntry tile then s
  else match s.freeSlot tile with
    | none => s
    | some th =>
      let c := s.choices tile
      match s.chooseRun tile c with
      | none => s
      | some r => match leastTask (c.filter fun t => t.run == r) with
        | none => s
        | some t => s.launchTask tile th t

-- Grids (R86, R400).

/-- A share after its next task has entered (log entry 20). -/
def GridRec.advance (g : GridRec) : Option GridRec := if g.next + 1 < g.stop then some { g with next := g.next + 1 } else none
/-- The next task of one share of a list has entered. -/
def advanceShare (g : GridRec) : List GridRec → List GridRec
  | [] => []
  | x :: r => if x = g then (GridRec.advance g).toList ++ r else x :: advanceShare g r
/-- A share's task enters a tile, or where that tile may no longer hold it the nearest that may (R90, R178). -/
def State.enterShare (s : State) (g : GridRec) (tile : Nat) : State :=
  if s.mayHold g.launch tile then s.enqueue tile g.task
  else match s.settleTile g.launch tile with
    | some u => ((s.repoint g.parent tile u).sendTask (if g.launchUnit then none else some tile) u none g.task).2
    | none => s.enqueue tile g.task
/-- The cycle of a latch, before the latch: the only time at which the launch unit enters tasks (R147). -/
def State.entryCycle (s : State) : Bool := s.cycle % 128 == 0 && s.latchCycle != some s.cycle
/-- A share of a resident run enters its tasks; those of a saved run come back with it (R80, R179). -/
def State.enters (s : State) (g : GridRec) : Bool := (s.run g.run).phase == .resident && decide (g.run < 16)
/-- GRID_ENTER: the next task of the Lodge's first grid record, else, on a latch cycle, of the launch unit's first share for the tile,
once the queue has room (R147) (log entry 20). -/
def State.gridEnter (s : State) (tile : Nat) : State :=
  if s.fatal || !s.queueRoom tile then s
  else
    let l := s.lodge tile
    match l.grids.find? s.enters with
    | some g => (s.setLodge tile { l with grids := advanceShare g l.grids }).enterShare g tile
    | none => match s.grids.find? fun g => g.tile == tile && s.enters g with
      | none => s
      | some g => if !s.entryCycle then s else ({ s with grids := advanceShare g s.grids } : State).enterShare g tile

-- Milestones (R103, R147 to R151).

/-- The key at which a launch that has not entered its tasks counts (R102, R147). -/
def State.launchKey (s : State) (l : Launch) : Key :=
  let ts := l.words.getD 3 0
  let spec := (l.words.getD 0 0).getLsbD 35
  let floor := (s.run l.run).floor
  if spec then (if floor.ts == ts then ⟨ts, floor.tb + 1⟩ else ⟨ts, 1⟩) else ⟨ts, 0⟩
/-- The least key counted for a run (R103, R147): queued, running, spilled, sent and not yet entered tasks. A fenced tile
reports nothing (R178). -/
def State.counted (s : State) (run : Nat) : Key :=
  let k := s.lodges.foldl (fun a l =>
    if s.fenced l.1 then a
    else
      let a := (l.2.queue.filter fun t => t.run == run).foldl (fun a t => a.min t.counted) a
      let a := match Sparse.get? l.2.spmin run with | some x => a.min x | none => a
      (l.2.grids.filter fun g => g.run == run).foldl (fun a g => a.min ⟨g.ts, 0⟩) a) Key.allOnes
  let k := (s.runThreads run).foldl (fun a e => if s.fenced (tileOf e.1) then a else a.min e.2.key) k
  let k := (s.sent.filter fun x => x.task.run == run).foldl (fun a x => a.min x.task.counted) k
  let k := (s.grids.filter fun g => g.run == run).foldl (fun a g => a.min ⟨g.ts, 0⟩) k
  let k := (s.run run).returning.foldl (fun a x => a.min x.2.key) k
  (s.launches.filter fun l => l.run == run && !l.entered && bitsOf (l.words.getD 0 0).toNat 32 2 != 0).foldl
    (fun a l => a.min (s.launchKey l)) k

/-- The least key of a run at a latch: a speculative task that finishes in the latch cycle is not marked, so it is counted still (R103,
R148) (log entry 19). -/
def State.latchKey (s : State) (run : Nat) : Key :=
  s.lodges.foldl (fun a l =>
    if s.fenced l.1 then a
    else (l.2.cq.filter fun e => e.2.task.run == run && e.2.finished && decide (s.cycle ≤ e.2.doneAt)).foldl (fun a e => a.min e.2.task.key) a)
    (s.counted run)
/-- MILESTONE_LATCH (R148): each lane's least key, and the mark on the tasks that have finished before this cycle (log entry 19). -/
def State.milestoneLatch (s : State) : State :=
  if s.fatal then s else
  let runs := s.runs.mapVals fun n r => if r.phase = .free then r else { r with latched := s.latchKey n }
  let see (t : Task) : Task := if t.unseen = 2 then { t with unseen := 1 } else t
  let lodges := s.lodges.mapVals fun _ l =>
    { l with cq := l.cq.mapVals fun _ e => if e.finished && decide (e.doneAt < s.cycle) then { e with marked := true } else e, queue := l.queue.map see }
  { s with runs := runs, lodges := lodges, latchCycle := some s.cycle, rounded := false,
           sent := s.sent.map fun x => { x with task := see x.task } }

/-- WSH (R286): the exclusive-or of the 64 32-bit words of a write filter. -/
def writeHash (f : List (BitVec 512)) : BitVec 32 :=
  f.foldl (fun (a : BitVec 32) (b : BitVec 512) =>
    (List.range 16).foldl (fun a i => a ^^^ (b >>> (32 * i)).setWidth 32) a) 0

/-- The Itinerary's part of a commit (R286, R288). -/
def State.itinCommit (s : State) (tile : Nat) (e : CqEntry) : State :=
  let w2 := e.task.tb.setWidth 64 ||| ((writeHash e.write).setWidth 64 <<< 32)
  if s.replaying e.task.run then
    let x := s.itinTake e.task.run 7 tile []
    match x.1 with
    | some n => if x.2.itinWord n 1 = e.task.ts ∧ x.2.itinWord n 2 = w2 then x.2 else x.2.itinDiverge
    | none => x.2.itinDiverge
  else if s.recording e.task.run then
    let s := s.itinAppend 7 tile e.task.ts w2 (s.round.setWidth 64)
    { s with dbg := { s.dbg with csn := s.dbg.csn + 1 } }
  else s

/-- A commit (R149): the entry frees with its filters, log and child records, PARENT is cleared in the children still
queued on the tile, and the commit floor key rises. -/
def State.commit (s : State) (tile n : Nat) : State :=
  match Sparse.get? (s.lodge tile).cq n with
  | none => s
  | some e =>
    let s := s.itinCommit tile e
    let id := e.id tile n
    let l := s.lodge tile
    let s := s.setLodge tile { l with
      cq := Sparse.erase l.cq n,
      queue := l.queue.map fun t => if t.parent = some id then { t with parent := none } else t }
    let r := s.run e.task.run
    s.setRun e.task.run { r with floor := if r.floor.lt e.task.key then e.task.key else r.floor }

/-- The finished tasks of a run that a broadcast commits, in key order (R104, R286): those below its milestone, and, where it keeps
its tasks with earliest standing from running on (R179), those. -/
def State.commits (s : State) (run : Nat) (m : Key) (standing : Bool := false) : List (Key × Nat × Nat) :=
  let all := s.lodges.flatMap fun l => (l.2.cq.filter fun e =>
    e.2.task.run == run && e.2.finished && e.2.marked && (e.2.task.key.lt m || (standing && s.entryEarliest e.2))).map
      fun e => (e.2.task.key, l.1, e.1)
  all.foldl (fun l x => (l.takeWhile fun y => y.1.lt x.1) ++ [x] ++ (l.dropWhile fun y => y.1.lt x.1)) []

/-- Finished assured tasks that a milestone passes count as committed (R104). -/
def Run.passEnded (r : Run) (m : Key) : Run :=
  let gone := r.ended.filter fun ts => Key.lt ⟨ts, 0⟩ m
  { r with ended := r.ended.filter fun ts => !Key.lt ⟨ts, 0⟩ m,
           floor := gone.foldl (fun (f : Key) ts => if f.lt ⟨ts, 0⟩ then ⟨ts, 0⟩ else f) r.floor }

/-- A tile clears its tiebreaker counter of a run once the milestone passes every TS it assigned for (R96). -/
def State.clearCounters (s : State) (run : Nat) (m : Key) : State :=
  { s with lodges := s.lodges.mapVals fun _ l =>
      if (Sparse.getD l.maxTs run 0).toNat < m.ts.toNat then
        { l with ctr := Sparse.erase l.ctr run, maxTs := Sparse.erase l.maxTs run }
      else l }

/-- The thread waits for the milestone, holding its equal-hint set (R110). -/
def Park.waitsMilestone : Park → Bool
  | .earliest | .held _ => true
  | _ => false

/-- R110: a holder of an equal-hint set that waits for the milestone, while a queued task of the set is at it, aborts. -/
def State.abortHolders (s : State) (run : Nat) (m : Key) : State :=
  let holders := s.threads.flatMap fun x => match x.2.task, x.2.entry with
    | some k, some n =>
      if k.run == run && s.provisional x.2 && x.2.park.waitsMilestone &&
          (s.lodge (tileOf x.1)).queue.any fun u => equalHints u k && u.counted == m then [(tileOf x.1, n)] else []
    | _, _ => []
  holders.foldl (fun s h => s.abort ⟨true, false, 0x05⟩ h.1 h.2) s

/-- Parked threads whose key is the milestone resume; one that holds a trap raises its record (R116, R151). -/
def State.resumeEarliest (s : State) (run : Nat) : State :=
  (s.runThreads run).foldl (fun s x =>
    match s.thread? x.1 with
    | none => s
    | some t =>
      if !s.isEarliest t then s
      else match t.park with
        | .earliest => s.setThread x.1 { t with park := .run }
        | .held tr => (s.setThread x.1 { t with park := .run }).trap x.1 tr
        | _ => s) s

/-- A task whose key is the milestone of its run takes earliest standing, which it keeps until it commits (R105, R106). -/
def Task.stand (run : Nat) (m : Key) (t : Task) : Task :=
  if t.run = run ∧ t.spec ∧ t.hasTb ∧ t.key = m then { t with standing := true } else t
/-- So does the task of a spilled record. -/
def SpillNote.stand (m : Key) (n : SpillNote) : SpillNote := if n.key = some m then { n with standing := true } else n
/-- Tasks of a run whose key is the milestone take earliest standing, wherever they are. -/
def State.giveStanding (s : State) (run : Nat) (m : Key) : State :=
  let f (t : Task) : Task := t.stand run m
  { s with
    lodges := s.lodges.mapVals fun _ l =>
      { l with cq := l.cq.mapVals fun _ e => { e with task := f e.task }, queue := l.queue.map f,
               blocks := l.blocks.mapVals fun r bs => if r != run then bs else
                 bs.map fun b => { b with notes := b.notes.map (SpillNote.stand m) } },
    threads := s.threads.mapVals fun _ t => { t with task := t.task.map f },
    sent := s.sent.map fun x => { x with task := f x.task },
    runs := s.runs.mapVals fun _ r => { r with returning := r.returning.map fun x => (x.1, f x.2) } }

/-- One lane of a broadcast. -/
def State.broadcastRun (s : State) (run : Nat) : State :=
  let m := (s.run run).latched
  let s := (s.commits run m).foldl (fun s x => s.commit x.2.1 x.2.2) s
  let s := s.giveStanding run (s.run run).milestone
  let r := (s.run run).passEnded m
  let s := (s.setRun run { r with milestone := m }).giveStanding run m
  let s := (s.clearCounters run m).abortHolders run m
  s.resumeEarliest run

/-- The broadcast for a run that is being pre-empted: its finished tasks with earliest standing commit, and its milestone
stays (R121, R179). -/
def State.broadcastPreempted (s : State) (run : Nat) : State :=
  (s.commits run (s.run run).latched true).foldl (fun s x => s.commit x.2.1 x.2.2) s

/-- The package root has the round's least keys, 40 cycles after the latch: ROUND rises (R148). -/
def State.countRound (s : State) : State :=
  if s.latchCycle.isSome && !s.rounded then { s with round := s.round + 1, rounded := true } else s

/-- A run takes a broadcast: it is resident, and no longer coming back. -/
def State.takesRound (s : State) (run : Nat) : Bool := (s.run run).phase == .resident && !(s.run run).resuming
/-- MILESTONE_BROADCAST (R148, R149): the latched keys take effect in every lane; a run that is being
pre-empted or is saved keeps its milestone (R121), and its tasks from the launch unit wait for a later round (R103) (log entry 19). -/
def State.milestoneBroadcast (s : State) : State :=
  match (if s.fatal then none else s.latchCycle) with
  | none => s
  | some _ =>
    let s := s.countRound
    let seen (t : Task) : Task := if t.unseen = 1 then { t with unseen := if s.takesRound t.run then 0 else 2 } else t
    let s : State := { s with
      latchCycle := none, rounded := false,
      lodges := s.lodges.mapVals fun _ l => { l with queue := l.queue.map seen },
      sent := s.sent.map fun x => { x with task := seen x.task } }
    s.runs.foldl (fun s r => match r.2.phase with
      | .resident => if r.2.resuming then s else s.broadcastRun r.1
      | .preempting => s.broadcastPreempted r.1
      | _ => s) s

-- Load levelling (R111, R152).

/-- A queued task that the leveller may move: hint NONE, never dispatched, no uncommitted speculative creator (log entry 59).
-/
def State.movable (s : State) (t : Task) : Bool :=
  t.hmode == .none && !(t.spec && t.hasTb) && !s.provisionalChild t
/-- E of a tile (log entry 59). -/
def State.surplus (s : State) (tile : Nat) : Nat := ((s.lodge tile).queue.filter s.movable).length
/-- Mesh neighbours of a tile on its C-die, rising. -/
def neighbours (tile : Nat) : List Nat :=
  let x := tile % 8
  let y := tile / 8 % 8
  (if 0 < y then [tile - 8] else []) ++ (if 0 < x then [tile - 1] else []) ++ (if x < 7 then [tile + 1] else []) ++
    (if y < 7 then [tile + 8] else [])
/-- Insert a task so that the latest counted keys come first. -/
def latestFirst (l : List Task) : List Task :=
  l.foldl (fun l t => (l.takeWhile fun u => !u.counted.lt t.counted) ++ [t] ++ (l.dropWhile fun u => !u.counted.lt t.counted)) []
/-- LOAD_BALANCE: every tile compares the counts latched before any move; no task moves to a tile that may not hold it (R90, R178) (log
entry 59). -/
def State.loadBalance (s : State) : State :=
  let cfg := s.reg 0x200
  if !bitOf cfg 40 then s
  else
    (List.range 256).foldl (fun (a : State) tile =>
      let e := s.surplus tile
      let best := (neighbours tile).foldl (fun b t => match b with
        | none => some t
        | some u => if s.surplus t < s.surplus u then some t else some u) none
      match best with
      | none => a
      | some u =>
        let d := e - s.surplus u
        if e ≤ s.surplus u ∨ d < bitsOf cfg 32 8 then a
        else ((latestFirst ((s.lodge tile).queue.filter fun t => s.movable t && s.mayHold t.launch u)).take (Nat.min 32 (d / 2))).foldl (fun (a : State) t =>
          ((a.unqueue tile t).sendTask (some tile) u none t).2) a) s

-- The steps of conflict detection.

/-- STORE_PROBE: a Lodge aborts its later entries that conflict, latest first (R138, R140). -/
def State.storeProbe (s : State) (tile run line : Nat) (cv : BitVec 5) (key : Key) (specid : Option Nat) : State :=
  let v := (s.lodge tile).cq.filter fun e => e.2.task.run == run && !s.entryEarliest e.2 &&
    (s.standingId specid || key.lt e.2.task.key) && some (e.2.id tile e.1) != specid && e.2.conflicts line cv
  let v := v.foldl (fun l x => (l.takeWhile fun y => x.2.task.key.lt y.2.task.key) ++ [x] ++
    (l.dropWhile fun y => x.2.task.key.lt y.2.task.key)) []
  v.foldl (fun s e => s.abort ⟨true, false, 0x03⟩ tile e.1) (s.countFalseAt tile line run)
/-- LOAD_PROBE: a Lodge aborts its later writers of the line (R139). -/
def State.loadProbeAt (s : State) (tile run line : Nat) (key : Key) (specid : Option Nat) : State :=
  let v := (s.lodge tile).cq.filter fun e => e.2.task.run == run && !s.entryEarliest e.2 &&
    (s.standingId specid || key.lt e.2.task.key) && some (e.2.id tile e.1) != specid && sigMatch e.2.write line
  let v := v.foldl (fun l x => (l.takeWhile fun y => x.2.task.key.lt y.2.task.key) ++ [x] ++
    (l.dropWhile fun y => x.2.task.key.lt y.2.task.key)) []
  v.foldl (fun s e => s.abort ⟨true, false, 0x04⟩ tile e.1) (s.countFalseAt tile line run)
/-- OTHER_RUN_REPROBE: the home repeats its probes with no effect on tasks (R141). -/
def State.repeatProbe (s : State) (line : Nat) : State :=
  (match s.markRun line with | some run => s.countFalse line run false | none => s).reprobe line
/-- PROBE_ANSWER: on no-match the home clears the tile's marks (R141). -/
def State.probeAnswer (s : State) (tile line : Nat) : State :=
  match s.markRun line with
  | none => s
  | some run => if s.tileMatches tile run line then s else s.unmark tile line
/-- RESTORE_AT_HOME: the next restore of a tile's first aborting entry (R140, R146). -/
def State.restoreNext (s : State) (tile : Nat) : State :=
  match (s.lodge tile).cq.find? fun e => e.2.aborting && !e.2.log.isEmpty with
  | none => s
  | some (n, e) => match e.log.getLast? with
    | none => s
    | some x => State.restoreOne abortRec tile n e x (s.setEntry tile n { e with log := e.log.dropLast })

/-- TASK_DISPATCH (R123). -/
def execTaskDispatch (tile : Nat) (s : State) : Out := .next (s.dispatch tile)
/-- GRID_ENTER (R86, R400). -/
def execGridEnter (tile : Nat) (s : State) : Out := .next (s.gridEnter tile)
/-- SPEC_MARK_REQUEST: the home marks the tile before a speculative load completes (R135). -/
def execSpecMarkRequest (tile run line : Nat) (s : State) : Out := .next (s.markSpec tile run line false)
/-- STORE_AT_HOME: an in-flight store that its order and its home let through is performed (R137). -/
def execStoreAtHome (n : Nat) (s : State) : Out :=
  match s.stores.find? fun x => x.id == n with
  | none => .next s
  | some x => let r := s.storeReady x; .next (if r.1 then r.2.performStore x else r.2)
/-- The storer or loader that a probe names by its speculation id: an assured or outside one where its key's TB is 0, which no
dispatched speculative task has (R95, R137). -/
def probeId (tb : BitVec 32) (specid : Nat) : Option Nat := if tb = 0 then none else some specid
/-- STORE_PROBE (R138). -/
def execStoreProbe (tile run line : Nat) (cv : BitVec 5) (ts : BitVec 64) (tb : BitVec 32) (specid : Nat) (s : State) : Out :=
  .next (s.storeProbe tile run line cv ⟨ts, tb⟩ (probeId tb specid))
/-- LOAD_PROBE (R139). -/
def execLoadProbe (tile run line : Nat) (ts : BitVec 64) (tb : BitVec 32) (specid : Nat) (s : State) : Out :=
  .next (s.loadProbeAt tile run line ⟨ts, tb⟩ (probeId tb specid))
/-- RESTORE_AT_HOME (R140). -/
def execRestoreAtHome (tile : Nat) (s : State) : Out := .next (s.restoreNext tile)
/-- PROBE_ANSWER (R141). -/
def execProbeAnswer (tile line : Nat) (s : State) : Out := .next (s.probeAnswer tile line)
/-- MILESTONE_LATCH (R148). -/
def execMilestoneLatch (s : State) : Out := .next s.milestoneLatch
/-- MILESTONE_BROADCAST (R149). -/
def execMilestoneBroadcast (s : State) : Out := .next s.milestoneBroadcast
/-- OTHER_RUN_REPROBE (R141). -/
def execOtherRunReprobe (line : Nat) (s : State) : Out := .next (s.repeatProbe line)
/-- LOAD_BALANCE (R152). -/
def execLoadBalance (s : State) : Out := .next s.loadBalance

end Sys2Proof.Machine
end

