-- ==== Sys2Proof/Machine/Spill.lean ====
section
/-! DEFINITION. Spilling, refilling and discarding queued tasks (R126 to R130), and the memory accesses that the device
makes through a run's translation for areas of the run: spill areas, save areas, completion counters (R144, R181). -/
namespace Sys2Proof.Machine
open Sys2Proof

-- Areas of a run.

/-- The agent that reads and writes a run's areas from a tile. -/
def areaWho (tile : Nat) (run : Nat) : Who :=
  { agent := .lodge tile, tile := tile, core := none, run := some run, issuer := tile * 8, remote := [] }

/-- Do something to each of a list, stopping at the first that stops. -/
def eachOf {α : Type} (f : State → α → Except Stop State) : List α → State → Except Stop State
  | [], s => .ok s
  | x :: r, s => match f s x with
    | .error e => .error e
    | .ok s => eachOf f r s

/-- Words at rising addresses as one run of words for each line they lie in. -/
def lineRuns (va : Nat) (ws : List (BitVec 64)) : List (Nat × List (BitVec 64)) :=
  let h := (128 - va % 128) / 8
  let rest := ws.drop h
  ((va, ws.take h) :: (List.range ((rest.length + 15) / 16)).map fun k =>
    (va + 8 * h + 128 * k, (rest.drop (16 * k)).take 16)).filter fun x => !x.2.isEmpty
/-- Write words that lie in one line through a run's translation, untracked (R144). -/
def State.areaLine (tile run : Nat) (s : State) (x : Nat × List (BitVec 64)) : Except Stop State :=
  let who := areaWho tile run
  match s.locate who .write x.1 (8 * x.2.length) with
  | .error e => .error e
  | .ok l =>
    let y := s.partReady (some run) true l.part
    if !y.1 then .error (.wait (some (l.part.pa / 128, true)))
    else .ok ((y.2.useWalk who true l).plainStore (.lodge tile) tile l.part (packElems 64 (x.2.map BitVec.toNat)))
/-- Write words at rising addresses, line by line. -/
def State.areaWrite (s : State) (tile run va : Nat) (ws : List (BitVec 64)) : Except Stop State :=
  eachOf (State.areaLine tile run) (lineRuns va ws) s
/-- Read n words at rising addresses through a run's translation, untracked, at their homes. -/
def State.areaRead (s : State) (tile run : Nat) : Nat → Nat → Except Stop (List (BitVec 64) × State)
  | 0, _ => .ok ([], s)
  | n + 1, va =>
    let who := areaWho tile run
    match s.locate who .read va 8 with
    | .error e => .error e
    | .ok l =>
      let p := l.part
      let x := s.partReady (some run) false p
      if !x.1 then .error (.wait (some (p.pa / 128, false)))
      else if s.homePoisoned who p then .error (.trap (poisonAt .read p))
      else
        let s := x.2.useWalk who false l
        let v : Nat × State := match p.place with
          | .stash t => (s.stashNat t p.pa 8, s)
          | _ => let s := ((s.recallStash (p.pa / 128) none).rekey (p.pa / 128) p.key).homeRead (p.pa / 128) false
                 (s.physNat p.pa 8 p.key, s)
        match v.2.areaRead tile run n (va + 8) with
        | .error e => .error e
        | .ok (ws, s) => .ok (BitVec.ofNat 64 v.1 :: ws, s)

-- Spilled records (R127).

/-- HMODE codes (R107). -/
def hmodeNum : HMode → Nat
  | .none => 0 | .hash => 1 | .addr => 2 | .tile => 3
/-- The mode of a code. -/
def hmodeOf : Nat → HMode
  | 1 => .hash | 2 => .addr | 3 => .tile | _ => .none
/-- The six 32-bit pairs of the identity fields, as words. -/
def identWords (i : Ident) : List (BitVec 64) :=
  let v : List (BitVec 64) := [i.org, i.ext, i.gidx, i.gdim].flatMap fun c => [c.x, c.y, c.z]
  (List.range 6).map fun k =>
    BitVec.ofNat 64 (2 ^ 32 * ((v.getD (2 * k + 1) 0).toNat % 2 ^ 32) + (v.getD (2 * k) 0).toNat % 2 ^ 32)
/-- Identity fields from their words. -/
def identOfWords (w : List (BitVec 64)) : Ident :=
  let f (k : Nat) : BitVec 64 := BitVec.ofNat 64 (bitsOf (w.getD (k / 2) 0).toNat (32 * (k % 2)) 32)
  { org := ⟨f 0, f 1, f 2⟩, ext := ⟨f 3, f 4, f 5⟩, gidx := ⟨f 6, f 7, f 8⟩, gdim := ⟨f 9, f 10, f 11⟩ }

/-- The 32 words of a task's record. -/
def Task.record (t : Task) : List (BitVec 64) :=
  [ BitVec.ofNat 64 (2 ^ 61 * (hmodeNum t.hmode) + 2 ^ 58 * (t.aborts % 8) + 2 ^ 57 * t.mw.toNat + 2 ^ 56 * t.spec.toNat + t.func.toNat),
    t.ts,
    BitVec.ofNat 64 (2 ^ 63 * ((t.spec && t.hasTb).toNat) + 2 ^ 32 * t.nargs + t.tb.toNat),
    t.floor.ts,
    BitVec.ofNat 64 (2 ^ 32 * (t.parent.getD 0) + t.floor.tb.toNat),
    t.hint, 0, 0 ] ++
  ((List.range 16).map fun i => t.args.getD i 0) ++ identWords t.ident ++ [0, 0]
/-- A task as its record gives it, with what the device kept beside it. -/
def taskOfRecord (w : List (BitVec 64)) (run : Nat) (n : SpillNote) : Task :=
  let a := (w.getD 0 0).toNat
  let c := (w.getD 2 0).toNat
  let p := (w.getD 4 0).toNat
  let spec := bitOf a 56
  { func := BitVec.ofNat 56 a, ts := w.getD 1 0, tb := if spec then BitVec.ofNat 32 c else 0,
    hasTb := !spec || bitOf c 63, floor := ⟨w.getD 3 0, BitVec.ofNat 32 p⟩, spec := spec, hmode := hmodeOf (bitsOf a 61 2),
    hint := w.getD 5 0, nargs := Nat.min 16 (bitsOf c 32 5), args := (w.drop 8).take 16, run := run,
    aborts := bitsOf a 58 3, mw := bitOf a 57,
    parent := if bitsOf p 32 32 = 0 && !n.ofZero then none else some (bitsOf p 32 32),
    ident := identOfWords (w.drop 24), launch := n.launch, hintLine := n.hintLine, unseen := n.unseen,
    standing := n.standing && n.key == some ⟨w.getD 1 0, BitVec.ofNat 32 c⟩ }
/-- DISC of a record. -/
def recordDisc (w : List (BitVec 64)) : Bool := (w.getD 0 0).getLsbD 63

/-- The least counted key of a list of tasks. -/
def leastKey (l : List Task) : Key := l.foldl (fun a t => a.min t.counted) Key.allOnes
/-- The two words of a block header. -/
def headerWords (k : Key) (live : Nat) : List (BitVec 64) :=
  [k.ts, BitVec.ofNat 64 (2 ^ 63 + 2 ^ 32 * (live % 64) + k.tb.toNat)]

/-- VA of a tile's spill area of a run. -/
def State.spillBase (s : State) (tile run : Nat) : Nat :=
  let c := (s.run run).cfg
  c.spill + tile * 2 ^ c.splog
/-- Blocks a spill area may hold (R127). -/
def State.spillBlocks (s : State) (run : Nat) : Nat :=
  Nat.min 512 (2 ^ (s.run run).cfg.splog / 2 ^ 13 - 1)
/-- VA of a block. -/
def blockVa (base b : Nat) : Nat := base + 2 ^ 13 * (b + 1)

/-- The spilled blocks of a run on a tile. -/
def Lodge.blocksOf (l : Lodge) (run : Nat) : List SpillBlock := Sparse.getD l.blocks run []
/-- Change them. -/
def Lodge.setBlocks (l : Lodge) (run : Nat) (b : List SpillBlock) : Lodge :=
  { l with blocks := if b.isEmpty then Sparse.erase l.blocks run else Sparse.set l.blocks run b }

/-- A fault of a Lodge's spill traffic: its record is raised, and the Lodge waits for the reply (R130, R165). -/
def State.lodgeFault (s : State) (tile run : Nat) (t : Trap) : State :=
  let l := s.lodge tile
  (s.setLodge tile { l with spillFault := true }).raise (.lodge tile) 3 (some run) tile Key.zero 0 0 t

/-- Spill traffic that can not go on: its fault is raised, unless one waits for its reply, or it waits with what its wait sends. -/
def State.lodgeStop (s : State) (tile run : Nat) (e : Stop) : State :=
  match s.stopped (some run) e with
  | (some t, s) => if (s.lodge tile).spillFault then s else s.lodgeFault tile run t
  | (none, s) => s

/-- Write one block: its 32 records at once, then its header (R126, R127). -/
def State.writeBlock (s : State) (tile run b : Nat) (ts : List Task) : Except Stop State :=
  let base := s.spillBase tile run
  match s.areaWrite tile run (blockVa base b) (ts.flatMap Task.record) with
  | .error e => .error e
  | .ok s => s.areaWrite tile run (base + 16 * b) (headerWords (leastKey ts) ts.length)

/-- Spill a list of tasks of a run into the first block the area has free; with none free, SPF and a PROT record for the byte
past the area (R130) (log entry 13). -/
def State.spillTasks (s : State) (tile run : Nat) (ts : List Task) : Except Stop State :=
  let l := s.lodge tile
  let used := (l.blocksOf run).map fun b => b.block
  match (List.range (s.spillBlocks run)).find? fun b => !used.contains b with
  | none =>
    let s := s.onReg (0x300 + tile) fun v => putField v 0 1 1
    .ok (s.lodgeFault tile run (Trap.protAt .write ((s.spillBase tile run + 2 ^ (s.run run).cfg.splog) % 2 ^ 56) 6))
  | some b =>
    match s.writeBlock tile run b ts with
    | .error e => .error e
    | .ok s =>
      let l := s.lodge tile
      let note (t : Task) : SpillNote :=
        { launch := t.launch, hintLine := t.hintLine, unseen := t.unseen, ofZero := t.parent == some 0,
          key := if t.spec && t.hasTb then some t.key else none, standing := t.standing }
      let k := leastKey ts
      let old := Sparse.get? l.spmin run
      let low := match old with | some x => k.lt x | none => true
      let l := { l with queue := ts.foldl (fun q t => q.erase t) l.queue,
                        spmin := if low then Sparse.set l.spmin run k else l.spmin,
                        spblk := if low then Sparse.set l.spblk run b else l.spblk }
      .ok ((s.setLodge tile (l.setBlocks run (l.blocksOf run ++ [{ block := b, notes := ts.map note }]))).countEvt tile 0x0B
        (some run) 1)

/-- The run with the most tasks in a queue, ties to the lower slot. -/
def mostQueued (q : List Task) : Option Nat :=
  let n (r : Nat) : Nat := (q.filter fun t => t.run == r).length
  (List.range 16).foldl (fun a r => match a with
    | none => if 0 < n r then some r else none
    | some b => if n b < n r then some r else some b) none

/-- SPILL: with more than 224 tasks queued, the 32 latest of the run that has the most (R126). -/
def State.spill (s : State) (tile : Nat) : State :=
  let l := s.lodge tile
  if s.fatal ∨ l.queue.length ≤ 224 ∨ l.spillFault then s
  else match mostQueued l.queue with
    | none => s
    | some run =>
      match s.spillTasks tile run ((latestFirst (l.queue.filter fun t => t.run == run)).take 32) with
      | .ok s => s
      | .error e => s.lodgeStop tile run e

-- Discards of spilled tasks (R129).

/-- The records of a block. -/
def State.readBlock (s : State) (tile run b : Nat) : Except Stop (List (List (BitVec 64)) × State) :=
  match s.areaRead tile run (32 * 32) (blockVa (s.spillBase tile run) b) with
  | .error e => .error e
  | .ok (w, s) => .ok ((List.range 32).map fun i => (w.drop (32 * i)).take 32, s)

/-- A record's creator is the task of a speculation id; PARENT 0 names none, unless the record's note says that its creator has id 0
(R127, R129) (log entry 13). -/
def SpillNote.childOf (n : SpillNote) (w : List (BitVec 64)) (id : Nat) : Bool :=
  bitsOf (w.getD 4 0).toNat 32 32 == id && (id != 0 || n.ofZero)
/-- Set DISC in the records of a block whose PARENT is the id, and rewrite its header. -/
def State.discardBlock (s : State) (tile run id : Nat) (b : SpillBlock) : Except Stop State :=
  match s.readBlock tile run b.block with
  | .error e => .error e
  | .ok (recs, s) =>
    let recs := recs.zip b.notes
    let hit (p : List (BitVec 64) × SpillNote) : Bool := p.2.childOf p.1 id && !recordDisc p.1
    if !recs.any hit then .ok s
    else
      let base := s.spillBase tile run
      let marked := (recs.mapIdx fun i p => (i, p)).foldl (fun (a : Except Stop State) x =>
        match a with
        | .error e => .error e
        | .ok s => if hit x.2 then
            s.areaWrite tile run (blockVa base b.block + 256 * x.1) [x.2.1.getD 0 0 ||| (1#64 <<< 63)]
          else .ok s) (.ok s)
      match marked with
      | .error e => .error e
      | .ok s =>
        let live := (recs.filter fun p => !recordDisc p.1 && !hit p).map fun p => taskOfRecord p.1 run p.2
        s.areaWrite tile run (base + 16 * b.block) (headerWords (leastKey live) live.length)

/-- Carry out one discard over every block of the run. -/
def State.discardSpilled (s : State) (tile id run : Nat) : Except Stop State :=
  ((s.lodge tile).blocksOf run).foldl (fun (a : Except Stop State) b =>
    match a with
    | .error e => .error e
    | .ok s => s.discardBlock tile run id b) (.ok s)

/-- SPMIN and SPBLK from every header of the area with V set (R128). -/
def State.rescan (s : State) (tile run : Nat) : Except Stop State :=
  let base := s.spillBase tile run
  let r := (List.range (s.spillBlocks run)).foldl (fun (a : Except Stop (Option (Key × Nat) × State)) b =>
    match a with
    | .error e => .error e
    | .ok (best, s) =>
      match s.areaRead tile run 2 (base + 16 * b) with
      | .error e => .error e
      | .ok (w, s) =>
        let k : Key := ⟨w.getD 0 0, (w.getD 1 0).setWidth 32⟩
        if !(w.getD 1 0).getLsbD 63 then .ok (best, s)
        else match best with
          | none => .ok (some (k, b), s)
          | some (x, c) => .ok (if k.lt x then some (k, b) else some (x, c), s)) (.ok (none, s))
  match r with
  | .error e => .error e
  | .ok (best, s) =>
    let l := s.lodge tile
    .ok (s.setLodge tile (match best with
      | none => { l with spmin := Sparse.erase l.spmin run, spblk := Sparse.erase l.spblk run }
      | some (k, b) => { l with spmin := Sparse.set l.spmin run k, spblk := Sparse.set l.spblk run b }))

/-- DISCARD: a tile acts on a discard request (R146): queued children of the creator go, running and finished ones are
aborted without re-enqueue, spilled ones are marked (R129). A request that the tile has accepted already goes on with the marking;
the spilled tasks count until every header is rewritten. -/
def State.discard (s : State) (tile id : Nat) : State :=
  let l := s.lodge tile
  let known := l.discards.find? fun d => d.1 == id
  let run := match known with
    | some d => some d.2
    | none => match s.specEntry? id with
      | some e => some e.task.run
      | none => none
  let s := if known.isSome then s else State.discardWith abortRec tile id (run.getD 16) s
  match run with
  | none => s
  | some r =>
    if ((s.lodge tile).blocksOf r).isEmpty then
      let l := s.lodge tile
      s.setLodge tile { l with discards := l.discards.filter fun d => d.1 != id }
    else if (s.lodge tile).spillFault then s
    else match s.discardSpilled tile id r with
      | .error e => s.lodgeStop tile r e
      | .ok s =>
        match s.rescan tile r with
        | .error e => s.lodgeStop tile r e
        | .ok s =>
          let l := s.lodge tile
          s.setLodge tile { l with discards := l.discards.filter fun d => d.1 != id }

-- Refilling (R128).

/-- Refill one block: its live records join the queue, or go where their tile may hold them (R90, R178), its header is cleared, and
SPMIN follows if it was SPBLK's (log entry 13). -/
def State.refillBlock (s : State) (tile run : Nat) (b : SpillBlock) : Except Stop State :=
  match s.readBlock tile run b.block with
  | .error e => .error e
  | .ok (recs, s) =>
    match s.areaWrite tile run (s.spillBase tile run + 16 * b.block) [0, 0] with
    | .error e => .error e
    | .ok s =>
      let l := s.lodge tile
      let gone (p : List (BitVec 64) × SpillNote) : Bool :=
        recordDisc p.1 || l.discards.any fun d => d.2 == run && p.2.childOf p.1 d.1
      let ts := ((recs.zip b.notes).filter fun p => !gone p).map fun p => taskOfRecord p.1 run p.2
      let was := Sparse.get? l.spblk run == some b.block
      let l := l.setBlocks run ((l.blocksOf run).filter fun x => x.block != b.block)
      let s := (s.setLodge tile l).countEvt tile 0x0C (some run) 1
      let s := ts.foldl (fun (s : State) t =>
        if s.mayHold t.launch tile then s.enqueue tile t
        else match s.settleTile t.launch tile with
          | some u => ((s.repoint t.parent tile u).sendTask (some tile) u none t).2
          | none => s.enqueue tile t) s
      if was then s.rescan tile run else .ok s

/-- A run whose spilled tasks are wanted before those queued (R128): SPMIN is below every key queued for it, and its
speculative dispatch is stalled or it has no dispatchable task. -/
def State.wantsSpilled (s : State) (tile run : Nat) : Bool :=
  let l := s.lodge tile
  let q := l.queue.filter fun t => t.run == run
  match Sparse.get? l.spmin run with
  | none => false
  | some k => k.lt (leastKey q) &&
      (s.cqStallRun tile run || !q.any (s.dispatchable tile))

/-- A block of a run's area: one that the Lodge wrote, or else one that its header makes valid (R127), of 32 records that the device
keeps nothing beside. -/
def Lodge.blockOf (l : Lodge) (run n : Nat) : SpillBlock :=
  ((l.blocksOf run).find? fun b => b.block == n).getD
    { block := n, notes := List.replicate 32 { launch := 0, hintLine := 0, unseen := 0 } }
/-- The block of a run to refill when nothing is wanted before the others: the one spilled last, else the one SPBLK names (R128). -/
def Lodge.nextBlock (l : Lodge) (run : Nat) : Option SpillBlock :=
  match (l.blocksOf run).getLast? with
  | some b => some b
  | none => (Sparse.get? l.spblk run).map (l.blockOf run)
/-- REFILL: the block that holds the least key where it is wanted, else the block spilled last where 192 or fewer tasks are
queued (R128). Of several runs the one in the lowest slot goes first, which is the model's choice (log entry 13). -/
def State.refill (s : State) (tile : Nat) : State :=
  let l := s.lodge tile
  if s.fatal || l.spillFault then s
  else
    let runs := (List.range 16).filter fun r => s.runLive r && (l.nextBlock r).isSome
    let done (run : Nat) (x : Except Stop State) : State := match x with
      | .ok s => s
      | .error e => s.lodgeStop tile run e
    match runs.find? (s.wantsSpilled tile) with
    | some r =>
      let s := if 224 < l.queue.length then s.spill tile else s
      let l := s.lodge tile
      (match Sparse.get? l.spblk r with
       | some n => if 224 < l.queue.length then s else done r (s.refillBlock tile r (l.blockOf r n))
       | none => s)
    | none =>
      if 192 < l.queue.length then s
      else match runs with
        | [] => s
        | r :: _ => match l.nextBlock r with
          | some b => done r (s.refillBlock tile r b)
          | none => s

/-- SPILL (R126). -/
def execSpill (tile : Nat) (s : State) : Out := .next (s.spill tile)
/-- REFILL (R128). -/
def execRefill (tile : Nat) (s : State) : Out := .next (s.refill tile)
/-- DISCARD (R146). -/
def execDiscard (tile : Nat) (specid : Nat) (s : State) : Out := .next (s.discard tile specid)

end Sys2Proof.Machine
end

