-- ==== Sys2Proof/Machine/Stash.lean ====
section
/-! DEFINITION. Stash mappings, opcodes 0x74–0x76 (R200 to R203, R405 to R409). -/
namespace Sys2Proof.Machine
open Sys2Proof

/-- Run tag of a thread's mappings: 16 for a service slot, which has no run (log entry 14). -/
def Thread.mapRun (t : Thread) : Nat := match t.task with | some k => k.run | none => 16
/-- Two ranges meet. -/
def rangesMeet (a n b m : Nat) : Bool := decide (a < b + m) && decide (b < a + n)

/-- The cases of R200 and R406 in which stashmap traps with ILLOP. -/
def State.mapRefused (s : State) (tile run a b n : Nat) : Bool :=
  let maps := s.stash.maps.filter fun m => m.tile == tile
  decide (0xFD ≤ bitsOf a 48 8) || decide (2 ^ 20 ≤ b) || n == 0 || decide (256 < n) || decide (2 ^ 20 < b + 4096 * n) ||
    maps.any (fun m => rangesMeet m.soff (4096 * m.pages) b (4096 * n)) ||
    maps.any (fun m => m.run == run && rangesMeet m.vbase (4096 * m.pages) (a % 2 ^ 56) (4096 * n)) ||
    s.inRing tile b (4096 * n) || decide (64 ≤ maps.length)

/-- stashmap (R406): a speculative task parks first (R409). The mapping takes the lowest free of the tile's 64 entries, which is the
model's choice (log entry 22). -/
def execStashmap (h : Hdr) (upd : Bool) (a b : GReg) (c : Src32) (s : State) : Out :=
  memOp s h c.len ([numG a, numG b] ++ numSrc32 c) (fun _ => false) fun t =>
    let th := s.focus
    let tile := tileOf th
    let va := (t.getG a).toNat
    let off := (t.getG b).toNat
    let n := (t.src32 .none c).toNat
    if s.provisional t then s.parkAt th .earliest
    else if va % 4096 ≠ 0 ∨ off % 4096 ≠ 0 then s.trap th (.at .align .none (va % 2 ^ 56))
    else if s.mapRefused tile t.mapRun va off n then s.trap th (.plain .illop)
    else
      let used := (s.stash.maps.filter fun m => m.tile == tile).map fun m => m.idx
      let idx := ((List.range 64).find? fun i => !used.contains i).getD 0
      let m : Mapping := { tile := tile, idx := idx, run := t.mapRun, vbase := va % 2 ^ 56, pages := n, soff := off, upd := upd }
      let s : State := { s with stash := { s.stash with maps := s.stash.maps ++ [m] } }
      s.finish th c.len t

/-- A tile keeps no copy of a line any more: its record at the L2 home goes (R407). -/
def State.forgetTile (s : State) (tile line : Nat) : State :=
  let kept := s.coh.l1.any (fun l => l.core / 8 == tile && l.line == line && !l.untracked) ||
    s.stash.lines.any (fun m => m.tile == tile && m.pa == line) || s.coh.headers.any fun h => tile == 0 && h.2 == line
  if kept then s
  else match s.l2? (dieOfTile tile) line with
    | none => s
    | some e => s.setL2 (e.forget (tile % 64))

/-- Write back and invalidate the lines of a mapping for those who ask for it, and take the mapping away (R203, R396, R407). -/
def State.unmap (s : State) (m : Mapping) (asker : List Agent) (hint : BitVec 3 := 0) : State :=
  let lines := s.stash.lines.filter fun (l : MapLine) => l.tile == m.tile && decide (m.soff ≤ l.off) && decide (l.off < m.soff + 4096 * m.pages)
  let s := lines.foldl (fun (s : State) (l : MapLine) =>
    ((s.cleanMapLine m.tile l.off asker hint).dropMapLine m.tile l.off).forgetTile m.tile l.pa) s
  { s with stash := { s.stash with maps := s.stash.maps.filter fun x => !(x.tile == m.tile && x.idx == m.idx) } }

/-- An instruction that acts on mapped lines: earlier stores of the thread are in the stash first. -/
def mapOp (s : State) (h : Hdr) (len : Nat) (names : List Nat) (f : Thread → State) : Out :=
  memOp s h len names (fun _ => false) fun t =>
    if s.provisional t then s.parkAt s.focus .earliest
    else if !s.storesDone s.focus .tile then s.parkAt s.focus (.stores .tile)
    else f t

/-- stashunmap (R407). -/
def execStashunmap (h : Hdr) (addr : Addr) (s : State) : Out :=
  mapOp s h addr.len [numG addr.base] fun t =>
    let th := s.focus
    match s.stash.maps.find? fun m => m.tile == tileOf th && m.run == t.mapRun && m.vbase == t.addr addr with
    | none => s.trap th (.plain .illop)
    | some m => (s.unmap m [.thread th] h.ch).finish th addr.len t

/-- stashflush (R396, R408): gB of 0 names nothing. -/
def execStashflush (h : Hdr) (addr : Addr) (b : GReg) (s : State) : Out :=
  mapOp s h addr.len [numG addr.base, numG b] fun t =>
    let th := s.focus
    let tile := tileOf th
    let va := t.addr addr
    let n := (t.getG b).toNat
    let lines := s.stash.lines.filter fun (l : MapLine) => l.tile == tile && l.dirty &&
      s.stash.maps.any fun m => m.tile == tile && m.run == t.mapRun && decide (m.soff ≤ l.off) &&
        decide (l.off < m.soff + 4096 * m.pages) && n != 0 && rangesMeet (m.vbase + (l.off - m.soff)) 128 va n
    (lines.foldl (fun (s : State) (l : MapLine) => s.cleanMapLine tile l.off [.thread th] h.ch) s).finish th addr.len t

end Sys2Proof.Machine
end

