-- ==== Sys2Proof/Machine/Launch.lean ====
section
/-! DEFINITION. The launch unit (04): queues and their headers (R71 to R75), levels and ageing (R76 to R78), run
configuration blocks (R79), launch records (R82 to R86), completion (R87, R88), and timed queues (R90 to R93). -/
namespace Sys2Proof.Machine
open Sys2Proof

/-- The run of a launch that joined none. -/
def noRun : Nat := 2 ^ 20
/-- Cycles of a microsecond (R3) (log entry 30). -/
def cyclesPerUs : Nat := 2250

/-- The launch unit's own access to a line: its home can serve it now, or it is held through CXL.cache (R53, R74) (log entry 34). -/
def State.physReady (s : State) (pa : Nat) (write : Bool) : Bool × State :=
  let r := s.ready (pa / 128) none write
  if !r.1 || !s.isSystem pa then r else r.2.sysReady (pa / 128) write
/-- n words at rising physical addresses. -/
def State.physRead (s : State) (pa n : Nat) : List (BitVec 64) :=
  (List.range n).map fun i => BitVec.ofNat 64 (s.physNat (pa + 8 * i) 8 0)

-- Queues.

/-- SYSR number of QREGn. -/
def qreg (q : Nat) : Nat := 0x080 + q
/-- Set or clear QREGn.EN. -/
def State.setEn (s : State) (q : Nat) (en : Bool) : State := s.onReg (qreg q) fun v => putField v 63 1 en.toNat
/-- The word that holds ERR, OVR and REJ (R72). -/
def Queue.qstat (x : Queue) : Nat := x.err % 16 + 2 ^ 16 * (Nat.min 0xFFFF x.ovr) + 2 ^ 32 * (Nat.min 0xFFFFFFFF x.rej)
/-- The launch unit holds a copy of the queue's header line (R74). -/
def State.hasHeader (s : State) (q : Nat) : Bool := s.coh.headers.contains (q, (s.queue q).hdr / 128)
/-- It takes one, as a FULL sharer at the line's home and, of a line in host memory, through CXL.cache; tile 0x00 stands for it
(R74) (log entry 34). -/
def State.holdHeader (s : State) (q : Nat) : Line × State :=
  let line := (s.queue q).hdr / 128
  let r := s.readHome { agent := .launch 0, core := none, icache := false, tile := 0, line := line, key := 0, cls := .t, view := .full,
                        src := .none, sub := false, priv := false, alloc := false, hint := 0, mapped := true }
  let hs := r.2.2.coh.headers
  (r.1, { r.2.2 with coh := { r.2.2.coh with headers := if hs.contains (q, line) then hs else hs ++ [(q, line)] } })
/-- It gives its copy up. -/
def State.dropHeader (s : State) (q : Nat) : State :=
  { s with coh := { s.coh with headers := s.coh.headers.filter fun h => h.1 != q } }
/-- The launch unit's own 8-byte store to a header, after which it holds the copy it held (R72, R74). -/
def State.headerStore (s : State) (q off v : Nat) : State :=
  let held := s.hasHeader q
  let s := s.physStore ((s.queue q).hdr + off) 8 v 0
  if held then (s.holdHeader q).2 else s
/-- Write QSTAT. -/
def State.writeQstat (s : State) (q : Nat) : State := s.headerStore q 0x60 (s.queue q).qstat

/-- A failed check of a header: ERR, and EN is cleared (R73). -/
def State.queueError (s : State) (q code : Nat) : State :=
  (((s.setQueue q { s.queue q with phase := .off, err := code }).writeQstat q).setEn q false).dropHeader q

/-- The header read at an enabling (R72); its counts replace the device's own, and launches taken before no longer count
in DONE if they differ. A live timed launch keeps the tiles it was taken with (R90). -/
def State.readHeader (s : State) (q : Nat) : State :=
  let x := s.queue q
  let r := s.holdHeader q
  let f (i lo n : Nat) : Nat := bitsOf (lineNat r.1 (8 * i) 8) lo n
  let s : State := { r.2 with launches := r.2.launches.map fun l =>
    if l.queue == q && l.timed then { l with tmask := some (l.tmask.getD x.tmask) } else l }
  let taken := f 1 0 64
  let done := f 2 0 64
  let kept := taken == x.taken && done == x.done
  let s : State := if kept then s else { s with launches := s.launches.map fun l => if l.queue = q then { l with old := true } else l }
  s.setQueue q { x with
    tail := f 0 0 64, taken := taken, done := done, doneSet := (if kept then x.doneSet else []), base := done,
    ring := f 3 7 45 * 128, prio := f 4 0 6, logn := f 4 8 5, timed := f 4 16 1 == 1, window := f 4 32 32,
    frac := f 5 0 8,
    tmask := BitVec.ofNat 256 (f 8 0 64 + 2 ^ 64 * (f 9 0 64) + 2 ^ 128 * (f 10 0 64) + 2 ^ 192 * (f 11 0 64)),
    err := f 12 0 4, ovr := f 12 16 16, rej := f 12 32 32, mismatch := false, waitUs := 0 }

/-- Another enabled timed queue has a tile of this one (R73). -/
def State.sharesTile (s : State) (q : Nat) : Bool :=
  (List.range 64).any fun p =>
    let y := s.queue p
    p != q && y.timed && (y.phase == .on || y.phase == .clearing) && (y.tmask &&& (s.queue q).tmask) != 0
/-- The checks of a header, in order: the code of the first that fails (R73). That TAIL − DONE is taken modulo 2^64, so that a TAIL below
DONE has code 5, is the model's choice (log entry 27). -/
def State.headerError (s : State) (q : Nat) : Option Nat :=
  let x := s.queue q
  if x.logn < 4 ∨ 20 < x.logn then some 1
  else if x.timed != decide (56 ≤ x.prio) then some 2
  else if x.timed && (x.tmask == 0 || s.sharesTile q) then some 3
  else if !s.backed x.ring then some 4
  else if 2 ^ x.logn < (x.tail + 2 ^ 64 - x.done) % 2 ^ 64 then some 5
  else none

/-- A task belongs to a launch of a queue. -/
def State.ofQueue (s : State) (q launch : Nat) : Bool := s.timedQueue launch == some q
/-- The tiles of a mask. -/
def maskTiles (m : BitVec 256) : List Nat := (List.range 256).filter fun t => m.getLsbD t

/-- Abort the speculative tasks on a tile that do not belong to a queue and have no earliest standing (R90). -/
def State.reserveAborts (s : State) (q tile : Nat) : State :=
  ((s.lodge tile).cq.filter fun e => !s.ofQueue q e.2.task.launch && !s.entryEarliest e.2).foldl
    (fun s e => s.abort ⟨false, false, 0x07⟩ tile e.1) s
/-- Move the queued tasks of others to the nearest tile that may hold them (R90). -/
def State.reserveMoves (s : State) (q tile : Nat) : State :=
  ((s.lodge tile).queue.filter fun t => !s.ofQueue q t.launch).foldl (fun s t =>
    match s.settleTile t.launch tile with
    | none => s
    | some u =>
      let s := (s.unqueue tile t).repoint t.parent tile u
      (s.sendTask (some tile) u none t).2) s
/-- A tile still holds threads or entries of others. -/
def State.reserveBusy (s : State) (q tile : Nat) : Bool :=
  (s.tileThreads tile).any (fun e => match e.2.task with | some k => !s.ofQueue q k.launch | none => false) ||
    (s.lodge tile).cq.any fun e => !s.ofQueue q e.2.task.launch
/-- A timed queue's tiles are cleared before EN reads 1: meanwhile it reads 0 (R90) (log entry 27). -/
def State.clearTiles (s : State) (q : Nat) : State :=
  let ts := maskTiles (s.queue q).tmask
  let s := ts.foldl (fun s t => (s.reserveAborts q t).reserveMoves q t) s
  if ts.any (s.reserveBusy q) then s
  else (s.setQueue q { s.queue q with phase := .on }).setEn q true

/-- An enabling goes on: the header is read and checked, then a timed queue's tiles are cleared (R73, R90); none does on a device
stopped by a fatal error (R17, R24, R167). -/
def State.enableStep (s : State) (q : Nat) : State :=
  let x := s.queue q
  if s.fatal then s
  else match x.phase with
  | .opening =>
    let r := s.physReady x.hdr true
    if !r.1 then r.2
    else
      let s := r.2.readHeader q
      (match s.headerError q with
       | some c => s.queueError q c
       | none =>
         if (s.queue q).timed then ((s.setQueue q { s.queue q with phase := .clearing }).setEn q false).clearTiles q
         else s.setQueue q { s.queue q with phase := .on })
  | .clearing => s.clearTiles q
  | _ => s
/-- An enabling: HDR is checked first (R73). -/
def State.enable (s : State) (q : Nat) : State :=
  let h := bitsOf (s.reg (qreg q)) 7 45 * 128
  if !s.backed h then s.onReg (qreg q) fun v => putField v 62 2 1
  else
    let s := s.onReg (qreg q) fun v => putField v 62 1 0
    (s.setQueue q { s.queue q with phase := .opening, hdr := h }).enableStep q

/-- A write to QREGn (R71): HDR and EN are stored, and EN changing from 0 to 1 is an enabling. While a timed queue's EN reads 0 because its
tiles are still being cleared (R90), a write of EN = 1 stores HDR alone and is no second enabling: the model's choice, since R71 does
not name that time (log entry 27). -/
def State.qregWrite (s : State) (q : Nat) (v : Nat) : State :=
  if 64 ≤ q then s
  else
    let s := s.onReg (qreg q) fun o => putField o 7 45 (bitsOf v 7 45)
    if bitOf v 63 then (if (s.queue q).phase = .off then (s.setEn q true).enable q else s)
    else ((s.setQueue q { s.queue q with phase := .off }).setEn q false).dropHeader q

/-- The launch unit reads a header again once a store has taken its copy (R74): TAIL, and the check of code 5 (log entry 27). -/
def State.reread (s : State) (q : Nat) : State :=
  let x := s.queue q
  if x.phase ≠ .on ∨ s.hasHeader q then s
  else
    let r := s.physReady x.hdr false
    if !r.1 then r.2
    else
      let h := r.2.holdHeader q
      let s := h.2.setQueue q { x with tail := lineNat h.1 0 8 }
      if 2 ^ x.logn < ((s.queue q).tail + 2 ^ 64 - x.done) % 2 ^ 64 then s.queueError q 5 else s

/-- The last launch of a disabled timed queue is done: its reservation ends (R90). Nothing but TMASK keeps it. -/
def State.endReservation (s : State) (q : Nat) : State :=
  let x := s.queue q
  if x.timed && x.phase == .off && !(s.launches.any fun l => l.queue == q && l.reserves) then
    s.setQueue q { x with timed := false, tmask := 0 }
  else s

-- Levels (R76, R78).

/-- LAUNCH_CFG.AGE_US. -/
def State.ageUs (s : State) : Nat := bitsOf (s.reg 0x050) 0 16
/-- A queue's effective level (R76). -/
def State.effLevel (s : State) (q : Nat) : Nat :=
  let x := s.queue q
  if x.timed || s.ageUs == 0 then x.prio else Nat.min 55 (x.prio + x.waitUs / s.ageUs)

-- Records (R75, R77, R82, R83).

/-- The address of record i's slot. -/
def Queue.slotPa (x : Queue) (i : Nat) : Nat := x.ring + 128 * (i % 2 ^ x.logn)
/-- The next record of a queue, once its line can be read. -/
def State.nextRecord (s : State) (q : Nat) : List (BitVec 64) := s.physRead ((s.queue q).slotPa (s.queue q).taken) 16
/-- A record's SEQ is right. -/
def seqOk (w : List (BitVec 64)) (i : Nat) : Bool := bitsOf (w.getD 0 0).toNat 0 32 == i % 2 ^ 32
/-- A bit field of a record's first word (R82). -/
def recField (w : List (BitVec 64)) (lo n : Nat) : Nat := bitsOf (w.getD 0 0).toNat lo n
/-- A run slot that is free. -/
def State.freeRun (s : State) : Option Nat := (List.range 16).find? fun n => (s.run n).phase == .free
/-- The slot of a resident run with a RUNID. -/
def State.runSlotOf (s : State) (id : Nat) : Option Nat :=
  (List.range 16).find? fun n => (s.run n).phase != .free && (s.run n).cfg.runid == id
/-- A saved run with a RUNID. -/
def State.savedOf (s : State) (id : Nat) : Option SavedRun := s.saved.find? fun x => x.cfg.runid == id
/-- The key under which the tables of a saved run stand. -/
def savedKey (id : Nat) : Nat := 16 + id

/-- The next record of a queue exists, and its SEQ has not been found wrong. -/
def State.waiting (s : State) (q : Nat) : Bool :=
  let x := s.queue q
  x.phase == .on && decide (x.taken < x.tail) && !x.mismatch
/-- The slot of a queue's next record can be read now, so that its fields are known. -/
def State.recordShown (s : State) (q : Nat) : Bool := (s.physReady ((s.queue q).slotPa (s.queue q).taken) false).1
/-- The homes that taking a queue's next record needs can serve it now: those of its slot and header and, for a NEW record, of its block.
What one of them has to ask of other holders is sent (log entry 34). -/
def State.takeReady (s : State) (q : Nat) : Bool × State :=
  let x := s.queue q
  let a := s.physReady (x.slotPa x.taken) false
  if !a.1 then a
  else
    let b := a.2.physReady x.hdr true
    let w := b.2.nextRecord q
    let pa := bitsOf (w.getD 1 0).toNat 7 45 * 128
    if !b.1 || !seqOk w x.taken || recField w 34 1 == 0 || !b.2.backed pa then b else b.2.physReady pa false
/-- A run has a live timed launch. -/
def State.hasTimed (s : State) (run : Nat) : Bool := s.launches.any fun l => l.run == run && l.timed
/-- A resident run may be pre-empted at all (R81). -/
def State.mayPreempt (s : State) (x : Nat) : Bool :=
  s.runLive x && !s.hasTimed x && decide (s.saved.length < 48)
/-- R81, first case: the run of lowest level, where that lies below a NEW record's (log entry 25). -/
def State.lowestBelow (s : State) (x level : Nat) : Bool :=
  s.mayPreempt x && decide (s.runLevel x < level) &&
    (List.range 16).all fun y => (s.run y).phase != .resident || decide (s.runLevel x ≤ s.runLevel y)
/-- A NEW record of a level has a run slot: one is free, or is coming free, or a run of lower level can be pre-empted (R77, R81). -/
def State.slotFor (s : State) (level : Nat) : Bool :=
  s.freeRun.isSome || (List.range 16).any fun x =>
    ((s.run x).phase == .preempting && decide (s.runLevel x < level)) || s.lowestBelow x level
/-- A run's live launches have completed and one of them ended it: its teardown has begun (R89). -/
def State.teardownBegun (s : State) (key : Nat) (ends : Bool) : Bool := ends && !(s.launches.any fun l => l.run == key)
/-- The next record can be taken (R77): there is room among the launches and, for a NEW record, a run slot; a JOIN record for a run that
is being pre-empted or is saved waits until it is resident again (R81). One whose slot can not be read yet may be such, and the
launch unit waits for it when its turn comes. -/
def State.canTake (s : State) (q : Nat) : Bool :=
  s.waiting q && decide (s.launches.length < 256) && (!s.recordShown q ||
    (let w := s.nextRecord q
     if recField w 34 1 = 1 then s.slotFor (s.effLevel q)
     else match s.runSlotOf (recField w 48 16) with
       | some n => (s.run n).phase != .preempting && (!(s.run n).resuming || (s.run n).killed)
       | none => match s.savedOf (recField w 48 16) with
         | some x => x.killed || s.teardownBegun (savedKey x.cfg.runid) x.ends
         | none => true))
/-- The queue whose record is taken next: the highest effective level, then the first after the queue served last. -/
def State.nextQueue (s : State) : Option Nat :=
  let start := match s.lastQueue with | some q => q + 1 | none => 0
  ((List.range 64).map fun i => (start + i) % 64).foldl (fun a q =>
    if !s.canTake q then a
    else match a with
      | none => some q
      | some b => if s.effLevel b < s.effLevel q then some q else some b) none

/-- The grid of a GRID record (R82). -/
def gridOfRecord (w : List (BitVec 64)) : Grid :=
  let f (i lo n : Nat) : Nat := bitsOf (w.getD i 0).toNat lo n
  { mask := BitVec.ofNat 256 (f 7 0 64 + 2 ^ 64 * (f 8 0 64) + 2 ^ 128 * (f 9 0 64) + 2 ^ 192 * (f 10 0 64)),
    ext := [f 11 0 32, f 11 32 32, f 12 0 32], sub := [f 12 32 16, f 12 48 16, f 13 0 16], ndim := recField w 38 2 }

/-- The fields of a record (R82, R83): reserved ones are zero, and the values are allowed. That ARGP, whose bits
the layout does not number, is a VA of 56 bits and bits [63:56] of its word are reserved, is the model's choice (log entry 28). -/
def recordOk (w : List (BitVec 64)) (timed : Bool) : Bool :=
  let f (i lo n : Nat) : Nat := bitsOf (w.getD i 0).toNat lo n
  let kind := recField w 32 2
  let work := kind == 1 || kind == 2
  recField w 45 3 == 0 && kind != 3 && decide (recField w 40 4 ≤ 8) &&
    (if recField w 34 1 = 1 then f 1 0 7 == 0 && f 1 52 12 == 0 else f 1 0 64 == 0) &&
    f 4 56 8 == 0 && (timed && work || (f 5 32 32 == 0 && f 6 0 32 == 0)) &&
    (match kind with
     | 1 => recField w 38 2 == 0 && f 2 0 3 == 0 && f 2 56 8 == 0
     | 2 => recField w 35 3 == 0 && f 2 0 3 == 0 && f 2 56 8 == 0 && f 13 16 48 == 0 && f 15 0 64 == 0 && f 14 56 8 == 0 &&
         (gridOfRecord w).ok
     | _ => recField w 35 9 == 0 && f 2 0 64 == 0 && f 3 0 64 == 0 && (w.drop 7).all fun v => v == 0)

/-- Bytes 128 of a run configuration block, read by its layout; none where a check fails (R79). -/
def State.configBlock (s : State) (pa : Nat) : Option RunCfg :=
  let w := s.physRead pa 16
  let f (i lo n : Nat) : Nat := bitsOf (w.getD i 0).toNat lo n
  let c : RunCfg := { runid := f 0 0 16, asid := f 0 16 12, ptroot := f 1 0 64, spill := f 2 0 64, loga := f 3 0 64,
                      stack := f 4 0 64, save := f 5 0 64, bmap := f 6 0 64, splog := f 7 0 64 }
  let va (x : Nat) : Bool := x % 2 ^ 16 == 0 && decide (x < 2 ^ 56)
  if s.backed pa && !s.poisoned (pa / 128) && f 0 28 36 == 0 && c.runid != 0 && (s.runSlotOf c.runid).isNone &&
      (s.savedOf c.runid).isNone && c.asid != 0 && va c.spill && va c.loga && va c.stack && va c.save && va c.bmap &&
      c.ptroot % 2 ^ 13 == 0 && decide (c.ptroot < 2 ^ 52) && s.backed c.ptroot && decide (16 ≤ c.splog) &&
      decide (c.splog ≤ 30) && (w.drop 8).all (fun v => v == 0) then some c
  else none
/-- A configuration takes a slot: GEN rises, and translations that carry the new one go (R79, R172). -/
def State.loadSlot (s : State) (n : Nat) (c : RunCfg) (pa : Nat) : State :=
  let old := s.run n
  let gen := (old.gen + 1) % 16
  let s := s.setRun n { Run.reset with phase := .resident, gen := gen, cfgpa := pa, bad := old.bad, cfg := c }
  { s with tlb := s.tlb.filter fun e => !(e.run == n && e.gen == gen) }

/-- A loading write under way goes on once the block's home can serve it; a device stopped by a fatal error loads nothing (R20, R79,
R167) (log entry 34). -/
def State.runLoadStep (s : State) (n : Nat) : State :=
  let r := s.run n
  let pa := r.cfgpa
  if !r.loading || s.fatal then s
  else if !s.backed pa then s.setRun n { r with loading := false, bad := true }
  else
    let x := s.physReady pa false
    if !x.1 then x.2
    else match x.2.configBlock pa with
      | some c => x.2.loadSlot n c pa
      | none => x.2.setRun n { r with loading := false, bad := true }
/-- A loading write to RUN_CFGn, or one that clears BAD (R79). -/
def State.runCfgWrite (s : State) (n v : Nat) : State :=
  let r := s.run n
  if bitOf v 0 then s.setRun n { r with bad := false }
  else if r.phase ≠ .free then s
  else (s.setRun n { r with cfgpa := bitsOf v 7 45 * 128, loading := true }).runLoadStep n

/-- Admission of a timed launch (R91): in tile-cycles, with deadlines in cycles (log entry 28). Admitted launches are those that ended
neither REJECTED nor BADREC; a killed one counts while it is live. -/
def State.admits (s : State) (q : Nat) (w : List (BitVec 64)) : Bool :=
  let x := s.queue q
  let c := x.frac * (maskTiles x.tmask).length
  let us := bitsOf (w.getD 5 0).toNat 32 32
  let b := 1024 * (bitsOf (w.getD 6 0).toNat 0 32)
  let d := s.cycle + us * cyclesPerUs
  let live := s.launches.filter fun l => l.queue == q && l.timed && !l.overrun && (l.status.isNone || l.status == some 4) && l.run != noRun
  let sum (e : Nat) : Nat := live.foldl (fun a l => if l.deadline ≤ e then a + (l.budget - l.charge) else a)
    (if d ≤ e then b else 0)
  decide (us ≤ x.window) && (d :: (live.map fun l => l.deadline).filter fun e => decide (d ≤ e)).all fun e =>
    decide (256 * sum e ≤ c * (e - s.cycle))

/-- The run a record names, or the block its run is to be loaded from, or that it is bad (R79, R83, R89). -/
inductive Joined where
  | bad
  | run (key : Nat)
  | load (slot : Nat) (c : RunCfg) (pa : Nat)

/-- Find the run of a record. -/
def State.joinRun (s : State) (w : List (BitVec 64)) : Joined :=
  let id := recField w 48 16
  if recField w 34 1 = 1 then
    let pa := bitsOf (w.getD 1 0).toNat 7 45 * 128
    match s.freeRun, s.configBlock pa with
    | some n, some c => if c.runid = id then .load n c pa else .bad
    | _, _ => .bad
  else match s.runSlotOf id with
    | some n => if (s.run n).phase = .ending ∨ (s.run n).killed ∨ s.teardownBegun n (s.run n).ends then .bad else .run n
    | none => .bad
/-- A run's commit floor passes a record's TS (R83). -/
def State.belowFloor (s : State) (w : List (BitVec 64)) (key : Nat) : Bool :=
  recField w 32 2 != 0 && decide ((w.getD 3 0).toNat < (s.run key).floor.ts.toNat)

/-- A record as a replay of its run gives it: the first 80 bytes are the log's (R286, R288) (log entry 29). -/
def State.itinReplay (s : State) (run : Nat) (w : List (BitVec 64)) : List (BitVec 64) × State :=
  let x := s.itinTake run 1 0 []
  match x.1 with
  | some n => (x.2.itinPayload n ++ w.drop 10, x.2)
  | none => (w, x.2)
/-- The record of a launch in the Itinerary. -/
def State.itinLaunch (s : State) (run q i : Nat) (w : List (BitVec 64)) : State :=
  (s.itin run 1 0 (BitVec.ofNat 64 q) (BitVec.ofNat 64 i) 0).itinData run 0 (w.take 10)

/-- Change a launch. -/
def State.onLaunch (s : State) (id : Nat) (f : Launch → Launch) : State :=
  { s with launches := s.launches.map fun l => if l.id = id then f l else l }

/-- A record is copied and its launch becomes live (R75, R78); TAKEN is written by tookRecord. A NOP launch of a timed queue, which
has no work that is timed, keeps the queue's reservation as its other launches do (R90). -/
def State.newLaunch (s : State) (q : Nat) (w : List (BitVec 64)) : Launch × State :=
  let x := s.queue q
  let timed := x.timed && recField w 32 2 != 0
  let l : Launch :=
    { id := s.nextStore + 1, queue := q, record := x.taken, slotPa := x.slotPa x.taken, words := w, run := noRun,
      level := s.effLevel q, aged := 0, deadline := s.cycle + bitsOf (w.getD 5 0).toNat 32 32 * cyclesPerUs,
      budget := 1024 * (bitsOf (w.getD 6 0).toNat 0 32), charge := 0, overrun := false, timed := timed, status := none,
      entered := true, old := false, phase := .working, tmask := if x.timed && !timed then some x.tmask else none }
  let s : State := { s with nextStore := l.id, launches := s.launches ++ [l], lastQueue := some q }
  (l, s.setQueue q { x with taken := x.taken + 1, waitUs := 0 })
/-- The record has been copied: TAKEN is written (R75). -/
def State.tookRecord (s : State) (q : Nat) : State := s.headerStore q 8 (s.queue q).taken

/-- A launch ends early with a status code (R88). -/
def State.endLaunch (s : State) (id code : Nat) : State :=
  s.onLaunch id fun l => { l with status := some code, entered := true, phase := .working }
/-- A launch joins its run; its work is still to be entered. -/
def State.admitLaunch (s : State) (l : Launch) (key : Nat) : State :=
  (s.itinLaunch key l.queue l.record l.words).onLaunch l.id fun l => { l with run := key, entered := false, phase := .ready }

/-- The agent that the launch unit is for a launch: tile 0x00, the run's translation. -/
def Launch.eng (l : Launch) : Eng :=
  { agent := .launch l.id, tile := 0, run := some l.run, key := ⟨l.words.getD 3 0, 0⟩, issuer := 0, th := 0, hint := 0, remotes := [] }
/-- The same as an accessing agent. -/
def Launch.who (l : Launch) : Who :=
  { agent := .launch l.id, tile := 0, core := none, run := some l.run, issuer := 0, th := 0, remote := [] }
/-- A launch's record (R84, R87): SRC 4, and it waits for the reply. -/
def State.launchRaise (s : State) (l : Launch) (phase : LaunchPhase) (t : Trap) : State :=
  (s.onLaunch l.id fun l => { l with phase := phase }).raise (.launch l.id) 4 (some l.run) 0 ⟨l.words.getD 3 0, 0⟩ 0 0 t
/-- What stops a launch's access: a fault raises its record, and anything else is waited for. -/
def State.launchStop (s : State) (l : Launch) (phase : LaunchPhase) (e : Stop) : State :=
  match s.stopped (some l.run) e with
  | (some x, s) => s.launchRaise l phase x
  | (none, s) => s
/-- The argument words of a GRID record, at ARGP through the run's translation (R84). -/
def State.gridArgs (s : State) (l : Launch) : Except Stop (State) :=
  let n := recField l.words 40 4
  let put (s : State) (a : List (BitVec 64)) : State := s.onLaunch l.id fun l => { l with args := some a }
  if recField l.words 32 2 != 2 || l.args.isSome then .ok s
  else if n = 0 then .ok (put s [])
  else match s.engReadClean l.eng ((l.words.getD 14 0).toNat % 2 ^ 56) (8 * n) with
    | .error e => .error e
    | .ok (v, s) => .ok (put s ((List.range n).map fun i => BitVec.ofNat 64 (v >>> (64 * i))))

/-- An admitted record's arguments are read before TAKEN is written; while the read has to wait the record is not taken, and a fault
holds the launch (R75, R84) (log entry 28). old is the state before the taking. -/
def State.takeArgs (s old : State) (q id : Nat) : State :=
  match s.launch? id with
  | none => s
  | some l => match s.gridArgs l with
    | .ok s => s.tookRecord q
    | .error e => match s.stopped (some l.run) e with
      | (some x, s) => (s.launchRaise l .held x).tookRecord q
      | (none, _) => (old.stopped (some l.run) e).2

/-- LAUNCH_TAKE: the next record is copied, checked, and its launch joins or loads its run (R77, R79, R83, R84, R91) (log entry 28). A
NEW record that waits for a pre-emption is taken once a slot is free (R81). In a replay the record's words are the log's before
anything is taken from them (R288). -/
def State.launchTake (s : State) : State :=
  if s.fatal then s
  else match s.nextQueue with
  | none => s
  | some q =>
    let old := s
    let r := s.takeReady q
    let s := r.2
    let w := s.nextRecord q
    if !r.1 then s
    else if !seqOk w (s.queue q).taken then s.setQueue q { s.queue q with mismatch := true }
    else if recField w 34 1 == 1 && s.freeRun.isNone then s
    else
      let j := s.joinRun w
      let key := match j with | .run k => k | _ => noRun
      let y := match j with
        | .bad => (w, s)
        | .run k => s.itinReplay k w
        | .load n _ _ => s.itinReplay n w
      let w := y.1
      let p := y.2.newLaunch q w
      let l := p.1
      let s := p.2
      let tilesOk := recField w 32 2 != 2 || !(s.gridTiles l.id (gridOfRecord w).mask).isEmpty
      match j with
      | .bad => (s.endLaunch l.id 3).tookRecord q
      | _ =>
        if !recordOk w (s.queue q).timed || !tilesOk || s.belowFloor w key then (s.endLaunch l.id 3).tookRecord q
        else if l.timed && !s.admits q w then
          let s := (s.setQueue q { s.queue q with rej := Nat.min 0xFFFFFFFF ((s.queue q).rej + 1) }).writeQstat q
          ((s.onLaunch l.id fun l => { l with run := key }).endLaunch l.id 2).tookRecord q
        else match j with
          | .load n c pa => ((s.loadSlot n c pa).admitLaunch l n).takeArgs old q l.id
          | _ => (s.admitLaunch l key).takeArgs old q l.id

/-- The device reads a record's slot again (R75). -/
def State.seqRetry (s : State) (q : Nat) : State :=
  let x := s.queue q
  if x.phase = .on ∧ x.mismatch then
    (let r := s.physReady (x.slotPa x.taken) false
     if r.1 && seqOk (r.2.nextRecord q) x.taken then r.2.setQueue q { x with mismatch := false } else r.2)
  else s

-- The work of a record (R83 to R86).

/-- Kind of a launch. -/
def Launch.kind (l : Launch) : Nat := recField l.words 32 2
/-- A launch's work may be entered now: its run is resident, the device runs (R167), and this is a latch cycle (R147). -/
def State.mayEnter (s : State) (l : Launch) : Bool :=
  l.phase == .ready && decide (l.run < 16) && s.runLive l.run && !s.fatal && s.entryCycle

/-- NOP_RECORD: no work is created (R83). -/
def State.nopRecord (s : State) (id : Nat) : State :=
  match s.launch? id with
  | none => s
  | some l => if l.phase = .ready ∧ l.kind = 0 then s.onLaunch id fun l => { l with entered := true, phase := .working } else s

/-- The task of a TASK record (R84); a speculative one at the run's commit floor takes it as FLOOR (R102). -/
def State.recordTask (s : State) (l : Launch) : Task :=
  let w := l.words
  let spec := recField w 35 1 == 1
  let floor := (s.run l.run).floor
  let n := recField w 40 4
  { func := (w.getD 2 0).setWidth 56, ts := w.getD 3 0, tb := 0, hasTb := !spec,
    floor := if spec && floor.ts == w.getD 3 0 then floor else Key.zero, spec := spec, hmode := hmodeOf (recField w 36 2),
    hint := w.getD 7 0, nargs := n, args := (w.drop 8).take n, run := l.run, aborts := 0, mw := false, parent := none,
    ident := Ident.single, launch := l.id, hintLine := 0, unseen := 2 }
/-- TASK_RECORD: the task is placed and sent (R84, R107 to R109, R122). -/
def State.taskRecord (s : State) (id : Nat) : State :=
  match s.launch? id with
  | none => s
  | some l =>
    if !s.mayEnter l || l.kind != 1 then s
    else
      let t := s.recordTask l
      match s.hintTile l.who 0 t.hmode t.hint with
      | .stop e s => s.launchStop l .held e
      | .ok tile line s =>
        match s.settleTile id tile with
        | none => s
        | some tile =>
          let s := (s.sendTask none tile none { t with hintLine := line }).2
          s.onLaunch id fun l => { l with entered := true, phase := .working }

/-- GRID_RECORD: the grid is divided (R84 to R86); the argument words are read here where a reply has ended their fault. -/
def State.gridRecord (s : State) (id : Nat) : State :=
  match s.launch? id with
  | none => s
  | some l =>
    if !s.mayEnter l || l.kind != 2 then s
    else match s.gridArgs l with
      | .error e => s.launchStop l .held e
      | .ok s =>
        let args := ((s.launch? id).bind fun l => l.args).getD []
        let g := gridOfRecord l.words
        let tiles := s.gridTiles id g.mask
        if tiles.isEmpty then s
        else
          let base : GridRec :=
            { func := (l.words.getD 2 0).setWidth 56, ts := l.words.getD 3 0, ext := g.exts, sub := g.subs, dims := g.dims,
              next := 0, stop := 0, nargs := args.length, args := args,
              run := l.run, launch := id, parent := none, tile := 0, launchUnit := true }
          let s : State := { s with grids := s.grids ++ (if gridCount g.dims = 0 then [] else gridShares base tiles) }
          s.onLaunch id fun l => { l with entered := true, phase := .working }

-- Ageing and pre-emption's waits (R76, R78, R81).

/-- A run has a task ready that no tile has dispatched; those of a halted tile do not count (R279). -/
def State.readyTask (s : State) (run : Nat) : Bool :=
  s.lodges.any fun l => !s.halted l.1 && l.2.queue.any fun t => t.run == run && s.dispatchable l.1 t
/-- Threads of a run hold every slot of a tile that a task could get. -/
def State.holdsAll (s : State) (tile run : Nat) : Bool :=
  (s.freeSlot tile).isNone && (s.tileThreads tile).all fun e => match e.2.task with
    | some k => k.run == run
    | none => true
/-- LAUNCH_CFG.PWAIT. -/
def State.pwait (s : State) : Nat := bitsOf (s.reg 0x050) 32 16
/-- R81, second case: a task of run y, by PGAP levels above x, has been ready for PWAIT µs on a tile whose free-able thread slots
threads of x all hold. -/
def State.outranks (s : State) (tile y x : Nat) : Bool :=
  let gap := bitsOf (s.reg 0x050) 24 6
  gap != 0 && !s.halted tile && decide (s.runLevel x + gap ≤ s.runLevel y) && s.holdsAll tile x &&
    (s.lodge tile).queue.any fun t => t.run == y && s.dispatchable tile t && decide (s.pwait ≤ t.readyUs)
/-- A microsecond passes for the tasks of a tile that are ready (R81) (log entry 30). -/
def State.tickReady (s : State) (tile : Nat) : State :=
  let l := s.lodge tile
  s.setLodge tile { l with queue := l.queue.map fun t =>
    { t with readyUs := if s.dispatchable tile t then Nat.min 65536 (t.readyUs + 1) else 0 } }
/-- QUEUE_AGEING: one microsecond passes for the queues and launches that wait (R76, R78). That the microseconds of a launch's
ageing step add up over separate waits, and need not follow one another, is the model's choice (log entry 30). -/
def State.queueAgeing (s : State) : State :=
  let q' := s.queues.mapVals fun q x => if !x.timed && s.canTake q then { x with waitUs := x.waitUs + 1 } else x
  let age (l : Launch) : Launch :=
    if l.timed || l.run == noRun || s.ageUs == 0 || decide (16 ≤ l.run) || !s.readyTask l.run then l
    else if l.aged + 1 < s.ageUs then { l with aged := l.aged + 1 }
    else { l with aged := 0, level := Nat.max l.level (Nat.min 55 (l.level + 1)) }
  let ls := s.launches.map age
  let s : State := { s with queues := q', launches := ls }
  (s.lodges.map fun l => l.1).foldl (fun s t => if (s.lodge t).queue.isEmpty then s else s.tickReady t) s

-- Timed launches (R92, R93).

/-- Work of a launch occupies a tile in this cycle (R92) (log entry 33). -/
def State.chargedOn (s : State) (id tile : Nat) : Bool :=
  let e := s.engine tile
  (s.tileThreads tile).any (fun x => match x.2.task with | some k => k.launch == id | none => false) ||
    (e.mq.head?.any fun j => j.launch == id) || (e.lanes.any fun l => l.head?.any fun j => j.launch == id) ||
    (s.lodge tile).cq.any fun x => x.2.aborting && x.2.task.launch == id
/-- Charge n cycles to every timed launch (R92) (log entry 33). -/
def State.chargeCycles (s : State) (n : Nat) : State :=
  { s with launches := s.launches.map fun l =>
      if !l.timed then l
      else { l with charge := l.charge + n * ((maskTiles (s.launchMask l)).filter (s.chargedOn l.id)).length } }
/-- TIMED_OVERRUN: the charge first exceeds the budget (R93). -/
def State.timedOverrun (s : State) (id : Nat) : State :=
  match s.launch? id with
  | none => s
  | some l =>
    if !l.timed || l.overrun || decide (l.charge ≤ l.budget) then s
    else
      let x := s.queue l.queue
      let s := (s.setQueue l.queue { x with ovr := Nat.min 0xFFFF (x.ovr + 1) }).writeQstat l.queue
      s.onLaunch id fun l => { l with overrun := true, level := 55 }

-- Completion (R87 to R89).

/-- Work of a launch remains: tasks queued, running, finished and not committed, spilled, sent, in grids or saved, and
jobs (R87). -/
def State.launchBusy (s : State) (id : Nat) : Bool :=
  let of (t : Task) : Bool := t.launch == id
  let job : Job → Bool
    | .matrix j => j.launch == id
    | .porter j => j.launch == id
  s.lodges.any (fun l => l.2.queue.any of || l.2.cq.any (fun e => of e.2.task) || l.2.grids.any (fun g => g.launch == id) ||
    l.2.blocks.any fun b => b.2.any fun x => x.notes.any fun n => n.launch == id) ||
  s.threads.any (fun t => t.2.task.any of) || s.sent.any (fun x => of x.task) || s.grids.any (fun g => g.launch == id) ||
  s.engines.any (fun e => e.2.mq.any (fun j => j.launch == id) || e.2.lanes.any fun l => l.any fun j => j.launch == id) ||
  s.runs.any (fun r => r.2.returning.any fun t => of t.2) ||
  s.saved.any fun x => x.jobs.any (fun j => job j.2) || x.tasks.any fun t => of t.2

/-- Every store of a run is made visible at .sys: dirty mapped lines go home, and collapses in progress end (R87). -/
def State.flushRun (s : State) (run : Nat) : State :=
  let mine (l : MapLine) : Bool := l.dirty && s.stash.maps.any fun m => m.tile == l.tile && m.run == run &&
    decide (m.soff ≤ l.off) && decide (l.off < m.soff + 4096 * m.pages)
  let s := (s.stash.lines.filter mine).foldl (fun (s : State) (l : MapLine) => s.cleanMapLine l.tile l.off []) s
  s.coh.collapses.foldl (fun (s : State) (c : Collapse) => s.ackCollapse c.quad c.line) s

/-- The STATUS word of a launch (R88). That USED is rounded down to whole units is the model's choice: R88 states no rounding (log
entry 28). -/
def Launch.statusWord (l : Launch) (now : Nat) : Nat :=
  let code := match l.status with
    | some c => c
    | none => if l.overrun then 1 else if l.timed && decide (l.deadline < now) then 5 else 0
  2 ^ 31 + 2 ^ 28 * code + Nat.min (2 ^ 28 - 1) (if l.timed then l.charge / 1024 else 0)
/-- The launch bumps a counter: not where no run is named (R83) (log entry 28). -/
def Launch.bumps (l : Launch) : Bool := l.words.getD 4 0 != 0 && l.run != noRun && l.status != some 3

/-- The longest prefix of records done. -/
def donePrefix (set : List Nat) : Nat → Nat → Nat
  | 0, n => n
  | f + 1, n => if set.contains n then donePrefix set f (n + 1) else n
/-- DONE advances (R75); while a launch taken before the counts were changed lives, the value written lies between the
software's DONE and TAKEN and is otherwise free (R72) (log entry 3). -/
def State.advanceDone (s : State) (l : Launch) : State :=
  let x := s.queue l.queue
  let set := if l.old then x.doneSet else x.doneSet ++ [l.record]
  let done := donePrefix set set.length x.done
  let x := { x with done := done, doneSet := set.filter fun n => decide (done ≤ n) }
  let s := s.setQueue l.queue x
  if l.old || s.launches.any fun y => y.queue == l.queue && y.old && y.id != l.id then
    let f := s.free
    f.2.headerStore l.queue 0x10 (x.base + f.1.toNat % (x.taken - x.base + 1))
  else s.headerStore l.queue 0x10 done
/-- The launch is no longer live; a run remembers its ENDRUN (R89). That a JOIN record which is REJECTED ends its run with ENDRUN, while
one that is BADREC names no run and ends none, is the model's choice (log entry 28). -/
def State.retireLaunch (s : State) (l : Launch) : State :=
  let s := s.advanceDone l
  let s : State := { s with launches := s.launches.filter fun x => x.id != l.id }
  if recField l.words 44 1 = 0 ∨ l.run = noRun then s
  else if l.run < 16 then s.setRun l.run { s.run l.run with ends := true }
  else { s with saved := s.saved.map fun x => if savedKey x.cfg.runid = l.run then { x with ends := true } else x }
/-- The bump of a launch's counter, then its end. -/
def State.launchBump (s : State) (l : Launch) : State :=
  match s.engBump l.eng ((l.words.getD 4 0).toNat % 2 ^ 56) (bitsOf (l.words.getD 5 0).toNat 0 32) .sys with
  | (some e, s) => s.launchStop l .bumpHeld e
  | (none, s) => s.retireLaunch l
/-- Stores of a run's threads are in flight: those of a killed run are performed before its launches complete (R183). -/
def State.runStores (s : State) (run : Nat) : Bool :=
  s.stores.any fun x => x.run == run && match x.agent with | .thread _ => true | _ => false
/-- LAUNCH_COMPLETE: the completion effects, in order, as far as they can be done (R87); none on a device stopped by a fatal error (R17,
R24). That a timed launch finishes, for LATE, in the cycle in which its STATUS is written is the model's choice (R93) (log entry 28). -/
def State.launchComplete (s : State) (id : Nat) : State :=
  match s.launch? id with
  | none => s
  | some l =>
    if s.fatal then s
    else match l.phase with
    | .working =>
      if (l.status.isNone && s.launchBusy id) || (l.status == some 4 && s.runStores l.run) then s
      else
        let r := s.physReady l.slotPa true
        let q := r.2.physReady (s.queue l.queue).hdr true
        if !r.1 || !q.1 then q.2
        else
          let s := (if l.run = noRun then q.2 else q.2.flushRun l.run).physStore (l.slotPa + 0x34) 4 (l.statusWord s.cycle) 0
          if l.bumps then (s.onLaunch id fun l => { l with phase := .bump }).launchBump { l with phase := .bump }
          else s.retireLaunch l
    | .bump => s.launchBump l
    | _ => s

/-- QUEUE_ENABLE: a write to QREGn that sets EN, and the enabling it begins (R71, R73, R90). -/
def execQueueEnable (q : Nat) (v : BitVec 64) (s : State) : Out :=
  let s := s.qregWrite q (v.toNat % 2 ^ 63 + 2 ^ 63)
  .next (match (s.queue q).phase with | .opening | .clearing => s.enableStep q | _ => s)
/-- QUEUE_DISABLE: EN is written as 0 (R73). -/
def execQueueDisable (q : Nat) (s : State) : Out := .next (s.qregWrite q (s.reg (qreg q) % 2 ^ 63))
/-- RESERVATION_END (R90). -/
def execReservationEnd (q : Nat) (s : State) : Out := .next (s.endReservation q)
/-- HEADER_REREAD (R74). -/
def execHeaderReread (q : Nat) (s : State) : Out := .next (s.reread q)
/-- LAUNCH_TAKE (R77). -/
def execLaunchTake (s : State) : Out := .next s.launchTake
/-- RECORD_SEQ_RETRY (R75). -/
def execRecordSeqRetry (q : Nat) (s : State) : Out := .next (s.seqRetry q)
/-- NOP_RECORD (R82). -/
def execNopRecord (n : Nat) (s : State) : Out := .next (s.nopRecord n)
/-- TASK_RECORD (R84). -/
def execTaskRecord (n : Nat) (s : State) : Out := .next (s.taskRecord n)
/-- GRID_RECORD (R85). -/
def execGridRecord (n : Nat) (s : State) : Out := .next (s.gridRecord n)
/-- QUEUE_AGEING (R76). -/
def execQueueAgeing (s : State) : Out := .next s.queueAgeing
/-- TIMED_OVERRUN (R93). -/
def execTimedOverrun (n : Nat) (s : State) : Out := .next (s.timedOverrun n)
/-- LAUNCH_COMPLETE (R87). -/
def execLaunchComplete (n : Nat) (s : State) : Out := .next (s.launchComplete n)
/-- RUN_LOAD: a loading write to RUN_CFGn (R79). -/
def execRunLoad (slot : Nat) (v : BitVec 64) (s : State) : Out := .next (s.runCfgWrite slot (v.toNat / 2 * 2))
/-- RUN_CFG_BAD_CLEAR (R79). -/
def execRunCfgBadClear (slot : Nat) (v : BitVec 64) (s : State) : Out := .next (s.runCfgWrite slot (v.toNat / 2 * 2 + 1))

end Sys2Proof.Machine
end

