-- ==== Sys2Proof/Machine/VectorFp.lean ====
section
/-! DEFINITION. Vector floating-point instructions, opcodes 0x30–0x44 (R345 to R356). -/
namespace Sys2Proof.Machine
open Sys2Proof

/-- The w registers named, by number. -/
def namesW (rs : List WReg) : List Nat := rs.map numW

/-- Write the selected elements of wD, rounded in increasing order with their draws (R269, R342). g gives an element's
value before its rounding, r its code. -/
def Thread.vfWrite (t : Thread) (mask : BitVec 64) (w : Nat) (rm : Rm) (d : WReg) (g : Nat → Fl) (r : Fl → Nat → Nat) :
    Thread :=
  let n := elemCount w
  let xs := (List.range n).map fun i => if selectedBy mask w i then some (g i) else none
  let p := roundAll rm r xs t.sr
  { t.setW d (writeElems mask w (t.getW d) fun i => (p.1.getD i none).getD 0) with sr := p.2 }

/-- The value of element i of a register. -/
def elemVal (f : Fmt) (x : Line) (i : Nat) : Fl := f.value (elem f.width x i)

/-- Element-wise arithmetic on two operands (R346). -/
def vf2Op (op : Fl → Fl → Fl) (h : Hdr) (ty : Ty) (rm : Rm) (sat : Bool) (d a b : WReg) (s : State) : Out :=
  vecOp s h 8 (namesW [d, a, b]) (fun _ => false) [a, b] (some d) fun mask t =>
    let f := ty.fmt
    t.vfWrite mask f.width rm d (fun i => op (elemVal f (t.getW a) i) (elemVal f (t.getW b) i))
      (fun x k => f.roundTo rm k sat x)

/-- vfadd. -/
def execVfadd (h : Hdr) (ty : Ty) (rm : Rm) (sat : Bool) (d a b : WReg) (s : State) : Out :=
  vf2Op (fun x y => x.add rm y) h ty rm sat d a b s
/-- vfsub: a − b. -/
def execVfsub (h : Hdr) (ty : Ty) (rm : Rm) (sat : Bool) (d a b : WReg) (s : State) : Out :=
  vf2Op (fun x y => x.add rm y.neg) h ty rm sat d a b s
/-- vfmul. -/
def execVfmul (h : Hdr) (ty : Ty) (rm : Rm) (sat : Bool) (d a b : WReg) (s : State) : Out :=
  vf2Op Fl.mul h ty rm sat d a b s
/-- vfdiv: RM is ignored, the rounding is RNE (R348). -/
def execVfdiv (h : Hdr) (ty : Ty) (_rm : Rm) (sat : Bool) (d a b : WReg) (s : State) : Out :=
  vf2Op Fl.div h ty .rne sat d a b s
/-- vfmin (R347). -/
def execVfmin (h : Hdr) (ty : Ty) (d a b : WReg) (s : State) : Out := vf2Op Fl.min h ty .rne false d a b s
/-- vfmax (R347). -/
def execVfmax (h : Hdr) (ty : Ty) (d a b : WReg) (s : State) : Out := vf2Op Fl.max h ty .rne false d a b s

/-- The fused forms (R346): one rounding of the exact sum of a product and an addend. -/
def vf3Op (op : Fl → Fl → Fl → Fl) (h : Hdr) (ty : Ty) (rm : Rm) (sat : Bool) (d a b c : WReg) (s : State) : Out :=
  vecOp s h 8 (namesW [d, a, b, c]) (fun _ => false) [a, b, c] (some d) fun mask t =>
    let f := ty.fmt
    t.vfWrite mask f.width rm d
      (fun i => op (elemVal f (t.getW a) i) (elemVal f (t.getW b) i) (elemVal f (t.getW c) i))
      (fun x k => f.roundTo rm k sat x)

/-- vfma: a · b + c. -/
def execVfma (h : Hdr) (ty : Ty) (rm : Rm) (sat : Bool) (d a b c : WReg) (s : State) : Out :=
  vf3Op (fun x y z => (x.mul y).add rm z) h ty rm sat d a b c s
/-- vfms: a · b − c. -/
def execVfms (h : Hdr) (ty : Ty) (rm : Rm) (sat : Bool) (d a b c : WReg) (s : State) : Out :=
  vf3Op (fun x y z => (x.mul y).add rm z.neg) h ty rm sat d a b c s
/-- vfnma: −(a · b) + c. -/
def execVfnma (h : Hdr) (ty : Ty) (rm : Rm) (sat : Bool) (d a b c : WReg) (s : State) : Out :=
  vf3Op (fun x y z => (x.mul y).neg.add rm z) h ty rm sat d a b c s

/-- The sign set. -/
def Fl.withSign (s : Bool) : Fl → Fl
  | .nan => .nan
  | .inf _ => .inf s
  | .fin _ m e => .fin s m e
/-- The sign operations (R349). -/
def sgnApply (op : SgnOp) (x : Fl) (bsign : Bool) : Fl :=
  match op with
  | .abs => x.withSign false
  | .neg => x.neg
  | .copysign => x.withSign bsign

/-- vfsgn (R349); .abs and .neg use wA alone. -/
def execVfsgn (h : Hdr) (op : SgnOp) (ty : Ty) (d a b : WReg) (s : State) : Out :=
  let srcs := match op with | .copysign => [a, b] | _ => [a]
  vecOp s h 8 (namesW (d :: srcs)) (fun _ => false) srcs (some d) fun mask t =>
    let f := ty.fmt
    t.vfWrite mask f.width .rne d
      (fun i => sgnApply op (elemVal f (t.getW a) i) ((elem f.width (t.getW b) i).testBit (f.width - 1)))
      (fun x _ => f.rne x)

/-- The comparisons of R352. -/
def fcmpHolds (c : FCmp) (a b : Fl) : Bool :=
  let u := a.isNan || b.isNan
  match c with
  | .eq => a.same b
  | .ne => !a.same b
  | .lt => !u && a.less b
  | .le => !u && !b.less a
  | .gt => !u && b.less a
  | .ge => !u && !a.less b
  | .uo => u

/-- vfcmp (R352). -/
def execVfcmp (h : Hdr) (rel : FCmp) (ty : Ty) (d : MReg) (a b : WReg) (s : State) : Out :=
  vecOp s h 8 (numM d :: namesW [a, b]) (fun _ => false) [a, b] none fun mask t =>
    let f := ty.fmt
    t.setM d (writeMask mask f.width (t.getM d) fun i => fcmpHolds rel (elemVal f (t.getW a) i) (elemVal f (t.getW b) i))

/-- The value of an element of any type: exactly as a floating-point or integer value (R264, R270). -/
def Thread.anyVal (t : Thread) (ty : Ty) (code : Nat) : Fl :=
  if ty.isCvtInt then .int (valOf ty (BitVec.ofNat 64 code)) else (t.fmtOf ty).1.value code

/-- Convert (R354): the destination code of an exact value. -/
def Thread.convert (t : Thread) (dst : Ty) (rm : Rm) (sat : Bool) (x : Fl) (draw : Nat) : Nat :=
  if dst.isCvtInt then patternOf dst.fixedWidth (clampOf dst (x.toInt rm draw))
  else (t.fmtOf dst).1.roundTo rm draw (sat || (t.fmtOf dst).2) x

/-- The conversion is exact for every value of the source, so that it draws nothing (R270, R354). -/
def Thread.exactCvt (t : Thread) (src dst : Ty) : Bool :=
  !src.isCvtInt && !dst.isCvtInt && (t.fmtOf src).1.holds (t.fmtOf dst).1

/-- The parts of a conversion between ns and nd elements (R353). -/
def cvtParts (ns nd : Nat) : Nat := (Nat.max ns nd + Nat.min ns nd - 1) / Nat.min ns nd

/-- The state-dependent ILLOP cases of vfcvt: formats not usable, or a part beyond the last (R353). -/
def Thread.cvtIll (t : Thread) (src dst : Ty) (part : BitVec 4) : Bool :=
  !t.usable src || !t.usable dst ||
    (let p := cvtParts (elemCount (t.width src)) (elemCount (t.width dst)); decide (16 < p) || decide (p ≤ part.toNat))

/-- Conversion of the elements of a part (R353): di runs over the destination's elements. -/
def Thread.cvtWrite (t : Thread) (mask : BitVec 64) (src dst : Ty) (part : Nat) (rm : Rm) (sat : Bool) (d a : WReg) :
    Thread :=
  let ws := t.width src
  let wd := t.width dst
  let ns := elemCount ws
  let nd := elemCount wd
  let n := Nat.min ns nd
  let item (i : Nat) : Option Fl :=
    let di := if n < nd then part * n + i else i
    let si := if n < ns then part * n + i else i
    if di < nd ∧ selectedBy mask wd di then
      some (if si < ns then t.anyVal src (elem ws (t.getW a) si) else .fin false 0 0)
    else none
  let rm' := if t.exactCvt src dst then .rne else rm
  let p := roundAll rm' (fun x k => t.convert dst rm sat x k) ((List.range n).map item) t.sr
  let base := if n < nd then part * n else 0
  let out (j : Nat) : Nat :=
    if base ≤ j ∧ j < base + n then
      (match p.1.getD (j - base) none with
       | some v => v
       | none => elem wd (t.getW d) j)
    else elem wd (t.getW d) j
  { t.setW d (BitVec.ofNat 1024 (packElems wd ((List.range nd).map out))) with sr := p.2 }

/-- vfcvt (R353, R354). -/
def execVfcvt (h : Hdr) (src dst : Ty) (part : BitVec 4) (rm : Rm) (sat : Bool) (d a : WReg) (s : State) : Out :=
  vecOp s h 8 (namesW [d, a]) (fun t => t.cvtIll src dst part) [a] (some d) fun mask t =>
    t.cvtWrite mask src dst part.toNat rm sat d a

/-- The correctly rounded functions (R273, R348): RNE whatever RM holds. -/
def vf1Op (op : Fl → Fl) (h : Hdr) (ty : Ty) (sat : Bool) (d a : WReg) (s : State) : Out :=
  vecOp s h 8 (namesW [d, a]) (fun _ => false) [a] (some d) fun mask t =>
    let f := ty.fmt
    t.vfWrite mask f.width .rne d (fun i => op (elemVal f (t.getW a) i)) (fun x k => f.roundTo .rne k sat x)

/-- vfsqrt. -/
def execVfsqrt (h : Hdr) (ty : Ty) (_rm : Rm) (sat : Bool) (d a : WReg) (s : State) : Out := vf1Op Fl.sqrt h ty sat d a s
/-- vfrcp. -/
def execVfrcp (h : Hdr) (ty : Ty) (_rm : Rm) (sat : Bool) (d a : WReg) (s : State) : Out := vf1Op Fl.rcp h ty sat d a s
/-- vfrsq. -/
def execVfrsq (h : Hdr) (ty : Ty) (_rm : Rm) (sat : Bool) (d a : WReg) (s : State) : Out := vf1Op Fl.rsqrt h ty sat d a s
/-- vfexp2. -/
def execVfexp2 (h : Hdr) (ty : Ty) (_rm : Rm) (sat : Bool) (d a : WReg) (s : State) : Out := vf1Op Fl.exp2 h ty sat d a s
/-- vflog2. -/
def execVflog2 (h : Hdr) (ty : Ty) (_rm : Rm) (sat : Bool) (d a : WReg) (s : State) : Out := vf1Op Fl.log2 h ty sat d a s

/-- One level of the pairwise tree (R274). -/
def treeLevel {α : Type} (op : α → α → α) : List α → List α
  | x :: y :: r => op x y :: treeLevel op r
  | l => l
/-- TreeReduce (R274), with a bound on its levels. -/
def treeReduce {α : Type} (op : α → α → α) : Nat → List α → List α
  | 0, l => l
  | k + 1, l => treeReduce op k (treeLevel op l)

/-- The combining operation of vfred on values that are codes of the type (R355). -/
def fredCombine (op : FRedOp) (f : Fmt) (rm : Rm) (x y : Nat) : Nat :=
  match op with
  | .sum => f.roundTo rm 0 false ((f.value x).add rm (f.value y))
  | .max => f.rne ((f.value x).max (f.value y))
  | .min => f.rne ((f.value x).min (f.value y))
/-- Its identity. -/
def fredUnit (op : FRedOp) (f : Fmt) : Nat :=
  match op with
  | .sum => f.rne (.fin true 0 0)
  | .max => f.rne (.inf true)
  | .min => f.rne (.inf false)

/-- vfred (R355): the tree over the selected elements, then wC's element 0 as one more node; the rest of wD is zero. -/
def execVfred (h : Hdr) (op : FRedOp) (ty : Ty) (rm : Rm) (d a : WReg) (c : Option WReg) (s : State) : Out :=
  vecOp s h 8 (namesW (d :: a :: c.toList)) (fun _ => false) (a :: c.toList) (some d) (whole := true) fun mask t =>
    let f := ty.fmt
    let w := f.width
    let xs := (List.range (elemCount w)).map fun i =>
      if selectedBy mask w i then elem w (t.getW a) i else fredUnit op f
    let r := (treeReduce (fredCombine op f rm) 7 xs).headD 0
    let r := match c with | some c => fredCombine op f rm (elem w (t.getW c) 0) r | none => r
    t.setW d (BitVec.ofNat 1024 r)

/-- vfmerge (R356): pair j is selected when element 2j is. -/
def execVfmerge (h : Hdr) (ty : Ty) (d a b : WReg) (s : State) : Out :=
  vecOp s h 8 (namesW [d, a, b]) (fun _ => false) [a, b] (some d) fun mask t =>
    let f := ty.fmt
    let w := f.width
    let n := elemCount w
    let pair (j : Nat) : Fl × Fl :=
      mergePair (elemVal f (t.getW a) (2 * j)) (elemVal f (t.getW a) (2 * j + 1)) (elemVal f (t.getW b) (2 * j))
        (elemVal f (t.getW b) (2 * j + 1))
    let out := (List.range (n / 2)).flatMap fun j =>
      if selectedBy mask w (2 * j) then [f.rne (pair j).1, f.rne (pair j).2]
      else [elem w (t.getW d) (2 * j), elem w (t.getW d) (2 * j + 1)]
    t.setW d (BitVec.ofNat 1024 (packElems w out))

/-- The exponent of vfscale (R351): none makes the element a NaN. -/
def scaleExp (e8m0 : Bool) (w : Nat) (b : Line) (i : Nat) : Option Int :=
  if e8m0 then
    let e := elem 8 b (i / 32)
    if e = 255 then none else some ((e : Int) - 127)
  else some (signedOf 32 (elem 32 b (if w = 16 then i / 2 else i)))

/-- vfscale (R351). -/
def execVfscale (h : Hdr) (e8m0 : Bool) (ty : Ty) (rm : Rm) (sat : Bool) (d a b : WReg) (s : State) : Out :=
  vecOp s h 8 (namesW [d, a, b]) (fun _ => false) [a, b] (some d) fun mask t =>
    let f := ty.fmt
    t.vfWrite mask f.width rm d
      (fun i => match scaleExp e8m0 f.width (t.getW b) i with
        | some k => (elemVal f (t.getW a) i).scale k
        | none => .nan)
      (fun x k => f.roundTo rm k sat x)

/-- vfrint (R350). -/
def execVfrint (h : Hdr) (ty : Ty) (rm : Rm) (d a : WReg) (s : State) : Out :=
  vecOp s h 8 (namesW [d, a]) (fun _ => false) [a] (some d) fun mask t =>
    let f := ty.fmt
    t.vfWrite mask f.width rm d (elemVal f (t.getW a)) (fun x k => f.rne (x.rint rm k))

end Sys2Proof.Machine
end

