-- ==== Sys2Proof/Machine/Porter.lean ====
section
/-! DEFINITION. Porter: its instructions, opcodes 0x7C and 0x7D (R410 to R413), and the steps of its jobs (R414 to R420). -/
namespace Sys2Proof.Machine
open Sys2Proof

/-- What a Porter job does. -/
inductive PortKind where
  | copy
  | fill
  | gath
  | scat (ty : Ty)
  | row (op : RowOp) (ty : Ty)
deriving DecidableEq, Repr

/-- A Porter instruction read as a job: its kind, lane, control word and row bytes (R410, R411). -/
structure PortSpec where
  kind : PortKind
  urg : Bool
  ctl : Nat
  rows : Nat
deriving DecidableEq, Repr

/-- The job of an instruction; none for any other instruction. -/
def portSpec (i : Instr) : Option PortSpec :=
  match i with
  | .prpush _ u ctl _ _ _ _ _ | .prget _ u ctl _ _ _ _ _ | .prcopy _ u ctl _ _ _ _ _ => some ⟨.copy, u, ctl.toNat, 0⟩
  | .prfill _ u ctl _ _ _ _ _ => some ⟨.fill, u, ctl.toNat, 0⟩
  | .prgath _ u ctl rows _ _ _ _ _ => some ⟨.gath, u, ctl.toNat, rows.toNat⟩
  | .prscat _ u ty ctl rows _ _ _ _ _ => some ⟨.scat ty, u, ctl.toNat, rows.toNat⟩
  | .prrow _ u op ty ctl _ _ _ _ _ _ _ => some ⟨.row op ty, u, ctl.toNat, 0⟩
  | _ => none

/-- DCT of a control word. -/
def PortSpec.dct (p : PortSpec) : Bool := bitOf p.ctl 3
/-- SCT of a control word. -/
def PortSpec.sct (p : PortSpec) : Bool := bitOf p.ctl 7
/-- A scope from its code (R301). -/
def scopeOfNum : Nat → Scope
  | 0 => .thread | 1 => .core | 2 => .tile | 3 => .quad | 4 => .dev | _ => .sys
/-- DSC. -/
def PortSpec.dsc (p : PortSpec) : Scope := scopeOfNum (bitsOf p.ctl 0 3)
/-- SSC. -/
def PortSpec.ssc (p : PortSpec) : Scope := scopeOfNum (bitsOf p.ctl 4 3)
/-- Bytes of an index entry (R419). -/
def PortSpec.idxBytes (p : PortSpec) : Nat := if bitOf p.ctl 8 then 8 else 4
/-- Element bytes of a combining type. -/
def elemBytes (ty : Ty) : Nat := ty.fixedWidth / 8

/-- Destination bytes of a job (R415). -/
def PortSpec.total (p : PortSpec) (cval count : BitVec 64) : Nat :=
  match p.kind with
  | .copy | .fill => cval.toNat
  | .gath | .scat _ => count.toNat * p.rows
  | .row _ ty => cval.toNat * elemBytes ty
/-- Source bytes of a job (R415). -/
def PortSpec.sourceBytes (p : PortSpec) (cval count : BitVec 64) : Nat :=
  match p.kind with
  | .fill => 0
  | .gath | .scat _ => count.toNat * p.rows + count.toNat * p.idxBytes
  | _ => p.total cval count

/-- The checks of R412 on operand values. -/
def PortSpec.refused (p : PortSpec) (cval count : BitVec 64) (mask : BitVec 8) (col : Nat) : Bool :=
  match p.kind with
  | .copy | .fill => decide (2 ^ 40 ≤ cval.toNat)
  | .gath => decide (2 ^ 32 ≤ count.toNat) || p.rows == 0 || decide (2 ^ 20 < p.rows)
  | .scat ty => decide (2 ^ 32 ≤ count.toNat) || p.rows == 0 || decide (2 ^ 20 < p.rows) ||
      (ty != .none && p.rows % elemBytes ty != 0)
  | .row op _ => decide (2 ^ 40 ≤ cval.toNat) || (op == .merge && cval.toNat % 2 == 1) || !mask.getLsbD col

/-- A VA lies in the 0xFF window. -/
def inOwnStash (v : BitVec 64) : Bool := bitsOf v.toNat 48 8 == 0xFF

/-- A Porter instruction (R412, R413): own names the operand that must lie in the tile's own window. -/
def portOp (i : Instr) (s : State) (h : Hdr) (d a b c e : GReg) (own : Option GReg) (mask : BitVec 8) : Out :=
  match portSpec i with
  | none => .next s
  | some p =>
    let pair := match p.kind with | .gath | .scat _ => [numG (c + 1)] | _ => []
    let ctrs := (if p.dct then [numG e] else []) ++ (if p.sct then [numG (e + 1)] else [])
    memOp s h 16 ([numG d, numG a, numG b, numG c] ++ pair ++ ctrs) (fun _ => false) fun t =>
      let th := s.focus
      let cval := t.getG c
      let count := t.getG (c + 1)
      let outside := match own with | some r => !inOwnStash (t.getG r) | none => false
      if p.refused cval count mask (tileOf th % 8) || outside then s.trap th (.plain .illop)
      else
        let j : PorterJob :=
          { id := 0, ins := i, dst := t.getG a, src := t.getG b, cval := cval, count := count, dctr := t.getG e,
            sctr := t.getG (e + 1), run := t.task.map fun k => k.run, key := t.key,
            launch := (match t.task with | some k => k.launch | none => 0), th := th, task := (match t.task with | some k => k.id | none => 0), hint := h.ch, progress := 0,
            srcBumped := false, rowInst := none, remotes := [] }
        s.forkJob th (if p.urg then 2 else 1) t (.porter j) d 16

/-- prpush. -/
def execPrpush (h : Hdr) (urg : Bool) (ctl : BitVec 32) (d a b c e : GReg) (s : State) : Out :=
  portOp (.prpush h urg ctl d a b c e) s h d a b c e (some b) 0
/-- prget. -/
def execPrget (h : Hdr) (urg : Bool) (ctl : BitVec 32) (d a b c e : GReg) (s : State) : Out :=
  portOp (.prget h urg ctl d a b c e) s h d a b c e (some a) 0
/-- prcopy. -/
def execPrcopy (h : Hdr) (urg : Bool) (ctl : BitVec 32) (d a b c e : GReg) (s : State) : Out :=
  portOp (.prcopy h urg ctl d a b c e) s h d a b c e none 0
/-- prfill. -/
def execPrfill (h : Hdr) (urg : Bool) (ctl : BitVec 32) (d a b c e : GReg) (s : State) : Out :=
  portOp (.prfill h urg ctl d a b c e) s h d a b c e none 0
/-- prgath. -/
def execPrgath (h : Hdr) (urg : Bool) (ctl rows : BitVec 32) (d a b c e : GReg) (s : State) : Out :=
  portOp (.prgath h urg ctl rows d a b c e) s h d a b c e none 0
/-- prscat. -/
def execPrscat (h : Hdr) (urg : Bool) (ty : Ty) (ctl rows : BitVec 32) (d a b c e : GReg) (s : State) : Out :=
  portOp (.prscat h urg ty ctl rows d a b c e) s h d a b c e none 0
/-- prrow. -/
def execPrrow (h : Hdr) (urg : Bool) (op : RowOp) (ty : Ty) (ctl : BitVec 32) (mask : BitVec 8) (tag : BitVec 16)
    (d a b c e : GReg) (s : State) : Out :=
  portOp (.prrow h urg op ty ctl mask tag d a b c e) s h d a b c e none mask

-- The steps of a job.

/-- The accessing agent of a job (log entry 17). -/
def PorterJob.eng (j : PorterJob) (tile lane : Nat) : Eng :=
  { agent := .porter tile lane, tile := tile, run := j.run, key := j.key, issuer := coreOf j.th, th := j.th, hint := j.hint,
    remotes := j.remotes }
/-- The job a lane runs. -/
def State.laneHead (s : State) (tile lane : Nat) : Option PorterJob := ((s.engine tile).lanes.getD lane []).head?
/-- Change a job of a lane. -/
def State.onLaneJob (s : State) (tile lane id : Nat) (f : PorterJob → PorterJob) : State :=
  let e := s.engine tile
  s.setEngine tile { e with lanes := e.lanes.modify lane fun l => l.map fun j => if j.id = id then f j else j }
/-- A tile's engines do nothing: the device has stopped, or the tile is fenced or halted (R167, R176, R277). -/
def State.tileStopped (s : State) (tile : Nat) : Bool := s.fatal || s.fenced tile || s.halted tile
/-- A lane requests nothing: its fault record has no reply yet, or its tile has stopped (R417). -/
def State.laneHeld (s : State) (tile lane : Nat) : Bool := (s.engine tile).pfault.getD lane false || s.tileStopped tile

/-- The line access in hand is done: byte-progress advances and its replies are used up (log entry 17). -/
def PorterJob.moved (n : Nat) (j : PorterJob) : PorterJob := { j with progress := j.progress + n, remotes := [] }

/-- A piece of a copy: n bytes from src to dst, that lie in one destination line. -/
def State.portCopy (s : State) (e : Eng) (dst src n : Nat) : Except Stop State :=
  match s.engRead e src n with
  | .error y => .error y
  | .ok (v, bad, s) =>
    match s.engReach e .write (pieces dst n) with
    | .error y => .error y
    | .ok (ls, s) => .ok (s.engWrite e dst v n ls bad)

/-- Bytes from an address to the end of its line, at most n. -/
def toLineEnd (va n : Nat) : Nat := Nat.min n (128 - va % 128)
/-- Byte a of a fill pattern (R418). -/
def fillValue (pat : BitVec 64) (dst n : Nat) : Nat :=
  packElems 8 ((List.range n).map fun i => bitsOf pat.toNat (8 * ((dst + i) % 8)) 8)

/-- Index entry r of a job (R419): the misaligned base faults first, a poisoned line faults. -/
def State.portIndex (s : State) (e : Eng) (p : PortSpec) (base r : Nat) : Except Stop (Nat × State) :=
  if base % p.idxBytes ≠ 0 then .error (.trap (.at .align .read (base % 2 ^ 56)))
  else s.engReadClean e ((base + r * p.idxBytes) % 2 ^ 56) p.idxBytes

/-- One element of a combining row added at the home (R419) (log entry 16). -/
def State.portAdd (s : State) (e : Eng) (ty : Ty) (dst src : Nat) : Except Stop State :=
  let n := elemBytes ty
  match s.engRead e src n with
  | .error y => .error y
  | .ok (v, bad, s) =>
    match s.engReach e .atomic [(dst, n)] with
    | .error y => .error y
    | .ok ([l], s) =>
      let s := s.useWalk (e.who .atomic dst) true l
      let f (old : Nat) : Nat := match ty with | .f32 => f32Add old v | _ => bf16Add old v
      let w := e.who .atomic dst
      let was := s.partPoisoned w l.part
      let s := (s.rmwPart w (e.storer l.part.cls) l.part f none none).2
      .ok (if bad.isEmpty then s else s.poisonPart w l.part was)
    | .ok (_, _) => .error (.wait none)

/-- One line request of a job that moves alone: the next destination line, or element of a combining row. -/
def State.portLine (s : State) (e : Eng) (p : PortSpec) (j : PorterJob) : Except Stop (Nat × State) :=
  let q := j.progress
  let left := p.total j.cval j.count - q
  let done (n : Nat) (x : Except Stop State) : Except Stop (Nat × State) := match x with
    | .ok s => .ok (n, s)
    | .error y => .error y
  match p.kind with
  | .copy =>
    let dst := (j.dst.toNat + q) % 2 ^ 56
    let n := toLineEnd dst left
    done n (s.portCopy e dst ((j.src.toNat + q) % 2 ^ 56) n)
  | .fill =>
    let dst := (j.dst.toNat + q) % 2 ^ 56
    let n := toLineEnd dst left
    (match s.engReach e .write (pieces dst n) with
     | .error y => .error y
     | .ok (ls, s) => .ok (n, s.engWrite e dst (fillValue j.src dst n) n ls []))
  | .gath =>
    let r := q / p.rows
    let o := q % p.rows
    (match s.portIndex e p j.cval.toNat r with
     | .error y => .error y
     | .ok (idx, s) =>
       let dst := (j.dst.toNat + q) % 2 ^ 56
       let n := toLineEnd dst (p.rows - o)
       done n (s.portCopy e dst ((j.src.toNat + idx * p.rows + o) % 2 ^ 56) n))
  | .scat ty =>
    let r := q / p.rows
    let o := q % p.rows
    (match s.portIndex e p j.cval.toNat r with
     | .error y => .error y
     | .ok (idx, s) =>
       let row := (j.dst.toNat + idx * p.rows) % 2 ^ 56
       let dst := (row + o) % 2 ^ 56
       let src := (j.src.toNat + q) % 2 ^ 56
       if ty = .none then let n := toLineEnd dst (p.rows - o); done n (s.portCopy e dst src n)
       else if row % elemBytes ty ≠ 0 then .error (.trap (.at .align .atomic row))
       else done (elemBytes ty) (s.portAdd e ty dst src))
  | .row _ _ => .error (.wait none)

-- The row collective (R420).

/-- The participants of an instance whose jobs head their lanes: tile, lane, job. -/
def State.rowJobs (s : State) (r : RowInst) : List (Nat × Nat × PorterJob) :=
  ((List.range 8).filter fun x => r.mask.getLsbD x).flatMap fun x =>
    let tile := r.quad * 64 + r.row * 8 + x
    (List.range 2).flatMap fun lane => match s.laneHead tile lane with
      | some j => if j.rowInst == some r.inst && j.run.getD 16 == r.run &&
          ((rowParts j.ins).map fun q => q.2.2.2.toNat) == some r.tag then [(tile, lane, j)] else []
      | none => []
/-- The instance a job joined. -/
def State.rowOf? (s : State) (tile : Nat) (j : PorterJob) : Option RowInst :=
  match rowParts j.ins, j.rowInst with
  | some (_, _, _, tag), some k => s.rows.find? fun r => r.quad == dieOfTile tile && r.row == dieRow tile &&
      r.tag == tag.toNat && r.run == j.run.getD 16 && r.inst == k
  | _, _ => none

/-- Combine one element of the eight columns (R274, R420). -/
def rowSum (op : RowOp) (f : Fmt) (v : List Nat) : Nat :=
  (treeReduce (fredCombine (match op with | .max => .max | _ => .sum) f .rne) 3 v).headD 0
/-- Combine one pair of the eight columns (R356, R420). -/
def rowMerge (f : Fmt) (v : List (Nat × Nat)) : Nat × Nat :=
  (treeReduce (fun (a b : Nat × Nat) =>
    let m := mergePair (f.value a.1) (f.value a.2) (f.value b.1) (f.value b.2)
    (f.rne m.1, f.rne m.2)) 3 v).headD (0, 0)
/-- The result of n bytes of every column's source; none for a column outside the mask. -/
def rowResult (op : RowOp) (ty : Ty) (n : Nat) (cols : List (Option Nat)) : Nat :=
  let f := ty.fmt
  let w := ty.fixedWidth
  let count := n / elemBytes ty
  let el (x i : Nat) : Nat := (x >>> (w * i)) % 2 ^ w
  match op with
  | .merge =>
    packElems w ((List.range (count / 2)).flatMap fun i =>
      let r := rowMerge f (cols.map fun c => match c with
        | some x => (el x (2 * i), el x (2 * i + 1))
        | none => (f.rne (.inf true), f.rne (.fin false 0 0)))
      [r.1, r.2])
  | _ =>
    packElems w ((List.range count).map fun i =>
      rowSum op f (cols.map fun c => match c with
        | some x => el x i
        | none => fredUnit (match op with | .max => .max | _ => .sum) f))

/-- Read every participant's source: the values by tile and the poisoned stretches, or the participant that stops and why. -/
def State.rowRead (s : State) (n : Nat) : List (Nat × Nat × PorterJob) →
    Except (Nat × Nat × PorterJob × Stop) (List (Nat × Nat) × List (Nat × Nat) × State)
  | [] => .ok ([], [], s)
  | (tile, lane, j) :: r =>
    match s.engRead (j.eng tile lane) ((j.src.toNat + j.progress) % 2 ^ 56) n with
    | .error y => .error (tile, lane, j, y)
    | .ok (v, bad, s) =>
      match s.rowRead n r with
      | .error y => .error y
      | .ok (vs, b, s) => .ok ((tile, v) :: vs, bad ++ b, s)
/-- Locate every participant's destination. -/
def State.rowReach (s : State) (n : Nat) : List (Nat × Nat × PorterJob) →
    Except (Nat × Nat × PorterJob × Stop) (List (List Located) × State)
  | [] => .ok ([], s)
  | (tile, lane, j) :: r =>
    match s.engReach (j.eng tile lane) .write (pieces ((j.dst.toNat + j.progress) % 2 ^ 56) n) with
    | .error y => .error (tile, lane, j, y)
    | .ok (ls, s) =>
      match s.rowReach n r with
      | .error y => .error y
      | .ok (lss, s) => .ok (ls :: lss, s)

/-- The next bytes of a started instance: every source is read and every destination located before any is written, so that
all destinations receive the result (log entry 15). An element with a poisoned source is poisoned (R41). -/
def State.rowLine (s : State) (r : RowInst) : Except (Nat × Nat × PorterJob × Stop) State :=
  let js := s.rowJobs r
  match js with
  | [] => .ok s
  | (_, _, j0) :: _ =>
    if js.length ≠ popCount 8 r.mask.toNat ∨ js.any fun x => s.laneHeld x.1 x.2.1 then .ok s
    else
      let n := Nat.min 128 (r.elems * elemBytes r.ty - j0.progress)
      match s.rowRead n js with
      | .error y => .error y
      | .ok (vs, bad, s) =>
        let g := elemBytes r.ty * (if r.op = .merge then 2 else 1)
        let bad := bad.map fun b => (b.1 / g * g, (b.1 + b.2 + g - 1) / g * g - b.1 / g * g)
        let v := rowResult r.op r.ty n ((List.range 8).map fun x => (vs.find? fun p => p.1 % 8 == x).map fun p => p.2)
        match s.rowReach n js with
        | .error y => .error y
        | .ok (lss, s) =>
          .ok ((js.zip lss).foldl (fun s p =>
            let j := p.1.2.2
            let s := s.engWrite (j.eng p.1.1 p.1.2.1) ((j.dst.toNat + j.progress) % 2 ^ 56) v n p.2 bad
            s.onLaneJob p.1.1 p.1.2.1 j.id (PorterJob.moved n)) s)

/-- A row instance that none of its jobs needs any more goes. -/
def State.tidyRows (s : State) : State :=
  { s with rows := s.rows.filter fun r => !((r.started || r.faulted) && r.joined == r.mask) ||
      (List.range 8).any fun x => (List.range 2).any fun lane =>
        ((s.engine (r.quad * 64 + r.row * 8 + x)).lanes.getD lane []).any fun j =>
          s.rowOf? (r.quad * 64 + r.row * 8 + x) j == some r }

/-- An instance ends faulted: every job that joined it leaves its lane, with no bump (R420). -/
def State.endRow (s : State) (r : RowInst) : State :=
  ((List.range 8).foldl (fun s x =>
    let t := r.quad * 64 + r.row * 8 + x
    (List.range 2).foldl (fun s lane =>
      (((s.engine t).lanes.getD lane []).filter fun j => s.rowOf? t j == some r).foldl
        (fun s j => s.endPorter t lane j.id true) s) s) s).tidyRows
/-- PRROW_INSTANCE_START: the instance of a tile's next job with this tag starts once every masked tile has joined, or ends
faulted on every participant when they disagree (R420) (log entry 15). -/
def State.rowStart (s : State) (tile tag : Nat) : State :=
  let here (r : RowInst) : Bool := r.quad == dieOfTile tile && r.row == dieRow tile && r.tag == tag && !r.started &&
    (r.faulted || r.joined == r.mask)
  match s.rows.find? here with
  | none => s
  | some r =>
    if r.faulted then s.endRow r
    else if (s.rowJobs r).length = popCount 8 r.mask.toNat then
      { s with rows := s.rows.map fun x => if x = r then { r with started := true } else x }
    else s

-- Events.

/-- A job's record (R417): SRC 1, its id and byte-progress; the lane waits. -/
def State.portRaise (s : State) (tile lane : Nat) (j : PorterJob) (t : Trap) : State :=
  let e := s.engine tile
  (s.setEngine tile { e with pfault := e.pfault.set lane true }).raise (.porter tile lane) 1 j.run tile j.key j.id
    (BitVec.ofNat 64 j.progress) t

/-- What a lane's next line request does: the state after, or the job that stops and why. -/
def State.portNext (s : State) (tile lane : Nat) : Except (Nat × Nat × PorterJob × Stop) State :=
  match s.laneHead tile lane with
  | none => .ok s
  | some j => match portSpec j.ins with
    | none => .ok s
    | some p =>
      if s.laneHeld tile lane || decide (p.total j.cval j.count ≤ j.progress) then .ok s
      else match p.kind, s.rowOf? tile j with
        | .row _ _, some r => if r.started && !r.faulted then s.rowLine r else .ok s
        | .row _ _, none => .ok s
        | _, _ => match s.portLine (j.eng tile lane) p j with
          | .error y => .error (tile, lane, j, y)
          | .ok (n, s) => .ok (s.onLaneJob tile lane j.id (PorterJob.moved n))

/-- A job that stops: its record is raised, or it waits with what its wait sends to the home (R59, R417). -/
def State.portStop (s : State) (tile lane : Nat) (j : PorterJob) (y : Stop) : State :=
  match s.stopped j.run y with
  | (some x, s) => s.portRaise tile lane j x
  | (none, s) => s
/-- PORTER_LINE_REQUEST (R414). -/
def State.porterLine (s : State) (tile lane : Nat) : State :=
  match s.portNext tile lane with
  | .ok s => s
  | .error (t, l, j, y) => s.portStop t l j y

/-- The source bump of a job, if it is due now (R415): the job that stops and why, and the state after. -/
def State.sourceBump (s : State) (tile lane : Nat) : Option (PorterJob × Stop) × State :=
  match s.laneHead tile lane with
  | none => (none, s)
  | some j => match portSpec j.ins with
    | none => (none, s)
    | some p =>
      if s.laneHeld tile lane || !p.sct || j.srcBumped || decide (j.progress < p.total j.cval j.count) ||
          ((rowParts j.ins).isSome && !((s.rowOf? tile j).any fun r => r.started && !r.faulted)) then (none, s)
      else match s.engBump (j.eng tile lane) (j.sctr.toNat % 2 ^ 56) (p.sourceBytes j.cval j.count) p.ssc with
        | (some y, s) => (some (j, y), s)
        | (none, s) => (none, s.onLaneJob tile lane j.id fun j => { j with srcBumped := true, remotes := [] })
/-- PORTER_SOURCE_BUMP (R415). -/
def State.porterSource (s : State) (tile lane : Nat) : State :=
  match s.sourceBump tile lane with
  | (none, s) => s
  | (some (j, y), s) => s.portStop tile lane j y

/-- The completion of a job, if it is due now (R415). -/
def State.destBump (s : State) (tile lane : Nat) : Option (PorterJob × Stop) × State :=
  match s.laneHead tile lane with
  | none => (none, s)
  | some j => match portSpec j.ins with
    | none => (none, s)
    | some p =>
      if s.laneHeld tile lane || decide (j.progress < p.total j.cval j.count) || (p.sct && !j.srcBumped) ||
          ((rowParts j.ins).isSome && !((s.rowOf? tile j).any fun r => r.started && !r.faulted)) then (none, s)
      else if !p.dct then (none, (s.endPorter tile lane j.id false).tidyRows)
      else match s.engBump (j.eng tile lane) (j.dctr.toNat % 2 ^ 56) (p.total j.cval j.count) p.dsc with
        | (some y, s) => (some (j, y), s)
        | (none, s) => (none, (s.endPorter tile lane j.id false).tidyRows)
/-- PORTER_JOB_COMPLETE (R415). -/
def State.porterComplete (s : State) (tile lane : Nat) : State :=
  match s.destBump tile lane with
  | (none, s) => s
  | (some (j, y), s) => s.portStop tile lane j y

/-- PORTER_FAULT: the head job's next line, or bump, faults: its record is raised and the lane waits (R417). -/
def State.porterFault (s : State) (tile lane : Nat) : State :=
  match s.portNext tile lane with
  | .error (t, l, j, y) => s.portStop t l j y
  | .ok _ => match s.sourceBump tile lane with
    | (some (j, y), s) => s.portStop tile lane j y
    | (none, _) => match s.destBump tile lane with
      | (some (j, .trap x), s) => s.portStop tile lane j (.trap x)
      | _ => s

/-- PORTER_LINE_REQUEST (R414). -/
def execPorterLineRequest (tile lane : Nat) (s : State) : Out := .next (s.porterLine tile lane)
/-- PORTER_SOURCE_BUMP (R415). -/
def execPorterSourceBump (tile lane : Nat) (s : State) : Out := .next (s.porterSource tile lane)
/-- PORTER_JOB_COMPLETE (R415). -/
def execPorterJobComplete (tile lane : Nat) (s : State) : Out := .next (s.porterComplete tile lane)
/-- PORTER_FAULT (R417). -/
def execPorterFault (tile lane : Nat) (s : State) : Out := .next (s.porterFault tile lane)
/-- PRROW_INSTANCE_START (R420). -/
def execPrrowInstanceStart (tile tag : Nat) (s : State) : Out := .next (s.rowStart tile tag)

end Sys2Proof.Machine
end

