-- ==== Sys2Proof/Machine/Matrix.lean ====
section
/-! DEFINITION. The matrix engine: the five job instructions of opcode 0x7E (R421 to R429), and the steps of its jobs
(R423, R430 to R437). -/
namespace Sys2Proof.Machine
open Sys2Proof

/-- What a matrix job does. -/
inductive MatKind where
  | mul
  | quant
  | block
  | load
  | store
deriving DecidableEq, Repr

/-- The control word and ldc of a job, read by their layout (R424, R425). -/
structure MatSpec where
  kind : MatKind
  tc : Ty
  ctl : Nat
  ldc : Nat
deriving DecidableEq, Repr

/-- The job of an instruction; none for any other instruction. -/
def matSpec (i : Instr) : Option MatSpec :=
  match i with
  | .mma _ tc ctl ldc _ _ _ _ _ => some ⟨.mul, tc, ctl.toNat, ldc.toNat⟩
  | .mmaq _ tc ctl ldc _ _ _ _ _ => some ⟨.quant, tc, ctl.toNat, ldc.toNat⟩
  | .mmab _ tc ctl ldc _ _ _ _ _ => some ⟨.block, tc, ctl.toNat, ldc.toNat⟩
  | .accld _ tc ctl ldc _ _ _ => some ⟨.load, tc, ctl.toNat, ldc.toNat⟩
  | .accst _ tc ctl ldc _ _ _ => some ⟨.store, tc, ctl.toNat, ldc.toNat⟩
  | _ => none

/-- The type a code names; the reserved codes name none here. -/
def tyOfNum (c : Nat) : Option Ty :=
  match c with
  | 0 => some .none | 1 => some .s8 | 5 => some .n8 | 9 => some .s4 | 10 => some .n4 | 11 => some .f16 | 12 => some .bf16
  | 13 => some .f32 | 14 => some .f64 | 15 => some .w80 | 16 => some .e4m3 | 17 => some .e5m2 | 18 => some .q4
  | n => if 24 ≤ n ∧ n < 32 then some (.nf (BitVec.ofNat 3 n)) else none

/-- TA. -/
def MatSpec.ta (p : MatSpec) : Nat := bitsOf p.ctl 0 5
/-- TB. -/
def MatSpec.tb (p : MatSpec) : Nat := bitsOf p.ctl 5 5
/-- TRA: A is stored K × M. -/
def MatSpec.tra (p : MatSpec) : Bool := bitOf p.ctl 10
/-- TRB: B is stored N × K. -/
def MatSpec.trb (p : MatSpec) : Bool := bitOf p.ctl 11
/-- CIN. -/
def MatSpec.cin (p : MatSpec) : Nat := bitsOf p.ctl 12 2
/-- COUT. -/
def MatSpec.cout (p : MatSpec) : Bool := bitOf p.ctl 14
/-- SLOT. -/
def MatSpec.slot (p : MatSpec) : Nat := bitsOf p.ctl 15 3
/-- RM as its code. -/
def MatSpec.rmNum (p : MatSpec) : Nat := bitsOf p.ctl 18 3
/-- RM. -/
def MatSpec.rm (p : MatSpec) : Rm := match p.rmNum with | 0 => .rne | 1 => .rtz | 2 => .rdn | _ => .rup
/-- SAT. -/
def MatSpec.sat (p : MatSpec) : Bool := bitOf p.ctl 21
/-- CTR. -/
def MatSpec.ctr (p : MatSpec) : Bool := bitOf p.ctl 22
/-- CSC as its code. -/
def MatSpec.cscNum (p : MatSpec) : Nat := bitsOf p.ctl 23 3
/-- CSC. -/
def MatSpec.csc (p : MatSpec) : Scope := scopeOfNum p.cscNum

/-- The form multiplies. -/
def MatSpec.multiplies (p : MatSpec) : Bool := match p.kind with | .mul | .quant | .block => true | _ => false
/-- Memory C is used (R424). -/
def MatSpec.usesC (p : MatSpec) : Bool := !p.multiplies || p.cin == 1 || !p.cout
/-- A slot is used. -/
def MatSpec.usesSlot (p : MatSpec) : Bool := !p.multiplies || p.cin == 2 || p.cout
/-- The job reads a slot (R423, R434). -/
def MatSpec.readsSlot (p : MatSpec) : Bool := match p.kind with | .store => true | .load => false | _ => p.cin == 2
/-- The job writes a slot. -/
def MatSpec.writesSlot (p : MatSpec) : Bool := match p.kind with | .load => true | .store => false | _ => p.cout

/-- M of the dimension register (R426). -/
def dimM (dims : BitVec 64) : Nat := bitsOf dims.toNat 0 16
/-- N. -/
def dimN (dims : BitVec 64) : Nat := bitsOf dims.toNat 16 16
/-- K. -/
def dimK (dims : BitVec 64) : Nat := bitsOf dims.toNat 32 32
/-- The low half of a register: lda, LS0. -/
def lowHalf (v : BitVec 64) : Nat := bitsOf v.toNat 0 32
/-- The high half: ldb, LS1. -/
def highHalf (v : BitVec 64) : Nat := bitsOf v.toNat 32 32
/-- ⌈a / b⌉. -/
def ceilDiv (a b : Nat) : Nat := (a + b - 1) / b
/-- The group size of MQ3 (R427). -/
def groupSize (mq3 : BitVec 64) : Nat := 32 * 2 ^ bitsOf mq3.toNat 0 2
/-- ZP of MQ3. -/
def zeroPoints (mq3 : BitVec 64) : Bool := mq3.getLsbD 2

/-- The width of an operand's type, with the FMTn of the job. -/
def operandWidth (fmt : List (BitVec 64)) : Ty → Nat
  | .nf k => (nfFields (fmt.getD k.toNat 0)).width
  | ty => ty.fixedWidth
/-- An .nf type is usable (R262). -/
def operandUsable (fmt : List (BitVec 64)) : Ty → Bool
  | .nf k => (nfFields (fmt.getD k.toNat 0)).usable
  | _ => true
/-- The value of an operand's code (R260, R263, R264). -/
def operandValue (fmt : List (BitVec 64)) (ty : Ty) (code : Nat) : Fl :=
  match ty with
  | .nf k => (nfFields (fmt.getD k.toNat 0)).fmt.value code
  | ty =>
    if ty.signed then Fl.int (signedOf ty.fixedWidth code)
    else if ty.unsigned then Fl.int ((code : Nat) : Int)
    else ty.fmt.value code

/-- TA and TB are accepted by the form (R429). -/
def MatSpec.typesOk (p : MatSpec) : Bool :=
  let float8 (c : Nat) : Bool := c == 16 || c == 17 || decide (24 ≤ c)
  let any (c : Nat) : Bool := [1, 5, 9, 10, 11, 12].contains c || float8 c
  match p.kind with
  | .mul => any p.ta && any p.tb
  | .quant => p.ta == 12 && p.tb == 18 && p.trb
  | .block => float8 p.ta && float8 p.tb
  | _ => bitsOf p.ctl 0 12 == 0 && p.cin == 0 && !p.cout
/-- The types of A and B. -/
def MatSpec.tyA (p : MatSpec) : Ty := (tyOfNum p.ta).getD .none
/-- The type of B. -/
def MatSpec.tyB (p : MatSpec) : Ty := (tyOfNum p.tb).getD .none

/-- The reserved fields of a job instruction: C and ldc where no memory C is used (R297, R425), and the reserved scopes (R301). They
trap as a decode check (R293). -/
def MatSpec.undecoded (p : MatSpec) (c : GReg) : Bool :=
  (!p.usesC && (c != 0 || p.ldc != 0)) || decide (6 ≤ p.cscNum)

/-- The ILLOP checks of R429 step 1 on the control word and the latched values, the register numbers apart (log entry 26). -/
def MatSpec.refused (p : MatSpec) (c : GReg) (dims lds : BitVec 64) (mq fmt : List (BitVec 64)) : Bool :=
  let m := dimM dims
  let n := dimN dims
  let k := dimK dims
  let wa := operandWidth fmt p.tyA
  let wb := operandWidth fmt p.tyB
  let tc := p.tc
  let tcOk := tc == .f16 || tc == .bf16 || tc == .f32 || tc == .f64 || tc == .w80
  let lda := lowHalf lds
  let ldb := highHalf lds
  p.undecoded c || !p.typesOk || !operandUsable fmt p.tyA || !operandUsable fmt p.tyB ||
  (if p.usesC then !tcOk else tc != .none) ||
  p.cin == 3 || decide (4 ≤ p.rmNum) ||
  ((p.rmNum != 0 || p.sat) && (p.cout || tc == .w80 || p.kind == .load)) ||
  decide (2 ^ 26 ≤ p.ctl) || (p.cscNum != 0 && !p.ctr) ||
  decide (2 ^ 31 ≤ k) || (!p.multiplies && k != 0) ||
  (p.usesSlot && (decide (64 < m) || decide (64 < n))) ||
  (p.usesC && decide (p.ldc < n)) ||
  (p.multiplies &&
    (decide (lda < (if p.tra then m else k)) || decide (ldb < (if p.trb then k else n)) ||
     (decide (wa < 8) && (p.tra || lda % 32 != 0)) || (decide (wb < 8) && (!p.trb || ldb % 32 != 0)))) ||
  (match p.kind with
   | .quant => decide (lowHalf (mq.getD 2 0) < ceilDiv k (groupSize (mq.getD 3 0)))
   | .block => decide (lowHalf (mq.getD 2 0) < ceilDiv k 32) || decide (highHalf (mq.getD 2 0) < ceilDiv k 32)
   | _ => false)

/-- The bases of R429 step 2 that must be aligned, with what they must be multiples of. -/
def MatSpec.bases (p : MatSpec) (a b c : BitVec 64) (mq fmt : List (BitVec 64)) : List (Nat × Nat × Acc) :=
  let size (w : Nat) : Nat := if w < 8 then 8 else w / 8
  (if p.multiplies then [(a.toNat % 2 ^ 56, size (operandWidth fmt p.tyA), .read),
                         (b.toNat % 2 ^ 56, size (operandWidth fmt p.tyB), .read)] else []) ++
  (if p.usesC then [(c.toNat % 2 ^ 56, p.tc.fixedWidth / 8, if p.cin == 1 || p.kind == .load then .read else .write)]
   else []) ++
  (if p.kind == .quant then [((mq.getD 0 0).toNat % 2 ^ 56, 2, .read)] else [])
/-- The first base that is not aligned (log entry 26). -/
def misaligned (bs : List (Nat × Nat × Acc)) : Option Trap :=
  (bs.find? fun b => b.1 % b.2.1 != 0).map fun b => .at .align b.2.2 b.1

/-- A register e + k exists. -/
def pastG (e : GReg) (k : Nat) : Bool := decide (15 < e.toNat + k)

/-- A matrix job instruction (R421, R429). -/
def matOp (i : Instr) (s : State) (h : Hdr) (d a b c e : GReg) : Out :=
  match matSpec i with
  | none => .next s
  | some p =>
    let ops := if p.multiplies then [numG a, numG b] ++ (if pastG e 1 then [] else [numG (e + 1)]) else []
    let names := [numG d, numG e] ++ ops ++ (if p.usesC then [numG c] else []) ++
      (if p.ctr && !pastG e 2 then [numG (e + 2)] else [])
    memOp s h 16 names (fun _ => p.undecoded c) fun t =>
      let th := s.focus
      let dims := t.getG e
      let lds := if p.multiplies then t.getG (e + 1) else 0
      if pastG e 1 || (p.ctr && pastG e 2) || p.refused c dims lds t.mq t.fmt then s.trap th (.plain .illop)
      else match misaligned (p.bases (t.getG a) (t.getG b) (t.getG c) t.mq t.fmt) with
        | some x => s.trap th x
        | none =>
          let j : MatrixJob :=
            { id := 0, ins := i, aval := (if p.multiplies then t.getG a else 0), bval := (if p.multiplies then t.getG b else 0),
              cval := (if p.usesC then t.getG c else 0), dims := dims, lds := lds,
              ctrva := (if p.ctr then t.getG (e + 2) else 0), mq := t.mq, fmt := t.fmt, run := t.task.map fun k => k.run,
              runid := s.runidOf t, key := t.key, launch := (match t.task with | some k => k.launch | none => 0), th := th,
              task := (match t.task with | some k => k.id | none => 0), hint := h.ch, rp := 0, started := false, remotes := [] }
          s.forkJob th 0 t (.matrix j) d 16

/-- mma. -/
def execMma (h : Hdr) (tc : Ty) (ctl ldc : BitVec 32) (d a b c e : GReg) (s : State) : Out :=
  matOp (.mma h tc ctl ldc d a b c e) s h d a b c e
/-- mmaq. -/
def execMmaq (h : Hdr) (tc : Ty) (ctl ldc : BitVec 32) (d a b c e : GReg) (s : State) : Out :=
  matOp (.mmaq h tc ctl ldc d a b c e) s h d a b c e
/-- mmab. -/
def execMmab (h : Hdr) (tc : Ty) (ctl ldc : BitVec 32) (d a b c e : GReg) (s : State) : Out :=
  matOp (.mmab h tc ctl ldc d a b c e) s h d a b c e
/-- accld. -/
def execAccld (h : Hdr) (tc : Ty) (ctl ldc : BitVec 32) (d c e : GReg) (s : State) : Out :=
  matOp (.accld h tc ctl ldc d c e) s h d 0 0 c e
/-- accst. -/
def execAccst (h : Hdr) (tc : Ty) (ctl ldc : BitVec 32) (d c e : GReg) (s : State) : Out :=
  matOp (.accst h tc ctl ldc d c e) s h d 0 0 c e

-- The steps of a job.

/-- The job the engine runs. -/
def State.matHead (s : State) (tile : Nat) : Option MatrixJob := (s.engine tile).mq.head?
/-- Change a job of the queue. -/
def State.onMatJob (s : State) (tile id : Nat) (f : MatrixJob → MatrixJob) : State :=
  let e := s.engine tile
  s.setEngine tile { e with mq := e.mq.map fun j => if j.id = id then f j else j }
/-- The accessing agent of a job (R435) (log entry 17). -/
def MatrixJob.eng (j : MatrixJob) (tile : Nat) : Eng :=
  { agent := .matrix tile, tile := tile, run := j.run, key := j.key, issuer := coreOf j.th, th := j.th, hint := j.hint,
    remotes := j.remotes }
/-- Block columns of a job. -/
def MatrixJob.nbc (j : MatrixJob) : Nat := ceilDiv (dimN j.dims) 64
/-- Blocks of a job (R430, R433, R434). -/
def MatrixJob.blocks (j : MatrixJob) : Nat := ceilDiv (dimM j.dims) 64 * j.nbc

/-- Entry (i, j) of slot n of a tile. -/
def slotKey (tile n i j : Nat) : Nat := 4096 * (tile * 8 + n) + i * 64 + j
/-- Read a slot entry. -/
def State.slotVal (s : State) (tile n i j : Nat) : Fl :=
  Fmt.w80.value (Sparse.getD s.acc (slotKey tile n i j) 0).toNat
/-- Write a slot entry. -/
def State.setSlot (s : State) (tile n i j : Nat) (v : Fl) : State :=
  { s with acc := Sparse.set s.acc (slotKey tile n i j) (BitVec.ofNat 80 (Fmt.w80.rne v)) }

/-- Read elements one after another, each at its address. -/
def State.matRead (s : State) (e : Eng) : List (Nat × Nat) → Except Stop (List Nat × State)
  | [] => .ok ([], s)
  | (va, n) :: r =>
    match s.engReadClean e va n with
    | .error y => .error y
    | .ok (v, s) => match s.matRead e r with
      | .error y => .error y
      | .ok (vs, s) => .ok (v :: vs, s)
/-- Where element x of width w of an operand lies: address, bytes, and the bit within them (R428). -/
def elemPlace (base : BitVec 64) (x w : Nat) : Nat × Nat × Nat :=
  let bit := w * x
  ((base.toNat + bit / 8) % 2 ^ 56, (bit % 8 + w + 7) / 8, bit % 8)
/-- Why a packed block of n bytes can not be read, its part at the higher address first (R266); none where it can. -/
def State.blockStop (s : State) (e : Eng) (va n : Nat) : Option Stop :=
  (pieces va n).reverse.findSome? fun q => match s.engReadClean e q.1 q.2 with
    | .error y => some y
    | .ok _ => none
/-- Why a block of 32 elements that holds an element of a packed A or B can not be read (R266, R428) (log entry 26). -/
def State.packedStop (s : State) (e : Eng) (base : BitVec 64) (w : Nat) (xs : List Nat) : Option Stop :=
  if w < 8 then (xs.map (· / 32)).eraseDups.findSome? fun b => s.blockStop e (base.toNat + 4 * w * b) (4 * w) else none
/-- Read elements of one operand: their codes. -/
def State.matElems (s : State) (e : Eng) (base : BitVec 64) (w : Nat) (xs : List Nat) : Except Stop (List Nat × State) :=
  let ps := xs.map fun x => elemPlace base x w
  match s.matRead e (ps.map fun p => (p.1, p.2.1)) with
  | .error y => .error y
  | .ok (vs, s) => .ok ((vs.zip ps).map fun v => (v.1 >>> v.2.2.2) % 2 ^ w, s)

/-- Read elements of A or B: their codes, the packed blocks of a packed operand whole. -/
def State.matOperand (s : State) (e : Eng) (base : BitVec 64) (w : Nat) (xs : List Nat) : Except Stop (List Nat × State) :=
  match s.packedStop e base w xs with
  | some y => .error y
  | none => s.matElems e base w xs

/-- The value of an E8M0 scale over 2^−127: a power to multiply by, or NaN (R276, R432). -/
def scaleBy (code : Nat) (x : Fl) : Fl := if code = 0xFF then .nan else x.scale ((code : Int) - 127)
/-- Expand of R275 and R431. -/
def expandWeight (zp : Bool) (q z scale : Nat) : Fl :=
  let v : Int := if zp then ((q : Nat) : Int) - ((z : Nat) : Int) else signedOf 4 q
  let x := (Fl.int v).mul (Fmt.bf16.value scale)
  Fmt.bf16.value (Fmt.bf16.rne x)

/-- Column k of A for rows is, and row k of B for columns js, as the values whose products are added (R430 to R432) (log entry
26). -/
def State.matStep (s : State) (e : Eng) (p : MatSpec) (j : MatrixJob) (is js : List Nat) (k : Nat) :
    Except Stop (List Fl × List Fl × State) :=
  let lda := lowHalf j.lds
  let ldb := highHalf j.lds
  let mq (n : Nat) : BitVec 64 := j.mq.getD n 0
  let ls0 := lowHalf (mq 2)
  let ls1 := highHalf (mq 2)
  match s.matOperand e j.aval (operandWidth j.fmt p.tyA) (is.map fun i => if p.tra then k * lda + i else i * lda + k) with
  | .error y => .error y
  | .ok (as, s) =>
    match s.matOperand e j.bval (operandWidth j.fmt p.tyB) (js.map fun c => if p.trb then c * ldb + k else k * ldb + c) with
    | .error y => .error y
    | .ok (bs, s) =>
      let av := as.map (operandValue j.fmt p.tyA)
      match p.kind with
      | .quant =>
        let g := k / groupSize (mq 3)
        (match s.matElems e (mq 0) 16 (js.map fun c => c * ls0 + g) with
         | .error y => .error y
         | .ok (ss, s) =>
           if !zeroPoints (mq 3) then .ok (av, (bs.zip ss).map fun x => expandWeight false x.1 0 x.2, s)
           else match s.matElems e (mq 1) 4 (js.map fun c => c * ls0 + g) with
             | .error y => .error y
             | .ok (zs, s) => .ok (av, (bs.zip (ss.zip zs)).map fun x => expandWeight true x.1 x.2.2 x.2.1, s))
      | .block =>
        let kb := k / 32
        (match s.matElems e (mq 0) 8 (is.map fun i => i * ls0 + kb) with
         | .error y => .error y
         | .ok (sa, s) => match s.matElems e (mq 1) 8 (js.map fun c => c * ls1 + kb) with
           | .error y => .error y
           | .ok (sb, s) =>
             .ok ((av.zip sa).map fun x => scaleBy x.2 x.1, (bs.zip sb).map fun x => scaleBy x.2 (operandValue j.fmt p.tyB x.1), s))
      | _ => .ok (av, bs.map (operandValue j.fmt p.tyB), s)

/-- One product added in W80 (R276). -/
def accStep (acc a b : Fl) : Fl := Fmt.w80.value (Fmt.w80.rne (acc.add .rne (a.mul b)))
/-- Add the products of k and of the later ones, in increasing k. -/
def State.matAccum (s : State) (e : Eng) (p : MatSpec) (j : MatrixJob) (is js : List Nat) :
    List Nat → List (List Fl) → Except Stop (List (List Fl) × State)
  | [], acc => .ok (acc, s)
  | k :: ks, acc =>
    match s.matStep e p j is js k with
    | .error y => .error y
    | .ok (as, bs, s) =>
      s.matAccum e p j is js ks ((acc.zip as).map fun r => (r.1.zip bs).map fun x => accStep x.1 r.2 x.2)

/-- Read the initial values of a block's rows from memory C, exactly widened (R430). -/
def State.matInitC (s : State) (e : Eng) (p : MatSpec) (j : MatrixJob) (js : List Nat) :
    List Nat → Except Stop (List (List Fl) × State)
  | [] => .ok ([], s)
  | i :: is =>
    match s.matElems e j.cval p.tc.fixedWidth (js.map fun c => i * p.ldc + c) with
    | .error y => .error y
    | .ok (vs, s) => match s.matInitC e p j js is with
      | .error y => .error y
      | .ok (rows, s) => .ok (vs.map (fun v => p.tc.fmt.value (v % 2 ^ p.tc.fmt.width)) :: rows, s)
/-- The initial values of a block (log entry 26). -/
def State.matInit (s : State) (e : Eng) (tile : Nat) (p : MatSpec) (j : MatrixJob) (is js : List Nat) :
    Except Stop (List (List Fl) × State) :=
  match p.kind with
  | .load => s.matInitC e p j js is
  | .store => .ok (is.map fun i => js.map fun c => s.slotVal tile p.slot i c, s)
  | _ => match p.cin with
    | 0 => .ok (is.map fun _ => js.map fun _ => .fin false 0 0, s)
    | 1 => s.matInitC e p j js is
    | _ => .ok (is.map fun i => js.map fun c => s.slotVal tile p.slot i c, s)

/-- Locate the rows of a block of C to be written. -/
def State.matReach (s : State) (e : Eng) : List (Nat × Nat) → Except Stop (List (List Located) × State)
  | [] => .ok ([], s)
  | (va, n) :: r =>
    match s.engReach e .write (pieces va n) with
    | .error y => .error y
    | .ok (ls, s) => match s.matReach e r with
      | .error y => .error y
      | .ok (lss, s) => .ok (ls :: lss, s)

/-- The results of a block go to memory C, every row located before one is written, or to the slot with its tag (R423,
R430, R434). -/
def State.matWrite (s : State) (e : Eng) (tile : Nat) (p : MatSpec) (j : MatrixJob) (is js : List Nat)
    (vs : List (List Fl)) : Except Stop State :=
  if p.writesSlot then
    let s : State := if p.kind == .load then { s with acc := s.acc.filter fun x => x.1 / 4096 != tile * 8 + p.slot } else s
    let s := (is.zip vs).foldl (fun s r => (js.zip r.2).foldl (fun s x => s.setSlot tile p.slot r.1 x.1 x.2) s) s
    .ok { s with accTag := Sparse.set s.accTag (tile * 8 + p.slot) j.runid }
  else
    let size := p.tc.fixedWidth / 8
    let rows := is.map fun i => ((j.cval.toNat + (i * p.ldc + js.headD 0) * size) % 2 ^ 56, js.length * size)
    match s.matReach e rows with
    | .error y => .error y
    | .ok (lss, s) =>
      .ok (((rows.zip lss).zip vs).foldl (fun s x =>
        let codes := x.2.map fun v => p.tc.fmt.roundTo p.rm 0 p.sat v
        s.engWrite e x.1.1.1 (packElems p.tc.fixedWidth codes) x.1.1.2 x.1.2 []) s)

/-- The tag of a slot; none where no run wrote it. -/
def State.slotTag (s : State) (tile n : Nat) : Option Nat := Sparse.get? s.accTag (tile * 8 + n)

/-- The engine requests nothing: its fault record has no reply yet, or its tile has stopped (R167, R176, R277, R437). -/
def State.matHeld (s : State) (tile : Nat) : Bool := (s.engine tile).mfault || s.tileStopped tile

/-- The next block of the engine's job: the state after, or the job that stops and why. -/
def State.matNext (s : State) (tile : Nat) : Except (MatrixJob × Stop) State :=
  match s.matHead tile with
  | none => .ok s
  | some j => match matSpec j.ins with
    | none => .ok s
    | some p =>
      if s.matHeld tile || !j.started || decide (j.blocks ≤ j.rp) then .ok s
      else
        let e := j.eng tile
        let bi := j.rp / j.nbc
        let bj := j.rp % j.nbc
        let is := (List.range 64).map (64 * bi + ·) |>.filter fun i => decide (i < dimM j.dims)
        let js := (List.range 64).map (64 * bj + ·) |>.filter fun c => decide (c < dimN j.dims)
        match s.matInit e tile p j is js with
        | .error y => .error (j, y)
        | .ok (acc, s) => match s.matAccum e p j is js (List.range (dimK j.dims)) acc with
          | .error y => .error (j, y)
          | .ok (vs, s) => match s.matWrite e tile p j is js vs with
            | .error y => .error (j, y)
            | .ok s => .ok (s.onMatJob tile j.id fun j => { j with rp := j.rp + 1, remotes := [] })

/-- A job's record (R437): SRC 2, its id and row-progress; the engine stops. -/
def State.matRaise (s : State) (tile : Nat) (j : MatrixJob) (t : Trap) : State :=
  (s.setEngine tile { s.engine tile with mfault := true }).raise (.matrix tile) 2 j.run tile j.key j.id
    (BitVec.ofNat 64 j.rp) t

/-- A job that stops: its record is raised, or it waits with what its wait sends to the home (R59, R437). -/
def State.matStop (s : State) (tile : Nat) (j : MatrixJob) (y : Stop) : State :=
  match s.stopped j.run y with
  | (some x, s) => s.matRaise tile j x
  | (none, s) => s

/-- MATRIX_JOB_START: the tag check of R423, of a job that starts or, resumed, restarts; one with no block to do reads no slot (R433) (log
entry 26). -/
def State.matStart (s : State) (tile : Nat) : State :=
  match s.matHead tile with
  | none => s
  | some j => match matSpec j.ins with
    | none => s
    | some p =>
      if s.matHeld tile || j.started then s
      else if p.readsSlot && decide (j.rp < j.blocks) && s.slotTag tile p.slot != some j.runid then s.endMatrix tile j.id true
      else s.onMatJob tile j.id fun j => { j with started := true }

/-- MATRIX_BLOCK_DONE (R430); a block that meets a fault raises its record instead (R437). -/
def State.matBlock (s : State) (tile : Nat) : State :=
  match s.matNext tile with
  | .ok s => s
  | .error (j, y) => s.matStop tile j y

/-- The completion of the engine's job, if it is due now (R436): the job that stops and why, and the state after. -/
def State.matEnd (s : State) (tile : Nat) : Option (MatrixJob × Stop) × State :=
  match s.matHead tile with
  | none => (none, s)
  | some j => match matSpec j.ins with
    | none => (none, s)
    | some p =>
      if s.matHeld tile || !j.started || decide (j.rp < j.blocks) then (none, s)
      else if !p.ctr then (none, s.endMatrix tile j.id false)
      else match s.engBump (j.eng tile) (j.ctrva.toNat % 2 ^ 56) 1 p.csc with
        | (some y, s) => (some (j, y), s)
        | (none, s) => (none, s.endMatrix tile j.id false)
/-- MATRIX_JOB_COMPLETE (R436). -/
def State.matComplete (s : State) (tile : Nat) : State :=
  match s.matEnd tile with
  | (none, s) => s
  | (some (j, y), s) => s.matStop tile j y

/-- MATRIX_JOB_FAULT: the next block, or the bump, faults: its record is raised and the engine stops (R437). -/
def State.matFault (s : State) (tile : Nat) : State :=
  match s.matNext tile with
  | .error (j, y) => s.matStop tile j y
  | .ok _ => match s.matEnd tile with
    | (some (j, .trap x), s) => s.matStop tile j (.trap x)
    | _ => s

/-- MATRIX_JOB_START (R423). -/
def execMatrixJobStart (tile : Nat) (s : State) : Out := .next (s.matStart tile)
/-- MATRIX_BLOCK_DONE (R430). -/
def execMatrixBlockDone (tile : Nat) (s : State) : Out := .next (s.matBlock tile)
/-- MATRIX_JOB_COMPLETE (R436). -/
def execMatrixJobComplete (tile : Nat) (s : State) : Out := .next (s.matComplete tile)
/-- MATRIX_JOB_FAULT (R437). -/
def execMatrixJobFault (tile : Nat) (s : State) : Out := .next (s.matFault tile)

end Sys2Proof.Machine
end

