-- ==== Sys2Proof/Machine/Faults.lean ====
section
/-! DEFINITION. The fault mailbox (R161 to R166): posting, FAULT_CFG and FAULT_HEAD, replies; fltwait (R333); page walks
and the release of private pages as steps (R168, R210); fatal faults (R167, R176 to R178). -/
namespace Sys2Proof.Machine
open Sys2Proof

-- The mailbox.

/-- FAULT_TAIL of a die. -/
def State.faultTail (s : State) (die : Nat) : Nat := s.reg (regKey die 0x0E1)
/-- FAULT_HEAD of a die. -/
def State.faultHead (s : State) (die : Nat) : Nat := s.reg (regKey die 0x0E2)
/-- Records in a ring: FAULT_TAIL − FAULT_HEAD modulo 2^32. -/
def State.faultCount (s : State) (die : Nat) : Nat := (s.faultTail die + 2 ^ 32 - s.faultHead die) % 2 ^ 32

-- fltwait (R333).

/-- fltwait ends: gD := the records in its die's ring, and the register is no longer pending. -/
def State.endFltwait (s : State) (th : Nat) (d : GReg) (len : Nat) (v : Nat) : State :=
  match s.thread? th with
  | none => s
  | some t => s.finish th len ((t.clearPend (numG d)).setG d (BitVec.ofNat 64 v))
/-- FLTWAIT_TIMEOUT: no cycle is left; a wait that is satisfied now returns its count. -/
def State.fltwaitTimeout (s : State) (th : Nat) : State :=
  match s.thread? th with
  | some t => match t.park with
    | .fltwait d 0 len => s.endFltwait th d len (s.faultCount (dieOfTile (tileOf th)))
    | _ => s
  | none => s
/-- A waiting fltwait sees a record. -/
def State.fltwaitLook (s : State) (th : Nat) : State :=
  match s.thread? th with
  | some t => match t.park with
    | .fltwait d _ len =>
      let n := s.faultCount (dieOfTile (tileOf th))
      if n = 0 then s else s.endFltwait th d len n
    | _ => s
  | none => s

/-- The number of the next record: its TOKEN differs from that of every record still waiting for its reply (R161) (log entry 7). -/
def State.tokenAt (n : Nat) : BitVec 32 := Config.tokenSalt ^^^ BitVec.ofNat 32 n
def State.nextToken (s : State) : Nat :=
  (((List.range (s.records.length + 1)).map fun k => s.tokens + k).find? fun n =>
    !(s.records.any fun r => r.token == some (State.tokenAt n))).getD s.tokens
/-- FAULT_POST: the first record that waits at a die is written to the ring, once it has room and EN is set (R163), and every
fltwait of the die sees it (R333). The device numbers its records, and mixes each number into the TOKEN (R161) (log entry 7).
-/
def State.faultPost (s : State) (die : Nat) : State :=
  let c := s.faultCfg
  match s.records.find? fun r => r.die == die && r.token.isNone with
  | none => s
  | some r =>
    if !c.1 || decide (c.2.2 ≤ s.faultCount die) then s
    else
      let n := s.nextToken
      let token := State.tokenAt n
      let tile := innkeeperTile die
      let off := c.2.1 + 64 * (s.faultTail die % c.2.2)
      let ws := r.words.set 0 (r.words.getD 0 0 ||| (token.setWidth 64 <<< 32))
      let image := packElems 64 (ws.map fun w => w.toNat)
      let s := s.stashWrite tile off (byteMask (off % 128) 64) (putLine 0 (off % 128) 64 image)
      let s : State := { s with
        tokens := n + 1,
        records := s.records.map fun x => if x = r ∧ s.records.find? (fun y => y.die == die && y.token.isNone) = some x then
          { x with token := some token } else x }
      let s := s.setReg (regKey die 0x0E1) ((s.faultTail die + 1) % 2 ^ 32)
      (s.threads.filter fun x => tileOf x.1 == tile).foldl (fun (s : State) x => s.fltwaitLook x.1) s

/-- A write to FAULT_HEAD: one that would pass FAULT_TAIL sets it equal (R163) (log entry 31). -/
def State.faultHeadWrite (s : State) (die v : Nat) : State :=
  let d := (v % 2 ^ 32 + 2 ^ 32 - s.faultHead die) % 2 ^ 32
  s.setReg (regKey die 0x0E2) (if s.faultCount die < d then s.faultTail die else v % 2 ^ 32)

/-- The ring a FAULT_CFG value names: first byte and bytes (R164). -/
def ringOf (v : Nat) : Nat × Nat := (4096 * (bitsOf v 12 8), 64 * 2 ^ Nat.min 12 (Nat.max 4 (bitsOf v 0 4)))
/-- Every ring is empty, so that a write to FAULT_CFG stores OFF and LOGN (R163). -/
def State.ringsEmpty (s : State) : Bool := (List.range 4).all fun d => s.faultCount d == 0
/-- A value of FAULT_CFG that a SYSW refuses with ILLOP (R164): a ring past the stash, or one that would move over a mapping (log
entry 31). -/
def State.faultCfgRefused (s : State) (v : Nat) : Bool :=
  let r := ringOf v
  decide (2 ^ 20 < r.1 + r.2) ||
    (s.ringsEmpty && r != ringOf (s.reg 0x0E0) && (List.range 4).any fun d => s.inMapped (innkeeperTile d) r.1 r.2)
/-- A write to FAULT_CFG: EN at once, OFF and LOGN while every ring is empty (R163). -/
def State.faultCfgWrite (s : State) (v : Nat) : State :=
  if s.faultCfgRefused v then s
  else
    let en := putField (s.reg 0x0E0) 63 1 (bitsOf v 63 1)
    if s.ringsEmpty then
      s.setReg 0x0E0 (putField (putField en 12 8 (bitsOf v 12 8)) 0 4 (bitsOf v 0 4))
    else s.setReg 0x0E0 en

-- Replies (R165, R166).

/-- Outcomes of faultreply. -/
inductive Reply where
  | retry
  | remote (page : Nat)
  | killTask
  | killRun
deriving DecidableEq, Repr

/-- The page a map-remote reply names: with the class and key slot of the leaf that faulted, or class U and slot 0 where there was none
(R166). -/
def Trap.remoteOf (tr : Trap) (page : Nat) : Remote :=
  let leaf := tr.leaf.getD (.u, 0)
  { page := page, cls := leaf.1, key := leaf.2 }
/-- An access that is served by a reply page where it falls on the page replied for (R165, R166): the trap of its parts there, if any. -/
def State.remoteTrap (s : State) (acc : Acc) (r : Nat × Remote) (ps : List Part) : Option Trap :=
  ps.findSome? fun p => if p.va / 2 ^ 16 != r.1 then none else match s.remoteLoc acc p.va p.len r.2 with
    | .error (.trap t) => some t
    | _ => none
/-- One part of it. -/
def State.remotePart (s : State) (acc : Acc) (r : Nat × Remote) (p : Part) : Part :=
  if p.va / 2 ^ 16 != r.1 then p else match s.remoteLoc acc p.va p.len r.2 with
    | .ok l => l.part
    | .error _ => p
/-- The access of a thread that was issued before its trap goes on as the instruction executed again would make it (R165): from the
parts that f makes of its parts. -/
def State.goOn (s : State) (th : Nat) (t : Thread) (f : Acc → Part → Part) : State :=
  ({ s with stores := s.stores.map fun x => if x.stopped && x.agent == .thread th then
      { x with stopped := false, part := f (if x.op.reads then .atomic else .write) x.part } else x } : State).setThread th
    { t with park := .run, outs := t.outs.map fun o => if o.stopped then { o with stopped := false, parts := o.parts.map (f o.acc) } else o }
/-- The access of a thread that was issued before its trap is given up. -/
def State.giveUp (s : State) (th : Nat) (t : Thread) : State :=
  let outs := t.outs.filter fun o => o.stopped
  let xs := (s.storesOf th).filter fun x => x.stopped
  let s := (outs.map (fun o => o.seq) ++ xs.map fun x => x.seq).foldl (fun (s : State) q => s.leaveS th q) (s.loseStores xs)
  s.setThread th (outs.foldl Thread.endOut t)
/-- A map-remote reply to a thread: the instruction executes again with the reply page, or the access issued before goes on at it. -/
def State.remoteThread (s : State) (th : Nat) (t : Thread) (tr : Trap) (r : Nat × Remote) : State :=
  match tr.pc, tr.word with
  | some pc, some word =>
    let xs := (s.storesOf th).filter fun x => x.stopped
    let bad := (t.outs.findSome? fun o => if o.stopped then s.remoteTrap o.acc r o.parts else none).orElse fun _ =>
      xs.findSome? fun x => s.remoteTrap (if x.op.reads then .atomic else .write) r [x.part]
    match bad with
    | some e => s.trap th (e.late pc word)
    | none => s.goOn th t fun acc p => s.remotePart acc r p
  | _, _ => s.setThread th { t with park := .run, remote := t.remote ++ [r] }
/-- A reply to a thread. -/
def State.replyThread (s : State) (th : Nat) (tr : Trap) (r : Reply) : State :=
  match s.thread? th with
  | none => s
  | some t =>
    if t.park ≠ .fault then s
    else match r with
      | .retry => s.goOn th t fun _ p => p
      | .remote page => s.remoteThread th t tr (tr.va / 2 ^ 16, tr.remoteOf page)
      | .killTask => (s.giveUp th t).onThread th fun t => { t with park := .run, ending := true }
      | .killRun => match t.task with
        | some k => s.orderKill k.run
        | none => s
/-- The task that issued a killed job, known by its number, ends as tend would at its next instruction boundary, if it still runs (R165).
-/
def State.endIssuer (s : State) (th task : Nat) : State :=
  s.onThread th fun t => if t.task.any fun k => k.id == task then { t with ending := true } else t
/-- An instance of the row collective, started or not, ends faulted when one of its participants is killed (R420). -/
def State.failRow (s : State) (tile : Nat) (j : PorterJob) : State :=
  match s.rowOf? tile j with
  | some r =>
    let dead := { r with faulted := true }
    ({ s with rows := s.rows.map fun x => if x = r then dead else x } : State).endRow dead
  | none => s
/-- A killed job of a lane leaves it, and with it the instance it joined (R165, R420). -/
def State.killJob (s : State) (tile lane : Nat) (j : PorterJob) : State :=
  let s := s.failRow tile j
  if s.jobLive tile j.id then s.endPorter tile lane j.id true else s
/-- A kill-task reply to the head job of a lane. -/
def State.killPorter (s : State) (tile lane : Nat) (j : PorterJob) : State := (s.killJob tile lane j).endIssuer j.th j.task
/-- A reply to a lane. -/
def State.replyPorter (s : State) (tile lane : Nat) (tr : Trap) (r : Reply) : State :=
  let e := s.engine tile
  if !e.pfault.getD lane false then s
  else
    let s := s.setEngine tile { e with pfault := e.pfault.set lane false }
    match s.laneHead tile lane with
    | none => s
    | some j => match r with
      | .retry => s
      | .remote page => s.onLaneJob tile lane j.id fun j => { j with remotes := j.remotes ++ [((tr.va / 128, tr.acc), tr.remoteOf page)] }
      | .killTask => s.killPorter tile lane j
      | .killRun => match j.run with
        | some n => s.orderKill n
        | none => s.killPorter tile lane j
/-- A reply to a matrix engine. -/
def State.replyMatrix (s : State) (tile : Nat) (tr : Trap) (r : Reply) : State :=
  let e := s.engine tile
  if !e.mfault then s
  else
    let s := s.setEngine tile { e with mfault := false }
    match s.matHead tile with
    | none => s
    | some j =>
      let kill (s : State) : State := (s.endMatrix tile j.id true).endIssuer j.th j.task
      match r with
      | .retry => s
      | .remote page => s.onMatJob tile j.id fun j => { j with remotes := j.remotes ++ [((tr.va / 128, tr.acc), tr.remoteOf page)] }
      | .killTask => kill s
      | .killRun => match j.run with
        | some n => s.orderKill n
        | none => kill s
/-- A reply to a Lodge's spill (R130). -/
def State.replyLodge (s : State) (tile : Nat) (run : Option Nat) (r : Reply) : State :=
  let s := s.setLodge tile { s.lodge tile with spillFault := false }
  match r, run with
  | .killRun, some n => s.orderKill n
  | _, _ => s
/-- A reply to the launch unit: for a read or a hint (R84), or for the bump of a counter, which a killed run's launch
repeats on a retry alone (R87, R183). -/
def State.replyLaunch (s : State) (id : Nat) (run : Option Nat) (r : Reply) : State :=
  let s := match r, run with
    | .killRun, some n => s.orderKill n
    | _, _ => s
  match s.launch? id with
  | none => s
  | some l => match l.phase with
    | .held => match r with
      | .retry | .remote _ => s.onLaunch id fun l => { l with phase := .ready }
      | _ => s.endLaunch id 4
    | .bumpHeld =>
      let again := match r with
        | .retry => true
        | .remote _ => l.status != some 4
        | _ => false
      if again then s.onLaunch id fun l => { l with phase := .bump } else s.retireLaunch l
    | _ => s
/-- A reply to one request of a record. -/
def State.replyAgent (s : State) (rec : Record) (r : Reply) (a : Agent × Nat) : State :=
  let tr := { rec.trap with va := a.2 }
  match a.1 with
  | .thread th => s.replyThread th tr r
  | .porter tile lane => s.replyPorter tile lane tr r
  | .matrix tile => s.replyMatrix tile tr r
  | .lodge tile => s.replyLodge tile rec.run r
  | .launch id => s.replyLaunch id rec.run r
  | .host => s
/-- FAULTREPLY acts on the posted record that a TOKEN names; with none it has no effect (R165, R334). -/
def State.faultReply (s : State) (token : BitVec 32) (r : Reply) : State :=
  match s.records.find? fun x => x.token == some token with
  | none => s
  | some x =>
    let s : State := { s with records := s.records.filter fun y => y.token != some token }
    x.requests.foldl (fun s a => s.replyAgent x r a) s

/-- Withdraw the records of one agent (R179, R183); an agent that others joined leaves the record to them. -/
def Record.without (x : Record) (a : Agent) : Option Record :=
  match x.requests.filter fun b => b.1 != a with
  | [] => none
  | b :: r => some { x with agent := b.1, trap := { x.trap with va := b.2 }, joined := r }
/-- Withdraw an agent from every record. -/
def State.withdraw (s : State) (a : Agent) : State := { s with records := s.records.filterMap fun x => x.without a }

-- Steps of translation.

/-- PAGE_WALK: a core's walk of a run's table, as it installs its leaf (R168, R171, R173); a walk that faults installs
nothing (R335). -/
def State.pageWalk (s : State) (run core va : Nat) (write : Bool) : State :=
  let w : Who := { agent := .thread (core * 8), tile := core / 8, core := some core,
                   run := if isInnkeeperCore core then none else some run, issuer := core, th := core * 8, remote := [] }
  match s.locate w (if write then .write else .read) va 1 with
  | .ok l => s.useWalk w write l
  | _ => s
/-- PRIVATE_RELEASE: the owner core of a private page gives up its copies and its translation, once its
fills under it are complete (R210). -/
def State.privateRelease (s : State) (core page : Nat) : State :=
  match s.tlb.find? fun e => e.unit == core && leafPa e.pte.toNat e.level 0 / 2 ^ 16 == page with
  | some e => if s.fillsPrivate core (leafPage e.pte.toNat e.level) then s else s.releasePrivate core e.pte.toNat e.level
  | none => s

-- Fatal faults (R43, R176 to R178).

/-- A run had a task, a job or a mapping on a tile. -/
def State.runOnTile (s : State) (tile run : Nat) : Bool :=
  let l := s.lodge tile
  let e := s.engine tile
  l.queue.any (fun t => t.run == run) || l.cq.any (fun x => x.2.task.run == run) || l.grids.any (fun g => g.run == run) ||
    !(l.blocksOf run).isEmpty || (s.tileThreads tile).any (fun x => x.2.task.any fun k => k.run == run) ||
    s.sent.any (fun x => x.tile == tile && x.task.run == run) || e.mq.any (fun j => j.run == some run) ||
    e.lanes.any (fun l => l.any fun j => j.run == some run) || s.stash.maps.any (fun m => m.tile == tile && m.run == run) ||
    (s.run run).returning.any fun x => tileOf x.1 == tile
/-- A saved run had one there when it was saved. -/
def State.savedOnTile (s : State) (tile : Nat) (x : SavedRun) : Bool :=
  x.jobs.any (fun j => j.1 / 128 == tile) || x.tasks.any (fun t => tileOf t.1 == tile) || x.maps.any (fun m => m.tile == tile) ||
    s.runOnTile tile (savedKey x.cfg.runid)
/-- A tile that keeps no copy of anything leaves one line's records (R43). -/
def State.leaveLine (s : State) (tile : Nat) (e : L2Entry) : State :=
  let e := e.forget (tile % 64)
  let s := s.setL2 e
  if e.left.isNone then (if (s.l3? e.line).isSome then s.settleL3 ((s.l3 e.line).setDie e.die none) else s)
  else (s.syncDie e.die e.line).settle e.line
/-- The copies of a fenced tile are lost: the global lines of its modified mapped lines become poisoned, and it is no sharer of any line
(R43, R177). -/
def State.loseStash (s : State) (tile : Nat) : State :=
  let mine := s.stash.lines.filter fun (l : MapLine) => l.tile == tile
  let s := (mine.filter fun (l : MapLine) => l.dirty).foldl
    (fun (s : State) (l : MapLine) => if s.mapPoison l then s.setPoison l.pa else s.poisonLine l.pa) s
  let s : State := { s with
    stash := { s.stash with lines := s.stash.lines.filter fun l => l.tile != tile, maps := s.stash.maps.filter fun m => m.tile != tile },
    coh := { s.coh with l1 := s.coh.l1.filter fun l => l.core / 8 != tile } }
  (s.coh.l2.filter fun e => e.die == dieOfTile tile && e.tiles.any fun r => r.1 == tile % 64).foldl
    (fun (s : State) e => s.leaveLine tile e) s
/-- FATAL_TILE_FAULT (R176). -/
def State.fatalTile (s : State) (tile : Nat) : State :=
  if isInnkeeperTile tile then s.fatalStop 0x176
  else
    let runs := (List.range 16).filter fun r => (s.run r).phase != .free && s.runOnTile tile r
    let k := 0x0E8 + tile / 64
    let s := s.setReg k (s.reg k ||| 2 ^ (tile % 64))
    let s := s.raise (.lodge tile) 5 none tile Key.zero 0 0 (.plain .tilefatal)
    let saved := (s.saved.filter (s.savedOnTile tile)).map fun x => savedKey x.cfg.runid
    (runs ++ saved).foldl (fun s r => s.orderKill r) (s.loseStash tile)

/-- FAULT_POST (R163). -/
def execFaultPost (die : Nat) (s : State) : Out := .next (s.faultPost die)
/-- FAULT_HEAD_WRITE (R163). -/
def execFaultHeadWrite (die : Nat) (v : BitVec 64) (s : State) : Out := .next (s.faultHeadWrite die v.toNat)
/-- FAULT_CFG_WRITE (R164). -/
def execFaultCfgWrite (v : BitVec 64) (s : State) : Out := .next (s.faultCfgWrite v.toNat)
/-- PAGE_WALK (R168). -/
def execPageWalk (run core va : Nat) (write : Bool) (s : State) : Out := .next (s.pageWalk run core va write)
/-- PRIVATE_RELEASE (R210). -/
def execPrivateRelease (core page : Nat) (s : State) : Out := .next (s.privateRelease core page)
/-- FATAL_TILE_FAULT (R176). -/
def execFatalTileFault (tile : Nat) (s : State) : Out := .next (s.fatalTile tile)
/-- DEVICE_FATAL_ERROR (R167). -/
def execDeviceFatalError (s : State) : Out := .next (s.fatalStop 0x167)
/-- FLTWAIT_TIMEOUT (R333). -/
def execFltwaitTimeout (th : Nat) (s : State) : Out := .next (s.fltwaitTimeout th)

end Sys2Proof.Machine
end

