-- ==== Sys2Proof/Machine/Runs.lean ====
section
/-! DEFINITION. Runs that leave their slot and come back (R80, R81, R179 to R181, R404, R438), and their ends (R89, R182,
R183). -/
namespace Sys2Proof.Machine
open Sys2Proof

-- The save area (R181).

/-- A run of 64-bit words that are zero. -/
def zeroWords (n : Nat) : List (BitVec 64) := List.replicate n 0
/-- Words, filled up with zeros to n. -/
def padWords (n : Nat) (w : List (BitVec 64)) : List (BitVec 64) := (w ++ zeroWords (n - w.length)).take n
/-- Two 32-bit halves as a word. -/
def halvesWord (lo hi : Nat) : BitVec 64 := BitVec.ofNat 64 (lo % 2 ^ 32 + 2 ^ 32 * (hi % 2 ^ 32))

/-- The image of a stream descriptor with its state fields (R190). -/
def Stream.words (x : Stream) : List (BitVec 64) :=
  let b (i : Nat) : Nat := x.bound.getD i 0
  let t (i : Nat) : Nat := (x.stride.getD i 0).toNat
  [ x.base.setWidth 64, halvesWord (b 0) (b 1), halvesWord (b 2) (b 3), halvesWord (t 0) (t 1), halvesWord (t 2) (t 3),
    BitVec.ofNat 64 (x.esz + 2 ^ 8 * x.dir.toNat + 2 ^ 16 * x.ch.toNat),
    BitVec.ofNat 64 (x.pos % 2 ^ 48 + 2 ^ 63 * x.bnd.toNat), x.addr.setWidth 64 ]
/-- A stream descriptor from its image. -/
def streamOfWords (w : List (BitVec 64)) : Stream :=
  let h (i k : Nat) : Nat := bitsOf (w.getD i 0).toNat (32 * k) 32
  let c := (w.getD 5 0).toNat
  let p := (w.getD 6 0).toNat
  { base := (w.getD 0 0).setWidth 56, bound := [h 1 0, h 1 1, h 2 0, h 2 1],
    stride := [h 3 0, h 3 1, h 4 0, h 4 1].map (BitVec.ofNat 32), esz := bitsOf c 0 3, dir := bitOf c 8,
    ch := BitVec.ofNat 3 (bitsOf c 16 3), pos := bitsOf p 0 48, bnd := bitOf p 63, addr := (w.getD 7 0).setWidth 56 }
/-- The image of the REPEAT state (R196). -/
def RepeatState.words (r : RepeatState) : List (BitVec 64) :=
  [ BitVec.ofNat 64 (2 ^ 63 * r.act.toNat + 2 ^ 56 * (r.next % 16) + 2 ^ 52 * (r.lenm % 16) + r.left % 2 ^ 32), r.start.setWidth 64 ]
/-- The REPEAT state from its image. -/
def repeatOfWords (w : List (BitVec 64)) : RepeatState :=
  let a := (w.getD 0 0).toNat
  { act := bitOf a 63, next := bitsOf a 56 4, lenm := bitsOf a 52 4, left := bitsOf a 0 32, start := (w.getD 1 0).setWidth 56 }
/-- A w register as words. -/
def lineWords (x : Line) : List (BitVec 64) := (List.range 16).map fun i => BitVec.ofNat 64 (lineNat x (8 * i) 8)
/-- A w register from words. -/
def lineOfWords (w : List (BitVec 64)) : Line := BitVec.ofNat 1024 (packElems 64 ((w.take 16).map fun v => v.toNat))

/-- The 1,024 words of a thread record. -/
def threadWords (th : Nat) (t : Thread) (k : Task) : List (BitVec 64) :=
  let ps := (List.range 8).foldl (fun a i => a + (t.getP (BitVec.ofNat 3 i)).toNat * 2 ^ i) 0
  padWords 8
    [ BitVec.ofNat 64 (1 + 2 ^ 16 * (coreOf th % 2048) + 2 ^ 27 * (th % 8)), t.pc.setWidth 64, k.ts,
      BitVec.ofNat 64 (hmodeNum k.hmode + k.spec.toNat * 4 + 2 ^ 32 * (if k.spec then k.tb.toNat else 0)), k.hint ] ++
  ((List.range 16).map fun i => t.getG (BitVec.ofNat 4 i)) ++
  ((List.range 8).map fun i => t.getM (BitVec.ofNat 3 i)) ++
  padWords 8 ([BitVec.ofNat 64 ps, t.sr.setWidth 64, t.sbase.setWidth 64] ++ t.rep.words) ++
  padWords 8 t.fmt ++ padWords 8 t.mq ++ padWords 8 (identWords k.ident) ++ padWords 32 (t.streams.flatMap Stream.words) ++
  zeroWords 32 ++ ((List.range 32).flatMap fun i => lineWords (t.getW (BitVec.ofNat 5 i))) ++ zeroWords 384
/-- A thread from its record, with what the device kept of its task (log entry 21); reserved bits of its control registers read 0 (R6). -/
def threadOfWords (w : List (BitVec 64)) (k : Task) (now : Nat) : Thread :=
  let at' (i n : Nat) : List (BitVec 64) := (w.drop i).take n
  let h := (w.getD 3 0).toNat
  let spec := bitOf h 2
  let k := { k with ts := w.getD 2 0, tb := if spec then BitVec.ofNat 32 (bitsOf h 32 32) else 0, spec := spec, hasTb := true,
                    hmode := hmodeOf (bitsOf h 0 2), hint := w.getD 4 0, ident := identOfWords (at' 56 6), standing := spec }
  let t : Thread := { Thread.fresh ((w.getD 1 0).setWidth 56) with
    task := some k, rep := repeatOfWords (at' 35 2), streams := (List.range 4).map fun i => streamOfWords (at' (64 + 8 * i) 8),
    nolog := spec, lastIssue := now }
  let t := ((t.setUcr 8 (w.getD 33 0)).setUcr 0x10 (w.getD 34 0))
  let t := (List.range 8).foldl (fun (t : Thread) i => t.setUcr i (w.getD (40 + i) 0)) t
  let t := (List.range 4).foldl (fun (t : Thread) i => t.setUcr (0x0C + i) (w.getD (48 + i) 0)) t
  let t := (List.range 16).foldl (fun (t : Thread) i => t.setG (BitVec.ofNat 4 i) (w.getD (8 + i) 0)) t
  let t := (List.range 8).foldl (fun (t : Thread) i => t.setM (BitVec.ofNat 3 i) (w.getD (24 + i) 0)) t
  let t := (List.range 8).foldl (fun (t : Thread) i => t.setP (BitVec.ofNat 3 i) ((w.getD 32 0).getLsbD i)) t
  (List.range 32).foldl (fun (t : Thread) i => t.setW (BitVec.ofNat 5 i) (lineOfWords (at' (128 + 16 * i) 16))) t

/-- The words of a mapping record (R200). -/
def Mapping.words (m : Mapping) : List (BitVec 64) :=
  [ BitVec.ofNat 64 (2 ^ 63 + 2 ^ 56 * (m.run % 16) + 4096 * (m.vbase / 4096)),
    BitVec.ofNat 64 (2 ^ 32 * (m.pages - 1) + 2 ^ 12 * (m.soff / 4096)) ]
/-- A mapping from its record, in the slot its run comes to; none where V is 0. -/
def Mapping.ofWords (m : Mapping) (w : List (BitVec 64)) (slot : Nat) : Option Mapping :=
  let a := (w.getD 0 0).toNat
  let b := (w.getD 1 0).toNat
  if bitOf a 63 then some { m with run := slot, vbase := 4096 * (bitsOf a 12 44), pages := bitsOf b 32 8 + 1, soff := 4096 * (bitsOf b 12 8) }
  else none

/-- The job that a saved Porter job's record says once a program has altered it: the spec gives the record no layout, so what it says is a
free value (log entry 21). -/
def PorterJob.altered (j : PorterJob) (w : List (BitVec 64)) : Option PorterJob :=
  match Config.porterRecord w with
  | none => none
  | some v =>
    let bytes := (List.range 16).map fun i => BitVec.ofNat 8 (bitsOf (v.getD (i / 8) 0).toNat (8 * (i % 8)) 8)
    let ins := match decode bytes with
      | .ok (i, _) => if (portSpec i).isSome then i else j.ins
      | .error _ => j.ins
    some { j with ins := ins, dst := v.getD 2 0, src := v.getD 3 0, cval := v.getD 4 0, count := v.getD 5 0, dctr := v.getD 6 0,
                  sctr := v.getD 7 0, progress := (v.getD 8 0).toNat }

/-- The first 16 bytes of an instruction, as two words. -/
def insWords (i : Instr) : List (BitVec 64) :=
  let b := (encode i).map fun x => x.toNat
  [BitVec.ofNat 64 (packElems 8 (b.take 8)), BitVec.ofNat 64 (packElems 8 (b.drop 8))]
/-- A matrix instruction from its record's words. -/
def insOfWords (w : List (BitVec 64)) : Option Instr :=
  let bytes := (List.range 16).map fun i => BitVec.ofNat 8 (bitsOf (w.getD (i / 8) 0).toNat (8 * (i % 8)) 8)
  match decode bytes with
  | .ok (i, _) => if (matSpec i).isSome then some i else none
  | .error _ => none
/-- The primary record of a saved matrix job (R438). -/
def MatrixJob.primary (j : MatrixJob) : List (BitVec 64) :=
  let p := matSpec j.ins
  insWords j.ins ++ [ j.aval, j.bval, j.cval, j.dims, (if p.any MatSpec.multiplies then j.lds else 0),
    (if p.any MatSpec.ctr then j.ctrva else 0) ]
/-- Its extension record. -/
def MatrixJob.extension (j : MatrixJob) : List (BitVec 64) :=
  padWords 8 (BitVec.ofNat 64 (2 ^ 63 + 2 ^ 16 * (j.rp % 2 ^ 32) + j.id % 2 ^ 16) :: j.mq.take 4)
/-- A matrix job from its records, with what they do not hold; none where VALID is 0 (log entry 21). It is not started: the tag of the
slot it reads is checked again (R423). -/
def MatrixJob.ofWords (j : MatrixJob) (p x : List (BitVec 64)) (run : Nat) : Option MatrixJob :=
  let a := (x.getD 0 0).toNat
  if !bitOf a 63 then none
  else some { j with id := bitsOf a 0 16, ins := (insOfWords p).getD j.ins, aval := p.getD 2 0, bval := p.getD 3 0,
                     cval := p.getD 4 0, dims := p.getD 5 0, lds := p.getD 6 0, ctrva := p.getD 7 0,
                     mq := (x.drop 1).take 4, rp := bitsOf a 16 32, run := some run, started := false, remotes := [] }

/-- VA of a part of a run's save area. -/
def State.saveVa (s : State) (run off : Nat) : Nat := ((s.run run).cfg.save + off) % 2 ^ 56
/-- VA of a thread record. -/
def State.threadVa (s : State) (run th : Nat) : Nat := s.saveVa run (0x00100000 + 8192 * th)
/-- VA of a tile's job area. -/
def State.jobVa (s : State) (run tile : Nat) : Nat := s.saveVa run (0x08100000 + 0x4000 * tile)

-- Pre-emption (R81, R179).

/-- R81, first case: the NEW record that is to be taken next finds no slot, and the run is the lowest resident one (log entry 25). -/
def State.wantsSlot (s : State) (x : Nat) : Bool :=
  s.freeRun.isNone && match s.nextQueue with
    | none => false
    | some q =>
      let w := s.nextRecord q
      s.recordShown q && recField w 34 1 == 1 && seqOk w (s.queue q).taken && s.lowestBelow x (s.effLevel q)
/-- R81, second case: a task of a run that outranks it has been ready on a tile for PWAIT µs. -/
def State.wantsTile (s : State) (x : Nat) : Bool :=
  s.lodges.any fun l => (List.range 16).any fun y => y != x && s.outranks l.1 y x
/-- A run is to be pre-empted (R81) (log entry 25). -/
def State.mustPreempt (s : State) (x : Nat) : Bool :=
  !s.fatal && s.mayPreempt x && !((List.range 16).any fun y => (s.run y).phase == .preempting) && (s.wantsSlot x || s.wantsTile x)

/-- Entries of a run: tile, number, entry. -/
def State.runEntries (s : State) (run : Nat) : List (Nat × Nat × CqEntry) :=
  s.lodges.flatMap fun l => (l.2.cq.filter fun e => e.2.task.run == run).map fun e => (l.1, e.1, e.2)
/-- Step 2 of R179: every speculative task without earliest standing is aborted. -/
def State.preemptAborts (s : State) (n : Nat) : State :=
  ((s.runEntries n).filter fun e => !s.entryEarliest e.2.2).foldl
    (fun s e => s.abort ⟨false, false, 0x07⟩ e.1 e.2.1) s
/-- A thread that waits for the reply to the trap of an access issued before goes back to the instruction that made it (R179) (log entry
47). -/
def State.rewindStopped (s : State) (th : Nat) (t : Thread) : State :=
  let at' := (t.outs.filter fun o => o.stopped).map (fun o => (o.seq, o.pc)) ++
    ((s.storesOf th).filter fun x => x.stopped).map fun x => (x.seq, x.pc)
  match at'.foldl (fun (a : Option (Nat × BitVec 56)) x => match a with
      | none => some x
      | some b => if x.1 < b.1 then some x else some b) none with
  | some x => s.rewind th x.1 x.2
  | none => s
/-- Step 4: what a waiting thread has sent or reserved is dropped (R404), the posted record of a thread is withdrawn, and a
thread whose task ends anyway ends. -/
def State.preemptThread (s : State) (th : Nat) : State :=
  let s : State := { s with sent := s.sent.filter fun x => x.th != some th }
  match s.thread? th with
  | none => s
  | some t =>
    if t.ending then s.tryEnd th
    else
      (((s.setThread th { t.unwait with park := .stop }).rewindStopped th t).withdraw (.thread th))
/-- A thread's results have arrived and its stores are performed, so that it can be saved. -/
def State.quiet (s : State) (th : Nat) (t : Thread) : Bool := t.outs.isEmpty && (s.storesOf th).isEmpty && !t.ending

/-- Step 7 on one tile: queued tasks, and those in flight to it, are spilled. -/
def State.spillRun (s : State) (n tile : Nat) : State :=
  let l := s.lodge tile
  let coming := s.sent.filter fun x => x.tile == tile && x.task.run == n
  let ts := l.queue.filter (fun t => t.run == n) ++ coming.map fun x => x.task
  if ts.isEmpty || l.spillFault then s
  else
    let part := (latestFirst ts).take 32
    match s.spillTasks tile n part with
    | .error e => s.lodgeStop tile n e
    | .ok x =>
      if (x.lodge tile).spillFault then x
      else { x with sent := x.sent.filter fun y => !(y.tile == tile && part.contains y.task) }
/-- A tile still has queued or coming tasks of a run. -/
def State.hasQueued (s : State) (n tile : Nat) : Bool :=
  (s.lodge tile).queue.any (fun t => t.run == n) || s.sent.any fun x => x.tile == tile && x.task.run == n
/-- Spill on a tile until nothing is left or the spilling stops; the number bounds the blocks. -/
def State.spillAll (s : State) (n tile : Nat) : Nat → State
  | 0 => s
  | f + 1 => if s.hasQueued n tile then (s.spillRun n tile).spillAll n tile f else s

/-- Number of the jobs of a run in a queue, each with its place. -/
def placedJobs {α : Type} (f : α → Option Nat) (run base : Nat) (l : List α) : List (Nat × α) :=
  (l.mapIdx fun i j => (base + i, j)).filter fun p => f p.2 == some run
/-- The jobs of a run, each under tile · 128 + its place. -/
def State.runJobs (s : State) (n : Nat) : List (Nat × Job) :=
  (List.range 256).flatMap fun tile =>
    let e := s.engine tile
    ((placedJobs MatrixJob.run n 0 e.mq).map fun p => (tile * 128 + p.1, Job.matrix p.2)) ++
    (List.range 2).flatMap fun lane =>
      (placedJobs PorterJob.run n (64 + 32 * lane) (e.lanes.getD lane [])).map fun p => (tile * 128 + p.1, Job.porter p.2)
/-- Jobs leave their queues, with the records they wait on (step 5). -/
def State.takeJobs (s : State) (n : Nat) : State :=
  (List.range 256).foldl (fun (s : State) tile =>
    let e := s.engine tile
    let mine := e.mq.head?.any fun j => j.run == some n
    let lane (k : Nat) : Bool := (e.lanes.getD k []).head?.any fun j => j.run == some n
    let s := if mine then s.withdraw (.matrix tile) else s
    let s := (List.range 2).foldl (fun (s : State) k => if lane k then s.withdraw (.porter tile k) else s) s
    s.setEngine tile { e with
      mq := e.mq.filter fun j => j.run != some n,
      lanes := e.lanes.map fun l => l.filter fun j => j.run != some n,
      mfault := e.mfault && !mine,
      pfault := e.pfault.mapIdx fun k f => f && !lane k }) s

/-- Lines of a physical range that memory lists, rising: every other line of it reads as zeros. -/
def State.listedLines (s : State) (pa n : Nat) : List Nat :=
  ((s.mem.chip.map fun (c : Nat × ChipLine) => c.1) ++ (s.mem.hbm.map fun (c : Host.Cell) => s.lineOfSlot (c.1 / 128)) ++ s.mem.sys.map fun (c : Host.Cell) => c.1 / 128).foldl
    (fun a l => if decide (pa ≤ 128 * l) && decide (128 * l < pa + n) then insertNat a l else a) []
/-- Zero n bytes of an area, line by line; a line that reads as zeros is left as it is. The first number bounds the pages. -/
def State.areaZero (tile run : Nat) : Nat → Nat → Nat → State → Except Stop State
  | 0, _, _, s => .ok s
  | f + 1, va, n, s =>
    if n = 0 then .ok s
    else
      let who := areaWho tile run
      match s.locate who .write va 8 with
      | .error e => .error e
      | .ok l =>
        let p := l.part
        let x : Nat × List Nat := match p.place with
          | .stash t =>
            let span := Nat.min n (2 ^ 20 - p.pa % 2 ^ 20)
            let at' := stashAddr t p.pa
            (span, ((s.stash.cells.filter fun c => decide (at' ≤ c.1) && decide (c.1 < at' + span)).foldl (fun a c =>
              insertNat a ((c.1 - at') / 128 * 128)) []))
          | _ => match (s.lookup who va true).1 with
            | .leaf pte level _ =>
              let size := (leafPage pte level).2
              let span := Nat.min n (size - va % size)
              (span, (s.listedLines p.pa span).map fun l => 128 * l - p.pa)
            | _ => (n, [])
        match eachOf (fun s o => s.areaWrite tile run (va + o) (zeroWords 16)) x.2 s with
        | .error e => .error e
        | .ok s => State.areaZero tile run f (va + x.1) (n - x.1) s
/-- What of a table of records lies between those of some slots, rising: its offset and size. -/
def gaps (size : Nat) (base top : Nat) : List Nat → List (Nat × Nat)
  | [] => [(base, top - base)]
  | k :: r => (base, k - base) :: gaps size (k + size) top r
/-- The records of slots, tiles and jobs that nothing is saved of hold zeros, so that their VALID and V bits read 0 (R181, R438). The
records of the threads that have not yet returned from an earlier save stay. -/
def State.clearArea (s : State) (n : Nat) : Except Stop State :=
  let kept := (s.run n).returning.foldl (fun a x => insertNat a (0x00100000 + 8192 * x.1)) []
  eachOf (fun s (x : Nat × Nat) => State.areaZero 0 n 4096 (s.saveVa n x.1) x.2 s)
    ((0x2000, 2 ^ 18) :: (0x08100000, 2 ^ 22) :: gaps 8192 0x00100000 0x08100000 kept) s

/-- The words written for the Porter jobs saved: the spec gives their records no layout, and they are free (log entry 3) (log entry 21). -/
def porterWords (fresh : Nat) (jobs : List (Nat × Job)) : List (Nat × List (BitVec 64)) :=
  (jobs.filter fun p => match p.2 with | .porter _ => true | .matrix _ => false).mapIdx fun k p =>
    (p.1, (List.range 8).map fun i => Config.freeWord (fresh + 8 * k + i))
/-- VA of the record of a job, under tile · 128 + its place. -/
def State.jobRecordVa (s : State) (n at' : Nat) : Nat :=
  s.jobVa n (at' / 128) + (if at' % 128 < 64 then 64 * (at' % 128) else 0x400 + 64 * (at' % 128 - 64))
/-- Write one job's record. -/
def State.saveJob (n : Nat) (porter : List (Nat × List (BitVec 64))) (s : State) (p : Nat × Job) : Except Stop State :=
  let tile := p.1 / 128
  match p.2 with
  | .matrix j => match s.areaWrite tile n (s.jobRecordVa n p.1) j.primary with
    | .error e => .error e
    | .ok s => s.areaWrite tile n (s.jobVa n tile + 0x1400 + 64 * (p.1 % 128)) j.extension
  | .porter _ => s.areaWrite tile n (s.jobRecordVa n p.1) (((porter.find? fun x => x.1 == p.1).map fun x => x.2).getD [])
/-- Write a tile's mapping records, one for each of the 64 entries; those of a tile with none hold zeros. -/
def State.saveMaps (n : Nat) (s : State) (tile : Nat) : Except Stop State :=
  let maps := s.stash.maps.filter fun m => m.tile == tile && m.run == n
  if maps.isEmpty then .ok s
  else s.areaWrite tile n (s.saveVa n (0x2000 + 1024 * tile)) ((List.range 64).flatMap fun i =>
    match maps.find? fun m => m.idx == i with
    | some m => m.words
    | none => [0, 0])
/-- Copy a tile's stash. -/
def State.saveImage (n : Nat) (s : State) (tile : Nat) : Except Stop State :=
  s.areaWrite tile n (s.saveVa n (0x10000000 + 2 ^ 20 * tile))
    ((List.range (2 ^ 17)).map fun i => BitVec.ofNat 64 (s.stashNat tile (8 * i) 8))
/-- The header and the tiebreaker counters. -/
def State.headWords (s : State) (n count : Nat) : List (BitVec 64) :=
  let r := s.run n
  padWords 512 [BitVec.ofNat 64 (1 + 2 ^ 16 * r.cfg.runid), r.milestone.ts, r.milestone.tb.setWidth 64, r.floor.ts,
    r.floor.tb.setWidth 64, BitVec.ofNat 64 (s.runLevel n), BitVec.ofNat 64 count] ++
  (List.range 256).flatMap fun tile =>
    [BitVec.ofNat 64 (Sparse.getD (s.lodge tile).ctr n 0 % 2 ^ 24), Sparse.getD (s.lodge tile).maxTs n 0]
/-- Write a thread's record. -/
def State.saveThread (n : Nat) (s : State) (x : Nat × Thread) : Except Stop State :=
  match x.2.task with
  | none => .ok s
  | some k => s.areaWrite (tileOf x.1) n (s.threadVa n x.1) (threadWords x.1 x.2 k)

/-- Move a key of a table. -/
def Sparse.rename {α : Type} (m : Sparse α) (a b : Nat) : Sparse α :=
  match Sparse.get? m a with
  | none => m
  | some v => Sparse.set (Sparse.erase m a) b v
/-- Move what the device holds of a run from one key to another: launches, grids, Lodge tables, records, row instances. -/
def State.renameRun (s : State) (a b : Nat) : State :=
  let task (t : Task) : Task := if t.run = a then { t with run := b } else t
  { s with
    launches := s.launches.map fun l => if l.run = a then { l with run := b } else l,
    grids := s.grids.map fun g => if g.run = a then { g with run := b } else g,
    sent := s.sent.map fun x => { x with task := task x.task },
    lodges := s.lodges.mapVals fun _ l => { l with
      queue := l.queue.map task,
      ctr := Sparse.rename l.ctr a b, maxTs := Sparse.rename l.maxTs a b, spmin := Sparse.rename l.spmin a b,
      spblk := Sparse.rename l.spblk a b, blocks := Sparse.rename l.blocks a b,
      grids := l.grids.map fun g => if g.run = a then { g with run := b } else g,
      discards := l.discards.map fun d => if d.2 = a then (d.1, b) else d },
    records := s.records.map fun r => if r.run = some a then { r with run := some b } else r,
    rows := s.rows.map fun r => if r.run = a then { r with run := b } else r,
    rowCount := s.rowCount.foldl (fun (m : Sparse Nat) e =>
      if e.1 / 2 ^ 24 = a then Sparse.set m (2 ^ 24 * b + e.1 % 2 ^ 24) e.2 else Sparse.set m e.1 e.2) [] }

/-- Give up the entries of saved threads: no abort can reach them, and the marks they placed clear (R141, R179). -/
def State.dropEntries (s : State) (n : Nat) : State :=
  let s := (s.runEntries n).foldl (fun (s : State) e =>
    let l := s.lodge e.1
    s.setLodge e.1 { l with cq := Sparse.erase l.cq e.2.1 }) s
  (s.coh.l2.filter fun e => e.srun == n && (e.swm != 0 || e.srm != 0)).foldl (fun (s : State) e => s.reprobe e.line) s

/-- Steps 5, 6 and 8 of R179: the save area is written, then the run leaves its slot (log entry 21). -/
def State.saveRun (s : State) (n : Nat) : Except Stop State :=
  let threads := s.runThreads n
  let jobs := s.runJobs n
  let maps := s.stash.maps.filter fun m => m.run == n
  let images := (s.stash.touched.filter fun p => p.2 == n).map fun p => p.1
  let level := s.runLevel n
  let porter := porterWords s.fresh jobs
  match ({ s.takeJobs n with fresh := s.fresh + 8 * porter.length } : State).clearArea n with
  | .error e => .error e
  | .ok s =>
  match eachOf (State.saveJob n porter) jobs s with
  | .error e => .error e
  | .ok s =>
  match eachOf (State.saveMaps n) (List.range 256) s with
  | .error e => .error e
  | .ok s =>
    let s := maps.foldl (fun (s : State) m => s.unmap m []) s
    match eachOf (State.saveImage n) images s with
    | .error e => .error e
    | .ok s =>
    match eachOf (State.saveThread n) threads s with
    | .error e => .error e
    | .ok s =>
    match s.areaWrite 0 n (s.saveVa n 0) (s.headWords n (threads.length + (s.run n).returning.length)) with
    | .error e => .error e
    | .ok s =>
      let r := s.run n
      let tasks := (threads.filterMap fun x => x.2.task.map fun k => (x.1, k)) ++ r.returning
      let s := (s.dropEntries n)
      let s : State := { s with
        threads := s.threads.filter fun x => !threads.any fun y => y.1 == x.1,
        stash := { s.stash with touched := s.stash.touched.filter fun p => p.2 != n },
        saved := s.saved ++ [{ jobs := jobs, tasks := tasks, maps := maps, images := images, cfg := r.cfg, cfgpa := r.cfgpa,
                               milestone := r.milestone, floor := r.floor, level := level, order := s.nextStore,
                               ends := r.ends, killed := r.killed, ended := r.ended, porter := porter }],
        nextStore := s.nextStore + 1 }
      let key := savedKey r.cfg.runid
      let s := (s.renameRun n key).setRun key { r with phase := .free }
      .ok (s.setRun n { Run.reset with gen := r.gen, cfgpa := r.cfgpa, bad := r.bad })

/-- A fault in the save area's traffic: posted with SRC 4 (R179) (log entry 23). -/
def State.saveFault (s : State) (n : Nat) (t : Trap) : State := s.raise (.launch 0) 4 (some n) 0 Key.zero 0 0 t
/-- Save area traffic that can not go on: its fault is raised, or it waits with what its wait sends. -/
def State.saveStop (s : State) (n : Nat) (e : Stop) : State :=
  match s.stopped (some n) e with
  | (some t, s) => s.saveFault n t
  | (none, s) => s
/-- The save of a run waits for a reply (log entry 23). -/
def State.saveHeld (s : State) (n : Nat) : Bool := s.records.any fun r => r.agent == .launch 0 && r.run == some n

/-- A thread of a run is on a halted tile: step 4 of R179 and step 2 of R183 wait for its resume (R279). -/
def State.onHalted (s : State) (n : Nat) : Bool := (s.runThreads n).any fun x => s.halted (tileOf x.1)
/-- The steps of R179 go on as far as they can. -/
def State.preemptStep (s : State) (n : Nat) : State :=
  if s.saveHeld n then s
  else
    let s := s.preemptAborts n
    if (s.runEntries n).any (fun e => e.2.2.finished) || s.onHalted n then s
    else
      let s := (s.runThreads n).foldl (fun (s : State) x => s.preemptThread x.1) s
      let s := (List.range 256).foldl (fun (s : State) t => s.spillAll n t 512) s
      if (s.runThreads n).any (fun x => !s.quiet x.1 x.2) || (List.range 256).any (s.hasQueued n) then s
      else match s.saveRun n with
        | .ok s => s
        | .error e => s.saveStop n e
/-- PREEMPT: the launch unit starts it under R81, and it goes on. -/
def State.preempt (s : State) (n : Nat) : State :=
  let r := s.run n
  if r.killed || s.fatal then s
  else match r.phase with
    | .preempting => s.preemptStep n
    | .resident => if s.mustPreempt n then (s.setRun n { r with phase := .preempting }).preemptStep n else s
    | _ => s

-- Resume (R80, R180).

/-- The next record of a queue joins the run of an id: it waits for it (R81). -/
def State.joinWaits (s : State) (id : Nat) : Bool :=
  s.queues.any fun x => s.waiting x.1 && s.recordShown x.1 && seqOk (s.nextRecord x.1) (s.queue x.1).taken && recField (s.nextRecord x.1) 34 1 == 0 &&
    recField (s.nextRecord x.1) 48 16 == id
/-- A saved run has work (R80), a JOIN record that waits for it among it (log entry 25). -/
def State.savedWork (s : State) (x : SavedRun) : Bool :=
  let k := savedKey x.cfg.runid
  !x.jobs.isEmpty || !x.tasks.isEmpty || s.grids.any (fun g => g.run == k) || s.sent.any (fun y => y.task.run == k) ||
    s.launches.any (fun l => l.run == k && !l.entered) ||
    (s.joinWaits x.cfg.runid && !s.teardownBegun k x.ends) ||
    s.lodges.any fun l => !(l.2.blocksOf k).isEmpty || l.2.queue.any (fun t => t.run == k) || l.2.grids.any fun g => g.run == k
/-- The saved run that resumes next (R80): highest level, then the one saved longest (log entry 25). -/
def State.nextSaved (s : State) : Option SavedRun :=
  let lv (x : SavedRun) : Nat := s.runLevel (savedKey x.cfg.runid)
  (s.saved.filter fun x => !x.killed && s.savedWork x && (s.runSlotOf x.cfg.runid).isNone).foldl (fun a x => match a with
    | none => some x
    | some b => if lv b < lv x || (lv b == lv x && decide (x.order < b.order)) then some x else some b) none

/-- Write a stash image back, but for the bytes of the mailbox ring (R164). -/
def State.loadImage (n : Nat) (s : State) (tile : Nat) : Except Stop State :=
  match s.areaRead tile n (2 ^ 17) (s.saveVa n (0x10000000 + 2 ^ 20 * tile)) with
  | .error e => .error e
  | .ok (w, s) =>
    let c := s.faultCfg
    let ring (off : Nat) : Bool := isInnkeeperTile tile && c.1 && decide (c.2.1 ≤ off) && decide (off < c.2.1 + 64 * c.2.2)
    let s := (List.range 8192).foldl (fun (s : State) i =>
      let part := (w.drop (16 * i)).take 16
      let mask := (List.range 2).foldl (fun (m : Line) h =>
        if ring (128 * i + 64 * h) then m else m ||| byteMask (64 * h) 64) 0
      s.stashWrite tile (128 * i) mask (lineOfWords part)) s
    .ok { s with stash := { s.stash with touched := s.stash.touched ++ [(tile, n)] } }
/-- The number an entry comes back under: its own where that is free (log entry 22). -/
def State.mapIdx (s : State) (m : Mapping) : Nat :=
  let used := (s.stash.maps.filter fun x => x.tile == m.tile).map fun x => x.idx
  if used.contains m.idx then ((List.range 64).find? fun i => !used.contains i).getD 0 else m.idx
/-- Restore a mapping record; it waits while another mapping has its stash or every entry is in use (log entry 22). -/
def State.loadMap (n : Nat) (s : State) (m : Mapping) : Except Stop State :=
  match s.areaRead m.tile n 2 (s.saveVa n (0x2000 + 1024 * m.tile + 16 * m.idx)) with
  | .error e => .error e
  | .ok (w, s) => match m.ofWords w n with
    | none => .ok s
    | some m =>
      let here := s.stash.maps.filter fun x => x.tile == m.tile
      if decide (64 ≤ here.length) || here.any fun x => rangesMeet x.soff (4096 * x.pages) m.soff (4096 * m.pages) then .error (.wait none)
      else .ok { s with stash := { s.stash with maps := s.stash.maps ++ [{ m with idx := s.mapIdx m }] } }
/-- The records of a table, each under a number and at a VA, that have a bit of their first word set: the ones a resume takes. -/
def State.markedRecords (n bit : Nat) : List (Nat × Nat) → State → Except Stop (List Nat × State)
  | [], s => .ok ([], s)
  | (i, va) :: r, s => match s.areaRead 0 n 1 va with
    | .error e => .error e
    | .ok (w, s) => match State.markedRecords n bit r s with
      | .error e => .error e
      | .ok (l, s) => .ok (if (w.getD 0 0).getLsbD bit then i :: l else l, s)
/-- The launch that a record which software has added belongs to: the first live one of the run (log entry 21). -/
def State.addedLaunch (s : State) (n : Nat) : Nat :=
  ((s.launches.find? fun l => l.run == n || l.run == savedKey (s.run n).cfg.runid).map fun l => l.id).getD 0
/-- The mapping that a record with V set stands for: the saved one, or one that software has added, in invalidate mode. -/
def SavedRun.mapAt (x : SavedRun) (n at' : Nat) : Mapping :=
  (x.maps.find? fun m => m.tile == at' / 64 && m.idx == at' % 64).getD
    { tile := at' / 64, idx := at' % 64, run := n, vbase := 0, pages := 1, soff := 0, upd := false }
/-- The task of a thread record with VALID set: the saved one, or one that software has added. -/
def SavedRun.taskAt (x : SavedRun) (launch th : Nat) : Task :=
  ((x.tasks.find? fun p => p.1 == th).map fun p => p.2).getD
    { func := 0, ts := 0, tb := 0, hasTb := true, floor := Key.zero, spec := false, hmode := .none, hint := 0, nargs := 0, args := [],
      run := 0, aborts := 0, mw := false, parent := none, ident := Ident.single, launch := launch, hintLine := 0, unseen := 0 }
/-- The matrix job of a record with VALID set: the saved one, or one that software has added, which no thread waits for. -/
def SavedRun.matAt (x : SavedRun) (launch at' : Nat) : MatrixJob :=
  match x.jobs.find? fun p => p.1 == at' with
  | some (_, .matrix j) => j
  | _ => { id := 0, ins := .accst { pg := 0, mg := 0, ch := 0, sw := false } .f32 0 0 0 0 0, aval := 0, bval := 0, cval := 0, dims := 0, lds := 0, ctrva := 0, mq := [], fmt := [],
           run := none, runid := x.cfg.runid, key := x.milestone, launch := launch, th := 2 ^ 14, task := 0, hint := 0, rp := 0,
           started := false, remotes := [] }

/-- A resumed job re-enters a queue at the front, behind a head that its engine has begun or that waits for a reply (R180). -/
def reenter {α : Type} (busy : α → Bool) (j : α) : List α → List α
  | h :: r => if busy h then h :: j :: r else j :: h :: r
  | [] => [j]
/-- A saved matrix job re-enters its queue, as its records stand, once the queue has room; jobs are taken last first, so that their order
stays (log entry 21). -/
def State.loadMatrix (n : Nat) (x : SavedRun) (s : State) (at' : Nat) : Except Stop State :=
  let tile := at' / 128
  match s.areaRead tile n 8 (s.jobRecordVa n at') with
  | .error e => .error e
  | .ok (w, s) => match s.areaRead tile n 8 (s.jobVa n tile + 0x1400 + 64 * (at' % 128)) with
    | .error e => .error e
    | .ok (v, s) => match (x.matAt (s.addedLaunch n) at').ofWords w v n with
      | none => .ok s
      | some j =>
        let e := s.engine tile
        if 16 ≤ e.mq.length then .error (.wait none)
        else .ok (s.setEngine tile { e with mq := reenter (fun h => h.started || e.mfault) j e.mq })
/-- A saved Porter job re-enters its lane likewise (log entry 21). -/
def State.loadPorter (n : Nat) (x : SavedRun) (s : State) (p : Nat × Job) : Except Stop State :=
  let tile := p.1 / 128
  let lane := (p.1 % 128 - 64) / 32
  match p.2 with
  | .matrix _ => .ok s
  | .porter j => match s.areaRead tile n 8 (s.jobRecordVa n p.1) with
    | .error e => .error e
    | .ok (w, s) =>
      match (if x.porter.contains (p.1, w) then some j else j.altered w) with
      | none => .ok s
      | some j =>
        let e := s.engine tile
        let busy (h : PorterJob) : Bool := decide (0 < h.progress) || h.srcBumped || h.rowInst.isSome || e.pfault.getD lane false
        if 32 ≤ (e.lanes.getD lane []).length then .error (.wait none)
        else .ok (s.setEngine tile { e with lanes := e.lanes.modify lane (reenter busy { j with run := some n, remotes := [] }) })
/-- The entry a resuming speculative thread takes, beyond CQLIM if need be (R180). -/
def State.returnEntry (s : State) (n th : Nat) (k : Task) : State :=
  if !k.spec || (s.lodge (tileOf th)).cq.any fun e => e.2.th == some th && e.2.task.run == n then s
  else match s.freeEntry (tileOf th) with
    | none => s
    | some i =>
      s.takeEntry (tileOf th) i th { k with standing := true }

/-- What the save area holds of stashes, mappings and jobs is read back (R180, R438). -/
def State.loadParts (s : State) (n : Nat) (x : SavedRun) : Except Stop State :=
  match eachOf (State.loadImage n) x.images s with
  | .error e => .error e
  | .ok s =>
  match s.markedRecords n 63 ((List.range 16384).map fun i => (i, s.saveVa n (0x2000 + 16 * i))) with
  | .error e => .error e
  | .ok (l, s) =>
  match eachOf (fun s i => State.loadMap n s (x.mapAt n i)) l s with
  | .error e => .error e
  | .ok s =>
  match s.markedRecords n 63 ((List.range 4096).map fun i =>
      (128 * (i / 16) + i % 16, (s.jobVa n (i / 16) + 0x1400 + 64 * (i % 16)) % 2 ^ 56)) with
  | .error e => .error e
  | .ok (l, s) =>
  match eachOf (State.loadMatrix n x) l.reverse s with
  | .error e => .error e
  | .ok s => eachOf (State.loadPorter n x) x.jobs.reverse s
/-- The slots whose thread records have VALID set, with their tasks: those of cores that run tasks. -/
def State.loadTasks (s : State) (n : Nat) (x : SavedRun) : Except Stop (List (Nat × Task) × State) :=
  let slots := (List.range 16384).filter fun th => !isInnkeeperCore (coreOf th)
  match s.markedRecords n 0 (slots.map fun th => (th, s.threadVa n th)) with
  | .error e => .error e
  | .ok (l, s) => .ok (l.map fun th => (th, { x.taskAt (s.addedLaunch n) th with run := n }), s)
/-- The header's level comes back as that of the run's launches: those at the level that was saved take it, and none stands above it
(R78, R181). -/
def State.loadLevel (s : State) (n saved : Nat) (level : Nat) : State :=
  { s with launches := s.launches.map fun l =>
      if l.run != n then l else { l with level := if l.level = saved then level else Nat.min level l.level } }
/-- The header and the tiebreaker counters as they stand (R181), as words of the area's first 8 KiB. -/
def State.loadHead (s : State) (n : Nat) (x : SavedRun) (w : List (BitVec 64)) : State :=
  let s := (List.range 256).foldl (fun (s : State) tile =>
    let l := s.lodge tile
    let c := bitsOf (w.getD (512 + 2 * tile) 0).toNat 0 24
    let t := w.getD (513 + 2 * tile) 0
    if (Sparse.get? l.ctr n).isNone && (Sparse.get? l.maxTs n).isNone && c == 0 && t == 0 then s
    else s.setLodge tile { l with ctr := Sparse.set l.ctr n c, maxTs := Sparse.set l.maxTs n t }) s
  let ms : Key := ⟨w.getD 1 0, (w.getD 2 0).setWidth 32⟩
  let r : Run := { s.run n with resuming := false, milestone := ms, latched := ms, ends := x.ends, ended := x.ended,
                                floor := ⟨w.getD 3 0, (w.getD 4 0).setWidth 32⟩ }
  (s.setRun n r).loadLevel n x.level (bitsOf (w.getD 5 0).toNat 0 6)

/-- The save area is read, and the run is resident again but for its threads. -/
def State.loadRun (s : State) (n : Nat) (x : SavedRun) : Except Stop State :=
  match s.areaRead 0 n 1024 (s.saveVa n 0) with
  | .error e => .error e
  | .ok (w, s) =>
  match s.loadParts n x with
  | .error e => .error e
  | .ok s =>
  match s.loadTasks n x with
  | .error e => .error e
  | .ok (tasks, s) =>
    let key := savedKey x.cfg.runid
    let s := s.renameRun key n
    let s : State := { s with saved := s.saved.filter fun y => y.cfg.runid != x.cfg.runid, runs := Sparse.erase s.runs key,
                              tlb := s.tlb.filter fun e => e.run != key }
    let s := s.loadHead n x w
    let s := s.setRun n { s.run n with returning := tasks }
    .ok (tasks.foldl (fun (s : State) p => s.returnEntry n p.1 p.2) s)

/-- Saved threads return as their slots and entries are free (R180); a record with VALID = 0 is skipped (log entry 22). -/
def State.returnThread (n : Nat) (s : State) (p : Nat × Task) : State :=
  let s := s.returnEntry n p.1 p.2
  let entry := (s.lodge (tileOf p.1)).cq.find? fun e => e.2.th == some p.1 && e.2.task.run == n
  if (s.thread? p.1).isSome || (p.2.spec && entry.isNone) then s
  else match s.areaRead (tileOf p.1) n 1024 (s.threadVa n p.1) with
    | .error e => s.saveStop n e
    | .ok (w, s) =>
      let r := s.run n
      let s := s.setRun n { r with returning := r.returning.filter fun x => x.1 != p.1 }
      if !(w.getD 0 0).getLsbD 0 then
        (match entry with
         | some e => let l := s.lodge (tileOf p.1); s.setLodge (tileOf p.1) { l with cq := Sparse.erase l.cq e.1 }
         | none => s)
      else s.setThread p.1 { threadOfWords w p.2 s.cycle with entry := entry.map fun e => e.1 }

/-- RESUME: a free slot takes the saved run that is due (R80), its save area is read, and its threads return (R180). -/
def State.resume (s : State) (n : Nat) : State :=
  let go (s : State) : State :=
    if s.saveHeld n then s
    else match s.savedOf (s.run n).cfg.runid with
      | none => s
      | some x =>
        if x.killed then s.setRun n { Run.reset with gen := (s.run n).gen, cfgpa := (s.run n).cfgpa, bad := (s.run n).bad }
        else match s.loadRun n x with
          | .ok s => s
          | .error e => s.saveStop n e
  let r := s.run n
  if 16 ≤ n ∨ r.killed ∨ s.fatal then s
  else match r.phase with
    | .free => match s.nextSaved with
      | none => s
      | some x =>
        let s := s.loadSlot n x.cfg x.cfgpa
        go (s.setRun n { s.run n with resuming := true })
    | .resident =>
      if r.resuming then go s
      else if s.saveHeld n then s
      else r.returning.foldl (fun s p => State.returnThread n s p) s
    | _ => s

-- Teardown (R89, R182, R183).

/-- R182: mapped lines go home and their mappings go; counters, tables and accumulator tags of the run go; the slot is
free, or the saved run is no more. -/
def State.tearDown (s : State) (n : Nat) : State :=
  let runid := (s.run n).cfg.runid
  let s := (s.stash.maps.filter fun m => m.run == n).foldl (fun (s : State) m => s.unmap m []) s
  let s : State := { s with
    lodges := s.lodges.mapVals fun _ l => { l with
      ctr := Sparse.erase l.ctr n, maxTs := Sparse.erase l.maxTs n, spmin := Sparse.erase l.spmin n,
      spblk := Sparse.erase l.spblk n, blocks := Sparse.erase l.blocks n,
      discards := l.discards.filter fun d => d.2 != n },
    accTag := s.accTag.filter fun e => e.2 != runid,
    stash := { s.stash with touched := s.stash.touched.filter fun p => p.2 != n },
    rows := s.rows.filter fun r => r.run != n,
    rowCount := s.rowCount.filter fun e => e.1 / 2 ^ 24 != n }
  let r := s.run n
  if n < 16 then s.setRun n { Run.reset with gen := r.gen, cfgpa := r.cfgpa, bad := r.bad }
  else { s with saved := s.saved.filter fun x => savedKey x.cfg.runid != n, runs := Sparse.erase s.runs n,
                tlb := s.tlb.filter fun e => e.run != n }
/-- RUN_TEARDOWN: once no launch of an ended run is live, its slot is ending, and STATE reads 3 (R89); an ending run is torn down, once a
killed one's launches have completed (R183). A saved run is torn down where it lies. -/
def State.runTeardown (s : State) (n : Nat) : State :=
  let r := s.run n
  if s.launches.any (fun l => l.run == n) || !(s.runThreads n).isEmpty || s.runStores n then s
  else if n < 16 then
    (if r.phase == .ending then s.tearDown n
     else if r.phase == .resident && r.ends && !r.killed && !r.resuming then s.setRun n { r with phase := .ending }
     else s)
  else if s.saved.any fun x => savedKey x.cfg.runid == n && (x.ends || x.killed) && (s.runSlotOf x.cfg.runid).isNone then s.tearDown n
  else s

/-- The records of the run are withdrawn, but for those of counter bumps, and their engines and Lodges no longer wait (log
entry 24). -/
def State.takeFaults (s : State) (n : Nat) : State :=
  let bump (a : Agent) : Bool := match a with
    | .launch id => (s.launch? id).any fun l => l.phase == .bumpHeld
    | _ => false
  (s.records.filter fun r => r.run == some n && !bump r.agent).foldl (fun (s : State) r =>
    let s := r.requests.foldl (fun (s : State) a => match a.1 with
      | .porter t k => let e := s.engine t; s.setEngine t { e with pfault := e.pfault.set k false }
      | .matrix t => s.setEngine t { s.engine t with mfault := false }
      | .lodge t => s.setLodge t { s.lodge t with spillFault := false }
      | _ => s) s
    { s with records := s.records.erase r }) s
/-- Steps 3 to 5 of R183, and the launches of the run end KILLED (log entry 24). -/
def State.killWork (s : State) (n : Nat) : State :=
  let s := (List.range 256).foldl (fun (s : State) tile =>
    let e := s.engine tile
    let s := (List.range 2).foldl (fun (s : State) k =>
      ((e.lanes.getD k []).filter fun j => j.run == some n).foldl (fun (s : State) j => s.killJob tile k j) s) s
    (e.mq.filter fun j => j.run == some n).foldl (fun (s : State) j => s.endMatrix tile j.id true) s) (s.takeFaults n)
  { s with
    lodges := s.lodges.mapVals fun _ l => { l with
      queue := l.queue.filter fun t => t.run != n, grids := l.grids.filter fun g => g.run != n,
      spmin := Sparse.erase l.spmin n, spblk := Sparse.erase l.spblk n, blocks := Sparse.erase l.blocks n,
      discards := l.discards.filter fun d => d.2 != n },
    grids := s.grids.filter fun g => g.run != n,
    sent := s.sent.filter fun x => x.task.run != n,
    launches := s.launches.map fun l =>
      if l.run != n then l
      else { l with status := some (l.status.getD 4), entered := true,
                    phase := match l.phase with | .bump => .bump | .bumpHeld => .bumpHeld | _ => .working } }

/-- A thread of a killed run stops at its boundary once its results have arrived; its stores stay in flight, but for what waits for the
reply to a trap (R183) (log entry 24). -/
def State.killThread (s : State) (th : Nat) : State :=
  match s.thread? th with
  | none => s
  | some t =>
    let s := s.giveUp th t
    if t.outs.all fun o => o.stopped then s.freeThread th else s.onThread th fun t => { t with park := .stop }

/-- RUN_KILL: a run ordered to end is stopped; RUN_TEARDOWN ends it (R183). A saved run is killed where it lies (log entry
24). -/
def State.runKill (s : State) (n : Nat) : State :=
  if 16 ≤ n then
    if s.saved.any fun x => savedKey x.cfg.runid == n && x.killed then
      let s := s.killWork n
      { s with saved := s.saved.map fun x => if savedKey x.cfg.runid = n then { x with jobs := [], tasks := [], maps := [] } else x }
    else s
  else
    let r := s.run n
    if !r.killed || r.phase == .free then s
    else if r.resuming then
      -- its state still lies in the save area: the slot is free again, and the saved run is killed
      let key := savedKey r.cfg.runid
      let s := (s.renameRun n key).orderKill key
      s.setRun n { Run.reset with gen := r.gen, cfgpa := r.cfgpa, bad := r.bad }
    else
      let s := (s.runEntries n).foldl (fun (s : State) e => s.abort ⟨false, true, 0xFF⟩ e.1 e.2.1) s
      if s.onHalted n then s
      else
      let s := (s.runThreads n).foldl (fun (s : State) x => s.killThread x.1) s
      let s := s.killWork n
      s.setRun n { s.run n with phase := .ending, returning := [] }

/-- PREEMPT (R179). -/
def execPreempt (slot : Nat) (s : State) : Out := .next (s.preempt slot)
/-- RESUME (R180). -/
def execResume (slot : Nat) (s : State) : Out := .next (s.resume slot)
/-- RUN_TEARDOWN (R182). -/
def execRunTeardown (slot : Nat) (s : State) : Out := .next (s.runTeardown slot)
/-- RUN_KILL (R183). -/
def execRunKill (slot : Nat) (s : State) : Out := .next (s.runKill slot)

end Sys2Proof.Machine
end

