-- ==== Sys2Proof/Machine/HostLink.lean ====
section
/-! DEFINITION. Host and fabric (03): host reads, writes and snoops (R51 to R57), bias flips (R58 to R62), port failures
(R65, R66), firmware, service code and attestation (R67 to R70); lateral links and power (R15 to R17, R23, R24). -/
namespace Sys2Proof.Machine
open Sys2Proof

-- Host accesses (R51, R55 to R57, R59).

/-- The line of a CXL line, counted in 64-byte halves from physical address 0. -/
def lineOfHalf (half : Nat) : Nat := half / 2
/-- First bit of a half in its line. -/
def halfShift (half : Nat) : Nat := half % 2 * 512
/-- A request to an offset that is not backed counts once for each CXL line (R51). -/
def State.badHdm (s : State) : State := s.onReg 0x041 fun v => satField v 32 16 1
/-- Offsets of the HDM range that device memory backs. -/
def State.hdmBacked (s : State) (half : Nat) : Bool := s.backed (half * 64) && !s.isSystem (half * 64)

/-- The home records a half at a holder, which may come to modify it where no other holder has the line (R59) (log entry 40). -/
def State.recordHolder (s : State) (k : Nat) : State :=
  let others := s.mem.hostLines.any fun h => lineOfHalf (heldHalf h.1) == lineOfHalf (heldHalf k) && heldBy h.1 != heldBy k
  let copy := if others then .shared else if Sparse.get? s.mem.hostLines k = some .modified then .modified else .sole
  { s with mem := { s.mem with hostLines := Sparse.set s.mem.hostLines k copy } }
/-- A holder changes what its copy of a half is, where the home records one that it may modify. -/
def State.holderCopy (s : State) (k : Nat) (c : HostCopy) : State :=
  match Sparse.get? s.mem.hostLines k with
  | none | some .shared => s
  | some _ => { s with mem := { s.mem with hostLines := Sparse.set s.mem.hostLines k c } }

/-- A host or peer read of a half, at a holder (log entry 65): while speculative state, a bias flip or another holder's copy stands on
the line it waits at the home, and answers later (R57, R59). In host bias the home records the half at the holder (log entry 40). -/
def State.hostRead (s : State) (k : Nat) : State :=
  let half := heldHalf k
  let line := lineOfHalf half
  if s.isSystem (half * 64) then s
  else if !s.hdmBacked half then
    let s := s.badHdm
    { s with host := { s.host with read := BitVec.allOnes 512, readPoison := true } }
  else
    let s := s.reprobe line
    let r := s.hostServes line (heldBy k) false
    if !r.1 || s.otherSpec line none then
      (if r.2.host.waiting.contains k then r.2 else { r.2 with host := { r.2.host with waiting := r.2.host.waiting ++ [k] } })
    else
      let s := ((r.2.recallStash line none).rekey line 0).homeRead line false
      let v := ((s.lineAt line 0) >>> halfShift half).setWidth 512
      let bad := s.poisoned line
      let s : State := { s with host := { s.host with read := v, readPoison := bad, waiting := s.host.waiting.filter (· != k) } }
      if (Sparse.getD s.mem.bias (line / 512) 0).getLsbD 0 then s.recordHolder k else s

/-- The part of a line that is one half, as a physical access under key slot 0 (R44) of a holder: the host, or a peer behind a port. -/
def halfPart (k : Nat) (sys : Bool) : Part :=
  { va := 0, place := if sys then .system else .line, pa := heldHalf k * 64, len := 64, cls := .u, key := 0, sub := false,
    priv := false, bias := false, remote := false, port := if heldBy k = 0 then none else some (heldBy k - 1) }
/-- A store of one half on its way to the home, after earlier ones to the line from outside (log entry 40): a write, or modified data that
answers a snoop. -/
def State.hostStore (s : State) (k : Nat) (data : BitVec 512) (poison answer : Bool) : PendStore :=
  let half := heldHalf k
  let before := (s.stores.filter fun x => x.agent == .host && x.part.pa / 128 == lineOfHalf half).getLast?
  { id := s.nextStore + 1, agent := .host, run := 16, key := Key.zero, specid := none, seq := 0,
    part := halfPart k (s.isSystem (half * 64)), mask := byteMask (half % 2 * 64) 64,
    data := data.setWidth 1024 <<< halfShift half, op := if poison then .poisoned else .write, cls := .u, rel := none,
    after := (match before with | some x => x.id | none => 0), log := none, hint := 0, answer := answer }
/-- It leaves: it is performed at once where the home can, and else stays in flight (R140). -/
def State.sendOuter (s : State) (x : PendStore) : State :=
  let s : State := { s with stores := s.stores ++ [x], nextStore := x.id }
  let r := s.storeReady x
  if r.1 then r.2.performStore x else r.2

/-- A snoop of the host or a switch on a line of its memory that the device holds (R54): modified data of both halves goes back, the
copies go, or stay clean, and each half answers the same final state. -/
def State.hostSnoop (s : State) (k : Nat) (invalidate : Bool) : State :=
  let line := lineOfHalf (heldHalf k)
  if !s.isSystem (heldHalf k * 64) then s
  else
    let s := if invalidate then s.dropLine line else (s.recallOwner line).cleanLine line
    let state := if invalidate then 0 else Nat.min 1 (s.sysHeld line)
    [2 * line, 2 * line + 1].foldl (fun (s : State) h => (s.setGrant h state).sendCache (.response h state)) s
/-- The host or a switch answers the device's request for a half (R53): the line is held once both halves are granted, at the weaker of
the two states; a request to own a line that the device held, answered with neither, takes the line from it. -/
def State.cacheGrant (s : State) (half state : Nat) : State :=
  let line := lineOfHalf half
  let t := s.answerHost half state
  if s.sysHeld line != 0 && t.sysHeld line == 0 then t.dropLine line else t

/-- A host or peer write: merged at the home with the other half and performed as an assured store (R55, R56); where the home
must hold it (R140), it stays in flight. In host bias the holder's own copy is the one it writes, which is then not modified any more (log
entry 40). A write of the owner's own memory first takes the device's copies (R54). -/
def State.hostWrite (s : State) (k : Nat) (data : BitVec 512) (poison : Bool) : State :=
  let half := heldHalf k
  let sys := s.isSystem (half * 64)
  if !sys && !s.hdmBacked half then s.badHdm
  else
    let s := if sys then s.hostSnoop k true else s.holderCopy k .sole
    s.sendOuter (s.hostStore k data poison false)

-- Bias (R58 to R62).

/-- A page-state entry, of the page PA[51:16]. -/
def State.pageState (s : State) (page : Nat) : BitVec 2 := Sparse.getD s.mem.bias page 0
/-- Change it. -/
def State.setPage (s : State) (page : Nat) (mig host : Bool) : State :=
  { s with mem := { s.mem with bias := Sparse.set s.mem.bias page (BitVec.ofBool mig ++ BitVec.ofBool host) } }
/-- PAGE_REQ or BIAS_CTL. -/
def State.biasReg (s : State) (host : Bool) : Nat := if host then s.bar 0x0200 0 else s.reg 0x040
/-- Store it. -/
def State.setBiasReg (s : State) (host : Bool) (v : Nat) : State := if host then s.setBar 0x0200 v else s.setReg 0x040 v
/-- A request ends with a result. -/
def State.biasDone (s : State) (host : Bool) (result : Nat) : State :=
  s.setBiasReg host (putField (putField (s.biasReg host) 63 1 0) 60 3 result)
/-- The lines of a page. -/
def pageLines (page : Nat) : List Nat := (List.range 512).map fun i => page * 512 + i
/-- Halves of a page that the home records at a holder, both of each line (R61). -/
def State.pageHeld (s : State) (page : Nat) : List Nat :=
  (s.mem.hostLines.filter fun h => heldHalf h.1 / 1024 == page).flatMap fun h =>
    let line := heldHalf h.1 / 2
    [heldAt (2 * line) (heldBy h.1), heldAt (2 * line + 1) (heldBy h.1)]
/-- Invalidating snoops of a page that have no answer yet. -/
def State.pageSnoops (s : State) (page : Nat) : List Nat :=
  (s.mem.snoops.filter fun h => heldHalf h.1 / 1024 == page && h.2).map fun h => h.1

/-- A flip in progress goes on: to host bias, dirty copies go home and replicas go (R60); to device bias, it waits for the
holders' answers for both halves of every line recorded, and for the data they returned to be written (R61). -/
def State.flipStep (s : State) (host : Bool) : State :=
  let v := s.biasReg host
  let page := bitsOf v 16 36
  if !bitOf v 63 then s
  else if bitsOf v 0 2 = 1 then
    let lines := (pageLines page).filter fun l =>
      (Sparse.get? s.mem.chip l).isSome || (s.l3? l).isSome || s.stash.lines.any fun (m : MapLine) => m.pa == l
    let s := lines.foldl (fun (s : State) l =>
      let key := s.lineKey l
      let s := s.cleanLine l
      s.collapse l 1 (s.lineAt l key) true false [] .none) s
    (s.setPage page false true).biasDone host 0
  else
    let sent := s.pageSnoops page
    let need := (s.pageHeld page).filter fun h =>
      !sent.contains h && !(sent.any fun o => heldBy o == heldBy h && heldHalf o / 2 == heldHalf h / 2)
    if s.stores.any (fun x => x.answer && x.part.pa / 2 ^ 16 == page) then s
    else if sent.isEmpty && need.isEmpty then (s.setPage page false false).biasDone host 0
    else { s with mem := { s.mem with snoops := need.foldl (fun m h => Sparse.set m h true) s.mem.snoops } }

/-- A write to PAGE_REQ or BIAS_CTL (R62). That a request for a page of system space, which has no page-state
entry, ends with RESULT 2, as one for an unbacked page does, is the model's choice (log entry 39). -/
def State.biasWrite (s : State) (host : Bool) (v : Nat) : State :=
  let old := s.biasReg host
  if bitOf old 63 then s
  else
    let s := s.setBiasReg host (putField (putField old 16 36 (bitsOf v 16 36)) 0 2 (bitsOf v 0 2))
    if !bitOf v 63 then s
    else
      let page := bitsOf v 16 36
      let op := bitsOf v 0 2
      let st := s.pageState page
      let inDevice := s.backed (2 ^ 16 * page) && !s.isSystem (2 ^ 16 * page)
      if op = 3 ∨ !inDevice then s.biasDone host 2
      else if op = 0 then s.biasDone host 0
      else if st.getLsbD 1 then s.biasDone host 1
      else if st.getLsbD 0 == (op == 1) then s.biasDone host 0
      else
        let s := s.setBiasReg host (putField (s.biasReg host) 63 1 1)
        let s := s.setPage page true (st.getLsbD 0)
        -- a flip to device bias sends its snoops at once
        if op = 2 then s.flipStep host else s

/-- The host, or a peer, answers a back-invalidate snoop: modified data is written as a host store is, and held back as one is (R56,
R59, R61, R140). -/
def State.birsp (s : State) (k : Nat) (modified : Bool) (data : BitVec 512) : State :=
  match Sparse.get? s.mem.snoops k with
  | none => s
  | some inv =>
    let s : State := { s with mem := { s.mem with
      snoops := Sparse.erase s.mem.snoops k,
      hostLines := if inv then Sparse.erase s.mem.hostLines k
        else if (Sparse.get? s.mem.hostLines k).isSome then Sparse.set s.mem.hostLines k .shared else s.mem.hostLines } }
    if modified then s.sendOuter (s.hostStore k data false true) else s

-- BAR0.

/-- Offsets of BAR0 that a register map assigns. -/
def bar0Assigned (off : Nat) : Bool :=
  [0x0100, 0x0110, 0x0118, 0x0200, 0x0208, 0x0210].contains (off / 8 * 8) ||
    (decide (0x0400 ≤ off) && decide (off < 0x0600)) || (decide (0x01000000 ≤ off) && decide (off < 0x02000000)) || (decide (0x07000000 ≤ off) && decide (off < 0x07000800)) ||
    (decide (0x08000000 ≤ off) && decide (off < 0x10000000))
/-- A host access to an offset that no map assigns: a read answers zero, a write is dropped (R469). -/
def State.bar0Unassigned (s : State) (off : Nat) (write : Bool) : State :=
  if bar0Assigned off || write then s else { s with host := { s.host with bar0Read := 0 } }

-- Ports (R48, R63, R65, R66).

/-- A part of an access has been sent on a port and is not yet answered (R63). -/
def State.sentOn (s : State) (port : Nat) (p : Part) : Bool :=
  let line := p.pa / 128
  p.place == .system && (if p.bias || p.remote then p.port == some port
    else if (Sparse.get? s.mem.asked (2 * line)).isSome || (Sparse.get? s.mem.asked (2 * line + 1)).isSome then
      Sparse.get? s.mem.heldPort line == some port
    else s.sysHeld line == 0 && p.port == some port)
/-- The reads of threads that were sent on a failed port have come back with poisoned data: their lines are poisoned, and they wait for no
other answer (R40, R41, R65) (log entry 41). -/
def State.poisonReads (s : State) (port : Nat) : State :=
  let lost := s.threads.flatMap fun x => x.2.outs.flatMap fun o => (o.parts.filter (s.sentOn port)).map fun p => p.pa / 128
  let asked := (s.mem.asked.filter fun a => !a.2 && Sparse.get? s.mem.heldPort (a.1 / 2) == some port).map fun a => a.1 / 2
  let back (p : Part) : Part := if s.sentOn port p then { p with bias := true, port := none } else p
  let t : State := { s with threads := s.threads.mapVals fun _ t => { t with outs := t.outs.map fun o => { o with parts := o.parts.map back } } }
  (lost ++ asked).foldl (fun (s : State) l => s.poisonLine l) t
/-- What the device had modified of a half of peer memory never reaches the peer: what the half holds is the peer's own older value, of
which the model keeps nothing, and is free (log entry 3) (log entry 41). -/
def State.loseHalf (s : State) (half : Nat) : State :=
  let words := (List.range 8).map fun i => Config.freeWord (s.fresh + i)
  let bytes := words.flatMap fun w => (List.range 8).map fun i => BitVec.ofNat 8 (bitsOf w.toNat (8 * i) 8)
  { s with fresh := s.fresh + 8, mem := { s.mem with sys := cellsWrite s.mem.sys (half * 64) bytes } }
/-- A holder of device lines has gone: those it held modified are poisoned, and the directory drops its records (R43). -/
def State.loseHolder (s : State) (holder : Nat) : State :=
  let s := (s.mem.hostLines.filter fun h => h.2 == .modified && heldBy h.1 == holder).foldl (fun (s : State) h => s.poisonLine (lineOfHalf (heldHalf h.1))) s
  { s with mem := { s.mem with hostLines := s.mem.hostLines.filter fun h => heldBy h.1 != holder,
                               snoops := s.mem.snoops.filter fun h => heldBy h.1 != holder },
           host := { s.host with waiting := s.host.waiting.filter fun h => heldBy h != holder } }
/-- FABRIC_PORT_FAIL: stores under way on the port are lost, reads end poisoned, the peer lines held through it go without being
written back, and R43 applies to the device lines that peers held through it (R65) (log entry 41). -/
def State.portFail (s : State) (port : Nat) : State :=
  if !s.host.fabUp.getLsbD port then s
  else
    let here (line : Nat) : Bool := Sparse.get? s.mem.heldPort line == some port
    let held := ((s.coh.l1.map fun (l : L1Line) => l.line) ++ (s.coh.l2.map fun (e : L2Entry) => e.line) ++
      (s.stash.lines.map fun (m : MapLine) => m.pa) ++ s.mem.grants.map fun (g : Nat × Nat) => g.1 / 2).filter here
    let dirty := s.mem.dirty.filter fun h => here (h / 2)
    let lost := s.stores.filter fun x => x.agent != .host && s.sentOn port x.part
    let s := lost.foldl (fun (s : State) x => match x.agent with | .thread th => s.leaveS th x.seq | _ => s) (s.loseStores lost)
    let s := s.poisonReads port
    let s : State := { s with
      stash := { s.stash with lines := s.stash.lines.filter fun m => !here m.pa },
      mem := { s.mem with grants := s.mem.grants.filter fun g => !here (g.1 / 2), dirty := s.mem.dirty.filter fun h => !here (h / 2),
                          asked := s.mem.asked.filter fun a => !here (a.1 / 2),
                          heldPort := s.mem.heldPort.filter fun p => p.2 != port } }
    let s := held.foldl (fun (s : State) l => s.invalidateAll l) s
    let s := dirty.foldl (fun (s : State) h => s.loseHalf h) s
    let s := s.loseHolder (port + 1)
    let s : State := { s with host := { s.host with fabUp := s.host.fabUp &&& ~~~(1#12 <<< port) } }
    (s.onReg 0x041 fun v => satField v 0 16 1).logEvent 1 port
/-- FABRIC_PORT_UP (R65). -/
def State.portUp (s : State) (port : Nat) : State :=
  if 12 ≤ port then s
  else ({ s with host := { s.host with fabUp := s.host.fabUp ||| (1#12 <<< port) } } : State).logEvent 1 (16 + port)
/-- HOST_PORT_FAIL: lines the host held modified are poisoned, the others dropped, and the device stops; the port's change and the fatal
error are reported (R43, R65, R66) (log entry 66). -/
def State.hostFail (s : State) : State :=
  let s := s.loseHolder 0
  (({ s with host := { s.host with hostUp := false, hostWidth := 0 } } : State).logEvent 1 32).fatalStop 0x065
/-- A port trains to a width or rate that is not listed: it is down while it trains, and is held down and counted (R48). -/
def State.trainingHeld (s : State) : State := s.onReg 0x041 fun v => satField v 16 16 1
/-- The host port trains to a width and rate, by HOSTW's code; one not listed is held down, so that a port that was up has failed (R48, R65,
R66). -/
def State.hostTrain (s : State) (width : Nat) : State :=
  if width = 0 ∨ 4 < width then (if s.host.hostUp then s.trainingHeld.hostFail else s.trainingHeld)
  else ({ s with host := { s.host with hostUp := true, hostWidth := width } } : State).logEvent 1 32

-- Errors that strike memory (R26, R40).

/-- An error stands in a slot of HBM until a read or the scrub finds it (R26, R36). -/
def State.hbmError (s : State) (slot : Nat) (unc : Bool) : State :=
  { s with mem := { s.mem with errors := Sparse.set s.mem.errors slot (unc || Sparse.getD s.mem.errors slot false) } }
/-- An uncorrectable soft error is found in a line that L1D, L2, L3 or a waystation holds, or in a line of a stash (R40) (log entry 73).
-/
def State.softError (s : State) : Struck → State
  | .line n => s.poisonLine n
  | .stash tile line =>
    let n := 8192 * tile + line % 8192
    if s.stash.poison.contains n then s
    else
      let at' := match s.stash.lines.find? fun (m : MapLine) => m.tile == tile && m.off / 128 == line % 8192 with
        | some m => m.pa
        | none => n
      ({ s with stash := { s.stash with poison := insertNat s.stash.poison n } } : State).newPoison at'

-- Lateral links and power (R15 to R17, R23, R24).

/-- LATERAL_RETRAIN_FAIL (R17). -/
def State.lateralFail (s : State) : State := (s.onReg 0x00D fun v => putField v 3 1 1).fatalStop 0x017
/-- CRITICAL_TEMPERATURE (R24). -/
def State.critical (s : State) : State := (s.onReg 0x00D fun v => putField v 2 1 1).fatalStop 0x024
/-- The end of a 1 ms window: power and throttling as POWER_STAT shows them; results never change (R23). -/
def State.throttle (s : State) (watts : Nat) (thermal : Bool) : State :=
  let limit := Nat.min 2000 (Nat.max 600 (bitsOf (s.reg 0x00C) 0 12))
  let above := decide (limit < watts)
  s.onReg 0x00D fun v =>
    let v := putField (putField (putField v 20 12 (Nat.min 4095 watts)) 1 1 thermal.toNat) 0 1 above.toNat
    if above || thermal then satField v 32 32 1 else v

-- Firmware, service code, attestation (R67 to R70).

/-- Bytes of the staging window. -/
def State.staged (s : State) (n : Nat) : List Byte := (List.range n).map fun i => cellRead s.host.staging i
/-- FW_CTL. -/
def State.fwCtl (s : State) : Nat := s.bar 0x0100 0
/-- SVC_CTL. -/
def State.svcCtl (s : State) : Nat := s.bar 0x0110 (64 <<< 50)
/-- A write to FW_CTL (R67): in WAIT_IMAGE or REJECTED, GO has the staged image checked. A running image leaves the service
slots held, and SVC_CTL.STATE 0 (log entries 7, 42, 43). -/
def State.fwWrite (s : State) (v : Nat) : State :=
  let s := s.setBar 0x0100 (putField s.fwCtl 8 32 (bitsOf v 8 32))
  let st := bitsOf s.fwCtl 0 2
  if !bitOf v 63 || st == 1 || st == 2 then s
  else
    let len := bitsOf v 8 32
    let digest := Config.sha3 (s.staged len)
    if 2 ^ 24 < len ∨ !Config.imageVerifies digest ∨ (Config.imageVersion digest).toNat < Config.minSecurityVersion.toNat then
      s.setBar 0x0100 (putField s.fwCtl 0 2 3)
    else
      let svn := Config.imageVersion digest
      let s := s.setBar 0x0100 (putField (putField s.fwCtl 4 4 svn.toNat) 0 2 2)
      let s := s.setBar 0x0110 (putField s.svcCtl 60 3 0)
      { s with
        threads := s.threads.filter fun t => !isInnkeeperCore (coreOf t.1),
        host := { s.host with fwDigest := some digest, svn := svn } }
/-- FIRMWARE_LOSS (R68). -/
def State.fwLost (s : State) : State :=
  let s := s.setBar 0x0100 (putField s.fwCtl 0 2 0)
  { s with host := { s.host with fwDigest := none } }

/-- The leaf of 64 GiB number n of the identity table: U, RD, WR, EX, key 0, CLS 2 (R70). -/
def identityLeaf (n : Nat) : Nat := 2 ^ 28 * (2 ^ 36 * n / 2 ^ 16) + 2 * 2 ^ 11 + 2 * 2 ^ 7 + 0b11111
/-- The words of the identity table at a root address: the root table, then 64 level-2 tables. -/
def identityWords (root : Nat) : List (BitVec 64) :=
  ((List.range 1024).map fun i => if i < 64 then BitVec.ofNat 64 (root + 8192 * (i + 1) + 1) else 0) ++
    (List.range (64 * 1024)).map fun n => BitVec.ofNat 64 (identityLeaf n)
/-- The range from BASE to the end of the table is backed with S = SPREAD, in the spread window or in quadrant 0's. -/
def svcBacked (spread base stop : Nat) : Bool :=
  decide (stop ≤ gib * (8 * spread)) || (decide (2 ^ 40 ≤ base) && decide (stop ≤ 2 ^ 40 + gib * (2 * (64 - spread))))
/-- Store bytes at rising physical addresses, a line at a time, under key slot 0. -/
def State.physBytes (s : State) (pa : Nat) (b : List Byte) : Nat → State
  | 0 => s
  | f + 1 =>
    if b.isEmpty then s
    else
      let n := Nat.min b.length (128 - pa % 128)
      let data := packElems 8 ((b.take n).map fun x => x.toNat)
      let s := (s.perform (pa / 128) 0 (byteMask (pa % 128) n) (putLine 0 (pa % 128) n data) (plainStorer (.launch 0) none .u)).2
      s.physBytes (pa + n) (b.drop n) f
/-- A service slot as it starts (R70) (log entry 43). -/
def serviceThread (die k base entry : Nat) : Thread :=
  ((Thread.fresh (BitVec.ofNat 56 (base + entry))).setG 0 (BitVec.ofNat 64 die)).setG 1 (BitVec.ofNat 64 k) |>.setG 2
    (BitVec.ofNat 64 base)
/-- A write to SVC_CTL (R70); a device stopped by a fatal error takes none (R167) (log entries 7, 42, 43). -/
def State.svcWrite (s : State) (v : Nat) : State :=
  let st := bitsOf s.svcCtl 60 3
  if st == 1 || st == 2 || s.fatal then s
  else
    let s := s.setBar 0x0110 (putField (v % 2 ^ 57) 60 3 st)
    if !bitOf v 63 || bitsOf s.fwCtl 0 2 != 2 then s
    else
      let spread := bitsOf v 50 7
      let len := bitsOf v 0 25
      let entry := bitsOf v 25 25
      let base := 2 ^ 16 * (bitsOf (s.bar 0x0118 0) 16 36)
      let root := s.identityRoot
      if 64 < spread ∨ len = 0 ∨ 2 ^ 24 < len ∨ entry % 8 ≠ 0 ∨ len ≤ entry ∨ !svcBacked spread base (root + 520 * 1024) then
        s.setBar 0x0110 (putField s.svcCtl 60 3 3)
      else
        let image := s.staged len
        let s := (s.spreadWrite (2 ^ 63 + spread)).physBytes base image (len + 1)
        let s := (identityWords root).foldl (fun (a : Nat × State) w => (a.1 + 8, a.2.physStore a.1 8 w.toNat 0)) (root, s)
        let s : State := { s.2 with host := { s.2.host with svcDigest := some (Config.sha3 image) } }
        let s := (List.range 4).foldl (fun (s : State) d => (List.range 8).foldl (fun (s : State) k =>
          s.setThread (d * 512 * 8 + k) (serviceThread d k base entry)) s) s
        s.setBar 0x0110 (putField s.svcCtl 60 3 2)
/-- A write to SVC_BASE (R70). -/
def State.svcBaseWrite (s : State) (v : Nat) : State :=
  let st := bitsOf s.svcCtl 60 3
  if st == 1 || st == 2 then s else s.setBar 0x0118 (2 ^ 16 * (bitsOf v 16 36))

/-- 512 bits that the spec leaves open, fresh each time (log entry 3). -/
def State.free512 (s : State) : BitVec 512 × State :=
  (BitVec.ofNat 512 (packElems 64 ((List.range 8).map fun i => (Config.freeWord (s.fresh + i)).toNat)),
    { s with fresh := s.fresh + 8 })
/-- SPDM_REQUEST: a measurement block, and the device's signature over the SHA3-512 of the exchange's transcript (R69). A block with
nothing measured yet has no stated value (log entry 7). -/
def State.spdm (s : State) (block : Nat) : State :=
  if block = 0 ∨ 4 < block then s
  else
    let m := match block with
      | 1 => s.host.fwDigest
      | 2 => s.host.svcDigest
      | 3 => s.host.layoutDigest
      | _ => some (s.host.svn.setWidth 512)
    let r := match m with
      | some d => (d, s)
      | none => s.free512
    let signed := Config.sha3 (Config.spdmTranscript r.2.fresh block r.1)
    { r.2 with fresh := r.2.fresh + 1,
               host := { r.2.host with read := r.1, readPoison := false, signature := Config.identitySignature signed } }

-- Events.

/-- BIAS_FLIP_TO_HOST: the request, or its next step (R60, R62). -/
def execBiasFlipToHost (host : Bool) (v : BitVec 64) (s : State) : Out :=
  .next (if bitOf (s.biasReg host) 63 then s.flipStep host else s.biasWrite host (putField (putField v.toNat 63 1 1) 0 2 1))
/-- BIAS_FLIP_TO_DEVICE (R61, R62). -/
def execBiasFlipToDevice (host : Bool) (v : BitVec 64) (s : State) : Out :=
  .next (if bitOf (s.biasReg host) 63 then s.flipStep host else s.biasWrite host (putField (putField v.toNat 63 1 1) 0 2 2))
/-- BIRSP (R59) (log entry 65). -/
def execBirsp (line : Nat) (half modified : Bool) (data : BitVec 512) (s : State) : Out :=
  .next (s.birsp (2 * line + half.toNat) modified data)
/-- HOST_MEM_READ (R57) (log entry 65). -/
def execHostMemRead (half : Nat) (s : State) : Out := .next (s.hostRead half)
/-- HOST_MEM_WRITE (R56) (log entry 65). -/
def execHostMemWrite (half : Nat) (data : BitVec 512) (poison : Bool) (s : State) : Out := .next (s.hostWrite half data poison)
/-- HOST_SNOOP (R54). -/
def execHostSnoop (half : Nat) (invalidate : Bool) (s : State) : Out := .next (s.hostSnoop half invalidate)
/-- UNASSIGNED_BAR0_ACCESS (R469). -/
def execUnassignedBar0Access (off : Nat) (write : Bool) (_v : BitVec 64) (s : State) : Out := .next (s.bar0Unassigned off write)
/-- FLIT_REPLAY: programs see nothing of it (R15). -/
def execFlitReplay (s : State) : Out := .next s
/-- LATERAL_RETRAIN_FAIL (R17). -/
def execLateralRetrainFail (s : State) : Out := .next s.lateralFail
/-- FABRIC_PORT_FAIL (R65). -/
def execFabricPortFail (port : Nat) (s : State) : Out := .next (s.portFail port)
/-- FABRIC_PORT_UP (R65). -/
def execFabricPortUp (port : Nat) (s : State) : Out := .next (s.portUp port)
/-- HOST_PORT_FAIL (R65). -/
def execHostPortFail (s : State) : Out := .next s.hostFail
/-- PORT_TRAINING_HELD (R48). -/
def execPortTrainingHeld (s : State) : Out := .next s.trainingHeld
/-- POWER_THROTTLE (R23). -/
def execPowerThrottle (watts : Nat) (thermal : Bool) (s : State) : Out := .next (s.throttle watts thermal)
/-- CRITICAL_TEMPERATURE (R24). -/
def execCriticalTemperature (s : State) : Out := .next s.critical
/-- FW_SUBMIT (R67). -/
def execFwSubmit (v : BitVec 64) (s : State) : Out := .next (s.fwWrite (putField v.toNat 63 1 1))
/-- FIRMWARE_LOSS (R68). -/
def execFirmwareLoss (s : State) : Out := .next s.fwLost
/-- SVC_SUBMIT (R70). -/
def execSvcSubmit (v : BitVec 64) (s : State) : Out := .next (s.svcWrite (putField v.toNat 63 1 1))
/-- SPDM_REQUEST (R69). -/
def execSpdmRequest (block : Nat) (s : State) : Out := .next (s.spdm block)

end Sys2Proof.Machine
end

