-- ==== Sys2Proof/Machine/Scalar.lean ====
section
/-! DEFINITION. Scalar integer and address instructions, opcodes 0x00–0x15 and 0x17, and predicates and masks,
0x18–0x1E (R312 to R319, R321 to R324). -/
namespace Sys2Proof.Machine
open Sys2Proof

/-- Clamp under SAT (R314). -/
def satOf (ty : Ty) (sat : Bool) (r : Int) : Int := if sat then clampOf ty r else r

/-- The arithmetic and logical instructions (R314): Val of both sources, an exact result, SAT, Ext. -/
def aluOp (op : Int → Int → Int) (h : Hdr) (ty : Ty) (sat : Bool) (d a : GReg) (b : Src) (s : State) : Out :=
  regOp s h b.len (numG d :: numG a :: numSrc b) fun t =>
    t.setG d (extOf ty (satOf ty sat (op (valOf ty (t.getG a)) (valOf ty (t.src ty b)))))

/-- The bitwise instructions, on the w-bit patterns (R314). -/
def bitOp (op : LogOp) (h : Hdr) (ty : Ty) (d a : GReg) (b : Src) (s : State) : Out :=
  regOp s h b.len (numG d :: numG a :: numSrc b) fun t =>
    t.setG d (extOf ty ((op.apply (t.getG a) (t.src ty b)).toNat : Int))

/-- add (R314). -/
def execAdd (h : Hdr) (ty : Ty) (sat : Bool) (d a : GReg) (b : Src) (s : State) : Out :=
  aluOp (fun x y => x + y) h ty sat d a b s
/-- sub (R314). -/
def execSub (h : Hdr) (ty : Ty) (sat : Bool) (d a : GReg) (b : Src) (s : State) : Out :=
  aluOp (fun x y => x - y) h ty sat d a b s
/-- mul (R314). -/
def execMul (h : Hdr) (ty : Ty) (sat : Bool) (d a : GReg) (b : Src) (s : State) : Out :=
  aluOp (fun x y => x * y) h ty sat d a b s
/-- mulh: the upper w bits of the 2w-bit product (R314). -/
def execMulh (h : Hdr) (ty : Ty) (d a : GReg) (b : Src) (s : State) : Out :=
  aluOp (fun x y => (x * y) / ((2 ^ ty.fixedWidth : Nat) : Int)) h ty false d a b s
/-- min (R314). -/
def execMin (h : Hdr) (ty : Ty) (d a : GReg) (b : Src) (s : State) : Out :=
  aluOp (fun x y => if y < x then y else x) h ty false d a b s
/-- max (R314). -/
def execMax (h : Hdr) (ty : Ty) (d a : GReg) (b : Src) (s : State) : Out :=
  aluOp (fun x y => if x < y then y else x) h ty false d a b s
/-- and (R314). -/
def execAnd (h : Hdr) (ty : Ty) (d a : GReg) (b : Src) (s : State) : Out := bitOp .and h ty d a b s
/-- or (R314). -/
def execOr (h : Hdr) (ty : Ty) (d a : GReg) (b : Src) (s : State) : Out := bitOp .or h ty d a b s
/-- xor (R314). -/
def execXor (h : Hdr) (ty : Ty) (d a : GReg) (b : Src) (s : State) : Out := bitOp .xor h ty d a b s
/-- andn: a AND NOT b (R314). -/
def execAndn (h : Hdr) (ty : Ty) (d a : GReg) (b : Src) (s : State) : Out := bitOp .andn h ty d a b s

/-- The quotient of R315: truncated towards zero; all ones when b = 0. -/
def quotient (a b : Int) : Int := if b = 0 then -1 else a.tdiv b
/-- The remainder of R315: it takes the sign of a; a itself when b = 0. -/
def remainder (a b : Int) : Int := if b = 0 then a else a.tmod b

/-- A variable-latency scalar result (R156, R313). -/
def divOp (op : Int → Int → Int) (h : Hdr) (ty : Ty) (d a : GReg) (b : Src) (s : State) : Out :=
  varOp s h b.len (numG d :: numG a :: numSrc b) fun t =>
    s.finish s.focus b.len (t.addOut (readyOut t (numG d)
      (extOf ty (op (valOf ty (t.getG a)) (valOf ty (t.src ty b))))))

/-- div (R315). -/
def execDiv (h : Hdr) (ty : Ty) (d a : GReg) (b : Src) (s : State) : Out := divOp quotient h ty d a b s
/-- rem (R315). -/
def execRem (h : Hdr) (ty : Ty) (d a : GReg) (b : Src) (s : State) : Out := divOp remainder h ty d a b s

/-- (p << s) mod 2^w, or 0 when s ≥ w (R316). -/
def shiftLeft (w p s : Nat) : Nat := if s ≥ w then 0 else (p <<< s) % 2 ^ w
/-- p >> s filling with zeros, or 0 when s ≥ w (R316). -/
def shiftRight (w p s : Nat) : Nat := if s ≥ w then 0 else (p % 2 ^ w) >>> s
/-- p >> s filling with p[w−1], or w copies of it when s ≥ w (R316). -/
def shiftArith (w p s : Nat) : Nat := patternOf w (signedOf w p >>> (if s ≥ w then w - 1 else s))
/-- p rotated right by s mod w (R316). -/
def rotateRight (w p s : Nat) : Nat :=
  let k := s % w
  (((p % 2 ^ w) >>> k) ||| (p <<< (w - k))) % 2 ^ w
/-- p rotated left by s mod w. -/
def rotateLeft (w p s : Nat) : Nat := rotateRight w p (w - s % w)

/-- The shifts act on the w-bit pattern of gA, by an unsigned 64-bit count (R316). -/
def shiftOp (op : Nat → Nat → Nat → Nat) (h : Hdr) (ty : Ty) (d a : GReg) (b : Src32) (s : State) : Out :=
  regOp s h b.len (numG d :: numG a :: numSrc32 b) fun t =>
    t.setG d (extOf ty ((op ty.fixedWidth ((t.getG a).toNat % 2 ^ ty.fixedWidth) (t.src32 ty b).toNat : Nat) : Int))

/-- shl (R316). -/
def execShl (h : Hdr) (ty : Ty) (d a : GReg) (b : Src32) (s : State) : Out := shiftOp shiftLeft h ty d a b s
/-- shr (R316). -/
def execShr (h : Hdr) (ty : Ty) (d a : GReg) (b : Src32) (s : State) : Out := shiftOp shiftRight h ty d a b s
/-- sar (R316). -/
def execSar (h : Hdr) (ty : Ty) (d a : GReg) (b : Src32) (s : State) : Out := shiftOp shiftArith h ty d a b s
/-- rot (R316). -/
def execRot (h : Hdr) (left : Bool) (ty : Ty) (d a : GReg) (b : Src32) (s : State) : Out :=
  shiftOp (if left then rotateLeft else rotateRight) h ty d a b s

/-- mov (R319). -/
def execMov (h : Hdr) (ty : Ty) (d : GReg) (a : Src) (s : State) : Out :=
  regOp s h a.len (numG d :: numSrc a) fun t => t.setG d (extOf ty (valOf ty (t.src ty a)))

/-- sel (R319). -/
def execSel (h : Hdr) (d a b : GReg) (c : PReg) (s : State) : Out :=
  regOp s h 8 [numG d, numG a, numG b, numP c] fun t => t.setG d (if t.getP c then t.getG a else t.getG b)

/-- bit (R317): counts are written zero-extended, brev through Ext. -/
def execBit (h : Hdr) (op : BitOp) (ty : Ty) (d a : GReg) (s : State) : Out :=
  regOp s h 8 [numG d, numG a] fun t =>
    let w := ty.fixedWidth
    let p := (t.getG a).toNat % 2 ^ w
    t.setG d (match op with
      | .brev => extOf ty (reverseBits w p : Int)
      | op => BitVec.ofNat 64 (bitCount op w p))

/-- The field [hi:pos] that bext and bins name (R318): pos and its length hi − pos + 1. -/
def fieldOf (b : BitVec 64) : Nat × Nat :=
  let pos := bitsOf b.toNat 0 6
  let len := if bitsOf b.toNat 8 6 = 0 then 64 else bitsOf b.toNat 8 6
  (pos, Nat.min 63 (pos + len - 1) - pos + 1)

/-- bext (R318). -/
def execBext (h : Hdr) (ty : Ty) (d a : GReg) (b : Src32) (s : State) : Out :=
  regOp s h b.len (numG d :: numG a :: numSrc32 b) fun t =>
    let f := fieldOf (t.src32 ty b)
    let v := bitsOf (t.getG a).toNat f.1 f.2
    t.setG d (if ty.signed then BitVec.ofInt 64 (signedOf f.2 v) else BitVec.ofNat 64 v)

/-- bins (R318): D is both a source and the destination. -/
def execBins (h : Hdr) (ty : Ty) (d a : GReg) (b : Src32) (s : State) : Out :=
  regOp s h b.len (numG d :: numG a :: numSrc32 b) fun t =>
    let f := fieldOf (t.src32 ty b)
    let hole := BitVec.ofNat 64 ((2 ^ f.2 - 1) <<< f.1)
    t.setG d ((t.getG d &&& ~~~hole) ||| (BitVec.ofNat 64 ((t.getG a).toNat <<< f.1) &&& hole))

/-- cvt (R319, R270). -/
def execCvt (h : Hdr) (src dst : Ty) (d a : GReg) (s : State) : Out :=
  regOp s h 8 [numG d, numG a] fun t => t.setG d (extOf dst (clampOf dst (valOf src (t.getG a))))

/-- lea: gA + (B << SUB), the immediate sign-extended (R319). -/
def execLea (h : Hdr) (sc : BitVec 3) (d a : GReg) (b : Src32) (s : State) : Out :=
  regOp s h b.len (numG d :: numG a :: numSrc32 b) fun t =>
    t.setG d (t.getG a + (t.src32 .none b <<< sc.toNat))

/-- nop (R321). -/
def execNop (h : Hdr) (ext : NopExt) (s : State) : Out := regOp s h ext.len [] fun t => t

/-- pcmp (R323). -/
def execPcmp (h : Hdr) (rel : Cmp) (ty : Ty) (d : PReg) (a : GReg) (b : Src32) (s : State) : Out :=
  regOp s h b.len (numP d :: numG a :: numSrc32 b) fun t =>
    t.setP d (rel.holds (valOf ty (t.getG a)) (valOf ty (t.src32 ty b)))

/-- plog (R323); for .not, B is unused. -/
def execPlog (h : Hdr) (op : LogOp) (d a b : PReg) (s : State) : Out :=
  regOp s h 8 [numP d, numP a, numP b] fun t => t.setP d (op.applyBool (t.getP a) (t.getP b))

/-- mlog (R323); for .not, B is unused. -/
def execMlog (h : Hdr) (op : LogOp) (d a b : MReg) (s : State) : Out :=
  regOp s h 8 [numM d, numM a, numM b] fun t => t.setM d (op.apply (t.getM a) (t.getM b))

/-- mmov mD, gA (R323). -/
def execMmovMG (h : Hdr) (d : MReg) (a : GReg) (s : State) : Out :=
  regOp s h 8 [numM d, numG a] fun t => t.setM d (t.getG a)
/-- mmov gD, mA (R323). -/
def execMmovGM (h : Hdr) (d : GReg) (a : MReg) (s : State) : Out :=
  regOp s h 8 [numG d, numM a] fun t => t.setG d (t.getM a)
/-- mmov mD, imm (R323): imm32 is sign-extended. -/
def execMmovMImm (h : Hdr) (d : MReg) (v : Imm) (s : State) : Out :=
  regOp s h v.len [numM d] fun t => t.setM d (match v with | .imm32 x => x.signExtend 64 | .imm64 x => x)

/-- mcnt (R324). -/
def execMcnt (h : Hdr) (op : CntOp) (d : GReg) (a : MReg) (s : State) : Out :=
  regOp s h 8 [numG d, numM a] fun t => t.setG d (BitVec.ofNat 64 (op.count (t.getM a)))

/-- mfirst (R324): n is signed; its immediate is extended by the signedness of TY. -/
def execMfirst (h : Hdr) (ty : Ty) (d : MReg) (n : Src32) (s : State) : Out :=
  regOp s h n.len (numM d :: numSrc32 n) fun t =>
    t.setM d (firstMask ty.fixedWidth (signedOf 64 (t.src32 ty n).toNat))

/-- pmov pD, gA (R323). -/
def execPmovPG (h : Hdr) (d : PReg) (a : GReg) (s : State) : Out :=
  regOp s h 8 [numP d, numG a] fun t => t.setP d (t.getG a != 0)
/-- pmov gD, pA (R323). -/
def execPmovGP (h : Hdr) (d : GReg) (a : PReg) (s : State) : Out :=
  regOp s h 8 [numG d, numP a] fun t => t.setG d (if t.getP a then 1 else 0)

end Sys2Proof.Machine
end

