-- ==== Sys2Proof/Machine/VectorInt.lean ====
section
/-! DEFINITION. Vector integer and lane instructions, opcodes 0x50–0x5F (R357 to R363). -/
namespace Sys2Proof.Machine
open Sys2Proof

/-- The value of integer element i. -/
def elemInt (ty : Ty) (x : Line) (i : Nat) : Int := valOf ty (BitVec.ofNat 64 (elem ty.fixedWidth x i))

/-- Element-wise integer arithmetic (R359): the scalar operation on each selected element. -/
def vi2Op (op : Int → Int → Int) (h : Hdr) (ty : Ty) (sat : Bool) (d a b : WReg) (s : State) : Out :=
  vecOp s h 8 (namesW [d, a, b]) (fun _ => false) [a, b] (some d) fun mask t =>
    let w := ty.fixedWidth
    t.setW d (writeElems mask w (t.getW d) fun i =>
      patternOf w (satOf ty sat (op (elemInt ty (t.getW a) i) (elemInt ty (t.getW b) i))))

/-- vadd. -/
def execVadd (h : Hdr) (ty : Ty) (sat : Bool) (d a b : WReg) (s : State) : Out := vi2Op (fun x y => x + y) h ty sat d a b s
/-- vsub. -/
def execVsub (h : Hdr) (ty : Ty) (sat : Bool) (d a b : WReg) (s : State) : Out := vi2Op (fun x y => x - y) h ty sat d a b s
/-- vmul: .lo is mul, .hi is mulh. -/
def execVmul (h : Hdr) (hi : Bool) (ty : Ty) (sat : Bool) (d a b : WReg) (s : State) : Out :=
  if hi then vi2Op (fun x y => (x * y) / ((2 ^ ty.fixedWidth : Nat) : Int)) h ty false d a b s
  else vi2Op (fun x y => x * y) h ty sat d a b s
/-- vmm. -/
def execVmm (h : Hdr) (max : Bool) (ty : Ty) (d a b : WReg) (s : State) : Out :=
  vi2Op (fun x y => if max then (if x < y then y else x) else (if y < x then y else x)) h ty false d a b s

/-- vlog; .not uses wA alone. -/
def execVlog (h : Hdr) (op : LogOp) (ty : Ty) (d a b : WReg) (s : State) : Out :=
  let srcs := match op with | .not => [a] | _ => [a, b]
  vecOp s h 8 (namesW (d :: srcs)) (fun _ => false) srcs (some d) fun mask t =>
    let w := ty.fixedWidth
    let r := op.apply (t.getW a) (t.getW b)
    t.setW d (writeElems mask w (t.getW d) fun i => elem w r i)

/-- The shift of a w-bit pattern (R316). -/
def shApply (op : ShOp) (w p n : Nat) : Nat :=
  match op with
  | .shl => shiftLeft w p n
  | .shr => shiftRight w p n
  | .sar => shiftArith w p n

/-- vsh (R359). -/
def execVsh (h : Hdr) (op : ShOp) (ty : Ty) (d a b : WReg) (s : State) : Out :=
  vecOp s h 8 (namesW [d, a, b]) (fun _ => false) [a, b] (some d) fun mask t =>
    let w := ty.fixedWidth
    t.setW d (writeElems mask w (t.getW d) fun i => shApply op w (elem w (t.getW a) i) (elem w (t.getW b) i))

/-- vcmp (R359). -/
def execVcmp (h : Hdr) (rel : Cmp) (ty : Ty) (d : MReg) (a b : WReg) (s : State) : Out :=
  vecOp s h 8 (numM d :: namesW [a, b]) (fun _ => false) [a, b] none fun mask t =>
    t.setM d (writeMask mask ty.fixedWidth (t.getM d) fun i =>
      rel.holds (elemInt ty (t.getW a) i) (elemInt ty (t.getW b) i))

/-- vcvt (R353): both types are integer types, and the conversion clamps. -/
def execVcvt (h : Hdr) (src dst : Ty) (part : BitVec 4) (d a : WReg) (s : State) : Out :=
  vecOp s h 8 (namesW [d, a]) (fun t => t.cvtIll src dst part) [a] (some d) fun mask t =>
    t.cvtWrite mask src dst part.toNat .rne false d a

/-- vbcast wD, gA (R360). -/
def execVbcastG (h : Hdr) (ty : Ty) (d : WReg) (a : GReg) (s : State) : Out :=
  vecOp s h 8 [numW d, numG a] (fun _ => false) [] (some d) fun mask t =>
    t.setW d (writeElems mask ty.fixedWidth (t.getW d) fun _ => (t.getG a).toNat)
/-- vbcast wD, imm: truncated to w bits. -/
def execVbcastImm (h : Hdr) (ty : Ty) (d : WReg) (v : Imm) (s : State) : Out :=
  vecOp s h v.len [numW d] (fun _ => false) [] (some d) fun mask t =>
    let x := match v with | .imm32 v => (immValue ty v).toNat | .imm64 v => v.toNat
    t.setW d (writeElems mask ty.fixedWidth (t.getW d) fun _ => x)
/-- vbcast wD, wA, gB: lane gB mod N. -/
def execVbcastLane (h : Hdr) (ty : Ty) (d a : WReg) (b : GReg) (s : State) : Out :=
  vecOp s h 8 [numW d, numW a, numG b] (fun _ => false) [a] (some d) fun mask t =>
    let w := ty.fixedWidth
    let v := elem w (t.getW a) ((t.getG b).toNat % elemCount w)
    t.setW d (writeElems mask w (t.getW d) fun _ => v)

/-- vshuf (R361). -/
def execVshuf (h : Hdr) (ty : Ty) (d a b : WReg) (s : State) : Out :=
  vecOp s h 8 (namesW [d, a, b]) (fun _ => false) [a, b] (some d) fun mask t =>
    let w := ty.fixedWidth
    t.setW d (writeElems mask w (t.getW d) fun i => elem w (t.getW a) (elem w (t.getW b) i % elemCount w))

/-- The source element of vslide (R361); none gives 0. -/
def slideFrom (op : SlideOp) (n i k : Nat) : Option Nat :=
  match op with
  | .down => if i + k < n then some (i + k) else none
  | .up => if k ≤ i then some (i - k) else none
  | .rot => some ((i + k) % n)

/-- vslide (R361). -/
def execVslide (h : Hdr) (op : SlideOp) (ty : Ty) (d a : WReg) (b : GReg) (s : State) : Out :=
  vecOp s h 8 [numW d, numW a, numG b] (fun _ => false) [a] (some d) fun mask t =>
    let w := ty.fixedWidth
    let k := (t.getG b).toNat
    t.setW d (writeElems mask w (t.getW d) fun i =>
      match slideFrom op (elemCount w) i k with | some j => elem w (t.getW a) j | none => 0)

/-- vsel (R361). -/
def execVsel (h : Hdr) (ty : Ty) (d a b : WReg) (c : MReg) (s : State) : Out :=
  vecOp s h 8 (numM c :: namesW [d, a, b]) (fun _ => false) [a, b] (some d) fun mask t =>
    let w := ty.fixedWidth
    let m := t.getM c
    t.setW d (writeElems mask w (t.getW d) fun i =>
      if selectedBy m w i then elem w (t.getW a) i else elem w (t.getW b) i)

/-- vmovg gD, wA, gB (R362). -/
def execVmovgG (h : Hdr) (ty : Ty) (d : GReg) (a : WReg) (b : GReg) (s : State) : Out :=
  vecOp s h 8 [numG d, numW a, numG b] (fun _ => false) [a] none fun mask t =>
    let w := ty.fixedWidth
    let k := (t.getG b).toNat % elemCount w
    if selectedBy mask w k then
      t.setG d (if ty.isInt then extOf ty (elem w (t.getW a) k : Int) else BitVec.ofNat 64 (elem w (t.getW a) k))
    else t

/-- vmovg wD, gA, gB (R362): D is also a source. -/
def execVmovgW (h : Hdr) (ty : Ty) (d : WReg) (a b : GReg) (s : State) : Out :=
  vecOp s h 8 [numW d, numG a, numG b] (fun _ => false) [d] (some d) fun mask t =>
    let w := ty.fixedWidth
    let k := (t.getG b).toNat % elemCount w
    if selectedBy mask w k then t.setW d (putElem w (t.getW d) k (t.getG a).toNat) else t

/-- The combining operation of vred on w-bit patterns (R355). -/
def redCombine (op : RedOp) (ty : Ty) (sat : Bool) (x y : Nat) : Nat :=
  let w := ty.fixedWidth
  let v (n : Nat) : Int := valOf ty (BitVec.ofNat 64 n)
  match op with
  | .sum => patternOf w (satOf ty sat (v x + v y))
  | .min => if v y < v x then y else x
  | .max => if v x < v y then y else x
  | .and => x &&& y
  | .or => x ||| y
  | .xor => x ^^^ y
/-- Its identity. -/
def redUnit (op : RedOp) (ty : Ty) : Nat :=
  let w := ty.fixedWidth
  match op with
  | .sum | .or | .xor => 0
  | .and => 2 ^ w - 1
  | .min => patternOf w (tyMax ty)
  | .max => patternOf w (tyMin ty)

/-- vred (R355). -/
def execVred (h : Hdr) (op : RedOp) (ty : Ty) (sat : Bool) (d a : WReg) (c : Option WReg) (s : State) : Out :=
  vecOp s h 8 (namesW (d :: a :: c.toList)) (fun _ => false) (a :: c.toList) (some d) (whole := true) fun mask t =>
    let w := ty.fixedWidth
    let xs := (List.range (elemCount w)).map fun i =>
      if selectedBy mask w i then elem w (t.getW a) i else redUnit op ty
    let r := (treeReduce (redCombine op ty sat) 7 xs).headD 0
    let r := match c with | some c => redCombine op ty sat (elem w (t.getW c) 0) r | none => r
    t.setW d (BitVec.ofNat 1024 r)

/-- The running sums of R357 over (selected, old destination, source) in increasing order. -/
def scanSums (ty : Ty) (sat excl : Bool) : List (Bool × Nat × Int) → Int → List Nat
  | [], _ => []
  | (sel, old, x) :: r, acc =>
    if sel then
      let next := valOf ty (BitVec.ofNat 64 (patternOf ty.fixedWidth (satOf ty sat (acc + x))))
      patternOf ty.fixedWidth (if excl then acc else next) :: scanSums ty sat excl r next
    else old :: scanSums ty sat excl r acc

/-- vscan (R357). -/
def execVscan (h : Hdr) (excl : Bool) (ty : Ty) (sat : Bool) (d a : WReg) (s : State) : Out :=
  vecOp s h 8 (namesW [d, a]) (fun _ => false) [a] (some d) fun mask t =>
    let w := ty.fixedWidth
    let xs := (List.range (elemCount w)).map fun i =>
      (selectedBy mask w i, elem w (t.getW d) i, elemInt ty (t.getW a) i)
    t.setW d (BitVec.ofNat 1024 (packElems w (scanSums ty sat excl xs 0)))

/-- vcomp (R363). -/
def execVcomp (h : Hdr) (ty : Ty) (d a : WReg) (s : State) : Out :=
  vecOp s h 8 (namesW [d, a]) (fun _ => false) [a] (some d) (whole := true) fun mask t =>
    let w := ty.fixedWidth
    let xs := ((List.range (elemCount w)).filter fun i => selectedBy mask w i).map fun i => elem w (t.getW a) i
    t.setW d (BitVec.ofNat 1024 (packElems w xs))

end Sys2Proof.Machine
end

