-- ==== Sys2Proof/Machine/Results.lean ====
section
/-! DEFINITION. Variable-latency results as they are written (R156, R158, R374 to R381, R385, R390, R391, R440), and the
ends of a park (R157). -/
namespace Sys2Proof.Machine
open Sys2Proof

/-- Bytes read for a result: their address, their count, their value. -/
abbrev Got := Nat × Nat × Nat

/-- The n bytes from an address that a list of pieces holds. -/
def gotBytes (base n : Nat) (ps : List Got) : Nat :=
  (ps.foldl (fun a p => a + (p.2.2 <<< (8 * ((p.1 + 2 ^ 56 - base % 2 ^ 56) % 2 ^ 56)))) 0) % 2 ^ (8 * n)

/-- Convert(view, sat, element) of a subscribing load, by RNE (R217); a FULL request keeps the bits (R378). -/
def viewConvert (src : Ty) (v : View) (sat : Bool) (x : Nat) : Nat :=
  if v.isFull src then x else v.fmt.roundTo .rne 0 sat (src.fmt.value x)
/-- Width of an element as a subscribing load writes it. -/
def viewWidth (src : Ty) (v : View) : Nat := if v.isFull src then src.fixedWidth else v.fmt.width
/-- A scalar result: Ext for an integer type, else the pattern zero-extended (R374, R385). -/
def scalarResult (ty : Ty) (x : Nat) : BitVec 64 :=
  if ty.isInt then extOf ty x else BitVec.ofNat 64 (x % 2 ^ (8 * atomBytes ty))

/-- ld of a line (R374): the selected elements; the others stay. -/
def lineResult (w : Nat) (mask : BitVec 64) (old : Line) (x : Nat) : Line :=
  writeElems mask w old fun i => (x >>> (w * i)) % 2 ^ w
/-- ld of packed blocks (R375): the selected elements of the blocks moved; the elements beyond them are zero whatever the lane guard
selects (log entry 46). -/
def packedResult (w blocks : Nat) (mask : BitVec 64) (old : Line) (x : Nat) : Line :=
  BitVec.ofNat 1024 (packElems w ((List.range (32 * blocks)).map fun i =>
    if selectedBy mask w i then (x >>> (w * i)) % 2 ^ w else elem w old i))
/-- lds into a w register (R378): of the view-width elements that are selected, those of the line converted and those past it zero;
the others stay (R187). -/
def subResult (src : Ty) (v : View) (sat : Bool) (mask : BitVec 64) (old : Line) (x : Nat) : Line :=
  let w := viewWidth src v
  let b := src.fixedWidth
  writeElems mask w old fun i => if i < 1024 / b then viewConvert src v sat ((x >>> (b * i)) % 2 ^ b) else 0
/-- gather (R381): each selected element from its own access. -/
def gatherResult (ty : Ty) (mask : BitVec 64) (old : Line) (ps : List Got) : Line :=
  let w := ty.fixedWidth
  let sel := (List.range (elemCount w)).filter fun i => selectedBy mask w i
  (sel.zip ps).foldl (fun x p => putElem w x p.1 p.2.2.2) old

/-- Write a destination by its operand number (R185). -/
def Thread.writeDst (t : Thread) (n : Nat) (v : Line) : Thread :=
  if n < 16 then t.setG (BitVec.ofNat 4 n) (v.setWidth 64)
  else if n < 48 then t.setW (BitVec.ofNat 5 (n - 16)) v
  else if n < 56 then t.setM (BitVec.ofNat 3 (n - 48)) (v.setWidth 64)
  else t.setP (BitVec.ofNat 3 (n - 56)) (v.getLsbD 0)
/-- The value a w destination holds now. -/
def Thread.oldDst (t : Thread) (n : Nat) : Line := if 16 ≤ n ∧ n < 48 then t.getW (BitVec.ofNat 5 (n - 16)) else 0

/-- Read the parts of a result, each with the thread's own earlier stores over it (R240). -/
def State.readParts (s : State) (th : Nat) (t : Thread) (o : Outstanding) (view : View) (src : Ty) : List Part → List Got × State
  | [] => ([], s)
  | p :: r =>
    let w := t.who th
    let x := s.readPart w t.key (s.specidOf th t) p view src o.hint true
    let v := lineNat (x.2.forward th o.seq p.home x.1) (p.pa % 128) p.len
    let s := x.2.acquired w p o.acq (t.fenceOver o.seq)
    let y := s.readParts th t o view src r
    ((p.va, p.len, v) :: y.1, y.2)
/-- Address of the first part. -/
def Outstanding.va (o : Outstanding) : Nat := match o.parts with | p :: _ => p.va | [] => 0

/-- The value of a result at the moment it is bound, and what binding it does to memory (log entry 47). -/
def State.bindResult (s : State) (th : Nat) (t : Thread) (o : Outstanding) : Line × State :=
  let old := t.oldDst o.dst.toNat
  let w := t.who th
  let rmw (f : Nat → Nat) : Nat × State := match o.parts with
    | p :: _ =>
      let r := s.rmwPart w (s.threadStorer th t p.cls o.hint) p f o.log o.rel
      (r.1, r.2.acquired w p o.acq (t.fenceOver o.seq))
    | [] => (0, s)
  match o.kind with
  | .ready v => (v.setWidth 1024, s)
  | .loadG ty =>
    let r := s.readParts th t o .full .none o.parts
    ((scalarResult ty (gotBytes o.va 8 r.1 % 2 ^ ty.fixedWidth)).setWidth 1024, r.2)
  | .loadW b mask =>
    let r := s.readParts th t o .full .none o.parts
    (lineResult b mask old (gotBytes o.va 128 r.1), r.2)
  | .loadPacked b blocks mask base =>
    let r := s.readParts th t o .full .none o.parts
    (packedResult b blocks mask old (gotBytes base 128 r.1), r.2)
  | .loadSub src view sat mask toW =>
    let r := s.readParts th t o view src o.parts
    let x := gotBytes o.va 128 r.1
    (if toW then subResult src view sat mask old x
     else BitVec.ofNat 1024 (viewConvert src view sat (x % 2 ^ src.fixedWidth)), r.2)
  | .gather ty mask =>
    let r := s.readParts th t o .full .none o.parts
    (gatherResult ty mask old r.1, r.2)
  | .atom op ty b c =>
    let r := rmw fun x => atomNew op ty x b.toNat c.toNat
    ((scalarResult ty r.1).setWidth 1024, r.2)
  | .ctrRead => match o.parts with
    | p :: _ => let r := (s.countCtr p).ctrValue th t p; (BitVec.ofNat 1024 r.1, r.2.acquired w p o.acq (t.fenceOver o.seq))
    | [] => (0, s)
  | .ctrArrive mx ty b =>
    let f := ctrArrived mx ty b.toNat
    let r := rmw f
    (BitVec.ofNat 1024 (f r.1 % 2 ^ 64), r.2)
  | .jpoll id =>
    let live := s.jobLive (tileOf th) id
    (BitVec.ofNat 1024 (!live).toNat, if live then s else s.joinJobs th)

/-- An operation that writes, as a store of its thread: in flight with unknown data, or performed with the line's (R284). -/
def Outstanding.asStore (o : Outstanding) (th : Nat) (t : Thread) (id : Nat) (p : Part) (op : StoreOp) (data : Line) : PendStore :=
  { id := id, agent := .thread th, run := (match t.task with | some k => k.run | none => 16), key := t.key, specid := none,
    seq := o.seq, part := p, mask := byteMask (p.pa % 128) p.len, data := data, op := op, cls := p.cls, rel := o.rel, after := 0,
    log := none, hint := o.hint, sc := o.sc, next := o.next, pc := o.pc, word := o.word }
/-- One that has been performed and awaits collapses is kept for the core dump (R284). -/
def State.holdOut (s : State) (th : Nat) (t : Thread) (o : Outstanding) : State :=
  match o.isRmw, o.parts with
  | true, p :: _ =>
    if !s.charged (.thread th) then s
    else
      let s : State := { s with nextStore := s.nextStore + 1 }
      s.holdStore (o.asStore th t s.nextStore p .write (s.lineAt (p.pa / 128) p.key))
  | _, _ => s

/-- A thread parked under R158 takes its trap once its results have arrived; the trap is counted (R282) (log entry 45). -/
def State.endPendread (s : State) (th : Nat) : State :=
  match s.thread? th with
  | none => s
  | some t =>
    if t.park == .pendread && t.outs.isEmpty then
      (s.countEvt (tileOf th) 0x0D (t.task.map fun k => k.run) 1).trap th (.plain .pendread)
    else s

/-- The part of a result that names a trap which some parts meet: the first, or of a packed block the one at the higher address
(R266, R371). -/
def Outstanding.trapPart (o : Outstanding) (bad : Part → Bool) : Option Part :=
  match o.parts.find? bad with
  | none => none
  | some p => match o.kind with
    | .loadPacked b _ _ base =>
      let block (q : Part) : Nat := (q.va + 2 ^ 56 - base % 2 ^ 56) % 2 ^ 56 / (4 * b)
      (o.parts.filter fun q => block q == block p && bad q).getLast?
    | _ => some p
/-- The trap of a result that is about to be bound: a key slot emptied meanwhile (R46, R47), or poison (R41); what an operation performs
at the home meets the home's errors too. -/
def State.outTrap (s : State) (w : Who) (o : Outstanding) : Option Trap :=
  let bad (p : Part) : Bool := if o.atHome then s.homePoisoned w p else s.partPoisoned w p
  match o.trapPart s.keyGone with
  | some p => some (keyTrap o.acc p)
  | none => (o.trapPart bad).map fun p => poisonAt o.acc p
/-- A result is not bound: it stays outstanding until the reply to its trap, which is that of the instruction that issued it, or, of a
thread that is being saved, is issued again (R160, R165, R179) (log entry 47). -/
def State.stopOut (s : State) (th : Nat) (t : Thread) (o : Outstanding) (tr : Trap) : State :=
  if t.park == .stop then s.rewind th o.seq o.pc
  else
    let f (x : Outstanding) : Outstanding := if x.dst == o.dst then { x with stopped := true } else x
    (s.setThread th { t.unwait with outs := t.outs.map f }).trap th (tr.late o.pc o.word)

/-- VARIABLE_LATENCY_RESULT: the result whose destination is operand number n is written, once the thread's order and the
homes allow it. One that traps, before its accesses are performed or at an error of the memory that its own read finds (R36), writes
nothing; a thread whose park holds more than its instruction takes that trap once the park has ended (log entry 47). -/
def State.deliver (s : State) (th n : Nat) : State :=
  match s.thread? th with
  | none => s
  | some t => match t.outs.find? fun o => o.dst.toNat == n with
    | none => s
    | some o =>
      let s := s.cleanBefore th o.seq o.rel
      if o.stopped || !s.mayBind th t o then s
      else
        let w := t.who th
        let r := s.allReady w.run o.isRmw o.parts
        if !r.1 then r.2
        else match r.2.outTrap w o with
          | some tr => if !t.park.reissues then r.2
            else (if o.atHome then o.parts.foldl (fun (s : State) p => s.meetHome tr p) r.2 else r.2).stopOut th t o tr
          | none =>
            let x := r.2.bindResult th t o
            match (if o.isRmw then none else x.2.outTrap w o) with
            | some tr => if t.park.reissues then x.2.stopOut th t o tr else x.2
            | none =>
              let s := (x.2.doneS th o.seq).holdOut th t o
              (s.onThread th fun t => (t.endOut o).writeDst n x.1).endPendread th

/-- The cause of a park has ended: the thread's instruction issues again (R157). Parks that an event ends answer false. -/
def State.wakes (s : State) (th : Nat) (t : Thread) : Bool :=
  match t.park with
  | .run | .home | .grid _ => true
  | .marker => t.pend == 0
  | .pendread => t.outs.isEmpty
  | .earliest => !s.provisional t
  | .stores sc => s.storesDone th sc && s.turnInS th t.seq
  | .jwait id => !s.jobLive (tileOf th) id
  | .held _ | .fault | .offer .. | .send .. | .ctrwait .. | .fltwait .. | .stop | .bkpt => false

/-- SWITCH_MARKER_WAKE: a thread parked at a marked instruction issues once its pending bits are clear. -/
def State.markerWake (s : State) (th : Nat) : State :=
  s.onThread th fun t => if t.park == .marker && t.pend == 0 then { t with park := .run } else t

/-- The run of a thread may issue: it is resident, or the slot belongs to an Innkeeper. While a run is pre-empted its
speculative threads that are earliest, and the assured ones, have been parked (R179). -/
def State.runIssues (s : State) (t : Thread) : Bool :=
  match t.task with
  | none => true
  | some k => (s.run k.run).phase != .free && !(s.run k.run).killed

/-- A slot may issue now: the device runs, its tile is not fenced or halted, its run issues, its park has ended, and no .sc
operation of it is still to be performed with respect to .dev (R167, R177, R253, R277). A step of the debug module lets a thread issue
once. -/
def State.canIssue (s : State) (th : Nat) : Bool :=
  match s.thread? th with
  | none => false
  | some t =>
    !s.fatal && !s.fenced (tileOf th) && s.runIssues t &&
      (!s.halted (tileOf th) || isInnkeeperCore (coreOf th) || s.dbg.stepping.contains th) &&
      !(t.outs.any fun o => o.sc) && !s.waitsInS th && s.wakes th t

/-- SWITCH_MARKER_WAKE (R157). -/
def execSwitchMarkerWake (th : Nat) (s : State) : Out := .next (s.markerWake th)
/-- VARIABLE_LATENCY_RESULT (R156). -/
def execVariableLatencyResult (th n : Nat) (s : State) : Out := .next (s.deliver th n)

end Sys2Proof.Machine
end

