-- ==== Sys2Proof/Machine/DebugUnit.lean ====
section
/-! DEFINITION. Debug, sampling and replay (12): the tile debug modules (R277 to R280), the Bell (R281), core dumps (R284,
R285), records appended to the Itinerary as steps of their own (R286); and device reset (R8). -/
namespace Sys2Proof.Machine
open Sys2Proof

-- Halting (R277 to R279).

/-- SYSR number of DBG_CTLt. -/
def dbgReg (tile : Nat) : Nat := 0x500 + tile
/-- DBG_CTLt.GRP. -/
def State.dbgGroup (s : State) (tile : Nat) : Nat := bitsOf (s.reg (dbgReg tile)) 8 4
/-- Set CAUSE and SLOT, and clear REQ (log entry 48). -/
def State.dbgCause (s : State) (tile cause slot : Nat) : State :=
  s.onReg (dbgReg tile) fun v => putField (putField (putField v 60 3 cause) 54 6 slot) 0 2 0
/-- The cross-trigger of a tile that has come to halt is on its way (R278). -/
def State.sendTrigger (s : State) (tile : Nat) : State :=
  if s.dbgGroup tile = 0 then s else { s with dbg := { s.dbg with triggers := insertNat s.dbg.triggers tile } }
/-- A tile halts; one that is halted already ignores the trigger. Its cross-trigger is sent (R278) (log entry 48). -/
def State.haltTile (s : State) (tile cause slot : Nat) : State :=
  if 256 ≤ tile ∨ s.halted tile then s
  else
    let s := s.dbgCause tile cause slot
    ({ s with dbg := { s.dbg with halted := insertNat s.dbg.halted tile } } : State).sendTrigger tile
/-- CROSS_TRIGGER: a halted tile's trigger reaches the tiles of its group (log entry 48). -/
def State.crossTrig (s : State) (tile : Nat) : State :=
  if !s.dbg.triggers.contains tile then s
  else
    let g := s.dbgGroup tile
    let s : State := { s with dbg := { s.dbg with triggers := s.dbg.triggers.filter (· != tile) } }
    ((List.range 256).filter fun t => t != tile && g != 0 && s.dbgGroup t == g && !s.halted t).foldl
      (fun s t => s.haltTile t 3 0) s

-- Thread state through BAR0 (R280).

/-- First offset of the thread windows. -/
def windowBase : Nat := 0x08000000
/-- The slot and the word of its record that an offset names. -/
def windowSlot (off : Nat) : Nat × Nat := ((off - windowBase) / 0x2000, (off - windowBase) % 0x2000 / 8)
/-- A slot whose window shows its thread: the tile is halted, and the core with it (log entry 49). -/
def State.windowOpen (s : State) (th : Nat) : Bool := s.halted (tileOf th) && !isInnkeeperCore (coreOf th)
/-- A word of a window as the host reads it: pending bits are not shown. -/
def State.windowRead (s : State) (off : Nat) : BitVec 64 :=
  let p := windowSlot off
  if !s.windowOpen p.1 then 0
  else match s.thread? p.1 with
    | none => 0
    | some t => match t.task with
      | none => 0
      | some k => (threadWords p.1 t k).getD p.2 0
/-- A host write to a window: kept until resume (log entry 49). -/
def State.windowWrite (s : State) (off : Nat) (v : BitVec 64) : State :=
  if s.windowOpen (windowSlot off).1 then { s with dbg := { s.dbg with window := s.dbg.window ++ [(off / 8 * 8, v)] } } else s
/-- A thread with its record's words rewritten: its registers, PC, key, class and identity (log entry 49). -/
def Thread.patched (t : Thread) (th : Nat) (ws : List (Nat × BitVec 64)) : Thread :=
  match t.task with
  | none => t
  | some k =>
    let w := ws.foldl (fun w p => w.set p.1 p.2) (threadWords th t k)
    let n := threadOfWords w k t.lastIssue
    let k' : Task := match n.task with
      | some x => { x with hasTb := x.spec || k.hasTb }
      | none => k
    { t with g := n.g, w := n.w, m := n.m, p := n.p, pc := n.pc, streams := n.streams, rep := n.rep, fmt := n.fmt,
             sr := n.sr, mq := n.mq, sbase := n.sbase, task := some k' }
/-- The host's writes take effect on one thread, and in its commit-queue entry; a task made assured has none any more (log entry
49). -/
def State.patchThread (s : State) (th : Nat) : State :=
  let ws := (s.dbg.window.filter fun p => (windowSlot p.1).1 == th).map fun p => ((windowSlot p.1).2, p.2)
  match s.thread? th with
  | none => s
  | some t =>
    if ws.isEmpty then s
    else
      let t := t.patched th ws
      let s := s.setThread th t
      match t.entry, t.task with
      | some n, some k =>
        if !k.spec then
          let l := s.lodge (tileOf th)
          (s.setLodge (tileOf th) { l with cq := Sparse.erase l.cq n }).setThread th { t with entry := none }
        else match Sparse.get? (s.lodge (tileOf th)).cq n with
          | some e => s.setEntry (tileOf th) n { e with task := k }
          | none => s
      | _, _ => s
/-- The writes to a tile's windows take effect (log entry 49). -/
def State.patchTile (s : State) (tile : Nat) : State :=
  let s := (s.tileThreads tile).foldl (fun (s : State) x => s.patchThread x.1) s
  { s with dbg := { s.dbg with window := s.dbg.window.filter fun p => tileOf (windowSlot p.1).1 != tile } }

/-- Threads at a BKPT that halted them go on after it, as if it were nop (R277). -/
def State.passBkpt (s : State) (tile : Nat) : State :=
  (s.tileThreads tile).foldl (fun (s : State) x => if x.2.park == .bkpt then
    s.onThread x.1 fun t => { t.advance 8 with park := .run, lastIssue := s.cycle } else s) s
/-- A tile resumes, with what the host wrote to its threads last; on one that is not halted nothing happens (R277, R280). -/
def State.resumeTile (s : State) (tile : Nat) : State :=
  if !s.halted tile then s
  else
    let s := ((s.dbgCause tile 0 0).passBkpt tile).patchTile tile
    { s with dbg := { s.dbg with
      halted := s.dbg.halted.filter (· != tile), stepping := s.dbg.stepping.filter fun th => tileOf th != tile } }
/-- A step ends when no thread is left to issue: the tile halts again, with CAUSE 4 and its cross-trigger (R278) (log entry 50). -/
def State.stepDone (s : State) (tile : Nat) : State :=
  if bitsOf (s.reg (dbgReg tile)) 0 2 = 3 ∧ !(s.dbg.stepping.any fun th => tileOf th == tile) then (s.dbgCause tile 4 0).sendTrigger tile else s
/-- A thread has issued its instruction of a step (log entry 50). -/
def State.stepped (s : State) (th : Nat) : State :=
  if s.dbg.stepping.contains th then
    ({ s with dbg := { s.dbg with stepping := s.dbg.stepping.filter (· != th) } } : State).stepDone (tileOf th)
  else s
/-- A step of a halted tile: each thread that may issue does so once; for one at a BKPT that halted it, that is the BKPT (log
entry 50). -/
def State.stepTile (s : State) (tile : Nat) : State :=
  if !s.halted tile || s.dbg.stepping.any fun th => tileOf th == tile then s
  else
    let past := ((s.tileThreads tile).filter fun x => x.2.park == .bkpt).map fun x => x.1
    let s := (s.passBkpt tile).patchTile tile
    let ready := ((s.tileThreads tile).filter fun x => !isInnkeeperCore (coreOf x.1) && !past.contains x.1 && s.runIssues x.2 &&
      !(x.2.outs.any fun o => o.sc) && s.wakes x.1 x.2).map fun x => x.1
    let s := s.onReg (dbgReg tile) fun v => putField v 0 2 3
    ({ s with dbg := { s.dbg with stepping := s.dbg.stepping ++ ready } } : State).stepDone tile
/-- A write to DBG_CTLt: GRP and ARM, then the request. -/
def State.dbgWrite (s : State) (tile v : Nat) : State :=
  let s := s.onReg (dbgReg tile) fun o => putField (putField o 8 4 (bitsOf v 8 4)) 2 1 (bitsOf v 2 1)
  match bitsOf v 0 2 with
  | 0 => s
  | 1 => s.haltTile tile 1 0
  | 2 => s.resumeTile tile
  | _ => s.stepTile tile
/-- DBG_CTLt as it reads. -/
def State.dbgRead (s : State) (tile : Nat) : Nat := putField (s.reg (dbgReg tile)) 63 1 (s.halted tile).toNat

-- The Bell (R281).

/-- Cycles between Bells. -/
def State.bellPeriod (s : State) : Nat := Nat.max 4096 (bitsOf (s.reg 0x600) 0 32)
/-- Bytes of its buffer. -/
def State.bellSize (s : State) : Nat := 2 ^ Nat.max 18 (bitsOf (s.reg 0x600) 32 5)
/-- STATE of a slot: the first of the list that applies, so that a slot of a halted tile shows 5 also when it is free. -/
def State.bellState (s : State) (th : Nat) : Nat :=
  if isInnkeeperCore (coreOf th) then 7
  else if s.halted (tileOf th) then 5
  else match s.thread? th with
    | none => 0
    | some t =>
      match t.park with
        | .fault => 4
        | .earliest | .held _ => 3
        | .offer .. | .jwait _ | .ctrwait .. => 6
        | .marker => 2
        | _ => 1
/-- The entry of a slot. -/
def State.bellEntry (s : State) (th : Nat) : BitVec 64 :=
  let run := match s.thread? th with
    | some t => match t.task with | some k => k.run | none => 0
    | none => 0
  let pc := match s.thread? th with | some t => t.pc.toNat / 4 | none => 0
  BitVec.ofNat 64 (2 ^ 61 * (s.bellState th) + 2 ^ 57 * (run % 16) + pc % 2 ^ 54)
/-- Slots whose entry is not zero, with their entries (log entry 51). -/
def State.bellLatch (s : State) : List (Nat × BitVec 64) :=
  (List.range 16384).filterMap fun th => if s.bellEntry th = 0 then none else some (th, s.bellEntry th)
/-- Words of a Bell record. The five words after LEN are not stated (log entry 3) (log entry 51). -/
def State.bellWords (s : State) (tick : Nat) (es : List (Nat × BitVec 64)) : List (BitVec 64) :=
  [BitVec.ofNat 64 tick, BitVec.ofNat 64 s.cycle, halvesWord (0x840 + 8 * es.length) es.length] ++
  ((List.range 5).map fun i => Config.freeWord (s.fresh + i)) ++
  ((List.range 256).map fun k => es.foldl (fun (w : BitVec 64) e => if e.1 / 64 = k then w ||| (1#64 <<< (e.1 % 64)) else w) 0) ++
  es.map fun e => e.2
/-- BELL: when PERIOD cycles have passed, every slot is latched, and the record is written where it fits, or dropped (log
entry 51). -/
def State.bell (s : State) : State :=
  if !bitOf (s.reg 0x600) 63 || decide (s.cycle < s.dbg.bellNext) then s
  else
    let now := s.bellLatch
    let all := s.dbg.bellTick == 0
    let es := (List.range 16384).filterMap fun th =>
      let v := Sparse.getD now th 0
      if all || v != Sparse.getD s.dbg.bellPrev th 0 then some (th, v) else none
    let ws := s.bellWords s.dbg.bellTick es
    let len := 0x840 + 8 * es.length
    let off := bitsOf (s.reg 0x602) 0 32
    let s : State := { s with
      fresh := s.fresh + 5,
      dbg := { s.dbg with bellTick := s.dbg.bellTick + 1, bellPrev := now, bellNext := s.dbg.bellNext + s.bellPeriod } }
    if s.bellSize < off + len then s.onReg 0x602 fun v => satField v 32 32 1
    else ((s.physWords (4096 * (bitsOf (s.reg 0x601) 12 40) + off) ws).onReg 0x602 fun v => putField v 0 32 (off + len))
/-- A write to BELL_CFG: when EN comes to be 1 the count of Bells starts again (log entry 51). -/
def State.bellCfgWrite (s : State) (v : Nat) : State :=
  let was := bitOf (s.reg 0x600) 63
  let s := s.writeReg 0x600 v
  if bitOf (s.reg 0x600) 63 && !was then
    { s with dbg := { s.dbg with bellTick := 0, bellPrev := [], bellNext := s.cycle + s.bellPeriod } }
  else s

/-- A write to SCOPE_CTL: tags are kept only while EN is 1 (R283). -/
def State.scopeCtlWrite (s : State) (v : Nat) : State :=
  let s := s.writeReg 0x620 v
  if bitOf (s.reg 0x620) 63 then s else { s with coh := { s.coh with scopeTags := [] } }

-- Core dumps (R284, R285).

/-- Every byte of a range is backed; the windows of R18 begin and end at multiples of 1 GiB. -/
def State.rangeBacked (s : State) (base n : Nat) : Bool :=
  s.backed base && s.backed (base + n - 1) &&
    (List.range (n / gib + 1)).all fun i => let a := gib * (base / gib + 1 + i); decide (base + n ≤ a) || s.backed a
/-- Step 3: dirty lines in L2 and in mapped stash ranges go to their homes. -/
def State.drainDirty (s : State) : State :=
  let s := (s.stash.lines.filter fun (l : MapLine) => l.dirty).foldl
    (fun (s : State) (l : MapLine) => s.cleanMapLine l.tile l.off []) s
  let dirty := s.coh.l2.filter fun x => x.dst == 3
  let s : State := { s with coh := { s.coh with l2 := s.coh.l2.map fun x => if x.dst == 3 then { x with dst := 2 } else x } }
  dirty.foldl (fun (s : State) x => s.l3WriteBack x.line) s
/-- Scope of the first release or fence of a thread after a store; 7 when none. A fence that waits at its instruction is one. -/
def State.scopeAfter (s : State) (x : PendStore) : Nat :=
  match x.next, x.agent with
  | some sc, _ => sc
  | none, .thread th => match s.thread? th with
    | some t => match t.park with | .stores sc => scopeNum sc | _ => 7
    | none => 7
  | none, _ => 7
/-- Stores that have left their threads and are not performed with respect to .dev, operations that write among them: true, already
in the image. A store that several collapses await is one; performed elements of a store come before its others, whose bytes are later. -/
def State.dumpStores (s : State) : List (Bool × PendStore) :=
  let outs := s.threads.flatMap fun x => x.2.outs.filterMap fun o => match o.isRmw, o.parts with
    | true, p :: _ => some (false, o.asStore x.1 x.2 0 p .ctradd 0)
    | _, _ => none
  let held := (s.coh.collapses.flatMap fun c => c.held) ++ s.stash.lines.flatMap fun (l : MapLine) => l.held
  let once := held.foldl (fun (l : List PendStore) x => if l.any fun y => y.id == x.id then l else l ++ [x]) []
  (once.map fun x => (true, x)) ++ (s.stores.map fun x => (false, x)) ++ outs
/-- One entry of the dump: slot, sequence number, 8-byte word, written bits, data, scope and IMG. -/
structure DumpEntry where
  th : Nat
  seq : Nat
  word : Nat
  mask : Nat
  data : Nat
  scope : Nat
  img : Bool
/-- The entries of a store, one for each word it writes: the data as stored. That of an operation not yet performed is not known
(log entries 3 and 52). Stores to a stash have no physical address and are not in the image. -/
def State.dumpEntries (s : State) (p : Bool × PendStore) (fresh : Nat) : List DumpEntry :=
  match p.2.agent, p.2.part.place with
  | .thread _, .stash _ => []
  | .thread th, _ => (maskWords p.2.mask).map fun i =>
    let m := lineNat p.2.mask (8 * i) 8
    let v := match p.2.op with
      | .write | .poisoned => lineNat p.2.data (8 * i) 8
      | _ => (Config.freeWord (fresh + i)).toNat
    { th := th, seq := p.2.seq % 2 ^ 32, word := p.2.part.pa / 128 * 16 + i, mask := m, data := v &&& m, scope := s.scopeAfter p.2,
      img := p.1 }
  | _, _ => []
/-- Two entries of one word that one store writes are one (R285): the bytes that a later element writes stand. -/
def DumpEntry.join (a b : DumpEntry) : DumpEntry :=
  { a with mask := a.mask ||| b.mask, data := (a.data - (a.data &&& b.mask)) ||| b.data, img := a.img && b.img }
/-- Earlier in the order of the entries: core, slot, sequence, address. -/
def DumpEntry.before (a b : DumpEntry) : Bool :=
  decide (a.th < b.th) || (a.th == b.th && (decide (a.seq < b.seq) || (a.seq == b.seq && decide (a.word < b.word))))
/-- An entry takes its place among those in order. -/
def DumpEntry.insert (x : DumpEntry) : List DumpEntry → List DumpEntry
  | [] => [x]
  | y :: l => if x.before y then x :: y :: l else if y.before x then y :: x.insert l else y.join x :: l
/-- The entries in their order. -/
def State.dumpOrder (s : State) : List DumpEntry :=
  (s.dumpStores.foldl (fun (a : Nat × List DumpEntry) p =>
    (a.1 + 16, (s.dumpEntries p a.1).foldl (fun l x => x.insert l) a.2)) (s.fresh, [])).2
/-- The words of an entry. -/
def DumpEntry.words (x : DumpEntry) : List (BitVec 64) :=
  let bm := (List.range 8).foldl (fun a b => a + (if x.mask >>> (8 * b) % 256 != 0 then 2 ^ b else 0)) 0
  [BitVec.ofNat 64 (2 ^ 32 * x.seq + 2 ^ 24 * bm + 2 ^ 21 * x.scope + 2 ^ 20 * x.img.toNat + 2 ^ 11 * (x.th % 8) + coreOf x.th),
   BitVec.ofNat 64 (8 * x.word), BitVec.ofNat 64 x.data, 0]
/-- The header's 4 KiB. -/
def State.dumpHeader (s : State) (found written : Nat) : List (BitVec 64) :=
  padWords 512 (padWords 8 [BitVec.ofNat 64 (1 + 2 ^ 32 * (Nat.min found (2 ^ 32 - 1))), BitVec.ofNat 64 (written % 2 ^ 32)] ++
    (List.range 16).flatMap fun n =>
      let r := s.run n
      [r.milestone.ts, BitVec.ofNat 64 (r.milestone.tb.toNat + 2 ^ 32 * (r.cfg.runid % 2 ^ 16)), r.floor.ts, r.floor.tb.setWidth 64])
/-- A core dump (R284) (log entry 52). -/
def State.coreDump (s : State) : State :=
  let v := s.reg 0x630
  let base := 4096 * (bitsOf v 12 40)
  let size := 2 ^ Nat.min 40 (Nat.max 16 (bitsOf v 0 6))
  let s := (List.range 256).foldl (fun (s : State) t => s.haltTile t 1 0) s
  let es := s.dumpOrder
  let s := ({ s with fresh := s.fresh + 16 * s.dumpStores.length } : State).drainDirty
  let room := size / 32 - 128
  if !s.rangeBacked base size then s.onReg 0x630 fun v => putField (putField v 63 1 0) 62 1 1
  else
    let s := s.physWords base (s.dumpHeader es.length (Nat.min room es.length))
    let s := s.physWords (base + 0x1000) ((es.take room).flatMap DumpEntry.words)
    s.onReg 0x630 fun v => putField (putField v 63 1 0) 62 1 (decide (room < es.length)).toNat
/-- A write to DUMP_CTL: BASE and SIZE, then the dump with GO = 1, which ends in the same step. -/
def State.dumpWrite (s : State) (v : Nat) : State :=
  let s := s.onReg 0x630 fun o => putField (putField o 12 40 (bitsOf v 12 40)) 0 6 (bitsOf v 0 6)
  if bitOf v 63 then s.coreDump else s

-- The Itinerary's registers (R286 to R288).

/-- A write to ITIN_CTL: when EN comes to be 1 the log starts at its first record (log entry 53). -/
def State.itinCtlWrite (s : State) (v : Nat) : State :=
  let was := bitOf (s.reg 0x640) 63
  let s := s.writeReg 0x640 v
  if bitOf (s.reg 0x640) 63 && !was then
    { s with dbg := { s.dbg with csn := 0, itinOff := 0, itinTaken := [], itinStopped := false } }
  else s

-- Device reset (R8).

/-- Device reset: every register at its reset value, stashes and slots empty. Main memory keeps its bytes, whose key slot 0 is
made anew (R45), and system space is outside the device; the ports train again (R48), the host's staging window stays, and so does
what the model keeps of its schedule and free values (log entry 54). -/
def State.deviceReset (s : State) : State :=
  { State.reset with
    agenda := s.agenda, focus := s.focus, fresh := s.fresh, tokens := s.tokens,
    mem := { State.reset.mem with
      hbm := s.mem.hbm, sys := s.mem.sys, slotPoison := s.mem.slotPoison, sysPoison := s.mem.sysPoison,
      slotKey := s.mem.slotKey, size := s.mem.size, errors := s.mem.errors, keys := [(0, .generated s.mem.randoms)], randoms := s.mem.randoms + 1 },
    host := { State.reset.host with staging := s.host.staging } }

/-- DBG_HALT (R277). -/
def execDbgHalt (tile : Nat) (s : State) : Out := .next (s.haltTile tile 1 0)
/-- DBG_RESUME (R277). -/
def execDbgResume (tile : Nat) (s : State) : Out := .next (s.resumeTile tile)
/-- DBG_STEP (R277). -/
def execDbgStep (tile : Nat) (s : State) : Out := .next (s.stepTile tile)
/-- CROSS_TRIGGER (R278). -/
def execCrossTrigger (tile : Nat) (s : State) : Out := .next (s.crossTrig tile)
/-- BELL (R281). -/
def execBell (s : State) : Out := .next s.bell
/-- BELL_RESTART: a write to BELL_STAT sets OFF (R281). -/
def execBellRestart (v : BitVec 64) (s : State) : Out := .next (s.writeReg 0x602 v.toNat)
/-- CORE_DUMP (R284). -/
def execCoreDump (v : BitVec 64) (s : State) : Out := .next (s.dumpWrite (putField v.toNat 63 1 1))
/-- ITINERARY_RECORD (R286): made only while the recorder is on. -/
def execItineraryRecord (kind tile : Nat) (w1 w2 w3 : BitVec 64) (s : State) : Out :=
  .next (if bitOf (s.reg 0x640) 63 && !bitOf (s.reg 0x640) 62 then s.itinAppend kind tile w1 w2 w3 else s)
/-- DEVICE_RESET (R8). -/
def execDeviceReset (s : State) : Out := .next s.deviceReset

end Sys2Proof.Machine
end

