-- ==== Sys2Proof/Machine/System.lean ====
section
/-! DEFINITION. The system instructions (R328, R330 to R339), bkpt and swtrap, and the device registers as software sees
them: SYSR numbers through sysr and sysw (R303, R332), BAR0 offsets through the host. -/
namespace Sys2Proof.Machine
open Sys2Proof

-- Registers that show other state.

/-- LODGE_STATt (05). -/
def State.lodgeStat (s : State) (tile : Nat) : Nat :=
  let l := s.lodge tile
  let spb := l.blocks.foldl (fun a b => a + b.2.length) 0
  2 ^ 44 * spb + 2 ^ 32 * l.queue.length + 2 ^ 31 * ((s.cqStall tile).toNat) + 2 ^ 24 * l.cq.length + bitsOf (s.reg (0x300 + tile)) 0 1
/-- RUN_CFGn (R79). -/
def State.runCfgRead (s : State) (n : Nat) : Nat :=
  let r := s.run n
  2 ^ 62 * (match r.phase with | .free => 0 | .resident => 1 | .preempting => 2 | .ending => 3) + 2 ^ 58 * (r.gen % 16) +
    2 ^ 52 * (s.runLevel n % 64) + 2 ^ 7 * (bitsOf r.cfgpa 7 45) + r.bad.toNat
/-- MEMERR_STAT: LEVEL is the highest scrub level now (R38). That it reads 0 while scrubbing is off is the model's choice (log entry
36). -/
def State.memerrStat (s : State) : Nat :=
  let lv := if bitOf (s.reg 0x031) 63 then (List.range 16).foldl (fun a c => Nat.max a (s.scrubLevelNow c)) 0 else 0
  putField (s.reg 0x032) 0 2 lv
/-- MEMKEY_STAT. -/
def State.memkeyStat (s : State) : Nat := s.mem.keys.foldl (fun a k => a + 2 ^ k.1) 0
/-- CXL_STAT (log entry 66). -/
def State.cxlStat (s : State) : Nat := putField (putField (s.reg 0x041) 52 12 s.host.fabUp.toNat) 48 4 s.host.hostWidth
/-- The counter that PMC_SEL names. -/
def State.pmcIndex (s : State) : Nat := bitsOf (s.reg 0x610) 8 8 * 16 + bitsOf (s.reg 0x610) 0 4
/-- Event codes of the table of R282; 0 counts nothing. -/
def pmcListed (e : Nat) : Bool :=
  decide (e ≤ 0x0D) || (decide (0x10 ≤ e) && decide (e ≤ 0x14)) || (decide (0x18 ≤ e) && decide (e ≤ 0x1C)) ||
    (decide (0x20 ≤ e) && decide (e ≤ 0x23))
/-- REPL_STATq, word 0 or 1. -/
def State.replStat (s : State) (q word : Nat) : Nat :=
  if word = 0 then
    2 ^ 32 * (Sparse.getD s.coh.fills q 0 % 2 ^ 32) + (s.coh.replicas.filter fun r => r.quad == q).length % 2 ^ 22
  else 2 ^ 32 * (Sparse.getD s.coh.colls q 0 % 2 ^ 32) + Sparse.getD s.coh.hits q 0 % 2 ^ 32
/-- MILESTONE of a slot, word 0 or 1 (R150). -/
def State.milestoneRead (s : State) (n word : Nat) : Nat :=
  let m := (s.run n).milestone
  if word = 0 then m.ts.toNat else m.tb.toNat + 2 ^ 32 * s.round.toNat

/-- An assigned register as it reads to a slot of a die (R5, R332) (log entry 55). -/
def State.sysRead (s : State) (die n : Nat) : BitVec 64 :=
  BitVec.ofNat 64 (
    if n = 0x032 then s.memerrStat
    else if n = 0x039 then s.memkeyStat
    else if n = 0x041 then s.cxlStat
    else if 0x060 ≤ n ∧ n ≤ 0x06F then s.runCfgRead (n - 0x060)
    else if 0x210 ≤ n ∧ n ≤ 0x22F then s.milestoneRead ((n - 0x210) / 2) (n % 2)
    else if 0x300 ≤ n ∧ n ≤ 0x3FF then s.lodgeStat (n % 0x100)
    else if n = 0x405 then s.rstateRead
    else if 0x410 ≤ n ∧ n ≤ 0x417 then s.replStat (n % 16 / 2) (n % 2)
    else if 0x500 ≤ n ∧ n ≤ 0x5FF then s.dbgRead (n % 0x100)
    else if n = 0x611 then (Sparse.getD s.dbg.pmcEvt s.pmcIndex 0).toNat
    else if n = 0x612 then (Sparse.getD s.dbg.pmcVal s.pmcIndex 0).toNat
    else if n = 0x643 then s.dbg.itinOff
    else s.reg (regKey die n))

/-- A value whose code the register's map reserves, or that its rule refuses: the sysw traps with ILLOP (R7, R20, R30, R164,
R235, R282). -/
def State.sysRefused (s : State) (n v : Nat) : Bool :=
  if n = 0x008 then s.spreadRefused v
  else if 0x020 ≤ n ∧ n ≤ 0x02C then hmaskRefused (n - 0x020) v
  else if n = 0x030 then bitsOf v 0 2 == 3
  else if n = 0x0E0 then s.faultCfgRefused v
  else if n = 0x405 then s.rstateRefused v
  else if n = 0x611 then !pmcListed (bitsOf v 0 8)
  else false

/-- A write to an assigned register by a slot of a die: the register's own behaviour, else its access codes (R5). -/
def State.sysWrite (s : State) (die n v : Nat) : State :=
  if s.sysRefused n v then s
  else if n = 0x008 then s.spreadWrite v
  else if 0x020 ≤ n ∧ n ≤ 0x02C then s.hmaskWrite (n - 0x020) v
  else if n = 0x038 then s.memkeyWrite die v
  else if n = 0x040 then s.biasWrite false v
  else if 0x060 ≤ n ∧ n ≤ 0x06F then s.runCfgWrite (n - 0x060) v
  else if 0x080 ≤ n ∧ n ≤ 0x0BF then s.qregWrite (n - 0x080) v
  else if n = 0x0E0 then s.faultCfgWrite v
  else if n = 0x0E2 then s.faultHeadWrite die v
  else if n = 0x0F0 then s.dirSelect die v
  else if n = 0x405 then s.rstateWrite v
  else if n = 0x420 then s.hotSelect die v
  else if 0x500 ≤ n ∧ n ≤ 0x5FF then s.dbgWrite (n % 0x100) v
  else if n = 0x600 then s.bellCfgWrite v
  else if n = 0x611 then
    let e := BitVec.ofNat 64 v &&& BitVec.ofNat 64 (field 63 1 + field 8 5 + field 0 8)
    { s with dbg := { s.dbg with pmcEvt := Sparse.set s.dbg.pmcEvt s.pmcIndex e } }
  else if n = 0x612 then { s with dbg := { s.dbg with pmcVal := Sparse.set s.dbg.pmcVal s.pmcIndex (BitVec.ofNat 64 v) } }
  else if n = 0x620 then s.scopeCtlWrite v
  else if n = 0x630 then s.dumpWrite v
  else if n = 0x640 then s.itinCtlWrite v
  else s.writeReg (regKey die n) v

-- BAR0.

/-- Eight bytes of the staging window. -/
def State.stagingRead (s : State) (i : Nat) : Nat :=
  packElems 8 ((List.range 8).map fun k => (cellRead s.host.staging (i + k)).toNat)
/-- The 8 bytes at a BAR0 offset as the host reads them; an unassigned offset reads zero (R469). -/
def State.bar0Value (s : State) (off : Nat) : BitVec 64 :=
  let o := off / 8 * 8
  if o = 0x0100 then BitVec.ofNat 64 s.fwCtl
  else if o = 0x0110 then BitVec.ofNat 64 s.svcCtl
  else if o = 0x0118 then BitVec.ofNat 64 (s.bar 0x0118 0)
  else if o = 0x0200 then BitVec.ofNat 64 (s.bar 0x0200 0)
  else if o = 0x0208 then BitVec.ofNat 64 s.cxlStat
  else if o = 0x0210 then BitVec.ofNat 64 (s.reg 0x630)
  else if 0x0400 ≤ o ∧ o < 0x0600 then BitVec.ofNat 64 (s.reg (qreg (o % 0x400 / 8)))
  else if 0x01000000 ≤ o ∧ o < 0x02000000 then BitVec.ofNat 64 (s.stagingRead (o % 2 ^ 24))
  else if 0x07000000 ≤ o ∧ o < 0x07000800 then BitVec.ofNat 64 (s.dbgRead (o % 2 ^ 11 / 8))
  else if windowBase ≤ o ∧ o < 0x10000000 then s.windowRead o
  else 0
/-- A host write of 8 bytes at a BAR0 offset; one to an unassigned offset is dropped (R469). -/
def State.bar0Write (s : State) (off : Nat) (v : BitVec 64) : State :=
  let o := off / 8 * 8
  let n := v.toNat
  if o = 0x0100 then s.fwWrite n
  else if o = 0x0110 then s.svcWrite n
  else if o = 0x0118 then s.svcBaseWrite n
  else if o = 0x0200 then s.biasWrite true n
  else if o = 0x0210 then s.dumpWrite n
  else if 0x0400 ≤ o ∧ o < 0x0600 then s.qregWrite (o % 0x400 / 8) n
  else if 0x01000000 ≤ o ∧ o < 0x02000000 then
    let bytes := (List.range 8).map fun k => BitVec.ofNat 8 (bitsOf n (8 * k) 8)
    { s with host := { s.host with staging := cellsWrite s.host.staging (o % 2 ^ 24) bytes } }
  else if 0x07000000 ≤ o ∧ o < 0x07000800 then s.dbgWrite (o % 2 ^ 11 / 8) n
  else if windowBase ≤ o ∧ o < 0x10000000 then s.windowWrite o v
  else s
/-- REGISTER_WRITE: a host write to BAR0, or the write that a sysw of a die's Innkeeper makes. -/
def State.registerWrite (s : State) (bar0 : Bool) (die num : Nat) (v : BitVec 64) : State :=
  if bar0 then s.bar0Write num v
  else if (regSpec num).isNone || decide (4 ≤ die) then s else s.sysWrite die num v.toNat

-- bkpt and swtrap (R320).

/-- bkpt: halts the tile when its debug module is armed (R277); a slot of the Innkeeper's core, which never halts, goes on.
Otherwise it traps. -/
def execBkpt (h : Hdr) (s : State) : Out :=
  issue s (fun _ => ⟨h, 8, [], false, false, false⟩) fun t =>
    let th := s.focus
    let tile := tileOf th
    if !bitOf (s.reg (dbgReg tile)) 2 then s.trap th (.plain .bkpt)
    else
      let s := s.haltTile tile 2 (th % 64)
      if isInnkeeperCore (coreOf th) then s.finish th 8 t else s.parkAt th .bkpt
/-- swtrap: n stands in the fault record's WORD. -/
def execSwtrap (h : Hdr) (_n : BitVec 4) (s : State) : Out :=
  issue s (fun _ => ⟨h, 8, [], false, false, false⟩) fun _ => s.trap s.focus (.plain .swtrap)

-- System instructions.

/-- A system instruction (R331): a speculative task parks; every earlier access of the thread is performed with respect to
.sys first (log entry 55). -/
def sysOp (s : State) (h : Hdr) (len : Nat) (names : List Nat) (priv : Bool) (f : Thread → State → State) : Out :=
  issue s (fun _ => ⟨h, len, names, false, priv, false⟩) fun t =>
    let th := s.focus
    if s.provisional t then s.parkAt th .earliest
    else if t.outs.any Outstanding.isMem then s.parkAt th .marker
    else
      let s := s.cleanTile (.thread th) (tileOf th) .sys
      if s.storesDone th .sys then f t s else s.parkAt th (.stores .sys)
/-- The register number and the length of sysr and sysw. -/
def RegSel.get (t : Thread) : RegSel → Nat
  | .reg r => (t.getG r).toNat % 2 ^ 12
  | .num n => n.toNat
/-- Length of the form. -/
def RegSel.len : RegSel → Nat
  | .reg _ => 8
  | .num _ => 12
/-- The register it names. -/
def RegSel.names : RegSel → List Nat
  | .reg r => [numG r]
  | .num _ => []

/-- sysr (R332): a variable-latency result. -/
def execSysr (h : Hdr) (d : GReg) (n : RegSel) (s : State) : Out :=
  sysOp s h (RegSel.len n) (numG d :: RegSel.names n) true fun t s =>
    let k := RegSel.get t n
    if (regSpec k).isNone then s.trap s.focus (.plain .illop)
    else if 16 ≤ t.outs.length then s
    else s.finish s.focus (RegSel.len n) (t.addOut (readyOut t (numG d) (s.sysRead (dieOfTile (tileOf s.focus)) k)))
/-- sysw (R332). -/
def execSysw (h : Hdr) (n : RegSel) (b : GReg) (s : State) : Out :=
  sysOp s h (RegSel.len n) (RegSel.names n ++ [numG b]) true fun t s =>
    let k := RegSel.get t n
    let v := (t.getG b).toNat
    if (regSpec k).isNone || s.sysRefused k v then s.trap s.focus (.plain .illop)
    else (s.sysWrite (dieOfTile (tileOf s.focus)) k v).finish s.focus (RegSel.len n) t

/-- faultreply (R165, R334): TOKEN is the low half of its operand. -/
def replyOp (h : Hdr) (a : Src32) (names : List Nat) (r : Thread → Reply) (s : State) : Out :=
  sysOp s h a.len (names ++ numSrc32 a) true fun t s =>
    (s.faultReply ((t.srcZ a).setWidth 32) (r t)).finish s.focus a.len t
/-- faultreply.retry. -/
def execFaultreplyRetry (h : Hdr) (a : Src32) (s : State) : Out := replyOp h a [] (fun _ => .retry) s
/-- faultreply.remote: the page is gB[51:16]. -/
def execFaultreplyRemote (h : Hdr) (b : GReg) (a : Src32) (s : State) : Out :=
  replyOp h a [numG b] (fun t => .remote (bitsOf (t.getG b).toNat 16 36)) s
/-- faultreply.killtask. -/
def execFaultreplyKilltask (h : Hdr) (a : Src32) (s : State) : Out := replyOp h a [] (fun _ => .killTask) s
/-- faultreply.killrun. -/
def execFaultreplyKillrun (h : Hdr) (a : Src32) (s : State) : Out := replyOp h a [] (fun _ => .killRun) s

/-- fltwait (R333): a variable-latency result, whether it waits or not (R156). -/
def execFltwait (h : Hdr) (d : GReg) (a : Src32) (s : State) : Out :=
  sysOp s h a.len (numG d :: numSrc32 a) true fun t s =>
    let th := s.focus
    let n := s.faultCount (dieOfTile (tileOf th))
    let left := (t.srcZ a).toNat
    if 16 ≤ t.outs.length then s
    else if n != 0 || left == 0 then s.finish th a.len (t.addOut (readyOut t (numG d) (BitVec.ofNat 64 n)))
    else s.setThread th { t.setPend (numG d) with park := .fltwait d left a.len }

-- Memory maintenance (R336 to R339).

/-- A physical address that no instruction may name: PROT reason 2. -/
def physTrap (acc : Acc) (a : Nat) : Trap := { Trap.protAt acc a 2 with pa := some (a % 2 ^ 52) }
/-- A holder that is neither the host nor behind one of the twelve ports: what an instruction of the device is to the holders. -/
def noHolder : Nat := 13
/-- purge (R336): a peer's line needs a port that is up (R63); else an assured store at the home, which waits as a host store does (R20,
R56, R59), and for a key slot that is being emptied (R46) (log entry 58). -/
def execPurge (h : Hdr) (addr : Addr) (b : GReg) (s : State) : Out :=
  sysOp s h addr.len [numG addr.base, numG b] true fun t s =>
    let th := s.focus
    let a := t.physAddr addr
    let key := (t.getG b).toNat % 16
    if 2 ^ 52 ≤ a ∨ !s.backed a then s.trap th (physTrap .write a)
    else if (s.keyAt key).isNone then s.trap th { Trap.protAt .write a 3 with pa := some a }
    else if s.noPort a then s.trap th { Trap.protAt .write a 5 with pa := some a }
    else
      let r := s.hostServes (a / 128) noHolder true
      if !r.1 || s.keyHeld key then r.2.parkAt th .home
      else (r.2.perform (a / 128) key (BitVec.allOnes 1024) 0
        { agent := .thread th, die := none, core := none, run := none, key := Key.zero, specid := none, eager := true,
          probes := true, restore := true, atHome := true, uncached := s.isSystem a }).2.finish th addr.len t

/-- Lines that n bytes from an address touch. -/
def lineCount (a n : Nat) : Nat := if n = 0 then 0 else (a + n - 1) / 128 - a / 128 + 1
/-- A line of main memory is still modified on the chip, since its controller takes nothing before memory is enabled (R20). -/
def State.unwritten (s : State) (line : Nat) : Bool := !s.isSystem (line * 128) && !s.locked && (Sparse.get? s.mem.chip line).isSome
/-- Flush lines from a virtual address on, until one faults or must wait (R337) (log entry 56). -/
def State.flushLines (s : State) (w : Who) (va : Nat) : Nat → State × Option Stop
  | 0 => (s, none)
  | k + 1 =>
    match s.locate w .read (va % 2 ^ 56) 128 with
    | .error e => (s, some e)
    | .ok l =>
      let s := s.useWalk w false l
      let line := l.part.pa / 128
      match l.part.place with
      | .stash _ => s.flushLines w (va + 128) k
      | _ =>
        let s := s.cleanLine line
        if s.unwritten line then (s, some (.wait none)) else s.flushLines w (va + 128) k
/-- cflush (R337). -/
def execCflush (h : Hdr) (addr : Addr) (b : GReg) (s : State) : Out :=
  sysOp s h addr.len [numG addr.base, numG b] false fun t s =>
    let th := s.focus
    let va := t.addr addr
    let r := s.flushLines (t.who th) (va / 128 * 128) (lineCount va (t.getG b).toNat)
    match r.2 with
    | none => r.1.finish th addr.len { t with remote := [] }
    | some e => r.1.stopAccess th e

/-- Invalidate lines from a line on, until one carries speculative state (R338) or can not be written back (R20): true when all are
done (log entry 56). -/
def State.invalLines (s : State) (line : Nat) : Nat → Bool × State
  | 0 => (true, s)
  | k + 1 =>
    if !s.backed (line * 128) then s.invalLines (line + 1) k
    else
      let s := s.reprobe line
      if s.otherSpec line none then (false, s)
      else
        let s := s.dropLine line
        if s.unwritten line then (false, s) else s.invalLines (line + 1) k
/-- cinval (R338). -/
def execCinval (h : Hdr) (addr : Addr) (b : GReg) (s : State) : Out :=
  sysOp s h addr.len [numG addr.base, numG b] true fun t s =>
    let th := s.focus
    let a := t.physAddr addr
    if 2 ^ 52 ≤ a then s.trap th (physTrap .write a)
    else
      let r := s.invalLines (a / 128) (lineCount a (t.getG b).toNat)
      if r.1 then r.2.finish th addr.len t else r.2.parkAt th .home

/-- A leaf entry, not one of a walk cache. -/
def TlbEntry.isLeaf (e : TlbEntry) : Bool := decide (e.unit < 4096)
/-- The entry through which an agent of a run has translated a VA by a leaf of a level, whether a TLB still holds it or not. -/
def State.entryOf (s : State) (run va level : Nat) : TlbEntry :=
  let sp := s.space (if run = 16 then none else some run)
  { unit := 0, run := run, gen := sp.2.2.1, asid := sp.2.2.2, page := va / 2 ^ levelShift level, level := level, pte := 0 }
/-- An access not yet performed was translated through an entry of a kind, that of a waiting ctrwait and those of undo logs among them
(R174) (log entry 57). -/
def State.usesEntry (s : State) (f : TlbEntry → Bool) : Bool :=
  let hit (run : Nat) (p : Part) : Bool := !p.remote && (match p.place with | .stash _ => false | _ => true) && f (s.entryOf run p.va p.level)
  let log (run : Nat) (l : Option (Nat × Part)) : Bool := l.any fun x => hit run x.2
  s.stores.any (fun x => x.agent != .host && (hit x.run x.part || log x.run x.log)) ||
    s.threads.any fun t =>
      let run := match t.2.task with | some k => k.run | none => 16
      t.2.outs.any (fun o => o.parts.any (hit run) || log run o.log) || (match t.2.park with | .ctrwait _ _ p .. => hit run p | _ => false)
/-- The mapped stash lines that were filled through an entry of a kind (R202). -/
def State.linesUnder (s : State) (f : TlbEntry → Bool) : List MapLine :=
  s.stash.lines.filter fun l => s.stash.maps.any fun m => m.tile == l.tile && decide (m.soff ≤ l.off) &&
    decide (l.off < m.soff + 4096 * m.pages) && f (s.entryOf m.run (m.vbase + (l.off - m.soff)) l.level)
/-- tlbinv: entries go once no access translated by one is under way, with the stash lines mapped through them (R174, R202,
R339) (log entry 57). -/
def tlbinvOp (h : Hdr) (len : Nat) (names : List Nat) (f : Thread → TlbEntry → Bool) (s : State) : Out :=
  sysOp s h len names true fun t s =>
    if s.usesEntry (f t) then s.parkAt s.focus .home
    else
      let s := (s.linesUnder (f t)).foldl (fun (s : State) l => s.evictMapLine l.tile l.off []) s
      ({ s with tlb := s.tlb.filter fun e => !f t e } : State).finish s.focus len t
/-- The ASID a tlbinv names. -/
def Thread.asidOf (t : Thread) (b : Src32) : Nat := (t.srcZ b).toNat % 2 ^ 12
/-- tlbinv.page (R339). -/
def execTlbinvPage (h : Hdr) (a : GReg) (b : Src32) (s : State) : Out :=
  tlbinvOp h b.len (numG a :: numSrc32 b) (fun t e => e.asid == t.asidOf b &&
    (!e.isLeaf || e.page == (t.getG a).toNat % 2 ^ 56 / 2 ^ levelShift e.level)) s
/-- tlbinv.asid. -/
def execTlbinvAsid (h : Hdr) (b : Src32) (s : State) : Out :=
  tlbinvOp h b.len (numSrc32 b) (fun t e => e.asid == t.asidOf b) s
/-- tlbinv.all. -/
def execTlbinvAll (h : Hdr) (s : State) : Out := tlbinvOp h 8 [] (fun _ _ => true) s

/-- REGISTER_WRITE (R5) (log entry 65). -/
def execRegisterWrite (bar0 : Bool) (die num : Nat) (v : BitVec 64) (s : State) : Out := .next (s.registerWrite bar0 die num v)

end Sys2Proof.Machine
end

