-- ==== Sys2Proof/Machine/Dispatch.lean ====
section
/-! DEFINITION. One arm for every constructor of Instr: an instruction's meaning acts on the thread in the focus slot, an
event's performs one step of the agent the event names. -/
namespace Sys2Proof.Machine
open Sys2Proof

/-- The meaning of every row of the opcode table. -/
def exec (i : Instr) (s : State) : Host.Outcome State Fault Refusal :=
  match i with
  | .add h ty sat d a b => Sys2Proof.Machine.execAdd h ty sat d a b s
  | .sub h ty sat d a b => Sys2Proof.Machine.execSub h ty sat d a b s
  | .mul h ty sat d a b => Sys2Proof.Machine.execMul h ty sat d a b s
  | .mulh h ty d a b => Sys2Proof.Machine.execMulh h ty d a b s
  | .div h ty d a b => Sys2Proof.Machine.execDiv h ty d a b s
  | .rem h ty d a b => Sys2Proof.Machine.execRem h ty d a b s
  | .min h ty d a b => Sys2Proof.Machine.execMin h ty d a b s
  | .max h ty d a b => Sys2Proof.Machine.execMax h ty d a b s
  | .and h ty d a b => Sys2Proof.Machine.execAnd h ty d a b s
  | .or h ty d a b => Sys2Proof.Machine.execOr h ty d a b s
  | .xor h ty d a b => Sys2Proof.Machine.execXor h ty d a b s
  | .andn h ty d a b => Sys2Proof.Machine.execAndn h ty d a b s
  | .shl h ty d a b => Sys2Proof.Machine.execShl h ty d a b s
  | .shr h ty d a b => Sys2Proof.Machine.execShr h ty d a b s
  | .sar h ty d a b => Sys2Proof.Machine.execSar h ty d a b s
  | .rot h left ty d a b => Sys2Proof.Machine.execRot h left ty d a b s
  | .mov h ty d a => Sys2Proof.Machine.execMov h ty d a s
  | .sel h d a b c => Sys2Proof.Machine.execSel h d a b c s
  | .bit h op ty d a => Sys2Proof.Machine.execBit h op ty d a s
  | .bext h ty d a b => Sys2Proof.Machine.execBext h ty d a b s
  | .bins h ty d a b => Sys2Proof.Machine.execBins h ty d a b s
  | .cvt h src dst d a => Sys2Proof.Machine.execCvt h src dst d a s
  | .lea h scale d a b => Sys2Proof.Machine.execLea h scale d a b s
  | .bkpt h => Sys2Proof.Machine.execBkpt h s
  | .swtrap h n => Sys2Proof.Machine.execSwtrap h n s
  | .nop h ext => Sys2Proof.Machine.execNop h ext s
  | .pcmp h rel ty d a b => Sys2Proof.Machine.execPcmp h rel ty d a b s
  | .plog h op d a b => Sys2Proof.Machine.execPlog h op d a b s
  | .mlog h op d a b => Sys2Proof.Machine.execMlog h op d a b s
  | .mmovMG h d a => Sys2Proof.Machine.execMmovMG h d a s
  | .mmovGM h d a => Sys2Proof.Machine.execMmovGM h d a s
  | .mmovMImm h d v => Sys2Proof.Machine.execMmovMImm h d v s
  | .mcnt h op d a => Sys2Proof.Machine.execMcnt h op d a s
  | .mfirst h ty d n => Sys2Proof.Machine.execMfirst h ty d n s
  | .pmovPG h d a => Sys2Proof.Machine.execPmovPG h d a s
  | .pmovGP h d a => Sys2Proof.Machine.execPmovGP h d a s
  | .br h off => Sys2Proof.Machine.execBr h off s
  | .jr h a => Sys2Proof.Machine.execJr h a s
  | .callr h d a => Sys2Proof.Machine.execCallr h d a s
  | .call h d off => Sys2Proof.Machine.execCall h d off s
  | .ret h a => Sys2Proof.Machine.execRet h a s
  | .loop h d off => Sys2Proof.Machine.execLoop h d off s
  | .repeatReg h km1 a => Sys2Proof.Machine.execRepeatReg h km1 a s
  | .repeatImm h km1 n => Sys2Proof.Machine.execRepeatImm h km1 n s
  | .idr h d num => Sys2Proof.Machine.execIdr h d num s
  | .ucrr h d num => Sys2Proof.Machine.execUcrr h d num s
  | .ucrw h a num => Sys2Proof.Machine.execUcrw h a num s
  | .rdtimeCyc h d => Sys2Proof.Machine.execRdtimeCyc h d s
  | .rdtimeNs h d => Sys2Proof.Machine.execRdtimeNs h d s
  | .sysr h d n => Sys2Proof.Machine.execSysr h d n s
  | .sysw h n b => Sys2Proof.Machine.execSysw h n b s
  | .faultreplyRetry h a => Sys2Proof.Machine.execFaultreplyRetry h a s
  | .faultreplyRemote h b a => Sys2Proof.Machine.execFaultreplyRemote h b a s
  | .faultreplyKilltask h a => Sys2Proof.Machine.execFaultreplyKilltask h a s
  | .faultreplyKillrun h a => Sys2Proof.Machine.execFaultreplyKillrun h a s
  | .fltwait h d a => Sys2Proof.Machine.execFltwait h d a s
  | .purge h addr b => Sys2Proof.Machine.execPurge h addr b s
  | .cflush h addr b => Sys2Proof.Machine.execCflush h addr b s
  | .cinval h addr b => Sys2Proof.Machine.execCinval h addr b s
  | .tlbinvPage h a b => Sys2Proof.Machine.execTlbinvPage h a b s
  | .tlbinvAsid h b => Sys2Proof.Machine.execTlbinvAsid h b s
  | .tlbinvAll h => Sys2Proof.Machine.execTlbinvAll h s
  | .vfadd h ty rm sat d a b => Sys2Proof.Machine.execVfadd h ty rm sat d a b s
  | .vfsub h ty rm sat d a b => Sys2Proof.Machine.execVfsub h ty rm sat d a b s
  | .vfmul h ty rm sat d a b => Sys2Proof.Machine.execVfmul h ty rm sat d a b s
  | .vfma h ty rm sat d a b c => Sys2Proof.Machine.execVfma h ty rm sat d a b c s
  | .vfms h ty rm sat d a b c => Sys2Proof.Machine.execVfms h ty rm sat d a b c s
  | .vfnma h ty rm sat d a b c => Sys2Proof.Machine.execVfnma h ty rm sat d a b c s
  | .vfmin h ty d a b => Sys2Proof.Machine.execVfmin h ty d a b s
  | .vfmax h ty d a b => Sys2Proof.Machine.execVfmax h ty d a b s
  | .vfsgn h op ty d a b => Sys2Proof.Machine.execVfsgn h op ty d a b s
  | .vfcmp h rel ty d a b => Sys2Proof.Machine.execVfcmp h rel ty d a b s
  | .vfcvt h src dst part rm sat d a => Sys2Proof.Machine.execVfcvt h src dst part rm sat d a s
  | .vfdiv h ty rm sat d a b => Sys2Proof.Machine.execVfdiv h ty rm sat d a b s
  | .vfsqrt h ty rm sat d a => Sys2Proof.Machine.execVfsqrt h ty rm sat d a s
  | .vfrcp h ty rm sat d a => Sys2Proof.Machine.execVfrcp h ty rm sat d a s
  | .vfrsq h ty rm sat d a => Sys2Proof.Machine.execVfrsq h ty rm sat d a s
  | .vfexp2 h ty rm sat d a => Sys2Proof.Machine.execVfexp2 h ty rm sat d a s
  | .vflog2 h ty rm sat d a => Sys2Proof.Machine.execVflog2 h ty rm sat d a s
  | .vfred h op ty rm d a c => Sys2Proof.Machine.execVfred h op ty rm d a c s
  | .vfmerge h ty d a b => Sys2Proof.Machine.execVfmerge h ty d a b s
  | .vfscale h e8m0 ty rm sat d a b => Sys2Proof.Machine.execVfscale h e8m0 ty rm sat d a b s
  | .vfrint h ty rm d a => Sys2Proof.Machine.execVfrint h ty rm d a s
  | .vadd h ty sat d a b => Sys2Proof.Machine.execVadd h ty sat d a b s
  | .vsub h ty sat d a b => Sys2Proof.Machine.execVsub h ty sat d a b s
  | .vmul h hi ty sat d a b => Sys2Proof.Machine.execVmul h hi ty sat d a b s
  | .vmm h max ty d a b => Sys2Proof.Machine.execVmm h max ty d a b s
  | .vlog h op ty d a b => Sys2Proof.Machine.execVlog h op ty d a b s
  | .vsh h op ty d a b => Sys2Proof.Machine.execVsh h op ty d a b s
  | .vcmp h rel ty d a b => Sys2Proof.Machine.execVcmp h rel ty d a b s
  | .vcvt h src dst part d a => Sys2Proof.Machine.execVcvt h src dst part d a s
  | .vbcastG h ty d a => Sys2Proof.Machine.execVbcastG h ty d a s
  | .vbcastImm h ty d v => Sys2Proof.Machine.execVbcastImm h ty d v s
  | .vbcastLane h ty d a b => Sys2Proof.Machine.execVbcastLane h ty d a b s
  | .vshuf h ty d a b => Sys2Proof.Machine.execVshuf h ty d a b s
  | .vslide h op ty d a b => Sys2Proof.Machine.execVslide h op ty d a b s
  | .vsel h ty d a b c => Sys2Proof.Machine.execVsel h ty d a b c s
  | .vmovgG h ty d a b => Sys2Proof.Machine.execVmovgG h ty d a b s
  | .vmovgW h ty d a b => Sys2Proof.Machine.execVmovgW h ty d a b s
  | .vred h op ty sat d a c => Sys2Proof.Machine.execVred h op ty sat d a c s
  | .vscan h excl ty sat d a => Sys2Proof.Machine.execVscan h excl ty sat d a s
  | .vcomp h ty d a => Sys2Proof.Machine.execVcomp h ty d a s
  | .ld h ty mo blk d addr => Sys2Proof.Machine.execLd h ty mo blk d addr s
  | .st h ty mo blk addr b => Sys2Proof.Machine.execSt h ty mo blk addr b s
  | .lds h ty scope acq sat view d addr => Sys2Proof.Machine.execLds h ty scope acq sat view d addr s
  | .gather h ty mo d addr b => Sys2Proof.Machine.execGather h ty mo d addr b s
  | .scatter h ty mo addr b c => Sys2Proof.Machine.execScatter h ty mo addr b c s
  | .pref h l1 addr => Sys2Proof.Machine.execPref h l1 addr s
  | .sbind h d addr => Sys2Proof.Machine.execSbind h d addr s
  | .sbindUnbind h d => Sys2Proof.Machine.execSbindUnbind h d s
  | .atomAdd h ty mo d addr b => Sys2Proof.Machine.execAtomAdd h ty mo d addr b s
  | .atomMin h ty mo d addr b => Sys2Proof.Machine.execAtomMin h ty mo d addr b s
  | .atomMax h ty mo d addr b => Sys2Proof.Machine.execAtomMax h ty mo d addr b s
  | .atomAnd h ty mo d addr b => Sys2Proof.Machine.execAtomAnd h ty mo d addr b s
  | .atomOr h ty mo d addr b => Sys2Proof.Machine.execAtomOr h ty mo d addr b s
  | .atomXor h ty mo d addr b => Sys2Proof.Machine.execAtomXor h ty mo d addr b s
  | .atomSwap h ty mo d addr b => Sys2Proof.Machine.execAtomSwap h ty mo d addr b s
  | .atomCas h ty mo d addr b c => Sys2Proof.Machine.execAtomCas h ty mo d addr b c s
  | .atomRed h op ty mo addr b c => Sys2Proof.Machine.execAtomRed h op ty mo addr b c s
  | .ctradd h scope addr b => Sys2Proof.Machine.execCtradd h scope addr b s
  | .ctrread h scope d addr => Sys2Proof.Machine.execCtrread h scope d addr s
  | .ctrwait h scope d e addr b c => Sys2Proof.Machine.execCtrwait h scope d e addr b c s
  | .ctrarriveMax h ty scope d addr b => Sys2Proof.Machine.execCtrarriveMax h ty scope d addr b s
  | .ctrarriveSum h scope d addr b => Sys2Proof.Machine.execCtrarriveSum h scope d addr b s
  | .fence h sc scope => Sys2Proof.Machine.execFence h sc scope s
  | .stashmap h upd a b c => Sys2Proof.Machine.execStashmap h upd a b c s
  | .stashunmap h addr => Sys2Proof.Machine.execStashunmap h addr s
  | .stashflush h addr b => Sys2Proof.Machine.execStashflush h addr b s
  | .task h spec hm n b c e func => Sys2Proof.Machine.execTask h spec hm n b c e func s
  | .tgrid h n b c e func => Sys2Proof.Machine.execTgrid h n b c e func s
  | .depart h a func => Sys2Proof.Machine.execDepart h a func s
  | .tend h => Sys2Proof.Machine.execTend h s
  | .mswait h => Sys2Proof.Machine.execMswait h s
  | .prpush h urg ctl d a b c e => Sys2Proof.Machine.execPrpush h urg ctl d a b c e s
  | .prget h urg ctl d a b c e => Sys2Proof.Machine.execPrget h urg ctl d a b c e s
  | .prcopy h urg ctl d a b c e => Sys2Proof.Machine.execPrcopy h urg ctl d a b c e s
  | .prfill h urg ctl d a b c e => Sys2Proof.Machine.execPrfill h urg ctl d a b c e s
  | .prgath h urg ctl rows d a b c e => Sys2Proof.Machine.execPrgath h urg ctl rows d a b c e s
  | .prscat h urg ty ctl rows d a b c e => Sys2Proof.Machine.execPrscat h urg ty ctl rows d a b c e s
  | .prrow h urg op ty ctl mask tag d a b c e => Sys2Proof.Machine.execPrrow h urg op ty ctl mask tag d a b c e s
  | .mma h tc ctl ldc d a b c e => Sys2Proof.Machine.execMma h tc ctl ldc d a b c e s
  | .mmaq h tc ctl ldc d a b c e => Sys2Proof.Machine.execMmaq h tc ctl ldc d a b c e s
  | .mmab h tc ctl ldc d a b c e => Sys2Proof.Machine.execMmab h tc ctl ldc d a b c e s
  | .accld h tc ctl ldc d c e => Sys2Proof.Machine.execAccld h tc ctl ldc d c e s
  | .accst h tc ctl ldc d c e => Sys2Proof.Machine.execAccst h tc ctl ldc d c e s
  | .jwait h st d a => Sys2Proof.Machine.execJwait h st d a s
  | .jpoll h d a => Sys2Proof.Machine.execJpoll h d a s
  | .switchMarkerWake th => Sys2Proof.Machine.execSwitchMarkerWake th s
  | .variableLatencyResult th n => Sys2Proof.Machine.execVariableLatencyResult th n s
  | .engineQueueAccept tile unit => Sys2Proof.Machine.execEngineQueueAccept tile unit s
  | .matrixJobStart tile => Sys2Proof.Machine.execMatrixJobStart tile s
  | .matrixBlockDone tile => Sys2Proof.Machine.execMatrixBlockDone tile s
  | .matrixJobComplete tile => Sys2Proof.Machine.execMatrixJobComplete tile s
  | .matrixJobFault tile => Sys2Proof.Machine.execMatrixJobFault tile s
  | .porterLineRequest tile lane => Sys2Proof.Machine.execPorterLineRequest tile lane s
  | .porterSourceBump tile lane => Sys2Proof.Machine.execPorterSourceBump tile lane s
  | .porterJobComplete tile lane => Sys2Proof.Machine.execPorterJobComplete tile lane s
  | .porterFault tile lane => Sys2Proof.Machine.execPorterFault tile lane s
  | .prrowInstanceStart tile tag => Sys2Proof.Machine.execPrrowInstanceStart tile tag s
  | .pageWalk run core va write => Sys2Proof.Machine.execPageWalk run core va write s
  | .privateRelease core page => Sys2Proof.Machine.execPrivateRelease core page s
  | .faultPost die => Sys2Proof.Machine.execFaultPost die s
  | .faultHeadWrite die v => Sys2Proof.Machine.execFaultHeadWrite die v s
  | .faultCfgWrite v => Sys2Proof.Machine.execFaultCfgWrite v s
  | .fatalTileFault tile => Sys2Proof.Machine.execFatalTileFault tile s
  | .deviceFatalError => Sys2Proof.Machine.execDeviceFatalError s
  | .taskAccept n => Sys2Proof.Machine.execTaskAccept n s
  | .taskDispatch tile => Sys2Proof.Machine.execTaskDispatch tile s
  | .spill tile => Sys2Proof.Machine.execSpill tile s
  | .refill tile => Sys2Proof.Machine.execRefill tile s
  | .discard tile specid => Sys2Proof.Machine.execDiscard tile specid s
  | .specMarkRequest tile run line => Sys2Proof.Machine.execSpecMarkRequest tile run line s
  | .storeAtHome n => Sys2Proof.Machine.execStoreAtHome n s
  | .storeProbe tile run line cv ts tb specid => Sys2Proof.Machine.execStoreProbe tile run line cv ts tb specid s
  | .loadProbe tile run line ts tb specid => Sys2Proof.Machine.execLoadProbe tile run line ts tb specid s
  | .restoreAtHome tile => Sys2Proof.Machine.execRestoreAtHome tile s
  | .probeAnswer tile line => Sys2Proof.Machine.execProbeAnswer tile line s
  | .milestoneLatch => Sys2Proof.Machine.execMilestoneLatch s
  | .milestoneBroadcast => Sys2Proof.Machine.execMilestoneBroadcast s
  | .otherRunReprobe line => Sys2Proof.Machine.execOtherRunReprobe line s
  | .loadBalance => Sys2Proof.Machine.execLoadBalance s
  | .queueEnable q v => Sys2Proof.Machine.execQueueEnable q v s
  | .queueDisable q => Sys2Proof.Machine.execQueueDisable q s
  | .reservationEnd q => Sys2Proof.Machine.execReservationEnd q s
  | .headerReread q => Sys2Proof.Machine.execHeaderReread q s
  | .launchTake => Sys2Proof.Machine.execLaunchTake s
  | .recordSeqRetry q => Sys2Proof.Machine.execRecordSeqRetry q s
  | .nopRecord n => Sys2Proof.Machine.execNopRecord n s
  | .taskRecord n => Sys2Proof.Machine.execTaskRecord n s
  | .gridRecord n => Sys2Proof.Machine.execGridRecord n s
  | .gridEnter tile => Sys2Proof.Machine.execGridEnter tile s
  | .queueAgeing => Sys2Proof.Machine.execQueueAgeing s
  | .timedOverrun n => Sys2Proof.Machine.execTimedOverrun n s
  | .launchComplete n => Sys2Proof.Machine.execLaunchComplete n s
  | .runLoad slot v => Sys2Proof.Machine.execRunLoad slot v s
  | .runCfgBadClear slot v => Sys2Proof.Machine.execRunCfgBadClear slot v s
  | .preempt slot => Sys2Proof.Machine.execPreempt slot s
  | .resume slot => Sys2Proof.Machine.execResume slot s
  | .runTeardown slot => Sys2Proof.Machine.execRunTeardown slot s
  | .runKill slot => Sys2Proof.Machine.execRunKill slot s
  | .spreadSizeWrite v => Sys2Proof.Machine.execSpreadSizeWrite v s
  | .hmaskWrite k v => Sys2Proof.Machine.execHmaskWrite k v s
  | .memkeyLoad v => Sys2Proof.Machine.execMemkeyLoad v s
  | .memkeyGenerate v => Sys2Proof.Machine.execMemkeyGenerate v s
  | .memkeyDestroy v => Sys2Proof.Machine.execMemkeyDestroy v s
  | .biasFlipToHost host v => Sys2Proof.Machine.execBiasFlipToHost host v s
  | .biasFlipToDevice host v => Sys2Proof.Machine.execBiasFlipToDevice host v s
  | .birsp line half modified data => Sys2Proof.Machine.execBirsp line half modified data s
  | .hostMemRead half => Sys2Proof.Machine.execHostMemRead half s
  | .hostMemWrite half data poison => Sys2Proof.Machine.execHostMemWrite half data poison s
  | .hostSnoop half invalidate => Sys2Proof.Machine.execHostSnoop half invalidate s
  | .unassignedBar0Access off write v => Sys2Proof.Machine.execUnassignedBar0Access off write v s
  | .flitReplay => Sys2Proof.Machine.execFlitReplay s
  | .lateralRetrainFail => Sys2Proof.Machine.execLateralRetrainFail s
  | .fabricPortFail port => Sys2Proof.Machine.execFabricPortFail port s
  | .fabricPortUp port => Sys2Proof.Machine.execFabricPortUp port s
  | .hostPortFail => Sys2Proof.Machine.execHostPortFail s
  | .portTrainingHeld => Sys2Proof.Machine.execPortTrainingHeld s
  | .powerThrottle watts thermal => Sys2Proof.Machine.execPowerThrottle watts thermal s
  | .criticalTemperature => Sys2Proof.Machine.execCriticalTemperature s
  | .fwSubmit v => Sys2Proof.Machine.execFwSubmit v s
  | .firmwareLoss => Sys2Proof.Machine.execFirmwareLoss s
  | .svcSubmit v => Sys2Proof.Machine.execSvcSubmit v s
  | .spdmRequest block => Sys2Proof.Machine.execSpdmRequest block s
  | .scrubRead ctl err => Sys2Proof.Machine.execScrubRead ctl err s
  | .scrubDeadline ctl => Sys2Proof.Machine.execScrubDeadline ctl s
  | .scrubForcedRead ctl => Sys2Proof.Machine.execScrubForcedRead ctl s
  | .selfRefreshEntry pc => Sys2Proof.Machine.execSelfRefreshEntry pc s
  | .selfRefreshExit pc => Sys2Proof.Machine.execSelfRefreshExit pc s
  | .bloomClear => Sys2Proof.Machine.execBloomClear s
  | .hbmWrite line => Sys2Proof.Machine.execHbmWrite line s
  | .directoryEvict lvl3 die line => Sys2Proof.Machine.execDirectoryEvict lvl3 die line s
  | .upgradeRequest tile line v => Sys2Proof.Machine.execUpgradeRequest tile line v s
  | .ownershipRequest die line => Sys2Proof.Machine.execOwnershipRequest die line s
  | .ownershipRecall line => Sys2Proof.Machine.execOwnershipRecall line s
  | .sharerInvalidate tile line cv => Sys2Proof.Machine.execSharerInvalidate tile line cv s
  | .sourceFormatDemote line => Sys2Proof.Machine.execSourceFormatDemote line s
  | .replicaFill quad line => Sys2Proof.Machine.execReplicaFill quad line s
  | .replicaDrop quad line => Sys2Proof.Machine.execReplicaDrop quad line s
  | .eagerCollapse line => Sys2Proof.Machine.execEagerCollapse line s
  | .lazyCollapse line => Sys2Proof.Machine.execLazyCollapse line s
  | .collapseAck quad line => Sys2Proof.Machine.execCollapseAck quad line s
  | .regionEvaluation => Sys2Proof.Machine.execRegionEvaluation s
  | .replRstateWrite v => Sys2Proof.Machine.execReplRstateWrite v s
  | .pageHotnessHalving => Sys2Proof.Machine.execPageHotnessHalving s
  | .hotSel die v => Sys2Proof.Machine.execHotSel die v s
  | .dirSel die v => Sys2Proof.Machine.execDirSel die v s
  | .lodgeCfgWrite v => Sys2Proof.Machine.execLodgeCfgWrite v s
  | .ctrwaitNotify th => Sys2Proof.Machine.execCtrwaitNotify th s
  | .ctrwaitTimeout th => Sys2Proof.Machine.execCtrwaitTimeout th s
  | .ctrwaitPoll th => Sys2Proof.Machine.execCtrwaitPoll th s
  | .fltwaitTimeout th => Sys2Proof.Machine.execFltwaitTimeout th s
  | .dbgHalt tile => Sys2Proof.Machine.execDbgHalt tile s
  | .dbgResume tile => Sys2Proof.Machine.execDbgResume tile s
  | .dbgStep tile => Sys2Proof.Machine.execDbgStep tile s
  | .crossTrigger tile => Sys2Proof.Machine.execCrossTrigger tile s
  | .bell => Sys2Proof.Machine.execBell s
  | .bellRestart v => Sys2Proof.Machine.execBellRestart v s
  | .coreDump v => Sys2Proof.Machine.execCoreDump v s
  | .itineraryRecord kind tile w1 w2 w3 => Sys2Proof.Machine.execItineraryRecord kind tile w1 w2 w3 s
  | .deviceReset => Sys2Proof.Machine.execDeviceReset s
  | .registerWrite bar0 die num v => Sys2Proof.Machine.execRegisterWrite bar0 die num v s

end Sys2Proof.Machine
end

