-- ==== Sys2Proof/Machine/Schedule.lean ====
section
/-! DEFINITION. The schedule of one machine (log entry 1): the issue of one instruction, the passing of cycles with what is
due in them, and the move that comes next when the agenda names none. -/
namespace Sys2Proof.Machine
open Sys2Proof

-- Issue (R153, R154, R290 to R293).

/-- A park that an instruction enters in being executed: its effect has begun. The other parks stand before their instruction. -/
def Park.issued : Park → Bool
  | .run | .offer .. | .send .. | .grid _ | .jwait _ | .ctrwait .. | .fltwait .. | .bkpt => true
  | .marker | .pendread | .earliest | .held _ | .fault | .stores _ | .home | .stop => false
/-- An instruction has issued, by its thread before it and the state after. -/
def State.hasIssued (s : State) (th : Nat) (t : Thread) : Bool :=
  match s.thread? th with
  | none => true
  | some u => match u.park with
    | .run => u.pc != t.pc || u.lastIssue == s.cycle
    | p => p.issued
/-- What counts instructions (R282, event 0x02): one for each that issues; a jwait or tgrid that issues again when its wait has
ended was counted (log entry 45). -/
def State.countIssue (s : State) (th : Nat) (t : Thread) : State :=
  let again : Bool := match t.park with | .jwait _ | .grid _ => true | _ => false
  if s.hasIssued th t && !again then s.countEvt (tileOf th) 0x02 (t.task.map fun k => k.run) 1 else s
/-- A thread has had its turn: its part in a step of its tile is done when its instruction has issued or trapped (R277) (log entry 50),
and what was performed of it with respect to .dev before, so that it could issue, leaves S (R253). -/
def State.endStep (s : State) (th : Nat) (t : Thread) : State :=
  let s := s.settleS th
  let trapped : Bool := match s.thread? th with
    | some u => (match u.park with | .fault | .held _ | .pendread | .stop => true | _ => false)
    | none => true
  if s.hasIssued th t || trapped then s.stepped th else s

/-- One slot issues, if it may: a task that is to end ends at this boundary (R165); else the instruction at PC is fetched and
executed (log entry 61). -/
def issueThread (s : State) (th : Nat) : Out :=
  let s : State := { s with focus := th }
  if !s.canIssue th then .next s
  else match s.thread? th with
    | none => .next s
    | some t =>
      if t.ending then .next ((s.tryEnd th).endStep th t)
      else match s.fetch th t with
        | .wait s => .next (s.parkAt th .home)
        | .trap x s => .next ((s.trap th x).stepped th)
        | .run i s => match exec i { s with focus := th } with
          | .next s => .next ((s.countIssue th t).endStep th t)
          | .fault f => .fault f
          | .refused r => .refused r

-- Time.

/-- Cycles that pass in a wait: those of a halted tile do not advance its counter waits (R279). -/
def Thread.waitFor (t : Thread) (halted : Bool) (n : Nat) : Thread :=
  match t.park with
  | .ctrwait d e p target left poll wait scope len =>
    if halted then t else { t with park := .ctrwait d e p target (left - n) poll (wait - n) scope len }
  | .fltwait d left len => { t with park := .fltwait d (left - n) len }
  | _ => t

/-- A release of .dev or wider that an agent has issued waits for the collapses it is charged with (R232, R248, R415, R436). -/
def State.releaseWaiting (s : State) (a : Agent) : Bool :=
  match a with
  | .thread th =>
    s.stores.any (fun x => x.agent == a && x.rel.any devScope) ||
      (s.thread? th).any fun t => t.outs.any (fun o => o.rel.any devScope) ||
        (match t.park with | .stores sc => devScope sc | _ => false)
  | .matrix tile => (s.matHead tile).any fun j => (matSpec j.ins).any fun p => p.ctr && j.started && decide (j.blocks ≤ j.rp) && devScope p.csc
  | .porter tile lane => (s.laneHead tile lane).any fun j => (portSpec j.ins).any fun p =>
      decide (p.total j.cval j.count ≤ j.progress) && (if p.sct && !j.srcBumped then devScope p.ssc else p.dct && devScope p.dsc)
  | _ => false
/-- The counters of events that last cycles (R282): cycles, stalled dispatch, and releases that wait for lazy collapses (log
entry 45). -/
def State.countCycles (s : State) (n : Nat) : State :=
  let due (e : Nat × BitVec 64) : Bool :=
    let tile := e.1 / 16
    let v := e.2.toNat
    let mine (r : Nat) : Bool := !bitOf v 12 || r == bitsOf v 8 4
    bitOf v 63 && match bitsOf v 0 8 with
      | 0x01 => !bitOf v 12 || (s.tileThreads tile).any fun x => x.2.task.any fun k => mine k.run
      | 0x09 => (List.range 16).any fun r => mine r && s.cqStallRun tile r
      | 0x23 => s.coh.collapses.any fun c => s.homeQuad c.line * 64 + sliceOf c.line == tile && c.charged.any s.releaseWaiting
      | _ => false
  let vals := s.dbg.pmcEvt.foldl (fun m e =>
    if due e then Sparse.set m e.1 (Sparse.getD m e.1 0 + BitVec.ofNat 64 n) else m) s.dbg.pmcVal
  { s with dbg := { s.dbg with pmcVal := vals } }

/-- n cycles pass: the clock, the waits that count cycles, the charge of timed launches (R92), the counters (log entry 64). -/
def State.pass (s : State) (n : Nat) : State :=
  let s := (s.chargeCycles n).countCycles n
  { s with cycle := s.cycle + n, threads := s.threads.mapVals fun th t => t.waitFor (s.halted (tileOf th)) n }

/-- Do something when the clock stands at a multiple of a period. -/
def State.every (s : State) (period : Nat) (f : State → State) : State := if s.cycle % period = 0 then f s else s

/-- The round under way: ROUND rises 40 cycles after the latch, the broadcast follows at 96 (R148). -/
def State.roundDue (s : State) : State :=
  match s.latchCycle with
  | none => s
  | some c =>
    let s := if c + 40 ≤ s.cycle then s.countRound else s
    if c + 96 ≤ s.cycle then s.milestoneBroadcast else s
/-- The balancing interval under way ends; the next has the length that LODGE_CFG gives now (R125, R152). -/
def State.balanceDue (s : State) : State :=
  if s.cycle < s.balance then s
  else { s.loadBalance with balance := s.cycle + Nat.max 256 (bitsOf (s.reg 0x200) 44 20) }
/-- Every controller's level follows its lag (R37), looked at every 256 cycles; then the reads that the levels force. -/
def State.scrubStep (s : State) : State :=
  if !bitOf (s.reg 0x031) 63 then s
  else (s.every 256 fun s => (List.range 16).foldl (fun (s : State) c => s.setScrubLevel c) s).scrubDue

/-- Events due at the clock's value: milestone rounds (R148, R149), the microsecond's ageing and retries (R75, R76), load
levelling (R152), regions and hotness (R234, R237), the second-touch filters (R33), scrubbing (R36, R37), self-refresh (R39), the
Bell (R281) (log entries 19, 30 and 64). -/
def State.dueNow (s : State) : State :=
  let s := s.roundDue
  let s := s.every 2250 fun s => (List.range 64).foldl (fun (s : State) q => s.seqRetry q) s.queueAgeing
  let s := s.balanceDue.halveHot.regionStep
  let s := s.every (2 ^ Nat.max 10 (bitsOf (s.reg 0x030) 8 5)) fun s => { s with coh := { s.coh with bloom := [] } }
  let s := s.every 2250 fun s => (List.range 16).foldl (fun (s : State) c => s.scrubDeadline c) s
  s.scrubStep.refreshDue.bell

/-- The latch of a round stands at the end of its cycle: what the launch unit enters in the cycle is seen by it (R147, R148). -/
def State.latchDue (s : State) : State := if s.cycle % 128 = 0 ∧ s.latchCycle ≠ some s.cycle then s.milestoneLatch else s
/-- One cycle ends: its latch, the clock, and what is due in the next (log entry 64). -/
def State.tick (s : State) : State := (s.latchDue.pass 1).dueNow
/-- Cycles that pass one after another. -/
def State.ticks (s : State) : Nat → State
  | 0 => s
  | n + 1 => s.tick.ticks n

-- The next move.

/-- A step of the device's own, as what it does to the state. -/
abbrev Act := State → State

/-- A variable-latency result arrives once its slot has issued nothing for two cycles, so that an unmarked use next to its
producer finds it pending (R156, R159) (log entry 67). -/
def State.arrive (s : State) (th n : Nat) : State :=
  match s.thread? th with
  | none => s
  | some t => if t.lastIssue + 2 < s.cycle then s.deliver th n else s
/-- Events of a slot that may be due. -/
def threadMoves (th : Nat) (t : Thread) : List Act :=
  (t.outs.map fun o (s : State) => s.arrive th o.dst.toNat) ++
    (match t.park with
     | .marker => [fun (s : State) => s.markerWake th]
     | .ctrwait .. => [fun (s : State) => s.ctrNotify th, fun (s : State) => s.ctrTimeout th, fun (s : State) => s.ctrPoll th]
     | .fltwait .. => [fun (s : State) => s.fltwaitTimeout th]
     | .offer u _ _ _ => [fun (s : State) => s.acceptOffer (tileOf th) u]
     | _ => [])
/-- The order in which Porter's lanes request lines: the urgent lane first, but in one cycle of every 8 the normal one (R205). -/
def laneOrder (cycle : Nat) : List Nat := if cycle % 8 = 7 then [0, 1] else [1, 0]
/-- Events of a tile's engines. -/
def engineMoves (cycle tile : Nat) (e : Engines) : List Act :=
  (if e.mq.isEmpty then [] else [fun (s : State) => s.matStart tile, fun (s : State) => s.matBlock tile, fun (s : State) => s.matComplete tile]) ++
    (laneOrder cycle).flatMap fun lane => match (e.lanes.getD lane []).head? with
      | none => []
      | some j => (match rowParts j.ins with
          | some p => [fun (s : State) => s.rowStart tile p.2.2.2.toNat]
          | none => []) ++
          [fun (s : State) => s.porterLine tile lane, fun (s : State) => s.porterSource tile lane, fun (s : State) => s.porterComplete tile lane]
/-- Events of a tile's Lodge. -/
def lodgeMoves (tile : Nat) (l : Lodge) : List Act :=
  [fun (s : State) => s.gridEnter tile, fun (s : State) => s.dispatch tile, fun (s : State) => s.spill tile, fun (s : State) => s.refill tile] ++
    l.discards.map fun d (s : State) => s.discard tile d.1
/-- Events of a launch. -/
def launchMoves (l : Launch) : List Act :=
  [fun (s : State) => s.timedOverrun l.id, fun (s : State) => s.nopRecord l.id, fun (s : State) => s.taskRecord l.id, fun (s : State) => s.gridRecord l.id,
   fun (s : State) => s.launchComplete l.id]
/-- Events of a queue. -/
def queueMoves (q : Nat) (x : Queue) : List Act :=
  (match x.phase with
   | .opening | .clearing => [fun (s : State) => s.enableStep q]
   | .on => [fun (s : State) => s.reread q]
   | .off => []) ++ [fun (s : State) => s.endReservation q]
/-- An in-flight store is performed, if it can be (R137). -/
def State.tryStore (s : State) (x : PendStore) : State := let r := s.storeReady x; if r.1 then r.2.performStore x else r.2

/-- Events that the device performs of itself, as far as its state may call for them, and last the host's or a switch's answers to its
requests, granted as they were asked (R53) (log entry 1). -/
def State.candidates (s : State) : List Act :=
  (s.runs.flatMap fun r => if r.2.killed && decide (r.1 < 16) then [fun (s : State) => s.runKill r.1] else []) ++
  (s.saved.flatMap fun x => if x.killed then [fun (s : State) => s.runKill (savedKey x.cfg.runid)] else []) ++
  (s.dbg.triggers.map fun t (s : State) => s.crossTrig t) ++
  (s.stores.map fun x (s : State) => s.tryStore x) ++
  (s.threads.flatMap fun x => threadMoves x.1 x.2) ++
  (s.sent.map fun x (s : State) => s.acceptTask x.id) ++
  (s.host.waiting.map fun k (s : State) => s.hostRead k) ++
  (s.coh.filling.map fun r (s : State) => s.endFill r.quad r.line) ++
  (s.coh.collapses.map fun c (s : State) => s.ackCollapse c.quad c.line) ++
  ((List.range 4).map fun d (s : State) => s.faultPost d) ++
  (s.engines.flatMap fun x => engineMoves s.cycle x.1 x.2) ++
  (s.lodges.flatMap fun x => lodgeMoves x.1 x.2) ++
  (if s.grids.isEmpty then [] else (List.range 256).map fun t (s : State) => s.gridEnter t) ++
  (s.queues.flatMap fun x => queueMoves x.1 x.2) ++
  (s.launches.flatMap launchMoves) ++ [State.launchTake] ++
  (s.runs.flatMap fun r => if r.2.loading then [fun (s : State) => s.runLoadStep r.1] else []) ++
  ((List.range 16).flatMap fun n => [fun (s : State) => s.preempt n, fun (s : State) => s.resume n, fun (s : State) => s.runTeardown n]) ++
  (s.saved.map fun x (s : State) => s.runTeardown (savedKey x.cfg.runid)) ++
  [State.memkeyStep, fun (s : State) => s.flipStep false, fun (s : State) => s.flipStep true] ++
  (s.mem.asked.map fun a (s : State) => s.cacheGrant a.1 2)

/-- The state after the first of these events that changes anything. -/
def State.firstMove (s : State) : List Act → Option State
  | [] => none
  | f :: r => if f s = s then s.firstMove r else some (f s)

/-- The slots of a core's ready ones that rank first (R154): of the runs of the highest level, the tasks of least key in their own run,
and of these the ones that have gone longest without issuing. -/
def State.rankSlots (s : State) (ready : List (Nat × Thread)) : List Nat :=
  let run (x : Nat × Thread) : Option Nat := x.2.task.map fun k => k.run
  let level (x : Nat × Thread) : Nat := match run x with | some r => s.runLevel r | none => 0
  let top := ready.foldl (fun a x => Nat.max a (level x)) 0
  let high := ready.filter fun x => level x == top
  let least := high.filter fun x => high.all fun y => run x != run y || !y.2.key.lt x.2.key
  (least.filter fun x => least.all fun y => decide (x.2.lastIssue ≤ y.2.lastIssue)).map fun x => x.1
/-- The slot that issues next: the cores with a ready slot take turns after the one that issued last, and a core's slots rank as R154
says, the lowest of equal ones first (log entry 64). -/
def State.nextSlot (s : State) : Option Nat :=
  let ready := s.threads.filter fun x => s.canIssue x.1
  let cores := ready.map fun x => coreOf x.1
  match (match cores.find? fun c => decide (coreOf s.focus < c) with | some c => some c | none => cores.head?) with
  | none => none
  | some c => (s.rankSlots (ready.filter fun x => coreOf x.1 == c)).head?

/-- With no agenda: an event that the state calls for; else one slot issues and a cycle passes. After a fatal error nothing
happens until the device is reset (R167) (log entry 1). -/
def State.choose (s : State) : Out :=
  if s.fatal then .fault .fatalStop
  else match s.firstMove s.candidates with
    | some s => .next s
    | none => match s.nextSlot with
      | none => .next s.tick
      | some th => match issueThread s th with
        | .next s => .next s.tick
        | .fault f => .fault f
        | .refused r => .refused r

/-- A move of the agenda. An event has no words (R289); an instruction is not performed by itself, but issued by a slot (log
entry 1). What comes from outside the device and no event names is a move of its own (R26, R40, R48, R53). -/
def State.move (s : State) : Move → Out
  | .perform e => if (encodeRaw e).isNone then exec e s else .next s
  | .issue th => issueThread s th
  | .pass n => .next (s.ticks n)
  | .hostTrain width => .next (s.hostTrain width)
  | .cacheGrant half state => .next (s.cacheGrant half state)
  | .holderModify k => .next (s.holderCopy k .modified)
  | .hbmError slot uncorrectable => .next (s.hbmError slot uncorrectable)
  | .softError x => .next (s.softError x)

end Sys2Proof.Machine
end

