-- ==== Sys2Proof/Machine/Step.lean ====
section
/-! DEFINITION. The step of the package: the next move of the agenda, or the one the state calls for; and the placing of one
instruction where the next step fetches it. -/
namespace Sys2Proof.Machine
open Sys2Proof

/-- One step (log entry 1). -/
def step (s : State) : Host.Outcome State Fault Refusal :=
  match s.agenda with
  | m :: rest => ({ s with agenda := rest } : State).move m
  | [] => s.choose

-- One instruction placed (log entry 1): a program comes to the device from outside, by a launch record or as an image.

/-- Where the placed instruction stands. -/
def fetchVa : Nat := 0x10000
/-- The slot that runs a placed word: a service slot for the privileged opcode 0x7F (R303), else a worker core's. -/
def fetchSlot (w : Nat) : Nat := if bitsOf w 3 7 = 0x7F then 0 else 8
/-- The assured task of run 0 that a worker slot runs. -/
def fetchTask : Task :=
  { func := BitVec.ofNat 56 fetchVa, ts := 0, tb := 0, hasTb := false, floor := Key.zero, spec := false, hmode := .none,
    hint := 0, nargs := 0, args := [], run := 0, aborts := 0, mw := false, parent := none,
    ident := (let origin : V3 := ⟨0, 0, 0⟩; ⟨origin, origin, origin, origin⟩), launch := 0, hintLine := 0, unseen := 0 }
/-- The thread at the placed instruction. -/
def fetchThread (w : Nat) : Thread :=
  { Thread.fresh (BitVec.ofNat 56 fetchVa) with task := if fetchSlot w = 0 then none else some fetchTask }
/-- The line that holds a placed word and zeros after it, up to the longest instruction and on. -/
def fetchLine (nbits w : Nat) : Line := BitVec.ofNat 1024 (w % 2 ^ nbits)
/-- The translation of its page, in the TLB of the core: VA to the same PA, class U, RD, WR and EX, as in the identity table. -/
def fetchTlb (s : State) (w : Nat) : TlbEntry :=
  let sp := s.space (if fetchSlot w = 0 then none else some 0)
  { unit := coreOf (fetchSlot w), run := sp.2.1, gen := sp.2.2.1, asid := sp.2.2.2, page := fetchVa / 2 ^ levelShift 2,
    level := 2, pte := BitVec.ofNat 64 (identityLeaf 0) }

/-- The state with one instruction word, numbered as the opcode table numbers its bits, in memory at the PC of a thread whose
turn is next: memory enabled, run 0 resident, the thread in its slot, its page in the TLB of its core, no cached or pending
copy of its line in the way (log entry 1). -/
def State.withFetchWord (s : State) (nbits w : Nat) : State :=
  let th := fetchSlot w
  let line := fetchVa / 128
  let s := s.setReg 0x008 (2 ^ 63 + 64)
  let s := s.setRun 0 { s.run 0 with phase := .resident, killed := false }
  let s := s.setThread th (fetchThread w)
  { s with
    agenda := .issue th :: s.agenda, focus := th, fatal := false,
    regs := Sparse.erase (Sparse.erase s.regs 0x0E8) 0x038,
    tlb := fetchTlb s w :: s.tlb,
    mem := { s.mem with chip := Sparse.set s.mem.chip line ⟨0, fetchLine nbits w, false⟩,
                        keys := Sparse.set s.mem.keys 0 (.generated 0),
                        bias := Sparse.erase s.mem.bias (line / 512),
                        hostLines := s.mem.hostLines.filter fun h => heldHalf h.1 / 2 != line },
    stash := { s.stash with maps := s.stash.maps.filter fun m => m.tile != 0 },
    coh := { s.coh with l1 := s.coh.l1.filter fun l => l.line != line,
                        l2 := s.coh.l2.filter fun e => e.line != line,
                        l3 := s.coh.l3.filter fun e => e.line != line, wide := [], wideDies := [], leaving := [] },
    stores := [], dbg := { s.dbg with halted := s.dbg.halted.filter (· != 0) } }

end Sys2Proof.Machine
end

