-- ==== Sys2Proof/Safety.lean ====
section
/-! DEFINITION. What counts as a safe run, in the terms that claims use: when an instruction issues, what a state keeps, and the
invariant that steps keep. -/
namespace Sys2Proof.Machine
open Sys2Proof

/-- The register gE+k, where there is one. -/
def pastE (e : GReg) (k : Nat) : List Nat := if pastG e k then [] else [numG (e + BitVec.ofNat 4 k)]
/-- What a matrix job names beside gD and gE: dimensions and counter in the registers after gE, a base where it has the
operand (R421, R429). -/
def matNames (i : Instr) (a b c e : GReg) : List Nat :=
  match matSpec i with
  | none => []
  | some p =>
    (if p.multiplies then numG a :: numG b :: pastE e 1 else []) ++ (if p.usesC then [numG c] else []) ++ (if p.ctr then pastE e 2 else [])
/-- What a Porter job names beside its four operands: the register after gC, and its counters (R412, R413). -/
def portNames (i : Instr) (c e : GReg) : List Nat :=
  match portSpec i with
  | none => []
  | some p =>
    (match p.kind with | .gath | .scat _ => [numG (c + 1)] | _ => []) ++ (if p.dct then [numG e] else []) ++
      (if p.sct then [numG (e + 1)] else [])

end Sys2Proof.Machine

namespace Sys2Proof
open Sys2Proof.Machine

/-- The registers that an instruction names as source or destination, by operand number (R158, R185): the operands of its form.
Those that act as marked never look at them (R159), and an event names none. -/
def Instr.names (i : Instr) : List Nat :=
  match i with
  | .add _ _ _ d a b | .sub _ _ _ d a b | .mul _ _ _ d a b | .mulh _ _ d a b | .div _ _ d a b | .rem _ _ d a b | .min _ _ d a b
  | .max _ _ d a b | .and _ _ d a b | .or _ _ d a b | .xor _ _ d a b | .andn _ _ d a b => numG d :: numG a :: numSrc b
  | .shl _ _ d a b | .shr _ _ d a b | .sar _ _ d a b | .rot _ _ _ d a b | .bext _ _ d a b | .bins _ _ d a b | .lea _ _ d a b =>
    numG d :: numG a :: numSrc32 b
  | .mov _ _ d a => numG d :: numSrc a
  | .sel _ d a b c => [numG d, numG a, numG b, numP c]
  | .bit _ _ _ d a | .cvt _ _ _ d a | .callr _ d a => [numG d, numG a]
  | .pcmp _ _ _ d a b => numP d :: numG a :: numSrc32 b
  | .plog _ op d a b => match op with | .not => [numP d, numP a] | _ => [numP d, numP a, numP b]
  | .mlog _ op d a b => match op with | .not => [numM d, numM a] | _ => [numM d, numM a, numM b]
  | .mmovMG _ d a => [numM d, numG a]
  | .mmovGM _ d a | .mcnt _ _ d a => [numG d, numM a]
  | .mmovMImm _ d _ => [numM d]
  | .mfirst _ _ d n => numM d :: numSrc32 n
  | .pmovPG _ d a => [numP d, numG a]
  | .pmovGP _ d a => [numG d, numP a]
  | .jr _ a | .ret _ a | .repeatReg _ _ a | .ucrw _ a _ => [numG a]
  | .call _ d _ | .loop _ d _ | .idr _ d _ | .ucrr _ d _ | .rdtimeCyc _ d | .rdtimeNs _ d => [numG d]
  | .sysr _ d n => numG d :: RegSel.names n
  | .sysw _ n b => RegSel.names n ++ [numG b]
  | .faultreplyRetry _ a | .faultreplyKilltask _ a | .faultreplyKillrun _ a | .tlbinvAsid _ a => numSrc32 a
  | .faultreplyRemote _ b a | .fltwait _ b a | .tlbinvPage _ b a => numG b :: numSrc32 a
  | .purge _ x b | .cflush _ x b | .cinval _ x b | .stashflush _ x b => [numG x.base, numG b]
  | .vfadd _ _ _ _ d a b | .vfsub _ _ _ _ d a b | .vfmul _ _ _ _ d a b | .vfmin _ _ d a b | .vfmax _ _ d a b
  | .vfdiv _ _ _ _ d a b | .vfmerge _ _ d a b | .vfscale _ _ _ _ _ d a b | .vadd _ _ _ d a b | .vsub _ _ _ d a b
  | .vmul _ _ _ _ d a b | .vmm _ _ _ d a b | .vsh _ _ _ d a b | .vshuf _ _ d a b => [numW d, numW a, numW b]
  | .vfma _ _ _ _ d a b c | .vfms _ _ _ _ d a b c | .vfnma _ _ _ _ d a b c => [numW d, numW a, numW b, numW c]
  | .vfsgn _ op _ d a b => match op with | .copysign => [numW d, numW a, numW b] | _ => [numW d, numW a]
  | .vlog _ op _ d a b => match op with | .not => [numW d, numW a] | _ => [numW d, numW a, numW b]
  | .vfcmp _ _ _ d a b | .vcmp _ _ _ d a b => [numM d, numW a, numW b]
  | .vfcvt _ _ _ _ _ _ d a | .vfsqrt _ _ _ _ d a | .vfrcp _ _ _ _ d a | .vfrsq _ _ _ _ d a | .vfexp2 _ _ _ _ d a
  | .vflog2 _ _ _ _ d a | .vfrint _ _ _ d a | .vcvt _ _ _ _ d a | .vscan _ _ _ _ d a | .vcomp _ _ d a => [numW d, numW a]
  | .vfred _ _ _ _ d a c | .vred _ _ _ _ d a c => numW d :: numW a :: c.toList.map numW
  | .vbcastG _ _ d a => [numW d, numG a]
  | .vbcastImm _ _ d _ => [numW d]
  | .vbcastLane _ _ d a b | .vslide _ _ _ d a b => [numW d, numW a, numG b]
  | .vsel _ _ d a b c => [numW d, numW a, numW b, numM c]
  | .vmovgG _ _ d a b => [numG d, numW a, numG b]
  | .vmovgW _ _ d a b => [numW d, numG a, numG b]
  | .ld _ _ _ _ d x | .lds _ _ _ _ _ _ d x => [numGW d, numG x.base]
  | .st _ _ _ _ x b => [numG x.base, numGW b]
  | .gather _ _ _ d x b => [numW d, numG x.base, numW b]
  | .scatter _ _ _ x b c => [numG x.base, numW b, numW c]
  | .pref _ _ x | .stashunmap _ x => [numG x.base]
  | .sbind _ d x => [16 + d.toNat, numG x.base]
  | .sbindUnbind _ d => [16 + d.toNat]
  | .atomAdd _ _ _ d x b | .atomMin _ _ _ d x b | .atomMax _ _ _ d x b | .atomAnd _ _ _ d x b | .atomOr _ _ _ d x b
  | .atomXor _ _ _ d x b | .atomSwap _ _ _ d x b | .ctrarriveMax _ _ _ d x b | .ctrarriveSum _ _ d x b => [numG d, numG x.base, numG b]
  | .atomCas _ _ _ d x b c => [numG d, numG x.base, numG b, numG c]
  | .atomRed _ op _ _ x b c => match op with | .cas => [numG x.base, numG b, numG c] | _ => [numG x.base, numG b]
  | .ctradd _ _ x b => [numG x.base, numG b]
  | .ctrread _ _ d x => [numG d, numG x.base]
  | .ctrwait _ _ d e x b c => [numG d, numG e, numG x.base, numG b, numG c]
  | .stashmap _ _ a b c => numG a :: numG b :: numSrc32 c
  | .prpush _ _ _ d a b c e | .prget _ _ _ d a b c e | .prcopy _ _ _ d a b c e | .prfill _ _ _ d a b c e
  | .prgath _ _ _ _ d a b c e | .prscat _ _ _ _ _ d a b c e | .prrow _ _ _ _ _ _ _ d a b c e =>
    [numG d, numG a, numG b, numG c] ++ portNames i c e
  | .mma _ _ _ _ d a b c e | .mmaq _ _ _ _ d a b c e | .mmab _ _ _ _ d a b c e => [numG d, numG e] ++ matNames i a b c e
  | .accld _ _ _ _ d c e | .accst _ _ _ _ d c e => [numG d, numG e] ++ matNames i 0 0 c e
  | .jwait _ z d a => (if z then [numG d] else []) ++ [numG a]
  | .jpoll _ d a => [numP d, numG a]
  | _ => []
/-- TEND, DEPART, TASK and TGRID act as if marked (R159). -/
def Instr.actsMarked : Instr → Bool
  | .tend .. | .depart .. | .task .. | .tgrid .. => true
  | _ => false

end Sys2Proof

namespace Sys2Proof.Machine
open Sys2Proof

/-- Thread t stands in the focus slot and its instruction, with header h and the registers ns, passes the checks of R293 that
come before its operation: a set SW bit finds nothing pending (R157), no register it names is pending (R158), and its
scalar guard is true (R187). -/
def State.Issues (s : State) (t : Thread) (h : Hdr) (ns : List Nat) : Prop :=
  s.thread? s.focus = some t ∧ (h.sw = true → t.pend = 0) ∧
    (∀ n ∈ numP (h.pg.setWidth 3) :: numM (h.mg.setWidth 3) :: ns, t.pending n = false) ∧ t.guard h.pg = true

/-- The same for an instruction that acts as marked (R159): it finds nothing pending. -/
def State.IssuesMarked (s : State) (t : Thread) (h : Hdr) : Prop :=
  s.thread? s.focus = some t ∧ t.pend = 0 ∧ t.guard h.pg = true

/-- The slot belongs to a core that may run privileged instructions (R303). -/
def State.Privileged (s : State) : Prop := isInnkeeperCore (coreOf s.focus) = true

/-- A system instruction of thread t issues at once (R331): its task may act, none of its accesses is still to be performed,
and its tile holds no modified mapped line to write back. -/
def State.Quiet (s : State) (t : Thread) : Prop :=
  s.provisional t = false ∧ (∀ o ∈ t.outs, o.parts = []) ∧ s.storesOf s.focus = [] ∧ s.charged (.thread s.focus) = false ∧
    ∀ l ∈ s.stash.lines, l.tile = tileOf s.focus → l.dirty = false

/-- No w register of the list is bound to a stream (R190). -/
def Thread.Unbound (t : Thread) (rs : List WReg) : Prop := ∀ r ∈ rs, t.stream? r = none

/-- Two threads agree in every register: g, w, m and p, the streams, the user control registers, REPEAT. -/
def Thread.SameRegs (t u : Thread) : Prop :=
  u.g = t.g ∧ u.w = t.w ∧ u.m = t.m ∧ u.p = t.p ∧ u.streams = t.streams ∧ u.fmt = t.fmt ∧ u.sr = t.sr ∧ u.mq = t.mq ∧
    u.sbase = t.sbase

/-- Every byte of memory reads as before: device memory and system space under every key slot, and the stashes. -/
def State.SameBytes (s u : State) : Prop :=
  (∀ pa key, u.byteAt pa key = s.byteAt pa key) ∧ ∀ a, cellRead u.stash.cells a = cellRead s.stash.cells a

/-- Every slot but one holds what it held. -/
def State.OtherThreads (s u : State) (th : Nat) : Prop := ∀ n, n ≠ th → u.thread? n = s.thread? n

/-- The instruction i, executed in s for the thread of the focus slot, answers a next state in which that slot holds t, and
in which every byte of memory, every other slot and everything else of the package is as it was. -/
def State.Becomes (s : State) (i : Instr) (t : Thread) : Prop :=
  ∃ u, exec i s = .next u ∧ u.thread? s.focus = some t ∧ s.OtherThreads u s.focus ∧ s.SameBytes u ∧
    u = { s with threads := u.threads }

/-- The instruction ends: the thread becomes t, issuing again, with its PC past the instruction's len bytes, or where R327
puts it in a REPEAT block. -/
def State.Ends (s : State) (i : Instr) (len : Nat) (t : Thread) : Prop :=
  s.Becomes i { t.advance len with park := .run, lastIssue := s.cycle }

/-- The instruction transfers control: the thread becomes t, whose PC it has set, issuing again. -/
def State.Goes (s : State) (i : Instr) (t : Thread) : Prop := s.Becomes i { t with park := .run, lastIssue := s.cycle }

/-- The low bits of v, as many as the type is wide, are those f gives, and the bits above extend them by the type's
signedness (R312). -/
def Extends (ty : Ty) (v : BitVec 64) (f : Nat → Bool) : Prop :=
  (∀ i, i < ty.fixedWidth → v.getLsbD i = f i) ∧
    ∀ i, ty.fixedWidth ≤ i → i < 64 → v.getLsbD i = (ty.signed && v.getLsbD (ty.fixedWidth - 1))

/-- A w destination at element width w, written from old under the lane mask: a selected element holds what f gives, an
unselected one what it held, and the bits above the last element are zero (R341, R342). -/
def Elems (mask : BitVec 64) (w : Nat) (old v : Line) (f : Nat → Nat) : Prop :=
  (∀ i < 1024 / w, elem w v i = if selectedBy mask w i then f i % 2 ^ w else elem w old i) ∧
    ∀ k, w * (1024 / w) ≤ k → k < 1024 → v.getLsbD k = false

/-- An m destination at element width w: the bit of a selected element is what f gives, that of an unselected one is kept,
and bits N to 63 are zero (R342). -/
def MaskBits (mask : BitVec 64) (w : Nat) (old v : BitVec 64) (f : Nat → Bool) : Prop :=
  ∀ i < 64, v.getLsbD i = (decide (i < 1024 / w) && if selectedBy mask w i then f i else old.getLsbD i)

/-- SR_STATE after the draws of the first n elements, where sel tells which are rounded: 16 steps for each of them when
the mode is SR, none otherwise (R268, R269). -/
def drawsOf (rm : Rm) (sel : Nat → Bool) (sr : BitVec 32) (n : Nat) : BitVec 32 :=
  if rm = .sr then lfsrSteps (16 * ((List.range n).filter sel).length) sr else sr

/-- The memories are in their one form: every list of cells rises strictly and lists no byte that an unlisted address reads
as. -/
def State.wf (s : State) : Bool :=
  s.mem.wf && cellsWf s.stash.cells && cellsWf s.host.staging

/-- A run of k steps that meets no fault and no refusal. -/
def State.SafeFor (s : State) : Nat → Prop
  | 0 => True
  | k + 1 => ∃ t, step s = .next t ∧ t.SafeFor k

end Sys2Proof.Machine
end

