-- ==== Sys2Proof/Certificates/Slice0/Obligations.lean ====
section
/-! DEFINITION. The statements for the provers, each from numbered rules of the spec; its docstring says which. -/
open Sys2Proof Sys2Proof.Machine

/-- R289, R290, R291, R299, R300: For every well-formed instruction that has an encoding (every constructor but the
events), with every operand at every value the encoding admits, decode reads from its encoded bytes, whatever
follows them, that instruction and exactly those following bytes. -/
def Obligations.EncodeDecode : Prop :=
  ∀ (i : Instr) (rest : List Byte), i.wf = true → (encodeRaw i).isSome = true → decode (encode i ++ rest) = .ok (i, rest)

/-- R6, R289, R290, R297, R302: Whenever decode answers an instruction and the bytes after it, the instruction is
well-formed and the bytes it was given are its encoding followed by those: no bit of an accepted encoding is
ignored, every reserved field is zero, and two different byte strings of one instruction do not exist. A first byte
whose LEN is 0b11 is refused. -/
def Obligations.DecodeExact : Prop :=
  (∀ (bs rest : List Byte) (i : Instr), decode bs = .ok (i, rest) → i.wf = true ∧ bs = encode i ++ rest) ∧
  (∀ (b : Byte) (bs : List Byte), b.toNat % 4 = 3 → decode (b :: bs) = .error .fetchx)

/-- R289, R299, R303, R313, R327, R334, R353, R364, R378, R394, R397, R424: The bytes or words that the spec works out
for add.s64, repeat, vfma.f32 under its guards, ld.s64.acq.dev, faultreply.killrun and .remote, vfcvt.f32.bf16.sr,
sbind, lds.f32.bf16, atom.swap.s64.sc.dev, ctrwait, fence.sc.dev, tend, mswait, task.spec.haddr.args2,
prcopy.urg.ddev and an mma decode to those instructions with those operands. -/
def Obligations.DecodeWords : Prop :=
  decode [0x01, 0x00, 0x00, 0x80, 0x08, 0x02, 0x00, 0x00, 0xE8, 0x03, 0x00, 0x00] =
    .ok (.add ⟨0, 0, 0, false⟩ .s64 false 2 2 (.imm32 1000), []) ∧
  decode (leBytes 8 0x0000020000200128) = .ok (.repeatReg ⟨0, 0, 0, false⟩ 1 2, []) ∧
  decode [0x98, 0xA5, 0x00, 0xA0, 0x51, 0x50, 0x44, 0x01] =
    .ok (.vfma ⟨9, 2, 0, false⟩ .f32 .rne false 4 0 1 4, []) ∧
  decode [0x01, 0x03, 0x00, 0x91, 0x04, 0x05, 0x00, 0x00, 0x40, 0x00, 0x00, 0x00] =
    .ok (.ld ⟨0, 0, 0, false⟩ .s64 ⟨.dev, .acq, false⟩ .one (.g 1) ⟨5, some 0x40⟩, []) ∧
  decode (leBytes 8 0x00000500046003F8) = .ok (.faultreplyKillrun ⟨0, 0, 0, false⟩ (.reg 5), []) ∧
  decode (leBytes 8 0x00008100042003F8) = .ok (.faultreplyRemote ⟨0, 0, 0, false⟩ 2 (.reg 1), []) ∧
  decode (leBytes 8 0x34001655808001D0) = .ok (.vfcvt ⟨0, 0, 0, false⟩ .f32 .bf16 0 .sr false 5 6, []) ∧
  decode (leBytes 8 0x0000014400000331 ++ leBytes 4 0x40) = .ok (.sbind ⟨0, 0, 0, false⟩ 1 ⟨1, some 0x40⟩, []) ∧
  decode [0x10, 0x03, 0x40, 0xA0, 0x09, 0x04, 0x00, 0x00] =
    .ok (.lds ⟨0, 0, 0, false⟩ .f32 .thread false false .bf16 (.g 2) ⟨4, none⟩, []) ∧
  decode (leBytes 8 0x0001C42090C00368) =
    .ok (.atomSwap ⟨0, 0, 0, false⟩ .s64 ⟨.dev, .relaxed, true⟩ 8 ⟨4, none⟩ 7, []) ∧
  decode [0x80, 0x03, 0x40, 0x10, 0x10, 0x80, 0x21, 0x14] = .ok (.ctrwait ⟨0, 0, 0, false⟩ .dev 4 5 ⟨0, none⟩ 6 2, []) ∧
  decode (leBytes 8 0x0000000010800390) = .ok (.fence ⟨0, 0, 0, false⟩ true .dev, []) ∧
  decode (leBytes 8 0x00000000000003D8) = .ok (.tend ⟨0, 0, 0, false⟩, []) ∧
  decode (leBytes 8 0x00000000020003D8) = .ok (.mswait ⟨0, 0, 0, false⟩, []) ∧
  decode (leBytes 8 0x086149000C4003C0) = .ok (.task ⟨0, 0, 0, false⟩ true .addr 2 5 6 2 (.reg 9), []) ∧
  decode [0xE2, 0x03, 0x20, 0x04, 0x20, 0x81, 0x30, 0x30, 0x0C, 0x00, 0x00, 0x00, 0x00, 0x00, 0x00, 0x00] =
    .ok (.prcopy ⟨0, 0, 0, false⟩ true 0x0C 8 1 2 3 12, []) ∧
  decode [0xF2, 0x03, 0x00, 0xA0, 0x21, 0x81, 0x30, 0x10, 0x8C, 0x11, 0x40, 0x02, 0xA0, 0x00, 0x00, 0x00] =
    .ok (.mma ⟨0, 0, 0, false⟩ .f32 0x0240118C 0xA0 8 1 2 3 4, [])

/-- R278, R282, R290, R291, R292, R293: When the agenda's next move is the issue of slot th, that slot may issue, holds a thread t that
is not to end at this boundary, its PC is a multiple of 4 and not an unaligned FUNC of its task, its block v is fetched (leaving state
s1, in which the slot holds u), FETCHX does not apply and the bytes at PC decode to i, then the step is exec of i in s1 with the block
kept in the thread. A block the thread already executes from is not fetched again. What the step then adds is R282's event 0x02, which
counts the instruction if it has issued, and R278's single-step, in which the thread's part is done if it has issued or trapped; when an
instruction counts as issued is the model's reading (log entry 45), and when a thread's part is done its choice (log entry 50). -/
def Obligations.StepRunsDecoded : Prop :=
  ∀ (s s1 : State) (th : Nat) (moves : List Move) (t u : Thread) (v : BitVec 256) (i : Instr) (rest : List Byte),
    s.agenda = .issue th :: moves →
    let s0 : State := { s with agenda := moves, focus := th }
    let base := t.pc.toNat / 32 * 32
    s0.canIssue th = true → s0.thread? th = some t → t.ending = false → t.pc.toNat % 4 = 0 →
    (t.pc.toNat % 8 = 0 ∨ ∀ k, t.task = some k → k.func ≠ t.pc) →
    s0.blockFor th t base = .block v s1 → s1.thread? th = some u → fetchx v (t.pc.toNat % 32) = false →
    decode (instrBytes v (t.pc.toNat % 32)) = .ok (i, rest) →
    let again (r : Nat × Remote) : Bool := r.1 != base / 2 ^ 16 || (u.blockAt base).isSome
    let kept : Thread := { u.keepBlock base v with remote := (u.keepBlock base v).remote.filter again }
    let s2 : State := { s1.setThread th kept with focus := th }
    (step s = match exec i s2 with
      | .next z => .next ((z.countIssue th t).endStep th t)
      | .fault f => .fault f
      | .refused r => .refused r) ∧
    (∀ x, t.blockAt base = some x → s0.blockFor th t base = .block x s0)

/-- R97, R161, R291, R293: For a slot whose turn it is and that may issue: a PC that is not a multiple of 4, or that is the task's
FUNC and not a multiple of 8 (R97), traps with ALIGN naming PC; else, with the block of PC at hand, an instruction whose
LEN is 0b11 or whose bytes pass the end of the 32-byte block traps with FETCHX (whose WORD has the instruction's bytes
up to the end of the block, and is left to the block when it holds 8 of them); else, one that decode refuses traps with
ILLOP. The instruction is not executed. -/
def Obligations.FetchChecks : Prop :=
  ∀ (s : State) (th : Nat) (moves : List Move) (t : Thread) (v : BitVec 256),
    s.agenda = .issue th :: moves →
    let s0 : State := { s with agenda := moves, focus := th }
    let base := t.pc.toNat / 32 * 32
    let off := t.pc.toNat % 32
    let s2 := s0.setThread th (t.keepBlock base v)
    let code := v.toNat / 2 ^ (8 * off) % 4
    let crosses := code = 3 ∨ 32 < off + (if code = 0 then 8 else if code = 1 then 12 else 16)
    s0.canIssue th = true → s0.thread? th = some t → t.ending = false →
    let unaligned := t.pc.toNat % 4 ≠ 0 ∨ (t.pc.toNat % 8 ≠ 0 ∧ ∃ k, t.task = some k ∧ k.func = t.pc)
    (unaligned → step s = .next ((s0.trap th (.at .align .fetch t.pc.toNat)).stepped th)) ∧
    (¬unaligned → t.blockAt base = some v →
      (crosses →
        let x := s2.fetchxTrap th (t.keepBlock base v) v
        step s = .next ((s2.trap th x).stepped th) ∧ x.cause = .fetchx ∧ x.va = 0 ∧ x.pa = none ∧ x.detail = 0 ∧
          (off ≤ 24 → x = .plain .fetchx) ∧
          ∀ y, x.word = some y → y.toNat % 2 ^ (8 * (32 - off)) = v.toNat / 2 ^ (8 * off)) ∧
      (¬crosses → ∀ e, decode (instrBytes v off) = .error e → step s = .next ((s2.trap th (.plain .illop)).stepped th)))

/-- R160, R293: No instruction is refused and none stops the machine: executed in any state whose focus slot holds a
thread, every one of the 262 constructors answers a next state (its own effect, a park, or the entry of the trap the
spec gives it). -/
def Obligations.ExecAnswers : Prop :=
  ∀ (i : Instr) (s : State), (s.thread? s.focus).isSome = true → ∃ u : State, exec i s = .next u

/-- R17, R65, R167: A step answers a next state in every state, except that it stops with fatalStop exactly when nothing
is scheduled and a fatal error has stopped every run; no step is refused. R17, R65 and R167 say that the device stops; that a step
is what answers so, and always a next state before that, is the model's choice of what one step is (log entry 1). -/
def Obligations.StepStops : Prop :=
  ∀ s : State, if s.agenda = [] ∧ s.fatal = true then step s = .fault .fatalStop else ∃ u : State, step s = .next u

/-- 02_main_memory.md, 08_core_and_tile.md: From any state whose lists of bytes rise strictly by address and list no
byte that an unlisted address reads as, every step that answers a next state answers one with the same property, so
equal memories stay equal data. -/
def Obligations.StepKeepsMemoryForm : Prop :=
  ∀ s u : State, s.wf = true → step s = .next u → u.wf = true

/-- R8, R20, R31, R79, R163, R203: After reset no slot holds a thread, no run, queue or launch is live, every stash byte
is zero, the fault mailbox ring stands at 0xF_0000 with 256 records and posting enabled, the timer is 0 and the memory
form holds. Every register that a map assigns reads, to a slot of any die, the value its map gives for reset: the listed ones
(identity, layout, power, caches, scrubbing, keys, regions, mailbox, Lodges, replication, Bell, dump, Itinerary), all-ones in the
two words of every MILESTONE (TB in 32 bits), and 0 in every other. Where the map gives none, the 0 is the model's choice (log
entry 4), and so is it that memory bytes read 0 (log entry 2). -/
def Obligations.ResetState : Prop :=
  let s := State.reset
  s.threads = [] ∧ (∀ n, (s.run n).phase = .free) ∧ (∀ q, (s.queue q).phase = .off) ∧ s.launches = [] ∧
  (∀ a, cellRead s.stash.cells a = 0) ∧ (∀ pa key, s.byteAt pa key = 0) ∧ s.faultCfg = (true, 0xF0000, 256) ∧
  (let given : List (Nat × Nat) :=
     [(0x000, 0x0B1A0F3110040100), (0x008, 64), (0x00C, 2000), (0x020, 0x800080), (0x021, 0x1000100), (0x022, 0x2000200),
      (0x023, 0x4000400), (0x024, 0x8000800), (0x025, 0x1000), (0x026, 0x2000), (0x027, 0x4000), (0x028, 0x10008000),
      (0x029, 0x20010000), (0x02A, 0x40020000), (0x02B, 0x80040000), (0x02C, 0x100400000), (0x030, 18 * 2 ^ 8),
      (0x031, 2 ^ 63 + 4 * 2 ^ 20 + 1440), (0x033, 2 ^ 63 + 0x100000), (0x039, 1), (0x050, 50 * 2 ^ 32 + 8 * 2 ^ 24 + 100),
      (0x0E0, 2 ^ 63 + 0xF0 * 2 ^ 12 + 8), (0x200, 4096 * 2 ^ 44 + 2 ^ 40 + 8 * 2 ^ 32 + 64), (0x400, 64 * 2 ^ 16 + 256), (0x401, 64),
      (0x402, 16), (0x403, 2 ^ 63 + 4), (0x405, 3 * 2 ^ 4), (0x600, 20 * 2 ^ 32 + 0x100000), (0x630, 20), (0x640, 24 * 2 ^ 32)]
   ∀ die < 4, ∀ n, (regSpec n).isSome = true → s.sysRead die n = BitVec.ofNat 64 (match given.lookup n with
     | some v => v
     | none => if 0x210 ≤ n ∧ n ≤ 0x22F then (if n % 2 = 0 then 2 ^ 64 - 1 else 2 ^ 32 - 1) else 0)) ∧
  s.locked = false ∧ s.spread = 64 ∧ (∀ tile, s.fenced tile = false) ∧ s.cqlim = 64 ∧ s.cycle = 0 ∧ s.fatal = false ∧ s.wf = true

/-- R184, R185: Reading a g, w, m or p register after a write of that class gives the value written for the register
written and the old value for every other, except that m0 always reads all-ones and p0 true, whatever was written; a
write changes nothing else of the thread, and one to m0 or p0 changes nothing at all. The pending bits of m0 and p0
never set. -/
def Obligations.RegisterFile : Prop :=
  ∀ (t : Thread) (v : BitVec 64) (x : Line) (b : Bool),
    (∀ r q, (t.setG r v).getG q = if q = r then v else t.getG q) ∧ (∀ r, t.setG r v = { t with g := (t.setG r v).g }) ∧
    (∀ r q, (t.setW r x).getW q = if q = r then x else t.getW q) ∧ (∀ r, t.setW r x = { t with w := (t.setW r x).w }) ∧
    (∀ r q, (t.setM r v).getM q = if q = 0 then BitVec.allOnes 64 else if q = r then v else t.getM q) ∧
    (∀ r, t.setM r v = { t with m := (t.setM r v).m }) ∧ t.setM 0 v = t ∧
    (∀ r q, (t.setP r b).getP q = if q = 0 then true else if q = r then b else t.getP q) ∧
    (∀ r, t.setP r b = { t with p := (t.setP r b).p }) ∧ t.setP 0 b = t ∧
    t.setPend (numM 0) = t ∧ t.setPend (numP 0) = t ∧
    (∀ n, n < 64 → n ≠ 48 → n ≠ 56 → ∀ k, (t.setPend n).pending k = (k == n || t.pending k)) ∧
    (∀ n k, n < 64 → (t.clearPend n).pending k = (k != n && t.pending k))

/-- R187, R293, R294: For every encoded well-formed instruction of a thread with nothing pending whose scalar guard is
false, the instruction ends with no effect but the PC's advance by its length, unless the check of R293 before the
guard traps it with ILLOP; add, st and sysw, which have no such case, always end so. The guard is p[PG[2:0]] xor
PG[3]. -/
def Obligations.GuardFalseEnds : Prop :=
  (∀ (s : State) (t : Thread) (i : Instr) (r : Raw),
    encodeRaw i = some r → i.wf = true → s.thread? s.focus = some t → t.pend = 0 →
    (t.getP (r.pg.setWidth 3) ^^ r.pg.getLsbD 3) = false →
    s.Ends i (lenBytes r.len) t ∨ exec i s = .next (s.trap s.focus (.plain .illop))) ∧
  (∀ (s : State) (t : Thread) (h : Hdr) (ty : Ty) (mo : MemOrd) (b : Bool) (d a : GReg) (x : Src) (y : Addr) (n : RegSel),
    s.thread? s.focus = some t → t.pend = 0 → (t.getP (h.pg.setWidth 3) ^^ h.pg.getLsbD 3) = false → ty.isNf = false →
    s.Ends (.add h ty b d a x) x.len t ∧ s.Ends (.st h ty mo .one y (.g a)) y.len t ∧ s.Ends (.sysw h n a) n.len t)

/-- R157, R158, R159: While any pending bit of its thread is set, a marked instruction (SW = 1, or one of tend, depart, task
and tgrid, which act as marked) parks at the marker unless ILLOP stops it first. SWITCH_MARKER_WAKE completes in every state: it
lets the thread go on that is parked there exactly if no bit is set, and changes nothing else. Every unmarked encoded instruction
that names a pending register as source, destination or guard parks for the PENDREAD trap, unless ILLOP stops it first; the trap is
taken when the last outstanding result arrives, and a retried instruction then finds no pending bit. m0 and p0 never pend. -/
def Obligations.PendingChecks : Prop :=
  (∀ (s : State) (t : Thread) (i : Instr) (r : Raw),
    encodeRaw i = some r → i.wf = true → s.thread? s.focus = some t → t.pend ≠ 0 →
    (r.sw = true ∨ i.actsMarked = true) →
    s.Becomes i { t with park := .marker } ∨ exec i s = .next (s.trap s.focus (.plain .illop))) ∧
  (∀ (s : State) (t : Thread) (i : Instr) (r : Raw) (n : Nat),
    encodeRaw i = some r → i.wf = true → s.thread? s.focus = some t → r.sw = false → i.actsMarked = false → t.pending n = true →
    n ∈ numP (r.pg.setWidth 3) :: numM (r.mg.setWidth 3) :: i.names →
    s.Becomes i { t with park := .pendread } ∨ exec i s = .next (s.trap s.focus (.plain .illop))) ∧
  (∀ (s : State) (th : Nat), ∃ u : State, exec (.switchMarkerWake th) s = .next u ∧ s.OtherThreads u th ∧
    u = { s with threads := u.threads } ∧
    (∀ t, s.thread? th = some t → u.thread? th = some (if t.park = .marker ∧ t.pend = 0 then { t with park := .run } else t))) ∧
  (∀ (t : Thread) (n : Nat), n = numM 0 ∨ n = numP 0 → t.setPend n = t) ∧
  (∀ (s : State) (t : Thread) (th : Nat), s.thread? th = some t → t.park = .pendread →
    s.endPendread th = if t.outs = [] then
      (s.countEvt (tileOf th) 0x0D (t.task.map fun k => k.run) 1).trap th (.plain .pendread) else s)

/-- R160, R161, R116, R167, R173, R105, R106: Taking a trap changes no register and no memory byte. For an assured task, or a
speculative one with earliest standing (its key is the milestone, or it has kept the standing), the thread parks for its reply and
a record is raised for its die, PAGE faults and walks' faults among them, whose eight words are those of R161: CAUSE, SRC 0, ACC,
RUN, ERL, VA, PA with PAV, PC, CORE, SLOT, TILE, ASID, GEN, TS, TB, DETAIL and the instruction's first 64 bits (PC and bits of the
instruction that the trap names, or the ones at the thread's PC and in its block). Only a walk's fault, while a record of the same run,
tile, CAUSE, ACC and 64 KiB page waits to be posted, joins that record instead: no other is raised, and that one lists the request.
A speculative task that is not earliest holds the trap and raises none. A service slot's trap stops the whole device. Whose record a
walk's fault joins is the model's reading of R173 (log entry 32). -/
def Obligations.TrapEntry : Prop :=
  ∀ (s : State) (th : Nat) (t : Thread) (tr : Trap), s.thread? th = some t →
    let u := s.trap th tr
    let r := s.threadRecord th t tr
    let w (n : Nat) : Nat := (r.words.getD n 0).toNat
    (s.SameBytes u ∧ s.OtherThreads u th ∧ u.regs = s.regs) ∧
    (t.task = none → u.fatal = true ∧ u.threads = s.threads ∧ u.records = s.records) ∧
    (∀ k, t.task = some k →
      let earliest := k.standing = true ∨ (s.run k.run).milestone = k.key
      (k.spec = true → ¬earliest → u = s.setThread th { t with park := .held tr }) ∧
      (k.spec = false ∨ earliest →
        u.thread? th = some { t with park := .fault } ∧ u.fatal = s.fatal ∧
        (∀ x, r.joins x = true → (tr.cause = .page ∨ tr.acc = .walk) ∧ x.token = none ∧ x.run = some k.run ∧ x.tile = r.tile ∧
          x.trap.cause = tr.cause ∧ x.trap.acc = tr.acc ∧ x.trap.va / 2 ^ 16 = tr.va / 2 ^ 16) ∧
        (if s.records.any r.joins = true then u.records.length = s.records.length ∧
            ∃ x ∈ u.records, (Agent.thread th, tr.va) ∈ x.requests
          else u.records = s.records ++ [r]) ∧
        r.agent = .thread th ∧ r.die = th / 4096 ∧ r.token = none ∧ r.words.length = 8 ∧
        bitsOf (w 0) 0 8 = tr.cause.code ∧ bitsOf (w 0) 8 4 = 0 ∧ bitsOf (w 0) 12 4 = tr.acc.code ∧
        bitsOf (w 0) 16 4 = k.run % 16 ∧ bitOf (w 0) 20 = k.spec ∧ w 0 < 2 ^ 21 ∧
        w 1 = tr.va % 2 ^ 56 ∧
        w 2 = (match tr.pa with | none => 0 | some p => 2 ^ 63 + p % 2 ^ 52) ∧ w 3 = (tr.pc.getD t.pc).toNat ∧
        bitsOf (w 4) 0 11 = th / 8 % 2048 ∧ bitsOf (w 4) 11 3 = th % 8 ∧ bitsOf (w 4) 16 8 = th / 64 % 256 ∧
        bitsOf (w 4) 24 12 = (s.run k.run).cfg.asid % 4096 ∧ bitsOf (w 4) 36 4 = (s.run k.run).gen % 16 ∧
        w 5 = k.ts.toNat ∧ bitsOf (w 6) 0 32 = (if k.spec then k.tb.toNat else 0) ∧ bitsOf (w 6) 32 32 = tr.detail.toNat ∧
        r.words.getD 7 0 = tr.word.getD (s.wordOf t))) ∧
    [Cause.illop, .fetchx, .pendread, .tsorder, .streamx, .align, .page, .prot, .poison, .peerfault, .bkpt, .swtrap, .priv,
      .tilefatal].map Cause.code = [1, 2, 3, 4, 5, 6, 7, 8, 9, 10, 11, 12, 13, 16]

/-- R320, R160, R161: Where bkpt and swtrap complete. Their own effect is the entry of a trap: where its issue checks pass, swtrap takes
SWTRAP and bkpt, when its tile's debug module is not armed (DBG_CTL ARM = 0), takes BKPT, and each completes so for every thread: an
assured or earliest thread parks for its reply with one more record raised, of that cause; a speculative one that is not earliest parks
holding the trap; a service slot's trap stops the device. Armed, bkpt completes by halting the tile (R277), where the thread waits at
the BKPT; on the Innkeeper's core, which never halts, the thread goes on after it, which is the model's choice (log entry 48). No byte
of memory and no other slot changes. The SWTRAP record's WORD holds n in bits [24:21] of the instruction. -/
def Obligations.BreakpointAndSwtrap : Prop :=
  (∀ (s : State) (t : Thread) (h : Hdr) (n : BitVec 4), s.Issues t h [] →
    let entered (i : Instr) (c : Cause) : Prop :=
      ∃ u : State, exec i s = .next u ∧ u = s.trap s.focus (.plain c) ∧ s.SameBytes u ∧ s.OtherThreads u s.focus ∧
        u.regs = s.regs ∧
        (t.task = none → u.fatal = true ∧ u.thread? s.focus = some t ∧ u.records = s.records) ∧
        (t.task ≠ none → s.provisional t = true →
          u.thread? s.focus = some { t with park := .held (.plain c) } ∧ u.records = s.records) ∧
        (t.task ≠ none → s.provisional t = false →
          u.thread? s.focus = some { t with park := .fault } ∧
          u.records = s.records ++ [s.threadRecord s.focus t (.plain c)] ∧
          bitsOf ((s.threadRecord s.focus t (.plain c)).words.getD 0 0).toNat 0 8 = c.code)
    entered (.swtrap h n) .swtrap ∧
    (bitOf (s.reg (dbgReg (tileOf s.focus))) 2 = false → entered (.bkpt h) .bkpt) ∧
    (bitOf (s.reg (dbgReg (tileOf s.focus))) 2 = true → tileOf s.focus < 256 →
      ∃ u : State, exec (.bkpt h) s = .next u ∧ u.halted (tileOf s.focus) = true ∧
        (isInnkeeperCore (coreOf s.focus) = false → u.thread? s.focus = some { t with park := .bkpt }) ∧
        (isInnkeeperCore (coreOf s.focus) = true →
          u.thread? s.focus = some { t.advance 8 with park := .run, lastIssue := s.cycle }) ∧
        s.SameBytes u ∧ s.OtherThreads u s.focus)) ∧
  (∀ (h : Hdr) (n : BitVec 4) (r : Raw), encodeRaw (.swtrap h n) = some r → bitsOf r.word.toNat 21 4 = n.toNat)

/-- R167, R303, R155: Every well-formed instruction of opcode 0x7F but cflush, issued with nothing pending and its
scalar guard true on a core that is not an Innkeeper's, takes the PRIV trap and has no other effect. The Innkeeper
cores are core 0 of tiles 0x00, 0x40, 0x80 and 0xC0. -/
def Obligations.PrivilegeTraps : Prop :=
  (∀ (s : State) (t : Thread) (i : Instr) (r : Raw),
    encodeRaw i = some r → i.wf = true → r.op = 0x7F → (∀ h x b, i ≠ .cflush h x b) →
    s.thread? s.focus = some t → t.pend = 0 → t.guard r.pg = true → ¬s.Privileged →
    exec i s = .next (s.trap s.focus (.plain .priv))) ∧
  (∀ s : State, s.focus < 16384 →
    (s.Privileged ↔ s.focus / 8 = 0x00 * 8 ∨ s.focus / 8 = 0x40 * 8 ∨ s.focus / 8 = 0x80 * 8 ∨ s.focus / 8 = 0xC0 * 8))

/-- R314: Where its issue checks pass, each of add, sub, mul, mulh, min and max completes with gD := Ext(TY, r), for r
the exact integer result of a := Val(TY, gA) and b := Val(TY, B), limited to the range of TY when SAT is set on add,
sub or mul. The thread otherwise only goes on to the next instruction; every byte of memory, every other slot and
the rest of the package are as before. -/
def Obligations.ScalarArithmetic : Prop :=
  ∀ (s : State) (t : Thread) (h : Hdr) (ty : Ty) (sat : Bool) (d a : GReg) (b : Src),
    ty.isInt = true → s.Issues t h (numG d :: numG a :: numSrc b) →
    let x := valOf ty (t.getG a)
    let y := valOf ty (t.src ty b)
    let wr (r : Int) : Thread := t.setG d (extOf ty r)
    let cl (r : Int) : Int := if sat then clampOf ty r else r
    s.Ends (.add h ty sat d a b) b.len (wr (cl (x + y))) ∧
    s.Ends (.sub h ty sat d a b) b.len (wr (cl (x - y))) ∧
    s.Ends (.mul h ty sat d a b) b.len (wr (cl (x * y))) ∧
    s.Ends (.mulh h ty d a b) b.len (wr (x * y / 2 ^ ty.fixedWidth)) ∧
    s.Ends (.min h ty d a b) b.len (wr (if x ≤ y then x else y)) ∧
    s.Ends (.max h ty d a b) b.len (wr (if x ≤ y then y else x))

/-- R312: For an integer type of width w, Val(TY, x) is congruent to x modulo 2^w and lies in the type's range, from
-2^(w-1) to 2^(w-1)-1 if it is signed and from 0 to 2^w-1 if not; Ext(TY, r) has the low w bits of r and above them
copies of bit w-1 (signed) or zeros; Clamp(TY, r) is r where the range holds it, else the nearer end. -/
def Obligations.ScalarHelpers : Prop :=
  ∀ (ty : Ty) (x : BitVec 64) (r : Int), ty.isInt = true →
    let w := ty.fixedWidth
    let lo : Int := if ty.signed then -(2 ^ (w - 1)) else 0
    let hi : Int := if ty.signed then 2 ^ (w - 1) - 1 else 2 ^ w - 1
    ((w = 8 ∨ w = 16 ∨ w = 32 ∨ w = 64) ∧ ty.signed = !ty.unsigned) ∧
    ((valOf ty x - x.toNat) % 2 ^ w = 0 ∧ lo ≤ valOf ty x ∧ valOf ty x ≤ hi) ∧
    (((extOf ty r).toNat : Int) % 2 ^ w = r % 2 ^ w ∧ Extends ty (extOf ty r) (extOf ty r).getLsbD) ∧
    (lo ≤ clampOf ty r ∧ clampOf ty r ≤ hi ∧ (lo ≤ r → r ≤ hi → clampOf ty r = r) ∧ (r < lo → clampOf ty r = lo) ∧
      (hi < r → clampOf ty r = hi))

/-- R314, R316, R312: Where its issue checks pass, each of and, or, xor, andn, shl, shr, sar and rot completes, and gD
gets a value whose low w bits are as R314 and R316 give them from gA and B, extended to 64 bits by the type's
signedness; a count of w or more gives zeros (shl, shr) or copies of bit w-1 (sar), and rot turns by the count
modulo w. Nothing else changes but the PC. -/
def Obligations.ScalarLogicShifts : Prop :=
  ∀ (s : State) (t : Thread) (h : Hdr) (ty : Ty) (d a : GReg) (b : Src) (c : Src32),
    ty.isInt = true →
    let w := ty.fixedWidth
    let p := (t.getG a).getLsbD
    let q := (t.src ty b).getLsbD
    let n := (t.src32 ty c).toNat
    (s.Issues t h (numG d :: numG a :: numSrc b) →
      (∃ v, s.Ends (.and h ty d a b) b.len (t.setG d v) ∧ Extends ty v fun i => p i && q i) ∧
      (∃ v, s.Ends (.or h ty d a b) b.len (t.setG d v) ∧ Extends ty v fun i => p i || q i) ∧
      (∃ v, s.Ends (.xor h ty d a b) b.len (t.setG d v) ∧ Extends ty v fun i => p i != q i) ∧
      (∃ v, s.Ends (.andn h ty d a b) b.len (t.setG d v) ∧ Extends ty v fun i => p i && !q i)) ∧
    (s.Issues t h (numG d :: numG a :: numSrc32 c) →
      (∃ v, s.Ends (.shl h ty d a c) c.len (t.setG d v) ∧ Extends ty v fun i => decide (n ≤ i) && p (i - n)) ∧
      (∃ v, s.Ends (.shr h ty d a c) c.len (t.setG d v) ∧ Extends ty v fun i => decide (i + n < w) && p (i + n)) ∧
      (∃ v, s.Ends (.sar h ty d a c) c.len (t.setG d v) ∧ Extends ty v fun i => p (if i + n < w then i + n else w - 1)) ∧
      (∃ v, s.Ends (.rot h false ty d a c) c.len (t.setG d v) ∧ Extends ty v fun i => p ((i + n) % w)) ∧
      (∃ v, s.Ends (.rot h true ty d a c) c.len (t.setG d v) ∧ Extends ty v fun i => p ((i + (w - n % w)) % w)))

/-- R317, R318: Where its issue checks pass, bit completes with the number of leading zeros, trailing zeros or ones of
the w-bit pattern of gA, zero-extended (w for the first two when the pattern is 0), or with the pattern reversed and
extended; bext with the field [hi:pos] of gA extended from its top bit for .s64 and with zeros for .n64; bins with
the low bits of gA put into [hi:pos] of gD and the other bits of gD kept. Nothing else changes but the PC. -/
def Obligations.ScalarBits : Prop :=
  ∀ (s : State) (t : Thread) (h : Hdr) (ty : Ty) (d a : GReg) (b : Src32),
    ty.isInt = true →
    let w := ty.fixedWidth
    let p := (t.getG a).getLsbD
    (s.Issues t h [numG d, numG a] →
      (∃ c, s.Ends (.bit h .clz ty d a) 8 (t.setG d (BitVec.ofNat 64 c)) ∧ c ≤ w ∧ (∀ i < c, p (w - 1 - i) = false) ∧
        (c < w → p (w - 1 - c) = true)) ∧
      (∃ c, s.Ends (.bit h .ctz ty d a) 8 (t.setG d (BitVec.ofNat 64 c)) ∧ c ≤ w ∧ (∀ i < c, p i = false) ∧
        (c < w → p c = true)) ∧
      s.Ends (.bit h .popc ty d a) 8 (t.setG d (BitVec.ofNat 64 ((List.range w).filter p).length)) ∧
      (∃ v, s.Ends (.bit h .brev ty d a) 8 (t.setG d v) ∧ Extends ty v fun i => p (w - 1 - i))) ∧
    (w = 64 → s.Issues t h (numG d :: numG a :: numSrc32 b) →
      let n := (t.src32 ty b).toNat
      let pos := n % 64
      let len := if n / 256 % 64 = 0 then 64 else n / 256 % 64
      let hi := Nat.min 63 (pos + len - 1)
      (∃ v, s.Ends (.bext h ty d a b) b.len (t.setG d v) ∧
        ∀ i < 64, v.getLsbD i = if i ≤ hi - pos then p (pos + i) else ty.signed && p hi) ∧
      (∃ v, s.Ends (.bins h ty d a b) b.len (t.setG d v) ∧
        ∀ i < 64, v.getLsbD i = if pos ≤ i ∧ i ≤ hi then p (i - pos) else (t.getG d).getLsbD i))

/-- R319, R321: Where its issue checks pass, mov completes with gD := Ext(TY, Val(TY, source)), sel with gA if pC is
true and gB if not, cvt with gD := Ext(DST, Clamp(DST, Val(SRC, gA))), lea with gD := (gA + (B << SUB)) mod 2^64, a
32-bit immediate being sign-extended, and nop, in each of its lengths, with no register changed. -/
def Obligations.ScalarMoves : Prop :=
  ∀ (s : State) (t : Thread) (h : Hdr) (ty dst : Ty) (sc : BitVec 3) (d a b : GReg) (x : Src) (c : PReg) (v : BitVec 32)
    (e : NopExt),
    (s.Issues t h (numG d :: numSrc x) → s.Ends (.mov h ty d x) x.len (t.setG d (extOf ty (valOf ty (t.src ty x))))) ∧
    (s.Issues t h [numG d, numG a, numG b, numP c] →
      s.Ends (.sel h d a b c) 8 (t.setG d (if t.getP c = true then t.getG a else t.getG b))) ∧
    (s.Issues t h [numG d, numG a] →
      s.Ends (.cvt h ty dst d a) 8 (t.setG d (extOf dst (clampOf dst (valOf ty (t.getG a)))))) ∧
    (s.Issues t h [numG d, numG a, numG b] →
      s.Ends (.lea h sc d a (.reg b)) 8
        (t.setG d (BitVec.ofNat 64 ((t.getG a).toNat + (t.getG b).toNat * 2 ^ sc.toNat)))) ∧
    (s.Issues t h [numG d, numG a] →
      s.Ends (.lea h sc d a (.imm v)) 12
        (t.setG d (BitVec.ofInt 64 ((t.getG a).toNat + v.toInt * 2 ^ sc.toNat)))) ∧
    (s.Issues t h [] → s.Ends (.nop h e) e.len t)

/-- R315, R156: Where its issue checks pass and fewer than 16 results of the slot are outstanding, div completes with gD
pending on a result whose value is Ext(TY, q), and rem on Ext(TY, r): for b ≠ 0, a = b·q + r with |r| < |b| and r
zero or of the sign of a; for b = 0, q = -1 (the all-ones pattern) and r = a. While 16 are outstanding neither
issues. VARIABLE_LATENCY_RESULT then writes the value, clears the pending bit and drops the result. -/
def Obligations.DivRem : Prop :=
  (∀ (s : State) (t : Thread) (h : Hdr) (ty : Ty) (d a : GReg) (b : Src),
    ty.isInt = true → s.Issues t h (numG d :: numG a :: numSrc b) →
    let x := valOf ty (t.getG a)
    let y := valOf ty (t.src ty b)
    (t.outs.length < 16 → ∃ q r : Int,
      s.Ends (.div h ty d a b) b.len (t.addOut (readyOut t (numG d) (extOf ty q))) ∧
      s.Ends (.rem h ty d a b) b.len (t.addOut (readyOut t (numG d) (extOf ty r))) ∧
      (y = 0 → q = -1 ∧ r = x) ∧ (y ≠ 0 → x = y * q + r ∧ r.natAbs < y.natAbs ∧ (0 ≤ x → 0 ≤ r) ∧ (x ≤ 0 → r ≤ 0))) ∧
    (16 ≤ t.outs.length → exec (.div h ty d a b) s = .next s ∧ exec (.rem h ty d a b) s = .next s)) ∧
  (∀ (s : State) (t u : Thread) (th : Nat) (d : GReg) (v : BitVec 64) (rest : List Outstanding),
    s.thread? th = some u → u.outs = readyOut t (numG d) v :: rest →
    ∃ z x, exec (.variableLatencyResult th (numG d)) s = .next z ∧ z.thread? th = some x ∧
      (∀ q, x.getG q = if q = d then v else u.getG q) ∧ x.pending (numG d) = false ∧ x.outs = rest ∧
      x.w = u.w ∧ x.m = u.m ∧ x.p = u.p ∧ x.pc = u.pc ∧ s.OtherThreads z th ∧ s.SameBytes z)

/-- R323, R324: Where its issue checks pass, each predicate or mask instruction completes: pcmp with pD the relation of
Val(TY, gA) and Val(TY, B), plog and mlog with their bitwise result, mmov with the 64 bits copied or the
sign-extended immediate, mcnt with the count or the index of the lowest or highest set bit (64 when there is none),
pmov with gA ≠ 0 or 1 or 0, and mfirst with exactly the mask bits set that govern an element with index below n.
Nothing else changes but the PC. -/
def Obligations.PredicatesAndMasks : Prop :=
  ∀ (s : State) (t : Thread) (h : Hdr) (ty : Ty) (d : GReg) (a : GReg) (m n k : MReg) (p q r : PReg) (x : Src32) (v : Imm),
    let va := valOf ty (t.getG a)
    let vb := valOf ty (t.src32 ty x)
    (s.Issues t h (numP p :: numG a :: numSrc32 x) →
      s.Ends (.pcmp h .eq ty p a x) x.len (t.setP p (decide (va = vb))) ∧
      s.Ends (.pcmp h .ne ty p a x) x.len (t.setP p (decide (va ≠ vb))) ∧
      s.Ends (.pcmp h .lt ty p a x) x.len (t.setP p (decide (va < vb))) ∧
      s.Ends (.pcmp h .le ty p a x) x.len (t.setP p (decide (va ≤ vb))) ∧
      s.Ends (.pcmp h .gt ty p a x) x.len (t.setP p (decide (va > vb))) ∧
      s.Ends (.pcmp h .ge ty p a x) x.len (t.setP p (decide (va ≥ vb)))) ∧
    (s.Issues t h [numP p, numP q, numP r] →
      s.Ends (.plog h .and p q r) 8 (t.setP p (t.getP q && t.getP r)) ∧
      s.Ends (.plog h .or p q r) 8 (t.setP p (t.getP q || t.getP r)) ∧
      s.Ends (.plog h .xor p q r) 8 (t.setP p (t.getP q ^^ t.getP r)) ∧
      s.Ends (.plog h .andn p q r) 8 (t.setP p (t.getP q && !t.getP r)) ∧
      s.Ends (.plog h .not p q r) 8 (t.setP p (!t.getP q))) ∧
    (s.Issues t h [numM m, numM n, numM k] →
      s.Ends (.mlog h .and m n k) 8 (t.setM m (t.getM n &&& t.getM k)) ∧
      s.Ends (.mlog h .or m n k) 8 (t.setM m (t.getM n ||| t.getM k)) ∧
      s.Ends (.mlog h .xor m n k) 8 (t.setM m (t.getM n ^^^ t.getM k)) ∧
      s.Ends (.mlog h .andn m n k) 8 (t.setM m (t.getM n &&& ~~~(t.getM k))) ∧
      s.Ends (.mlog h .not m n k) 8 (t.setM m (~~~(t.getM n)))) ∧
    (s.Issues t h [numM m, numG a] → s.Ends (.mmovMG h m a) 8 (t.setM m (t.getG a))) ∧
    (s.Issues t h [numG d, numM m] → s.Ends (.mmovGM h d m) 8 (t.setG d (t.getM m))) ∧
    (s.Issues t h [numM m] →
      s.Ends (.mmovMImm h m v) v.len (t.setM m (match v with | .imm32 y => y.signExtend 64 | .imm64 y => y))) ∧
    (s.Issues t h [numG d, numM m] →
      s.Ends (.mcnt h .popc d m) 8 (t.setG d (BitVec.ofNat 64 ((List.range 64).filter (t.getM m).getLsbD).length)) ∧
      (∃ c, s.Ends (.mcnt h .first d m) 8 (t.setG d (BitVec.ofNat 64 c)) ∧ c ≤ 64 ∧
        (∀ i < c, (t.getM m).getLsbD i = false) ∧ (c < 64 → (t.getM m).getLsbD c = true)) ∧
      (∃ c, s.Ends (.mcnt h .last d m) 8 (t.setG d (BitVec.ofNat 64 c)) ∧ c ≤ 64 ∧
        (∀ i, c < i → i < 64 → (t.getM m).getLsbD i = false) ∧ (c < 64 → (t.getM m).getLsbD c = true) ∧
        (c = 64 → t.getM m = 0))) ∧
    (s.Issues t h [numP p, numG a] → s.Ends (.pmovPG h p a) 8 (t.setP p (decide (t.getG a ≠ 0)))) ∧
    (s.Issues t h [numG d, numP p] → s.Ends (.pmovGP h d p) 8 (t.setG d (if t.getP p = true then 1 else 0))) ∧
    (s.Issues t h (numM m :: numSrc32 x) → (Instr.mfirst h ty m x).wf = true →
      ∃ y : BitVec 64, s.Ends (.mfirst h ty m x) x.len (t.setM m y) ∧
        let w := ty.fixedWidth
        ∀ j < 64, y.getLsbD j = true ↔
          ∃ i, i < 1024 / w ∧ (i : Int) < (t.src32 ty x).toInt ∧ (if w < 16 then w * i / 16 else i) = j)

/-- R326: Outside a REPEAT block and where its issue checks pass, each control transfer completes with the PC and
register R326 gives: br PC + imm; call gD := PC + 12 and PC + imm; loop gD := gD - 1 and PC + imm unless that is 0,
else PC + 12; jr and ret gA[55:0]; callr gD := PC + 8 and the old gA[55:0], also where gD is gA. Nothing else
changes. -/
def Obligations.ControlTransfers : Prop :=
  ∀ (s : State) (t : Thread) (h : Hdr) (d a : GReg) (off : BitVec 32), t.rep.act = false →
    let dest : BitVec 56 := BitVec.ofInt 56 ((t.pc.toNat : Int) + off.toInt)
    (s.Issues t h [] → s.Goes (.br h off) { t with pc := dest }) ∧
    (s.Issues t h [numG a] →
      s.Goes (.jr h a) { t with pc := BitVec.ofNat 56 (t.getG a).toNat } ∧
      s.Goes (.ret h a) { t with pc := BitVec.ofNat 56 (t.getG a).toNat }) ∧
    (s.Issues t h [numG d, numG a] →
      s.Goes (.callr h d a) { t.setG d (BitVec.ofNat 64 ((t.pc.toNat + 8) % 2 ^ 56)) with
        pc := BitVec.ofNat 56 (t.getG a).toNat }) ∧
    (s.Issues t h [numG d] →
      s.Goes (.call h d off) { t.setG d (BitVec.ofNat 64 ((t.pc.toNat + 12) % 2 ^ 56)) with pc := dest } ∧
      (t.getG d ≠ 1 → s.Goes (.loop h d off) { t.setG d (t.getG d - 1) with pc := dest }) ∧
      (t.getG d = 1 → s.Goes (.loop h d off) { t.setG d 0 with pc := t.pc + 12 }))

/-- R327, R195, R291: Where the issue checks pass and no REPEAT is active, repeat with a count n ≠ 0 completes with ACT
= 1, NEXT = 0, LENM = k - 1, LEFT = n, START and PC at the next instruction, the count being gA limited to
0xFFFF_FFFF or imm32 unsigned; with n = 0 it completes with PC past the k instructions whose lengths could be read.
x is the fetch of the block's blocks; its only effect on the package is that fetch. Inside an active REPEAT both
forms, and every control transfer, trap with ILLOP. Outside a REPEAT, and inside one before its last instruction, PC
advances by the length; after the last instruction of a pass PC goes back to START with NEXT = 0 and LEFT one less
while LEFT > 1, and after the last pass ACT clears and PC goes on, the thread executing on from the block it is in. The
scan of a block steps over each instruction
it can read by the length its LEN gives. -/
def Obligations.RepeatBlocks : Prop :=
  (∀ (s : State) (t : Thread) (h : Hdr) (km1 : BitVec 4) (a : GReg) (v : BitVec 32),
     let go (len : Nat) : Scan := Scan.go s.focus t (km1.toNat + 1)
       { s := s, kept := t.block.toList, pc := t.pc + BitVec.ofNat 56 len, bad := false, trap := none, wait := false }
     let started (len n : Nat) : Thread := { t with
       pc := t.pc + BitVec.ofNat 56 len, park := .run, lastIssue := s.cycle, kept := (go len).kept,
       rep := { act := true, next := 0, lenm := km1.toNat, left := n, start := t.pc + BitVec.ofNat 56 len } }
     let skipped (len : Nat) : Thread := { t with pc := (go len).pc, park := .run, lastIssue := s.cycle }
     (t.rep.act = false →
       (s.Issues t h [numG a] →
         (t.getG a ≠ 0 → exec (.repeatReg h km1 a) s =
           .next ((go 8).s.setThread s.focus (started 8 (Nat.min (t.getG a).toNat 0xFFFFFFFF)))) ∧
         (t.getG a = 0 → (go 8).trap = none → (go 8).wait = false →
           exec (.repeatReg h km1 a) s = .next ((go 8).s.setThread s.focus (skipped 8)))) ∧
       (s.Issues t h [] →
         (v ≠ 0 → exec (.repeatImm h km1 v) s = .next ((go 12).s.setThread s.focus (started 12 v.toNat))) ∧
         (v = 0 → (go 12).trap = none → (go 12).wait = false →
           exec (.repeatImm h km1 v) s = .next ((go 12).s.setThread s.focus (skipped 12))))) ∧
     (t.rep.act = true → s.thread? s.focus = some t →
       ∀ i, i = .repeatReg h km1 a ∨ i = .repeatImm h km1 v ∨ i = .br h v ∨ i = .jr h a ∨ i = .callr h a a ∨
         i = .call h a v ∨ i = .ret h a ∨ i = .loop h a v → exec i s = .next (s.trap s.focus (.plain .illop)))) ∧
  ((∀ (t : Thread) (len : Nat),
     let on := t.pc + BitVec.ofNat 56 len
     (t.rep.act = false → t.advance len = { t with pc := on }) ∧
     (t.rep.act = true →
       (t.rep.next < t.rep.lenm → t.advance len = { t with pc := on, rep := { t.rep with next := t.rep.next + 1 } }) ∧
       (t.rep.lenm ≤ t.rep.next → 1 < t.rep.left →
         t.advance len = { t with pc := t.rep.start, rep := { t.rep with next := 0, left := t.rep.left - 1 } }) ∧
       (t.rep.lenm ≤ t.rep.next → t.rep.left ≤ 1 →
         t.advance len = { t with
           pc := on, rep := { t.rep with act := false }, kept := [],
           block := match t.kept.find? (fun e => e.1 == blockBase t.pc) with | some e => some e | none => t.block }))) ∧
   (∀ (th k : Nat) (t : Thread) (x : Scan) (b : Nat) (v : BitVec 256),
     x.bad = false → x.trap = none → x.wait = false → x.kept.find? (fun e => e.1 == blockBase x.pc) = some (b, v) →
     fetchx v (x.pc.toNat % 32) = false →
     Scan.go th t (k + 1) x = Scan.go th t k { x with pc := x.pc + BitVec.ofNat 56 (lenAt v (x.pc.toNat % 32)) }))

/-- R188: Where the issue checks pass, idr completes with gD := the identity register of R188 that it names, for a
thread that runs a task: its TS and TB, the tile, core and slot numbers, the run's RUNID, the SPEC bit, and the grid
origin, extent, index and dimension; any number that R188 does not list traps with ILLOP and writes nothing. -/
def Obligations.IdentityRegisters : Prop :=
  ∀ (s : State) (t : Thread) (k : Task) (h : Hdr) (d : GReg) (n : BitVec 8), t.task = some k →
    (∀ v : BitVec 64, s.Issues t h [numG d] →
      ((n.toNat, v) ∈ [(0x00, k.ts), (0x01, if k.spec then k.tb.setWidth 64 else 0),
        (0x02, BitVec.ofNat 64 (s.focus / 64)), (0x03, BitVec.ofNat 64 (s.focus / 8)), (0x04, BitVec.ofNat 64 (s.focus % 8)),
        (0x05, BitVec.ofNat 64 (s.run k.run).cfg.runid), (0x06, if k.spec then 1 else 0),
        (0x08, k.ident.org.x), (0x09, k.ident.org.y), (0x0A, k.ident.org.z),
        (0x0C, k.ident.ext.x), (0x0D, k.ident.ext.y), (0x0E, k.ident.ext.z),
        (0x10, k.ident.gidx.x), (0x11, k.ident.gidx.y), (0x12, k.ident.gidx.z),
        (0x14, k.ident.gdim.x), (0x15, k.ident.gdim.y), (0x16, k.ident.gdim.z)]) →
      s.Ends (.idr h d n) 8 (t.setG d v)) ∧
    (s.thread? s.focus = some t →
      (n.toNat = 7 ∨ n.toNat = 0x0B ∨ n.toNat = 0x0F ∨ n.toNat = 0x13 ∨ 0x17 ≤ n.toNat) →
      exec (.idr h d n) s = .next (s.trap s.focus (.plain .illop)))

/-- R189, R262, R427, R7, R329, R3: Where the issue checks pass, ucrr completes with gD := the register FMTn, SR_STATE
(zero-extended), MQn or SBASE; ucrw completes with the register set to gA without the bits its layout marks RZ (a 0
written to SR_STATE becomes 1), every other user control register and every other register kept. A value with a
reserved code (SPEC = 3 in FMTn, GS = 3 in MQ3) and a number not listed trap with ILLOP. Where the issue checks pass
and the Itinerary neither records nor replays the thread's run, rdtime.cyc completes with gD := the cycles since
reset and rdtime.ns with the nanoseconds by the 2.25 GHz clock (the model's reading, log entry 6), rounded down.
Nothing else changes but the PC. -/
def Obligations.UserControlAndTime : Prop :=
  (∀ (s : State) (t : Thread) (h : Hdr) (d a : GReg) (n : BitVec 8), t.fmt.length = 8 → t.mq.length = 4 →
     let v := t.getG a
     let listed := n.toNat ≤ 8 ∨ (0x0C ≤ n.toNat ∧ n.toNat ≤ 0x10)
     let bad := (n.toNat < 8 ∧ v.toNat / 2 ^ 16 % 4 = 3) ∨ (n.toNat = 0x0F ∧ v.toNat % 4 = 3)
     let kept : BitVec 64 :=
       if n.toNat < 8 then v &&& 0x13FFF7 else if n.toNat = 8 then (if v.setWidth 32 = 0#32 then 1 else v &&& 0xFFFFFFFF)
       else if n.toNat = 0x0E then v else if n.toNat = 0x0F then v &&& 7 else v &&& 0xFFFFFFFFFFFFFF
     (listed →
       (s.Issues t h [numG d] → ∃ r, t.ucr n.toNat = some r ∧ s.Ends (.ucrr h d n) 8 (t.setG d r)) ∧
       (s.Issues t h [numG a] →
         (bad → exec (.ucrw h a n) s = .next (s.trap s.focus (.plain .illop))) ∧
         (¬bad → ∃ u : Thread, s.Ends (.ucrw h a n) 8 u ∧ u.ucr n.toNat = some kept ∧
           (∀ m, m ≠ n.toNat → u.ucr m = t.ucr m) ∧
           u = { t with fmt := u.fmt, sr := u.sr, mq := u.mq, sbase := u.sbase }))) ∧
     (¬listed → s.thread? s.focus = some t →
       exec (.ucrr h d n) s = .next (s.trap s.focus (.plain .illop)) ∧
       exec (.ucrw h a n) s = .next (s.trap s.focus (.plain .illop)))) ∧
  (∀ (s : State) (t : Thread) (h : Hdr) (d : GReg), s.Issues t h [numG d] →
     (∀ k, t.task = some k → s.itinMode k.run = none) →
     s.Ends (.rdtimeCyc h d) 8 (t.setG d (BitVec.ofNat 64 s.cycle)) ∧
     s.Ends (.rdtimeNs h d) 8 (t.setG d (BitVec.ofNat 64 (s.cycle * 4 / 9))))

/-- R332, R303, R331, R5, R7: Issued by a service slot whose earlier accesses are all performed, sysr and sysw of a number that no map
assigns trap with ILLOP. Otherwise sysr completes with gD pending on the value that the register has as it issues (while fewer than 16
results are outstanding; that the value is taken then is the model's reading, log entry 55), and sysw completes having written it unless
the value is reserved, which traps with ILLOP. For the registers kept as written, each bit of the new value is the written bit where the
map says RW, cleared where it says W1C and a 1 is written, and otherwise as before; and sysr then reads that value. -/
def Obligations.SystemRegisters : Prop :=
  ∀ (s : State) (t : Thread) (h : Hdr) (d b : GReg) (x : RegSel),
    s.Privileged → s.Quiet t →
    let n := RegSel.get t x
    let die := s.focus / 4096
    let names := match x with | .reg r => [numG r] | .num _ => []
    (s.Issues t h (numG d :: names) →
      (regSpec n = none → exec (.sysr h d x) s = .next (s.trap s.focus (.plain .illop))) ∧
      ((regSpec n).isSome = true → t.outs.length < 16 →
        s.Ends (.sysr h d x) x.len (t.addOut (readyOut t (numG d) (s.sysRead die n))))) ∧
    (s.Issues t h (names ++ [numG b]) →
      (regSpec n = none ∨ s.sysRefused n (t.getG b).toNat = true →
        exec (.sysw h x b) s = .next (s.trap s.focus (.plain .illop))) ∧
      (∀ r : RegSpec, regSpec n = some r →
        n ∈ [0x00C, 0x00D, 0x031, 0x033, 0x034, 0x050, 0x200, 0x400, 0x401, 0x402, 0x403, 0x404, 0x601, 0x602, 0x610, 0x641,
          0x642] ∨ (0x100 ≤ n ∧ n ≤ 0x1FF) →
        ∃ u : State, exec (.sysw h x b) s = .next u ∧
          u.thread? s.focus = some { t.advance x.len with park := .run, lastIssue := s.cycle } ∧
          (∀ i < 64, (u.reg n).testBit i =
            if r.w1c.testBit i && (t.getG b).getLsbD i then false
            else if r.rw.testBit i then (t.getG b).getLsbD i else (s.reg n).testBit i) ∧
          u.sysRead die n = BitVec.ofNat 64 (u.reg n) ∧
          (∀ k, k ≠ n → u.reg k = s.reg k) ∧ s.SameBytes u ∧ s.OtherThreads u s.focus))

/-- R165, R166, R334, R333: Issued by a service slot whose earlier accesses are all performed, each faultreply form
completes. When TOKEN names a posted record of a thread parked for its reply, the record goes and that thread: on
retry issues its instruction again, and an access that had trapped after its issue is performed then; on remote, for a trap that its
instruction took at its issue, issues that again with the reply page gB[51:16] for the faulting page, under the class and key of the
leaf the trap found (U and key slot 0 where it found none); on killtask gives up what had trapped and is to end as tend would at its
next boundary; on killrun its run is ordered to be killed. A TOKEN that
names no record changes nothing but the replier's PC. Issued by a service slot whose earlier accesses are all
performed, and while fewer than 16 results are outstanding, fltwait completes at once with gD pending on FAULT_TAIL - FAULT_HEAD
modulo 2^32 of its own die when that is not 0 or the timeout is 0; otherwise the thread parks for the timeout, gA or
imm32 zero-extended, with gD pending. FLTWAIT_TIMEOUT with no cycle left ends the wait with the count now (0 when
nothing came), and clears the pending bit. -/
def Obligations.FaultService : Prop :=
  (∀ (s : State) (t w : Thread) (k : Task) (h : Hdr) (a : Src32) (b : GReg) (x : Record) (th : Nat),
     s.Privileged → s.Quiet t →
     let token : BitVec 32 := (t.srcZ a).setWidth 32
     let page := (t.getG b).toNat / 2 ^ 16 % 2 ^ 36
     let mine (u : State) : Prop :=
       u.thread? s.focus = some { t.advance a.len with park := .run, lastIssue := s.cycle } ∧ s.SameBytes u ∧
         u.records = s.records.filter fun y => y.token != some token
     (s.Issues t h (numSrc32 a) → (∀ y ∈ s.records, y.token ≠ some token) →
       s.Ends (.faultreplyRetry h a) a.len t ∧ s.Ends (.faultreplyKilltask h a) a.len t ∧
       s.Ends (.faultreplyKillrun h a) a.len t) ∧
     (s.Issues t h (numG b :: numSrc32 a) → (∀ y ∈ s.records, y.token ≠ some token) →
       s.Ends (.faultreplyRemote h b a) a.len t) ∧
     (s.records.find? (fun y => y.token == some token) = some x → x.agent = .thread th → x.joined = [] →
       th ≠ s.focus → s.thread? th = some w → w.park = .fault → w.task = some k →
       (s.Issues t h (numSrc32 a) →
         (∃ u : State, exec (.faultreplyRetry h a) s = .next u ∧ mine u ∧ u.thread? th =
           some { w with park := .run, outs := w.outs.map fun o => { o with stopped := false } }) ∧
         (∃ u : State, exec (.faultreplyKilltask h a) s = .next u ∧ mine u ∧ u.thread? th =
           some { (w.outs.filter fun o => o.stopped).foldl Thread.endOut w with park := .run, ending := true }) ∧
         (k.run < 16 → (s.run k.run).phase ≠ .free → ∃ u : State, exec (.faultreplyKillrun h a) s = .next u ∧ mine u ∧
           u.thread? th = some w ∧ u.run k.run = { s.run k.run with killed := true })) ∧
       (s.Issues t h (numG b :: numSrc32 a) → x.trap.pc = none →
         ∃ u : State, exec (.faultreplyRemote h b a) s = .next u ∧ mine u ∧
           let leaf := x.trap.leaf.getD (.u, 0)
           u.thread? th = some { w with
             park := .run,
             remote := w.remote ++ [(x.trap.va / 2 ^ 16, { page := page, cls := leaf.1, key := leaf.2 })] }))) ∧
  ((∀ (s : State) (t : Thread) (h : Hdr) (d : GReg) (a : Src32), s.Privileged → s.Quiet t →
     s.Issues t h (numG d :: numSrc32 a) →
     let die := s.focus / 4096
     let n := (s.reg (0x0E1 + 0x1000 * die) + 2 ^ 32 - s.reg (0x0E2 + 0x1000 * die)) % 2 ^ 32
     let left := match a with | .reg r => (t.getG r).toNat | .imm v => v.toNat
     (16 ≤ t.outs.length → exec (.fltwait h d a) s = .next s) ∧
     (n ≠ 0 ∨ left = 0 → t.outs.length < 16 →
       s.Ends (.fltwait h d a) a.len (t.addOut (readyOut t (numG d) (BitVec.ofNat 64 n)))) ∧
     (n = 0 → left ≠ 0 → t.outs.length < 16 →
       s.Becomes (.fltwait h d a) { t.setPend (numG d) with park := .fltwait d left a.len })) ∧
   (∀ (s : State) (t : Thread) (th len : Nat) (d : GReg), s.thread? th = some t → t.park = .fltwait d 0 len →
     let die := th / 4096
     let n := (s.reg (0x0E1 + 0x1000 * die) + 2 ^ 32 - s.reg (0x0E2 + 0x1000 * die)) % 2 ^ 32
     ∃ u : State, exec (.fltwaitTimeout th) s = .next u ∧
       u.thread? th = some { ((t.clearPend (numG d)).setG d (BitVec.ofNat 64 n)).advance len with
         park := .run, lastIssue := s.cycle } ∧
       s.OtherThreads u th ∧ s.SameBytes u))

/-- R161, R163, R164: With posting enabled and room in the ring, FAULT_POST writes the 64 bytes of the first unposted
record of the die, with a TOKEN in its word 0, at ring slot FAULT_TAIL mod 2^LOGN of the Innkeeper tile's stash and
increments FAULT_TAIL modulo 2^32; every other stash byte stays. With posting off, or a full ring, or no record,
nothing happens. A FAULT_HEAD write that would pass FAULT_TAIL sets it equal. A FAULT_CFG write of a ring past the
stash changes nothing; one while all rings are empty sets EN, OFF and LOGN, else EN alone. That a FAULT_HEAD written backwards
counts as passing FAULT_TAIL, the difference being taken modulo 2^32, and which values FAULT_CFG refuses, are the model's reading
(log entry 31), and the TOKENs its choice (log entry 7). -/
def Obligations.FaultMailbox : Prop :=
  (∀ (s : State) (die : Nat) (r : Record), die < 4 →
    let off := s.faultCfg.2.1 + 64 * (s.faultTail die % s.faultCfg.2.2)
    let base := 2 ^ 26 * die + off
    s.records.find? (fun x => x.die == die && x.token.isNone) = some r →
    (s.faultCfg.1 = true → s.faultCount die < s.faultCfg.2.2 → off + 64 ≤ 2 ^ 20 → r.words.length = 8 →
      ∃ u : State, ∃ token : BitVec 32, exec (.faultPost die) s = .next u ∧
        u.faultTail die = (s.faultTail die + 1) % 2 ^ 32 ∧ { r with token := some token } ∈ u.records ∧
        (∀ i < 64, cellRead u.stash.cells (base + i) = BitVec.ofNat 8
          (((r.words.getD (i / 8) 0).toNat ||| (if i < 8 then token.toNat * 2 ^ 32 else 0)) / 2 ^ (8 * (i % 8)))) ∧
        (∀ a, a < base ∨ base + 64 ≤ a → cellRead u.stash.cells a = cellRead s.stash.cells a) ∧ u.mem = s.mem) ∧
    (s.faultCfg.1 = false ∨ s.faultCfg.2.2 ≤ s.faultCount die → exec (.faultPost die) s = .next s)) ∧
  (∀ (s : State) (die : Nat), (∀ x ∈ s.records, x.die = die → x.token ≠ none) → exec (.faultPost die) s = .next s) ∧
  (∀ (s : State) (die : Nat) (v : BitVec 64), ∃ u : State, exec (.faultHeadWrite die v) s = .next u ∧
    u.faultHead die = (if (v.toNat % 2 ^ 32 + 2 ^ 32 - s.faultHead die) % 2 ^ 32 ≤ s.faultCount die then v.toNat % 2 ^ 32
      else s.faultTail die % 2 ^ 64) ∧ s.SameBytes u ∧ u.threads = s.threads) ∧
  (∀ (s : State) (v : BitVec 64),
    let first := 4096 * bitsOf v.toNat 12 8
    let size := 2 ^ Nat.min 12 (Nat.max 4 (bitsOf v.toNat 0 4))
    (2 ^ 20 < first + 64 * size → exec (.faultCfgWrite v) s = .next s) ∧
    (s.faultCfgRefused v.toNat = false → s.reg 0x0E0 < 2 ^ 64 → ∃ u : State, exec (.faultCfgWrite v) s = .next u ∧
      u.faultCfg.1 = v.getLsbD 63 ∧
      ((∀ d < 4, s.faultCount d = 0) → u.faultCfg.2 = (first, size)) ∧
      ((∃ d < 4, s.faultCount d ≠ 0) → u.faultCfg.2 = s.faultCfg.2)))

/-- R167, R176, R177: FATAL_TILE_FAULT of a tile that holds no Innkeeper sets its TILE_FENCE bit, after which no slot of
the tile may issue, raises a record of CAUSE TILEFATAL with SRC 5 for the tile, and orders every run with work on
the tile to be killed; of a tile that holds an Innkeeper it is fatal to the device. After DEVICE_FATAL_ERROR no slot
may issue, and the step stops (that an empty agenda then answers fatalStop is the model's choice, log entry 1). None of them changes a
register of any thread. -/
def Obligations.FatalFaults : Prop :=
  (∀ (s : State) (tile : Nat), tile < 256 → tile % 64 ≠ 0 →
    ∃ u : State, exec (.fatalTileFault tile) s = .next u ∧ u.fenced tile = true ∧ (∀ th, th / 64 = tile → u.canIssue th = false) ∧
      (∃ x ∈ u.records, x.agent = .lodge tile ∧ x.die = tile / 64 ∧ bitsOf (x.words.getD 0 0).toNat 0 12 = 0x510 ∧
        x.tile = tile) ∧
      (∀ r < 16, (s.run r).phase ≠ .free → s.runOnTile tile r = true → (u.run r).killed = true) ∧ u.threads = s.threads) ∧
  (∀ (s : State) (tile : Nat), tile % 64 = 0 → ∃ u : State, exec (.fatalTileFault tile) s = .next u ∧ u.fatal = true ∧ s.SameBytes u ∧
    u.threads = s.threads ∧ (∀ th, u.canIssue th = false)) ∧
  (∀ s : State, ∃ u : State, exec .deviceFatalError s = .next u ∧ (∀ th, u.canIssue th = false) ∧ s.SameBytes u ∧
    u.threads = s.threads ∧ (s.agenda = [] → step u = .fault .fatalStop))

/-- R339, R336, R337, R338, R42: Issued by a service slot whose earlier accesses are all performed, while no access translated by an
entry to be removed is under way and no mapped stash line lies under one, each tlbinv form completes, and an entry remains exactly if
the form does not name it: .page names the ASID's walk-cache entries and its leaf entries that map the VA in gA, .asid every entry of
the ASID, .all every entry. Memory and every other thread are as before. Issued by a thread whose earlier accesses are all performed:
purge (by a service slot) of a backed line under a full key slot that no DESTROY is emptying, that neither the host nor a peer holds and
that no task's filter, stash range or cached copy under another key holds, completes with the line reading 0 under that key and its
poison cleared; an address above 2^52 or unbacked traps with PROT reason 2, an empty key slot with reason 3, a peer's line with no port
up with reason 5. cflush and cinval of no bytes complete with no effect. With memory enabled, cflush of one device line whose key slot
holds a key completes with no copy of it left modified on the chip, and cinval of one backed line that carries no speculative state with
no L1 copy and no mapped stash copy of it, and with none modified on the chip where its key slot holds a key. -/
def Obligations.Maintenance : Prop :=
  (∀ (s : State) (t : Thread) (h : Hdr) (a : GReg) (b : Src32), s.Privileged → s.Quiet t →
     let asid := (match b with | .reg r => (t.getG r).toNat | .imm v => v.toNat) % 2 ^ 12
     let va := (t.getG a).toNat % 2 ^ 56
     let page (e : TlbEntry) : Bool :=
       e.asid == asid && (decide (4096 ≤ e.unit) || e.page == va / 2 ^ levelShift e.level)
     let idle (f : TlbEntry → Bool) : Prop := s.usesEntry f = false ∧ s.linesUnder f = []
     let done (i : Instr) (len : Nat) (f : TlbEntry → Bool) : Prop :=
       ∃ u : State, exec i s = .next u ∧ u.thread? s.focus = some { t.advance len with park := .run, lastIssue := s.cycle } ∧
         u.tlb = s.tlb.filter (fun e => !f e) ∧ s.SameBytes u ∧ s.OtherThreads u s.focus
     (s.Issues t h (numG a :: numSrc32 b) → idle page → done (.tlbinvPage h a b) b.len page) ∧
     (s.Issues t h (numSrc32 b) → idle (fun e => e.asid == asid) → done (.tlbinvAsid h b) b.len fun e => e.asid == asid) ∧
     (s.Issues t h [] → idle (fun _ => true) → done (.tlbinvAll h) 8 fun _ => true)) ∧
  (∀ (s : State) (t : Thread) (h : Hdr) (x : Addr) (b : GReg), s.Quiet t → s.Issues t h [numG x.base, numG b] →
     let a := (match x.disp with | none => t.getG x.base | some v => t.getG x.base + v.signExtend 64).toNat
     let key := (t.getG b).toNat % 16
     let line := a / 128
     let ended : Thread := { t.advance x.len with park := .run, lastIssue := s.cycle }
     (s.Privileged →
       (2 ^ 52 ≤ a ∨ s.backed a = false → exec (.purge h x b) s = .next (s.trap s.focus (physTrap .write a))) ∧
       (a < 2 ^ 52 → s.backed a = true → s.keyAt key = none →
         exec (.purge h x b) s = .next (s.trap s.focus { Trap.protAt .write a 3 with pa := some a })) ∧
       (a < 2 ^ 52 → s.backed a = true → (s.keyAt key).isSome = true → s.noPort a = true →
         exec (.purge h x b) s = .next (s.trap s.focus { Trap.protAt .write a 5 with pa := some a })) ∧
       (a < 2 ^ 52 → s.backed a = true → (s.keyAt key).isSome = true → s.noPort a = false → s.keyHeld key = false →
         s.hostReady line = true → (∀ e ∈ s.mem.hostLines, heldHalf e.1 / 2 ≠ line) → s.lodges = [] → s.stash.lines = [] →
         s.coh.l1 = [] → s.coh.l2 = [] → s.coh.replicas = [] →
         ∃ u : State, exec (.purge h x b) s = .next u ∧ u.thread? s.focus = some ended ∧ u.lineAt line key = 0 ∧
           u.poisoned line = false ∧ s.OtherThreads u s.focus) ∧
       (2 ^ 52 ≤ a → exec (.cinval h x b) s = .next (s.trap s.focus (physTrap .write a))) ∧
       (a < 2 ^ 52 → t.getG b = 0 → s.Becomes (.cinval h x b) ended) ∧
       (a < 2 ^ 52 → t.getG b = 1 → s.locked = true → s.backed (line * 128) = true →
         (s.reprobe line).otherSpec line none = false →
         ∃ u : State, exec (.cinval h x b) s = .next u ∧ u.thread? s.focus = some ended ∧ (∀ l ∈ u.coh.l1, l.line ≠ line) ∧
           (∀ l ∈ u.stash.lines, l.pa ≠ line) ∧
           (u.isSystem (line * 128) = false → (∀ l ∈ s.stash.lines, l.pa = line → l.dirty = false) →
             (∀ c, Sparse.get? s.mem.chip line = some c → (s.keyAt c.key).isSome = true) →
             Sparse.get? u.mem.chip line = none))) ∧
     (t.getG b = 0 → s.Becomes (.cflush h x b) { ended with remote := [] }) ∧
     (∀ p : Part, t.getG b = 1 → s.locateAll (t.who s.focus) .read [(t.addr x / 128 * 128 % 2 ^ 56, 128)] = .ok [⟨p, none⟩] →
       p.place = .line → s.isSystem (p.pa / 128 * 128) = false → s.locked = true →
       (∀ c, Sparse.get? s.mem.chip (p.pa / 128) = some c → (s.keyAt c.key).isSome = true) →
       (∀ l ∈ s.stash.lines, l.pa = p.pa / 128 → l.dirty = false) →
       ∃ u : State, exec (.cflush h x b) s = .next u ∧ u.thread? s.focus = some { ended with remote := [] } ∧
         Sparse.get? u.mem.chip (p.pa / 128) = none ∧
         (∀ e ∈ u.coh.l2, e.line = p.pa / 128 → e.dst ≠ 3) ∧ s.OtherThreads u s.focus))

/-- R346, R348, R350, R351, R269, R272, R342: Where its issue checks pass and no stream is bound to a register it names,
each of vfadd, vfsub, vfmul, vfma, vfms, vfnma, vfdiv, vfsqrt, vfrcp, vfrsq, vfexp2, vflog2, vfscale and vfrint
completes: each selected element of wD becomes the rounding, in the instruction's mode (RNE for the correctly
rounded functions) and saturation, of the operation on the values of its sources; the others stay. Under SR each
selected element draws in increasing order and SR_STATE keeps the last draw; in the other modes it stays. Nothing
else changes but the PC. The functions exp2 and log2 are the model's, to the precision of log entry 9. -/
def Obligations.VectorFloat : Prop :=
  ∀ (s : State) (t : Thread) (h : Hdr) (ty : Ty) (rm : Rm) (sat : Bool) (d a b c : WReg), ty.isFp = true →
    let f := ty.fmt
    let sel := selectedBy (t.laneMask h.mg) f.width
    let va (i : Nat) := f.value (elem f.width (t.getW a) i)
    let vb (i : Nat) := f.value (elem f.width (t.getW b) i)
    let vc (i : Nat) := f.value (elem f.width (t.getW c) i)
    let does (i : Instr) (m : Rm) (r : Nat → Nat → Nat) : Prop :=
      ∃ v, s.Ends i 8 { t.setW d v with sr := drawsOf m sel t.sr (1024 / f.width) } ∧
        Elems (t.laneMask h.mg) f.width (t.getW d) v fun i => r i ((drawsOf m sel t.sr (i + 1)).toNat % 2 ^ 16)
    let plain (i : Instr) (m : Rm) (g : Nat → Fl) : Prop := does i m fun j k => f.roundTo m k sat (g j)
    let two := s.Issues t h [numW d, numW a, numW b] ∧ t.Unbound [a, b, d]
    let three := s.Issues t h [numW d, numW a, numW b, numW c] ∧ t.Unbound [a, b, c, d]
    let one := s.Issues t h [numW d, numW a] ∧ t.Unbound [a, d]
    (two →
      plain (.vfadd h ty rm sat d a b) rm (fun i => (va i).add rm (vb i)) ∧
      plain (.vfsub h ty rm sat d a b) rm (fun i => (va i).add rm (vb i).neg) ∧
      plain (.vfmul h ty rm sat d a b) rm (fun i => (va i).mul (vb i)) ∧
      plain (.vfdiv h ty rm sat d a b) .rne (fun i => (va i).div (vb i)) ∧
      plain (.vfscale h false ty rm sat d a b) rm
        (fun i => (va i).scale (signedOf 32 (elem 32 (t.getW b) (if f.width = 16 then i / 2 else i)))) ∧
      plain (.vfscale h true ty rm sat d a b) rm
        (fun i => let e := elem 8 (t.getW b) (i / 32); if e = 255 then .nan else (va i).scale ((e : Int) - 127))) ∧
    (three →
      plain (.vfma h ty rm sat d a b c) rm (fun i => ((va i).mul (vb i)).add rm (vc i)) ∧
      plain (.vfms h ty rm sat d a b c) rm (fun i => ((va i).mul (vb i)).add rm (vc i).neg) ∧
      plain (.vfnma h ty rm sat d a b c) rm (fun i => ((va i).mul (vb i)).neg.add rm (vc i))) ∧
    (one →
      plain (.vfsqrt h ty rm sat d a) .rne (fun i => (va i).sqrt) ∧ plain (.vfrcp h ty rm sat d a) .rne (fun i => (va i).rcp) ∧
      plain (.vfrsq h ty rm sat d a) .rne (fun i => (va i).rsqrt) ∧ plain (.vfexp2 h ty rm sat d a) .rne (fun i => (va i).exp2) ∧
      plain (.vflog2 h ty rm sat d a) .rne (fun i => (va i).log2) ∧
      does (.vfrint h ty rm d a) rm fun i k => f.rne ((va i).rint rm k))

/-- R267, R268, R260, R261, R263: For each fixed format, RoundTo of a NaN is the canonical NaN, of an infinity that infinity (in a
format without one, the largest finite value under saturation and NaN without), and of the value of any other code that code, in
every mode. For a finite positive value, RTZ and RDN give a code n whose value is not above it. Between n and the next value of the
grid (with no upper exponent limit: one more quantum above the largest finite value, L), RUP gives n if n is exact and the next code
if not, RNE the one that is nearer, the even one at the midpoint, and SR, for the top 16 bits F of the discarded fraction and the draw
D, the next code exactly if F + D ≥ 2^16. Where the next code would pass L it is L under saturation, else the infinity, or NaN in a
format without one; and a value at or above the grid value after L gives that under RNE and RUP, and under SR that or L, L when the
draw is 0. A negative value rounds as its magnitude does, with the sign bit, RUP and RDN exchanged. -/
def Obligations.RoundToBrackets : Prop :=
  ∀ f ∈ [Fmt.f64, Fmt.f32, Fmt.f16, Fmt.bf16, Fmt.w80, Fmt.e5m2, Fmt.e4m3], ∀ (rm : Rm) (k : Nat) (sat : Bool), k < 2 ^ 16 →
    let bit := 2 ^ (f.width - 1)
    let infCode := (2 ^ f.e - 1) * 2 ^ f.m
    let past := if sat then f.maxCode else if f.spec = 1 then infCode else f.nanCode
    let times (c : Nat) (y : Fl) : Fl := (Fl.fin false c 0).mul y
    let top := (times 2 (f.value f.maxCode)).add .rne (f.value (f.maxCode - 1)).neg
    f.roundTo rm k sat .nan = f.nanCode ∧
    (∀ s : Bool, f.roundTo rm k sat (.inf s) =
      if f.spec = 1 then infCode + (if s then bit else 0) else if sat then f.maxCode + (if s then bit else 0) else f.nanCode) ∧
    (∀ c < 2 ^ f.width, f.value c ≠ .nan → f.roundTo rm k sat (f.value c) = c) ∧
    (∀ (m : Nat) (e : Int), m ≠ 0 →
      let x := Fl.fin false m e
      let n := f.roundTo .rtz k sat x
      let down := f.value n
      let next := if n < f.maxCode then f.value (n + 1) else top
      let up := if n < f.maxCode then n + 1 else past
      f.roundTo .rdn k sat x = n ∧ n ≤ f.maxCode ∧ x.less down = false ∧ (n < f.maxCode → x.less next = true) ∧
      (x.less next = true →
        f.roundTo .rup k sat x = (if x.same down then n else up) ∧
        (let mid := down.add .rne next
         let twice := times 2 x
         f.roundTo .rne k sat x =
          if twice.less mid then n else if mid.less twice then up else if n % 2 = 0 then n else up) ∧
        (let part (c : Nat) := (times (2 ^ 16 - c) down).add .rne (times c next)
         ∃ F < 2 ^ 16, (times (2 ^ 16) x).less (part F) = false ∧ (times (2 ^ 16) x).less (part (F + 1)) = true ∧
          f.roundTo .sr k sat x = if F + k < 2 ^ 16 then n else up)) ∧
      (x.less next = false →
        f.roundTo .rne k sat x = past ∧ f.roundTo .rup k sat x = past ∧ f.roundTo .sr 0 sat x = f.maxCode ∧
        (f.roundTo .sr k sat x = f.maxCode ∨ f.roundTo .sr k sat x = past)) ∧
      (let below (c : Nat) : Nat := c + (if c = f.nanCode then 0 else bit)
       let y := Fl.fin true m e
       f.roundTo .rne k sat y = below (f.roundTo .rne k sat x) ∧ f.roundTo .sr k sat y = below (f.roundTo .sr k sat x) ∧
       f.roundTo .rdn k sat y = below (f.roundTo .rup k sat x) ∧ f.roundTo .rtz k sat y = n + bit ∧
       f.roundTo .rup k sat y = n + bit))

/-- R347, R349, R352, R342: Where its issue checks pass and no stream is bound to a register it names, vfsgn completes
with each selected element's code given a clear, inverted or copied sign bit (a NaN becomes the canonical NaN),
vfmin and vfmax with the lesser or greater of the two codes, -0 below +0 (the canonical NaN if either is a NaN), and
vfcmp with the governing bits of mD the relation of the two values, in which a NaN makes only .ne and .uo true and
-0 equals +0. Nothing else changes but the PC. -/
def Obligations.VectorSelects : Prop :=
  ∀ (s : State) (t : Thread) (h : Hdr) (ty : Ty) (d a b : WReg) (m : MReg), ty.isFp = true →
    let f := ty.fmt
    let w := f.width
    let ca (i : Nat) := elem w (t.getW a) i
    let cb (i : Nat) := elem w (t.getW b) i
    let top := 2 ^ (w - 1)
    let does (i : Instr) (r : Nat → Nat) : Prop :=
      ∃ v, s.Ends i 8 (t.setW d v) ∧ Elems (t.laneMask h.mg) w (t.getW d) v r
    let sgn (bit : Nat → Bool) (i : Nat) : Nat :=
      if f.value (ca i) = .nan then f.nanCode else ca i % top + (if bit i then top else 0)
    let pick (first : Fl → Fl → Bool) (i : Nat) : Nat :=
      if f.value (ca i) = .nan ∨ f.value (cb i) = .nan then f.nanCode
      else if first (f.value (ca i)) (f.value (cb i)) then ca i else cb i
    let cmp (r : FCmp) (p : Fl → Fl → Bool) : Prop :=
      ∃ v, s.Ends (.vfcmp h r ty m a b) 8 (t.setM m v) ∧
        MaskBits (t.laneMask h.mg) w (t.getM m) v fun i => p (f.value (ca i)) (f.value (cb i))
    let num (x y : Fl) : Bool := x != .nan && y != .nan
    (s.Issues t h [numW d, numW a] → t.Unbound [a, d] →
      does (.vfsgn h .abs ty d a b) (sgn fun _ => false) ∧
      does (.vfsgn h .neg ty d a b) (sgn fun i => !(ca i).testBit (w - 1))) ∧
    (s.Issues t h [numW d, numW a, numW b] → t.Unbound [a, b, d] →
      does (.vfsgn h .copysign ty d a b) (sgn fun i => (cb i).testBit (w - 1)) ∧
      does (.vfmin h ty d a b) (pick fun x y => x.less y || (x.same y && x.sign)) ∧
      does (.vfmax h ty d a b) (pick fun x y => y.less x || (x.same y && !x.sign))) ∧
    (s.Issues t h [numM m, numW a, numW b] → t.Unbound [a, b] →
      cmp .eq (fun x y => num x y && x.same y) ∧ cmp .ne (fun x y => !num x y || !x.same y) ∧
      cmp .lt (fun x y => num x y && x.less y) ∧ cmp .gt (fun x y => num x y && y.less x) ∧
      cmp .le (fun x y => num x y && (x.less y || x.same y)) ∧ cmp .ge (fun x y => num x y && (y.less x || x.same y)) ∧
      cmp .uo (fun x y => !num x y))

/-- R359: Where its issue checks pass and no stream is bound to a register it names, vadd, vsub, vmul, vmm, vlog and vsh
complete with each selected element the result, modulo 2^w, of the exact operation on the elements' values (clamped
under SAT for vadd, vsub and vmul.lo; the product shifted right by w for vmul.hi; the lesser or greater for vmm; the
bitwise operation for vlog; the pattern shifted by the unsigned element of wB for vsh), and vcmp with the governing
bits of mD the relation of the values. The other elements stay, and nothing else changes but the PC. -/
def Obligations.VectorInteger : Prop :=
  ∀ (s : State) (t : Thread) (h : Hdr) (ty : Ty) (sat : Bool) (d a b : WReg) (m : MReg), ty.isInt = true →
    let w := ty.fixedWidth
    let ca (i : Nat) := elem w (t.getW a) i
    let cb (i : Nat) := elem w (t.getW b) i
    let x (i : Nat) := valOf ty (BitVec.ofNat 64 (ca i))
    let y (i : Nat) := valOf ty (BitVec.ofNat 64 (cb i))
    let does (i : Instr) (r : Nat → Nat) : Prop :=
      ∃ v, s.Ends i 8 (t.setW d v) ∧ Elems (t.laneMask h.mg) w (t.getW d) v r
    let int (i : Instr) (r : Nat → Int) : Prop := does i fun j => (r j % 2 ^ w).toNat
    let cl (r : Int) : Int := if sat then clampOf ty r else r
    let cmp (r : Cmp) (p : Int → Int → Prop) [∀ u v, Decidable (p u v)] : Prop :=
      ∃ v, s.Ends (.vcmp h r ty m a b) 8 (t.setM m v) ∧
        MaskBits (t.laneMask h.mg) w (t.getM m) v fun i => decide (p (x i) (y i))
    (s.Issues t h [numW d, numW a, numW b] → t.Unbound [a, b, d] →
      int (.vadd h ty sat d a b) (fun i => cl (x i + y i)) ∧
      int (.vsub h ty sat d a b) (fun i => cl (x i - y i)) ∧
      int (.vmul h false ty sat d a b) (fun i => cl (x i * y i)) ∧
      int (.vmul h true ty sat d a b) (fun i => x i * y i / 2 ^ w) ∧
      int (.vmm h false ty d a b) (fun i => if x i ≤ y i then x i else y i) ∧
      int (.vmm h true ty d a b) (fun i => if x i ≤ y i then y i else x i) ∧
      does (.vlog h .and ty d a b) (fun i => ca i &&& cb i) ∧ does (.vlog h .or ty d a b) (fun i => ca i ||| cb i) ∧
      does (.vlog h .xor ty d a b) (fun i => ca i ^^^ cb i) ∧
      does (.vlog h .andn ty d a b) (fun i => ca i &&& (2 ^ w - 1 - cb i)) ∧
      does (.vsh h .shl ty d a b) (fun i => ca i * 2 ^ cb i) ∧ does (.vsh h .shr ty d a b) (fun i => ca i / 2 ^ cb i) ∧
      int (.vsh h .sar ty d a b) (fun i => signedOf w (ca i) / 2 ^ cb i)) ∧
    (s.Issues t h [numW d, numW a] → t.Unbound [a, d] → does (.vlog h .not ty d a b) fun i => 2 ^ w - 1 - ca i) ∧
    (s.Issues t h [numM m, numW a, numW b] → t.Unbound [a, b] → 16 ≤ w →
      cmp .eq (fun u v => u = v) ∧ cmp .ne (fun u v => u ≠ v) ∧ cmp .lt (fun u v => u < v) ∧ cmp .le (fun u v => u ≤ v) ∧
      cmp .gt (fun u v => u > v) ∧ cmp .ge (fun u v => u ≥ v))

/-- R360, R361, R362, R363, R342: Where its issue checks pass and no stream is bound to a register it names, vbcast
completes with every selected element the low bits of gA, of the immediate, or lane gB mod N of wA; vshuf with
element wB[i] mod N of wA; vslide with the element gB places above, below (0 past the ends) or around; vsel with
wA's or wB's element by mC; vmovg reads lane gB mod N into gD (extended for integer types, zero-extended for others)
or writes it from gA, if that lane is selected; vcomp packs the selected elements of wA into the lowest lanes and
zeroes the rest. Nothing else changes but the PC. -/
def Obligations.VectorLanes : Prop :=
  ∀ (s : State) (t : Thread) (h : Hdr) (ty : Ty) (d a b : WReg) (gd ga gb : GReg) (m : MReg) (v : Imm), ty.isLane = true →
    let w := ty.fixedWidth
    let n := 1024 / w
    let ca (i : Nat) := elem w (t.getW a) i
    let cb (i : Nat) := elem w (t.getW b) i
    let sel := selectedBy (t.laneMask h.mg) w
    let k := (t.getG gb).toNat
    let does (i : Instr) (len : Nat) (r : Nat → Nat) : Prop :=
      ∃ v, s.Ends i len (t.setW d v) ∧ Elems (t.laneMask h.mg) w (t.getW d) v r
    (s.Issues t h [numW d, numG ga] → t.Unbound [d] → does (.vbcastG h ty d ga) 8 fun _ => (t.getG ga).toNat) ∧
    (s.Issues t h [numW d] → t.Unbound [d] → does (.vbcastImm h ty d v) v.len fun _ =>
      match v with
      | .imm32 y => if ty.unsigned then y.toNat else (y.signExtend 64).toNat
      | .imm64 y => y.toNat) ∧
    (s.Issues t h [numW d, numW a, numG gb] → t.Unbound [a, d] →
      does (.vbcastLane h ty d a gb) 8 (fun _ => ca (k % n)) ∧
      does (.vslide h .down ty d a gb) 8 (fun i => if i + k < n then ca (i + k) else 0) ∧
      does (.vslide h .up ty d a gb) 8 (fun i => if k ≤ i then ca (i - k) else 0) ∧
      does (.vslide h .rot ty d a gb) 8 (fun i => ca ((i + k) % n))) ∧
    (s.Issues t h [numW d, numW a, numW b] → t.Unbound [a, b, d] → does (.vshuf h ty d a b) 8 fun i => ca (cb i % n)) ∧
    (s.Issues t h [numM m, numW d, numW a, numW b] → t.Unbound [a, b, d] →
      does (.vsel h ty d a b m) 8 fun i => if selectedBy (t.getM m) w i then ca i else cb i) ∧
    (s.Issues t h [numG gd, numW a, numG gb] → t.Unbound [a] →
      s.Ends (.vmovgG h ty gd a gb) 8 (if sel (k % n) then t.setG gd
        (if ty.isInt then extOf ty (ca (k % n)) else BitVec.ofNat 64 (ca (k % n))) else t)) ∧
    (s.Issues t h [numW d, numG ga, numG gb] → t.Unbound [d] →
      ∃ v, s.Ends (.vmovgW h ty d ga gb) 8 (t.setW d v) ∧ ∀ i < n, elem w v i =
        if i = k % n ∧ sel i = true then (t.getG ga).toNat % 2 ^ w else elem w (t.getW d) i) ∧
    (s.Issues t h [numW d, numW a] → t.Unbound [a, d] →
      ∃ v, s.Ends (.vcomp h ty d a) 8 (t.setW d v) ∧
        ∀ i < n, elem w v i = (((List.range n).filter sel).map ca).getD i 0)

/-- R274, R355, R356, R357: Where its issue checks pass and no stream is bound to a register it names, vfred and vred complete
with element 0 of wD the pairwise tree over wA, an unselected element taking the operation's identity, combined with wC's
element 0 when there is one, and every other bit of wD zero; vscan with the running sums of the selected elements, before or
after each; vfmerge with each selected pair merged as R356 says. Nothing else changes but the PC. exp2 in vfmerge is the
model's, to the precision of log entry 9. -/
def Obligations.VectorReductions : Prop :=
  ∀ (s : State) (t : Thread) (h : Hdr) (ty : Ty) (rm : Rm) (sat : Bool) (fop : FRedOp) (op : RedOp) (d a b : WReg)
    (c : Option WReg),
    let f := ty.fmt
    let sel := selectedBy (t.laneMask h.mg) ty.fixedWidth
    let w := ty.fixedWidth
    let acc (g : Nat → Nat → Nat) (r : Nat) : Nat := match c with | none => r | some x => g (elem w (t.getW x) 0) r
    -- the value at a node of the tree: level 0 the elements, each further level the pairs
    let leaf (u i : Nat) : Nat := if sel i then elem w (t.getW a) i else u
    let tree (g : Nat → Nat → Nat) (u : Nat) : Nat :=
      (treeReduce g 7 ((List.range (1024 / w)).map (leaf u))).headD 0
    (s.Issues t h (numW d :: numW a :: c.toList.map numW) → t.Unbound (a :: c.toList ++ [d]) →
      (ty.isFp = true →
        let unit := match fop with | .sum => 2 ^ (w - 1) | .max => f.rne (.inf true) | .min => f.rne (.inf false)
        let g (x y : Nat) : Nat := match fop with
          | .sum => f.roundTo rm 0 false ((f.value x).add rm (f.value y))
          | .max => f.rne ((f.value x).max (f.value y))
          | .min => f.rne ((f.value x).min (f.value y))
        s.Ends (.vfred h fop ty rm d a c) 8 (t.setW d (BitVec.ofNat 1024 (acc g (tree g unit))))) ∧
      (ty.isInt = true →
        let v (x : Nat) := valOf ty (BitVec.ofNat 64 x)
        let unit := match op with
          | .and => 2 ^ w - 1
          | .min => if ty.signed then 2 ^ (w - 1) - 1 else 2 ^ w - 1
          | .max => if ty.signed then 2 ^ (w - 1) else 0
          | _ => 0
        let g (x y : Nat) : Nat := match op with
          | .sum => ((if sat then clampOf ty (v x + v y) else v x + v y) % 2 ^ w).toNat
          | .min => if v y < v x then y else x
          | .max => if v x < v y then y else x
          | .and => x &&& y
          | .or => x ||| y
          | .xor => x ^^^ y
        s.Ends (.vred h op ty sat d a c) 8 (t.setW d (BitVec.ofNat 1024 (acc g (tree g unit)))))) ∧
    (ty.isInt = true → s.Issues t h [numW d, numW a] → t.Unbound [a, d] →
      ∃ p : Nat → Int, p 0 = 0 ∧
        (∀ i, p (i + 1) = if sel i then
          (let q := p i + valOf ty (BitVec.ofNat 64 (elem w (t.getW a) i))
           valOf ty (BitVec.ofInt 64 (if sat then clampOf ty q else q))) else p i) ∧
        (∃ v, s.Ends (.vscan h false ty sat d a) 8 (t.setW d v) ∧
          Elems (t.laneMask h.mg) w (t.getW d) v fun i => (p (i + 1) % 2 ^ w).toNat) ∧
        (∃ v, s.Ends (.vscan h true ty sat d a) 8 (t.setW d v) ∧
          Elems (t.laneMask h.mg) w (t.getW d) v fun i => (p i % 2 ^ w).toNat)) ∧
    (ty.isFp = true → s.Issues t h [numW d, numW a, numW b] → t.Unbound [a, b, d] →
      ∃ v, s.Ends (.vfmerge h ty d a b) 8 (t.setW d v) ∧ ∀ j, 2 * j < 1024 / w →
        let va (i : Nat) := f.value (elem w (t.getW a) i)
        let vb (i : Nat) := f.value (elem w (t.getW b) i)
        let m := mergePair (va (2 * j)) (va (2 * j + 1)) (vb (2 * j)) (vb (2 * j + 1))
        elem w v (2 * j) = (if sel (2 * j) then f.rne m.1 else elem w (t.getW d) (2 * j)) ∧
        elem w v (2 * j + 1) = (if sel (2 * j) then f.rne m.2 else elem w (t.getW d) (2 * j + 1)))

/-- R353, R354, R270, R269: Where its issue checks pass, the formats are usable and the part is one of the P parts of
R353, and no stream is bound to a register it names, vfcvt and vcvt complete: element i of the part takes Convert of
the source element (of +0 past its last one) where its destination is selected, each other element of wD stays, and
bits above the last are zero. An integer from a NaN is 0, from anything else it is rounded and clamped. Under SR
each selected element draws, unless every value of the source is one of the destination. A part past the last traps
with ILLOP and changes no register. -/
def Obligations.VectorConversions : Prop :=
  ∀ (s : State) (t : Thread) (h : Hdr) (src dst : Ty) (part : BitVec 4) (rm : Rm) (sat : Bool) (d a : WReg),
    t.usable src = true → t.usable dst = true → 0 < t.width src → 0 < t.width dst →
    let ns := 1024 / t.width src
    let nd := 1024 / t.width dst
    let n := Nat.min ns nd
    let parts := (Nat.max ns nd + n - 1) / n
    let si (i : Nat) := if n < ns then part.toNat * n + i else i
    let di (i : Nat) := if n < nd then part.toNat * n + i else i
    let sel (i : Nat) := decide (di i < nd) && selectedBy (t.laneMask h.mg) (t.width dst) (di i)
    let x (i : Nat) : Fl :=
      if ns ≤ si i then .fin false 0 0
      else
        let c := elem (t.width src) (t.getW a) (si i)
        if src.isCvtInt then .int (valOf src (BitVec.ofNat 64 c)) else (t.fmtOf src).1.value c
    let conv (m : Rm) (sa : Bool) (v : Fl) (k : Nat) : Nat :=
      if dst.isCvtInt then (clampOf dst (v.toInt m k) % 2 ^ dst.fixedWidth).toNat
      else (t.fmtOf dst).1.roundTo m k (sa || (t.fmtOf dst).2) v
    let does (i : Instr) (m : Rm) (sa : Bool) : Prop :=
      let dm := if t.exactCvt src dst then .rne else m
      ∃ v, s.Ends i 8 { t.setW d v with sr := drawsOf dm sel t.sr n } ∧
        (∀ i < n, di i < nd → elem (t.width dst) v (di i) =
          if sel i then conv m sa (x i) ((drawsOf dm sel t.sr (i + 1)).toNat % 2 ^ 16) % 2 ^ t.width dst
          else elem (t.width dst) (t.getW d) (di i)) ∧
        (∀ j < nd, (∀ i < n, di i ≠ j) → elem (t.width dst) v j = elem (t.width dst) (t.getW d) j) ∧
        ∀ k, t.width dst * nd ≤ k → k < 1024 → v.getLsbD k = false
    (part.toNat < parts → parts ≤ 16 → s.Issues t h [numW d, numW a] → t.Unbound [a, d] →
      does (.vfcvt h src dst part rm sat d a) rm sat ∧ does (.vcvt h src dst part d a) .rne false) ∧
    (parts ≤ part.toNat → s.thread? s.focus = some t →
      exec (.vfcvt h src dst part rm sat d a) s = .next (s.trap s.focus (.plain .illop)) ∧
      exec (.vcvt h src dst part d a) s = .next (s.trap s.focus (.plain .illop)))

/-- R190, R191, R192, R193, R343, R364, R365, R366: Where its issue checks pass, vadd whose first source is bound to a read
stream traps with STREAMX at the end of the stream; before it, with the next elements in a stash and the thread's order letting
them be read, it completes: the register holds the elements read in order, zero past the last, POS moves by their count, a final
pop sets exactly the m7 bits that govern an element delivered, and wD gets the sums. vadd whose destination is bound to a write
stream traps with STREAMX at its end too; before it, for an assured task and with every selected element reached through a
cached translation or an aperture, it completes: each selected element of the result leaves as a store of its own, in order and
under the release of its page class, POS moves by the register's elements, and the register gets the result. The address of an
element is ADDR plus its four indices times the strides. A register bound to a write stream as source, or to a read stream as
destination, traps with ILLOP. sbind of an aligned 64-byte image in the thread's reach binds the descriptor the image holds,
with ADDR = BASE + SBASE and POS = 0, or traps with ILLOP for a reserved bit; sbind.unbind clears the binding. Memory stays. -/
def Obligations.Streams : Prop :=
  (∀ (s : State) (t : Thread) (h : Hdr) (ty : Ty) (d a b : WReg) (x : Stream) (ls : List Located), ty.isInt = true →
    s.Issues t h [numW d, numW a, numW b] → t.stream? a = some x → t.Unbound [b, d] → x.dir = false →
    x.length ≤ 2 ^ 48 → x.esz ≤ 3 →
    let bytes := 2 ^ x.esz
    let i := Instr.vadd h ty false d a b
    (x.length ≤ x.pos → exec i s = .next (s.trap s.focus (.plain .streamx))) ∧
    (x.pos < x.length → s.locateAll (t.who s.focus) .read (x.next.map fun e => (e.2, bytes)) = .ok ls →
      (∀ l ∈ ls, l.walk = none ∧ ∃ tile, l.part.place = .stash tile) → s.stash.poison = [] →
      s.storesOf s.focus = [] → s.coh.carries = [] →
      s.linesClear s.focus t (t.relaxedRead 0 (ls.map fun l => l.part)) = true →
      ∃ (v r : Line) (m7 : BitVec 64),
        (let y : Thread := (t.setW a r).setStream a.toNat { x with pos := Nat.min x.length (x.pos + 128 / bytes) }
         let y : Thread := if x.length ≤ x.pos + 128 / bytes then y.setM 7 m7 else y
         s.Ends i 8 { y.setW d v with remote := [] }) ∧
        (∀ k < 128 / bytes, elem (8 * bytes) r k =
          match (ls[k]?).map fun l => l.part with
          | some p => (match p.place with | .stash tile => lineNat (s.stashData tile p.pa) (p.pa % 128) bytes | _ => 0)
          | none => 0) ∧
        (∀ j < 64, m7.getLsbD j = true ↔ ∃ k < ls.length, maskBitOf (8 * bytes) k = j) ∧
        Elems (t.laneMask h.mg) ty.fixedWidth (t.getW d) v fun k =>
          let g (z : Line) := valOf ty (BitVec.ofNat 64 (elem ty.fixedWidth z k))
          ((g r + g (t.getW b)) % 2 ^ ty.fixedWidth).toNat)) ∧
  (∀ (s : State) (t : Thread) (h : Hdr) (ty : Ty) (d a b : WReg) (x : Stream) (ls : List Located), ty.isInt = true →
    s.Issues t h [numW d, numW a, numW b] → t.stream? d = some x → x.dir = true → t.Unbound [a, b] → t.spec = false →
    x.length ≤ 2 ^ 48 → x.esz ≤ 3 →
    let bytes := 2 ^ x.esz
    let i := Instr.vadd h ty false d a b
    let es := x.next.filter fun e => selectedBy (t.laneMask h.mg) (8 * bytes) e.1
    let relOne (l : Located) : Option Scope := if l.part.cls = .t then some .dev else none
    let rel := (ls.filterMap relOne).head?
    (x.length ≤ x.pos → exec i s = .next (s.trap s.focus (.plain .streamx))) ∧
    (x.pos < x.length → s.locateAll (t.who s.focus) .write (es.map fun e => (e.2, bytes)) = .ok ls → es.length = ls.length →
      (∀ l ∈ ls, l.walk = none ∧ l.part.pa % 128 + bytes ≤ 128) →
      ∃ (v : Line) (u : State) (xs : List PendStore), exec i s = .next u ∧ s.SameBytes u ∧ s.OtherThreads u s.focus ∧
        u.stores = (s.noteStores s.focus rel).stores ++ xs ∧ xs.length = ls.length ∧
        (∀ (k : Nat) (y : PendStore) (e : Nat × Nat) (l : Located), xs[k]? = some y → es[k]? = some e → ls[k]? = some l →
          y.agent = .thread s.focus ∧ y.part = l.part ∧ y.seq = t.seq ∧ y.op = .write ∧ y.rel = relOne l ∧
          y.mask = BitVec.ofNat 1024 ((2 ^ (8 * bytes) - 1) * 2 ^ (8 * (l.part.pa % 128))) ∧
          y.data = BitVec.ofNat 1024 (elem (8 * bytes) v e.1 * 2 ^ (8 * (l.part.pa % 128)))) ∧
        (let y : Thread := (t.setW d v).setStream d.toNat { x with pos := Nat.min x.length (x.pos + 128 / bytes) }
         u.thread? s.focus = some { (y.noteOuts rel).advance 8 with
           seq := t.seq + 1, remote := [], park := .run, lastIssue := s.cycle }) ∧
        Elems (t.laneMask h.mg) ty.fixedWidth (t.getW d) v fun k =>
          let g (z : Line) := valOf ty (BitVec.ofNat 64 (elem ty.fixedWidth z k))
          ((g (t.getW a) + g (t.getW b)) % 2 ^ ty.fixedWidth).toNat)) ∧
  (∀ (x : Stream) (b0 b1 b2 b3 i0 i1 i2 i3 : Nat) (s0 s1 s2 s3 : BitVec 32), x.bound = [b0, b1, b2, b3] →
    x.stride = [s0, s1, s2, s3] → i0 < b0 → i1 < b1 → i2 < b2 → i3 < b3 →
    (x.addrOf (i0 + b0 * (i1 + b1 * (i2 + b2 * i3))) : Int) =
      ((x.addr.toNat : Int) + i0 * s0.toInt + i1 * s1.toInt + i2 * s2.toInt + i3 * s3.toInt) % 2 ^ 56) ∧
  (∀ (s : State) (t : Thread) (h : Hdr) (ty : Ty) (d a b : WReg) (x : Stream), s.thread? s.focus = some t →
    (t.stream? a = some x ∧ x.dir = true) ∨ (t.stream? d = some x ∧ x.dir = false) →
    exec (.vadd h ty false d a b) s = .next (s.trap s.focus (.plain .illop))) ∧
  (∀ (s : State) (t : Thread) (h : Hdr) (d : BitVec 2) (addr : Addr) (p : Part) (tile : Nat),
    s.Issues t h [16 + d.toNat, numG addr.base] → t.streams.length = 4 → t.outs = [] → t.fences = [] →
    s.storesOf s.focus = [] → s.coh.carries = [] → s.reach (t.who s.focus) .read (t.addr addr) 64 64 = .ok [⟨p, none⟩] →
    p.place = .stash tile → p.cls = .u → p.len = 64 →
    let x := lineNat (s.stashData tile p.pa) (p.pa % 128) 64
    let w (i : Nat) := x / 2 ^ (64 * i) % 2 ^ 64
    let half (i : Nat) := x / 2 ^ (32 * i) % 2 ^ 32
    let base : BitVec 56 := BitVec.ofNat 56 (w 0)
    let reserved := 2 ^ 56 ≤ w 0 ∨ w 5 / 8 % 32 ≠ 0 ∨ w 5 / 2 ^ 9 % 2 ^ 7 ≠ 0 ∨ 2 ^ 19 ≤ w 5 ∨ w 6 ≠ 0 ∨ w 7 ≠ 0 ∨
      3 < w 5 % 8 ∨ w 5 / 2 ^ 16 % 8 = 7 ∨ 2 ^ 48 ≤ half 2 * half 3 * half 4 * half 5
    let aligned := (base + t.sbase).toNat % 2 ^ (w 5 % 8) = 0 ∧ ∀ k < 4, 1 < half (2 + k) → half (6 + k) % 2 ^ (w 5 % 8) = 0
    let bound : Stream :=
      { base := base, bound := [half 2, half 3, half 4, half 5],
        stride := [half 6, half 7, half 8, half 9].map (BitVec.ofNat 32), esz := w 5 % 8, dir := (w 5).testBit 8,
        ch := BitVec.ofNat 3 (w 5 / 2 ^ 16), pos := 0, bnd := true, addr := base + t.sbase }
    (reserved → exec (.sbind h d addr) s = .next (s.trap s.focus (.plain .illop))) ∧
    (¬reserved → aligned → s.Ends (.sbind h d addr) addr.len { t.setStream d.toNat bound with remote := [] })) ∧
  (∀ (s : State) (t : Thread) (h : Hdr) (d : BitVec 2) (x : Stream), s.Issues t h [16 + d.toNat] →
    t.streams[d.toNat]? = some x → s.Ends (.sbindUnbind h d) 8 (t.setStream d.toNat { x with bnd := false }))

/-- R370, R371, R373, R374, R375, R376, R378, R381, R382: Where its issue checks pass, fewer than 16 results are outstanding and every
line it reads is reached through a cached translation or an aperture, each of ld, lds and gather completes with its destination
pending on a result that reads exactly those parts, with its annotation's acquire; a ld of a w register none of whose elements
is selected reads nothing; a w access that is not line-aligned, or a g access that misses its size, traps with ALIGN. The loads
change no byte of memory. pref completes with no register changed in every case. ld and st of a width of 8 bits or more with SUB
not 0 trap with ILLOP (R373). -/
def Obligations.LoadsIssue : Prop :=
  (∀ (s : State) (t : Thread) (h : Hdr) (ty : Ty) (mo : MemOrd) (blk : Blk) (addr : Addr) (d : WReg) (g : GReg) (b : WReg)
    (scope : Scope) (acq sat : Bool) (view : View) (ls : List Located), t.usable ty = true → t.outs.length < 16 →
    (∀ l ∈ ls, l.walk = none) →
    let who := t.who s.focus
    let va := t.addr addr
    let w := t.width ty
    let mask := t.laneMask h.mg
    let sends (i : Instr) (dst : Nat) (m : MemOrd) (k : OutKind) (xs : List Located) : Prop :=
      let o : Outstanding :=
        { dst := BitVec.ofNat 6 dst, kind := k, parts := xs.map fun l => l.part,
          acq := acqOf (weakest (xs.map fun l => l.part)) m, rel := none, seq := t.seq, pc := t.pc, word := s.wordOf t,
          hint := h.ch, sc := false, log := none }
      s.Ends i addr.len { t.addOut o with seq := t.seq + 1, remote := [] }
    (t.wideBlocks ty blk = true → s.thread? s.focus = some t →
      ∀ x : GW, exec (.ld h ty mo blk x addr) s = .next (s.trap s.focus (.plain .illop)) ∧
        exec (.st h ty mo blk addr x) s = .next (s.trap s.focus (.plain .illop))) ∧
    (s.Issues t h [numG g, numG addr.base] →
      (t.wideBlocks ty blk = false → s.reach who .read va (w / 8) (w / 8) = .ok ls →
        sends (.ld h ty mo blk (.g g) addr) (numG g) mo (.loadG ty) ls) ∧
      (t.wideBlocks ty blk = false → va % (w / 8) ≠ 0 → exec (.ld h ty mo blk (.g g) addr) s = .next (s.trap s.focus (.at .align .read va))) ∧
      (s.reach who .read va (ty.fixedWidth / 8) (ty.fixedWidth / 8) = .ok ls →
        sends (.lds h ty scope acq sat view (.g g) addr) (numG g) ⟨scope, if acq then .acq else .relaxed, false⟩
          (.loadSub ty view sat mask false) ls)) ∧
    (s.Issues t h [numW d, numG addr.base] → t.Unbound [d] → t.wideBlocks ty blk = false →
      (va % 128 ≠ 0 → 8 ≤ w → exec (.ld h ty mo blk (.w d) addr) s = .next (s.trap s.focus (.at .align .read va))) ∧
      (va % 128 = 0 → 8 ≤ w → (∀ i < 1024 / w, selectedBy mask w i = false) →
        sends (.ld h ty mo blk (.w d) addr) (numW d) mo (.loadW w mask) []) ∧
      (va % 128 = 0 → 8 ≤ w → (∃ i < 1024 / w, selectedBy mask w i = true) → s.reach who .read va 128 128 = .ok ls →
        sends (.ld h ty mo blk (.w d) addr) (numW d) mo (.loadW w mask) ls) ∧
      (∀ bs, va % 8 = 0 → 0 < w → w < 8 → windowPast va (4 * w * blockCount w blk) = false →
        s.reachBlocks who .read (4 * w) (liveBlocks w va (blockCount w blk) mask) = (bs, none) →
        ls = (bs.flatMap fun x => x.2) →
        sends (.ld h ty mo blk (.w d) addr) (numW d) mo (.loadPacked w (blockCount w blk) mask (s.partVa who va)) ls) ∧
      (va % 128 = 0 →
        ty = .f16 ∨ ty = .bf16 ∨ ty = .f32 →
        (∀ i < 1024 / ty.fixedWidth, selectedBy mask (if view.isFull ty then ty.fixedWidth else view.fmt.width) i = false) →
        sends (.lds h ty scope acq sat view (.w d) addr) (numW d) ⟨scope, if acq then .acq else .relaxed, false⟩
          (.loadSub ty view sat mask true) []) ∧
      (va % 128 = 0 →
        (∃ i < 1024 / ty.fixedWidth, selectedBy mask (if view.isFull ty then ty.fixedWidth else view.fmt.width) i = true) →
        ty = .f16 ∨ ty = .bf16 ∨ ty = .f32 → s.reach who .read va 128 128 = .ok ls →
        sends (.lds h ty scope acq sat view (.w d) addr) (numW d) ⟨scope, if acq then .acq else .relaxed, false⟩
          (.loadSub ty view sat mask true) ls)) ∧
    (s.Issues t h [numW d, numG addr.base, numW b] → t.Unbound [d, b] →
      s.reachElems who .read (ty.fixedWidth / 8) (elemAddrs va ty.fixedWidth (t.getW b) mask) = .ok ls →
      sends (.gather h ty mo d addr b) (numW d) mo (.gather ty mask) ls)) ∧
  (∀ (s : State) (t : Thread) (h : Hdr) (l1 : Bool) (addr : Addr), s.Issues t h [numG addr.base] →
    ∃ u : State, exec (.pref h l1 addr) s = .next u ∧
      u.thread? s.focus = some { t.advance addr.len with park := .run, lastIssue := s.cycle } ∧ u.stores = s.stores) ∧
  (∀ (base w : Nat) (offs : Line) (mask : BitVec 64), (w = 16 ∨ w = 32 ∨ w = 64) →
    elemAddrs base w offs mask = ((List.range (1024 / w)).filter (selectedBy mask w)).map fun i =>
      (i, (((base : Int) + signedOf w (elem w offs i) * (w / 8 : Nat)) % 2 ^ 56).toNat))

/-- R156, R374, R375, R376, R378, R381, R342: For the result of a load that the thread's order lets be bound, whose parts lie in
stashes and are not poisoned, while no store of the thread is in flight, VARIABLE_LATENCY_RESULT completes: a g register gets
Ext of the value read (a floating-point pattern zero-extended), a w register the selected elements of the line, each with the
bytes at its place, a subscribing load the elements converted to the view and zeros past the line, a gather each selected
element's own bytes in index order; unselected elements stay. The result is no longer outstanding and the pending bit is clear.
No other register, no other slot and no byte of memory changes. A packed ld gives the elements of its first block, the elements beyond
its blocks becoming zero. That these become zero whatever the guard selects is the model's reading (log entry 46). -/
def Obligations.LoadResults : Prop :=
  ∀ (s : State) (th : Nat) (t : Thread) (o : Outstanding) (rest : List Outstanding),
    s.thread? th = some t → t.outs = o :: rest → t.park ≠ .pendread → s.mayBind th t o = true → s.storesOf th = [] →
    o.rel = none → o.sc = false → o.stopped = false → (∀ x ∈ s.scOps, x.th = th → x.seq ≠ o.seq) → s.coh.carries = [] →
    (∀ p ∈ o.parts, p.cls = .u ∧ p.va < 2 ^ 56 ∧
      ∃ tile, p.place = .stash tile ∧ s.stash.poison.contains (stashLine tile p.pa) = false) →
    let got (p : Part) : Nat :=
      match p.place with | .stash tile => lineNat (s.stashData tile p.pa) (p.pa % 128) p.len | _ => 0
    let done (v : Thread) : Prop := ∃ z f, exec (.variableLatencyResult th o.dst.toNat) s = .next z ∧
      z.thread? th = some { v with outs := rest, pend := t.pend &&& ~~~(1#64 <<< o.dst.toNat), fences := f } ∧
      s.OtherThreads z th ∧ s.SameBytes z ∧ z = { s with threads := z.threads }
    let conv (src : Ty) (view : View) (sat : Bool) (x : Nat) : Nat :=
      if view.isFull src then x else view.fmt.roundTo .rne 0 sat (src.fmt.value x)
    (∀ (d : GReg) (ty : Ty) (p : Part), o.dst = BitVec.ofNat 6 (numG d) → o.kind = .loadG ty → o.parts = [p] →
      ty.isLane = true → p.len = ty.fixedWidth / 8 →
      done (t.setG d (if ty.isInt then extOf ty (got p) else BitVec.ofNat 64 (got p)))) ∧
    (∀ (d : WReg) (w : Nat) (mask : BitVec 64) (p : Part), o.dst = BitVec.ofNat 6 (numW d) → o.kind = .loadW w mask →
      o.parts = [p] → 0 < w → p.len = 128 →
      ∃ v, done (t.setW d v) ∧ Elems mask w (t.getW d) v fun i => got p / 2 ^ (w * i)) ∧
    (∀ (d : GReg) (src : Ty) (view : View) (sat : Bool) (mask : BitVec 64) (p : Part), o.dst = BitVec.ofNat 6 (numG d) →
      o.kind = .loadSub src view sat mask false → o.parts = [p] → src = .f16 ∨ src = .bf16 ∨ src = .f32 →
      p.len = src.fixedWidth / 8 → done (t.setG d (BitVec.ofNat 64 (conv src view sat (got p))))) ∧
    (∀ (d : WReg) (src : Ty) (view : View) (sat : Bool) (mask : BitVec 64) (p : Part), o.dst = BitVec.ofNat 6 (numW d) →
      o.kind = .loadSub src view sat mask true → o.parts = [p] → src = .f16 ∨ src = .bf16 ∨ src = .f32 →
      view.isFull src = true ∨ view.subscribes src = true → p.len = 128 →
      let b := src.fixedWidth
      let w := if view.isFull src then b else view.fmt.width
      ∃ v, done (t.setW d v) ∧ Elems mask w (t.getW d) v fun i =>
        if i < 1024 / b then conv src view sat (got p / 2 ^ (b * i) % 2 ^ b) else 0) ∧
    (∀ (d : WReg) (w blocks : Nat) (mask : BitVec 64) (p : Part), o.dst = BitVec.ofNat 6 (numW d) →
      o.kind = .loadPacked w blocks mask p.va → o.parts = [p] → 0 < w → w < 8 → p.len = 4 * w → 1 ≤ blocks → 32 * blocks * w ≤ 1024 →
      (∀ i < 32 * blocks, 32 ≤ i → selectedBy mask w i = false) →
      ∃ v, done (t.setW d v) ∧
        (∀ i < 32 * blocks, elem w v i =
          if selectedBy mask w i then got p / 2 ^ (w * i) % 2 ^ w else elem w (t.getW d) i) ∧
        ∀ k, 32 * blocks * w ≤ k → k < 1024 → v.getLsbD k = false) ∧
    (∀ (d : WReg) (ty : Ty) (mask : BitVec 64), o.dst = BitVec.ofNat 6 (numW d) → o.kind = .gather ty mask →
      ty.isLane = true → o.parts.length = ((List.range (1024 / ty.fixedWidth)).filter (selectedBy mask ty.fixedWidth)).length →
      let w := ty.fixedWidth
      ∃ v, done (t.setW d v) ∧ ∀ i < 1024 / w, elem w v i =
        if selectedBy mask w i then ((o.parts.map got).getD ((List.range i).filter (selectedBy mask w)).length 0) % 2 ^ w
        else elem w (t.getW d) i)

/-- R374, R375, R376, R380, R381, R383, R385, R142: Where its issue checks pass, for an assured task and where every line it
writes is reached through a cached translation or an aperture, each of st, scatter and atom.red completes: each located part is
put in flight, in increasing element index, with exactly the selected bytes as its mask and the source's bytes as its data (or
with the atomic's operation and operands), the annotation's release (a scatter's is that of the weakest class among its
elements) and the thread's place in order. A packed st of a w register does so for each block with an element selected, in the
bits of those elements. Of a speculative task that is not earliest, st to a page not T parks; on a T page, where its task logs
and the log area is at hand, it completes with the line in the entry's write filter and the old 8-byte word in the undo log
(R142). A release is noted by the thread's earlier stores and operations, for the core dump. A w register with no element
selected stores nothing. The registers stay, and no byte of memory changes. -/
def Obligations.StoresIssue : Prop :=
  (∀ (s : State) (t : Thread) (h : Hdr) (ty : Ty) (mo : MemOrd) (blk : Blk) (addr : Addr) (g c : GReg) (d b : WReg)
    (op : AtomOp) (l : Located) (ls : List Located), t.usable ty = true → t.wideBlocks ty blk = false → t.spec = false → (∀ x ∈ l :: ls, x.walk = none) →
    let who := t.who s.focus
    let va := t.addr addr
    let w := t.width ty
    let mask := t.laneMask h.mg
    -- one part in flight: the bits of m and v count from the part's own first byte
    let flight (x : PendStore) (p : Part) (m v : Nat) (o : StoreOp) : Prop :=
      x.agent = .thread s.focus ∧ x.part = p ∧ x.seq = t.seq ∧ x.key = t.key ∧ x.op = o ∧
        x.mask = BitVec.ofNat 1024 (m * 2 ^ (8 * (p.pa % 128))) ∧
        (o = .write → x.data = BitVec.ofNat 1024 (v * 2 ^ (8 * (p.pa % 128))))
    let before (rel : Option Scope) : List PendStore := (s.noteStores s.focus rel).stores
    let sends (i : Instr) (rel : Option Scope) (f : State → Prop) : Prop :=
      ∃ u : State, exec i s = .next u ∧ f u ∧ s.SameBytes u ∧ s.OtherThreads u s.focus ∧
        u.thread? s.focus = some { (t.noteOuts rel).advance addr.len with
          seq := t.seq + 1, remote := [], park := .run, lastIssue := s.cycle }
    let relOne := relOf l.part.cls mo
    let relAll := if ls = [] then none else relOf (weakest (ls.map fun x => x.part)) mo
    let bits (n : Nat) := 2 ^ n - 1
    (s.Issues t h [numG addr.base, numG g] → s.reach who .write va (w / 8) (w / 8) = .ok [l] → l.part.va = s.partVa who va →
      l.part.len = w / 8 → w % 8 = 0 → l.part.pa % 128 + l.part.len ≤ 128 →
      sends (.st h ty mo blk addr (.g g)) relOne fun (u : State) => ∃ x : PendStore, u.stores = before relOne ++ [x] ∧
        flight x l.part (bits w) ((t.getG g).toNat % 2 ^ w) .write ∧ x.rel = relOne) ∧
    (s.Issues t h [numG addr.base, numW b] → t.Unbound [b] → va % 128 = 0 → 8 ≤ w →
      ((∀ i < 1024 / w, selectedBy mask w i = false) →
        s.Ends (.st h ty mo blk addr (.w b)) addr.len t) ∧
      ((∃ i < 1024 / w, selectedBy mask w i = true) → s.reach who .write va 128 128 = .ok [l] → l.part.va = s.partVa who va →
        l.part.len = 128 → l.part.pa % 128 = 0 →
        sends (.st h ty mo blk addr (.w b)) relOne fun (u : State) => ∃ x : PendStore, u.stores = before relOne ++ [x] ∧
          x.part = l.part ∧ x.op = .write ∧ x.data = t.getW b ∧ x.rel = relOne ∧
          (∀ i < 1024 / w, elem w x.mask i = if selectedBy mask w i then bits w else 0) ∧
          (∀ k, w * (1024 / w) ≤ k → k < 1024 → x.mask.getLsbD k = false))) ∧
    (∀ bs, s.Issues t h [numG addr.base, numW b] → t.Unbound [b] → va % 8 = 0 → 0 < w → w < 8 →
      windowPast va (4 * w * blockCount w blk) = false →
      s.reachBlocks who .write (4 * w) (liveBlocks w va (blockCount w blk) mask) = (bs, none) → ls = (bs.flatMap fun x => x.2) →
      let off (y : Located) (from_ : Nat) := 8 * ((y.part.va + 2 ^ 56 - from_ % 2 ^ 56) % 2 ^ 56)
      (∀ p ∈ bs, ∀ y ∈ p.2, off y (s.partVa who va + 4 * w * p.1) + 8 * y.part.len ≤ 32 * w ∧ y.part.pa % 128 + y.part.len ≤ 128) →
      sends (.st h ty mo blk addr (.w b)) relAll fun (u : State) => ∃ xs : List PendStore, u.stores = before relAll ++ xs ∧
        xs.length = ls.length ∧
        ∀ (k : Nat) (x : PendStore) (y : Located), xs[k]? = some x → ls[k]? = some y →
          let o := 8 * (y.part.pa % 128)
          let skip := off y (s.partVa who va)
          x.part = y.part ∧ x.op = .write ∧ x.rel = relAll ∧
          (∀ q < 1024, x.mask.getLsbD q =
            (decide (o ≤ q) && decide (q < o + 8 * y.part.len) && selectedBy mask w ((skip + (q - o)) / w))) ∧
          (∀ q < 8 * y.part.len, x.data.getLsbD (o + q) = (t.getW b).getLsbD (skip + q))) ∧
    (s.Issues t h [numG addr.base, numW b, numW d] → t.Unbound [b, d] → ty.fixedWidth % 16 = 0 → 0 < ty.fixedWidth →
      let es := elemAddrs va ty.fixedWidth (t.getW b) mask
      s.reachElems who .write (ty.fixedWidth / 8) es = .ok ls → ls.map (fun x => x.part.va) = es.map (fun e => s.partVa who e.2) →
      (∀ x ∈ ls, x.part.len = ty.fixedWidth / 8 ∧ x.part.pa % 128 + x.part.len ≤ 128) →
      sends (.scatter h ty mo addr b d) relAll fun (u : State) => ∃ xs : List PendStore, u.stores = before relAll ++ xs ∧
        xs.length = ls.length ∧
        ∀ (k : Nat) (x : PendStore) (e : Nat × Nat) (y : Located), xs[k]? = some x → es[k]? = some e → ls[k]? = some y →
          flight x y.part (bits ty.fixedWidth) (elem ty.fixedWidth (t.getW d) e.1) .write ∧ x.rel = relAll) ∧
    (s.Issues t h ([numG addr.base, numG g] ++ if op = .cas then [numG c] else []) → mo.sc = false →
      s.reach who .atomic va (atomBytes ty) (atomBytes ty) = .ok [l] → l.part.len = atomBytes ty →
      l.part.pa % 128 + l.part.len ≤ 128 →
      sends (.atomRed h op ty mo addr g c) relOne fun (u : State) => ∃ x : PendStore, u.stores = before relOne ++ [x] ∧
        flight x l.part (bits (8 * atomBytes ty)) 0 (.atom op ty (if op = .cas then t.getG c else 0)) ∧
        x.data = (t.getG g).setWidth 1024 ∧ x.rel = relOne)) ∧
  (∀ (s : State) (t : Thread) (k : Task) (h : Hdr) (ty : Ty) (mo : MemOrd) (blk : Blk) (addr : Addr) (g : GReg) (l : Located),
    t.usable ty = true → t.wideBlocks ty blk = false → t.spec = true → t.task = some k → s.Issues t h [numG addr.base, numG g] →
    let who := t.who s.focus
    let va := t.addr addr
    let w := t.width ty
    let i := Instr.st h ty mo blk addr (.g g)
    s.reach who .write va (w / 8) (w / 8) = .ok [l] →
    (s.provisional t = true → l.part.cls ≠ .t → s.Becomes i { t with park := .earliest }) ∧
    (∀ (n : Nat) (e : CqEntry) (lg : Located), l.part.cls = .t → l.part.remote = false → l.part.place = .line → l.walk = none →
      l.part.va = s.partVa who va → w % 8 = 0 → 0 < w → w ≤ 64 → l.part.len = w / 8 → l.part.pa % (w / 8) = 0 →
      t.nolog = false → t.entry = some n → n < 64 → s.focus < 2 ^ 14 →
      Sparse.get? (s.lodge (tileOf s.focus)).cq n = some e → e.write.length = 4 → e.log.length < 256 →
      s.coh = State.reset.coh → s.stash.lines = [] → s.stash.maps = [] →
      (∀ c, Sparse.get? s.mem.chip (l.part.pa / 128) = some c → c.key = l.part.key) →
      s.logArea s.focus t = .ok lg → lg.walk = none → (s.partReady (some k.run) true lg.part).1 = true →
      (s.partReady (some k.run) true l.part).1 = true →
      let line := l.part.pa / 128
      let rel := relOf .t mo
      let old := lineNat (s.forward s.focus t.seq line (s.lineAt line l.part.key)) (l.part.pa % 128 / 8 * 8) 8
      ∃ (u : State) (x : PendStore) (e' : CqEntry), exec i s = .next u ∧
        u.thread? s.focus = some { (t.noteOuts rel).advance addr.len with
          seq := t.seq + 1, remote := [], park := .run, lastIssue := s.cycle } ∧
        u.stores = (s.noteStores s.focus rel).stores ++ [x] ∧ x.part = l.part ∧ x.op = .write ∧ x.rel = rel ∧
        Sparse.get? (u.lodge (tileOf s.focus)).cq n = some e' ∧ sigMatch e'.write line = true ∧
        e'.log = e.log ++ [{ pa := l.part.pa / 8 * 8, key := l.part.key, old := BitVec.ofNat 64 old, valid := true }]))

/-- R137, R239, R240, R376: For a thread's store in flight, a release or not and of any page class, that the thread's order lets
be performed, STORE_AT_HOME completes and the store is no longer in flight. To a stash: the line then holds the store's data in
the bits of its mask and what it held elsewhere; every other byte of the stashes, and all of memory, stays. To device memory
that has no copy anywhere and that its home can serve, the line under the store's key slot, which holds a key, holds the merged
data, and every other line, under every key slot, reads as before. A store that its order holds back stays in flight, and
nothing changes but that a release whose earlier accesses are performed has the modified mapped lines of its tile written back. -/
def Obligations.StoreAtHome : Prop :=
  ∀ (s : State) (n th : Nat) (x : PendStore), s.stores.find? (fun y => y.id == n) = some x → x.agent = .thread th →
    (let z := s.cleanBefore th x.seq x.rel
     z.mayPerform x = false → exec (.storeAtHome n) s = .next z ∧ (x.rel = none → z = s)) ∧
    (s.mayPerform x = true → x.op = .write → x.log = none → x.cls = x.part.cls → x.stopped = false → x.answer = false → x.twin = none →
      (∀ tile, x.part.place = .stash tile → x.part.cls = .u → x.part.pa < 2 ^ 20 →
        let base := 2 ^ 20 * tile + x.part.pa / 128 * 128
        ∃ u : State, exec (.storeAtHome n) s = .next u ∧ u.stores = s.stores.filter (fun y => y.id != n) ∧
          u.stashData tile x.part.pa = mergeLine x.mask (s.stashData tile x.part.pa) x.data ∧
          (∀ a, a < base ∨ base + 128 ≤ a → cellRead u.stash.cells a = cellRead s.stash.cells a) ∧
          u.mem = s.mem ∧ u.threads = s.threads) ∧
      (x.part.place = .line → s.coh = State.reset.coh → s.stash.maps = [] → s.stash.lines = [] →
        s.isSystem (x.part.pa / 128 * 128) = false → s.backed (x.part.pa / 128 * 128) = true → s.locked = true →
        Sparse.get? s.mem.chip (x.part.pa / 128) = none → Sparse.getD s.mem.bias (x.part.pa / 128 / 512) 0 = 0 →
        s.mem.hostLines = [] → s.mem.snoops = [] → (∀ y ∈ s.stores, y.answer = false) → s.mem.errors = [] →
        (s.keyAt x.part.key).isSome = true → s.keyHeld x.part.key = false →
        let line := x.part.pa / 128
        ∃ u : State, exec (.storeAtHome n) s = .next u ∧ u.stores = s.stores.filter (fun y => y.id != n) ∧
          u.lineAt line x.part.key = mergeLine x.mask (s.lineAt line x.part.key) x.data ∧
          (x.hint ≠ 4 → ∀ other key, other ≠ line → u.lineAt other key = s.lineAt other key) ∧
          (∀ a, cellRead u.stash.cells a = cellRead s.stash.cells a) ∧ u.threads = s.threads))

/-- R384, R385, R386: Where its issue checks pass, for an assured task and a word reached through a cached translation
or an aperture, each atomic with a result completes with gD pending on it, a .sc one with its place in S taken, and its
release noted by the thread's earlier stores and operations. Bound on a word of a stash, it delivers
the old value (Ext of it for an integer type, the pattern for another) into gD and leaves in the word the sum modulo
2^w, minimum, maximum, bitwise result, B's value, or C's value if the old one equals B's; the floating-point sum is
rounded once by RNE. Every other byte of the stashes, and all of memory, stays. -/
def Obligations.Atomics : Prop :=
  (∀ (s : State) (t : Thread) (h : Hdr) (ty : Ty) (mo : MemOrd) (addr : Addr) (d b c : GReg) (l : Located),
    t.outs.length < 16 → t.spec = false → l.walk = none →
    s.reach (t.who s.focus) .atomic (t.addr addr) (atomBytes ty) (atomBytes ty) = .ok [l] →
    let sends (i : Instr) (op : AtomOp) (cv : BitVec 64) : Prop :=
      let o : Outstanding :=
        { dst := BitVec.ofNat 6 (numG d), kind := .atom op ty (t.getG b) cv, parts := [l.part],
          acq := acqOf l.part.cls mo, rel := relOf l.part.cls mo, seq := t.seq, pc := t.pc, word := s.wordOf t,
          hint := h.ch, sc := mo.sc, log := none }
      let z := (if mo.sc then s.enterS s.focus t.seq else s).noteStores s.focus o.rel
      let after : Thread := { (t.noteOuts o.rel).addOut o with seq := t.seq + 1, remote := [] }
      ∃ u : State, exec i s = .next u ∧ u = { z with threads := u.threads } ∧ s.SameBytes u ∧ s.OtherThreads u s.focus ∧
        u.thread? s.focus = some { after.advance addr.len with park := .run, lastIssue := s.cycle }
    (s.Issues t h [numG d, numG addr.base, numG b] →
      sends (.atomAdd h ty mo d addr b) .add 0 ∧ sends (.atomMin h ty mo d addr b) .min 0 ∧
      sends (.atomMax h ty mo d addr b) .max 0 ∧ sends (.atomAnd h ty mo d addr b) .and 0 ∧
      sends (.atomOr h ty mo d addr b) .or 0 ∧ sends (.atomXor h ty mo d addr b) .xor 0 ∧
      sends (.atomSwap h ty mo d addr b) .swap 0) ∧
    (s.Issues t h [numG d, numG addr.base, numG b, numG c] → sends (.atomCas h ty mo d addr b c) .cas (t.getG c))) ∧
  (∀ (s : State) (th tile : Nat) (t : Thread) (o : Outstanding) (rest : List Outstanding) (p : Part) (d : GReg) (op : AtomOp)
    (ty : Ty) (b c : BitVec 64),
    s.thread? th = some t → t.outs = o :: rest → t.park ≠ .pendread → s.mayBind th t o = true → o.parts = [p] →
    o.dst = BitVec.ofNat 6 (numG d) → o.kind = .atom op ty b c → o.log = none → o.stopped = false →
    s.coh.carries = [] → s.coh.collapses = [] → p.place = .stash tile → p.cls = .u →
    p.len = atomBytes ty → p.pa < 2 ^ 20 → p.pa % atomBytes ty = 0 →
    s.stash.poison.contains (stashLine tile p.pa) = false →
    ty.isAtomInt = true ∨ (op = .add ∧ (ty = .f32 ∨ ty = .bf16)) →
    let w := 8 * atomBytes ty
    let old := lineNat (s.stashData tile p.pa) (p.pa % 128) p.len
    let x := valOf ty (BitVec.ofNat 64 old)
    let y := valOf ty b
    let fsum (f : Fmt) (u v : Nat) : Nat := f.rne ((f.value u).add .rne (f.value v))
    let new := match op with
      | .add => match ty with
        | .f32 => fsum .f32 old (b.toNat % 2 ^ 32)
        | .bf16 => fsum .bf16 (old % 2 ^ 16) (b.toNat % 2 ^ 16) +
            2 ^ 16 * fsum .bf16 (old / 2 ^ 16) (b.toNat / 2 ^ 16 % 2 ^ 16)
        | _ => ((x + y) % 2 ^ w).toNat
      | .min => if y < x then b.toNat % 2 ^ w else old
      | .max => if x < y then b.toNat % 2 ^ w else old
      | .and => old &&& (b.toNat % 2 ^ w)
      | .or => old ||| (b.toNat % 2 ^ w)
      | .xor => old ^^^ (b.toNat % 2 ^ w)
      | .swap => b.toNat % 2 ^ w
      | .cas => if old = b.toNat % 2 ^ w then c.toNat % 2 ^ w else old
    let base := 2 ^ 20 * tile + p.pa
    ∃ z f, exec (.variableLatencyResult th o.dst.toNat) s = .next z ∧
      z.thread? th = some { t.setG d (if ty.isInt then extOf ty old else BitVec.ofNat 64 old) with
        outs := rest, pend := t.pend &&& ~~~(1#64 <<< o.dst.toNat), fences := f } ∧
      lineNat (z.stashData tile p.pa) (p.pa % 128) p.len = new ∧
      (∀ a, a < base ∨ base + p.len ≤ a → cellRead z.stash.cells a = cellRead s.stash.cells a) ∧ z.mem = s.mem ∧
      s.OtherThreads z th)

/-- R388, R390, R391, R252: Where its issue checks pass, for a task that is not provisional and a counter off T pages,
reached through a cached translation or an aperture and not poisoned, ctradd completes with its addition in flight
as a release of its scope, ctrread with gD pending on the count as an acquire, and ctrarrive with gD pending on the
arrival as a release. Performed on a stash, the addition leaves min(old + delta, 2^64 - 1); a bound ctrread delivers
the count; a bound arrival leaves the count plus one, saturated, with the lane combined (FP32 maximum, signed
maximum or FP32 sum rounded by RNE), and delivers the new count. A counter on a T page traps with PROT reason 1. -/
def Obligations.Counters : Prop :=
  (∀ (s : State) (t : Thread) (h : Hdr) (ty : Ty) (scope : Scope) (addr : Addr) (d b : GReg) (l : Located),
    s.provisional t = false → s.partPoisoned (t.who s.focus) l.part = false → l.walk = none →
    let va := t.addr addr
    let sends (i : Instr) (k : OutKind) (acq rel : Option Scope) : Prop :=
      let o : Outstanding :=
        { dst := BitVec.ofNat 6 (numG d), kind := k, parts := [l.part], acq := acq, rel := rel,
          seq := t.seq, pc := t.pc, word := s.wordOf t, hint := h.ch, sc := false, log := none }
      let after : Thread := { (t.noteOuts rel).addOut o with seq := t.seq + 1, remote := [] }
      ∃ u : State, exec i s = .next u ∧ u = { s.noteStores s.focus rel with threads := u.threads } ∧ s.SameBytes u ∧
        s.OtherThreads u s.focus ∧
        u.thread? s.focus = some { after.advance addr.len with park := .run, lastIssue := s.cycle }
    let denied : Trap := { Trap.protAt .atomic va 1 with leaf := some (l.part.cls, l.part.key) }
    (va % 8 = 0 → s.locateAll (t.who s.focus) .atomic [(va, 8)] = .ok [l] →
      (l.part.cls = .t → l.part.remote = false → t.outs.length < 16 → s.Issues t h [numG d, numG addr.base, numG b] →
        exec (.ctradd h scope addr b) s = .next (s.trap s.focus denied) ∧
        exec (.ctrread h scope d addr) s = .next (s.trap s.focus denied)) ∧
      (l.part.cls ≠ .t →
        (s.Issues t h [numG addr.base, numG b] → t.spec = false →
          ∃ (u : State) (x : PendStore), exec (.ctradd h scope addr b) s = .next u ∧
            u.stores = (s.noteStores s.focus (some scope)).stores ++ [x] ∧ x.agent = .thread s.focus ∧
            x.part = l.part ∧ x.op = .ctradd ∧ x.data = (t.getG b).setWidth 1024 ∧ x.rel = some scope ∧ s.SameBytes u ∧
            u.thread? s.focus = some { (t.noteOuts (some scope)).advance addr.len with
              seq := t.seq + 1, remote := [], park := .run, lastIssue := s.cycle }) ∧
        (s.Issues t h [numG d, numG addr.base] → t.outs.length < 16 →
          sends (.ctrread h scope d addr) .ctrRead (some scope) none))) ∧
    (va % 16 = 0 → s.locateAll (t.who s.focus) .atomic [(va, 16)] = .ok [l] → l.part.cls ≠ .t → t.outs.length < 16 →
      s.Issues t h [numG d, numG addr.base, numG b] →
      sends (.ctrarriveMax h ty scope d addr b) (.ctrArrive true ty (t.getG b)) none (some scope) ∧
      sends (.ctrarriveSum h scope d addr b) (.ctrArrive false .f32 (t.getG b)) none (some scope))) ∧
  (∀ (s : State) (th tile n : Nat) (x : PendStore), s.stores.find? (fun y => y.id == n) = some x → x.agent = .thread th →
    s.mayPerform x = true → x.op = .ctradd → x.part.place = .stash tile → x.part.cls = .u → x.cls = .u → x.part.len = 8 →
    x.stopped = false → x.answer = false → x.twin = none →
    x.part.pa < 2 ^ 20 → x.part.pa % 8 = 0 → x.data.toNat < 2 ^ 64 →
    s.stash.poison.contains (stashLine tile x.part.pa) = false →
    let count (u : State) := lineNat (u.stashData tile x.part.pa) (x.part.pa % 128) 8
    let base := 2 ^ 20 * tile + x.part.pa
    ∃ u : State, exec (.storeAtHome n) s = .next u ∧ count u = Nat.min (count s + x.data.toNat) (2 ^ 64 - 1) ∧
      (∀ a, a < base ∨ base + 8 ≤ a → cellRead u.stash.cells a = cellRead s.stash.cells a) ∧ u.mem = s.mem ∧
      u.threads = s.threads) ∧
  (∀ (s : State) (th tile : Nat) (t : Thread) (o : Outstanding) (rest : List Outstanding) (p : Part) (d : GReg),
    s.thread? th = some t → t.outs = o :: rest → t.park ≠ .pendread → s.mayBind th t o = true → o.parts = [p] →
    o.dst = BitVec.ofNat 6 (numG d) → o.log = none → o.stopped = false →
    s.coh.carries = [] → s.coh.collapses = [] → p.place = .stash tile → p.cls = .u → p.pa < 2 ^ 20 →
    s.stash.poison.contains (stashLine tile p.pa) = false →
    let here (u : State) := lineNat (u.stashData tile p.pa) (p.pa % 128) p.len
    let count := here s % 2 ^ 64
    let lane := here s / 2 ^ 64
    let base := 2 ^ 20 * tile + p.pa
    let done (z : State) (v : Nat) : Prop := exec (.variableLatencyResult th o.dst.toNat) s = .next z ∧
      (∃ f, z.thread? th = some { t.setG d (BitVec.ofNat 64 v) with
        outs := rest, pend := t.pend &&& ~~~(1#64 <<< o.dst.toNat), fences := f }) ∧ z.mem = s.mem ∧ s.OtherThreads z th
    (o.kind = .ctrRead → p.len = 8 → ∃ z, done z count ∧ s.SameBytes z) ∧
    (∀ (mx : Bool) (ty : Ty) (b : BitVec 64), o.kind = .ctrArrive mx ty b → p.len = 16 → p.pa % 16 = 0 →
      ∃ z, done z (Nat.min (count + 1) (2 ^ 64 - 1)) ∧
        here z % 2 ^ 64 = Nat.min (count + 1) (2 ^ 64 - 1) ∧
        here z / 2 ^ 64 = (if mx = true ∧ ty ≠ .f32 then
            (if signedOf 64 lane < b.toInt then b.toNat else lane)
          else
            let u := Fmt.f32.value (lane % 2 ^ 32)
            let v := Fmt.f32.value (b.toNat % 2 ^ 32)
            Fmt.f32.rne (if mx then u.max v else u.add .rne v)) ∧
        ∀ a, a < base ∨ base + 16 ≤ a → cellRead z.stash.cells a = cellRead s.stash.cells a))

/-- R392, R393: For a counter of a stash that nothing of the thread touches, where the issue checks pass and no replay
runs, ctrwait completes at once: with gD = 2 and gE = 0 when the counter's line is poisoned, with gD = 0 and gE =
the lane of an aligned pair (0 otherwise) when the count has reached the target, with gD = 1 and gE = 0 when it has
not and the time is 0; otherwise both destinations pend and the thread holds a wait-table entry. CTRWAIT_NOTIFY ends
a wait whose condition holds and leaves the others, CTRWAIT_TIMEOUT ends one whose time is over with 1, and
CTRWAIT_POLL doubles the interval of a thread without an entry or, past 8,192 cycles, ends with 3. Memory stays. -/
def Obligations.CounterWaits : Prop :=
  (∀ (s : State) (t : Thread) (h : Hdr) (scope : Scope) (d e : GReg) (addr : Addr) (b c : GReg) (l : Located) (tile : Nat),
    s.Issues t h [numG d, numG e, numG addr.base, numG b, numG c] → s.provisional t = false → t.outs = [] →
    s.storesOf s.focus = [] → s.coh.carries = [] → (∀ k, t.task = some k → s.itinMode k.run = none) →
    s.reachCtr (t.who s.focus) (t.addr addr) 8 8 = .ok l → l.walk = none → l.part.place = .stash tile → l.part.cls = .u →
    s.fenced tile = false →
    let pair := l.part.va % 16 = 0
    let count := lineNat (s.stashData tile l.part.pa) (l.part.pa % 128) 8
    let lane := if pair then lineNat (s.stashData tile l.part.pa) (l.part.pa % 128) 16 / 2 ^ 64 else 0
    let target := (t.getG b).toNat
    let i := Instr.ctrwait h scope d e addr b c
    let t' : Thread := { t with seq := t.seq + 1, remote := [] }
    (s.partPoisoned (t.who s.focus) l.part = true → s.Ends i addr.len ((t.setG e 0).setG d 2)) ∧
    (s.partPoisoned (t.who s.focus) l.part = false →
      (target ≤ count → s.Ends i addr.len ((t'.setG e (BitVec.ofNat 64 lane)).setG d 0)) ∧
      (count < target → t.getG c = 0 → s.Ends i addr.len ((t'.setG e 0).setG d 1)) ∧
      (count < target → t.getG c ≠ 0 → s.waitEntries (tileOf s.focus) < 64 →
        s.Becomes i { (t'.setPend (numG d)).setPend (numG e) with
          park := .ctrwait d e l.part (t.getG b) (t.getG c).toNat 0 0 scope addr.len }))) ∧
  (∀ (s : State) (t : Thread) (th tile : Nat) (scope : Scope) (d e : GReg) (p : Part) (target : BitVec 64)
    (left poll wait len : Nat),
    s.thread? th = some t → t.park = .ctrwait d e p target left poll wait scope len → t.outs = [] → s.storesOf th = [] →
    (∀ k, t.task = some k → s.itinMode k.run = none) → p.place = .stash tile → p.cls = .u → s.fenced tile = false →
    s.partPoisoned (t.who th) p = false → s.coh.carries = [] → s.halted (tileOf th) = false → s.fatal = false →
    let count := lineNat (s.stashData tile p.pa) (p.pa % 128) 8
    let lane := if p.va % 16 = 0 then lineNat (s.stashData tile p.pa) (p.pa % 128) 16 / 2 ^ 64 else 0
    let ends (i : Instr) (code v : Nat) : Prop := ∃ u : State, exec i s = .next u ∧ s.OtherThreads u th ∧ s.SameBytes u ∧
      u.thread? th = some { ((((t.clearPend (numG d)).clearPend (numG e)).setG e (BitVec.ofNat 64 v)).setG d
        (BitVec.ofNat 64 code)).advance len with park := .run, lastIssue := s.cycle }
    (poll = 0 → (target.toNat ≤ count → ends (.ctrwaitNotify th) 0 lane) ∧
      (count < target.toNat → exec (.ctrwaitNotify th) s = .next s)) ∧
    (left = 0 → poll = 0 → (target.toNat ≤ count → ends (.ctrwaitTimeout th) 0 lane) ∧
      (count < target.toNat → ends (.ctrwaitTimeout th) 1 0)) ∧
    (poll ≠ 0 → wait = 0 → (target.toNat ≤ count → ends (.ctrwaitPoll th) 0 lane) ∧
      (count < target.toNat → 8192 < 2 * poll → ends (.ctrwaitPoll th) 3 0) ∧
      (count < target.toNat → 2 * poll ≤ 8192 → ∃ u : State, exec (.ctrwaitPoll th) s = .next u ∧
        u.thread? th = some { t with park := .ctrwait d e p target left (2 * poll) (2 * poll) scope len } ∧ s.SameBytes u)))

/-- R249, R253, R394: Where the issue checks pass and the tile holds no modified mapped line, fence completes with its place
among the thread's accesses noted, as soon as the thread has no store and no operation that writes in flight (and, for scope
.dev or wider, no collapse charged to it) and, for a .sc fence, its turn in S has come: the window of 16 cycles in which it took
its place has ended, and no operation earlier in S, by window, core and program order, is still to be performed; it then leaves
S. Until then the thread parks for its scope, which for a .sc fence is .dev at least, with its place in S kept. While a load
earlier than a noted fence is outstanding, no access later than the fence may be bound or performed. Memory stays. How the
fences of two slots of one core stand in S is the model's choice (log entry 71). -/
def Obligations.Fences : Prop :=
  (∀ (s : State) (t : Thread) (h : Hdr) (sc : Bool) (scope : Scope), s.Issues t h [] →
    (∀ l ∈ s.stash.lines, l.tile = tileOf s.focus → l.dirty = false) →
    (sc = false → ∀ o ∈ s.scOps, ¬(o.th = s.focus ∧ o.seq = t.seq)) →
    let sco : Scope := if sc = true ∧ scope ≠ .sys then .dev else scope
    let z : State := if sc then s.enterS s.focus t.seq else s
    let open_ := s.storesOf s.focus ≠ [] ∨ (∃ o ∈ t.outs, o.isMem = true ∧ o.isRmw = true) ∨
      ((sco = .dev ∨ sco = .sys) ∧ s.charged (.thread s.focus) = true) ∨ z.turnInS s.focus t.seq = false
    (¬open_ →
      let met := t.seen.filter fun c => c.meets sco s.focus
      let u := ((z.leaveS s.focus t.seq).noteStores s.focus (some sco)).takeCarries (.thread s.focus) met
      exec (.fence h sc scope) s = .next (u.setThread s.focus
        { t.advance 8 with fences := t.fences ++ [t.seq], seq := t.seq + 1, park := .run, lastIssue := s.cycle,
                           seen := t.seen.filter (fun c => s.carryDue c && !c.meets sco s.focus),
                           fenceScope := some (match t.fenceScope with
                             | some f => if scopeNum sco < scopeNum f then f else sco
                             | none => sco) }) ∧
      s.SameBytes u) ∧
    (open_ → exec (.fence h sc scope) s = .next (z.setThread s.focus { t with park := .stores sco })) ∧
    (∀ o, z.scOps.find? (fun o => o.th == s.focus && o.seq == t.seq) = some o →
      (z.turnInS s.focus t.seq = true ↔ o.window < s.cycle / 16 ∧ ∀ x ∈ z.scOps, ¬(x.window < o.window ∨
        x.window = o.window ∧ (x.th < o.th ∨ x.th = o.th ∧ x.seq < o.seq)))) ∧
    (sc = false → z.turnInS s.focus t.seq = true)) ∧
  (∀ (s : State) (t : Thread) (th f : Nat) (o p : Outstanding) (x : PendStore), s.thread? th = some t → f ∈ t.fences →
    o ∈ t.outs → o.parts ≠ [] → o.seq < f →
    (f ≤ p.seq → p.parts ≠ [] → s.mayBind th t p = false) ∧
    (f ≤ x.seq → x.agent = .thread th → s.mayPerform x = false))

/-- R200, R406, R407, R408: Where the issue checks pass and the task is not provisional, stashmap with aligned operands
completes with one mapping more, of the thread's tile and run, under an index no other mapping of the tile has, and no byte
changed; it traps with ALIGN for a misaligned operand and with ILLOP for an aperture address, an offset or a count out of range,
a range that meets another mapping's, or a full table. Once the thread's stores are performed, stashunmap of a mapped base
completes without that mapping and without its lines, and of any other address traps with ILLOP; stashflush completes with a
modified line of the range home in device memory and clean, and with no byte changed where no line of the tile is modified.
Where a service slot makes the mapping, its run tag is the model's choice (log entry 14), and so is which index of the tile's 64
is taken (log entry 22). -/
def Obligations.StashMappings : Prop :=
  (∀ (s : State) (t : Thread) (h : Hdr) (upd : Bool) (a b : GReg) (c : Src32),
    s.Issues t h ([numG a, numG b] ++ numSrc32 c) → s.provisional t = false →
    let tile := s.focus / 64
    let va := (t.getG a).toNat
    let off := (t.getG b).toNat
    let n := match c with | .reg r => (t.getG r).toNat | .imm v => (v.signExtend 64).toNat
    let run := match t.task with | some k => k.run | none => 16
    let i := Instr.stashmap h upd a b c
    let meets (x n y m : Nat) : Prop := x < y + m ∧ y < x + n
    let bad : Prop := 0xFD ≤ va / 2 ^ 48 % 2 ^ 8 ∨ 2 ^ 20 ≤ off ∨ n = 0 ∨ 256 < n ∨ 2 ^ 20 < off + 4096 * n ∨
      (∃ m ∈ s.stash.maps, m.tile = tile ∧ (meets m.soff (4096 * m.pages) off (4096 * n) ∨
        (m.run = run ∧ meets m.vbase (4096 * m.pages) (va % 2 ^ 56) (4096 * n)))) ∨
      s.inRing tile off (4096 * n) = true ∨ 64 ≤ (s.stash.maps.filter fun m => m.tile == tile).length
    (va % 4096 ≠ 0 ∨ off % 4096 ≠ 0 → exec i s = .next (s.trap s.focus (.at .align .none (va % 2 ^ 56)))) ∧
    (va % 4096 = 0 → off % 4096 = 0 →
      (bad → exec i s = .next (s.trap s.focus (.plain .illop))) ∧
      (¬bad → ∃ (u : State) (m : Mapping), exec i s = .next u ∧ u.stash.maps = s.stash.maps ++ [m] ∧
        m.tile = tile ∧ m.run = run ∧ m.vbase = va % 2 ^ 56 ∧ m.pages = n ∧ m.soff = off ∧ m.upd = upd ∧
        (∀ x ∈ s.stash.maps, x.tile = tile → x.idx ≠ m.idx) ∧ s.SameBytes u ∧ s.OtherThreads u s.focus ∧
        u.thread? s.focus = some { t.advance c.len with park := .run, lastIssue := s.cycle }))) ∧
  (∀ (s : State) (t : Thread) (h : Hdr) (addr : Addr) (b : GReg), s.provisional t = false → s.storesOf s.focus = [] →
    (∀ o ∈ t.outs, o.isMem = true → o.isRmw = false) →
    let tile := s.focus / 64
    let run := match t.task with | some k => k.run | none => 16
    let ended : Thread := { t.advance addr.len with park := .run, lastIssue := s.cycle }
    (s.Issues t h [numG addr.base] →
      (∀ m, s.stash.maps.find? (fun m => m.tile == tile && m.run == run && m.vbase == t.addr addr) = some m →
        (∀ l ∈ s.stash.lines, l.off % 128 = 0 ∧ (l.tile = tile → l.dirty = false)) →
        ∃ u : State, exec (.stashunmap h addr) s = .next u ∧ u.thread? s.focus = some ended ∧
          u.stash.maps = s.stash.maps.filter (fun x => !(x.tile == tile && x.idx == m.idx)) ∧
          (∀ l ∈ u.stash.lines, ¬(l.tile = tile ∧ m.soff ≤ l.off ∧ l.off < m.soff + 4096 * m.pages)) ∧ s.SameBytes u) ∧
      ((∀ m ∈ s.stash.maps, ¬(m.tile = tile ∧ m.run = run ∧ m.vbase = t.addr addr)) →
        exec (.stashunmap h addr) s = .next (s.trap s.focus (.plain .illop)))) ∧
    (s.Issues t h [numG addr.base, numG b] →
      ((∀ l ∈ s.stash.lines, l.tile = tile → l.dirty = false) → s.Becomes (.stashflush h addr b) ended) ∧
      (∀ (m : Mapping) (l : MapLine), s.stash.maps = [m] → m.tile = tile → m.run = run → s.stash.lines = [l] →
        l.tile = tile → l.dirty = true → l.off % 128 = 0 → l.off < 2 ^ 20 → m.soff ≤ l.off → l.off < m.soff + 4096 * m.pages →
        t.addr addr ≤ m.vbase + (l.off - m.soff) → m.vbase + (l.off - m.soff) < t.addr addr + (t.getG b).toNat →
        s.coh = State.reset.coh → s.backed (l.pa * 128) = true → s.isSystem (l.pa * 128) = false →
        Sparse.get? s.mem.chip l.pa = none →
        ∃ u : State, exec (.stashflush h addr b) s = .next u ∧ u.thread? s.focus = some ended ∧
          u.lineAt l.pa l.key = s.stashData tile l.off ∧ u.stash.lines = [{ l with dirty := false, by_ := [], held := [] }] ∧
          (h.ch ≠ 4 → ∀ other key, other ≠ l.pa → u.lineAt other key = s.lineAt other key) ∧ u.stash.cells = s.stash.cells)))

/-- R398, R399, R400, R401, R402, R403, R100, R112, R122: For an assured creator with no result pending and no store in
flight: task with no hint or a TILE hint puts the child it names, with its arguments, TS and identity, into the
queue of its own or the named tile, or waits while that queue is full; it traps with TSORDER for a TS before its
own. tgrid of a one-tile mask puts a grid record with the whole division into that Lodge, a grid of no task nothing,
and a reserved bit traps with ILLOP. depart to a stash line of its own tile puts the continuation with all 16
registers there and frees the slot, tend frees it and the timestamp counts as ended. tend of a speculative task
keeps its entry, as finished in this cycle. mswait ends for a task that is not provisional and parks a provisional one. A service
slot traps with ILLOP. No byte of memory changes. -/
def Obligations.TaskCreation : Prop :=
  (∀ (s : State) (t : Thread) (k : Task) (h : Hdr) (sp : Bool) (n : BitVec 4) (b c e : GReg) (func : Src32),
    s.IssuesMarked t h → t.task = some k → k.spec = false → t.outs = [] → s.storesOf s.focus = [] →
    s.charged (.thread s.focus) = false → (∀ l ∈ s.stash.lines, l.tile = tileOf s.focus → l.dirty = false) →
    let ended : Thread := { t.advance func.len with park := .run, lastIssue := s.cycle, remote := [] }
    let target : BitVec 56 := match func with | .reg r => (t.getG r).setWidth 56 | .imm v => t.pc + v.signExtend 56
    let child (hm : HMode) (hint : BitVec 64) : Task :=
      { func := target, ts := t.getG b, tb := 0, hasTb := !sp,
        floor := if sp = true ∧ t.getG b = k.ts then ⟨k.ts, 0⟩ else ⟨0, 0⟩, spec := sp, hmode := hm, hint := hint,
        nargs := n.toNat, args := (List.range n.toNat).map (fun i => t.getG (e + BitVec.ofNat 4 i)), run := k.run,
        aborts := 0, mw := false, parent := none, ident := ⟨⟨0, 0, 0⟩, ⟨1, 1, 1⟩, ⟨0, 0, 0⟩, ⟨1, 1, 1⟩⟩, launch := k.launch,
        hintLine := 0, unseen := 0 }
    ((t.getG b).toNat < k.ts.toNat → ∀ hm, exec (.task h sp hm n b c e func) s = .next (s.trap s.focus (.plain .tsorder))) ∧
    (k.ts.toNat ≤ (t.getG b).toNat → ∀ hm tile hint,
      (hm = .none ∧ tile = tileOf s.focus ∧ hint = 0) ∨ (hm = .tile ∧ tile = (t.getG c).toNat % 256 ∧ hint = t.getG c) →
      s.mayHold k.launch tile = true → (∀ x ∈ s.sent, x.tile ≠ tile) →
      ((s.lodge tile).queue.length < 256 → ∃ u : State, exec (.task h sp hm n b c e func) s = .next u ∧
        u.thread? s.focus = some ended ∧ (u.lodge tile).queue = (s.lodge tile).queue ++ [child hm hint] ∧
        (∀ o, o ≠ tile → u.lodge o = s.lodge o) ∧ s.SameBytes u ∧ s.OtherThreads u s.focus) ∧
      (256 ≤ (s.lodge tile).queue.length → ∃ (u : State) (id : Nat), exec (.task h sp hm n b c e func) s = .next u ∧
        u.thread? s.focus = some { t with park := .send id func.len false } ∧ u.lodges = s.lodges ∧
        ∃ x ∈ u.sent, x.id = id ∧ x.tile = tile ∧ x.task = child hm hint))) ∧
  (∀ (s : State) (t : Thread) (k : Task) (h : Hdr) (n : BitVec 4) (b c e : GReg) (func : Src32) (p : Part) (own : Nat),
    s.IssuesMarked t h → t.task = some k → k.spec = false → s.storesOf s.focus = [] → s.charged (.thread s.focus) = false →
    (∀ l ∈ s.stash.lines, l.tile = tileOf s.focus → l.dirty = false) → t.outs = [] → t.fences = [] → s.coh.carries = [] →
    (∀ x, t.park ≠ .grid x) →
    s.reach (t.who s.focus) .read ((t.getG c).toNat % 2 ^ 56) 64 64 = .ok [⟨p, none⟩] → p.place = .stash own → p.cls = .u →
    p.len = 64 →
    let x := lineNat (s.stashData own p.pa) (p.pa % 128) 64
    let half (i : Nat) := x / 2 ^ (32 * i) % 2 ^ 32
    let sub (i : Nat) := x / 2 ^ (352 + 16 * i) % 2 ^ 16
    let nd := x / 2 ^ 400 % 4
    let ext (i : Nat) := if i < nd then half (8 + i) else 1
    let shape (i : Nat) := if i < nd then sub i else 1
    let dim (i : Nat) := (ext i + shape i - 1) / shape i
    let count := dim 0 * dim 1 * dim 2
    let ended : Thread := { t.advance func.len with park := .run, lastIssue := s.cycle, remote := [] }
    let target : BitVec 56 := match func with | .reg r => (t.getG r).setWidth 56 | .imm v => t.pc + v.signExtend 56
    let tiles := s.gridTiles k.launch (BitVec.ofNat 256 x)
    let bad : Prop := x / 2 ^ 402 ≠ 0 ∨ nd = 0 ∨ (∃ i < 3, i < nd ∧ sub i = 0) ∨
      (∃ i < 3, nd ≤ i ∧ (half (8 + i) ≠ 0 ∨ sub i ≠ 0)) ∨ 2 ^ 48 ≤ count ∨ tiles = []
    (bad → exec (.tgrid h n b c e func) s = .next (s.trap s.focus (.plain .illop))) ∧
    (¬bad → k.ts.toNat ≤ (t.getG b).toNat →
      (count = 0 → s.Becomes (.tgrid h n b c e func) ended) ∧
      (∀ tile, count ≠ 0 → tiles = [tile] → (s.lodge tile).grids.length < 16 →
        ∃ u : State, exec (.tgrid h n b c e func) s = .next u ∧ u.thread? s.focus = some ended ∧ s.SameBytes u ∧
          (u.lodge tile).grids = (s.lodge tile).grids ++
            [{ func := target, ts := t.getG b, ext := [ext 0, ext 1, ext 2], sub := [shape 0, shape 1, shape 2],
               dims := [dim 0, dim 1, dim 2], next := 0, stop := count, nargs := n.toNat,
               args := (List.range n.toNat).map (fun i => t.getG (e + BitVec.ofNat 4 i)), run := k.run,
               launch := k.launch, parent := none, tile := tile, launchUnit := false }]))) ∧
  (∀ (s : State) (t : Thread) (k : Task) (h : Hdr) (a : GReg) (func : Src32), s.IssuesMarked t h → t.task = some k →
    t.outs = [] → s.storesOf s.focus = [] → s.charged (.thread s.focus) = false →
    (∀ l ∈ s.stash.lines, l.tile = tileOf s.focus → l.dirty = false) →
    (k.spec = false →
      (∃ u : State, exec (.tend h) s = .next u ∧ u.thread? s.focus = none ∧ k.ts ∈ (u.run k.run).ended ∧ s.SameBytes u ∧
        s.OtherThreads u s.focus) ∧
      (∀ off : Nat, (t.getG a).toNat % 2 ^ 56 = 0xFF * 2 ^ 48 + off → off < 2 ^ 20 → s.mayHold k.launch (tileOf s.focus) = true →
        (s.lodge (tileOf s.focus)).queue.length < 256 → (∀ x ∈ s.sent, x.tile ≠ tileOf s.focus) →
        ∃ (u : State) (x : Task), exec (.depart h a func) s = .next u ∧ u.thread? s.focus = none ∧ k.ts ∈ (u.run k.run).ended ∧
          (u.lodge (tileOf s.focus)).queue = (s.lodge (tileOf s.focus)).queue ++ [x] ∧ x.ts = k.ts ∧ x.spec = false ∧
          x.func = (match func with | .reg r => (t.getG r).setWidth 56 | .imm v => t.pc + v.signExtend 56) ∧
          x.args = (List.range 16).map (fun i => t.getG (BitVec.ofNat 4 i)) ∧ x.nargs = 16 ∧ x.ident = k.ident ∧
          s.SameBytes u)) ∧
    (∀ m x, k.spec = true → t.entry = some m → Sparse.get? (s.lodge (tileOf s.focus)).cq m = some x →
      ∃ u : State, exec (.tend h) s = .next u ∧ u.thread? s.focus = none ∧ s.SameBytes u ∧
        Sparse.get? (u.lodge (tileOf s.focus)).cq m = some { x with finished := true, th := none, doneAt := s.cycle })) ∧
  (∀ (s : State) (t : Thread) (h : Hdr), s.Issues t h [] → t.task ≠ none →
    (s.provisional t = false → s.Ends (.mswait h) 8 t) ∧
    (s.provisional t = true → s.Becomes (.mswait h) { t with park := .earliest })) ∧
  (∀ (s : State) (t : Thread) (h : Hdr) (sp : Bool) (hm : HMode) (n : BitVec 4) (a b c e : GReg) (func : Src32) (i : Instr),
    s.thread? s.focus = some t → t.task = none →
    i ∈ [.task h sp hm n b c e func, .tgrid h n b c e func, .depart h a func, .tend h, .mswait h] →
    exec i s = .next (s.trap s.focus (.plain .illop)))

/-- R204, R205, R206, R412, R413, R421, R429, R439, R440, R441: Where the issue checks pass, for a task that is not provisional
and whose earlier loads are bound and stores performed, each Porter instruction within the limits of R412 and each matrix
instruction within those of R429 completes while its queue has room and no other thread of the tile waits to enter: the job
stands last in the queue with its latched operands and no progress, gD holds its id, and no byte of memory changes; outside the
limits of R412, and for a matrix form that needs a register past g15, it traps with ILLOP. With a full queue the thread parks
offering the job, and ENGINE_QUEUE_ACCEPT enters it once there is room. jwait ends with the status when the job is not live, the
thread then waiting for the collapses that the tile's engines wait for, and parks otherwise; jpoll, which every later access of
the thread follows, delivers whether it is not live. That jwait's thread is charged with the collapses of its tile's engines is
the model's reading of R251 and R254 (log entry 72). -/
def Obligations.EngineIssue : Prop :=
  (∀ (s : State) (t : Thread) (h : Hdr) (urg : Bool) (op : RowOp) (ty : Ty) (ctl rows : BitVec 32) (mask : BitVec 8)
    (tag : BitVec 16) (d a b c e : GReg),
    s.provisional t = false → (∀ o ∈ t.outs, o.parts = []) → s.storesOf s.focus = [] →
    let tile := s.focus / 64
    let lane := if urg then 1 else 0
    let ctrs := (if ctl.getLsbD 3 then [numG e] else []) ++ if ctl.getLsbD 7 then [numG (e + 1)] else []
    let base := 2 ^ 15 + 2 ^ 14 * lane
    let id := base + ((s.engine tile).pcount.getD lane 0) % 2 ^ 14
    let queue (u : State) := (u.engine tile).lanes.getD lane []
    let free := (s.engine tile).lanes.length = 2 ∧ (queue s).length < 32 ∧ s.idHeld tile id = false ∧
      ∀ x ∈ s.threads, x.1 / 64 = tile → x.1 ≠ s.focus → x.2.park.offers (lane + 1) = false
    let full := 32 ≤ (queue s).length
    let latched (j : PorterJob) (i : Instr) : Prop := j.ins = i ∧ j.dst = t.getG a ∧ j.src = t.getG b ∧ j.cval = t.getG c ∧
      j.count = t.getG (c + 1) ∧ j.dctr = t.getG e ∧ j.sctr = t.getG (e + 1) ∧ j.th = s.focus ∧ j.key = t.key ∧
      j.progress = 0 ∧ j.srcBumped = false
    let enters (i : Instr) (ns : List Nat) (ok : Prop) : Prop := s.Issues t h ([numG d, numG a, numG b, numG c] ++ ns ++ ctrs) →
      (¬ok → exec i s = .next (s.trap s.focus (.plain .illop))) ∧
      (ok → free → ∃ (u : State) (j : PorterJob), exec i s = .next u ∧ queue u = queue s ++ [j] ∧ j.id = id ∧ latched j i ∧ s.SameBytes u ∧
        s.OtherThreads u s.focus ∧ u.thread? s.focus = some
          { (t.setG d (BitVec.ofNat 64 id)).advance 16 with park := .run, lastIssue := s.cycle, remote := [], seq := t.seq + 1 }) ∧
      (ok → full → ∃ j, latched j i ∧ s.Becomes i { t with park := .offer (lane + 1) (.porter j) d 16 })
    let own (r : GReg) := (t.getG r).toNat / 2 ^ 48 % 2 ^ 8 = 0xFF
    let short := (t.getG c).toNat < 2 ^ 40
    let listed := (t.getG (c + 1)).toNat < 2 ^ 32 ∧ rows ≠ 0 ∧ rows.toNat ≤ 2 ^ 20
    enters (.prpush h urg ctl d a b c e) [] (short ∧ own b) ∧ enters (.prget h urg ctl d a b c e) [] (short ∧ own a) ∧
    enters (.prcopy h urg ctl d a b c e) [] short ∧ enters (.prfill h urg ctl d a b c e) [] short ∧
    enters (.prgath h urg ctl rows d a b c e) [numG (c + 1)] listed ∧
    (ty = .none ∨ ty = .bf16 ∨ ty = .f32 → enters (.prscat h urg ty ctl rows d a b c e) [numG (c + 1)]
      (listed ∧ (ty ≠ .none → rows.toNat % (ty.fixedWidth / 8) = 0))) ∧
    enters (.prrow h urg op ty ctl mask tag d a b c e) []
      (short ∧ (op = .merge → (t.getG c).toNat % 2 = 0) ∧ mask.getLsbD (tile % 8) = true)) ∧
  (∀ (s : State) (t : Thread) (h : Hdr) (tc : Ty) (ctl ldc : BitVec 32) (d a b c e : GReg) (i : Instr) (p : MatSpec)
    (va vb : BitVec 64),
    (i = .mma h tc ctl ldc d a b c e ∨ i = .mmaq h tc ctl ldc d a b c e ∨ i = .mmab h tc ctl ldc d a b c e) ∧
        va = t.getG a ∧ vb = t.getG b ∨
      (i = .accld h tc ctl ldc d c e ∨ i = .accst h tc ctl ldc d c e) ∧ a = 0 ∧ b = 0 ∧ va = 0 ∧ vb = 0 →
    matSpec i = some p → s.provisional t = false → (∀ o ∈ t.outs, o.parts = []) → s.storesOf s.focus = [] →
    let tile := s.focus / 64
    let ab := if p.multiplies then [numG a, numG b] ++ (if e.toNat = 15 then [] else [numG (e + 1)]) else []
    s.Issues t h ([numG d, numG e] ++ ab ++ (if p.usesC then [numG c] else []) ++
      (if p.ctr = true ∧ e.toNat ≤ 13 then [numG (e + 2)] else [])) →
    let id := (s.engine tile).mcount % 2 ^ 15
    (e.toNat = 15 ∨ (p.ctr = true ∧ e.toNat = 14) → exec i s = .next (s.trap s.focus (.plain .illop))) ∧
    (e.toNat ≤ 13 ∨ (e.toNat = 14 ∧ p.ctr = false) → p.refused c (t.getG e) (if p.multiplies then t.getG (e + 1) else 0) t.mq t.fmt = false →
      misaligned (p.bases (t.getG a) (t.getG b) (t.getG c) t.mq t.fmt) = none → (s.engine tile).mq.length < 16 →
      s.idHeld tile id = false →
      (∀ x ∈ s.threads, x.1 / 64 = tile → x.1 ≠ s.focus → x.2.park.offers 0 = false) →
      ∃ (u : State) (j : MatrixJob), exec i s = .next u ∧ (u.engine tile).mq = (s.engine tile).mq ++ [j] ∧ j.id = id ∧ j.ins = i ∧ j.aval = va ∧
        j.bval = vb ∧ j.dims = t.getG e ∧ j.mq = t.mq ∧ j.fmt = t.fmt ∧ j.rp = 0 ∧ j.started = false ∧ j.th = s.focus ∧
        s.SameBytes u ∧ s.OtherThreads u s.focus ∧ u.thread? s.focus = some
          { (t.setG d (BitVec.ofNat 64 id)).advance 16 with park := .run, lastIssue := s.cycle, remote := [], seq := t.seq + 1 })) ∧
  (∀ (s : State) (t : Thread) (th len : Nat) (j : MatrixJob) (d : GReg), s.thread? th = some t →
    t.park = .offer 0 (.matrix j) d len →
    s.fatal = false → s.fenced (th / 64) = false →
    let tile := th / 64
    let id := (s.engine tile).mcount % 2 ^ 15
    (∀ x ∈ s.threads, x.1 / 64 = tile → x.2.park.offers 0 = true → x = (th, t)) →
    (16 ≤ (s.engine tile).mq.length → exec (.engineQueueAccept tile 0) s = .next s) ∧
    ((s.engine tile).mq.length < 16 → s.idHeld tile id = false → ∃ u : State, exec (.engineQueueAccept tile 0) s = .next u ∧
      (u.engine tile).mq = (s.engine tile).mq ++ [{ j with id := id }] ∧ s.SameBytes u ∧ s.OtherThreads u th ∧
      u.thread? th = some
        { (t.setG d (BitVec.ofNat 64 id)).advance len with park := .run, lastIssue := s.cycle, remote := [], seq := t.seq + 1 })) ∧
  (∀ (s : State) (t : Thread) (h : Hdr) (d a : GReg) (p : PReg),
    let tile := s.focus / 64
    let id := (t.getG a).toNat % 2 ^ 16
    let names (st : Bool) := if st then [numG d, numG a] else [numG a]
    (∀ st, s.Issues t h (names st) →
      (s.jobLive tile id = true → s.Becomes (.jwait h st d a) { t with park := .jwait id }) ∧
      (s.jobLive tile id = false →
        let after : Thread := if st then t.setG d (if s.jobStatus tile id then 1 else 0) else t
        ∃ u : State, exec (.jwait h st d a) s = .next u ∧
          u = { s with threads := u.threads, coh := { s.coh with collapses := u.coh.collapses } } ∧
          (∀ c ∈ u.coh.collapses, ∀ unit, unit < 3 → unitAgent tile unit ∈ c.charged → .thread s.focus ∈ c.charged) ∧
          s.SameBytes u ∧ s.OtherThreads u s.focus ∧
          u.thread? s.focus = some { after.advance 8 with park := .run, lastIssue := s.cycle })) ∧
    (s.Issues t h [numP p, numG a] → t.outs.length < 16 →
      s.Ends (.jpoll h p a) 8
        { t.addOut { readyOut t (numP p) 0 with kind := .jpoll id, acq := some .thread } with seq := t.seq + 1 })) ∧
  (∀ (s : State) (t : Thread) (th id : Nat) (p : PReg) (o : Outstanding) (rest : List Outstanding), s.thread? th = some t →
    t.outs = o :: rest → o.kind = .jpoll id → o.parts = [] → o.rel = none → o.stopped = false → o.dst = BitVec.ofNat 6 (numP p) → t.park ≠ .pendread →
    ∃ z f, exec (.variableLatencyResult th o.dst.toNat) s = .next z ∧ s.SameBytes z ∧ s.OtherThreads z th ∧
      z.thread? th = some { t.setP p (!s.jobLive (th / 64) id) with
        outs := rest, pend := t.pend &&& ~~~(1#64 <<< o.dst.toNat), fences := f })

/-- R423, R430, R433, R436, R437, R276: On a tile whose engine waits for no reply and is not halted, fenced or stopped:
MATRIX_JOB_START of a job that reads a slot another run wrote ends it faulted, and starts any other; MATRIX_BLOCK_DONE of a 1 by
1 by 1 BF16 product into a slot writes the product added to +0 in W80, with the run's tag; a block or bump that faults raises a
record with SRC 2 for the tile and stops the engine; MATRIX_JOB_COMPLETE of a job whose blocks are done removes it, adding 1 to
its counter if it has one. Each leaves every other byte of the stashes and all of memory as it was. In which order a block reads
its operands, and so which fault is named, is the model's reading (log entry 26). -/
def Obligations.MatrixJobs : Prop :=
  ∀ (s : State) (tile : Nat) (j : MatrixJob) (rest : List MatrixJob) (p : MatSpec),
    (s.engine tile).mq = j :: rest → (∀ x ∈ rest, x.id ≠ j.id) → matSpec j.ins = some p →
    (s.engine tile).mfault = false → s.fatal = false → s.fenced tile = false → s.halted tile = false → j.remotes = [] →
    let M := j.dims.toNat % 2 ^ 16
    let N := j.dims.toNat / 2 ^ 16 % 2 ^ 16
    let blocks := (M + 63) / 64 * ((N + 63) / 64)
    let gone (u : State) (faulted : Bool) : Prop := (u.engine tile).mq = rest ∧ (j.id, faulted) ∈ (u.engine tile).mdone
    (j.started = false →
      (p.readsSlot = true → j.rp < blocks → s.slotTag tile p.slot ≠ some j.runid →
        ∃ u : State, exec (.matrixJobStart tile) s = .next u ∧ gone u true ∧ s.SameBytes u ∧ u.acc = s.acc ∧ u.threads = s.threads) ∧
      (p.readsSlot = false ∨ blocks ≤ j.rp ∨ s.slotTag tile p.slot = some j.runid →
        ∃ u : State, exec (.matrixJobStart tile) s = .next u ∧ (u.engine tile).mq = { j with started := true } :: rest ∧
          s.SameBytes u ∧ u.acc = s.acc ∧ u.threads = s.threads)) ∧
    (∀ (h : Hdr) (tc : Ty) (ctl ldc : BitVec 32) (d a b c e : GReg) (oa ob : Nat), j.ins = .mma h tc ctl ldc d a b c e →
      ctl.toNat % 2 ^ 15 = 2 ^ 14 + 12 * 2 ^ 5 + 12 → j.dims.toNat = 2 ^ 32 + 2 ^ 16 + 1 → j.rp = 0 → j.started = true →
      j.aval.toNat = 0xFF * 2 ^ 48 + oa → j.bval.toNat = 0xFF * 2 ^ 48 + ob → oa < 2 ^ 20 → ob < 2 ^ 20 → oa % 2 = 0 →
      ob % 2 = 0 → tile % 64 ≠ 0 → s.stash.maps = [] → s.stash.poison = [] →
      let val (o : Nat) := Fmt.bf16.value (lineNat (s.stashData tile o) (o % 128) 2)
      let slot := ctl.toNat / 2 ^ 15 % 8
      ∃ u : State, exec (.matrixBlockDone tile) s = .next u ∧ (u.engine tile).mq = { j with rp := 1, remotes := [] } :: rest ∧
        u.acc = Sparse.set s.acc (4096 * (tile * 8 + slot))
          (BitVec.ofNat 80 (Fmt.w80.rne (Fmt.w80.value (Fmt.w80.rne
            ((Fl.fin false 0 0).add .rne ((val oa).mul (val ob))))))) ∧
        u.slotTag tile slot = some j.runid ∧ s.SameBytes u ∧ u.threads = s.threads) ∧
    (∀ x : Trap, s.matNext tile = .error (j, .trap x) →
      (∃ u : State, exec (.matrixBlockDone tile) s = .next u ∧ exec (.matrixJobFault tile) s = .next u ∧
        (u.engine tile).mfault = true ∧ (u.engine tile).mq = j :: rest ∧
        (x.cause ≠ .poison ∨ x.acc ≠ .walk → s.SameBytes u) ∧ u.acc = s.acc ∧
        ((∀ r ∈ s.records, r.token ≠ none) → ∃ r : Record, u.records = s.records ++ [r] ∧ r.agent = .matrix tile ∧ r.trap = x ∧
          (r.words.getD 0 0).toNat / 2 ^ 8 % 2 ^ 4 = 2))) ∧
    (j.started = true → blocks ≤ j.rp →
      (p.ctr = false → ∃ u : State, exec (.matrixJobComplete tile) s = .next u ∧ gone u false ∧ s.SameBytes u ∧ u.acc = s.acc ∧
        u.threads = s.threads) ∧
      (∀ off : Nat, p.ctr = true → j.ctrva.toNat = 0xFF * 2 ^ 48 + off → off < 2 ^ 20 → off % 8 = 0 → tile % 64 ≠ 0 →
        s.stash.maps = [] → s.stash.poison = [] → s.stash.lines = [] →
        s.charged (.matrix tile) = false →
        let count (u : State) := lineNat (u.stashData tile off) (off % 128) 8
        ∃ u : State, exec (.matrixJobComplete tile) s = .next u ∧ gone u false ∧ count u = Nat.min (count s + 1) (2 ^ 64 - 1) ∧
          (∀ x : Nat, x < 2 ^ 20 * tile + off ∨ 2 ^ 20 * tile + off + 8 ≤ x →
            cellRead u.stash.cells x = cellRead s.stash.cells x) ∧ u.mem = s.mem))

/-- R414, R415, R417, R418, R419, R420: On a tile whose lane waits for no reply and is not halted, fenced or stopped, with source and
destination in its own stash: PORTER_LINE_REQUEST of a copy moves the bytes up to the end of the destination line, all read before any
is written, of a fill it writes the pattern's bytes by their address modulo 8, of a prgath or a prscat it moves the bytes of the row
that the index entry names, up to the row's or the line's end, and of a combining prscat it adds one element at its destination, rounded
once by RNE; of a started prrow of FP32 sums every masked tile's destination receives the tree sum of the tiles' elements, -0 standing
for a tile outside the mask. Byte-progress advances by them and every other byte stays. That an instance moves all its columns together
is the model's choice (log entry 15), as is how long a map-remote reply lasts, which no job here holds (log entry 17).
PORTER_SOURCE_BUMP adds the source bytes to the source counter once the job has moved everything; PORTER_JOB_COMPLETE then removes the
job, adding its bytes to the destination counter if it has one. A request that faults raises a record with SRC 1 and the lane waits.
PRROW_INSTANCE_START starts an instance that every masked tile has joined with its job at the head of a lane. -/
def Obligations.PorterJobs : Prop :=
  (∀ (s : State) (tile lane : Nat) (j : PorterJob) (rest : List PorterJob) (p : PortSpec), lane < 2 →
    (s.engine tile).lanes.length = 2 → (s.engine tile).lanes.getD lane [] = j :: rest → (∀ x ∈ rest, x.id ≠ j.id) →
    portSpec j.ins = some p → (s.engine tile).pfault.getD lane false = false → s.halted tile = false → s.fatal = false →
    tile % 64 ≠ 0 → s.fenced tile = false → s.stash.maps = [] → s.stash.poison = [] → s.stash.lines = [] →
    s.charged (.porter tile lane) = false → (s.engine tile).pdone.length = 2 → (s.engine tile).pfault.length = 2 → j.remotes = [] →
    let q := j.progress
    let at_ (v : BitVec 64) (off : Nat) := v.toNat % 2 ^ 56 = 0xFF * 2 ^ 48 + off ∧ off < 2 ^ 20
    let cell (u : State) (off : Nat) := cellRead u.stash.cells (2 ^ 20 * tile + off)
    let queue (u : State) := (u.engine tile).lanes.getD lane []
    let count (u : State) (off : Nat) := lineNat (u.stashData tile off) (off % 128) 8
    let outside (off n : Nat) (u : State) : Prop :=
      (∀ x : Nat, x < 2 ^ 20 * tile + off ∨ 2 ^ 20 * tile + off + n ≤ x → cellRead u.stash.cells x = cellRead s.stash.cells x) ∧
        u.mem = s.mem ∧ u.threads = s.threads
    (∀ (dst src : Nat), at_ j.dst dst → at_ j.src src → dst + j.cval.toNat ≤ 2 ^ 20 → src + j.cval.toNat ≤ 2 ^ 20 →
      q < j.cval.toNat →
      let n := Nat.min (j.cval.toNat - q) (128 - (dst + q) % 128)
      (p.kind = .copy → ∃ u : State, exec (.porterLineRequest tile lane) s = .next u ∧
        (∀ i < n, cell u (dst + q + i) = cell s (src + q + i)) ∧ outside (dst + q) n u ∧
        queue u = { j with progress := q + n, remotes := [] } :: rest)) ∧
    (∀ dst : Nat, at_ j.dst dst → dst + j.cval.toNat ≤ 2 ^ 20 → q < j.cval.toNat → p.kind = .fill →
      let n := Nat.min (j.cval.toNat - q) (128 - (dst + q) % 128)
      ∃ u : State, exec (.porterLineRequest tile lane) s = .next u ∧
        (∀ i < n, cell u (dst + q + i) = BitVec.ofNat 8 (j.src.toNat / 2 ^ (8 * ((dst + q + i) % 8)))) ∧
        outside (dst + q) n u ∧ queue u = { j with progress := q + n, remotes := [] } :: rest) ∧
    (∀ (dst src ix : Nat), at_ j.dst dst → at_ j.src src → at_ j.cval ix → p.rows ≠ 0 → q < j.count.toNat * p.rows →
      let row := q / p.rows
      let o := q % p.rows
      let entry := ix + row * p.idxBytes
      let idx := s.stashNat tile entry p.idxBytes
      let value (u : State) (off n : Nat) := u.stashNat tile off n
      ix % p.idxBytes = 0 → entry + p.idxBytes ≤ 2 ^ 20 →
      (p.kind = .gath → src + (idx + 1) * p.rows ≤ 2 ^ 20 → dst + q - o + p.rows ≤ 2 ^ 20 →
        let n := Nat.min (p.rows - o) (128 - (dst + q) % 128)
        ∃ u : State, exec (.porterLineRequest tile lane) s = .next u ∧
          (∀ i < n, cell u (dst + q + i) = cell s (src + idx * p.rows + o + i)) ∧ outside (dst + q) n u ∧
          queue u = { j with progress := q + n, remotes := [] } :: rest) ∧
      (∀ ty : Ty, p.kind = .scat ty → dst + (idx + 1) * p.rows ≤ 2 ^ 20 → src + q - o + p.rows ≤ 2 ^ 20 →
        let at' := dst + idx * p.rows + o
        (ty = .none →
          let n := Nat.min (p.rows - o) (128 - at' % 128)
          ∃ u : State, exec (.porterLineRequest tile lane) s = .next u ∧ (∀ i < n, cell u (at' + i) = cell s (src + q + i)) ∧
            outside at' n u ∧ queue u = { j with progress := q + n, remotes := [] } :: rest) ∧
        (ty = .f32 ∨ ty = .bf16 →
          let b := ty.fixedWidth / 8
          p.rows % b = 0 → q % b = 0 → (dst + idx * p.rows) % b = 0 →
          ∃ u : State, exec (.porterLineRequest tile lane) s = .next u ∧
            value u at' b = ty.fmt.rne ((ty.fmt.value (value s at' b)).add .rne (ty.fmt.value (value s (src + q) b))) ∧
            outside at' b u ∧ queue u = { j with progress := q + b, remotes := [] } :: rest))) ∧
    (∀ (r : RowInst) (ln : Nat → Nat) (job : Nat → PorterJob) (src dst : Nat → Nat), p.kind = .row .sum .f32 →
      s.rowOf? tile j = some r → r.started = true → r.faulted = false → r.op = .sum → r.ty = .f32 → q % 4 = 0 →
      q < j.cval.toNat * 4 → q < r.elems * 4 →
      let tileAt (c : Nat) := r.quad * 64 + r.row * 8 + c
      let cols := (List.range 8).filter r.mask.getLsbD
      let n := Nat.min 128 (r.elems * 4 - q)
      s.rowJobs r = cols.map (fun c => (tileAt c, ln c, job c)) →
      (∀ c ∈ cols, s.laneHeld (tileAt c) (ln c) = false ∧ tileAt c % 64 ≠ 0 ∧ (job c).progress = q ∧ (job c).remotes = [] ∧
        at_ (job c).src (src c) ∧ at_ (job c).dst (dst c) ∧ src c + q + n ≤ 2 ^ 20 ∧ dst c + q + n ≤ 2 ^ 20) →
      let add (a b : Nat) := Fmt.f32.rne ((Fmt.f32.value a).add .rne (Fmt.f32.value b))
      let code (i c : Nat) := if r.mask.getLsbD c then s.stashNat (tileAt c) (src c + q + 4 * i) 4 else Fmt.f32.rne (.fin true 0 0)
      let sum (i : Nat) := add (add (add (code i 0) (code i 1)) (add (code i 2) (code i 3)))
        (add (add (code i 4) (code i 5)) (add (code i 6) (code i 7)))
      ∃ u : State, exec (.porterLineRequest tile lane) s = .next u ∧
        (∀ c ∈ cols, (∀ i < n / 4, u.stashNat (tileAt c) (dst c + q + 4 * i) 4 = sum i) ∧
          u.laneHead (tileAt c) (ln c) = some { job c with progress := q + n, remotes := [] }) ∧
        (∀ x : Nat, (∀ c ∈ cols, x < 2 ^ 20 * tileAt c + (dst c + q) ∨ 2 ^ 20 * tileAt c + (dst c + q) + n ≤ x) →
          cellRead u.stash.cells x = cellRead s.stash.cells x) ∧ u.mem = s.mem ∧ u.threads = s.threads) ∧
    (∀ off : Nat, p.kind = .copy → j.cval.toNat ≤ q → off % 8 = 0 →
      (at_ j.sctr off → p.sct = true → j.srcBumped = false →
        ∃ u : State, exec (.porterSourceBump tile lane) s = .next u ∧
          count u off = Nat.min (count s off + j.cval.toNat) (2 ^ 64 - 1) ∧ outside off 8 u ∧
          queue u = { j with srcBumped := true, remotes := [] } :: rest) ∧
      (p.sct = false ∨ j.srcBumped = true →
        (p.dct = false → ∃ u : State, exec (.porterJobComplete tile lane) s = .next u ∧ queue u = rest ∧
          (j.id, false) ∈ (u.engine tile).pdone.getD lane [] ∧ s.SameBytes u) ∧
        (at_ j.dctr off → p.dct = true → ∃ u : State, exec (.porterJobComplete tile lane) s = .next u ∧ queue u = rest ∧
          (j.id, false) ∈ (u.engine tile).pdone.getD lane [] ∧
          count u off = Nat.min (count s off + j.cval.toNat) (2 ^ 64 - 1) ∧ outside off 8 u))) ∧
    (∀ x : Trap, s.portNext tile lane = .error (tile, lane, j, .trap x) →
      ∃ u : State, exec (.porterLineRequest tile lane) s = .next u ∧ exec (.porterFault tile lane) s = .next u ∧
        (u.engine tile).pfault.getD lane false = true ∧ queue u = j :: rest ∧
        (x.cause ≠ .poison ∨ x.acc ≠ .walk → s.SameBytes u) ∧
        ((∀ r ∈ s.records, r.token ≠ none) → ∃ r : Record, u.records = s.records ++ [r] ∧ r.agent = .porter tile lane ∧ r.trap = x ∧
          (r.words.getD 0 0).toNat / 2 ^ 8 % 2 ^ 4 = 1))) ∧
  (∀ (s : State) (tile tag : Nat) (r : RowInst), s.rows = [r] → r.quad = tile / 64 → r.row = tile / 8 % 8 → r.tag = tag →
    r.started = false → r.faulted = false →
    (r.joined = r.mask → (s.rowJobs r).length = ((List.range 8).filter r.mask.getLsbD).length →
      ∃ u : State, exec (.prrowInstanceStart tile tag) s = .next u ∧ u.rows = [{ r with started := true }] ∧ s.SameBytes u ∧
        u.engines = s.engines) ∧
    (r.joined ≠ r.mask → exec (.prrowInstanceStart tile tag) s = .next s))

/-- R118, R119, R133, R135, R138, R139, R140, R141, R146, R168, R171, R210: SPEC_MARK_REQUEST completes, and where neither home has to
make room it sets the tile's spec-read mark at its L2 home, and the die's at the L3 home, for the run, and no other directory entry or
byte changes. STORE_PROBE and LOAD_PROBE on a Lodge with one entry of the run abort it exactly where it is later than the prober (named
by its speculation id, or with TB 0 an assured one), does not hold earliest standing and its filters conflict: its thread's slot and its
entry become free, its in-flight stores go and the task is queued again, behind the others (log entry 12), with its count one higher, MW
set by the eighth; a probe that aborts nothing changes no more than the tile's count of false positives. RESTORE_AT_HOME puts the last
logged word of an aborting entry back into its line. PROBE_ANSWER and OTHER_RUN_REPROBE clear the marks of a tile that matches no more,
keep those of one that does, and touch no task. PAGE_WALK leaves a leaf with A set, D for a write, and CLS and OWNER of a first touch,
in the core's and the tile's TLB and in the table, and does nothing where the walk faults. PRIVATE_RELEASE, which waits while the owner
has private fills of the page under way, takes the page out of the TLB of its owner and of the owner's tile, and out of the owner's L1D
(log entry 70: what it does as an event). -/
def Obligations.ConflictSteps : Prop :=
  (∀ (s : State) (tile run line : Nat), ∃ u : State, exec (.specMarkRequest tile run line) s = .next u ∧
    (s.roomL3 line = s → s.roomL2 (tile / 64) line = s →
    (u.l2 (tile / 64) line).srm = (s.l2 (tile / 64) line).srm ||| (1#64 <<< (tile % 64)) ∧
    (u.l2 (tile / 64) line).srun = run ∧ (u.l2 (tile / 64) line).swm = (s.l2 (tile / 64) line).swm ∧
    (u.l3 line).srm = (s.l3 line).srm ||| (1#4 <<< (tile / 64)) ∧ (u.l3 line).swm = (s.l3 line).swm ∧
    (∀ d o, ¬(d = tile / 64 ∧ o = line) → u.l2? d o = s.l2? d o) ∧ (∀ o, o ≠ line → u.l3? o = s.l3? o) ∧
    u = { s with coh := u.coh } ∧ s.SameBytes u)) ∧
  (∀ (s : State) (tile run line n id th : Nat) (ts : BitVec 64) (tb : BitVec 32) (e : CqEntry) (cv : BitVec 5) (i : Instr)
    (conflict : Bool), (s.lodge tile).cq = [(n, e)] → e.task.run = run → e.th = some th → e.finished = false →
    e.aborting = false → e.log = [] → e.children = [] → e.ovf = false → e.depart = none → e.creatorAborted = false →
    ((i = .storeProbe tile run line cv ts tb id ∧ conflict = (sigMatch e.write line || (sigMatch e.full line && cv.getLsbD 0) ||
        (sigMatch e.reduced line && cv.getLsbD e.tag.num))) ∨
      (i = .loadProbe tile run line ts tb id ∧ conflict = sigMatch e.write line)) →
    let earliest := e.task.standing || (s.run run).milestone == e.task.key
    let prober : Option Nat := if tb = 0 then none else some id
    let later := s.standingId prober || Key.lt ⟨ts, tb⟩ e.task.key
    let own : Option Nat := some (specId tile n e.incarnation)
    (earliest = true ∨ later = false ∨ own = prober ∨ conflict = false →
      ∃ v, exec i s = .next { s with dbg := { s.dbg with pmcVal := v } } ∧ (e.falsePositive line = false → v = s.dbg.pmcVal)) ∧
    (earliest = false → later = true → own ≠ prober → conflict = true →
      ∃ u : State, exec i s = .next u ∧ (u.lodge tile).cq = [] ∧
        (u.lodge tile).queue = (s.lodge tile).queue ++
          [{ e.task with aborts := Nat.min 7 (e.task.aborts + 1), mw := e.task.mw || decide (7 ≤ e.task.aborts) }] ∧
        u.thread? th = none ∧ s.OtherThreads u th ∧ u.stores = s.stores.filter (fun x => x.specid != own) ∧ s.SameBytes u ∧
        ∀ o, o ≠ tile → u.lodge o = s.lodge o)) ∧
  (∀ (s : State) (tile : Nat), (∀ x ∈ (s.lodge tile).cq, x.2.aborting = true → x.2.log = []) →
    exec (.restoreAtHome tile) s = .next s) ∧
  (∀ (s : State) (tile n : Nat) (e : CqEntry) (x : LogEntry) (rest : List LogEntry), (s.lodge tile).cq = [(n, e)] →
    e.aborting = true → e.log = rest ++ [x] → x.valid = true → (s.keyAt x.key).isSome = true → s.coh = State.reset.coh →
    s.stash.lines = [] → s.mem.errors = [] → s.backed (x.pa / 128 * 128) = true → s.isSystem (x.pa / 128 * 128) = false →
    Sparse.get? s.mem.chip (x.pa / 128) = none →
    ∃ u : State, exec (.restoreAtHome tile) s = .next u ∧ (u.lodge tile).cq = [(n, { e with log := rest })] ∧
      u.lineAt (x.pa / 128) x.key = mergeLine (byteMask (x.pa % 128) 8) (s.lineAt (x.pa / 128) x.key)
        (putLine 0 (x.pa % 128) 8 x.old.toNat) ∧
      (∀ o key, o ≠ x.pa / 128 → u.lineAt o key = s.lineAt o key) ∧ u.threads = s.threads ∧ u.stash = s.stash) ∧
  (∀ (s : State) (tile line : Nat),
    (s.markRun line = none → exec (.probeAnswer tile line) s = .next s ∧
      ((s.l3 line).swm = 0 → (s.l3 line).srm = 0 → exec (.otherRunReprobe line) s = .next s)) ∧
    (∀ run, s.markRun line = some run →
      (s.tileMatches tile run line = true → exec (.probeAnswer tile line) s = .next s) ∧
      (s.tileMatches tile run line = false → ∃ u : State, exec (.probeAnswer tile line) s = .next u ∧
        (u.l2 (tile / 64) line).swm = (s.l2 (tile / 64) line).swm &&& ~~~(1#64 <<< (tile % 64)) ∧
        (u.l2 (tile / 64) line).srm = (s.l2 (tile / 64) line).srm &&& ~~~(1#64 <<< (tile % 64)) ∧
        u = { s with coh := u.coh } ∧ s.SameBytes u) ∧
      ∃ u : State, exec (.otherRunReprobe line) s = .next u ∧ u = { s with coh := u.coh, dbg := u.dbg } ∧ s.SameBytes u ∧
        ∀ t, (u.l2 (t / 64) line).swm.getLsbD (t % 64) =
            ((s.l2 (t / 64) line).swm.getLsbD (t % 64) && s.tileMatches t run line) ∧
          (u.l2 (t / 64) line).srm.getLsbD (t % 64) =
            ((s.l2 (t / 64) line).srm.getLsbD (t % 64) && s.tileMatches t run line))) ∧
  (∀ (s : State) (run core va : Nat) (write : Bool), isInnkeeperCore core = false →
    let w : Who := { agent := .thread (core * 8), tile := core / 8, core := some core, run := some run, issuer := core,
                     th := core * 8, remote := [] }
    let found := s.locate w (if write then .write else .read) va 1
    ((∀ l, found = .ok l → l.walk = none) → exec (.pageWalk run core va write) s = .next s) ∧
    (∀ l pte level addr, found = .ok l → l.walk = some (pte, level, addr) → pte < 2 ^ 64 →
      ∃ (u : State) (p : Nat), exec (.pageWalk run core va write) s = .next u ∧
        p.testBit 5 = true ∧ p.testBit 6 = (pte.testBit 6 || write) ∧
        (bitsOf pte 11 2 = 0 → bitsOf p 11 2 = 1 ∧ bitsOf p 13 11 = core % 2 ^ 11) ∧
        (bitsOf pte 11 2 = 1 → bitsOf pte 13 11 ≠ core → bitsOf p 11 2 = 2) ∧
        (∀ k, k < 5 ∨ 24 ≤ k ∨ (6 < k ∧ k < 11) → p.testBit k = pte.testBit k) ∧
        (∀ unit, unit = core ∨ unit = 2048 + core / 8 → ∃ x ∈ u.tlb, x.unit = unit ∧ x.run = run ∧ x.level = level ∧
          x.page = l.part.va / 2 ^ levelShift level ∧ x.pte = BitVec.ofNat 64 p) ∧
        (s.coh = State.reset.coh → s.stash.lines = [] → s.mem.errors = [] → s.itinMode run = none →
          (p = pte → s.SameBytes u) ∧
          (p ≠ pte → s.backed (addr / 128 * 128) = true → s.isSystem (addr / 128 * 128) = false →
            Sparse.get? s.mem.chip (addr / 128) = none →
            u.lineAt (addr / 128) 0 = mergeLine (byteMask (addr % 128) 8) (s.lineAt (addr / 128) 0)
              (putLine 0 (addr % 128) 8 p))))) ∧
  (∀ (s : State) (core page : Nat),
    ((∀ e ∈ s.tlb, e.unit = core → leafPa e.pte.toNat e.level 0 / 2 ^ 16 ≠ page) →
      exec (.privateRelease core page) s = .next s) ∧
    (∀ e, s.tlb.find? (fun e => e.unit == core && leafPa e.pte.toNat e.level 0 / 2 ^ 16 == page) = some e →
      let base := leafPa e.pte.toNat e.level 0
      (s.fillsPrivate core (base, 2 ^ levelShift e.level) = true → exec (.privateRelease core page) s = .next s) ∧
      (s.fillsPrivate core (base, 2 ^ levelShift e.level) = false →
      ∃ u : State, exec (.privateRelease core page) s = .next u ∧ u = { s with coh := u.coh, tlb := u.tlb } ∧ s.SameBytes u ∧
        u.tlb = s.tlb.filter (fun x => !((x.unit == core || x.unit == 2048 + core / 8) && leafPa x.pte.toNat x.level 0 == base)) ∧
        ∀ x, x ∈ u.coh.l1 ↔ x ∈ s.coh.l1 ∧
          ¬(x.core = core ∧ x.icache = false ∧ base ≤ 128 * x.line ∧ 128 * x.line < base + 2 ^ levelShift e.level))))

/-- R86, R95, R97, R103, R104, R122, R123, R126, R128, R146, R148, R152: TASK_ACCEPT moves the oldest sent task into its queue, where
its tile may hold it, once there is room, and ends the creating instruction. TASK_DISPATCH starts the one eligible task of a queue in a
free slot with its arguments and a cleared context, an assured one with no entry, a speculative one with a free entry and a tiebreaker
one above its tile's counter; nothing is dispatched from an empty queue, without a free slot, or on a halted tile. GRID_ENTER enters the
next task of the first grid record with its index and coordinates. SPILL moves 32 of more than 224 queued tasks of the run that has most
into a block, and raises PROT with SPF where the area has no block; REFILL brings a block's live records back; DISCARD takes the
children of a speculation id out. MILESTONE_LATCH latches for every run in a slot a key no later than any task counted, nor than one
that finishes in its cycle, and marks the tasks that finished before its cycle (log entry 19); MILESTONE_BROADCAST raises ROUND where it
has not risen in this round, makes the latched key the milestone and commits the marked tasks before it. LOAD_BALANCE moves half of a
tile's surplus, the latest tasks, at most 32, to its neighbour (log entry 59). Which block of an area a spill takes first, and what the
device keeps beside a record, is log entry 13's; which shares enter when, log entry 20's. -/
def Obligations.LodgeSteps : Prop :=
  (∀ (s : State) (n : Nat) (x : Sent), s.sent.find? (fun x => x.id == n) = some x → s.mayHold x.task.launch x.tile = true →
    (256 ≤ (s.lodge x.tile).queue.length → exec (.taskAccept n) s = .next s) ∧
    ((s.lodge x.tile).queue.length < 256 → s.fatal = false → (∀ y ∈ s.sent, y.tile = x.tile → n ≤ y.id) →
      (∀ th t i len, x.th = some th → s.thread? th = some t → t.park ≠ .send i len true) →
      ∃ u : State, exec (.taskAccept n) s = .next u ∧ (u.lodge x.tile).queue = (s.lodge x.tile).queue ++ [x.task] ∧
        (∀ o, o ≠ x.tile → u.lodge o = s.lodge o) ∧ u.sent = s.sent.filter (fun y => y.id != n) ∧ s.SameBytes u ∧
        (∀ th t len, x.th = some th → s.thread? th = some t → t.park = .send n len false →
          s.OtherThreads u th ∧
          u.thread? th = some { t.advance len with park := .run, lastIssue := s.cycle, remote := [] }) ∧
        (x.th = none → u.threads = s.threads))) ∧
  (∀ (s : State) (tile : Nat), ((s.lodge tile).queue = [] ∨ s.freeSlot tile = none ∨ tile ∈ s.dbg.halted →
      exec (.taskDispatch tile) s = .next s) ∧
    ∀ (th : Nat) (t : Task), s.fatal = false → s.fenced tile = false → tile ∉ s.dbg.halted → s.awaitsEntry tile = false →
      s.freeSlot tile = some th → (s.lodge tile).queue = [t] → s.eligible tile t = true → s.itinMode t.run = none →
      let starts (u : State) (k : Task) (e : Option Nat) : Prop := exec (.taskDispatch tile) s = .next u ∧
        (u.lodge tile).queue = [] ∧ (u.lodge tile).lastRun = t.run ∧ s.OtherThreads u th ∧ s.SameBytes u ∧
        ∃ x, u.thread? th = some x ∧ x.task = some { k with id := s.nextStore + 1, readyUs := 0 } ∧ x.entry = e ∧ x.pc = t.func ∧ x.pend = 0 ∧ x.park = .run ∧
          x.outs = [] ∧ x.w = Vector.replicate 32 0 ∧ x.m = Vector.replicate 8 0 ∧ x.p = Vector.replicate 8 false ∧
          x.rep.act = false ∧ (∀ r : GReg, x.getG r = if r.toNat < t.nargs then t.args.getD r.toNat 0 else 0) ∧
          x.sr = (let v := t.ts.setWidth 32 ^^^ (t.ts >>> 32).setWidth 32 ^^^ k.tb ^^^
            (t.ident.gidx.x + (t.ident.gidx.y <<< 10) + (t.ident.gidx.z <<< 20)).setWidth 32
            if v = 0 then 1 else v)
      (t.spec = false → ∃ u : State, starts u t none) ∧
      (∀ n, t.spec = true → s.entryFor tile t = .free n → t.hasTb = true → ∃ (u : State) (e : CqEntry), starts u t (some n) ∧
        Sparse.get? (u.lodge tile).cq n = some e ∧ e.task = { t with id := s.nextStore + 1, readyUs := 0 } ∧ e.th = some th ∧ e.finished = false ∧ e.log = [] ∧
        e.write = [0, 0, 0, 0] ∧ e.full = [0, 0, 0, 0] ∧ e.reduced = [0, 0, 0, 0] ∧
        e.incarnation = (Sparse.getD (s.lodge tile).incarnations n 0 + 1) % 2 ^ 18) ∧
      (∀ n, t.spec = true → s.entryFor tile t = .free n → t.hasTb = false →
        let base := Nat.max (Sparse.getD (s.lodge tile).ctr t.run 0) (if t.floor.ts = t.ts then t.floor.tb.toNat / 256 else 0)
        base < 0xFFFFFF → ∃ u : State, starts u { t with hasTb := true, tb := BitVec.ofNat 32 ((base + 1) * 256 + tile) } (some n) ∧
          Sparse.get? (u.lodge tile).ctr t.run = some ((BitVec.ofNat 32 ((base + 1) * 256 + tile)).toNat / 256))) ∧
  (∀ (s : State) (tile : Nat) (g : GridRec) (rest : List GridRec) (d0 d1 d2 : Nat), (s.lodge tile).grids = g :: rest →
    g.dims = [d0, d1, d2] → g.ext.length = 3 → g.sub.length = 3 → s.mayHold g.launch tile = true →
    (256 ≤ (s.lodge tile).queue.length → exec (.gridEnter tile) s = .next s) ∧
    ((s.lodge tile).queue.length < 256 → s.fatal = false → s.enters g = true → ∃ (u : State) (x : Task), exec (.gridEnter tile) s = .next u ∧
      (u.lodge tile).queue = (s.lodge tile).queue ++ [x] ∧ x.func = g.func ∧ x.ts = g.ts ∧ x.spec = false ∧ x.run = g.run ∧
      x.args = g.args ∧ x.nargs = g.nargs ∧ x.launch = g.launch ∧ x.parent = g.parent ∧
      (u.lodge tile).grids = (if g.next + 1 < g.stop then [{ g with next := g.next + 1 }] else []) ++ rest ∧
      (let i := [g.next % d0, g.next / d0 % d1, g.next / (d0 * d1)]
       let at_ (l : List Nat) : V3 := ⟨BitVec.ofNat 64 (l.getD 0 0), BitVec.ofNat 64 (l.getD 1 0), BitVec.ofNat 64 (l.getD 2 0)⟩
       let org (k : Nat) := i.getD k 0 * g.sub.getD k 0
       x.ident.gidx = at_ i ∧ x.ident.gdim = at_ g.dims ∧ x.ident.org = at_ [org 0, org 1, org 2] ∧
         x.ident.ext = at_ ((List.range 3).map fun k => Nat.min (g.sub.getD k 0) (g.ext.getD k 0 - org k))) ∧
      (∀ o, o ≠ tile → u.lodge o = s.lodge o) ∧ u = { s with lodges := u.lodges } ∧ s.SameBytes u)) ∧
  (∀ (s : State) (tile run : Nat),
    ((s.lodge tile).queue.length ≤ 224 ∨ (s.lodge tile).spillFault = true → exec (.spill tile) s = .next s) ∧
    (224 < (s.lodge tile).queue.length → s.fatal = false → (s.lodge tile).spillFault = false → mostQueued (s.lodge tile).queue = some run →
      let ts := (latestFirst ((s.lodge tile).queue.filter fun t => t.run == run)).take 32
      (s.spillBlocks run = 0 → ∃ (u : State) (r : Record), exec (.spill tile) s = .next u ∧ (u.lodge tile).spillFault = true ∧
        bitOf (u.reg (0x300 + tile)) 0 = true ∧ u.records = s.records ++ [r] ∧ r.trap.cause = .prot ∧ r.agent = .lodge tile ∧
        (u.lodge tile).queue = (s.lodge tile).queue ∧ s.SameBytes u) ∧
      (∀ v, 0 < s.spillBlocks run → (s.lodge tile).blocksOf run = [] → s.writeBlock tile run 0 ts = .ok v →
        ∃ (u : State) (b : SpillBlock), exec (.spill tile) s = .next u ∧ (u.lodge tile).blocksOf run = (v.lodge tile).blocksOf run ++ [b] ∧
          b.block = 0 ∧ b.notes.length = ts.length ∧ (∀ n ∈ b.notes, ∃ t ∈ ts, n = ⟨t.launch, t.hintLine, t.unseen, t.parent == some 0,
            if t.spec && t.hasTb then some t.key else none, t.standing⟩) ∧
          (u.lodge tile).queue = ts.foldl (fun q t => q.erase t) (v.lodge tile).queue ∧ v.SameBytes u))) ∧
  (∀ (s : State) (tile : Nat), ((s.lodge tile).blocks = [] → (s.lodge tile).spblk = [] → exec (.refill tile) s = .next s) ∧
    ∀ (run : Nat) (b : SpillBlock) (recs : List (List (BitVec 64))) (v x : State), s.fatal = false → (s.lodge tile).spillFault = false →
      (∀ r < 16, r ≠ run → Sparse.get? (s.lodge tile).spblk r = none) →
      (s.lodge tile).blocks = [(run, [b])] → run < 16 → s.runLive run = true → (s.lodge tile).queue.length ≤ 192 →
      s.wantsSpilled tile run = false → s.readBlock tile run b.block = .ok (recs, v) →
      v.areaWrite tile run (v.spillBase tile run + 16 * b.block) [0, 0] = .ok x → (x.lodge tile).discards = [] →
      (∀ n ∈ b.notes, x.mayHold n.launch tile = true) →
      Sparse.get? (x.lodge tile).spblk run ≠ some b.block → ∃ u : State, exec (.refill tile) s = .next u ∧
        (u.lodge tile).queue = (x.lodge tile).queue ++
          ((recs.zip b.notes).filter fun p => !(p.1.getD 0 0).getLsbD 63).map (fun p => taskOfRecord p.1 run p.2) ∧
        (u.lodge tile).blocksOf run = ((x.lodge tile).blocksOf run).filter (fun y => y.block != b.block) ∧ x.SameBytes u) ∧
  (∀ (s : State) (tile id : Nat), (s.lodge tile).blocks = [] →
    (∀ x ∈ (s.lodge tile).cq, x.2.task.parent ≠ some id) → (∀ d ∈ (s.lodge tile).discards, d.1 ≠ id) → ∃ u : State, exec (.discard tile id) s = .next u ∧
      (u.lodge tile).queue = (s.lodge tile).queue.filter (fun t => t.parent != some id) ∧
      (u.lodge tile).grids = (s.lodge tile).grids.filter (fun g => g.parent != some id) ∧
      (u.lodge tile).cq = (s.lodge tile).cq ∧
      u.sent = s.sent.filter (fun x => !(x.tile == tile && x.task.parent == some id)) ∧
      (∀ o, o ≠ tile → u.lodge o = s.lodge o) ∧ u.threads = s.threads ∧ s.SameBytes u) ∧
  (∀ (s : State), s.fatal = false → ∃ u : State, exec .milestoneLatch s = .next u ∧ u.latchCycle = some s.cycle ∧ u.round = s.round ∧
    u.threads = s.threads ∧ s.SameBytes u ∧
    (∀ n r, Sparse.get? s.runs n = some r → (u.run n).milestone = r.milestone ∧
      (r.phase ≠ .free →
        (∀ x ∈ s.lodges, s.fenced x.1 = false → ∀ t ∈ x.2.queue, t.run = n → t.counted.lt (u.run n).latched = false) ∧
        (∀ x ∈ s.threads, s.fenced (tileOf x.1) = false → ∀ t, x.2.task = some t → t.run = n →
          x.2.key.lt (u.run n).latched = false) ∧
        (∀ x ∈ s.sent, x.task.run = n → x.task.counted.lt (u.run n).latched = false) ∧
        (∀ x ∈ s.lodges, s.fenced x.1 = false → ∀ e ∈ x.2.cq, e.2.task.run = n → e.2.finished = true → s.cycle ≤ e.2.doneAt →
          e.2.task.key.lt (u.run n).latched = false))) ∧
    ∀ tile j e, Sparse.get? (s.lodge tile).cq j = some e →
      Sparse.get? (u.lodge tile).cq j = some { e with marked := e.marked || (e.finished && decide (e.doneAt < s.cycle)) }) ∧
  (∀ (s : State), (s.latchCycle = none → exec .milestoneBroadcast s = .next s) ∧
    ∀ (c n : Nat) (r : Run), s.fatal = false → s.latchCycle = some c → s.runs = [(n, r)] →
      ∃ u : State, exec .milestoneBroadcast s = .next u ∧ u.latchCycle = none ∧ u.round = (if s.rounded then s.round else s.round + 1) ∧
        (r.phase = .preempting ∨ r.resuming = true → (u.run n).milestone = r.milestone) ∧
        (r.phase = .resident → r.resuming = false → (u.run n).milestone = r.latched ∧
          ∀ tile j e, Sparse.get? (s.lodge tile).cq j = some e → e.task.run = n → e.finished = true → e.marked = true →
            e.task.key.lt r.latched = true → Sparse.get? (u.lodge tile).cq j = none ∧
              (u.run n).floor.lt e.task.key = false)) ∧
  (∀ (s : State), (bitOf (s.reg 0x200) 40 = false → exec .loadBalance s = .next s) ∧
    ∀ (l : Lodge), bitOf (s.reg 0x200) 40 = true → s.lodges = [(0, l)] → s.sent = [] →
      (∀ t ∈ l.queue, t.hmode = .none ∧ t.parent = none ∧ (t.spec = false ∨ t.hasTb = false) ∧ s.mayHold t.launch 1 = true) →
      bitsOf (s.reg 0x200) 32 8 ≤ l.queue.length → l.queue ≠ [] →
      let moved := (latestFirst l.queue).take (Nat.min 32 (l.queue.length / 2))
      ∃ u : State, exec .loadBalance s = .next u ∧ (u.lodge 1).queue = moved ∧
        (u.lodge 0).queue = moved.foldl (fun q t => q.erase t) l.queue ∧
        (∀ o, o ≠ 0 → o ≠ 1 → u.lodge o = s.lodge o) ∧ u = { s with lodges := u.lodges } ∧ s.SameBytes u)

/-- R71, R72, R73, R74, R75, R76, R77, R84, R86, R88, R90, R93: QUEUE_ENABLE with an unbacked HDR sets HBAD and clears
EN; otherwise the header is read, the first failed check of R73 leaves its code and EN 0, and a good header leaves
the queue on with the counts and fields it gives. QUEUE_DISABLE clears EN and leaves launches alone;
RESERVATION_END and RECORD_SEQ_RETRY do what R90 and R75 give, and HEADER_REREAD takes the header and its TAIL again
once the launch unit's copy of the line is gone (R74). LAUNCH_TAKE takes the record of
the queue chosen, appends a live launch with its words and level, counts it in TAKEN, and ends it with BADREC where
it names no run; a wrong SEQ takes nothing. NOP_RECORD, TASK_RECORD and GRID_RECORD enter a launch's work;
QUEUE_AGEING counts a microsecond for the queues and launches that wait; TIMED_OVERRUN marks a launch past its
budget and counts it; LAUNCH_COMPLETE of a launch whose work is done writes its STATUS word, advances the done
count, and retires it. That TAIL - DONE is taken modulo 2^64 and that the counts of a header just read replace the device's is log
entry 27's; which checks of a record come first, and when it is taken, log entry 28's; that a launch's microseconds of waiting add
up, log entry 30's. -/
def Obligations.QueuesAndLaunches : Prop :=
  (∀ (s : State) (q : Nat) (v : BitVec 64), q < 64 → (s.queue q).phase = .off →
    let h := 128 * bitsOf v.toNat 7 45
    let f (i lo n : Nat) : Nat := bitsOf (lineNat (s.lineAt (h / 128) 0) (8 * i) 8) lo n
    let timed := bitOf (f 4 0 64) 16
    let mask : BitVec 256 := BitVec.ofNat 256 (f 8 0 64 + 2 ^ 64 * f 9 0 64 + 2 ^ 128 * f 10 0 64 + 2 ^ 192 * f 11 0 64)
    let shared : Prop := ∃ p < 64, p ≠ q ∧ (s.queue p).timed = true ∧ ((s.queue p).phase = .on ∨ (s.queue p).phase = .clearing) ∧
      (s.queue p).tmask &&& mask ≠ 0
    let b1 : Prop := f 4 8 5 < 4 ∨ 20 < f 4 8 5
    let b2 : Prop := (timed = true ∧ f 4 0 6 < 56) ∨ (timed = false ∧ 56 ≤ f 4 0 6)
    let b3 : Prop := timed = true ∧ (mask = 0 ∨ shared)
    let b4 : Prop := s.backed (128 * f 3 7 45) = false
    let b5 : Prop := 2 ^ f 4 8 5 < (f 0 0 64 + 2 ^ 64 - f 2 0 64) % 2 ^ 64
    (s.backed h = false → ∃ u : State, exec (.queueEnable q v) s = .next u ∧ bitOf (u.reg (0x080 + q)) 63 = false ∧
      bitOf (u.reg (0x080 + q)) 62 = true ∧ u.queues = s.queues ∧ s.SameBytes u) ∧
    (s.backed h = true → s.fatal = false → s.coh = State.reset.coh → s.stash.lines = [] → s.mem.errors = [] →
      (s.physReady h true).1 = true →
      (∀ c, Sparse.get? s.mem.chip (h / 128) = some c → c.key = 0) →
      (∀ c, (c = 1 ∧ b1) ∨ (c = 2 ∧ ¬b1 ∧ b2) ∨ (c = 3 ∧ ¬b1 ∧ ¬b2 ∧ b3) ∨ (c = 4 ∧ ¬b1 ∧ ¬b2 ∧ ¬b3 ∧ b4) ∨
          (c = 5 ∧ ¬b1 ∧ ¬b2 ∧ ¬b3 ∧ ¬b4 ∧ b5) →
        ∃ u : State, exec (.queueEnable q v) s = .next u ∧ bitOf (u.reg (0x080 + q)) 63 = false ∧
          bitOf (u.reg (0x080 + q)) 62 = false ∧ (u.queue q).phase = .off ∧ (u.queue q).err = c) ∧
      (¬b1 → ¬b2 → ¬b3 → ¬b4 → ¬b5 →
        (timed = true → ∀ t < 256, mask.getLsbD t = true →
          (s.lodge t).cq = [] ∧ (s.lodge t).queue = [] ∧ ∀ x ∈ s.threads, tileOf x.1 ≠ t) →
        ∃ (u : State) (x : Queue), exec (.queueEnable q v) s = .next u ∧ bitOf (u.reg (0x080 + q)) 63 = true ∧ u.queue q = x ∧ x.phase = .on ∧
          x.hdr = h ∧ x.tail = f 0 0 64 ∧ x.taken = f 1 0 64 ∧ x.done = f 2 0 64 ∧ x.ring = 128 * f 3 7 45 ∧
          x.prio = f 4 0 6 ∧ x.logn = f 4 8 5 ∧ x.timed = timed ∧ x.window = f 4 32 32 ∧ x.frac = f 5 0 8 ∧ x.tmask = mask ∧
          (∀ p, p ≠ q → u.queue p = s.queue p) ∧ s.SameBytes u))) ∧
  (∀ (s : State) (q : Nat), q < 64 → ∃ u : State, exec (.queueDisable q) s = .next u ∧ bitOf (u.reg (0x080 + q)) 63 = false ∧
    bitsOf (u.reg (0x080 + q)) 7 45 = bitsOf (s.reg (0x080 + q)) 7 45 ∧ u.queue q = { s.queue q with phase := .off } ∧
    (∀ p, p ≠ q → u.queue p = s.queue p) ∧ u.coh.headers = s.coh.headers.filter (fun h => h.1 != q) ∧
    u = { s with queues := u.queues, regs := u.regs, coh := { s.coh with headers := u.coh.headers } } ∧ s.SameBytes u) ∧
  (∀ (s : State) (q : Nat),
    ((s.queue q).timed = true → (s.queue q).phase = .off → (∀ l ∈ s.launches, ¬(l.queue = q ∧ l.reserves = true)) →
      exec (.reservationEnd q) s = .next (s.setQueue q { s.queue q with timed := false, tmask := 0 })) ∧
    ((s.queue q).timed = false ∨ (s.queue q).phase ≠ .off ∨ (∃ l ∈ s.launches, l.queue = q ∧ l.reserves = true) →
      exec (.reservationEnd q) s = .next s)) ∧
  (∀ (s : State) (q : Nat), ((s.queue q).phase ≠ .on ∨ s.hasHeader q = true → exec (.headerReread q) s = .next s) ∧
    ((s.queue q).phase = .on → s.hasHeader q = false → s.physReady (s.queue q).hdr false = (true, s) →
      let held := s.holdHeader q
      let tail := lineNat held.1 0 8
      let tooMany : Prop := 2 ^ (s.queue q).logn < (tail + 2 ^ 64 - (s.queue q).done) % 2 ^ 64
      (s.coh = State.reset.coh → s.stash.lines = [] → s.mem.errors = [] →
        (∀ c, Sparse.get? s.mem.chip ((s.queue q).hdr / 128) = some c → c.key = 0) →
        held.1 = s.lineAt ((s.queue q).hdr / 128) 0) ∧
      (¬tooMany → exec (.headerReread q) s = .next (held.2.setQueue q { s.queue q with tail := tail })) ∧
      (tooMany → ∃ u : State, exec (.headerReread q) s = .next u ∧ (u.queue q).phase = .off ∧ (u.queue q).err = 5 ∧
        bitOf (u.reg (0x080 + q)) 63 = false))) ∧
  (∀ (s : State) (q : Nat), ((s.queue q).phase ≠ .on ∨ (s.queue q).mismatch = false →
      exec (.recordSeqRetry q) s = .next s) ∧
    ((s.queue q).phase = .on → (s.queue q).mismatch = true →
      s.physReady ((s.queue q).slotPa (s.queue q).taken) false = (true, s) →
      exec (.recordSeqRetry q) s = .next (if bitsOf ((s.nextRecord q).getD 0 0).toNat 0 32 = (s.queue q).taken % 2 ^ 32 then
        s.setQueue q { s.queue q with mismatch := false } else s))) ∧
  (∀ (s : State), (s.fatal = true ∨ s.nextQueue = none → exec .launchTake s = .next s) ∧
    ∀ q, s.fatal = false → s.nextQueue = some q → s.takeReady q = (true, s) →
      let x := s.queue q
      let w := s.nextRecord q
      let f (i lo n : Nat) : Nat := bitsOf (w.getD i 0).toNat lo n
      (f 0 0 32 ≠ x.taken % 2 ^ 32 → exec .launchTake s = .next (s.setQueue q { x with mismatch := true })) ∧
      (f 0 0 32 = x.taken % 2 ^ 32 → f 0 34 1 = 0 → (∀ l ∈ s.launches, l.id ≤ s.nextStore) →
        let takes (run : Nat) (status : Option Nat) : Prop := ∃ (u : State) (l : Launch), exec .launchTake s = .next u ∧
          u.launches = s.launches ++ [l] ∧ l.queue = q ∧ l.record = x.taken ∧ l.slotPa = x.ring + 128 * (x.taken % 2 ^ x.logn) ∧
          l.words = w ∧ l.level = s.effLevel q ∧ l.run = run ∧ l.status = status ∧ l.entered = status.isSome ∧
          l.phase = (if status.isSome then .working else .ready) ∧ (u.queue q).taken = x.taken + 1 ∧
          (u.queue q).waitUs = 0 ∧ u.lastQueue = some q ∧ (∀ p, p ≠ q → u.queue p = s.queue p)
        (s.runSlotOf (f 0 48 16) = none → s.savedOf (f 0 48 16) = none → takes noRun (some 3)) ∧
        (∀ n, s.runSlotOf (f 0 48 16) = some n → (s.run n).phase = .resident → (s.run n).killed = false →
          s.teardownBegun n (s.run n).ends = false → x.timed = false → f 0 32 2 < 2 → recordOk w false = true → s.itinMode n = none →
          (f 0 32 2 = 0 ∨ (s.run n).floor.ts.toNat ≤ (w.getD 3 0).toNat → takes n none) ∧
          (f 0 32 2 ≠ 0 → (w.getD 3 0).toNat < (s.run n).floor.ts.toNat → takes noRun (some 3))))) ∧
  (∀ (s : State) (id : Nat) (l : Launch), s.launch? id = some l → l.phase = .ready → l.run < 16 → s.runLive l.run = true →
    let f (i lo n : Nat) : Nat := bitsOf (l.words.getD i 0).toNat lo n
    let entered := s.launches.map fun l => if l.id = id then { l with entered := true, phase := LaunchPhase.working } else l
    let divided := s.launches.map fun l =>
      if l.id = id then { l with args := some [], entered := true, phase := LaunchPhase.working } else l
    (f 0 32 2 = 0 → exec (.nopRecord id) s = .next { s with launches := entered }) ∧
    (f 0 32 2 = 1 → s.fatal = false → s.entryCycle = true → ∀ tile, (f 0 36 2 = 0 ∧ tile = 0) ∨ (f 0 36 2 = 3 ∧ tile = (l.words.getD 7 0).toNat % 256) →
      s.mayHold id tile = true → (∀ x ∈ s.sent, x.tile ≠ tile) → (s.lodge tile).queue.length < 256 →
      ∃ (u : State) (t : Task), exec (.taskRecord id) s = .next u ∧ (u.lodge tile).queue = (s.lodge tile).queue ++ [t] ∧
        t.func = (l.words.getD 2 0).setWidth 56 ∧ t.ts = l.words.getD 3 0 ∧ t.spec = (l.words.getD 0 0).getLsbD 35 ∧
        t.hasTb = !t.spec ∧ t.nargs = f 0 40 4 ∧ t.args = (l.words.drop 8).take (f 0 40 4) ∧ t.run = l.run ∧ t.launch = id ∧
        t.parent = none ∧ t.aborts = 0 ∧ t.mw = false ∧ t.hint = l.words.getD 7 0 ∧ u.launches = entered ∧
        (∀ o, o ≠ tile → u.lodge o = s.lodge o) ∧ s.SameBytes u) ∧
    (f 0 32 2 = 2 → f 0 40 4 = 0 → l.args = none → s.fatal = false → s.entryCycle = true → ∀ tile, s.gridTiles id (gridOfRecord l.words).mask = [tile] →
      let g := gridOfRecord l.words
      let ext (i : Nat) := if i < g.ndim then g.ext.getD i 0 else 1
      let sub (i : Nat) := if i < g.ndim then g.sub.getD i 0 else 1
      let dim (i : Nat) := (ext i + sub i - 1) / sub i
      let count := dim 0 * dim 1 * dim 2
      ∃ u : State, exec (.gridRecord id) s = .next u ∧ u.launches = divided ∧ u.lodges = s.lodges ∧ s.SameBytes u ∧
        u.grids = s.grids ++ if count = 0 then [] else
          [{ func := (l.words.getD 2 0).setWidth 56, ts := l.words.getD 3 0, ext := [ext 0, ext 1, ext 2],
             sub := [sub 0, sub 1, sub 2], dims := [dim 0, dim 1, dim 2], next := 0, stop := count, nargs := 0, args := [],
             run := l.run, launch := id, parent := none, tile := tile, launchUnit := true }])) ∧
  (∀ (s : State), ∃ u : State, exec .queueAgeing s = .next u ∧ s.SameBytes u ∧ u.threads = s.threads ∧
    (∀ q x, Sparse.get? s.queues q = some x →
      u.queue q = if x.timed = false ∧ s.canTake q = true then { x with waitUs := x.waitUs + 1 } else x) ∧
    u.launches.length = s.launches.length ∧
    ∀ (k : Nat) (l : Launch), s.launches[k]? = some l →
      let age := bitsOf (s.reg 0x050) 0 16
      let waits : Prop := l.timed = false ∧ age ≠ 0 ∧ l.run < 16 ∧ s.readyTask l.run = true
      (¬waits → u.launches[k]? = some l) ∧
      (waits → l.aged + 1 < age → u.launches[k]? = some { l with aged := l.aged + 1 }) ∧
      (waits → age ≤ l.aged + 1 → u.launches[k]? =
        some { l with aged := 0, level := Nat.max l.level (Nat.min 55 (l.level + 1)) })) ∧
  (∀ (s : State) (id : Nat) (l : Launch), s.launch? id = some l →
    (l.timed = false ∨ l.overrun = true ∨ l.charge ≤ l.budget → exec (.timedOverrun id) s = .next s) ∧
    (l.timed = true → l.overrun = false → l.budget < l.charge → ∃ u : State, exec (.timedOverrun id) s = .next u ∧
      u.queue l.queue = { s.queue l.queue with ovr := Nat.min 0xFFFF ((s.queue l.queue).ovr + 1) } ∧
      u.launches = s.launches.map fun l => if l.id = id then { l with overrun := true, level := 55 } else l)) ∧
  (∀ (s : State) (id : Nat) (l : Launch), s.launch? id = some l → l.phase = .working →
    let x := s.queue l.queue
    (l.status = none → s.launchBusy id = true → exec (.launchComplete id) s = .next s) ∧
    (s.launchBusy id = false → (l.status = none ∨ l.status = some 3) → l.words.getD 4 0 = 0 → l.run < 16 ∨ l.run = noRun →
      l.old = false → (∀ y ∈ s.launches, y.old = false) → l.overrun = false → l.timed = false → x.done = l.record →
      x.doneSet = [] → s.fatal = false → s.physReady l.slotPa true = (true, s) → s.physReady x.hdr true = (true, s) →
      s.coh = State.reset.coh → s.stash.lines = [] → s.mem.errors = [] → l.slotPa % 128 = 0 → x.hdr % 128 = 0 → x.hdr ≠ l.slotPa →
      s.backed l.slotPa = true → s.isSystem l.slotPa = false → s.backed x.hdr = true →
      Sparse.get? s.mem.chip (l.slotPa / 128) = none → Sparse.get? s.mem.chip (x.hdr / 128) = none →
      ∃ u : State, exec (.launchComplete id) s = .next u ∧ u.launches = s.launches.filter (fun y => y.id != id) ∧
        u.queue l.queue = { x with done := l.record + 1 } ∧
        u.lineAt (l.slotPa / 128) 0 = mergeLine (byteMask 0x34 4) (s.lineAt (l.slotPa / 128) 0)
          (putLine 0 0x34 4 (2 ^ 31 + 2 ^ 28 * l.status.getD 0)) ∧
        (l.run < 16 → (u.run l.run).ends = ((s.run l.run).ends || bitOf (l.words.getD 0 0).toNat 44))))

/-- R79, R80, R89, R179, R180, R181, R182, R183: RUN_LOAD of a free slot reads the block, and where every check of R79 passes
makes the slot resident with its fields and the next GEN, with no translation left under it; where one fails it sets BAD, a slot
in use is left alone, and a home that can not serve the block yet is waited for; RUN_CFG_BAD_CLEAR clears BAD. PREEMPT does
nothing to a run that need not give way; one with nothing left to save on the tiles leaves its slot once its header is written,
as a saved run with its configuration, milestone, floor and level, and where a byte of its save area can not be written it
stays, its fault raised or its line waited for. RESUME brings the next saved run back with the milestone and floor of its header
and the threads whose records have VALID set, once its stashes, mappings and jobs are read back; where a line of its area can
not be read it stays out, its fault raised or its line waited for. It gives a saved thread its registers, PC and task in its own
slot. No run is loaded, pre-empted or resumed on a device stopped by a fatal error. RUN_KILL ends a run ordered to end: its
threads stop, its queued tasks and grids go, its launches end KILLED. RUN_TEARDOWN of an ended run with no live launch makes it
an ending one, and that of an ending one frees the slot and its counters, tables and accumulator tags. Which parts of the save
area a resume takes from the area, the order in which they return, what a kill does with a thread at a trap, and that a load
waits for the block's home, are the model's choices (log entries 21, 22, 24, 34). -/
def Obligations.RunsComeAndGo : Prop :=
  (∀ (s : State) (n : Nat) (v : BitVec 64),
    exec (.runCfgBadClear n v) s = .next (s.setRun n { s.run n with bad := false }) ∧
    ((s.run n).phase ≠ .free → exec (.runLoad n v) s = .next s) ∧
    ((s.run n).phase = .free →
      let pa := 128 * bitsOf v.toNat 7 45
      let s1 := s.setRun n { s.run n with cfgpa := pa, loading := true }
      let f (i lo k : Nat) : Nat := bitsOf (lineNat (s.lineAt (pa / 128) 0) (8 * i) 8) lo k
      let base (i : Nat) : Prop := f i 0 64 % 2 ^ 16 = 0 ∧ f i 0 64 < 2 ^ 56
      let ok : Prop := s.backed pa = true ∧ s.poisoned (pa / 128) = false ∧ f 0 0 16 ≠ 0 ∧ f 0 28 36 = 0 ∧
        s.runSlotOf (f 0 0 16) = none ∧ s.savedOf (f 0 0 16) = none ∧ f 0 16 12 ≠ 0 ∧ f 1 0 64 % 2 ^ 13 = 0 ∧ f 1 0 64 < 2 ^ 52 ∧
        s.backed (f 1 0 64) = true ∧ base 2 ∧ base 3 ∧ base 4 ∧ base 5 ∧ base 6 ∧ 16 ≤ f 7 0 64 ∧ f 7 0 64 ≤ 30 ∧
        ∀ i, 8 ≤ i → i < 16 → f i 0 64 = 0
      (s.fatal = true → exec (.runLoad n v) s = .next s1) ∧
      (s.fatal = false → s.backed pa = true → (s1.physReady pa false).1 = false →
        exec (.runLoad n v) s = .next (s1.physReady pa false).2) ∧
      (ok → s.fatal = false → s1.physReady pa false = (true, s1) → ∃ (u : State) (r : Run), exec (.runLoad n v) s = .next u ∧ u.run n = r ∧ r.phase = .resident ∧ r.gen = ((s.run n).gen + 1) % 16 ∧
        r.cfgpa = pa ∧ r.cfg = { runid := f 0 0 16, asid := f 0 16 12, ptroot := f 1 0 64, spill := f 2 0 64, loga := f 3 0 64,
                                 stack := f 4 0 64, save := f 5 0 64, bmap := f 6 0 64, splog := f 7 0 64 } ∧
        r.milestone = ⟨BitVec.allOnes 64, BitVec.allOnes 32⟩ ∧ r.floor = ⟨0, 0⟩ ∧
        (∀ e ∈ u.tlb, ¬(e.run = n ∧ e.gen = r.gen)) ∧ (∀ e ∈ s.tlb, ¬(e.run = n ∧ e.gen = r.gen) → e ∈ u.tlb) ∧
        (∀ m, m ≠ n → u.run m = s.run m) ∧ s.SameBytes u) ∧
      (¬ok → s.fatal = false → s.backed pa = false ∨ s1.physReady pa false = (true, s1) →
        ∃ u : State, exec (.runLoad n v) s = .next u ∧ u.run n = { s.run n with cfgpa := pa, loading := false, bad := true } ∧
          (∀ m, m ≠ n → u.run m = s.run m) ∧ u = { s with runs := u.runs }))) ∧
  (∀ (s : State) (n : Nat),
    ((s.run n).killed = true ∨ s.fatal = true ∨ (s.run n).phase = .free ∨ (s.run n).phase = .ending ∨
        ((s.run n).phase = .resident ∧ s.mustPreempt n = false) → exec (.preempt n) s = .next s) ∧
    (n < 16 → (s.run n).killed = false → s.fatal = false → (s.run n).phase = .resident → s.mustPreempt n = true →
      s.runEntries n = [] → s.runThreads n = [] → s.runJobs n = [] → (∀ tile < 256, s.hasQueued n tile = false) →
      (∀ m ∈ s.stash.maps, m.run ≠ n) → (∀ p ∈ s.stash.touched, p.2 ≠ n) → (∀ r ∈ s.records, r.run ≠ some n) →
      let s1 := s.setRun n { s.run n with phase := .preempting }
      (∀ e, (s1.takeJobs n).clearArea n = .error e → exec (.preempt n) s = .next (s1.saveStop n e)) ∧
      (∀ v0, (s1.takeJobs n).clearArea n = .ok v0 →
        (∀ m ∈ v0.stash.maps, m.run ≠ n) →
        match v0.areaWrite 0 n ((v0.run n).cfg.save % 2 ^ 56) (v0.headWords n (v0.run n).returning.length) with
        | .error e => exec (.preempt n) s = .next (s1.saveStop n e)
        | .ok v => ∃ (u : State) (x : SavedRun), exec (.preempt n) s = .next u ∧ (u.run n).phase = .free ∧
            (u.run n).gen = (v.run n).gen ∧ u.saved = v.saved ++ [x] ∧ x.cfg = (v.run n).cfg ∧
            x.milestone = (v.run n).milestone ∧ x.floor = (v.run n).floor ∧ x.jobs = [] ∧ x.tasks = (v.run n).returning ∧ x.maps = [] ∧
            x.level = s.runLevel n))) ∧
  (∀ (s : State) (n : Nat),
    (16 ≤ n ∨ (s.run n).killed = true ∨ s.fatal = true ∨ (s.run n).phase = .preempting ∨ (s.run n).phase = .ending ∨
        ((s.run n).phase = .free ∧ s.nextSaved = none) ∨
        ((s.run n).phase = .resident ∧ (s.run n).resuming = false ∧ (s.run n).returning = []) →
      exec (.resume n) s = .next s) ∧
    (∀ x, n < 16 → (s.run n).killed = false → s.fatal = false → (s.run n).phase = .free → s.nextSaved = some x →
      (∀ r ∈ s.records, r.run ≠ some n) → s.savedOf x.cfg.runid = some x →
      let s0 := s.loadSlot n x.cfg x.cfgpa
      let s1 := s0.setRun n { s0.run n with resuming := true }
      match s1.areaRead 0 n 1024 (x.cfg.save % 2 ^ 56) with
      | .error e => exec (.resume n) s = .next (s1.saveStop n e)
      | .ok (w, v) => match v.loadParts n x with
      | .error e => exec (.resume n) s = .next (s1.saveStop n e)
      | .ok v2 => match v2.loadTasks n x with
      | .error e => exec (.resume n) s = .next (s1.saveStop n e)
      | .ok (tasks, v3) => ∃ u : State, exec (.resume n) s = .next u ∧ (u.run n).resuming = false ∧ (u.run n).phase = (v3.run n).phase ∧
        (u.run n).cfg = (v3.run n).cfg ∧ (u.run n).milestone = ⟨w.getD 1 0, (w.getD 2 0).setWidth 32⟩ ∧
        (u.run n).floor = ⟨w.getD 3 0, (w.getD 4 0).setWidth 32⟩ ∧ (u.run n).returning = tasks ∧
        u.saved = v3.saved.filter (fun y => y.cfg.runid != x.cfg.runid)) ∧
    (∀ th k w v, n < 16 → (s.run n).killed = false → s.fatal = false → (s.run n).phase = .resident → (s.run n).resuming = false →
      (s.run n).returning = [(th, k)] → k.spec = false → s.thread? th = none → (∀ r ∈ s.records, r.run ≠ some n) →
      s.areaRead (th / 64) n 1024 (((s.run n).cfg.save + (0x00100000 + 8192 * th)) % 2 ^ 56) = .ok (w, v) →
      (w.getD 0 0).getLsbD 0 = true → ∃ (u : State) (t : Thread) (c : Task), exec (.resume n) s = .next u ∧ u.thread? th = some t ∧ t.task = some c ∧
        t.pc = (w.getD 1 0).setWidth 56 ∧ c.ts = w.getD 2 0 ∧ c.func = k.func ∧ c.run = k.run ∧ c.hint = w.getD 4 0 ∧
        (∀ r : GReg, t.getG r = w.getD (8 + r.toNat) 0) ∧ (∀ r : MReg, r ≠ 0 → t.getM r = w.getD (24 + r.toNat) 0) ∧
        (∀ r : PReg, r ≠ 0 → t.getP r = (w.getD 32 0).getLsbD r.toNat) ∧ t.sr = (if (w.getD 33 0).setWidth 32 = 0#32 then 1 else (w.getD 33 0).setWidth 32) ∧
        (∀ (r : WReg) (i : Nat), i < 16 → lineNat (t.getW r) (8 * i) 8 = (w.getD (128 + 16 * r.toNat + i) 0).toNat) ∧
        t.pend = 0 ∧ t.outs = [] ∧ t.park = .run ∧
        (u.run n).returning = (v.run n).returning.filter (fun x => x.1 != th))) ∧
  (∀ (s : State) (n : Nat), n < 16 →
    let ended : Prop := (s.run n).phase = .resident ∧ (s.run n).ends = true ∧ (s.run n).killed = false ∧ (s.run n).resuming = false
    (((s.run n).phase ≠ .ending ∧ ¬ended) ∨ (∃ l ∈ s.launches, l.run = n) ∨ s.runThreads n ≠ [] ∨ s.runStores n = true →
      exec (.runTeardown n) s = .next s) ∧
    (ended → (∀ l ∈ s.launches, l.run ≠ n) → s.runThreads n = [] → s.runStores n = false →
      exec (.runTeardown n) s = .next (s.setRun n { s.run n with phase := .ending })) ∧
    ((s.run n).phase = .ending → (∀ l ∈ s.launches, l.run ≠ n) → s.runThreads n = [] → s.runStores n = false → (∀ m ∈ s.stash.maps, m.run ≠ n) →
      ∃ u : State, exec (.runTeardown n) s = .next u ∧ (u.run n).phase = .free ∧ (u.run n).gen = (s.run n).gen ∧
        (u.run n).cfg.runid = 0 ∧ (∀ m, m ≠ n → u.run m = s.run m) ∧
        (∀ tile, Sparse.get? (u.lodge tile).ctr n = none ∧ Sparse.get? (u.lodge tile).maxTs n = none ∧
          Sparse.get? (u.lodge tile).spmin n = none ∧ (u.lodge tile).blocksOf n = [] ∧
          (u.lodge tile).queue = (s.lodge tile).queue ∧ (u.lodge tile).cq = (s.lodge tile).cq) ∧
        u.accTag = s.accTag.filter (fun e => e.2 != (s.run n).cfg.runid) ∧ u.threads = s.threads ∧ s.SameBytes u)) ∧
  (∀ (s : State) (n : Nat), n < 16 →
    ((s.run n).killed = false ∨ (s.run n).phase = .free → exec (.runKill n) s = .next s) ∧
    ((s.run n).killed = true → (s.run n).phase ≠ .free → (s.run n).resuming = false → s.runEntries n = [] → s.runJobs n = [] →
      s.onHalted n = false → (∀ r ∈ s.records, r.run ≠ some n) → (∀ x ∈ s.runThreads n, ∀ t, s.thread? x.1 = some t → t.outs = []) →
      (∀ x ∈ s.stores, x.stopped = false) →
      (∀ x ∈ s.engines, (∀ j ∈ x.2.mq, j.run ≠ some n) ∧ ∀ l ∈ x.2.lanes, ∀ j ∈ l, j.run ≠ some n) →
      ∃ u : State, exec (.runKill n) s = .next u ∧ (u.run n).phase = .ending ∧ (u.run n).cfg = (s.run n).cfg ∧
        (∀ x ∈ s.runThreads n, u.thread? x.1 = none) ∧
        (∀ th, (∀ x ∈ s.runThreads n, x.1 ≠ th) → u.thread? th = s.thread? th) ∧
        (∀ tile, (u.lodge tile).queue = (s.lodge tile).queue.filter (fun t => t.run != n) ∧
          (u.lodge tile).grids = (s.lodge tile).grids.filter (fun g => g.run != n)) ∧
        u.sent = s.sent.filter (fun x => x.task.run != n) ∧ u.grids = s.grids.filter (fun g => g.run != n) ∧
        u.launches.length = s.launches.length ∧
        (∀ (k : Nat) (l : Launch), s.launches[k]? = some l →
          (l.run ≠ n → u.launches[k]? = some l) ∧
          (l.run = n → ∃ x, u.launches[k]? = some x ∧ x.id = l.id ∧ x.status = some (l.status.getD 4) ∧ x.entered = true)) ∧
        u.stores = s.stores ∧ s.SameBytes u))

/-- R20, R30, R35, R36, R37, R39, R46, R51, R53, R54, R56, R57, R59, R61, R62: SPREAD_SIZE takes a value up to 64 until
LOCK is set, HMASKk one with its own and no lower designated bit. MEMKEY_LOAD and GENERATE fill an empty key slot (LOAD
from 64 bytes of the stash, which it clears) and answer ERR 1 for a full one; DESTROY empties a slot other than 0, at
once where no access names it and else, with BUSY set between, when it is called again, and answers ERR 2 for slot 0 or
an empty one. A bias flip sets RESULT at once where nothing is to do, and otherwise sets BUSY and MIG and ends with the
page in its new state, to device bias once the holders have answered for both halves of each line recorded. A host or
peer read (the record k names a half and its holder) returns the half line, or all ones poisoned outside device memory,
which a write only counts; a write replaces the half at the home; a snoop answered unmodified changes no byte. A snoop
of a host line answers each half with one state and leaves no copy, or none but clean ones. A scrub read takes the next
slot of the first pseudo-channel with slots unread, at levels 0 and 1 past those in self-refresh, and counts or poisons as the
error says, or as the error that stood in the slot; with THRESH 0 none below level 2 is made. Deadline, forced read,
self-refresh (after IDLE cycles without a request, at least 4,096), BLOOM_CLEAR and HBM_WRITE act as R36 to R39, R33 and
R35 give, and HBM_WRITE changes no byte as it is read. What MEMKEY_CTL shows of a command, the order of the scrub and which
pseudo-channels a controller has, RESULT for a page of no device memory, what the home records of a holder, and that a host
event names a half and its holder, are the model's choices (log entries 35, 36, 39, 40, 65). -/
def Obligations.MemoryRegistersAndHost : Prop :=
  (∀ (s : State) (v : BitVec 64), let size := bitsOf v.toNat 0 7
    (bitOf (s.reg 0x008) 63 = true ∨ 64 < size → exec (.spreadSizeWrite v) s = .next s) ∧
    (bitOf (s.reg 0x008) 63 = false → size ≤ 64 → ∃ u : State, exec (.spreadSizeWrite v) s = .next u ∧
      bitsOf (u.reg 0x008) 0 7 = size ∧ bitOf (u.reg 0x008) 63 = v.getLsbD 63 ∧
      (v.getLsbD 63 = true → u.host.layoutDigest ≠ none) ∧ u = { s with regs := u.regs, host := u.host })) ∧
  (∀ (s : State) (k : Nat) (v : BitVec 64), let own (j : Nat) := if j = 12 then 22 else 7 + j
    (12 < k ∨ v.getLsbD (own k) = false ∨ (∃ j < k, v.getLsbD (own j) = true) → exec (.hmaskWrite k v) s = .next s) ∧
    (k ≤ 12 → v.getLsbD (own k) = true → (∀ j < k, v.getLsbD (own j) = false) → ∃ u : State, exec (.hmaskWrite k v) s = .next u ∧
      bitsOf (u.reg (0x020 + k)) 7 32 = bitsOf v.toNat 7 32 ∧ u = { s with regs := u.regs })) ∧
  (∀ (s : State) (v : BitVec 64), let k := bitsOf v.toNat 4 4
    let off := bitsOf v.toNat 16 20 / 64 * 64
    let ends (i : Instr) (err : Nat) (keys : Nat → Option KeyMaterial) : Prop := ∃ u : State, exec i s = .next u ∧
      bitOf (u.reg 0x038) 63 = false ∧ bitsOf (u.reg 0x038) 60 3 = err ∧ (∀ j, u.keyAt j = keys j) ∧ u.threads = s.threads
    (bitOf (s.reg 0x038) 63 = true → exec (.memkeyLoad v) s = .next s ∧ exec (.memkeyGenerate v) s = .next s) ∧
    (bitOf (s.reg 0x038) 63 = false →
      ((s.keyAt k).isSome = true → ends (.memkeyLoad v) 1 s.keyAt ∧ ends (.memkeyGenerate v) 1 s.keyAt) ∧
      (s.keyAt k = none →
        ends (.memkeyLoad v) 0 (fun j => if j = k then some (.loaded (BitVec.ofNat 512 (s.stashNat 0 off 64))) else s.keyAt j) ∧
        ends (.memkeyGenerate v) 0 (fun j => if j = k then some (.generated s.mem.randoms) else s.keyAt j) ∧
        ∃ u : State, exec (.memkeyLoad v) s = .next u ∧ ∀ i < 64, off < 2 ^ 20 → cellRead u.stash.cells (off + i) = 0) ∧
      (k = 0 ∨ s.keyAt k = none → ends (.memkeyDestroy v) 2 s.keyAt) ∧
      (k ≠ 0 → (s.keyAt k).isSome = true →
        (s.keyInFlight k = false → ends (.memkeyDestroy v) (if s.lostLines k = [] then 0 else 3)
          (fun j => if j = k then none else s.keyAt j)) ∧
        (s.keyInFlight k = true → ∃ u : State, exec (.memkeyDestroy v) s = .next u ∧ bitOf (u.reg 0x038) 63 = true ∧
          u.mem = s.mem))) ∧
    (bitOf (s.reg 0x038) 63 = true → let own := bitsOf (s.reg 0x038) 4 4
      ends (.memkeyDestroy v) (if s.lostLines own = [] then 0 else 3) (fun j => if j = own then none else s.keyAt j))) ∧
  (∀ (s : State) (host toHost : Bool) (v : BitVec 64), let page := bitsOf v.toNat 16 36
    let i : Instr := if toHost then .biasFlipToHost host v else .biasFlipToDevice host v
    let st := s.pageState page
    let device : Prop := s.backed (2 ^ 16 * page) = true ∧ s.isSystem (2 ^ 16 * page) = false
    let result (n : Nat) : Prop := ∃ u : State, exec i s = .next u ∧ bitOf (u.biasReg host) 63 = false ∧
      bitsOf (u.biasReg host) 60 3 = n ∧ u.mem = s.mem
    (bitOf (s.biasReg host) 63 = false →
      (¬device → result 2) ∧ (device → st.getLsbD 1 = true → result 1) ∧
      (device → st.getLsbD 1 = false → st.getLsbD 0 = toHost → result 0) ∧
      (device → st.getLsbD 1 = false → st.getLsbD 0 = !toHost →
        (toHost = true → ∃ u : State, exec i s = .next u ∧ bitOf (u.biasReg host) 63 = true ∧ u.pageState page = 0b10 ∧
          ∀ p, p ≠ page → u.pageState p = s.pageState p) ∧
        (toHost = false → (∀ x ∈ s.stores, x.answer = false) → s.pageHeld page = [] → s.pageSnoops page = [] → ∃ u : State, exec i s = .next u ∧ bitOf (u.biasReg host) 63 = false ∧
          bitsOf (u.biasReg host) 60 3 = 0 ∧ u.pageState page = 0b00 ∧ ∀ p, p ≠ page → u.pageState p = s.pageState p) ∧
        (toHost = false → (∀ x ∈ s.stores, x.answer = false) → s.pageHeld page ≠ [] → s.pageSnoops page = [] → ∃ u : State, exec i s = .next u ∧ bitOf (u.biasReg host) 63 = true ∧
          u.pageState page = 0b11 ∧ ∀ h ∈ s.pageHeld page, Sparse.get? u.mem.snoops h = some true))) ∧
    (bitOf (s.biasReg host) 63 = true → let own := bitsOf (s.biasReg host) 16 36
      (bitsOf (s.biasReg host) 0 2 = 1 → ∃ u : State, exec i s = .next u ∧ bitOf (u.biasReg host) 63 = false ∧
        bitsOf (u.biasReg host) 60 3 = 0 ∧ u.pageState own = 0b01) ∧
      (bitsOf (s.biasReg host) 0 2 ≠ 1 → (∀ x ∈ s.stores, x.answer = false) → s.pageHeld own = [] → s.pageSnoops own = [] → ∃ u : State, exec i s = .next u ∧
        bitOf (u.biasReg host) 63 = false ∧ u.pageState own = 0b00 ∧ s.SameBytes u))) ∧
  (∀ (s : State) (line : Nat) (upper modified : Bool) (data : BitVec 512), let half := 2 * line + upper.toNat
    (Sparse.get? s.mem.snoops half = none → exec (.birsp line upper modified data) s = .next s) ∧
    (∀ inv, Sparse.get? s.mem.snoops half = some inv → modified = false →
      ∃ u : State, exec (.birsp line upper modified data) s = .next u ∧ Sparse.get? u.mem.snoops half = none ∧
        Sparse.get? u.mem.hostLines half = (if inv = true ∨ Sparse.get? s.mem.hostLines half = none then none else some .shared) ∧ s.SameBytes u)) ∧
  (∀ (s : State) (k : Nat) (data : BitVec 512), let half := heldHalf k
    let line := half / 2
    let o := 64 * (half % 2)
    let device : Prop := s.backed (64 * half) = true ∧ s.isSystem (64 * half) = false
    let free : Prop := s.latchCycle = none ∧ (∀ h ∈ s.mem.hostLines, heldHalf h.1 / 2 ≠ line) ∧
      (∀ h ∈ s.mem.snoops, heldHalf h.1 / 2 ≠ line) ∧ ∀ x ∈ s.stores, x.answer = false
    (s.isSystem (64 * half) = true → exec (.hostMemRead k) s = .next s) ∧
    (s.isSystem (64 * half) = false → s.backed (64 * half) = false →
      (∃ u : State, exec (.hostMemRead k) s = .next u ∧ u.host.read = BitVec.allOnes 512 ∧ u.host.readPoison = true ∧
        bitsOf (u.reg 0x041) 32 16 = Nat.min 0xFFFF (bitsOf (s.reg 0x041) 32 16 + 1) ∧ s.SameBytes u) ∧
      ∀ p, ∃ u : State, exec (.hostMemWrite k data p) s = .next u ∧
        bitsOf (u.reg 0x041) 32 16 = Nat.min 0xFFFF (bitsOf (s.reg 0x041) 32 16 + 1) ∧ u = { s with regs := u.regs } ∧
        s.SameBytes u) ∧
    (device → free → s.coh = State.reset.coh → (∀ l ∈ s.stash.lines, l.dirty = false) → s.locked = true →
      (s.pageState (line / 512)).getLsbD 1 = false → (∀ c, Sparse.get? s.mem.chip line = some c → c.key = 0) →
      (∃ u : State, exec (.hostMemRead k) s = .next u ∧
        u.host.read = ((s.lineAt line 0) >>> (512 * (half % 2))).setWidth 512 ∧ u.host.readPoison = s.readsPoison line ∧
        ((s.pageState (line / 512)).getLsbD 0 = true → Sparse.get? u.mem.hostLines k = some .sole) ∧ s.SameBytes u) ∧
      (s.stores = [] → (s.keyAt 0).isSome = true → ∃ u : State, exec (.hostMemWrite k data false) s = .next u ∧ u.stores = [] ∧
        u.lineAt line 0 = mergeLine (byteMask o 64) (s.lineAt line 0) (data.setWidth 1024 <<< (8 * o)) ∧
        ∀ other key, other ≠ line → u.lineAt other key = s.lineAt other key)) ∧
    (∀ inv, s.isSystem (64 * half) = false → exec (.hostSnoop k inv) s = .next s) ∧
    (s.isSystem (64 * half) = true → (∀ l ∈ s.stash.lines, l.dirty = false) →
      let answers (u : State) (st : Nat) : Prop := u.sysHeld line = st ∧
        ((∀ h ∈ s.mem.dirty, h / 2 = line → Sparse.getD s.mem.grants h 0 ≠ 0) → ∀ h ∈ u.mem.dirty, h / 2 ≠ line) ∧
        u.mem = { s.mem with grants := u.mem.grants, dirty := u.mem.dirty, heldPort := u.mem.heldPort } ∧
        ∃ l, u.host.cache = l ++ [.response (2 * line) st, .response (2 * line + 1) st]
      (∃ u : State, exec (.hostSnoop k true) s = .next u ∧ (∀ l ∈ u.coh.l1, l.line ≠ line) ∧
        (∀ l ∈ u.stash.lines, l.pa ≠ line) ∧ answers u 0) ∧
      ∃ u : State, exec (.hostSnoop k false) s = .next u ∧ (u.l3 line).own = none ∧ u.stash = s.stash ∧
        answers u (Nat.min 1 (s.sysHeld line)))) ∧
  (∀ (s : State) (off : Nat) (write : Bool) (v : BitVec 64),
    (write = true ∨ bar0Assigned off = true → exec (.unassignedBar0Access off write v) s = .next s) ∧
    (write = false → bar0Assigned off = false → ∃ u : State, exec (.unassignedBar0Access off write v) s = .next u ∧
      u.host.bar0Read = 0 ∧ u = { s with host := { s.host with bar0Read := 0 } })) ∧
  (∀ (s : State) (c err : Nat), let enabled := bitOf (s.reg 0x031) 63
    let level := s.scrubLevelNow c
    let thresh := bitsOf (s.reg 0x031) 20 8
    let done (pc : Nat) := Sparse.getD s.mem.scrub pc 0
    let ours (pc : Nat) : Prop := 32 * c ≤ pc ∧ pc < 32 * c + 32
    let open' (pc : Nat) : Prop := done pc < 2 ^ 23 ∧ ¬((level = 0 ∨ level = 1) ∧ pc ∈ s.mem.selfRefresh)
    let period := 2250000000 * (60 * Nat.max 1 (bitsOf (s.reg 0x031) 0 20))
    (enabled = false ∨ 16 ≤ c → exec (.scrubRead c err) s = .next s ∧ exec (.scrubDeadline c) s = .next s) ∧
    (enabled = true → c < 16 → (level ≠ 2 ∧ thresh = 0) ∨ (∀ pc, ours pc → ¬open' pc) →
      ∃ u : State, exec (.scrubRead c err) s = .next u ∧ u.mem.scrub = s.mem.scrub ∧ u.regs = s.regs ∧ s.SameBytes u) ∧
    (∀ pc, enabled = true → c < 16 → level = 2 ∨ thresh ≠ 0 → ours pc → open' pc → (∀ p, ours p → p < pc → ¬open' p) →
      let slot := 2 ^ 23 * pc + done pc
      let found := match Sparse.get? s.mem.errors slot with
        | some true => 2
        | some false => Nat.max err 1
        | none => err
      let ends : Prop := done pc + 1 = 2 ^ 23 ∧ ∀ p, ours p → p ≠ pc → 2 ^ 23 ≤ done p
      ∃ u : State, exec (.scrubRead c err) s = .next u ∧ Sparse.get? u.mem.errors slot = none ∧
        (¬ends → Sparse.getD u.mem.scrub pc 0 = done pc + 1) ∧
        (ends → (∀ p, ours p → Sparse.getD u.mem.scrub p 0 = 0) ∧ Sparse.get? u.mem.scrubStart c = some s.cycle) ∧
        (level ≠ 0 → pc ∉ u.mem.selfRefresh) ∧
        (found = 0 → u.reg 0x032 = s.reg 0x032 ∧ s.SameBytes u) ∧
        (found = 1 → bitsOf (u.reg 0x032) 40 24 = Nat.min (2 ^ 24 - 1) (bitsOf (s.reg 0x032) 40 24 + 1) ∧ s.SameBytes u) ∧
        (2 ≤ found → slot ∈ u.mem.slotPoison) ∧
        (2 ≤ found → slot ∉ s.mem.slotPoison → s.poisoned (s.lineOfSlot slot) = false → bitOf (u.reg 0x032) 2 = true ∧ bitOf (u.reg 0x034) 63 = true ∧
          u.host.events.length = s.host.events.length + 1)) ∧
    (enabled = true → c < 16 → c ∉ s.mem.scrubLate → period ≤ s.cycle - Sparse.getD s.mem.scrubStart c 0 →
      ∃ u : State, exec (.scrubDeadline c) s = .next u ∧ bitOf (u.reg 0x032) 3 = true ∧ c ∈ u.mem.scrubLate ∧ s.SameBytes u) ∧
    (c ∈ s.mem.scrubLate ∨ s.cycle - Sparse.getD s.mem.scrubStart c 0 < period → exec (.scrubDeadline c) s = .next s) ∧
    (level = 0 → ∃ u : State, exec (.scrubForcedRead c) s = .next u ∧ u.mem.scrub = s.mem.scrub ∧ u.regs = s.regs ∧
      s.SameBytes u) ∧
    (∀ pc, level ≠ 0 → enabled = true → c < 16 → ours pc → done pc + 1 < 2 ^ 23 → (∀ p, ours p → p < pc → 2 ^ 23 ≤ done p) →
      Sparse.get? s.mem.errors (2 ^ 23 * pc + done pc) = none → ∃ u : State, exec (.scrubForcedRead c) s = .next u ∧
        Sparse.getD u.mem.scrub pc 0 = done pc + 1 ∧ pc ∉ u.mem.selfRefresh ∧ u.regs = s.regs ∧ s.SameBytes u)) ∧
  (∀ (s : State) (pc : Nat),
    (∃ u : State, exec (.selfRefreshEntry pc) s = .next u ∧ s.SameBytes u ∧ ∀ x, x ∈ u.mem.selfRefresh ↔
      x ∈ s.mem.selfRefresh ∨ (x = pc ∧ bitOf (s.reg 0x033) 63 = true ∧ pc < 512 ∧
        Nat.max 4096 (bitsOf (s.reg 0x033) 0 24) ≤ s.cycle - Sparse.getD s.mem.requested pc 0)) ∧
    ∃ u : State, exec (.selfRefreshExit pc) s = .next u ∧ u.mem.selfRefresh = s.mem.selfRefresh.filter (· != pc) ∧
      s.SameBytes u) ∧
  (∀ (s : State), ∃ u : State, exec .bloomClear s = .next u ∧ (∀ k, Sparse.getD u.coh.bloom k false = false) ∧ s.SameBytes u ∧
    u = { s with coh := { s.coh with bloom := [] } }) ∧
  (∀ (s : State) (line : Nat),
    (Sparse.get? s.mem.chip line = none ∨ s.locked = false → exec (.hbmWrite line) s = .next s) ∧
    ∀ c, Sparse.get? s.mem.chip line = some c →
      (s.keyAt c.key = none → exec (.hbmWrite line) s = .next s) ∧
      (s.locked = true → (s.keyAt c.key).isSome = true → ∃ u : State, exec (.hbmWrite line) s = .next u ∧
        Sparse.get? u.mem.chip line = none ∧ (∀ key, u.lineAt line key = s.lineAt line key) ∧
        (s.backed (line * 128) = true → s.isSystem (line * 128) = false → (s.mem.slotPoison.Pairwise (· < ·)) →
          u.poisoned line = c.poison)))

/-- R15, R17, R23, R24, R40, R48, R63, R65, R66, R67, R68, R70: A flit replay changes nothing; LATERAL_RETRAIN_FAIL and
CRITICAL_TEMPERATURE set their status bit and stop the device with a Fatal event. A fabric port that fails goes down, its stores in
flight and the lines held through it are lost, the lines of the reads sent on it and those that peers held modified through it are
poisoned, no other byte changes, and it is counted and logged; one that comes up is added to the set and logged. A failing host port
drops what the host held, poisons what it held modified, and stops the device. PORT_TRAINING_HELD is counted. POWER_THROTTLE shows
power, cap and thermal bits and counts a throttled window, and changes no byte and no thread. FW_SUBMIT rejects an image that is too
long, does not verify or has too low a version, and otherwise runs it and frees the service slots; FIRMWARE_LOSS goes back to waiting.
SVC_SUBMIT with a refused header is REJECTED, and with firmware not running changes only the register; an accepted one starts 32 service
slots at BASE + ENTRY; a device stopped by a fatal error takes none. SPDM_REQUEST answers a block, and the signature of the hash of its
exchange's transcript. Which accesses a failed port had under way, what a failing host port logs, what SVC_CTL shows at a restart and
what a service slot holds as it starts are the model's choices (log entries 41, 42, 43, 66). -/
def Obligations.LinksPowerFirmware : Prop :=
  (∀ (s : State), exec .flitReplay s = .next s ∧
    (∃ u : State, exec .lateralRetrainFail s = .next u ∧ u.fatal = true ∧ bitOf (u.reg 0x00D) 3 = true ∧
      u.host.events = s.host.events ++ [(2, 0x017)] ∧ u.threads = s.threads ∧ s.SameBytes u) ∧
    (∃ u : State, exec .criticalTemperature s = .next u ∧ u.fatal = true ∧ bitOf (u.reg 0x00D) 2 = true ∧
      u.host.events = s.host.events ++ [(2, 0x024)] ∧ u.threads = s.threads ∧ s.SameBytes u) ∧
    ∃ u : State, exec .portTrainingHeld s = .next u ∧ u = { s with regs := u.regs } ∧ s.SameBytes u ∧
      bitsOf (u.reg 0x041) 16 16 = Nat.min 0xFFFF (bitsOf (s.reg 0x041) 16 16 + 1)) ∧
  (∀ (s : State) (port : Nat), port < 12 →
    (∃ u : State, exec (.fabricPortUp port) s = .next u ∧ u.host.fabUp = s.host.fabUp ||| (1#12 <<< port) ∧
      u.host.events.length = s.host.events.length + 1 ∧ u = { s with host := u.host }) ∧
    (s.host.fabUp.getLsbD port = false → exec (.fabricPortFail port) s = .next s) ∧
    (s.host.fabUp.getLsbD port = true →
      let here (line : Nat) : Prop := Sparse.get? s.mem.heldPort line = some port
      let sent (x : PendStore) : Prop := x.agent ≠ .host ∧ s.sentOn port x.part = true
      let theirs (h : Nat × HostCopy) : Prop := heldBy h.1 = port + 1 ∧ h.2 = .modified
      let reading (p : Part) : Prop := s.sentOn port p = true ∧ ∃ x ∈ s.threads, ∃ o ∈ x.2.outs, p ∈ o.parts
      ∃ u : State, exec (.fabricPortFail port) s = .next u ∧ u.host.fabUp = s.host.fabUp &&& ~~~(1#12 <<< port) ∧
        bitsOf (u.reg 0x041) 0 16 = Nat.min 0xFFFF (bitsOf (s.reg 0x041) 0 16 + 1) ∧
        (∃ l, u.host.events = s.host.events ++ l ++ [(1, port)] ∧
          ((∀ h ∈ s.mem.hostLines, ¬theirs h) → (∀ p, ¬reading p) → (∀ a ∈ s.mem.asked, ¬here (a.1 / 2)) → l = [])) ∧
        (∀ h ∈ s.mem.hostLines, theirs h → s.backed (heldHalf h.1 / 2 * 128) = true → u.poisoned (heldHalf h.1 / 2) = true) ∧
        (∀ p, reading p → s.isSystem (p.pa / 128 * 128) = true → u.poisoned (p.pa / 128) = true) ∧
        (∀ h ∈ u.mem.hostLines, heldBy h.1 ≠ port + 1) ∧ (∀ g ∈ u.mem.grants, ¬here (g.1 / 2)) ∧
        (∀ pa key, ¬here (pa / 128) → u.byteAt pa key = s.byteAt pa key) ∧
        (∀ x, x ∈ u.stores ↔ x ∈ s.stores ∧ ∀ y ∈ s.stores, sent y → y.id ≠ x.id) ∧ (∀ l ∈ u.stash.lines, ¬here l.pa))) ∧
  (∀ (s : State), ∃ u : State, exec .hostPortFail s = .next u ∧ u.fatal = true ∧ u.host.hostUp = false ∧
    (∀ h ∈ u.mem.hostLines, heldBy h.1 ≠ 0) ∧ (∀ h ∈ u.mem.snoops, heldBy h.1 ≠ 0) ∧ u.threads = s.threads ∧
    (∃ l, u.host.events = s.host.events ++ l ++ [(1, 32), (2, 0x065)]) ∧ s.SameBytes u ∧
    ∀ h ∈ s.mem.hostLines, heldBy h.1 = 0 → h.2 = .modified → s.backed (heldHalf h.1 / 2 * 128) = true →
      u.poisoned (heldHalf h.1 / 2) = true) ∧
  (∀ (s : State) (watts : Nat) (thermal : Bool), let cap := Nat.min 2000 (Nat.max 600 (bitsOf (s.reg 0x00C) 0 12))
    ∃ u : State, exec (.powerThrottle watts thermal) s = .next u ∧ u = { s with regs := u.regs } ∧ s.SameBytes u ∧
      bitsOf (u.reg 0x00D) 20 12 = Nat.min 4095 watts ∧ bitOf (u.reg 0x00D) 1 = thermal ∧
      bitOf (u.reg 0x00D) 0 = decide (cap < watts) ∧
      bitsOf (u.reg 0x00D) 32 32 = (if cap < watts ∨ thermal = true then Nat.min (2 ^ 32 - 1) (bitsOf (s.reg 0x00D) 32 32 + 1)
        else bitsOf (s.reg 0x00D) 32 32)) ∧
  (∀ (s : State) (v : BitVec 64), let st := bitsOf (s.bar 0x0100 0) 0 2
    let len := bitsOf v.toNat 8 32
    let digest := Config.sha3 ((List.range len).map fun i => cellRead s.host.staging i)
    let good : Prop := len ≤ 2 ^ 24 ∧ Config.imageVerifies digest = true ∧
      Config.minSecurityVersion.toNat ≤ (Config.imageVersion digest).toNat
    (st = 1 ∨ st = 2 → ∃ u : State, exec (.fwSubmit v) s = .next u ∧ bitsOf (u.bar 0x0100 0) 0 2 = st ∧ u.threads = s.threads ∧
      u = { s with bar0 := u.bar0 }) ∧
    (st ≠ 1 → st ≠ 2 → (¬good → ∃ u : State, exec (.fwSubmit v) s = .next u ∧ bitsOf (u.bar 0x0100 0) 0 2 = 3 ∧
        u = { s with bar0 := u.bar0 }) ∧
      (good → ∃ u : State, exec (.fwSubmit v) s = .next u ∧ bitsOf (u.bar 0x0100 0) 0 2 = 2 ∧
        bitsOf (u.bar 0x0100 0) 4 4 = (Config.imageVersion digest).toNat ∧ u.host.fwDigest = some digest ∧
        (∀ th, u.thread? th = if th / 8 % 512 = 0 then none else s.thread? th) ∧ u.mem = s.mem)) ∧
    (∃ u : State, exec .firmwareLoss s = .next u ∧ bitsOf (u.bar 0x0100 0) 0 2 = 0 ∧ u.threads = s.threads ∧ u.mem = s.mem)) ∧
  (∀ (s : State) (v : BitVec 64), let st := bitsOf (s.bar 0x0110 (64 <<< 50)) 60 3
    let base := 2 ^ 16 * bitsOf (s.bar 0x0118 0) 16 36
    let spread := bitsOf v.toNat 50 7
    let len := bitsOf v.toNat 0 25
    let entry := bitsOf v.toNat 25 25
    let root := 2 ^ 16 * ((base + len + 2 ^ 16 - 1) / 2 ^ 16)
    let fits : Prop := root + 520 * 1024 ≤ 2 ^ 30 * (8 * spread) ∨
      (2 ^ 40 ≤ base ∧ root + 520 * 1024 ≤ 2 ^ 40 + 2 ^ 30 * (2 * (64 - spread)))
    let good : Prop := spread ≤ 64 ∧ len ≠ 0 ∧ len ≤ 2 ^ 24 ∧ entry % 8 = 0 ∧ entry < len ∧ fits
    let state (u : State) := bitsOf (u.bar 0x0110 (64 <<< 50)) 60 3
    (st = 1 ∨ st = 2 ∨ s.fatal = true → exec (.svcSubmit v) s = .next s) ∧
    (st ≠ 1 → st ≠ 2 → s.fatal = false → bitsOf (s.bar 0x0100 0) 0 2 ≠ 2 → ∃ u : State, exec (.svcSubmit v) s = .next u ∧ state u = st ∧
      u = { s with bar0 := u.bar0 }) ∧
    (st ≠ 1 → st ≠ 2 → s.fatal = false → bitsOf (s.bar 0x0100 0) 0 2 = 2 →
      (¬good → ∃ u : State, exec (.svcSubmit v) s = .next u ∧ state u = 3 ∧ u = { s with bar0 := u.bar0 }) ∧
      (good → ∃ u : State, exec (.svcSubmit v) s = .next u ∧ state u = 2 ∧ u.host.svcDigest ≠ none ∧
        (s.locked = false → bitsOf (u.reg 0x008) 0 7 = spread ∧ bitOf (u.reg 0x008) 63 = true) ∧
        ∀ die < 4, ∀ k < 8, ∃ t, u.thread? (4096 * die + k) = some t ∧ t.task = none ∧
          t.pc = BitVec.ofNat 56 (base + entry) ∧ t.getG 0 = BitVec.ofNat 64 die ∧ t.getG 1 = BitVec.ofNat 64 k ∧
          t.getG 2 = BitVec.ofNat 64 base ∧ t.park = .run ∧ t.pend = 0))) ∧
  (∀ (s : State) (block : Nat), (block = 0 ∨ 4 < block → exec (.spdmRequest block) s = .next s) ∧
    (1 ≤ block → block ≤ 4 → ∃ u : State, exec (.spdmRequest block) s = .next u ∧
      (∃ n, u.host.signature = Config.identitySignature (Config.sha3 (Config.spdmTranscript n block u.host.read))) ∧ u.host.readPoison = false ∧ u.mem = s.mem ∧
      (∀ d, (block = 1 ∧ s.host.fwDigest = some d) ∨ (block = 2 ∧ s.host.svcDigest = some d) ∨
        (block = 3 ∧ s.host.layoutDigest = some d) ∨ (block = 4 ∧ d = s.host.svn.setWidth 512) → u.host.read = d)))

/-- R125, R136, R212, R215, R221, R222, R224, R226, R229, R231, R233, R234, R237: DIRECTORY_EVICT takes an entry out with the copies it
records, its marked tiles or dies becoming wide; UPGRADE_REQUEST refetches a line whose tag does not serve the view; OWNERSHIP_REQUEST
and RECALL set and clear the owner, a line that must come from HBM waiting for the layout (R20); SHARER_INVALIDATE takes a recorded
tile's copies that the change vector hits and no others; SOURCE_FORMAT_DEMOTE leaves every record FULL, and SF unset where no mark
stands. REPLICA_FILL installs the replica whose fill is on its way, where REPL_CTL.WAYS leaves it a way, REPLICA_DROP and the collapses
take it away, a lazy one when it is acknowledged. REGION_EVALUATION gives the region whose turn it is, once, the degree of R234 within
FLOOR and CEIL and halves its counts; the replicas of a quadrant that leaves go, on R and U pages by a collapse that waits for its
acknowledgement. REPL_RSTATE, LODGE_CFG, HOT_SEL and DIR_SEL writes and PAGE_HOTNESS_HALVING, which happens every 2^20 cycles, do what
their tables give. None of them changes memory; a line that was modified may be written back, and its bytes read as before. Which line
gives way where a set is full, what an evaluation counts, what a replica's drop or collapse leaves of the die's record, and when an
owner's own waystation acknowledges, are the model's choices (log entries 8, 44, 64, 68, 69). -/
def Obligations.CoherenceSteps : Prop :=
  (∀ (s : State) (die line : Nat),
    (s.l2? die line = none → exec (.directoryEvict false die line) s = .next s) ∧
    (∀ e, s.l2? die line = some e → ∃ u : State, exec (.directoryEvict false die line) s = .next u ∧ u.l2? die line = none ∧
      ((∀ m ∈ s.stash.lines, ¬(m.pa = line ∧ m.dirty = true ∧ dieOfTile m.tile = die)) → (s.l3 line).own ≠ some die ∨ e.dst ≠ 3 →
        u.mem = s.mem) ∧
      (∀ i < 64, (e.swm ||| e.srm).getLsbD i = true → (die * 64 + i, e.srun, s.nextStore) ∈ u.coh.wide) ∧
      ∀ r ∈ e.tiles, ∀ l ∈ u.coh.l1, ¬(l.core / 8 = die * 64 + r.1 ∧ l.line = line)) ∧
    (s.l3? line = none → exec (.directoryEvict true die line) s = .next s) ∧
    (∀ e, s.l3? line = some e → ∃ u : State, exec (.directoryEvict true die line) s = .next u ∧ u.l3? line = none ∧
      ((∀ m ∈ s.stash.lines, ¬(m.pa = line ∧ m.dirty = true)) → (∀ d, e.own = some d → (s.l2 d line).dst ≠ 3) →
        s.isSystem (line * 128) = false → u.mem = s.mem) ∧
      (∀ d < 4, (e.swm ||| e.srm).getLsbD d = true → (d, e.srun, s.nextStore) ∈ u.coh.wideDies) ∧
      (∀ l ∈ u.coh.l1, l.line ≠ line) ∧ ∀ t ∈ u.coh.scopeTags, t.word / 16 ≠ line)) ∧
  (∀ (s : State) (tile line : Nat) (v : View),
    ((∀ l ∈ s.coh.l1, l.core / 8 = tile → l.line = line → l.icache = false → l.tag.serves v = true) →
      exec (.upgradeRequest tile line v) s = .next s) ∧
    (∀ l, s.coh = { State.reset.coh with l1 := [l] } → l.core / 8 = tile → l.line = line → l.icache = false →
      l.tag.serves v = false → l.hint ≠ 3 → (∀ m ∈ s.stash.lines, m.dirty = false) →
      (∀ c, Sparse.get? s.mem.chip line = some c → c.key = l.key) →
      ∃ (u : State) (x : L1Line), exec (.upgradeRequest tile line v) s = .next u ∧ u.coh.l1 = [x] ∧ x.core = l.core ∧ x.line = line ∧
        x.tag.serves v = true ∧ x.data = s.lineAt line l.key ∧ s.SameBytes u)) ∧
  (∀ (s : State) (die line : Nat),
    let waits : Prop := s.locked = false ∧ s.isSystem (line * 128) = false ∧ Sparse.get? s.mem.chip line = none
    ((s.l3 line).hw = true ∨ (s.l3 line).own = some die ∨ 4 ≤ die ∨ waits → exec (.ownershipRequest die line) s = .next s) ∧
    ((s.l3 line).hw = false → (s.l3 line).own ≠ some die → die < 4 → ¬waits → (s.l3 line).drec.length = 4 →
      ∃ u : State, exec (.ownershipRequest die line) s = .next u ∧ (u.l3 line).own = some die ∧ (u.l2 die line).dst = 2 ∧
        (∀ x < 4, x ≠ die → (u.l3 line).die x = none) ∧
        (s.coh.l2.length < 16 → s.coh.l3.length + s.coh.replicas.length < 16 → (s.l3 line).own = none → s.SameBytes u)) ∧
    ((s.l3 line).own = none → exec (.ownershipRecall line) s = .next s) ∧
    (∀ d, (s.l3 line).own = some d → ∃ u : State, exec (.ownershipRecall line) s = .next u ∧ (u.l3 line).own = none ∧
      (u.l2 d line).dst ≤ 1 ∧ (∀ key, u.lineAt line key = s.lineAt line key) ∧
      ((s.l2 d line).dst ≠ 3 ∨ Sparse.get? s.mem.chip line = none → u = { s with coh := u.coh }))) ∧
  (∀ (s : State) (tile line : Nat) (cv : BitVec 5),
    (∀ e, s.l2? (tile / 64) line = some e → ∀ r, e.tiles.find? (fun r => r.1 == tile % 64) = some r →
      (cv &&& r.2.1.mask = 0 → ∃ u : State, exec (.sharerInvalidate tile line cv) s = .next u ∧ u.coh.l1 = s.coh.l1 ∧
        u.stash = s.stash ∧ u.mem = s.mem) ∧
      (cv &&& r.2.1.mask ≠ 0 → r.2.2 = false → ∃ u : State, exec (.sharerInvalidate tile line cv) s = .next u ∧ u.mem = s.mem ∧
        ∀ l, l ∈ u.coh.l1 ↔ l ∈ s.coh.l1 ∧ ¬(l.core / 8 = tile ∧ l.line = line ∧ cv &&& l.tag.mask ≠ 0))) ∧
    (s.l2? (tile / 64) line = none → exec (.sharerInvalidate tile line cv) s = .next s) ∧
    (s.l3? line = none → exec (.sourceFormatDemote line) s = .next s) ∧
    (s.l3? line ≠ none → ∃ u : State, exec (.sourceFormatDemote line) s = .next u ∧ (u.l3 line).hw = false ∧ u.mem = s.mem ∧
      (∀ d f m, (u.l3 line).die d = some (f, m) → f = .full) ∧
      ((s.l3 line).swm = 0 → (s.l3 line).srm = 0 → s.coh.wide = [] → s.coh.wideDies = [] →
        (∀ x ∈ s.coh.l2, x.line = line → x.swm = 0 ∧ x.srm = 0 ∧
          ((s.l3 line).die x.die ≠ none ∨ ∀ r ∈ x.recs, r.2.1 = .full)) →
        (u.l3 line).sf = none ∧ ∀ x ∈ u.coh.l2, x.line = line → x.sf = none))) ∧
  (∀ (s : State) (quad line : Nat), quad < 4 →
    let has : Prop := ∃ r ∈ s.coh.replicas, r.quad = quad ∧ r.line = line
    let ours (r : Replica) : Bool := r.quad == quad && r.line == line
    let ways := Nat.min 12 (bitsOf (s.reg 0x403) 0 4)
    let near := s.coh.replicas.filter fun r => r.quad == quad && sliceOf r.line == sliceOf line
    (s.coh.filling.find? ours = none → exec (.replicaFill quad line) s = .next s) ∧
    (∀ x, s.coh.filling.find? ours = some x →
      (near.length < ways → (s.inSlice quad (sliceOf line)).length < 16 → ∃ u : State, exec (.replicaFill quad line) s = .next u ∧ u.coh.replicas = s.coh.replicas ++ [x] ∧
        u.coh.filling = s.coh.filling.filter (fun r => !ours r) ∧ u.mem = s.mem) ∧
      (ways = 0 → ∃ u : State, exec (.replicaFill quad line) s = .next u ∧ (∀ r ∈ u.coh.replicas, ours r = false) ∧
        u.coh.filling = s.coh.filling.filter (fun r => !ours r) ∧ (u.l3 line).rep.getLsbD quad = false ∧ u.mem = s.mem)) ∧
    (¬has → exec (.replicaDrop quad line) s = .next s) ∧
    (has → ∃ u : State, exec (.replicaDrop quad line) s = .next u ∧ (∀ r ∈ u.coh.replicas, ¬(r.quad = quad ∧ r.line = line)) ∧
      (u.l3 line).rep.getLsbD quad = false ∧ u = { s with coh := u.coh }) ∧
    (∃ u : State, exec (.eagerCollapse line) s = .next u ∧ (u.l3 line).rep = 0 ∧ (u.l3 line).cpq = 0 ∧ u.mem = s.mem ∧
      ∀ r ∈ u.coh.replicas, r.line = line → r.quad < 4 → (s.l3 line).rep.getLsbD r.quad = false) ∧
    (∃ u : State, exec (.lazyCollapse line) s = .next u ∧ u.coh.replicas = s.coh.replicas ∧
      (u.l3 line).cpq = (s.l3 line).cpq ||| (s.l3 line).rep ∧ u = { s with coh := u.coh } ∧
      ((s.l3 line).rep.getLsbD quad = true → ∃ c ∈ u.coh.collapses, c.quad = quad ∧ c.line = line)) ∧
    ((∀ c ∈ s.coh.collapses, ¬(c.quad = quad ∧ c.line = line)) → exec (.collapseAck quad line) s = .next s) ∧
    (∀ c, s.coh.collapses.find? (fun c => c.quad == quad && c.line == line) = some c →
      ∃ u : State, exec (.collapseAck quad line) s = .next u ∧ (∀ x ∈ u.coh.collapses, ¬(x.quad = quad ∧ x.line = line)) ∧
        (u.l3 line).cpq.getLsbD quad = false ∧ u.mem = s.mem ∧
        (c.cv.getLsbD 0 = true → ∀ r ∈ u.coh.replicas, ¬(r.quad = quad ∧ r.line = line)))) ∧
  (∀ (s : State), let n := s.cycle % 2 ^ 20
    let r := s.region n
    let turn : Prop := s.backed (2 ^ 21 * n) = true ∧ s.isSystem (2 ^ 21 * n) = false ∧ Sparse.get? s.periodic 0 ≠ some s.cycle
    (¬turn → exec .regionEvaluation s = .next s) ∧
    (turn → r.rq.length = 4 →
      let others := (List.range 4).filter fun q => q != s.homeQuad (2 ^ 14 * n)
      let reads := (others.map fun q => r.rq.getD q 0).sum
      let able := (others.filter fun q => bitsOf (s.reg 0x400) 16 8 ≤ r.rq.getD q 0).length
      let frac := Nat.min 256 (bitsOf (s.reg 0x402) 0 9)
      let target := if bitOf (s.reg 0x403) 63 = false then 0
        else if bitsOf (s.reg 0x400) 0 10 ≤ reads ∧ 256 * r.wr ≤ frac * (reads + r.wr) then Nat.max r.deg (Nat.min (r.deg + 1) able)
        else if reads < bitsOf (s.reg 0x401) 0 10 ∨ frac * (reads + r.wr) < 256 * r.wr then r.deg - 1 else r.deg
      ∃ (u : State) (x : Region), exec .regionEvaluation s = .next u ∧ u.region n = x ∧ x.deg = Nat.min (Nat.max target r.floor) r.ceil ∧
        x.floor = r.floor ∧ x.ceil = r.ceil ∧ x.rq = r.rq.map (fun k => k / 2) ∧ x.wr = r.wr / 2 ∧ u.mem = s.mem ∧
        Sparse.get? u.periodic 0 = some s.cycle ∧
        ∀ y ∈ u.coh.replicas, regionOf y.line = n → r.qset.getLsbD y.quad = true → x.qset.getLsbD y.quad = true ∨
          (y.cls ≠ .t ∧ ∃ c ∈ u.coh.collapses, c.quad = y.quad ∧ c.line = y.line))) ∧
  (∀ (s : State) (v : BitVec 64), let n := bitsOf (s.reg 0x404) 21 31
    let named : Prop := s.backed (2 ^ 21 * n) = true ∧ s.isSystem (2 ^ 21 * n) = false
    let lo := bitsOf v.toNat 2 2
    let hi := bitsOf v.toNat 4 2
    (¬named ∨ hi < lo → exec (.replRstateWrite v) s = .next s) ∧
    (named → lo ≤ hi → ∃ u : State, exec (.replRstateWrite v) s = .next u ∧ u.region n = { s.region n with floor := lo, ceil := hi } ∧
      (∀ m, m ≠ n → u.region m = s.region m) ∧ s.SameBytes u)) ∧
  (∀ (s : State), let turn : Prop := s.cycle % 2 ^ 20 = 0 ∧ Sparse.get? s.periodic 1 ≠ some s.cycle
    (¬turn → exec .pageHotnessHalving s = .next s) ∧
    (turn → ∃ u : State, exec .pageHotnessHalving s = .next u ∧ u = { s with coh := u.coh, periodic := u.periodic } ∧
    Sparse.get? u.periodic 1 = some s.cycle ∧ s.SameBytes u ∧
    ∀ k, Sparse.get? u.coh.hot k = (Sparse.get? s.coh.hot k).map fun e =>
      { e with count := e.count / 2, sx := e.sx / 2, sy := e.sy / 2, qc := e.qc.map fun x => x / 2 })) ∧
  (∀ (s : State) (die : Nat) (v : BitVec 64), let r (u : State) (k : Nat) := u.reg (k + 0x1000 * die)
    (∃ u : State, exec (.hotSel die v) s = .next u ∧ u = { s with regs := u.regs } ∧
      bitsOf (r u 0x420) 0 20 = bitsOf v.toNat 0 20 ∧
      (Sparse.get? s.coh.hot (bitsOf v.toNat 0 20) = none → r u 0x421 = 0 ∧ r u 0x422 = 0 ∧ r u 0x423 = 0) ∧
      (∀ e, Sparse.get? s.coh.hot (bitsOf v.toNat 0 20) = some e → bitOf (r u 0x421) 63 = true ∧
        bitsOf (r u 0x421) 16 36 = e.page % 2 ^ 36 ∧ bitsOf (r u 0x422) 48 16 = e.count % 2 ^ 16 ∧
        bitsOf (r u 0x422) 24 24 = e.sy % 2 ^ 24 ∧ bitsOf (r u 0x422) 0 24 = e.sx % 2 ^ 24 ∧
        ∀ q < 4, bitsOf (r u 0x423) (16 * q) 16 = e.qc.getD q 0 % 2 ^ 16)) ∧
    (∃ u : State, exec (.dirSel die v) s = .next u ∧
      let line := bitsOf v.toNat 7 45
      let now := s.clearSf line
      u = { now with regs := u.regs } ∧
      let found (n : Nat) : Prop := bitOf (r u 0x0F4) 63 = true ∧ bitsOf (r u 0x0F4) 0 16 = bitsOf n 192 16 ∧
        ∀ i < 3, r u (0x0F1 + i) = bitsOf n (64 * i) 64
      let nothing : Prop := ∀ i < 4, r u (0x0F1 + i) = 0
      (v.getLsbD 63 = true → (now.l3? line = none → nothing) ∧
        ∀ e, now.l3? line = some e → found (e.bits (s.coh.filling.any fun r => r.line == line))) ∧
      (v.getLsbD 63 = false → (now.l2? (bitsOf v.toNat 56 2) line = none → nothing) ∧
        ∀ e, now.l2? (bitsOf v.toNat 56 2) line = some e → found e.bits)) ∧
    ∃ u : State, exec (.lodgeCfgWrite v) s = .next u ∧ u = { s with regs := u.regs } ∧
      (∀ k < 64, (u.reg 0x200).testBit k = if k < 7 ∨ (32 ≤ k ∧ k < 41) ∨ 44 ≤ k then v.getLsbD k else (s.reg 0x200).testBit k))

/-- R5, R8, R277, R278, R281, R284, R286, R287, R469: DBG_HALT halts a tile that runs with CAUSE 1 and sends its group's trigger;
CROSS_TRIGGER halts the other tiles of the group with CAUSE 3; DBG_RESUME lets a halted tile run, its threads at a BKPT going on after
it; DBG_STEP lets each thread that may issue do so once, and ends with CAUSE 4 where none may, which sends the trigger too; on a tile in
the wrong state each changes nothing. BELL waits for its period, then counts a tick and moves OFF past a record that fits or counts a
dropped one; a write to BELL_STAT sets OFF. CORE_DUMP halts every tile, clears GO and sets ERR for a range that is not backed. A record
goes into the Itinerary at its offset while the recorder is on. Device reset empties every unit and register and keeps HBM's bytes. A
register write sets the RW bits, clears the W1C bits written as 1, and changes no other bit; one that clears SCOPE_CTL.EN ends every
scope tag (R283). What a halt clears and shows, which threads a step waits for, the order of a dump and what a device reset keeps are
the model's choices (log entries 48, 50, 52, 54). -/
def Obligations.DebugAndRegisters : Prop :=
  (∀ (s : State) (tile : Nat), let r (u : State) := u.reg (0x500 + tile)
    (256 ≤ tile ∨ tile ∈ s.dbg.halted → exec (.dbgHalt tile) s = .next s) ∧
    (tile < 256 → tile ∉ s.dbg.halted → ∃ u : State, exec (.dbgHalt tile) s = .next u ∧ bitsOf (r u) 60 3 = 1 ∧
      bitsOf (r u) 54 6 = 0 ∧ bitsOf (r u) 0 2 = 0 ∧ (∀ t, t ∈ u.dbg.halted ↔ t = tile ∨ t ∈ s.dbg.halted) ∧
      (∀ t, t ∈ u.dbg.triggers ↔ (t = tile ∧ bitsOf (r s) 8 4 ≠ 0) ∨ t ∈ s.dbg.triggers) ∧
      u = { s with regs := u.regs, dbg := u.dbg } ∧ s.SameBytes u) ∧
    (tile ∉ s.dbg.halted → exec (.dbgResume tile) s = .next s ∧ exec (.dbgStep tile) s = .next s) ∧
    (tile ∈ s.dbg.halted → s.dbg.window = [] → Sparse.sorted s.threads = true →
      (∃ u : State, exec (.dbgResume tile) s = .next u ∧ bitsOf (r u) 60 3 = 0 ∧ u.dbg.halted = s.dbg.halted.filter (· != tile) ∧
        (∀ th, tileOf th ≠ tile → u.thread? th = s.thread? th) ∧ s.SameBytes u ∧
        ∀ th t, tileOf th = tile → s.thread? th = some t → u.thread? th =
          some (if t.park = .bkpt then { t.advance 8 with park := .run, lastIssue := s.cycle } else t)) ∧
      ((∀ th ∈ s.dbg.stepping, tileOf th ≠ tile) → (∀ x ∈ s.tileThreads tile, x.2.park ≠ .bkpt) →
        let ready := ((s.tileThreads tile).filter fun x => !isInnkeeperCore (coreOf x.1) && s.runIssues x.2 &&
          !(x.2.outs.any fun o => o.sc) && s.wakes x.1 x.2).map fun x => x.1
        ∃ u : State, exec (.dbgStep tile) s = .next u ∧ u.threads = s.threads ∧ u.dbg.halted = s.dbg.halted ∧ s.SameBytes u ∧
          u.dbg.stepping = s.dbg.stepping ++ ready ∧ (ready = [] → bitsOf (r u) 60 3 = 4 ∧ bitsOf (r u) 0 2 = 0 ∧ (bitsOf (r s) 8 4 ≠ 0 → tile ∈ u.dbg.triggers)) ∧
          (ready ≠ [] → bitsOf (r u) 0 2 = 3))) ∧
    (tile ∉ s.dbg.triggers → exec (.crossTrigger tile) s = .next s) ∧
    (tile ∈ s.dbg.triggers →
      let joins (t : Nat) : Prop := t < 256 ∧ t ≠ tile ∧ bitsOf (r s) 8 4 ≠ 0 ∧
        bitsOf (s.reg (0x500 + t)) 8 4 = bitsOf (r s) 8 4
      ∃ u : State, exec (.crossTrigger tile) s = .next u ∧ (∀ t, t ∈ u.dbg.halted ↔ t ∈ s.dbg.halted ∨ joins t) ∧
        (∀ t, joins t → t ∉ s.dbg.halted → bitsOf (u.reg (0x500 + t)) 60 3 = 3) ∧ u.threads = s.threads ∧ s.SameBytes u)) ∧
  (∀ (s : State) (v : BitVec 64), let off := bitsOf (s.reg 0x602) 0 32
    (bitOf (s.reg 0x600) 63 = false ∨ s.cycle < s.dbg.bellNext → exec .bell s = .next s) ∧
    (bitOf (s.reg 0x600) 63 = true → s.dbg.bellNext ≤ s.cycle →
      let n := ((List.range 16384).filter fun th => s.dbg.bellTick == 0 ||
        s.bellEntry th != Sparse.getD s.dbg.bellPrev th 0).length
      let len := 0x840 + 8 * n
      let size := 2 ^ Nat.max 18 (bitsOf (s.reg 0x600) 32 5)
      ∃ u : State, exec .bell s = .next u ∧ u.dbg.bellTick = s.dbg.bellTick + 1 ∧ u.threads = s.threads ∧
        u.dbg.bellNext = s.dbg.bellNext + Nat.max 4096 (bitsOf (s.reg 0x600) 0 32) ∧
        (size < off + len → bitsOf (u.reg 0x602) 0 32 = off ∧
          bitsOf (u.reg 0x602) 32 32 = Nat.min (2 ^ 32 - 1) (bitsOf (s.reg 0x602) 32 32 + 1) ∧ s.SameBytes u) ∧
        (off + len ≤ size → bitsOf (u.reg 0x602) 0 32 = (off + len) % 2 ^ 32 ∧
          bitsOf (u.reg 0x602) 32 32 = bitsOf (s.reg 0x602) 32 32)) ∧
    (∃ u : State, exec (.bellRestart v) s = .next u ∧ u = { s with regs := u.regs } ∧
      bitsOf (u.reg 0x602) 0 32 = bitsOf v.toNat 0 32 ∧ bitsOf (u.reg 0x602) 32 32 = bitsOf (s.reg 0x602) 32 32) ∧
    (let base := 4096 * bitsOf v.toNat 12 40
     let size := 2 ^ Nat.min 40 (Nat.max 16 (bitsOf v.toNat 0 6))
     ∃ u : State, exec (.coreDump v) s = .next u ∧ (∀ t < 256, t ∈ u.dbg.halted) ∧ bitOf (u.reg 0x630) 63 = false ∧
      bitsOf (u.reg 0x630) 12 40 = bitsOf v.toNat 12 40 ∧ bitsOf (u.reg 0x630) 0 6 = bitsOf v.toNat 0 6 ∧
      u.threads = s.threads ∧ (s.rangeBacked base size = false → bitOf (u.reg 0x630) 62 = true) ∧
      (s.rangeBacked base size = true → s.dumpStores = [] → bitOf (u.reg 0x630) 62 = false))) ∧
  (∀ (s : State) (kind tile : Nat) (w1 w2 w3 : BitVec 64), let i := Instr.itineraryRecord kind tile w1 w2 w3
    let at' := 4096 * bitsOf (s.reg 0x641) 12 40 + s.dbg.itinOff
    let w0 := BitVec.ofNat 64 (kind + 2 ^ 8 * (tile % 256) + 2 ^ 16 * (s.dbg.csn % 2 ^ 48))
    let size := 2 ^ Nat.max 16 (bitsOf (s.reg 0x640) 32 5)
    (bitOf (s.reg 0x640) 63 = false ∨ bitOf (s.reg 0x640) 62 = true ∨ s.dbg.itinStopped = true → exec i s = .next s) ∧
    (bitOf (s.reg 0x640) 63 = true → bitOf (s.reg 0x640) 62 = false → s.dbg.itinStopped = false →
      (size < s.dbg.itinOff + 64 → ∃ u : State, exec i s = .next u ∧ u.dbg.itinStopped = true ∧ bitOf (u.reg 0x642) 63 = true ∧
        bitsOf (u.reg 0x642) 14 48 = s.dbg.csn % 2 ^ 48) ∧
      (s.dbg.itinOff + 64 ≤ size → ∃ u : State, exec i s = .next u ∧ u.dbg.itinOff = s.dbg.itinOff + 32 ∧
        u.dbg.itinStopped = false ∧ u.threads = s.threads ∧
        (at' % 32 = 0 → s.locked = true → (∀ x ∈ s.stores, x.agent ≠ .launch 0) → s.coh = State.reset.coh → (∀ l ∈ s.stash.lines, l.dirty = false) →
          s.backed (at' / 128 * 128) = true → s.isSystem (at' / 128 * 128) = false →
          (∀ c, Sparse.get? s.mem.chip (at' / 128) = some c → c.key = 0) →
          ∀ k < 4, lineNat (u.lineAt (at' / 128) 0) (at' % 128 + 8 * k) 8 = ([w0, w1, w2, w3].getD k 0).toNat)))) ∧
  (∀ (s : State), ∃ u : State, exec .deviceReset s = .next u ∧ u.cycle = 0 ∧ u.fatal = false ∧ u.threads = [] ∧ u.regs = [] ∧
    u.bar0 = [] ∧ u.runs = [] ∧ u.saved = [] ∧ u.queues = [] ∧ u.launches = [] ∧ u.lodges = [] ∧ u.stash = State.reset.stash ∧
    u.coh = State.reset.coh ∧ u.mem.hbm = s.mem.hbm ∧ u.mem.sys = s.mem.sys ∧ u.stores = [] ∧ u.records = []) ∧
  (∀ (s : State) (die num : Nat) (v : BitVec 64),
    (bar0Assigned num = false → exec (.registerWrite true die num v) s = .next s) ∧
    (0x01000000 ≤ num → num < 0x02000000 → num % 8 = 0 → ∃ u : State, exec (.registerWrite true die num v) s = .next u ∧
      (∀ k < 8, cellRead u.host.staging (num % 2 ^ 24 + k) = BitVec.ofNat 8 (bitsOf v.toNat (8 * k) 8)) ∧
      (∀ a, a < num % 2 ^ 24 ∨ num % 2 ^ 24 + 8 ≤ a → cellRead u.host.staging a = cellRead s.host.staging a) ∧
      u.threads = s.threads ∧ s.SameBytes u) ∧
    (regSpec num = none ∨ 4 ≤ die → exec (.registerWrite false die num v) s = .next s) ∧
    (∀ spec, regSpec num = some spec → die < 4 →
      num ∈ [0x00C, 0x00D, 0x031, 0x032, 0x033, 0x034, 0x050, 0x200, 0x400, 0x401, 0x402, 0x403, 0x404, 0x601, 0x602, 0x610,
        0x620, 0x641, 0x642] →
      ∃ u : State, exec (.registerWrite false die num v) s = .next u ∧ u = { s with regs := u.regs, coh := u.coh } ∧
        u.coh = (if num = 0x620 ∧ v.getLsbD 63 = false then { s.coh with scopeTags := [] } else s.coh) ∧
        (∀ o, o ≠ num → u.reg o = s.reg o) ∧
        ∀ k < 64, (u.reg num).testBit k = if spec.rw.testBit k then v.getLsbD k
          else (s.reg num).testBit k && !(spec.w1c.testBit k && v.getLsbD k)))
end

