-- ==== Sys2Proof/Laws/Encoding.lean ====
section
/-! SUPPORT. The decoder read against the encoder, instruction by instruction, on the fields of R289: decodeRaw gives back
every well-formed instruction from the fields that encodeRaw writes for it. -/
namespace Sys2Proof.Laws
open Sys2Proof

set_option linter.unusedSimpArgs false

-- Slices of a concatenation.

theorem sliceHi (v w s l : Nat) (x : BitVec v) (y : BitVec w) (h : w ≤ s) :
    (x ++ y).extractLsb' s l = x.extractLsb' (s - w) l := BitVec.extractLsb'_append_eq_of_le h
theorem sliceLo (v w s l : Nat) (x : BitVec v) (y : BitVec w) (h : s + l ≤ w) :
    (x ++ y).extractLsb' s l = y.extractLsb' s l := BitVec.extractLsb'_append_eq_of_add_le h
theorem bitHi (v w i : Nat) (x : BitVec v) (y : BitVec w) (h : w ≤ i) : (x ++ y).getLsbD i = x.getLsbD (i - w) := by
  rw [BitVec.getLsbD_append, if_neg (by omega)]
theorem bitLo (v w i : Nat) (x : BitVec v) (y : BitVec w) (h : i < w) : (x ++ y).getLsbD i = y.getLsbD i := by
  rw [BitVec.getLsbD_append, if_pos h]
theorem sliceAll (n : Nat) (x : BitVec n) : x.extractLsb' 0 n = x := BitVec.extractLsb'_eq_self
theorem bitOne (b : Bool) : (BitVec.ofBool b).getLsbD 0 = b := by cases b <;> rfl

-- FN by its shapes (R299).

@[simp] theorem fnA_ty (ty : Ty) (sub : BitVec 4) (sat : Bool) (rm : BitVec 3) : (fnA ty sub sat rm).extractLsb' 8 5 = ty.code :=
  (sliceHi 10 3 8 5 _ _ (by decide)).trans <| (sliceHi 9 1 5 5 _ _ (by decide)).trans <|
    (sliceHi 5 4 4 5 _ _ (by decide)).trans (sliceAll 5 _)
@[simp] theorem fnA_sub (ty : Ty) (sub : BitVec 4) (sat : Bool) (rm : BitVec 3) : (fnA ty sub sat rm).extractLsb' 4 4 = sub :=
  (sliceHi 10 3 4 4 _ _ (by decide)).trans <| (sliceHi 9 1 1 4 _ _ (by decide)).trans <|
    (sliceLo 5 4 0 4 _ _ (by decide)).trans (sliceAll 4 _)
theorem fnA_sat (ty : Ty) (sub : BitVec 4) (sat : Bool) (rm : BitVec 3) : (fnA ty sub sat rm).getLsbD 3 = sat :=
  (bitHi 10 3 3 _ _ (by decide)).trans <| (bitLo 9 1 0 _ _ (by decide)).trans (bitOne sat)
@[simp] theorem fnA_rm (ty : Ty) (sub : BitVec 4) (sat : Bool) (rm : BitVec 3) : (fnA ty sub sat rm).extractLsb' 0 3 = rm :=
  (sliceLo 10 3 0 3 _ _ (by decide)).trans (sliceAll 3 _)
@[simp] theorem fnX_ty (ty : Ty) (sub modx : BitVec 4) : (fnX ty sub modx).extractLsb' 8 5 = ty.code :=
  (sliceHi 9 4 8 5 _ _ (by decide)).trans <| (sliceHi 5 4 4 5 _ _ (by decide)).trans (sliceAll 5 _)
@[simp] theorem fnX_sub (ty : Ty) (sub modx : BitVec 4) : (fnX ty sub modx).extractLsb' 4 4 = sub :=
  (sliceHi 9 4 4 4 _ _ (by decide)).trans <| (sliceLo 5 4 0 4 _ _ (by decide)).trans (sliceAll 4 _)
@[simp] theorem fnX_modx (ty : Ty) (sub modx : BitVec 4) : (fnX ty sub modx).extractLsb' 0 4 = modx :=
  (sliceLo 9 4 0 4 _ _ (by decide)).trans (sliceAll 4 _)
@[simp] theorem fnM_ty (ty : Ty) (mo : MemOrd) (sub : BitVec 2) : (fnM ty mo sub).extractLsb' 8 5 = ty.code :=
  (sliceHi 11 2 8 5 _ _ (by decide)).trans <| (sliceHi 10 1 6 5 _ _ (by decide)).trans <|
    (sliceHi 8 2 5 5 _ _ (by decide)).trans <| (sliceHi 5 3 3 5 _ _ (by decide)).trans (sliceAll 5 _)
@[simp] theorem fnM_scope (ty : Ty) (mo : MemOrd) (sub : BitVec 2) : (fnM ty mo sub).extractLsb' 5 3 = mo.scope.code :=
  (sliceHi 11 2 5 3 _ _ (by decide)).trans <| (sliceHi 10 1 3 3 _ _ (by decide)).trans <|
    (sliceHi 8 2 2 3 _ _ (by decide)).trans <| (sliceLo 5 3 0 3 _ _ (by decide)).trans (sliceAll 3 _)
@[simp] theorem fnM_ord (ty : Ty) (mo : MemOrd) (sub : BitVec 2) : (fnM ty mo sub).extractLsb' 3 2 = mo.ord.code :=
  (sliceHi 11 2 3 2 _ _ (by decide)).trans <| (sliceHi 10 1 1 2 _ _ (by decide)).trans <|
    (sliceLo 8 2 0 2 _ _ (by decide)).trans (sliceAll 2 _)
theorem fnM_sc (ty : Ty) (mo : MemOrd) (sub : BitVec 2) : (fnM ty mo sub).getLsbD 2 = mo.sc :=
  (bitHi 11 2 2 _ _ (by decide)).trans <| (bitLo 10 1 0 _ _ (by decide)).trans (bitOne mo.sc)
@[simp] theorem fnM_sub (ty : Ty) (mo : MemOrd) (sub : BitVec 2) : (fnM ty mo sub).extractLsb' 0 2 = sub :=
  (sliceLo 11 2 0 2 _ _ (by decide)).trans (sliceAll 2 _)
@[simp] theorem fnL_ty (ty : Ty) (sc : Scope) (acq sat : Bool) (v : View) : (fnL ty sc acq sat v).extractLsb' 8 5 = ty.code :=
  (sliceHi 10 3 8 5 _ _ (by decide)).trans <| (sliceHi 9 1 5 5 _ _ (by decide)).trans <|
    (sliceHi 8 1 4 5 _ _ (by decide)).trans <| (sliceHi 5 3 3 5 _ _ (by decide)).trans (sliceAll 5 _)
@[simp] theorem fnL_scope (ty : Ty) (sc : Scope) (acq sat : Bool) (v : View) : (fnL ty sc acq sat v).extractLsb' 5 3 = sc.code :=
  (sliceHi 10 3 5 3 _ _ (by decide)).trans <| (sliceHi 9 1 2 3 _ _ (by decide)).trans <|
    (sliceHi 8 1 1 3 _ _ (by decide)).trans <| (sliceLo 5 3 0 3 _ _ (by decide)).trans (sliceAll 3 _)
theorem fnL_acq (ty : Ty) (sc : Scope) (acq sat : Bool) (v : View) : (fnL ty sc acq sat v).getLsbD 4 = acq :=
  (bitHi 10 3 4 _ _ (by decide)).trans <| (bitHi 9 1 1 _ _ (by decide)).trans <|
    (bitLo 8 1 0 _ _ (by decide)).trans (bitOne acq)
theorem fnL_sat (ty : Ty) (sc : Scope) (acq sat : Bool) (v : View) : (fnL ty sc acq sat v).getLsbD 3 = sat :=
  (bitHi 10 3 3 _ _ (by decide)).trans <| (bitLo 9 1 0 _ _ (by decide)).trans (bitOne sat)
@[simp] theorem fnL_view (ty : Ty) (sc : Scope) (acq sat : Bool) (v : View) : (fnL ty sc acq sat v).extractLsb' 0 3 = v.code :=
  (sliceLo 10 3 0 3 _ _ (by decide)).trans (sliceAll 3 _)
@[simp] theorem fnA_sat' (ty : Ty) (sub : BitVec 4) (sat : Bool) (rm : BitVec 3) : (fnA ty sub sat rm)[3] = sat := fnA_sat ty sub sat rm
@[simp] theorem fnM_sc' (ty : Ty) (mo : MemOrd) (sub : BitVec 2) : (fnM ty mo sub)[2] = mo.sc := fnM_sc ty mo sub
@[simp] theorem fnL_acq' (ty : Ty) (sc : Scope) (acq sat : Bool) (v : View) : (fnL ty sc acq sat v)[4] = acq := fnL_acq ty sc acq sat v
@[simp] theorem fnL_sat' (ty : Ty) (sc : Scope) (acq sat : Bool) (v : View) : (fnL ty sc acq sat v)[3] = sat := fnL_sat ty sc acq sat v
@[simp] theorem num_fn (n : BitVec 8) : ((n.setWidth 13).extractLsb' 8 5, (n.setWidth 13).setWidth 8) = ((0 : BitVec 5), n) := by
  revert n; decide
@[simp] theorem num_ty (n : BitVec 8) : (n.setWidth 13).extractLsb' 8 5 = (0 : BitVec 5) := congrArg Prod.fst (num_fn n)

-- Codes.

@[simp] theorem gOf_code (g : GReg) : gOf (GReg.code g) = .ok g := by revert g; decide
@[simp] theorem wOf_code (g : WReg) : wOf (WReg.code g) = .ok g := by revert g; decide
@[simp] theorem mOf_code (g : MReg) : mOf (MReg.code g) = .ok g := by revert g; decide
@[simp] theorem pOf_code (g : PReg) : pOf (PReg.code g) = .ok g := by revert g; decide
@[simp] theorem gwOf_code (x : GW) : gwOf x.code = .ok x := by
  cases x with
  | g r => revert r; decide
  | w r => revert r; decide
@[simp] theorem tyOf_code (t : Ty) : Ty.ofCode t.code = .ok t := by
  cases t <;> first | rfl | (rename_i k; revert k; decide)
@[simp] theorem scopeOf_code (x : Scope) : Scope.ofCode x.code = .ok x := by cases x <;> rfl
@[simp] theorem ordOf_code (x : Ord) : Ord.ofCode x.code = x := by cases x <;> rfl
@[simp] theorem rmOf_code (x : Rm) : Rm.ofCode x.code = .ok x := by cases x <;> rfl
@[simp] theorem viewOf_code (x : View) : View.ofCode x.code = .ok x := by cases x <;> rfl
@[simp] theorem cmpOf_code (x : Cmp) : Cmp.ofCode x.code = .ok x := by cases x <;> rfl
@[simp] theorem fcmpOf_code (x : FCmp) : FCmp.ofCode x.code = .ok x := by cases x <;> rfl
@[simp] theorem logOf_code (x : LogOp) : LogOp.ofCode x.code = .ok x := by cases x <;> rfl
@[simp] theorem bitOf_code (x : BitOp) : BitOp.ofCode x.code = .ok x := by cases x <;> rfl
@[simp] theorem cntOf_code (x : CntOp) : CntOp.ofCode x.code = .ok x := by cases x <;> rfl
@[simp] theorem sgnOf_code (x : SgnOp) : SgnOp.ofCode x.code = .ok x := by cases x <;> rfl
@[simp] theorem fredOf_code (x : FRedOp) : FRedOp.ofCode x.code = .ok x := by cases x <;> rfl
@[simp] theorem redOf_code (x : RedOp) : RedOp.ofCode x.code = .ok x := by cases x <;> rfl
@[simp] theorem shOf_code (x : ShOp) : ShOp.ofCode x.code = .ok x := by cases x <;> rfl
@[simp] theorem slideOf_code (x : SlideOp) : SlideOp.ofCode x.code = .ok x := by cases x <;> rfl
@[simp] theorem blkOf_code (x : Blk) : Blk.ofCode x.code = x := by cases x <;> rfl
@[simp] theorem hmodeOf_code (x : HMode) : HMode.ofCode x.code = x := by cases x <;> rfl
@[simp] theorem rowOf_code (x : RowOp) : RowOp.ofCode x.code = .ok x := by cases x <;> rfl
@[simp] theorem tyCode5 (t : Ty) : (t.code.setWidth 6).setWidth 5 = t.code := by generalize t.code = c; revert c; decide
@[simp] theorem tyCode5' (t : Ty) : (t.code.setWidth 6)[5] = false := by generalize t.code = c; revert c; decide
@[simp] theorem imm_low (v : BitVec 32) : (v.setWidth 64).extractLsb' 0 32 = v := by
  apply BitVec.eq_of_toNat_eq; simp; omega
@[simp] theorem imm_a (a b : BitVec 32) : (b ++ a : BitVec 64).extractLsb' 0 32 = a :=
  (sliceLo 32 32 0 32 _ _ (by decide)).trans (sliceAll 32 _)
@[simp] theorem imm_b (a b : BitVec 32) : (b ++ a : BitVec 64).extractLsb' 32 32 = b :=
  (sliceHi 32 32 32 32 _ _ (by decide)).trans (sliceAll 32 _)
@[simp] theorem ok_bind {α β ε : Type} (a : α) (f : α → Except ε β) : ((Except.ok a : Except ε α) >>= f) = f a := rfl
@[simp] theorem wcode_ne (c : WReg) : ¬ WReg.code c = 0#6 := by revert c; decide
@[simp] theorem ordRelaxed : Ord.relaxed.code = 0#2 := rfl
@[simp] theorem rmRne : Rm.ofCode 0#3 = .ok .rne := rfl
@[simp] theorem num_low (n : BitVec 12) : ((n.setWidth 64).extractLsb' 0 32).setWidth 12 = n := by
  apply BitVec.eq_of_toNat_eq; simp; omega
@[simp] theorem num_lt (n : BitVec 12) : n.toNat % 4294967296 < 4096 := by omega
@[simp] theorem stream_lt (n : BitVec 2) : n.toNat % 32 < 4 := by omega
@[simp] theorem row_top (m : BitVec 8) (t : BitVec 16) : (0#8 ++ t ++ m).extractLsb' 24 8 = 0#8 :=
  (sliceHi 24 8 24 8 _ _ (by decide)).trans <| (sliceHi 8 16 16 8 _ _ (by decide)).trans (sliceAll 8 _)
@[simp] theorem row_tag (m : BitVec 8) (t : BitVec 16) : (0#8 ++ t ++ m).extractLsb' 8 16 = t :=
  (sliceHi 24 8 8 16 _ _ (by decide)).trans <| (sliceLo 8 16 0 16 _ _ (by decide)).trans (sliceAll 16 _)
@[simp] theorem row_mask (m : BitVec 8) (t : BitVec 16) : (0#8 ++ t ++ m).extractLsb' 0 8 = m :=
  (sliceLo 24 8 0 8 _ _ (by decide)).trans (sliceAll 8 _)
@[simp] theorem gcode_zero : GReg.code 0#4 = 0#6 := rfl
@[simp] theorem gOf_zero : gOf 0#6 = .ok 0#4 := rfl
@[simp] theorem tyNone : Ty.none.code = 0#5 := rfl

end Sys2Proof.Laws
end

