-- ==== Sys2Proof/Laws/Sparse.lean ====
section
/-! SUPPORT. The laws of sparse tables: reading after writing, and the one form (keys that rise strictly), which set and
erase keep. -/
namespace Sys2Proof.Laws
open Sys2Proof

variable {α : Type}

/-- Every key of the table is above n. -/
def Above (n : Nat) (m : Sparse α) : Prop := ∀ e ∈ m, n < e.1

theorem sorted_cons (n : Nat) (v : α) (m : Sparse α) :
    Sparse.sorted ((n, v) :: m) = true ↔ Above n m ∧ Sparse.sorted m = true := by
  induction m generalizing n v with
  | nil => simp [Sparse.sorted, Above]
  | cons e r ih =>
    obtain ⟨k, w⟩ := e
    simp only [Sparse.sorted, Bool.and_eq_true, decide_eq_true_eq]
    constructor
    · rintro ⟨h, s⟩
      refine ⟨fun e he => ?_, s⟩
      rcases List.mem_cons.1 he with rfl | he
      · exact h
      · exact h.trans (((ih k w).1 s).1 e he)
    · rintro ⟨h, s⟩
      exact ⟨h (k, w) (List.mem_cons_self ..), s⟩

@[simp] theorem sorted_nil : Sparse.sorted ([] : Sparse α) = true := rfl

theorem above_set (n : Nat) (m : Sparse α) (k : Nat) (v : α) (h : Above n m) (hk : n < k) : Above n (Sparse.set m k v) := by
  induction m with
  | nil => intro e he; simp [Sparse.set] at he; simp [he, hk]
  | cons e r ih =>
    obtain ⟨a, w⟩ := e
    have hr : Above n r := fun e he => h e (List.mem_cons_of_mem _ he)
    have ha : n < a := h (a, w) (List.mem_cons_self ..)
    simp only [Sparse.set]
    split
    · intro e he
      rcases List.mem_cons.1 he with rfl | he
      · exact hk
      · exact h e he
    · split
      · intro e he
        rcases List.mem_cons.1 he with rfl | he
        · exact hk
        · exact hr e he
      · intro e he
        rcases List.mem_cons.1 he with rfl | he
        · exact ha
        · exact ih hr e he

theorem above_erase (n : Nat) (m : Sparse α) (k : Nat) (h : Above n m) : Above n (Sparse.erase m k) := by
  induction m with
  | nil => exact h
  | cons e r ih =>
    obtain ⟨a, w⟩ := e
    have hr : Above n r := fun e he => h e (List.mem_cons_of_mem _ he)
    simp only [Sparse.erase]
    split
    · exact ih hr
    · intro e he
      rcases List.mem_cons.1 he with rfl | he
      · exact h (a, w) (List.mem_cons_self ..)
      · exact ih hr e he

/-- set keeps the one form. -/
theorem sorted_set (m : Sparse α) (k : Nat) (v : α) (h : Sparse.sorted m = true) : Sparse.sorted (Sparse.set m k v) = true := by
  induction m with
  | nil => rfl
  | cons e r ih =>
    obtain ⟨a, w⟩ := e
    have h' := (sorted_cons a w r).1 h
    simp only [Sparse.set]
    split
    · rename_i hk
      refine (sorted_cons ..).2 ⟨fun e he => ?_, h⟩
      rcases List.mem_cons.1 he with rfl | he
      · exact hk
      · exact hk.trans (h'.1 e he)
    · split
      · rename_i hk; subst hk; exact (sorted_cons ..).2 h'
      · rename_i h1 h2
        exact (sorted_cons ..).2 ⟨above_set a r k v h'.1 (by omega), ih h'.2⟩

/-- erase keeps the one form. -/
theorem sorted_erase (m : Sparse α) (k : Nat) (h : Sparse.sorted m = true) : Sparse.sorted (Sparse.erase m k) = true := by
  induction m with
  | nil => rfl
  | cons e r ih =>
    obtain ⟨a, w⟩ := e
    have h' := (sorted_cons a w r).1 h
    simp only [Sparse.erase]
    split
    · exact ih h'.2
    · exact (sorted_cons ..).2 ⟨above_erase a r k h'.1, ih h'.2⟩

/-- mapVals keeps the one form. -/
theorem sorted_mapVals (m : Sparse α) (f : Nat → α → α) (h : Sparse.sorted m = true) :
    Sparse.sorted (m.mapVals f) = true := by
  induction m with
  | nil => rfl
  | cons e r ih =>
    obtain ⟨a, w⟩ := e
    have h' := (sorted_cons a w r).1 h
    refine (sorted_cons ..).2 ⟨fun e he => ?_, ih h'.2⟩
    simp only [List.mem_map] at he
    obtain ⟨x, hx, rfl⟩ := he
    exact h'.1 x hx

/-- A key that every listed key passes is not listed. -/
theorem get?_above (m : Sparse α) (n : Nat) (h : Above n m) : Sparse.get? m n = none := by
  induction m with
  | nil => rfl
  | cons e r ih =>
    obtain ⟨a, w⟩ := e
    have ha : n < a := h (a, w) (List.mem_cons_self ..)
    simp only [Sparse.get?, if_neg (show ¬a = n by omega)]
    exact ih fun e he => h e (List.mem_cons_of_mem _ he)

/-- Reading what was set. -/
@[simp] theorem get?_set_same (m : Sparse α) (k : Nat) (v : α) : Sparse.get? (Sparse.set m k v) k = some v := by
  induction m with
  | nil => simp [Sparse.set, Sparse.get?]
  | cons e r ih =>
    obtain ⟨a, w⟩ := e
    simp only [Sparse.set]
    split
    · simp [Sparse.get?]
    · split
      · simp [Sparse.get?]
      · rename_i h1 h2
        simp [Sparse.get?, ih, show ¬a = k by omega]

/-- set leaves the other keys alone. -/
theorem get?_set_other (m : Sparse α) (k n : Nat) (v : α) (h : n ≠ k) : Sparse.get? (Sparse.set m k v) n = Sparse.get? m n := by
  induction m with
  | nil => simp [Sparse.set, Sparse.get?, Ne.symm h]
  | cons e r ih =>
    obtain ⟨a, w⟩ := e
    simp only [Sparse.set]
    split
    · simp [Sparse.get?, Ne.symm h]
    · split
      · rename_i h1 h2; subst h2; simp [Sparse.get?, Ne.symm h]
      · simp only [Sparse.get?, ih]

theorem get?_erase_same (m : Sparse α) (k : Nat) : Sparse.get? (Sparse.erase m k) k = none := by
  induction m with
  | nil => rfl
  | cons e r ih =>
    obtain ⟨a, w⟩ := e
    simp only [Sparse.erase]
    split
    · exact ih
    · rename_i h; simp [Sparse.get?, show ¬a = k by omega, ih]

/-- erase leaves the other keys alone. -/
theorem get?_erase_other (m : Sparse α) (k n : Nat) (h : n ≠ k) : Sparse.get? (Sparse.erase m k) n = Sparse.get? m n := by
  induction m with
  | nil => rfl
  | cons e r ih =>
    obtain ⟨a, w⟩ := e
    simp only [Sparse.erase]
    split
    · rename_i hk; subst hk; simp [Sparse.get?, Ne.symm h, ih]
    · simp only [Sparse.get?, ih]

end Sys2Proof.Laws
end

