-- ==== Sys2Proof/Laws/State.lean ====
section
/-! SUPPORT. What each update of the state and of a thread leaves as it was: one lemma per field and update, so that no proof
unfolds a record update. -/
namespace Sys2Proof.Laws
open Sys2Proof Sys2Proof.Machine


-- setThread
@[simp] theorem setThread_cycle (s : State) (th : Nat) (t : Thread) : (s.setThread th t).cycle = s.cycle := rfl
@[simp] theorem setThread_agenda (s : State) (th : Nat) (t : Thread) : (s.setThread th t).agenda = s.agenda := rfl
@[simp] theorem setThread_focus (s : State) (th : Nat) (t : Thread) : (s.setThread th t).focus = s.focus := rfl
@[simp] theorem setThread_fresh (s : State) (th : Nat) (t : Thread) : (s.setThread th t).fresh = s.fresh := rfl
@[simp] theorem setThread_fatal (s : State) (th : Nat) (t : Thread) : (s.setThread th t).fatal = s.fatal := rfl
@[simp] theorem setThread_stores (s : State) (th : Nat) (t : Thread) : (s.setThread th t).stores = s.stores := rfl
@[simp] theorem setThread_nextStore (s : State) (th : Nat) (t : Thread) : (s.setThread th t).nextStore = s.nextStore := rfl
@[simp] theorem setThread_regs (s : State) (th : Nat) (t : Thread) : (s.setThread th t).regs = s.regs := rfl
@[simp] theorem setThread_bar0 (s : State) (th : Nat) (t : Thread) : (s.setThread th t).bar0 = s.bar0 := rfl
@[simp] theorem setThread_mem (s : State) (th : Nat) (t : Thread) : (s.setThread th t).mem = s.mem := rfl
@[simp] theorem setThread_stash (s : State) (th : Nat) (t : Thread) : (s.setThread th t).stash = s.stash := rfl
@[simp] theorem setThread_coh (s : State) (th : Nat) (t : Thread) : (s.setThread th t).coh = s.coh := rfl
@[simp] theorem setThread_tlb (s : State) (th : Nat) (t : Thread) : (s.setThread th t).tlb = s.tlb := rfl
@[simp] theorem setThread_lodges (s : State) (th : Nat) (t : Thread) : (s.setThread th t).lodges = s.lodges := rfl
@[simp] theorem setThread_sent (s : State) (th : Nat) (t : Thread) : (s.setThread th t).sent = s.sent := rfl
@[simp] theorem setThread_runs (s : State) (th : Nat) (t : Thread) : (s.setThread th t).runs = s.runs := rfl
@[simp] theorem setThread_saved (s : State) (th : Nat) (t : Thread) : (s.setThread th t).saved = s.saved := rfl
@[simp] theorem setThread_queues (s : State) (th : Nat) (t : Thread) : (s.setThread th t).queues = s.queues := rfl
@[simp] theorem setThread_launches (s : State) (th : Nat) (t : Thread) : (s.setThread th t).launches = s.launches := rfl
@[simp] theorem setThread_lastQueue (s : State) (th : Nat) (t : Thread) : (s.setThread th t).lastQueue = s.lastQueue := rfl
@[simp] theorem setThread_latchCycle (s : State) (th : Nat) (t : Thread) : (s.setThread th t).latchCycle = s.latchCycle := rfl
@[simp] theorem setThread_scOps (s : State) (th : Nat) (t : Thread) : (s.setThread th t).scOps = s.scOps := rfl
@[simp] theorem setThread_rounded (s : State) (th : Nat) (t : Thread) : (s.setThread th t).rounded = s.rounded := rfl
@[simp] theorem setThread_balance (s : State) (th : Nat) (t : Thread) : (s.setThread th t).balance = s.balance := rfl
@[simp] theorem setThread_periodic (s : State) (th : Nat) (t : Thread) : (s.setThread th t).periodic = s.periodic := rfl
@[simp] theorem setThread_round (s : State) (th : Nat) (t : Thread) : (s.setThread th t).round = s.round := rfl
@[simp] theorem setThread_grids (s : State) (th : Nat) (t : Thread) : (s.setThread th t).grids = s.grids := rfl
@[simp] theorem setThread_engines (s : State) (th : Nat) (t : Thread) : (s.setThread th t).engines = s.engines := rfl
@[simp] theorem setThread_acc (s : State) (th : Nat) (t : Thread) : (s.setThread th t).acc = s.acc := rfl
@[simp] theorem setThread_accTag (s : State) (th : Nat) (t : Thread) : (s.setThread th t).accTag = s.accTag := rfl
@[simp] theorem setThread_rows (s : State) (th : Nat) (t : Thread) : (s.setThread th t).rows = s.rows := rfl
@[simp] theorem setThread_rowCount (s : State) (th : Nat) (t : Thread) : (s.setThread th t).rowCount = s.rowCount := rfl
@[simp] theorem setThread_records (s : State) (th : Nat) (t : Thread) : (s.setThread th t).records = s.records := rfl
@[simp] theorem setThread_tokens (s : State) (th : Nat) (t : Thread) : (s.setThread th t).tokens = s.tokens := rfl
@[simp] theorem setThread_host (s : State) (th : Nat) (t : Thread) : (s.setThread th t).host = s.host := rfl
@[simp] theorem setThread_dbg (s : State) (th : Nat) (t : Thread) : (s.setThread th t).dbg = s.dbg := rfl

-- freeThread
@[simp] theorem freeThread_cycle (s : State) (th : Nat) : (s.freeThread th).cycle = s.cycle := rfl
@[simp] theorem freeThread_agenda (s : State) (th : Nat) : (s.freeThread th).agenda = s.agenda := rfl
@[simp] theorem freeThread_focus (s : State) (th : Nat) : (s.freeThread th).focus = s.focus := rfl
@[simp] theorem freeThread_fresh (s : State) (th : Nat) : (s.freeThread th).fresh = s.fresh := rfl
@[simp] theorem freeThread_fatal (s : State) (th : Nat) : (s.freeThread th).fatal = s.fatal := rfl
@[simp] theorem freeThread_stores (s : State) (th : Nat) : (s.freeThread th).stores = s.stores := rfl
@[simp] theorem freeThread_nextStore (s : State) (th : Nat) : (s.freeThread th).nextStore = s.nextStore := rfl
@[simp] theorem freeThread_regs (s : State) (th : Nat) : (s.freeThread th).regs = s.regs := rfl
@[simp] theorem freeThread_bar0 (s : State) (th : Nat) : (s.freeThread th).bar0 = s.bar0 := rfl
@[simp] theorem freeThread_mem (s : State) (th : Nat) : (s.freeThread th).mem = s.mem := rfl
@[simp] theorem freeThread_stash (s : State) (th : Nat) : (s.freeThread th).stash = s.stash := rfl
@[simp] theorem freeThread_coh (s : State) (th : Nat) : (s.freeThread th).coh = s.coh := rfl
@[simp] theorem freeThread_tlb (s : State) (th : Nat) : (s.freeThread th).tlb = s.tlb := rfl
@[simp] theorem freeThread_lodges (s : State) (th : Nat) : (s.freeThread th).lodges = s.lodges := rfl
@[simp] theorem freeThread_sent (s : State) (th : Nat) : (s.freeThread th).sent = s.sent := rfl
@[simp] theorem freeThread_runs (s : State) (th : Nat) : (s.freeThread th).runs = s.runs := rfl
@[simp] theorem freeThread_saved (s : State) (th : Nat) : (s.freeThread th).saved = s.saved := rfl
@[simp] theorem freeThread_queues (s : State) (th : Nat) : (s.freeThread th).queues = s.queues := rfl
@[simp] theorem freeThread_launches (s : State) (th : Nat) : (s.freeThread th).launches = s.launches := rfl
@[simp] theorem freeThread_lastQueue (s : State) (th : Nat) : (s.freeThread th).lastQueue = s.lastQueue := rfl
@[simp] theorem freeThread_latchCycle (s : State) (th : Nat) : (s.freeThread th).latchCycle = s.latchCycle := rfl
@[simp] theorem freeThread_scOps (s : State) (th : Nat) : (s.freeThread th).scOps = s.scOps.filter fun o => o.th != th := rfl
@[simp] theorem freeThread_rounded (s : State) (th : Nat) : (s.freeThread th).rounded = s.rounded := rfl
@[simp] theorem freeThread_balance (s : State) (th : Nat) : (s.freeThread th).balance = s.balance := rfl
@[simp] theorem freeThread_periodic (s : State) (th : Nat) : (s.freeThread th).periodic = s.periodic := rfl
@[simp] theorem freeThread_round (s : State) (th : Nat) : (s.freeThread th).round = s.round := rfl
@[simp] theorem freeThread_grids (s : State) (th : Nat) : (s.freeThread th).grids = s.grids := rfl
@[simp] theorem freeThread_engines (s : State) (th : Nat) : (s.freeThread th).engines = s.engines := rfl
@[simp] theorem freeThread_acc (s : State) (th : Nat) : (s.freeThread th).acc = s.acc := rfl
@[simp] theorem freeThread_accTag (s : State) (th : Nat) : (s.freeThread th).accTag = s.accTag := rfl
@[simp] theorem freeThread_rows (s : State) (th : Nat) : (s.freeThread th).rows = s.rows := rfl
@[simp] theorem freeThread_rowCount (s : State) (th : Nat) : (s.freeThread th).rowCount = s.rowCount := rfl
@[simp] theorem freeThread_records (s : State) (th : Nat) : (s.freeThread th).records = s.records := rfl
@[simp] theorem freeThread_tokens (s : State) (th : Nat) : (s.freeThread th).tokens = s.tokens := rfl
@[simp] theorem freeThread_host (s : State) (th : Nat) : (s.freeThread th).host = s.host := rfl
@[simp] theorem freeThread_dbg (s : State) (th : Nat) :
    (s.freeThread th).dbg = { s.dbg with stepping := s.dbg.stepping.filter fun x => x != th } := rfl

-- setRun
@[simp] theorem setRun_cycle (s : State) (n : Nat) (r : Run) : (s.setRun n r).cycle = s.cycle := rfl
@[simp] theorem setRun_agenda (s : State) (n : Nat) (r : Run) : (s.setRun n r).agenda = s.agenda := rfl
@[simp] theorem setRun_focus (s : State) (n : Nat) (r : Run) : (s.setRun n r).focus = s.focus := rfl
@[simp] theorem setRun_fresh (s : State) (n : Nat) (r : Run) : (s.setRun n r).fresh = s.fresh := rfl
@[simp] theorem setRun_fatal (s : State) (n : Nat) (r : Run) : (s.setRun n r).fatal = s.fatal := rfl
@[simp] theorem setRun_threads (s : State) (n : Nat) (r : Run) : (s.setRun n r).threads = s.threads := rfl
@[simp] theorem setRun_stores (s : State) (n : Nat) (r : Run) : (s.setRun n r).stores = s.stores := rfl
@[simp] theorem setRun_nextStore (s : State) (n : Nat) (r : Run) : (s.setRun n r).nextStore = s.nextStore := rfl
@[simp] theorem setRun_regs (s : State) (n : Nat) (r : Run) : (s.setRun n r).regs = s.regs := rfl
@[simp] theorem setRun_bar0 (s : State) (n : Nat) (r : Run) : (s.setRun n r).bar0 = s.bar0 := rfl
@[simp] theorem setRun_mem (s : State) (n : Nat) (r : Run) : (s.setRun n r).mem = s.mem := rfl
@[simp] theorem setRun_stash (s : State) (n : Nat) (r : Run) : (s.setRun n r).stash = s.stash := rfl
@[simp] theorem setRun_coh (s : State) (n : Nat) (r : Run) : (s.setRun n r).coh = s.coh := rfl
@[simp] theorem setRun_tlb (s : State) (n : Nat) (r : Run) : (s.setRun n r).tlb = s.tlb := rfl
@[simp] theorem setRun_lodges (s : State) (n : Nat) (r : Run) : (s.setRun n r).lodges = s.lodges := rfl
@[simp] theorem setRun_sent (s : State) (n : Nat) (r : Run) : (s.setRun n r).sent = s.sent := rfl
@[simp] theorem setRun_saved (s : State) (n : Nat) (r : Run) : (s.setRun n r).saved = s.saved := rfl
@[simp] theorem setRun_queues (s : State) (n : Nat) (r : Run) : (s.setRun n r).queues = s.queues := rfl
@[simp] theorem setRun_launches (s : State) (n : Nat) (r : Run) : (s.setRun n r).launches = s.launches := rfl
@[simp] theorem setRun_lastQueue (s : State) (n : Nat) (r : Run) : (s.setRun n r).lastQueue = s.lastQueue := rfl
@[simp] theorem setRun_latchCycle (s : State) (n : Nat) (r : Run) : (s.setRun n r).latchCycle = s.latchCycle := rfl
@[simp] theorem setRun_scOps (s : State) (n : Nat) (r : Run) : (s.setRun n r).scOps = s.scOps := rfl
@[simp] theorem setRun_rounded (s : State) (n : Nat) (r : Run) : (s.setRun n r).rounded = s.rounded := rfl
@[simp] theorem setRun_balance (s : State) (n : Nat) (r : Run) : (s.setRun n r).balance = s.balance := rfl
@[simp] theorem setRun_periodic (s : State) (n : Nat) (r : Run) : (s.setRun n r).periodic = s.periodic := rfl
@[simp] theorem setRun_round (s : State) (n : Nat) (r : Run) : (s.setRun n r).round = s.round := rfl
@[simp] theorem setRun_grids (s : State) (n : Nat) (r : Run) : (s.setRun n r).grids = s.grids := rfl
@[simp] theorem setRun_engines (s : State) (n : Nat) (r : Run) : (s.setRun n r).engines = s.engines := rfl
@[simp] theorem setRun_acc (s : State) (n : Nat) (r : Run) : (s.setRun n r).acc = s.acc := rfl
@[simp] theorem setRun_accTag (s : State) (n : Nat) (r : Run) : (s.setRun n r).accTag = s.accTag := rfl
@[simp] theorem setRun_rows (s : State) (n : Nat) (r : Run) : (s.setRun n r).rows = s.rows := rfl
@[simp] theorem setRun_rowCount (s : State) (n : Nat) (r : Run) : (s.setRun n r).rowCount = s.rowCount := rfl
@[simp] theorem setRun_records (s : State) (n : Nat) (r : Run) : (s.setRun n r).records = s.records := rfl
@[simp] theorem setRun_tokens (s : State) (n : Nat) (r : Run) : (s.setRun n r).tokens = s.tokens := rfl
@[simp] theorem setRun_host (s : State) (n : Nat) (r : Run) : (s.setRun n r).host = s.host := rfl
@[simp] theorem setRun_dbg (s : State) (n : Nat) (r : Run) : (s.setRun n r).dbg = s.dbg := rfl

-- setLodge
@[simp] theorem setLodge_cycle (s : State) (n : Nat) (l : Lodge) : (s.setLodge n l).cycle = s.cycle := rfl
@[simp] theorem setLodge_agenda (s : State) (n : Nat) (l : Lodge) : (s.setLodge n l).agenda = s.agenda := rfl
@[simp] theorem setLodge_focus (s : State) (n : Nat) (l : Lodge) : (s.setLodge n l).focus = s.focus := rfl
@[simp] theorem setLodge_fresh (s : State) (n : Nat) (l : Lodge) : (s.setLodge n l).fresh = s.fresh := rfl
@[simp] theorem setLodge_fatal (s : State) (n : Nat) (l : Lodge) : (s.setLodge n l).fatal = s.fatal := rfl
@[simp] theorem setLodge_threads (s : State) (n : Nat) (l : Lodge) : (s.setLodge n l).threads = s.threads := rfl
@[simp] theorem setLodge_stores (s : State) (n : Nat) (l : Lodge) : (s.setLodge n l).stores = s.stores := rfl
@[simp] theorem setLodge_nextStore (s : State) (n : Nat) (l : Lodge) : (s.setLodge n l).nextStore = s.nextStore := rfl
@[simp] theorem setLodge_regs (s : State) (n : Nat) (l : Lodge) : (s.setLodge n l).regs = s.regs := rfl
@[simp] theorem setLodge_bar0 (s : State) (n : Nat) (l : Lodge) : (s.setLodge n l).bar0 = s.bar0 := rfl
@[simp] theorem setLodge_mem (s : State) (n : Nat) (l : Lodge) : (s.setLodge n l).mem = s.mem := rfl
@[simp] theorem setLodge_stash (s : State) (n : Nat) (l : Lodge) : (s.setLodge n l).stash = s.stash := rfl
@[simp] theorem setLodge_coh (s : State) (n : Nat) (l : Lodge) : (s.setLodge n l).coh = s.coh := rfl
@[simp] theorem setLodge_tlb (s : State) (n : Nat) (l : Lodge) : (s.setLodge n l).tlb = s.tlb := rfl
@[simp] theorem setLodge_sent (s : State) (n : Nat) (l : Lodge) : (s.setLodge n l).sent = s.sent := rfl
@[simp] theorem setLodge_runs (s : State) (n : Nat) (l : Lodge) : (s.setLodge n l).runs = s.runs := rfl
@[simp] theorem setLodge_saved (s : State) (n : Nat) (l : Lodge) : (s.setLodge n l).saved = s.saved := rfl
@[simp] theorem setLodge_queues (s : State) (n : Nat) (l : Lodge) : (s.setLodge n l).queues = s.queues := rfl
@[simp] theorem setLodge_launches (s : State) (n : Nat) (l : Lodge) : (s.setLodge n l).launches = s.launches := rfl
@[simp] theorem setLodge_lastQueue (s : State) (n : Nat) (l : Lodge) : (s.setLodge n l).lastQueue = s.lastQueue := rfl
@[simp] theorem setLodge_latchCycle (s : State) (n : Nat) (l : Lodge) : (s.setLodge n l).latchCycle = s.latchCycle := rfl
@[simp] theorem setLodge_scOps (s : State) (n : Nat) (l : Lodge) : (s.setLodge n l).scOps = s.scOps := rfl
@[simp] theorem setLodge_rounded (s : State) (n : Nat) (l : Lodge) : (s.setLodge n l).rounded = s.rounded := rfl
@[simp] theorem setLodge_balance (s : State) (n : Nat) (l : Lodge) : (s.setLodge n l).balance = s.balance := rfl
@[simp] theorem setLodge_periodic (s : State) (n : Nat) (l : Lodge) : (s.setLodge n l).periodic = s.periodic := rfl
@[simp] theorem setLodge_round (s : State) (n : Nat) (l : Lodge) : (s.setLodge n l).round = s.round := rfl
@[simp] theorem setLodge_grids (s : State) (n : Nat) (l : Lodge) : (s.setLodge n l).grids = s.grids := rfl
@[simp] theorem setLodge_engines (s : State) (n : Nat) (l : Lodge) : (s.setLodge n l).engines = s.engines := rfl
@[simp] theorem setLodge_acc (s : State) (n : Nat) (l : Lodge) : (s.setLodge n l).acc = s.acc := rfl
@[simp] theorem setLodge_accTag (s : State) (n : Nat) (l : Lodge) : (s.setLodge n l).accTag = s.accTag := rfl
@[simp] theorem setLodge_rows (s : State) (n : Nat) (l : Lodge) : (s.setLodge n l).rows = s.rows := rfl
@[simp] theorem setLodge_rowCount (s : State) (n : Nat) (l : Lodge) : (s.setLodge n l).rowCount = s.rowCount := rfl
@[simp] theorem setLodge_records (s : State) (n : Nat) (l : Lodge) : (s.setLodge n l).records = s.records := rfl
@[simp] theorem setLodge_tokens (s : State) (n : Nat) (l : Lodge) : (s.setLodge n l).tokens = s.tokens := rfl
@[simp] theorem setLodge_host (s : State) (n : Nat) (l : Lodge) : (s.setLodge n l).host = s.host := rfl
@[simp] theorem setLodge_dbg (s : State) (n : Nat) (l : Lodge) : (s.setLodge n l).dbg = s.dbg := rfl

-- setEngine
@[simp] theorem setEngine_cycle (s : State) (n : Nat) (e : Engines) : (s.setEngine n e).cycle = s.cycle := rfl
@[simp] theorem setEngine_agenda (s : State) (n : Nat) (e : Engines) : (s.setEngine n e).agenda = s.agenda := rfl
@[simp] theorem setEngine_focus (s : State) (n : Nat) (e : Engines) : (s.setEngine n e).focus = s.focus := rfl
@[simp] theorem setEngine_fresh (s : State) (n : Nat) (e : Engines) : (s.setEngine n e).fresh = s.fresh := rfl
@[simp] theorem setEngine_fatal (s : State) (n : Nat) (e : Engines) : (s.setEngine n e).fatal = s.fatal := rfl
@[simp] theorem setEngine_threads (s : State) (n : Nat) (e : Engines) : (s.setEngine n e).threads = s.threads := rfl
@[simp] theorem setEngine_stores (s : State) (n : Nat) (e : Engines) : (s.setEngine n e).stores = s.stores := rfl
@[simp] theorem setEngine_nextStore (s : State) (n : Nat) (e : Engines) : (s.setEngine n e).nextStore = s.nextStore := rfl
@[simp] theorem setEngine_regs (s : State) (n : Nat) (e : Engines) : (s.setEngine n e).regs = s.regs := rfl
@[simp] theorem setEngine_bar0 (s : State) (n : Nat) (e : Engines) : (s.setEngine n e).bar0 = s.bar0 := rfl
@[simp] theorem setEngine_mem (s : State) (n : Nat) (e : Engines) : (s.setEngine n e).mem = s.mem := rfl
@[simp] theorem setEngine_stash (s : State) (n : Nat) (e : Engines) : (s.setEngine n e).stash = s.stash := rfl
@[simp] theorem setEngine_coh (s : State) (n : Nat) (e : Engines) : (s.setEngine n e).coh = s.coh := rfl
@[simp] theorem setEngine_tlb (s : State) (n : Nat) (e : Engines) : (s.setEngine n e).tlb = s.tlb := rfl
@[simp] theorem setEngine_lodges (s : State) (n : Nat) (e : Engines) : (s.setEngine n e).lodges = s.lodges := rfl
@[simp] theorem setEngine_sent (s : State) (n : Nat) (e : Engines) : (s.setEngine n e).sent = s.sent := rfl
@[simp] theorem setEngine_runs (s : State) (n : Nat) (e : Engines) : (s.setEngine n e).runs = s.runs := rfl
@[simp] theorem setEngine_saved (s : State) (n : Nat) (e : Engines) : (s.setEngine n e).saved = s.saved := rfl
@[simp] theorem setEngine_queues (s : State) (n : Nat) (e : Engines) : (s.setEngine n e).queues = s.queues := rfl
@[simp] theorem setEngine_launches (s : State) (n : Nat) (e : Engines) : (s.setEngine n e).launches = s.launches := rfl
@[simp] theorem setEngine_lastQueue (s : State) (n : Nat) (e : Engines) : (s.setEngine n e).lastQueue = s.lastQueue := rfl
@[simp] theorem setEngine_latchCycle (s : State) (n : Nat) (e : Engines) : (s.setEngine n e).latchCycle = s.latchCycle := rfl
@[simp] theorem setEngine_scOps (s : State) (n : Nat) (e : Engines) : (s.setEngine n e).scOps = s.scOps := rfl
@[simp] theorem setEngine_rounded (s : State) (n : Nat) (e : Engines) : (s.setEngine n e).rounded = s.rounded := rfl
@[simp] theorem setEngine_balance (s : State) (n : Nat) (e : Engines) : (s.setEngine n e).balance = s.balance := rfl
@[simp] theorem setEngine_periodic (s : State) (n : Nat) (e : Engines) : (s.setEngine n e).periodic = s.periodic := rfl
@[simp] theorem setEngine_round (s : State) (n : Nat) (e : Engines) : (s.setEngine n e).round = s.round := rfl
@[simp] theorem setEngine_grids (s : State) (n : Nat) (e : Engines) : (s.setEngine n e).grids = s.grids := rfl
@[simp] theorem setEngine_acc (s : State) (n : Nat) (e : Engines) : (s.setEngine n e).acc = s.acc := rfl
@[simp] theorem setEngine_accTag (s : State) (n : Nat) (e : Engines) : (s.setEngine n e).accTag = s.accTag := rfl
@[simp] theorem setEngine_rows (s : State) (n : Nat) (e : Engines) : (s.setEngine n e).rows = s.rows := rfl
@[simp] theorem setEngine_rowCount (s : State) (n : Nat) (e : Engines) : (s.setEngine n e).rowCount = s.rowCount := rfl
@[simp] theorem setEngine_records (s : State) (n : Nat) (e : Engines) : (s.setEngine n e).records = s.records := rfl
@[simp] theorem setEngine_tokens (s : State) (n : Nat) (e : Engines) : (s.setEngine n e).tokens = s.tokens := rfl
@[simp] theorem setEngine_host (s : State) (n : Nat) (e : Engines) : (s.setEngine n e).host = s.host := rfl
@[simp] theorem setEngine_dbg (s : State) (n : Nat) (e : Engines) : (s.setEngine n e).dbg = s.dbg := rfl

-- setQueue
@[simp] theorem setQueue_cycle (s : State) (n : Nat) (q : Queue) : (s.setQueue n q).cycle = s.cycle := rfl
@[simp] theorem setQueue_agenda (s : State) (n : Nat) (q : Queue) : (s.setQueue n q).agenda = s.agenda := rfl
@[simp] theorem setQueue_focus (s : State) (n : Nat) (q : Queue) : (s.setQueue n q).focus = s.focus := rfl
@[simp] theorem setQueue_fresh (s : State) (n : Nat) (q : Queue) : (s.setQueue n q).fresh = s.fresh := rfl
@[simp] theorem setQueue_fatal (s : State) (n : Nat) (q : Queue) : (s.setQueue n q).fatal = s.fatal := rfl
@[simp] theorem setQueue_threads (s : State) (n : Nat) (q : Queue) : (s.setQueue n q).threads = s.threads := rfl
@[simp] theorem setQueue_stores (s : State) (n : Nat) (q : Queue) : (s.setQueue n q).stores = s.stores := rfl
@[simp] theorem setQueue_nextStore (s : State) (n : Nat) (q : Queue) : (s.setQueue n q).nextStore = s.nextStore := rfl
@[simp] theorem setQueue_regs (s : State) (n : Nat) (q : Queue) : (s.setQueue n q).regs = s.regs := rfl
@[simp] theorem setQueue_bar0 (s : State) (n : Nat) (q : Queue) : (s.setQueue n q).bar0 = s.bar0 := rfl
@[simp] theorem setQueue_mem (s : State) (n : Nat) (q : Queue) : (s.setQueue n q).mem = s.mem := rfl
@[simp] theorem setQueue_stash (s : State) (n : Nat) (q : Queue) : (s.setQueue n q).stash = s.stash := rfl
@[simp] theorem setQueue_coh (s : State) (n : Nat) (q : Queue) : (s.setQueue n q).coh = s.coh := rfl
@[simp] theorem setQueue_tlb (s : State) (n : Nat) (q : Queue) : (s.setQueue n q).tlb = s.tlb := rfl
@[simp] theorem setQueue_lodges (s : State) (n : Nat) (q : Queue) : (s.setQueue n q).lodges = s.lodges := rfl
@[simp] theorem setQueue_sent (s : State) (n : Nat) (q : Queue) : (s.setQueue n q).sent = s.sent := rfl
@[simp] theorem setQueue_runs (s : State) (n : Nat) (q : Queue) : (s.setQueue n q).runs = s.runs := rfl
@[simp] theorem setQueue_saved (s : State) (n : Nat) (q : Queue) : (s.setQueue n q).saved = s.saved := rfl
@[simp] theorem setQueue_launches (s : State) (n : Nat) (q : Queue) : (s.setQueue n q).launches = s.launches := rfl
@[simp] theorem setQueue_lastQueue (s : State) (n : Nat) (q : Queue) : (s.setQueue n q).lastQueue = s.lastQueue := rfl
@[simp] theorem setQueue_latchCycle (s : State) (n : Nat) (q : Queue) : (s.setQueue n q).latchCycle = s.latchCycle := rfl
@[simp] theorem setQueue_scOps (s : State) (n : Nat) (q : Queue) : (s.setQueue n q).scOps = s.scOps := rfl
@[simp] theorem setQueue_rounded (s : State) (n : Nat) (q : Queue) : (s.setQueue n q).rounded = s.rounded := rfl
@[simp] theorem setQueue_balance (s : State) (n : Nat) (q : Queue) : (s.setQueue n q).balance = s.balance := rfl
@[simp] theorem setQueue_periodic (s : State) (n : Nat) (q : Queue) : (s.setQueue n q).periodic = s.periodic := rfl
@[simp] theorem setQueue_round (s : State) (n : Nat) (q : Queue) : (s.setQueue n q).round = s.round := rfl
@[simp] theorem setQueue_grids (s : State) (n : Nat) (q : Queue) : (s.setQueue n q).grids = s.grids := rfl
@[simp] theorem setQueue_engines (s : State) (n : Nat) (q : Queue) : (s.setQueue n q).engines = s.engines := rfl
@[simp] theorem setQueue_acc (s : State) (n : Nat) (q : Queue) : (s.setQueue n q).acc = s.acc := rfl
@[simp] theorem setQueue_accTag (s : State) (n : Nat) (q : Queue) : (s.setQueue n q).accTag = s.accTag := rfl
@[simp] theorem setQueue_rows (s : State) (n : Nat) (q : Queue) : (s.setQueue n q).rows = s.rows := rfl
@[simp] theorem setQueue_rowCount (s : State) (n : Nat) (q : Queue) : (s.setQueue n q).rowCount = s.rowCount := rfl
@[simp] theorem setQueue_records (s : State) (n : Nat) (q : Queue) : (s.setQueue n q).records = s.records := rfl
@[simp] theorem setQueue_tokens (s : State) (n : Nat) (q : Queue) : (s.setQueue n q).tokens = s.tokens := rfl
@[simp] theorem setQueue_host (s : State) (n : Nat) (q : Queue) : (s.setQueue n q).host = s.host := rfl
@[simp] theorem setQueue_dbg (s : State) (n : Nat) (q : Queue) : (s.setQueue n q).dbg = s.dbg := rfl

-- setReg
@[simp] theorem setReg_cycle (s : State) (k v : Nat) : (s.setReg k v).cycle = s.cycle := rfl
@[simp] theorem setReg_agenda (s : State) (k v : Nat) : (s.setReg k v).agenda = s.agenda := rfl
@[simp] theorem setReg_focus (s : State) (k v : Nat) : (s.setReg k v).focus = s.focus := rfl
@[simp] theorem setReg_fresh (s : State) (k v : Nat) : (s.setReg k v).fresh = s.fresh := rfl
@[simp] theorem setReg_fatal (s : State) (k v : Nat) : (s.setReg k v).fatal = s.fatal := rfl
@[simp] theorem setReg_threads (s : State) (k v : Nat) : (s.setReg k v).threads = s.threads := rfl
@[simp] theorem setReg_stores (s : State) (k v : Nat) : (s.setReg k v).stores = s.stores := rfl
@[simp] theorem setReg_nextStore (s : State) (k v : Nat) : (s.setReg k v).nextStore = s.nextStore := rfl
@[simp] theorem setReg_bar0 (s : State) (k v : Nat) : (s.setReg k v).bar0 = s.bar0 := rfl
@[simp] theorem setReg_mem (s : State) (k v : Nat) : (s.setReg k v).mem = s.mem := rfl
@[simp] theorem setReg_stash (s : State) (k v : Nat) : (s.setReg k v).stash = s.stash := rfl
@[simp] theorem setReg_coh (s : State) (k v : Nat) : (s.setReg k v).coh = s.coh := rfl
@[simp] theorem setReg_tlb (s : State) (k v : Nat) : (s.setReg k v).tlb = s.tlb := rfl
@[simp] theorem setReg_lodges (s : State) (k v : Nat) : (s.setReg k v).lodges = s.lodges := rfl
@[simp] theorem setReg_sent (s : State) (k v : Nat) : (s.setReg k v).sent = s.sent := rfl
@[simp] theorem setReg_runs (s : State) (k v : Nat) : (s.setReg k v).runs = s.runs := rfl
@[simp] theorem setReg_saved (s : State) (k v : Nat) : (s.setReg k v).saved = s.saved := rfl
@[simp] theorem setReg_queues (s : State) (k v : Nat) : (s.setReg k v).queues = s.queues := rfl
@[simp] theorem setReg_launches (s : State) (k v : Nat) : (s.setReg k v).launches = s.launches := rfl
@[simp] theorem setReg_lastQueue (s : State) (k v : Nat) : (s.setReg k v).lastQueue = s.lastQueue := rfl
@[simp] theorem setReg_latchCycle (s : State) (k v : Nat) : (s.setReg k v).latchCycle = s.latchCycle := rfl
@[simp] theorem setReg_scOps (s : State) (k v : Nat) : (s.setReg k v).scOps = s.scOps := rfl
@[simp] theorem setReg_rounded (s : State) (k v : Nat) : (s.setReg k v).rounded = s.rounded := rfl
@[simp] theorem setReg_balance (s : State) (k v : Nat) : (s.setReg k v).balance = s.balance := rfl
@[simp] theorem setReg_periodic (s : State) (k v : Nat) : (s.setReg k v).periodic = s.periodic := rfl
@[simp] theorem setReg_round (s : State) (k v : Nat) : (s.setReg k v).round = s.round := rfl
@[simp] theorem setReg_grids (s : State) (k v : Nat) : (s.setReg k v).grids = s.grids := rfl
@[simp] theorem setReg_engines (s : State) (k v : Nat) : (s.setReg k v).engines = s.engines := rfl
@[simp] theorem setReg_acc (s : State) (k v : Nat) : (s.setReg k v).acc = s.acc := rfl
@[simp] theorem setReg_accTag (s : State) (k v : Nat) : (s.setReg k v).accTag = s.accTag := rfl
@[simp] theorem setReg_rows (s : State) (k v : Nat) : (s.setReg k v).rows = s.rows := rfl
@[simp] theorem setReg_rowCount (s : State) (k v : Nat) : (s.setReg k v).rowCount = s.rowCount := rfl
@[simp] theorem setReg_records (s : State) (k v : Nat) : (s.setReg k v).records = s.records := rfl
@[simp] theorem setReg_tokens (s : State) (k v : Nat) : (s.setReg k v).tokens = s.tokens := rfl
@[simp] theorem setReg_host (s : State) (k v : Nat) : (s.setReg k v).host = s.host := rfl
@[simp] theorem setReg_dbg (s : State) (k v : Nat) : (s.setReg k v).dbg = s.dbg := rfl

-- setBar
@[simp] theorem setBar_cycle (s : State) (k v : Nat) : (s.setBar k v).cycle = s.cycle := rfl
@[simp] theorem setBar_agenda (s : State) (k v : Nat) : (s.setBar k v).agenda = s.agenda := rfl
@[simp] theorem setBar_focus (s : State) (k v : Nat) : (s.setBar k v).focus = s.focus := rfl
@[simp] theorem setBar_fresh (s : State) (k v : Nat) : (s.setBar k v).fresh = s.fresh := rfl
@[simp] theorem setBar_fatal (s : State) (k v : Nat) : (s.setBar k v).fatal = s.fatal := rfl
@[simp] theorem setBar_threads (s : State) (k v : Nat) : (s.setBar k v).threads = s.threads := rfl
@[simp] theorem setBar_stores (s : State) (k v : Nat) : (s.setBar k v).stores = s.stores := rfl
@[simp] theorem setBar_nextStore (s : State) (k v : Nat) : (s.setBar k v).nextStore = s.nextStore := rfl
@[simp] theorem setBar_regs (s : State) (k v : Nat) : (s.setBar k v).regs = s.regs := rfl
@[simp] theorem setBar_mem (s : State) (k v : Nat) : (s.setBar k v).mem = s.mem := rfl
@[simp] theorem setBar_stash (s : State) (k v : Nat) : (s.setBar k v).stash = s.stash := rfl
@[simp] theorem setBar_coh (s : State) (k v : Nat) : (s.setBar k v).coh = s.coh := rfl
@[simp] theorem setBar_tlb (s : State) (k v : Nat) : (s.setBar k v).tlb = s.tlb := rfl
@[simp] theorem setBar_lodges (s : State) (k v : Nat) : (s.setBar k v).lodges = s.lodges := rfl
@[simp] theorem setBar_sent (s : State) (k v : Nat) : (s.setBar k v).sent = s.sent := rfl
@[simp] theorem setBar_runs (s : State) (k v : Nat) : (s.setBar k v).runs = s.runs := rfl
@[simp] theorem setBar_saved (s : State) (k v : Nat) : (s.setBar k v).saved = s.saved := rfl
@[simp] theorem setBar_queues (s : State) (k v : Nat) : (s.setBar k v).queues = s.queues := rfl
@[simp] theorem setBar_launches (s : State) (k v : Nat) : (s.setBar k v).launches = s.launches := rfl
@[simp] theorem setBar_lastQueue (s : State) (k v : Nat) : (s.setBar k v).lastQueue = s.lastQueue := rfl
@[simp] theorem setBar_latchCycle (s : State) (k v : Nat) : (s.setBar k v).latchCycle = s.latchCycle := rfl
@[simp] theorem setBar_scOps (s : State) (k v : Nat) : (s.setBar k v).scOps = s.scOps := rfl
@[simp] theorem setBar_rounded (s : State) (k v : Nat) : (s.setBar k v).rounded = s.rounded := rfl
@[simp] theorem setBar_balance (s : State) (k v : Nat) : (s.setBar k v).balance = s.balance := rfl
@[simp] theorem setBar_periodic (s : State) (k v : Nat) : (s.setBar k v).periodic = s.periodic := rfl
@[simp] theorem setBar_round (s : State) (k v : Nat) : (s.setBar k v).round = s.round := rfl
@[simp] theorem setBar_grids (s : State) (k v : Nat) : (s.setBar k v).grids = s.grids := rfl
@[simp] theorem setBar_engines (s : State) (k v : Nat) : (s.setBar k v).engines = s.engines := rfl
@[simp] theorem setBar_acc (s : State) (k v : Nat) : (s.setBar k v).acc = s.acc := rfl
@[simp] theorem setBar_accTag (s : State) (k v : Nat) : (s.setBar k v).accTag = s.accTag := rfl
@[simp] theorem setBar_rows (s : State) (k v : Nat) : (s.setBar k v).rows = s.rows := rfl
@[simp] theorem setBar_rowCount (s : State) (k v : Nat) : (s.setBar k v).rowCount = s.rowCount := rfl
@[simp] theorem setBar_records (s : State) (k v : Nat) : (s.setBar k v).records = s.records := rfl
@[simp] theorem setBar_tokens (s : State) (k v : Nat) : (s.setBar k v).tokens = s.tokens := rfl
@[simp] theorem setBar_host (s : State) (k v : Nat) : (s.setBar k v).host = s.host := rfl
@[simp] theorem setBar_dbg (s : State) (k v : Nat) : (s.setBar k v).dbg = s.dbg := rfl

-- onReg
@[simp] theorem onReg_cycle (s : State) (k : Nat) (f : Nat → Nat) : (s.onReg k f).cycle = s.cycle := rfl
@[simp] theorem onReg_agenda (s : State) (k : Nat) (f : Nat → Nat) : (s.onReg k f).agenda = s.agenda := rfl
@[simp] theorem onReg_focus (s : State) (k : Nat) (f : Nat → Nat) : (s.onReg k f).focus = s.focus := rfl
@[simp] theorem onReg_fresh (s : State) (k : Nat) (f : Nat → Nat) : (s.onReg k f).fresh = s.fresh := rfl
@[simp] theorem onReg_fatal (s : State) (k : Nat) (f : Nat → Nat) : (s.onReg k f).fatal = s.fatal := rfl
@[simp] theorem onReg_threads (s : State) (k : Nat) (f : Nat → Nat) : (s.onReg k f).threads = s.threads := rfl
@[simp] theorem onReg_stores (s : State) (k : Nat) (f : Nat → Nat) : (s.onReg k f).stores = s.stores := rfl
@[simp] theorem onReg_nextStore (s : State) (k : Nat) (f : Nat → Nat) : (s.onReg k f).nextStore = s.nextStore := rfl
@[simp] theorem onReg_bar0 (s : State) (k : Nat) (f : Nat → Nat) : (s.onReg k f).bar0 = s.bar0 := rfl
@[simp] theorem onReg_mem (s : State) (k : Nat) (f : Nat → Nat) : (s.onReg k f).mem = s.mem := rfl
@[simp] theorem onReg_stash (s : State) (k : Nat) (f : Nat → Nat) : (s.onReg k f).stash = s.stash := rfl
@[simp] theorem onReg_coh (s : State) (k : Nat) (f : Nat → Nat) : (s.onReg k f).coh = s.coh := rfl
@[simp] theorem onReg_tlb (s : State) (k : Nat) (f : Nat → Nat) : (s.onReg k f).tlb = s.tlb := rfl
@[simp] theorem onReg_lodges (s : State) (k : Nat) (f : Nat → Nat) : (s.onReg k f).lodges = s.lodges := rfl
@[simp] theorem onReg_sent (s : State) (k : Nat) (f : Nat → Nat) : (s.onReg k f).sent = s.sent := rfl
@[simp] theorem onReg_runs (s : State) (k : Nat) (f : Nat → Nat) : (s.onReg k f).runs = s.runs := rfl
@[simp] theorem onReg_saved (s : State) (k : Nat) (f : Nat → Nat) : (s.onReg k f).saved = s.saved := rfl
@[simp] theorem onReg_queues (s : State) (k : Nat) (f : Nat → Nat) : (s.onReg k f).queues = s.queues := rfl
@[simp] theorem onReg_launches (s : State) (k : Nat) (f : Nat → Nat) : (s.onReg k f).launches = s.launches := rfl
@[simp] theorem onReg_lastQueue (s : State) (k : Nat) (f : Nat → Nat) : (s.onReg k f).lastQueue = s.lastQueue := rfl
@[simp] theorem onReg_latchCycle (s : State) (k : Nat) (f : Nat → Nat) : (s.onReg k f).latchCycle = s.latchCycle := rfl
@[simp] theorem onReg_scOps (s : State) (k : Nat) (f : Nat → Nat) : (s.onReg k f).scOps = s.scOps := rfl
@[simp] theorem onReg_rounded (s : State) (k : Nat) (f : Nat → Nat) : (s.onReg k f).rounded = s.rounded := rfl
@[simp] theorem onReg_balance (s : State) (k : Nat) (f : Nat → Nat) : (s.onReg k f).balance = s.balance := rfl
@[simp] theorem onReg_periodic (s : State) (k : Nat) (f : Nat → Nat) : (s.onReg k f).periodic = s.periodic := rfl
@[simp] theorem onReg_round (s : State) (k : Nat) (f : Nat → Nat) : (s.onReg k f).round = s.round := rfl
@[simp] theorem onReg_grids (s : State) (k : Nat) (f : Nat → Nat) : (s.onReg k f).grids = s.grids := rfl
@[simp] theorem onReg_engines (s : State) (k : Nat) (f : Nat → Nat) : (s.onReg k f).engines = s.engines := rfl
@[simp] theorem onReg_acc (s : State) (k : Nat) (f : Nat → Nat) : (s.onReg k f).acc = s.acc := rfl
@[simp] theorem onReg_accTag (s : State) (k : Nat) (f : Nat → Nat) : (s.onReg k f).accTag = s.accTag := rfl
@[simp] theorem onReg_rows (s : State) (k : Nat) (f : Nat → Nat) : (s.onReg k f).rows = s.rows := rfl
@[simp] theorem onReg_rowCount (s : State) (k : Nat) (f : Nat → Nat) : (s.onReg k f).rowCount = s.rowCount := rfl
@[simp] theorem onReg_records (s : State) (k : Nat) (f : Nat → Nat) : (s.onReg k f).records = s.records := rfl
@[simp] theorem onReg_tokens (s : State) (k : Nat) (f : Nat → Nat) : (s.onReg k f).tokens = s.tokens := rfl
@[simp] theorem onReg_host (s : State) (k : Nat) (f : Nat → Nat) : (s.onReg k f).host = s.host := rfl
@[simp] theorem onReg_dbg (s : State) (k : Nat) (f : Nat → Nat) : (s.onReg k f).dbg = s.dbg := rfl

-- addRecord
@[simp] theorem addRecord_cycle (s : State) (r : Record) : (s.addRecord r).cycle = s.cycle := rfl
@[simp] theorem addRecord_agenda (s : State) (r : Record) : (s.addRecord r).agenda = s.agenda := rfl
@[simp] theorem addRecord_focus (s : State) (r : Record) : (s.addRecord r).focus = s.focus := rfl
@[simp] theorem addRecord_fresh (s : State) (r : Record) : (s.addRecord r).fresh = s.fresh := rfl
@[simp] theorem addRecord_fatal (s : State) (r : Record) : (s.addRecord r).fatal = s.fatal := rfl
@[simp] theorem addRecord_threads (s : State) (r : Record) : (s.addRecord r).threads = s.threads := rfl
@[simp] theorem addRecord_stores (s : State) (r : Record) : (s.addRecord r).stores = s.stores := rfl
@[simp] theorem addRecord_nextStore (s : State) (r : Record) : (s.addRecord r).nextStore = s.nextStore := rfl
@[simp] theorem addRecord_regs (s : State) (r : Record) : (s.addRecord r).regs = s.regs := rfl
@[simp] theorem addRecord_bar0 (s : State) (r : Record) : (s.addRecord r).bar0 = s.bar0 := rfl
@[simp] theorem addRecord_mem (s : State) (r : Record) : (s.addRecord r).mem = s.mem := rfl
@[simp] theorem addRecord_stash (s : State) (r : Record) : (s.addRecord r).stash = s.stash := rfl
@[simp] theorem addRecord_coh (s : State) (r : Record) : (s.addRecord r).coh = s.coh := rfl
@[simp] theorem addRecord_tlb (s : State) (r : Record) : (s.addRecord r).tlb = s.tlb := rfl
@[simp] theorem addRecord_lodges (s : State) (r : Record) : (s.addRecord r).lodges = s.lodges := rfl
@[simp] theorem addRecord_sent (s : State) (r : Record) : (s.addRecord r).sent = s.sent := rfl
@[simp] theorem addRecord_runs (s : State) (r : Record) : (s.addRecord r).runs = s.runs := rfl
@[simp] theorem addRecord_saved (s : State) (r : Record) : (s.addRecord r).saved = s.saved := rfl
@[simp] theorem addRecord_queues (s : State) (r : Record) : (s.addRecord r).queues = s.queues := rfl
@[simp] theorem addRecord_launches (s : State) (r : Record) : (s.addRecord r).launches = s.launches := rfl
@[simp] theorem addRecord_lastQueue (s : State) (r : Record) : (s.addRecord r).lastQueue = s.lastQueue := rfl
@[simp] theorem addRecord_latchCycle (s : State) (r : Record) : (s.addRecord r).latchCycle = s.latchCycle := rfl
@[simp] theorem addRecord_scOps (s : State) (r : Record) : (s.addRecord r).scOps = s.scOps := rfl
@[simp] theorem addRecord_rounded (s : State) (r : Record) : (s.addRecord r).rounded = s.rounded := rfl
@[simp] theorem addRecord_balance (s : State) (r : Record) : (s.addRecord r).balance = s.balance := rfl
@[simp] theorem addRecord_periodic (s : State) (r : Record) : (s.addRecord r).periodic = s.periodic := rfl
@[simp] theorem addRecord_round (s : State) (r : Record) : (s.addRecord r).round = s.round := rfl
@[simp] theorem addRecord_grids (s : State) (r : Record) : (s.addRecord r).grids = s.grids := rfl
@[simp] theorem addRecord_engines (s : State) (r : Record) : (s.addRecord r).engines = s.engines := rfl
@[simp] theorem addRecord_acc (s : State) (r : Record) : (s.addRecord r).acc = s.acc := rfl
@[simp] theorem addRecord_accTag (s : State) (r : Record) : (s.addRecord r).accTag = s.accTag := rfl
@[simp] theorem addRecord_rows (s : State) (r : Record) : (s.addRecord r).rows = s.rows := rfl
@[simp] theorem addRecord_rowCount (s : State) (r : Record) : (s.addRecord r).rowCount = s.rowCount := rfl
@[simp] theorem addRecord_tokens (s : State) (r : Record) : (s.addRecord r).tokens = s.tokens := rfl
@[simp] theorem addRecord_host (s : State) (r : Record) : (s.addRecord r).host = s.host := rfl
@[simp] theorem addRecord_dbg (s : State) (r : Record) : (s.addRecord r).dbg = s.dbg := rfl

-- onThread
@[simp] theorem onThread_cycle (s : State) (th : Nat) (f : Thread → Thread) : (s.onThread th f).cycle = s.cycle := by
  unfold State.onThread; split <;> rfl
@[simp] theorem onThread_agenda (s : State) (th : Nat) (f : Thread → Thread) : (s.onThread th f).agenda = s.agenda := by
  unfold State.onThread; split <;> rfl
@[simp] theorem onThread_focus (s : State) (th : Nat) (f : Thread → Thread) : (s.onThread th f).focus = s.focus := by
  unfold State.onThread; split <;> rfl
@[simp] theorem onThread_fresh (s : State) (th : Nat) (f : Thread → Thread) : (s.onThread th f).fresh = s.fresh := by
  unfold State.onThread; split <;> rfl
@[simp] theorem onThread_fatal (s : State) (th : Nat) (f : Thread → Thread) : (s.onThread th f).fatal = s.fatal := by
  unfold State.onThread; split <;> rfl
@[simp] theorem onThread_stores (s : State) (th : Nat) (f : Thread → Thread) : (s.onThread th f).stores = s.stores := by
  unfold State.onThread; split <;> rfl
@[simp] theorem onThread_nextStore (s : State) (th : Nat) (f : Thread → Thread) : (s.onThread th f).nextStore = s.nextStore := by
  unfold State.onThread; split <;> rfl
@[simp] theorem onThread_regs (s : State) (th : Nat) (f : Thread → Thread) : (s.onThread th f).regs = s.regs := by
  unfold State.onThread; split <;> rfl
@[simp] theorem onThread_bar0 (s : State) (th : Nat) (f : Thread → Thread) : (s.onThread th f).bar0 = s.bar0 := by
  unfold State.onThread; split <;> rfl
@[simp] theorem onThread_mem (s : State) (th : Nat) (f : Thread → Thread) : (s.onThread th f).mem = s.mem := by
  unfold State.onThread; split <;> rfl
@[simp] theorem onThread_stash (s : State) (th : Nat) (f : Thread → Thread) : (s.onThread th f).stash = s.stash := by
  unfold State.onThread; split <;> rfl
@[simp] theorem onThread_coh (s : State) (th : Nat) (f : Thread → Thread) : (s.onThread th f).coh = s.coh := by
  unfold State.onThread; split <;> rfl
@[simp] theorem onThread_tlb (s : State) (th : Nat) (f : Thread → Thread) : (s.onThread th f).tlb = s.tlb := by
  unfold State.onThread; split <;> rfl
@[simp] theorem onThread_lodges (s : State) (th : Nat) (f : Thread → Thread) : (s.onThread th f).lodges = s.lodges := by
  unfold State.onThread; split <;> rfl
@[simp] theorem onThread_sent (s : State) (th : Nat) (f : Thread → Thread) : (s.onThread th f).sent = s.sent := by
  unfold State.onThread; split <;> rfl
@[simp] theorem onThread_runs (s : State) (th : Nat) (f : Thread → Thread) : (s.onThread th f).runs = s.runs := by
  unfold State.onThread; split <;> rfl
@[simp] theorem onThread_saved (s : State) (th : Nat) (f : Thread → Thread) : (s.onThread th f).saved = s.saved := by
  unfold State.onThread; split <;> rfl
@[simp] theorem onThread_queues (s : State) (th : Nat) (f : Thread → Thread) : (s.onThread th f).queues = s.queues := by
  unfold State.onThread; split <;> rfl
@[simp] theorem onThread_launches (s : State) (th : Nat) (f : Thread → Thread) : (s.onThread th f).launches = s.launches := by
  unfold State.onThread; split <;> rfl
@[simp] theorem onThread_lastQueue (s : State) (th : Nat) (f : Thread → Thread) : (s.onThread th f).lastQueue = s.lastQueue := by
  unfold State.onThread; split <;> rfl
@[simp] theorem onThread_latchCycle (s : State) (th : Nat) (f : Thread → Thread) : (s.onThread th f).latchCycle = s.latchCycle := by
  unfold State.onThread; split <;> rfl
@[simp] theorem onThread_scOps (s : State) (th : Nat) (f : Thread → Thread) : (s.onThread th f).scOps = s.scOps := by
  unfold State.onThread; split <;> rfl
@[simp] theorem onThread_rounded (s : State) (th : Nat) (f : Thread → Thread) : (s.onThread th f).rounded = s.rounded := by
  unfold State.onThread; split <;> rfl
@[simp] theorem onThread_balance (s : State) (th : Nat) (f : Thread → Thread) : (s.onThread th f).balance = s.balance := by
  unfold State.onThread; split <;> rfl
@[simp] theorem onThread_periodic (s : State) (th : Nat) (f : Thread → Thread) : (s.onThread th f).periodic = s.periodic := by
  unfold State.onThread; split <;> rfl
@[simp] theorem onThread_round (s : State) (th : Nat) (f : Thread → Thread) : (s.onThread th f).round = s.round := by
  unfold State.onThread; split <;> rfl
@[simp] theorem onThread_grids (s : State) (th : Nat) (f : Thread → Thread) : (s.onThread th f).grids = s.grids := by
  unfold State.onThread; split <;> rfl
@[simp] theorem onThread_engines (s : State) (th : Nat) (f : Thread → Thread) : (s.onThread th f).engines = s.engines := by
  unfold State.onThread; split <;> rfl
@[simp] theorem onThread_acc (s : State) (th : Nat) (f : Thread → Thread) : (s.onThread th f).acc = s.acc := by
  unfold State.onThread; split <;> rfl
@[simp] theorem onThread_accTag (s : State) (th : Nat) (f : Thread → Thread) : (s.onThread th f).accTag = s.accTag := by
  unfold State.onThread; split <;> rfl
@[simp] theorem onThread_rows (s : State) (th : Nat) (f : Thread → Thread) : (s.onThread th f).rows = s.rows := by
  unfold State.onThread; split <;> rfl
@[simp] theorem onThread_rowCount (s : State) (th : Nat) (f : Thread → Thread) : (s.onThread th f).rowCount = s.rowCount := by
  unfold State.onThread; split <;> rfl
@[simp] theorem onThread_records (s : State) (th : Nat) (f : Thread → Thread) : (s.onThread th f).records = s.records := by
  unfold State.onThread; split <;> rfl
@[simp] theorem onThread_tokens (s : State) (th : Nat) (f : Thread → Thread) : (s.onThread th f).tokens = s.tokens := by
  unfold State.onThread; split <;> rfl
@[simp] theorem onThread_host (s : State) (th : Nat) (f : Thread → Thread) : (s.onThread th f).host = s.host := by
  unfold State.onThread; split <;> rfl
@[simp] theorem onThread_dbg (s : State) (th : Nat) (f : Thread → Thread) : (s.onThread th f).dbg = s.dbg := by
  unfold State.onThread; split <;> rfl

-- the end of an instruction, and a park
@[simp] theorem finish_cycle (s : State) (th len : Nat) (t : Thread) : (s.finish th len t).cycle = s.cycle := rfl
@[simp] theorem finish_agenda (s : State) (th len : Nat) (t : Thread) : (s.finish th len t).agenda = s.agenda := rfl
@[simp] theorem finish_focus (s : State) (th len : Nat) (t : Thread) : (s.finish th len t).focus = s.focus := rfl
@[simp] theorem finish_fresh (s : State) (th len : Nat) (t : Thread) : (s.finish th len t).fresh = s.fresh := rfl
@[simp] theorem finish_fatal (s : State) (th len : Nat) (t : Thread) : (s.finish th len t).fatal = s.fatal := rfl
@[simp] theorem finish_stores (s : State) (th len : Nat) (t : Thread) : (s.finish th len t).stores = s.stores := rfl
@[simp] theorem finish_nextStore (s : State) (th len : Nat) (t : Thread) : (s.finish th len t).nextStore = s.nextStore := rfl
@[simp] theorem finish_regs (s : State) (th len : Nat) (t : Thread) : (s.finish th len t).regs = s.regs := rfl
@[simp] theorem finish_bar0 (s : State) (th len : Nat) (t : Thread) : (s.finish th len t).bar0 = s.bar0 := rfl
@[simp] theorem finish_mem (s : State) (th len : Nat) (t : Thread) : (s.finish th len t).mem = s.mem := rfl
@[simp] theorem finish_stash (s : State) (th len : Nat) (t : Thread) : (s.finish th len t).stash = s.stash := rfl
@[simp] theorem finish_coh (s : State) (th len : Nat) (t : Thread) : (s.finish th len t).coh = s.coh := rfl
@[simp] theorem finish_tlb (s : State) (th len : Nat) (t : Thread) : (s.finish th len t).tlb = s.tlb := rfl
@[simp] theorem finish_lodges (s : State) (th len : Nat) (t : Thread) : (s.finish th len t).lodges = s.lodges := rfl
@[simp] theorem finish_sent (s : State) (th len : Nat) (t : Thread) : (s.finish th len t).sent = s.sent := rfl
@[simp] theorem finish_runs (s : State) (th len : Nat) (t : Thread) : (s.finish th len t).runs = s.runs := rfl
@[simp] theorem finish_saved (s : State) (th len : Nat) (t : Thread) : (s.finish th len t).saved = s.saved := rfl
@[simp] theorem finish_queues (s : State) (th len : Nat) (t : Thread) : (s.finish th len t).queues = s.queues := rfl
@[simp] theorem finish_launches (s : State) (th len : Nat) (t : Thread) : (s.finish th len t).launches = s.launches := rfl
@[simp] theorem finish_lastQueue (s : State) (th len : Nat) (t : Thread) : (s.finish th len t).lastQueue = s.lastQueue := rfl
@[simp] theorem finish_latchCycle (s : State) (th len : Nat) (t : Thread) : (s.finish th len t).latchCycle = s.latchCycle := rfl
@[simp] theorem finish_scOps (s : State) (th len : Nat) (t : Thread) : (s.finish th len t).scOps = s.scOps := rfl
@[simp] theorem finish_rounded (s : State) (th len : Nat) (t : Thread) : (s.finish th len t).rounded = s.rounded := rfl
@[simp] theorem finish_balance (s : State) (th len : Nat) (t : Thread) : (s.finish th len t).balance = s.balance := rfl
@[simp] theorem finish_periodic (s : State) (th len : Nat) (t : Thread) : (s.finish th len t).periodic = s.periodic := rfl
@[simp] theorem finish_round (s : State) (th len : Nat) (t : Thread) : (s.finish th len t).round = s.round := rfl
@[simp] theorem finish_grids (s : State) (th len : Nat) (t : Thread) : (s.finish th len t).grids = s.grids := rfl
@[simp] theorem finish_engines (s : State) (th len : Nat) (t : Thread) : (s.finish th len t).engines = s.engines := rfl
@[simp] theorem finish_acc (s : State) (th len : Nat) (t : Thread) : (s.finish th len t).acc = s.acc := rfl
@[simp] theorem finish_accTag (s : State) (th len : Nat) (t : Thread) : (s.finish th len t).accTag = s.accTag := rfl
@[simp] theorem finish_rows (s : State) (th len : Nat) (t : Thread) : (s.finish th len t).rows = s.rows := rfl
@[simp] theorem finish_rowCount (s : State) (th len : Nat) (t : Thread) : (s.finish th len t).rowCount = s.rowCount := rfl
@[simp] theorem finish_records (s : State) (th len : Nat) (t : Thread) : (s.finish th len t).records = s.records := rfl
@[simp] theorem finish_tokens (s : State) (th len : Nat) (t : Thread) : (s.finish th len t).tokens = s.tokens := rfl
@[simp] theorem finish_host (s : State) (th len : Nat) (t : Thread) : (s.finish th len t).host = s.host := rfl
@[simp] theorem finish_dbg (s : State) (th len : Nat) (t : Thread) : (s.finish th len t).dbg = s.dbg := rfl
@[simp] theorem parkAt_cycle (s : State) (th : Nat) (p : Park) : (s.parkAt th p).cycle = s.cycle := onThread_cycle s th _
@[simp] theorem parkAt_agenda (s : State) (th : Nat) (p : Park) : (s.parkAt th p).agenda = s.agenda := onThread_agenda s th _
@[simp] theorem parkAt_focus (s : State) (th : Nat) (p : Park) : (s.parkAt th p).focus = s.focus := onThread_focus s th _
@[simp] theorem parkAt_fresh (s : State) (th : Nat) (p : Park) : (s.parkAt th p).fresh = s.fresh := onThread_fresh s th _
@[simp] theorem parkAt_fatal (s : State) (th : Nat) (p : Park) : (s.parkAt th p).fatal = s.fatal := onThread_fatal s th _
@[simp] theorem parkAt_stores (s : State) (th : Nat) (p : Park) : (s.parkAt th p).stores = s.stores := onThread_stores s th _
@[simp] theorem parkAt_nextStore (s : State) (th : Nat) (p : Park) : (s.parkAt th p).nextStore = s.nextStore := onThread_nextStore s th _
@[simp] theorem parkAt_regs (s : State) (th : Nat) (p : Park) : (s.parkAt th p).regs = s.regs := onThread_regs s th _
@[simp] theorem parkAt_bar0 (s : State) (th : Nat) (p : Park) : (s.parkAt th p).bar0 = s.bar0 := onThread_bar0 s th _
@[simp] theorem parkAt_mem (s : State) (th : Nat) (p : Park) : (s.parkAt th p).mem = s.mem := onThread_mem s th _
@[simp] theorem parkAt_stash (s : State) (th : Nat) (p : Park) : (s.parkAt th p).stash = s.stash := onThread_stash s th _
@[simp] theorem parkAt_coh (s : State) (th : Nat) (p : Park) : (s.parkAt th p).coh = s.coh := onThread_coh s th _
@[simp] theorem parkAt_tlb (s : State) (th : Nat) (p : Park) : (s.parkAt th p).tlb = s.tlb := onThread_tlb s th _
@[simp] theorem parkAt_lodges (s : State) (th : Nat) (p : Park) : (s.parkAt th p).lodges = s.lodges := onThread_lodges s th _
@[simp] theorem parkAt_sent (s : State) (th : Nat) (p : Park) : (s.parkAt th p).sent = s.sent := onThread_sent s th _
@[simp] theorem parkAt_runs (s : State) (th : Nat) (p : Park) : (s.parkAt th p).runs = s.runs := onThread_runs s th _
@[simp] theorem parkAt_saved (s : State) (th : Nat) (p : Park) : (s.parkAt th p).saved = s.saved := onThread_saved s th _
@[simp] theorem parkAt_queues (s : State) (th : Nat) (p : Park) : (s.parkAt th p).queues = s.queues := onThread_queues s th _
@[simp] theorem parkAt_launches (s : State) (th : Nat) (p : Park) : (s.parkAt th p).launches = s.launches := onThread_launches s th _
@[simp] theorem parkAt_lastQueue (s : State) (th : Nat) (p : Park) : (s.parkAt th p).lastQueue = s.lastQueue := onThread_lastQueue s th _
@[simp] theorem parkAt_latchCycle (s : State) (th : Nat) (p : Park) : (s.parkAt th p).latchCycle = s.latchCycle := onThread_latchCycle s th _
@[simp] theorem parkAt_scOps (s : State) (th : Nat) (p : Park) : (s.parkAt th p).scOps = s.scOps := onThread_scOps s th _
@[simp] theorem parkAt_rounded (s : State) (th : Nat) (p : Park) : (s.parkAt th p).rounded = s.rounded := onThread_rounded s th _
@[simp] theorem parkAt_balance (s : State) (th : Nat) (p : Park) : (s.parkAt th p).balance = s.balance := onThread_balance s th _
@[simp] theorem parkAt_periodic (s : State) (th : Nat) (p : Park) : (s.parkAt th p).periodic = s.periodic := onThread_periodic s th _
@[simp] theorem parkAt_round (s : State) (th : Nat) (p : Park) : (s.parkAt th p).round = s.round := onThread_round s th _
@[simp] theorem parkAt_grids (s : State) (th : Nat) (p : Park) : (s.parkAt th p).grids = s.grids := onThread_grids s th _
@[simp] theorem parkAt_engines (s : State) (th : Nat) (p : Park) : (s.parkAt th p).engines = s.engines := onThread_engines s th _
@[simp] theorem parkAt_acc (s : State) (th : Nat) (p : Park) : (s.parkAt th p).acc = s.acc := onThread_acc s th _
@[simp] theorem parkAt_accTag (s : State) (th : Nat) (p : Park) : (s.parkAt th p).accTag = s.accTag := onThread_accTag s th _
@[simp] theorem parkAt_rows (s : State) (th : Nat) (p : Park) : (s.parkAt th p).rows = s.rows := onThread_rows s th _
@[simp] theorem parkAt_rowCount (s : State) (th : Nat) (p : Park) : (s.parkAt th p).rowCount = s.rowCount := onThread_rowCount s th _
@[simp] theorem parkAt_records (s : State) (th : Nat) (p : Park) : (s.parkAt th p).records = s.records := onThread_records s th _
@[simp] theorem parkAt_tokens (s : State) (th : Nat) (p : Park) : (s.parkAt th p).tokens = s.tokens := onThread_tokens s th _
@[simp] theorem parkAt_host (s : State) (th : Nat) (p : Park) : (s.parkAt th p).host = s.host := onThread_host s th _
@[simp] theorem parkAt_dbg (s : State) (th : Nat) (p : Park) : (s.parkAt th p).dbg = s.dbg := onThread_dbg s th _

-- Thread.setG
@[simp] theorem thread_setG_task (t : Thread) (r : GReg) (v : BitVec 64) : (t.setG r v).task = t.task := rfl
@[simp] theorem thread_setG_w (t : Thread) (r : GReg) (v : BitVec 64) : (t.setG r v).w = t.w := rfl
@[simp] theorem thread_setG_m (t : Thread) (r : GReg) (v : BitVec 64) : (t.setG r v).m = t.m := rfl
@[simp] theorem thread_setG_p (t : Thread) (r : GReg) (v : BitVec 64) : (t.setG r v).p = t.p := rfl
@[simp] theorem thread_setG_pc (t : Thread) (r : GReg) (v : BitVec 64) : (t.setG r v).pc = t.pc := rfl
@[simp] theorem thread_setG_streams (t : Thread) (r : GReg) (v : BitVec 64) : (t.setG r v).streams = t.streams := rfl
@[simp] theorem thread_setG_rep (t : Thread) (r : GReg) (v : BitVec 64) : (t.setG r v).rep = t.rep := rfl
@[simp] theorem thread_setG_fmt (t : Thread) (r : GReg) (v : BitVec 64) : (t.setG r v).fmt = t.fmt := rfl
@[simp] theorem thread_setG_sr (t : Thread) (r : GReg) (v : BitVec 64) : (t.setG r v).sr = t.sr := rfl
@[simp] theorem thread_setG_mq (t : Thread) (r : GReg) (v : BitVec 64) : (t.setG r v).mq = t.mq := rfl
@[simp] theorem thread_setG_sbase (t : Thread) (r : GReg) (v : BitVec 64) : (t.setG r v).sbase = t.sbase := rfl
@[simp] theorem thread_setG_pend (t : Thread) (r : GReg) (v : BitVec 64) : (t.setG r v).pend = t.pend := rfl
@[simp] theorem thread_setG_park (t : Thread) (r : GReg) (v : BitVec 64) : (t.setG r v).park = t.park := rfl
@[simp] theorem thread_setG_outs (t : Thread) (r : GReg) (v : BitVec 64) : (t.setG r v).outs = t.outs := rfl
@[simp] theorem thread_setG_block (t : Thread) (r : GReg) (v : BitVec 64) : (t.setG r v).block = t.block := rfl
@[simp] theorem thread_setG_kept (t : Thread) (r : GReg) (v : BitVec 64) : (t.setG r v).kept = t.kept := rfl
@[simp] theorem thread_setG_entry (t : Thread) (r : GReg) (v : BitVec 64) : (t.setG r v).entry = t.entry := rfl
@[simp] theorem thread_setG_fenceScope (t : Thread) (r : GReg) (v : BitVec 64) : (t.setG r v).fenceScope = t.fenceScope := rfl
@[simp] theorem thread_setG_seen (t : Thread) (r : GReg) (v : BitVec 64) : (t.setG r v).seen = t.seen := rfl
@[simp] theorem thread_setG_nolog (t : Thread) (r : GReg) (v : BitVec 64) : (t.setG r v).nolog = t.nolog := rfl
@[simp] theorem thread_setG_seq (t : Thread) (r : GReg) (v : BitVec 64) : (t.setG r v).seq = t.seq := rfl
@[simp] theorem thread_setG_lastIssue (t : Thread) (r : GReg) (v : BitVec 64) : (t.setG r v).lastIssue = t.lastIssue := rfl
@[simp] theorem thread_setG_ending (t : Thread) (r : GReg) (v : BitVec 64) : (t.setG r v).ending = t.ending := rfl
@[simp] theorem thread_setG_fences (t : Thread) (r : GReg) (v : BitVec 64) : (t.setG r v).fences = t.fences := rfl
@[simp] theorem thread_setG_remote (t : Thread) (r : GReg) (v : BitVec 64) : (t.setG r v).remote = t.remote := rfl

-- Thread.setW
@[simp] theorem thread_setW_task (t : Thread) (r : WReg) (v : Line) : (t.setW r v).task = t.task := rfl
@[simp] theorem thread_setW_g (t : Thread) (r : WReg) (v : Line) : (t.setW r v).g = t.g := rfl
@[simp] theorem thread_setW_m (t : Thread) (r : WReg) (v : Line) : (t.setW r v).m = t.m := rfl
@[simp] theorem thread_setW_p (t : Thread) (r : WReg) (v : Line) : (t.setW r v).p = t.p := rfl
@[simp] theorem thread_setW_pc (t : Thread) (r : WReg) (v : Line) : (t.setW r v).pc = t.pc := rfl
@[simp] theorem thread_setW_streams (t : Thread) (r : WReg) (v : Line) : (t.setW r v).streams = t.streams := rfl
@[simp] theorem thread_setW_rep (t : Thread) (r : WReg) (v : Line) : (t.setW r v).rep = t.rep := rfl
@[simp] theorem thread_setW_fmt (t : Thread) (r : WReg) (v : Line) : (t.setW r v).fmt = t.fmt := rfl
@[simp] theorem thread_setW_sr (t : Thread) (r : WReg) (v : Line) : (t.setW r v).sr = t.sr := rfl
@[simp] theorem thread_setW_mq (t : Thread) (r : WReg) (v : Line) : (t.setW r v).mq = t.mq := rfl
@[simp] theorem thread_setW_sbase (t : Thread) (r : WReg) (v : Line) : (t.setW r v).sbase = t.sbase := rfl
@[simp] theorem thread_setW_pend (t : Thread) (r : WReg) (v : Line) : (t.setW r v).pend = t.pend := rfl
@[simp] theorem thread_setW_park (t : Thread) (r : WReg) (v : Line) : (t.setW r v).park = t.park := rfl
@[simp] theorem thread_setW_outs (t : Thread) (r : WReg) (v : Line) : (t.setW r v).outs = t.outs := rfl
@[simp] theorem thread_setW_block (t : Thread) (r : WReg) (v : Line) : (t.setW r v).block = t.block := rfl
@[simp] theorem thread_setW_kept (t : Thread) (r : WReg) (v : Line) : (t.setW r v).kept = t.kept := rfl
@[simp] theorem thread_setW_entry (t : Thread) (r : WReg) (v : Line) : (t.setW r v).entry = t.entry := rfl
@[simp] theorem thread_setW_fenceScope (t : Thread) (r : WReg) (v : Line) : (t.setW r v).fenceScope = t.fenceScope := rfl
@[simp] theorem thread_setW_seen (t : Thread) (r : WReg) (v : Line) : (t.setW r v).seen = t.seen := rfl
@[simp] theorem thread_setW_nolog (t : Thread) (r : WReg) (v : Line) : (t.setW r v).nolog = t.nolog := rfl
@[simp] theorem thread_setW_seq (t : Thread) (r : WReg) (v : Line) : (t.setW r v).seq = t.seq := rfl
@[simp] theorem thread_setW_lastIssue (t : Thread) (r : WReg) (v : Line) : (t.setW r v).lastIssue = t.lastIssue := rfl
@[simp] theorem thread_setW_ending (t : Thread) (r : WReg) (v : Line) : (t.setW r v).ending = t.ending := rfl
@[simp] theorem thread_setW_fences (t : Thread) (r : WReg) (v : Line) : (t.setW r v).fences = t.fences := rfl
@[simp] theorem thread_setW_remote (t : Thread) (r : WReg) (v : Line) : (t.setW r v).remote = t.remote := rfl

-- Thread.setM
@[simp] theorem thread_setM_task (t : Thread) (r : MReg) (v : BitVec 64) : (t.setM r v).task = t.task := by
  unfold Thread.setM; split <;> rfl
@[simp] theorem thread_setM_g (t : Thread) (r : MReg) (v : BitVec 64) : (t.setM r v).g = t.g := by
  unfold Thread.setM; split <;> rfl
@[simp] theorem thread_setM_w (t : Thread) (r : MReg) (v : BitVec 64) : (t.setM r v).w = t.w := by
  unfold Thread.setM; split <;> rfl
@[simp] theorem thread_setM_p (t : Thread) (r : MReg) (v : BitVec 64) : (t.setM r v).p = t.p := by
  unfold Thread.setM; split <;> rfl
@[simp] theorem thread_setM_pc (t : Thread) (r : MReg) (v : BitVec 64) : (t.setM r v).pc = t.pc := by
  unfold Thread.setM; split <;> rfl
@[simp] theorem thread_setM_streams (t : Thread) (r : MReg) (v : BitVec 64) : (t.setM r v).streams = t.streams := by
  unfold Thread.setM; split <;> rfl
@[simp] theorem thread_setM_rep (t : Thread) (r : MReg) (v : BitVec 64) : (t.setM r v).rep = t.rep := by
  unfold Thread.setM; split <;> rfl
@[simp] theorem thread_setM_fmt (t : Thread) (r : MReg) (v : BitVec 64) : (t.setM r v).fmt = t.fmt := by
  unfold Thread.setM; split <;> rfl
@[simp] theorem thread_setM_sr (t : Thread) (r : MReg) (v : BitVec 64) : (t.setM r v).sr = t.sr := by
  unfold Thread.setM; split <;> rfl
@[simp] theorem thread_setM_mq (t : Thread) (r : MReg) (v : BitVec 64) : (t.setM r v).mq = t.mq := by
  unfold Thread.setM; split <;> rfl
@[simp] theorem thread_setM_sbase (t : Thread) (r : MReg) (v : BitVec 64) : (t.setM r v).sbase = t.sbase := by
  unfold Thread.setM; split <;> rfl
@[simp] theorem thread_setM_pend (t : Thread) (r : MReg) (v : BitVec 64) : (t.setM r v).pend = t.pend := by
  unfold Thread.setM; split <;> rfl
@[simp] theorem thread_setM_park (t : Thread) (r : MReg) (v : BitVec 64) : (t.setM r v).park = t.park := by
  unfold Thread.setM; split <;> rfl
@[simp] theorem thread_setM_outs (t : Thread) (r : MReg) (v : BitVec 64) : (t.setM r v).outs = t.outs := by
  unfold Thread.setM; split <;> rfl
@[simp] theorem thread_setM_block (t : Thread) (r : MReg) (v : BitVec 64) : (t.setM r v).block = t.block := by
  unfold Thread.setM; split <;> rfl
@[simp] theorem thread_setM_kept (t : Thread) (r : MReg) (v : BitVec 64) : (t.setM r v).kept = t.kept := by
  unfold Thread.setM; split <;> rfl
@[simp] theorem thread_setM_entry (t : Thread) (r : MReg) (v : BitVec 64) : (t.setM r v).entry = t.entry := by
  unfold Thread.setM; split <;> rfl
@[simp] theorem thread_setM_fenceScope (t : Thread) (r : MReg) (v : BitVec 64) : (t.setM r v).fenceScope = t.fenceScope := by
  unfold Thread.setM; split <;> rfl
@[simp] theorem thread_setM_seen (t : Thread) (r : MReg) (v : BitVec 64) : (t.setM r v).seen = t.seen := by
  unfold Thread.setM; split <;> rfl
@[simp] theorem thread_setM_nolog (t : Thread) (r : MReg) (v : BitVec 64) : (t.setM r v).nolog = t.nolog := by
  unfold Thread.setM; split <;> rfl
@[simp] theorem thread_setM_seq (t : Thread) (r : MReg) (v : BitVec 64) : (t.setM r v).seq = t.seq := by
  unfold Thread.setM; split <;> rfl
@[simp] theorem thread_setM_lastIssue (t : Thread) (r : MReg) (v : BitVec 64) : (t.setM r v).lastIssue = t.lastIssue := by
  unfold Thread.setM; split <;> rfl
@[simp] theorem thread_setM_ending (t : Thread) (r : MReg) (v : BitVec 64) : (t.setM r v).ending = t.ending := by
  unfold Thread.setM; split <;> rfl
@[simp] theorem thread_setM_fences (t : Thread) (r : MReg) (v : BitVec 64) : (t.setM r v).fences = t.fences := by
  unfold Thread.setM; split <;> rfl
@[simp] theorem thread_setM_remote (t : Thread) (r : MReg) (v : BitVec 64) : (t.setM r v).remote = t.remote := by
  unfold Thread.setM; split <;> rfl

-- Thread.setP
@[simp] theorem thread_setP_task (t : Thread) (r : PReg) (v : Bool) : (t.setP r v).task = t.task := by
  unfold Thread.setP; split <;> rfl
@[simp] theorem thread_setP_g (t : Thread) (r : PReg) (v : Bool) : (t.setP r v).g = t.g := by
  unfold Thread.setP; split <;> rfl
@[simp] theorem thread_setP_w (t : Thread) (r : PReg) (v : Bool) : (t.setP r v).w = t.w := by
  unfold Thread.setP; split <;> rfl
@[simp] theorem thread_setP_m (t : Thread) (r : PReg) (v : Bool) : (t.setP r v).m = t.m := by
  unfold Thread.setP; split <;> rfl
@[simp] theorem thread_setP_pc (t : Thread) (r : PReg) (v : Bool) : (t.setP r v).pc = t.pc := by
  unfold Thread.setP; split <;> rfl
@[simp] theorem thread_setP_streams (t : Thread) (r : PReg) (v : Bool) : (t.setP r v).streams = t.streams := by
  unfold Thread.setP; split <;> rfl
@[simp] theorem thread_setP_rep (t : Thread) (r : PReg) (v : Bool) : (t.setP r v).rep = t.rep := by
  unfold Thread.setP; split <;> rfl
@[simp] theorem thread_setP_fmt (t : Thread) (r : PReg) (v : Bool) : (t.setP r v).fmt = t.fmt := by
  unfold Thread.setP; split <;> rfl
@[simp] theorem thread_setP_sr (t : Thread) (r : PReg) (v : Bool) : (t.setP r v).sr = t.sr := by
  unfold Thread.setP; split <;> rfl
@[simp] theorem thread_setP_mq (t : Thread) (r : PReg) (v : Bool) : (t.setP r v).mq = t.mq := by
  unfold Thread.setP; split <;> rfl
@[simp] theorem thread_setP_sbase (t : Thread) (r : PReg) (v : Bool) : (t.setP r v).sbase = t.sbase := by
  unfold Thread.setP; split <;> rfl
@[simp] theorem thread_setP_pend (t : Thread) (r : PReg) (v : Bool) : (t.setP r v).pend = t.pend := by
  unfold Thread.setP; split <;> rfl
@[simp] theorem thread_setP_park (t : Thread) (r : PReg) (v : Bool) : (t.setP r v).park = t.park := by
  unfold Thread.setP; split <;> rfl
@[simp] theorem thread_setP_outs (t : Thread) (r : PReg) (v : Bool) : (t.setP r v).outs = t.outs := by
  unfold Thread.setP; split <;> rfl
@[simp] theorem thread_setP_block (t : Thread) (r : PReg) (v : Bool) : (t.setP r v).block = t.block := by
  unfold Thread.setP; split <;> rfl
@[simp] theorem thread_setP_kept (t : Thread) (r : PReg) (v : Bool) : (t.setP r v).kept = t.kept := by
  unfold Thread.setP; split <;> rfl
@[simp] theorem thread_setP_entry (t : Thread) (r : PReg) (v : Bool) : (t.setP r v).entry = t.entry := by
  unfold Thread.setP; split <;> rfl
@[simp] theorem thread_setP_fenceScope (t : Thread) (r : PReg) (v : Bool) : (t.setP r v).fenceScope = t.fenceScope := by
  unfold Thread.setP; split <;> rfl
@[simp] theorem thread_setP_seen (t : Thread) (r : PReg) (v : Bool) : (t.setP r v).seen = t.seen := by
  unfold Thread.setP; split <;> rfl
@[simp] theorem thread_setP_nolog (t : Thread) (r : PReg) (v : Bool) : (t.setP r v).nolog = t.nolog := by
  unfold Thread.setP; split <;> rfl
@[simp] theorem thread_setP_seq (t : Thread) (r : PReg) (v : Bool) : (t.setP r v).seq = t.seq := by
  unfold Thread.setP; split <;> rfl
@[simp] theorem thread_setP_lastIssue (t : Thread) (r : PReg) (v : Bool) : (t.setP r v).lastIssue = t.lastIssue := by
  unfold Thread.setP; split <;> rfl
@[simp] theorem thread_setP_ending (t : Thread) (r : PReg) (v : Bool) : (t.setP r v).ending = t.ending := by
  unfold Thread.setP; split <;> rfl
@[simp] theorem thread_setP_fences (t : Thread) (r : PReg) (v : Bool) : (t.setP r v).fences = t.fences := by
  unfold Thread.setP; split <;> rfl
@[simp] theorem thread_setP_remote (t : Thread) (r : PReg) (v : Bool) : (t.setP r v).remote = t.remote := by
  unfold Thread.setP; split <;> rfl

-- Thread.setPend
@[simp] theorem thread_setPend_task (t : Thread) (n : Nat) : (t.setPend n).task = t.task := by
  unfold Thread.setPend; split <;> rfl
@[simp] theorem thread_setPend_g (t : Thread) (n : Nat) : (t.setPend n).g = t.g := by
  unfold Thread.setPend; split <;> rfl
@[simp] theorem thread_setPend_w (t : Thread) (n : Nat) : (t.setPend n).w = t.w := by
  unfold Thread.setPend; split <;> rfl
@[simp] theorem thread_setPend_m (t : Thread) (n : Nat) : (t.setPend n).m = t.m := by
  unfold Thread.setPend; split <;> rfl
@[simp] theorem thread_setPend_p (t : Thread) (n : Nat) : (t.setPend n).p = t.p := by
  unfold Thread.setPend; split <;> rfl
@[simp] theorem thread_setPend_pc (t : Thread) (n : Nat) : (t.setPend n).pc = t.pc := by
  unfold Thread.setPend; split <;> rfl
@[simp] theorem thread_setPend_streams (t : Thread) (n : Nat) : (t.setPend n).streams = t.streams := by
  unfold Thread.setPend; split <;> rfl
@[simp] theorem thread_setPend_rep (t : Thread) (n : Nat) : (t.setPend n).rep = t.rep := by
  unfold Thread.setPend; split <;> rfl
@[simp] theorem thread_setPend_fmt (t : Thread) (n : Nat) : (t.setPend n).fmt = t.fmt := by
  unfold Thread.setPend; split <;> rfl
@[simp] theorem thread_setPend_sr (t : Thread) (n : Nat) : (t.setPend n).sr = t.sr := by
  unfold Thread.setPend; split <;> rfl
@[simp] theorem thread_setPend_mq (t : Thread) (n : Nat) : (t.setPend n).mq = t.mq := by
  unfold Thread.setPend; split <;> rfl
@[simp] theorem thread_setPend_sbase (t : Thread) (n : Nat) : (t.setPend n).sbase = t.sbase := by
  unfold Thread.setPend; split <;> rfl
@[simp] theorem thread_setPend_park (t : Thread) (n : Nat) : (t.setPend n).park = t.park := by
  unfold Thread.setPend; split <;> rfl
@[simp] theorem thread_setPend_outs (t : Thread) (n : Nat) : (t.setPend n).outs = t.outs := by
  unfold Thread.setPend; split <;> rfl
@[simp] theorem thread_setPend_block (t : Thread) (n : Nat) : (t.setPend n).block = t.block := by
  unfold Thread.setPend; split <;> rfl
@[simp] theorem thread_setPend_kept (t : Thread) (n : Nat) : (t.setPend n).kept = t.kept := by
  unfold Thread.setPend; split <;> rfl
@[simp] theorem thread_setPend_entry (t : Thread) (n : Nat) : (t.setPend n).entry = t.entry := by
  unfold Thread.setPend; split <;> rfl
@[simp] theorem thread_setPend_fenceScope (t : Thread) (n : Nat) : (t.setPend n).fenceScope = t.fenceScope := by
  unfold Thread.setPend; split <;> rfl
@[simp] theorem thread_setPend_seen (t : Thread) (n : Nat) : (t.setPend n).seen = t.seen := by
  unfold Thread.setPend; split <;> rfl
@[simp] theorem thread_setPend_nolog (t : Thread) (n : Nat) : (t.setPend n).nolog = t.nolog := by
  unfold Thread.setPend; split <;> rfl
@[simp] theorem thread_setPend_seq (t : Thread) (n : Nat) : (t.setPend n).seq = t.seq := by
  unfold Thread.setPend; split <;> rfl
@[simp] theorem thread_setPend_lastIssue (t : Thread) (n : Nat) : (t.setPend n).lastIssue = t.lastIssue := by
  unfold Thread.setPend; split <;> rfl
@[simp] theorem thread_setPend_ending (t : Thread) (n : Nat) : (t.setPend n).ending = t.ending := by
  unfold Thread.setPend; split <;> rfl
@[simp] theorem thread_setPend_fences (t : Thread) (n : Nat) : (t.setPend n).fences = t.fences := by
  unfold Thread.setPend; split <;> rfl
@[simp] theorem thread_setPend_remote (t : Thread) (n : Nat) : (t.setPend n).remote = t.remote := by
  unfold Thread.setPend; split <;> rfl

-- Thread.clearPend
@[simp] theorem thread_clearPend_task (t : Thread) (n : Nat) : (t.clearPend n).task = t.task := rfl
@[simp] theorem thread_clearPend_g (t : Thread) (n : Nat) : (t.clearPend n).g = t.g := rfl
@[simp] theorem thread_clearPend_w (t : Thread) (n : Nat) : (t.clearPend n).w = t.w := rfl
@[simp] theorem thread_clearPend_m (t : Thread) (n : Nat) : (t.clearPend n).m = t.m := rfl
@[simp] theorem thread_clearPend_p (t : Thread) (n : Nat) : (t.clearPend n).p = t.p := rfl
@[simp] theorem thread_clearPend_pc (t : Thread) (n : Nat) : (t.clearPend n).pc = t.pc := rfl
@[simp] theorem thread_clearPend_streams (t : Thread) (n : Nat) : (t.clearPend n).streams = t.streams := rfl
@[simp] theorem thread_clearPend_rep (t : Thread) (n : Nat) : (t.clearPend n).rep = t.rep := rfl
@[simp] theorem thread_clearPend_fmt (t : Thread) (n : Nat) : (t.clearPend n).fmt = t.fmt := rfl
@[simp] theorem thread_clearPend_sr (t : Thread) (n : Nat) : (t.clearPend n).sr = t.sr := rfl
@[simp] theorem thread_clearPend_mq (t : Thread) (n : Nat) : (t.clearPend n).mq = t.mq := rfl
@[simp] theorem thread_clearPend_sbase (t : Thread) (n : Nat) : (t.clearPend n).sbase = t.sbase := rfl
@[simp] theorem thread_clearPend_park (t : Thread) (n : Nat) : (t.clearPend n).park = t.park := rfl
@[simp] theorem thread_clearPend_outs (t : Thread) (n : Nat) : (t.clearPend n).outs = t.outs := rfl
@[simp] theorem thread_clearPend_block (t : Thread) (n : Nat) : (t.clearPend n).block = t.block := rfl
@[simp] theorem thread_clearPend_kept (t : Thread) (n : Nat) : (t.clearPend n).kept = t.kept := rfl
@[simp] theorem thread_clearPend_entry (t : Thread) (n : Nat) : (t.clearPend n).entry = t.entry := rfl
@[simp] theorem thread_clearPend_fenceScope (t : Thread) (n : Nat) : (t.clearPend n).fenceScope = t.fenceScope := rfl
@[simp] theorem thread_clearPend_seen (t : Thread) (n : Nat) : (t.clearPend n).seen = t.seen := rfl
@[simp] theorem thread_clearPend_nolog (t : Thread) (n : Nat) : (t.clearPend n).nolog = t.nolog := rfl
@[simp] theorem thread_clearPend_seq (t : Thread) (n : Nat) : (t.clearPend n).seq = t.seq := rfl
@[simp] theorem thread_clearPend_lastIssue (t : Thread) (n : Nat) : (t.clearPend n).lastIssue = t.lastIssue := rfl
@[simp] theorem thread_clearPend_ending (t : Thread) (n : Nat) : (t.clearPend n).ending = t.ending := rfl
@[simp] theorem thread_clearPend_fences (t : Thread) (n : Nat) : (t.clearPend n).fences = t.fences := rfl
@[simp] theorem thread_clearPend_remote (t : Thread) (n : Nat) : (t.clearPend n).remote = t.remote := rfl

-- Thread.setStream
@[simp] theorem thread_setStream_task (t : Thread) (n : Nat) (x : Stream) : (t.setStream n x).task = t.task := rfl
@[simp] theorem thread_setStream_g (t : Thread) (n : Nat) (x : Stream) : (t.setStream n x).g = t.g := rfl
@[simp] theorem thread_setStream_w (t : Thread) (n : Nat) (x : Stream) : (t.setStream n x).w = t.w := rfl
@[simp] theorem thread_setStream_m (t : Thread) (n : Nat) (x : Stream) : (t.setStream n x).m = t.m := rfl
@[simp] theorem thread_setStream_p (t : Thread) (n : Nat) (x : Stream) : (t.setStream n x).p = t.p := rfl
@[simp] theorem thread_setStream_pc (t : Thread) (n : Nat) (x : Stream) : (t.setStream n x).pc = t.pc := rfl
@[simp] theorem thread_setStream_rep (t : Thread) (n : Nat) (x : Stream) : (t.setStream n x).rep = t.rep := rfl
@[simp] theorem thread_setStream_fmt (t : Thread) (n : Nat) (x : Stream) : (t.setStream n x).fmt = t.fmt := rfl
@[simp] theorem thread_setStream_sr (t : Thread) (n : Nat) (x : Stream) : (t.setStream n x).sr = t.sr := rfl
@[simp] theorem thread_setStream_mq (t : Thread) (n : Nat) (x : Stream) : (t.setStream n x).mq = t.mq := rfl
@[simp] theorem thread_setStream_sbase (t : Thread) (n : Nat) (x : Stream) : (t.setStream n x).sbase = t.sbase := rfl
@[simp] theorem thread_setStream_pend (t : Thread) (n : Nat) (x : Stream) : (t.setStream n x).pend = t.pend := rfl
@[simp] theorem thread_setStream_park (t : Thread) (n : Nat) (x : Stream) : (t.setStream n x).park = t.park := rfl
@[simp] theorem thread_setStream_outs (t : Thread) (n : Nat) (x : Stream) : (t.setStream n x).outs = t.outs := rfl
@[simp] theorem thread_setStream_block (t : Thread) (n : Nat) (x : Stream) : (t.setStream n x).block = t.block := rfl
@[simp] theorem thread_setStream_kept (t : Thread) (n : Nat) (x : Stream) : (t.setStream n x).kept = t.kept := rfl
@[simp] theorem thread_setStream_entry (t : Thread) (n : Nat) (x : Stream) : (t.setStream n x).entry = t.entry := rfl
@[simp] theorem thread_setStream_fenceScope (t : Thread) (n : Nat) (x : Stream) : (t.setStream n x).fenceScope = t.fenceScope := rfl
@[simp] theorem thread_setStream_seen (t : Thread) (n : Nat) (x : Stream) : (t.setStream n x).seen = t.seen := rfl
@[simp] theorem thread_setStream_nolog (t : Thread) (n : Nat) (x : Stream) : (t.setStream n x).nolog = t.nolog := rfl
@[simp] theorem thread_setStream_seq (t : Thread) (n : Nat) (x : Stream) : (t.setStream n x).seq = t.seq := rfl
@[simp] theorem thread_setStream_lastIssue (t : Thread) (n : Nat) (x : Stream) : (t.setStream n x).lastIssue = t.lastIssue := rfl
@[simp] theorem thread_setStream_ending (t : Thread) (n : Nat) (x : Stream) : (t.setStream n x).ending = t.ending := rfl
@[simp] theorem thread_setStream_fences (t : Thread) (n : Nat) (x : Stream) : (t.setStream n x).fences = t.fences := rfl
@[simp] theorem thread_setStream_remote (t : Thread) (n : Nat) (x : Stream) : (t.setStream n x).remote = t.remote := rfl

-- Thread.addOut
@[simp] theorem thread_addOut_task (t : Thread) (o : Outstanding) : (t.addOut o).task = t.task := thread_setPend_task t _
@[simp] theorem thread_addOut_g (t : Thread) (o : Outstanding) : (t.addOut o).g = t.g := thread_setPend_g t _
@[simp] theorem thread_addOut_w (t : Thread) (o : Outstanding) : (t.addOut o).w = t.w := thread_setPend_w t _
@[simp] theorem thread_addOut_m (t : Thread) (o : Outstanding) : (t.addOut o).m = t.m := thread_setPend_m t _
@[simp] theorem thread_addOut_p (t : Thread) (o : Outstanding) : (t.addOut o).p = t.p := thread_setPend_p t _
@[simp] theorem thread_addOut_pc (t : Thread) (o : Outstanding) : (t.addOut o).pc = t.pc := thread_setPend_pc t _
@[simp] theorem thread_addOut_streams (t : Thread) (o : Outstanding) : (t.addOut o).streams = t.streams := thread_setPend_streams t _
@[simp] theorem thread_addOut_rep (t : Thread) (o : Outstanding) : (t.addOut o).rep = t.rep := thread_setPend_rep t _
@[simp] theorem thread_addOut_fmt (t : Thread) (o : Outstanding) : (t.addOut o).fmt = t.fmt := thread_setPend_fmt t _
@[simp] theorem thread_addOut_sr (t : Thread) (o : Outstanding) : (t.addOut o).sr = t.sr := thread_setPend_sr t _
@[simp] theorem thread_addOut_mq (t : Thread) (o : Outstanding) : (t.addOut o).mq = t.mq := thread_setPend_mq t _
@[simp] theorem thread_addOut_sbase (t : Thread) (o : Outstanding) : (t.addOut o).sbase = t.sbase := thread_setPend_sbase t _
@[simp] theorem thread_addOut_park (t : Thread) (o : Outstanding) : (t.addOut o).park = t.park := thread_setPend_park t _
@[simp] theorem thread_addOut_block (t : Thread) (o : Outstanding) : (t.addOut o).block = t.block := thread_setPend_block t _
@[simp] theorem thread_addOut_kept (t : Thread) (o : Outstanding) : (t.addOut o).kept = t.kept := thread_setPend_kept t _
@[simp] theorem thread_addOut_entry (t : Thread) (o : Outstanding) : (t.addOut o).entry = t.entry := thread_setPend_entry t _
@[simp] theorem thread_addOut_fenceScope (t : Thread) (o : Outstanding) : (t.addOut o).fenceScope = t.fenceScope := thread_setPend_fenceScope t _
@[simp] theorem thread_addOut_seen (t : Thread) (o : Outstanding) : (t.addOut o).seen = t.seen := thread_setPend_seen t _
@[simp] theorem thread_addOut_nolog (t : Thread) (o : Outstanding) : (t.addOut o).nolog = t.nolog := thread_setPend_nolog t _
@[simp] theorem thread_addOut_seq (t : Thread) (o : Outstanding) : (t.addOut o).seq = t.seq := thread_setPend_seq t _
@[simp] theorem thread_addOut_lastIssue (t : Thread) (o : Outstanding) : (t.addOut o).lastIssue = t.lastIssue := thread_setPend_lastIssue t _
@[simp] theorem thread_addOut_ending (t : Thread) (o : Outstanding) : (t.addOut o).ending = t.ending := thread_setPend_ending t _
@[simp] theorem thread_addOut_fences (t : Thread) (o : Outstanding) : (t.addOut o).fences = t.fences := thread_setPend_fences t _
@[simp] theorem thread_addOut_remote (t : Thread) (o : Outstanding) : (t.addOut o).remote = t.remote := thread_setPend_remote t _

-- Thread.advance
@[simp] theorem thread_advance_task (t : Thread) (len : Nat) : (t.advance len).task = t.task := by
  unfold Thread.advance; dsimp only; split <;> (try split) <;> (try split) <;> rfl
@[simp] theorem thread_advance_g (t : Thread) (len : Nat) : (t.advance len).g = t.g := by
  unfold Thread.advance; dsimp only; split <;> (try split) <;> (try split) <;> rfl
@[simp] theorem thread_advance_w (t : Thread) (len : Nat) : (t.advance len).w = t.w := by
  unfold Thread.advance; dsimp only; split <;> (try split) <;> (try split) <;> rfl
@[simp] theorem thread_advance_m (t : Thread) (len : Nat) : (t.advance len).m = t.m := by
  unfold Thread.advance; dsimp only; split <;> (try split) <;> (try split) <;> rfl
@[simp] theorem thread_advance_p (t : Thread) (len : Nat) : (t.advance len).p = t.p := by
  unfold Thread.advance; dsimp only; split <;> (try split) <;> (try split) <;> rfl
@[simp] theorem thread_advance_streams (t : Thread) (len : Nat) : (t.advance len).streams = t.streams := by
  unfold Thread.advance; dsimp only; split <;> (try split) <;> (try split) <;> rfl
@[simp] theorem thread_advance_fmt (t : Thread) (len : Nat) : (t.advance len).fmt = t.fmt := by
  unfold Thread.advance; dsimp only; split <;> (try split) <;> (try split) <;> rfl
@[simp] theorem thread_advance_sr (t : Thread) (len : Nat) : (t.advance len).sr = t.sr := by
  unfold Thread.advance; dsimp only; split <;> (try split) <;> (try split) <;> rfl
@[simp] theorem thread_advance_mq (t : Thread) (len : Nat) : (t.advance len).mq = t.mq := by
  unfold Thread.advance; dsimp only; split <;> (try split) <;> (try split) <;> rfl
@[simp] theorem thread_advance_sbase (t : Thread) (len : Nat) : (t.advance len).sbase = t.sbase := by
  unfold Thread.advance; dsimp only; split <;> (try split) <;> (try split) <;> rfl
@[simp] theorem thread_advance_pend (t : Thread) (len : Nat) : (t.advance len).pend = t.pend := by
  unfold Thread.advance; dsimp only; split <;> (try split) <;> (try split) <;> rfl
@[simp] theorem thread_advance_park (t : Thread) (len : Nat) : (t.advance len).park = t.park := by
  unfold Thread.advance; dsimp only; split <;> (try split) <;> (try split) <;> rfl
@[simp] theorem thread_advance_outs (t : Thread) (len : Nat) : (t.advance len).outs = t.outs := by
  unfold Thread.advance; dsimp only; split <;> (try split) <;> (try split) <;> rfl
@[simp] theorem thread_advance_block (t : Thread) (len : Nat) (h : t.rep.act = false) : (t.advance len).block = t.block := by
  unfold Thread.advance; simp [h]
@[simp] theorem thread_advance_entry (t : Thread) (len : Nat) : (t.advance len).entry = t.entry := by
  unfold Thread.advance; dsimp only; split <;> (try split) <;> (try split) <;> rfl
@[simp] theorem thread_advance_fenceScope (t : Thread) (len : Nat) : (t.advance len).fenceScope = t.fenceScope := by
  unfold Thread.advance; dsimp only; split <;> (try split) <;> (try split) <;> rfl
@[simp] theorem thread_advance_seen (t : Thread) (len : Nat) : (t.advance len).seen = t.seen := by
  unfold Thread.advance; dsimp only; split <;> (try split) <;> (try split) <;> rfl
@[simp] theorem thread_advance_nolog (t : Thread) (len : Nat) : (t.advance len).nolog = t.nolog := by
  unfold Thread.advance; dsimp only; split <;> (try split) <;> (try split) <;> rfl
@[simp] theorem thread_advance_seq (t : Thread) (len : Nat) : (t.advance len).seq = t.seq := by
  unfold Thread.advance; dsimp only; split <;> (try split) <;> (try split) <;> rfl
@[simp] theorem thread_advance_lastIssue (t : Thread) (len : Nat) : (t.advance len).lastIssue = t.lastIssue := by
  unfold Thread.advance; dsimp only; split <;> (try split) <;> (try split) <;> rfl
@[simp] theorem thread_advance_ending (t : Thread) (len : Nat) : (t.advance len).ending = t.ending := by
  unfold Thread.advance; dsimp only; split <;> (try split) <;> (try split) <;> rfl
@[simp] theorem thread_advance_fences (t : Thread) (len : Nat) : (t.advance len).fences = t.fences := by
  unfold Thread.advance; dsimp only; split <;> (try split) <;> (try split) <;> rfl
@[simp] theorem thread_advance_remote (t : Thread) (len : Nat) : (t.advance len).remote = t.remote := by
  unfold Thread.advance; dsimp only; split <;> (try split) <;> (try split) <;> rfl

end Sys2Proof.Laws
end

