-- ==== Sys2Proof/Laws/Issue.lean ====
section
/-! SUPPORT. What the shared operations of an instruction do: one lemma each for the threads of a state, the issue checks, the
register operations, and the taking of a trap. -/
namespace Sys2Proof.Laws
open Sys2Proof Sys2Proof.Machine

-- Threads.

@[simp] theorem thread?_setThread (s : State) (th : Nat) (t : Thread) : (s.setThread th t).thread? th = some t :=
  get?_set_same ..
theorem thread?_setThread_other (s : State) (th n : Nat) (t : Thread) (h : n ≠ th) :
    (s.setThread th t).thread? n = s.thread? n := get?_set_other _ _ _ _ h
@[simp] theorem thread?_finish (s : State) (th len : Nat) (t : Thread) :
    (s.finish th len t).thread? th = some { t.advance len with park := .run, lastIssue := s.cycle } := get?_set_same ..
theorem thread?_finish_other (s : State) (th n len : Nat) (t : Thread) (h : n ≠ th) :
    (s.finish th len t).thread? n = s.thread? n := get?_set_other _ _ _ _ h
theorem onThread_eq (s : State) (th : Nat) (t : Thread) (f : Thread → Thread) (h : s.thread? th = some t) :
    s.onThread th f = s.setThread th (f t) := by simp [State.onThread, h]
theorem onThread_none (s : State) (th : Nat) (f : Thread → Thread) (h : s.thread? th = none) : s.onThread th f = s := by
  simp [State.onThread, h]

-- Registers.

@[simp] theorem getG_setG_same (t : Thread) (r : GReg) (v : BitVec 64) : (t.setG r v).getG r = v :=
  Vector.getElem_set_self r.isLt
theorem getG_setG_other (t : Thread) (r q : GReg) (v : BitVec 64) (h : q ≠ r) : (t.setG r v).getG q = t.getG q := by
  have : r.toNat ≠ q.toNat := fun e => h (BitVec.eq_of_toNat_eq e.symm)
  exact Vector.getElem_set_ne r.isLt q.isLt this
@[simp] theorem getM_zero (t : Thread) : t.getM 0 = BitVec.allOnes 64 := rfl
@[simp] theorem getP_zero (t : Thread) : t.getP 0 = true := rfl
@[simp] theorem setM_zero (t : Thread) (v : BitVec 64) : t.setM 0 v = t := rfl
@[simp] theorem setP_zero (t : Thread) (v : Bool) : t.setP 0 v = t := rfl

-- PC at the end of an instruction: plain, and at the end of a REPEAT pass.

theorem advance_plain (t : Thread) (len : Nat) (h : t.rep.act = false) : t.advance len = { t with pc := t.pc + BitVec.ofNat 56 len } := by
  simp [Thread.advance, h]

-- The issue checks.

/-- How an instruction can end without acting: at the checks of R293 in their order, or with a guard that is false. -/
def idleEnds (s : State) (x : Issue) (t : Thread) : List State :=
  [s.trap s.focus (.plain .illop), s.parkAt s.focus .marker, s.parkAt s.focus .pendread, s.finish s.focus x.len t,
   s.trap s.focus (.plain .priv)]
/-- Everything an issue can answer when the slot holds a thread: its operation acts, or the instruction ends without acting. -/
theorem issue_cases (s : State) (i : Thread → Issue) (body : Thread → State) (t : Thread) (h : s.thread? s.focus = some t) :
    (issue s i body = .next (body t) ∧ t.guard (i t).h.pg = true) ∨ ∃ r ∈ idleEnds s (i t) t, issue s i body = .next r := by
  simp only [issue, h, idleEnds, List.mem_cons]
  split_ifs <;> simp_all

/-- An instruction never faults or is refused while its slot holds a thread. -/
theorem issue_next (s : State) (i : Thread → Issue) (body : Thread → State) (t : Thread) (h : s.thread? s.focus = some t) :
    ∃ s', issue s i body = .next s' := by
  obtain ⟨h, -⟩ | ⟨r, -, h⟩ := issue_cases s i body t h <;> exact ⟨_, h⟩

/-- Without a thread there is no instruction. -/
theorem issue_none (s : State) (i : Thread → Issue) (body : Thread → State) (h : s.thread? s.focus = none) :
    issue s i body = .fault .noThread := by simp [issue, h]

/-- An unmarked instruction that passes the checks performs its operation. -/
theorem issue_runs (s : State) (i : Thread → Issue) (body : Thread → State) (t : Thread) (h : Hdr) (ns : List Nat) (len : Nat)
    (priv : Bool) (e : i t = ⟨h, len, ns, false, priv, false⟩) (g : s.Issues t h ns)
    (p : priv = true → s.Privileged) : issue s i body = .next (body t) := by
  obtain ⟨ht, hs, hn, hg⟩ := g
  have h1 : (h.sw && (t.pend != 0)) = false := by
    cases hw : h.sw
    · rfl
    · simp [hs hw]
  have h2 : ((numP (h.pg.setWidth 3) :: numM (h.mg.setWidth 3) :: ns).any t.pending) = false := by
    rw [List.any_eq_false]; intro n hm; simp [hn n hm]
  have h3 : (priv && !isInnkeeperCore (coreOf s.focus)) = false := by
    cases hp : priv
    · rfl
    · have := p hp; simp [State.Privileged] at this; simp [this]
  unfold issue
  rw [ht]
  simp only [e, Issue.allNames, Bool.or_false, h1, h2, h3, hg]
  simp

/-- The same for an instruction that acts as marked. -/
theorem issue_runs_marked (s : State) (i : Thread → Issue) (body : Thread → State) (t : Thread) (h : Hdr) (ns : List Nat) (len : Nat)
    (e : i t = ⟨h, len, ns, true, false, false⟩) (g : s.IssuesMarked t h) : issue s i body = .next (body t) := by
  obtain ⟨ht, hp, hg⟩ := g
  unfold issue
  rw [ht]
  simp [e, hp, hg]

/-- A guard that is false lets the instruction end with no effect (R187). -/
theorem issue_guarded (s : State) (i : Thread → Issue) (body : Thread → State) (t : Thread) (h : Hdr) (ns : List Nat) (len : Nat)
    (priv : Bool) (e : i t = ⟨h, len, ns, false, priv, false⟩) (ht : s.thread? s.focus = some t)
    (hp : t.pend = 0) (hg : t.guard h.pg = false) : issue s i body = .next (s.finish s.focus len t) := by
  unfold issue
  rw [ht]
  simp [e, hp, hg, Issue.allNames, Thread.pending]

/-- A register operation ends with its results. -/
theorem regOp_runs (s : State) (h : Hdr) (len : Nat) (ns : List Nat) (f : Thread → Thread) (t : Thread) (g : s.Issues t h ns) :
    regOp s h len ns f = .next (s.finish s.focus len (f t)) :=
  issue_runs s _ _ t h ns len false rfl g (by simp)

/-- A variable-latency operation ends with its result outstanding, unless 16 are. -/
theorem varOp_runs (s : State) (h : Hdr) (len : Nat) (ns : List Nat) (f : Thread → State) (t : Thread) (g : s.Issues t h ns)
    (o : t.outs.length < 16) : varOp s h len ns f = .next (f t) :=
  (issue_runs s _ _ t h ns len false rfl g (by simp)).trans (by simp [o])

/-- A control transfer outside a REPEAT block. -/
theorem ctlOp_runs (s : State) (h : Hdr) (len : Nat) (ns : List Nat) (f : Thread → Thread) (t : Thread) (g : s.Issues t h ns)
    (r : t.rep.act = false) :
    ctlOp s h len ns f = .next (s.setThread s.focus { f t with park := .run, lastIssue := s.cycle }) :=
  issue_runs s _ _ t h ns len false (by rw [r]) g (by simp)

/-- A memory operation that is not ill-formed. -/
theorem memOp_runs (s : State) (h : Hdr) (len : Nat) (ns : List Nat) (ill : Thread → Bool) (f : Thread → State) (t : Thread)
    (g : s.Issues t h ns) (w : ill t = false) : memOp s h len ns ill f = .next (f t) :=
  issue_runs s _ _ t h ns len false (by rw [w]) g (by simp)

/-- A memory operation with a result. -/
theorem memVarOp_runs (s : State) (h : Hdr) (len : Nat) (ns : List Nat) (ill : Thread → Bool) (f : Thread → State) (t : Thread)
    (g : s.Issues t h ns) (w : ill t = false) (o : t.outs.length < 16) : memVarOp s h len ns ill f = .next (f t) :=
  (issue_runs s _ _ t h ns len false (by rw [w]) g (by simp)).trans (by simp [o])

/-- A vector operation on registers that no stream is bound to. -/
theorem vecOp_runs (s : State) (h : Hdr) (len : Nat) (ns : List Nat) (ill : Thread → Bool) (srcs : List WReg) (dst : Option WReg)
    (f : BitVec 64 → Thread → Thread) (t : Thread) (g : s.Issues t h ns) (w : ill t = false)
    (u : t.Unbound (srcs ++ dst.toList)) :
    vecOp s h len ns ill srcs dst f = .next (s.finish s.focus len (f (t.laneMask h.mg) t)) := by
  have hs : ∀ r ∈ srcs, t.stream? r = none := fun r hr => u r (List.mem_append_left _ hr)
  have hd : ∀ r, dst = some r → t.stream? r = none := fun r hr => u r (List.mem_append_right _ (by simp [hr]))
  have h1 : (srcs.any fun r => (t.stream? r).isSome) = false := by
    rw [List.any_eq_false]; intro r hr; simp [hs r hr]
  have h2 : (dst.any fun r => (t.stream? r).isSome) = false := by
    cases dst with
    | none => rfl
    | some r => simp [hd r rfl]
  have h3 : t.streamIll srcs dst = false := by
    unfold Thread.streamIll
    rw [Bool.or_eq_false_iff]
    refine ⟨?_, ?_⟩
    · rw [List.any_eq_false]; intro r hr; simp [hs r hr]
    · cases dst with
      | none => rfl
      | some r => simp [hd r rfl]
  exact (issue_runs s _ _ t h ns len false (by rw [w, h3]; rfl) g (by simp)).trans (by simp [h1, h2])

/-- An instruction that only puts a thread back into the focus slot. -/
theorem becomes_of_set (s : State) (i : Instr) (t : Thread) (h : exec i s = .next (s.setThread s.focus t)) : s.Becomes i t :=
  ⟨_, h, thread?_setThread .., fun _ hn => thread?_setThread_other _ _ _ _ hn, ⟨fun _ _ => rfl, fun _ => rfl⟩, rfl⟩

/-- An instruction whose meaning finishes with a thread ends so. -/
theorem ends_of_finish (s : State) (i : Instr) (len : Nat) (t : Thread) (h : exec i s = .next (s.finish s.focus len t)) :
    s.Ends i len t := becomes_of_set _ _ _ h

/-- In a quiet tile a release writes nothing back. -/
theorem cleanTile_quiet (s : State) (a : Agent) (tile : Nat) (sc : Scope)
    (h : ∀ l ∈ s.stash.lines, l.tile = tile → l.dirty = false) : s.cleanTile a tile sc = s := by
  unfold State.cleanTile
  split
  · have : s.dirtyLines tile = [] := by
      unfold State.dirtyLines
      rw [List.filter_eq_nil_iff]
      intro l hl
      by_cases e : l.tile = tile
      · simp [h l hl e]
      · simp [e]
    rw [this]; rfl
  · rfl

/-- A system instruction that may act at once acts. -/
theorem sysOp_runs (s : State) (h : Hdr) (len : Nat) (ns : List Nat) (priv : Bool) (f : Thread → State → State) (t : Thread)
    (g : s.Issues t h ns) (p : priv = true → s.Privileged) (q : s.Quiet t) : sysOp s h len ns priv f = .next (f t s) := by
  obtain ⟨h1, h2, h3, h4, h5⟩ := q
  refine (issue_runs s _ _ t h ns len priv rfl g p).trans ?_
  have ho : (t.outs.any Outstanding.isMem) = false := by
    rw [List.any_eq_false]; intro o ho; simp [Outstanding.isMem, h2 o ho]
  have hr : (t.outs.any fun o => o.isMem && o.isRmw) = false := by
    rw [List.any_eq_false]; intro o ho; simp [Outstanding.isMem, h2 o ho]
  have hd : s.storesDone s.focus .sys = true := by simp only [State.storesDone, g.1, hr, h3, h4]; rfl
  simp [h1, ho, cleanTile_quiet _ _ _ _ h5, hd]

-- The taking of a trap.

/-- A trap of a thread: fatal to the device in a service slot, held by a provisional task, else a record with the thread
parked for its reply. -/
theorem trap_eq (s : State) (th : Nat) (tr : Trap) (t : Thread) (h : s.thread? th = some t) :
    s.trap th tr = if t.task.isNone then s.fatalStop 0x167
      else if s.provisional t then s.setThread th { t with park := .held tr }
      else (s.setThread th { t with park := .fault }).addRecord (s.threadRecord th t tr) := by
  unfold State.trap
  rw [h]
  dsimp only
  split
  · rename_i e; rw [if_pos (c := t.task.isNone = true) (by rw [e]; rfl)]
  · rename_i k e; rw [if_neg (c := t.task.isNone = true) (by rw [e]; simp)]

/-- A trap changes no byte of memory and no register. -/
theorem trap_mem (s : State) (th : Nat) (tr : Trap) : (s.trap th tr).mem = s.mem ∧ (s.trap th tr).stash = s.stash := by
  cases h : s.thread? th with
  | none => simp [State.trap, h]
  | some t =>
    rw [trap_eq s th tr t h]
    split
    · exact ⟨rfl, rfl⟩
    · split <;> exact ⟨rfl, rfl⟩

end Sys2Proof.Laws
end

