-- ==== Sys2Proof/Laws/Memory.lean ====
section
/-! SUPPORT. The laws of memory: a byte written reads back and leaves the others alone, and every operation on memory and
stash keeps the canonical form. -/
namespace Sys2Proof.Laws
open Sys2Proof Sys2Proof.Machine

-- Cells.

theorem cellRead_write_same (m : List Host.Cell) (a : Nat) (v : Byte) : cellRead (cellWrite m a v) a = v := by
  unfold cellRead cellWrite Sparse.getD
  split
  · rename_i h; rw [get?_erase_same]; exact h.symm
  · rw [get?_set_same]; rfl

theorem cellRead_write_other (m : List Host.Cell) (a b : Nat) (v : Byte) (h : b ≠ a) :
    cellRead (cellWrite m a v) b = cellRead m b := by
  unfold cellRead cellWrite Sparse.getD
  split
  · rw [get?_erase_other _ _ _ h]
  · rw [get?_set_other _ _ _ _ h]

/-- Bytes outside those written read as before. -/
theorem cellRead_writes_other (m : List Host.Cell) (a : Nat) (bs : List Byte) (b : Nat) (h : b < a ∨ a + bs.length ≤ b) :
    cellRead (cellsWrite m a bs) b = cellRead m b := by
  induction bs generalizing m a with
  | nil => rfl
  | cons x r ih =>
    simp only [cellsWrite]
    rw [ih, cellRead_write_other]
    · simp at h; omega
    · simp at h; omega

/-- The bytes written read back. -/
theorem cellRead_writes (m : List Host.Cell) (a : Nat) (bs : List Byte) (i : Nat) (h : i < bs.length) :
    cellRead (cellsWrite m a bs) (a + i) = bs[i] := by
  induction bs generalizing m a i with
  | nil => simp at h
  | cons x r ih =>
    simp only [cellsWrite]
    cases i with
    | zero => simpa using (cellRead_writes_other _ (a + 1) r a (by omega)).trans (cellRead_write_same m a x)
    | succ i =>
      have := ih (cellWrite m a x) (a + 1) i (by simpa using h)
      simpa [Nat.add_assoc, Nat.add_comm 1 i] using this

theorem mem_set {α : Type} (m : Sparse α) (k : Nat) (v : α) (e : Nat × α) (h : e ∈ Sparse.set m k v) : e = (k, v) ∨ e ∈ m := by
  induction m with
  | nil => simp [Sparse.set] at h; exact .inl h
  | cons c r ih =>
    obtain ⟨a, w⟩ := c
    simp only [Sparse.set] at h
    split at h
    · rcases List.mem_cons.1 h with h | h
      · exact .inl h
      · exact .inr h
    · split at h
      · rcases List.mem_cons.1 h with h | h
        · exact .inl h
        · exact .inr (List.mem_cons_of_mem _ h)
      · rcases List.mem_cons.1 h with h | h
        · exact .inr (by simp [h])
        · rcases ih h with h | h
          · exact .inl h
          · exact .inr (List.mem_cons_of_mem _ h)

theorem mem_erase {α : Type} (m : Sparse α) (k : Nat) (e : Nat × α) (h : e ∈ Sparse.erase m k) : e ∈ m := by
  induction m with
  | nil => exact h
  | cons c r ih =>
    obtain ⟨a, w⟩ := c
    simp only [Sparse.erase] at h
    split at h
    · exact List.mem_cons_of_mem _ (ih h)
    · rcases List.mem_cons.1 h with h | h
      · simp [h]
      · exact List.mem_cons_of_mem _ (ih h)

theorem cellsWf_iff (m : List Host.Cell) :
    cellsWf m = true ↔ Sparse.sorted m = true ∧ ∀ c ∈ m, c.2 ≠ 0 := by
  simp [cellsWf]

/-- Writing a byte keeps the canonical form. -/
theorem cellWrite_wf (m : List Host.Cell) (a : Nat) (v : Byte) (h : cellsWf m = true) : cellsWf (cellWrite m a v) = true := by
  rw [cellsWf_iff] at *
  unfold cellWrite
  split
  · exact ⟨sorted_erase m a h.1, fun c hc => h.2 c (mem_erase m a c hc)⟩
  · rename_i hv
    refine ⟨sorted_set m a v h.1, fun c hc => ?_⟩
    rcases mem_set m a v c hc with rfl | hc
    · exact hv
    · exact h.2 c hc

/-- Writing bytes keeps the canonical form. -/
theorem cellsWrite_wf (m : List Host.Cell) (a : Nat) (bs : List Byte) (h : cellsWf m = true) :
    cellsWf (cellsWrite m a bs) = true := by
  induction bs generalizing m a with
  | nil => exact h
  | cons x r ih => exact ih _ _ (cellWrite_wf m a x h)

-- The operations.

theorem reset_wf : State.reset.mem.wf = true := by decide

theorem wf_iff (m : Memory) : m.wf = true ↔ cellsWf m.hbm = true ∧ cellsWf m.sys = true := by simp [Memory.wf]

/-- Storing a line keeps memory canonical. -/
theorem storeLine_wf (s : State) (line key : Nat) (data : Line) (p : Bool) (h : s.mem.wf = true) :
    (s.storeLine line key data p).mem.wf = true := by
  rw [wf_iff] at *
  cases hw : s.window (line * 128) <;> simp [State.storeLine, hw, h.1, h.2, cellsWrite_wf]

/-- Writing a line to its HBM slot keeps memory canonical. -/
theorem writeBack_wf (s : State) (line : Nat) (h : s.mem.wf = true) : (s.writeBack line).mem.wf = true := by
  rw [wf_iff] at h
  unfold State.writeBack
  split
  · exact (wf_iff _).2 h
  · exact (wf_iff _).2 ⟨cellsWrite_wf _ _ _ h.1, h.2⟩

/-- A write to a stash keeps its cells canonical. -/
theorem stashWrite_wf (s : State) (tile off : Nat) (mask data : Line) (h : cellsWf s.stash.cells = true) :
    cellsWf (s.stashWrite tile off mask data).stash.cells = true := cellsWrite_wf _ _ _ h

theorem lineBytes_length (x : Line) : (lineBytes x).length = 128 := by simp [lineBytes]

/-- A write to a stash changes no byte outside the line it writes. -/
theorem stashWrite_other (s : State) (tile off : Nat) (mask data : Line) (a : Nat)
    (h : a < stashAddr tile (off / 128 * 128) ∨ stashAddr tile (off / 128 * 128) + 128 ≤ a) :
    cellRead (s.stashWrite tile off mask data).stash.cells a = cellRead s.stash.cells a :=
  cellRead_writes_other _ _ _ _ (by rw [lineBytes_length]; exact h)

end Sys2Proof.Laws
end

