-- ==== Sys2Proof/Laws/PerInstr.lean ====
section
/-! SUPPORT. The round trip of decoder and encoder per instruction, on the fields of R289: decodeRaw gives back every
well-formed instruction from the fields that encodeRaw writes for it. An event has no words. -/
namespace Sys2Proof.Laws
open Sys2Proof

set_option linter.unusedSimpArgs false

/-- The round trip on the fields: what decodeRaw gives for the fields that encodeRaw writes. -/
def RoundTrip.Statement (i : Instr) : Prop := ∀ r, encodeRaw i = some r → i.wf = true → decodeRaw r = .ok i

theorem fields_wf (r : Raw) (i : Instr) (h : decodeFields r = .ok i) (w : i.wf = true) : decodeRaw r = .ok i := by
  simp [decodeRaw, h, w]

/-- From the fields of one encoding. -/
theorem roundTrip_of (i : Instr) (r : Raw) (e : encodeRaw i = some r) (h : i.wf = true → decodeFields r = .ok i) :
    RoundTrip.Statement i := by
  intro r' e' w
  obtain rfl : r = r' := Option.some.inj (e.symm.trans e')
  exact fields_wf _ _ (h w) w

/-- Events have no words. -/
theorem roundTrip_event (i : Instr) (h : encodeRaw i = none) : RoundTrip.Statement i := fun _ e => by rw [h] at e; cases e

theorem RoundTrip.add (h : Hdr) (ty : Ty) (sat : Bool) (d : GReg) (a : GReg) (b : Src) : RoundTrip.Statement (.add h ty sat d a b) := by
  refine roundTrip_of _ _ rfl fun w => ?_
  cases sat <;> cases b <;> simp [decodeScalar, encS, Raw.withB, Raw.withA, Raw.scalar3, Raw.scalar2, Src.fields, Src32.fields, Raw.src, Raw.src32, encX, Raw.base, decodeFields, need, Raw.unused, Raw.ty, Raw.sub, Raw.rm, Raw.sat, Raw.modx, Raw.hdr, Raw.imma, Raw.len64, Raw.len96, Raw.len128]
theorem RoundTrip.sub (h : Hdr) (ty : Ty) (sat : Bool) (d : GReg) (a : GReg) (b : Src) : RoundTrip.Statement (.sub h ty sat d a b) := by
  refine roundTrip_of _ _ rfl fun w => ?_
  cases sat <;> cases b <;> simp [decodeScalar, encS, Raw.withB, Raw.withA, Raw.scalar3, Raw.scalar2, Src.fields, Src32.fields, Raw.src, Raw.src32, encX, Raw.base, decodeFields, need, Raw.unused, Raw.ty, Raw.sub, Raw.rm, Raw.sat, Raw.modx, Raw.hdr, Raw.imma, Raw.len64, Raw.len96, Raw.len128]
theorem RoundTrip.mul (h : Hdr) (ty : Ty) (sat : Bool) (d : GReg) (a : GReg) (b : Src) : RoundTrip.Statement (.mul h ty sat d a b) := by
  refine roundTrip_of _ _ rfl fun w => ?_
  cases sat <;> cases b <;> simp [decodeScalar, encS, Raw.withB, Raw.withA, Raw.scalar3, Raw.scalar2, Src.fields, Src32.fields, Raw.src, Raw.src32, encX, Raw.base, decodeFields, need, Raw.unused, Raw.ty, Raw.sub, Raw.rm, Raw.sat, Raw.modx, Raw.hdr, Raw.imma, Raw.len64, Raw.len96, Raw.len128]
theorem RoundTrip.mulh (h : Hdr) (ty : Ty) (d : GReg) (a : GReg) (b : Src) : RoundTrip.Statement (.mulh h ty d a b) := by
  refine roundTrip_of _ _ rfl fun w => ?_
  cases b <;> simp [decodeScalar, encS, Raw.withB, Raw.withA, Raw.scalar3, Raw.scalar2, Src.fields, Src32.fields, Raw.src, Raw.src32, encX, Raw.base, decodeFields, need, Raw.unused, Raw.ty, Raw.sub, Raw.rm, Raw.sat, Raw.modx, Raw.hdr, Raw.imma, Raw.len64, Raw.len96, Raw.len128]
theorem RoundTrip.div (h : Hdr) (ty : Ty) (d : GReg) (a : GReg) (b : Src) : RoundTrip.Statement (.div h ty d a b) := by
  refine roundTrip_of _ _ rfl fun w => ?_
  cases b <;> simp [decodeScalar, encS, Raw.withB, Raw.withA, Raw.scalar3, Raw.scalar2, Src.fields, Src32.fields, Raw.src, Raw.src32, encX, Raw.base, decodeFields, need, Raw.unused, Raw.ty, Raw.sub, Raw.rm, Raw.sat, Raw.modx, Raw.hdr, Raw.imma, Raw.len64, Raw.len96, Raw.len128]
theorem RoundTrip.rem (h : Hdr) (ty : Ty) (d : GReg) (a : GReg) (b : Src) : RoundTrip.Statement (.rem h ty d a b) := by
  refine roundTrip_of _ _ rfl fun w => ?_
  cases b <;> simp [decodeScalar, encS, Raw.withB, Raw.withA, Raw.scalar3, Raw.scalar2, Src.fields, Src32.fields, Raw.src, Raw.src32, encX, Raw.base, decodeFields, need, Raw.unused, Raw.ty, Raw.sub, Raw.rm, Raw.sat, Raw.modx, Raw.hdr, Raw.imma, Raw.len64, Raw.len96, Raw.len128]
theorem RoundTrip.min (h : Hdr) (ty : Ty) (d : GReg) (a : GReg) (b : Src) : RoundTrip.Statement (.min h ty d a b) := by
  refine roundTrip_of _ _ rfl fun w => ?_
  cases b <;> simp [decodeScalar, encS, Raw.withB, Raw.withA, Raw.scalar3, Raw.scalar2, Src.fields, Src32.fields, Raw.src, Raw.src32, encX, Raw.base, decodeFields, need, Raw.unused, Raw.ty, Raw.sub, Raw.rm, Raw.sat, Raw.modx, Raw.hdr, Raw.imma, Raw.len64, Raw.len96, Raw.len128]
theorem RoundTrip.max (h : Hdr) (ty : Ty) (d : GReg) (a : GReg) (b : Src) : RoundTrip.Statement (.max h ty d a b) := by
  refine roundTrip_of _ _ rfl fun w => ?_
  cases b <;> simp [decodeScalar, encS, Raw.withB, Raw.withA, Raw.scalar3, Raw.scalar2, Src.fields, Src32.fields, Raw.src, Raw.src32, encX, Raw.base, decodeFields, need, Raw.unused, Raw.ty, Raw.sub, Raw.rm, Raw.sat, Raw.modx, Raw.hdr, Raw.imma, Raw.len64, Raw.len96, Raw.len128]
theorem RoundTrip.and (h : Hdr) (ty : Ty) (d : GReg) (a : GReg) (b : Src) : RoundTrip.Statement (.and h ty d a b) := by
  refine roundTrip_of _ _ rfl fun w => ?_
  cases b <;> simp [decodeScalar, encS, Raw.withB, Raw.withA, Raw.scalar3, Raw.scalar2, Src.fields, Src32.fields, Raw.src, Raw.src32, encX, Raw.base, decodeFields, need, Raw.unused, Raw.ty, Raw.sub, Raw.rm, Raw.sat, Raw.modx, Raw.hdr, Raw.imma, Raw.len64, Raw.len96, Raw.len128]
theorem RoundTrip.or (h : Hdr) (ty : Ty) (d : GReg) (a : GReg) (b : Src) : RoundTrip.Statement (.or h ty d a b) := by
  refine roundTrip_of _ _ rfl fun w => ?_
  cases b <;> simp [decodeScalar, encS, Raw.withB, Raw.withA, Raw.scalar3, Raw.scalar2, Src.fields, Src32.fields, Raw.src, Raw.src32, encX, Raw.base, decodeFields, need, Raw.unused, Raw.ty, Raw.sub, Raw.rm, Raw.sat, Raw.modx, Raw.hdr, Raw.imma, Raw.len64, Raw.len96, Raw.len128]
theorem RoundTrip.xor (h : Hdr) (ty : Ty) (d : GReg) (a : GReg) (b : Src) : RoundTrip.Statement (.xor h ty d a b) := by
  refine roundTrip_of _ _ rfl fun w => ?_
  cases b <;> simp [decodeScalar, encS, Raw.withB, Raw.withA, Raw.scalar3, Raw.scalar2, Src.fields, Src32.fields, Raw.src, Raw.src32, encX, Raw.base, decodeFields, need, Raw.unused, Raw.ty, Raw.sub, Raw.rm, Raw.sat, Raw.modx, Raw.hdr, Raw.imma, Raw.len64, Raw.len96, Raw.len128]
theorem RoundTrip.andn (h : Hdr) (ty : Ty) (d : GReg) (a : GReg) (b : Src) : RoundTrip.Statement (.andn h ty d a b) := by
  refine roundTrip_of _ _ rfl fun w => ?_
  cases b <;> simp [decodeScalar, encS, Raw.withB, Raw.withA, Raw.scalar3, Raw.scalar2, Src.fields, Src32.fields, Raw.src, Raw.src32, encX, Raw.base, decodeFields, need, Raw.unused, Raw.ty, Raw.sub, Raw.rm, Raw.sat, Raw.modx, Raw.hdr, Raw.imma, Raw.len64, Raw.len96, Raw.len128]
theorem RoundTrip.shl (h : Hdr) (ty : Ty) (d : GReg) (a : GReg) (b : Src32) : RoundTrip.Statement (.shl h ty d a b) := by
  refine roundTrip_of _ _ rfl fun w => ?_
  cases b <;> simp [decodeScalar, encS, Raw.withB, Raw.withA, Raw.scalar3, Raw.scalar2, Src.fields, Src32.fields, Raw.src, Raw.src32, encX, Raw.base, decodeFields, need, Raw.unused, Raw.ty, Raw.sub, Raw.rm, Raw.sat, Raw.modx, Raw.hdr, Raw.imma, Raw.len64, Raw.len96, Raw.len128]
theorem RoundTrip.shr (h : Hdr) (ty : Ty) (d : GReg) (a : GReg) (b : Src32) : RoundTrip.Statement (.shr h ty d a b) := by
  refine roundTrip_of _ _ rfl fun w => ?_
  cases b <;> simp [decodeScalar, encS, Raw.withB, Raw.withA, Raw.scalar3, Raw.scalar2, Src.fields, Src32.fields, Raw.src, Raw.src32, encX, Raw.base, decodeFields, need, Raw.unused, Raw.ty, Raw.sub, Raw.rm, Raw.sat, Raw.modx, Raw.hdr, Raw.imma, Raw.len64, Raw.len96, Raw.len128]
theorem RoundTrip.sar (h : Hdr) (ty : Ty) (d : GReg) (a : GReg) (b : Src32) : RoundTrip.Statement (.sar h ty d a b) := by
  refine roundTrip_of _ _ rfl fun w => ?_
  cases b <;> simp [decodeScalar, encS, Raw.withB, Raw.withA, Raw.scalar3, Raw.scalar2, Src.fields, Src32.fields, Raw.src, Raw.src32, encX, Raw.base, decodeFields, need, Raw.unused, Raw.ty, Raw.sub, Raw.rm, Raw.sat, Raw.modx, Raw.hdr, Raw.imma, Raw.len64, Raw.len96, Raw.len128]
theorem RoundTrip.rot (h : Hdr) (left : Bool) (ty : Ty) (d : GReg) (a : GReg) (b : Src32) : RoundTrip.Statement (.rot h left ty d a b) := by
  refine roundTrip_of _ _ rfl fun w => ?_
  cases left <;> cases b <;> simp [decodeScalar, encS, Raw.withB, Raw.withA, Raw.scalar3, Raw.scalar2, Src.fields, Src32.fields, Raw.src, Raw.src32, encX, Raw.base, decodeFields, need, Raw.unused, Raw.ty, Raw.sub, Raw.rm, Raw.sat, Raw.modx, Raw.hdr, Raw.imma, Raw.len64, Raw.len96, Raw.len128]
theorem RoundTrip.mov (h : Hdr) (ty : Ty) (d : GReg) (a : Src) : RoundTrip.Statement (.mov h ty d a) := by
  refine roundTrip_of _ _ rfl fun w => ?_
  cases a <;> simp [decodeScalar, encS, Raw.withB, Raw.withA, Raw.scalar3, Raw.scalar2, Src.fields, Src32.fields, Raw.src, Raw.src32, encX, Raw.base, decodeFields, need, Raw.unused, Raw.ty, Raw.sub, Raw.rm, Raw.sat, Raw.modx, Raw.hdr, Raw.imma, Raw.len64, Raw.len96, Raw.len128]
theorem RoundTrip.sel (h : Hdr) (d : GReg) (a : GReg) (b : GReg) (c : PReg) : RoundTrip.Statement (.sel h d a b c) := by
  refine roundTrip_of _ _ rfl fun w => ?_
  simp [decodeScalar, encS, Raw.withB, Raw.withA, Raw.scalar3, Raw.scalar2, Src.fields, Src32.fields, Raw.src, Raw.src32, encX, Raw.base, decodeFields, need, Raw.unused, Raw.ty, Raw.sub, Raw.rm, Raw.sat, Raw.modx, Raw.hdr, Raw.imma, Raw.len64, Raw.len96, Raw.len128]
theorem RoundTrip.bit (h : Hdr) (op : BitOp) (ty : Ty) (d : GReg) (a : GReg) : RoundTrip.Statement (.bit h op ty d a) := by
  refine roundTrip_of _ _ rfl fun w => ?_
  cases op <;> simp [decodeScalar, encS, Raw.withB, Raw.withA, Raw.scalar3, Raw.scalar2, Src.fields, Src32.fields, Raw.src, Raw.src32, encX, Raw.base, decodeFields, need, Raw.unused, Raw.ty, Raw.sub, Raw.rm, Raw.sat, Raw.modx, Raw.hdr, Raw.imma, Raw.len64, Raw.len96, Raw.len128]
theorem RoundTrip.bext (h : Hdr) (ty : Ty) (d : GReg) (a : GReg) (b : Src32) : RoundTrip.Statement (.bext h ty d a b) := by
  refine roundTrip_of _ _ rfl fun w => ?_
  cases b <;> simp [decodeScalar, encS, Raw.withB, Raw.withA, Raw.scalar3, Raw.scalar2, Src.fields, Src32.fields, Raw.src, Raw.src32, encX, Raw.base, decodeFields, need, Raw.unused, Raw.ty, Raw.sub, Raw.rm, Raw.sat, Raw.modx, Raw.hdr, Raw.imma, Raw.len64, Raw.len96, Raw.len128]
theorem RoundTrip.bins (h : Hdr) (ty : Ty) (d : GReg) (a : GReg) (b : Src32) : RoundTrip.Statement (.bins h ty d a b) := by
  refine roundTrip_of _ _ rfl fun w => ?_
  cases b <;> simp [decodeScalar, encS, Raw.withB, Raw.withA, Raw.scalar3, Raw.scalar2, Src.fields, Src32.fields, Raw.src, Raw.src32, encX, Raw.base, decodeFields, need, Raw.unused, Raw.ty, Raw.sub, Raw.rm, Raw.sat, Raw.modx, Raw.hdr, Raw.imma, Raw.len64, Raw.len96, Raw.len128]
theorem RoundTrip.cvt (h : Hdr) (src : Ty) (dst : Ty) (d : GReg) (a : GReg) : RoundTrip.Statement (.cvt h src dst d a) := by
  refine roundTrip_of _ _ rfl fun w => ?_
  simp [decodeScalar, encS, Raw.withB, Raw.withA, Raw.scalar3, Raw.scalar2, Src.fields, Src32.fields, Raw.src, Raw.src32, encX, Raw.base, decodeFields, need, Raw.unused, Raw.ty, Raw.sub, Raw.rm, Raw.sat, Raw.modx, Raw.hdr, Raw.imma, Raw.len64, Raw.len96, Raw.len128]
theorem RoundTrip.lea (h : Hdr) (scale : BitVec 3) (d : GReg) (a : GReg) (b : Src32) : RoundTrip.Statement (.lea h scale d a b) := by
  refine roundTrip_of _ _ rfl fun w => ?_
  cases b <;> simp [decodeScalar, encS, Raw.withB, Raw.withA, Raw.scalar3, Raw.scalar2, Src.fields, Src32.fields, Raw.src, Raw.src32, encX, Raw.base, decodeFields, need, Raw.unused, Raw.ty, Raw.sub, Raw.rm, Raw.sat, Raw.modx, Raw.hdr, Raw.imma, Raw.len64, Raw.len96, Raw.len128]
theorem RoundTrip.bkpt (h : Hdr) : RoundTrip.Statement (.bkpt h) := by
  refine roundTrip_of _ _ rfl fun w => ?_
  simp [decodeScalar, encS, Raw.withB, Raw.withA, Raw.scalar3, Raw.scalar2, Src.fields, Src32.fields, Raw.src, Raw.src32, encX, Raw.base, decodeFields, need, Raw.unused, Raw.ty, Raw.sub, Raw.rm, Raw.sat, Raw.modx, Raw.hdr, Raw.imma, Raw.len64, Raw.len96, Raw.len128]
theorem RoundTrip.swtrap (h : Hdr) (n : BitVec 4) : RoundTrip.Statement (.swtrap h n) := by
  refine roundTrip_of _ _ rfl fun w => ?_
  simp [decodeScalar, encS, Raw.withB, Raw.withA, Raw.scalar3, Raw.scalar2, Src.fields, Src32.fields, Raw.src, Raw.src32, encX, Raw.base, decodeFields, need, Raw.unused, Raw.ty, Raw.sub, Raw.rm, Raw.sat, Raw.modx, Raw.hdr, Raw.imma, Raw.len64, Raw.len96, Raw.len128]
theorem RoundTrip.nop (h : Hdr) (ext : NopExt) : RoundTrip.Statement (.nop h ext) := by
  cases ext <;> exact roundTrip_of _ _ rfl fun w => by simp [decodeScalar, encS, Raw.withB, Raw.withA, Raw.scalar3, Raw.scalar2, Src.fields, Src32.fields, Raw.src, Raw.src32, encX, Raw.base, decodeFields, need, Raw.unused, Raw.ty, Raw.sub, Raw.rm, Raw.sat, Raw.modx, Raw.hdr, Raw.imma, Raw.len64, Raw.len96, Raw.len128]
theorem RoundTrip.pcmp (h : Hdr) (rel : Cmp) (ty : Ty) (d : PReg) (a : GReg) (b : Src32) : RoundTrip.Statement (.pcmp h rel ty d a b) := by
  refine roundTrip_of _ _ rfl fun w => ?_
  cases b <;> simp [decodePred, encS, encX, Raw.withB, Raw.withA, Src32.fields, Raw.src32, Raw.plainX, Imm.fields, Raw.base, decodeFields, need, Raw.unused, Raw.ty, Raw.sub, Raw.rm, Raw.sat, Raw.modx, Raw.hdr, Raw.imma, Raw.len64, Raw.len96, Raw.len128]
theorem RoundTrip.plog (h : Hdr) (op : LogOp) (d : PReg) (a : PReg) (b : PReg) : RoundTrip.Statement (.plog h op d a b) := by
  refine roundTrip_of _ _ rfl fun w => ?_
  cases op <;> simp_all [decodePred, encS, encX, Raw.withB, Raw.withA, Src32.fields, Raw.src32, Raw.plainX, Imm.fields, Raw.base, decodeFields, need, Raw.unused, Raw.ty, Raw.sub, Raw.rm, Raw.sat, Raw.modx, Raw.hdr, Raw.imma, Raw.len64, Raw.len96, Raw.len128, Instr.wf]
theorem RoundTrip.mlog (h : Hdr) (op : LogOp) (d : MReg) (a : MReg) (b : MReg) : RoundTrip.Statement (.mlog h op d a b) := by
  refine roundTrip_of _ _ rfl fun w => ?_
  cases op <;> simp_all [decodePred, encS, encX, Raw.withB, Raw.withA, Src32.fields, Raw.src32, Raw.plainX, Imm.fields, Raw.base, decodeFields, need, Raw.unused, Raw.ty, Raw.sub, Raw.rm, Raw.sat, Raw.modx, Raw.hdr, Raw.imma, Raw.len64, Raw.len96, Raw.len128, Instr.wf]
theorem RoundTrip.mmovMG (h : Hdr) (d : MReg) (a : GReg) : RoundTrip.Statement (.mmovMG h d a) := by
  refine roundTrip_of _ _ rfl fun w => ?_
  simp [decodePred, encS, encX, Raw.withB, Raw.withA, Src32.fields, Raw.src32, Raw.plainX, Imm.fields, Raw.base, decodeFields, need, Raw.unused, Raw.ty, Raw.sub, Raw.rm, Raw.sat, Raw.modx, Raw.hdr, Raw.imma, Raw.len64, Raw.len96, Raw.len128]
theorem RoundTrip.mmovGM (h : Hdr) (d : GReg) (a : MReg) : RoundTrip.Statement (.mmovGM h d a) := by
  refine roundTrip_of _ _ rfl fun w => ?_
  simp [decodePred, encS, encX, Raw.withB, Raw.withA, Src32.fields, Raw.src32, Raw.plainX, Imm.fields, Raw.base, decodeFields, need, Raw.unused, Raw.ty, Raw.sub, Raw.rm, Raw.sat, Raw.modx, Raw.hdr, Raw.imma, Raw.len64, Raw.len96, Raw.len128]
theorem RoundTrip.mmovMImm (h : Hdr) (d : MReg) (v : Imm) : RoundTrip.Statement (.mmovMImm h d v) := by
  refine roundTrip_of _ _ rfl fun w => ?_
  cases v <;> simp [decodePred, encS, encX, Raw.withB, Raw.withA, Src32.fields, Raw.src32, Raw.plainX, Imm.fields, Raw.base, decodeFields, need, Raw.unused, Raw.ty, Raw.sub, Raw.rm, Raw.sat, Raw.modx, Raw.hdr, Raw.imma, Raw.len64, Raw.len96, Raw.len128]
theorem RoundTrip.mcnt (h : Hdr) (op : CntOp) (d : GReg) (a : MReg) : RoundTrip.Statement (.mcnt h op d a) := by
  refine roundTrip_of _ _ rfl fun w => ?_
  simp [decodePred, encS, encX, Raw.withB, Raw.withA, Src32.fields, Raw.src32, Raw.plainX, Imm.fields, Raw.base, decodeFields, need, Raw.unused, Raw.ty, Raw.sub, Raw.rm, Raw.sat, Raw.modx, Raw.hdr, Raw.imma, Raw.len64, Raw.len96, Raw.len128]
theorem RoundTrip.mfirst (h : Hdr) (ty : Ty) (d : MReg) (n : Src32) : RoundTrip.Statement (.mfirst h ty d n) := by
  refine roundTrip_of _ _ rfl fun w => ?_
  cases n <;> simp [decodePred, encS, encX, Raw.withB, Raw.withA, Src32.fields, Raw.src32, Raw.plainX, Imm.fields, Raw.base, decodeFields, need, Raw.unused, Raw.ty, Raw.sub, Raw.rm, Raw.sat, Raw.modx, Raw.hdr, Raw.imma, Raw.len64, Raw.len96, Raw.len128]
theorem RoundTrip.pmovPG (h : Hdr) (d : PReg) (a : GReg) : RoundTrip.Statement (.pmovPG h d a) := by
  refine roundTrip_of _ _ rfl fun w => ?_
  simp [decodePred, encS, encX, Raw.withB, Raw.withA, Src32.fields, Raw.src32, Raw.plainX, Imm.fields, Raw.base, decodeFields, need, Raw.unused, Raw.ty, Raw.sub, Raw.rm, Raw.sat, Raw.modx, Raw.hdr, Raw.imma, Raw.len64, Raw.len96, Raw.len128]
theorem RoundTrip.pmovGP (h : Hdr) (d : GReg) (a : PReg) : RoundTrip.Statement (.pmovGP h d a) := by
  refine roundTrip_of _ _ rfl fun w => ?_
  simp [decodePred, encS, encX, Raw.withB, Raw.withA, Src32.fields, Raw.src32, Raw.plainX, Imm.fields, Raw.base, decodeFields, need, Raw.unused, Raw.ty, Raw.sub, Raw.rm, Raw.sat, Raw.modx, Raw.hdr, Raw.imma, Raw.len64, Raw.len96, Raw.len128]
theorem RoundTrip.br (h : Hdr) (off : BitVec 32) : RoundTrip.Statement (.br h off) := by
  refine roundTrip_of _ _ rfl fun w => ?_
  simp [decodeControl, encX, encOff, encNum, Raw.plainX, Raw.base, decodeFields, need, Raw.unused, Raw.ty, Raw.sub, Raw.rm, Raw.sat, Raw.modx, Raw.hdr, Raw.imma, Raw.len64, Raw.len96, Raw.len128]
theorem RoundTrip.jr (h : Hdr) (a : GReg) : RoundTrip.Statement (.jr h a) := by
  refine roundTrip_of _ _ rfl fun w => ?_
  simp [decodeControl, encX, encOff, encNum, Raw.plainX, Raw.base, decodeFields, need, Raw.unused, Raw.ty, Raw.sub, Raw.rm, Raw.sat, Raw.modx, Raw.hdr, Raw.imma, Raw.len64, Raw.len96, Raw.len128]
theorem RoundTrip.callr (h : Hdr) (d : GReg) (a : GReg) : RoundTrip.Statement (.callr h d a) := by
  refine roundTrip_of _ _ rfl fun w => ?_
  simp [decodeControl, encX, encOff, encNum, Raw.plainX, Raw.base, decodeFields, need, Raw.unused, Raw.ty, Raw.sub, Raw.rm, Raw.sat, Raw.modx, Raw.hdr, Raw.imma, Raw.len64, Raw.len96, Raw.len128]
theorem RoundTrip.call (h : Hdr) (d : GReg) (off : BitVec 32) : RoundTrip.Statement (.call h d off) := by
  refine roundTrip_of _ _ rfl fun w => ?_
  simp [decodeControl, encX, encOff, encNum, Raw.plainX, Raw.base, decodeFields, need, Raw.unused, Raw.ty, Raw.sub, Raw.rm, Raw.sat, Raw.modx, Raw.hdr, Raw.imma, Raw.len64, Raw.len96, Raw.len128]
theorem RoundTrip.ret (h : Hdr) (a : GReg) : RoundTrip.Statement (.ret h a) := by
  refine roundTrip_of _ _ rfl fun w => ?_
  simp [decodeControl, encX, encOff, encNum, Raw.plainX, Raw.base, decodeFields, need, Raw.unused, Raw.ty, Raw.sub, Raw.rm, Raw.sat, Raw.modx, Raw.hdr, Raw.imma, Raw.len64, Raw.len96, Raw.len128]
theorem RoundTrip.loop (h : Hdr) (d : GReg) (off : BitVec 32) : RoundTrip.Statement (.loop h d off) := by
  refine roundTrip_of _ _ rfl fun w => ?_
  simp [decodeControl, encX, encOff, encNum, Raw.plainX, Raw.base, decodeFields, need, Raw.unused, Raw.ty, Raw.sub, Raw.rm, Raw.sat, Raw.modx, Raw.hdr, Raw.imma, Raw.len64, Raw.len96, Raw.len128]
theorem RoundTrip.repeatReg (h : Hdr) (km1 : BitVec 4) (a : GReg) : RoundTrip.Statement (.repeatReg h km1 a) := by
  refine roundTrip_of _ _ rfl fun w => ?_
  simp [decodeControl, encX, encOff, encNum, Raw.plainX, Raw.base, decodeFields, need, Raw.unused, Raw.ty, Raw.sub, Raw.rm, Raw.sat, Raw.modx, Raw.hdr, Raw.imma, Raw.len64, Raw.len96, Raw.len128]
theorem RoundTrip.repeatImm (h : Hdr) (km1 : BitVec 4) (n : BitVec 32) : RoundTrip.Statement (.repeatImm h km1 n) := by
  refine roundTrip_of _ _ rfl fun w => ?_
  simp [decodeControl, encX, encOff, encNum, Raw.plainX, Raw.base, decodeFields, need, Raw.unused, Raw.ty, Raw.sub, Raw.rm, Raw.sat, Raw.modx, Raw.hdr, Raw.imma, Raw.len64, Raw.len96, Raw.len128]
theorem RoundTrip.idr (h : Hdr) (d : GReg) (num : BitVec 8) : RoundTrip.Statement (.idr h d num) := by
  refine roundTrip_of _ _ rfl fun w => ?_
  simp [decodeControl, encX, encOff, encNum, Raw.plainX, Raw.base, decodeFields, need, Raw.unused, Raw.ty, Raw.sub, Raw.rm, Raw.sat, Raw.modx, Raw.hdr, Raw.imma, Raw.len64, Raw.len96, Raw.len128]
theorem RoundTrip.ucrr (h : Hdr) (d : GReg) (num : BitVec 8) : RoundTrip.Statement (.ucrr h d num) := by
  refine roundTrip_of _ _ rfl fun w => ?_
  simp [decodeControl, encX, encOff, encNum, Raw.plainX, Raw.base, decodeFields, need, Raw.unused, Raw.ty, Raw.sub, Raw.rm, Raw.sat, Raw.modx, Raw.hdr, Raw.imma, Raw.len64, Raw.len96, Raw.len128]
theorem RoundTrip.ucrw (h : Hdr) (a : GReg) (num : BitVec 8) : RoundTrip.Statement (.ucrw h a num) := by
  refine roundTrip_of _ _ rfl fun w => ?_
  simp [decodeControl, encX, encOff, encNum, Raw.plainX, Raw.base, decodeFields, need, Raw.unused, Raw.ty, Raw.sub, Raw.rm, Raw.sat, Raw.modx, Raw.hdr, Raw.imma, Raw.len64, Raw.len96, Raw.len128]
theorem RoundTrip.rdtimeCyc (h : Hdr) (d : GReg) : RoundTrip.Statement (.rdtimeCyc h d) := by
  refine roundTrip_of _ _ rfl fun w => ?_
  simp [decodeControl, encX, encOff, encNum, Raw.plainX, Raw.base, decodeFields, need, Raw.unused, Raw.ty, Raw.sub, Raw.rm, Raw.sat, Raw.modx, Raw.hdr, Raw.imma, Raw.len64, Raw.len96, Raw.len128]
theorem RoundTrip.rdtimeNs (h : Hdr) (d : GReg) : RoundTrip.Statement (.rdtimeNs h d) := by
  refine roundTrip_of _ _ rfl fun w => ?_
  simp [decodeControl, encX, encOff, encNum, Raw.plainX, Raw.base, decodeFields, need, Raw.unused, Raw.ty, Raw.sub, Raw.rm, Raw.sat, Raw.modx, Raw.hdr, Raw.imma, Raw.len64, Raw.len96, Raw.len128]
theorem RoundTrip.sysr (h : Hdr) (d : GReg) (n : RegSel) : RoundTrip.Statement (.sysr h d n) := by
  refine roundTrip_of _ _ rfl fun w => ?_
  cases n <;> simp [decodeSystem, encSys, Raw.withSel, Raw.regSel, Raw.withA, Raw.withB, Raw.withAddr, Raw.addr, Src32.fields, Raw.src32, Raw.base, decodeFields, need, Raw.unused, Raw.ty, Raw.sub, Raw.rm, Raw.sat, Raw.modx, Raw.hdr, Raw.imma, Raw.len64, Raw.len96, Raw.len128]
theorem RoundTrip.sysw (h : Hdr) (n : RegSel) (b : GReg) : RoundTrip.Statement (.sysw h n b) := by
  refine roundTrip_of _ _ rfl fun w => ?_
  cases n <;> simp [decodeSystem, encSys, Raw.withSel, Raw.regSel, Raw.withA, Raw.withB, Raw.withAddr, Raw.addr, Src32.fields, Raw.src32, Raw.base, decodeFields, need, Raw.unused, Raw.ty, Raw.sub, Raw.rm, Raw.sat, Raw.modx, Raw.hdr, Raw.imma, Raw.len64, Raw.len96, Raw.len128]
theorem RoundTrip.faultreplyRetry (h : Hdr) (a : Src32) : RoundTrip.Statement (.faultreplyRetry h a) := by
  refine roundTrip_of _ _ rfl fun w => ?_
  cases a <;> simp [decodeSystem, encSys, Raw.withSel, Raw.regSel, Raw.withA, Raw.withB, Raw.withAddr, Raw.addr, Src32.fields, Raw.src32, Raw.base, decodeFields, need, Raw.unused, Raw.ty, Raw.sub, Raw.rm, Raw.sat, Raw.modx, Raw.hdr, Raw.imma, Raw.len64, Raw.len96, Raw.len128]
theorem RoundTrip.faultreplyRemote (h : Hdr) (b : GReg) (a : Src32) : RoundTrip.Statement (.faultreplyRemote h b a) := by
  refine roundTrip_of _ _ rfl fun w => ?_
  cases a <;> simp [decodeSystem, encSys, Raw.withSel, Raw.regSel, Raw.withA, Raw.withB, Raw.withAddr, Raw.addr, Src32.fields, Raw.src32, Raw.base, decodeFields, need, Raw.unused, Raw.ty, Raw.sub, Raw.rm, Raw.sat, Raw.modx, Raw.hdr, Raw.imma, Raw.len64, Raw.len96, Raw.len128]
theorem RoundTrip.faultreplyKilltask (h : Hdr) (a : Src32) : RoundTrip.Statement (.faultreplyKilltask h a) := by
  refine roundTrip_of _ _ rfl fun w => ?_
  cases a <;> simp [decodeSystem, encSys, Raw.withSel, Raw.regSel, Raw.withA, Raw.withB, Raw.withAddr, Raw.addr, Src32.fields, Raw.src32, Raw.base, decodeFields, need, Raw.unused, Raw.ty, Raw.sub, Raw.rm, Raw.sat, Raw.modx, Raw.hdr, Raw.imma, Raw.len64, Raw.len96, Raw.len128]
theorem RoundTrip.faultreplyKillrun (h : Hdr) (a : Src32) : RoundTrip.Statement (.faultreplyKillrun h a) := by
  refine roundTrip_of _ _ rfl fun w => ?_
  cases a <;> simp [decodeSystem, encSys, Raw.withSel, Raw.regSel, Raw.withA, Raw.withB, Raw.withAddr, Raw.addr, Src32.fields, Raw.src32, Raw.base, decodeFields, need, Raw.unused, Raw.ty, Raw.sub, Raw.rm, Raw.sat, Raw.modx, Raw.hdr, Raw.imma, Raw.len64, Raw.len96, Raw.len128]
theorem RoundTrip.fltwait (h : Hdr) (d : GReg) (a : Src32) : RoundTrip.Statement (.fltwait h d a) := by
  refine roundTrip_of _ _ rfl fun w => ?_
  cases a <;> simp [decodeSystem, encSys, Raw.withSel, Raw.regSel, Raw.withA, Raw.withB, Raw.withAddr, Raw.addr, Src32.fields, Raw.src32, Raw.base, decodeFields, need, Raw.unused, Raw.ty, Raw.sub, Raw.rm, Raw.sat, Raw.modx, Raw.hdr, Raw.imma, Raw.len64, Raw.len96, Raw.len128]
theorem RoundTrip.purge (h : Hdr) (addr : Addr) (b : GReg) : RoundTrip.Statement (.purge h addr b) := by
  refine roundTrip_of _ _ rfl fun w => ?_
  rcases addr with ⟨addr, _ | _⟩ <;> simp [decodeSystem, encSys, Raw.withSel, Raw.regSel, Raw.withA, Raw.withB, Raw.withAddr, Raw.addr, Src32.fields, Raw.src32, Raw.base, decodeFields, need, Raw.unused, Raw.ty, Raw.sub, Raw.rm, Raw.sat, Raw.modx, Raw.hdr, Raw.imma, Raw.len64, Raw.len96, Raw.len128]
theorem RoundTrip.cflush (h : Hdr) (addr : Addr) (b : GReg) : RoundTrip.Statement (.cflush h addr b) := by
  refine roundTrip_of _ _ rfl fun w => ?_
  rcases addr with ⟨addr, _ | _⟩ <;> simp [decodeSystem, encSys, Raw.withSel, Raw.regSel, Raw.withA, Raw.withB, Raw.withAddr, Raw.addr, Src32.fields, Raw.src32, Raw.base, decodeFields, need, Raw.unused, Raw.ty, Raw.sub, Raw.rm, Raw.sat, Raw.modx, Raw.hdr, Raw.imma, Raw.len64, Raw.len96, Raw.len128]
theorem RoundTrip.cinval (h : Hdr) (addr : Addr) (b : GReg) : RoundTrip.Statement (.cinval h addr b) := by
  refine roundTrip_of _ _ rfl fun w => ?_
  rcases addr with ⟨addr, _ | _⟩ <;> simp [decodeSystem, encSys, Raw.withSel, Raw.regSel, Raw.withA, Raw.withB, Raw.withAddr, Raw.addr, Src32.fields, Raw.src32, Raw.base, decodeFields, need, Raw.unused, Raw.ty, Raw.sub, Raw.rm, Raw.sat, Raw.modx, Raw.hdr, Raw.imma, Raw.len64, Raw.len96, Raw.len128]
theorem RoundTrip.tlbinvPage (h : Hdr) (a : GReg) (b : Src32) : RoundTrip.Statement (.tlbinvPage h a b) := by
  refine roundTrip_of _ _ rfl fun w => ?_
  cases b <;> simp [decodeSystem, encSys, Raw.withSel, Raw.regSel, Raw.withA, Raw.withB, Raw.withAddr, Raw.addr, Src32.fields, Raw.src32, Raw.base, decodeFields, need, Raw.unused, Raw.ty, Raw.sub, Raw.rm, Raw.sat, Raw.modx, Raw.hdr, Raw.imma, Raw.len64, Raw.len96, Raw.len128]
theorem RoundTrip.tlbinvAsid (h : Hdr) (b : Src32) : RoundTrip.Statement (.tlbinvAsid h b) := by
  refine roundTrip_of _ _ rfl fun w => ?_
  cases b <;> simp [decodeSystem, encSys, Raw.withSel, Raw.regSel, Raw.withA, Raw.withB, Raw.withAddr, Raw.addr, Src32.fields, Raw.src32, Raw.base, decodeFields, need, Raw.unused, Raw.ty, Raw.sub, Raw.rm, Raw.sat, Raw.modx, Raw.hdr, Raw.imma, Raw.len64, Raw.len96, Raw.len128]
theorem RoundTrip.tlbinvAll (h : Hdr) : RoundTrip.Statement (.tlbinvAll h) := by
  refine roundTrip_of _ _ rfl fun w => ?_
  simp [decodeSystem, encSys, Raw.withSel, Raw.regSel, Raw.withA, Raw.withB, Raw.withAddr, Raw.addr, Src32.fields, Raw.src32, Raw.base, decodeFields, need, Raw.unused, Raw.ty, Raw.sub, Raw.rm, Raw.sat, Raw.modx, Raw.hdr, Raw.imma, Raw.len64, Raw.len96, Raw.len128]
theorem RoundTrip.vfadd (h : Hdr) (ty : Ty) (rm : Rm) (sat : Bool) (d : WReg) (a : WReg) (b : WReg) : RoundTrip.Statement (.vfadd h ty rm sat d a b) := by
  refine roundTrip_of _ _ rfl fun w => ?_
  cases sat <;> simp [decodeVectorFp, encV, encV1, Raw.vf1, Raw.vf2, Raw.vf3, Raw.withAcc, Raw.accum, Raw.base, decodeFields, need, Raw.unused, Raw.ty, Raw.sub, Raw.rm, Raw.sat, Raw.modx, Raw.hdr, Raw.imma, Raw.len64, Raw.len96, Raw.len128]
theorem RoundTrip.vfsub (h : Hdr) (ty : Ty) (rm : Rm) (sat : Bool) (d : WReg) (a : WReg) (b : WReg) : RoundTrip.Statement (.vfsub h ty rm sat d a b) := by
  refine roundTrip_of _ _ rfl fun w => ?_
  cases sat <;> simp [decodeVectorFp, encV, encV1, Raw.vf1, Raw.vf2, Raw.vf3, Raw.withAcc, Raw.accum, Raw.base, decodeFields, need, Raw.unused, Raw.ty, Raw.sub, Raw.rm, Raw.sat, Raw.modx, Raw.hdr, Raw.imma, Raw.len64, Raw.len96, Raw.len128]
theorem RoundTrip.vfmul (h : Hdr) (ty : Ty) (rm : Rm) (sat : Bool) (d : WReg) (a : WReg) (b : WReg) : RoundTrip.Statement (.vfmul h ty rm sat d a b) := by
  refine roundTrip_of _ _ rfl fun w => ?_
  cases sat <;> simp [decodeVectorFp, encV, encV1, Raw.vf1, Raw.vf2, Raw.vf3, Raw.withAcc, Raw.accum, Raw.base, decodeFields, need, Raw.unused, Raw.ty, Raw.sub, Raw.rm, Raw.sat, Raw.modx, Raw.hdr, Raw.imma, Raw.len64, Raw.len96, Raw.len128]
theorem RoundTrip.vfma (h : Hdr) (ty : Ty) (rm : Rm) (sat : Bool) (d : WReg) (a : WReg) (b : WReg) (c : WReg) : RoundTrip.Statement (.vfma h ty rm sat d a b c) := by
  refine roundTrip_of _ _ rfl fun w => ?_
  cases sat <;> simp [decodeVectorFp, encV, encV1, Raw.vf1, Raw.vf2, Raw.vf3, Raw.withAcc, Raw.accum, Raw.base, decodeFields, need, Raw.unused, Raw.ty, Raw.sub, Raw.rm, Raw.sat, Raw.modx, Raw.hdr, Raw.imma, Raw.len64, Raw.len96, Raw.len128]
theorem RoundTrip.vfms (h : Hdr) (ty : Ty) (rm : Rm) (sat : Bool) (d : WReg) (a : WReg) (b : WReg) (c : WReg) : RoundTrip.Statement (.vfms h ty rm sat d a b c) := by
  refine roundTrip_of _ _ rfl fun w => ?_
  cases sat <;> simp [decodeVectorFp, encV, encV1, Raw.vf1, Raw.vf2, Raw.vf3, Raw.withAcc, Raw.accum, Raw.base, decodeFields, need, Raw.unused, Raw.ty, Raw.sub, Raw.rm, Raw.sat, Raw.modx, Raw.hdr, Raw.imma, Raw.len64, Raw.len96, Raw.len128]
theorem RoundTrip.vfnma (h : Hdr) (ty : Ty) (rm : Rm) (sat : Bool) (d : WReg) (a : WReg) (b : WReg) (c : WReg) : RoundTrip.Statement (.vfnma h ty rm sat d a b c) := by
  refine roundTrip_of _ _ rfl fun w => ?_
  cases sat <;> simp [decodeVectorFp, encV, encV1, Raw.vf1, Raw.vf2, Raw.vf3, Raw.withAcc, Raw.accum, Raw.base, decodeFields, need, Raw.unused, Raw.ty, Raw.sub, Raw.rm, Raw.sat, Raw.modx, Raw.hdr, Raw.imma, Raw.len64, Raw.len96, Raw.len128]
theorem RoundTrip.vfmin (h : Hdr) (ty : Ty) (d : WReg) (a : WReg) (b : WReg) : RoundTrip.Statement (.vfmin h ty d a b) := by
  refine roundTrip_of _ _ rfl fun w => ?_
  simp [decodeVectorFp, encV, encV1, Raw.vf1, Raw.vf2, Raw.vf3, Raw.withAcc, Raw.accum, Raw.base, decodeFields, need, Raw.unused, Raw.ty, Raw.sub, Raw.rm, Raw.sat, Raw.modx, Raw.hdr, Raw.imma, Raw.len64, Raw.len96, Raw.len128]
theorem RoundTrip.vfmax (h : Hdr) (ty : Ty) (d : WReg) (a : WReg) (b : WReg) : RoundTrip.Statement (.vfmax h ty d a b) := by
  refine roundTrip_of _ _ rfl fun w => ?_
  simp [decodeVectorFp, encV, encV1, Raw.vf1, Raw.vf2, Raw.vf3, Raw.withAcc, Raw.accum, Raw.base, decodeFields, need, Raw.unused, Raw.ty, Raw.sub, Raw.rm, Raw.sat, Raw.modx, Raw.hdr, Raw.imma, Raw.len64, Raw.len96, Raw.len128]
theorem RoundTrip.vfsgn (h : Hdr) (op : SgnOp) (ty : Ty) (d : WReg) (a : WReg) (b : WReg) : RoundTrip.Statement (.vfsgn h op ty d a b) := by
  refine roundTrip_of _ _ rfl fun w => ?_
  cases op <;> simp_all [decodeVectorFp, encV, encV1, Raw.vf1, Raw.vf2, Raw.vf3, Raw.withAcc, Raw.accum, Raw.base, decodeFields, need, Raw.unused, Raw.ty, Raw.sub, Raw.rm, Raw.sat, Raw.modx, Raw.hdr, Raw.imma, Raw.len64, Raw.len96, Raw.len128, Instr.wf]
theorem RoundTrip.vfcmp (h : Hdr) (rel : FCmp) (ty : Ty) (d : MReg) (a : WReg) (b : WReg) : RoundTrip.Statement (.vfcmp h rel ty d a b) := by
  refine roundTrip_of _ _ rfl fun w => ?_
  simp [decodeVectorFp, encV, encV1, Raw.vf1, Raw.vf2, Raw.vf3, Raw.withAcc, Raw.accum, Raw.base, decodeFields, need, Raw.unused, Raw.ty, Raw.sub, Raw.rm, Raw.sat, Raw.modx, Raw.hdr, Raw.imma, Raw.len64, Raw.len96, Raw.len128]
theorem RoundTrip.vfcvt (h : Hdr) (src : Ty) (dst : Ty) (part : BitVec 4) (rm : Rm) (sat : Bool) (d : WReg) (a : WReg) : RoundTrip.Statement (.vfcvt h src dst part rm sat d a) := by
  refine roundTrip_of _ _ rfl fun w => ?_
  cases sat <;> simp [decodeVectorFp, encV, encV1, Raw.vf1, Raw.vf2, Raw.vf3, Raw.withAcc, Raw.accum, Raw.base, decodeFields, need, Raw.unused, Raw.ty, Raw.sub, Raw.rm, Raw.sat, Raw.modx, Raw.hdr, Raw.imma, Raw.len64, Raw.len96, Raw.len128]
theorem RoundTrip.vfdiv (h : Hdr) (ty : Ty) (rm : Rm) (sat : Bool) (d : WReg) (a : WReg) (b : WReg) : RoundTrip.Statement (.vfdiv h ty rm sat d a b) := by
  refine roundTrip_of _ _ rfl fun w => ?_
  cases sat <;> simp [decodeVectorFp, encV, encV1, Raw.vf1, Raw.vf2, Raw.vf3, Raw.withAcc, Raw.accum, Raw.base, decodeFields, need, Raw.unused, Raw.ty, Raw.sub, Raw.rm, Raw.sat, Raw.modx, Raw.hdr, Raw.imma, Raw.len64, Raw.len96, Raw.len128]
theorem RoundTrip.vfsqrt (h : Hdr) (ty : Ty) (rm : Rm) (sat : Bool) (d : WReg) (a : WReg) : RoundTrip.Statement (.vfsqrt h ty rm sat d a) := by
  refine roundTrip_of _ _ rfl fun w => ?_
  cases sat <;> simp [decodeVectorFp, encV, encV1, Raw.vf1, Raw.vf2, Raw.vf3, Raw.withAcc, Raw.accum, Raw.base, decodeFields, need, Raw.unused, Raw.ty, Raw.sub, Raw.rm, Raw.sat, Raw.modx, Raw.hdr, Raw.imma, Raw.len64, Raw.len96, Raw.len128]
theorem RoundTrip.vfrcp (h : Hdr) (ty : Ty) (rm : Rm) (sat : Bool) (d : WReg) (a : WReg) : RoundTrip.Statement (.vfrcp h ty rm sat d a) := by
  refine roundTrip_of _ _ rfl fun w => ?_
  cases sat <;> simp [decodeVectorFp, encV, encV1, Raw.vf1, Raw.vf2, Raw.vf3, Raw.withAcc, Raw.accum, Raw.base, decodeFields, need, Raw.unused, Raw.ty, Raw.sub, Raw.rm, Raw.sat, Raw.modx, Raw.hdr, Raw.imma, Raw.len64, Raw.len96, Raw.len128]
theorem RoundTrip.vfrsq (h : Hdr) (ty : Ty) (rm : Rm) (sat : Bool) (d : WReg) (a : WReg) : RoundTrip.Statement (.vfrsq h ty rm sat d a) := by
  refine roundTrip_of _ _ rfl fun w => ?_
  cases sat <;> simp [decodeVectorFp, encV, encV1, Raw.vf1, Raw.vf2, Raw.vf3, Raw.withAcc, Raw.accum, Raw.base, decodeFields, need, Raw.unused, Raw.ty, Raw.sub, Raw.rm, Raw.sat, Raw.modx, Raw.hdr, Raw.imma, Raw.len64, Raw.len96, Raw.len128]
theorem RoundTrip.vfexp2 (h : Hdr) (ty : Ty) (rm : Rm) (sat : Bool) (d : WReg) (a : WReg) : RoundTrip.Statement (.vfexp2 h ty rm sat d a) := by
  refine roundTrip_of _ _ rfl fun w => ?_
  cases sat <;> simp [decodeVectorFp, encV, encV1, Raw.vf1, Raw.vf2, Raw.vf3, Raw.withAcc, Raw.accum, Raw.base, decodeFields, need, Raw.unused, Raw.ty, Raw.sub, Raw.rm, Raw.sat, Raw.modx, Raw.hdr, Raw.imma, Raw.len64, Raw.len96, Raw.len128]
theorem RoundTrip.vflog2 (h : Hdr) (ty : Ty) (rm : Rm) (sat : Bool) (d : WReg) (a : WReg) : RoundTrip.Statement (.vflog2 h ty rm sat d a) := by
  refine roundTrip_of _ _ rfl fun w => ?_
  cases sat <;> simp [decodeVectorFp, encV, encV1, Raw.vf1, Raw.vf2, Raw.vf3, Raw.withAcc, Raw.accum, Raw.base, decodeFields, need, Raw.unused, Raw.ty, Raw.sub, Raw.rm, Raw.sat, Raw.modx, Raw.hdr, Raw.imma, Raw.len64, Raw.len96, Raw.len128]
theorem RoundTrip.vfred (h : Hdr) (op : FRedOp) (ty : Ty) (rm : Rm) (d : WReg) (a : WReg) (c : Option WReg) : RoundTrip.Statement (.vfred h op ty rm d a c) := by
  refine roundTrip_of _ _ rfl fun w => ?_
  cases c <;> simp [decodeVectorFp, encV, encV1, Raw.vf1, Raw.vf2, Raw.vf3, Raw.withAcc, Raw.accum, Raw.base, decodeFields, need, Raw.unused, Raw.ty, Raw.sub, Raw.rm, Raw.sat, Raw.modx, Raw.hdr, Raw.imma, Raw.len64, Raw.len96, Raw.len128]
theorem RoundTrip.vfmerge (h : Hdr) (ty : Ty) (d : WReg) (a : WReg) (b : WReg) : RoundTrip.Statement (.vfmerge h ty d a b) := by
  refine roundTrip_of _ _ rfl fun w => ?_
  simp [decodeVectorFp, encV, encV1, Raw.vf1, Raw.vf2, Raw.vf3, Raw.withAcc, Raw.accum, Raw.base, decodeFields, need, Raw.unused, Raw.ty, Raw.sub, Raw.rm, Raw.sat, Raw.modx, Raw.hdr, Raw.imma, Raw.len64, Raw.len96, Raw.len128]
theorem RoundTrip.vfscale (h : Hdr) (e8m0 : Bool) (ty : Ty) (rm : Rm) (sat : Bool) (d : WReg) (a : WReg) (b : WReg) : RoundTrip.Statement (.vfscale h e8m0 ty rm sat d a b) := by
  refine roundTrip_of _ _ rfl fun w => ?_
  cases e8m0 <;> cases sat <;> simp [decodeVectorFp, encV, encV1, Raw.vf1, Raw.vf2, Raw.vf3, Raw.withAcc, Raw.accum, Raw.base, decodeFields, need, Raw.unused, Raw.ty, Raw.sub, Raw.rm, Raw.sat, Raw.modx, Raw.hdr, Raw.imma, Raw.len64, Raw.len96, Raw.len128]
theorem RoundTrip.vfrint (h : Hdr) (ty : Ty) (rm : Rm) (d : WReg) (a : WReg) : RoundTrip.Statement (.vfrint h ty rm d a) := by
  refine roundTrip_of _ _ rfl fun w => ?_
  simp [decodeVectorFp, encV, encV1, Raw.vf1, Raw.vf2, Raw.vf3, Raw.withAcc, Raw.accum, Raw.base, decodeFields, need, Raw.unused, Raw.ty, Raw.sub, Raw.rm, Raw.sat, Raw.modx, Raw.hdr, Raw.imma, Raw.len64, Raw.len96, Raw.len128]
theorem RoundTrip.vadd (h : Hdr) (ty : Ty) (sat : Bool) (d : WReg) (a : WReg) (b : WReg) : RoundTrip.Statement (.vadd h ty sat d a b) := by
  refine roundTrip_of _ _ rfl fun w => ?_
  cases sat <;> simp [decodeVectorInt, encV, encV1, Raw.vi2, Raw.withAcc, Raw.accum, Imm.fields, Raw.base, decodeFields, need, Raw.unused, Raw.ty, Raw.sub, Raw.rm, Raw.sat, Raw.modx, Raw.hdr, Raw.imma, Raw.len64, Raw.len96, Raw.len128]
theorem RoundTrip.vsub (h : Hdr) (ty : Ty) (sat : Bool) (d : WReg) (a : WReg) (b : WReg) : RoundTrip.Statement (.vsub h ty sat d a b) := by
  refine roundTrip_of _ _ rfl fun w => ?_
  cases sat <;> simp [decodeVectorInt, encV, encV1, Raw.vi2, Raw.withAcc, Raw.accum, Imm.fields, Raw.base, decodeFields, need, Raw.unused, Raw.ty, Raw.sub, Raw.rm, Raw.sat, Raw.modx, Raw.hdr, Raw.imma, Raw.len64, Raw.len96, Raw.len128]
theorem RoundTrip.vmul (h : Hdr) (hi : Bool) (ty : Ty) (sat : Bool) (d : WReg) (a : WReg) (b : WReg) : RoundTrip.Statement (.vmul h hi ty sat d a b) := by
  refine roundTrip_of _ _ rfl fun w => ?_
  cases hi <;> cases sat <;> simp [decodeVectorInt, encV, encV1, Raw.vi2, Raw.withAcc, Raw.accum, Imm.fields, Raw.base, decodeFields, need, Raw.unused, Raw.ty, Raw.sub, Raw.rm, Raw.sat, Raw.modx, Raw.hdr, Raw.imma, Raw.len64, Raw.len96, Raw.len128]
theorem RoundTrip.vmm (h : Hdr) (max : Bool) (ty : Ty) (d : WReg) (a : WReg) (b : WReg) : RoundTrip.Statement (.vmm h max ty d a b) := by
  refine roundTrip_of _ _ rfl fun w => ?_
  cases max <;> simp [decodeVectorInt, encV, encV1, Raw.vi2, Raw.withAcc, Raw.accum, Imm.fields, Raw.base, decodeFields, need, Raw.unused, Raw.ty, Raw.sub, Raw.rm, Raw.sat, Raw.modx, Raw.hdr, Raw.imma, Raw.len64, Raw.len96, Raw.len128]
theorem RoundTrip.vlog (h : Hdr) (op : LogOp) (ty : Ty) (d : WReg) (a : WReg) (b : WReg) : RoundTrip.Statement (.vlog h op ty d a b) := by
  refine roundTrip_of _ _ rfl fun w => ?_
  cases op <;> simp_all [decodeVectorInt, encV, encV1, Raw.vi2, Raw.withAcc, Raw.accum, Imm.fields, Raw.base, decodeFields, need, Raw.unused, Raw.ty, Raw.sub, Raw.rm, Raw.sat, Raw.modx, Raw.hdr, Raw.imma, Raw.len64, Raw.len96, Raw.len128, Instr.wf]
theorem RoundTrip.vsh (h : Hdr) (op : ShOp) (ty : Ty) (d : WReg) (a : WReg) (b : WReg) : RoundTrip.Statement (.vsh h op ty d a b) := by
  refine roundTrip_of _ _ rfl fun w => ?_
  simp [decodeVectorInt, encV, encV1, Raw.vi2, Raw.withAcc, Raw.accum, Imm.fields, Raw.base, decodeFields, need, Raw.unused, Raw.ty, Raw.sub, Raw.rm, Raw.sat, Raw.modx, Raw.hdr, Raw.imma, Raw.len64, Raw.len96, Raw.len128]
theorem RoundTrip.vcmp (h : Hdr) (rel : Cmp) (ty : Ty) (d : MReg) (a : WReg) (b : WReg) : RoundTrip.Statement (.vcmp h rel ty d a b) := by
  refine roundTrip_of _ _ rfl fun w => ?_
  simp [decodeVectorInt, encV, encV1, Raw.vi2, Raw.withAcc, Raw.accum, Imm.fields, Raw.base, decodeFields, need, Raw.unused, Raw.ty, Raw.sub, Raw.rm, Raw.sat, Raw.modx, Raw.hdr, Raw.imma, Raw.len64, Raw.len96, Raw.len128]
theorem RoundTrip.vcvt (h : Hdr) (src : Ty) (dst : Ty) (part : BitVec 4) (d : WReg) (a : WReg) : RoundTrip.Statement (.vcvt h src dst part d a) := by
  refine roundTrip_of _ _ rfl fun w => ?_
  simp [decodeVectorInt, encV, encV1, Raw.vi2, Raw.withAcc, Raw.accum, Imm.fields, Raw.base, decodeFields, need, Raw.unused, Raw.ty, Raw.sub, Raw.rm, Raw.sat, Raw.modx, Raw.hdr, Raw.imma, Raw.len64, Raw.len96, Raw.len128]
theorem RoundTrip.vbcastG (h : Hdr) (ty : Ty) (d : WReg) (a : GReg) : RoundTrip.Statement (.vbcastG h ty d a) := by
  refine roundTrip_of _ _ rfl fun w => ?_
  simp [decodeVectorInt, encV, encV1, Raw.vi2, Raw.withAcc, Raw.accum, Imm.fields, Raw.base, decodeFields, need, Raw.unused, Raw.ty, Raw.sub, Raw.rm, Raw.sat, Raw.modx, Raw.hdr, Raw.imma, Raw.len64, Raw.len96, Raw.len128]
theorem RoundTrip.vbcastImm (h : Hdr) (ty : Ty) (d : WReg) (v : Imm) : RoundTrip.Statement (.vbcastImm h ty d v) := by
  refine roundTrip_of _ _ rfl fun w => ?_
  cases v <;> simp [decodeVectorInt, encV, encV1, Raw.vi2, Raw.withAcc, Raw.accum, Imm.fields, Raw.base, decodeFields, need, Raw.unused, Raw.ty, Raw.sub, Raw.rm, Raw.sat, Raw.modx, Raw.hdr, Raw.imma, Raw.len64, Raw.len96, Raw.len128]
theorem RoundTrip.vbcastLane (h : Hdr) (ty : Ty) (d : WReg) (a : WReg) (b : GReg) : RoundTrip.Statement (.vbcastLane h ty d a b) := by
  refine roundTrip_of _ _ rfl fun w => ?_
  simp [decodeVectorInt, encV, encV1, Raw.vi2, Raw.withAcc, Raw.accum, Imm.fields, Raw.base, decodeFields, need, Raw.unused, Raw.ty, Raw.sub, Raw.rm, Raw.sat, Raw.modx, Raw.hdr, Raw.imma, Raw.len64, Raw.len96, Raw.len128]
theorem RoundTrip.vshuf (h : Hdr) (ty : Ty) (d : WReg) (a : WReg) (b : WReg) : RoundTrip.Statement (.vshuf h ty d a b) := by
  refine roundTrip_of _ _ rfl fun w => ?_
  simp [decodeVectorInt, encV, encV1, Raw.vi2, Raw.withAcc, Raw.accum, Imm.fields, Raw.base, decodeFields, need, Raw.unused, Raw.ty, Raw.sub, Raw.rm, Raw.sat, Raw.modx, Raw.hdr, Raw.imma, Raw.len64, Raw.len96, Raw.len128]
theorem RoundTrip.vslide (h : Hdr) (op : SlideOp) (ty : Ty) (d : WReg) (a : WReg) (b : GReg) : RoundTrip.Statement (.vslide h op ty d a b) := by
  refine roundTrip_of _ _ rfl fun w => ?_
  simp [decodeVectorInt, encV, encV1, Raw.vi2, Raw.withAcc, Raw.accum, Imm.fields, Raw.base, decodeFields, need, Raw.unused, Raw.ty, Raw.sub, Raw.rm, Raw.sat, Raw.modx, Raw.hdr, Raw.imma, Raw.len64, Raw.len96, Raw.len128]
theorem RoundTrip.vsel (h : Hdr) (ty : Ty) (d : WReg) (a : WReg) (b : WReg) (c : MReg) : RoundTrip.Statement (.vsel h ty d a b c) := by
  refine roundTrip_of _ _ rfl fun w => ?_
  simp [decodeVectorInt, encV, encV1, Raw.vi2, Raw.withAcc, Raw.accum, Imm.fields, Raw.base, decodeFields, need, Raw.unused, Raw.ty, Raw.sub, Raw.rm, Raw.sat, Raw.modx, Raw.hdr, Raw.imma, Raw.len64, Raw.len96, Raw.len128]
theorem RoundTrip.vmovgG (h : Hdr) (ty : Ty) (d : GReg) (a : WReg) (b : GReg) : RoundTrip.Statement (.vmovgG h ty d a b) := by
  refine roundTrip_of _ _ rfl fun w => ?_
  simp [decodeVectorInt, encV, encV1, Raw.vi2, Raw.withAcc, Raw.accum, Imm.fields, Raw.base, decodeFields, need, Raw.unused, Raw.ty, Raw.sub, Raw.rm, Raw.sat, Raw.modx, Raw.hdr, Raw.imma, Raw.len64, Raw.len96, Raw.len128]
theorem RoundTrip.vmovgW (h : Hdr) (ty : Ty) (d : WReg) (a : GReg) (b : GReg) : RoundTrip.Statement (.vmovgW h ty d a b) := by
  refine roundTrip_of _ _ rfl fun w => ?_
  simp [decodeVectorInt, encV, encV1, Raw.vi2, Raw.withAcc, Raw.accum, Imm.fields, Raw.base, decodeFields, need, Raw.unused, Raw.ty, Raw.sub, Raw.rm, Raw.sat, Raw.modx, Raw.hdr, Raw.imma, Raw.len64, Raw.len96, Raw.len128]
theorem RoundTrip.vred (h : Hdr) (op : RedOp) (ty : Ty) (sat : Bool) (d : WReg) (a : WReg) (c : Option WReg) : RoundTrip.Statement (.vred h op ty sat d a c) := by
  refine roundTrip_of _ _ rfl fun w => ?_
  cases sat <;> cases c <;> simp [decodeVectorInt, encV, encV1, Raw.vi2, Raw.withAcc, Raw.accum, Imm.fields, Raw.base, decodeFields, need, Raw.unused, Raw.ty, Raw.sub, Raw.rm, Raw.sat, Raw.modx, Raw.hdr, Raw.imma, Raw.len64, Raw.len96, Raw.len128]
theorem RoundTrip.vscan (h : Hdr) (excl : Bool) (ty : Ty) (sat : Bool) (d : WReg) (a : WReg) : RoundTrip.Statement (.vscan h excl ty sat d a) := by
  refine roundTrip_of _ _ rfl fun w => ?_
  cases excl <;> cases sat <;> simp [decodeVectorInt, encV, encV1, Raw.vi2, Raw.withAcc, Raw.accum, Imm.fields, Raw.base, decodeFields, need, Raw.unused, Raw.ty, Raw.sub, Raw.rm, Raw.sat, Raw.modx, Raw.hdr, Raw.imma, Raw.len64, Raw.len96, Raw.len128]
theorem RoundTrip.vcomp (h : Hdr) (ty : Ty) (d : WReg) (a : WReg) : RoundTrip.Statement (.vcomp h ty d a) := by
  refine roundTrip_of _ _ rfl fun w => ?_
  simp [decodeVectorInt, encV, encV1, Raw.vi2, Raw.withAcc, Raw.accum, Imm.fields, Raw.base, decodeFields, need, Raw.unused, Raw.ty, Raw.sub, Raw.rm, Raw.sat, Raw.modx, Raw.hdr, Raw.imma, Raw.len64, Raw.len96, Raw.len128]
theorem RoundTrip.ld (h : Hdr) (ty : Ty) (mo : MemOrd) (blk : Blk) (d : GW) (addr : Addr) : RoundTrip.Statement (.ld h ty mo blk d addr) := by
  refine roundTrip_of _ _ rfl fun w => ?_
  rcases addr with ⟨addr, _ | _⟩ <;> simp [decodeMemory, encX, encAtom, encCtr, Raw.withAddr, Raw.addr, Raw.memOrd, Raw.atom, Raw.atomRed, Raw.ctrScope, Raw.scope, Raw.ord, Raw.sc, Raw.msub, Raw.acq, Raw.plainX, AtomOp.code, AtomOp.ofCode, Raw.base, decodeFields, need, Raw.unused, Raw.ty, Raw.sub, Raw.rm, Raw.sat, Raw.modx, Raw.hdr, Raw.imma, Raw.len64, Raw.len96, Raw.len128]
theorem RoundTrip.st (h : Hdr) (ty : Ty) (mo : MemOrd) (blk : Blk) (addr : Addr) (b : GW) : RoundTrip.Statement (.st h ty mo blk addr b) := by
  refine roundTrip_of _ _ rfl fun w => ?_
  rcases addr with ⟨addr, _ | _⟩ <;> simp [decodeMemory, encX, encAtom, encCtr, Raw.withAddr, Raw.addr, Raw.memOrd, Raw.atom, Raw.atomRed, Raw.ctrScope, Raw.scope, Raw.ord, Raw.sc, Raw.msub, Raw.acq, Raw.plainX, AtomOp.code, AtomOp.ofCode, Raw.base, decodeFields, need, Raw.unused, Raw.ty, Raw.sub, Raw.rm, Raw.sat, Raw.modx, Raw.hdr, Raw.imma, Raw.len64, Raw.len96, Raw.len128]
theorem RoundTrip.lds (h : Hdr) (ty : Ty) (scope : Scope) (acq : Bool) (sat : Bool) (view : View) (d : GW) (addr : Addr) : RoundTrip.Statement (.lds h ty scope acq sat view d addr) := by
  refine roundTrip_of _ _ rfl fun w => ?_
  cases acq <;> cases sat <;> rcases addr with ⟨addr, _ | _⟩ <;> simp [decodeMemory, encX, encAtom, encCtr, Raw.withAddr, Raw.addr, Raw.memOrd, Raw.atom, Raw.atomRed, Raw.ctrScope, Raw.scope, Raw.ord, Raw.sc, Raw.msub, Raw.acq, Raw.plainX, AtomOp.code, AtomOp.ofCode, Raw.base, decodeFields, need, Raw.unused, Raw.ty, Raw.sub, Raw.rm, Raw.sat, Raw.modx, Raw.hdr, Raw.imma, Raw.len64, Raw.len96, Raw.len128]
theorem RoundTrip.gather (h : Hdr) (ty : Ty) (mo : MemOrd) (d : WReg) (addr : Addr) (b : WReg) : RoundTrip.Statement (.gather h ty mo d addr b) := by
  refine roundTrip_of _ _ rfl fun w => ?_
  rcases addr with ⟨addr, _ | _⟩ <;> simp [decodeMemory, encX, encAtom, encCtr, Raw.withAddr, Raw.addr, Raw.memOrd, Raw.atom, Raw.atomRed, Raw.ctrScope, Raw.scope, Raw.ord, Raw.sc, Raw.msub, Raw.acq, Raw.plainX, AtomOp.code, AtomOp.ofCode, Raw.base, decodeFields, need, Raw.unused, Raw.ty, Raw.sub, Raw.rm, Raw.sat, Raw.modx, Raw.hdr, Raw.imma, Raw.len64, Raw.len96, Raw.len128]
theorem RoundTrip.scatter (h : Hdr) (ty : Ty) (mo : MemOrd) (addr : Addr) (b : WReg) (c : WReg) : RoundTrip.Statement (.scatter h ty mo addr b c) := by
  refine roundTrip_of _ _ rfl fun w => ?_
  rcases addr with ⟨addr, _ | _⟩ <;> simp [decodeMemory, encX, encAtom, encCtr, Raw.withAddr, Raw.addr, Raw.memOrd, Raw.atom, Raw.atomRed, Raw.ctrScope, Raw.scope, Raw.ord, Raw.sc, Raw.msub, Raw.acq, Raw.plainX, AtomOp.code, AtomOp.ofCode, Raw.base, decodeFields, need, Raw.unused, Raw.ty, Raw.sub, Raw.rm, Raw.sat, Raw.modx, Raw.hdr, Raw.imma, Raw.len64, Raw.len96, Raw.len128]
theorem RoundTrip.pref (h : Hdr) (l1 : Bool) (addr : Addr) : RoundTrip.Statement (.pref h l1 addr) := by
  refine roundTrip_of _ _ rfl fun w => ?_
  cases l1 <;> rcases addr with ⟨addr, _ | _⟩ <;> simp [decodeMemory, encX, encAtom, encCtr, Raw.withAddr, Raw.addr, Raw.memOrd, Raw.atom, Raw.atomRed, Raw.ctrScope, Raw.scope, Raw.ord, Raw.sc, Raw.msub, Raw.acq, Raw.plainX, AtomOp.code, AtomOp.ofCode, Raw.base, decodeFields, need, Raw.unused, Raw.ty, Raw.sub, Raw.rm, Raw.sat, Raw.modx, Raw.hdr, Raw.imma, Raw.len64, Raw.len96, Raw.len128]
theorem RoundTrip.sbind (h : Hdr) (d : BitVec 2) (addr : Addr) : RoundTrip.Statement (.sbind h d addr) := by
  refine roundTrip_of _ _ rfl fun w => ?_
  rcases addr with ⟨addr, _ | _⟩ <;> simp [decodeMemory, encX, encAtom, encCtr, Raw.withAddr, Raw.addr, Raw.memOrd, Raw.atom, Raw.atomRed, Raw.ctrScope, Raw.scope, Raw.ord, Raw.sc, Raw.msub, Raw.acq, Raw.plainX, AtomOp.code, AtomOp.ofCode, Raw.base, decodeFields, need, Raw.unused, Raw.ty, Raw.sub, Raw.rm, Raw.sat, Raw.modx, Raw.hdr, Raw.imma, Raw.len64, Raw.len96, Raw.len128]
theorem RoundTrip.sbindUnbind (h : Hdr) (d : BitVec 2) : RoundTrip.Statement (.sbindUnbind h d) := by
  refine roundTrip_of _ _ rfl fun w => ?_
  simp [decodeMemory, encX, encAtom, encCtr, Raw.withAddr, Raw.addr, Raw.memOrd, Raw.atom, Raw.atomRed, Raw.ctrScope, Raw.scope, Raw.ord, Raw.sc, Raw.msub, Raw.acq, Raw.plainX, AtomOp.code, AtomOp.ofCode, Raw.base, decodeFields, need, Raw.unused, Raw.ty, Raw.sub, Raw.rm, Raw.sat, Raw.modx, Raw.hdr, Raw.imma, Raw.len64, Raw.len96, Raw.len128]
theorem RoundTrip.atomAdd (h : Hdr) (ty : Ty) (mo : MemOrd) (d : GReg) (addr : Addr) (b : GReg) : RoundTrip.Statement (.atomAdd h ty mo d addr b) := by
  refine roundTrip_of _ _ rfl fun w => ?_
  rcases addr with ⟨addr, _ | _⟩ <;> simp [decodeMemory, encX, encAtom, encCtr, Raw.withAddr, Raw.addr, Raw.memOrd, Raw.atom, Raw.atomRed, Raw.ctrScope, Raw.scope, Raw.ord, Raw.sc, Raw.msub, Raw.acq, Raw.plainX, AtomOp.code, AtomOp.ofCode, Raw.base, decodeFields, need, Raw.unused, Raw.ty, Raw.sub, Raw.rm, Raw.sat, Raw.modx, Raw.hdr, Raw.imma, Raw.len64, Raw.len96, Raw.len128]
theorem RoundTrip.atomMin (h : Hdr) (ty : Ty) (mo : MemOrd) (d : GReg) (addr : Addr) (b : GReg) : RoundTrip.Statement (.atomMin h ty mo d addr b) := by
  refine roundTrip_of _ _ rfl fun w => ?_
  rcases addr with ⟨addr, _ | _⟩ <;> simp [decodeMemory, encX, encAtom, encCtr, Raw.withAddr, Raw.addr, Raw.memOrd, Raw.atom, Raw.atomRed, Raw.ctrScope, Raw.scope, Raw.ord, Raw.sc, Raw.msub, Raw.acq, Raw.plainX, AtomOp.code, AtomOp.ofCode, Raw.base, decodeFields, need, Raw.unused, Raw.ty, Raw.sub, Raw.rm, Raw.sat, Raw.modx, Raw.hdr, Raw.imma, Raw.len64, Raw.len96, Raw.len128]
theorem RoundTrip.atomMax (h : Hdr) (ty : Ty) (mo : MemOrd) (d : GReg) (addr : Addr) (b : GReg) : RoundTrip.Statement (.atomMax h ty mo d addr b) := by
  refine roundTrip_of _ _ rfl fun w => ?_
  rcases addr with ⟨addr, _ | _⟩ <;> simp [decodeMemory, encX, encAtom, encCtr, Raw.withAddr, Raw.addr, Raw.memOrd, Raw.atom, Raw.atomRed, Raw.ctrScope, Raw.scope, Raw.ord, Raw.sc, Raw.msub, Raw.acq, Raw.plainX, AtomOp.code, AtomOp.ofCode, Raw.base, decodeFields, need, Raw.unused, Raw.ty, Raw.sub, Raw.rm, Raw.sat, Raw.modx, Raw.hdr, Raw.imma, Raw.len64, Raw.len96, Raw.len128]
theorem RoundTrip.atomAnd (h : Hdr) (ty : Ty) (mo : MemOrd) (d : GReg) (addr : Addr) (b : GReg) : RoundTrip.Statement (.atomAnd h ty mo d addr b) := by
  refine roundTrip_of _ _ rfl fun w => ?_
  rcases addr with ⟨addr, _ | _⟩ <;> simp [decodeMemory, encX, encAtom, encCtr, Raw.withAddr, Raw.addr, Raw.memOrd, Raw.atom, Raw.atomRed, Raw.ctrScope, Raw.scope, Raw.ord, Raw.sc, Raw.msub, Raw.acq, Raw.plainX, AtomOp.code, AtomOp.ofCode, Raw.base, decodeFields, need, Raw.unused, Raw.ty, Raw.sub, Raw.rm, Raw.sat, Raw.modx, Raw.hdr, Raw.imma, Raw.len64, Raw.len96, Raw.len128]
theorem RoundTrip.atomOr (h : Hdr) (ty : Ty) (mo : MemOrd) (d : GReg) (addr : Addr) (b : GReg) : RoundTrip.Statement (.atomOr h ty mo d addr b) := by
  refine roundTrip_of _ _ rfl fun w => ?_
  rcases addr with ⟨addr, _ | _⟩ <;> simp [decodeMemory, encX, encAtom, encCtr, Raw.withAddr, Raw.addr, Raw.memOrd, Raw.atom, Raw.atomRed, Raw.ctrScope, Raw.scope, Raw.ord, Raw.sc, Raw.msub, Raw.acq, Raw.plainX, AtomOp.code, AtomOp.ofCode, Raw.base, decodeFields, need, Raw.unused, Raw.ty, Raw.sub, Raw.rm, Raw.sat, Raw.modx, Raw.hdr, Raw.imma, Raw.len64, Raw.len96, Raw.len128]
theorem RoundTrip.atomXor (h : Hdr) (ty : Ty) (mo : MemOrd) (d : GReg) (addr : Addr) (b : GReg) : RoundTrip.Statement (.atomXor h ty mo d addr b) := by
  refine roundTrip_of _ _ rfl fun w => ?_
  rcases addr with ⟨addr, _ | _⟩ <;> simp [decodeMemory, encX, encAtom, encCtr, Raw.withAddr, Raw.addr, Raw.memOrd, Raw.atom, Raw.atomRed, Raw.ctrScope, Raw.scope, Raw.ord, Raw.sc, Raw.msub, Raw.acq, Raw.plainX, AtomOp.code, AtomOp.ofCode, Raw.base, decodeFields, need, Raw.unused, Raw.ty, Raw.sub, Raw.rm, Raw.sat, Raw.modx, Raw.hdr, Raw.imma, Raw.len64, Raw.len96, Raw.len128]
theorem RoundTrip.atomSwap (h : Hdr) (ty : Ty) (mo : MemOrd) (d : GReg) (addr : Addr) (b : GReg) : RoundTrip.Statement (.atomSwap h ty mo d addr b) := by
  refine roundTrip_of _ _ rfl fun w => ?_
  rcases addr with ⟨addr, _ | _⟩ <;> simp [decodeMemory, encX, encAtom, encCtr, Raw.withAddr, Raw.addr, Raw.memOrd, Raw.atom, Raw.atomRed, Raw.ctrScope, Raw.scope, Raw.ord, Raw.sc, Raw.msub, Raw.acq, Raw.plainX, AtomOp.code, AtomOp.ofCode, Raw.base, decodeFields, need, Raw.unused, Raw.ty, Raw.sub, Raw.rm, Raw.sat, Raw.modx, Raw.hdr, Raw.imma, Raw.len64, Raw.len96, Raw.len128]
theorem RoundTrip.atomCas (h : Hdr) (ty : Ty) (mo : MemOrd) (d : GReg) (addr : Addr) (b : GReg) (c : GReg) : RoundTrip.Statement (.atomCas h ty mo d addr b c) := by
  refine roundTrip_of _ _ rfl fun w => ?_
  rcases addr with ⟨addr, _ | _⟩ <;> simp [decodeMemory, encX, encAtom, encCtr, Raw.withAddr, Raw.addr, Raw.memOrd, Raw.atom, Raw.atomRed, Raw.ctrScope, Raw.scope, Raw.ord, Raw.sc, Raw.msub, Raw.acq, Raw.plainX, AtomOp.code, AtomOp.ofCode, Raw.base, decodeFields, need, Raw.unused, Raw.ty, Raw.sub, Raw.rm, Raw.sat, Raw.modx, Raw.hdr, Raw.imma, Raw.len64, Raw.len96, Raw.len128]
theorem RoundTrip.atomRed (h : Hdr) (op : AtomOp) (ty : Ty) (mo : MemOrd) (addr : Addr) (b : GReg) (c : GReg) : RoundTrip.Statement (.atomRed h op ty mo addr b c) := by
  refine roundTrip_of _ _ rfl fun w => ?_
  cases op <;> rcases addr with ⟨addr, _ | _⟩ <;> simp_all [decodeMemory, encX, encAtom, encCtr, Raw.withAddr, Raw.addr, Raw.memOrd, Raw.atom, Raw.atomRed, Raw.ctrScope, Raw.scope, Raw.ord, Raw.sc, Raw.msub, Raw.acq, Raw.plainX, AtomOp.code, AtomOp.ofCode, Raw.base, decodeFields, need, Raw.unused, Raw.ty, Raw.sub, Raw.rm, Raw.sat, Raw.modx, Raw.hdr, Raw.imma, Raw.len64, Raw.len96, Raw.len128, Instr.wf]
theorem RoundTrip.ctradd (h : Hdr) (scope : Scope) (addr : Addr) (b : GReg) : RoundTrip.Statement (.ctradd h scope addr b) := by
  refine roundTrip_of _ _ rfl fun w => ?_
  rcases addr with ⟨addr, _ | _⟩ <;> simp [decodeMemory, encX, encAtom, encCtr, Raw.withAddr, Raw.addr, Raw.memOrd, Raw.atom, Raw.atomRed, Raw.ctrScope, Raw.scope, Raw.ord, Raw.sc, Raw.msub, Raw.acq, Raw.plainX, AtomOp.code, AtomOp.ofCode, Raw.base, decodeFields, need, Raw.unused, Raw.ty, Raw.sub, Raw.rm, Raw.sat, Raw.modx, Raw.hdr, Raw.imma, Raw.len64, Raw.len96, Raw.len128]
theorem RoundTrip.ctrread (h : Hdr) (scope : Scope) (d : GReg) (addr : Addr) : RoundTrip.Statement (.ctrread h scope d addr) := by
  refine roundTrip_of _ _ rfl fun w => ?_
  rcases addr with ⟨addr, _ | _⟩ <;> simp [decodeMemory, encX, encAtom, encCtr, Raw.withAddr, Raw.addr, Raw.memOrd, Raw.atom, Raw.atomRed, Raw.ctrScope, Raw.scope, Raw.ord, Raw.sc, Raw.msub, Raw.acq, Raw.plainX, AtomOp.code, AtomOp.ofCode, Raw.base, decodeFields, need, Raw.unused, Raw.ty, Raw.sub, Raw.rm, Raw.sat, Raw.modx, Raw.hdr, Raw.imma, Raw.len64, Raw.len96, Raw.len128]
theorem RoundTrip.ctrwait (h : Hdr) (scope : Scope) (d : GReg) (e : GReg) (addr : Addr) (b : GReg) (c : GReg) : RoundTrip.Statement (.ctrwait h scope d e addr b c) := by
  refine roundTrip_of _ _ rfl fun w => ?_
  rcases addr with ⟨addr, _ | _⟩ <;> simp [decodeMemory, encX, encAtom, encCtr, Raw.withAddr, Raw.addr, Raw.memOrd, Raw.atom, Raw.atomRed, Raw.ctrScope, Raw.scope, Raw.ord, Raw.sc, Raw.msub, Raw.acq, Raw.plainX, AtomOp.code, AtomOp.ofCode, Raw.base, decodeFields, need, Raw.unused, Raw.ty, Raw.sub, Raw.rm, Raw.sat, Raw.modx, Raw.hdr, Raw.imma, Raw.len64, Raw.len96, Raw.len128]
theorem RoundTrip.ctrarriveMax (h : Hdr) (ty : Ty) (scope : Scope) (d : GReg) (addr : Addr) (b : GReg) : RoundTrip.Statement (.ctrarriveMax h ty scope d addr b) := by
  refine roundTrip_of _ _ rfl fun w => ?_
  rcases addr with ⟨addr, _ | _⟩ <;> simp [decodeMemory, encX, encAtom, encCtr, Raw.withAddr, Raw.addr, Raw.memOrd, Raw.atom, Raw.atomRed, Raw.ctrScope, Raw.scope, Raw.ord, Raw.sc, Raw.msub, Raw.acq, Raw.plainX, AtomOp.code, AtomOp.ofCode, Raw.base, decodeFields, need, Raw.unused, Raw.ty, Raw.sub, Raw.rm, Raw.sat, Raw.modx, Raw.hdr, Raw.imma, Raw.len64, Raw.len96, Raw.len128]
theorem RoundTrip.ctrarriveSum (h : Hdr) (scope : Scope) (d : GReg) (addr : Addr) (b : GReg) : RoundTrip.Statement (.ctrarriveSum h scope d addr b) := by
  refine roundTrip_of _ _ rfl fun w => ?_
  rcases addr with ⟨addr, _ | _⟩ <;> simp [decodeMemory, encX, encAtom, encCtr, Raw.withAddr, Raw.addr, Raw.memOrd, Raw.atom, Raw.atomRed, Raw.ctrScope, Raw.scope, Raw.ord, Raw.sc, Raw.msub, Raw.acq, Raw.plainX, AtomOp.code, AtomOp.ofCode, Raw.base, decodeFields, need, Raw.unused, Raw.ty, Raw.sub, Raw.rm, Raw.sat, Raw.modx, Raw.hdr, Raw.imma, Raw.len64, Raw.len96, Raw.len128]
theorem RoundTrip.fence (h : Hdr) (sc : Bool) (scope : Scope) : RoundTrip.Statement (.fence h sc scope) := by
  refine roundTrip_of _ _ rfl fun w => ?_
  cases sc <;> simp [decodeMemory, encX, encAtom, encCtr, Raw.withAddr, Raw.addr, Raw.memOrd, Raw.atom, Raw.atomRed, Raw.ctrScope, Raw.scope, Raw.ord, Raw.sc, Raw.msub, Raw.acq, Raw.plainX, AtomOp.code, AtomOp.ofCode, Raw.base, decodeFields, need, Raw.unused, Raw.ty, Raw.sub, Raw.rm, Raw.sat, Raw.modx, Raw.hdr, Raw.imma, Raw.len64, Raw.len96, Raw.len128]
theorem RoundTrip.stashmap (h : Hdr) (upd : Bool) (a : GReg) (b : GReg) (c : Src32) : RoundTrip.Statement (.stashmap h upd a b c) := by
  refine roundTrip_of _ _ rfl fun w => ?_
  cases upd <;> cases c <;> simp [decodeTask, encX, encPorter, Raw.withImm, Raw.withAddr, Raw.addr, Raw.withA, Raw.withB, Raw.withC, Src32.fields, Raw.src32, Raw.plainX, Raw.porter, Raw.immb, Raw.base, decodeFields, need, Raw.unused, Raw.ty, Raw.sub, Raw.rm, Raw.sat, Raw.modx, Raw.hdr, Raw.imma, Raw.len64, Raw.len96, Raw.len128]
theorem RoundTrip.stashunmap (h : Hdr) (addr : Addr) : RoundTrip.Statement (.stashunmap h addr) := by
  refine roundTrip_of _ _ rfl fun w => ?_
  rcases addr with ⟨addr, _ | _⟩ <;> simp [decodeTask, encX, encPorter, Raw.withImm, Raw.withAddr, Raw.addr, Raw.withA, Raw.withB, Raw.withC, Src32.fields, Raw.src32, Raw.plainX, Raw.porter, Raw.immb, Raw.base, decodeFields, need, Raw.unused, Raw.ty, Raw.sub, Raw.rm, Raw.sat, Raw.modx, Raw.hdr, Raw.imma, Raw.len64, Raw.len96, Raw.len128]
theorem RoundTrip.stashflush (h : Hdr) (addr : Addr) (b : GReg) : RoundTrip.Statement (.stashflush h addr b) := by
  refine roundTrip_of _ _ rfl fun w => ?_
  rcases addr with ⟨addr, _ | _⟩ <;> simp [decodeTask, encX, encPorter, Raw.withImm, Raw.withAddr, Raw.addr, Raw.withA, Raw.withB, Raw.withC, Src32.fields, Raw.src32, Raw.plainX, Raw.porter, Raw.immb, Raw.base, decodeFields, need, Raw.unused, Raw.ty, Raw.sub, Raw.rm, Raw.sat, Raw.modx, Raw.hdr, Raw.imma, Raw.len64, Raw.len96, Raw.len128]
theorem RoundTrip.task (h : Hdr) (spec : Bool) (hm : HMode) (n : BitVec 4) (b : GReg) (c : GReg) (e : GReg) (func : Src32) : RoundTrip.Statement (.task h spec hm n b c e func) := by
  refine roundTrip_of _ _ rfl fun w => ?_
  cases spec <;> cases hm <;> cases func <;> simp [decodeTask, encX, encPorter, Raw.withImm, Raw.withAddr, Raw.addr, Raw.withA, Raw.withB, Raw.withC, Src32.fields, Raw.src32, Raw.plainX, Raw.porter, Raw.immb, Raw.base, decodeFields, need, Raw.unused, Raw.ty, Raw.sub, Raw.rm, Raw.sat, Raw.modx, Raw.hdr, Raw.imma, Raw.len64, Raw.len96, Raw.len128, HMode.code, HMode.ofCode, RowOp.code, RowOp.ofCode]
theorem RoundTrip.tgrid (h : Hdr) (n : BitVec 4) (b : GReg) (c : GReg) (e : GReg) (func : Src32) : RoundTrip.Statement (.tgrid h n b c e func) := by
  refine roundTrip_of _ _ rfl fun w => ?_
  cases func <;> simp [decodeTask, encX, encPorter, Raw.withImm, Raw.withAddr, Raw.addr, Raw.withA, Raw.withB, Raw.withC, Src32.fields, Raw.src32, Raw.plainX, Raw.porter, Raw.immb, Raw.base, decodeFields, need, Raw.unused, Raw.ty, Raw.sub, Raw.rm, Raw.sat, Raw.modx, Raw.hdr, Raw.imma, Raw.len64, Raw.len96, Raw.len128]
theorem RoundTrip.depart (h : Hdr) (a : GReg) (func : Src32) : RoundTrip.Statement (.depart h a func) := by
  refine roundTrip_of _ _ rfl fun w => ?_
  cases func <;> simp [decodeTask, encX, encPorter, Raw.withImm, Raw.withAddr, Raw.addr, Raw.withA, Raw.withB, Raw.withC, Src32.fields, Raw.src32, Raw.plainX, Raw.porter, Raw.immb, Raw.base, decodeFields, need, Raw.unused, Raw.ty, Raw.sub, Raw.rm, Raw.sat, Raw.modx, Raw.hdr, Raw.imma, Raw.len64, Raw.len96, Raw.len128]
theorem RoundTrip.tend (h : Hdr) : RoundTrip.Statement (.tend h) := by
  refine roundTrip_of _ _ rfl fun w => ?_
  simp [decodeTask, encX, encPorter, Raw.withImm, Raw.withAddr, Raw.addr, Raw.withA, Raw.withB, Raw.withC, Src32.fields, Raw.src32, Raw.plainX, Raw.porter, Raw.immb, Raw.base, decodeFields, need, Raw.unused, Raw.ty, Raw.sub, Raw.rm, Raw.sat, Raw.modx, Raw.hdr, Raw.imma, Raw.len64, Raw.len96, Raw.len128]
theorem RoundTrip.mswait (h : Hdr) : RoundTrip.Statement (.mswait h) := by
  refine roundTrip_of _ _ rfl fun w => ?_
  simp [decodeTask, encX, encPorter, Raw.withImm, Raw.withAddr, Raw.addr, Raw.withA, Raw.withB, Raw.withC, Src32.fields, Raw.src32, Raw.plainX, Raw.porter, Raw.immb, Raw.base, decodeFields, need, Raw.unused, Raw.ty, Raw.sub, Raw.rm, Raw.sat, Raw.modx, Raw.hdr, Raw.imma, Raw.len64, Raw.len96, Raw.len128]
theorem RoundTrip.prpush (h : Hdr) (urg : Bool) (ctl : BitVec 32) (d : GReg) (a : GReg) (b : GReg) (c : GReg) (e : GReg) : RoundTrip.Statement (.prpush h urg ctl d a b c e) := by
  refine roundTrip_of _ _ rfl fun w => ?_
  cases urg <;> simp [decodeTask, encX, encPorter, Raw.withImm, Raw.withAddr, Raw.addr, Raw.withA, Raw.withB, Raw.withC, Src32.fields, Raw.src32, Raw.plainX, Raw.porter, Raw.immb, Raw.base, decodeFields, need, Raw.unused, Raw.ty, Raw.sub, Raw.rm, Raw.sat, Raw.modx, Raw.hdr, Raw.imma, Raw.len64, Raw.len96, Raw.len128]
theorem RoundTrip.prget (h : Hdr) (urg : Bool) (ctl : BitVec 32) (d : GReg) (a : GReg) (b : GReg) (c : GReg) (e : GReg) : RoundTrip.Statement (.prget h urg ctl d a b c e) := by
  refine roundTrip_of _ _ rfl fun w => ?_
  cases urg <;> simp [decodeTask, encX, encPorter, Raw.withImm, Raw.withAddr, Raw.addr, Raw.withA, Raw.withB, Raw.withC, Src32.fields, Raw.src32, Raw.plainX, Raw.porter, Raw.immb, Raw.base, decodeFields, need, Raw.unused, Raw.ty, Raw.sub, Raw.rm, Raw.sat, Raw.modx, Raw.hdr, Raw.imma, Raw.len64, Raw.len96, Raw.len128]
theorem RoundTrip.prcopy (h : Hdr) (urg : Bool) (ctl : BitVec 32) (d : GReg) (a : GReg) (b : GReg) (c : GReg) (e : GReg) : RoundTrip.Statement (.prcopy h urg ctl d a b c e) := by
  refine roundTrip_of _ _ rfl fun w => ?_
  cases urg <;> simp [decodeTask, encX, encPorter, Raw.withImm, Raw.withAddr, Raw.addr, Raw.withA, Raw.withB, Raw.withC, Src32.fields, Raw.src32, Raw.plainX, Raw.porter, Raw.immb, Raw.base, decodeFields, need, Raw.unused, Raw.ty, Raw.sub, Raw.rm, Raw.sat, Raw.modx, Raw.hdr, Raw.imma, Raw.len64, Raw.len96, Raw.len128]
theorem RoundTrip.prfill (h : Hdr) (urg : Bool) (ctl : BitVec 32) (d : GReg) (a : GReg) (b : GReg) (c : GReg) (e : GReg) : RoundTrip.Statement (.prfill h urg ctl d a b c e) := by
  refine roundTrip_of _ _ rfl fun w => ?_
  cases urg <;> simp [decodeTask, encX, encPorter, Raw.withImm, Raw.withAddr, Raw.addr, Raw.withA, Raw.withB, Raw.withC, Src32.fields, Raw.src32, Raw.plainX, Raw.porter, Raw.immb, Raw.base, decodeFields, need, Raw.unused, Raw.ty, Raw.sub, Raw.rm, Raw.sat, Raw.modx, Raw.hdr, Raw.imma, Raw.len64, Raw.len96, Raw.len128]
theorem RoundTrip.prgath (h : Hdr) (urg : Bool) (ctl : BitVec 32) (rows : BitVec 32) (d : GReg) (a : GReg) (b : GReg) (c : GReg) (e : GReg) : RoundTrip.Statement (.prgath h urg ctl rows d a b c e) := by
  refine roundTrip_of _ _ rfl fun w => ?_
  cases urg <;> simp [decodeTask, encX, encPorter, Raw.withImm, Raw.withAddr, Raw.addr, Raw.withA, Raw.withB, Raw.withC, Src32.fields, Raw.src32, Raw.plainX, Raw.porter, Raw.immb, Raw.base, decodeFields, need, Raw.unused, Raw.ty, Raw.sub, Raw.rm, Raw.sat, Raw.modx, Raw.hdr, Raw.imma, Raw.len64, Raw.len96, Raw.len128]
theorem RoundTrip.prscat (h : Hdr) (urg : Bool) (ty : Ty) (ctl : BitVec 32) (rows : BitVec 32) (d : GReg) (a : GReg) (b : GReg) (c : GReg) (e : GReg) : RoundTrip.Statement (.prscat h urg ty ctl rows d a b c e) := by
  refine roundTrip_of _ _ rfl fun w => ?_
  cases urg <;> simp [decodeTask, encX, encPorter, Raw.withImm, Raw.withAddr, Raw.addr, Raw.withA, Raw.withB, Raw.withC, Src32.fields, Raw.src32, Raw.plainX, Raw.porter, Raw.immb, Raw.base, decodeFields, need, Raw.unused, Raw.ty, Raw.sub, Raw.rm, Raw.sat, Raw.modx, Raw.hdr, Raw.imma, Raw.len64, Raw.len96, Raw.len128]
theorem RoundTrip.prrow (h : Hdr) (urg : Bool) (op : RowOp) (ty : Ty) (ctl : BitVec 32) (mask : BitVec 8) (tag : BitVec 16) (d : GReg) (a : GReg) (b : GReg) (c : GReg) (e : GReg) : RoundTrip.Statement (.prrow h urg op ty ctl mask tag d a b c e) := by
  refine roundTrip_of _ _ rfl fun w => ?_
  cases urg <;> cases op <;> simp [decodeTask, encX, encPorter, Raw.withImm, Raw.withAddr, Raw.addr, Raw.withA, Raw.withB, Raw.withC, Src32.fields, Raw.src32, Raw.plainX, Raw.porter, Raw.immb, Raw.base, decodeFields, need, Raw.unused, Raw.ty, Raw.sub, Raw.rm, Raw.sat, Raw.modx, Raw.hdr, Raw.imma, Raw.len64, Raw.len96, Raw.len128, HMode.code, HMode.ofCode, RowOp.code, RowOp.ofCode]
theorem RoundTrip.mma (h : Hdr) (tc : Ty) (ctl : BitVec 32) (ldc : BitVec 32) (d : GReg) (a : GReg) (b : GReg) (c : GReg) (e : GReg) : RoundTrip.Statement (.mma h tc ctl ldc d a b c e) := by
  refine roundTrip_of _ _ rfl fun w => ?_
  simp [decodeMatrix, encX, encMatrix, Raw.withImm, Raw.mmaForm, Raw.accForm, Raw.plainX, Raw.immb, Raw.base, decodeFields, need, Raw.unused, Raw.ty, Raw.sub, Raw.rm, Raw.sat, Raw.modx, Raw.hdr, Raw.imma, Raw.len64, Raw.len96, Raw.len128]
theorem RoundTrip.mmaq (h : Hdr) (tc : Ty) (ctl : BitVec 32) (ldc : BitVec 32) (d : GReg) (a : GReg) (b : GReg) (c : GReg) (e : GReg) : RoundTrip.Statement (.mmaq h tc ctl ldc d a b c e) := by
  refine roundTrip_of _ _ rfl fun w => ?_
  simp [decodeMatrix, encX, encMatrix, Raw.withImm, Raw.mmaForm, Raw.accForm, Raw.plainX, Raw.immb, Raw.base, decodeFields, need, Raw.unused, Raw.ty, Raw.sub, Raw.rm, Raw.sat, Raw.modx, Raw.hdr, Raw.imma, Raw.len64, Raw.len96, Raw.len128]
theorem RoundTrip.mmab (h : Hdr) (tc : Ty) (ctl : BitVec 32) (ldc : BitVec 32) (d : GReg) (a : GReg) (b : GReg) (c : GReg) (e : GReg) : RoundTrip.Statement (.mmab h tc ctl ldc d a b c e) := by
  refine roundTrip_of _ _ rfl fun w => ?_
  simp [decodeMatrix, encX, encMatrix, Raw.withImm, Raw.mmaForm, Raw.accForm, Raw.plainX, Raw.immb, Raw.base, decodeFields, need, Raw.unused, Raw.ty, Raw.sub, Raw.rm, Raw.sat, Raw.modx, Raw.hdr, Raw.imma, Raw.len64, Raw.len96, Raw.len128]
theorem RoundTrip.accld (h : Hdr) (tc : Ty) (ctl : BitVec 32) (ldc : BitVec 32) (d : GReg) (c : GReg) (e : GReg) : RoundTrip.Statement (.accld h tc ctl ldc d c e) := by
  refine roundTrip_of _ _ rfl fun w => ?_
  simp [decodeMatrix, encX, encMatrix, Raw.withImm, Raw.mmaForm, Raw.accForm, Raw.plainX, Raw.immb, Raw.base, decodeFields, need, Raw.unused, Raw.ty, Raw.sub, Raw.rm, Raw.sat, Raw.modx, Raw.hdr, Raw.imma, Raw.len64, Raw.len96, Raw.len128]
theorem RoundTrip.accst (h : Hdr) (tc : Ty) (ctl : BitVec 32) (ldc : BitVec 32) (d : GReg) (c : GReg) (e : GReg) : RoundTrip.Statement (.accst h tc ctl ldc d c e) := by
  refine roundTrip_of _ _ rfl fun w => ?_
  simp [decodeMatrix, encX, encMatrix, Raw.withImm, Raw.mmaForm, Raw.accForm, Raw.plainX, Raw.immb, Raw.base, decodeFields, need, Raw.unused, Raw.ty, Raw.sub, Raw.rm, Raw.sat, Raw.modx, Raw.hdr, Raw.imma, Raw.len64, Raw.len96, Raw.len128]
theorem RoundTrip.jwait (h : Hdr) (st : Bool) (d : GReg) (a : GReg) : RoundTrip.Statement (.jwait h st d a) := by
  refine roundTrip_of _ _ rfl fun w => ?_
  cases st <;> simp [decodeMatrix, encX, encMatrix, Raw.withImm, Raw.mmaForm, Raw.accForm, Raw.plainX, Raw.immb, Raw.base, decodeFields, need, Raw.unused, Raw.ty, Raw.sub, Raw.rm, Raw.sat, Raw.modx, Raw.hdr, Raw.imma, Raw.len64, Raw.len96, Raw.len128]
theorem RoundTrip.jpoll (h : Hdr) (d : PReg) (a : GReg) : RoundTrip.Statement (.jpoll h d a) := by
  refine roundTrip_of _ _ rfl fun w => ?_
  simp [decodeMatrix, encX, encMatrix, Raw.withImm, Raw.mmaForm, Raw.accForm, Raw.plainX, Raw.immb, Raw.base, decodeFields, need, Raw.unused, Raw.ty, Raw.sub, Raw.rm, Raw.sat, Raw.modx, Raw.hdr, Raw.imma, Raw.len64, Raw.len96, Raw.len128]
theorem RoundTrip.switchMarkerWake (th : Nat) : RoundTrip.Statement (.switchMarkerWake th) := roundTrip_event _ rfl
theorem RoundTrip.variableLatencyResult (th : Nat) (n : Nat) : RoundTrip.Statement (.variableLatencyResult th n) := roundTrip_event _ rfl
theorem RoundTrip.engineQueueAccept (tile : Nat) (unit : Nat) : RoundTrip.Statement (.engineQueueAccept tile unit) := roundTrip_event _ rfl
theorem RoundTrip.matrixJobStart (tile : Nat) : RoundTrip.Statement (.matrixJobStart tile) := roundTrip_event _ rfl
theorem RoundTrip.matrixBlockDone (tile : Nat) : RoundTrip.Statement (.matrixBlockDone tile) := roundTrip_event _ rfl
theorem RoundTrip.matrixJobComplete (tile : Nat) : RoundTrip.Statement (.matrixJobComplete tile) := roundTrip_event _ rfl
theorem RoundTrip.matrixJobFault (tile : Nat) : RoundTrip.Statement (.matrixJobFault tile) := roundTrip_event _ rfl
theorem RoundTrip.porterLineRequest (tile : Nat) (lane : Nat) : RoundTrip.Statement (.porterLineRequest tile lane) := roundTrip_event _ rfl
theorem RoundTrip.porterSourceBump (tile : Nat) (lane : Nat) : RoundTrip.Statement (.porterSourceBump tile lane) := roundTrip_event _ rfl
theorem RoundTrip.porterJobComplete (tile : Nat) (lane : Nat) : RoundTrip.Statement (.porterJobComplete tile lane) := roundTrip_event _ rfl
theorem RoundTrip.porterFault (tile : Nat) (lane : Nat) : RoundTrip.Statement (.porterFault tile lane) := roundTrip_event _ rfl
theorem RoundTrip.prrowInstanceStart (tile : Nat) (tag : Nat) : RoundTrip.Statement (.prrowInstanceStart tile tag) := roundTrip_event _ rfl
theorem RoundTrip.pageWalk (run : Nat) (core : Nat) (va : Nat) (write : Bool) : RoundTrip.Statement (.pageWalk run core va write) := roundTrip_event _ rfl
theorem RoundTrip.privateRelease (core : Nat) (page : Nat) : RoundTrip.Statement (.privateRelease core page) := roundTrip_event _ rfl
theorem RoundTrip.faultPost (die : Nat) : RoundTrip.Statement (.faultPost die) := roundTrip_event _ rfl
theorem RoundTrip.faultHeadWrite (die : Nat) (v : BitVec 64) : RoundTrip.Statement (.faultHeadWrite die v) := roundTrip_event _ rfl
theorem RoundTrip.faultCfgWrite (v : BitVec 64) : RoundTrip.Statement (.faultCfgWrite v) := roundTrip_event _ rfl
theorem RoundTrip.fatalTileFault (tile : Nat) : RoundTrip.Statement (.fatalTileFault tile) := roundTrip_event _ rfl
theorem RoundTrip.deviceFatalError : RoundTrip.Statement (.deviceFatalError ) := roundTrip_event _ rfl
theorem RoundTrip.taskAccept (n : Nat) : RoundTrip.Statement (.taskAccept n) := roundTrip_event _ rfl
theorem RoundTrip.taskDispatch (tile : Nat) : RoundTrip.Statement (.taskDispatch tile) := roundTrip_event _ rfl
theorem RoundTrip.spill (tile : Nat) : RoundTrip.Statement (.spill tile) := roundTrip_event _ rfl
theorem RoundTrip.refill (tile : Nat) : RoundTrip.Statement (.refill tile) := roundTrip_event _ rfl
theorem RoundTrip.discard (tile : Nat) (specid : Nat) : RoundTrip.Statement (.discard tile specid) := roundTrip_event _ rfl
theorem RoundTrip.specMarkRequest (tile : Nat) (run : Nat) (line : Nat) : RoundTrip.Statement (.specMarkRequest tile run line) := roundTrip_event _ rfl
theorem RoundTrip.storeAtHome (n : Nat) : RoundTrip.Statement (.storeAtHome n) := roundTrip_event _ rfl
theorem RoundTrip.storeProbe (tile : Nat) (run : Nat) (line : Nat) (cv : BitVec 5) (ts : BitVec 64) (tb : BitVec 32) (specid : Nat) : RoundTrip.Statement (.storeProbe tile run line cv ts tb specid) := roundTrip_event _ rfl
theorem RoundTrip.loadProbe (tile : Nat) (run : Nat) (line : Nat) (ts : BitVec 64) (tb : BitVec 32) (specid : Nat) : RoundTrip.Statement (.loadProbe tile run line ts tb specid) := roundTrip_event _ rfl
theorem RoundTrip.restoreAtHome (tile : Nat) : RoundTrip.Statement (.restoreAtHome tile) := roundTrip_event _ rfl
theorem RoundTrip.probeAnswer (tile : Nat) (line : Nat) : RoundTrip.Statement (.probeAnswer tile line) := roundTrip_event _ rfl
theorem RoundTrip.milestoneLatch : RoundTrip.Statement (.milestoneLatch ) := roundTrip_event _ rfl
theorem RoundTrip.milestoneBroadcast : RoundTrip.Statement (.milestoneBroadcast ) := roundTrip_event _ rfl
theorem RoundTrip.otherRunReprobe (line : Nat) : RoundTrip.Statement (.otherRunReprobe line) := roundTrip_event _ rfl
theorem RoundTrip.loadBalance : RoundTrip.Statement (.loadBalance ) := roundTrip_event _ rfl
theorem RoundTrip.queueEnable (q : Nat) (v : BitVec 64) : RoundTrip.Statement (.queueEnable q v) := roundTrip_event _ rfl
theorem RoundTrip.queueDisable (q : Nat) : RoundTrip.Statement (.queueDisable q) := roundTrip_event _ rfl
theorem RoundTrip.reservationEnd (q : Nat) : RoundTrip.Statement (.reservationEnd q) := roundTrip_event _ rfl
theorem RoundTrip.headerReread (q : Nat) : RoundTrip.Statement (.headerReread q) := roundTrip_event _ rfl
theorem RoundTrip.launchTake : RoundTrip.Statement (.launchTake ) := roundTrip_event _ rfl
theorem RoundTrip.recordSeqRetry (q : Nat) : RoundTrip.Statement (.recordSeqRetry q) := roundTrip_event _ rfl
theorem RoundTrip.nopRecord (n : Nat) : RoundTrip.Statement (.nopRecord n) := roundTrip_event _ rfl
theorem RoundTrip.taskRecord (n : Nat) : RoundTrip.Statement (.taskRecord n) := roundTrip_event _ rfl
theorem RoundTrip.gridRecord (n : Nat) : RoundTrip.Statement (.gridRecord n) := roundTrip_event _ rfl
theorem RoundTrip.gridEnter (tile : Nat) : RoundTrip.Statement (.gridEnter tile) := roundTrip_event _ rfl
theorem RoundTrip.queueAgeing : RoundTrip.Statement (.queueAgeing ) := roundTrip_event _ rfl
theorem RoundTrip.timedOverrun (n : Nat) : RoundTrip.Statement (.timedOverrun n) := roundTrip_event _ rfl
theorem RoundTrip.launchComplete (n : Nat) : RoundTrip.Statement (.launchComplete n) := roundTrip_event _ rfl
theorem RoundTrip.runLoad (slot : Nat) (v : BitVec 64) : RoundTrip.Statement (.runLoad slot v) := roundTrip_event _ rfl
theorem RoundTrip.runCfgBadClear (slot : Nat) (v : BitVec 64) : RoundTrip.Statement (.runCfgBadClear slot v) := roundTrip_event _ rfl
theorem RoundTrip.preempt (slot : Nat) : RoundTrip.Statement (.preempt slot) := roundTrip_event _ rfl
theorem RoundTrip.resume (slot : Nat) : RoundTrip.Statement (.resume slot) := roundTrip_event _ rfl
theorem RoundTrip.runTeardown (slot : Nat) : RoundTrip.Statement (.runTeardown slot) := roundTrip_event _ rfl
theorem RoundTrip.runKill (slot : Nat) : RoundTrip.Statement (.runKill slot) := roundTrip_event _ rfl
theorem RoundTrip.spreadSizeWrite (v : BitVec 64) : RoundTrip.Statement (.spreadSizeWrite v) := roundTrip_event _ rfl
theorem RoundTrip.hmaskWrite (k : Nat) (v : BitVec 64) : RoundTrip.Statement (.hmaskWrite k v) := roundTrip_event _ rfl
theorem RoundTrip.memkeyLoad (v : BitVec 64) : RoundTrip.Statement (.memkeyLoad v) := roundTrip_event _ rfl
theorem RoundTrip.memkeyGenerate (v : BitVec 64) : RoundTrip.Statement (.memkeyGenerate v) := roundTrip_event _ rfl
theorem RoundTrip.memkeyDestroy (v : BitVec 64) : RoundTrip.Statement (.memkeyDestroy v) := roundTrip_event _ rfl
theorem RoundTrip.biasFlipToHost (host : Bool) (v : BitVec 64) : RoundTrip.Statement (.biasFlipToHost host v) := roundTrip_event _ rfl
theorem RoundTrip.biasFlipToDevice (host : Bool) (v : BitVec 64) : RoundTrip.Statement (.biasFlipToDevice host v) := roundTrip_event _ rfl
theorem RoundTrip.birsp (line : Nat) (half : Bool) (modified : Bool) (data : BitVec 512) : RoundTrip.Statement (.birsp line half modified data) := roundTrip_event _ rfl
theorem RoundTrip.hostMemRead (half : Nat) : RoundTrip.Statement (.hostMemRead half) := roundTrip_event _ rfl
theorem RoundTrip.hostMemWrite (half : Nat) (data : BitVec 512) (poison : Bool) : RoundTrip.Statement (.hostMemWrite half data poison) := roundTrip_event _ rfl
theorem RoundTrip.hostSnoop (half : Nat) (invalidate : Bool) : RoundTrip.Statement (.hostSnoop half invalidate) := roundTrip_event _ rfl
theorem RoundTrip.unassignedBar0Access (off : Nat) (write : Bool) (v : BitVec 64) : RoundTrip.Statement (.unassignedBar0Access off write v) := roundTrip_event _ rfl
theorem RoundTrip.flitReplay : RoundTrip.Statement (.flitReplay ) := roundTrip_event _ rfl
theorem RoundTrip.lateralRetrainFail : RoundTrip.Statement (.lateralRetrainFail ) := roundTrip_event _ rfl
theorem RoundTrip.fabricPortFail (port : Nat) : RoundTrip.Statement (.fabricPortFail port) := roundTrip_event _ rfl
theorem RoundTrip.fabricPortUp (port : Nat) : RoundTrip.Statement (.fabricPortUp port) := roundTrip_event _ rfl
theorem RoundTrip.hostPortFail : RoundTrip.Statement (.hostPortFail ) := roundTrip_event _ rfl
theorem RoundTrip.portTrainingHeld : RoundTrip.Statement (.portTrainingHeld ) := roundTrip_event _ rfl
theorem RoundTrip.powerThrottle (watts : Nat) (thermal : Bool) : RoundTrip.Statement (.powerThrottle watts thermal) := roundTrip_event _ rfl
theorem RoundTrip.criticalTemperature : RoundTrip.Statement (.criticalTemperature ) := roundTrip_event _ rfl
theorem RoundTrip.fwSubmit (v : BitVec 64) : RoundTrip.Statement (.fwSubmit v) := roundTrip_event _ rfl
theorem RoundTrip.firmwareLoss : RoundTrip.Statement (.firmwareLoss ) := roundTrip_event _ rfl
theorem RoundTrip.svcSubmit (v : BitVec 64) : RoundTrip.Statement (.svcSubmit v) := roundTrip_event _ rfl
theorem RoundTrip.spdmRequest (block : Nat) : RoundTrip.Statement (.spdmRequest block) := roundTrip_event _ rfl
theorem RoundTrip.scrubRead (ctl : Nat) (err : Nat) : RoundTrip.Statement (.scrubRead ctl err) := roundTrip_event _ rfl
theorem RoundTrip.scrubDeadline (ctl : Nat) : RoundTrip.Statement (.scrubDeadline ctl) := roundTrip_event _ rfl
theorem RoundTrip.scrubForcedRead (ctl : Nat) : RoundTrip.Statement (.scrubForcedRead ctl) := roundTrip_event _ rfl
theorem RoundTrip.selfRefreshEntry (pc : Nat) : RoundTrip.Statement (.selfRefreshEntry pc) := roundTrip_event _ rfl
theorem RoundTrip.selfRefreshExit (pc : Nat) : RoundTrip.Statement (.selfRefreshExit pc) := roundTrip_event _ rfl
theorem RoundTrip.bloomClear : RoundTrip.Statement (.bloomClear ) := roundTrip_event _ rfl
theorem RoundTrip.hbmWrite (line : Nat) : RoundTrip.Statement (.hbmWrite line) := roundTrip_event _ rfl
theorem RoundTrip.directoryEvict (lvl3 : Bool) (die : Nat) (line : Nat) : RoundTrip.Statement (.directoryEvict lvl3 die line) := roundTrip_event _ rfl
theorem RoundTrip.upgradeRequest (tile : Nat) (line : Nat) (v : View) : RoundTrip.Statement (.upgradeRequest tile line v) := roundTrip_event _ rfl
theorem RoundTrip.ownershipRequest (die : Nat) (line : Nat) : RoundTrip.Statement (.ownershipRequest die line) := roundTrip_event _ rfl
theorem RoundTrip.ownershipRecall (line : Nat) : RoundTrip.Statement (.ownershipRecall line) := roundTrip_event _ rfl
theorem RoundTrip.sharerInvalidate (tile : Nat) (line : Nat) (cv : BitVec 5) : RoundTrip.Statement (.sharerInvalidate tile line cv) := roundTrip_event _ rfl
theorem RoundTrip.sourceFormatDemote (line : Nat) : RoundTrip.Statement (.sourceFormatDemote line) := roundTrip_event _ rfl
theorem RoundTrip.replicaFill (quad : Nat) (line : Nat) : RoundTrip.Statement (.replicaFill quad line) := roundTrip_event _ rfl
theorem RoundTrip.replicaDrop (quad : Nat) (line : Nat) : RoundTrip.Statement (.replicaDrop quad line) := roundTrip_event _ rfl
theorem RoundTrip.eagerCollapse (line : Nat) : RoundTrip.Statement (.eagerCollapse line) := roundTrip_event _ rfl
theorem RoundTrip.lazyCollapse (line : Nat) : RoundTrip.Statement (.lazyCollapse line) := roundTrip_event _ rfl
theorem RoundTrip.collapseAck (quad : Nat) (line : Nat) : RoundTrip.Statement (.collapseAck quad line) := roundTrip_event _ rfl
theorem RoundTrip.regionEvaluation : RoundTrip.Statement (.regionEvaluation ) := roundTrip_event _ rfl
theorem RoundTrip.replRstateWrite (v : BitVec 64) : RoundTrip.Statement (.replRstateWrite v) := roundTrip_event _ rfl
theorem RoundTrip.pageHotnessHalving : RoundTrip.Statement (.pageHotnessHalving ) := roundTrip_event _ rfl
theorem RoundTrip.hotSel (die : Nat) (v : BitVec 64) : RoundTrip.Statement (.hotSel die v) := roundTrip_event _ rfl
theorem RoundTrip.dirSel (die : Nat) (v : BitVec 64) : RoundTrip.Statement (.dirSel die v) := roundTrip_event _ rfl
theorem RoundTrip.lodgeCfgWrite (v : BitVec 64) : RoundTrip.Statement (.lodgeCfgWrite v) := roundTrip_event _ rfl
theorem RoundTrip.ctrwaitNotify (th : Nat) : RoundTrip.Statement (.ctrwaitNotify th) := roundTrip_event _ rfl
theorem RoundTrip.ctrwaitTimeout (th : Nat) : RoundTrip.Statement (.ctrwaitTimeout th) := roundTrip_event _ rfl
theorem RoundTrip.ctrwaitPoll (th : Nat) : RoundTrip.Statement (.ctrwaitPoll th) := roundTrip_event _ rfl
theorem RoundTrip.fltwaitTimeout (th : Nat) : RoundTrip.Statement (.fltwaitTimeout th) := roundTrip_event _ rfl
theorem RoundTrip.dbgHalt (tile : Nat) : RoundTrip.Statement (.dbgHalt tile) := roundTrip_event _ rfl
theorem RoundTrip.dbgResume (tile : Nat) : RoundTrip.Statement (.dbgResume tile) := roundTrip_event _ rfl
theorem RoundTrip.dbgStep (tile : Nat) : RoundTrip.Statement (.dbgStep tile) := roundTrip_event _ rfl
theorem RoundTrip.crossTrigger (tile : Nat) : RoundTrip.Statement (.crossTrigger tile) := roundTrip_event _ rfl
theorem RoundTrip.bell : RoundTrip.Statement (.bell ) := roundTrip_event _ rfl
theorem RoundTrip.bellRestart (v : BitVec 64) : RoundTrip.Statement (.bellRestart v) := roundTrip_event _ rfl
theorem RoundTrip.coreDump (v : BitVec 64) : RoundTrip.Statement (.coreDump v) := roundTrip_event _ rfl
theorem RoundTrip.itineraryRecord (kind : Nat) (tile : Nat) (w1 : BitVec 64) (w2 : BitVec 64) (w3 : BitVec 64) : RoundTrip.Statement (.itineraryRecord kind tile w1 w2 w3) := roundTrip_event _ rfl
theorem RoundTrip.deviceReset : RoundTrip.Statement (.deviceReset ) := roundTrip_event _ rfl
theorem RoundTrip.registerWrite (bar0 : Bool) (die : Nat) (num : Nat) (v : BitVec 64) : RoundTrip.Statement (.registerWrite bar0 die num v) := roundTrip_event _ rfl

end Sys2Proof.Laws
end

