-- ==== Sys2Proof/Tests/Slice0.lean ====
section
/-! SUPPORT. Tests of the model: the words of every encoded instruction written out from the tables of
spec/13_encoding_and_assembly.md decode to it, each check of WellFormed refuses an ill-formed term, every statement with hypotheses
has a state that meets them (witness_ and the name of the statement), and single steps give what the worked examples of the spec
give. -/
namespace Sys2Proof.Tests
open Sys2Proof Sys2Proof.Machine
set_option Elab.async false

theorem test_reset_wf : State.reset.wf = true := by decide

theorem test_decode_scalar_1 :
    decode (leBytes 8 0x0000C20421000000) = .ok (.add ⟨0, 0, 0, false⟩ .s8 true 1 2 (.reg 3), []) ∧
    decode (leBytes 8 0x000005110000240A ++ leBytes 8 0xFEDCBA9876543210) = .ok (.sub ⟨9, 0, 0, false⟩ .n64 false 4 5 (.imm64 0xFEDCBA9876543210), []) ∧
    decode (leBytes 8 0x0000071860000015 ++ leBytes 4 0xFFFFFFFF) = .ok (.mul ⟨0, 0, 0, true⟩ .s32 false 6 7 (.imm32 0xFFFFFFFF), []) ∧
    decode (leBytes 8 0x00028920E0000018) = .ok (.mulh ⟨0, 0, 0, false⟩ .n32 8 9 (.reg 10), []) ∧
    decode (leBytes 8 0x00034C2C80000020) = .ok (.div ⟨0, 0, 0, false⟩ .s64 11 12 (.reg 13), []) ∧
    decode (leBytes 8 0x00000F38C0000029 ++ leBytes 4 0x7) = .ok (.rem ⟨0, 0, 0, false⟩ .n16 14 15 (.imm32 7), []) ∧
    decode (leBytes 8 0x0000C20440000030) = .ok (.min ⟨0, 0, 0, false⟩ .s16 1 2 (.reg 3), []) ∧
    decode (leBytes 8 0x0000C204A0000038) = .ok (.max ⟨0, 0, 0, false⟩ .n8 1 2 (.reg 3), []) ∧
    decode (leBytes 8 0x0000020500000042 ++ leBytes 8 0x8000000000000000) = .ok (.and ⟨0, 0, 0, false⟩ .n64 1 2 (.imm64 0x8000000000000000), []) ∧
    decode (leBytes 8 0x0000C20480000048) = .ok (.or ⟨0, 0, 0, false⟩ .s64 1 2 (.reg 3), []) :=
  ⟨rfl, rfl, rfl, rfl, rfl, rfl, rfl, rfl, rfl, rfl⟩

theorem test_decode_scalar_2 :
    decode (leBytes 8 0x00000204E0000051 ++ leBytes 4 0xFF) = .ok (.xor ⟨0, 0, 0, false⟩ .n32 1 2 (.imm32 255), []) ∧
    decode (leBytes 8 0x0000C204A0000058) = .ok (.andn ⟨0, 0, 0, false⟩ .n8 1 2 (.reg 3), []) ∧
    decode (leBytes 8 0x0000020480000061 ++ leBytes 4 0x3F) = .ok (.shl ⟨0, 0, 0, false⟩ .s64 1 2 (.imm 63), []) ∧
    decode (leBytes 8 0x0000C204E0000068) = .ok (.shr ⟨0, 0, 0, false⟩ .n32 1 2 (.reg 3), []) ∧
    decode (leBytes 8 0x0000C20420000070) = .ok (.sar ⟨0, 0, 0, false⟩ .s8 1 2 (.reg 3), []) ∧
    decode (leBytes 8 0x00000204C2000079 ++ leBytes 4 0x5) = .ok (.rot ⟨0, 0, 0, false⟩ true .n16 1 2 (.imm 5), []) ∧
    decode (leBytes 8 0x0000002480000082 ++ leBytes 8 0x1) = .ok (.mov ⟨0, 0, 0, false⟩ .s64 9 (.imm64 1), []) ∧
    decode (leBytes 8 0x03D0C20400000088) = .ok (.sel ⟨0, 0, 0, false⟩ 1 2 3 5, []) ∧
    decode (leBytes 8 0x0000020506000090) = .ok (.bit ⟨0, 0, 0, false⟩ .brev .n64 1 2, []) ∧
    decode (leBytes 8 0x0000020480000099 ++ leBytes 4 0x810) = .ok (.bext ⟨0, 0, 0, false⟩ .s64 1 2 (.imm 0x810), []) :=
  ⟨rfl, rfl, rfl, rfl, rfl, rfl, rfl, rfl, rfl, rfl⟩

theorem test_decode_scalar_3 :
    decode (leBytes 8 0x0000C20502000098) = .ok (.bins ⟨0, 0, 0, false⟩ .n64 1 2 (.reg 3), []) ∧
    decode (leBytes 8 0x04000204E00000A0) = .ok (.cvt ⟨0, 0, 0, false⟩ .s8 .n32 1 2, []) ∧
    decode (leBytes 8 0x0000C2040C0000A8) = .ok (.lea ⟨0, 0, 0, false⟩ 6 1 2 (.reg 3), []) ∧
    decode (leBytes 8 0x00000000000000B0) = .ok (.bkpt ⟨0, 0, 0, false⟩, []) ∧
    decode (leBytes 8 0x0000000003A000B0) = .ok (.swtrap ⟨0, 0, 0, false⟩ 13, []) ∧
    decode (leBytes 8 0x00000000000000BA ++ leBytes 8 0x123456789ABCDEF0) = .ok (.nop ⟨0, 0, 0, false⟩ (.ext64 0x123456789ABCDEF0), []) :=
  ⟨rfl, rfl, rfl, rfl, rfl, rfl⟩

theorem test_decode_predicates_and_masks :
    decode (leBytes 8 0x000002FC4A0000C1 ++ leBytes 4 0x80000000) = .ok (.pcmp ⟨0, 0, 0, false⟩ .ge .s16 7 2 (.imm 0x80000000), []) ∧
    decode (leBytes 8 0x000EFAE4040000C8) = .ok (.plog ⟨0, 0, 0, false⟩ .xor 1 2 3, []) ∧
    decode (leBytes 8 0x000032C4080000D0) = .ok (.mlog ⟨0, 0, 0, false⟩ .not 1 2 0, []) ∧
    decode (leBytes 8 0x000004CC000000D8) = .ok (.mmovMG ⟨0, 0, 0, false⟩ 3 4, []) ∧
    decode (leBytes 8 0x0000340C020000D8) = .ok (.mmovGM ⟨0, 0, 0, false⟩ 3 4, []) ∧
    decode (leBytes 8 0x000000D4040000DA ++ leBytes 8 0xAAAAAAAAAAAAAAAA) = .ok (.mmovMImm ⟨0, 0, 0, false⟩ 5 (.imm64 0xAAAAAAAAAAAAAAAA), []) ∧
    decode (leBytes 8 0x00003718040000E0) = .ok (.mcnt ⟨0, 0, 0, false⟩ .last 6 7, []) ∧
    decode (leBytes 8 0x000003CA000000E8) = .ok (.mfirst ⟨0, 0, 0, false⟩ .e4m3 2 (.reg 3), []) ∧
    decode (leBytes 8 0x000002E4000000F0) = .ok (.pmovPG ⟨0, 0, 0, false⟩ 1 2, []) ∧
    decode (leBytes 8 0x00003A04020000F0) = .ok (.pmovGP ⟨0, 0, 0, false⟩ 1 2, []) :=
  ⟨rfl, rfl, rfl, rfl, rfl, rfl, rfl, rfl, rfl, rfl⟩

theorem test_decode_control :
    decode (leBytes 8 0x0000000000000101 ++ leBytes 4 0xFFFFFFF8) = .ok (.br ⟨0, 0, 0, false⟩ 0xFFFFFFF8, []) ∧
    decode (leBytes 8 0x00000E0000000108) = .ok (.jr ⟨0, 0, 0, false⟩ 14, []) ∧
    decode (leBytes 8 0x00000E3C02000108) = .ok (.callr ⟨0, 0, 0, false⟩ 15 14, []) ∧
    decode (leBytes 8 0x0000003C00000111 ++ leBytes 4 0x40) = .ok (.call ⟨0, 0, 0, false⟩ 15 0x40, []) ∧
    decode (leBytes 8 0x00000F0000000118) = .ok (.ret ⟨0, 0, 0, false⟩ 15, []) ∧
    decode (leBytes 8 0x0000000C00000121 ++ leBytes 4 0xFFFFFFE0) = .ok (.loop ⟨0, 0, 0, false⟩ 3 0xFFFFFFE0, []) ∧
    decode (leBytes 8 0x0000020001E00128) = .ok (.repeatReg ⟨0, 0, 0, false⟩ 15 2, []) ∧
    decode (leBytes 8 0x0000000002000129 ++ leBytes 4 0xFFFFFFFF) = .ok (.repeatImm ⟨0, 0, 0, false⟩ 0 0xFFFFFFFF, []) :=
  ⟨rfl, rfl, rfl, rfl, rfl, rfl, rfl, rfl⟩

theorem test_decode_identity_and_time :
    decode (leBytes 8 0x0000000402C00160) = .ok (.idr ⟨0, 0, 0, false⟩ 1 0x16, []) ∧
    decode (leBytes 8 0x0000000802000168) = .ok (.ucrr ⟨0, 0, 0, false⟩ 2 0x10, []) ∧
    decode (leBytes 8 0x0000030001000170) = .ok (.ucrw ⟨0, 0, 0, false⟩ 3 0x08, []) ∧
    decode (leBytes 8 0x0000001000000178) = .ok (.rdtimeCyc ⟨0, 0, 0, false⟩ 4, []) ∧
    decode (leBytes 8 0x0000001402000178) = .ok (.rdtimeNs ⟨0, 0, 0, false⟩ 5, []) :=
  ⟨rfl, rfl, rfl, rfl, rfl⟩

theorem test_decode_system_1 :
    decode (leBytes 8 0x00000004000003F9 ++ leBytes 4 0x642) = .ok (.sysr ⟨0, 0, 0, false⟩ 1 (.num 0x642), []) ∧
    decode (leBytes 8 0x0000C200020003F8) = .ok (.sysw ⟨0, 0, 0, false⟩ (.reg 2) 3, []) ∧
    decode (leBytes 8 0x00000000040003F9 ++ leBytes 4 0x9) = .ok (.faultreplyRetry ⟨0, 0, 0, false⟩ (.imm 9), []) ∧
    decode (leBytes 8 0x00010000042003F9 ++ leBytes 4 0x9) = .ok (.faultreplyRemote ⟨0, 0, 0, false⟩ 4 (.imm 9), []) ∧
    decode (leBytes 8 0x00000500044003F8) = .ok (.faultreplyKilltask ⟨0, 0, 0, false⟩ (.reg 5), []) ∧
    decode (leBytes 8 0x00000600046003F8) = .ok (.faultreplyKillrun ⟨0, 0, 0, false⟩ (.reg 6), []) ∧
    decode (leBytes 8 0x0000001C060003F9 ++ leBytes 4 0x64) = .ok (.fltwait ⟨0, 0, 0, false⟩ 7 (.imm 100), []) ∧
    decode (leBytes 8 0x00008100080003F8) = .ok (.purge ⟨0, 0, 0, false⟩ ⟨1, none⟩ 2, []) ∧
    decode (leBytes 8 0x000081000A0003F9 ++ leBytes 4 0x80) = .ok (.cflush ⟨0, 0, 0, false⟩ ⟨1, some 0x80⟩ 2, []) ∧
    decode (leBytes 8 0x000081000C0003F8) = .ok (.cinval ⟨0, 0, 0, false⟩ ⟨1, none⟩ 2, []) :=
  ⟨rfl, rfl, rfl, rfl, rfl, rfl, rfl, rfl, rfl, rfl⟩

theorem test_decode_system_2 :
    decode (leBytes 8 0x000081000E0003F8) = .ok (.tlbinvPage ⟨0, 0, 0, false⟩ 1 (.reg 2), []) ∧
    decode (leBytes 8 0x000000000E2003F9 ++ leBytes 4 0xFFF) = .ok (.tlbinvAsid ⟨0, 0, 0, false⟩ (.imm 0xFFF), []) ∧
    decode (leBytes 8 0x000000000E4003F8) = .ok (.tlbinvAll ⟨0, 0, 0, false⟩, []) :=
  ⟨rfl, rfl, rfl⟩

theorem test_decode_vector_float_1 :
    decode (leBytes 8 0x000BD245A0200180) = .ok (.vfadd ⟨0, 0, 0, false⟩ .f32 .rtz false 1 2 31, []) ∧
    decode (leBytes 8 0x000BD245A1414188) = .ok (.vfsub ⟨0, 5, 0, false⟩ .f32 .rdn true 1 2 31, []) ∧
    decode (leBytes 8 0x000BD245A0800190) = .ok (.vfmul ⟨0, 0, 0, false⟩ .f32 .sr false 1 2 31, []) ∧
    decode (leBytes 8 0x0144D24560600198) = .ok (.vfma ⟨0, 0, 0, false⟩ .f16 .rup false 1 2 3 4, []) ∧
    decode (leBytes 8 0x0144D245806001A0) = .ok (.vfms ⟨0, 0, 0, false⟩ .bf16 .rup false 1 2 3 4, []) ∧
    decode (leBytes 8 0x0144D245C06001A8) = .ok (.vfnma ⟨0, 0, 0, false⟩ .f64 .rup false 1 2 3 4, []) ∧
    decode (leBytes 8 0x0004D245600001B0) = .ok (.vfmin ⟨0, 0, 0, false⟩ .f16 1 2 3, []) ∧
    decode (leBytes 8 0x0004D245C00001B8) = .ok (.vfmax ⟨0, 0, 0, false⟩ .f64 1 2 3, []) ∧
    decode (leBytes 8 0x0004D245840001C0) = .ok (.vfsgn ⟨0, 0, 0, false⟩ .copysign .bf16 1 2 3, []) ∧
    decode (leBytes 8 0x0004D2D1AC0001C8) = .ok (.vfcmp ⟨0, 0, 0, false⟩ .uo .f32 4 2 3, []) :=
  ⟨rfl, rfl, rfl, rfl, rfl, rfl, rfl, rfl, rfl, rfl⟩

theorem test_decode_vector_float_2 :
    decode (leBytes 8 0x44001245A60001D0) = .ok (.vfcvt ⟨0, 0, 0, false⟩ .e5m2 .f32 3 .rne false 1 2, []) ∧
    decode (leBytes 8 0x0004D245A10001D8) = .ok (.vfdiv ⟨0, 0, 0, false⟩ .f32 .rne true 1 2 3, []) ∧
    decode (leBytes 8 0x0000185D600001E0) = .ok (.vfsqrt ⟨0, 0, 0, false⟩ .f16 .rne false 7 8, []) ∧
    decode (leBytes 8 0x0000185D600001E8) = .ok (.vfrcp ⟨0, 0, 0, false⟩ .f16 .rne false 7 8, []) ∧
    decode (leBytes 8 0x0000185D600001F0) = .ok (.vfrsq ⟨0, 0, 0, false⟩ .f16 .rne false 7 8, []) ∧
    decode (leBytes 8 0x0000185D600001F8) = .ok (.vfexp2 ⟨0, 0, 0, false⟩ .f16 .rne false 7 8, []) ∧
    decode (leBytes 8 0x0000185D60000200) = .ok (.vflog2 ⟨0, 0, 0, false⟩ .f16 .rne false 7 8, []) ∧
    decode (leBytes 8 0x01301245A4000208) = .ok (.vfred ⟨0, 0, 0, false⟩ .min .f32 .rne 1 2 (some 3), []) ∧
    decode (leBytes 8 0x0004D245C0000210) = .ok (.vfmerge ⟨0, 0, 0, false⟩ .f64 1 2 3, []) ∧
    decode (leBytes 8 0x0004D245A3400218) = .ok (.vfscale ⟨0, 0, 0, false⟩ true .f32 .rdn true 1 2 3, []) :=
  ⟨rfl, rfl, rfl, rfl, rfl, rfl, rfl, rfl, rfl, rfl⟩

theorem test_decode_vector_float_3 :
    decode (leBytes 8 0x0000124580200220) = .ok (.vfrint ⟨0, 0, 0, false⟩ .bf16 .rtz 1 2, []) :=
  rfl

theorem test_decode_vector_integer_1 :
    decode (leBytes 8 0x0004D2442103C280) = .ok (.vadd ⟨0, 15, 0, false⟩ .s8 true 1 2 3, []) ∧
    decode (leBytes 8 0x0004D24500000288) = .ok (.vsub ⟨0, 0, 0, false⟩ .n64 false 1 2 3, []) ∧
    decode (leBytes 8 0x0004D24462000290) = .ok (.vmul ⟨0, 0, 0, false⟩ true .s32 false 1 2 3, []) ∧
    decode (leBytes 8 0x0004D244C2000298) = .ok (.vmm ⟨0, 0, 0, false⟩ true .n16 1 2 3, []) ∧
    decode (leBytes 8 0x0004D245060002A0) = .ok (.vlog ⟨0, 0, 0, false⟩ .andn .n64 1 2 3, []) ∧
    decode (leBytes 8 0x0004D244840002A8) = .ok (.vsh ⟨0, 0, 0, false⟩ .sar .s64 1 2 3, []) ∧
    decode (leBytes 8 0x0004D2C4C60002B0) = .ok (.vcmp ⟨0, 0, 0, false⟩ .le .n16 1 2 3, []) ∧
    decode (leBytes 8 0x24001244200002B8) = .ok (.vcvt ⟨0, 0, 0, false⟩ .s4 .s8 0 1 2, []) ∧
    decode (leBytes 8 0x00000245C00002C0) = .ok (.vbcastG ⟨0, 0, 0, false⟩ .f64 1 2, []) ∧
    decode (leBytes 8 0x00000044620002C1 ++ leBytes 4 0xFFFFFFFE) = .ok (.vbcastImm ⟨0, 0, 0, false⟩ .s32 1 (.imm32 0xFFFFFFFE), []) :=
  ⟨rfl, rfl, rfl, rfl, rfl, rfl, rfl, rfl, rfl, rfl⟩

theorem test_decode_vector_integer_2 :
    decode (leBytes 8 0x0000D244A40002C0) = .ok (.vbcastLane ⟨0, 0, 0, false⟩ .n8 1 2 3, []) ∧
    decode (leBytes 8 0x0004D244C00002C8) = .ok (.vshuf ⟨0, 0, 0, false⟩ .n16 1 2 3, []) ∧
    decode (leBytes 8 0x0000D245A40002D0) = .ok (.vslide ⟨0, 0, 0, false⟩ .rot .f32 1 2 3, []) ∧
    decode (leBytes 8 0x0344D244E00002D8) = .ok (.vsel ⟨0, 0, 0, false⟩ .n32 1 2 3 4, []) ∧
    decode (leBytes 8 0x0000D205600002E0) = .ok (.vmovgG ⟨0, 0, 0, false⟩ .f16 1 2 3, []) ∧
    decode (leBytes 8 0x0000C244820002E0) = .ok (.vmovgW ⟨0, 0, 0, false⟩ .s64 1 2 3, []) ∧
    decode (leBytes 8 0x00001244610002E8) = .ok (.vred ⟨0, 0, 0, false⟩ .sum .s32 true 1 2 none, []) ∧
    decode (leBytes 8 0x00001244E20002F0) = .ok (.vscan ⟨0, 0, 0, false⟩ true .n32 false 1 2, []) ∧
    decode (leBytes 8 0x00001245800002F8) = .ok (.vcomp ⟨0, 0, 0, false⟩ .bf16 1 2, []) :=
  ⟨rfl, rfl, rfl, rfl, rfl, rfl, rfl, rfl, rfl⟩

theorem test_decode_memory :
    decode (leBytes 8 0x00000204400C0300) = .ok (.ld ⟨0, 0, 3, false⟩ .s16 ⟨.thread, .relaxed, false⟩ .one (.g 1) ⟨2, none⟩, []) ∧
    decode (leBytes 8 0x00000247F1600301 ++ leBytes 4 0xFFFFFFFC) = .ok (.ld ⟨0, 0, 0, false⟩ (.nf 7) ⟨.dev, .acq, false⟩ .all (.w 1) ⟨2, some 0xFFFFFFFC⟩, []) ∧
    decode (leBytes 8 0x0004C201AA004308) = .ok (.st ⟨0, 1, 0, false⟩ .f32 ⟨.tile, .rel, false⟩ .one ⟨2, none⟩ (.w 3), []) ∧
    decode (leBytes 8 0x0000045DAF800310) = .ok (.lds ⟨0, 0, 0, false⟩ .f32 .quad true true .e4m3 (.w 7) ⟨4, none⟩, []) ∧
    decode (leBytes 8 0x0004C24500000319 ++ leBytes 4 0x8) = .ok (.gather ⟨0, 0, 0, false⟩ .n64 ⟨.thread, .relaxed, false⟩ 1 ⟨2, some 8⟩ 3, []) ∧
    decode (leBytes 8 0x0144C20196000320) = .ok (.scatter ⟨0, 0, 0, false⟩ .bf16 ⟨.sys, .rel, false⟩ ⟨2, none⟩ 3 4, []) ∧
    decode (leBytes 8 0x0000020000200328) = .ok (.pref ⟨0, 0, 0, false⟩ true ⟨2, none⟩, []) ∧
    decode (leBytes 8 0x0000024C00000330) = .ok (.sbind ⟨0, 0, 0, false⟩ 3 ⟨2, none⟩, []) ∧
    decode (leBytes 8 0x0000004802000330) = .ok (.sbindUnbind ⟨0, 0, 0, false⟩ 2, []) :=
  ⟨rfl, rfl, rfl, rfl, rfl, rfl, rfl, rfl, rfl⟩

theorem test_decode_atomics_1 :
    decode (leBytes 8 0x0000C205B3000360) = .ok (.atomAdd ⟨0, 0, 0, false⟩ .f32 ⟨.dev, .acqrel, false⟩ 1 ⟨2, none⟩ 3, []) ∧
    decode (leBytes 8 0x0000C20460200361 ++ leBytes 4 0x4) = .ok (.atomMin ⟨0, 0, 0, false⟩ .s32 ⟨.thread, .relaxed, false⟩ 1 ⟨2, some 4⟩ 3, []) ∧
    decode (leBytes 8 0x0000C20500400360) = .ok (.atomMax ⟨0, 0, 0, false⟩ .n64 ⟨.thread, .relaxed, false⟩ 1 ⟨2, none⟩ 3, []) ∧
    decode (leBytes 8 0x0000C204E5600360) = .ok (.atomAnd ⟨0, 0, 0, false⟩ .n32 ⟨.core, .acq, false⟩ 1 ⟨2, none⟩ 3, []) ∧
    decode (leBytes 8 0x0000C204E0000368) = .ok (.atomOr ⟨0, 0, 0, false⟩ .n32 ⟨.thread, .relaxed, false⟩ 1 ⟨2, none⟩ 3, []) ∧
    decode (leBytes 8 0x0000C20480200368) = .ok (.atomXor ⟨0, 0, 0, false⟩ .s64 ⟨.thread, .relaxed, false⟩ 1 ⟨2, none⟩ 3, []) ∧
    decode (leBytes 8 0x0000C20494C00368) = .ok (.atomSwap ⟨0, 0, 0, false⟩ .s64 ⟨.sys, .relaxed, true⟩ 1 ⟨2, none⟩ 3, []) ∧
    decode (leBytes 8 0x0040C20513600368) = .ok (.atomCas ⟨0, 0, 0, false⟩ .n64 ⟨.dev, .acqrel, false⟩ 1 ⟨2, none⟩ 3 4, []) ∧
    decode (leBytes 8 0x0000C2006E400370) = .ok (.atomRed ⟨0, 0, 0, false⟩ .max .s32 ⟨.quad, .rel, false⟩ ⟨2, none⟩ 3 0, []) ∧
    decode (leBytes 8 0x0040C20080600378) = .ok (.atomRed ⟨0, 0, 0, false⟩ .cas .s64 ⟨.thread, .relaxed, false⟩ ⟨2, none⟩ 3 4, []) :=
  ⟨rfl, rfl, rfl, rfl, rfl, rfl, rfl, rfl, rfl, rfl⟩

theorem test_decode_atomics_2 :
    decode (leBytes 8 0x0000810010000380) = .ok (.ctradd ⟨0, 0, 0, false⟩ .dev ⟨1, none⟩ 2, []) ∧
    decode (leBytes 8 0x0000010C14200381 ++ leBytes 4 0x10) = .ok (.ctrread ⟨0, 0, 0, false⟩ .sys 3 ⟨1, some 16⟩, []) ∧
    decode (leBytes 8 0x1061410C08400380) = .ok (.ctrwait ⟨0, 0, 0, false⟩ .tile 3 4 ⟨1, none⟩ 5 6, []) ∧
    decode (leBytes 8 0x0000C20484000388) = .ok (.ctrarriveMax ⟨0, 0, 0, false⟩ .s64 .core 1 ⟨2, none⟩ 3, []) ∧
    decode (leBytes 8 0x0000C205B0200388) = .ok (.ctrarriveSum ⟨0, 0, 0, false⟩ .dev 1 ⟨2, none⟩ 3, []) ∧
    decode (leBytes 8 0x0000000008000390) = .ok (.fence ⟨0, 0, 0, false⟩ false .tile, []) :=
  ⟨rfl, rfl, rfl, rfl, rfl, rfl⟩

theorem test_decode_stash_and_tasks :
    decode (leBytes 8 0x00008100020003A1 ++ leBytes 4 0x100) = .ok (.stashmap ⟨0, 0, 0, false⟩ true 1 2 (.imm 256), []) ∧
    decode (leBytes 8 0x00000100000003A8) = .ok (.stashunmap ⟨0, 0, 0, false⟩ ⟨1, none⟩, []) ∧
    decode (leBytes 8 0x00008100000003B1 ++ leBytes 4 0x1000) = .ok (.stashflush ⟨0, 0, 0, false⟩ ⟨1, some 4096⟩ 2, []) ∧
    decode (leBytes 8 0x00204000060003C1 ++ leBytes 4 0xFFFFFF00) = .ok (.task ⟨0, 0, 0, false⟩ false .tile 0 1 2 0 (.imm 0xFFFFFF00), []) ∧
    decode (leBytes 8 0x0C204400010003C8) = .ok (.tgrid ⟨0, 0, 0, false⟩ 8 1 2 3 (.reg 4), []) ∧
    decode (leBytes 8 0x00008100000003D0) = .ok (.depart ⟨0, 0, 0, false⟩ 1 (.reg 2), []) ∧
    decode (leBytes 8 0x00000000000003D8) = .ok (.tend ⟨0, 0, 0, false⟩, []) ∧
    decode (leBytes 8 0x00000000020003D8) = .ok (.mswait ⟨0, 0, 0, false⟩, []) :=
  ⟨rfl, rfl, rfl, rfl, rfl, rfl, rfl, rfl⟩

theorem test_decode_porter :
    decode (leBytes 8 0x1440C204002003E2 ++ leBytes 4 0x88 ++ leBytes 4 0x0) = .ok (.prpush ⟨0, 0, 0, false⟩ true 0x88 1 2 3 4 5, []) ∧
    decode (leBytes 8 0x1440C204020003E2 ++ leBytes 4 0x88 ++ leBytes 4 0x0) = .ok (.prget ⟨0, 0, 0, false⟩ false 0x88 1 2 3 4 5, []) ∧
    decode (leBytes 8 0x1440C204042003E2 ++ leBytes 4 0x88 ++ leBytes 4 0x0) = .ok (.prcopy ⟨0, 0, 0, false⟩ true 0x88 1 2 3 4 5, []) ∧
    decode (leBytes 8 0x1440C204060003E2 ++ leBytes 4 0x8 ++ leBytes 4 0x0) = .ok (.prfill ⟨0, 0, 0, false⟩ false 0x8 1 2 3 4 5, []) ∧
    decode (leBytes 8 0x0040C204002003EA ++ leBytes 4 0x0 ++ leBytes 4 0x100) = .ok (.prgath ⟨0, 0, 0, false⟩ true 0x0 256 1 2 3 4 0, []) ∧
    decode (leBytes 8 0x0040C205A20003EA ++ leBytes 4 0x0 ++ leBytes 4 0x100) = .ok (.prscat ⟨0, 0, 0, false⟩ false .f32 0x0 256 1 2 3 4 0, []) ∧
    decode (leBytes 8 0x0040C205844003EA ++ leBytes 4 0x0 ++ leBytes 4 0x1234A5) = .ok (.prrow ⟨0, 0, 0, false⟩ false .max .bf16 0x0 0xA5 0x1234 1 2 3 4 0, []) :=
  ⟨rfl, rfl, rfl, rfl, rfl, rfl, rfl⟩

theorem test_decode_matrix :
    decode (leBytes 8 0x10308121A00803F2 ++ leBytes 4 0x240118C ++ leBytes 4 0xA0) = .ok (.mma ⟨0, 0, 2, false⟩ .f32 0x0240118C 0xA0 8 1 2 3 4, []) ∧
    decode (leBytes 8 0x10008120020003F2 ++ leBytes 4 0x1C24C ++ leBytes 4 0x0) = .ok (.mmaq ⟨0, 0, 0, false⟩ .none 0x1C24C 0 8 1 2 0 4, []) ∧
    decode (leBytes 8 0x10308121840003F2 ++ leBytes 4 0x240230 ++ leBytes 4 0x100) = .ok (.mmab ⟨0, 0, 0, false⟩ .bf16 0x240230 0x100 8 1 2 3 4, []) ∧
    decode (leBytes 8 0x10300021E60003F2 ++ leBytes 4 0x38000 ++ leBytes 4 0x40) = .ok (.accld ⟨0, 0, 0, false⟩ .w80 0x38000 0x40 8 3 4, []) ∧
    decode (leBytes 8 0x10300021A80003F2 ++ leBytes 4 0x26B8000 ++ leBytes 4 0x40) = .ok (.accst ⟨0, 0, 0, false⟩ .f32 0x26B8000 0x40 8 3 4, []) ∧
    decode (leBytes 8 0x00000204102003F0) = .ok (.jwait ⟨0, 0, 0, false⟩ true 1 2, []) ∧
    decode (leBytes 8 0x00000200100003F0) = .ok (.jwait ⟨0, 0, 0, false⟩ false 0 2, []) ∧
    decode (leBytes 8 0x000002FC120003F0) = .ok (.jpoll ⟨0, 0, 0, false⟩ 7 2, []) :=
  ⟨rfl, rfl, rfl, rfl, rfl, rfl, rfl, rfl⟩

/-- The header of an unmarked, unguarded instruction. -/
def hd : Hdr := ⟨0, 0, 0, false⟩
/-- A header with a lane guard. -/
def hdLanes : Hdr := ⟨0, 1, 0, false⟩
/-- A header with a cache hint. -/
def hdHint : Hdr := ⟨0, 0, 1, false⟩
/-- A header with the reserved cache hint. -/
def hdSeven : Hdr := ⟨0, 0, 7, false⟩
/-- No order and no scope. -/
def relaxed : MemOrd := ⟨.thread, .relaxed, false⟩

-- One ill-formed term for each check of Instr.wf.
theorem test_wf_headers :
    (Instr.add hdLanes .s64 false 1 2 (.reg 3)).wf = false ∧ (Instr.add hdHint .s64 false 1 2 (.reg 3)).wf = false ∧
    (Instr.vadd hdHint .s64 false 1 2 3).wf = false ∧ (Instr.gather hdSeven .s32 relaxed 1 ⟨2, none⟩ 3).wf = false ∧
    (Instr.ld hdSeven .s32 relaxed .one (.w 1) ⟨2, none⟩).wf = false ∧
    (Instr.ld hdLanes .s32 relaxed .one (.g 1) ⟨2, none⟩).wf = false ∧ (Instr.st hdLanes .s32 relaxed .one ⟨2, none⟩ (.g 1)).wf = false ∧
    (Instr.fence hdLanes true .dev).wf = false ∧ (Instr.pref hdSeven true ⟨1, none⟩).wf = false ∧ (Instr.tend hdHint).wf = false ∧
    (Instr.sbindUnbind hdHint 1).wf = false ∧ (Instr.jwait hdHint false 0 1).wf = false ∧
    (Instr.mma hdLanes .f32 0 0 1 2 3 4 5).wf = false ∧ (Instr.sysr hdHint 1 (.num 0)).wf = false := by decide

theorem test_wf_types :
    (Instr.add hd .f32 false 1 2 (.reg 3)).wf = false ∧ (Instr.bext hd .s32 1 2 (.reg 3)).wf = false ∧
    (Instr.cvt hd .f32 .s32 1 2).wf = false ∧ (Instr.cvt hd .s32 .none 1 2).wf = false ∧ (Instr.mfirst hd .w80 1 (.imm 3)).wf = false ∧
    (Instr.vfadd hd .s32 .rne false 1 2 3).wf = false ∧ (Instr.vadd hd .f32 false 1 2 3).wf = false ∧
    (Instr.vcmp hd .eq .s8 1 2 3).wf = false ∧ (Instr.vbcastG hd .q4 1 2).wf = false ∧
    (Instr.vfcvt hd .s8 .s16 0 .rne false 1 2).wf = false ∧ (Instr.vcvt hd .f32 .s32 0 1 2).wf = false ∧
    (Instr.ld hd .q4 relaxed .one (.w 1) ⟨2, none⟩).wf = false ∧ (Instr.ld hd .s4 relaxed .one (.g 1) ⟨2, none⟩).wf = false ∧
    (Instr.gather hd .s8 relaxed 1 ⟨2, none⟩ 3).wf = false ∧ (Instr.atomAdd hd .f64 relaxed 1 ⟨2, none⟩ 3).wf = false ∧
    (Instr.atomMin hd .f32 relaxed 1 ⟨2, none⟩ 3).wf = false ∧ (Instr.atomRed hd .swap .bf16 relaxed ⟨2, none⟩ 3 0).wf = false ∧
    (Instr.ctrarriveMax hd .s32 .dev 1 ⟨2, none⟩ 3).wf = false ∧ (Instr.prscat hd false .f16 0 16 1 2 3 4 0).wf = false ∧
    (Instr.prrow hd false .sum .s32 0 1 0 1 2 3 4 0).wf = false := by decide

theorem test_wf_fields :
    (Instr.lea hd 7 1 2 (.reg 3)).wf = false ∧ (Instr.plog hd .not 1 2 3).wf = false ∧ (Instr.mlog hd .not 1 2 3).wf = false ∧
    (Instr.vfsgn hd .abs .f32 1 2 3).wf = false ∧ (Instr.vlog hd .not .s32 1 2 3).wf = false ∧
    (Instr.vfred hd .sum .f32 .sr 1 2 none).wf = false ∧ (Instr.vfred hd .max .f32 .rtz 1 2 none).wf = false ∧
    (Instr.vmul hd true .s32 true 1 2 3).wf = false ∧ (Instr.vred hd .max .s32 true 1 2 none).wf = false ∧
    (Instr.vfcvt hd .f32 .s32 0 .rne true 1 2).wf = false ∧ (Instr.vfcvt hd .f32 .bf16 2 .rne false 1 2).wf = false ∧
    (Instr.vcvt hd .s4 .s8 2 1 2).wf = false ∧ (Instr.vbcastImm hd .f64 1 (.imm32 0)).wf = false ∧
    (Instr.vbcastImm hd .f16 1 (.imm32 0x10000)).wf = false ∧ (Instr.vbcastImm hd .f32 1 (.imm64 0)).wf = false ∧
    (Instr.ld hd .s32 relaxed .two (.w 1) ⟨2, none⟩).wf = false ∧ (Instr.lds hd .f64 .thread false false .full (.g 1) ⟨2, none⟩).wf = false ∧
    (Instr.lds hd .f16 .thread false false .bf16 (.g 1) ⟨2, none⟩).wf = false ∧
    (Instr.lds hd .f16 .thread false true .f16 (.g 1) ⟨2, none⟩).wf = false ∧
    (Instr.lds hd .f32 .dev false false .full (.g 1) ⟨2, none⟩).wf = false ∧ (Instr.jwait hd false 1 2).wf = false := by decide

theorem test_wf_orders :
    (Instr.ld hd .s32 ⟨.dev, .relaxed, false⟩ .one (.g 1) ⟨2, none⟩).wf = false ∧
    (Instr.ld hd .s32 ⟨.dev, .rel, false⟩ .one (.g 1) ⟨2, none⟩).wf = false ∧
    (Instr.ld hd .s32 ⟨.dev, .acq, true⟩ .one (.g 1) ⟨2, none⟩).wf = false ∧
    (Instr.st hd .s32 ⟨.dev, .acqrel, false⟩ .one ⟨2, none⟩ (.g 1)).wf = false ∧
    (Instr.scatter hd .s32 ⟨.dev, .acq, false⟩ ⟨2, none⟩ 1 3).wf = false ∧
    (Instr.atomSwap hd .s32 ⟨.dev, .relaxed, false⟩ 1 ⟨2, none⟩ 3).wf = false ∧
    (Instr.atomRed hd .add .s32 ⟨.dev, .acq, false⟩ ⟨2, none⟩ 3 0).wf = false ∧
    (Instr.atomRed hd .add .s32 relaxed ⟨2, none⟩ 3 1).wf = false := by decide

theorem test_wf_tasks_and_jobs :
    (Instr.task hd true .none 9 1 0 2 (.reg 3)).wf = false ∧ (Instr.task hd true .none 8 1 0 9 (.reg 3)).wf = false ∧
    (Instr.task hd true .none 0 1 0 2 (.reg 3)).wf = false ∧ (Instr.task hd true .none 0 1 4 0 (.reg 3)).wf = false ∧
    (Instr.tgrid hd 9 1 2 0 (.reg 3)).wf = false ∧ (Instr.prcopy hd false 0x200 1 2 3 4 0).wf = false ∧
    (Instr.prcopy hd false 0x0E 1 2 3 4 5).wf = false ∧ (Instr.prcopy hd false 0xE0 1 2 3 4 5).wf = false ∧
    (Instr.prcopy hd false 0x01 1 2 3 4 0).wf = false ∧ (Instr.prcopy hd false 0x10 1 2 3 4 0).wf = false ∧
    (Instr.prcopy hd false 0 1 2 3 4 1).wf = false ∧ (Instr.prcopy hd false 0x80 1 2 3 4 15).wf = false ∧
    (Instr.prfill hd false 0x80 1 2 3 4 5).wf = false ∧ (Instr.prcopy hd false 0x100 1 2 3 4 0).wf = false ∧
    (Instr.prgath hd false 0 16 1 2 3 15 0).wf = false := by decide

-- Words that name no instruction (R290, R297, R302): an opcode without a row, a sub-operation past the last, a register of the
-- wrong class, a reserved field not zero, a length the opcode does not define, and LEN = 0b11.
theorem test_decode_refuses :
    decode (leBytes 8 (0x1F * 8)) = .error .opcode ∧ decode (leBytes 8 (0x77 * 8)) = .error .opcode ∧
    decode (leBytes 8 (0x58 * 8 + 2 ^ 21 * (3 * 16) + 2 ^ 29)) = .error .minor ∧
    decode (leBytes 8 (2 ^ 34 * 16 + 2 ^ 29 * 4)) = .error .operandClass ∧
    decode (leBytes 8 (2 ^ 58 + 2 ^ 29 * 4)) = .error .reserved ∧ decode (leBytes 8 (0x20 * 8)) = .error .length ∧
    decode (leBytes 8 (0x7B * 8 + 1) ++ leBytes 4 0) = .error .length ∧
    decode (leBytes 8 3) = .error .fetchx ∧ decode (leBytes 7 0) = .error .short :=
  ⟨rfl, rfl, rfl, rfl, rfl, rfl, rfl, rfl, rfl⟩

-- Small states, and what is true of them whatever registers an instruction names.

/-- An assured task's thread that has just begun, after f. -/
def worker (f : Thread → Thread) : Thread := f (fetchThread 0)
/-- A slot of core 1 of tile 0 that runs it, in a package with run 0 resident and nothing else. -/
def atWork (t : Thread) : State :=
  { State.reset with focus := 8, threads := [(8, t)], runs := [(0, { Run.reset with phase := .resident })] }
/-- A service slot's thread, after f, and the package in which its turn it is. -/
def server (f : Thread → Thread) : Thread := f { fetchThread 0 with task := none }
def atService (t : Thread) : State := { State.reset with focus := 0, threads := [(0, t)] }
/-- The addresses of the thread's own stash and of a line of it. -/
def own (off : Nat) : BitVec 64 := BitVec.ofNat 64 (0xFF * 2 ^ 48 + off)

def t0 : Thread := worker id
def s0 : State := atWork t0
def v0 : Thread := server id
def k0 : State := atService v0

theorem pending_none (t : Thread) (h : t.pend = 0) (n : Nat) : t.pending n = false := by
  simp [Thread.pending, h]
theorem s0_issues (ns : List Nat) : s0.Issues t0 hd ns :=
  ⟨by decide +kernel, fun h => absurd h (by decide), fun n _ => pending_none t0 (by decide +kernel) n, by decide +kernel⟩
theorem k0_issues (ns : List Nat) : k0.Issues v0 hd ns :=
  ⟨by decide +kernel, fun h => absurd h (by decide), fun n _ => pending_none v0 (by decide +kernel) n, by decide +kernel⟩
theorem s0_marked : s0.IssuesMarked t0 hd := ⟨by decide +kernel, by decide +kernel, by decide +kernel⟩
theorem t0_unbound (rs : List WReg) : t0.Unbound rs := fun r _ => by
  have h : ∀ r : WReg, t0.stream? r = none := by decide +kernel
  exact h r
theorem k0_quiet : k0.Privileged ∧ k0.Quiet v0 :=
  ⟨by unfold State.Privileged; decide +kernel, by unfold State.Quiet; decide +kernel⟩
theorem s0_quiet : s0.Quiet t0 := by unfold State.Quiet; decide +kernel

/-- An outcome that is a next state. -/
def isNext : Host.Outcome State Fault Refusal → Bool
  | .next _ => true
  | _ => false
theorem next_of {o : Host.Outcome State Fault Refusal} (h : isNext o = true) : ∃ u, o = .next u := by
  cases o with
  | next u => exact ⟨u, rfl⟩
  | fault f => cases h
  | refused r => cases h
/-- An answer that is ok with a given value. -/
def okIs {ε α : Type} [DecidableEq α] (e : Except ε α) (x : α) : Bool :=
  match e with
  | .ok y => decide (y = x)
  | .error _ => false
theorem ok_of {ε α : Type} [DecidableEq α] {e : Except ε α} {x : α} (h : okIs e x = true) : e = .ok x := by
  cases e with
  | ok y => exact congrArg _ (of_decide_eq_true h)
  | error e => cases h

-- For every statement, states and operands that meet its hypotheses.

theorem witness_EncodeDecode : (Instr.add hd .s64 false 1 2 (.reg 3)).wf = true ∧
    (encodeRaw (.add hd .s64 false 1 2 (.reg 3))).isSome = true := by decide +kernel
theorem witness_DecodeExact : decode (leBytes 8 0x3D8) = .ok (.tend hd, []) ∧ (0xFF : Byte).toNat % 4 = 3 := ⟨rfl, by decide⟩

/-- A nop stands at the PC of slot 8, whose turn it is. -/
def nopNext : State := State.reset.withFetchWord 64 0xB8
def nopS : State := { nopNext with agenda := [], focus := 8 }
def nopFetched (p : BitVec 256 → State → Bool) : Bool :=
  match nopS.blockFor 8 (fetchThread 0xB8) 0x10000 with
  | .block v s => p v s
  | _ => false
theorem fetched_of {p : BitVec 256 → State → Bool} (h : nopFetched p = true) :
    ∃ v s, nopS.blockFor 8 (fetchThread 0xB8) 0x10000 = .block v s ∧ p v s = true := by
  unfold nopFetched at h
  split at h
  · exact ⟨_, _, ‹_›, h⟩
  · cases h
theorem witness_StepRunsDecoded : nopNext.agenda = [.issue 8] ∧ nopS.canIssue 8 = true ∧
    nopS.thread? 8 = some (fetchThread 0xB8) ∧ (fetchThread 0xB8).ending = false ∧ (fetchThread 0xB8).pc.toNat = 0x10000 ∧ 0x10000 % 8 = 0 ∧
    (∃ v s1, nopS.blockFor 8 (fetchThread 0xB8) 0x10000 = .block v s1 ∧
      (decide (s1.thread? 8 = some (fetchThread 0xB8)) && !fetchx v 0 && okIs (decode (instrBytes v 0)) (.nop hd .none, [])) = true) :=
  by refine ⟨?_, ?_, ?_, ?_, ?_, by decide, fetched_of ?_⟩ <;> decide +kernel

/-- A thread that executes from a block: first a word with LEN 0b11, then at offset 24 the first half of a 16-byte word, then at
offset 8 an opcode that no row has. -/
def blockThread (pc : Nat) : Thread :=
  worker fun t => { t with pc := BitVec.ofNat 56 pc, block := some (0x10000, BitVec.ofNat 256 (3 + 2 ^ 64 * 0xF8 + 2 ^ 192 * 2)) }
def blockState (pc : Nat) : State := { atWork (blockThread pc) with agenda := [.issue 8] }
/-- The same at the FUNC of a task, which is not 8-byte aligned. -/
def funcThread : Thread := { blockThread 0x10004 with task := some { fetchTask with func := 0x10004 } }
theorem witness_FetchChecks_func : ({ atWork funcThread with agenda := [.issue 8] } : State).canIssue 8 = true ∧
    (atWork funcThread).thread? 8 = some funcThread ∧ funcThread.ending = false ∧ funcThread.pc.toNat % 4 = 0 ∧
    funcThread.pc.toNat % 8 ≠ 0 ∧ funcThread.task = some { fetchTask with func := 0x10004 } ∧ funcThread.pc = 0x10004 := by
  decide +kernel
theorem witness_FetchChecks :
    (∀ pc ∈ [0x10002, 0x10000, 0x10018, 0x10008, 0x1001C], (blockState pc).agenda = [.issue 8] ∧
      State.canIssue { blockState pc with agenda := [], focus := 8 } 8 = true ∧
      State.thread? { blockState pc with agenda := [], focus := 8 } 8 = some (blockThread pc) ∧ (blockThread pc).ending = false) ∧
    (blockThread 0x10002).pc.toNat % 4 ≠ 0 ∧ (∀ pc ∈ [0x10000, 0x10018, 0x10008], (blockThread pc).pc.toNat % 8 = 0) ∧
    (∀ pc ∈ [0x10000, 0x10018, 0x10008, 0x1001C], (blockThread pc).blockAt 0x10000 = (blockThread 0).block.map fun x => x.2) ∧
    ((blockThread 0x1001C).pc.toNat % 4 = 0 ∧ (blockThread 0x1001C).task = some fetchTask ∧ fetchTask.func ≠ 0x1001C ∧ 24 < 0x1C ∧
      32 < 0x1C + 8 ∧ (3 + 2 ^ 64 * 0xF8 + 2 ^ 192 * 2) / 2 ^ (8 * 0x1C) % 4 = 0) ∧
    (3 + 2 ^ 64 * 0xF8 + 2 ^ 192 * 2) / 2 ^ (8 * 0) % 4 = 3 ∧ 32 < 0x18 + 16 ∧
    (3 + 2 ^ 64 * 0xF8 + 2 ^ 192 * 2) / 2 ^ (8 * 0x18) % 4 = 2 ∧ decode (leBytes 8 0xF8) = .error .opcode :=
  by
  refine ⟨?_, ?_, ?_, ?_, ?_, ?_, ?_, ?_, rfl⟩ <;> decide +kernel
theorem witness_ExecAnswers : (s0.thread? s0.focus).isSome = true := by decide +kernel
theorem witness_StepStops : State.agenda { State.reset with fatal := true } = [] ∧
    State.fatal { State.reset with fatal := true } = true := by decide +kernel
theorem witness_StepKeepsMemoryForm : nopNext.wf = true ∧ ∃ u, step nopNext = .next u :=
  ⟨by decide +kernel, next_of (by decide +kernel)⟩
theorem witness_RegisterFile : (0 : Nat) < 64 ∧ (0 : Nat) ≠ 48 ∧ (0 : Nat) ≠ 56 := by decide

/-- Guarded by !p0, which never holds. -/
def hdNever : Hdr := ⟨8, 0, 0, false⟩
theorem witness_GuardFalseEnds : (∃ r, encodeRaw (.add hdNever .s64 false 1 2 (.reg 3)) = some r ∧
      (t0.getP (r.pg.setWidth 3) ^^ r.pg.getLsbD 3) = false) ∧
    (Instr.add hdNever .s64 false 1 2 (.reg 3)).wf = true ∧ s0.thread? s0.focus = some t0 ∧ t0.pend = 0 ∧
    (t0.getP (hdNever.pg.setWidth 3) ^^ hdNever.pg.getLsbD 3) = false ∧ Ty.s64.isNf = false :=
  ⟨⟨_, rfl, by decide +kernel⟩, by decide +kernel, by decide +kernel, by decide +kernel, by decide +kernel, by decide +kernel⟩

/-- g2 awaits a result. -/
def tWait : Thread := worker fun t => t.setPend (numG 2)
theorem witness_PendingChecks : (atWork tWait).thread? 8 = some tWait ∧ tWait.pend ≠ 0 ∧
    (∃ r, encodeRaw (.add ⟨0, 0, 0, true⟩ .s64 false 1 2 (.reg 3)) = some r ∧ r.sw = true) ∧
    (∃ r, encodeRaw (.tend hd) = some r ∧ r.sw = false) ∧ (Instr.tend hd).actsMarked = true ∧
    (∃ r, encodeRaw (.add hd .s64 false 1 2 (.reg 3)) = some r ∧ r.sw = false ∧
      numG 2 ∈ numP (r.pg.setWidth 3) :: numM (r.mg.setWidth 3) :: (Instr.add hd .s64 false 1 2 (.reg 3)).names) ∧
    (Instr.add hd .s64 false 1 2 (.reg 3)).actsMarked = false ∧ (Instr.add ⟨0, 0, 0, true⟩ .s64 false 1 2 (.reg 3)).wf = true ∧
    (Instr.add hd .s64 false 1 2 (.reg 3)).wf = true ∧ tWait.pending (numG 2) = true ∧
    Thread.park { tWait with park := .marker } = .marker ∧ t0.pend = 0 ∧ Thread.park { tWait with park := .pendread } = .pendread ∧
    t0.outs = [] :=
  ⟨by decide +kernel, by decide +kernel, ⟨_, rfl, by decide +kernel⟩, ⟨_, rfl, by decide +kernel⟩, by decide, ⟨_, rfl, by decide +kernel⟩,
    by decide, by decide, by decide, by decide +kernel, rfl, by decide +kernel, rfl, by decide +kernel⟩

/-- A walk's fault of a worker's load, and the package in which a record of it waits to be posted. -/
def pageTrap : Trap := { cause := .page, acc := .read, va := 0x40000, pa := none, detail := 0 }
def pageRecord : Record := s0.threadRecord 8 t0 pageTrap
def pageWaits : State := { s0 with records := [pageRecord] }
/-- A speculative task at key (5, 1), in a package where it is, or is not, earliest. -/
def tSpec : Thread := worker fun t => { t with task := some { fetchTask with spec := true, ts := 5, tb := 1, hasTb := true } }
theorem witness_TrapEntry : (atWork t0).thread? 8 = some t0 ∧ (t0.task = some fetchTask ∧ fetchTask.spec = false) ∧
    (k0.thread? 0 = some v0 ∧ v0.task = none) ∧ (atWork tSpec).thread? 8 = some tSpec ∧
    (∃ k, tSpec.task = some k ∧ k.spec = true ∧ k.standing = false ∧ ((atWork tSpec).run 0).milestone ≠ k.key ∧
      Task.standing { k with standing := true } = true) ∧
    s0.records.any (s0.threadRecord 8 t0 pageTrap).joins = false ∧
    pageWaits.records.any (pageWaits.threadRecord 8 t0 pageTrap).joins = true ∧ pageWaits.thread? 8 = some t0 :=
  ⟨by decide +kernel, by decide +kernel, by decide +kernel, by decide +kernel, ⟨_, rfl, by decide +kernel⟩, by decide +kernel,
    by decide +kernel, by decide +kernel⟩
/-- A worker whose tile's debug module is armed, and a service slot on one. -/
def armed (s : State) : State := { s with regs := [(0x500, 4)] }
theorem witness_BreakpointAndSwtrap :
    (s0.Issues t0 hd [] ∧ bitOf (s0.reg (dbgReg (tileOf s0.focus))) 2 = false ∧ t0.task ≠ none ∧ s0.provisional t0 = false) ∧
    ((atWork tSpec).Issues tSpec hd [] ∧ bitOf ((atWork tSpec).reg (dbgReg 0)) 2 = false ∧ tSpec.task ≠ none ∧
      (atWork tSpec).provisional tSpec = true) ∧
    (k0.Issues v0 hd [] ∧ bitOf (k0.reg (dbgReg (tileOf k0.focus))) 2 = false ∧ v0.task = none) ∧
    ((armed s0).Issues t0 hd [] ∧ bitOf ((armed s0).reg (dbgReg 0)) 2 = true ∧ isInnkeeperCore (coreOf (armed s0).focus) = false ∧
      tileOf (armed s0).focus < 256) ∧
    ((armed k0).Issues v0 hd [] ∧ isInnkeeperCore (coreOf (armed k0).focus) = true) ∧ ∃ r, encodeRaw (.swtrap hd 13) = some r := by
  unfold State.Issues
  exact ⟨by decide +kernel, by decide +kernel, by decide +kernel, by decide +kernel, by decide +kernel, _, rfl⟩
theorem witness_PrivilegeTraps : (∃ r, encodeRaw (.tlbinvAll hd) = some r ∧ r.op = 0x7F ∧ t0.guard r.pg = true) ∧
    (Instr.tlbinvAll hd).wf = true ∧ (∀ h x b, Instr.tlbinvAll hd ≠ .cflush h x b) ∧ s0.thread? s0.focus = some t0 ∧ t0.pend = 0 ∧
    ¬s0.Privileged ∧ s0.focus < 16384 :=
  ⟨⟨_, rfl, by decide +kernel, by decide +kernel⟩, by decide +kernel, fun _ _ _ h => (by cases h), by decide +kernel, by decide +kernel,
    by unfold State.Privileged; decide +kernel, by decide +kernel⟩

theorem witness_ScalarArithmetic : Ty.s64.isInt = true ∧ ∀ ns, s0.Issues t0 hd ns := ⟨rfl, s0_issues⟩
theorem witness_ScalarHelpers : ∀ ty ∈ [Ty.s8, .s16, .s32, .s64, .n8, .n16, .n32, .n64], ty.isInt = true := by decide
theorem witness_ScalarLogicShifts : Ty.n8.isInt = true ∧ ∀ ns, s0.Issues t0 hd ns := ⟨rfl, s0_issues⟩
theorem witness_ScalarBits : Ty.n64.isInt = true ∧ Ty.n64.fixedWidth = 64 ∧ Ty.s8.isInt = true ∧ ∀ ns, s0.Issues t0 hd ns :=
  ⟨rfl, rfl, rfl, s0_issues⟩
theorem witness_ScalarMoves : ∀ ns, s0.Issues t0 hd ns := s0_issues

/-- A thread with n results to come, the first for g1. -/
def tOuts (n : Nat) : Thread := worker fun t => (List.range n).foldl (fun t k => t.addOut (readyOut t0 (numG (1 + BitVec.ofNat 4 k)) 7)) t
def tFull : Thread := worker fun t => { t with outs := (tOuts 15).outs ++ [readyOut t0 (numG 1) 7] }
theorem witness_DivRem : (∀ ns, s0.Issues t0 hd ns) ∧ Ty.s64.isInt = true ∧ t0.outs.length < 16 ∧
    (atWork tFull).Issues tFull hd [numG 1, numG 2, numG 3] ∧ 16 ≤ tFull.outs.length ∧ valOf .s64 7 ≠ 0 ∧ valOf .s64 0 = 0 ∧
    (atWork (tOuts 1)).thread? 8 = some (tOuts 1) ∧ (tOuts 1).outs = [readyOut t0 (numG 1) 7] :=
  ⟨s0_issues, rfl, by decide +kernel, by unfold State.Issues; decide +kernel, by decide +kernel, by decide +kernel, by decide +kernel,
    by decide +kernel, by decide +kernel⟩
theorem witness_PredicatesAndMasks : (∀ ns, s0.Issues t0 hd ns) ∧ (Instr.mfirst hd .s4 1 (.imm 3)).wf = true :=
  ⟨s0_issues, by decide⟩
/-- g1 holds 1. -/
def tOne : Thread := worker fun t => t.setG 1 1
theorem witness_ControlTransfers : (∀ ns, s0.Issues t0 hd ns) ∧ t0.rep.act = false ∧ t0.getG 1 ≠ 1 ∧
    (atWork tOne).Issues tOne hd [numG 1] ∧ tOne.rep.act = false ∧ tOne.getG 1 = 1 :=
  ⟨s0_issues, by decide +kernel, by decide +kernel, by unfold State.Issues; decide +kernel, by decide +kernel, by decide +kernel⟩

/-- A thread that executes from a block of nops. -/
def tNops (r : RepeatState) (n : BitVec 64) : Thread :=
  worker fun t => { t.setG 1 n with rep := r, block := some (0x10000, BitVec.ofNat 256 (0xB8 + 2 ^ 64 * 0xB8 + 2 ^ 128 * 0xB8)) }
def rOff : RepeatState := ⟨false, 0, 0, 0, 0⟩
def scan0 : Scan := Scan.go 8 (tNops rOff 0) 1
  { s := atWork (tNops rOff 0), kept := (tNops rOff 0).block.toList, pc := 0x10008, bad := false, trap := none, wait := false }
theorem witness_RepeatBlocks :
    ((tNops rOff 0).rep.act = false ∧ (atWork (tNops rOff 0)).Issues (tNops rOff 0) hd [numG 1] ∧ (tNops rOff 0).getG 1 = 0 ∧
      scan0.trap = none ∧ scan0.wait = false ∧ scan0.pc = 0x10010 ∧ (tNops rOff 3).getG 1 ≠ 0 ∧
      (atWork (tNops rOff 3)).Issues (tNops rOff 3) hd [numG 1]) ∧
    ((tNops ⟨true, 0, 1, 2, 0⟩ 0).rep.act = true ∧
      (atWork (tNops ⟨true, 0, 1, 2, 0⟩ 0)).thread? 8 = some (tNops ⟨true, 0, 1, 2, 0⟩ 0)) ∧
    ((0 : Nat) < 1 ∧ (1 : Nat) ≤ 1 ∧ (1 : Nat) < 2 ∧ (1 : Nat) ≤ 1) ∧
    (((tNops rOff 0).block.toList.find? fun e => e.1 == blockBase (0x10008 : BitVec 56)).isSome = true ∧
      fetchx (BitVec.ofNat 256 (0xB8 + 2 ^ 64 * 0xB8 + 2 ^ 128 * 0xB8)) 8 = false) :=
  by refine ⟨⟨?_, by unfold State.Issues; decide +kernel, ?_, ?_, ?_, ?_, ?_, by unfold State.Issues; decide +kernel⟩, ?_, ?_,
    ?_⟩ <;> decide +kernel
theorem witness_IdentityRegisters : t0.task = some fetchTask ∧ (∀ ns, s0.Issues t0 hd ns) ∧ s0.thread? s0.focus = some t0 :=
  ⟨by decide +kernel, s0_issues, by decide +kernel⟩
theorem witness_UserControlAndTime : t0.fmt.length = 8 ∧ t0.mq.length = 4 ∧ (∀ ns, s0.Issues t0 hd ns) ∧
    s0.itinMode 0 = none ∧ (0x30000 : Nat) / 2 ^ 16 % 4 = 3 ∧ (0x20000 : Nat) / 2 ^ 16 % 4 ≠ 3 ∧ (3 : Nat) % 4 = 3 ∧
    ∀ k, t0.task = some k → k.run = 0 :=
  ⟨by decide +kernel, by decide +kernel, s0_issues, by decide +kernel, by decide, by decide, by decide, fun k h => by
    rw [show t0.task = some fetchTask from by decide +kernel] at h; cases h; rfl⟩
theorem witness_SystemRegisters : k0.Privileged ∧ k0.Quiet v0 ∧ (∀ ns, k0.Issues v0 hd ns) ∧ regSpec 0x001 = none ∧
    (regSpec 0x00C).isSome = true ∧ (regSpec 0x1FF).isSome = true ∧ v0.outs.length < 16 ∧ k0.sysRefused 0x620 0 = false :=
  by refine ⟨k0_quiet.1, k0_quiet.2, k0_issues, ?_, ?_, ?_, ?_, ?_⟩ <;> decide +kernel

/-- A record of slot 8's thread, which waits for its reply; posted with TOKEN 9, or still to be posted. -/
def aRecord (token : Option (BitVec 32)) : Record :=
  { agent := .thread 8, die := 0, words := [0x101, 0, 0, 0, 0, 0, 0, 0], token := token, trap := .plain .illop, run := some 0, joined := [] }
def tFault : Thread := { t0 with park := .fault }
def answered : State :=
  { k0 with threads := [(0, v0), (8, tFault)], records := [aRecord (some 9)], runs := [(0, { Run.reset with phase := .resident })] }
theorem witness_FaultService : (k0.Privileged ∧ k0.Quiet v0 ∧ (∀ ns, k0.Issues v0 hd ns) ∧ ∀ y ∈ k0.records, y.token ≠ some 9) ∧
    (answered.Privileged ∧ answered.Quiet v0 ∧ answered.Issues v0 hd [numG 1] ∧
      answered.records.find? (fun y => y.token == some ((v0.srcZ (.imm 9)).setWidth 32)) = some (aRecord (some 9)) ∧
      (aRecord (some 9)).joined = [] ∧ (8 : Nat) ≠ answered.focus ∧ answered.thread? 8 = some tFault ∧ tFault.park = .fault ∧
      tFault.task = some fetchTask ∧ fetchTask.run < 16 ∧ (answered.run 0).phase ≠ .free) ∧
    ((k0.reg 0x0E1 + 2 ^ 32 - k0.reg 0x0E2) % 2 ^ 32 = 0 ∧ v0.outs.length < 16 ∧
      (State.reg { k0 with regs := [(0x0E1, 2)] } 0x0E1 + 2 ^ 32 - 0) % 2 ^ 32 ≠ 0) ∧
    (State.thread? { k0 with threads := [(0, { v0 with park := .fltwait 1 0 8 })] } 0 = some { v0 with park := .fltwait 1 0 8 }) :=
  by refine ⟨⟨k0_quiet.1, k0_quiet.2, k0_issues, ?_⟩, ⟨by unfold State.Privileged; decide +kernel, by unfold State.Quiet; decide +kernel,
    by unfold State.Issues; decide +kernel, ?_, ?_, ?_, ?_, ?_, ?_, ?_, ?_⟩, ?_, ?_⟩ <;> decide +kernel

def toPost (regs : Sparse (BitVec 64)) : State := { s0 with records := [aRecord none], regs := regs }
theorem witness_FaultMailbox :
    ((toPost []).records.find? (fun x => x.die == 0 && x.token.isNone) = some (aRecord none) ∧ (toPost []).faultCfg.1 = true ∧
      (toPost []).faultCount 0 < (toPost []).faultCfg.2.2 ∧
      (toPost []).faultCfg.2.1 + 64 * ((toPost []).faultTail 0 % (toPost []).faultCfg.2.2) + 64 ≤ 2 ^ 20 ∧
      (aRecord none).words.length = 8) ∧
    ((toPost [(0x0E0, 0xF0008)]).faultCfg.1 = false ∧ (toPost [(0x0E1, 256)]).faultCfg.2.2 ≤ (toPost [(0x0E1, 256)]).faultCount 0) ∧
    (∀ x ∈ answered.records, x.die = 0 → x.token ≠ none) ∧
    (2 ^ 20 < 4096 * bitsOf (0xFF008 : BitVec 64).toNat 12 8 + 64 * 2 ^ Nat.min 12 (Nat.max 4 (bitsOf (0xFF008 : BitVec 64).toNat 0 4))) ∧
    (s0.faultCfgRefused 0xF0008 = false ∧ s0.reg 0x0E0 < 2 ^ 64 ∧ (∀ d < 4, s0.faultCount d = 0) ∧
      ∃ d < 4, (toPost [(0x0E1, 256)]).faultCount d ≠ 0) :=
  by refine ⟨?_, ?_, ?_, ?_, ?_⟩ <;> decide +kernel
theorem witness_FatalFaults : (1 : Nat) < 256 ∧ (1 : Nat) % 64 ≠ 0 ∧ (64 : Nat) % 64 = 0 ∧ (s0.run 0).phase ≠ .free ∧
    s0.runOnTile 0 0 = true ∧ s0.agenda = [] := by decide +kernel

/-- A service slot whose g1 holds the address of a line of HBM and g2 a count of bytes, with the identity translation of its page. -/
def keeper (a n : Nat) : State :=
  let t := server fun t => (t.setG 1 (BitVec.ofNat 64 a)).setG 2 (BitVec.ofNat 64 n)
  let s := State.reset.withFetchWord 64 0x3F8
  { s with agenda := [], focus := 0, threads := [(0, t)], mem := { s.mem with chip := [] } }
def keeperThread (a n : Nat) : Thread := server fun t => (t.setG 1 (BitVec.ofNat 64 a)).setG 2 (BitVec.ofNat 64 n)
def keptPart : Part :=
  { va := 0x18000, place := .line, pa := 0x18000, len := 128, cls := .u, key := 0, sub := false, priv := false, bias := false, remote := false,
    level := 2 }
/-- The same with a segment of the peer window mapped and no fabric port up. -/
def peerless : State := { keeper (2 ^ 51 + 2 ^ 50) 0 with regs := Sparse.set (keeper 0 0).regs 0x100 (BitVec.ofNat 64 (2 ^ 63)) }
theorem witness_Maintenance :
    (k0.Privileged ∧ k0.Quiet v0 ∧ (∀ ns, k0.Issues v0 hd ns) ∧ k0.usesEntry (fun _ => true) = false ∧
      k0.linesUnder (fun _ => true) = []) ∧
    (∀ x ∈ [(0x18000, 0), (0x18000, 1), (0x18000, 5), (2 ^ 52, 0), (2 ^ 40, 0)],
      (keeper x.1 x.2).thread? 0 = some (keeperThread x.1 x.2) ∧ (keeperThread x.1 x.2).pend = 0) ∧
    ((keeper 0x18000 1).Privileged ∧ (keeper 0x18000 1).Quiet (keeperThread 0x18000 1) ∧
      (keeper 0x18000 1).Issues (keeperThread 0x18000 1) hd [numG 1, numG 2]) ∧
    ((keeper (2 ^ 40) 0).backed (2 ^ 40) = false ∧ (keeper 0x18000 5).keyAt 5 = none ∧ (0x18000 : Nat) < 2 ^ 52) ∧
    (peerless.thread? 0 = some (keeperThread (2 ^ 51 + 2 ^ 50) 0) ∧ peerless.backed (2 ^ 51 + 2 ^ 50) = true ∧ (peerless.keyAt 0).isSome = true ∧
      peerless.noPort (2 ^ 51 + 2 ^ 50) = true ∧ (keeper 0x18000 0).noPort 0x18000 = false) ∧
    ((keeper 0x18000 0).backed 0x18000 = true ∧ ((keeper 0x18000 0).keyAt 0).isSome = true ∧ (keeper 0x18000 0).hostReady 0x300 = true ∧
      (keeper 0x18000 0).keyHeld 0 = false ∧ (keeper 0x18000 0).mem.hostLines = [] ∧ (keeper 0x18000 0).lodges = [] ∧
      (keeper 0x18000 0).stash.lines = [] ∧ (keeper 0x18000 0).coh.l1 = [] ∧ (keeper 0x18000 0).coh.l2 = [] ∧
      (keeper 0x18000 0).coh.replicas = []) ∧
    ((keeper 0x18000 1).locked = true ∧ (keeper 0x18000 1).backed (0x300 * 128) = true ∧ (keeper 0x18000 1).stash.lines = [] ∧
      ((keeper 0x18000 1).reprobe 0x300).otherSpec 0x300 none = false ∧ Sparse.get? (keeper 0x18000 1).mem.chip 0x300 = none) ∧
    ((keeper 0x18000 1).locateAll ((keeperThread 0x18000 1).who 0) .read [(0x18000, 128)] = .ok [⟨keptPart, none⟩] ∧
      (keeper 0x18000 1).isSystem 0x18000 = false) :=
  by refine ⟨⟨k0_quiet.1, k0_quiet.2, k0_issues, ?_, ?_⟩, ?_, ⟨by unfold State.Privileged; decide +kernel,
    by unfold State.Quiet; decide +kernel, by unfold State.Issues; decide +kernel⟩, ?_, ?_, ?_, ?_, ⟨ok_of ?_, ?_⟩⟩ <;> decide +kernel

theorem witness_VectorFloat : Ty.f32.isFp = true ∧ (∀ ns, s0.Issues t0 hd ns) ∧ ∀ rs, t0.Unbound rs := ⟨rfl, s0_issues, t0_unbound⟩
theorem witness_RoundToBrackets : Fmt.f16 ∈ [Fmt.f64, Fmt.f32, Fmt.f16, Fmt.bf16, Fmt.w80, Fmt.e5m2, Fmt.e4m3] ∧ (0xFFFF : Nat) < 2 ^ 16 ∧
    (0x3C00 < 2 ^ Fmt.f16.width ∧ Fmt.f16.value 0x3C00 ≠ .nan) ∧ (3 : Nat) ≠ 0 ∧
    (let n := Fmt.f16.roundTo .rtz 0 false (.fin false 3 (-1))
     n < Fmt.f16.maxCode ∧ (Fl.fin false 3 (-1)).less (Fmt.f16.value (n + 1)) = true) ∧
    (let top := ((Fl.fin false 2 0).mul (Fmt.f16.value Fmt.f16.maxCode)).add .rne (Fmt.f16.value (Fmt.f16.maxCode - 1)).neg
     Fmt.f16.roundTo .rtz 0 false (.fin false 1 20) = Fmt.f16.maxCode ∧ (Fl.fin false 1 20).less top = false ∧
      Fmt.f16.roundTo .rtz 0 false (.fin false 65519 0) = Fmt.f16.maxCode ∧ (Fl.fin false 65519 0).less top = true) := by decide +kernel
theorem witness_VectorSelects : Ty.f16.isFp = true ∧ (∀ ns, s0.Issues t0 hd ns) ∧ ∀ rs, t0.Unbound rs := ⟨rfl, s0_issues, t0_unbound⟩
theorem witness_VectorInteger : Ty.s16.isInt = true ∧ 16 ≤ Ty.s16.fixedWidth ∧ (∀ ns, s0.Issues t0 hd ns) ∧ ∀ rs, t0.Unbound rs :=
  ⟨rfl, by decide, s0_issues, t0_unbound⟩
theorem witness_VectorLanes : Ty.f64.isLane = true ∧ Ty.n8.isLane = true ∧ (∀ ns, s0.Issues t0 hd ns) ∧ ∀ rs, t0.Unbound rs :=
  ⟨rfl, rfl, s0_issues, t0_unbound⟩
theorem witness_VectorReductions : Ty.f32.isFp = true ∧ Ty.s32.isInt = true ∧ (∀ ns, s0.Issues t0 hd ns) ∧ ∀ rs, t0.Unbound rs :=
  ⟨rfl, rfl, s0_issues, t0_unbound⟩
theorem witness_VectorConversions : (t0.usable .f32 = true ∧ t0.usable .bf16 = true ∧ t0.width .f32 = 32 ∧ t0.width .bf16 = 16) ∧
    ((1 : BitVec 4).toNat < (Nat.max 32 64 + Nat.min 32 64 - 1) / Nat.min 32 64 ∧ (Nat.max 32 64 + 31) / 32 ≤ 16 ∧ 2 ≤ (2 : BitVec 4).toNat) ∧
    (∀ ns, s0.Issues t0 hd ns) ∧ (∀ rs, t0.Unbound rs) ∧ s0.thread? s0.focus = some t0 :=
  ⟨by decide +kernel, by decide +kernel, s0_issues, t0_unbound, by decide +kernel⟩

/-- w1 bound to a stream of 8-byte elements in the thread's own stash, dir its direction, at element pos of 20. -/
def stream20 (dir : Bool) (pos : Nat) : Stream :=
  { base := (own 0).setWidth 56, bound := [20, 1, 1, 1], stride := [8, 0, 0, 0], esz := 3, dir := dir, ch := 0, pos := pos, bnd := true,
    addr := (own 0).setWidth 56 }
def tStream (dir : Bool) (pos : Nat) : Thread := worker fun t => t.setStream 1 (stream20 dir pos)
/-- The part of len bytes at an offset of the stash of tile 0. -/
def ownPart (off len : Nat) : Part := ⟨(own off).toNat, .stash 0, off, len, .u, 0, false, false, false, false, none, 0⟩
/-- The parts of n elements of len bytes each, from an offset of it. -/
def ownParts (off len n : Nat) : List Located := (List.range n).map fun k => ⟨ownPart (off + len * k) len, none⟩
/-- A descriptor image at offset 64 of the stash: 20 elements of 8 bytes. -/
def imaged : State :=
  let t := worker fun t => t.setG 2 (own 64)
  { atWork t with stash := { State.reset.stash with cells := [⟨70, 0xFF⟩, ⟨72, 20⟩, ⟨76, 1⟩, ⟨80, 1⟩, ⟨84, 1⟩, ⟨88, 8⟩, ⟨104, 3⟩] } }
def tImage : Thread := worker fun t => t.setG 2 (own 64)
theorem witness_Streams :
    (Ty.s64.isInt = true ∧ (atWork (tStream false 16)).Issues (tStream false 16) hd [numW 0, numW 1, numW 2] ∧
      (tStream false 16).stream? 1 = some (stream20 false 16) ∧ (tStream false 16).Unbound [2, 0] ∧ (stream20 false 16).dir = false ∧
      (stream20 false 16).length ≤ 2 ^ 48 ∧ (stream20 false 16).esz ≤ 3 ∧ (stream20 false 16).pos < (stream20 false 16).length ∧
      (stream20 false 20).length ≤ (stream20 false 20).pos ∧
      (atWork (tStream false 16)).locateAll ((tStream false 16).who 8) .read ((stream20 false 16).next.map fun e => (e.2, 8)) =
        .ok (ownParts 128 8 4) ∧
      (∀ l ∈ ownParts 128 8 4, l.walk = none ∧ l.part.place = .stash 0) ∧ (atWork (tStream false 16)).stash.poison = [] ∧
      (atWork (tStream false 16)).storesOf 8 = [] ∧ (atWork (tStream false 16)).coh.carries = [] ∧
      (atWork (tStream false 16)).linesClear 8 (tStream false 16)
        ((tStream false 16).relaxedRead 0 ((ownParts 128 8 4).map fun l => l.part)) = true) ∧
    ((∀ n ∈ [numW 0, numW 1, numW 2], (tStream true 16).pending n = false) ∧ (atWork (tStream true 16)).thread? 8 = some (tStream true 16) ∧
      (tStream true 16).stream? 1 = some (stream20 true 16) ∧ (tStream true 16).Unbound [2, 0] ∧ (tStream true 16).spec = false ∧
      (stream20 true 16).length ≤ 2 ^ 48 ∧ (stream20 true 20).length ≤ (stream20 true 20).pos ∧
      (let es := (stream20 true 16).next.filter fun e => selectedBy ((tStream true 16).laneMask 0) 64 e.1
       okIs ((atWork (tStream true 16)).locateAll ((tStream true 16).who 8) .write (es.map fun e => (e.2, 8))) (ownParts 128 8 4) = true ∧
         es.length = 4) ∧ (∀ l ∈ ownParts 128 8 4, l.walk = none ∧ l.part.pa % 128 + 8 ≤ 128)) ∧
    ((atWork (tStream true 0)).thread? 8 = some (tStream true 0) ∧ (tStream true 0).stream? 1 = some (stream20 true 0)) ∧
    (imaged.Issues tImage hd [16, numG 2] ∧ tImage.streams.length = 4 ∧ tImage.outs = [] ∧ tImage.fences = [] ∧ imaged.storesOf 8 = [] ∧
      imaged.coh.carries = [] ∧
      imaged.reach (tImage.who 8) .read (tImage.addr ⟨2, none⟩) 64 64 = .ok (ownParts 64 64 1) ∧
      lineNat (imaged.stashData 0 64) 64 64 / 2 ^ 320 % 2 ^ 64 = 3) ∧
    ((atWork (tStream false 0)).Issues (tStream false 0) hd [17] ∧ (tStream false 0).streams[1]? = some (stream20 false 0)) :=
  ⟨⟨rfl, by unfold State.Issues; decide +kernel, by decide +kernel, by unfold Thread.Unbound; decide +kernel, by decide +kernel,
    by decide +kernel, by decide +kernel, by decide +kernel, by decide +kernel, ok_of (by decide +kernel), by decide +kernel⟩,
   ⟨by decide +kernel, by decide +kernel, by decide +kernel, by unfold Thread.Unbound; decide +kernel, by decide +kernel⟩, by decide +kernel,
   ⟨by unfold State.Issues; decide +kernel, by decide +kernel, by decide +kernel, by decide +kernel, by decide +kernel, by decide +kernel,
    ok_of (by decide +kernel), by decide +kernel⟩, ⟨by unfold State.Issues; decide +kernel, by decide +kernel⟩⟩

/-- FMT0 holds a format of width 8, not packed, and one of width 4. -/
def tWide : Thread := worker fun t => { t with fmt := t.fmt.set 0 0x000207B4 }
/-- g2 holds the address at an offset of the thread's own stash. -/
def tAt (off : Nat) : Thread := worker fun t => t.setG 2 (own off)
def sAt (off : Nat) : State := atWork (tAt off)
theorem at_issues (off : Nat) (hp : (tAt off).pend = 0) (hg : (tAt off).guard 0 = true) (hs : (sAt off).thread? 8 = some (tAt off))
    (ns : List Nat) : (sAt off).Issues (tAt off) hd ns :=
  ⟨hs, fun h => absurd h (by decide), fun n _ => pending_none _ hp n, hg⟩
theorem at64_issues (ns : List Nat) : (sAt 64).Issues (tAt 64) hd ns :=
  at_issues 64 (by decide +kernel) (by decide +kernel) (by decide +kernel) ns
theorem at128_issues (ns : List Nat) : (sAt 128).Issues (tAt 128) hd ns :=
  at_issues 128 (by decide +kernel) (by decide +kernel) (by decide +kernel) ns
theorem at65_issues (ns : List Nat) : (sAt 65).Issues (tAt 65) hd ns :=
  at_issues 65 (by decide +kernel) (by decide +kernel) (by decide +kernel) ns
theorem at128_unbound (rs : List WReg) : (tAt 128).Unbound rs := fun r _ =>
  (show ∀ r : WReg, (tAt 128).stream? r = none by decide +kernel) r
theorem witness_LoadsIssue :
    (tWide.wideBlocks (.nf 0) .two = true ∧ (atWork tWide).thread? 8 = some tWide ∧ tWide.usable (.nf 0) = true ∧
      (tAt 64).wideBlocks .s64 .one = false ∧ (tAt 128).wideBlocks .f32 .one = false ∧ (tAt 128).wideBlocks .s4 .one = false) ∧
    ((tAt 64).usable .s64 = true ∧ (tAt 64).outs.length < 16 ∧ (∀ l ∈ ownParts 64 8 1, l.walk = none) ∧ (∀ ns, (sAt 64).Issues (tAt 64) hd ns) ∧
      (sAt 64).reach ((tAt 64).who 8) .read ((tAt 64).addr ⟨2, none⟩) 8 8 = .ok (ownParts 64 8 1)) ∧
    ((∀ ns, (sAt 65).Issues (tAt 65) hd ns) ∧ (tAt 65).addr ⟨2, none⟩ % 8 ≠ 0) ∧
    ((∀ ns, (sAt 128).Issues (tAt 128) hd ns) ∧ (∀ rs, (tAt 128).Unbound rs) ∧ (tAt 128).width .f32 = 32 ∧
      (tAt 64).addr ⟨2, none⟩ % 128 ≠ 0 ∧ (tAt 128).addr ⟨2, none⟩ % 128 = 0 ∧
      (∀ i < 32, selectedBy ((tAt 128).laneMask 1) 32 i = false) ∧ (∃ i < 32, selectedBy ((tAt 128).laneMask 0) 32 i = true) ∧
      View.e4m3.isFull .f32 = false ∧ (∀ i < 32, selectedBy ((tAt 128).laneMask 1) 8 i = false) ∧
      (∃ i < 32, selectedBy ((tAt 128).laneMask 0) 8 i = true) ∧
      (sAt 128).reach ((tAt 128).who 8) .read ((tAt 128).addr ⟨2, none⟩) 128 128 = .ok (ownParts 128 128 1)) ∧
    ((tAt 128).width .s4 = 4 ∧ (sAt 128).Issues (tAt 128) hdLanes [numW 1] ∧
      windowPast ((tAt 128).addr ⟨2, none⟩) (4 * 4 * blockCount 4 .one) = false ∧
      (sAt 128).reachBlocks ((tAt 128).who 8) .read 16 (liveBlocks 4 ((tAt 128).addr ⟨2, none⟩) 1 ((tAt 128).laneMask 0)) =
        ([(0, ownParts 128 16 1)], none)) ∧
    ((sAt 128).reachElems ((tAt 128).who 8) .read 8 (elemAddrs ((tAt 128).addr ⟨2, none⟩) 64 ((tAt 128).getW 3) ((tAt 128).laneMask 0)) =
      .ok (List.replicate 16 ⟨ownPart 128 8, none⟩)) :=
  by refine ⟨?_, ⟨?_, ?_, ?_, at64_issues, ok_of ?_⟩, ⟨at65_issues, ?_⟩, ⟨at128_issues, at128_unbound, ?_, ?_, ?_, ?_, ?_, ?_, ?_, ?_, ok_of ?_⟩, ⟨?_,
    by unfold State.Issues; decide +kernel, ?_, ?_⟩, ok_of ?_⟩ <;> decide +kernel

/-- A result of a kind into a register, to be read from parts of the stash. -/
def aResult (dst : Nat) (k : OutKind) (ps : List Part) : Outstanding :=
  { dst := BitVec.ofNat 6 dst, kind := k, parts := ps, acq := none, rel := none, seq := 0, pc := 0, word := 0, hint := 0, sc := false, log := none }
def tResult (o : Outstanding) : Thread := { t0.addOut o with seq := 1 }
theorem witness_LoadResults :
    ∀ o ∈ [aResult (numG 1) (.loadG .s16) [ownPart 64 2], aResult (numW 1) (.loadW 32 1) [ownPart 128 128],
        aResult (numG 1) (.loadSub .f32 .bf16 true 0 false) [ownPart 64 4], aResult (numW 1) (.loadSub .f32 .e4m3 false 3 true) [ownPart 128 128],
        aResult (numW 1) (.loadPacked 4 1 1 (own 128).toNat) [ownPart 128 16], aResult (numW 1) (.gather .s64 1) [ownPart 64 8]],
      o.stopped = false ∧ (∀ x ∈ (atWork (tResult o)).scOps, x.th = 8 → x.seq ≠ o.seq) ∧ (atWork (tResult o)).thread? 8 = some (tResult o) ∧ (tResult o).outs = [o] ∧ (tResult o).park ≠ .pendread ∧
      (atWork (tResult o)).mayBind 8 (tResult o) o = true ∧ (atWork (tResult o)).storesOf 8 = [] ∧ o.rel = none ∧ o.sc = false ∧
      (atWork (tResult o)).coh.carries = [] ∧ ∀ p ∈ o.parts, p.cls = .u ∧ p.va < 2 ^ 56 ∧ p.place = .stash 0 ∧
        (atWork (tResult o)).stash.poison.contains (stashLine 0 p.pa) = false := by decide +kernel
theorem witness_LoadResults_types : Ty.s16.isLane = true ∧ View.subscribes .f32 .e4m3 = true ∧ Ty.s64.isLane = true ∧
    ((List.range 16).filter (selectedBy 1 64)).length = 1 ∧ (ownPart 128 16).va = (own 128).toNat ∧
    (∀ i < 32, 32 ≤ i → selectedBy 1 4 i = false) := by decide +kernel

/-- A thread whose g2 names a word of a page of class T, with its translation in the TLB of core 1. -/
def tPaged : Thread := worker fun t => t.setG 2 0x10000
def paged : State :=
  let s := State.reset.withFetchWord 64 0
  let e : TlbEntry := { fetchTlb State.reset 0 with pte := 0x107F, gen := (s.run 0).gen, asid := (s.run 0).cfg.asid }
  { s with threads := [(8, tPaged)], mem := { s.mem with chip := [] }, tlb := [e] }
def pagedPart : Part := ⟨0x10000, .line, 0x10000, 8, .t, 0, false, false, false, false, none, 2⟩
/-- An earliest speculative task's thread there, with entry 3, and one that is not earliest; the log area of its entry in the stash of its
own tile. -/
def tLogged : Thread := { tPaged with task := some { fetchTask with spec := true, ts := 5, tb := 1, hasTb := true }, entry := some 3 }
def anEntry (t : Task) (th : Option Nat) : CqEntry :=
  { task := t, th := th, finished := false, marked := false, incarnation := 1, write := [0, 0, 0, 0], full := [0, 0, 0, 0],
    reduced := [0, 0, 0, 0], tag := .full, lines := [], linesOvf := false, log := [], children := [], depart := none, ovf := false,
    seq := 0, aborting := false, creatorAborted := false }
def logging : State :=
  let r : Run := { Run.reset with phase := .resident, cfg := { RunCfg.none with loga := 0xFF * 2 ^ 48 } }
  { paged with threads := [(8, tLogged)], runs := [(0, r)],
               lodges := [(0, { Lodge.reset with cq := [(3, anEntry { fetchTask with spec := true, ts := 5, tb := 1, hasTb := true } (some 8))] })] }
def loggedThere : Bool :=
  match logging.logArea 8 tLogged with
  | .ok l => l.walk == none && (logging.partReady (some 0) true l.part).1
  | .error _ => false
def tUnready : Thread := worker fun t => { t.setG 2 (own 64) with task := some { fetchTask with spec := true, ts := 5, tb := 1, hasTb := true } }
theorem witness_StoresIssue_spec :
    (tUnready.spec = true ∧ (atWork tUnready).Issues tUnready hd [numG 2, numG 1] ∧ (atWork tUnready).provisional tUnready = true ∧
      (atWork tUnready).reach (tUnready.who 8) .write (tUnready.addr ⟨2, none⟩) 8 8 = .ok (ownParts 64 8 1)) ∧
    (tLogged.spec = true ∧ logging.Issues tLogged hd [numG 2, numG 1] ∧ tLogged.usable .s64 = true ∧ tLogged.wideBlocks .s64 .one = false ∧
      logging.reach (tLogged.who 8) .write (tLogged.addr ⟨2, none⟩) 8 8 = .ok [⟨pagedPart, none⟩] ∧
      pagedPart.va = logging.partVa (tLogged.who 8) (tLogged.addr ⟨2, none⟩) ∧ tLogged.nolog = false ∧
      (∃ e, Sparse.get? (logging.lodge 0).cq 3 = some e ∧ e.write.length = 4 ∧ e.log.length < 256) ∧ logging.coh = State.reset.coh ∧
      logging.stash.lines = [] ∧ logging.stash.maps = [] ∧ Sparse.get? logging.mem.chip 0x200 = none ∧ loggedThere = true ∧
      (logging.partReady (some 0) true pagedPart).1 = true) :=
  by refine ⟨⟨?_, by unfold State.Issues; decide +kernel, ?_, ok_of ?_⟩, ⟨?_, by unfold State.Issues; decide +kernel, ?_, ?_, ok_of ?_, ?_, ?_,
    ⟨_, rfl, ?_, ?_⟩, ?_, ?_, ?_, ?_, ?_, ?_⟩⟩ <;> decide +kernel
theorem witness_StoresIssue :
    (t0.spec = false ∧ (tAt 64).spec = false ∧ (tAt 64).usable .s64 = true ∧ (tAt 64).wideBlocks .s64 .one = false ∧ (∀ ns, (sAt 64).Issues (tAt 64) hd ns) ∧ (tAt 64).width .s64 % 8 = 0 ∧
      (sAt 64).reach ((tAt 64).who 8) .write ((tAt 64).addr ⟨2, none⟩) 8 8 = .ok (ownParts 64 8 1) ∧
      (ownPart 64 8).va = (sAt 64).partVa ((tAt 64).who 8) ((tAt 64).addr ⟨2, none⟩) ∧ (ownPart 64 8).pa % 128 + (ownPart 64 8).len ≤ 128) ∧
    ((∀ ns, (sAt 128).Issues (tAt 128) hd ns) ∧ (∀ rs, (tAt 128).Unbound rs) ∧ (tAt 128).addr ⟨2, none⟩ % 128 = 0 ∧
      (sAt 128).Issues (tAt 128) hdLanes [numW 1] ∧ (∀ i < 32, selectedBy ((tAt 128).laneMask 1) 32 i = false) ∧
      (∃ i < 32, selectedBy ((tAt 128).laneMask 0) 32 i = true) ∧
      (sAt 128).reach ((tAt 128).who 8) .write ((tAt 128).addr ⟨2, none⟩) 128 128 = .ok (ownParts 128 128 1)) ∧
    (Ty.f64.fixedWidth % 16 = 0 ∧
      (sAt 128).reachElems ((tAt 128).who 8) .write 8 (elemAddrs ((tAt 128).addr ⟨2, none⟩) 64 ((tAt 128).getW 3) ((tAt 128).laneMask 0)) =
        .ok (List.replicate 16 ⟨ownPart 128 8, none⟩) ∧
      (elemAddrs ((tAt 128).addr ⟨2, none⟩) 64 ((tAt 128).getW 3) ((tAt 128).laneMask 0)).map
        (fun e => (sAt 128).partVa ((tAt 128).who 8) e.2) =
        List.replicate 16 (ownPart 128 8).va) ∧
    ((sAt 128).reachBlocks ((tAt 128).who 8) .write 16 (liveBlocks 4 ((tAt 128).addr ⟨2, none⟩) 1 ((tAt 128).laneMask 0)) =
        ([(0, ownParts 128 16 1)], none) ∧ (tAt 128).width .s4 = 4 ∧ windowPast ((tAt 128).addr ⟨2, none⟩) (4 * 4 * blockCount 4 .one) = false ∧
      (sAt 128).partVa ((tAt 128).who 8) ((tAt 128).addr ⟨2, none⟩) = (own 128).toNat ∧ blockCount 4 .one = 1 ∧
      (tAt 128).wideBlocks .s4 .one = false) ∧
    (relaxed.sc = false ∧ (sAt 64).reach ((tAt 64).who 8) .atomic ((tAt 64).addr ⟨2, none⟩) (atomBytes .s32) (atomBytes .s32) =
      .ok [⟨ownPart 64 4, none⟩]) :=
  ⟨⟨by decide +kernel, by decide +kernel, by decide +kernel, by decide +kernel, at64_issues, by decide +kernel, ok_of (by decide +kernel),
    by decide +kernel, by decide +kernel⟩,
   ⟨at128_issues, at128_unbound, by decide +kernel, by unfold State.Issues; decide +kernel, by decide +kernel, by decide +kernel,
    ok_of (by decide +kernel)⟩,
   ⟨by decide, ok_of (by decide +kernel), by decide +kernel⟩, by decide +kernel, ⟨rfl, ok_of (by decide +kernel)⟩⟩

/-- A store of slot 8 in flight to a part. -/
def aStore (p : Part) (op : StoreOp) (rel : Option Scope) (data : Line) : PendStore :=
  { id := 7, agent := .thread 8, run := 0, key := Key.zero, specid := none, seq := 3, part := p, mask := byteMask (p.pa % 128) p.len, data := data,
    op := op, cls := p.cls, rel := rel, after := 0, log := none, hint := 0 }
def inFlight (x : PendStore) : State := { s0 with stores := [x], regs := [(0x008, BitVec.ofNat 64 (2 ^ 63 + 64))] }
def homePart : Part := ⟨0x18000, .line, 0x18000, 8, .u, 0, false, false, false, false, none, 0⟩
/-- Held back by an earlier load of the same word that is still to be read. -/
def heldBack : State :=
  { inFlight (aStore (ownPart 64 8) .write none 5) with threads := [(8, tResult (aResult (numG 1) (.loadG .s64) [ownPart 64 8]))] }
theorem witness_StoreAtHome :
    (∀ x ∈ [aStore (ownPart 64 8) .write none 5, aStore homePart .write none 5], (inFlight x).stores.find? (fun y => y.id == 7) = some x ∧
      (inFlight x).mayPerform x = true ∧ x.log = none ∧ x.cls = x.part.cls ∧ x.rel = none ∧ x.stopped = false ∧ x.answer = false ∧
      x.twin = none ∧ x.hint ≠ 4) ∧
    (heldBack.stores.find? (fun y => y.id == 7) = some (aStore (ownPart 64 8) .write none 5) ∧
      (heldBack.cleanBefore 8 3 none).mayPerform (aStore (ownPart 64 8) .write none 5) = false) ∧
    ((inFlight (aStore homePart .write none 5)).coh = State.reset.coh ∧ (inFlight (aStore homePart .write none 5)).isSystem 0x18000 = false ∧
      (inFlight (aStore homePart .write none 5)).backed 0x18000 = true ∧ (inFlight (aStore homePart .write none 5)).locked = true ∧
      Sparse.get? s0.mem.chip 0x300 = none ∧ Sparse.getD s0.mem.bias 0 0 = 0 ∧ s0.mem.hostLines = [] ∧ s0.mem.snoops = [] ∧
      (s0.keyAt 0).isSome = true ∧ s0.keyHeld 0 = false ∧ homePart.cls = .u ∧ s0.stash.maps = [] ∧ s0.stash.lines = [] ∧
      (∀ y ∈ (inFlight (aStore homePart .write none 5)).stores, y.answer = false) ∧ s0.mem.errors = []) := by decide +kernel
theorem witness_Atomics :
    ((tAt 64).outs.length < 16 ∧ (tAt 64).spec = false ∧ (∀ ns, (sAt 64).Issues (tAt 64) hd ns) ∧
      (sAt 64).reach ((tAt 64).who 8) .atomic ((tAt 64).addr ⟨2, none⟩) (atomBytes .s64) (atomBytes .s64) = .ok [⟨ownPart 64 8, none⟩]) ∧
    ∀ o ∈ [aResult (numG 1) (.atom .cas .s64 0 9) [ownPart 64 8], aResult (numG 1) (.atom .add .bf16 0x3F80 0) [ownPart 64 4]],
      (atWork (tResult o)).thread? 8 = some (tResult o) ∧ (tResult o).outs = [o] ∧ (tResult o).park ≠ .pendread ∧
        (atWork (tResult o)).mayBind 8 (tResult o) o = true ∧ o.log = none ∧ o.stopped = false ∧ (atWork (tResult o)).coh.carries = [] ∧
        (atWork (tResult o)).coh.collapses = [] ∧ s0.stash.poison.contains (stashLine 0 64) = false :=
  ⟨⟨by decide +kernel, by decide +kernel, at64_issues, ok_of (by decide +kernel)⟩, by decide +kernel⟩

theorem witness_Counters :
    ((sAt 64).provisional (tAt 64) = false ∧ (tAt 64).spec = false ∧ pagedPart.remote = false ∧ (sAt 64).partPoisoned ((tAt 64).who 8) (ownPart 64 8) = false ∧ (tAt 64).addr ⟨2, none⟩ % 16 = 0 ∧
      (sAt 64).locateAll ((tAt 64).who 8) .atomic [((tAt 64).addr ⟨2, none⟩, 8)] = .ok [⟨ownPart 64 8, none⟩] ∧
      (sAt 64).locateAll ((tAt 64).who 8) .atomic [((tAt 64).addr ⟨2, none⟩, 16)] = .ok [⟨ownPart 64 16, none⟩] ∧
      (∀ ns, (sAt 64).Issues (tAt 64) hd ns)) ∧
    (paged.provisional tPaged = false ∧ paged.partPoisoned (tPaged.who 8) pagedPart = false ∧ tPaged.outs.length < 16 ∧
      paged.locateAll (tPaged.who 8) .atomic [(tPaged.addr ⟨2, none⟩, 8)] = .ok [⟨pagedPart, none⟩] ∧
      paged.Issues tPaged hd [numG 1, numG 2, numG 3]) ∧
    ((inFlight (aStore (ownPart 64 8) .ctradd (some .dev) 5)).mayPerform (aStore (ownPart 64 8) .ctradd (some .dev) 5) = true ∧
      (aStore (ownPart 64 8) .ctradd (some .dev) 5).data.toNat < 2 ^ 64 ∧ (aStore (ownPart 64 8) .ctradd (some .dev) 5).twin = none) ∧
    (∀ o ∈ [aResult (numG 1) .ctrRead [ownPart 64 8], aResult (numG 1) (.ctrArrive true .s64 7) [ownPart 64 16]],
      (atWork (tResult o)).thread? 8 = some (tResult o) ∧ (tResult o).outs = [o] ∧ (tResult o).park ≠ .pendread ∧
        (atWork (tResult o)).mayBind 8 (tResult o) o = true ∧ o.log = none) :=
  by refine ⟨⟨?_, ?_, ?_, ?_, ?_, ok_of ?_, ok_of ?_, at64_issues⟩, ⟨?_, ?_, ?_, ok_of ?_, by unfold State.Issues; decide +kernel⟩, ?_,
    ?_⟩ <;> decide +kernel

/-- Thread waiting in slot 8 for a counter at offset 64 of the stash to reach a target. -/
def tCounting (target : BitVec 64) (left poll wait : Nat) : Thread :=
  { t0 with park := .ctrwait 1 2 (ownPart 64 8) target left poll wait .dev 8 }
theorem witness_CounterWaits :
    ((∀ ns, (sAt 64).Issues (tAt 64) hd ns) ∧ (sAt 64).provisional (tAt 64) = false ∧ (tAt 64).outs = [] ∧ (sAt 64).storesOf 8 = [] ∧
      (tAt 64).task = some fetchTask ∧ (sAt 64).itinMode 0 = none ∧
      (sAt 64).reachCtr ((tAt 64).who 8) ((tAt 64).addr ⟨2, none⟩) 8 8 = .ok ⟨ownPart 64 8, none⟩ ∧ (sAt 64).fenced 0 = false ∧
      (sAt 64).coh.carries = [] ∧ (sAt 64).partPoisoned ((tAt 64).who 8) (ownPart 64 8) = false ∧
      State.partPoisoned { sAt 64 with stash := { State.reset.stash with poison := [stashLine 0 64] } } ((tAt 64).who 8) (ownPart 64 8) =
        true ∧
      lineNat ((sAt 64).stashData 0 64) 64 8 = 0 ∧ 0 < ((tAt 64).getG 2).toNat ∧ (tAt 64).getG 1 = 0 ∧ (sAt 64).waitEntries 0 < 64) ∧
    (∀ t ∈ [tCounting 1 9 0 0, tCounting 0 0 0 0, tCounting 1 0 0 0, tCounting 0 9 4096 0, tCounting 1 9 4096 0, tCounting 1 9 8192 0],
      (atWork t).fatal = false ∧ (atWork t).thread? 8 = some t ∧ t.outs = [] ∧ (atWork t).storesOf 8 = [] ∧ (atWork t).fenced 0 = false ∧
        (atWork t).partPoisoned (t.who 8) (ownPart 64 8) = false ∧ (atWork t).coh.carries = [] ∧ (atWork t).halted 0 = false ∧
        lineNat ((atWork t).stashData 0 64) 64 8 = 0) :=
  by refine ⟨⟨at64_issues, ?_, ?_, ?_, ?_, ?_, ok_of ?_, ?_, ?_, ?_, ?_, ?_, ?_, ?_, ?_⟩, ?_⟩ <;> decide +kernel
/-- A fence noted after a load that is still to be read. -/
def tFenced : Thread := { tResult (aResult (numG 1) (.loadG .s64) [ownPart 64 8]) with fences := [4], seq := 6 }
/-- At a cycle, the thread of slot 8 having taken its place in S in the first window. -/
def inTurn (cycle : Nat) : State := { s0 with cycle := cycle, scOps := [⟨0, 8, t0.seq, false⟩] }
theorem witness_Fences :
    s0.stash.lines = [] ∧ s0.scOps = [] ∧ (∀ ns, s0.Issues t0 hd ns) ∧ s0.storesOf s0.focus = [] ∧ (inFlight (aStore (ownPart 64 8) .write none 5)).Issues t0 hd [] ∧
    (inFlight (aStore (ownPart 64 8) .write none 5)).storesOf 8 ≠ [] ∧ (atWork tFenced).thread? 8 = some tFenced ∧ 4 ∈ tFenced.fences ∧
    (aResult (numG 1) (.loadG .s64) [ownPart 64 8]) ∈ tFenced.outs ∧ (0 : Nat) < 4 ∧ (aStore homePart .write none 5).seq = 3 ∧
    PendStore.seq { aStore homePart .write none 5 with seq := 5 } = 5 ∧
    (inTurn 16).Issues t0 hd [] ∧ (inTurn 16).storesOf 8 = [] ∧ (inTurn 16).charged (.thread 8) = false ∧ t0.outs = [] ∧
      ((inTurn 16).enterS 8 t0.seq).turnInS 8 t0.seq = true ∧
    (inTurn 15).Issues t0 hd [] ∧ ((inTurn 15).enterS 8 t0.seq).turnInS 8 t0.seq = false :=
  ⟨by decide +kernel, by decide +kernel, s0_issues, by decide +kernel, by unfold State.Issues; decide +kernel, by decide +kernel,
    by decide +kernel, by decide +kernel, by decide +kernel, by decide, by decide +kernel, rfl, by unfold State.Issues; decide +kernel, by decide +kernel, by decide +kernel,
    by decide +kernel, by decide +kernel, by unfold State.Issues; decide +kernel, by decide +kernel⟩

/-- g1 holds an address to map, g2 an offset of the stash, g3 a count of pages. -/
def tMap (va off n : Nat) : Thread :=
  worker fun t => ((t.setG 1 (BitVec.ofNat 64 va)).setG 2 (BitVec.ofNat 64 off)).setG 3 (BitVec.ofNat 64 n)
/-- A mapping of one page of tile 0, and a line of it, modified. -/
def aMap : Mapping := { tile := 0, idx := 0, run := 0, vbase := 0x40000, pages := 1, soff := 0x2000, upd := false }
def aLine : MapLine := { tile := 0, off := 0x2000, pa := 0x300, key := 0, cls := .u, dirty := true, upd := false, by_ := [], held := [] }
def mapping (ls : List MapLine) : State :=
  { atWork (tMap 0x40000 0x2000 128) with stash := { State.reset.stash with maps := [aMap], lines := ls } }
theorem witness_StashMappings :
    (∀ v ∈ [(0x40000, 0x2000, 1), (0x40001, 0x2000, 1), (0x40000, 2 ^ 20, 1), (0x40000, 0x2000, 257), (0x40000, 0x2000, 0), (0xFF000, 0xF0000, 16)],
      (atWork (tMap v.1 v.2.1 v.2.2)).thread? 8 = some (tMap v.1 v.2.1 v.2.2) ∧ (tMap v.1 v.2.1 v.2.2).pend = 0 ∧
        (tMap v.1 v.2.1 v.2.2).guard 0 = true ∧ (atWork (tMap v.1 v.2.1 v.2.2)).provisional (tMap v.1 v.2.1 v.2.2) = false) ∧
    ((mapping []).Issues (tMap 0x40000 0x2000 128) hd [numG 1, numG 2] ∧ (mapping []).provisional (tMap 0x40000 0x2000 128) = false ∧
      (mapping []).storesOf 8 = [] ∧ (tMap 0x40000 0x2000 128).outs = [] ∧ (mapping []).stash.lines = [] ∧
      (mapping []).stash.maps.find? (fun m => m.tile == 0 && m.run == 0 && m.vbase == (tMap 0x40000 0x2000 128).addr ⟨1, none⟩) = some aMap ∧
      ∀ m ∈ (mapping []).stash.maps, ¬(m.tile = 0 ∧ m.run = 0 ∧ m.vbase = (tMap 0x41000 0x2000 128).addr ⟨1, none⟩)) ∧
    ((mapping [aLine]).Issues (tMap 0x40000 0x2000 128) hd [numG 1, numG 2] ∧ (mapping [aLine]).stash.maps = [aMap] ∧
      (mapping [aLine]).stash.lines = [aLine] ∧ aMap.vbase + (aLine.off - aMap.soff) < 0x40000 + 128 ∧ (mapping [aLine]).coh = State.reset.coh ∧
      aLine.off < 2 ^ 20 ∧ (mapping [aLine]).storesOf 8 = [] ∧ (tMap 0x40000 0x2000 128).outs = [] ∧
      (mapping [aLine]).backed (aLine.pa * 128) = true ∧ (mapping [aLine]).isSystem (aLine.pa * 128) = false ∧
      Sparse.get? (mapping [aLine]).mem.chip aLine.pa = none) :=
  ⟨by decide +kernel, ⟨by unfold State.Issues; decide +kernel, by decide +kernel⟩, ⟨by unfold State.Issues; decide +kernel, by decide +kernel⟩⟩

/-- A task creator: its own timestamp, the child's in g1, its hint or descriptor in g2; the queue of tile 0 as given. -/
def tMaker (ts : Nat) (g1 g2 : BitVec 64) : Thread :=
  worker fun t => { (t.setG 1 g1).setG 2 g2 with task := some { fetchTask with ts := BitVec.ofNat 64 ts } }
def maker (t : Thread) (queue : List Task) (cells : List Host.Cell) : State :=
  { atWork t with lodges := [(0, { Lodge.reset with queue := queue })], stash := { State.reset.stash with cells := cells } }
/-- A grid descriptor at offset 128: tile 0, 10 by 4 by 2 in pieces of 4 by 2 by 2. -/
def gridCells : List Host.Cell := [⟨128, 1⟩, ⟨160, 10⟩, ⟨164, 4⟩, ⟨168, 2⟩, ⟨172, 4⟩, ⟨174, 2⟩, ⟨176, 2⟩, ⟨178, 3⟩]
/-- The same with an extent of 0: a grid of no task. -/
def emptyGrid : List Host.Cell := [⟨128, 1⟩, ⟨164, 4⟩, ⟨168, 2⟩, ⟨172, 4⟩, ⟨174, 2⟩, ⟨176, 2⟩, ⟨178, 3⟩]
/-- A speculative task with entry 3. -/
def specTask : Task := { fetchTask with spec := true, ts := 5, tb := 0x100, hasTb := true }
def tEntry : Thread := { t0 with task := some specTask, entry := some 3 }
def entryState : State := { atWork tEntry with lodges := [(0, { Lodge.reset with cq := [(3, anEntry specTask (some 8))] })] }
theorem witness_TaskCreation :
    (∀ v ∈ [(tMaker 5 4 0, ([] : List Task)), (tMaker 5 5 0, []), (tMaker 5 5 0x101, List.replicate 256 fetchTask)],
      (maker v.1 v.2 []).thread? 8 = some v.1 ∧ v.1.pend = 0 ∧ v.1.guard 0 = true ∧ (maker v.1 v.2 []).storesOf 8 = [] ∧
        (maker v.1 v.2 []).charged (.thread 8) = false ∧ (maker v.1 v.2 []).mayHold 0 0 = true ∧ (maker v.1 v.2 []).mayHold 0 1 = true ∧
        (maker v.1 v.2 []).stash.lines = [] ∧ (maker v.1 v.2 []).coh.carries = [] ∧ (maker v.1 v.2 []).sent = [] ∧ ((maker v.1 v.2 []).lodge 0).queue.length = v.2.length) ∧
    ((∀ c ∈ [gridCells, emptyGrid, []], (maker (tMaker 5 5 (own 128)) [] c).thread? 8 = some (tMaker 5 5 (own 128)) ∧
        (maker (tMaker 5 5 (own 128)) [] c).gridTiles 0 (BitVec.ofNat 256 (lineNat ((maker (tMaker 5 5 (own 128)) [] c).stashData 0 128) 0 64)) =
          (if c = [] then [] else [0]) ∧ ((maker (tMaker 5 5 (own 128)) [] c).lodge 0).grids.length < 16) ∧
      (tMaker 5 5 (own 128)).outs = [] ∧ (tMaker 5 5 (own 128)).fences = [] ∧ (tMaker 5 5 (own 128)).park = .run ∧
      (maker (tMaker 5 5 (own 128)) [] gridCells).reach ((tMaker 5 5 (own 128)).who 8) .read (own 128).toNat 64 64 = .ok (ownParts 128 64 1)) ∧
    ((maker (tMaker 5 (own 256) 0) [] []).IssuesMarked (tMaker 5 (own 256) 0) hd ∧
      ((tMaker 5 (own 256) 0).getG 1).toNat % 2 ^ 56 = 0xFF * 2 ^ 48 + 256) ∧
    (entryState.IssuesMarked tEntry hd ∧ specTask.spec = true ∧ tEntry.entry = some 3 ∧
      Sparse.get? (entryState.lodge 0).cq 3 = some (anEntry specTask (some 8))) ∧
    ((∀ ns, s0.Issues t0 hd ns) ∧ t0.task ≠ none ∧ s0.provisional t0 = false ∧ entryState.Issues tEntry hd [] ∧ entryState.provisional tEntry = true) ∧
    (k0.thread? k0.focus = some v0 ∧ v0.task = none) :=
  by refine ⟨?_, ⟨?_, ?_, ?_, ?_, ok_of ?_⟩, ⟨by unfold State.IssuesMarked; decide +kernel, ?_⟩,
    ⟨by unfold State.IssuesMarked; decide +kernel, ?_⟩, ⟨s0_issues, ?_, ?_, by unfold State.Issues; decide +kernel, ?_⟩,
    ?_⟩ <;> decide +kernel

/-- g1 destination, g2 source, g3 a length or index operand, g4 a count, g5 and g6 counters, in the stash of tile 1. -/
def tPort (n : Nat) : Thread :=
  worker fun t => ((((t.setG 1 (own 0x1000)).setG 2 (own 0x2000)).setG 3 (BitVec.ofNat 64 n)).setG 5 (own 0x100)).setG 6 (own 0x200)
def aPorter (i : Instr) (n progress : Nat) : PorterJob :=
  { id := 2 ^ 15, ins := i, dst := own 0x1000, src := own 0x2040, cval := BitVec.ofNat 64 n, count := 0, dctr := own 0x100, sctr := own 0x200,
    run := some 0, key := Key.zero, launch := 0, th := 72, task := 0, hint := 0, progress := progress, srcBumped := false, rowInst := none, remotes := [] }
/-- Tile 1's engines with jobs in the normal lane and in the matrix queue. -/
def withJobs (lane : List PorterJob) (mq : List MatrixJob) : State :=
  { s0 with engines := [(1, { Engines.reset with lanes := [lane, []], mq := mq })], regs := [(0x008, BitVec.ofNat 64 (2 ^ 63 + 64))] }
def copyJob : Instr := .prcopy hd false 0 1 2 3 4 0
def countedCopy : Instr := .prcopy hd false 0x88 1 2 3 4 5
def fillJob : Instr := .prfill hd false 0 1 2 3 4 0
def farCopy : PorterJob := { aPorter copyJob 256 0 with src := 0x40000 }
def trapIn {ε : Type} (e : Except (ε × Stop) State) : Bool :=
  match e with
  | .error (_, .trap _) => true
  | _ => false
/-- The row instance of tag 7 that tiles 1 and 2 join, the one so far, or both. -/
def rowInst (joined : BitVec 8) : RowInst :=
  { quad := 0, row := 0, tag := 7, run := 0, inst := 3, mask := 6, op := .sum, ty := .f32, elems := 4, joined := joined, started := false,
    faulted := false }
def rowJob : PorterJob := { aPorter (.prrow hd false .sum .f32 0 6 7 1 2 3 4 0) 4 0 with rowInst := some 3 }
def rowState (joined : BitVec 8) : State :=
  { s0 with rows := [rowInst joined],
            engines := [(1, { Engines.reset with lanes := [[rowJob], []] }), (2, { Engines.reset with lanes := [[rowJob], []] })] }
/-- The instance started. -/
def rowRunning : State := { rowState 6 with rows := [{ rowInst 6 with started := true }] }
/-- A gather and two scatters of 4 rows of 16 bytes, from an index list at 0x3000. -/
def listed (i : Instr) : PorterJob := { aPorter i 0 0 with cval := own 0x3000, count := 4 }
def gathJob : Instr := .prgath hd false 0 16 1 2 3 4 0
def scatJob (ty : Ty) : Instr := .prscat hd false ty 0 16 1 2 3 4 0
theorem witness_PorterJobs_lists :
    (∀ i ∈ [gathJob, scatJob .none, scatJob .f32], (portSpec i).map (fun p => (p.rows, p.idxBytes)) = some (16, 4) ∧ (listed i).progress = 0 ∧
      (listed i).count.toNat = 4 ∧ (listed i).remotes = [] ∧ (withJobs [listed i] []).stashNat 1 0x3000 4 = 0 ∧
      (listed i).cval.toNat % 2 ^ 56 = 0xFF * 2 ^ 48 + 0x3000 ∧ (listed i).dst.toNat % 2 ^ 56 = 0xFF * 2 ^ 48 + 0x1000 ∧
      (listed i).src.toNat % 2 ^ 56 = 0xFF * 2 ^ 48 + 0x2040) ∧
    ((portSpec gathJob).map (fun p => p.kind) = some .gath ∧ (portSpec (scatJob .none)).map (fun p => p.kind) = some (.scat .none) ∧
      (portSpec (scatJob .f32)).map (fun p => p.kind) = some (.scat .f32)) ∧
    (rowRunning.rowOf? 1 rowJob = some { rowInst 6 with started := true } ∧ (rowRunning.engine 1).lanes.getD 0 [] = [rowJob] ∧
      (portSpec rowJob.ins).map (fun p => p.kind) = some (.row .sum .f32) ∧ (List.range 8).filter (rowInst 6).mask.getLsbD = [1, 2] ∧
      rowRunning.rowJobs { rowInst 6 with started := true } = [(1, 0, rowJob), (2, 0, rowJob)] ∧ rowRunning.laneHeld 1 0 = false ∧
      rowRunning.laneHeld 2 0 = false ∧ rowRunning.stash = State.reset.stash ∧ rowJob.remotes = [] ∧ rowJob.progress = 0 ∧
      rowRunning.charged (.porter 1 0) = false ∧ rowJob.cval.toNat = 4) := by decide +kernel
theorem witness_PorterJobs :
    (∀ j ∈ [aPorter copyJob 256 0, aPorter copyJob 256 200, aPorter fillJob 256 0, aPorter countedCopy 256 256, farCopy,
        { aPorter countedCopy 256 256 with srcBumped := true }],
      ((withJobs [j] []).engine 1).lanes.length = 2 ∧ ((withJobs [j] []).engine 1).pfault.length = 2 ∧
        ((withJobs [j] []).engine 1).pdone.length = 2 ∧ ((withJobs [j] []).engine 1).pfault.getD 0 false = false ∧
        (portSpec j.ins).isSome = true ∧ (withJobs [j] []).halted 1 = false ∧ (withJobs [j] []).fenced 1 = false ∧
        (withJobs [j] []).fatal = false ∧ (withJobs [j] []).stash = State.reset.stash ∧ (withJobs [j] []).charged (.porter 1 0) = false ∧ j.dst.toNat % 2 ^ 56 = 0xFF * 2 ^ 48 + 0x1000 ∧ 0x1000 + j.cval.toNat ≤ 2 ^ 20) ∧
    ((aPorter copyJob 256 200).src.toNat % 2 ^ 56 = 0xFF * 2 ^ 48 + 0x2040 ∧ (200 : Nat) < 256 ∧
      (aPorter countedCopy 256 256).dctr.toNat % 2 ^ 56 = 0xFF * 2 ^ 48 + 0x100 ∧
      (aPorter countedCopy 256 256).sctr.toNat % 2 ^ 56 = 0xFF * 2 ^ 48 + 0x200 ∧
      (portSpec countedCopy).map (fun p => (p.kind, p.sct, p.dct)) = some (.copy, true, true) ∧
      (portSpec copyJob).map (fun p => (p.kind, p.sct, p.dct)) = some (.copy, false, false) ∧
      (portSpec fillJob).map (fun p => p.kind) = some .fill) ∧
    (match (withJobs [farCopy] []).portNext 1 0 with | .error (_, _, _, .trap _) => true | _ => false) = true ∧
    ((rowInst 6).joined = (rowInst 6).mask ∧ ((rowState 6).rowJobs (rowInst 6)).length = ((List.range 8).filter (rowInst 6).mask.getLsbD).length ∧
      (rowInst 2).joined ≠ (rowInst 2).mask) := by decide +kernel

/-- A BF16 product of size 1 by 1 by 1 into slot 2 (R425, R426); and a copy of slot 2 to memory. -/
def mmaJob : Instr := .mma hd .none (BitVec.ofNat 32 (2 ^ 14 + 12 * 2 ^ 5 + 12 + 2 * 2 ^ 15)) 0 1 2 3 0 5
def accJob : Instr := .accst hd .f32 (BitVec.ofNat 32 (2 * 2 ^ 15 + 2 ^ 22)) 1 1 4 5
def aMatrix (i : Instr) (rp : Nat) (started : Bool) : MatrixJob :=
  { id := 0, ins := i, aval := own 0x1000, bval := own 0x2000, cval := own 0x3000, dims := BitVec.ofNat 64 (2 ^ 32 + 2 ^ 16 + 1),
    lds := BitVec.ofNat 64 (2 ^ 32 + 1), ctrva := own 0x100, mq := t0.mq, fmt := t0.fmt, run := some 0, runid := 9, key := Key.zero, launch := 0,
    th := 72, task := 0, hint := 0, rp := rp, started := started, remotes := [] }
def farMatrix : MatrixJob := { aMatrix mmaJob 0 true with aval := 0x40000 }
theorem witness_MatrixJobs :
    (∀ j ∈ [aMatrix mmaJob 0 false, aMatrix accJob 0 false, aMatrix mmaJob 0 true, aMatrix mmaJob 1 true, aMatrix accJob 1 true, farMatrix],
      (matSpec j.ins).isSome = true ∧ ((withJobs [] [j]).engine 1).mfault = false ∧ (withJobs [] [j]).halted 1 = false ∧
        (withJobs [] [j]).fenced 1 = false ∧ (withJobs [] [j]).fatal = false ∧ (withJobs [] [j]).stash = State.reset.stash ∧ (withJobs [] [j]).charged (.matrix 1) = false ∧ (withJobs [] [j]).slotTag 1 2 = none) ∧
    ((matSpec accJob).map (fun p => (p.readsSlot, p.slot, p.ctr)) = some (true, 2, true) ∧
      (matSpec mmaJob).map (fun p => (p.readsSlot, p.slot, p.ctr)) = some (false, 2, false)) ∧
    (trapIn ((withJobs [] [farMatrix]).matNext 1) = true) ∧ ((own 0x1000).toNat = 0xFF * 2 ^ 48 + 0x1000 ∧ (0x1000 : Nat) < 2 ^ 20) := by
  decide +kernel

/-- The thread of slot 8 with operands for a job of tile 0: g1 to g3 addresses, g5 to g7 the sizes, leading dimensions and counter. -/
def tMat : Thread :=
  worker fun t => ((((((t.setG 1 (own 0x1000)).setG 2 (own 0x2000)).setG 3 (own 0x3000)).setG 5 (BitVec.ofNat 64 (2 ^ 32 + 2 ^ 16 + 1))).setG 6
    (BitVec.ofNat 64 (2 ^ 32 + 1))).setG 7 (own 0x100))
def mmaIssue : Instr := .mma hd .none (BitVec.ofNat 32 (2 ^ 14 + 12 * 2 ^ 5 + 12)) 0 8 1 2 0 5
def offering (len : Nat) : State :=
  { s0 with threads := [(8, { t0 with park := .offer 0 (.matrix (aMatrix mmaJob 0 false)) 1 16 })],
            engines := [(0, { Engines.reset with mq := List.replicate len { aMatrix mmaJob 0 true with id := 77 } })] }
def tPoll : Thread := t0.addOut { readyOut t0 (numP 3) 0 with kind := .jpoll 5 }
theorem witness_EngineIssue :
    (∀ t ∈ [tPort 64, tPort (2 ^ 40), tMat], (atWork t).thread? 8 = some t ∧ t.pend = 0 ∧ t.guard 0 = true ∧ (atWork t).provisional t = false ∧
      t.outs = [] ∧ (atWork t).storesOf 8 = []) ∧
    (((atWork (tPort 64)).engine 0).lanes.length = 2 ∧ (((atWork (tPort 64)).engine 0).lanes.getD 0 []).length < 32 ∧
      (atWork (tPort 64)).idHeld 0 (2 ^ 15) = false ∧ ((tPort 64).getG 3).toNat < 2 ^ 40 ∧ ¬((tPort (2 ^ 40)).getG 3).toNat < 2 ^ 40 ∧
      ((tPort 64).getG 2).toNat / 2 ^ 48 % 2 ^ 8 = 0xFF) ∧
    ((matSpec mmaIssue).map (fun p => (p.refused 0 (tMat.getG 5) (tMat.getG 6) tMat.mq tMat.fmt,
        misaligned (p.bases (tMat.getG 1) (tMat.getG 2) (tMat.getG 0) tMat.mq tMat.fmt))) = some (false, none) ∧
      ((atWork tMat).engine 0).mq.length < 16 ∧ (atWork tMat).idHeld 0 0 = false) ∧
    ((offering 0).thread? 8 = some { t0 with park := .offer 0 (.matrix (aMatrix mmaJob 0 false)) 1 16 } ∧
      (∀ n ∈ [0, 16], (offering n).fatal = false ∧ (offering n).fenced 0 = false ∧ (offering n).threads.length = 1) ∧
      ((offering 0).engine 0).mq.length < 16 ∧ (offering 0).idHeld 0 0 = false ∧ 16 ≤ ((offering 16).engine 0).mq.length) ∧
    (s0.jobLive 0 5 = false ∧ (offering 1).jobLive 0 77 = true ∧ t0.outs.length < 16) ∧
    ((atWork tPoll).thread? 8 = some tPoll ∧ tPoll.outs.length = 1 ∧ tPoll.park ≠ .pendread ∧
      ∀ o ∈ tPoll.outs, o.parts = [] ∧ o.rel = none ∧ o.stopped = false) ∧
    ((tPort 64).getG 4).toNat < 2 ^ 32 ∧ (0xFF : BitVec 8).getLsbD 0 = true ∧
    (let t := worker fun t => { tPort 64 with outs := t.outs }
     let full : State := { atWork t with engines := [(0, { Engines.reset with lanes := [List.replicate 32 (aPorter copyJob 256 0), []] })] }
     full.thread? 8 = some t ∧ 32 ≤ ((full.engine 0).lanes.getD 0 []).length) := by decide +kernel

/-- A package with memory enabled and the given lines over HBM. -/
def powered (chip : Sparse ChipLine) : State :=
  { State.reset with regs := [(0x008, BitVec.ofNat 64 (2 ^ 63 + 64))], runs := [(0, { Run.reset with phase := .resident })],
                     mem := { State.reset.mem with chip := chip, keys := [(0, .generated 0)] } }
/-- Tile 0's Lodge as given. -/
def lodged (l : Lodge) : State := { powered [] with lodges := [(0, l)] }
/-- A probe's other side: the entry of slot 8, its filters full or empty. -/
def probed (bits : BitVec 512) (milestone : Key) : State :=
  let e := anEntry specTask (some 8)
  { lodged { Lodge.reset with cq := [(3, { e with write := [bits, bits, bits, bits] })] } with
    threads := [(8, tEntry)], runs := [(0, { Run.reset with phase := .resident, milestone := milestone })] }
/-- An entry that aborts, with one word to restore. -/
def restoring : State :=
  lodged { Lodge.reset with cq := [(3, { anEntry specTask none with aborting := true, log := [⟨0x18000, 0, 7, true⟩] })] }
/-- A line of die 0 that tile 0 has marked. -/
def anL2 (line : Nat) : L2Entry := { L2Entry.new 0 line with srm := 1 }
def markedLine (bits : BitVec 512) : State :=
  let s := probed bits Key.allOnes
  { s with coh := { s.coh with l2 := [anL2 0x300] } }
/-- A TLB entry of core 8's core for run 0, all of the first 64 GiB. -/
def aTlb (unit pte : Nat) : TlbEntry :=
  let sp := (powered []).space (some 0)
  { unit := unit, run := sp.2.1, gen := sp.2.2.1, asid := sp.2.2.2, page := 0, level := 2, pte := BitVec.ofNat 64 pte }
def runRoot : Run := { Run.reset with phase := .resident, cfg := { RunCfg.none with ptroot := 0x2000 } }
/-- A page table at 0x2000: an entry of level 3 that names the table at 0x4000, whose first entry is a leaf without A and D. -/
def tabled : State :=
  let s := powered [(0x2000 / 128, ⟨0, BitVec.ofNat 1024 (0x4000 + 1), false⟩), (0x4000 / 128, ⟨0, BitVec.ofNat 1024 (identityLeaf 0), false⟩)]
  { s with runs := [(0, runRoot)] }
/-- The same with the leaf's line in HBM. -/
def tabledHbm : State := tabled.writeBack (0x4000 / 128)
def walker : Who := { agent := .thread 8, tile := 0, core := some 1, run := some 0, issuer := 1, th := 8, remote := [] }
/-- The walk that a location needed. -/
def walkOf (l : Loc) : Option (Option (Nat × Nat × Nat)) :=
  match l with
  | .ok l => some l.walk
  | _ => none
theorem loc_of {l : Loc} {w : Option (Nat × Nat × Nat)} (h : walkOf l = some w) : ∃ x, l = .ok x ∧ x.walk = w := by
  cases l with
  | ok x => exact ⟨x, rfl, Option.some.inj h⟩
  | error y => cases h
/-- A load of the first page of the first 64 KiB by slot 8, under way to its private line. -/
def filling : State :=
  let p : Part := { homePart with pa := 0x300, priv := true }
  { tabled with tlb := [aTlb 1 (identityLeaf 0 + 0x60)], threads := [(8, tResult (aResult (numG 1) (.loadG .s64) [p]))] }
theorem witness_ConflictSteps :
    (∀ v ∈ [((0 : BitVec 512), Key.allOnes), (BitVec.allOnes 512, Key.allOnes), (BitVec.allOnes 512, specTask.key)],
      let e := ((probed v.1 v.2).lodge 0).cq
      e.length = 1 ∧ e.map (fun x => x.1) = [3] ∧ (e.all fun x => x.2.task == specTask && x.2.th == some 8 && !x.2.finished &&
        !x.2.aborting && x.2.log.isEmpty && x.2.children.isEmpty && !x.2.ovf && x.2.depart.isNone && !x.2.creatorAborted && !x.2.task.standing) ∧
        ((probed v.1 v.2).run 0).milestone = v.2 ∧ (e.all fun x => sigMatch x.2.write 5 == (v.1 != 0))) ∧
    ((probed 0 Key.allOnes).standingId (some 77) = false ∧ (probed 0 Key.allOnes).standingId none = false ∧ Key.lt ⟨1, 0⟩ specTask.key = true ∧ Key.lt ⟨9, 0⟩ specTask.key = false ∧
      specId 0 3 1 ≠ 77 ∧ specTask.key ≠ Key.allOnes) ∧
    ((powered []).roomL3 0x300 = powered [] ∧ (powered []).roomL2 0 0x300 = powered []) ∧
    ((restoring.lodge 0).cq.length = 1 ∧ (restoring.keyAt 0).isSome = true ∧ restoring.mem.errors = [] ∧ restoring.stash.lines = [] ∧ restoring.coh = State.reset.coh ∧ restoring.backed 0x18000 = true ∧
      restoring.isSystem 0x18000 = false ∧ Sparse.get? restoring.mem.chip 0x300 = none) ∧
    ((powered []).markRun 0x300 = none ∧ (markedLine 0).markRun 0x300 = some 0 ∧
      (markedLine (BitVec.allOnes 512)).markRun 0x300 = some 0 ∧ (markedLine 0).tileMatches 0 0 0x300 = false ∧
      (markedLine (BitVec.allOnes 512)).tileMatches 0 0 0x300 = true) ∧
    ((∃ x, ({ tabled with tlb := [aTlb 1 (identityLeaf 0 + 0x60)] }).locate walker .read 0x18000 1 = .ok x ∧ x.walk = none) ∧
      (∃ x, tabledHbm.locate walker .write 0x18000 1 = .ok x ∧ x.walk = some (identityLeaf 0, 2, 0x4000)) ∧
      identityLeaf 0 < 2 ^ 64 ∧ tabledHbm.stash.lines = [] ∧ Sparse.get? tabledHbm.mem.chip (0x4000 / 128) = none ∧
      tabledHbm.coh = State.reset.coh ∧ tabledHbm.mem.errors = [] ∧ tabledHbm.itinMode 0 = none ∧ tabledHbm.backed 0x4000 = true ∧ tabledHbm.isSystem 0x4000 = false) ∧
    (({ tabled with tlb := [aTlb 1 (identityLeaf 0 + 0x60)] }).tlb.find? (fun e => e.unit == 1 && leafPa e.pte.toNat e.level 0 / 2 ^ 16 == 0) =
        some (aTlb 1 (identityLeaf 0 + 0x60)) ∧ isInnkeeperCore 1 = false ∧
      ({ tabled with tlb := [aTlb 1 (identityLeaf 0 + 0x60)] }).fillsPrivate 1 (leafPa (identityLeaf 0 + 0x60) 2 0, 2 ^ levelShift 2) = false ∧
      filling.tlb.length = 1 ∧ filling.fillsPrivate 1 (leafPa (identityLeaf 0 + 0x60) 2 0, 2 ^ levelShift 2) = true) :=
  by refine ⟨?_, ?_, ?_, ?_, ?_, ⟨loc_of ?_, loc_of ?_, ?_⟩, ?_⟩ <;> decide +kernel

/-- A task to be dispatched, and the same as a speculative one with or without a tiebreaker. -/
def specNew : Task := { fetchTask with spec := true, ts := 5 }
def sentTask : Sent := { id := 9, sender := none, tile := 0, task := fetchTask, th := none }
def sending (n : Nat) : State := { lodged { Lodge.reset with queue := List.replicate n fetchTask } with sent := [sentTask] }
/-- A grid of 10 by 4 by 2 in pieces of 4 by 2 by 2: 3 by 2 by 1 tasks, two of them still to enter. -/
def aGrid : GridRec :=
  { func := 0x10000, ts := 0, ext := [10, 4, 2], sub := [4, 2, 2], dims := [3, 2, 1], next := 4, stop := 6, nargs := 0, args := [], run := 0,
    launch := 0, parent := none, tile := 0, launchUnit := false }
def gridding (n : Nat) : State := lodged { Lodge.reset with queue := List.replicate n fetchTask, grids := [aGrid] }
/-- A run whose spill area lies at a VA and has 2 ^ splog bytes, and a queue of n tasks. -/
def spilling (n splog spill : Nat) : State :=
  { lodged { Lodge.reset with queue := List.replicate n fetchTask } with
    runs := [(0, { runRoot with cfg := { runRoot.cfg with spill := spill, splog := splog } })],
    tlb := [aTlb 2048 (identityLeaf 0 + 0x60)] }
/-- The same with a creator that waits for the accept. -/
def senderThread : Thread := { t0 with park := .send 9 8 false }
def awaited : State :=
  { lodged Lodge.reset with sent := [{ sentTask with tile := 1, th := some 8 }], threads := [(8, senderThread)] }
def spilledBlock : SpillBlock := { block := 2, notes := [⟨0, 0, 0, false, none, false⟩, ⟨0, 0, 0, false, none, false⟩] }
/-- One block spilled, in an area that stands in the tile's own stash. -/
def spilled : State :=
  let s := spilling 0 16 (0xFF * 2 ^ 48)
  { s with lodges := [(0, { Lodge.reset with blocks := [(0, [spilledBlock])] })] }
def isOk {ε α : Type} (e : Except ε α) : Bool :=
  match e with
  | .ok _ => true
  | .error _ => false
theorem ok_some {ε α : Type} {e : Except ε α} (h : isOk e = true) : ∃ x, e = .ok x := by
  cases e with
  | ok x => exact ⟨x, rfl⟩
  | error e => cases h
/-- What a read of a block and the write after it answer. -/
def refills (s : State) : Bool :=
  match s.readBlock 0 0 2 with
  | .ok (_, v) => match v.areaWrite 0 0 (v.spillBase 0 0 + 32) [0, 0] with
    | .ok x => (x.lodge 0).discards.isEmpty && Sparse.get? (x.lodge 0).spblk 0 != some 2 && x.mayHold 0 0
    | .error _ => false
  | .error _ => false
theorem refills_of {s : State} (h : refills s = true) : ∃ r v x, s.readBlock 0 0 2 = .ok (r, v) ∧
    v.areaWrite 0 0 (v.spillBase 0 0 + 32) [0, 0] = .ok x ∧ (x.lodge 0).discards = [] ∧
    Sparse.get? (x.lodge 0).spblk 0 ≠ some 2 ∧ x.mayHold 0 0 = true := by
  unfold refills at h
  cases h1 : s.readBlock 0 0 2 with
  | error e => rw [h1] at h; cases h
  | ok p =>
    obtain ⟨r, v⟩ := p
    rw [h1] at h
    simp only at h
    cases h2 : v.areaWrite 0 0 (v.spillBase 0 0 + 32) [0, 0] with
    | error e => rw [h2] at h; cases h
    | ok x =>
      rw [h2] at h
      simp only [Bool.and_eq_true, List.isEmpty_iff, bne_iff_ne] at h
      exact ⟨r, v, x, rfl, h2, h.1.1, h.1.2, h.2⟩
/-- The run's milestone latched at a key, and an entry before it that has finished. -/
def latching (phase : RunPhase) (resuming : Bool) : State :=
  { lodged { Lodge.reset with cq := [(3, { anEntry specTask none with finished := true, marked := true })] } with
    runs := [(0, { Run.reset with phase := phase, resuming := resuming, latched := ⟨7, 0⟩ })], latchCycle := some 0 }
def levelled (n on : Nat) : State :=
  let s := lodged { Lodge.reset with queue := List.replicate n fetchTask }
  { s with regs := Sparse.set s.regs 0x200 (BitVec.ofNat 64 (2 ^ 40 * on + 2 ^ 32 * 3)) }
theorem witness_LodgeSteps :
    ((∀ n ∈ [256, 0], (sending n).fatal = false ∧ (sending n).sent.find? (fun x => x.id == 9) = some sentTask ∧ ((sending n).lodge 0).queue.length = n ∧
        (sending n).mayHold 0 0 = true) ∧
      (awaited.fatal = false ∧ awaited.sent.length = 1 ∧ awaited.sent.find? (fun x => x.id == 9) = some { sentTask with tile := 1, th := some 8 } ∧ awaited.mayHold 0 1 = true ∧
        (awaited.lodge 1).queue = [] ∧ awaited.thread? 8 = some senderThread ∧ senderThread.park = .send 9 8 false) ∧ sentTask.th = none ∧ ((powered []).lodge 0).queue = [] ∧ ∀ y ∈ (sending 0).sent, 9 ≤ y.id) ∧
    (∀ t ∈ [fetchTask, specTask, specNew],
      let s := lodged { Lodge.reset with queue := [t] }
      s.fatal = false ∧ s.fenced 0 = false ∧ 0 ∉ s.dbg.halted ∧ s.awaitsEntry 0 = false ∧ s.freeSlot 0 = some 8 ∧ (s.lodge 0).queue = [t] ∧
        s.eligible 0 t = true ∧ s.itinMode t.run = none ∧ s.entryFor 0 t = .free 0) ∧
    (fetchTask.spec = false ∧ specTask.hasTb = true ∧ specNew.hasTb = false ∧ specNew.spec = true ∧
      Nat.max (Sparse.getD (lodged Lodge.reset |>.lodge 0).ctr 0 0) 0 < 0xFFFFFF) ∧
    ((gridding 0).enters aGrid = true ∧ (gridding 0).fatal = false ∧ (gridding 256).mayHold 0 0 = true ∧ (gridding 0).mayHold 0 0 = true ∧ ((gridding 256).lodge 0).grids = [aGrid] ∧ ((gridding 0).lodge 0).grids = [aGrid] ∧ ((gridding 256).lodge 0).queue.length = 256 ∧
      aGrid.dims = [3, 2, 1] ∧ aGrid.ext.length = 3 ∧ aGrid.sub.length = 3) ∧
    ((spilling 225 12 0).fatal = false ∧ (spilling 225 16 (0xFF * 2 ^ 48)).fatal = false ∧
      ((spilling 225 16 (0xFF * 2 ^ 48)).lodge 0).spillFault = false ∧ ((spilling 225 12 0).lodge 0).queue.length = 225 ∧ ((spilling 225 12 0).lodge 0).spillFault = false ∧
      mostQueued ((spilling 225 12 0).lodge 0).queue = some 0 ∧ (spilling 225 12 0).spillBlocks 0 = 0) ∧
    (mostQueued ((spilling 225 16 (0xFF * 2 ^ 48)).lodge 0).queue = some 0 ∧ 0 < (spilling 225 16 (0xFF * 2 ^ 48)).spillBlocks 0 ∧
      ((spilling 225 16 (0xFF * 2 ^ 48)).lodge 0).blocksOf 0 = [] ∧
      ∃ v, (spilling 225 16 (0xFF * 2 ^ 48)).writeBlock 0 0 0
        ((latestFirst (((spilling 225 16 (0xFF * 2 ^ 48)).lodge 0).queue.filter fun t => t.run == 0)).take 32) = .ok v) ∧
    (spilled.fatal = false ∧ (spilled.lodge 0).spblk = [] ∧ (spilled.lodge 0).spillFault = false ∧ (spilled.lodge 0).blocks = [(0, [spilledBlock])] ∧ spilled.runLive 0 = true ∧
      (spilled.lodge 0).queue.length ≤ 192 ∧ spilled.wantsSpilled 0 0 = false ∧
      ∃ r v x, spilled.readBlock 0 0 2 = .ok (r, v) ∧ v.areaWrite 0 0 (v.spillBase 0 0 + 32) [0, 0] = .ok x ∧
        (x.lodge 0).discards = [] ∧ Sparse.get? (x.lodge 0).spblk 0 ≠ some 2 ∧ x.mayHold 0 0 = true) ∧
    (((lodged Lodge.reset).lodge 0).blocks = [] ∧ ((lodged Lodge.reset).lodge 0).discards = [] ∧ (entryState.lodge 0).blocks = [] ∧
      (entryState.lodge 0).discards = [] ∧ ∀ x ∈ (entryState.lodge 0).cq, x.2.task.parent ≠ some 5) ∧
    (Sparse.get? (powered []).runs 0 = some { Run.reset with phase := .resident } ∧ (powered []).fatal = false ∧ (powered []).latchCycle = none ∧
      (∀ v ∈ [(RunPhase.resident, false), (.preempting, false), (.resident, true)],
        (latching v.1 v.2).latchCycle = some 0 ∧ (latching v.1 v.2).runs.length = 1) ∧ specTask.key.lt ⟨7, 0⟩ = true) ∧
    (bitOf ((levelled 5 0).reg 0x200) 40 = false ∧ bitOf ((levelled 5 1).reg 0x200) 40 = true ∧ (levelled 5 1).lodges.length = 1 ∧
      (levelled 5 1).sent = [] ∧ bitsOf ((levelled 5 1).reg 0x200) 32 8 = 3 ∧ fetchTask.hmode = .none ∧ fetchTask.parent = none ∧
      (levelled 5 1).mayHold 0 1 = true) :=
  by refine ⟨?_, ?_, ?_, ?_, ?_, ⟨?_, ?_, ?_, ok_some ?_⟩, ⟨?_, ?_, ?_, ?_, ?_, ?_, ?_, refills_of ?_⟩, ?_, ?_, ?_⟩ <;> decide +kernel

/-- A line of 64-bit words. -/
def wordLine (ws : List Nat) : Line := BitVec.ofNat 1024 (ws.foldr (fun w a => w + 2 ^ 64 * a) 0)
/-- A queue header at 0x8000: TAIL 3, DONE 1, a ring, the word of its fields and the first word of its tile mask. -/
def headed (tail ring w4 mask : Nat) : State :=
  powered [(0x100, ⟨0, wordLine [tail, 1, 1, ring, w4, 0, 0, 0, mask], false⟩)]
def hasCode (s : State) (bits : List Bool) : Bool :=
  let f (i lo n : Nat) : Nat := bitsOf (lineNat (s.lineAt 0x100 0) (8 * i) 8) lo n
  let m := f 8 0 64
  let timed := bitOf (f 4 0 64) 16
  bits == [timed, decide (f 4 8 5 < 4) || decide (20 < f 4 8 5), timed && decide (f 4 0 6 < 56) || !timed && decide (56 ≤ f 4 0 6),
      timed && m == 0, !s.backed (128 * f 3 7 45), decide (2 ^ f 4 8 5 < (f 0 0 64 + 2 ^ 64 - f 2 0 64) % 2 ^ 64)] &&
    f 9 0 64 == 0 && f 10 0 64 == 0 && f 11 0 64 == 0
/-- A header line of tail, ring, fields and mask that the launch unit can read now, and the checks of R73 that it fails. -/
def headerCase (tail ring w4 mask : Nat) (bits : List Bool) : Bool :=
  let s := headed tail ring w4 mask
  !s.fatal && s.backed 0x8000 && decide (s.coh = State.reset.coh) && s.mem.errors.isEmpty && (s.physReady 0x8000 true).1 && s.lodges.isEmpty && s.threads.isEmpty &&
    ((Sparse.get? s.mem.chip 0x100).map fun c => c.key) == some 0 && hasCode s bits
/-- Queue 5 on, with its header at 0x8000 and its ring at 0x10000, and the line of its next record. -/
def onQueue : Queue := { Queue.reset with phase := .on, hdr := 0x8000, tail := 3, ring := 0x10000 }
def queued (x : Queue) (rec : List Nat) : State :=
  { powered [(0x100, ⟨0, wordLine [3], false⟩), (0x200, ⟨0, wordLine rec, false⟩)] with queues := [(5, x)] }
/-- Words of records: of RUNID 0 by itself, a task record and a grid record on tile 0 with timestamps, and one of RUNID 7. -/
def nopWords : List Nat := [0]
def taskWords (ts : Nat) : List Nat := [2 ^ 32, 0, 0x10000, ts]
def gridWords : List Nat := [2 ^ 33 + 3 * 2 ^ 38, 0, 0x10000, 0, 0, 0, 0, 1, 0, 0, 0, 10 + 4 * 2 ^ 32, 2 + 4 * 2 ^ 32 + 2 * 2 ^ 48, 2]
def aLaunch (ws : List Nat) (phase : LaunchPhase) : Launch :=
  { id := 4, queue := 5, record := 0, slotPa := 0x10000, words := (ws ++ List.replicate (16 - ws.length) 0).map (BitVec.ofNat 64), run := 0,
    level := 0, aged := 0, deadline := 0, budget := 0, charge := 0, overrun := false, timed := false, status := none, entered := false,
    old := false, phase := phase }
def launched (l : Launch) : State := { queued onQueue [] with launches := [l] }
/-- A floor the run's launches may not go below. -/
def floored (ts : Nat) (rec : List Nat) : State :=
  { queued onQueue rec with runs := [(0, { Run.reset with phase := .resident, floor := ⟨BitVec.ofNat 64 ts, 0⟩ })] }
/-- A launch that waits for a task that could start, under an ageing time. -/
def ageing (aged : Nat) : State :=
  { lodged { Lodge.reset with queue := [fetchTask] } with
    launches := [{ aLaunch nopWords .working with aged := aged }],
    regs := [(0x008, BitVec.ofNat 64 (2 ^ 63 + 64)), (0x050, 3)] }
/-- A launch whose work is done, its record's line and its header in HBM. -/
def completing (l : Launch) : State :=
  let s := powered []
  { s with queues := [(5, onQueue)], launches := [l] }
/-- The launch unit holds its copy of the queue's header. -/
def holding : State := let s := queued onQueue nopWords; { s with coh := { s.coh with headers := [(5, 0x100)] } }
theorem witness_QueuesAndLaunches :
    ((powered []).backed (2 ^ 40) = false ∧ ((powered []).queue 5).phase = .off ∧ bitsOf (BitVec.ofNat 64 (2 ^ 40)).toNat 7 45 * 128 = 2 ^ 40 ∧
      headerCase 2 0x10000 0 0 [false, true, false, false, false, false] = true ∧
      headerCase 3 0x10000 (4 * 2 ^ 8 + 56) 0 [false, false, true, false, false, false] = true ∧
      headerCase 3 0x10000 (2 ^ 16 + 4 * 2 ^ 8 + 56) 0 [true, false, false, true, false, false] = true ∧
      headerCase 3 (2 ^ 40) (4 * 2 ^ 8) 0 [false, false, false, false, true, false] = true ∧
      headerCase 18 0x10000 (4 * 2 ^ 8) 0 [false, false, false, false, false, true] = true ∧
      headerCase 17 0x10000 (4 * 2 ^ 8) 0 [false, false, false, false, false, false] = true ∧
      headerCase 3 0x10000 (2 ^ 16 + 4 * 2 ^ 8 + 56) 2 [true, false, false, false, false, false] = true ∧
      ∀ p < 64, ((headed 3 0x10000 0 2).queue p).timed = false) ∧
    (Launch.reserves { aLaunch nopWords .working with timed := true } = true ∧ ((launched (aLaunch nopWords .working)).queue 5).timed = false ∧
      (∀ x ∈ [{ onQueue with timed := true, phase := .off }, { onQueue with timed := true }], (queued x []).queue 5 = x)) ∧
    (∀ x ∈ [onQueue, { onQueue with logn := 0 }, { onQueue with mismatch := true }], (queued x nopWords).queue 5 = x ∧ x.phase = .on ∧
      (queued x nopWords).physReady x.hdr false = (true, queued x nopWords) ∧
      (queued x nopWords).physReady (x.slotPa x.taken) false = (true, queued x nopWords) ∧ (queued x nopWords).hasHeader 5 = false ∧
      (queued x nopWords).coh = State.reset.coh ∧ ((Sparse.get? (queued x nopWords).mem.chip 0x100).map fun c => c.key) = some 0 ∧
      lineNat ((queued x nopWords).holdHeader 5).1 0 8 = 3) ∧
    (holding.hasHeader 5 = true ∧ (holding.queue 5).phase = .on ∧ 2 ^ 0 < (3 + 2 ^ 64 - onQueue.done) % 2 ^ 64 ∧
      ¬2 ^ 4 < (3 + 2 ^ 64 - onQueue.done) % 2 ^ 64) ∧
    ((∀ w ∈ [nopWords, taskWords 9, [1], taskWords 3, [2 ^ 48 * 7]], (floored 5 w).nextQueue = some 5 ∧ (floored 5 w).fatal = false ∧
        (floored 5 w).takeReady 5 = (true, floored 5 w) ∧
        (floored 5 w).launches = []) ∧ (queued { onQueue with phase := .off } nopWords).nextQueue = none ∧
      (floored 5 [1]).nextRecord 5 ≠ (floored 5 nopWords).nextRecord 5 ∧
      (floored 5 nopWords).runSlotOf 0 = some 0 ∧ (floored 5 nopWords).runSlotOf 7 = none ∧ (floored 5 nopWords).savedOf 7 = none ∧
      ((floored 5 nopWords).run 0).phase = .resident ∧ (floored 5 nopWords).teardownBegun 0 false = false ∧
      ((floored 5 nopWords).run 0).ends = false ∧ ((floored 5 nopWords).run 0).killed = false ∧ (floored 5 nopWords).itinMode 0 = none ∧
      recordOk ((floored 5 nopWords).nextRecord 5) false = true ∧ recordOk ((floored 5 (taskWords 9)).nextRecord 5) false = true ∧
      recordOk ((floored 5 (taskWords 3)).nextRecord 5) false = true ∧ ((floored 5 nopWords).run 0).floor.ts.toNat = 5 ∧
      (((floored 5 (taskWords 9)).nextRecord 5).getD 3 0).toNat = 9 ∧ (((floored 5 (taskWords 3)).nextRecord 5).getD 3 0).toNat = 3) ∧
    (∀ w ∈ [nopWords, taskWords 9, gridWords], (launched (aLaunch w .ready)).launch? 4 = some (aLaunch w .ready) ∧
      (launched (aLaunch w .ready)).runLive 0 = true ∧ (launched (aLaunch w .ready)).mayHold 4 0 = true ∧
      (launched (aLaunch w .ready)).fatal = false ∧ (launched (aLaunch w .ready)).entryCycle = true ∧ (aLaunch w .ready).args = none ∧
      (launched (aLaunch w .ready)).sent = [] ∧ ((launched (aLaunch w .ready)).lodge 0).queue = []) ∧
    ((launched (aLaunch gridWords .ready)).gridTiles 4 (gridOfRecord (aLaunch gridWords .ready).words).mask = [0] ∧
      bitsOf ((aLaunch gridWords .ready).words.getD 0 0).toNat 32 2 = 2 ∧ bitsOf ((aLaunch gridWords .ready).words.getD 0 0).toNat 40 4 = 0) ∧
    (∀ n ∈ [0, 2], (ageing n).readyTask 0 = true ∧ bitsOf ((ageing n).reg 0x050) 0 16 = 3 ∧ (ageing n).launches.length = 1) ∧
    ((launched { aLaunch nopWords .working with timed := true, charge := 1 }).launch? 4 = some { aLaunch nopWords .working with timed := true, charge := 1 } ∧
      (launched (aLaunch nopWords .working)).launch? 4 = some (aLaunch nopWords .working)) ∧
    (∀ l ∈ [aLaunch nopWords .working, { aLaunch nopWords .working with status := some 3, run := noRun }],
      let s := completing l
      s.launch? 4 = some l ∧ s.launchBusy 4 = false ∧ (s.queue 5).done = 0 ∧ (s.queue 5).doneSet = [] ∧ s.physReady 0x10000 true = (true, s) ∧
        s.physReady 0x8000 true = (true, s) ∧ s.coh = State.reset.coh ∧ s.fatal = false ∧ s.mem.errors = [] ∧ s.stash.lines = [] ∧ s.backed 0x10000 = true ∧
        s.isSystem 0x10000 = false ∧ s.backed 0x8000 = true ∧ s.mem.chip = [] ∧ l.words.getD 4 0 = 0) ∧
    ({ lodged { Lodge.reset with queue := [{ fetchTask with launch := 4 }] } with launches := [aLaunch nopWords .working] } : State).launchBusy 4 = true :=
  by refine ⟨?_, ?_, ?_, ?_, ?_, ?_, ?_, ?_, ?_, ?_, ?_⟩ <;> decide +kernel

/-- The words of a run's configuration block (R79): RUNID and ASID, the root table, five areas, the size of the spill area. -/
def blockWords (runid : Nat) : List Nat := [runid + 2 ^ 16 * 3, 0x2000, 0x100000, 0x200000, 0x300000, 0x400000, 0x500000, 16]
def cfgBlock (ws : List Nat) : State := powered [(0x100, ⟨0, wordLine ws, false⟩)]
def blockOk (s : State) : Bool :=
  let f (i lo k : Nat) : Nat := bitsOf (lineNat (s.lineAt 0x100 0) (8 * i) 8) lo k
  let base (i : Nat) : Bool := f i 0 64 % 2 ^ 16 == 0 && decide (f i 0 64 < 2 ^ 56)
  s.backed 0x8000 && !s.poisoned 0x100 && f 0 0 16 != 0 && f 0 28 36 == 0 && s.runSlotOf (f 0 0 16) == none && s.savedOf (f 0 0 16) == none &&
    f 0 16 12 != 0 && f 1 0 64 % 2 ^ 13 == 0 && decide (f 1 0 64 < 2 ^ 52) && s.backed (f 1 0 64) && base 2 && base 3 && base 4 && base 5 && base 6 &&
    decide (16 ≤ f 7 0 64) && decide (f 7 0 64 ≤ 30) && (List.range 8).all fun i => f (8 + i) 0 64 == 0
/-- Run slot 1 being loaded from a block at 0x8000; and a package whose memory layout is not yet locked. -/
def loadingRun (s : State) : State := s.setRun 1 { s.run 1 with cfgpa := 0x8000, loading := true }
def unlocked : State := { powered [] with regs := [] }
/-- A run in each slot, its areas in the tile's own stash at 0x10000, and a new record of a higher level that waits for one. -/
def stashRun : Run := { runRoot with cfg := { runRoot.cfg with runid := 3, save := 0xFF * 2 ^ 48 } }
def crowded : State :=
  { queued { onQueue with prio := 3 } [2 ^ 34] with runs := (List.range 16).map fun n => (n, stashRun) }
/-- The same with run 3's save area in HBM from an address, of which page 1 of 64 GiB alone is translated, or page 0. -/
def givingWay (save page : Nat) : State :=
  let s : State := { crowded with runs := Sparse.set crowded.runs 3 { stashRun with cfg := { stashRun.cfg with save := save } } }
  let sp := s.space (some 3)
  { s with regs := Sparse.set s.regs 0x030 1,
           tlb := [{ unit := 2048, run := sp.2.1, gen := sp.2.2.1, asid := sp.2.2.2, page := page, level := 2,
                     pte := BitVec.ofNat 64 (identityLeaf 0 + 0x60) }] }
/-- Run 3 of it gives way: its jobs taken, the zeros of its save area written. -/
def cleared (s : State) : Except Stop State := ((s.setRun 3 { s.run 3 with phase := .preempting }).takeJobs 3).clearArea 3
/-- Whether the first n words of the header can then be written. -/
def heads (s : State) (n : Nat) : Option Bool :=
  match cleared s with
  | .ok v => if v.stash.maps.all fun m => m.run != 3 then
      some (isOk (v.areaWrite 0 3 ((v.run 3).cfg.save % 2 ^ 56) ((v.headWords 3 0).take n))) else none
  | .error _ => none
/-- A saved run that waits for a slot, with a launch still to enter. -/
def aSaved : SavedRun :=
  { jobs := [], tasks := [], maps := [], images := [], cfg := stashRun.cfg, cfgpa := 0x8000, milestone := ⟨7, 0⟩, floor := ⟨2, 0⟩, level := 0,
    order := 0, ends := false, killed := false }
def savedState : State :=
  { powered [] with runs := [], saved := [aSaved], launches := [{ aLaunch nopWords .ready with run := 19 }] }
/-- A thread of slot 8 that is to return, its record in the stash. -/
def returning : State :=
  { powered [] with
    runs := [(0, { stashRun with cfg := { stashRun.cfg with save := 0xFF * 2 ^ 48 - 0x110000 }, returning := [(8, fetchTask)] })],
    stash := { State.reset.stash with cells := [⟨0, 1⟩] } }
def readsFirst (e : Except Stop (List (BitVec 64) × State)) : Bool :=
  match e with
  | .ok (w, _) => (w.getD 0 0).getLsbD 0
  | .error _ => false
theorem reads_of {e : Except Stop (List (BitVec 64) × State)} (h : readsFirst e = true) :
    ∃ w v, e = .ok (w, v) ∧ (w.getD 0 0).getLsbD 0 = true := by
  cases e with
  | ok p => exact ⟨p.1, p.2, rfl, h⟩
  | error e => cases h
theorem pair_of {ε α β : Type} {e : Except ε (α × β)} (h : isOk e = true) : ∃ w v, e = .ok (w, v) := by
  cases e with
  | ok p => exact ⟨p.1, p.2, rfl⟩
  | error e => cases h
/-- A run that ends, or has been ordered to, with its task at work in slot 8. -/
def ending (r : Run) (threads : Sparse Thread) : State := { powered [] with runs := [(0, r)], threads := threads }
theorem witness_RunsComeAndGo :
    (((powered []).run 0).phase ≠ .free ∧ ((cfgBlock (blockWords 9)).run 1).phase = .free ∧ blockOk (cfgBlock (blockWords 9)) = true ∧
      blockOk (cfgBlock (blockWords 0)) = false ∧
      (∀ id ∈ [9, 0], (cfgBlock (blockWords id)).fatal = false ∧ (loadingRun (cfgBlock (blockWords id))).physReady 0x8000 false =
        (true, loadingRun (cfgBlock (blockWords id)))) ∧
      (unlocked.fatal = false ∧ unlocked.backed 0x8000 = true ∧ (unlocked.run 1).phase = .free ∧
        ((loadingRun unlocked).physReady 0x8000 false).1 = false)) ∧
    ((powered []).mustPreempt 0 = false ∧ (crowded.run 3).killed = false ∧ (crowded.run 3).phase = .resident ∧ crowded.mustPreempt 3 = true ∧
      crowded.runEntries 3 = [] ∧ crowded.runThreads 3 = [] ∧ crowded.runJobs 3 = [] ∧ (∀ tile < 256, crowded.hasQueued 3 tile = false) ∧
      crowded.fatal = false ∧ crowded.stash.maps = [] ∧ crowded.stash.touched = [] ∧ crowded.records = []) ∧
    (isOk (cleared crowded) = false ∧ heads (givingWay (2 ^ 36 - 0x2000) 1) 1 = some false ∧ heads (givingWay 0x500000 0) 64 = some true ∧
      ∀ save ∈ [0x500000, 2 ^ 36 - 0x2000], ∀ page ∈ [0, 1], (givingWay save page).fatal = false ∧ (givingWay save page).mustPreempt 3 = true ∧
        ((givingWay save page).run 3).phase = .resident ∧ ((givingWay save page).run 3).killed = false ∧
        (givingWay save page).runEntries 3 = [] ∧ (givingWay save page).runThreads 3 = [] ∧ (givingWay save page).runJobs 3 = [] ∧
        (givingWay save page).records = [] ∧ (givingWay save page).stash = State.reset.stash) ∧
    (∀ save ∈ [0x500000, 2 ^ 36 - 0x2000], ∀ tile < 256, (givingWay save 0).hasQueued 3 tile = false) ∧
    ((powered []).nextSaved = none ∧ (savedState.run 3).killed = false ∧ (savedState.run 3).phase = .free ∧ savedState.nextSaved = some aSaved ∧
      savedState.fatal = false ∧ savedState.records = [] ∧ savedState.savedOf aSaved.cfg.runid = some aSaved) ∧
    (∃ w v, ((savedState.loadSlot 3 aSaved.cfg aSaved.cfgpa).setRun 3
      { (savedState.loadSlot 3 aSaved.cfg aSaved.cfgpa).run 3 with resuming := true }).areaRead 0 3 1024 (aSaved.cfg.save % 2 ^ 56) = .ok (w, v)) ∧
    ((returning.run 0).killed = false ∧ (returning.run 0).phase = .resident ∧ (returning.run 0).resuming = false ∧
      returning.fatal = false ∧ (returning.run 0).returning = [(8, fetchTask)] ∧ fetchTask.spec = false ∧ returning.thread? 8 = none ∧ returning.records = []) ∧
    (∃ w v, returning.areaRead (8 / 64) 0 1024 (((returning.run 0).cfg.save + (0x00100000 + 8192 * 8)) % 2 ^ 56) = .ok (w, v) ∧
      (w.getD 0 0).getLsbD 0 = true) ∧
    (let e := ending { runRoot with phase := .ending } [];
      (e.run 0).phase = .ending ∧ e.launches = [] ∧ e.runThreads 0 = [] ∧ e.runStores 0 = false ∧ e.stash.maps = [] ∧
        (let r := (ending { runRoot with ends := true } []).run 0; r.ends = true ∧ r.phase = .resident ∧ r.killed = false ∧ r.resuming = false) ∧
        (ending { runRoot with ends := true } []).launches = [] ∧ (ending { runRoot with ends := true } []).runThreads 0 = [] ∧
        (ending { runRoot with ends := true } []).runStores 0 = false ∧ (ending { runRoot with phase := .ending } [(8, t0)]).runThreads 0 ≠ []) ∧
    (let e := ending { runRoot with killed := true } [(8, t0)];
      (e.run 0).killed = true ∧ (e.run 0).phase ≠ .free ∧ (e.run 0).resuming = false ∧ e.runEntries 0 = [] ∧ e.runJobs 0 = [] ∧
        e.onHalted 0 = false ∧ e.records = [] ∧ (∀ x ∈ e.runThreads 0, (e.thread? x.1).map (fun t => t.outs) = some []) ∧ e.stores = [] ∧ e.engines = []) :=
  by refine ⟨?_, ?_, ?_, ?_, ?_, pair_of ?_, ?_, reads_of ?_, ?_, ?_⟩ <;> decide +kernel

/-- A register at a value, beside SPREAD_SIZE. -/
def registered (num v : Nat) (s : State) : State := { s with regs := Sparse.set s.regs num (BitVec.ofNat 64 v) }
/-- Key slots 0 and 2 hold keys; a store in flight to a line under slot 2. -/
def keyed (inFlight : Bool) : State :=
  let s := powered []
  let x := aStore { homePart with key := 2 } .write none 0
  { s with mem := { s.mem with keys := [(0, .generated 0), (2, .generated 1)] }, stores := if inFlight then [x] else [] }
def keyCmd (k : Nat) : BitVec 64 := BitVec.ofNat 64 (2 ^ 4 * k)
/-- Page 2 in a bias state, with a half line of it that the host holds. -/
def biased (st : BitVec 2) (held : Bool) : State :=
  let s := powered []
  { s with mem := { s.mem with bias := [(2, st)], hostLines := if held then [(2048, .sole)] else [], snoops := [(7, true), (9, false)] } }
/-- The half of the record of a peer behind port 2. -/
def peerHalf : Nat := heldAt 11 3
/-- Scrubbing on with THRESH, the slots read of each pseudo-channel of controller 0, errors that stand, the cycle. -/
def scrubbing (thresh cycle : Nat) (done : Sparse Nat) (late : List Nat) : State :=
  let s := registered 0x031 (2 ^ 63 + 2 ^ 20 * thresh) (powered [])
  { s with mem := { s.mem with scrub := done, scrubLate := late, errors := [(2 ^ 23 + 7, false)] }, cycle := cycle }
/-- Every pseudo-channel of controller 0 read to the end, but for one with a slot left. -/
def almost (one : Nat) : Sparse Nat := (List.range 32).map fun pc => (pc, if pc = one then 2 ^ 23 - 1 else 2 ^ 23)
/-- A pseudo-channel without a request for as long as IDLE says, self-refresh on. -/
def idle : State := { registered 0x033 (2 ^ 63) (powered []) with cycle := 4096 }
theorem witness_MemoryRegistersAndHost :
    (bitOf (State.reset.reg 0x008) 63 = false ∧ bitOf ((powered []).reg 0x008) 63 = true ∧ bitsOf (BitVec.ofNat 64 (2 ^ 63 + 65)).toNat 0 7 = 65 ∧
      bitsOf (BitVec.ofNat 64 64).toNat 0 7 = 64) ∧
    ((BitVec.ofNat 64 (2 ^ 9)).getLsbD 9 = true ∧ (BitVec.ofNat 64 (2 ^ 9)).getLsbD 8 = false ∧ (BitVec.ofNat 64 (2 ^ 9)).getLsbD 7 = false) ∧
    (∀ b ∈ [false, true], bitOf ((keyed b).reg 0x038) 63 = false ∧ ((keyed b).keyAt 2).isSome = true ∧ (keyed b).keyAt 1 = none ∧
      (keyed b).keyInFlight 2 = b ∧ bitsOf (keyCmd 2).toNat 4 4 = 2 ∧ bitsOf (keyCmd 2).toNat 16 20 / 64 * 64 < 2 ^ 20) ∧
    (bitOf ((registered 0x038 (2 ^ 63 + 2 ^ 5) (keyed true)).reg 0x038) 63 = true ∧
      (registered 0x038 (2 ^ 63 + 2 ^ 5) (keyed true)).keyInFlight (bitsOf ((registered 0x038 (2 ^ 63 + 2 ^ 5) (keyed true)).reg 0x038) 4 4) = true) ∧
    (((biased 0 false).backed (2 ^ 16 * 2) = true ∧ (biased 0 false).isSystem (2 ^ 16 * 2) = false ∧ (biased 0 false).backed (2 ^ 16 * 2 ^ 24) = false ∧
        bitOf ((biased 0 false).biasReg false) 63 = false ∧ bitOf ((biased 0 false).biasReg true) 63 = false) ∧
      (biased 0 false).stores = [] ∧ (biased 0 true).stores = [] ∧ (biased 0 false).pageState 2 = 0 ∧ (biased 1 false).pageState 2 = 1 ∧ (biased 2 false).pageState 2 = 2 ∧
      (biased 1 false).pageHeld 2 = [] ∧ (biased 1 true).pageHeld 2 = [2048, 2049] ∧ (∀ b ∈ [false, true], (biased 1 b).pageSnoops 2 = []) ∧
      (∀ op ∈ [1, 2], bitOf ((registered 0x040 (2 ^ 63 + 2 ^ 17 + op) (biased 3 false)).biasReg false) 63 = true ∧
        bitsOf ((registered 0x040 (2 ^ 63 + 2 ^ 17 + op) (biased 3 false)).biasReg false) 0 2 = op ∧
        (registered 0x040 (2 ^ 63 + 2 ^ 17 + op) (biased 3 false)).pageHeld 2 = [] ∧
        (registered 0x040 (2 ^ 63 + 2 ^ 17 + op) (biased 3 false)).pageSnoops 2 = [])) ∧
    (Sparse.get? (biased 0 false).mem.snoops (2 * 3 + true.toNat) = some true ∧ Sparse.get? (biased 0 false).mem.snoops (2 * 4 + true.toNat) = some false ∧
      Sparse.get? (biased 0 false).mem.snoops (2 * 5 + true.toNat) = none) ∧
    (((powered []).isSystem (64 * 2 ^ 45) = true ∧ (powered []).isSystem (64 * 2 ^ 34) = false ∧ (powered []).backed (64 * 2 ^ 34) = false) ∧
      (∀ b ∈ [0, 1], ∀ k ∈ [5, peerHalf], let s : State := { biased b false with mem := { (biased b false).mem with bias := [(0, b)] } }
        s.backed (64 * heldHalf k) = true ∧ s.isSystem (64 * heldHalf k) = false ∧ s.coh = State.reset.coh ∧ s.stash.lines = [] ∧
          s.locked = true ∧ (s.pageState (heldHalf k / 2 / 512)).getLsbD 1 = false ∧ s.mem.chip = [] ∧ s.stores = [] ∧
          (s.keyAt 0).isSome = true ∧ s.latchCycle = none ∧ s.mem.hostLines = [] ∧ (∀ h ∈ [(7, true), (9, false)], heldHalf h.1 / 2 ≠ 5 / 2 ∧
            heldHalf h.1 / 2 ≠ 11 / 2)) ∧
      ((biased 0 false).pageState 0).getLsbD 0 = false ∧ (({ biased 0 false with mem := { (biased 0 false).mem with bias := [(0, 1)] } } : State).pageState
        (heldHalf 5 / 2 / 512)).getLsbD 0 = true) ∧
    (bar0Assigned 0x300 = false ∧ bar0Assigned 0x100 = true) ∧
    (bitOf ((registered 0x031 0 (powered [])).reg 0x031) 63 = false ∧
      (let s := scrubbing 0 0 [] []; bitOf (s.reg 0x031) 63 = true ∧ s.scrubLevelNow 0 = 0 ∧ bitsOf (s.reg 0x031) 20 8 = 0) ∧
      (let s := scrubbing 8 0 (almost 40) []; ∀ pc < 32, 2 ^ 23 ≤ Sparse.getD s.mem.scrub pc 0) ∧
      (let s := scrubbing 8 0 [(0, 2 ^ 23), (1, 7)] []; bitsOf (s.reg 0x031) 20 8 ≠ 0 ∧ s.mem.selfRefresh = [] ∧ Sparse.getD s.mem.scrub 0 0 = 2 ^ 23 ∧
        Sparse.getD s.mem.scrub 1 0 = 7 ∧ Sparse.get? s.mem.errors (2 ^ 23 * 1 + 7) = some false ∧ s.mem.slotPoison = [] ∧
        s.poisoned (s.lineOfSlot (2 ^ 23 * 1 + 7)) = false) ∧
      (let s := scrubbing 8 0 (almost 31) []; Sparse.getD s.mem.scrub 31 0 + 1 = 2 ^ 23 ∧ ∀ pc < 31, Sparse.getD s.mem.scrub pc 0 = 2 ^ 23) ∧
      (let s := scrubbing 8 (2250000000 * 60) [] []; s.scrubLevelNow 0 = 2 ∧ Sparse.getD s.mem.scrub 0 0 + 1 < 2 ^ 23 ∧ s.mem.scrubLate = [] ∧
        Sparse.get? s.mem.errors (2 ^ 23 * 0 + Sparse.getD s.mem.scrub 0 0) = none ∧
        2250000000 * (60 * Nat.max 1 (bitsOf (s.reg 0x031) 0 20)) ≤ s.cycle - Sparse.getD s.mem.scrubStart 0 0) ∧
      0 ∈ (scrubbing 8 0 [] [0]).mem.scrubLate) ∧
    (bitOf (idle.reg 0x033) 63 = true ∧ Nat.max 4096 (bitsOf (idle.reg 0x033) 0 24) ≤ idle.cycle - Sparse.getD idle.mem.requested 9 0 ∧
      ¬4096 ≤ (registered 0x033 (2 ^ 63) (powered [])).cycle) ∧
    (Sparse.get? (powered [(5, ⟨0, 7, true⟩)]).mem.chip 5 = some ⟨0, 7, true⟩ ∧ ((powered [(5, ⟨0, 7, true⟩)]).keyAt 0).isSome = true ∧
      (powered [(5, ⟨0, 7, true⟩)]).locked = true ∧ (powered []).mem.slotPoison.Pairwise (· < ·) ∧ (powered [(5, ⟨3, 7, true⟩)]).keyAt 3 = none) :=
  by refine ⟨?_, ?_, ?_, ?_, ?_, ?_, ?_, ?_, ?_, ?_, ?_⟩ <;> decide +kernel

/-- Firmware in a state, and ports up. -/
def firmware (st : Nat) (up : BitVec 12) : State :=
  { powered [] with
    bar0 := [(0x0100, BitVec.ofNat 64 st)]
    host := { State.reset.host with fabUp := up, fwDigest := some 5, svcDigest := some 6, layoutDigest := some 7 } }
/-- A service image of 16 bytes with its entry at 8, to be spread over 64; and one that is too long. -/
def svcWord : BitVec 64 := BitVec.ofNat 64 (16 + 2 ^ 25 * 8 + 2 ^ 50 * 64)
def longWord : BitVec 64 := BitVec.ofNat 64 (2 ^ 24 + 1)
def fits (v : BitVec 64) (base : Nat) : Bool :=
  let spread := bitsOf v.toNat 50 7
  let len := bitsOf v.toNat 0 25
  let entry := bitsOf v.toNat 25 25
  let root := 2 ^ 16 * ((base + len + 2 ^ 16 - 1) / 2 ^ 16)
  decide (spread ≤ 64) && len != 0 && decide (len ≤ 2 ^ 24) && entry % 8 == 0 && decide (entry < len) &&
    decide (root + 520 * 1024 ≤ 2 ^ 30 * (8 * spread))
/-- A load of a line of a peer's memory under way through port 0; the line was held through it. -/
def peerPart : Part := { homePart with place := .system, pa := 2 ^ 51 + 2 ^ 50, remote := true, port := some 0 }
def peerRead : State :=
  let s := firmware 2 5
  { s with threads := [(8, tResult (aResult (numG 1) (.loadG .s64) [peerPart]))], regs := Sparse.set s.regs 0x100 (BitVec.ofNat 64 (2 ^ 63)),
           mem := { s.mem with heldPort := [(9, 0)], grants := [(18, 1)] } }
/-- Whether an image verifies is no value of the model (R17): a witness for one that does names what it assumes. -/
theorem witness_LinksPowerFirmware :
    (∀ lines ∈ [[], [(heldAt 2048 1, .sole)], [(heldAt 2048 1, HostCopy.modified)]], let s : State := { firmware 2 5 with mem := { (firmware 2 5).mem with hostLines := lines } }
      s.host.fabUp.getLsbD 0 = true ∧ s.host.fabUp.getLsbD 1 = false ∧ s.threads = [] ∧
        (∀ h ∈ lines, heldBy h.1 = 0 + 1 ∧ h.2 ≠ .shared ∧ s.backed (heldHalf h.1 / 2 * 128) = true)) ∧
    (peerRead.host.fabUp.getLsbD 0 = true ∧ peerRead.sentOn 0 peerPart = true ∧ (∃ x ∈ peerRead.threads, ∃ o ∈ x.2.outs, peerPart ∈ o.parts) ∧
      peerRead.isSystem (peerPart.pa / 128 * 128) = true ∧ Sparse.get? peerRead.mem.heldPort 9 = some 0) ∧
    (let s : State := { powered [] with mem := { (powered []).mem with hostLines := [(2048, .modified)] } }
     heldBy 2048 = 0 ∧ s.mem.hostLines = [(2048, HostCopy.modified)] ∧ s.backed (heldHalf 2048 / 2 * 128) = true) ∧
    (∀ st ∈ [0, 1, 2, 3], bitsOf ((firmware st 0).bar 0x0100 0) 0 2 = st) ∧
    (bitsOf longWord.toNat 0 25 = 2 ^ 24 + 1 ∧
      ∀ d, Config.sha3 ((List.range (bitsOf (0#64 <<< 8).toNat 8 32)).map fun i => cellRead State.reset.host.staging i) = d →
        Config.imageVerifies d = true → Config.minSecurityVersion.toNat ≤ (Config.imageVersion d).toNat →
        bitsOf (0#64 <<< 8).toNat 8 32 ≤ 2 ^ 24 ∧ Config.imageVerifies (Config.sha3 ((List.range (bitsOf (0#64 <<< 8).toNat 8 32)).map
          fun i => cellRead State.reset.host.staging i)) = true) ∧
    (bitsOf ((firmware 2 0).bar 0x0110 (64 <<< 50)) 60 3 = 0 ∧ bitsOf ((firmware 2 0).bar 0x0118 0) 16 36 = 0 ∧ fits svcWord 0 = true ∧
      fits 0 0 = false ∧ (firmware 2 0).fatal = false ∧ (powered []).locked = true ∧ State.reset.locked = false ∧
      bitsOf (({ firmware 2 0 with bar0 := [(0x0100, 2), (0x0110, 2 ^ 60 * 2)] } : State).bar 0x0110 0) 60 3 = 2) ∧
    ((firmware 2 0).host.fwDigest = some 5 ∧ (firmware 2 0).host.svcDigest = some 6 ∧ (firmware 2 0).host.layoutDigest = some 7) :=
  ⟨by decide +kernel, by decide +kernel, by decide +kernel, by decide +kernel,
   ⟨by decide +kernel, fun d h1 h2 _ => ⟨by decide +kernel, h1 ▸ h2⟩⟩, by decide +kernel, by decide +kernel⟩

/-- Homes that know line 0x300: its L2 entry in die 0 with tile 3's record, its L3 entry, a copy in core 25's L1D. -/
def aCopy (tag : View) : L1Line :=
  { core := 25, line := 0x300, icache := false, key := 0, src := .f32, tag := tag, untracked := false, hint := 0, data := 0 }
def homes (l2 : L2Entry) (l3 : L3Entry) : State :=
  { powered [] with coh := { State.reset.coh with l1 := [aCopy .bf16], l2 := [l2], l3 := [l3] } }
def sharedL2 : L2Entry := { L2Entry.new 0 0x300 with srm := 8, recs := [(3, .bf16, false)] }
def plainL3 : L3Entry := L3Entry.new 0x300
def oneCopy : State := { powered [] with coh := { State.reset.coh with l1 := [aCopy .bf16] } }
/-- A region that may have replicas in a quadrant other than the line's home. -/
def aRegion (deg wr : Nat) (rq : List Nat) : Region := { Region.reset with deg := deg, qset := 15, rq := rq, wr := wr }
def regional (r : Region) (reps : List Replica) (cs : List Collapse) (l3 : List L3Entry) (cycle : Nat) : State :=
  { powered [] with cycle := cycle, coh := { State.reset.coh with regions := [(0, r)], replicas := reps, collapses := cs, l3 := l3 } }
def aReplica (q : Nat) : Replica := { quad := q, line := 0x300, key := 0, cls := .t, data := 0 }
def aCollapse (q : Nat) : Collapse := { quad := q, line := 0x300, cv := 1, charged := [], held := [] }
/-- A fill on its way to quadrant 1, with REPL_CTL.WAYS. -/
def fillComing (ways : Nat) : State :=
  let s := registered 0x403 (2 ^ 63 + ways) (powered [])
  { s with coh := { s.coh with replicas := [aReplica 2], filling := [aReplica 1] } }
theorem witness_CoherenceSteps :
    ((homes sharedL2 plainL3).l2? 0 0x300 = some sharedL2 ∧ (homes sharedL2 plainL3).l3? 0x300 = some plainL3 ∧
      (homes sharedL2 plainL3).l2? 1 0x300 = none ∧ (homes sharedL2 plainL3).l3? 5 = none) ∧
    ((aCopy .bf16).core / 8 = 3 ∧ (aCopy .bf16).tag.serves .full = false ∧ (aCopy .bf16).tag.serves .bf16 = true ∧ oneCopy.coh.l1 = [aCopy .bf16] ∧
      oneCopy.coh = { State.reset.coh with l1 := [aCopy .bf16] } ∧ (aCopy .bf16).hint ≠ 3 ∧ oneCopy.stash.lines = [] ∧ oneCopy.mem.chip = []) ∧
    (((homes sharedL2 { plainL3 with hw := true }).l3 0x300).hw = true ∧ ((homes sharedL2 { plainL3 with own := some 2 }).l3 0x300).own = some 2 ∧
      ((homes sharedL2 plainL3).l3 0x300).hw = false ∧ ((homes sharedL2 plainL3).l3 0x300).own = none ∧
      ((homes sharedL2 plainL3).l3 0x300).drec.length = 4 ∧ (homes sharedL2 plainL3).coh.l2.length < 16 ∧
      (homes sharedL2 plainL3).coh.l3.length + (homes sharedL2 plainL3).coh.replicas.length < 16 ∧ (homes sharedL2 plainL3).locked = true) ∧
    (sharedL2.tiles.find? (fun r => r.1 == 3 % 64) = some (3, .bf16, false) ∧ (0#5 &&& View.bf16.mask) = 0 ∧
      (BitVec.allOnes 5 &&& View.bf16.mask) ≠ 0) ∧
    ((∀ ways ∈ [0, 2], let s := fillComing ways; s.coh.filling = [aReplica 1] ∧ (aReplica 1).quad = 1 ∧ s.coh.replicas = [aReplica 2] ∧
        Nat.min 12 (bitsOf (s.reg 0x403) 0 4) = ways) ∧ (powered []).coh.filling = [] ∧
      (List.filter (fun r : Replica => r.quad == 1 && sliceOf r.line == sliceOf 0x300) [aReplica 2]).length < 2 ∧
      ((fillComing 2).inSlice 1 (sliceOf 0x300)).length < 16 ∧
      (∀ q < 4, aReplica q ∈ (regional (aRegion 1 0 []) [aReplica q] [] [] 0).coh.replicas ∧ (aReplica q).quad = q ∧
        ({ plainL3 with cpq := 15, rep := 15 } : L3Entry).rep.getLsbD q = true ∧
        ((regional (aRegion 1 0 []) [] [] [{ plainL3 with cpq := 15, rep := 15 }] 0).l3 0x300).cpq.getLsbD q = true ∧
        (regional (aRegion 1 0 []) [] [aCollapse q] [] 0).coh.collapses.find? (fun c => c.quad == q && c.line == 0x300) = some (aCollapse q) ∧
        (aCollapse q).cv.getLsbD 0 = true)) ∧
    ((∀ r ∈ [aRegion 0 0 [200, 200, 200, 200], aRegion 2 250 [9, 9, 9, 9], aRegion 1 0 [255, 255, 255, 255]],
        let s := regional r [aReplica 3] [] [] (2 ^ 20); s.region (s.cycle % 2 ^ 20) = r ∧ r.rq.length = 4 ∧ r.qset.getLsbD (aReplica 3).quad = true ∧
          s.backed (2 ^ 21 * (s.cycle % 2 ^ 20)) = true ∧ s.isSystem (2 ^ 21 * (s.cycle % 2 ^ 20)) = false ∧ regionOf (aReplica 3).line = s.cycle % 2 ^ 20 ∧
          Sparse.get? s.periodic 0 ≠ some s.cycle) ∧
      (let s := regional Region.reset [] [] [] (2 ^ 19); s.backed (2 ^ 21 * (s.cycle % 2 ^ 20)) = false) ∧
      (let s : State := { powered [] with cycle := 5, periodic := [(0, 5)] }; Sparse.get? s.periodic 0 = some s.cycle)) ∧
    (let s : State := { powered [] with cycle := 2 ^ 20 }; s.cycle % 2 ^ 20 = 0 ∧ Sparse.get? s.periodic 1 ≠ some s.cycle ∧ ({ s with cycle := 5 } : State).cycle % 2 ^ 20 ≠ 0) ∧
    ((powered []).backed (2 ^ 21 * bitsOf ((powered []).reg 0x404) 21 31) = true ∧
      (powered []).isSystem (2 ^ 21 * bitsOf ((powered []).reg 0x404) 21 31) = false ∧
      (registered 0x404 (2 ^ 40) (powered [])).backed (2 ^ 21 * bitsOf ((registered 0x404 (2 ^ 40) (powered [])).reg 0x404) 21 31) = false ∧
      bitsOf (BitVec.ofNat 64 (4 * 1 + 16 * 2)).toNat 2 2 ≤ bitsOf (BitVec.ofNat 64 (4 * 1 + 16 * 2)).toNat 4 2 ∧
      bitsOf (BitVec.ofNat 64 (4 * 2)).toNat 4 2 < bitsOf (BitVec.ofNat 64 (4 * 2)).toNat 2 2) ∧
    (let s : State := { powered [] with coh := { State.reset.coh with hot := [(6, ⟨1, 5, 4, 3, [1, 2, 1, 1]⟩)], l2 := [sharedL2], l3 := [plainL3] } };
      (Sparse.get? s.coh.hot 6).isSome = true ∧ Sparse.get? s.coh.hot 7 = none ∧ bitsOf (BitVec.ofNat 64 6).toNat 0 20 = 6 ∧
        (s.l3? (bitsOf (BitVec.ofNat 64 (2 ^ 63 + 0x300 * 128)).toNat 7 45)).isSome = true ∧
        (s.l2? (bitsOf (BitVec.ofNat 64 (0x300 * 128)).toNat 56 2) (bitsOf (BitVec.ofNat 64 (0x300 * 128)).toNat 7 45)).isSome = true) :=
  by refine ⟨?_, ?_, ?_, ?_, ?_, ?_, ?_, ?_, ?_⟩ <;> decide +kernel

/-- Tile 0 running, halted, or to trigger its group. -/
def debugged (halted triggers : List Nat) (t : Thread) : State :=
  let s := registered 0x500 (2 ^ 8 * 3) (registered 0x501 (2 ^ 8 * 3) (powered []))
  { s with threads := [(8, t)], dbg := { s.dbg with halted := halted, triggers := triggers } }
/-- The Bell on, its next tick due, OFF as given; and the Itinerary on, its offset as given. -/
def belling (off : Nat) : State := registered 0x602 off (registered 0x600 (2 ^ 63) (powered []))
def touring (off : Nat) : State :=
  let s := registered 0x640 (2 ^ 63) (powered [])
  { s with dbg := { s.dbg with itinOff := off } }
theorem witness_DebugAndRegisters :
    ((0 ∉ (debugged [] [] t0).dbg.halted ∧ 0 ∈ (debugged [0] [] t0).dbg.halted ∧ (debugged [0] [] t0).dbg.window = [] ∧
        Sparse.sorted (debugged [0] [] t0).threads = true ∧ (debugged [0] [] t0).dbg.stepping = []) ∧
      (∀ x ∈ (debugged [0] [] t0).tileThreads 0, x.2.park ≠ .bkpt) ∧
      (debugged [0] [] { t0 with park := .bkpt }).thread? 8 = some { t0 with park := .bkpt } ∧
      0 ∉ (debugged [] [] t0).dbg.triggers ∧ 0 ∈ (debugged [] [0] t0).dbg.triggers ∧ bitsOf ((debugged [] [0] t0).reg 0x500) 8 4 = 3 ∧
      bitsOf ((debugged [] [0] t0).reg 0x501) 8 4 = 3) ∧
    (bitOf ((powered []).reg 0x600) 63 = false ∧ (∀ off ∈ [0, 2 ^ 18], bitOf ((belling off).reg 0x600) 63 = true ∧
      (belling off).dbg.bellNext ≤ (belling off).cycle ∧ bitsOf ((belling off).reg 0x602) 0 32 = off)) ∧
    ((powered []).rangeBacked 0 (2 ^ 16) = true ∧ (powered []).rangeBacked (2 ^ 40) (2 ^ 16) = false ∧ (powered []).dumpStores = []) ∧
    (bitOf ((powered []).reg 0x640) 63 = false ∧ (∀ off ∈ [0, 2 ^ 16 - 32], bitOf ((touring off).reg 0x640) 63 = true ∧
      bitOf ((touring off).reg 0x640) 62 = false ∧ (touring off).dbg.itinStopped = false ∧ (touring off).dbg.itinOff = off ∧
      (4096 * bitsOf ((touring off).reg 0x641) 12 40 + (touring off).dbg.itinOff) % 32 = 0 ∧ (touring off).coh = State.reset.coh ∧
      (touring off).locked = true ∧ (touring off).stores = [] ∧ (touring off).stash.lines = [] ∧ (touring off).backed 0 = true ∧ (touring off).isSystem 0 = false ∧ (touring off).mem.chip = [])) ∧
    (bar0Assigned 0x300 = false ∧ 0x01000000 ≤ 0x01000008 ∧ 0x01000008 % 8 = 0 ∧ regSpec 0x7FF = none ∧ (regSpec 0x031).isSome = true) :=
  by refine ⟨?_, ?_, ?_, ?_, ?_⟩ <;> decide +kernel

-- Single steps on the spec's own worked examples, and decisions of its rules.

/-- What a thread of slot 8 is after an instruction, and what it then holds. -/
def after (i : Instr) (t : Thread) : Option Thread :=
  match exec i (atWork t) with
  | .next u => u.thread? 8
  | _ => none
def gAfter (i : Instr) (t : Thread) (r : GReg) : Option Nat := (after i t).map fun x => (x.getG r).toNat
def mAfter (i : Instr) (t : Thread) (r : MReg) : Option Nat := (after i t).map fun x => (x.getM r).toNat
def wAfter (i : Instr) (t : Thread) (r : WReg) (w n : Nat) : Option (List Nat) := (after i t).map fun x => (List.range n).map (elem w (x.getW r))
/-- The values known at issue that a variable-latency instruction leaves to be delivered. -/
def readyAfter (i : Instr) (t : Thread) : Option (List Nat) :=
  (after i t).map fun x => x.outs.filterMap fun o => match o.kind with
    | .ready v => some v.toNat
    | _ => none
def tG2 (a b : Nat) : Thread := worker fun t => (t.setG 2 (BitVec.ofNat 64 a)).setG 3 (BitVec.ofNat 64 b)
def elemsLine (w : Nat) (xs : List Nat) : Line := BitVec.ofNat 1024 (xs.foldr (fun x a => x + 2 ^ w * a) 0)
def tW (w : Nat) (xs ys : List Nat) : Thread := worker fun t => ((t.setW 2 (elemsLine w xs)).setW 3 (elemsLine w ys)).setM 1 1

-- 14, R313 to R319.
theorem test_step_add_wraps : gAfter (.add hd .s8 false 1 2 (.reg 3)) (tG2 0x7F 1) 1 = some 0xFFFFFFFFFFFFFF80 := by decide +kernel
theorem test_step_add_saturates : gAfter (.add hd .s8 true 1 2 (.reg 3)) (tG2 0x7F 1) 1 = some 0x7F := by decide +kernel
theorem test_step_div : readyAfter (.div hd .s32 1 2 (.reg 3)) (tG2 0xFFFFFFF9 2) = some [0xFFFFFFFFFFFFFFFD] ∧
    readyAfter (.rem hd .s32 1 2 (.reg 3)) (tG2 0xFFFFFFF9 2) = some [0xFFFFFFFFFFFFFFFF] := by decide +kernel
theorem test_step_div_corners : readyAfter (.div hd .n8 1 2 (.reg 3)) (tG2 200 0) = some [255] ∧
    readyAfter (.rem hd .n8 1 2 (.reg 3)) (tG2 200 0) = some [200] ∧
    readyAfter (.div hd .s64 1 2 (.reg 3)) (tG2 (2 ^ 63) (2 ^ 64 - 1)) = some [2 ^ 63] ∧
    readyAfter (.rem hd .s64 1 2 (.reg 3)) (tG2 (2 ^ 63) (2 ^ 64 - 1)) = some [0] := by decide +kernel
theorem test_step_bext : gAfter (.bext hd .s64 1 2 (.imm 0x0804)) (tG2 0xF80 0) 1 = some 0xFFFFFFFFFFFFFFF8 := by decide +kernel
theorem test_step_mfirst : mAfter (.mfirst hd .n8 3 (.imm 13)) t0 3 = some 0x7F := by decide +kernel

-- 15, R346 to R360: conversion by SR (11, R268), the limits of exp2, the scale's rounding, the running merge, compaction.
theorem test_step_vfcvt_sr :
    wAfter (.vfcvt hdLanes .f32 .bf16 0 .sr false 1 2) { tW 32 [0x3F808000] [] with sr := 1 } 1 16 1 = some [0x3F81] ∧
    (after (.vfcvt hdLanes .f32 .bf16 0 .sr false 1 2) { tW 32 [0x3F808000] [] with sr := 1 }).map (fun x => x.sr.toNat) = some 0x0001B6DB ∧
    wAfter (.vfcvt hdLanes .f32 .bf16 0 .rne false 1 2) (tW 32 [0x3F808000] []) 1 16 1 = some [0x3F80] := by decide +kernel
theorem test_step_vfexp2 : wAfter (.vfexp2 hdLanes .f16 .rne false 1 2) (tW 16 [0x4C00] []) 1 16 1 = some [0x7C00] ∧
    wAfter (.vfexp2 hdLanes .f16 .rne true 1 2) (tW 16 [0x4C00] []) 1 16 1 = some [0x7BFF] := by decide +kernel
theorem test_step_vfscale :
    wAfter (.vfscale hdLanes false .f32 .rne false 1 2 3) (tW 32 [0x3FC00000] [2 ^ 32 - 149]) 1 32 1 = some [2] ∧
    wAfter (.vfscale hdLanes false .f32 .rtz false 1 2 3) (tW 32 [0x3FC00000] [2 ^ 32 - 149]) 1 32 1 = some [1] := by decide +kernel
theorem test_step_vfmerge :
    wAfter (.vfmerge hd .f32 1 2 3) (tW 32 [0x40400000, 0x3FC00000, 0xFF800000, 0] [0x3F800000, 0x40000000, 0x40000000, 0x3F800000]) 1 32 4 =
      some [0x40400000, 0x40000000, 0x40000000, 0x3F800000] := by decide +kernel
theorem test_step_vcomp :
    wAfter (.vcomp ⟨0, 3, 0, false⟩ .f32 1 2) (worker fun t => (t.setW 2 (elemsLine 32 ((List.range 32).map fun i => 0x41200000 + i))).setM 3 0x80000005)
      1 32 5 = some [0x41200000, 0x41200002, 0x4120001F, 0, 0] := by decide +kernel
theorem test_step_vfred_tree :
    (after (.vfred hd .sum .f32 .rne 1 2 none) (tW 32 [0x4B800000, 0x3F800000, 0x3F800000, 0xCB800000] [])).map (fun x => elem 32 (x.getW 1) 0) =
      some 0x3F800000 := by decide +kernel

-- 13, 14, 15, 16, 17, 18: the words of the worked examples.
theorem test_decode_examples :
    decode (leBytes 8 0x0000020880000001 ++ leBytes 4 0x3E8) = .ok (.add hd .s64 false 2 2 (.imm32 0x3E8), []) ∧
    decode (leBytes 8 (0x3A * 8 + 0x0C04 * 2 ^ 21 + 21 * 2 ^ 34 + 22 * 2 ^ 40 + 13 * 2 ^ 58)) = .ok (.vfcvt hd .f32 .bf16 0 .sr false 5 6, []) ∧
    decode (leBytes 8 0x0001C42090C00368) = .ok (.atomSwap hd .s64 ⟨.dev, .relaxed, true⟩ 8 ⟨4, none⟩ 7, []) ∧
    decode (leBytes 8 0x0000000010800390) = .ok (.fence hd true .dev, []) ∧
    decode (leBytes 8 0x086149000C4003C0) = .ok (.task hd true .addr 2 5 6 2 (.reg 9), []) ∧
    decode ([0xF2, 0x03, 0x00, 0xA0, 0x21, 0x81, 0x30, 0x10, 0x8C, 0x11, 0x40, 0x02, 0xA0, 0x00, 0x00, 0x00]) =
      .ok (.mma hd .f32 0x0240118C 0xA0 8 1 2 3 4, []) := ⟨rfl, rfl, rfl, rfl, rfl, rfl⟩

-- 01, 02, 05, 06, 09: places, windows, buckets, filter bits, homes.
theorem test_places : (tileX 0x6B, tileY 0x6B) = (11, 5) ∧ coreOf (862 * 8) = 862 ∧ bucketOf 0x1234 = 0x235 ∧
    (List.range 4).map (fun b => sigIndex b 0x40000) = [1, 128, 32, 8] ∧ (List.range 4).map (fun b => sigIndex b 0x7FFFF) = [1, 128, 32, 8] ∧
    sliceOf 0x2468B = 53 ∧ (powered []).homeQuad 0x2468B = 2 := by decide +kernel
theorem test_windows :
    let s := registered 0x008 (2 ^ 63 + 48) (powered [])
    s.backed 0x5FFFFFFFFF = true ∧ s.backed 0x6000000000 = false ∧ s.backed 0x12000000000 = true ∧ s.backed 0x127FFFFFFFF = true ∧
      s.backed 0x12800000000 = false := by decide +kernel
/-- A page-table walk reads the root entry where the example says, and a leaf of level 1 gives the example's address (07, R201). -/
theorem test_leaf : leafPa (0x42C00 * 2 ^ 28) 1 0x123456789ABCDE = 0x42C9ABCDE := by decide +kernel
-- 11, R261 to R275.
theorem test_formats : (nfFields 0x00100192).width = 4 ∧ (nfFields 0x000207B4).width = 8 ∧
    lfsrSteps 16 1 = 0x0001B6DB ∧ expandWeight true 13 8 0x3DCD = Fmt.bf16.value 0x3F00 ∧ expandWeight true 13 8 0x3E00 = Fmt.bf16.value 0x3F20 := by
  decide +kernel
-- 04, R86: eight tasks over five tiles.
theorem test_grid :
    (gridShares { aGrid with dims := [4, 2, 1] } [0, 1, 2, 8, 9]).map (fun g => (g.tile, g.next, g.stop)) =
      [(0, 0, 1), (1, 1, 3), (2, 3, 4), (8, 4, 6), (9, 6, 8)] ∧
    (gridIdent [100, 3, 1] [32, 2, 1] [4, 2, 1] 3).ext = v3Of [4, 2, 1] ∧ (gridIdent [100, 3, 1] [32, 2, 1] [4, 2, 1] 4).org = v3Of [0, 2, 0] ∧
      (gridIdent [100, 3, 1] [32, 2, 1] [4, 2, 1] 4).ext = v3Of [32, 1, 1] := by decide +kernel
-- 09, R234: the region of the example, the first of quadrant 2's window, goes from degree 1 to 2 and halves its counts.
theorem test_step_region :
    (match exec .regionEvaluation (let s := registered 0x008 (2 ^ 63 + 48) (powered []);
        { s with cycle := 0xA0000, coh := { s.coh with regions := [(0xA0000, { deg := 1, qset := 8, floor := 0, ceil := 3, rq := [10, 90, 0, 200], wr := 4 })] } }) with
     | .next u => some ((u.region 0xA0000).deg, (u.region 0xA0000).qset, (u.region 0xA0000).rq, (u.region 0xA0000).wr)
     | _ => none) = some (2, 0b1010, [5, 45, 0, 100], 2) := by decide +kernel
-- 05, R95: the tiebreaker of a task without a floor, and one whose parent has its timestamp.
def flooredTask : Task := { specNew with ts := 900, floor := ⟨900, 0x3917⟩ }
theorem test_step_tiebreaker :
    (match exec (.taskDispatch 0x23) { powered [] with lodges := [(0x23, { Lodge.reset with queue := [flooredTask], ctr := [(0, 41)] })] } with
     | .next u => u.threads.head?.bind (fun e => e.2.task.map fun k => k.tb.toNat)
     | _ => none) = some 0x3A23 := by decide +kernel
-- 16, R378: a line of FP32 subscribed as E4M3.
def ldsCells : List Host.Cell :=
  [⟨130, 0x80⟩, ⟨131, 0x3F⟩, ⟨132, 1⟩, ⟨134, 0x80⟩, ⟨135, 0x3F⟩, ⟨138, 0xFA⟩, ⟨139, 0x43⟩, ⟨143, 0x80⟩, ⟨146, 0xC0⟩, ⟨147, 0x7F⟩]
def ldsState : State :=
  { atWork (tResult (aResult (16 + 17) (.loadSub .f32 .e4m3 true (BitVec.allOnes 64) true) [ownPart 128 128])) with
    stash := { State.reset.stash with cells := ldsCells } }
theorem test_step_lds :
    (match exec (.variableLatencyResult 8 33) ldsState with
     | .next u => (u.thread? 8).map fun t => (List.range 7).map fun i => elem 8 (t.getW 17) i
     | _ => none) = some [0x38, 0x38, 0x7E, 0x80, 0x7F, 0, 0] := by decide +kernel

end Sys2Proof.Tests
end

