-- ==== Sys2Proof/Proofs/DecodeExact.lean ====
section
/-! What decode accepts is the encoding of what it answers (R6, R289, R297): the codes, shapes and last sources read backwards,
then each table of the decoder. -/
namespace Sys2Proof.Proofs
open Sys2Proof Sys2Proof.Laws

-- The bits of a word, put together again from its fields.

theorem ofBool_getLsbD {n : Nat} (x : BitVec n) (i : Nat) : BitVec.ofBool (x.getLsbD i) = x.extractLsb' i 1 := by
  apply BitVec.eq_of_getLsbD_eq
  intro j hj
  obtain rfl : j = 0 := by omega
  simp

theorem word_ofWord (w ext : BitVec 64) : (Raw.ofWord w ext).word = w := by
  simp only [Raw.word, Raw.ofWord, ofBool_getLsbD]
  repeat rw [BitVec.extractLsb'_append_extractLsb'_eq_extractLsb' (by omega)]
  exact BitVec.extractLsb'_eq_self

theorem exists_shapeA (fn : BitVec 13) :
    ∃ (t : BitVec 5) (u : BitVec 4) (s : Bool) (m : BitVec 3), fn = t ++ u ++ BitVec.ofBool s ++ m := by
  refine ⟨fn.extractLsb' 8 5, fn.extractLsb' 4 4, fn.getLsbD 3, fn.extractLsb' 0 3, ?_⟩
  rw [ofBool_getLsbD]
  repeat rw [BitVec.extractLsb'_append_extractLsb'_eq_extractLsb' (by omega)]
  exact BitVec.extractLsb'_eq_self.symm

theorem exists_shapeX (fn : BitVec 13) : ∃ (t : BitVec 5) (u v : BitVec 4), fn = t ++ u ++ v := by
  refine ⟨fn.extractLsb' 8 5, fn.extractLsb' 4 4, fn.extractLsb' 0 4, ?_⟩
  repeat rw [BitVec.extractLsb'_append_extractLsb'_eq_extractLsb' (by omega)]
  exact BitVec.extractLsb'_eq_self.symm

theorem exists_shapeM (fn : BitVec 13) : ∃ (t : BitVec 5) (sc : BitVec 3) (o : BitVec 2) (z : Bool) (u : BitVec 2),
    fn = t ++ sc ++ o ++ BitVec.ofBool z ++ u := by
  refine ⟨fn.extractLsb' 8 5, fn.extractLsb' 5 3, fn.extractLsb' 3 2, fn.getLsbD 2, fn.extractLsb' 0 2, ?_⟩
  rw [ofBool_getLsbD]
  repeat rw [BitVec.extractLsb'_append_extractLsb'_eq_extractLsb' (by omega)]
  exact BitVec.extractLsb'_eq_self.symm

theorem exists_shapeL (fn : BitVec 13) : ∃ (t : BitVec 5) (sc : BitVec 3) (q s : Bool) (v : BitVec 3),
    fn = t ++ sc ++ BitVec.ofBool q ++ BitVec.ofBool s ++ v := by
  refine ⟨fn.extractLsb' 8 5, fn.extractLsb' 5 3, fn.getLsbD 4, fn.getLsbD 3, fn.extractLsb' 0 3, ?_⟩
  rw [ofBool_getLsbD, ofBool_getLsbD]
  repeat rw [BitVec.extractLsb'_append_extractLsb'_eq_extractLsb' (by omega)]
  exact BitVec.extractLsb'_eq_self.symm

section
variable (e c b a d : BitVec 6) (t : BitVec 5) (u v : BitVec 4) (s z : Bool) (m sc : BitVec 3) (o n : BitVec 2) (ch : BitVec 3)
  (mg pg : BitVec 4) (op : BitVec 7) (sw : Bool) (len : BitVec 2) (ext : BitVec 64)

-- Shape A.
@[simp] theorem shapeA_ty : Raw.ty ⟨e, c, b, a, d, t ++ u ++ BitVec.ofBool s ++ m, ch, mg, pg, op, sw, len, ext⟩ = t :=
  (sliceHi 10 3 8 5 _ _ (by decide)).trans <| (sliceHi 9 1 5 5 _ _ (by decide)).trans <|
    (sliceHi 5 4 4 5 _ _ (by decide)).trans (sliceAll 5 _)
@[simp] theorem shapeA_sub : Raw.sub ⟨e, c, b, a, d, t ++ u ++ BitVec.ofBool s ++ m, ch, mg, pg, op, sw, len, ext⟩ = u :=
  (sliceHi 10 3 4 4 _ _ (by decide)).trans <| (sliceHi 9 1 1 4 _ _ (by decide)).trans <|
    (sliceLo 5 4 0 4 _ _ (by decide)).trans (sliceAll 4 _)
@[simp] theorem shapeA_sat : Raw.sat ⟨e, c, b, a, d, t ++ u ++ BitVec.ofBool s ++ m, ch, mg, pg, op, sw, len, ext⟩ = s :=
  (bitHi 10 3 3 _ _ (by decide)).trans <| (bitLo 9 1 0 _ _ (by decide)).trans (bitOne s)
@[simp] theorem shapeA_rm : Raw.rm ⟨e, c, b, a, d, t ++ u ++ BitVec.ofBool s ++ m, ch, mg, pg, op, sw, len, ext⟩ = m :=
  (sliceLo 10 3 0 3 _ _ (by decide)).trans (sliceAll 3 _)

-- Shape X.
@[simp] theorem shapeX_ty : Raw.ty ⟨e, c, b, a, d, t ++ u ++ v, ch, mg, pg, op, sw, len, ext⟩ = t :=
  (sliceHi 9 4 8 5 _ _ (by decide)).trans <| (sliceHi 5 4 4 5 _ _ (by decide)).trans (sliceAll 5 _)
@[simp] theorem shapeX_sub : Raw.sub ⟨e, c, b, a, d, t ++ u ++ v, ch, mg, pg, op, sw, len, ext⟩ = u :=
  (sliceHi 9 4 4 4 _ _ (by decide)).trans <| (sliceLo 5 4 0 4 _ _ (by decide)).trans (sliceAll 4 _)
@[simp] theorem shapeX_modx : Raw.modx ⟨e, c, b, a, d, t ++ u ++ v, ch, mg, pg, op, sw, len, ext⟩ = v :=
  (sliceLo 9 4 0 4 _ _ (by decide)).trans (sliceAll 4 _)

-- Shape M.
@[simp] theorem shapeM_ty : Raw.ty ⟨e, c, b, a, d, t ++ sc ++ o ++ BitVec.ofBool z ++ n, ch, mg, pg, op, sw, len, ext⟩ = t :=
  (sliceHi 11 2 8 5 _ _ (by decide)).trans <| (sliceHi 10 1 6 5 _ _ (by decide)).trans <|
    (sliceHi 8 2 5 5 _ _ (by decide)).trans <| (sliceHi 5 3 3 5 _ _ (by decide)).trans (sliceAll 5 _)
@[simp] theorem shapeM_scope : Raw.scope ⟨e, c, b, a, d, t ++ sc ++ o ++ BitVec.ofBool z ++ n, ch, mg, pg, op, sw, len, ext⟩ = sc :=
  (sliceHi 11 2 5 3 _ _ (by decide)).trans <| (sliceHi 10 1 3 3 _ _ (by decide)).trans <|
    (sliceHi 8 2 2 3 _ _ (by decide)).trans <| (sliceLo 5 3 0 3 _ _ (by decide)).trans (sliceAll 3 _)
@[simp] theorem shapeM_ord : Raw.ord ⟨e, c, b, a, d, t ++ sc ++ o ++ BitVec.ofBool z ++ n, ch, mg, pg, op, sw, len, ext⟩ = o :=
  (sliceHi 11 2 3 2 _ _ (by decide)).trans <| (sliceHi 10 1 1 2 _ _ (by decide)).trans <|
    (sliceLo 8 2 0 2 _ _ (by decide)).trans (sliceAll 2 _)
@[simp] theorem shapeM_sc : Raw.sc ⟨e, c, b, a, d, t ++ sc ++ o ++ BitVec.ofBool z ++ n, ch, mg, pg, op, sw, len, ext⟩ = z :=
  (bitHi 11 2 2 _ _ (by decide)).trans <| (bitLo 10 1 0 _ _ (by decide)).trans (bitOne z)
@[simp] theorem shapeM_msub : Raw.msub ⟨e, c, b, a, d, t ++ sc ++ o ++ BitVec.ofBool z ++ n, ch, mg, pg, op, sw, len, ext⟩ = n :=
  (sliceLo 11 2 0 2 _ _ (by decide)).trans (sliceAll 2 _)

-- Shape L.
@[simp] theorem shapeL_ty : Raw.ty ⟨e, c, b, a, d, t ++ sc ++ BitVec.ofBool z ++ BitVec.ofBool s ++ m, ch, mg, pg, op, sw, len, ext⟩ = t :=
  (sliceHi 10 3 8 5 _ _ (by decide)).trans <| (sliceHi 9 1 5 5 _ _ (by decide)).trans <|
    (sliceHi 8 1 4 5 _ _ (by decide)).trans <| (sliceHi 5 3 3 5 _ _ (by decide)).trans (sliceAll 5 _)
@[simp] theorem shapeL_scope :
    Raw.scope ⟨e, c, b, a, d, t ++ sc ++ BitVec.ofBool z ++ BitVec.ofBool s ++ m, ch, mg, pg, op, sw, len, ext⟩ = sc :=
  (sliceHi 10 3 5 3 _ _ (by decide)).trans <| (sliceHi 9 1 2 3 _ _ (by decide)).trans <|
    (sliceHi 8 1 1 3 _ _ (by decide)).trans <| (sliceLo 5 3 0 3 _ _ (by decide)).trans (sliceAll 3 _)
@[simp] theorem shapeL_acq : Raw.acq ⟨e, c, b, a, d, t ++ sc ++ BitVec.ofBool z ++ BitVec.ofBool s ++ m, ch, mg, pg, op, sw, len, ext⟩ = z :=
  (bitHi 10 3 4 _ _ (by decide)).trans <| (bitHi 9 1 1 _ _ (by decide)).trans <|
    (bitLo 8 1 0 _ _ (by decide)).trans (bitOne z)
@[simp] theorem shapeL_sat : Raw.sat ⟨e, c, b, a, d, t ++ sc ++ BitVec.ofBool z ++ BitVec.ofBool s ++ m, ch, mg, pg, op, sw, len, ext⟩ = s :=
  (bitHi 10 3 3 _ _ (by decide)).trans <| (bitLo 9 1 0 _ _ (by decide)).trans (bitOne s)
@[simp] theorem shapeL_view : Raw.rm ⟨e, c, b, a, d, t ++ sc ++ BitVec.ofBool z ++ BitVec.ofBool s ++ m, ch, mg, pg, op, sw, len, ext⟩ = m :=
  (sliceLo 10 3 0 3 _ _ (by decide)).trans (sliceAll 3 _)
end

-- Codes, read backwards.

/-- A check of every code that a field can hold shows that a reader of codes answers only what has the code read. -/
theorem code_ok_iff {n : Nat} {α : Type} {f : BitVec n → Except Reject α} {code : α → BitVec n} (hf : ∀ x, f (code x) = .ok x)
    (h : ∀ c, (match f c with | .ok x => code x == c | .error _ => true) = true) (c : BitVec n) (x : α) :
    f c = .ok x ↔ c = code x := by
  refine ⟨fun hx => ?_, fun hx => hx ▸ hf x⟩
  have hc := h c
  rw [hx] at hc
  exact (eq_of_beq hc).symm

@[simp] theorem gOf_ok (c : BitVec 6) (x : GReg) : gOf c = .ok x ↔ c = GReg.code x := code_ok_iff gOf_code (by decide) c x
@[simp] theorem wOf_ok (c : BitVec 6) (x : WReg) : wOf c = .ok x ↔ c = WReg.code x := code_ok_iff wOf_code (by decide) c x
@[simp] theorem mOf_ok (c : BitVec 6) (x : MReg) : mOf c = .ok x ↔ c = MReg.code x := code_ok_iff mOf_code (by decide) c x
@[simp] theorem pOf_ok (c : BitVec 6) (x : PReg) : pOf c = .ok x ↔ c = PReg.code x := code_ok_iff pOf_code (by decide) c x
@[simp] theorem gwOf_ok (c : BitVec 6) (x : GW) : gwOf c = .ok x ↔ c = GW.code x := code_ok_iff gwOf_code (by decide) c x
@[simp] theorem tyOf_ok (c : BitVec 5) (x : Ty) : Ty.ofCode c = .ok x ↔ c = Ty.code x := code_ok_iff tyOf_code (by decide) c x
@[simp] theorem scopeOf_ok (c : BitVec 3) (x : Scope) : Scope.ofCode c = .ok x ↔ c = Scope.code x := code_ok_iff scopeOf_code (by decide) c x
@[simp] theorem rmOf_ok (c : BitVec 3) (x : Rm) : Rm.ofCode c = .ok x ↔ c = Rm.code x := code_ok_iff rmOf_code (by decide) c x
@[simp] theorem viewOf_ok (c : BitVec 3) (x : View) : View.ofCode c = .ok x ↔ c = View.code x := code_ok_iff viewOf_code (by decide) c x
@[simp] theorem cmpOf_ok (c : BitVec 4) (x : Cmp) : Cmp.ofCode c = .ok x ↔ c = Cmp.code x := code_ok_iff cmpOf_code (by decide) c x
@[simp] theorem fcmpOf_ok (c : BitVec 4) (x : FCmp) : FCmp.ofCode c = .ok x ↔ c = FCmp.code x := code_ok_iff fcmpOf_code (by decide) c x
@[simp] theorem logOf_ok (c : BitVec 4) (x : LogOp) : LogOp.ofCode c = .ok x ↔ c = LogOp.code x := code_ok_iff logOf_code (by decide) c x
@[simp] theorem bitOf_ok (c : BitVec 4) (x : BitOp) : BitOp.ofCode c = .ok x ↔ c = BitOp.code x := code_ok_iff bitOf_code (by decide) c x
@[simp] theorem cntOf_ok (c : BitVec 4) (x : CntOp) : CntOp.ofCode c = .ok x ↔ c = CntOp.code x := code_ok_iff cntOf_code (by decide) c x
@[simp] theorem sgnOf_ok (c : BitVec 4) (x : SgnOp) : SgnOp.ofCode c = .ok x ↔ c = SgnOp.code x := code_ok_iff sgnOf_code (by decide) c x
@[simp] theorem fredOf_ok (c : BitVec 4) (x : FRedOp) : FRedOp.ofCode c = .ok x ↔ c = FRedOp.code x := code_ok_iff fredOf_code (by decide) c x
@[simp] theorem redOf_ok (c : BitVec 4) (x : RedOp) : RedOp.ofCode c = .ok x ↔ c = RedOp.code x := code_ok_iff redOf_code (by decide) c x
@[simp] theorem shOf_ok (c : BitVec 4) (x : ShOp) : ShOp.ofCode c = .ok x ↔ c = ShOp.code x := code_ok_iff shOf_code (by decide) c x
@[simp] theorem slideOf_ok (c : BitVec 4) (x : SlideOp) : SlideOp.ofCode c = .ok x ↔ c = SlideOp.code x := code_ok_iff slideOf_code (by decide) c x
@[simp] theorem rowOf_ok (c : BitVec 3) (x : RowOp) : RowOp.ofCode c = .ok x ↔ c = RowOp.code x := code_ok_iff rowOf_code (by decide) c x
theorem code_ordOf (c : BitVec 2) : (Ord.ofCode c).code = c := by revert c; decide
theorem code_blkOf (c : BitVec 2) : (Blk.ofCode c).code = c := by revert c; decide
theorem code_hmodeOf (c : BitVec 2) : (HMode.ofCode c).code = c := by revert c; decide
theorem code_atomOf (hi : Bool) (c : BitVec 2) : (AtomOp.ofCode hi c).code = (hi, c) := by revert hi c; decide

-- Decoders that answer only instructions with the fields they read.

/-- Whatever the decoder x answers, encodeRaw writes the fields r for it. -/
def Exact (r : Raw) (x : Except Reject Instr) : Prop := ∀ i, x = .ok i → encodeRaw i = some r

/-- The extension as decode reads it: LEN is not 0b11, and a form has zero where it has no bytes. -/
def Canon (r : Raw) : Prop := r.len ≠ 3 ∧ (r.len = 0 → r.ext = 0) ∧ (r.len = 1 → r.ext = r.imma.setWidth 64)

section
variable {r : Raw}

@[simp] theorem exact_error (e : Reject) : Exact r (.error e) ↔ True := by simp [Exact]
@[simp] theorem exact_pure (i : Instr) : Exact r (pure i) ↔ encodeRaw i = some r := by simp [Exact, pure, Except.pure]
@[simp] theorem exact_bind {α : Type} (x : Except Reject α) (f : α → Except Reject Instr) :
    Exact r (x >>= f) ↔ ∀ a, x = .ok a → Exact r (f a) := by
  cases x <;> simp [Exact, bind, Except.bind]
@[simp] theorem exact_need (p : Bool) (e : Reject) (f : Unit → Except Reject Instr) :
    Exact r (need p e >>= f) ↔ (p = true → Exact r (f ())) := by
  cases p <;> simp [Exact, need, bind, Except.bind]
end

-- Last sources and addresses, read backwards.

theorem ok_of_bind {α β : Type} {x : Except Reject α} {f : α → Except Reject β} {b : β} (h : (x >>= f) = .ok b) :
    ∃ a, x = .ok a ∧ f a = .ok b := by
  cases x with
  | error e => cases h
  | ok a => exact ⟨a, rfl, h⟩

@[simp] theorem need_ok (p : Bool) (e : Reject) (u : Unit) : need p e = .ok u ↔ p = true := by
  cases p <;> simp [need]

/-- LEN is one of the three that name a length. -/
theorem Canon.len_cases {r : Raw} (hc : Canon r) :
    (r.len = 0 ∧ r.ext = 0) ∨ (r.len = 1 ∧ r.ext = r.imma.setWidth 64) ∨ r.len = 2 := by
  obtain ⟨h3, h0, h1⟩ := hc
  have : ∀ l : BitVec 2, l ≠ 3 → l = 0 ∨ l = 1 ∨ l = 2 := by decide
  rcases this _ h3 with h | h | h
  · exact .inl ⟨h, h0 h⟩
  · exact .inr (.inl ⟨h, h1 h⟩)
  · exact .inr (.inr h)

theorem src_ok {r : Raw} (hc : Canon r) {x : BitVec 6} {b : Src} (h : r.src x = .ok b) : b.fields = (r.len, x, r.ext) := by
  rcases hc.len_cases with ⟨hl, he⟩ | ⟨hl, he⟩ | hl <;> simp only [Raw.src, hl] at h
  · obtain ⟨g, hg, hb⟩ := ok_of_bind h
    cases hb
    simp [Src.fields, (gOf_ok _ _).1 hg, hl, he]
  · obtain ⟨g, hg, hb⟩ := ok_of_bind h
    cases hb
    simp at hg
    simp [Src.fields, hg, hl, he]
  · obtain ⟨g, hg, hb⟩ := ok_of_bind h
    cases hb
    simp at hg
    simp [Src.fields, hg, hl]

theorem src32_ok {r : Raw} (hc : Canon r) {x : BitVec 6} {b : Src32} (h : r.src32 x = .ok b) : b.fields = (r.len, x, r.ext) := by
  rcases hc.len_cases with ⟨hl, he⟩ | ⟨hl, he⟩ | hl <;> simp only [Raw.src32, hl] at h
  · obtain ⟨g, hg, hb⟩ := ok_of_bind h
    cases hb
    simp [Src32.fields, (gOf_ok _ _).1 hg, hl, he]
  · obtain ⟨g, hg, hb⟩ := ok_of_bind h
    cases hb
    simp at hg
    simp [Src32.fields, hg, hl, he]
  · cases h

/-- An address puts back the base, the length and the displacement that it was read from. -/
theorem addr_ok {r q : Raw} (hc : Canon r) {x : Addr} (h : r.addr = .ok x) (hl : q.len = 0) (he : q.ext = 0) :
    q.withAddr x = { q with a := r.a, len := r.len, ext := r.ext } := by
  rcases hc.len_cases with ⟨rl, re⟩ | ⟨rl, re⟩ | rl <;> simp only [Raw.addr, rl] at h
  · obtain ⟨g, hg, hb⟩ := ok_of_bind h
    cases hb
    simp [Raw.withAddr, (gOf_ok _ _).1 hg, rl, re, ← hl, ← he]
  · obtain ⟨g, hg, hb⟩ := ok_of_bind h
    cases hb
    simp [Raw.withAddr, (gOf_ok _ _).1 hg, rl, re]
  · cases h

/-- The register number of sysr and sysw puts back the fields it was read from. -/
theorem regSel_ok {r q : Raw} (hc : Canon r) {x : RegSel} (h : r.regSel = .ok x) (ha : q.a = 0) (hl : q.len = 0) (he : q.ext = 0) :
    q.withSel x = { q with a := r.a, len := r.len, ext := r.ext } := by
  rcases hc.len_cases with ⟨rl, re⟩ | ⟨rl, re⟩ | rl <;> simp only [Raw.regSel, rl] at h
  · obtain ⟨g, hg, hb⟩ := ok_of_bind h
    cases hb
    simp [Raw.withSel, (gOf_ok _ _).1 hg, rl, re, ← hl, ← he]
  · obtain ⟨g, hg, hb⟩ := ok_of_bind h
    cases hb
    simp at hg
    have : (r.imma.setWidth 12).setWidth 64 = r.imma.setWidth 64 := by
      apply BitVec.eq_of_toNat_eq
      simp
      omega
    simp [Raw.withSel, hg.1, rl, re, this, ha]
  · cases h

/-- An optional accumulator puts back the field it was read from. -/
theorem accum_ok {r q : Raw} {x : Option WReg} (h : r.accum = .ok x) (hq : q.c = 0) : q.withAcc x = { q with c := r.c } := by
  unfold Raw.accum at h
  split at h
  · rename_i h0
    cases h
    simp [Raw.withAcc, eq_of_beq h0, ← hq]
  · obtain ⟨g, hg, hb⟩ := ok_of_bind h
    cases hb
    simp [Raw.withAcc, (wOf_ok _ _).1 hg]

theorem memOrd_ok {r : Raw} {x : MemOrd} (h : r.memOrd = .ok x) : r.scope = x.scope.code ∧ r.ord = x.ord.code ∧ r.sc = x.sc := by
  obtain ⟨s, hs, hx⟩ := ok_of_bind h
  cases hx
  exact ⟨(scopeOf_ok _ _).1 hs, (code_ordOf _).symm, rfl⟩

theorem ctrScope_ok {r : Raw} {x : Scope} (h : r.ctrScope = .ok x) : r.scope = x.code ∧ r.ord = 0 ∧ r.sc = false := by
  obtain ⟨u, hu, hx⟩ := ok_of_bind h
  simp at hu
  exact ⟨(scopeOf_ok _ _).1 hx, hu⟩

-- What the three lengths put into the extension.

theorem op_of_toNat {op : BitVec 7} {n : Nat} (h : op.toNat = n) : op = BitVec.ofNat 7 n := by
  rw [← h, BitVec.ofNat_toNat, BitVec.setWidth_eq]
theorem sub_of_toNat {u : BitVec 4} {n : Nat} (h : u.toNat = n) : u = BitVec.ofNat 4 n := by
  rw [← h, BitVec.ofNat_toNat, BitVec.setWidth_eq]
theorem bits2_of_toNat {u : BitVec 2} {n : Nat} (h : u.toNat = n) : u = BitVec.ofNat 2 n := by
  rw [← h, BitVec.ofNat_toNat, BitVec.setWidth_eq]

theorem Canon.ext64 {r : Raw} (hc : Canon r) (h : r.len = 0) : r.ext = 0 := hc.2.1 h
theorem Canon.ext96 {r : Raw} (hc : Canon r) (h : r.len = 1) : { r with ext := r.imma.setWidth 64 } = r := by
  rw [← hc.2.2 h]
theorem withImm_back (r q : Raw) : q.withImm r.imma r.immb = { q with len := 2, ext := r.ext } := by
  have : r.immb ++ r.imma = r.ext := by
    unfold Raw.immb Raw.imma
    rw [BitVec.extractLsb'_append_extractLsb'_eq_extractLsb' (by omega)]
    exact BitVec.extractLsb'_eq_self
  rw [Raw.withImm, this]

/-- A 6-bit field whose top bit is 0 holds the 5-bit code read from it. -/
theorem code6 {x : BitVec 6} {c : BitVec 5} (h : x[5] = false) (hx : x.setWidth 5 = c) : x = c.setWidth 6 := by
  subst hx
  revert x
  decide
theorem low3 {u : BitVec 4} (h : u[3] = false) : (u.setWidth 3).setWidth 4 = u := by
  revert u
  decide
/-- A register number of 8 bits puts back FN where TY is 0. -/
theorem num_back {r : Raw} (h : r.ty = 0) : { r with fn := (r.fn.setWidth 8).setWidth 13 } = r := by
  have h0 : r.fn.extractLsb' 8 5 = 0 := h
  have hfn : r.fn = r.fn.extractLsb' 8 5 ++ r.fn.extractLsb' 0 8 := by
    rw [BitVec.extractLsb'_append_extractLsb'_eq_extractLsb' (by omega)]
    exact BitVec.extractLsb'_eq_self.symm
  have : (r.fn.setWidth 8).setWidth 13 = r.fn := by
    rw [hfn, h0]
    generalize r.fn.extractLsb' 0 8 = n
    revert n
    decide
  rw [this]

-- Scalar, predicate and control instructions.

section
variable {r : Raw} (hc : Canon r)
include hc

theorem exact_scalar3 (sat : Bool) (k : Hdr → Ty → Bool → GReg → GReg → Src → Instr)
    (hk : ∀ h ty s d a b, (sat = false → s = false) → encodeRaw (k h ty s d a b) = some (encS h r.op ty 0 s d a b.fields)) :
    Exact r (r.scalar3 sat k) := by
  obtain ⟨e, c, b, a, d, fn, ch, mg, pg, op, sw, len, ext⟩ := r
  obtain ⟨t, u, s, m, rfl⟩ := exists_shapeA fn
  simp [-bind_pure_comp, Raw.scalar3, Raw.unused]
  rintro rfl rfl hs rfl rfl ty rfl d rfl a rfl src hb
  rw [hk _ _ _ _ _ _ (by cases sat <;> simp_all), src_ok hc hb]
  rfl

theorem exact_scalar2 (sub : BitVec 4) (k : Hdr → Ty → GReg → GReg → Src32 → Instr)
    (hk : ∀ h ty d a b, encodeRaw (k h ty d a b) = some (encS h r.op ty sub false d a b.fields)) :
    Exact r (r.scalar2 sub k) := by
  obtain ⟨e, c, b, a, d, fn, ch, mg, pg, op, sw, len, ext⟩ := r
  obtain ⟨t, u, s, m, rfl⟩ := exists_shapeA fn
  simp [-bind_pure_comp, Raw.scalar2, Raw.unused]
  rintro rfl rfl rfl rfl rfl ty rfl d rfl a rfl src hb
  rw [hk, src32_ok hc hb]
  rfl
end

theorem exact_decodeScalar {r : Raw} (hc : Canon r) : Exact r (decodeScalar r) := by
  unfold decodeScalar
  split <;> rename_i ho
  -- add, sub, mul
  iterate 3 exact exact_scalar3 hc true _ fun h ty s d a b _ => by rw [op_of_toNat ho]; rfl
  -- mulh, div, rem, min, max, and, or, xor, andn
  iterate 9 exact exact_scalar3 hc false _ fun h ty s d a b hs => by rw [op_of_toNat ho, hs rfl]; rfl
  -- shl, shr, sar
  iterate 3 exact exact_scalar2 hc _ _ fun h ty d a b => by rw [op_of_toNat ho]; rfl
  case h_16 => -- rot
    cases r.sub == 1
    · exact exact_scalar2 hc _ _ fun h ty d a b => by rw [op_of_toNat ho]; rfl
    · exact exact_scalar2 hc _ _ fun h ty d a b => by rw [op_of_toNat ho]; rfl
  case h_20 => -- bins, bext
    split
    · exact exact_scalar2 hc _ _ fun h ty d a b => by rw [op_of_toNat ho]; rfl
    · exact exact_scalar2 hc _ _ fun h ty d a b => by rw [op_of_toNat ho]; rfl
  case h_25 => simp
  all_goals
    obtain ⟨e, c, b, a, d, fn, ch, mg, pg, op, sw, len, ext⟩ := r
    obtain rfl := op_of_toNat ho
  case h_17 => -- mov
    obtain ⟨t, u, s, m, rfl⟩ := exists_shapeA fn
    simp [-bind_pure_comp, Raw.unused]
    rintro rfl rfl rfl rfl rfl rfl ty rfl d rfl src hb
    show some (Raw.withA _ src.fields) = _
    rw [src_ok hc hb]
    rfl
  case h_18 => -- sel
    obtain ⟨t, u, s, m, rfl⟩ := exists_shapeA fn
    simp [-bind_pure_comp, Raw.len64, Raw.unused]
    rintro rfl rfl rfl rfl rfl rfl d rfl a rfl b rfl c rfl
    obtain rfl := hc.ext64 rfl
    rfl
  case h_19 => -- bit
    obtain ⟨t, u, s, m, rfl⟩ := exists_shapeA fn
    simp [-bind_pure_comp, Raw.len64, Raw.unused]
    rintro rfl rfl rfl rfl rfl rfl op rfl ty rfl d rfl a rfl
    obtain rfl := hc.ext64 rfl
    rfl
  case h_21 => -- cvt
    obtain ⟨t, u, s, m, rfl⟩ := exists_shapeA fn
    simp [-bind_pure_comp, Raw.len64, Raw.unused]
    rintro rfl rfl rfl rfl he rfl rfl src hs dst rfl d rfl a rfl
    obtain rfl := hc.ext64 rfl
    obtain rfl := code6 he hs
    rfl
  case h_22 => -- lea
    obtain ⟨t, u, s, m, rfl⟩ := exists_shapeA fn
    simp [-bind_pure_comp, Raw.unused]
    rintro hu rfl rfl rfl rfl rfl d rfl a rfl src hb
    show some (encS _ _ _ ((u.setWidth 3).setWidth 4) _ _ _ src.fields) = _
    rw [src32_ok hc hb, low3 hu]
    rfl
  case h_23 => -- bkpt, swtrap
    obtain ⟨t, u, v, rfl⟩ := exists_shapeX fn
    simp [-bind_pure_comp, Raw.len64, Raw.unused]
    rintro rfl rfl rfl rfl rfl rfl rfl
    obtain rfl := hc.ext64 rfl
    split <;> rename_i hu
    · obtain rfl := sub_of_toNat hu
      simp [-bind_pure_comp]
      rintro rfl
      rfl
    · obtain rfl := sub_of_toNat hu
      simp
      rfl
    · simp
  case h_24 => -- nop
    obtain ⟨t, u, v, rfl⟩ := exists_shapeX fn
    simp [-bind_pure_comp, Raw.unused]
    rintro rfl rfl rfl rfl rfl rfl rfl rfl
    rcases hc.len_cases with ⟨rfl, rfl⟩ | ⟨rfl, he⟩ | rfl
    · rfl
    · exact congrArg some (hc.ext96 rfl)
    · rfl

theorem exact_decodePred {r : Raw} (hc : Canon r) : Exact r (decodePred r) := by
  unfold decodePred
  split <;> rename_i ho
  case h_8 => simp
  all_goals
    obtain ⟨e, c, b, a, d, fn, ch, mg, pg, op, sw, len, ext⟩ := r
    obtain rfl := op_of_toNat ho
  case h_1 => -- pcmp
    obtain ⟨t, u, s, m, rfl⟩ := exists_shapeA fn
    simp [-bind_pure_comp, Raw.unused]
    rintro rfl rfl rfl rfl rel rfl ty rfl d rfl a rfl src hb
    show some (Raw.withB _ src.fields) = _
    rw [src32_ok hc hb]
    rfl
  case h_2 => -- plog
    obtain ⟨t, u, v, rfl⟩ := exists_shapeX fn
    simp [-bind_pure_comp, Raw.len64, Raw.plainX, Raw.unused]
    rintro rfl rfl rfl rfl rfl op rfl
    obtain rfl := hc.ext64 rfl
    split
    · rename_i hop
      obtain rfl := hop
      simp [-bind_pure_comp]
      rintro rfl d rfl a rfl
      rfl
    · rename_i hop
      simp [-bind_pure_comp]
      rintro d rfl a rfl b rfl
      show some (encX _ _ _ _ _ _ (if op == .not then 0 else PReg.code b)) = _
      rw [if_neg (by simpa using hop)]
      rfl
  case h_3 => -- mlog
    obtain ⟨t, u, v, rfl⟩ := exists_shapeX fn
    simp [-bind_pure_comp, Raw.len64, Raw.plainX, Raw.unused]
    rintro rfl rfl rfl rfl rfl op rfl
    obtain rfl := hc.ext64 rfl
    split
    · rename_i hop
      obtain rfl := hop
      simp [-bind_pure_comp]
      rintro rfl d rfl a rfl
      rfl
    · rename_i hop
      simp [-bind_pure_comp]
      rintro d rfl a rfl b rfl
      show some (encX _ _ _ _ _ _ (if op == .not then 0 else MReg.code b)) = _
      rw [if_neg (by simpa using hop)]
      rfl
  case h_4 => -- mmov
    obtain ⟨t, u, v, rfl⟩ := exists_shapeX fn
    simp [-bind_pure_comp, Raw.len64, Raw.plainX, Raw.unused]
    rintro rfl rfl rfl rfl rfl
    split <;> rename_i hu
    · obtain rfl := sub_of_toNat hu
      simp [-bind_pure_comp]
      rintro rfl d rfl a rfl
      obtain rfl := hc.ext64 rfl
      rfl
    · obtain rfl := sub_of_toNat hu
      simp [-bind_pure_comp]
      rintro rfl d rfl a rfl
      obtain rfl := hc.ext64 rfl
      rfl
    · obtain rfl := sub_of_toNat hu
      simp [-bind_pure_comp]
      rintro rfl
      split <;> rename_i hl
      · obtain rfl := bits2_of_toNat hl
        simp [-bind_pure_comp]
        rintro d rfl
        exact congrArg some (hc.ext96 rfl)
      · obtain rfl := bits2_of_toNat hl
        simp [-bind_pure_comp]
        rintro d rfl
        rfl
      · simp
    · simp
  case h_5 => -- mcnt
    obtain ⟨t, u, v, rfl⟩ := exists_shapeX fn
    simp [-bind_pure_comp, Raw.len64, Raw.plainX, Raw.unused]
    rintro rfl rfl rfl rfl rfl rfl op rfl d rfl a rfl
    obtain rfl := hc.ext64 rfl
    rfl
  case h_6 => -- mfirst
    obtain ⟨t, u, v, rfl⟩ := exists_shapeX fn
    simp [-bind_pure_comp, Raw.unused]
    rintro rfl rfl rfl rfl rfl ty rfl d rfl src hb
    show some (Raw.withA _ src.fields) = _
    rw [src32_ok hc hb]
    rfl
  case h_7 => -- pmov
    obtain ⟨t, u, v, rfl⟩ := exists_shapeX fn
    simp [-bind_pure_comp, Raw.len64, Raw.plainX, Raw.unused]
    rintro rfl rfl rfl rfl rfl rfl
    obtain rfl := hc.ext64 rfl
    split <;> rename_i hu
    · obtain rfl := sub_of_toNat hu
      simp [-bind_pure_comp]
      rintro d rfl a rfl
      rfl
    · obtain rfl := sub_of_toNat hu
      simp [-bind_pure_comp]
      rintro d rfl a rfl
      rfl
    · simp

theorem exact_decodeControl {r : Raw} (hc : Canon r) : Exact r (decodeControl r) := by
  unfold decodeControl
  split <;> rename_i ho
  case h_11 => simp
  all_goals
    obtain ⟨e, c, b, a, d, fn, ch, mg, pg, op, sw, len, ext⟩ := r
    obtain rfl := op_of_toNat ho
  case h_1 => -- br
    obtain ⟨t, u, v, rfl⟩ := exists_shapeX fn
    simp [-bind_pure_comp, Raw.len96, Raw.plainX, Raw.unused]
    rintro rfl rfl rfl rfl rfl rfl rfl rfl rfl
    exact congrArg some (hc.ext96 rfl)
  case h_2 => -- jr, callr
    obtain ⟨t, u, v, rfl⟩ := exists_shapeX fn
    simp [-bind_pure_comp, Raw.len64, Raw.plainX, Raw.unused]
    rintro rfl rfl rfl rfl rfl rfl
    obtain rfl := hc.ext64 rfl
    split <;> rename_i hu
    · obtain rfl := sub_of_toNat hu
      simp [-bind_pure_comp]
      rintro rfl a rfl
      rfl
    · obtain rfl := sub_of_toNat hu
      simp [-bind_pure_comp]
      rintro d rfl a rfl
      rfl
    · simp
  case h_3 => -- call
    obtain ⟨t, u, v, rfl⟩ := exists_shapeX fn
    simp [-bind_pure_comp, Raw.len96, Raw.plainX, Raw.unused]
    rintro rfl rfl rfl rfl rfl rfl rfl rfl d rfl
    exact congrArg some (hc.ext96 rfl)
  case h_4 => -- ret
    obtain ⟨t, u, v, rfl⟩ := exists_shapeX fn
    simp [-bind_pure_comp, Raw.len64, Raw.plainX, Raw.unused]
    rintro rfl rfl rfl rfl rfl rfl rfl rfl a rfl
    obtain rfl := hc.ext64 rfl
    rfl
  case h_5 => -- loop
    obtain ⟨t, u, v, rfl⟩ := exists_shapeX fn
    simp [-bind_pure_comp, Raw.len96, Raw.plainX, Raw.unused]
    rintro rfl rfl rfl rfl rfl rfl rfl rfl d rfl
    exact congrArg some (hc.ext96 rfl)
  case h_6 => -- repeat
    obtain ⟨t, u, v, rfl⟩ := exists_shapeX fn
    simp [-bind_pure_comp, Raw.unused]
    rintro rfl rfl rfl rfl rfl
    split <;> rename_i hu
    · obtain rfl := sub_of_toNat hu
      simp [-bind_pure_comp, Raw.len64]
      rintro rfl a rfl
      obtain rfl := hc.ext64 rfl
      rfl
    · obtain rfl := sub_of_toNat hu
      simp [-bind_pure_comp, Raw.len96]
      rintro rfl rfl
      exact congrArg some (hc.ext96 rfl)
    · simp
  case h_7 => -- idr
    simp [-bind_pure_comp, Raw.len64, Raw.unused]
    rintro rfl hf rfl rfl rfl rfl d rfl
    obtain rfl := hc.ext64 rfl
    exact congrArg some (num_back hf)
  case h_8 => -- ucrr
    simp [-bind_pure_comp, Raw.len64, Raw.unused]
    rintro rfl hf rfl rfl rfl rfl d rfl
    obtain rfl := hc.ext64 rfl
    exact congrArg some (num_back hf)
  case h_9 => -- ucrw
    simp [-bind_pure_comp, Raw.len64, Raw.unused]
    rintro rfl hf rfl rfl rfl rfl d rfl
    obtain rfl := hc.ext64 rfl
    exact congrArg some (num_back hf)
  case h_10 => -- rdtime
    obtain ⟨t, u, v, rfl⟩ := exists_shapeX fn
    simp [-bind_pure_comp, Raw.len64, Raw.plainX, Raw.unused]
    rintro rfl rfl rfl rfl rfl rfl rfl
    obtain rfl := hc.ext64 rfl
    split <;> rename_i hu
    · obtain rfl := sub_of_toNat hu
      simp [-bind_pure_comp]
      rintro d rfl
      rfl
    · obtain rfl := sub_of_toNat hu
      simp [-bind_pure_comp]
      rintro d rfl
      rfl
    · simp

-- System instructions.

theorem exact_decodeSystem {r : Raw} (hc : Canon r) (ho : r.op = 0x7F) : Exact r (decodeSystem r) := by
  obtain ⟨e, c, b, a, d, fn, ch, mg, pg, op, sw, len, ext⟩ := r
  obtain rfl : op = 0x7F := ho
  obtain ⟨t, u, v, rfl⟩ := exists_shapeX fn
  simp [-bind_pure_comp, decodeSystem]
  rintro rfl
  split <;> rename_i hu
  case h_9 => simp
  all_goals
    obtain rfl := sub_of_toNat hu
    simp [-bind_pure_comp, Raw.unused]
  case h_1 => -- sysr
    rintro rfl rfl rfl rfl d rfl sel hs
    exact congrArg some (regSel_ok hc hs rfl rfl rfl)
  case h_2 => -- sysw
    rintro rfl rfl rfl rfl sel hs b rfl
    exact congrArg some (regSel_ok hc hs rfl rfl rfl)
  case h_3 => -- faultreply
    rintro rfl rfl rfl
    split <;> rename_i hv
    case h_5 => simp
    all_goals
      obtain rfl := sub_of_toNat hv
      simp [-bind_pure_comp]
    case h_1 =>
      rintro rfl src hb
      show some (Raw.withA _ src.fields) = _
      rw [src32_ok hc hb]
      rfl
    case h_2 =>
      rintro b rfl src hb
      show some (Raw.withA _ src.fields) = _
      rw [src32_ok hc hb]
      rfl
    case h_3 =>
      rintro rfl src hb
      show some (Raw.withA _ src.fields) = _
      rw [src32_ok hc hb]
      rfl
    case h_4 =>
      rintro rfl src hb
      show some (Raw.withA _ src.fields) = _
      rw [src32_ok hc hb]
      rfl
  case h_4 => -- fltwait
    rintro rfl rfl rfl rfl d rfl src hb
    show some (Raw.withA _ src.fields) = _
    rw [src32_ok hc hb]
    rfl
  iterate 3 -- purge, cflush, cinval
    · rintro rfl rfl rfl rfl x hx b rfl
      exact congrArg some (addr_ok hc hx rfl rfl)
  case h_8 => -- tlbinv
    rintro rfl rfl rfl
    split <;> rename_i hv
    case h_4 => simp
    all_goals
      obtain rfl := sub_of_toNat hv
      simp [-bind_pure_comp, Raw.len64]
    case h_1 =>
      rintro a rfl src hb
      show some (Raw.withB _ src.fields) = _
      rw [src32_ok hc hb]
      rfl
    case h_2 =>
      rintro rfl src hb
      show some (Raw.withB _ src.fields) = _
      rw [src32_ok hc hb]
      rfl
    case h_3 =>
      rintro rfl rfl rfl
      obtain rfl := hc.ext64 rfl
      rfl

-- Floating-point vector instructions.

section
variable {r : Raw} (he : r.ext = 0) (hl : r.len = 0)
include he hl

theorem exact_vf2 (rm sat : Bool) (k : Hdr → Ty → Rm → Bool → WReg → WReg → WReg → Instr)
    (hk : ∀ h ty m s d a b, (rm = false → m = .rne) → (sat = false → s = false) →
      encodeRaw (k h ty m s d a b) = some (encV h r.op ty 0 s m.code d a b)) : Exact r (r.vf2 rm sat k) := by
  obtain ⟨e, c, b, a, d, fn, ch, mg, pg, op, sw, len, ext⟩ := r
  obtain ⟨t, u, s, m, rfl⟩ := exists_shapeA fn
  obtain rfl : ext = 0 := he
  obtain rfl : len = 0 := hl
  simp [-bind_pure_comp, Raw.vf2, Raw.unused]
  rintro rfl hm hs rfl rfl ty rfl rm rfl d rfl a rfl b rfl
  have hrne : ∀ m : Rm, m.code = 0 → m = .rne := by intro m; cases m <;> decide
  rw [hk _ _ _ _ _ _ _ (by rintro rfl; exact hrne _ (by simpa using hm)) (by rintro rfl; simpa using hs)]
  rfl

theorem exact_vf3 (k : Hdr → Ty → Rm → Bool → WReg → WReg → WReg → WReg → Instr)
    (hk : ∀ h ty m s d a b c, encodeRaw (k h ty m s d a b c) = some { encV h r.op ty 0 s m.code d a b with c := WReg.code c }) :
    Exact r (r.vf3 k) := by
  obtain ⟨e, c, b, a, d, fn, ch, mg, pg, op, sw, len, ext⟩ := r
  obtain ⟨t, u, s, m, rfl⟩ := exists_shapeA fn
  obtain rfl : ext = 0 := he
  obtain rfl : len = 0 := hl
  simp [-bind_pure_comp, Raw.vf3, Raw.unused]
  rintro rfl rfl ty rfl rm rfl d rfl a rfl b rfl c rfl
  rw [hk]
  rfl

theorem exact_vf1 (sat : Bool) (k : Hdr → Ty → Rm → Bool → WReg → WReg → Instr)
    (hk : ∀ h ty m s d a, (sat = false → s = false) → encodeRaw (k h ty m s d a) = some (encV1 h r.op ty 0 s m.code d a)) :
    Exact r (r.vf1 sat k) := by
  obtain ⟨e, c, b, a, d, fn, ch, mg, pg, op, sw, len, ext⟩ := r
  obtain ⟨t, u, s, m, rfl⟩ := exists_shapeA fn
  obtain rfl : ext = 0 := he
  obtain rfl : len = 0 := hl
  simp [-bind_pure_comp, Raw.vf1, Raw.unused]
  rintro rfl hs rfl rfl rfl ty rfl rm rfl d rfl a rfl
  rw [hk _ _ _ _ _ _ (by rintro rfl; simpa using hs)]
  rfl

theorem exact_vi2 (k : Hdr → Ty → Bool → WReg → WReg → WReg → Instr)
    (hk : ∀ h ty d a b, encodeRaw (k h ty r.sat d a b) = some (encV h r.op ty r.sub r.sat 0 d a b)) : Exact r (r.vi2 k) := by
  obtain ⟨e, c, b, a, d, fn, ch, mg, pg, op, sw, len, ext⟩ := r
  obtain ⟨t, u, s, m, rfl⟩ := exists_shapeA fn
  obtain rfl : ext = 0 := he
  obtain rfl : len = 0 := hl
  simp at hk
  simp [-bind_pure_comp, Raw.vi2, Raw.unused]
  rintro rfl rfl rfl ty rfl d rfl a rfl b rfl
  rw [hk]
  rfl
end

theorem exact_decodeVectorFp {r : Raw} (hc : Canon r) : Exact r (decodeVectorFp r) := by
  simp only [decodeVectorFp, Raw.len64, exact_need, beq_iff_eq]
  intro hl
  have he := hc.ext64 hl
  split <;> rename_i ho
  -- vfadd, vfsub, vfmul
  iterate 3 exact exact_vf2 he hl _ _ _ fun h ty m s d a b _ _ => by rw [op_of_toNat ho]; rfl
  -- vfma, vfms, vfnma
  iterate 3 exact exact_vf3 he hl _ fun h ty m s d a b c => by rw [op_of_toNat ho]; rfl
  -- vfmin, vfmax
  iterate 2 exact exact_vf2 he hl _ _ _ fun h ty m s d a b hm hs => by rw [op_of_toNat ho, hm rfl, hs rfl]; rfl
  case h_12 => exact exact_vf2 he hl _ _ _ fun h ty m s d a b _ _ => by rw [op_of_toNat ho]; rfl
  case h_19 => exact exact_vf2 he hl _ _ _ fun h ty m s d a b hm hs => by rw [op_of_toNat ho, hm rfl, hs rfl]; rfl
  case h_21 => exact exact_vf1 he hl _ _ fun h ty m s d a hs => by rw [op_of_toNat ho, hs rfl]; rfl
  case h_22 => simp
  case h_13 | h_14 | h_15 | h_16 | h_17 => exact exact_vf1 he hl _ _ fun h ty m s d a _ => by rw [op_of_toNat ho]; rfl
  all_goals
    obtain ⟨e, c, b, a, d, fn, ch, mg, pg, op, sw, len, ext⟩ := r
    obtain rfl := op_of_toNat ho
    obtain rfl : ext = 0 := he
    obtain rfl : len = 0 := hl
    obtain ⟨t, u, s, m, rfl⟩ := exists_shapeA fn
    simp [-bind_pure_comp, Raw.unused]
  case h_9 => -- vfsgn
    rintro rfl rfl rfl rfl op rfl
    split
    · rename_i hop
      obtain rfl := hop
      simp [-bind_pure_comp]
      rintro ty rfl d rfl a rfl b rfl
      rfl
    · rename_i hop
      simp [-bind_pure_comp]
      rintro rfl ty rfl d rfl a rfl
      cases op with
      | copysign => exact absurd rfl hop
      | abs => rfl
      | neg => rfl
  case h_10 => -- vfcmp
    rintro rfl rfl rfl rfl rel rfl ty rfl d rfl a rfl b rfl
    rfl
  case h_11 => -- vfcvt
    rintro he rfl rfl src hs dst rfl m rfl d rfl a rfl
    obtain rfl := code6 he hs
    rfl
  case h_18 => -- vfred
    rintro rfl rfl rfl op rfl ty rfl m rfl d rfl a rfl c hx
    exact congrArg some (accum_ok hx rfl)
  case h_20 => -- vfscale
    rintro hu rfl rfl ty rfl m rfl d rfl a rfl b rfl
    rcases hu with rfl | rfl <;> rfl

-- Integer vector instructions.

theorem exact_decodeVectorInt {r : Raw} (hc : Canon r) : Exact r (decodeVectorInt r) := by
  unfold decodeVectorInt
  split <;> rename_i ho
  case h_17 => simp
  case h_9 => -- vbcast
    obtain ⟨e, c, b, a, d, fn, ch, mg, pg, op, sw, len, ext⟩ := r
    obtain rfl := op_of_toNat ho
    obtain ⟨t, u, s, m, rfl⟩ := exists_shapeA fn
    simp [-bind_pure_comp, Raw.unused]
    rintro rfl rfl rfl rfl
    split <;> rename_i hu
    case h_4 => simp
    all_goals
      obtain rfl := sub_of_toNat hu
      simp [-bind_pure_comp, Raw.len64]
    case h_1 =>
      rintro rfl rfl ty rfl d rfl a rfl
      obtain rfl := hc.ext64 rfl
      rfl
    case h_2 =>
      rintro rfl rfl
      split <;> rename_i hl
      case h_3 => simp
      all_goals
        obtain rfl := bits2_of_toNat hl
        simp [-bind_pure_comp]
        rintro ty rfl d rfl
      · exact congrArg some (hc.ext96 rfl)
      · rfl
    case h_3 =>
      rintro rfl ty rfl d rfl a rfl b rfl
      obtain rfl := hc.ext64 rfl
      rfl
  all_goals
    simp only [Raw.len64, exact_need, beq_iff_eq]
    intro hl
    have he := hc.ext64 hl
  case h_1 | h_2 => -- vadd, vsub
    intro hu
    exact exact_vi2 he hl _ fun h ty d a b => by rw [op_of_toNat ho, hu]; rfl
  case h_3 => -- vmul
    simp
    intro hu
    exact exact_vi2 he hl _ fun h ty d a b => by rw [op_of_toNat ho]; rcases hu with hu | hu <;> rw [hu] <;> rfl
  case h_4 => -- vmm
    simp
    intro hu hs
    exact exact_vi2 he hl _ fun h ty d a b => by rw [op_of_toNat ho, hs]; rcases hu with hu | hu <;> rw [hu] <;> rfl
  case h_6 => -- vsh
    simp
    intro hs op hu
    exact exact_vi2 he hl _ fun h ty d a b => by rw [op_of_toNat ho, hs, hu]; rfl
  case h_10 => -- vshuf
    simp
    intro hu hs
    exact exact_vi2 he hl _ fun h ty d a b => by rw [op_of_toNat ho, hs, hu]; rfl
  all_goals
    obtain ⟨e, c, b, a, d, fn, ch, mg, pg, op, sw, len, ext⟩ := r
    obtain rfl := op_of_toNat ho
    obtain rfl : ext = 0 := he
    obtain rfl : len = 0 := hl
    obtain ⟨t, u, s, m, rfl⟩ := exists_shapeA fn
    simp [-bind_pure_comp, Raw.unused]
  case h_5 => -- vlog
    rintro rfl rfl rfl rfl op rfl
    split
    · rename_i hop
      obtain rfl := hop
      simp [-bind_pure_comp]
      rintro rfl ty rfl d rfl a rfl
      rfl
    · rename_i hop
      simp [-bind_pure_comp]
      rintro ty rfl d rfl a rfl b rfl
      cases op with
      | not => exact absurd rfl hop
      | and => rfl
      | or => rfl
      | xor => rfl
      | andn => rfl
  case h_7 => -- vcmp
    rintro rfl rfl rfl rfl rel rfl ty rfl d rfl a rfl b rfl
    rfl
  case h_8 => -- vcvt
    rintro rfl rfl he rfl rfl src hs dst rfl d rfl a rfl
    obtain rfl := code6 he hs
    rfl
  case h_11 => -- vslide
    rintro rfl rfl rfl rfl op rfl ty rfl d rfl a rfl b rfl
    rfl
  case h_12 => -- vsel
    rintro rfl rfl rfl rfl ty rfl d rfl a rfl b rfl c rfl
    rfl
  case h_13 => -- vmovg
    rintro rfl rfl rfl rfl
    split <;> rename_i hu
    case h_3 => simp
    all_goals
      obtain rfl := sub_of_toNat hu
      simp [-bind_pure_comp]
      rintro ty rfl d rfl a rfl b rfl
      rfl
  case h_14 => -- vred
    rintro rfl rfl rfl op rfl ty rfl d rfl a rfl c hx
    exact congrArg some (accum_ok hx rfl)
  case h_15 => -- vscan
    rintro hu rfl rfl rfl rfl ty rfl d rfl a rfl
    rcases hu with rfl | rfl <;> rfl
  case h_16 => -- vcomp
    rintro rfl rfl rfl rfl rfl rfl ty rfl d rfl a rfl
    rfl

-- Memory, atomic and counter instructions.

theorem stream_of_lt {d : WReg} (h : d.toNat < 4) : ∃ k : BitVec 2, d = k.setWidth 5 :=
  ⟨d.setWidth 2, by apply BitVec.eq_of_toNat_eq; simp; omega⟩

section
variable {r : Raw} (hc : Canon r)
include hc

theorem exact_atom (hi : Bool) (ho : r.op = if hi then 0x6D else 0x6C) : Exact r (r.atom (AtomOp.ofCode hi r.msub)) := by
  have hop := code_atomOf hi r.msub
  revert hop
  generalize AtomOp.ofCode hi r.msub = op
  intro hop
  obtain ⟨e, c, b, a, d, fn, ch, mg, pg, o, sw, len, ext⟩ := r
  obtain ⟨t, sc, od, z, u, rfl⟩ := exists_shapeM fn
  obtain rfl : o = if hi then 0x6D else 0x6C := ho
  simp [-bind_pure_comp, Raw.atom, Raw.unused] at hop ⊢
  rintro hu rfl ty rfl mo hmo d rfl x hx b rfl
  obtain ⟨h1, h2, h3⟩ := memOrd_ok hmo
  simp at h1 h2 h3
  subst h1 h2 h3
  cases op <;> cases hop <;> simp [-bind_pure_comp] at hu ⊢
  case cas =>
    rintro c rfl
    show some { Raw.withAddr _ x with c := GReg.code c } = _
    rw [addr_ok hc hx] <;> rfl
  all_goals
    obtain rfl := hu
    exact congrArg some (addr_ok hc hx rfl rfl)

theorem exact_atomRed (hi : Bool) (ho : r.op = if hi then 0x6F else 0x6E) : Exact r (r.atomRed (AtomOp.ofCode hi r.msub)) := by
  have hop := code_atomOf hi r.msub
  revert hop
  generalize AtomOp.ofCode hi r.msub = op
  intro hop
  obtain ⟨e, c, b, a, d, fn, ch, mg, pg, o, sw, len, ext⟩ := r
  obtain ⟨t, sc, od, z, u, rfl⟩ := exists_shapeM fn
  obtain rfl : o = if hi then 0x6F else 0x6E := ho
  simp [-bind_pure_comp, Raw.atomRed, Raw.unused] at hop ⊢
  rintro rfl hu rfl ty rfl mo hmo x hx b rfl c rfl
  obtain ⟨h1, h2, h3⟩ := memOrd_ok hmo
  simp at h1 h2 h3
  subst h1 h2 h3
  have hhi : op.code.1 = hi := by rw [hop]
  have hu : op.code.2 = u := by rw [hop]
  subst hhi hu
  exact congrArg some (addr_ok hc hx rfl rfl)

theorem exact_decodeMemory : Exact r (decodeMemory r) := by
  unfold decodeMemory
  split <;> rename_i ho
  case h_8 | h_9 => exact exact_atom hc _ (op_of_toNat ho)
  case h_10 | h_11 => exact exact_atomRed hc _ (op_of_toNat ho)
  case h_15 => simp
  all_goals
    obtain ⟨e, c, b, a, d, fn, ch, mg, pg, op, sw, len, ext⟩ := r
    obtain rfl := op_of_toNat ho
  case h_1 => -- ld
    obtain ⟨t, sc, od, z, u, rfl⟩ := exists_shapeM fn
    obtain ⟨blk, rfl⟩ : ∃ blk : Blk, u = blk.code := ⟨_, (code_blkOf u).symm⟩
    simp [-bind_pure_comp, Raw.unused]
    rintro rfl rfl rfl ty rfl mo hmo d rfl x hx
    obtain ⟨h1, h2, h3⟩ := memOrd_ok hmo
    simp at h1 h2 h3
    subst h1 h2 h3
    exact congrArg some (addr_ok hc hx rfl rfl)
  case h_2 => -- st
    obtain ⟨t, sc, od, z, u, rfl⟩ := exists_shapeM fn
    obtain ⟨blk, rfl⟩ : ∃ blk : Blk, u = blk.code := ⟨_, (code_blkOf u).symm⟩
    simp [-bind_pure_comp, Raw.unused]
    rintro rfl rfl rfl ty rfl mo hmo x hx b rfl
    obtain ⟨h1, h2, h3⟩ := memOrd_ok hmo
    simp at h1 h2 h3
    subst h1 h2 h3
    exact congrArg some (addr_ok hc hx rfl rfl)
  case h_3 => -- lds
    obtain ⟨t, sc, q, s, v, rfl⟩ := exists_shapeL fn
    simp [-bind_pure_comp, Raw.unused]
    rintro rfl rfl rfl ty rfl sc rfl v rfl d rfl x hx
    exact congrArg some (addr_ok hc hx rfl rfl)
  case h_4 => -- gather
    obtain ⟨t, sc, od, z, u, rfl⟩ := exists_shapeM fn
    simp [-bind_pure_comp, Raw.unused]
    rintro rfl rfl rfl ty rfl mo hmo d rfl x hx b rfl
    obtain ⟨h1, h2, h3⟩ := memOrd_ok hmo
    simp at h1 h2 h3
    subst h1 h2 h3
    exact congrArg some (addr_ok hc hx rfl rfl)
  case h_5 => -- scatter
    obtain ⟨t, sc, od, z, u, rfl⟩ := exists_shapeM fn
    simp [-bind_pure_comp, Raw.unused]
    rintro rfl rfl rfl ty rfl mo hmo x hx b rfl c rfl
    obtain ⟨h1, h2, h3⟩ := memOrd_ok hmo
    simp at h1 h2 h3
    subst h1 h2 h3
    exact congrArg some (addr_ok hc hx rfl rfl)
  case h_6 => -- pref
    obtain ⟨t, sc, od, z, u, rfl⟩ := exists_shapeM fn
    simp [-bind_pure_comp, Raw.unused]
    rintro hu rfl rfl rfl rfl rfl rfl rfl rfl x hx
    rcases hu with rfl | rfl
    · exact congrArg some (addr_ok hc hx rfl rfl)
    · exact congrArg some (addr_ok hc hx rfl rfl)
  case h_7 => -- sbind
    obtain ⟨t, u, v, rfl⟩ := exists_shapeX fn
    simp [-bind_pure_comp, Raw.plainX, Raw.unused]
    rintro rfl rfl rfl rfl rfl d rfl hd
    obtain ⟨k, rfl⟩ := stream_of_lt hd
    have hk : (k.setWidth 5).setWidth 2 = k := by simp
    rw [hk]
    split <;> rename_i hu
    case h_3 => simp
    all_goals
      obtain rfl := sub_of_toNat hu
      simp [-bind_pure_comp, Raw.len64]
    case h_1 =>
      rintro x hx
      exact congrArg some (addr_ok hc hx rfl rfl)
    case h_2 =>
      rintro rfl rfl
      obtain rfl := hc.ext64 rfl
      rfl
  case h_12 => -- ctradd, ctrread, ctrwait
    obtain ⟨t, sc, od, z, u, rfl⟩ := exists_shapeM fn
    simp [-bind_pure_comp]
    rintro rfl scope hs
    obtain ⟨h1, h2, h3⟩ := ctrScope_ok hs
    simp at h1 h2 h3
    subst h1 h2 h3
    split <;> rename_i hu
    case h_4 => simp
    all_goals
      obtain rfl := bits2_of_toNat hu
      simp [-bind_pure_comp, Raw.unused]
    case h_1 =>
      rintro rfl rfl rfl x hx b rfl
      show some { Raw.withAddr _ x with b := GReg.code b } = _
      rw [addr_ok hc hx] <;> rfl
    case h_2 =>
      rintro rfl rfl rfl d rfl x hx
      show some { Raw.withAddr _ x with d := GReg.code d } = _
      rw [addr_ok hc hx] <;> rfl
    case h_3 =>
      rintro d rfl e rfl x hx b rfl c rfl
      show some { Raw.withAddr _ x with d := GReg.code d, e := GReg.code e, b := GReg.code b, c := GReg.code c } = _
      rw [addr_ok hc hx] <;> rfl
  case h_13 => -- ctrarrive
    obtain ⟨t, sc, od, z, u, rfl⟩ := exists_shapeM fn
    simp [-bind_pure_comp, Raw.unused]
    rintro scope hs rfl rfl
    obtain ⟨h1, h2, h3⟩ := ctrScope_ok hs
    simp at h1 h2 h3
    subst h1 h2 h3
    split <;> rename_i hu
    case h_3 => simp
    all_goals
      obtain rfl := bits2_of_toNat hu
      simp [-bind_pure_comp]
    case h_1 =>
      rintro ty rfl d rfl x hx b rfl
      show some { Raw.withAddr _ x with d := GReg.code d, b := GReg.code b } = _
      rw [addr_ok hc hx] <;> rfl
    case h_2 =>
      rintro rfl d rfl x hx b rfl
      show some { Raw.withAddr _ x with d := GReg.code d, b := GReg.code b } = _
      rw [addr_ok hc hx] <;> rfl
  case h_14 => -- fence
    obtain ⟨t, sc, od, z, u, rfl⟩ := exists_shapeM fn
    simp [-bind_pure_comp, Raw.len64, Raw.unused]
    rintro rfl rfl rfl rfl rfl rfl rfl rfl rfl sc rfl
    obtain rfl := hc.ext64 rfl
    rfl
end

-- Task, Porter and matrix instructions.

theorem row_urgent_back (v : BitVec 4) : v.extractLsb' 1 3 ++ BitVec.ofBool v[0] = v := by
  revert v
  decide
theorem urgent_back {v : BitVec 4} (h : v.extractLsb' 1 3 = 0) : (0 : BitVec 3) ++ BitVec.ofBool v[0] = v := by
  rw [← h, row_urgent_back]
/-- jwait's mode, the only bit of MODX it has, is all of MODX. -/
theorem mode_back {v : BitVec 4} (h : v.extractLsb' 1 3 = 0) : (if v[0] then 1 else 0) = v := by
  revert v
  decide
theorem hint_back {u : BitVec 4} (h : u[3] = false) : (0 : BitVec 1) ++ BitVec.ofBool u[2] ++ u.extractLsb' 0 2 = u := by
  revert u
  decide
/-- The row operation's mask and tag put back IMMB where its top byte is 0. -/
theorem immb_back {x : BitVec 32} (h : x.extractLsb' 24 8 = 0) : (0 : BitVec 8) ++ x.extractLsb' 8 16 ++ x.extractLsb' 0 8 = x := by
  rw [← h]
  repeat rw [BitVec.extractLsb'_append_extractLsb'_eq_extractLsb' (by omega)]
  exact BitVec.extractLsb'_eq_self

theorem exact_porter {r : Raw} (hl : r.len = 2) (ty : Ty) (hty : r.ty = ty.code)
    (k : Hdr → Bool → BitVec 32 → GReg → GReg → GReg → GReg → GReg → Instr)
    (hk : ∀ h u ctl d a b c e, encodeRaw (k h u ctl d a b c e) = some (encPorter h r.op ty r.sub 0 u ctl r.immb d a b c e)) :
    Exact r (r.porter k) := by
  obtain ⟨e, c, b, a, d, fn, ch, mg, pg, op, sw, len, ext⟩ := r
  obtain ⟨t, u, v, rfl⟩ := exists_shapeX fn
  obtain rfl : len = 2 := hl
  simp only [shapeX_ty, shapeX_sub] at hty hk
  obtain rfl := hty
  simp [-bind_pure_comp, Raw.porter]
  rintro hv d rfl a rfl b rfl c rfl e rfl
  rw [hk, encPorter, urgent_back hv]
  exact congrArg some (withImm_back _ _)

section
variable {r : Raw} (ho : r.op = 0x7E)
include ho

theorem exact_mmaForm (k : Hdr → Ty → BitVec 32 → BitVec 32 → GReg → GReg → GReg → GReg → GReg → Instr)
    (hk : ∀ h ty ctl ldc d a b c e, encodeRaw (k h ty ctl ldc d a b c e) =
      some (encMatrix h ty r.sub ctl ldc (GReg.code d) (GReg.code a) (GReg.code b) (GReg.code c) (GReg.code e))) :
    Exact r (r.mmaForm k) := by
  obtain ⟨e, c, b, a, d, fn, ch, mg, pg, op, sw, len, ext⟩ := r
  obtain ⟨t, u, v, rfl⟩ := exists_shapeX fn
  obtain rfl : op = 0x7E := ho
  simp only [shapeX_sub] at hk
  simp [-bind_pure_comp, Raw.mmaForm, Raw.len128]
  rintro rfl rfl ty rfl d rfl a rfl b rfl c rfl e rfl
  rw [hk, encMatrix, withImm_back]
  rfl

theorem exact_accForm (k : Hdr → Ty → BitVec 32 → BitVec 32 → GReg → GReg → GReg → Instr)
    (hk : ∀ h ty ctl ldc d c e, encodeRaw (k h ty ctl ldc d c e) =
      some (encMatrix h ty r.sub ctl ldc (GReg.code d) 0 0 (GReg.code c) (GReg.code e))) :
    Exact r (r.accForm k) := by
  obtain ⟨e, c, b, a, d, fn, ch, mg, pg, op, sw, len, ext⟩ := r
  obtain ⟨t, u, v, rfl⟩ := exists_shapeX fn
  obtain rfl : op = 0x7E := ho
  simp only [shapeX_sub] at hk
  simp [-bind_pure_comp, Raw.accForm, Raw.len128, Raw.unused]
  rintro rfl rfl rfl rfl ty rfl d rfl c rfl e rfl
  rw [hk, encMatrix, withImm_back]
  rfl
end

theorem exact_decodeTask {r : Raw} (hc : Canon r) : Exact r (decodeTask r) := by
  unfold decodeTask
  split <;> rename_i ho
  case h_10 => simp
  case h_8 => -- prpush, prget, prcopy, prfill
    simp [-bind_pure_comp, Raw.len128]
    intro hl ht hi
    split <;> rename_i hu
    case h_5 => simp
    all_goals exact exact_porter hl .none ht _ fun h u ctl d a b c e => by rw [op_of_toNat ho, sub_of_toNat hu, hi]; rfl
  case h_9 => -- prgath, prscat, prrow
    simp [-bind_pure_comp, Raw.len128]
    intro hl
    split <;> rename_i hu
    case h_4 => simp
    case h_1 =>
      simp only [exact_need, beq_iff_eq]
      intro ht
      exact exact_porter hl .none ht _ fun h u ctl d a b c e => by rw [op_of_toNat ho, sub_of_toNat hu]; rfl
    case h_2 =>
      simp only [exact_bind, tyOf_ok]
      intro ty ht
      exact exact_porter hl ty ht _ fun h u ctl d a b c e => by rw [op_of_toNat ho, sub_of_toNat hu]; rfl
    case h_3 =>
      obtain ⟨e, c, b, a, d, fn, ch, mg, pg, op, sw, len, ext⟩ := r
      obtain rfl := op_of_toNat ho
      obtain ⟨t, u, v, rfl⟩ := exists_shapeX fn
      obtain rfl : len = 2 := hl
      simp only [shapeX_sub] at hu
      obtain rfl := sub_of_toNat hu
      simp [-bind_pure_comp]
      rintro hi rop hv ty rfl d rfl a rfl b rfl c rfl e rfl
      show some (encPorter _ _ _ _ (RowOp.code rop) _ _ _ _ _ _ _ _) = _
      rw [encPorter, immb_back hi, ← hv, row_urgent_back]
      exact congrArg some (withImm_back _ _)
  all_goals
    obtain ⟨e, c, b, a, d, fn, ch, mg, pg, op, sw, len, ext⟩ := r
    obtain rfl := op_of_toNat ho
    obtain ⟨t, u, v, rfl⟩ := exists_shapeX fn
    simp [-bind_pure_comp, Raw.plainX, Raw.len64, Raw.unused]
  case h_1 => -- stashmap
    rintro rfl rfl hu rfl rfl a rfl b rfl src hb
    rcases hu with rfl | rfl
    · show some (Raw.withC _ src.fields) = _
      rw [src32_ok hc hb]
      rfl
    · show some (Raw.withC _ src.fields) = _
      rw [src32_ok hc hb]
      rfl
  case h_2 => -- stashunmap
    rintro rfl rfl rfl rfl rfl rfl rfl x hx
    exact congrArg some (addr_ok hc hx rfl rfl)
  case h_3 => -- stashflush
    rintro rfl rfl rfl rfl rfl rfl x hx b rfl
    exact congrArg some (addr_ok hc hx rfl rfl)
  case h_4 => -- task
    rintro rfl hu rfl b rfl c rfl e rfl src hb
    show some (Raw.withA { Raw.base _ _ (fnX _ (_ ++ _ ++ (HMode.ofCode _).code) _) with b := _, c := _, e := _ } src.fields) = _
    rw [src32_ok hc hb, code_hmodeOf, hint_back hu]
    rfl
  case h_5 => -- tgrid
    rintro rfl rfl rfl b rfl c rfl e rfl src hb
    show some (Raw.withA _ src.fields) = _
    rw [src32_ok hc hb]
    rfl
  case h_6 => -- depart
    rintro rfl rfl rfl rfl rfl rfl a rfl src hb
    show some (Raw.withB _ src.fields) = _
    rw [src32_ok hc hb]
    rfl
  case h_7 => -- tend, mswait
    rintro rfl rfl rfl rfl rfl rfl rfl rfl
    obtain rfl := hc.ext64 rfl
    split <;> rename_i hu
    case h_3 => simp
    all_goals
      obtain rfl := sub_of_toNat hu
      simp
      rfl

theorem exact_decodeMatrix {r : Raw} (hc : Canon r) (ho : r.op = 0x7E) : Exact r (decodeMatrix r) := by
  unfold decodeMatrix
  split <;> rename_i hu
  case h_8 => simp
  case h_1 | h_2 | h_3 => exact exact_mmaForm ho _ fun h ty ctl ldc d a b c e => by rw [sub_of_toNat hu]; rfl
  case h_4 | h_5 => exact exact_accForm ho _ fun h ty ctl ldc d c e => by rw [sub_of_toNat hu]; rfl
  all_goals
    obtain ⟨e, c, b, a, d, fn, ch, mg, pg, op, sw, len, ext⟩ := r
    obtain rfl : op = 0x7E := ho
    obtain ⟨t, u, v, rfl⟩ := exists_shapeX fn
    simp only [shapeX_sub] at hu
    obtain rfl := sub_of_toNat hu
    simp [-bind_pure_comp, Raw.len64, Raw.plainX, Raw.unused]
  case h_6 => -- jwait
    rintro rfl rfl hv rfl rfl rfl d rfl a rfl
    obtain rfl := hc.ext64 rfl
    show some (encX _ _ _ (if _ then 1 else 0) _ _ _) = _
    rw [mode_back hv]
    rfl
  case h_7 => -- jpoll
    rintro rfl rfl rfl rfl rfl rfl d rfl a rfl
    obtain rfl := hc.ext64 rfl
    rfl

-- Every table, the bytes of the fields, and the instruction's own bytes.

theorem exact_decodeFields {r : Raw} (hc : Canon r) : Exact r (decodeFields r) := by
  simp only [decodeFields]
  have hop := r.op.isLt
  split
  · exact (exact_error _).2 trivial
  split
  · exact exact_decodeScalar hc
  split
  · exact exact_decodePred hc
  split
  · exact exact_decodeControl hc
  split
  · exact exact_decodeVectorFp hc
  split
  · exact exact_decodeVectorInt hc
  split
  · exact exact_decodeMemory hc
  split
  · exact exact_decodeTask hc
  split <;> rename_i h
  · exact exact_decodeMatrix hc (op_of_toNat h)
  · exact exact_decodeSystem hc (op_of_toNat (n := 0x7F) (by omega))

theorem decodeRaw_ok {r : Raw} {i : Instr} (hc : Canon r) (h : decodeRaw r = .ok i) : i.wf = true ∧ encodeRaw i = some r := by
  unfold decodeRaw at h
  cases hf : decodeFields r with
  | error e => simp [hf] at h
  | ok j =>
    rw [hf] at h
    dsimp only at h
    split at h
    · cases h
      exact ⟨‹_›, exact_decodeFields hc _ hf⟩
    · cases h

theorem leNat_lt (l : List Byte) : leNat l < 256 ^ l.length := by
  induction l with
  | nil => simp [leNat]
  | cons x l ih =>
    have hx := x.isLt
    simp only [leNat, List.length_cons, Nat.pow_succ]
    omega

theorem leBytes_leNat (l : List Byte) : leBytes l.length (leNat l) = l := by
  induction l with
  | nil => rfl
  | cons x l ih =>
    have hx := x.isLt
    have hdiv : (x.toNat + 256 * leNat l) / 256 = leNat l := by omega
    have hbyte : BitVec.ofNat 8 (x.toNat + 256 * leNat l) = x := by
      apply BitVec.eq_of_toNat_eq
      simp
      omega
    rw [List.length_cons, leNat, leBytes, hdiv, hbyte, ih]

/-- The word that decode reads from at most 8 bytes has those bytes. -/
theorem leBytes_word {l : List Byte} (h : l.length ≤ 8) : leBytes l.length (BitVec.ofNat 64 (leNat l)).toNat = l := by
  have hlt := leNat_lt l
  have : 256 ^ l.length ≤ 256 ^ 8 := Nat.pow_le_pow_right (by decide) h
  rw [BitVec.toNat_ofNat, Nat.mod_eq_of_lt (by omega), leBytes_leNat]

/-- The word and the extension that decode reads from n bytes have those bytes. -/
theorem bytes_back {bs : List Byte} {n : Nat} (h8 : 8 ≤ n) (h16 : n ≤ 16) (hlen : n ≤ bs.length) :
    leBytes 8 (BitVec.ofNat 64 (leNat (bs.take 8))).toNat ++ leBytes (n - 8) (BitVec.ofNat 64 (leNat ((bs.take n).drop 8))).toNat ++
      bs.drop n = bs := by
  have hfull : (bs.take 8).length = 8 := List.length_take_of_le (by omega)
  have hpart : ((bs.take n).drop 8).length = n - 8 := by simp [hlen]
  have hword := leBytes_word (Nat.le_of_eq hfull)
  have hext := leBytes_word (l := (bs.take n).drop 8) (by omega)
  rw [hfull] at hword
  rw [hpart] at hext
  have hfirst : bs.take 8 = (bs.take n).take 8 := by rw [List.take_take, Nat.min_eq_left h8]
  rw [hword, hext, hfirst, List.take_append_drop, List.take_append_drop]

/-- LEN of the fields is in the two low bits of the first byte. -/
theorem len_of_word (b : Byte) (l : List Byte) (ext : BitVec 64) :
    (Raw.ofWord (BitVec.ofNat 64 (leNat (b :: l))) ext).len = b.setWidth 2 := by
  apply BitVec.eq_of_toNat_eq
  simp [Raw.ofWord, leNat]
  omega

/-- Where LEN names a length, the fields that decode reads are canonical. -/
theorem canon_ofWord {w : BitVec 64} {l : List Byte} (h0 : lenBytes (Raw.ofWord w 0).len ≠ 0)
    (hl : l.length = lenBytes (Raw.ofWord w 0).len - 8) : Canon (Raw.ofWord w (BitVec.ofNat 64 (leNat l))) := by
  have hlen : ∀ e, (Raw.ofWord w e).len = (Raw.ofWord w 0).len := fun _ => rfl
  have hlt := leNat_lt l
  refine ⟨fun h => h0 (by rw [← hlen, h]; rfl), fun h => ?_, fun h => ?_⟩
  · rw [← hlen, h] at hl
    obtain rfl : l = [] := List.length_eq_zero_iff.1 hl
    rfl
  · rw [← hlen, h] at hl
    have hl4 : l.length = 4 := hl
    rw [hl4] at hlt
    apply BitVec.eq_of_toNat_eq
    simp [Raw.ofWord, Raw.imma]
    omega

/-- What decode answers, of its bytes cut at the length that LEN names. -/
theorem decode_ok {bs rest : List Byte} {i : Instr} (h : decode bs = .ok (i, rest)) :
    ∃ r : Raw, Canon r ∧ decodeRaw r = .ok i ∧ bs = leBytes 8 r.word.toNat ++ leBytes (lenBytes r.len - 8) r.ext.toNat ++ rest := by
  cases bs with
  | nil => cases h
  | cons b l =>
    simp only [decode] at h
    split at h
    · cases h
    split at h
    · cases h
    rename_i h0 hlen
    split at h
    · cases h
    rename_i j hj
    cases h
    have h8 : 8 ≤ lenBytes (b.setWidth 2) ∧ lenBytes (b.setWidth 2) ≤ 16 := by
      revert h0
      generalize b.setWidth 2 = c
      revert c
      decide
    have hw : ∀ e, (Raw.ofWord (BitVec.ofNat 64 (leNat ((b :: l).take 8))) e).len = b.setWidth 2 :=
      fun e => len_of_word b (l.take 7) e
    refine ⟨_, canon_ofWord (by rwa [hw]) ?_, hj, ?_⟩
    · rw [hw]
      simp
      simp at hlen
      omega
    · rw [word_ofWord, hw]
      exact (bytes_back h8.1 h8.2 (by omega)).symm

/-- Settles O2: each table of the decoder answers only instructions whose encoding has the fields that it read, and the
fields hold every bit of the bytes. -/
theorem decodeExact : Obligations.DecodeExact := by
  refine ⟨fun bs rest i h => ?_, fun b bs h => ?_⟩
  · obtain ⟨r, hc, hr, hbs⟩ := decode_ok h
    obtain ⟨hwf, henc⟩ := decodeRaw_ok hc hr
    exact ⟨hwf, by rw [hbs, encode, henc]⟩
  · have : b.setWidth 2 = 3 := by
      apply BitVec.eq_of_toNat_eq
      simpa using h
    simp [decode, this, lenBytes]
end Sys2Proof.Proofs
end

