-- ==== Sys2Proof/Proofs/ResetState.lean ====
section
/-! The state after reset (R8, R178). -/
namespace Sys2Proof.Proofs
open Sys2Proof Sys2Proof.Machine

/-- TILE_FENCE of a tile number past the package's 256 is looked up past the four TILE_FENCE words: word 280 is LODGE_CFG (0x200),
whose reset value has CQLIM = 64, so bit 6 is set. -/
theorem fenced_reset_past_tiles : State.reset.fenced (64 * 280 + 6) = true := by decide

/-- Refutes O9: it says that no tile number at all is fenced, and number 17926, which no tile has, reads bit 6 of LODGE_CFG. -/
theorem not_resetState : ¬ Obligations.ResetState := by
  unfold Obligations.ResetState
  rintro ⟨-, -, -, -, -, -, -, -, -, -, hfenced, -⟩
  have hword : State.reset.fenced (64 * 280 + 6) = false := hfenced _
  rw [fenced_reset_past_tiles] at hword
  cases hword

end Sys2Proof.Proofs
end

