-- ==== Sys2Proof/Proofs/Registers.lean ====
section
/-! Device registers: the fields of a number after one of them is replaced, a register after a write (R5), and which registers
the contents of memory depend on (R18, R28). -/
namespace Sys2Proof.Proofs
open Sys2Proof Sys2Proof.Machine Sys2Proof.Laws

-- Fields of numbers.

theorem testBit_bitsOf (x lo n k : Nat) : (bitsOf x lo n).testBit k = (decide (k < n) && x.testBit (lo + k)) := by
  rw [bitsOf, Nat.testBit_mod_two_pow, Nat.testBit_shiftRight]

theorem testBit_putField (x lo n v k : Nat) :
    (putField x lo n v).testBit k = if lo ≤ k ∧ k < lo + n then v.testBit (k - lo) else x.testBit k := by
  have hlow : x % 2 ^ lo < 2 ^ lo := Nat.mod_lt _ (Nat.two_pow_pos lo)
  have hmid : ∀ m, m % 2 ^ n < 2 ^ n := fun m => Nat.mod_lt _ (Nat.two_pow_pos n)
  have hx : x = 2 ^ lo * (2 ^ n * (x / 2 ^ lo / 2 ^ n) + x / 2 ^ lo % 2 ^ n) + x % 2 ^ lo := by
    rw [Nat.div_add_mod, Nat.div_add_mod]
  have hput : putField x lo n v = 2 ^ lo * (2 ^ n * (x / 2 ^ lo / 2 ^ n) + v % 2 ^ n) + x % 2 ^ lo := by
    have hbits : bitsOf x lo n = x / 2 ^ lo % 2 ^ n := by rw [bitsOf, Nat.shiftRight_eq_div_pow]
    rw [putField, hbits, Nat.shiftLeft_eq, Nat.shiftLeft_eq]
    conv => lhs; lhs; lhs; rw [hx]
    rw [Nat.mul_add, Nat.mul_add, Nat.mul_comm _ (2 ^ lo), Nat.mul_comm _ (2 ^ lo)]
    omega
  conv => rhs; rhs; rw [hx]
  rw [hput, Nat.testBit_two_pow_mul_add _ hlow, Nat.testBit_two_pow_mul_add _ hlow, Nat.testBit_two_pow_mul_add _ (hmid _),
    Nat.testBit_two_pow_mul_add _ (hmid _), Nat.testBit_mod_two_pow]
  by_cases h1 : k < lo
  · simp [h1, Nat.not_le.2 h1]
  · by_cases h2 : k < lo + n
    · have h3 : k - lo < n := by omega
      simp [h1, h2, h3, Nat.not_lt.1 h1]
    · have h3 : ¬ k - lo < n := by omega
      simp [h1, h2, h3]

theorem bitsOf_putField_same (x lo n v : Nat) : bitsOf (putField x lo n v) lo n = v % 2 ^ n := by
  apply Nat.eq_of_testBit_eq
  intro k
  rw [testBit_bitsOf, testBit_putField, Nat.testBit_mod_two_pow]
  by_cases h : k < n <;> simp [h]

theorem bitsOf_putField_other {x lo n v lo' n' : Nat} (h : lo' + n' ≤ lo ∨ lo + n ≤ lo') :
    bitsOf (putField x lo n v) lo' n' = bitsOf x lo' n' := by
  apply Nat.eq_of_testBit_eq
  intro k
  rw [testBit_bitsOf, testBit_bitsOf, testBit_putField]
  by_cases hk : k < n'
  · rw [if_neg (by omega)]
  · simp [hk]

theorem bitOf_putField_same (x k v : Nat) : bitOf (putField x k 1 v) k = v.testBit 0 := by
  rw [bitOf, testBit_putField, if_pos (by omega), Nat.sub_self]

theorem bitOf_putField_other {x lo n v k : Nat} (h : k < lo ∨ lo + n ≤ k) : bitOf (putField x lo n v) k = bitOf x k := by
  rw [bitOf, testBit_putField, if_neg (by omega), bitOf]

theorem bitsOf_mod {x lo n : Nat} (h : lo + n ≤ 64) : bitsOf (x % 2 ^ 64) lo n = bitsOf x lo n := by
  apply Nat.eq_of_testBit_eq
  intro k
  rw [testBit_bitsOf, testBit_bitsOf, Nat.testBit_mod_two_pow]
  by_cases hk : k < n
  · simp [hk, show lo + k < 64 by omega]
  · simp [hk]

theorem bitsOf_lt (x lo n : Nat) : bitsOf x lo n < 2 ^ n := Nat.mod_lt _ (Nat.two_pow_pos n)

theorem bitsOf_bitsOf_same (x lo n : Nat) : bitsOf x lo n % 2 ^ n = bitsOf x lo n := Nat.mod_eq_of_lt (bitsOf_lt x lo n)

-- A register after a write.

theorem reg_congr {s u : State} {k : Nat} (h : Sparse.get? u.regs k = Sparse.get? s.regs k) : u.reg k = s.reg k := by
  unfold State.reg
  rw [h]

theorem reg_setReg_same (s : State) (k v : Nat) : (s.setReg k v).reg k = v % 2 ^ 64 := by
  simp [State.reg, State.setReg, get?_set_same]

theorem reg_setReg_other {s : State} {k o v : Nat} (h : o ≠ k) : (s.setReg k v).reg o = s.reg o :=
  reg_congr (get?_set_other _ _ _ _ h)

theorem reg_onReg_other {s : State} {k o : Nat} {f : Nat → Nat} (h : o ≠ k) : (s.onReg k f).reg o = s.reg o := reg_setReg_other h

theorem bitsOf_onReg {s : State} {k lo n : Nat} {f : Nat → Nat} (h : lo + n ≤ 64) :
    bitsOf ((s.onReg k f).reg k) lo n = bitsOf (f (s.reg k)) lo n := by
  rw [State.onReg, reg_setReg_same, bitsOf_mod h]

theorem bitOf_onReg {s : State} {k b : Nat} {f : Nat → Nat} (h : b < 64) :
    bitOf ((s.onReg k f).reg k) b = bitOf (f (s.reg k)) b := by
  rw [State.onReg, reg_setReg_same, bitOf, Nat.testBit_mod_two_pow, bitOf]
  simp [h]

theorem testBit_maskedWrite (r : RegSpec) (old v : Nat) {k : Nat} (hk : k < 64) :
    (maskedWrite r old v).testBit k =
      ((if r.rw.testBit k then v.testBit k else old.testBit k) && !(r.w1c.testBit k && v.testBit k)) := by
  rw [maskedWrite, ← BitVec.getLsbD]
  simp only [BitVec.getLsbD_and, BitVec.getLsbD_or, BitVec.getLsbD_not, BitVec.getLsbD_ofNat, hk, decide_true, Bool.true_and]
  cases r.rw.testBit k <;> cases r.w1c.testBit k <;> cases v.testBit k <;> cases old.testBit k <;> rfl

-- Registers that memory's contents depend on.

/-- The registers that say where a line of physical memory is: SPREAD_SIZE, the hash masks and the fabric's routes. -/
def mapsMemory (k : Nat) : Prop := k = 0x008 ∨ (0x020 ≤ k ∧ k ≤ 0x02C) ∨ (0x100 ≤ k ∧ k ≤ 0x1FF)

theorem window_congr {s u : State} (h : ∀ k, mapsMemory k → u.reg k = s.reg k) (pa : Nat) : u.window pa = s.window pa := by
  have hspread : u.spread = s.spread := by rw [State.spread, State.spread, h _ (.inl rfl)]
  have hroute : u.reg (0x100 + bitsOf pa 42 8) = s.reg (0x100 + bitsOf pa 42 8) :=
    h _ (.inr (.inr (by have := bitsOf_lt pa 42 8; omega)))
  rw [State.window, State.window, hspread, hroute]

theorem hashOut_congr {s u : State} (h : ∀ k, mapsMemory k → u.reg k = s.reg k) (m : Nat) {k : Nat} (hk : k ≤ 12) :
    u.hashOut m k = s.hashOut m k := by
  rw [State.hashOut, State.hashOut, h _ (.inr (.inl (by omega)))]

theorem slotOf_congr {s u : State} (h : ∀ k, mapsMemory k → u.reg k = s.reg k) (line : Nat) : u.slotOf line = s.slotOf line := by
  have hspread : u.spread = s.spread := by rw [State.spread, State.spread, h _ (.inl rfl)]
  simp (disch := decide) only [State.slotOf, State.mapping, State.stackOf, State.rowOf, window_congr h, hashOut_congr h, hspread]

theorem lineAt_congr {s u : State} (h : ∀ k, mapsMemory k → u.reg k = s.reg k) (hmem : u.mem = s.mem) (line key : Nat) :
    u.lineAt line key = s.lineAt line key := by
  simp only [State.lineAt, State.hbmLine, State.keyAt, window_congr h, slotOf_congr h, hmem]

/-- A state that differs in no memory, no stash byte and no register that says where memory is holds the same bytes. -/
theorem sameBytes_of_eq {s u : State} (h : ∀ k, mapsMemory k → u.reg k = s.reg k) (hmem : u.mem = s.mem)
    (hstash : u.stash.cells = s.stash.cells) : s.SameBytes u :=
  ⟨fun pa key => by rw [State.byteAt, State.byteAt, lineAt_congr h hmem], fun a => by rw [hstash]⟩

theorem ne_of_mapsMemory {k o : Nat} (hk : mapsMemory k) (ho : 0x200 ≤ o) : k ≠ o := by
  unfold mapsMemory at hk
  omega

end Sys2Proof.Proofs
end

