-- ==== Sys2Proof/Proofs/TileHalt.lean ====
section
/-! The tile debug modules (R277, R278): what a halt, a cross-trigger, a resume and a step change and leave as it was. -/
namespace Sys2Proof.Proofs
open Sys2Proof Sys2Proof.Machine Sys2Proof.Laws

theorem mem_insertNat (l : List Nat) (n t : Nat) : t ∈ insertNat l n ↔ t = n ∨ t ∈ l := by
  induction l with
  | nil => simp [insertNat]
  | cons a r ih =>
    rw [insertNat]
    split
    · simp
    split
    · rename_i h
      simp [h]
    · simp only [List.mem_cons, ih]
      tauto

theorem halted_iff (s : State) (tile : Nat) : s.halted tile = true ↔ tile ∈ s.dbg.halted := List.contains_iff_mem

-- CAUSE, SLOT and REQ (R277).

section
variable (s : State) (tile cause slot : Nat)

theorem reg_dbgCause_other {o : Nat} (h : o ≠ dbgReg tile) : (s.dbgCause tile cause slot).reg o = s.reg o := reg_onReg_other h

theorem cause_dbgCause : bitsOf ((s.dbgCause tile cause slot).reg (dbgReg tile)) 60 3 = cause % 2 ^ 3 := by
  rw [State.dbgCause, bitsOf_onReg (by decide), bitsOf_putField_other (by decide), bitsOf_putField_other (by decide),
    bitsOf_putField_same]

theorem slot_dbgCause : bitsOf ((s.dbgCause tile cause slot).reg (dbgReg tile)) 54 6 = slot % 2 ^ 6 := by
  rw [State.dbgCause, bitsOf_onReg (by decide), bitsOf_putField_other (by decide), bitsOf_putField_same]

theorem req_dbgCause : bitsOf ((s.dbgCause tile cause slot).reg (dbgReg tile)) 0 2 = 0 := by
  rw [State.dbgCause, bitsOf_onReg (by decide), bitsOf_putField_same]
  rfl

theorem dbgGroup_dbgCause (t : Nat) : (s.dbgCause tile cause slot).dbgGroup t = s.dbgGroup t := by
  by_cases h : dbgReg t = dbgReg tile
  · rw [State.dbgGroup, State.dbgGroup, h, State.dbgCause, bitsOf_onReg (by decide), bitsOf_putField_other (by decide),
      bitsOf_putField_other (by decide), bitsOf_putField_other (by decide)]
  · rw [State.dbgGroup, State.dbgGroup, reg_dbgCause_other _ _ _ _ h]
end

-- The cross-trigger of a tile (R278).

section
variable (s : State) (tile : Nat)

theorem sendTrigger_eq : s.sendTrigger tile = { s with dbg := { s.dbg with triggers := (s.sendTrigger tile).dbg.triggers } } := by
  unfold State.sendTrigger
  split <;> rfl

@[simp] theorem sendTrigger_halted : (s.sendTrigger tile).dbg.halted = s.dbg.halted := by rw [sendTrigger_eq]
@[simp] theorem sendTrigger_stepping : (s.sendTrigger tile).dbg.stepping = s.dbg.stepping := by rw [sendTrigger_eq]
@[simp] theorem sendTrigger_threads : (s.sendTrigger tile).threads = s.threads := by rw [sendTrigger_eq]
@[simp] theorem sendTrigger_mem : (s.sendTrigger tile).mem = s.mem := by rw [sendTrigger_eq]
@[simp] theorem sendTrigger_stash : (s.sendTrigger tile).stash = s.stash := by rw [sendTrigger_eq]
@[simp] theorem sendTrigger_reg (k : Nat) : (s.sendTrigger tile).reg k = s.reg k := by
  rw [sendTrigger_eq]
  rfl

theorem mem_sendTrigger (t : Nat) : t ∈ (s.sendTrigger tile).dbg.triggers ↔ (t = tile ∧ s.dbgGroup tile ≠ 0) ∨ t ∈ s.dbg.triggers := by
  unfold State.sendTrigger
  split
  · rename_i h
    simp [h]
  · rename_i h
    simp [mem_insertNat, h]
end

-- A tile halts.

section
variable (s : State) (tile cause slot : Nat)

theorem haltTile_stays (h : 256 ≤ tile ∨ tile ∈ s.dbg.halted) : s.haltTile tile cause slot = s :=
  if_pos (h.imp_right (halted_iff s tile).2)

/-- The state of a tile as it halts, before it sends its cross-trigger. -/
def stopped : State := { s.dbgCause tile cause slot with dbg := { s.dbg with halted := insertNat s.dbg.halted tile } }

theorem haltTile_runs (hlt : tile < 256) (hn : tile ∉ s.dbg.halted) :
    s.haltTile tile cause slot = (stopped s tile cause slot).sendTrigger tile :=
  if_neg fun h => h.elim (by omega) fun hm => hn ((halted_iff s tile).1 hm)

/-- A halt is either nothing, or the stop with its cross-trigger. -/
theorem haltTile_cases : s.haltTile tile cause slot = s ∨ s.haltTile tile cause slot = (stopped s tile cause slot).sendTrigger tile := by
  unfold State.haltTile
  split
  · exact .inl rfl
  · exact .inr rfl

theorem haltTile_eq : s.haltTile tile cause slot =
    { s with regs := (s.haltTile tile cause slot).regs, dbg := (s.haltTile tile cause slot).dbg } := by
  rcases haltTile_cases s tile cause slot with h | h <;> rw [h]
  rw [sendTrigger_eq]
  rfl

@[simp] theorem haltTile_threads : (s.haltTile tile cause slot).threads = s.threads := by rw [haltTile_eq]
@[simp] theorem haltTile_mem : (s.haltTile tile cause slot).mem = s.mem := by rw [haltTile_eq]
@[simp] theorem haltTile_stash : (s.haltTile tile cause slot).stash = s.stash := by rw [haltTile_eq]

theorem reg_haltTile_other {o : Nat} (h : o ≠ dbgReg tile) : (s.haltTile tile cause slot).reg o = s.reg o := by
  rcases haltTile_cases s tile cause slot with e | e <;> rw [e]
  rw [sendTrigger_reg]
  exact reg_dbgCause_other s tile cause slot h

theorem mem_haltTile (t : Nat) :
    t ∈ (s.haltTile tile cause slot).dbg.halted ↔ (t = tile ∧ tile < 256) ∨ t ∈ s.dbg.halted := by
  by_cases h : 256 ≤ tile ∨ tile ∈ s.dbg.halted
  · rw [haltTile_stays _ _ _ _ h]
    constructor
    · exact .inr
    · rintro (⟨rfl, ht⟩ | ht)
      · exact h.resolve_left (by omega)
      · exact ht
  · rw [haltTile_runs _ _ _ _ (by omega) (fun hm => h (.inr hm)), sendTrigger_halted]
    show t ∈ insertNat s.dbg.halted tile ↔ _
    rw [mem_insertNat]
    simp [show tile < 256 by omega]

theorem cause_haltTile (hlt : tile < 256) (hn : tile ∉ s.dbg.halted) :
    bitsOf ((s.haltTile tile cause slot).reg (dbgReg tile)) 60 3 = cause % 2 ^ 3 := by
  rw [haltTile_runs _ _ _ _ hlt hn, sendTrigger_reg]
  exact cause_dbgCause s tile cause slot

theorem sameBytes_haltTile : s.SameBytes (s.haltTile tile cause slot) :=
  sameBytes_of_eq (fun k hk => reg_haltTile_other s tile cause slot (ne_of_mapsMemory hk (by unfold dbgReg; omega)))
    (haltTile_mem s tile cause slot) (by rw [haltTile_stash])
end

theorem dbgHalt_spec {s : State} {tile : Nat} (hlt : tile < 256) (hn : tile ∉ s.dbg.halted) :
    let u := s.haltTile tile 1 0
    bitsOf (u.reg (dbgReg tile)) 60 3 = 1 ∧ bitsOf (u.reg (dbgReg tile)) 54 6 = 0 ∧ bitsOf (u.reg (dbgReg tile)) 0 2 = 0 ∧
      (∀ t, t ∈ u.dbg.halted ↔ t = tile ∨ t ∈ s.dbg.halted) ∧
      (∀ t, t ∈ u.dbg.triggers ↔ (t = tile ∧ s.dbgGroup tile ≠ 0) ∨ t ∈ s.dbg.triggers) ∧
      u = { s with regs := u.regs, dbg := u.dbg } ∧ s.SameBytes u := by
  refine ⟨cause_haltTile s tile 1 0 hlt hn, ?_, ?_, fun t => ?_, fun t => ?_, haltTile_eq s tile 1 0, sameBytes_haltTile s tile 1 0⟩
  · rw [haltTile_runs _ _ _ _ hlt hn, sendTrigger_reg]
    exact slot_dbgCause s tile 1 0
  · rw [haltTile_runs _ _ _ _ hlt hn, sendTrigger_reg]
    exact req_dbgCause s tile 1 0
  · simp [mem_haltTile, hlt]
  · rw [haltTile_runs _ _ _ _ hlt hn, mem_sendTrigger]
    show (_ ∧ (s.dbgCause tile 1 0).dbgGroup tile ≠ 0) ∨ _ ↔ _
    rw [dbgGroup_dbgCause]
    rfl

-- Tiles halt one after another (R278, R284).

/-- Several tiles halt for one cause. -/
def haltAll (s : State) (cause : Nat) (ts : List Nat) : State := ts.foldl (fun s t => s.haltTile t cause 0) s

section
variable (cause : Nat) (ts : List Nat) (s : State)

theorem haltAll_eq : haltAll s cause ts = { s with regs := (haltAll s cause ts).regs, dbg := (haltAll s cause ts).dbg } := by
  induction ts generalizing s with
  | nil => rfl
  | cons t ts ih =>
    exact (ih (s.haltTile t cause 0)).trans (congrArg
      (fun v : State => { v with regs := (haltAll s cause (t :: ts)).regs, dbg := (haltAll s cause (t :: ts)).dbg })
      (haltTile_eq s t cause 0))

@[simp] theorem haltAll_threads : (haltAll s cause ts).threads = s.threads := by rw [haltAll_eq]

theorem mem_haltAll (t : Nat) : t ∈ (haltAll s cause ts).dbg.halted ↔ (t ∈ ts ∧ t < 256) ∨ t ∈ s.dbg.halted := by
  induction ts generalizing s with
  | nil => simp [haltAll]
  | cons x ts ih =>
    show t ∈ (haltAll (s.haltTile x cause 0) cause ts).dbg.halted ↔ _
    rw [ih, mem_haltTile, List.mem_cons]
    constructor
    · rintro (h | ⟨rfl, h⟩ | h)
      · exact .inl ⟨.inr h.1, h.2⟩
      · exact .inl ⟨.inl rfl, h⟩
      · exact .inr h
    · rintro (⟨rfl | h, hlt⟩ | h)
      · exact .inr (.inl ⟨rfl, hlt⟩)
      · exact .inl ⟨h, hlt⟩
      · exact .inr (.inr h)

theorem reg_haltAll_other {o : Nat} (h : ∀ t ∈ ts, o ≠ dbgReg t) : (haltAll s cause ts).reg o = s.reg o := by
  induction ts generalizing s with
  | nil => rfl
  | cons t ts ih =>
    exact (ih (s.haltTile t cause 0) fun x hx => h x (List.mem_cons_of_mem _ hx)).trans
      (reg_haltTile_other s t cause 0 (h t List.mem_cons_self))

/-- Once a tile is halted no further halt changes its register. -/
theorem reg_haltAll_halted {t : Nat} (h : t ∈ s.dbg.halted) : (haltAll s cause ts).reg (dbgReg t) = s.reg (dbgReg t) := by
  induction ts generalizing s with
  | nil => rfl
  | cons x ts ih =>
    refine (ih (s.haltTile x cause 0) ((mem_haltTile ..).2 (.inr h))).trans ?_
    by_cases hx : x = t
    · rw [haltTile_stays _ _ _ _ (.inr (hx ▸ h))]
    · exact reg_haltTile_other s x cause 0 (by unfold dbgReg; omega)

theorem cause_haltAll {t : Nat} (ht : t ∈ ts) (hlt : t < 256) (hn : t ∉ s.dbg.halted) :
    bitsOf ((haltAll s cause ts).reg (dbgReg t)) 60 3 = cause % 2 ^ 3 := by
  induction ts generalizing s with
  | nil => cases ht
  | cons x ts ih =>
    show bitsOf ((haltAll (s.haltTile x cause 0) cause ts).reg (dbgReg t)) 60 3 = _
    by_cases hx : x = t
    · subst hx
      rw [reg_haltAll_halted _ _ _ ((mem_haltTile ..).2 (.inl ⟨rfl, hlt⟩)), cause_haltTile s x cause 0 hlt hn]
    · have hts : t ∈ ts := (List.mem_cons.1 ht).resolve_left fun e => hx e.symm
      exact ih _ hts fun hm => ((mem_haltTile ..).1 hm).elim (fun e => hx e.1.symm) hn

theorem sameBytes_haltAll : s.SameBytes (haltAll s cause ts) :=
  sameBytes_of_eq (fun k hk => reg_haltAll_other cause ts s fun _ _ => ne_of_mapsMemory hk (by unfold dbgReg; omega))
    (by rw [haltAll_eq]) (by rw [haltAll_eq])
end

-- A cross-trigger (R278).

/-- The tiles that a tile's cross-trigger halts. -/
def joining (s : State) (tile : Nat) : List Nat :=
  (List.range 256).filter fun t => t != tile && s.dbgGroup tile != 0 && s.dbgGroup t == s.dbgGroup tile && !s.halted t

theorem mem_joining (s : State) (tile t : Nat) :
    t ∈ joining s tile ↔ (t < 256 ∧ t ≠ tile ∧ s.dbgGroup tile ≠ 0 ∧ s.dbgGroup t = s.dbgGroup tile) ∧ t ∉ s.dbg.halted := by
  simp [joining, State.halted, and_assoc]

theorem crossTrig_stays {s : State} {tile : Nat} (h : tile ∉ s.dbg.triggers) : s.crossTrig tile = s :=
  if_pos (by simpa using h)

theorem crossTrig_sent {s : State} {tile : Nat} (h : tile ∈ s.dbg.triggers) :
    s.crossTrig tile = haltAll { s with dbg := { s.dbg with triggers := s.dbg.triggers.filter (· != tile) } } 3 (joining s tile) :=
  if_neg (by simpa using h)

theorem crossTrigger_spec {s : State} {tile : Nat} (h : tile ∈ s.dbg.triggers) :
    let joins (t : Nat) : Prop := t < 256 ∧ t ≠ tile ∧ s.dbgGroup tile ≠ 0 ∧ s.dbgGroup t = s.dbgGroup tile
    let u := s.crossTrig tile
    (∀ t, t ∈ u.dbg.halted ↔ t ∈ s.dbg.halted ∨ joins t) ∧
      (∀ t, joins t → t ∉ s.dbg.halted → bitsOf (u.reg (dbgReg t)) 60 3 = 3) ∧ u.threads = s.threads ∧ s.SameBytes u := by
  rw [crossTrig_sent h]
  refine ⟨fun t => ?_, fun t ht hn => ?_, by rw [haltAll_eq], sameBytes_haltAll 3 (joining s tile) _⟩
  · rw [mem_haltAll, mem_joining]
    show (_ ∧ t < 256) ∨ t ∈ s.dbg.halted ↔ _
    tauto
  · exact cause_haltAll 3 _ _ ((mem_joining ..).2 ⟨ht, hn⟩) ht.1 hn

end Sys2Proof.Proofs
end

