-- ==== Sys2Proof/Proofs/TileResume.lean ====
section
/-! A tile resumes and steps (R277, R280): its threads at a BKPT go on, and a step waits for the threads that may issue. -/
namespace Sys2Proof.Proofs
open Sys2Proof Sys2Proof.Machine Sys2Proof.Laws

-- The threads of a tile.

theorem get?_of_mem {α : Type} {m : Sparse α} (hs : Sparse.sorted m = true) {k : Nat} {v : α} (h : (k, v) ∈ m) :
    Sparse.get? m k = some v := by
  induction m with
  | nil => cases h
  | cons e r ih =>
    obtain ⟨a, w⟩ := e
    obtain ⟨habove, hr⟩ := (sorted_cons a w r).1 hs
    rcases List.mem_cons.1 h with e | hm
    · cases e
      exact if_pos rfl
    · have : a < k := habove _ hm
      rw [Sparse.get?, if_neg (by omega), ih hr hm]

theorem mem_of_get? {α : Type} {m : Sparse α} {k : Nat} {v : α} (h : Sparse.get? m k = some v) : (k, v) ∈ m := by
  induction m with
  | nil => cases h
  | cons e r ih =>
    obtain ⟨a, w⟩ := e
    rw [Sparse.get?] at h
    split at h
    · rename_i hk
      cases h
      exact hk ▸ List.mem_cons_self
    · exact List.mem_cons_of_mem _ (ih h)

theorem pairwise_keys {α : Type} {m : Sparse α} (hs : Sparse.sorted m = true) : m.Pairwise fun x y => x.1 ≠ y.1 := by
  induction m with
  | nil => exact List.Pairwise.nil
  | cons e r ih =>
    obtain ⟨habove, hr⟩ := (sorted_cons e.1 e.2 r).1 hs
    exact List.pairwise_cons.2 ⟨fun y hy => (habove y hy).ne, ih hr⟩

theorem mem_tileThreads {s : State} {tile : Nat} {x : Nat × Thread} : x ∈ s.tileThreads tile ↔ x ∈ s.threads ∧ tileOf x.1 = tile := by
  simp [State.tileThreads]

-- Going on after a BKPT (R277).

/-- A thread as it goes on when its tile does. -/
def pastBkpt (cycle : Nat) (t : Thread) : Thread :=
  if t.park = .bkpt then { t.advance 8 with park := .run, lastIssue := cycle } else t

/-- One slot's thread goes on. -/
def passOne (s : State) (x : Nat × Thread) : State :=
  if x.2.park == .bkpt then s.onThread x.1 fun t => { t.advance 8 with park := .run, lastIssue := s.cycle } else s

theorem passBkpt_eq_foldl (s : State) (tile : Nat) : s.passBkpt tile = (s.tileThreads tile).foldl passOne s := rfl

theorem passOne_eq (s : State) (x : Nat × Thread) : passOne s x = { s with threads := (passOne s x).threads } := by
  unfold passOne State.onThread
  split
  · split <;> rfl
  · rfl

theorem thread_passOne_same {s : State} {x : Nat × Thread} (h : s.thread? x.1 = some x.2) :
    (passOne s x).thread? x.1 = some (pastBkpt s.cycle x.2) := by
  unfold passOne pastBkpt
  split <;> rename_i hb
  · rw [onThread_eq s _ _ _ h, thread?_setThread, if_pos (by simpa using hb)]
  · rw [h, if_neg (by simpa using hb)]

theorem thread_passOne_other {s : State} {x : Nat × Thread} {th : Nat} (h : th ≠ x.1) : (passOne s x).thread? th = s.thread? th := by
  unfold passOne
  split
  · unfold State.onThread
    split
    · rfl
    · exact thread?_setThread_other s x.1 th _ h
  · rfl

theorem passAll_eq (l : List (Nat × Thread)) (s : State) : l.foldl passOne s = { s with threads := (l.foldl passOne s).threads } := by
  induction l generalizing s with
  | nil => rfl
  | cons x l ih =>
    exact (ih (passOne s x)).trans (congrArg (fun v : State => { v with threads := ((x :: l).foldl passOne s).threads }) (passOne_eq s x))

theorem thread_passAll_other {l : List (Nat × Thread)} {th : Nat} (h : ∀ x ∈ l, x.1 ≠ th) (s : State) :
    (l.foldl passOne s).thread? th = s.thread? th := by
  induction l generalizing s with
  | nil => rfl
  | cons x l ih =>
    exact (ih (fun y hy => h y (List.mem_cons_of_mem _ hy)) (passOne s x)).trans
      (thread_passOne_other (h x List.mem_cons_self).symm)

theorem thread_passAll_mem {l : List (Nat × Thread)} (hd : l.Pairwise fun x y => x.1 ≠ y.1) {s : State}
    (hs : ∀ x ∈ l, s.thread? x.1 = some x.2) {x : Nat × Thread} (hx : x ∈ l) :
    (l.foldl passOne s).thread? x.1 = some (pastBkpt s.cycle x.2) := by
  induction l generalizing s with
  | nil => cases hx
  | cons y l ih =>
    obtain ⟨hy, hl⟩ := List.pairwise_cons.1 hd
    rcases List.mem_cons.1 hx with rfl | hm
    · exact (thread_passAll_other (fun z hz => (hy z hz).symm) (passOne s x)).trans (thread_passOne_same (hs x List.mem_cons_self))
    · have hcycle : (passOne s y).cycle = s.cycle := by rw [passOne_eq]
      have := ih hl (s := passOne s y) (fun z hz => by
        rw [thread_passOne_other (hy z hz).symm]
        exact hs z (List.mem_cons_of_mem _ hz)) hm
      rwa [hcycle] at this

section
variable (s : State) (tile : Nat)

theorem thread_passBkpt (hs : Sparse.sorted s.threads = true) {th : Nat} {t : Thread} (ht : tileOf th = tile)
    (h : s.thread? th = some t) : (s.passBkpt tile).thread? th = some (pastBkpt s.cycle t) :=
  thread_passAll_mem (l := s.tileThreads tile) ((pairwise_keys hs).filter _)
    (fun _ hx => get?_of_mem hs (mem_tileThreads.1 hx).1) (mem_tileThreads.2 ⟨mem_of_get? h, ht⟩)

theorem thread_passBkpt_other {th : Nat} (ht : tileOf th ≠ tile) : (s.passBkpt tile).thread? th = s.thread? th :=
  thread_passAll_other (fun x hx e => by
    subst e
    exact ht (mem_tileThreads.1 hx).2) s

theorem passBkpt_eq : s.passBkpt tile = { s with threads := (s.passBkpt tile).threads } := passAll_eq _ s

theorem passBkpt_none (h : ∀ x ∈ s.tileThreads tile, x.2.park ≠ .bkpt) : s.passBkpt tile = s := by
  rw [passBkpt_eq_foldl]
  revert h
  induction s.tileThreads tile with
  | nil => exact fun _ => rfl
  | cons x l ih =>
    intro h
    have hx : passOne s x = s := if_neg (by simpa using h x List.mem_cons_self)
    rw [List.foldl_cons, hx, ih fun y hy => h y (List.mem_cons_of_mem _ hy)]

-- What the host wrote to a tile's windows (R280).

theorem patchThread_unwritten (h : s.dbg.window = []) (th : Nat) : s.patchThread th = s := by
  unfold State.patchThread
  rw [h]
  split <;> rfl

/-- With nothing written the threads of a tile stay as they are. -/
theorem patchTile_unwritten (h : s.dbg.window = []) : s.patchTile tile = s := by
  unfold State.patchTile
  rw [List.foldl_fixed' fun x => patchThread_unwritten s h x.1]
  have hnone : s.dbg.window.filter (fun p => tileOf (windowSlot p.1).1 != tile) = s.dbg.window := by rw [h, List.filter_nil]
  exact congrArg (fun w => { s with dbg := { s.dbg with window := w } }) hnone
end

-- DBG_RESUME (R277).

theorem resumeTile_stays {s : State} {tile : Nat} (h : tile ∉ s.dbg.halted) : s.resumeTile tile = s :=
  if_pos (by simpa [State.halted] using h)

theorem resumeTile_runs {s : State} {tile : Nat} (h : tile ∈ s.dbg.halted) (hw : s.dbg.window = []) :
    s.resumeTile tile =
      { (s.dbgCause tile 0 0).passBkpt tile with
        dbg := { s.dbg with halted := s.dbg.halted.filter (· != tile), stepping := s.dbg.stepping.filter fun th => tileOf th != tile } } := by
  have hdbg : ((s.dbgCause tile 0 0).passBkpt tile).dbg = s.dbg := by rw [passBkpt_eq]; rfl
  unfold State.resumeTile
  rw [if_neg (by simpa [State.halted] using h)]
  dsimp only
  rw [patchTile_unwritten _ _ (by rw [hdbg, hw]), hdbg]

theorem dbgResume_spec {s : State} {tile : Nat} (h : tile ∈ s.dbg.halted) (hw : s.dbg.window = [])
    (hs : Sparse.sorted s.threads = true) :
    let u := s.resumeTile tile
    bitsOf (u.reg (dbgReg tile)) 60 3 = 0 ∧ u.dbg.halted = s.dbg.halted.filter (· != tile) ∧
      (∀ th, tileOf th ≠ tile → u.thread? th = s.thread? th) ∧ s.SameBytes u ∧
      ∀ th t, tileOf th = tile → s.thread? th = some t → u.thread? th = some (pastBkpt s.cycle t) := by
  have hreg : ∀ k, (s.resumeTile tile).reg k = (s.dbgCause tile 0 0).reg k := fun k => by
    rw [resumeTile_runs h hw, passBkpt_eq]
    rfl
  have hthread : ∀ th, (s.resumeTile tile).thread? th = ((s.dbgCause tile 0 0).passBkpt tile).thread? th := fun th => by
    rw [resumeTile_runs h hw]
    rfl
  refine ⟨?_, by rw [resumeTile_runs h hw], fun th ht => ?_, ?_, fun th t ht hth => ?_⟩
  · rw [hreg]
    exact cause_dbgCause s tile 0 0
  · rw [hthread, thread_passBkpt_other _ _ ht]
    rfl
  · refine sameBytes_of_eq (fun k hk => ?_) ?_ ?_
    · rw [hreg]
      exact reg_dbgCause_other s tile 0 0 (ne_of_mapsMemory hk (by unfold dbgReg; omega))
    · rw [resumeTile_runs h hw, passBkpt_eq]
      rfl
    · rw [resumeTile_runs h hw, passBkpt_eq]
      rfl
  · rw [hthread]
    exact thread_passBkpt (s.dbgCause tile 0 0) tile hs ht hth

-- DBG_STEP (R277).

/-- The slots that a step of a tile lets issue, where no thread of it is at a BKPT. -/
def stepReady (s : State) (tile : Nat) : List Nat :=
  ((s.tileThreads tile).filter fun x => !isInnkeeperCore (coreOf x.1) && s.runIssues x.2 && !(x.2.outs.any fun o => o.sc) &&
    s.wakes x.1 x.2).map fun x => x.1

/-- A tile as its step begins. -/
def stepping (s : State) (tile : Nat) : State :=
  { s.onReg (dbgReg tile) (fun v => putField v 0 2 3) with dbg := { s.dbg with stepping := s.dbg.stepping ++ stepReady s tile } }

theorem stepTile_stays {s : State} {tile : Nat} (h : tile ∉ s.dbg.halted) : s.stepTile tile = s :=
  if_pos (by simp [State.halted, h])

theorem stepTile_runs {s : State} {tile : Nat} (h : tile ∈ s.dbg.halted) (hw : s.dbg.window = [])
    (hn : ∀ th ∈ s.dbg.stepping, tileOf th ≠ tile) (hb : ∀ x ∈ s.tileThreads tile, x.2.park ≠ .bkpt) :
    s.stepTile tile = (stepping s tile).stepDone tile := by
  have hpast : (s.tileThreads tile).filter (fun x => x.2.park == .bkpt) = [] :=
    List.filter_eq_nil_iff.2 fun x hx => by simpa using hb x hx
  unfold State.stepTile
  rw [if_neg (by simpa [State.halted, h] using hn), passBkpt_none s tile hb, patchTile_unwritten s tile hw]
  simp [hpast, stepping, stepReady]

theorem stepReady_tile {s : State} {tile th : Nat} (h : th ∈ stepReady s tile) : tileOf th = tile := by
  obtain ⟨x, hx, rfl⟩ := List.mem_map.1 h
  exact (mem_tileThreads.1 (List.mem_filter.1 hx).1).2

theorem stepping_reg (s : State) (tile k : Nat) :
    (stepping s tile).reg k = (s.onReg (dbgReg tile) fun v => putField v 0 2 3).reg k := rfl

theorem stepping_req (s : State) (tile : Nat) : bitsOf ((stepping s tile).reg (dbgReg tile)) 0 2 = 3 := by
  rw [stepping_reg, bitsOf_onReg (by decide), bitsOf_putField_same]
  rfl

theorem stepping_group (s : State) (tile : Nat) : (stepping s tile).dbgGroup tile = s.dbgGroup tile := by
  rw [State.dbgGroup, stepping_reg, bitsOf_onReg (by decide), bitsOf_putField_other (by decide), State.dbgGroup]

theorem stepping_reg_other {s : State} {tile o : Nat} (h : o ≠ dbgReg tile) : (stepping s tile).reg o = s.reg o := by
  rw [stepping_reg, reg_onReg_other h]

theorem stepping_any {s : State} {tile : Nat} (hn : ∀ th ∈ s.dbg.stepping, tileOf th ≠ tile) :
    ((stepping s tile).dbg.stepping.any fun th => tileOf th == tile) = !(stepReady s tile).isEmpty := by
  have hold : (s.dbg.stepping.any fun th => tileOf th == tile) = false := List.any_eq_false.2 fun th hth => by simpa using hn th hth
  show ((s.dbg.stepping ++ stepReady s tile).any _) = _
  rw [List.any_append, hold, Bool.false_or]
  cases hr : stepReady s tile with
  | nil => rfl
  | cons th l =>
    have : tileOf th = tile := stepReady_tile (s := s) (hr ▸ List.mem_cons_self)
    simp [this]

/-- A step ends at once where no thread may issue, and then the tile sends its trigger; else it waits for them. -/
theorem stepDone_stepping {s : State} {tile : Nat} (hn : ∀ th ∈ s.dbg.stepping, tileOf th ≠ tile) :
    (stepping s tile).stepDone tile =
      if stepReady s tile = [] then ((stepping s tile).dbgCause tile 4 0).sendTrigger tile else stepping s tile := by
  unfold State.stepDone
  rw [stepping_req, stepping_any hn]
  cases hr : stepReady s tile <;> simp

theorem dbgStep_spec {s : State} {tile : Nat} (h : tile ∈ s.dbg.halted) (hw : s.dbg.window = [])
    (hn : ∀ th ∈ s.dbg.stepping, tileOf th ≠ tile) (hb : ∀ x ∈ s.tileThreads tile, x.2.park ≠ .bkpt) :
    let u := s.stepTile tile
    u.threads = s.threads ∧ u.dbg.halted = s.dbg.halted ∧ s.SameBytes u ∧ u.dbg.stepping = s.dbg.stepping ++ stepReady s tile ∧
      (stepReady s tile = [] → bitsOf (u.reg (dbgReg tile)) 60 3 = 4 ∧ bitsOf (u.reg (dbgReg tile)) 0 2 = 0 ∧
        (s.dbgGroup tile ≠ 0 → tile ∈ u.dbg.triggers)) ∧
      (stepReady s tile ≠ [] → bitsOf (u.reg (dbgReg tile)) 0 2 = 3) := by
  have hkey : ∀ k, mapsMemory k → k ≠ dbgReg tile := fun k hk => ne_of_mapsMemory hk (by unfold dbgReg; omega)
  rw [stepTile_runs h hw hn hb, stepDone_stepping hn]
  by_cases hr : stepReady s tile = []
  · rw [if_pos hr]
    refine ⟨by simp; rfl, by simp; rfl, sameBytes_of_eq (fun k hk => ?_) (by simp; rfl) (by simp; rfl), by simp; rfl,
      fun _ => ⟨?_, ?_, fun hg => ?_⟩, fun hne => absurd hr hne⟩
    · rw [sendTrigger_reg, reg_dbgCause_other _ _ _ _ (hkey k hk), stepping_reg_other (hkey k hk)]
    · rw [sendTrigger_reg]
      exact cause_dbgCause _ tile 4 0
    · rw [sendTrigger_reg]
      exact req_dbgCause _ tile 4 0
    · rw [mem_sendTrigger, dbgGroup_dbgCause, stepping_group]
      exact .inl ⟨rfl, hg⟩
  · rw [if_neg hr]
    exact ⟨rfl, rfl, sameBytes_of_eq (fun k hk => stepping_reg_other (hkey k hk)) rfl rfl, rfl, fun he => absurd he hr,
      fun _ => stepping_req s tile⟩

end Sys2Proof.Proofs
end

