-- ==== Sys2Proof/Proofs/BeyondHomes.lean ====
section
/-! What the homes leave alone. A store performed at its home, with the copies, collapses, evictions and write-backs it causes,
changes memory, stashes, caches, the free values, the host's side, the values of counters (R282) and the two registers that report
poison (R40); every other part of the state stays as it was. -/
namespace Sys2Proof.Proofs
open Sys2Proof Sys2Proof.Machine Sys2Proof.Laws

/-- The state without what the homes change. -/
def beyondHomes (s : State) : State :=
  { s with
    regs := s.regs.filter fun e => e.1 != 0x032 && e.1 != 0x034
    mem := State.reset.mem
    stash := State.reset.stash
    coh := State.reset.coh
    fresh := 0
    host := State.reset.host
    dbg := { s.dbg with pmcVal := [] } }

theorem filter_set {α : Type} (m : Sparse α) (p : Nat × α → Bool) {k : Nat} (hp : ∀ v, p (k, v) = false) (v : α) :
    (Sparse.set m k v).filter p = m.filter p := by
  induction m with
  | nil => simp [Sparse.set, hp]
  | cons e r ih =>
    obtain ⟨a, w⟩ := e
    rw [Sparse.set]
    split
    · rw [List.filter_cons_of_neg (by simp [hp])]
    split
    · rename_i _ h
      subst h
      rw [List.filter_cons_of_neg (by simp [hp]), List.filter_cons_of_neg (by simp [hp])]
    · rw [List.filter_cons, List.filter_cons, ih]

theorem get?_filter {α : Type} (m : Sparse α) (p : Nat → Bool) {k : Nat} (hp : p k = true) :
    Sparse.get? (m.filter fun e => p e.1) k = Sparse.get? m k := by
  induction m with
  | nil => rfl
  | cons e r ih =>
    obtain ⟨a, w⟩ := e
    rw [List.filter_cons]
    split
    · rw [Sparse.get?, Sparse.get?, ih]
    · rename_i h
      have : a ≠ k := fun e => h (e ▸ hp)
      rw [ih, Sparse.get?, if_neg this]

section
variable (s : State)

@[simp] theorem beyond_ite (c : Prop) [Decidable c] (a b : State) :
    beyondHomes (if c then a else b) = if c then beyondHomes a else beyondHomes b := apply_ite ..

theorem beyond_foldl {α : Type} {f : State → α → State} (hf : ∀ s x, beyondHomes (f s x) = beyondHomes s) (l : List α) :
    beyondHomes (l.foldl f s) = beyondHomes s := by
  induction l generalizing s with
  | nil => rfl
  | cons x l ih => rw [List.foldl_cons, ih, hf]

-- Entries, counters and free values.

@[simp] theorem beyond_free : beyondHomes s.free.2 = beyondHomes s := rfl
@[simp] theorem beyond_fresh (n : Nat) : beyondHomes { s with fresh := n } = beyondHomes s := rfl
@[simp] theorem beyond_logEvent (a b : Nat) : beyondHomes (s.logEvent a b) = beyondHomes s := rfl
@[simp] theorem beyond_countEvt (t e : Nat) (r : Option Nat) (n : Nat) : beyondHomes (s.countEvt t e r n) = beyondHomes s := rfl
@[simp] theorem beyond_setL3 (e : L3Entry) : beyondHomes (s.setL3 e) = beyondHomes s := rfl
@[simp] theorem beyond_dropL3 (l : Nat) : beyondHomes (s.dropL3 l) = beyondHomes s := rfl
@[simp] theorem beyond_setL2 (e : L2Entry) : beyondHomes (s.setL2 e) = beyondHomes s := rfl
@[simp] theorem beyond_dropL2 (d l : Nat) : beyondHomes (s.dropL2 d l) = beyondHomes s := rfl
@[simp] theorem beyond_followHw (e : L3Entry) : beyondHomes (s.followHw e) = beyondHomes s := rfl
@[simp] theorem beyond_setSf (l : Nat) (t : Option Ty) : beyondHomes (s.setSf l t) = beyondHomes s := rfl
@[simp] theorem beyond_clearSf (l : Nat) : beyondHomes (s.clearSf l) = beyondHomes s := by simp [State.clearSf]
@[simp] theorem beyond_settleL3 (e : L3Entry) : beyondHomes (s.settleL3 e) = beyondHomes s := by simp [State.settleL3]
@[simp] theorem beyond_settle (l : Nat) : beyondHomes (s.settle l) = beyondHomes s := by simp [State.settle]
@[simp] theorem beyond_syncDie (d l : Nat) : beyondHomes (s.syncDie d l) = beyondHomes s := by
  unfold State.syncDie
  split <;> simp
@[simp] theorem beyond_setRegion (n : Nat) (r : Region) : beyondHomes (s.setRegion n r) = beyondHomes s := rfl
@[simp] theorem beyond_countWrite (l : Nat) : beyondHomes (s.countWrite l) = beyondHomes s := by simp [State.countWrite]
@[simp] theorem beyond_l3Miss (l : Nat) (h : BitVec 3) (a : Bool) : beyondHomes (s.l3Miss l h a).2 = beyondHomes s := by
  unfold State.l3Miss
  dsimp only
  split_ifs <;> rfl

-- HBM and the host's lines.

@[simp] theorem beyond_onReg_032 (f : Nat → Nat) : beyondHomes (s.onReg 0x032 f) = beyondHomes s := by
  unfold beyondHomes State.onReg State.setReg
  simp only [filter_set s.regs (fun e => e.1 != 0x032 && e.1 != 0x034) (k := 0x032) (fun _ => rfl)]
@[simp] theorem beyond_setReg_034 (v : Nat) : beyondHomes (s.setReg 0x034 v) = beyondHomes s := by
  unfold beyondHomes State.setReg
  simp only [filter_set s.regs (fun e => e.1 != 0x032 && e.1 != 0x034) (k := 0x034) (fun _ => rfl)]
@[simp] theorem beyond_mem (m : Memory) : beyondHomes { s with mem := m } = beyondHomes s := rfl
@[simp] theorem beyond_hbmRequest (p : Nat) : beyondHomes (s.hbmRequest p) = beyondHomes s := rfl
@[simp] theorem beyond_writeBack (l : Nat) : beyondHomes (s.writeBack l) = beyondHomes s := by
  unfold State.writeBack
  split <;> rfl
@[simp] theorem beyond_hbmStore (l : Nat) : beyondHomes (s.hbmStore l) = beyondHomes s := by simp [State.hbmStore]
@[simp] theorem beyond_toHbm (l : Nat) : beyondHomes (s.toHbm l) = beyondHomes s := by
  unfold State.toHbm
  split <;> simp
@[simp] theorem beyond_storeLine (l k : Nat) (d : Line) (p : Bool) : beyondHomes (s.storeLine l k d p) = beyondHomes s := by
  unfold State.storeLine
  split <;> rfl
@[simp] theorem beyond_newPoison (l : Nat) : beyondHomes (s.newPoison l) = beyondHomes s := by simp [State.newPoison]
@[simp] theorem beyond_setPoison (l : Nat) : beyondHomes (s.setPoison l) = beyondHomes s := by
  unfold State.setPoison
  split
  · rfl
  · rfl
  · split <;> rfl
@[simp] theorem beyond_poisonLine (l : Nat) : beyondHomes (s.poisonLine l) = beyondHomes s := by simp [State.poisonLine]
@[simp] theorem beyond_hbmRead (l : Nat) : beyondHomes (s.hbmRead l) = beyondHomes s := by
  unfold State.hbmRead
  split
  · rfl
  · dsimp only
    split <;> simp
@[simp] theorem beyond_sendCache (m : CacheMsg) : beyondHomes (s.sendCache m) = beyondHomes s := rfl
@[simp] theorem beyond_setGrant (h v : Nat) : beyondHomes (s.setGrant h v) = beyondHomes s := rfl
@[simp] theorem beyond_askHost (l : Nat) (o : Bool) : beyondHomes (s.askHost l o) = beyondHomes s := by
  simp [State.askHost]
@[simp] theorem beyond_answerHost (h v : Nat) : beyondHomes (s.answerHost h v) = beyondHomes s := by
  unfold State.answerHost
  split <;> simp
@[simp] theorem beyond_hostHold (l : Nat) (o : Bool) : beyondHomes (s.hostHold l o) = beyondHomes s := by simp [State.hostHold]
@[simp] theorem beyond_hostDirty (l : Nat) (m : Line) : beyondHomes (s.hostDirty l m) = beyondHomes s := by simp [State.hostDirty]
@[simp] theorem beyond_hostBack (l v : Nat) : beyondHomes (s.hostBack l v) = beyondHomes s := by
  simp [State.hostBack]
@[simp] theorem beyond_l3WriteBack (l : Nat) : beyondHomes (s.l3WriteBack l) = beyondHomes s := by simp [State.l3WriteBack]

-- Copies in tiles and dies, and replicas.

@[simp] theorem beyond_sendTile (t l : Nat) (cv : BitVec 5) (u : Bool) (n : Line) (sp : Spared) :
    beyondHomes (s.sendTile t l cv u n sp).2 = beyondHomes s := rfl
@[simp] theorem beyond_filterTile (e : L2Entry) (r : Nat × View × Bool) (cv : BitVec 5) (n : Line) (sp : Spared) :
    beyondHomes (s.filterTile e r cv n sp).2 = beyondHomes s := by
  unfold State.filterTile
  dsimp only
  split <;> simp
theorem beyond_filterTiles (cv : BitVec 5) (n : Line) (sp : Spared) (l : List (Nat × View × Bool)) (a : L2Entry × State) :
    beyondHomes (l.foldl (fun (a : L2Entry × State) r => a.2.filterTile a.1 r cv n sp) a).2 = beyondHomes a.2 := by
  induction l generalizing a with
  | nil => rfl
  | cons r l ih => rw [List.foldl_cons, ih, beyond_filterTile]
@[simp] theorem beyond_filterDie (d l : Nat) (cv : BitVec 5) (n : Line) (sp : Spared) :
    beyondHomes (s.filterDie d l cv n sp) = beyondHomes s := by
  unfold State.filterDie
  split
  · rfl
  · rw [beyond_setL2, beyond_filterTiles]
@[simp] theorem beyond_sendDie (d l : Nat) (f : View) (u : Bool) (cv : BitVec 5) (n : Line) (sp : Spared) :
    beyondHomes (s.sendDie d l f u cv n sp).2 = beyondHomes s := by
  unfold State.sendDie
  split
  · simp
  · dsimp only
    split <;> simp
@[simp] theorem beyond_dropL1 (l : Nat) : beyondHomes (s.dropL1 l) = beyondHomes s := rfl
@[simp] theorem beyond_noUpdates (d l : Nat) : beyondHomes (s.noUpdates d l) = beyondHomes s := rfl
@[simp] theorem beyond_coh (c : Coherence) : beyondHomes { s with coh := c } = beyondHomes s := rfl
@[simp] theorem beyond_stash (x : Stash) : beyondHomes { s with stash := x } = beyondHomes s := rfl
@[simp] theorem beyond_collapseAt (q l : Nat) (cv : BitVec 5) (n : Line) (c : Bool) (sp : Spared) :
    beyondHomes (s.collapseAt q l cv n c sp) = beyondHomes s := by
  unfold State.collapseAt
  extract_lets here gone n coh dropped s1 owned s2 s3
  have h1 : beyondHomes s1 = beyondHomes s := by simp [s1, dropped]
  have h2 : beyondHomes s2 = beyondHomes s := by simp [s2, h1]
  have h3 : beyondHomes s3 = beyondHomes s := by
    simp only [s3]
    split <;> simp [h2]
  simp [h3]
@[simp] theorem beyond_recallOwner (l : Nat) : beyondHomes (s.recallOwner l) = beyondHomes s := by
  unfold State.recallOwner
  dsimp only
  split
  · rfl
  · split <;> simp
@[simp] theorem beyond_loseMap (m : MapLine) : beyondHomes (s.loseMap m) = beyondHomes s := rfl

@[simp] theorem beyond_collapse (l : Nat) (cv : BitVec 5) (n : Line) (e c : Bool) (w : List Agent) (sp : Spared) :
    beyondHomes (s.collapse l cv n e c w sp) = beyondHomes s := by
  unfold State.collapse
  dsimp only
  split
  · simp [beyond_foldl]
  · simp
@[simp] theorem beyond_ackCollapse (q l : Nat) : beyondHomes (s.ackCollapse q l) = beyondHomes s := by
  unfold State.ackCollapse
  split <;> simp
@[simp] theorem beyond_invalidateAll (l : Nat) : beyondHomes (s.invalidateAll l) = beyondHomes s := by
  have hmodes (s : State) := beyond_foldl s (fun s d => beyond_noUpdates s d l) (List.range 4)
  simp [State.invalidateAll, beyond_foldl, hmodes]
@[simp] theorem beyond_absorb (m : MapLine) : beyondHomes (s.absorb m) = beyondHomes s := by simp [State.absorb]

-- Room in the homes (R212).

@[simp] theorem beyond_widen (e : L2Entry) : beyondHomes (s.widen e) = beyondHomes s := rfl
@[simp] theorem beyond_widenDies (e : L3Entry) : beyondHomes (s.widenDies e) = beyondHomes s := rfl
@[simp] theorem beyond_evictL2 (d l : Nat) : beyondHomes (s.evictL2 d l) = beyondHomes s := by
  unfold State.evictL2
  split
  · rfl
  · simp [beyond_foldl]
@[simp] theorem beyond_evictL3 (l : Nat) : beyondHomes (s.evictL3 l) = beyondHomes s := by simp [State.evictL3, beyond_foldl]
@[simp] theorem beyond_dropReplica (q l : Nat) : beyondHomes (s.dropReplica q l) = beyondHomes s := by simp [State.dropReplica]
@[simp] theorem beyond_evictSlice (q : Nat) (l : List (Nat × Bool)) : beyondHomes (s.evictSlice q l) = beyondHomes s := by
  unfold State.evictSlice
  split <;> simp
@[simp] theorem beyond_roomSlice (q l : Nat) (n : Bool) : beyondHomes (s.roomSlice q l n) = beyondHomes s := by simp [State.roomSlice]
@[simp] theorem beyond_roomL3 (l : Nat) : beyondHomes (s.roomL3 l) = beyondHomes s := by simp [State.roomL3]
@[simp] theorem beyond_roomL2 (d l : Nat) : beyondHomes (s.roomL2 d l) = beyondHomes s := by
  unfold State.roomL2
  extract_lets others set evict s1 full
  have hevict (s : State) (es : List L2Entry) : beyondHomes (evict s es) = beyondHomes s := by
    simp only [evict]
    split <;> simp
  have h1 : beyondHomes s1 = beyondHomes s := by simp [s1, hevict]
  simp [hevict, h1]

-- A store at its home.

@[simp] theorem beyond_atL3 (l : Nat) (h : BitVec 3) (a : Bool) : beyondHomes (s.atL3 l h a) = beyondHomes s := by simp [State.atL3]
@[simp] theorem beyond_storerL1 (l : Nat) (st : Storer) : beyondHomes (s.storerL1 l st) = beyondHomes s := by simp [State.storerL1]
@[simp] theorem beyond_takeOwner (l d : Nat) (n : Line) (h : BitVec 3) (e : Bool) (w : List Agent) (sp : Spared) :
    beyondHomes (s.takeOwner l d n h e w sp) = beyondHomes s := by simp [State.takeOwner, beyond_foldl]
@[simp] theorem beyond_samePoison (l : Nat) (p : Bool) : beyondHomes (s.samePoison l p) = beyondHomes s := by simp [State.samePoison]
@[simp] theorem beyond_place (l k : Nat) (m d : Line) (st : Storer) : beyondHomes (s.place l k m d st).2 = beyondHomes s := by
  unfold State.place
  extract_lets full read s1 old new s2 sf cv sp who home passes atHome sent performed s3 poison l1 coh s4 s5
  have h2 : beyondHomes s2 = beyondHomes s := by simp [s2, s1, read]
  have hsent : beyondHomes sent = beyondHomes s := by
    refine (beyond_foldl atHome (fun s d => ?_) _).trans (by simp [atHome, h2])
    split <;> simp
  have hperformed : beyondHomes performed = beyondHomes s := by
    unfold performed
    generalize home = o
    cases o with
    | none => simp [hsent]
    | some d => simp [h2]
  have h3 : beyondHomes s3 = beyondHomes s := by simp [s3, hperformed]
  have h5 : beyondHomes s5 = beyondHomes s := by simp [s5, s4, h3]
  simp [h5]
@[simp] theorem beyond_recallMap (m : MapLine) : beyondHomes (s.recallMap m) = beyondHomes s := by simp [State.recallMap]
@[simp] theorem beyond_recallStash (l : Nat) (v : Option (Nat × Nat)) : beyondHomes (s.recallStash l v) = beyondHomes s := by
  simp [State.recallStash, beyond_foldl]
@[simp] theorem beyond_rekey (l k : Nat) : beyondHomes (s.rekey l k) = beyondHomes s := by
  unfold State.rekey
  split <;> simp
/-- A store that sends no probes changes nothing beyond the homes. -/
theorem beyond_perform (l k : Nat) (m d : Line) {st : Storer} (h : st.probes = false) :
    beyondHomes (s.perform l k m d st).2 = beyondHomes s := by
  simp [State.perform, State.performWith, State.probeWith, h]

@[simp] theorem beyond_cleanMapLine (tile off : Nat) (w : List Agent) (h : BitVec 3) :
    beyondHomes (s.cleanMapLine tile off w h) = beyondHomes s := by
  unfold State.cleanMapLine
  split
  · rfl
  split
  · rfl
  · exact beyond_perform _ _ _ _ _ rfl
@[simp] theorem beyond_drainDirty : beyondHomes s.drainDirty = beyondHomes s := by simp [State.drainDirty, beyond_foldl]

-- What the device stores itself.

/-- The state without what a store of the device's own changes: one that can not be performed yet waits among the stores (R20). -/
def beyondStores (s : State) : State := { beyondHomes s with stores := [], nextStore := 0 }

theorem beyondStores_of_homes {s u : State} (h : beyondHomes u = beyondHomes s) : beyondStores u = beyondStores s := by
  rw [beyondStores, beyondStores, h]

@[simp] theorem beyondStores_physStore (pa n v key : Nat) : beyondStores (s.physStore pa n v key) = beyondStores s := by
  unfold State.physStore
  split
  · rfl
  split
  · rfl
  · exact beyondStores_of_homes (beyond_perform s _ _ _ _ rfl)

@[simp] theorem beyondStores_physWords (pa : Nat) (ws : List (BitVec 64)) : beyondStores (s.physWords pa ws) = beyondStores s := by
  induction ws generalizing s pa with
  | nil => rfl
  | cons w ws ih => rw [State.physWords, ih, beyondStores_physStore]
end

-- What is so kept.

section
variable {s u : State} (h : beyondStores u = beyondStores s)
include h

theorem reg_of_beyond {k : Nat} (h1 : k ≠ 0x032) (h2 : k ≠ 0x034) : u.reg k = s.reg k := by
  have hregs : u.regs.filter (fun e => e.1 != 0x032 && e.1 != 0x034) = s.regs.filter (fun e => e.1 != 0x032 && e.1 != 0x034) :=
    congrArg State.regs h
  have hkeep : (k != 0x032 && k != 0x034) = true := by simp [h1, h2]
  have hget (m : Sparse (BitVec 64)) := get?_filter m (fun k => k != 0x032 && k != 0x034) hkeep
  exact reg_congr (by rw [← hget u.regs, hregs, hget s.regs])

theorem threads_of_beyond : u.threads = s.threads := by
  show (beyondStores u).threads = _
  rw [h]
  rfl

theorem dbg_of_beyond : ∃ p, u.dbg = { s.dbg with pmcVal := p } := by
  have hdbg : { u.dbg with pmcVal := [] } = { s.dbg with pmcVal := [] } := congrArg State.dbg h
  exact ⟨u.dbg.pmcVal, congrArg (fun d : Debug => { d with pmcVal := u.dbg.pmcVal }) hdbg⟩

theorem halted_of_beyond : u.dbg.halted = s.dbg.halted := by
  obtain ⟨p, hdbg⟩ := dbg_of_beyond h
  rw [hdbg]
end

theorem stores_of_beyondHomes {s u : State} (h : beyondHomes u = beyondHomes s) : u.stores = s.stores := by
  show (beyondHomes u).stores = _
  rw [h]
  rfl

end Sys2Proof.Proofs
end

