-- ==== Sys2Proof/Proofs/BellAndDump.lean ====
section
/-! The Bell (R281), core dumps (R284) and register writes (R5, R283, R469). -/
namespace Sys2Proof.Proofs
open Sys2Proof Sys2Proof.Machine Sys2Proof.Laws

-- The entries of a Bell record.

/-- The slots of a list whose entry is not zero, with their entries. -/
def entriesOf (e : Nat → BitVec 64) (l : List Nat) : List (Nat × BitVec 64) :=
  l.filterMap fun th => if e th = 0 then none else some (th, e th)

theorem getD_entriesOf (e : Nat → BitVec 64) (l : List Nat) (th : Nat) :
    Sparse.getD (entriesOf e l) th 0 = if th ∈ l then e th else 0 := by
  induction l with
  | nil => rfl
  | cons a l ih =>
    by_cases ha : e a = 0
    · have hskip : entriesOf e (a :: l) = entriesOf e l := by simp [entriesOf, ha]
      rw [hskip, ih]
      by_cases hth : th = a
      · subst hth
        simp [ha]
      · simp [hth]
    · have hkeep : entriesOf e (a :: l) = (a, e a) :: entriesOf e l := List.filterMap_cons_some (if_neg ha)
      rw [hkeep, Sparse.getD, Sparse.get?]
      by_cases hth : a = th
      · simp [hth]
      · rw [if_neg hth]
        exact ih.trans (by simp [Ne.symm hth])

theorem length_filterMap_ite {α β : Type} (p : α → Bool) (f : α → β) (l : List α) :
    (l.filterMap fun x => if p x then some (f x) else none).length = (l.filter p).length := by
  induction l with
  | nil => rfl
  | cons x l ih => cases h : p x <;> simp [h, ih]

/-- The entries that a Bell writes: at the first tick those of every slot, then those that changed. -/
def bellLog (s : State) : List (Nat × BitVec 64) :=
  (List.range 16384).filterMap fun th =>
    let v := Sparse.getD s.bellLatch th 0
    if s.dbg.bellTick == 0 || v != Sparse.getD s.dbg.bellPrev th 0 then some (th, v) else none

theorem length_bellLog (s : State) : (bellLog s).length =
    ((List.range 16384).filter fun th => s.dbg.bellTick == 0 || s.bellEntry th != Sparse.getD s.dbg.bellPrev th 0).length := by
  have hlatch : ∀ th ∈ List.range 16384, Sparse.getD s.bellLatch th 0 = s.bellEntry th := fun th h =>
    (getD_entriesOf s.bellEntry (List.range 16384) th).trans (if_pos h)
  rw [bellLog, length_filterMap_ite]
  exact congrArg List.length (List.filter_congr fun th h => by rw [hlatch th h])

-- BELL (R281).

/-- A tick of the Bell, before its record. -/
def ticked (s : State) : State :=
  { s with
    fresh := s.fresh + 5
    dbg := { s.dbg with bellTick := s.dbg.bellTick + 1, bellPrev := s.bellLatch, bellNext := s.dbg.bellNext + s.bellPeriod } }

/-- The record's place and its words. -/
def bellRecord (s : State) : State :=
  (ticked s).physWords (4096 * (bitsOf (s.reg 0x601) 12 40) + bitsOf (s.reg 0x602) 0 32) (s.bellWords s.dbg.bellTick (bellLog s))

theorem bell_waits {s : State} (h : bitOf (s.reg 0x600) 63 = false ∨ s.cycle < s.dbg.bellNext) : s.bell = s :=
  if_pos (by simpa using h)

theorem bell_ticks {s : State} (hon : bitOf (s.reg 0x600) 63 = true) (hdue : s.dbg.bellNext ≤ s.cycle) :
    s.bell = if s.bellSize < bitsOf (s.reg 0x602) 0 32 + (0x840 + 8 * (bellLog s).length) then
        (ticked s).onReg 0x602 fun v => satField v 32 32 1
      else (bellRecord s).onReg 0x602 fun v => putField v 0 32 (bitsOf (s.reg 0x602) 0 32 + (0x840 + 8 * (bellLog s).length)) := by
  unfold State.bell
  rw [if_neg (by simp [hon, hdue])]
  rfl

theorem bellRecord_kept (s : State) : beyondStores (bellRecord s) = beyondStores (ticked s) := beyondStores_physWords ..

theorem bell_spec {s : State} (hon : bitOf (s.reg 0x600) 63 = true) (hdue : s.dbg.bellNext ≤ s.cycle) :
    let off := bitsOf (s.reg 0x602) 0 32
    let len := 0x840 + 8 * (bellLog s).length
    s.bell.dbg.bellTick = s.dbg.bellTick + 1 ∧ s.bell.threads = s.threads ∧
      s.bell.dbg.bellNext = s.dbg.bellNext + s.bellPeriod ∧
      (s.bellSize < off + len → bitsOf (s.bell.reg 0x602) 0 32 = off ∧
        bitsOf (s.bell.reg 0x602) 32 32 = Nat.min (2 ^ 32 - 1) (bitsOf (s.reg 0x602) 32 32 + 1) ∧ s.SameBytes s.bell) ∧
      (off + len ≤ s.bellSize → bitsOf (s.bell.reg 0x602) 0 32 = (off + len) % 2 ^ 32 ∧
        bitsOf (s.bell.reg 0x602) 32 32 = bitsOf (s.reg 0x602) 32 32) := by
  intro off len
  have hbell := bell_ticks hon hdue
  by_cases hfit : s.bellSize < off + len
  · rw [if_pos hfit] at hbell
    rw [hbell]
    refine ⟨rfl, rfl, rfl, fun _ => ⟨?_, ?_, ?_⟩, fun h => absurd hfit (by omega)⟩
    · rw [bitsOf_onReg (by decide), satField, bitsOf_putField_other (by decide)]
      rfl
    · rw [bitsOf_onReg (by decide), satField, bitsOf_putField_same]
      exact Nat.mod_eq_of_lt (Nat.lt_of_le_of_lt (Nat.min_le_left _ _) (by decide))
    · exact sameBytes_of_eq (fun k hk => reg_onReg_other (ne_of_mapsMemory hk (by decide))) rfl rfl
  · rw [if_neg hfit] at hbell
    rw [hbell]
    obtain ⟨p, hdbg⟩ := dbg_of_beyond (bellRecord_kept s)
    have hreg : (bellRecord s).reg 0x602 = s.reg 0x602 := reg_of_beyond (bellRecord_kept s) (by decide) (by decide)
    have hthreads : (bellRecord s).threads = s.threads := (threads_of_beyond (bellRecord_kept s)).trans rfl
    refine ⟨?_, (onReg_threads ..).trans hthreads, ?_, fun h => absurd h hfit, fun _ => ⟨?_, ?_⟩⟩
    · rw [onReg_dbg, hdbg]
      rfl
    · rw [onReg_dbg, hdbg]
      rfl
    · rw [bitsOf_onReg (by decide), bitsOf_putField_same]
    · rw [bitsOf_onReg (by decide), bitsOf_putField_other (by decide), hreg]

-- A register written by its access codes (R5).

theorem writeReg_eq {s : State} {k : Nat} {r : RegSpec} (h : regSpec (k % 0x1000) = some r) (v : Nat) :
    s.writeReg k v = s.setReg k (maskedWrite r (s.reg k) v) := by
  unfold State.writeReg
  rw [h]

theorem testBit_writeReg {s : State} {n : Nat} {r : RegSpec} (h : regSpec (n % 0x1000) = some r) (v : Nat) {k : Nat} (hk : k < 64) :
    ((s.writeReg n v).reg n).testBit k =
      ((if r.rw.testBit k then v.testBit k else (s.reg n).testBit k) && !(r.w1c.testBit k && v.testBit k)) := by
  rw [writeReg_eq h, reg_setReg_same, Nat.testBit_mod_two_pow, testBit_maskedWrite r _ _ hk]
  simp [hk]

theorem bellRestart_spec (s : State) (v : Nat) :
    s.writeReg 0x602 v = { s with regs := (s.writeReg 0x602 v).regs } ∧
      bitsOf ((s.writeReg 0x602 v).reg 0x602) 0 32 = bitsOf v 0 32 ∧
      bitsOf ((s.writeReg 0x602 v).reg 0x602) 32 32 = bitsOf (s.reg 0x602) 32 32 := by
  have hspec : regSpec (0x602 % 0x1000) = some ⟨0, field 0 32, 0⟩ := rfl
  have hrw : ∀ k, (field 0 32).testBit k = decide (k < 32) := fun k => Nat.testBit_two_pow_sub_one 32 k
  refine ⟨rfl, ?_, ?_⟩ <;> apply Nat.eq_of_testBit_eq <;> intro k <;> rw [testBit_bitsOf, testBit_bitsOf]
  · by_cases hk : k < 32
    · rw [testBit_writeReg hspec v (by omega), hrw]
      simp [hk]
    · simp [hk]
  · by_cases hk : k < 32
    · rw [testBit_writeReg hspec v (by omega), hrw]
      simp
    · simp [hk]

-- CORE_DUMP (R284).

theorem rangeBacked_congr {s u : State} (h : ∀ k, mapsMemory k → u.reg k = s.reg k) (base n : Nat) :
    u.rangeBacked base n = s.rangeBacked base n := by
  simp only [State.rangeBacked, State.backed, window_congr h]

/-- The package halted, and its dirty lines written home, as a dump begins. -/
def drained (s : State) : State :=
  let h := haltAll s 1 (List.range 256)
  ({ h with fresh := h.fresh + 16 * h.dumpStores.length } : State).drainDirty

theorem drained_kept (s : State) : beyondStores (drained s) = beyondStores (haltAll s 1 (List.range 256)) :=
  beyondStores_of_homes ((beyond_drainDirty _).trans (beyond_fresh _ _))

/-- The image of a dump, at the base and with the room that DUMP_CTL gives. -/
def dumpImage (s : State) (base room : Nat) : State :=
  let es := (haltAll s 1 (List.range 256)).dumpOrder
  ((drained s).physWords base ((drained s).dumpHeader es.length (Nat.min room es.length))).physWords (base + 0x1000)
    ((es.take room).flatMap DumpEntry.words)

theorem coreDump_eq (s : State) :
    let base := 4096 * bitsOf (s.reg 0x630) 12 40
    let size := 2 ^ Nat.min 40 (Nat.max 16 (bitsOf (s.reg 0x630) 0 6))
    let room := size / 32 - 128
    s.coreDump = if !(drained s).rangeBacked base size then (drained s).onReg 0x630 fun v => putField (putField v 63 1 0) 62 1 1
      else (dumpImage s base room).onReg 0x630 fun v =>
        putField (putField v 63 1 0) 62 1 (decide (room < (haltAll s 1 (List.range 256)).dumpOrder.length)).toNat := rfl

theorem dumpImage_kept (s : State) (base room : Nat) :
    beyondStores (dumpImage s base room) = beyondStores (haltAll s 1 (List.range 256)) := by
  rw [dumpImage, beyondStores_physWords, beyondStores_physWords, drained_kept]

/-- However a dump ends, only DUMP_CTL's GO and ERR change after the state x that it leaves. -/
theorem coreDump_cases (s : State) :
    let base := 4096 * bitsOf (s.reg 0x630) 12 40
    let size := 2 ^ Nat.min 40 (Nat.max 16 (bitsOf (s.reg 0x630) 0 6))
    ∃ (x : State) (err : Nat), s.coreDump = x.onReg 0x630 (fun v => putField (putField v 63 1 0) 62 1 err) ∧
      beyondStores x = beyondStores (haltAll s 1 (List.range 256)) ∧
      (s.rangeBacked base size = false → err = 1) ∧
      (s.rangeBacked base size = true → (haltAll s 1 (List.range 256)).dumpOrder = [] → err = 0) := by
  intro base size
  have hreg : ∀ k, mapsMemory k → (drained s).reg k = s.reg k := fun k hk => by
    rw [reg_of_beyond (drained_kept s) (by unfold mapsMemory at hk; omega) (by unfold mapsMemory at hk; omega)]
    exact reg_haltAll_other _ _ _ fun _ _ => ne_of_mapsMemory hk (by unfold dbgReg; omega)
  have hback := rangeBacked_congr hreg base size
  have heq := coreDump_eq s
  dsimp only at heq
  cases hb : s.rangeBacked base size with
  | false =>
    rw [hb] at hback
    rw [if_pos (by simpa using hback)] at heq
    exact ⟨_, 1, heq, drained_kept s, fun _ => rfl, fun h => (by cases h)⟩
  | true =>
    rw [hb] at hback
    rw [if_neg (by simpa using hback)] at heq
    exact ⟨_, _, heq, dumpImage_kept s _ _, fun h => (by cases h), fun _ he => (by rw [he]; rfl)⟩

theorem dumpOrder_of_none {s : State} (h : s.dumpStores = []) : s.dumpOrder = [] := by
  rw [State.dumpOrder, h]
  rfl

theorem dumpStores_congr {s u : State} (ht : u.threads = s.threads) (hc : u.coh = s.coh) (hl : u.stash = s.stash)
    (hs : u.stores = s.stores) : u.dumpStores = s.dumpStores := by
  unfold State.dumpStores
  rw [ht, hc, hl, hs]

theorem haltAll_dumpStores (s : State) (c : Nat) (ts : List Nat) : (haltAll s c ts).dumpStores = s.dumpStores :=
  dumpStores_congr (by rw [haltAll_eq]) (by rw [haltAll_eq]) (by rw [haltAll_eq]) (by rw [haltAll_eq])

/-- DUMP_CTL with the base and size of a write. -/
def dumpSet (s : State) (v : Nat) : State :=
  s.onReg 0x630 fun o => putField (putField o 12 40 (bitsOf v 12 40)) 0 6 (bitsOf v 0 6)

theorem dumpSet_base (s : State) (v : Nat) : bitsOf ((dumpSet s v).reg 0x630) 12 40 = bitsOf v 12 40 := by
  rw [dumpSet, bitsOf_onReg (by decide), bitsOf_putField_other (by decide), bitsOf_putField_same, bitsOf_bitsOf_same]

theorem dumpSet_size (s : State) (v : Nat) : bitsOf ((dumpSet s v).reg 0x630) 0 6 = bitsOf v 0 6 := by
  rw [dumpSet, bitsOf_onReg (by decide), bitsOf_putField_same, bitsOf_bitsOf_same]

theorem dumpWrite_go {s : State} {v : Nat} (h : bitOf v 63 = true) : s.dumpWrite v = (dumpSet s v).coreDump := if_pos h

theorem coreDump_spec (s : State) (v : Nat) :
    let u := s.dumpWrite (putField v 63 1 1)
    let base := 4096 * bitsOf v 12 40
    let size := 2 ^ Nat.min 40 (Nat.max 16 (bitsOf v 0 6))
    (∀ t < 256, t ∈ u.dbg.halted) ∧ bitOf (u.reg 0x630) 63 = false ∧ bitsOf (u.reg 0x630) 12 40 = bitsOf v 12 40 ∧
      bitsOf (u.reg 0x630) 0 6 = bitsOf v 0 6 ∧ u.threads = s.threads ∧
      (s.rangeBacked base size = false → bitOf (u.reg 0x630) 62 = true) ∧
      (s.rangeBacked base size = true → s.dumpStores = [] → bitOf (u.reg 0x630) 62 = false) := by
  intro u base size
  let d := dumpSet s (putField v 63 1 1)
  have hbase : bitsOf (d.reg 0x630) 12 40 = bitsOf v 12 40 :=
    (dumpSet_base s _).trans (bitsOf_putField_other (by decide))
  have hsize : bitsOf (d.reg 0x630) 0 6 = bitsOf v 0 6 :=
    (dumpSet_size s _).trans (bitsOf_putField_other (by decide))
  have hback : d.rangeBacked base size = s.rangeBacked base size :=
    rangeBacked_congr (fun k hk => reg_onReg_other (ne_of_mapsMemory hk (by decide))) base size
  obtain ⟨x, err, hu, hx, hbad, hgood⟩ := coreDump_cases d
  rw [hbase, hsize, hback] at hbad hgood
  have hu : u = x.onReg 0x630 fun v => putField (putField v 63 1 0) 62 1 err :=
    (dumpWrite_go (bitOf_putField_same v 63 1)).trans hu
  have hreg : x.reg 0x630 = d.reg 0x630 :=
    (reg_of_beyond hx (by decide) (by decide)).trans (reg_haltAll_other _ _ _ fun t ht => by
      have := List.mem_range.1 ht
      unfold dbgReg
      omega)
  rw [hu]
  refine ⟨fun t ht => ?_, ?_, ?_, ?_, ?_, fun h => ?_, fun h hn => ?_⟩
  · rw [onReg_dbg, halted_of_beyond hx, mem_haltAll]
    exact .inl ⟨List.mem_range.2 ht, ht⟩
  · rw [bitOf_onReg (by decide), bitOf_putField_other (by decide), bitOf_putField_same]
    rfl
  · rw [bitsOf_onReg (by decide), bitsOf_putField_other (by decide), bitsOf_putField_other (by decide), hreg, hbase]
  · rw [bitsOf_onReg (by decide), bitsOf_putField_other (by decide), bitsOf_putField_other (by decide), hreg, hsize]
  · rw [onReg_threads, threads_of_beyond hx, haltAll_threads]
    rfl
  · rw [bitOf_onReg (by decide), bitOf_putField_same, hbad h]
    rfl
  · have hnone : (haltAll d 1 (List.range 256)).dumpOrder = [] :=
      dumpOrder_of_none ((haltAll_dumpStores d 1 _).trans hn)
    rw [bitOf_onReg (by decide), bitOf_putField_same, hgood h hnone]
    rfl

end Sys2Proof.Proofs
end

