-- ==== Sys2Proof/Proofs/RegisterWrites.lean ====
section
/-! Register writes (R5, R283, R469): to the host's window, and to the registers whose fields are held as written. -/
namespace Sys2Proof.Proofs
open Sys2Proof Sys2Proof.Machine Sys2Proof.Laws

-- BAR0 (R469).

theorem bar0Write_unassigned {s : State} {num : Nat} (h : bar0Assigned num = false) (v : BitVec 64) : s.bar0Write num v = s := by
  simp [bar0Assigned] at h
  have hbase : windowBase = 0x08000000 := rfl
  unfold State.bar0Write
  rw [hbase]
  simp (disch := omega) only [if_neg]

/-- The bytes of a word. -/
def wordBytes (v : BitVec 64) : List Byte := (List.range 8).map fun k => BitVec.ofNat 8 (bitsOf v.toNat (8 * k) 8)

theorem length_wordBytes (v : BitVec 64) : (wordBytes v).length = 8 := by simp [wordBytes]

/-- A write to the staging window puts its eight bytes there. -/
theorem bar0Write_staging {s : State} {num : Nat} (h1 : 0x01000000 ≤ num) (h2 : num < 0x02000000) (h8 : num % 8 = 0) (v : BitVec 64) :
    s.bar0Write num v =
      { s with host := { s.host with staging := cellsWrite s.host.staging (num % 2 ^ 24) (wordBytes v) } } := by
  have hnum : num / 8 * 8 = num := by omega
  unfold State.bar0Write
  rw [hnum]
  simp (disch := omega) only [if_neg, if_pos]
  rfl

theorem stagingWrite_spec {s : State} {num : Nat} (h1 : 0x01000000 ≤ num) (h2 : num < 0x02000000) (h8 : num % 8 = 0) (v : BitVec 64) :
    let u := s.bar0Write num v
    (∀ k < 8, cellRead u.host.staging (num % 2 ^ 24 + k) = BitVec.ofNat 8 (bitsOf v.toNat (8 * k) 8)) ∧
      (∀ a, a < num % 2 ^ 24 ∨ num % 2 ^ 24 + 8 ≤ a → cellRead u.host.staging a = cellRead s.host.staging a) ∧
      u.threads = s.threads ∧ s.SameBytes u := by
  rw [bar0Write_staging h1 h2 h8]
  refine ⟨fun k hk => ?_, fun a ha => ?_, rfl, sameBytes_of_eq (fun _ _ => rfl) rfl rfl⟩
  · exact (cellRead_writes _ _ (wordBytes v) k (by rw [length_wordBytes]; exact hk)).trans (by simp [wordBytes])
  · exact cellRead_writes_other _ _ (wordBytes v) _ (by rw [length_wordBytes]; exact ha)

-- Registers held as written (R5).

/-- Registers for which a write does what their access codes say and nothing else. -/
def plainRegs : List Nat :=
  [0x00C, 0x00D, 0x031, 0x032, 0x033, 0x034, 0x050, 0x200, 0x400, 0x401, 0x402, 0x403, 0x404, 0x601, 0x602, 0x610, 0x641, 0x642]

theorem sysWrite_plain {s : State} {num : Nat} (h : num ∈ plainRegs) (die v : Nat) : s.sysWrite die num v = s.writeReg num v := by
  simp only [plainRegs, List.mem_cons, List.not_mem_nil, or_false] at h
  rcases h with rfl | rfl | rfl | rfl | rfl | rfl | rfl | rfl | rfl | rfl | rfl | rfl | rfl | rfl | rfl | rfl | rfl | rfl <;> rfl

theorem sysWrite_scopeCtl (s : State) (die v : Nat) : s.sysWrite die 0x620 v = s.scopeCtlWrite v := rfl

/-- No bit of these registers is both RW and W1C. -/
theorem rw_w1c_disjoint {num : Nat} (h : num ∈ 0x620 :: plainRegs) {r : RegSpec} (hr : regSpec num = some r) {k : Nat}
    (hk : r.rw.testBit k = true) : r.w1c.testBit k = false := by
  have hall : ∀ n ∈ 0x620 :: plainRegs, (regSpec n).all (fun r => r.rw &&& r.w1c == 0) = true := by decide
  have hzero : r.rw &&& r.w1c = 0 := by simpa [hr] using hall num h
  have : (r.rw &&& r.w1c).testBit k = false := by rw [hzero, Nat.zero_testBit]
  simpa [hk] using this

theorem testBit_writeReg_plain {s : State} {num : Nat} (h : num ∈ 0x620 :: plainRegs) {r : RegSpec} (hr : regSpec num = some r)
    (v : BitVec 64) {k : Nat} (hk : k < 64) :
    ((s.writeReg num v.toNat).reg num).testBit k =
      if r.rw.testBit k then v.getLsbD k else (s.reg num).testBit k && !(r.w1c.testBit k && v.getLsbD k) := by
  have hsmall : ∀ n ∈ 0x620 :: plainRegs, n % 0x1000 = n := by decide
  rw [testBit_writeReg (by rw [hsmall num h, hr]) _ hk, ← BitVec.getLsbD]
  cases hrw : r.rw.testBit k with
  | false => simp
  | true => simp [rw_w1c_disjoint h hr hrw]

theorem reg_writeReg_other {s : State} {num o v : Nat} (h : o ≠ num) : (s.writeReg num v).reg o = s.reg o := by
  unfold State.writeReg
  split
  · rfl
  · exact reg_setReg_other h

theorem writeReg_regs (s : State) (num v : Nat) : s.writeReg num v = { s with regs := (s.writeReg num v).regs } := by
  unfold State.writeReg
  split <;> rfl

/-- SCOPE_CTL keeps the tags of scopes only while EN is 1 (R283). -/
theorem scopeCtlWrite_eq (s : State) (v : BitVec 64) : s.scopeCtlWrite v.toNat =
    { s.writeReg 0x620 v.toNat with coh := if v.getLsbD 63 = false then { s.coh with scopeTags := [] } else s.coh } := by
  have hen : bitOf ((s.writeReg 0x620 v.toNat).reg 0x620) 63 = v.getLsbD 63 :=
    (testBit_writeReg_plain (num := 0x620) List.mem_cons_self rfl v (by decide)).trans (if_pos (by decide))
  have hcoh : (s.writeReg 0x620 v.toNat).coh = s.coh := by rw [writeReg_regs]
  unfold State.scopeCtlWrite
  dsimp only
  rw [hen, hcoh]
  cases v.getLsbD 63 with
  | false => simp
  | true =>
    rw [if_pos rfl, if_neg (by simp), ← hcoh]

theorem sysWrite_listed {s : State} {num : Nat} (h : num ∈ 0x620 :: plainRegs) (die : Nat) (v : BitVec 64) :
    s.sysWrite die num v.toNat = { s.writeReg num v.toNat with
      coh := if num = 0x620 ∧ v.getLsbD 63 = false then { s.coh with scopeTags := [] } else s.coh } := by
  rcases List.mem_cons.1 h with rfl | hp
  · rw [sysWrite_scopeCtl, scopeCtlWrite_eq]
    simp
  · have hne : ∀ n ∈ plainRegs, n ≠ 0x620 := by decide
    have hcoh : (s.writeReg num v.toNat).coh = s.coh := by rw [writeReg_regs]
    rw [sysWrite_plain hp, if_neg (fun hc => hne num hp hc.1), ← hcoh]

theorem registerWrite_spec {s : State} {num : Nat} {r : RegSpec} (h : num ∈ 0x620 :: plainRegs) (hr : regSpec num = some r) {die : Nat}
    (hd : die < 4) (v : BitVec 64) :
    let u := s.registerWrite false die num v
    u = { s with regs := u.regs, coh := u.coh } ∧
      u.coh = (if num = 0x620 ∧ v.getLsbD 63 = false then { s.coh with scopeTags := [] } else s.coh) ∧
      (∀ o, o ≠ num → u.reg o = s.reg o) ∧
      ∀ k < 64, (u.reg num).testBit k =
        if r.rw.testBit k then v.getLsbD k else (s.reg num).testBit k && !(r.w1c.testBit k && v.getLsbD k) := by
  have hu : s.registerWrite false die num v = s.sysWrite die num v.toNat := by
    simp [State.registerWrite, hr, hd]
  rw [hu, sysWrite_listed h]
  refine ⟨?_, rfl, fun o ho => reg_writeReg_other ho, fun k hk => testBit_writeReg_plain h hr v hk⟩
  rw [writeReg_regs]

theorem registerWrite_unassigned {s : State} {die num : Nat} (h : regSpec num = none ∨ 4 ≤ die) (v : BitVec 64) :
    s.registerWrite false die num v = s := by
  have : ((regSpec num).isNone || decide (4 ≤ die)) = true := by simpa using h
  simp only [State.registerWrite, this]
  rfl

end Sys2Proof.Proofs
end

