-- ==== Sys2Proof/Proofs/QuietLine.lean ====
section
/-! A store of the device's own to a line that no cache holds (R20, R211, R286): with no copy and no owner anywhere the home only
writes the masked bytes, and the next store finds the line as calm as this one did. -/
namespace Sys2Proof.Proofs
open Sys2Proof Sys2Proof.Machine Sys2Proof.Laws

-- Bytes of a line.

theorem getLsbD_mergeLine (m x y : Line) (i : Nat) :
    (mergeLine m x y).getLsbD i = if m.getLsbD i then y.getLsbD i else x.getLsbD i := by
  by_cases hi : i < 1024
  · simp only [mergeLine, BitVec.getLsbD_or, BitVec.getLsbD_and, BitVec.getLsbD_not, hi, decide_true, Bool.true_and]
    cases m.getLsbD i <;> simp
  · simp [BitVec.getLsbD_of_ge _ _ (Nat.not_lt.1 hi)]

theorem getLsbD_byteMask {o n i : Nat} (hi : i < 1024) : (byteMask o n).getLsbD i = decide (8 * o ≤ i ∧ i < 8 * o + 8 * n) := by
  rw [byteMask, BitVec.getLsbD_ofNat, Nat.testBit_shiftLeft, Nat.testBit_two_pow_sub_one]
  simp only [hi, decide_true, Bool.true_and]
  rw [← Bool.decide_and]
  exact decide_eq_decide.2 (by omega)

theorem getLsbD_putLine_zero {o n v i : Nat} (hi : i < 1024) (h : 8 * o ≤ i ∧ i < 8 * o + 8 * n) :
    (putLine 0 o n v).getLsbD i = v.testBit (i - 8 * o) := by
  simp only [putLine, BitVec.getLsbD_or, BitVec.getLsbD_and, BitVec.getLsbD_ofNat, Nat.testBit_shiftLeft, Nat.testBit_mod_two_pow]
  simp [hi, h.1, show i - 8 * o < 8 * n by omega]

theorem testBit_lineNat (x : Line) (o n k : Nat) : (lineNat x o n).testBit k = (decide (k < 8 * n) && x.getLsbD (8 * o + k)) := by
  rw [lineNat, Nat.testBit_mod_two_pow, Nat.testBit_shiftRight]
  rfl

/-- The line after n bytes are stored at an offset. -/
def stored (x : Line) (o n v : Nat) : Line := mergeLine (byteMask o n) x (putLine 0 o n v)

theorem lineNat_stored_same (x : Line) {o n v : Nat} (h : o + n ≤ 128) : lineNat (stored x o n v) o n = v % 2 ^ (8 * n) := by
  apply Nat.eq_of_testBit_eq
  intro k
  rw [testBit_lineNat, Nat.testBit_mod_two_pow]
  by_cases hk : k < 8 * n
  · rw [stored, getLsbD_mergeLine, getLsbD_byteMask (by omega), if_pos (by simp; omega), getLsbD_putLine_zero (by omega) (by omega),
      Nat.add_sub_cancel_left]
  · simp [hk]

theorem lineNat_stored_other (x : Line) {o n v o' n' : Nat} (h : o' + n' ≤ 128) (hd : o' + n' ≤ o ∨ o + n ≤ o') :
    lineNat (stored x o n v) o' n' = lineNat x o' n' := by
  apply Nat.eq_of_testBit_eq
  intro k
  rw [testBit_lineNat, testBit_lineNat]
  by_cases hk : k < 8 * n'
  · rw [stored, getLsbD_mergeLine, getLsbD_byteMask (by omega), if_neg (by simp; omega)]
  · simp [hk]

-- Lines that no cache holds.

/-- An L3 entry of a line that records no copy: no owner, no replica and no die. -/
structure Unshared (e : L3Entry) (line : Nat) : Prop where
  line : e.line = line
  own : e.own = none
  rep : e.rep = 0
  drec : e.drec = [none, none, none, none]

/-- The caches hold nothing but at most the line's own entry at its L3 home, and no mapped stash line is dirty. -/
structure Calm (s : State) (line : Nat) : Prop where
  clean : ∀ l ∈ s.stash.lines, l.dirty = false
  l1 : s.coh.l1 = []
  l2 : s.coh.l2 = []
  replicas : s.coh.replicas = []
  collapses : s.coh.collapses = []
  l3 : ∀ e ∈ s.coh.l3, Unshared e line

section
variable {s : State} {line : Nat} (h : Calm s line)
include h

theorem Calm.entry : Unshared (s.l3 line) line := by
  unfold State.l3 State.l3?
  cases hf : s.coh.l3.find? fun e => e.line == line with
  | none => exact ⟨rfl, rfl, rfl, rfl⟩
  | some e => exact h.l3 e (List.mem_of_find?_eq_some hf)

/-- Only the stash's lines and these tables matter. -/
theorem Calm.of_eq {u : State} (hl : u.stash.lines = s.stash.lines) (h1 : u.coh.l1 = s.coh.l1) (h2 : u.coh.l2 = s.coh.l2)
    (hr : u.coh.replicas = s.coh.replicas) (hc : u.coh.collapses = s.coh.collapses) (h3 : u.coh.l3 = s.coh.l3) : Calm u line :=
  ⟨hl ▸ h.clean, h1 ▸ h.l1, h2 ▸ h.l2, hr ▸ h.replicas, hc ▸ h.collapses, h3 ▸ h.l3⟩

theorem Calm.setL3 {e : L3Entry} (he : Unshared e line) : Calm (s.setL3 e) line := by
  refine ⟨h.clean, h.l1, h.l2, h.replicas, h.collapses, fun x hx => ?_⟩
  simp only [State.setL3] at hx
  split at hx
  · obtain ⟨y, hy, rfl⟩ := List.mem_map.1 hx
    split
    · exact he
    · exact h.l3 y hy
  · rcases List.mem_append.1 hx with hx | hx
    · exact h.l3 x hx
    · exact List.mem_singleton.1 hx ▸ he

theorem Calm.setL1 {l1 : List L1Line} (h1 : l1 = []) : Calm { s with coh := { s.coh with l1 := l1 } } line :=
  ⟨h.clean, h1, h.l2, h.replicas, h.collapses, h.l3⟩

theorem Calm.setSf (l : Nat) (sf : Option Ty) : Calm (s.setSf l sf) line := by
  refine ⟨h.clean, h.l1, by simp [State.setSf, h.l2], h.replicas, h.collapses, fun x hx => ?_⟩
  obtain ⟨y, hy, rfl⟩ := List.mem_map.1 hx
  obtain ⟨hline, hown, hrep, hdrec⟩ := h.l3 y hy
  split
  · exact ⟨hline, hown, hrep, hdrec⟩
  · exact ⟨hline, hown, hrep, hdrec⟩

theorem Calm.clearSf : Calm (s.clearSf line) line := by
  unfold State.clearSf
  dsimp only
  split
  · exact h
  · exact h.setSf line none

theorem Calm.followHw {e : L3Entry} (he : Unshared e line) : Calm (s.followHw e) line := by
  have hset : Calm (s.setL3 { e with hw := e.subFull, own := if e.subFull then none else e.own }) line :=
    h.setL3 ⟨he.line, by simp [he.own], he.rep, he.drec⟩
  exact ⟨hset.clean, hset.l1, by simp [State.followHw, hset.l2], hset.replicas, hset.collapses, hset.l3⟩

theorem Calm.settle : Calm (s.settle line) line := by
  unfold State.settle State.settleL3
  split
  · rw [h.entry.line]
    exact (h.followHw h.entry).clearSf
  · exact h

theorem Calm.recallOwner : s.recallOwner line = s := by
  unfold State.recallOwner
  dsimp only
  rw [h.entry.own]

theorem Calm.countWrite : Calm (s.countWrite line) line := by
  unfold State.countWrite
  split
  · exact h
  · exact h.of_eq rfl rfl rfl rfl rfl rfl

theorem Calm.roomL3 : s.roomL3 line = s := by
  have hnone : (s.inSlice (s.homeQuad line) (sliceOf line)).filter (fun x => x.1 != line) = [] := by
    rw [List.filter_eq_nil_iff]
    intro x hx
    simp only [State.inSlice, h.replicas, List.filter_nil, List.map_nil, List.append_nil, List.mem_map, List.mem_filter] at hx
    obtain ⟨e, ⟨he, -⟩, rfl⟩ := hx
    simp [(h.l3 e he).line]
  have hfew : ((s.inSlice (s.homeQuad line) (sliceOf line)).filter (fun x => x.1 != line)).length < 16 := by
    rw [hnone]
    decide
  exact if_pos hfew

theorem Calm.l3Miss (hint : BitVec 3) (always : Bool) : Calm (s.l3Miss line hint always).2 line := by
  unfold State.l3Miss
  dsimp only
  split_ifs
  · exact h
  · exact h
  · exact h
  · exact h.of_eq rfl rfl rfl rfl rfl rfl

theorem Calm.clearCpq : Calm (if (s.l3 line).cpq = 0 then s else s.setL3 { s.l3 line with cpq := 0 }) line := by
  split
  · exact h
  · exact h.setL3 ⟨h.entry.line, h.entry.own, h.entry.rep, h.entry.drec⟩

theorem Calm.collapse (cv : BitVec 5) (new : Line) (counted : Bool) (w : List Agent) (sp : Spared) :
    Calm (s.collapse line cv new true counted w sp) line := by
  have hnone : (List.range 4).filter (fun q => (s.l3 line).rep.getLsbD q ||
      (s.coh.collapses.filter fun c => c.line == line).any fun c => c.quad == q) = [] := by
    simp [h.entry.rep, h.collapses]
  have hcalm : Calm { s with coh := { s.coh with collapses := s.coh.collapses.filter fun c => c.line != line } } line :=
    h.of_eq rfl rfl rfl rfl (by simp [h.collapses]) rfl
  unfold State.collapse
  dsimp only
  rw [if_pos rfl, hnone]
  exact hcalm.clearCpq

theorem Calm.present : (s.l3 line).present = [] := by
  have : ∀ d < 4, ((s.l3 line).die d).isSome = false := by
    unfold L3Entry.die
    rw [h.entry.drec]
    decide
  exact List.filter_eq_nil_iff.2 fun d hd => by simp [this d (List.mem_range.1 hd)]

theorem Calm.recallStash (via : Option (Nat × Nat)) : s.recallStash line via = s := by
  have hnone : s.stash.lines.filter (fun m => m.pa == line && m.dirty && via != some (m.tile, m.off)) = [] :=
    List.filter_eq_nil_iff.2 fun m hm => by simp [h.clean m hm]
  rw [State.recallStash, hnone]
  rfl
end

-- A demand read leaves the contents of memory and the caches alone (R36, R40).

theorem hbmRead_cases (s : State) (line : Nat) : s.hbmRead line = s ∨ Sparse.get? s.mem.chip line = none := by
  unfold State.hbmRead
  split
  · exact .inl rfl
  · rename_i hc
    right
    simp at hc
    exact hc.2

/-- What a demand read can change of memory: which faults, poison and requests stand, but no contents and no key. -/
structure SameContents (s u : State) : Prop where
  hbm : u.mem.hbm = s.mem.hbm
  sys : u.mem.sys = s.mem.sys
  chip : u.mem.chip = s.mem.chip
  slotKey : u.mem.slotKey = s.mem.slotKey
  keys : u.mem.keys = s.mem.keys
  coh : u.coh = s.coh
  stash : u.stash = s.stash

theorem SameContents.refl (s : State) : SameContents s s := ⟨rfl, rfl, rfl, rfl, rfl, rfl, rfl⟩

theorem SameContents.trans {a b c : State} (h : SameContents a b) (k : SameContents b c) : SameContents a c :=
  ⟨k.hbm.trans h.hbm, k.sys.trans h.sys, k.chip.trans h.chip, k.slotKey.trans h.slotKey, k.keys.trans h.keys, k.coh.trans h.coh,
    k.stash.trans h.stash⟩

theorem sameContents_newPoison (s : State) (line : Nat) : SameContents s (s.newPoison line) := by
  unfold State.newPoison
  dsimp only
  split <;> exact ⟨rfl, rfl, rfl, rfl, rfl, rfl, rfl⟩

theorem sameContents_setPoison {s : State} {line : Nat} (h : Sparse.get? s.mem.chip line = none) : SameContents s (s.setPoison line) := by
  unfold State.setPoison
  split
  · exact .refl s
  · exact ⟨rfl, rfl, rfl, rfl, rfl, rfl, rfl⟩
  · rw [h]
    exact ⟨rfl, rfl, rfl, rfl, rfl, rfl, rfl⟩

theorem sameContents_poisonLine {s : State} {line : Nat} (h : Sparse.get? s.mem.chip line = none) :
    SameContents s (s.poisonLine line) := by
  unfold State.poisonLine
  split
  · exact .refl s
  · exact (sameContents_setPoison h).trans (sameContents_newPoison _ _)

theorem sameContents_hbmRead (s : State) (line : Nat) : SameContents s (s.hbmRead line) := by
  rcases hbmRead_cases s line with h | h
  · rw [h]
    exact .refl s
  unfold State.hbmRead
  split
  · exact .refl s
  dsimp only
  split
  · exact ⟨rfl, rfl, rfl, rfl, rfl, rfl, rfl⟩
  · split
    · refine SameContents.trans ?_ (sameContents_poisonLine h)
      exact ⟨rfl, rfl, rfl, rfl, rfl, rfl, rfl⟩
    · exact ⟨rfl, rfl, rfl, rfl, rfl, rfl, rfl⟩

theorem SameContents.calm {s u : State} (h : SameContents s u) {line : Nat} (hs : Calm s line) : Calm u line :=
  hs.of_eq (by rw [h.stash]) (by rw [h.coh]) (by rw [h.coh]) (by rw [h.coh]) (by rw [h.coh]) (by rw [h.coh])

theorem mapsMemory_of_beyond {s u : State} (h : beyondHomes u = beyondHomes s) (k : Nat) (hk : mapsMemory k) : u.reg k = s.reg k :=
  reg_of_beyond (beyondStores_of_homes h) (by unfold mapsMemory at hk; omega) (by unfold mapsMemory at hk; omega)

theorem SameContents.lineAt {s u : State} (h : SameContents s u) (hb : beyondHomes u = beyondHomes s) (line key : Nat) :
    u.lineAt line key = s.lineAt line key := by
  have hreg := mapsMemory_of_beyond hb
  simp only [State.lineAt, State.hbmLine, State.keyAt, window_congr hreg, slotOf_congr hreg, h.hbm, h.sys, h.chip, h.slotKey, h.keys]

theorem Calm.atL3 {s : State} {line : Nat} (h : Calm s line) (hint : BitVec 3) (always : Bool) : Calm (s.atL3 line hint always) line := by
  unfold State.atL3
  rw [h.roomL3]
  dsimp only
  split
  · exact h
  · have hmiss := ((sameContents_hbmRead s line).calm h).l3Miss hint always
    exact hmiss.setL3 ⟨hmiss.entry.line, hmiss.entry.own, hmiss.entry.rep, hmiss.entry.drec⟩

-- The store (R211).

/-- A line of device memory that no cache holds, with the layout locked and no store of the device's own waiting. -/
structure Quiet (s : State) (line : Nat) : Prop extends Calm s line where
  locked : s.locked = true
  waiting : ∀ x ∈ s.stores, x.agent ≠ .launch 0
  backed : s.backed (line * 128) = true
  device : s.isSystem (line * 128) = false
  key : ∀ c, Sparse.get? s.mem.chip line = some c → c.key = 0

/-- The storer of the device's own stores. -/
def ownStorer : Storer := plainStorer (.launch 0) none .t

theorem lineAt_chip {s : State} {line : Nat} (hb : s.backed (line * 128) = true) (hd : s.isSystem (line * 128) = false) {c : ChipLine}
    (hc : Sparse.get? s.mem.chip line = some c) : s.lineAt line c.key = c.data := by
  unfold State.lineAt
  rw [hc]
  unfold State.backed at hb
  unfold State.isSystem at hd
  split
  · simp_all
  · simp_all
  · simp

theorem storeLine_device {s : State} {line : Nat} (hb : s.backed (line * 128) = true) (hd : s.isSystem (line * 128) = false) (key : Nat)
    (d : Line) (p : Bool) : s.storeLine line key d p = { s with mem := { s.mem with chip := Sparse.set s.mem.chip line ⟨key, d, p⟩ } } := by
  unfold State.storeLine
  unfold State.backed at hb
  unfold State.isSystem at hd
  split <;> simp_all

theorem Quiet.rekey {s : State} {line : Nat} (h : Quiet s line) : s.rekey line 0 = s := by
  unfold State.rekey
  split
  · simp [h.l1, h.l2, h.replicas]
  · rename_i c hc
    rw [if_pos (h.key c hc)]

theorem Calm.storerL1 {s : State} {line : Nat} (h : Calm s line) : Calm (s.storerL1 line ownStorer) line :=
  h.of_eq rfl (by simp [State.storerL1, State.dropL1, ownStorer, plainStorer, h.l1]) rfl rfl rfl rfl

theorem hostHold_device {s : State} {line : Nat} (h : s.isSystem (line * 128) = false) (own : Bool) : s.hostHold line own = s := by
  unfold State.hostHold
  simp [h]

theorem hostDirty_device {s : State} {line : Nat} (h : s.isSystem (line * 128) = false) (m : Line) : s.hostDirty line m = s := by
  unfold State.hostDirty
  simp [h]

theorem samePoison_eq (s : State) (line : Nat) (p : Bool) :
    s.samePoison line p = { s with stash := { s.stash with poison := (s.samePoison line p).stash.poison } } := by
  unfold State.samePoison
  dsimp only
  split <;> rfl

theorem backed_of_beyond {s u : State} (h : beyondHomes u = beyondHomes s) (pa : Nat) :
    u.backed pa = s.backed pa ∧ u.isSystem pa = s.isSystem pa := by
  rw [State.backed, State.isSystem, window_congr (mapsMemory_of_beyond h)]
  exact ⟨rfl, rfl⟩

/-- At a quiet line the home's work before the write leaves the caches calm, and what it writes is the old line with the masked
bytes. -/
theorem place_quiet_cases {s : State} {line : Nat} (h : Quiet s line) (mask data : Line) :
    ∃ (x : State) (p : Bool), Calm x line ∧ beyondHomes x = beyondHomes s ∧
      (s.place line 0 mask data ownStorer).2 =
        (x.storeLine line 0 (mergeLine mask (s.lineAt line 0) data) p).samePoison line p := by
  unfold State.place
  extract_lets full read s1 old new s2 sf cv sp who home passes atHome sent performed s3 poison l1 coh s4 s5
  have hread : SameContents s read := by
    simp only [read]
    split
    · exact .refl s
    · exact sameContents_hbmRead s line
  have hbread : beyondHomes read = beyondHomes s := by simp [read]
  have hold : old = s.lineAt line 0 := hread.lineAt hbread line 0
  have h2 : Calm s2 line := (hread.calm h.toCalm).storerL1.clearSf
  have hb2 : beyondHomes s2 = beyondHomes s := by simp [s2, s1, hbread]
  have hhome : Calm atHome line := by
    simp only [atHome]
    rw [h2.recallOwner]
    exact h2.countWrite.atL3 _ _
  have hsent : sent = atHome := by
    unfold sent
    rw [hhome.present, List.foldl_nil]
  have hhomeless : performed = (atHome.settle line).collapse line cv new true true who sp := by
    have hhome : home = none := rfl
    unfold performed
    rw [hhome]
    dsimp only
    rw [hsent]
    rfl
  have hperformed : Calm performed line := by
    rw [hhomeless]
    exact hhome.settle.collapse cv new true who sp
  have hb : beyondHomes performed = beyondHomes s := by
    rw [hhomeless]
    simp [atHome, hb2]
  have hdevice : performed.isSystem (line * 128) = false := by
    rw [(backed_of_beyond hb _).2]
    exact h.device
  have h3 : s3 = performed := by
    simp only [s3]
    split
    · rfl
    · rw [hostHold_device hdevice, hostDirty_device hdevice]
  have hcalm3 : Calm s3 line := by
    rw [h3]
    exact hperformed
  have hpasses : passes = false := rfl
  have hl1 : l1 = [] := by
    unfold l1
    rw [hcalm3.l1, List.map_nil]
  refine ⟨s4, poison, hcalm3.setL1 hl1, ?_, ?_⟩
  · have hb4 : beyondHomes s4 = beyondHomes s3 := beyond_coh s3 _
    rw [hb4, h3, hb]
  · have hs5 : (old, if passes = true then s5.l3WriteBack line else s5).2 = s5 := by
      simp only [hpasses, Bool.false_eq_true, if_false]
    rw [hs5, ← hold]

end Sys2Proof.Proofs
end

