-- ==== Sys2Proof/Proofs/ItineraryLog.lean ====
section
/-! The Itinerary's records (R286, R287): where a record goes, what one that does not fit leaves, and the words that a calm line of
the log then holds. -/
namespace Sys2Proof.Proofs
open Sys2Proof Sys2Proof.Machine Sys2Proof.Laws

-- One word to a quiet line.

theorem locked_of_beyond {s u : State} (h : beyondHomes u = beyondHomes s) : u.locked = s.locked := by
  rw [State.locked, State.locked, mapsMemory_of_beyond h _ (.inl rfl)]

theorem perform_quiet {s : State} {line : Nat} (h : Quiet s line) (mask data : Line) :
    let u := (s.perform line 0 mask data ownStorer).2
    Quiet u line ∧ u.lineAt line 0 = mergeLine mask (s.lineAt line 0) data := by
  have hplace : (s.perform line 0 mask data ownStorer).2 = (s.place line 0 mask data ownStorer).2 := by
    have hprobe : ∀ cv, s.probeWith abortRec line cv ownStorer = s := fun _ => rfl
    unfold State.perform State.performWith
    rw [h.recallStash, h.rekey]
    dsimp only
    rw [hprobe]
  obtain ⟨u, hu⟩ : ∃ u, u = (s.place line 0 mask data ownStorer).2 := ⟨_, rfl⟩
  rw [hplace, ← hu]
  obtain ⟨x, p, hcalm, hb, hx⟩ := place_quiet_cases h mask data
  obtain ⟨hback, hsys⟩ := backed_of_beyond hb (line * 128)
  rw [h.backed] at hback
  rw [h.device] at hsys
  rw [storeLine_device hback hsys, ← hu] at hx
  have hbu : beyondHomes u = beyondHomes s := by
    rw [hu]
    exact beyond_place s line 0 mask data ownStorer
  have hchip : Sparse.get? u.mem.chip line = some ⟨0, mergeLine mask (s.lineAt line 0) data, p⟩ := by
    rw [hx, samePoison_eq]
    exact get?_set_same _ _ _
  obtain ⟨hbacku, hsysu⟩ := backed_of_beyond hbu (line * 128)
  refine ⟨{ toCalm := ?_, locked := ?_, waiting := ?_, backed := ?_, device := ?_, key := ?_ }, ?_⟩
  · rw [hx, samePoison_eq]
    exact hcalm.of_eq rfl rfl rfl rfl rfl rfl
  · rw [locked_of_beyond hbu, h.locked]
  · rw [stores_of_beyondHomes hbu]
    exact h.waiting
  · rw [hbacku, h.backed]
  · rw [hsysu, h.device]
  · intro c hc
    rw [hchip] at hc
    cases hc
    rfl
  · exact lineAt_chip (by rw [hbacku, h.backed]) (by rw [hsysu, h.device]) hchip

/-- The windows of the address map begin and end at lines (R18). -/
theorem window_line (s : State) (pa : Nat) : s.window (pa / 128 * 128) = s.window pa := by
  have hsel : bitOf (pa / 128 * 128) 50 = bitOf pa 50 := by
    rw [bitOf, bitOf, Nat.testBit_eq_decide_div_mod_eq, Nat.testBit_eq_decide_div_mod_eq, show pa / 128 * 128 / 2 ^ 50 = pa / 2 ^ 50 by omega]
  have hbits : ∀ lo n, 7 ≤ lo → bitsOf (pa / 128 * 128) lo n = bitsOf pa lo n := fun lo n hlo => by
    have hsplit : 2 ^ lo = 128 * 2 ^ (lo - 7) := by
      rw [show lo = 7 + (lo - 7) by omega, Nat.pow_add]
      simp
    rw [bitsOf, bitsOf, Nat.shiftRight_eq_div_pow, Nat.shiftRight_eq_div_pow, hsplit, ← Nat.div_div_eq_div_mul,
      ← Nat.div_div_eq_div_mul, Nat.mul_div_cancel _ (by decide)]
  have hspread : pa / 128 * 128 < gib * (8 * s.spread) ↔ pa < gib * (8 * s.spread) := by
    unfold gib
    omega
  have hquad : pa / 128 * 128 % 2 ^ 37 < gib * (2 * (64 - s.spread)) ↔ pa % 2 ^ 37 < gib * (2 * (64 - s.spread)) := by
    unfold gib
    omega
  have hsystem : (2 ^ 51 ≤ pa / 128 * 128 ∧ pa / 128 * 128 < 2 ^ 52) ↔ (2 ^ 51 ≤ pa ∧ pa < 2 ^ 52) := by omega
  have hquads : (2 ^ 40 ≤ pa / 128 * 128 ∧ pa / 128 * 128 < 2 ^ 40 + 4 * 2 ^ 37) ↔ (2 ^ 40 ≤ pa ∧ pa < 2 ^ 40 + 4 * 2 ^ 37) := by omega
  have hin : (2 ^ 40 ≤ pa / 128 * 128 ∧ pa / 128 * 128 < 2 ^ 40 + 4 * 2 ^ 37 ∧ pa / 128 * 128 % 2 ^ 37 < gib * (2 * (64 - s.spread))) ↔
      (2 ^ 40 ≤ pa ∧ pa < 2 ^ 40 + 4 * 2 ^ 37 ∧ pa % 2 ^ 37 < gib * (2 * (64 - s.spread))) := by
    rw [← and_assoc, ← and_assoc, hquads, hquad]
  unfold State.window
  simp only [hspread, hsystem, hin, hsel, hbits 42 8 (by decide), hbits 37 2 (by decide)]

theorem physStore_quiet {s : State} {pa : Nat} (h : Quiet s (pa / 128)) (v : Nat) :
    let u := s.physStore pa 8 v 0
    Quiet u (pa / 128) ∧ u.lineAt (pa / 128) 0 = stored (s.lineAt (pa / 128) 0) (pa % 128) 8 v := by
  have hwin := window_line s pa
  have hb : s.backed pa = true := by
    rw [State.backed, ← hwin]
    exact h.backed
  have hany : (s.stores.any fun x => x.agent == .launch 0) = false :=
    List.any_eq_false.2 fun x hx => by simpa using h.waiting x hx
  have hnow : s.physStore pa 8 v 0 = (s.perform (pa / 128) 0 (byteMask (pa % 128) 8) (putLine 0 (pa % 128) 8 v) ownStorer).2 := by
    unfold State.physStore
    rw [if_neg (by simp [hb]), if_neg (by simp [h.locked, hany])]
    rfl
  rw [hnow]
  exact perform_quiet h _ _

/-- Words stored into one quiet line stand there one after another, and the other bytes of the line stay. -/
theorem physWords_quiet (ws : List (BitVec 64)) {s : State} {pa line : Nat} (hl : pa / 128 = line) (h : Quiet s line)
    (hfit : pa % 128 + 8 * ws.length ≤ 128) :
    let u := s.physWords pa ws
    (∀ k < ws.length, lineNat (u.lineAt line 0) (pa % 128 + 8 * k) 8 = (ws.getD k 0).toNat) ∧
      ∀ o, o + 8 ≤ pa % 128 → lineNat (u.lineAt line 0) o 8 = lineNat (s.lineAt line 0) o 8 := by
  induction ws generalizing s pa with
  | nil => exact ⟨fun k hk => absurd hk (Nat.not_lt_zero k), fun _ _ => rfl⟩
  | cons w ws ih =>
    rw [List.length_cons] at hfit
    obtain ⟨hq, hline⟩ := physStore_quiet (pa := pa) (hl ▸ h) w.toNat
    rw [hl] at hq hline
    rw [State.physWords]
    generalize s.physStore pa 8 w.toNat 0 = s1 at hq hline ⊢
    have hfirst : lineNat (s1.lineAt line 0) (pa % 128) 8 = w.toNat := by
      rw [hline, lineNat_stored_same _ (by omega)]
      exact Nat.mod_eq_of_lt w.isLt
    cases ws with
    | nil =>
      refine ⟨fun k hk => ?_, fun o ho => ?_⟩
      · obtain rfl : k = 0 := by simpa using hk
        exact hfirst
      · rw [State.physWords]
        rw [hline, lineNat_stored_other _ (by omega) (by omega)]
    | cons x ws =>
      rw [List.length_cons] at hfit
      have hmod : (pa + 8) % 128 = pa % 128 + 8 := by omega
      obtain ⟨hwords, hothers⟩ := ih (pa := pa + 8) (by omega) hq (by rw [List.length_cons]; omega)
      rw [hmod] at hwords hothers
      refine ⟨fun k hk => ?_, fun o ho => ?_⟩
      · cases k with
        | zero => exact (hothers (pa % 128) (by omega)).trans hfirst
        | succ k =>
          rw [show pa % 128 + 8 * (k + 1) = pa % 128 + 8 + 8 * k by omega]
          exact hwords k (by simpa using hk)
      · refine (hothers o (by omega)).trans ?_
        rw [hline, lineNat_stored_other _ (by omega) (by omega)]

-- Records (R286, R287).

/-- The words of a record. -/
def recordWords (s : State) (kind tile : Nat) (w1 w2 w3 : BitVec 64) : List (BitVec 64) :=
  [BitVec.ofNat 64 (kind + 2 ^ 8 * (tile % 256) + 2 ^ 16 * (s.dbg.csn % 2 ^ 48)), w1, w2, w3]

/-- The log after the words of a record. -/
@[irreducible] def recorded (s : State) (kind tile : Nat) (w1 w2 w3 : BitVec 64) : State :=
  s.physWords (s.itinBase + s.dbg.itinOff) (recordWords s kind tile w1 w2 w3)

theorem itinWrite_eq (s : State) (kind tile : Nat) (w1 w2 w3 : BitVec 64) :
    s.itinWrite kind tile w1 w2 w3 = { recorded s kind tile w1 w2 w3 with
      dbg := { (recorded s kind tile w1 w2 w3).dbg with itinOff := s.dbg.itinOff + 32 } } := by
  unfold State.itinWrite recorded recordWords
  dsimp only

theorem recorded_kept (s : State) (kind tile : Nat) (w1 w2 w3 : BitVec 64) :
    beyondStores (recorded s kind tile w1 w2 w3) = beyondStores s := by
  unfold recorded
  exact beyondStores_physWords ..

theorem itinAppend_fits {s : State} (h : s.dbg.itinStopped = false) (hfit : s.dbg.itinOff + 64 ≤ s.itinSize) (kind tile : Nat)
    (w1 w2 w3 : BitVec 64) : s.itinAppend kind tile w1 w2 w3 = s.itinWrite kind tile w1 w2 w3 := by
  unfold State.itinAppend
  rw [h, if_neg (by decide), if_pos hfit]

/-- A record that does not fit is replaced by FULL, whose number ITIN_STAT then shows with FULL set. -/
theorem itinAppend_full {s : State} (h : s.dbg.itinStopped = false) (hfull : s.itinSize < s.dbg.itinOff + 64) (kind tile : Nat)
    (w1 w2 w3 : BitVec 64) :
    let u := s.itinAppend kind tile w1 w2 w3
    u.dbg.itinStopped = true ∧ bitOf (u.reg 0x642) 63 = true ∧ bitsOf (u.reg 0x642) 14 48 = s.dbg.csn % 2 ^ 48 := by
  have hcsn : (s.itinWrite 8 tile (BitVec.ofNat 64 s.dbg.csn) 0 0).dbg.csn = s.dbg.csn := by
    obtain ⟨p, hdbg⟩ := dbg_of_beyond (recorded_kept s 8 tile (BitVec.ofNat 64 s.dbg.csn) 0 0)
    rw [itinWrite_eq, hdbg]
  unfold State.itinAppend
  rw [h, if_neg (by decide), if_neg (by omega)]
  dsimp only
  rw [hcsn]
  refine ⟨rfl, ?_, ?_⟩
  · rw [bitOf_onReg (by decide), bitOf_putField_other (by decide), bitOf_putField_same]
    rfl
  · rw [bitsOf_onReg (by decide), bitsOf_putField_same]

theorem itinWrite_spec (s : State) (kind tile : Nat) (w1 w2 w3 : BitVec 64) :
    let u := s.itinWrite kind tile w1 w2 w3
    u.dbg.itinOff = s.dbg.itinOff + 32 ∧ u.dbg.itinStopped = s.dbg.itinStopped ∧ u.threads = s.threads := by
  have hkept := recorded_kept s kind tile w1 w2 w3
  obtain ⟨p, hdbg⟩ := dbg_of_beyond hkept
  refine ⟨rfl, ?_, ?_⟩
  · rw [itinWrite_eq, hdbg]
  · have hthreads := threads_of_beyond hkept
    rw [itinWrite_eq]
    exact hthreads

theorem itinWrite_words {s : State} {pa : Nat} (hpa : s.itinBase + s.dbg.itinOff = pa) (h : Quiet s (pa / 128)) (hal : pa % 32 = 0)
    (kind tile : Nat) (w1 w2 w3 : BitVec 64) {k : Nat} (hk : k < 4) :
    lineNat ((s.itinWrite kind tile w1 w2 w3).lineAt (pa / 128) 0) (pa % 128 + 8 * k) 8 =
      ((recordWords s kind tile w1 w2 w3).getD k 0).toNat := by
  have hlen : (recordWords s kind tile w1 w2 w3).length = 4 := rfl
  have hline : (s.itinWrite kind tile w1 w2 w3).lineAt (pa / 128) 0 = (recorded s kind tile w1 w2 w3).lineAt (pa / 128) 0 := by
    rw [itinWrite_eq]
    exact lineAt_congr (fun _ _ => rfl) rfl _ _
  have hrecord : recorded s kind tile w1 w2 w3 = s.physWords pa (recordWords s kind tile w1 w2 w3) := by
    unfold recorded
    rw [hpa]
  generalize recordWords s kind tile w1 w2 w3 = ws at hlen hrecord ⊢
  obtain ⟨hwords, -⟩ := physWords_quiet ws rfl h (by omega)
  rw [hline, hrecord]
  exact hwords k (by omega)

/-- A calm package and a backed line of device memory, as the obligation gives them. -/
theorem quiet_of_reset {s : State} {line : Nat} (hlock : s.locked = true) (hs : ∀ x ∈ s.stores, x.agent ≠ .launch 0)
    (hcoh : s.coh = State.reset.coh) (hclean : ∀ l ∈ s.stash.lines, l.dirty = false) (hb : s.backed (line * 128) = true)
    (hd : s.isSystem (line * 128) = false) (hkey : ∀ c, Sparse.get? s.mem.chip line = some c → c.key = 0) : Quiet s line where
  clean := hclean
  l1 := by rw [hcoh]; rfl
  l2 := by rw [hcoh]; rfl
  replicas := by rw [hcoh]; rfl
  collapses := by rw [hcoh]; rfl
  l3 := by
    rw [hcoh]
    intro e he
    cases he
  locked := hlock
  waiting := hs
  backed := hb
  device := hd
  key := hkey

end Sys2Proof.Proofs
end

