-- ==== Sys2Proof/Proofs/DebugAndRegisters.lean ====
section
/-! Debug, sampling, replay, reset and register writes: the obligation, a part for each of its events. -/
namespace Sys2Proof.Proofs
open Sys2Proof Sys2Proof.Machine

theorem deviceReset_spec (s : State) : ∃ u : State, exec .deviceReset s = .next u ∧ u.cycle = 0 ∧ u.fatal = false ∧ u.threads = [] ∧
    u.regs = [] ∧ u.bar0 = [] ∧ u.runs = [] ∧ u.saved = [] ∧ u.queues = [] ∧ u.launches = [] ∧ u.lodges = [] ∧
    u.stash = State.reset.stash ∧ u.coh = State.reset.coh ∧ u.mem.hbm = s.mem.hbm ∧ u.mem.sys = s.mem.sys ∧ u.stores = [] ∧
    u.records = [] :=
  ⟨s.deviceReset, rfl, rfl, rfl, rfl, rfl, rfl, rfl, rfl, rfl, rfl, rfl, rfl, rfl, rfl, rfl, rfl, rfl⟩

theorem itineraryRecord_off {s : State}
    (h : bitOf (s.reg 0x640) 63 = false ∨ bitOf (s.reg 0x640) 62 = true ∨ s.dbg.itinStopped = true) (kind tile : Nat)
    (w1 w2 w3 : BitVec 64) : exec (.itineraryRecord kind tile w1 w2 w3) s = .next s := by
  show Host.Outcome.next (if bitOf (s.reg 0x640) 63 && !bitOf (s.reg 0x640) 62 then s.itinAppend kind tile w1 w2 w3 else s) = _
  have hstop (hs : s.dbg.itinStopped = true) : s.itinAppend kind tile w1 w2 w3 = s := if_pos hs
  rcases h with h | h | h
  · rw [h]
    rfl
  · rw [h, Bool.not_true, Bool.and_false]
    rfl
  · rw [hstop h, ite_self]

theorem itineraryRecord_on {s : State} (hon : bitOf (s.reg 0x640) 63 = true) (hrec : bitOf (s.reg 0x640) 62 = false) (kind tile : Nat)
    (w1 w2 w3 : BitVec 64) : exec (.itineraryRecord kind tile w1 w2 w3) s = .next (s.itinAppend kind tile w1 w2 w3) := by
  show Host.Outcome.next (if bitOf (s.reg 0x640) 63 && !bitOf (s.reg 0x640) 62 then s.itinAppend kind tile w1 w2 w3 else s) = _
  rw [hon, hrec]
  rfl

/-- The registers that the obligation names, SCOPE_CTL among them. -/
theorem mem_of_listed : ∀ num ∈ [0x00C, 0x00D, 0x031, 0x032, 0x033, 0x034, 0x050, 0x200, 0x400, 0x401, 0x402, 0x403, 0x404, 0x601,
    0x602, 0x610, 0x620, 0x641, 0x642], num ∈ 0x620 :: plainRegs := by decide

/-- Settles O60, event by event: a halt, a trigger, a resume and a step by what they set in DBG_CTL; the Bell, a dump and a record by
what the homes leave alone; the words of a record by the quiet line that each of its stores leaves to the next. -/
theorem debugAndRegisters : Obligations.DebugAndRegisters := by
  refine ⟨fun s tile => ⟨fun h => ?_, fun hlt hn => ?_, fun hn => ?_, fun h hw hs => ⟨?_, fun hstep hb => ?_⟩, fun h => ?_, fun h => ?_⟩,
    fun s v => ⟨fun h => ?_, fun hon hdue => ?_, ?_, ?_⟩, fun s kind tile w1 w2 w3 => ⟨fun h => ?_, fun hon hrec hrun => ⟨fun hfull => ?_,
    fun hfit => ?_⟩⟩, deviceReset_spec, fun s die num v => ⟨fun h => ?_, fun h1 h2 h8 => ?_, fun h => ?_, fun spec hspec hd hnum => ?_⟩⟩
  -- DBG_HALT
  · exact congrArg Host.Outcome.next (haltTile_stays s tile 1 0 h)
  · exact ⟨_, rfl, dbgHalt_spec hlt hn⟩
  -- DBG_RESUME and DBG_STEP
  · exact ⟨congrArg Host.Outcome.next (resumeTile_stays hn), congrArg Host.Outcome.next (stepTile_stays hn)⟩
  · exact ⟨_, rfl, dbgResume_spec h hw hs⟩
  · exact ⟨_, rfl, dbgStep_spec h hw hstep hb⟩
  -- CROSS_TRIGGER
  · exact congrArg Host.Outcome.next (crossTrig_stays h)
  · exact ⟨_, rfl, crossTrigger_spec h⟩
  -- BELL and BELL_RESTART
  · exact congrArg Host.Outcome.next (bell_waits h)
  · rw [← length_bellLog]
    exact ⟨_, rfl, bell_spec hon hdue⟩
  · exact ⟨_, rfl, bellRestart_spec s v.toNat⟩
  -- CORE_DUMP
  · exact ⟨_, rfl, coreDump_spec s v.toNat⟩
  -- ITINERARY_RECORD
  · exact itineraryRecord_off h kind tile w1 w2 w3
  · exact ⟨_, itineraryRecord_on hon hrec kind tile w1 w2 w3, itinAppend_full hrun hfull kind tile w1 w2 w3⟩
  · obtain ⟨hoff, hstop, hthreads⟩ := itinWrite_spec s kind tile w1 w2 w3
    refine ⟨_, (itineraryRecord_on hon hrec kind tile w1 w2 w3).trans
      (congrArg Host.Outcome.next (itinAppend_fits hrun hfit kind tile w1 w2 w3)), hoff, hstop.trans hrun, hthreads, ?_⟩
    intro hal hlock hstores hcoh hclean hback hdev hkey k hk
    exact itinWrite_words rfl (quiet_of_reset hlock hstores hcoh hclean hback hdev hkey) hal kind tile w1 w2 w3 hk
  -- REGISTER_WRITE, through BAR0 and by sysw
  · exact congrArg Host.Outcome.next (bar0Write_unassigned h v)
  · exact ⟨_, rfl, stagingWrite_spec h1 h2 h8 v⟩
  · exact congrArg Host.Outcome.next (registerWrite_unassigned h v)
  · exact ⟨_, rfl, registerWrite_spec (mem_of_listed num hnum) hspec hd v⟩

end Sys2Proof.Proofs
end

