-- ==== Sys2Proof/Proofs/StepStops.lean ====
section
/-! What a step answers (R17, R65, R167): events and issues always a next state, and so every step but that of a device which a
fatal error has stopped and which has no agenda left. -/
namespace Sys2Proof.Proofs
open Sys2Proof Sys2Proof.Machine Sys2Proof.Laws

/-- What a constructor's meaning can be: an event's is a step of its agent, and an encoded instruction's is the issue of it by the
thread in the focus slot (R153, R293). -/
theorem exec_cases (i : Instr) (s : State) :
    (∃ u : State, exec i s = .next u) ∨ ((encodeRaw i).isSome = true ∧ ∃ x body, exec i s = issue s x body) := by
  cases i with
  | nop _ ext => cases ext <;> exact .inr ⟨rfl, _, _, rfl⟩
  | vmul _ hi => cases hi <;> exact .inr ⟨rfl, _, _, rfl⟩
  | storeAtHome n =>
    cases h : s.stores.find? fun x => x.id == n with
    | none => exact .inl ⟨s, by simp only [exec, execStoreAtHome, h]⟩
    | some x => exact .inl ⟨if (s.storeReady x).1 then (s.storeReady x).2.performStore x else (s.storeReady x).2,
        by simp only [exec, execStoreAtHome, h]⟩
  | switchMarkerWake | variableLatencyResult | engineQueueAccept | matrixJobStart | matrixBlockDone | matrixJobComplete
  | matrixJobFault | porterLineRequest | porterSourceBump | porterJobComplete | porterFault | prrowInstanceStart | pageWalk
  | privateRelease | faultPost | faultHeadWrite | faultCfgWrite | fatalTileFault | deviceFatalError | taskAccept | taskDispatch
  | spill | refill | discard | specMarkRequest | storeProbe | loadProbe | restoreAtHome | probeAnswer | milestoneLatch
  | milestoneBroadcast | otherRunReprobe | loadBalance | queueEnable | queueDisable | reservationEnd | headerReread
  | launchTake | recordSeqRetry | nopRecord | taskRecord | gridRecord | gridEnter | queueAgeing | timedOverrun | launchComplete
  | runLoad | runCfgBadClear | preempt | resume | runTeardown | runKill | spreadSizeWrite | hmaskWrite | memkeyLoad
  | memkeyGenerate | memkeyDestroy | biasFlipToHost | biasFlipToDevice | birsp | hostMemRead | hostMemWrite | hostSnoop
  | unassignedBar0Access | flitReplay | lateralRetrainFail | fabricPortFail | fabricPortUp | hostPortFail | portTrainingHeld
  | powerThrottle | criticalTemperature | fwSubmit | firmwareLoss | svcSubmit | spdmRequest | scrubRead | scrubDeadline
  | scrubForcedRead | selfRefreshEntry | selfRefreshExit | bloomClear | hbmWrite | directoryEvict | upgradeRequest
  | ownershipRequest | ownershipRecall | sharerInvalidate | sourceFormatDemote | replicaFill | replicaDrop | eagerCollapse
  | lazyCollapse | collapseAck | regionEvaluation | replRstateWrite | pageHotnessHalving | hotSel | dirSel | lodgeCfgWrite
  | ctrwaitNotify | ctrwaitTimeout | ctrwaitPoll | fltwaitTimeout | dbgHalt | dbgResume | dbgStep | crossTrigger | bell
  | bellRestart | coreDump | itineraryRecord | deviceReset | registerWrite => exact .inl ⟨_, rfl⟩
  | _ => exact .inr ⟨rfl, _, _, rfl⟩

/-- An event is performed in every state. -/
theorem exec_event {i : Instr} (h : (encodeRaw i).isNone = true) (s : State) : ∃ u : State, exec i s = .next u := by
  obtain hu | ⟨hsome, -⟩ := exec_cases i s
  · exact hu
  · rw [Option.isNone_iff_eq_none.mp h] at hsome
    cases hsome

/-- Whatever a thread in the focus slot executes answers a next state. -/
theorem exec_next {s : State} (h : (s.thread? s.focus).isSome = true) (i : Instr) : ∃ u : State, exec i s = .next u := by
  obtain hu | ⟨-, x, body, hi⟩ := exec_cases i s
  · exact hu
  · obtain ⟨t, ht⟩ := Option.isSome_iff_exists.mp h
    exact hi ▸ issue_next s x body t ht

/-- The slot of an instruction that a fetch hands over still holds a thread. -/
theorem fetch_run_thread {s u : State} {th : Nat} {t : Thread} {i : Instr} (h : s.fetch th t = .run i u) :
    (u.thread? th).isSome = true := by
  unfold State.fetch at h
  extract_lets _ _ at h
  split at h
  · cases h
  split at h
  · cases h
  · cases h
  · split at h <;> cases h
  · extract_lets v at h
    split at h
    · cases h
    split at h
    · split at h
      · cases h
      · next hth =>
        obtain ⟨-, rfl⟩ := Ready.run.inj h
        exact Option.isSome_iff_ne_none.mpr (by simpa using hth)
    · cases h

/-- An issue answers a next state, whatever the slot holds. -/
theorem issueThread_next (s : State) (th : Nat) : ∃ u : State, issueThread s th = .next u := by
  unfold issueThread
  extract_lets s
  split
  · exact ⟨_, rfl⟩
  split
  · exact ⟨_, rfl⟩
  split
  · exact ⟨_, rfl⟩
  split
  · exact ⟨_, rfl⟩
  · exact ⟨_, rfl⟩
  · next i v hf =>
    have hth : (v.thread? th).isSome = true := fetch_run_thread hf
    obtain ⟨u, hu⟩ := exec_next (s := { v with focus := th }) hth i
    rw [hu]
    exact ⟨_, rfl⟩

/-- Every move of the agenda is made. -/
theorem move_next (s : State) (m : Move) : ∃ u : State, s.move m = .next u := by
  cases m with
  | perform e =>
    show ∃ u, (if (encodeRaw e).isNone then exec e s else .next s) = .next u
    split
    · next h => exact exec_event h s
    · exact ⟨s, rfl⟩
  | issue th => exact issueThread_next s th
  | pass | hostTrain | cacheGrant | holderModify | hbmError | softError => exact ⟨_, rfl⟩

/-- Without an agenda a device that no fatal error has stopped goes on. -/
theorem choose_next {s : State} (h : s.fatal = false) : ∃ u : State, s.choose = .next u := by
  unfold State.choose
  rw [if_neg (by simp [h])]
  split
  · exact ⟨_, rfl⟩
  split
  · exact ⟨_, rfl⟩
  · next th _ =>
    obtain ⟨u, hu⟩ := issueThread_next s th
    rw [hu]
    exact ⟨_, rfl⟩

/-- Settles O7, by what the agenda holds: each of its moves answers a next state, and without one only the fatal error stops the step. -/
theorem stepStops : Obligations.StepStops := by
  intro s
  unfold step
  cases ha : s.agenda with
  | nil =>
    cases hf : s.fatal with
    | true => simp [State.choose, hf]
    | false => simpa using choose_next hf
  | cons m rest => simpa using move_next { s with agenda := rest } m

end Sys2Proof.Proofs
end

