-- ==== Sys2Proof/Proofs/MemoryRegistersAndHost.lean ====
section
/-! The key command that does not end (R46, R266): a DESTROY under way waits for a packed block that is half performed. -/
namespace Sys2Proof.Proofs
open Sys2Proof Sys2Proof.Machine

/-- The lower part of a packed block that straddles two lines, still in flight under key slot 2; its twin, store 2, has been
performed. -/
def halfBlockStore : PendStore :=
  { id := 1, agent := .thread 8, run := 0, key := Key.zero, specid := none, seq := 0,
    part := { va := 112, place := .line, pa := 112, len := 16, cls := .t, key := 2, sub := false, priv := false, bias := false,
              remote := false },
    mask := byteMask 112 16, data := 0, op := .write, cls := .t, rel := none, after := 0, log := none, hint := 0, twin := some 2 }

/-- DESTROY of key slot 2 has set BUSY and waits for the accesses under way, that part among them. -/
def destroyWaiting : State :=
  let s := State.reset.setReg 0x038 (2 ^ 63 + 2 * 2 ^ 4 + 3)
  { s with stores := [halfBlockStore], mem := { s.mem with keys := [(0, .generated 0), (2, .generated 1)] } }

/-- The DESTROY under way lets a packed block end that is half performed (R266): the step changes nothing. -/
theorem memkeyStep_halfDone {s : State}
    (h : (s.stores.any fun x => x.part.place == .line && x.part.key == bitsOf (s.reg 0x038) 4 4 && s.halfDone x) = true) :
    s.memkeyStep = s := by
  simp [State.memkeyStep, h]

theorem memkeyDestroy_busy {s : State} (h : bitOf (s.reg 0x038) 63 = true) (v : BitVec 64) :
    exec (.memkeyDestroy v) s = .next s.memkeyStep := congrArg Host.Outcome.next (if_pos h)

theorem destroyWaiting_busy : bitOf (destroyWaiting.reg 0x038) 63 = true := by decide

/-- Refutes O57 at its key commands: it says that a DESTROY under way ends whenever it is called again, and where a packed block under
the key is half performed the command waits on, with BUSY set (R266). -/
theorem not_memoryRegistersAndHost : ¬ Obligations.MemoryRegistersAndHost := by
  unfold Obligations.MemoryRegistersAndHost
  rintro ⟨-, -, hkeys, -⟩
  obtain ⟨-, -, hends⟩ := hkeys destroyWaiting 0
  obtain ⟨u, hstep, hclear, -⟩ := hends destroyWaiting_busy
  have hstays : destroyWaiting.memkeyStep = destroyWaiting := memkeyStep_halfDone (by decide)
  rw [memkeyDestroy_busy destroyWaiting_busy, hstays] at hstep
  obtain rfl := Host.Outcome.next.inj hstep
  exact absurd destroyWaiting_busy (by simp [hclear])

end Sys2Proof.Proofs
end

