-- ==== Sys2Proof/Proofs/LinksPowerFirmware.lean ====
section
/-! The failed port that changes another line (R63, R65): a line held through it that the chip lists and no memory backs. -/
namespace Sys2Proof.Proofs
open Sys2Proof Sys2Proof.Machine

/-- The first line of the window of PEER_MAP0, which no memory backs while the register does not enable it (R50). Its mapping address
is 0, and so its slot is that of line 0. -/
def strayLine : Nat := (2 ^ 51 + 2 ^ 50) / 128

/-- Port 0 is up, memory is enabled, and die 0 owns the stray line, which it has requested through that port and modified. The chip
lists the line's bytes, as it does of device lines alone; the obligation takes this state as any other. -/
def strayOnChip : State :=
  let s := State.reset.setReg 0x008 (2 ^ 63 + 64)
  { s with
    host := { s.host with fabUp := 1 }
    coh := { s.coh with l2 := [{ L2Entry.new 0 strayLine with dst := 3 }], l3 := [{ L3Entry.new strayLine with own := some 0 }] }
    mem := { s.mem with chip := [(strayLine, ⟨0, 1, false⟩)], heldPort := [(strayLine, 0)] } }

/-- Byte 0 of device memory, read under key slot 5, which is empty. -/
theorem strayOnChip_byte : strayOnChip.byteAt 0 5 = 0 := by decide +kernel

/-- The port fails, the owner gives the stray line back, and it goes to line 0's slot. -/
theorem portFail_stray_byte : (strayOnChip.portFail 0).byteAt 0 5 = 1 := by decide +kernel

/-- Refutes O58 at the port that fails: it says that in every state no byte changes outside the lines held through the port, and where
the chip lists such a line that no memory backs, its owner gives it back to a slot that is another line's. -/
theorem not_linksPowerFirmware : ¬ Obligations.LinksPowerFirmware := by
  unfold Obligations.LinksPowerFirmware
  rintro ⟨-, hports, -⟩
  obtain ⟨-, -, hfail⟩ := hports strayOnChip 0 (by decide)
  obtain ⟨u, hstep, -, -, -, -, -, -, -, hbytes, -⟩ := hfail (by decide)
  obtain rfl := Host.Outcome.next.inj (show Host.Outcome.next (strayOnChip.portFail 0) = .next u from hstep)
  have hsame := hbytes 0 5 (by decide)
  rw [portFail_stray_byte, strayOnChip_byte] at hsame
  cases hsame

end Sys2Proof.Proofs
end

