-- ==== Sys2Proof/Proofs/DeviceTables.lean ====
section
/-! The tables of runs, Lodges and engines that the state keeps: what a slot holds after its own and after another's is written. -/
namespace Sys2Proof.Proofs
open Sys2Proof Sys2Proof.Machine Sys2Proof.Laws

theorem get?_mapVals {α : Type} (m : Sparse α) (f : Nat → α → α) (n : Nat) :
    Sparse.get? (m.mapVals f) n = (Sparse.get? m n).map (f n) := by
  induction m with
  | nil => rfl
  | cons e r ih =>
    obtain ⟨k, v⟩ := e
    by_cases hk : k = n
    · subst hk
      simp [Sparse.mapVals, Sparse.get?]
    · simpa [Sparse.mapVals, Sparse.get?, hk] using ih

/-- A change of every value that keeps the value an unlisted key reads as is seen under every key. -/
theorem getD_mapVals {α : Type} (m : Sparse α) (f : Nat → α → α) (n : Nat) {d : α} (hd : f n d = d) :
    Sparse.getD (m.mapVals f) n d = f n (Sparse.getD m n d) := by
  rw [Sparse.getD, get?_mapVals, Sparse.getD]
  cases Sparse.get? m n with
  | none => exact hd.symm
  | some v => rfl

/-- The value last listed under a key stays. -/
@[simp] theorem set_set {α : Type} (m : Sparse α) (n : Nat) (v w : α) : Sparse.set (Sparse.set m n v) n w = Sparse.set m n w := by
  induction m with
  | nil => simp [Sparse.set]
  | cons e r ih =>
    obtain ⟨k, x⟩ := e
    rcases Nat.lt_trichotomy n k with hlt | rfl | hgt
    · simp [Sparse.set, hlt]
    · simp [Sparse.set]
    · simpa [Sparse.set, Nat.not_lt.2 hgt.le, hgt.ne'] using ih

/-- What each step of a fold keeps, the fold keeps. -/
theorem foldl_keeps {σ α β : Type} (p : σ → β) {f : σ → α → σ} (hf : ∀ s x, p (f s x) = p s) (l : List α) (s : σ) :
    p (l.foldl f s) = p s := by
  induction l generalizing s with
  | nil => rfl
  | cons x r ih => rw [List.foldl_cons, ih, hf]

variable (s : State)

@[simp] theorem run_setRun_same (n : Nat) (r : Run) : (s.setRun n r).run n = r := by simp [State.run, State.setRun, Sparse.getD]

theorem run_setRun_other {n m : Nat} (h : m ≠ n) (r : Run) : (s.setRun n r).run m = s.run m := by
  simp only [State.run, State.setRun, Sparse.getD, get?_set_other _ _ _ _ h]

@[simp] theorem lodge_setLodge_same (n : Nat) (l : Lodge) : (s.setLodge n l).lodge n = l := by
  simp [State.lodge, State.setLodge, Sparse.getD]

theorem lodge_setLodge_other {n m : Nat} (h : m ≠ n) (l : Lodge) : (s.setLodge n l).lodge m = s.lodge m := by
  simp only [State.lodge, State.setLodge, Sparse.getD, get?_set_other _ _ _ _ h]

@[simp] theorem engine_setEngine_same (n : Nat) (e : Engines) : (s.setEngine n e).engine n = e := by
  simp [State.engine, State.setEngine, Sparse.getD]

theorem engine_setEngine_other {n m : Nat} (h : m ≠ n) (e : Engines) : (s.setEngine n e).engine m = s.engine m := by
  simp only [State.engine, State.setEngine, Sparse.getD, get?_set_other _ _ _ _ h]

@[simp] theorem setRun_setRun (n : Nat) (r q : Run) : (s.setRun n r).setRun n q = s.setRun n q := by
  simp only [State.setRun, set_set]

end Sys2Proof.Proofs
end

