-- ==== Sys2Proof/Proofs/RunLoad.lean ====
section
/-! RUN_LOAD (R79): what the checks of a run configuration block say, in fields of its line, and what a loading write does. -/
namespace Sys2Proof.Proofs
open Sys2Proof Sys2Proof.Machine Sys2Proof.Laws

/-- A field of word i of the block at a physical address. -/
def blockField (s : State) (pa i lo k : Nat) : Nat := bitsOf (lineNat (s.lineAt (pa / 128) 0) (8 * i) 8) lo k

/-- Word i of the block is a base: a multiple of 64 KiB below 2^56. -/
def BlockBase (s : State) (pa i : Nat) : Prop := blockField s pa i 0 64 % 2 ^ 16 = 0 ∧ blockField s pa i 0 64 < 2 ^ 56

/-- Every check of R79 on the block passes. -/
def BlockOk (s : State) (pa : Nat) : Prop :=
  s.backed pa = true ∧ s.poisoned (pa / 128) = false ∧ blockField s pa 0 0 16 ≠ 0 ∧ blockField s pa 0 28 36 = 0 ∧
    s.runSlotOf (blockField s pa 0 0 16) = none ∧ s.savedOf (blockField s pa 0 0 16) = none ∧ blockField s pa 0 16 12 ≠ 0 ∧
    blockField s pa 1 0 64 % 2 ^ 13 = 0 ∧ blockField s pa 1 0 64 < 2 ^ 52 ∧ s.backed (blockField s pa 1 0 64) = true ∧
    BlockBase s pa 2 ∧ BlockBase s pa 3 ∧ BlockBase s pa 4 ∧ BlockBase s pa 5 ∧ BlockBase s pa 6 ∧
    16 ≤ blockField s pa 7 0 64 ∧ blockField s pa 7 0 64 ≤ 30 ∧ ∀ i, 8 ≤ i → i < 16 → blockField s pa i 0 64 = 0

/-- The configuration a block holds. -/
def blockCfg (s : State) (pa : Nat) : RunCfg :=
  let f := blockField s pa
  { runid := f 0 0 16, asid := f 0 16 12, ptroot := f 1 0 64, spill := f 2 0 64, loga := f 3 0 64, stack := f 4 0 64, save := f 5 0 64,
    bmap := f 6 0 64, splog := f 7 0 64 }

variable {s : State} {pa : Nat}

theorem lineNat_lt (x : Line) (o n : Nat) : lineNat x o n < 2 ^ (8 * n) := Nat.mod_lt _ (Nat.two_pow_pos _)

theorem bitsOf_lineNat (x : Line) (o : Nat) : bitsOf (lineNat x o 8) 0 64 = lineNat x o 8 := Nat.mod_eq_of_lt (lineNat_lt x o 8)

/-- The words read from a line are those of the line. -/
theorem toNat_physRead {i : Nat} (hpa : pa % 128 = 0) (hi : i < 16) :
    ((s.physRead pa 16).getD i 0).toNat = lineNat (s.lineAt (pa / 128) 0) (8 * i) 8 := by
  have hline : (pa + 8 * i) / 128 = pa / 128 := by omega
  have hoff : (pa + 8 * i) % 128 = 8 * i := by omega
  simpa [State.physRead, State.physNat, hi, hline, hoff] using lineNat_lt (s.lineAt (pa / 128) 0) (8 * i) 8

theorem drop_physRead_zero (hpa : pa % 128 = 0) :
    ((s.physRead pa 16).drop 8).all (fun v => v == 0) = true ↔ ∀ i, 8 ≤ i → i < 16 → blockField s pa i 0 64 = 0 := by
  have hlen : (s.physRead pa 16).length = 16 := by simp [State.physRead]
  have hword : ∀ i (h : i < 16), (s.physRead pa 16)[i] = 0 ↔ blockField s pa i 0 64 = 0 := fun i h => by
    have hnat := toNat_physRead (s := s) hpa h
    rw [List.getD_eq_getElem _ _ (by omega)] at hnat
    rw [blockField, bitsOf_lineNat, ← hnat, BitVec.toNat_eq]
    rfl
  rw [List.all_eq_true]
  constructor
  · intro h i h8 h16
    have hmem : (s.physRead pa 16)[i] ∈ (s.physRead pa 16).drop 8 := List.mem_drop_iff_getElem.2 ⟨i - 8, by omega, by congr 1; omega⟩
    exact (hword i h16).1 (by simpa using h _ hmem)
  · intro h v hv
    obtain ⟨i, hi, rfl⟩ := List.mem_drop_iff_getElem.1 hv
    exact beq_iff_eq.2 ((hword (8 + i) (by omega)).2 (h (8 + i) (by omega) (by omega)))

/-- A block is taken where every check passes, and only there. -/
theorem configBlock_eq (hpa : pa % 128 = 0) [Decidable (BlockOk s pa)] :
    s.configBlock pa = if BlockOk s pa then some (blockCfg s pa) else none := by
  have hw : ∀ i < 16, ((s.physRead pa 16).getD i 0).toNat = lineNat (s.lineAt (pa / 128) 0) (8 * i) 8 := fun i => toNat_physRead hpa
  simp only [State.configBlock]
  refine if_congr ?_ (by simp only [hw, Nat.reduceLT]; rfl) rfl
  simp only [Bool.and_eq_true, drop_physRead_zero hpa, hw, Nat.reduceLT, BlockOk, BlockBase, blockField, beq_iff_eq,
    decide_eq_true_eq, bne_iff_ne, Option.isNone_iff_eq_none, Bool.not_eq_true']
  exact iff_of_eq (by ac_rfl)

/-- A change of a run's slot that keeps its phase and configuration changes no run's place. -/
theorem runSlotOf_setRun {n : Nat} {r : Run} (hphase : r.phase = (s.run n).phase) (hcfg : r.cfg = (s.run n).cfg) (id : Nat) :
    (s.setRun n r).runSlotOf id = s.runSlotOf id := by
  have hkept : ∀ m, ((s.setRun n r).run m).phase = (s.run m).phase ∧ ((s.setRun n r).run m).cfg = (s.run m).cfg := fun m => by
    by_cases h : m = n
    · subst h
      rw [run_setRun_same]
      exact ⟨hphase, hcfg⟩
    · rw [run_setRun_other s h]
      exact ⟨rfl, rfl⟩
  simp only [State.runSlotOf, hkept]

/-- The slot as a loading write leaves it until the block is read. -/
def loading (s : State) (n pa : Nat) : State := s.setRun n { s.run n with cfgpa := pa, loading := true }

/-- A slot whose block was refused. -/
def refused (s : State) (n pa : Nat) : State := s.setRun n { s.run n with cfgpa := pa, loading := false, bad := true }

theorem configBlock_loading (n pa' : Nat) : (loading s n pa').configBlock pa = s.configBlock pa := by
  have hslot : ∀ id, (loading s n pa').runSlotOf id = s.runSlotOf id := runSlotOf_setRun rfl rfl
  simp only [State.configBlock, hslot]
  rfl

section
variable {n : Nat}

@[simp] theorem run_loading : (loading s n pa).run n = { s.run n with cfgpa := pa, loading := true } := run_setRun_same ..

@[simp] theorem setRun_loading (r : Run) : (loading s n pa).setRun n r = s.setRun n r := setRun_setRun ..

theorem runLoadStep_fatal (h : s.fatal = true) : (loading s n pa).runLoadStep n = loading s n pa := by
  simp [State.runLoadStep, show (loading s n pa).fatal = true from h]

theorem runLoadStep_unbacked (hfatal : s.fatal = false) (h : s.backed pa = false) : (loading s n pa).runLoadStep n = refused s n pa := by
  simp [State.runLoadStep, show (loading s n pa).fatal = false from hfatal, show (loading s n pa).backed pa = false from h, refused]

theorem runLoadStep_waits (hfatal : s.fatal = false) (h : s.backed pa = true) (hwait : ((loading s n pa).physReady pa false).1 = false) :
    (loading s n pa).runLoadStep n = ((loading s n pa).physReady pa false).2 := by
  simp [State.runLoadStep, show (loading s n pa).fatal = false from hfatal, show (loading s n pa).backed pa = true from h, hwait]

theorem runLoadStep_takes {c : RunCfg} (hfatal : s.fatal = false) (h : s.backed pa = true)
    (hready : (loading s n pa).physReady pa false = (true, loading s n pa)) (hblock : s.configBlock pa = some c) :
    (loading s n pa).runLoadStep n = (loading s n pa).loadSlot n c pa := by
  simp [State.runLoadStep, show (loading s n pa).fatal = false from hfatal, show (loading s n pa).backed pa = true from h, hready,
    configBlock_loading, hblock]

theorem runLoadStep_refuses (hfatal : s.fatal = false) (h : s.backed pa = true)
    (hready : (loading s n pa).physReady pa false = (true, loading s n pa)) (hblock : s.configBlock pa = none) :
    (loading s n pa).runLoadStep n = refused s n pa := by
  simp [State.runLoadStep, show (loading s n pa).fatal = false from hfatal, show (loading s n pa).backed pa = true from h, hready,
    configBlock_loading, hblock, refused]

/-- RUN_LOAD of a free slot is the loading write under way. -/
theorem runLoad_free (hfree : (s.run n).phase = .free) (v : BitVec 64) :
    exec (.runLoad n v) s = .next ((loading s n (128 * bitsOf v.toNat 7 45)).runLoadStep n) := by
  have hbit : bitOf (v.toNat / 2 * 2) 0 = false := by simp [bitOf, Nat.testBit_zero]
  have hpa : bitsOf (v.toNat / 2 * 2) 7 45 * 128 = 128 * bitsOf v.toNat 7 45 := by
    simp only [bitsOf, Nat.shiftRight_eq_div_pow]
    omega
  show Host.Outcome.next (s.runCfgWrite n (v.toNat / 2 * 2)) = _
  simp [State.runCfgWrite, hbit, hfree, hpa, loading]

theorem runLoad_inUse (huse : (s.run n).phase ≠ .free) (v : BitVec 64) : exec (.runLoad n v) s = .next s := by
  have hbit : bitOf (v.toNat / 2 * 2) 0 = false := by simp [bitOf, Nat.testBit_zero]
  show Host.Outcome.next (s.runCfgWrite n (v.toNat / 2 * 2)) = _
  simp [State.runCfgWrite, hbit, huse]

theorem runCfgBadClear_eq (v : BitVec 64) : exec (.runCfgBadClear n v) s = .next (s.setRun n { s.run n with bad := false }) := by
  have hbit : bitOf (v.toNat / 2 * 2 + 1) 0 = true := by simp [bitOf, Nat.testBit_zero]
  show Host.Outcome.next (s.runCfgWrite n (v.toNat / 2 * 2 + 1)) = _
  simp [State.runCfgWrite, hbit]

/-- The slot a configuration is loaded into. -/
theorem run_loadSlot_same (c : RunCfg) (pa' : Nat) : (s.loadSlot n c pa').run n =
    { Run.reset with phase := .resident, gen := ((s.run n).gen + 1) % 16, cfgpa := pa', bad := (s.run n).bad, cfg := c } :=
  run_setRun_same ..

theorem run_loadSlot_other {m : Nat} (h : m ≠ n) (c : RunCfg) (pa' : Nat) : (s.loadSlot n c pa').run m = s.run m :=
  run_setRun_other _ h _

theorem run_refused_other {m : Nat} (h : m ≠ n) : (refused s n pa).run m = s.run m := run_setRun_other _ h _

section
variable (hfree : (s.run n).phase = .free) (v : BitVec 64) (hpa : pa = 128 * bitsOf v.toNat 7 45)
include hfree hpa

theorem runLoad_fatal (h : s.fatal = true) : exec (.runLoad n v) s = .next (loading s n pa) := by
  rw [runLoad_free hfree, ← hpa, runLoadStep_fatal h]

theorem runLoad_waits (hfatal : s.fatal = false) (h : s.backed pa = true) (hwait : ((loading s n pa).physReady pa false).1 = false) :
    exec (.runLoad n v) s = .next ((loading s n pa).physReady pa false).2 := by
  rw [runLoad_free hfree, ← hpa, runLoadStep_waits hfatal h hwait]

theorem runLoad_takes (hfatal : s.fatal = false) (hok : BlockOk s pa)
    (hready : (loading s n pa).physReady pa false = (true, loading s n pa)) :
    exec (.runLoad n v) s = .next ((loading s n pa).loadSlot n (blockCfg s pa) pa) := by
  classical
  have hblock : s.configBlock pa = some (blockCfg s pa) := by rw [configBlock_eq (by omega), if_pos hok]
  rw [runLoad_free hfree, ← hpa, runLoadStep_takes hfatal hok.1 hready hblock]

theorem runLoad_refuses (hfatal : s.fatal = false) (hbad : ¬BlockOk s pa)
    (h : s.backed pa = false ∨ (loading s n pa).physReady pa false = (true, loading s n pa)) :
    exec (.runLoad n v) s = .next (refused s n pa) := by
  classical
  have hblock : s.configBlock pa = none := by rw [configBlock_eq (by omega), if_neg hbad]
  rw [runLoad_free hfree, ← hpa]
  cases hbacked : s.backed pa with
  | false => rw [runLoadStep_unbacked hfatal hbacked]
  | true => rw [runLoadStep_refuses hfatal hbacked (h.resolve_left (by simp [hbacked])) hblock]

end

end

end Sys2Proof.Proofs
end

