-- ==== Sys2Proof/Proofs/RunEnds.lean ====
section
/-! Runs that end: the threads of a killed run stop and its work goes (R183), and an ended run's slot is freed (R89, R182). -/
namespace Sys2Proof.Proofs
open Sys2Proof Sys2Proof.Machine Sys2Proof.Laws

/-- The state with other threads, and with other places in S and parts in a single-step, which a slot that is freed takes with it. -/
def withThreads (s : State) (ts : Sparse Thread) (ops : List ScOp) (steps : List Nat) : State :=
  { s with threads := ts, scOps := ops, dbg := { s.dbg with stepping := steps } }

variable {s : State}

@[simp] theorem thread?_freeThread_same (th : Nat) : (s.freeThread th).thread? th = none := get?_erase_same ..

theorem thread?_freeThread_other {th n : Nat} (h : n ≠ th) : (s.freeThread th).thread? n = s.thread? n := get?_erase_other _ _ _ h

theorem loseStores_nil : s.loseStores [] = s := by
  simp [State.loseStores]

/-- A thread with no results to come, and no store that waits for a reply, ends at once. -/
theorem killThread_idle {th : Nat} {t : Thread} (hslot : s.thread? th = some t) (houts : t.outs = [])
    (hstores : ∀ x ∈ s.stores, x.stopped = false) :
    s.killThread th = (s.setThread th t).freeThread th := by
  have hstopped : (s.storesOf th).filter (fun x => x.stopped) = [] :=
    List.filter_eq_nil_iff.2 fun x hx => by simp [hstores x (List.mem_of_mem_filter hx)]
  simp [State.killThread, State.giveUp, hslot, houts, hstopped, loseStores_nil]

theorem killThread_empty {th : Nat} (hslot : s.thread? th = none) : s.killThread th = s := by
  simp [State.killThread, hslot]

/-- Slots have been freed, and nothing else has changed. -/
structure Freed (s u : State) (l : List Nat) : Prop where
  beyond : ∃ ts ops steps, u = withThreads s ts ops steps
  gone : ∀ th ∈ l, u.thread? th = none
  kept : ∀ th, th ∉ l → u.thread? th = s.thread? th

/-- One slot is freed. -/
theorem freed_killThread {th : Nat} (hidle : ∀ t, s.thread? th = some t → t.outs = []) (hstores : ∀ x ∈ s.stores, x.stopped = false) :
    Freed s (s.killThread th) [th] := by
  cases hslot : s.thread? th with
  | none =>
    rw [killThread_empty hslot]
    exact ⟨⟨_, _, _, rfl⟩, by simp [hslot], fun _ _ => rfl⟩
  | some t =>
    rw [killThread_idle hslot (hidle t hslot) hstores]
    refine ⟨⟨_, _, _, rfl⟩, by simp, fun m hm => ?_⟩
    have hne : m ≠ th := by simpa using hm
    rw [thread?_freeThread_other hne, thread?_setThread_other _ _ _ _ hne]

theorem Freed.stores {u : State} {l : List Nat} (h : Freed s u l) : u.stores = s.stores := by
  obtain ⟨ts, ops, steps, rfl⟩ := h.beyond
  rfl

theorem Freed.trans {u v : State} {l k : List Nat} (h : Freed s u l) (h' : Freed u v k) : Freed s v (l ++ k) := by
  refine ⟨?_, fun th hth => ?_, fun th hth => ?_⟩
  · obtain ⟨ts, ops, steps, rfl⟩ := h.beyond
    obtain ⟨ts', ops', steps', rfl⟩ := h'.beyond
    exact ⟨ts', ops', steps', rfl⟩
  · by_cases hk : th ∈ k
    · exact h'.gone th hk
    · rw [h'.kept th hk, h.gone th ((List.mem_append.1 hth).resolve_right hk)]
  · rw [List.mem_append, not_or] at hth
    rw [h'.kept th hth.2, h.kept th hth.1]

/-- Every thread of a list of idle ones is stopped. -/
theorem freed_killThreads (l : List (Nat × Thread)) (hidle : ∀ x ∈ l, ∀ t, s.thread? x.1 = some t → t.outs = [])
    (hstores : ∀ x ∈ s.stores, x.stopped = false) : Freed s (l.foldl (fun s x => s.killThread x.1) s) (l.map Prod.fst) := by
  induction l generalizing s with
  | nil => exact ⟨⟨_, _, _, rfl⟩, by simp, fun _ _ => rfl⟩
  | cons x r ih =>
    have hone := freed_killThread (hidle x (List.mem_cons_self ..)) hstores
    have hst : (s.killThread x.1).stores = s.stores := hone.stores
    refine hone.trans (ih (fun y hy t ht => ?_) (by rwa [hst]))
    by_cases hyx : y.1 = x.1
    · rw [hyx, hone.gone x.1 (by simp)] at ht
      cases ht
    · rw [hone.kept y.1 (by simpa using hyx)] at ht
      exact hidle y (List.mem_cons_of_mem _ hy) t ht

/-- An engine that has no job of a run. -/
theorem engine_noJobs {n : Nat}
    (hjobs : ∀ x ∈ s.engines, (∀ j ∈ x.2.mq, j.run ≠ some n) ∧ ∀ l ∈ x.2.lanes, ∀ j ∈ l, j.run ≠ some n)
    (tile : Nat) : (s.engine tile).mq.filter (fun j => j.run == some n) = [] ∧
      ∀ k, ((s.engine tile).lanes.getD k []).filter (fun j => j.run == some n) = [] := by
  have hidle : (∀ j ∈ (s.engine tile).mq, j.run ≠ some n) ∧ ∀ l ∈ (s.engine tile).lanes, ∀ j ∈ l, j.run ≠ some n := by
    cases h : Sparse.get? s.engines tile with
    | none => simp [State.engine, Sparse.getD, h, Engines.reset]
    | some e => simpa only [State.engine, Sparse.getD, h, Option.getD_some] using hjobs (tile, e) (mem_of_get? h)
  obtain ⟨hmq, hlanes⟩ := hidle
  refine ⟨List.filter_eq_nil_iff.2 fun j hj => by simpa using hmq j hj, fun k => List.filter_eq_nil_iff.2 fun j hj => ?_⟩
  rw [List.getD_eq_getElem?_getD] at hj
  cases hlane : (s.engine tile).lanes[k]? with
  | none => simp [hlane] at hj
  | some l =>
    simp only [hlane, Option.getD_some] at hj
    simpa using hlanes l (List.mem_of_getElem? hlane) j hj

/-- A Lodge without a run's queued tasks and grids, and what it keeps for it. -/
def killedLodge (n : Nat) (l : Lodge) : Lodge :=
  { l with
    queue := l.queue.filter fun t => t.run != n, grids := l.grids.filter fun g => g.run != n,
    spmin := Sparse.erase l.spmin n, spblk := Sparse.erase l.spblk n, blocks := Sparse.erase l.blocks n,
    discards := l.discards.filter fun d => d.2 != n }

/-- A launch after the kill of a run. -/
def killedLaunch (n : Nat) (l : Launch) : Launch :=
  if l.run != n then l
  else { l with status := some (l.status.getD 4), entered := true,
                phase := match l.phase with | .bump => .bump | .bumpHeld => .bumpHeld | _ => .working }

theorem takeFaults_none {n : Nat} (h : ∀ r ∈ s.records, r.run ≠ some n) : s.takeFaults n = s := by
  have hnone : ∀ f : Record → Bool, s.records.filter (fun r => r.run == some n && f r) = [] := fun f =>
    List.filter_eq_nil_iff.2 fun r hr => by simp [h r hr]
  simp only [State.takeFaults, hnone, List.foldl_nil]

/-- What a run's kill leaves of its work, where none of its jobs and records stand. -/
theorem killWork_idle {n : Nat} (hrecords : ∀ r ∈ s.records, r.run ≠ some n)
    (hjobs : ∀ x ∈ s.engines, (∀ j ∈ x.2.mq, j.run ≠ some n) ∧ ∀ l ∈ x.2.lanes, ∀ j ∈ l, j.run ≠ some n) :
    s.killWork n = { s with
      lodges := s.lodges.mapVals fun _ l => killedLodge n l,
      grids := s.grids.filter fun g => g.run != n,
      sent := s.sent.filter fun x => x.task.run != n,
      launches := s.launches.map (killedLaunch n) } := by
  have htiles := fun tile => engine_noJobs hjobs tile
  unfold State.killWork
  rw [takeFaults_none hrecords]
  have hfix : ∀ f : State → Nat → State, (∀ tile, f s tile = s) → (List.range 256).foldl f s = s := fun f h => List.foldl_fixed' h _
  rw [hfix]
  · rfl
  · intro tile
    obtain ⟨hmq, hlanes⟩ := htiles tile
    simp only [hmq, hlanes, List.foldl_nil, List.foldl_fixed]

/-- The state of a run's kill after its threads have stopped. -/
def killed (s : State) (n : Nat) : State :=
  let v := (s.runThreads n).foldl (fun s x => s.killThread x.1) s
  let w := v.killWork n
  w.setRun n { w.run n with phase := .ending, returning := [] }

/-- A run that is not killed, or whose slot is free, is left alone. -/
theorem runKill_other {n : Nat} (hn : n < 16) (h : (s.run n).killed = false ∨ (s.run n).phase = .free) : s.runKill n = s := by
  rw [State.runKill, if_neg (by omega), if_pos (by simpa using h)]

/-- A killed run with no entry, whose threads stand on no halted tile, stops. -/
theorem runKill_eq {n : Nat} (hn : n < 16) (hkilled : (s.run n).killed = true) (hphase : (s.run n).phase ≠ .free)
    (hresuming : (s.run n).resuming = false) (hentries : s.runEntries n = []) (hhalted : s.onHalted n = false) :
    s.runKill n = killed s n := by
  rw [State.runKill, if_neg (by omega), if_neg (by simp [hkilled, hphase]), if_neg (by simp [hresuming])]
  simp [hentries, hhalted, killed]

section
variable {n : Nat} (hidle : ∀ x ∈ s.runThreads n, ∀ t, s.thread? x.1 = some t → t.outs = []) (hstores : ∀ x ∈ s.stores, x.stopped = false)
  (hrecords : ∀ r ∈ s.records, r.run ≠ some n)
  (hjobs : ∀ x ∈ s.engines, (∀ j ∈ x.2.mq, j.run ≠ some n) ∧ ∀ l ∈ x.2.lanes, ∀ j ∈ l, j.run ≠ some n)
include hidle hstores hrecords hjobs

/-- What a kill leaves: the run's threads are freed, and its work and its slot changed. -/
theorem killed_eq : ∃ v, Freed s v ((s.runThreads n).map Prod.fst) ∧ killed s n = ({ v with
    lodges := s.lodges.mapVals fun _ l => killedLodge n l,
    grids := s.grids.filter fun g => g.run != n,
    sent := s.sent.filter fun x => x.task.run != n,
    launches := s.launches.map (killedLaunch n) } : State).setRun n { s.run n with phase := .ending, returning := [] } := by
  have hfreed := freed_killThreads (s.runThreads n) hidle hstores
  refine ⟨_, hfreed, ?_⟩
  obtain ⟨ts, ops, steps, hv⟩ := hfreed.beyond
  rw [killed, hv, killWork_idle (s := withThreads s ts ops steps) hrecords hjobs]
  rfl

end

theorem lodge_killed (lodges : Sparse Lodge) (n tile : Nat) :
    Sparse.getD (lodges.mapVals fun _ l => killedLodge n l) tile Lodge.reset = killedLodge n (Sparse.getD lodges tile Lodge.reset) :=
  getD_mapVals _ _ _ rfl

theorem killedLaunch_other {n : Nat} {l : Launch} (h : l.run ≠ n) : killedLaunch n l = l := by simp [killedLaunch, h]

theorem killedLaunch_own {n : Nat} {l : Launch} (h : l.run = n) : (killedLaunch n l).id = l.id ∧
    (killedLaunch n l).status = some (l.status.getD 4) ∧ (killedLaunch n l).entered = true := by
  simp [killedLaunch, h]

/-- An ended run whose launches, threads and stores are gone. -/
structure Over (s : State) (n : Nat) : Prop where
  launches : ∀ l ∈ s.launches, l.run ≠ n
  threads : s.runThreads n = []
  stores : s.runStores n = false

theorem over_iff {n : Nat} : (s.launches.any (fun l => l.run == n) || !(s.runThreads n).isEmpty || s.runStores n) = false ↔ Over s n := by
  simp only [Bool.or_eq_false_iff, List.any_eq_false, Bool.not_eq_false', List.isEmpty_iff, beq_iff_eq, and_assoc]
  exact ⟨fun ⟨h1, h2, h3⟩ => ⟨h1, h2, h3⟩, fun ⟨h1, h2, h3⟩ => ⟨h1, h2, h3⟩⟩

theorem runTeardown_waits {n : Nat} (h : ¬Over s n) : s.runTeardown n = s := by
  rw [← over_iff, Bool.not_eq_false] at h
  rw [State.runTeardown, if_pos h]

theorem runTeardown_over {n : Nat} (hn : n < 16) (h : Over s n) : s.runTeardown n =
    if (s.run n).phase = .ending then s.tearDown n
    else if (s.run n).phase = .resident ∧ (s.run n).ends = true ∧ (s.run n).killed = false ∧ (s.run n).resuming = false then
      s.setRun n { s.run n with phase := .ending }
    else s := by
  rw [State.runTeardown, if_neg (by rw [over_iff.2 h]; decide), if_pos hn]
  simp only [beq_iff_eq, Bool.and_eq_true, Bool.not_eq_true', and_assoc]

/-- A Lodge without a run's counters and tables. -/
def clearedLodge (n : Nat) (l : Lodge) : Lodge :=
  { l with
    ctr := Sparse.erase l.ctr n, maxTs := Sparse.erase l.maxTs n, spmin := Sparse.erase l.spmin n,
    spblk := Sparse.erase l.spblk n, blocks := Sparse.erase l.blocks n,
    discards := l.discards.filter fun d => d.2 != n }

/-- The state without a run's tables, with its slot free. -/
def tornDown (s : State) (n : Nat) : State :=
  ({ s with
    lodges := s.lodges.mapVals fun _ l => clearedLodge n l,
    accTag := s.accTag.filter fun e => e.2 != (s.run n).cfg.runid,
    stash := { s.stash with touched := s.stash.touched.filter fun p => p.2 != n },
    rows := s.rows.filter fun r => r.run != n,
    rowCount := s.rowCount.filter fun e => e.1 / 2 ^ 24 != n } : State).setRun n
      { Run.reset with gen := (s.run n).gen, cfgpa := (s.run n).cfgpa, bad := (s.run n).bad }

theorem blocksOf_clearedLodge (n : Nat) (l : Lodge) : (clearedLodge n l).blocksOf n = [] := by
  simp [clearedLodge, Lodge.blocksOf, Sparse.getD, get?_erase_same]

theorem tearDown_eq {n : Nat} (hn : n < 16) (hmaps : ∀ m ∈ s.stash.maps, m.run ≠ n) : s.tearDown n = tornDown s n := by
  have hnone : s.stash.maps.filter (fun m => m.run == n) = [] := List.filter_eq_nil_iff.2 fun m hm => by simp [hmaps m hm]
  rw [State.tearDown, hnone, if_pos hn]
  rfl

theorem lodge_tornDown (n tile : Nat) : (tornDown s n).lodge tile = clearedLodge n (s.lodge tile) :=
  getD_mapVals s.lodges (fun _ => clearedLodge n) tile rfl

end Sys2Proof.Proofs
end

