-- ==== Sys2Proof/Proofs/RunPreempt.lean ====
section
/-! PREEMPT (R81, R179) of a run with nothing left to save on the tiles: its header is written, and it leaves its slot. -/
namespace Sys2Proof.Proofs
open Sys2Proof Sys2Proof.Machine Sys2Proof.Laws

-- What a probe without effect on tasks, and the entries of saved threads given up, leave alone.

@[simp] theorem beyond_unmarkDie (s : State) (d l : Nat) : beyondHomes (s.unmarkDie d l) = beyondHomes s := by simp [State.unmarkDie]

@[simp] theorem beyond_unmark (s : State) (t l : Nat) : beyondHomes (s.unmark t l) = beyondHomes s := by
  simp only [State.unmark]
  split
  · rfl
  · simp

@[simp] theorem beyond_reprobe (s : State) (l : Nat) : beyondHomes (s.reprobe l) = beyondHomes s := by
  unfold State.reprobe
  rw [beyond_foldl]
  · split
    · rfl
    · exact beyond_foldl _ (fun _ _ => by simp) _
  · exact fun _ _ => by simp

variable {s : State} {n : Nat}

theorem saved_of_beyondHomes {u : State} (h : beyondHomes u = beyondHomes s) : u.saved = s.saved :=
  show (beyondHomes u).saved = (beyondHomes s).saved by rw [h]

theorem saved_dropEntries : (s.dropEntries n).saved = s.saved := by
  simp only [State.dropEntries]
  rw [foldl_keeps State.saved fun s e => saved_of_beyondHomes (beyond_reprobe s _)]
  exact foldl_keeps State.saved (fun _ _ => setLodge_saved ..) _ _

/-- Jobs leave their queues, and the free values stay. -/
theorem fresh_takeJobs : (s.takeJobs n).fresh = s.fresh := by
  refine foldl_keeps State.fresh (fun s tile => ?_) _ s
  have hlanes : ∀ (c : Nat → Bool) (l : List Nat) (s : State),
      (l.foldl (fun (s : State) k => if c k then s.withdraw (.porter tile k) else s) s).fresh = s.fresh := fun c =>
    foldl_keeps State.fresh fun s k => by cases c k <;> rfl
  simp only [setEngine_fresh, hlanes]
  split <;> rfl

theorem withFresh_eq {f : Nat} (h : f = s.fresh) : { s with fresh := f } = s := by
  subst h
  rfl

/-- The run as the list of saved runs shows it, with no thread, job, mapping or stash saved. -/
def savedRecord (v : State) (n level order : Nat) : SavedRun :=
  let r := v.run n
  { jobs := [], tasks := r.returning, maps := [], images := [], cfg := r.cfg, cfgpa := r.cfgpa, milestone := r.milestone, floor := r.floor,
    level := level, order := order, ends := r.ends, killed := r.killed, ended := r.ended, porter := [] }

/-- The state once the run's header is written: the run is saved, and its slot free. -/
def leftSlot (v : State) (n level : Nat) : State :=
  let r := v.run n
  let d := v.dropEntries n
  let u : State := { d with
    threads := d.threads.filter fun x => !(([] : List (Nat × Thread)).any fun y => y.1 == x.1),
    stash := { d.stash with touched := d.stash.touched.filter fun p => p.2 != n },
    saved := d.saved ++ [savedRecord v n level d.nextStore],
    nextStore := d.nextStore + 1 }
  let key := savedKey r.cfg.runid
  (((u.renameRun n key).setRun key { r with phase := .free }).setRun n { Run.reset with gen := r.gen, cfgpa := r.cfgpa, bad := r.bad })

theorem saveMaps_none (h : ∀ m ∈ s.stash.maps, m.run ≠ n) (l : List Nat) : eachOf (State.saveMaps n) l s = .ok s := by
  induction l with
  | nil => rfl
  | cons tile r ih =>
    have hnone : s.stash.maps.filter (fun m => m.tile == tile && m.run == n) = [] :=
      List.filter_eq_nil_iff.2 fun m hm => by simp [h m hm]
    simp only [eachOf, State.saveMaps, hnone, List.isEmpty_nil, if_true, ih]

/-- Nothing of the run is left to save on the tiles, and no fault of it waits for a reply. -/
structure NothingLeft (s : State) (n : Nat) : Prop where
  records : ∀ r ∈ s.records, r.run ≠ some n
  entries : s.runEntries n = []
  queued : ∀ tile < 256, s.hasQueued n tile = false
  threads : s.runThreads n = []
  jobs : s.runJobs n = []
  maps : ∀ m ∈ s.stash.maps, m.run ≠ n
  touched : ∀ p ∈ s.stash.touched, p.2 ≠ n

section
variable (h : NothingLeft s n)
include h

/-- The save area is cleared, and the header written. -/
theorem saveRun_eq : s.saveRun n = match (s.takeJobs n).clearArea n with
    | .error e => .error e
    | .ok v0 => match eachOf (State.saveMaps n) (List.range 256) v0 with
      | .error e => .error e
      | .ok v => match v.areaWrite 0 n (v.saveVa n 0) (v.headWords n (v.run n).returning.length) with
        | .error e => .error e
        | .ok v => .ok (leftSlot v n (s.runLevel n)) := by
  have hmaps : s.stash.maps.filter (fun m => m.run == n) = [] := List.filter_eq_nil_iff.2 fun m hm => by simp [h.maps m hm]
  have htouched : s.stash.touched.filter (fun p => p.2 == n) = [] := List.filter_eq_nil_iff.2 fun p hp => by simp [h.touched p hp]
  have hfresh : ({ s.takeJobs n with fresh := s.fresh + 8 * 0 } : State) = s.takeJobs n := withFresh_eq fresh_takeJobs.symm
  unfold State.saveRun
  simp only [h.threads, h.jobs, hmaps, htouched, porterWords, List.filter_nil, List.mapIdx_nil, List.length_nil, hfresh, eachOf,
    List.foldl_nil, List.map_nil, Nat.zero_add, List.filterMap_nil, List.nil_append]
  rfl

theorem saveRun_notCleared {e : Stop} (harea : (s.takeJobs n).clearArea n = .error e) : s.saveRun n = .error e := by
  rw [saveRun_eq h, harea]

variable {v0 : State} (harea : (s.takeJobs n).clearArea n = .ok v0) (hmaps : ∀ m ∈ v0.stash.maps, m.run ≠ n)
include harea hmaps

theorem saveRun_notWritten {e : Stop} (hhead : v0.areaWrite 0 n (v0.saveVa n 0) (v0.headWords n (v0.run n).returning.length) = .error e) :
    s.saveRun n = .error e := by
  simp only [saveRun_eq h, harea, saveMaps_none hmaps, hhead]

theorem saveRun_written {v : State} (hhead : v0.areaWrite 0 n (v0.saveVa n 0) (v0.headWords n (v0.run n).returning.length) = .ok v) :
    s.saveRun n = .ok (leftSlot v n (s.runLevel n)) := by
  simp only [saveRun_eq h, harea, saveMaps_none hmaps, hhead]

end

@[simp] theorem run_leftSlot (v : State) (n level : Nat) : (leftSlot v n level).run n =
    { Run.reset with gen := (v.run n).gen, cfgpa := (v.run n).cfgpa, bad := (v.run n).bad } := run_setRun_same ..

theorem saved_leftSlot (v : State) (n level : Nat) :
    (leftSlot v n level).saved = v.saved ++ [savedRecord v n level (v.dropEntries n).nextStore] := by
  show (v.dropEntries n).saved ++ _ = _
  rw [saved_dropEntries]

theorem spillAll_none {tile : Nat} (h : s.hasQueued n tile = false) (f : Nat) : s.spillAll n tile f = s := by
  cases f with
  | zero => rfl
  | succ f => simp [State.spillAll, h]

theorem saveHeld_none (h : ∀ r ∈ s.records, r.run ≠ some n) : s.saveHeld n = false :=
  List.any_eq_false.2 fun r hr => by simp [h r hr]

/-- The run's slot as pre-emption begins. -/
def preempting (s : State) (n : Nat) : State := s.setRun n { s.run n with phase := .preempting }

/-- What save area traffic leaves: the state it ends in, or the traffic stopped. -/
def saveOutcome (s : State) (n : Nat) : Except Stop State → State
  | .ok u => u
  | .error e => s.saveStop n e

section
variable (h : NothingLeft s n)
include h

/-- A run with nothing left to save on the tiles is saved at once. -/
theorem preemptStep_eq : s.preemptStep n = saveOutcome s n (s.saveRun n) := by
  have habort : s.preemptAborts n = s := by simp [State.preemptAborts, h.entries]
  have hspill : (List.range 256).foldl (fun (s : State) t => s.spillAll n t 512) s = s := by
    refine List.foldlRecOn (motive := fun u => u = s) _ _ rfl fun u hu t ht => ?_
    rw [hu, spillAll_none (h.queued t (List.mem_range.1 ht))]
  have hany : (List.range 256).any (s.hasQueued n) = false := List.any_eq_false.2 fun t ht => by simp [h.queued t (List.mem_range.1 ht)]
  simp only [State.preemptStep, saveHeld_none h.records, habort, h.entries, h.threads, State.onHalted, hspill, hany, List.any_nil,
    List.foldl_nil, Bool.or_self, Bool.false_eq_true, if_false]
  rfl

theorem preemptStep_stops {e : Stop} (hsave : s.saveRun n = .error e) : s.preemptStep n = s.saveStop n e := by
  rw [preemptStep_eq h, hsave, saveOutcome]

theorem preemptStep_leaves {u : State} (hsave : s.saveRun n = .ok u) : s.preemptStep n = u := by
  rw [preemptStep_eq h, hsave, saveOutcome]

end

theorem preempt_starts (hkilled : (s.run n).killed = false) (hfatal : s.fatal = false) (hphase : (s.run n).phase = .resident)
    (hmust : s.mustPreempt n = true) : s.preempt n = (preempting s n).preemptStep n := by
  simp [State.preempt, hkilled, hfatal, hphase, hmust, preempting]

/-- A run that need not, or can not, give way is left alone. -/
theorem preempt_none (h : (s.run n).killed = true ∨ s.fatal = true ∨ (s.run n).phase = .free ∨ (s.run n).phase = .ending ∨
    ((s.run n).phase = .resident ∧ s.mustPreempt n = false)) : s.preempt n = s := by
  rw [State.preempt]
  rcases h with h | h | h | h | ⟨h, hmust⟩
  · simp [h]
  · simp [h]
  · simp [h]
  · simp [h]
  · simp [h, hmust]

end Sys2Proof.Proofs
end

