-- ==== Sys2Proof/Proofs/SavedThread.lean ====
section
/-! A thread as its record in the save area gives it (R181): each register reads the word that the layout gives it. -/
namespace Sys2Proof.Proofs
open Sys2Proof Sys2Proof.Machine Sys2Proof.Laws

-- Elements packed into a number.

theorem packElems_lt (w : Nat) (l : List Nat) : packElems w l < 2 ^ (w * l.length) := by
  induction l with
  | nil => simp [packElems]
  | cons v r ih =>
    have hv : v % 2 ^ w < 2 ^ w := Nat.mod_lt _ (Nat.two_pow_pos w)
    have hle : 2 ^ w * (packElems w r + 1) ≤ 2 ^ w * 2 ^ (w * r.length) := Nat.mul_le_mul_left _ ih
    rw [packElems, List.length_cons, Nat.mul_succ, Nat.pow_add, Nat.mul_comm (2 ^ (w * r.length))]
    rw [Nat.mul_add, Nat.mul_one] at hle
    omega

/-- Element i of the packed number. -/
theorem packElems_elem (w : Nat) (l : List Nat) (i : Nat) : packElems w l / 2 ^ (w * i) % 2 ^ w = l.getD i 0 % 2 ^ w := by
  induction l generalizing i with
  | nil => simp [packElems]
  | cons v r ih =>
    have hpos := Nat.two_pow_pos w
    cases i with
    | zero => simp [packElems]
    | succ i =>
      have hrest : (v % 2 ^ w + 2 ^ w * packElems w r) / 2 ^ w = packElems w r := by
        rw [Nat.add_mul_div_left _ _ hpos, Nat.div_eq_of_lt (Nat.mod_lt _ hpos), Nat.zero_add]
      rw [packElems, Nat.mul_succ, Nat.add_comm (w * i), Nat.pow_add, ← Nat.div_div_eq_div_mul, hrest, ih, List.getD_cons_succ]

/-- Word i of a w register made from words. -/
theorem lineNat_lineOfWords (w : List (BitVec 64)) {i : Nat} (hi : i < 16) : lineNat (lineOfWords w) (8 * i) 8 = (w.getD i 0).toNat := by
  have hlen : 64 * ((w.take 16).map fun v => v.toNat).length ≤ 1024 := by
    simp only [List.length_map, List.length_take]
    omega
  have hlt := (packElems_lt 64 ((w.take 16).map fun v => v.toNat)).trans_le (Nat.pow_le_pow_right (by decide) hlen)
  have helem := packElems_elem 64 ((w.take 16).map fun v => v.toNat) i
  have hword : ((w.take 16).map fun v => v.toNat).getD i 0 = (w.getD i 0).toNat := by
    rw [List.getD_eq_getElem?_getD, List.getD_eq_getElem?_getD, List.getElem?_map, List.getElem?_take, if_pos hi]
    cases w[i]? <;> rfl
  rw [hword, Nat.mod_eq_of_lt (w.getD i 0).isLt] at helem
  rw [lineNat, lineOfWords, BitVec.toNat_ofNat, Nat.mod_eq_of_lt hlt, Nat.shiftRight_eq_div_pow, ← Nat.mul_assoc, ← helem]

-- Register files written one after the other.

section
variable (t : Thread)

theorem getM_setM_same {r : MReg} (h : r ≠ 0) (v : BitVec 64) : (t.setM r v).getM r = v := by
  rw [Thread.setM, if_neg h, Thread.getM, if_neg h]
  exact Vector.getElem_set_self r.isLt

theorem getM_setM_other {r q : MReg} (h : q ≠ r) (v : BitVec 64) : (t.setM r v).getM q = t.getM q := by
  have hne : r.toNat ≠ q.toNat := fun e => h (BitVec.eq_of_toNat_eq e.symm)
  by_cases hr : r = 0
  · rw [Thread.setM, if_pos hr]
  · rw [Thread.setM, if_neg hr, Thread.getM, Thread.getM]
    exact congrArg _ (Vector.getElem_set_ne r.isLt q.isLt hne)

theorem getP_setP_same {r : PReg} (h : r ≠ 0) (v : Bool) : (t.setP r v).getP r = v := by
  rw [Thread.setP, if_neg h, Thread.getP, if_neg h]
  exact Vector.getElem_set_self r.isLt

theorem getP_setP_other {r q : PReg} (h : q ≠ r) (v : Bool) : (t.setP r v).getP q = t.getP q := by
  have hne : r.toNat ≠ q.toNat := fun e => h (BitVec.eq_of_toNat_eq e.symm)
  by_cases hr : r = 0
  · rw [Thread.setP, if_pos hr]
  · rw [Thread.setP, if_neg hr, Thread.getP, Thread.getP]
    exact congrArg _ (Vector.getElem_set_ne r.isLt q.isLt hne)

theorem getW_setW_same (r : WReg) (v : Line) : (t.setW r v).getW r = v := Vector.getElem_set_self r.isLt

theorem getW_setW_other {r q : WReg} (h : q ≠ r) (v : Line) : (t.setW r v).getW q = t.getW q :=
  Vector.getElem_set_ne r.isLt q.isLt fun e => h (BitVec.eq_of_toNat_eq e.symm)

end

/-- Where each number below N writes its own place, a place reads what its number wrote. -/
theorem foldl_range_write {σ α : Type} (get : σ → α) (set : σ → Nat → σ) {N j : Nat} (hj : j < N) {v : α}
    (hsame : ∀ t, get (set t j) = v)
    (hother : ∀ t i, i < N → i ≠ j → get (set t i) = get t) (t : σ) : get ((List.range N).foldl set t) = v := by
  induction N with
  | zero => omega
  | succ N ih =>
    rw [List.range_succ, List.foldl_append]
    by_cases hN : j = N
    · subst hN
      exact hsame _
    · exact (hother _ _ (Nat.lt_succ_self N) (Ne.symm hN)).trans (ih (by omega) fun t i hi => hother t i (by omega))

theorem ne_ofNat {w i : Nat} {r : BitVec w} (hi : i < 2 ^ w) (h : i ≠ r.toNat) : r ≠ BitVec.ofNat w i := fun e =>
  h (by rw [e, BitVec.toNat_ofNat, Nat.mod_eq_of_lt hi])

theorem ofNat_toNat_self {w : Nat} (r : BitVec w) : BitVec.ofNat w r.toNat = r := by simp

variable (t : Thread)

theorem getG_foldl_setG (f : Nat → BitVec 64) (r : GReg) :
    ((List.range 16).foldl (fun (t : Thread) i => t.setG (BitVec.ofNat 4 i) (f i)) t).getG r = f r.toNat :=
  foldl_range_write (fun t => t.getG r) _ r.isLt (fun t => by rw [ofNat_toNat_self, getG_setG_same])
    (fun t i hi hne => getG_setG_other _ _ _ _ (ne_ofNat hi hne)) t

theorem getM_foldl_setM (f : Nat → BitVec 64) {r : MReg} (hr : r ≠ 0) :
    ((List.range 8).foldl (fun (t : Thread) i => t.setM (BitVec.ofNat 3 i) (f i)) t).getM r = f r.toNat :=
  foldl_range_write (fun t => t.getM r) _ r.isLt (fun t => by rw [ofNat_toNat_self, getM_setM_same t hr])
    (fun t i hi hne => getM_setM_other t (ne_ofNat hi hne) _) t

theorem getP_foldl_setP (f : Nat → Bool) {r : PReg} (hr : r ≠ 0) :
    ((List.range 8).foldl (fun (t : Thread) i => t.setP (BitVec.ofNat 3 i) (f i)) t).getP r = f r.toNat :=
  foldl_range_write (fun t => t.getP r) _ r.isLt (fun t => by rw [ofNat_toNat_self, getP_setP_same t hr])
    (fun t i hi hne => getP_setP_other t (ne_ofNat hi hne) _) t

theorem getW_foldl_setW (f : Nat → Line) (r : WReg) :
    ((List.range 32).foldl (fun (t : Thread) i => t.setW (BitVec.ofNat 5 i) (f i)) t).getW r = f r.toNat :=
  foldl_range_write (fun t => t.getW r) _ r.isLt (fun t => by rw [ofNat_toNat_self, getW_setW_same])
    (fun t i hi hne => getW_setW_other t (ne_ofNat hi hne) _) t

-- The thread, written part by part.

/-- Words of the record. -/
def recordPart (w : List (BitVec 64)) (i n : Nat) : List (BitVec 64) := (w.drop i).take n

/-- The task of the record, with what the device kept of it. -/
def recordTask (w : List (BitVec 64)) (k : Task) : Task :=
  let h := (w.getD 3 0).toNat
  let spec := bitOf h 2
  { k with ts := w.getD 2 0, tb := if spec then BitVec.ofNat 32 (bitsOf h 32 32) else 0, spec := spec, hasTb := true,
           hmode := hmodeOf (bitsOf h 0 2), hint := w.getD 4 0, ident := identOfWords (recordPart w 56 6), standing := spec }

/-- The thread before its registers are written. -/
def recordThread (w : List (BitVec 64)) (k : Task) (now : Nat) : Thread :=
  { Thread.fresh ((w.getD 1 0).setWidth 56) with
    task := some (recordTask w k), rep := repeatOfWords (recordPart w 35 2),
    streams := (List.range 4).map fun i => streamOfWords (recordPart w (64 + 8 * i) 8), nolog := bitOf (w.getD 3 0).toNat 2, lastIssue := now }

/-- The user control registers of the record. -/
def writeUcrs (w : List (BitVec 64)) (t : Thread) : Thread :=
  let t := (t.setUcr 8 (w.getD 33 0)).setUcr 0x10 (w.getD 34 0)
  let t := (List.range 8).foldl (fun (t : Thread) i => t.setUcr i (w.getD (40 + i) 0)) t
  (List.range 4).foldl (fun (t : Thread) i => t.setUcr (0x0C + i) (w.getD (48 + i) 0)) t

/-- The register files of the record. -/
def writeGs (w : List (BitVec 64)) (t : Thread) : Thread :=
  (List.range 16).foldl (fun (t : Thread) i => t.setG (BitVec.ofNat 4 i) (w.getD (8 + i) 0)) t
@[inherit_doc writeGs]
def writeMs (w : List (BitVec 64)) (t : Thread) : Thread :=
  (List.range 8).foldl (fun (t : Thread) i => t.setM (BitVec.ofNat 3 i) (w.getD (24 + i) 0)) t
@[inherit_doc writeGs]
def writePs (w : List (BitVec 64)) (t : Thread) : Thread :=
  (List.range 8).foldl (fun (t : Thread) i => t.setP (BitVec.ofNat 3 i) ((w.getD 32 0).getLsbD i)) t
@[inherit_doc writeGs]
def writeWs (w : List (BitVec 64)) (t : Thread) : Thread :=
  (List.range 32).foldl (fun (t : Thread) i => t.setW (BitVec.ofNat 5 i) (lineOfWords (recordPart w (128 + 16 * i) 16))) t

variable (w : List (BitVec 64))

theorem threadOfWords_eq (k : Task) (now : Nat) :
    threadOfWords w k now = writeWs w (writePs w (writeMs w (writeGs w (writeUcrs w (recordThread w k now))))) := rfl

/-- What of a thread is no register and no control register. -/
def threadFrame (t : Thread) : Option Task × BitVec 56 × BitVec 64 × Park × List Outstanding := (t.task, t.pc, t.pend, t.park, t.outs)

theorem threadFrame_eq_iff {t : Thread} {a : Option Task} {b : BitVec 56} {c : BitVec 64} {d : Park} {e : List Outstanding} :
    threadFrame t = (a, b, c, d, e) ↔ t.task = a ∧ t.pc = b ∧ t.pend = c ∧ t.park = d ∧ t.outs = e := by
  simp only [threadFrame, Prod.mk.injEq]

theorem frame_setUcr (n : Nat) (v : BitVec 64) : threadFrame (t.setUcr n v) = threadFrame t := by
  unfold Thread.setUcr
  split_ifs <;> rfl

theorem frame_writeUcrs : threadFrame (writeUcrs w t) = threadFrame t := by
  unfold writeUcrs
  rw [foldl_keeps threadFrame fun t i => frame_setUcr t _ _, foldl_keeps threadFrame fun t i => frame_setUcr t _ _, frame_setUcr, frame_setUcr]

theorem sr_setUcr_other {n : Nat} (h : n ≠ 8) (v : BitVec 64) : (t.setUcr n v).sr = t.sr := by
  unfold Thread.setUcr
  split_ifs <;> rfl

theorem sr_setUcr_same (v : BitVec 64) : (t.setUcr 8 v).sr = if v.setWidth 32 = 0#32 then 1 else v.setWidth 32 := rfl

/-- Control registers other than the seed leave it alone. -/
theorem sr_foldl_setUcr (base : Nat) (f : Nat → BitVec 64) (l : List Nat) (h : ∀ i ∈ l, base + i ≠ 8) :
    (l.foldl (fun (t : Thread) i => t.setUcr (base + i) (f i)) t).sr = t.sr := by
  induction l generalizing t with
  | nil => rfl
  | cons i r ih => 
    rw [List.foldl_cons, ih _ fun j hj => h j (List.mem_cons_of_mem _ hj), sr_setUcr_other _ (h i (List.mem_cons_self ..))]

theorem sr_writeUcrs : (writeUcrs w t).sr = if (w.getD 33 0).setWidth 32 = 0#32 then 1 else (w.getD 33 0).setWidth 32 := by
  have hlow := sr_foldl_setUcr ((t.setUcr 8 (w.getD 33 0)).setUcr 0x10 (w.getD 34 0)) 0 (fun i => w.getD (40 + i) 0) (List.range 8)
    fun i hi => by have := List.mem_range.1 hi; omega
  simp only [Nat.zero_add] at hlow
  unfold writeUcrs
  rw [sr_foldl_setUcr _ 0x0C _ _ fun i _ => by omega, hlow, sr_setUcr_other _ (by decide), sr_setUcr_same]

-- What each register file leaves of the others.

/-- What the g registers leave alone. -/
theorem rest_writeGs : threadFrame (writeGs w t) = threadFrame t ∧ (writeGs w t).sr = t.sr :=
  ⟨foldl_keeps threadFrame (fun _ _ => by rfl) _ t, foldl_keeps Thread.sr (fun _ _ => by rfl) _ t⟩

theorem rest_writeMs : threadFrame (writeMs w t) = threadFrame t ∧ (writeMs w t).sr = t.sr ∧ (writeMs w t).g = t.g :=
  ⟨foldl_keeps threadFrame (fun _ _ => by simp [threadFrame]) _ t, foldl_keeps Thread.sr (fun _ _ => by simp) _ t,
    foldl_keeps Thread.g (fun _ _ => by simp) _ t⟩

theorem rest_writePs : threadFrame (writePs w t) = threadFrame t ∧ (writePs w t).sr = t.sr ∧ (writePs w t).g = t.g ∧ (writePs w t).m = t.m :=
  ⟨foldl_keeps threadFrame (fun _ _ => by simp [threadFrame]) _ t, foldl_keeps Thread.sr (fun _ _ => by simp) _ t,
    foldl_keeps Thread.g (fun _ _ => by simp) _ t, foldl_keeps Thread.m (fun _ _ => by simp) _ t⟩

theorem rest_writeWs : threadFrame (writeWs w t) = threadFrame t ∧ (writeWs w t).sr = t.sr ∧ (writeWs w t).g = t.g ∧ (writeWs w t).m = t.m ∧
    (writeWs w t).p = t.p :=
  ⟨foldl_keeps threadFrame (fun _ _ => by rfl) _ t, foldl_keeps Thread.sr (fun _ _ => by rfl) _ t, foldl_keeps Thread.g (fun _ _ => by rfl) _ t,
    foldl_keeps Thread.m (fun _ _ => by rfl) _ t, foldl_keeps Thread.p (fun _ _ => by rfl) _ t⟩

section
variable (k : Task) (now : Nat)

theorem frame_threadOfWords :
    threadFrame (threadOfWords w k now) = (some (recordTask w k), (w.getD 1 0).setWidth 56, 0, .run, []) := by
  rw [threadOfWords_eq, (rest_writeWs ..).1, (rest_writePs ..).1, (rest_writeMs ..).1, (rest_writeGs ..).1, frame_writeUcrs]
  rfl

theorem sr_threadOfWords : (threadOfWords w k now).sr = if (w.getD 33 0).setWidth 32 = 0#32 then 1 else (w.getD 33 0).setWidth 32 := by
  rw [threadOfWords_eq, (rest_writeWs ..).2.1, (rest_writePs ..).2.1, (rest_writeMs ..).2.1, (rest_writeGs ..).2, sr_writeUcrs]

theorem getG_threadOfWords (r : GReg) : (threadOfWords w k now).getG r = w.getD (8 + r.toNat) 0 := by
  have hg : (threadOfWords w k now).g = (writeGs w (writeUcrs w (recordThread w k now))).g := by
    rw [threadOfWords_eq, (rest_writeWs ..).2.2.1, (rest_writePs ..).2.2.1, (rest_writeMs ..).2.2]
  rw [Thread.getG, hg]
  exact getG_foldl_setG _ (fun i => w.getD (8 + i) 0) r

theorem getM_threadOfWords {r : MReg} (hr : r ≠ 0) : (threadOfWords w k now).getM r = w.getD (24 + r.toNat) 0 := by
  have hm : (threadOfWords w k now).m = (writeMs w (writeGs w (writeUcrs w (recordThread w k now)))).m := by
    rw [threadOfWords_eq, (rest_writeWs ..).2.2.2.1, (rest_writePs ..).2.2.2]
  rw [Thread.getM, hm]
  exact getM_foldl_setM _ (fun i => w.getD (24 + i) 0) hr

theorem getP_threadOfWords {r : PReg} (hr : r ≠ 0) : (threadOfWords w k now).getP r = (w.getD 32 0).getLsbD r.toNat := by
  have hp : (threadOfWords w k now).p = (writePs w (writeMs w (writeGs w (writeUcrs w (recordThread w k now))))).p := by
    rw [threadOfWords_eq, (rest_writeWs ..).2.2.2.2]
  rw [Thread.getP, hp]
  exact getP_foldl_setP _ (fun i => (w.getD 32 0).getLsbD i) hr

theorem getW_threadOfWords (r : WReg) {i : Nat} (hi : i < 16) :
    lineNat ((threadOfWords w k now).getW r) (8 * i) 8 = (w.getD (128 + 16 * r.toNat + i) 0).toNat := by
  rw [threadOfWords_eq, writeWs, getW_foldl_setW, lineNat_lineOfWords _ hi, recordPart]
  simp [List.getD_eq_getElem?_getD, hi]

end

/-- A thread holds what its record says, and waits for nothing. -/
structure HoldsRecord (w : List (BitVec 64)) (k : Task) (t : Thread) : Prop where
  task : t.task = some (recordTask w k)
  pc : t.pc = (w.getD 1 0).setWidth 56
  g : ∀ r : GReg, t.getG r = w.getD (8 + r.toNat) 0
  m : ∀ r : MReg, r ≠ 0 → t.getM r = w.getD (24 + r.toNat) 0
  p : ∀ r : PReg, r ≠ 0 → t.getP r = (w.getD 32 0).getLsbD r.toNat
  sr : t.sr = if (w.getD 33 0).setWidth 32 = 0#32 then 1 else (w.getD 33 0).setWidth 32
  w : ∀ (r : WReg) (i : Nat), i < 16 → lineNat (t.getW r) (8 * i) 8 = (w.getD (128 + 16 * r.toNat + i) 0).toNat
  pend : t.pend = 0
  outs : t.outs = []
  park : t.park = .run

theorem holdsRecord_threadOfWords (k : Task) (now : Nat) : HoldsRecord w k (threadOfWords w k now) := by
  obtain ⟨htask, hpc, hpend, hpark, houts⟩ := threadFrame_eq_iff.1 (frame_threadOfWords w k now)
  exact ⟨htask, hpc, getG_threadOfWords w k now, fun _ => getM_threadOfWords w k now, fun _ => getP_threadOfWords w k now,
    sr_threadOfWords w k now, fun r _ => getW_threadOfWords w k now r, hpend, houts, hpark⟩

theorem HoldsRecord.withEntry {w : List (BitVec 64)} {k : Task} {t : Thread} (h : HoldsRecord w k t) (entry : Option Nat) :
    HoldsRecord w k { t with entry := entry } :=
  ⟨h.task, h.pc, h.g, h.m, h.p, h.sr, h.w, h.pend, h.outs, h.park⟩

end Sys2Proof.Proofs
end

