-- ==== Sys2Proof/Proofs/RunResume.lean ====
section
/-! RESUME (R80, R180): the saved run that is due comes back to a free slot, and its threads return. -/
namespace Sys2Proof.Proofs
open Sys2Proof Sys2Proof.Machine Sys2Proof.Laws

variable {s : State} {n : Nat}

/-- A slot that has nothing to bring back is left alone. -/
theorem resume_none (h : 16 ≤ n ∨ (s.run n).killed = true ∨ s.fatal = true ∨ (s.run n).phase = .preempting ∨ (s.run n).phase = .ending ∨
    ((s.run n).phase = .free ∧ s.nextSaved = none) ∨
    ((s.run n).phase = .resident ∧ (s.run n).resuming = false ∧ (s.run n).returning = [])) : s.resume n = s := by
  rw [State.resume]
  rcases h with h | h | h | h | h | ⟨h, hnext⟩ | ⟨h, hresuming, hreturning⟩
  · simp [h]
  · simp [h]
  · simp [h]
  · simp [h]
  · simp [h]
  · simp [h, hnext]
  · simp [h, hresuming, hreturning]

/-- The run that resumes next is not a killed one. -/
theorem nextSaved_alive {x : SavedRun} (h : s.nextSaved = some x) : x.killed = false := by
  unfold State.nextSaved at h
  refine List.foldlRecOn (motive := fun a : Option SavedRun => ∀ x, a = some x → x.killed = false)
    (s.saved.filter fun x : SavedRun => !x.killed && s.savedWork x && (s.runSlotOf x.cfg.runid).isNone) _ (by simp)
    (fun a ha y hy z hz => ?_) x h
  have hy : y.killed = false := by
    simp only [List.mem_filter, Bool.and_eq_true, Bool.not_eq_true'] at hy
    exact hy.2.1.1
  cases a with
  | none => cases hz; exact hy
  | some b =>
    simp only at hz
    split at hz
    · cases hz; exact hy
    · cases hz; exact ha _ rfl

/-- The slot of the saved run that is due, as its save area is about to be read. -/
def comingBack (s : State) (n : Nat) (x : SavedRun) : State :=
  let s0 := s.loadSlot n x.cfg x.cfgpa
  s0.setRun n { s0.run n with resuming := true }

theorem cfg_comingBack (x : SavedRun) : ((comingBack s n x).run n).cfg = x.cfg := by
  rw [comingBack, run_setRun_same]
  show ((s.loadSlot n x.cfg x.cfgpa).run n).cfg = _
  exact congrArg Run.cfg (run_setRun_same ..)

section
variable {x : SavedRun} (hn : n < 16) (hkilled : (s.run n).killed = false) (hfatal : s.fatal = false) (hphase : (s.run n).phase = .free)
  (hnext : s.nextSaved = some x) (hrecords : ∀ r ∈ s.records, r.run ≠ some n) (hsaved : s.savedOf x.cfg.runid = some x)
include hn hkilled hfatal hphase hnext hrecords hsaved

/-- A free slot takes the saved run that is due. -/
theorem resume_takes : s.resume n = saveOutcome (comingBack s n x) n ((comingBack s n x).loadRun n x) := by
  have hheld : (comingBack s n x).saveHeld n = false := saveHeld_none hrecords
  have hfind : (comingBack s n x).savedOf ((comingBack s n x).run n).cfg.runid = some x := by rw [cfg_comingBack]; exact hsaved
  rw [State.resume, if_neg (by simp [hkilled, hfatal]; omega)]
  simp only [hphase, hnext]
  change (if (comingBack s n x).saveHeld n then _ else match (comingBack s n x).savedOf ((comingBack s n x).run n).cfg.runid with
    | none => _ | some x => _) = _
  simp only [hheld, hfind, nextSaved_alive hnext]
  rfl

theorem resume_stops {e : Stop} (h : (comingBack s n x).loadRun n x = .error e) : s.resume n = (comingBack s n x).saveStop n e := by
  rw [resume_takes hn hkilled hfatal hphase hnext hrecords hsaved, h, saveOutcome]

theorem resume_loads {u : State} (h : (comingBack s n x).loadRun n x = .ok u) : s.resume n = u := by
  rw [resume_takes hn hkilled hfatal hphase hnext hrecords hsaved, h, saveOutcome]

end

-- The save area, read in the order of R180.

/-- What stood under the key of the saved run stands under its slot, and it is no longer saved. -/
def inSlot (v : State) (n : Nat) (x : SavedRun) : State :=
  let key := savedKey x.cfg.runid
  let s := v.renameRun key n
  { s with saved := s.saved.filter fun y => y.cfg.runid != x.cfg.runid, runs := Sparse.erase s.runs key,
           tlb := s.tlb.filter fun e => e.run != key }

/-- The state once the area is read: the run is resident again, but for its threads. -/
def broughtBack (v : State) (n : Nat) (x : SavedRun) (w : List (BitVec 64)) (tasks : List (Nat × Task)) : State :=
  let s := (inSlot v n x).loadHead n x w
  tasks.foldl (fun (s : State) p => s.returnEntry n p.1 p.2) (s.setRun n { s.run n with returning := tasks })

section
variable {x : SavedRun}

-- The reading of the thread records is a variable here: the kernel would lay out their table, of 16,384 addresses.
variable {load : State → Nat → SavedRun → Except Stop (List (Nat × Task) × State)} (hload : State.loadTasks = load)
include hload

/-- The header is read, then the stashes, mappings and jobs, then the thread records. -/
theorem loadRun_eq : s.loadRun n x = (s.areaRead 0 n 1024 (s.saveVa n 0)).bind fun p =>
    (p.2.loadParts n x).bind fun v => (load v n x).bind fun q => .ok (broughtBack q.2 n x p.1 q.1) := by
  rw [State.loadRun, hload]
  cases s.areaRead 0 n 1024 (s.saveVa n 0) with
  | error e => rfl
  | ok p =>
    simp only [Except.bind]
    cases p.2.loadParts n x with
    | error e => rfl
    | ok v2 =>
      simp only
      cases load v2 n x <;> rfl

theorem loadRun_header {e : Stop} (h : s.areaRead 0 n 1024 (s.saveVa n 0) = .error e) : s.loadRun n x = .error e := by
  rw [loadRun_eq hload, h, Except.bind]

variable {w : List (BitVec 64)} {v : State} (hhead : s.areaRead 0 n 1024 (s.saveVa n 0) = .ok (w, v))
include hhead

theorem loadRun_parts {e : Stop} (h : v.loadParts n x = .error e) : s.loadRun n x = .error e := by
  simp only [loadRun_eq hload, hhead, h, Except.bind]

variable {v2 : State} (hparts : v.loadParts n x = .ok v2)
include hparts

theorem loadRun_tasks {e : Stop} (h : load v2 n x = .error e) : s.loadRun n x = .error e := by
  simp only [loadRun_eq hload, hhead, hparts, h, Except.bind]

theorem loadRun_all {tasks : List (Nat × Task)} {v3 : State} (h : load v2 n x = .ok (tasks, v3)) :
    s.loadRun n x = .ok (broughtBack v3 n x w tasks) := by
  simp only [loadRun_eq hload, hhead, hparts, h, Except.bind]

end

/-- Runs and saved runs, which entries taken leave alone. -/
def runTables (s : State) : Sparse Run × List SavedRun := (s.runs, s.saved)

theorem runTables_returnEntry (s : State) (n th : Nat) (k : Task) : runTables (s.returnEntry n th k) = runTables s := by
  unfold State.returnEntry
  split
  · rfl
  · split <;> rfl

/-- The run as its header gives it. -/
def headRun (r : Run) (x : SavedRun) (w : List (BitVec 64)) (tasks : List (Nat × Task)) : Run :=
  let ms : Key := ⟨w.getD 1 0, (w.getD 2 0).setWidth 32⟩
  { r with resuming := false, milestone := ms, latched := ms, ends := x.ends, ended := x.ended,
           floor := ⟨w.getD 3 0, (w.getD 4 0).setWidth 32⟩, returning := tasks }

theorem runTables_loadHead (s : State) (n : Nat) (x : SavedRun) (w : List (BitVec 64)) :
    runTables (s.loadHead n x w) = (Sparse.set s.runs n (headRun (s.run n) x w (s.run n).returning), s.saved) := by
  unfold State.loadHead
  generalize hv : (List.range 256).foldl _ s = v
  have hkept : runTables v = runTables s := by
    rw [← hv]
    refine foldl_keeps runTables (fun s tile => ?_) _ s
    dsimp only
    split <;> rfl
  obtain ⟨hruns, hsaved⟩ := Prod.mk.inj hkept
  show (Sparse.set v.runs n (headRun (v.run n) x w (v.run n).returning), v.saved) = _
  rw [State.run, State.run, hruns, hsaved]

/-- The tables of runs once the area is read. -/
theorem runTables_broughtBack (v : State) (n : Nat) (x : SavedRun) (w : List (BitVec 64)) (tasks : List (Nat × Task)) :
    runTables (broughtBack v n x w tasks) = (Sparse.set (inSlot v n x).runs n (headRun ((inSlot v n x).run n) x w tasks), (inSlot v n x).saved) := by
  obtain ⟨hruns, hsaved⟩ := Prod.mk.inj (runTables_loadHead (inSlot v n x) n x w)
  unfold broughtBack
  generalize (inSlot v n x).loadHead n x w = u at hruns hsaved
  refine (foldl_keeps runTables (fun s p => runTables_returnEntry s n p.1 p.2) tasks _).trans ?_
  have hrun : u.run n = headRun ((inSlot v n x).run n) x w ((inSlot v n x).run n).returning := by
    rw [State.run, hruns, Sparse.getD, get?_set_same, Option.getD_some]
  show (Sparse.set u.runs n { u.run n with returning := tasks }, u.saved) = _
  rw [hrun, hruns, hsaved, set_set]
  rfl

theorem run_broughtBack (v : State) {n : Nat} (hn : n < 16) (x : SavedRun) (w : List (BitVec 64)) (tasks : List (Nat × Task)) :
    (broughtBack v n x w tasks).run n = headRun (v.run n) x w tasks := by
  have hne : n ≠ savedKey x.cfg.runid := by
    unfold savedKey
    omega
  have hslot : (inSlot v n x).run n = v.run n := congrArg (fun r => Option.getD r Run.reset) (get?_erase_other v.runs _ _ hne)
  have hruns : (broughtBack v n x w tasks).runs = _ := (Prod.mk.inj (runTables_broughtBack v n x w tasks)).1
  rw [State.run, hruns, Sparse.getD, get?_set_same, hslot, Option.getD_some]

theorem saved_broughtBack (v : State) (n : Nat) (x : SavedRun) (w : List (BitVec 64)) (tasks : List (Nat × Task)) :
    (broughtBack v n x w tasks).saved = v.saved.filter fun y => y.cfg.runid != x.cfg.runid :=
  (Prod.mk.inj (runTables_broughtBack v n x w tasks)).2

-- A thread that returns.

section
variable {th : Nat} {k : Task} {w : List (BitVec 64)} {v : State}

/-- The entry that a thread of a run holds on its tile. -/
def entryOf (s : State) (n th : Nat) : Option (Nat × CqEntry) :=
  (s.lodge (tileOf th)).cq.find? fun e => e.2.th == some th && e.2.task.run == n

/-- The thread in its slot again, and no longer awaited. -/
def threadBack (v : State) (n th : Nat) (k : Task) (w : List (BitVec 64)) (entry : Option Nat) : State :=
  (v.setRun n { v.run n with returning := (v.run n).returning.filter fun x => x.1 != th }).setThread th
    { threadOfWords w k v.cycle with entry := entry }

/-- An assured thread returns to its free slot where its record has VALID set. -/
theorem returnThread_valid (hspec : k.spec = false) (hslot : s.thread? th = none)
    (hread : s.areaRead (th / 64) n 1024 (s.threadVa n th) = .ok (w, v)) (hvalid : (w.getD 0 0).getLsbD 0 = true) :
    State.returnThread n s (th, k) = threadBack v n th k w ((entryOf s n th).map fun e => e.1) := by
  have hentry : s.returnEntry n th k = s := by simp [State.returnEntry, hspec]
  unfold State.returnThread
  simp only [hentry, hslot, hspec, Option.isSome_none, Bool.false_and, Bool.or_self, Bool.false_eq_true, if_false]
  rw [show tileOf th = th / 64 from rfl, hread]
  simp only [hvalid, Bool.not_true, Bool.false_eq_true, if_false]
  rfl

theorem thread?_threadBack (entry : Option Nat) :
    (threadBack v n th k w entry).thread? th = some { threadOfWords w k v.cycle with entry := entry } := thread?_setThread ..

theorem run_threadBack (entry : Option Nat) : ((threadBack v n th k w entry).run n).returning =
    (v.run n).returning.filter fun x => x.1 != th := congrArg Run.returning (run_setRun_same ..)

/-- A resident run's threads return one after the other. -/
theorem resume_returns (hn : n < 16) (hkilled : (s.run n).killed = false) (hfatal : s.fatal = false) (hphase : (s.run n).phase = .resident)
    (hresuming : (s.run n).resuming = false) (hrecords : ∀ r ∈ s.records, r.run ≠ some n) :
    s.resume n = (s.run n).returning.foldl (fun s p => State.returnThread n s p) s := by
  rw [State.resume, if_neg (by simp [hkilled, hfatal]; omega)]
  simp only [hphase, hresuming, saveHeld_none hrecords, Bool.false_eq_true, if_false]

end
end Sys2Proof.Proofs
end

