-- ==== Sys2Proof/Proofs/RunsComeAndGo.lean ====
section
/-! O56: a run is loaded, gives way, comes back, is torn down and is killed. -/
namespace Sys2Proof.Proofs
open Sys2Proof Sys2Proof.Machine Sys2Proof.Laws

/-- Settles O56, part by part: the loading write, PREEMPT, RESUME, RUN_TEARDOWN, RUN_KILL. -/
theorem runsComeAndGo : Obligations.RunsComeAndGo := by
  unfold Obligations.RunsComeAndGo
  refine ⟨fun s n v => ⟨runCfgBadClear_eq v, fun huse => runLoad_inUse huse v, fun hfree => ?_⟩, ?_, ?_, ?_, ?_⟩
  · refine ⟨runLoad_fatal hfree v rfl, runLoad_waits hfree v rfl, fun hok hfatal hready => ?_, fun hbad hfatal h => ?_⟩
    · refine ⟨_, _, runLoad_takes hfree v rfl hfatal hok hready, run_loadSlot_same .., rfl, ?_⟩
      have hgen : ((loading s n (128 * bitsOf v.toNat 7 45)).run n).gen = (s.run n).gen := by rw [run_loading]
      refine ⟨by rw [hgen], rfl, rfl, rfl, rfl, fun e he => ?_, fun e he hkept => ?_, fun m hm => ?_, ?_⟩
      · simpa [imp_iff_not_or] using (List.mem_filter.1 he).2
      · exact List.mem_filter.2 ⟨he, by simpa [imp_iff_not_or] using hkept⟩
      · rw [run_loadSlot_other hm, loading, run_setRun_other s hm]
      · exact sameBytes_of_eq (fun _ _ => rfl) rfl rfl
    · refine ⟨_, runLoad_refuses hfree v rfl hfatal hbad h, run_setRun_same .., fun m hm => run_refused_other hm, rfl⟩
  · intro s n
    refine ⟨fun h => congrArg Host.Outcome.next (preempt_none h), ?_⟩
    intro _ hkilled hfatal hphase hmust hentries hthreads hjobs hqueued hmaps htouched hrecords s1
    have hleft : NothingLeft s1 n := ⟨hrecords, hentries, hqueued, hthreads, hjobs, hmaps, htouched⟩
    have hstep : exec (.preempt n) s = .next (s1.preemptStep n) := congrArg Host.Outcome.next (preempt_starts hkilled hfatal hphase hmust)
    refine ⟨fun e harea => ?_, fun v0 harea hv0 => ?_⟩
    · rw [hstep, preemptStep_stops hleft (saveRun_notCleared hleft harea)]
    · split
      · rename_i e hhead
        rw [hstep, preemptStep_stops hleft (saveRun_notWritten hleft harea hv0 hhead)]
      · rename_i v hhead
        have hsaved := saveRun_written hleft harea hv0 hhead
        refine ⟨_, _, hstep.trans (congrArg Host.Outcome.next (preemptStep_leaves hleft hsaved)), ?_, ?_, saved_leftSlot ..,
          rfl, rfl, rfl, rfl, rfl, rfl, rfl⟩
        · rw [run_leftSlot]; rfl
        · rw [run_leftSlot]
  · intro s n
    refine ⟨fun h => congrArg Host.Outcome.next (resume_none h), ?_, ?_⟩
    · intro x hn hkilled hfatal hphase hnext hrecords hsaved s0 s1
      have hva : s1.saveVa n 0 = x.cfg.save % 2 ^ 56 := congrArg (fun c : RunCfg => (c.save + 0) % 2 ^ 56) (cfg_comingBack x)
      have hstops : ∀ e, s1.loadRun n x = .error e → exec (.resume n) s = .next (s1.saveStop n e) := fun e h =>
        congrArg Host.Outcome.next (resume_stops hn hkilled hfatal hphase hnext hrecords hsaved h)
      obtain ⟨load, hload⟩ : ∃ load, State.loadTasks = load := ⟨_, rfl⟩
      rw [← hva, hload]
      split
      · rename_i e hhead
        exact hstops e (loadRun_header hload hhead)
      rename_i w v hhead
      split
      · rename_i e hparts
        exact hstops e (loadRun_parts hload hhead hparts)
      rename_i v2 hparts
      split
      · rename_i e htasks
        exact hstops e (loadRun_tasks hload hhead hparts htasks)
      rename_i tasks v3 htasks
      have hloads := resume_loads hn hkilled hfatal hphase hnext hrecords hsaved (loadRun_all hload hhead hparts htasks)
      refine ⟨_, congrArg Host.Outcome.next hloads, ?_⟩
      rw [run_broughtBack v3 hn, saved_broughtBack]
      exact ⟨rfl, rfl, rfl, rfl, rfl, rfl, rfl⟩
    · intro th k w v hn hkilled hfatal hphase hresuming hreturning hspec hslot hrecords hread hvalid
      have hstep : s.resume n = threadBack v n th k w ((entryOf s n th).map fun e => e.1) := by
        rw [resume_returns hn hkilled hfatal hphase hresuming hrecords, hreturning]
        exact returnThread_valid hspec hslot hread hvalid
      have h := (holdsRecord_threadOfWords w k v.cycle).withEntry ((entryOf s n th).map fun e => e.1)
      exact ⟨_, _, recordTask w k, congrArg Host.Outcome.next hstep, thread?_threadBack _, h.task, h.pc, rfl, rfl, rfl, rfl, h.g, h.m, h.p, h.sr,
        h.w, h.pend, h.outs, h.park, run_threadBack _⟩
  · intro s n hn
    refine ⟨?_, ?_, ?_⟩
    · intro h
      by_cases hover : Over s n
      · rcases h with ⟨hphase, hended⟩ | ⟨l, hl, hrun⟩ | h | h
        · show Host.Outcome.next (s.runTeardown n) = _
          rw [runTeardown_over hn hover, if_neg hphase, if_neg hended]
        · exact absurd hrun (hover.launches l hl)
        · exact absurd hover.threads h
        · rw [hover.stores] at h
          cases h
      · exact congrArg Host.Outcome.next (runTeardown_waits hover)
    · intro hended hlaunches hthreads hstores
      have hphase : (s.run n).phase ≠ .ending := by simp [hended.1]
      show Host.Outcome.next (s.runTeardown n) = _
      rw [runTeardown_over hn ⟨hlaunches, hthreads, hstores⟩, if_neg hphase, if_pos hended]
    · intro hphase hlaunches hthreads hstores hmaps
      have hstep : s.runTeardown n = tornDown s n := by
        rw [runTeardown_over hn ⟨hlaunches, hthreads, hstores⟩, if_pos hphase, tearDown_eq hn hmaps]
      have hrun : (tornDown s n).run n = _ := run_setRun_same ..
      refine ⟨tornDown s n, congrArg Host.Outcome.next hstep, ?_, ?_, ?_, fun m hm => run_setRun_other _ hm _, fun tile => ?_, rfl, rfl,
        sameBytes_of_eq (fun _ _ => rfl) rfl rfl⟩
      · rw [hrun]; rfl
      · rw [hrun]
      · rw [hrun]; rfl
      · rw [lodge_tornDown]
        exact ⟨get?_erase_same .., get?_erase_same .., get?_erase_same .., blocksOf_clearedLodge .., rfl, rfl⟩
  · intro s n hn
    refine ⟨fun h => congrArg Host.Outcome.next (runKill_other hn h), ?_⟩
    intro hkilled hphase hresuming hentries _ hhalted hrecords hidle hstores hjobs
    obtain ⟨v, hfreed, heq⟩ := killed_eq hidle hstores hrecords hjobs
    obtain ⟨⟨ts, ops, steps, rfl⟩, hgone, hkept⟩ := hfreed
    have hrun : (killed s n).run n = { s.run n with phase := .ending, returning := [] } := by rw [heq, run_setRun_same]
    have hlodge : ∀ tile, (killed s n).lodge tile = killedLodge n (s.lodge tile) := fun tile => by
      rw [heq]
      exact lodge_killed ..
    have hstep : exec (.runKill n) s = .next (killed s n) :=
      congrArg Host.Outcome.next (runKill_eq hn hkilled hphase hresuming hentries hhalted)
    refine ⟨killed s n, hstep, by rw [hrun], by rw [hrun], ?_, ?_, fun tile => by rw [hlodge]; exact ⟨rfl, rfl⟩, ?_⟩
    · rw [heq]
      exact fun x hx => hgone x.1 (List.mem_map_of_mem hx)
    · rw [heq]
      exact fun th hth => hkept th fun hmem => by
        obtain ⟨x, hx, rfl⟩ := List.mem_map.1 hmem
        exact hth x hx rfl
    · rw [heq]
      refine ⟨rfl, rfl, by simp, fun k l hl => ⟨fun hrun => ?_, fun hrun => ⟨killedLaunch n l, ?_, killedLaunch_own hrun⟩⟩, rfl,
        sameBytes_of_eq (fun _ _ => rfl) rfl rfl⟩
      · simp [hl, killedLaunch_other hrun]
      · simp [hl]
end Sys2Proof.Proofs
end

