-- ==== Sys2Proof/Proofs/QueuesLaunches.lean ====
section
/-! The launch whose STATUS word waits (R20, R88): a physical store of the device's own stands behind those that wait at their home. -/
namespace Sys2Proof.Proofs
open Sys2Proof Sys2Proof.Machine

/-- A launch of queue 5 whose work is done, with its ring slot at 0x10000 and no counter to bump. -/
def doneLaunch : Launch :=
  { id := 4, queue := 5, record := 0, slotPa := 0x10000, words := List.replicate 16 0, run := 0, level := 0, aged := 0, deadline := 0,
    budget := 0, charge := 0, overrun := false, timed := false, status := none, entered := true, old := false, phase := .working }

/-- Memory is enabled and locked, the launch is live, and a physical store of the device's own to another line still waits at its
home. -/
def behindStore : State :=
  let s := State.reset.setReg 0x008 (2 ^ 63 + 64)
  { s with queues := [(5, { Queue.reset with phase := .on, hdr := 0x8000, ring := 0x10000, tail := 1, taken := 1 })],
           launches := [doneLaunch], stores := [s.waitingStore 0x20000 8 0 0] }

/-- No work of the launch is under way. -/
theorem behindStore_idle : behindStore.launchBusy 4 = false := by decide +kernel

/-- Its ring slot and its queue's header can be written. -/
theorem behindStore_ready (pa : Nat) (h : pa = 0x10000 ∨ pa = 0x8000) : behindStore.physReady pa true = (true, behindStore) := by
  rcases h with rfl | rfl <;> rfl

/-- The launch ends, and its STATUS word waits behind the other store: the line of its ring slot keeps its bytes. -/
theorem launchComplete_status_waits : (behindStore.launchComplete 4).lineAt (doneLaunch.slotPa / 128) 0 = 0 := by decide +kernel

/-- The line that a STATUS word with no code gives the ring slot, which reads 0. -/
theorem statusLine_ne_zero : mergeLine (byteMask 0x34 4) (behindStore.lineAt (doneLaunch.slotPa / 128) 0)
    (putLine 0 0x34 4 (2 ^ 31 + 2 ^ 28 * doneLaunch.status.getD 0)) ≠ 0 := by decide +kernel

/-- Refutes O55 at LAUNCH_COMPLETE: it says that the STATUS word stands in the ring slot when the launch has ended, and where a physical
store of the device's own waits at its home the word waits behind it (R20). -/
theorem not_queuesAndLaunches : ¬ Obligations.QueuesAndLaunches := by
  unfold Obligations.QueuesAndLaunches
  rintro ⟨-, -, -, -, -, -, -, -, -, hcomplete⟩
  obtain ⟨-, hends⟩ := hcomplete behindStore 4 doneLaunch rfl rfl
  obtain ⟨u, hstep, -, -, hline, -⟩ := hends behindStore_idle (.inl rfl) rfl (.inl (by decide)) rfl (by decide) rfl rfl rfl rfl rfl
    (behindStore_ready _ (.inl rfl)) (behindStore_ready _ (.inr rfl)) rfl rfl rfl (by decide) (by decide) (by decide) (by decide +kernel)
    (by decide +kernel) (by decide +kernel) rfl rfl
  obtain rfl := Host.Outcome.next.inj (show Host.Outcome.next (behindStore.launchComplete 4) = .next u from hstep)
  exact statusLine_ne_zero (hline.symm.trans launchComplete_status_waits)

end Sys2Proof.Proofs
end

