-- ==== Sys2Proof/Proofs/LodgeAccept.lean ====
section
/-! TASK_ACCEPT (R122): the oldest sent task moves into its queue, and its creator's instruction ends. -/
namespace Sys2Proof.Proofs
open Sys2Proof Sys2Proof.Machine Sys2Proof.Laws

variable {s : State}

theorem settleTile_self {launch tile : Nat} (h : s.mayHold launch tile = true) : s.settleTile launch tile = some tile := by
  simp [State.settleTile, h]

/-- A task whose tile may hold it is not redirected. -/
theorem resend_self {x : Sent} (h : s.mayHold x.task.launch x.tile = true) : s.resend x = (x, s) := by
  simp [State.resend, settleTile_self h]

theorem queue_enqueue (tile : Nat) (t : Task) : ((s.enqueue tile t).lodge tile).queue = (s.lodge tile).queue ++ [t] := by
  simp [State.enqueue]

theorem lodge_enqueue_other {tile o : Nat} (h : o ≠ tile) (t : Task) : (s.enqueue tile t).lodge o = s.lodge o := lodge_setLodge_other _ h _

/-- The map-remote replies of a thread do not tell where it goes on. -/
theorem advance_withRemote (t : Thread) (len : Nat) (rs : List (Nat × Remote)) :
    ({ t with remote := rs } : Thread).advance len = { t.advance len with remote := rs } := by
  unfold Thread.advance
  dsimp only
  split_ifs <;> rfl

/-- The state with a sent task in its queue. -/
def accepted (s : State) (n : Nat) (x : Sent) : State := ({ s with sent := s.sent.filter fun y => y.id != n } : State).enqueue x.tile x.task

/-- The thread in a slot waits for the task's acceptance, in an instruction that does not end its own task. -/
structure WaitsFor (s : State) (n : Nat) (x : Sent) (th len : Nat) (t : Thread) : Prop where
  sender : x.th = some th
  slot : s.thread? th = some t
  park : t.park = .send n len false

/-- What an acceptance does for the thread that waits for it. -/
def acceptOutcome (s : State) (n : Nat) (x : Sent) : State :=
  match x.th with
  | none => accepted s n x
  | some th => match s.thread? th with
    | some t => match t.park with
      | .send i len ends => if i != n then accepted s n x
          else if ends then (accepted s n x).endTask th else (accepted s n x).finish th len { t with remote := [] }
      | _ => accepted s n x
    | none => accepted s n x

section
variable {n : Nat} {x : Sent} (hfind : s.sent.find? (fun x => x.id == n) = some x) (hhold : s.mayHold x.task.launch x.tile = true)
include hfind hhold

/-- A full queue takes no task. -/
theorem acceptTask_full (hfull : 256 ≤ (s.lodge x.tile).queue.length) : s.acceptTask n = s := by
  have hroom : s.queueRoom x.tile = false := decide_eq_false (by omega)
  unfold State.acceptTask
  cases s.fatal with
  | true => rfl
  | false => simp [hfind, resend_self hhold, hhold, hroom]

variable (hroom : (s.lodge x.tile).queue.length < 256) (hfatal : s.fatal = false) (holdest : ∀ y ∈ s.sent, y.tile = x.tile → n ≤ y.id)
include hroom hfatal holdest

/-- The oldest task of a queue with room is taken. -/
theorem acceptTask_taken : s.acceptTask n = acceptOutcome s n x := by
  have hid : x.id = n := by simpa using List.find?_some hfind
  have hfirst : s.sent.any (fun y => y.tile == x.tile && decide (y.id < x.id)) = false :=
    List.any_eq_false.2 fun y hy => by
      have := holdest y hy
      simp only [Bool.and_eq_true, beq_iff_eq, decide_eq_true_eq, not_and]
      omega
  have hq : s.queueRoom x.tile = true := decide_eq_true hroom
  rw [State.acceptTask, if_neg (by simp [hfatal]), hfind]
  simp only [resend_self hhold, hhold, hq, hfirst, Bool.not_true, Bool.false_eq_true, if_false, Bool.or_self]
  rfl

/-- Where its creator waits in the instruction that made it, that instruction ends. -/
theorem acceptTask_ends {th len : Nat} {t : Thread} (h : WaitsFor s n x th len t) :
    s.acceptTask n = (accepted s n x).finish th len { t with remote := [] } := by
  obtain ⟨hth, hslot, hpark⟩ := h
  rw [acceptTask_taken hfind hhold hroom hfatal holdest]
  simp [acceptOutcome, hth, hslot, hpark]

/-- Where no creator waits, nothing else happens. -/
theorem acceptTask_alone (hends : ∀ th t i len, x.th = some th → s.thread? th = some t → t.park ≠ .send i len true)
    (h : ∀ th len t, ¬WaitsFor s n x th len t) : s.acceptTask n = accepted s n x := by
  rw [acceptTask_taken hfind hhold hroom hfatal holdest]
  unfold acceptOutcome
  split
  · rfl
  rename_i th hth
  split
  · rename_i t hslot
    split
    · rename_i i len ends hpark
      cases ends with
      | true => exact absurd hpark (hends th t i len hth hslot)
      | false =>
        split
        · rfl
        · rename_i hne
          have hi : i = n := by simpa using hne
          exact absurd ⟨hth, hslot, hi ▸ hpark⟩ (h th len t)
    · rfl
  · rfl

end
end Sys2Proof.Proofs
end

