-- ==== Sys2Proof/Proofs/LodgeDispatch.lean ====
section
/-! TASK_DISPATCH (R95, R97, R123, R131) of a tile with one eligible task and a free slot. -/
namespace Sys2Proof.Proofs
open Sys2Proof Sys2Proof.Machine Sys2Proof.Laws

-- The thread of a new task.

/-- A place that no number below N writes stays. -/
theorem foldl_range_keep {σ α : Type} (get : σ → α) (set : σ → Nat → σ) (N : Nat)
    (hother : ∀ t i, i < N → get (set t i) = get t) (t : σ) :
    get ((List.range N).foldl set t) = get t :=
  List.foldlRecOn (motive := fun u => get u = get t) (List.range N) set rfl fun u hu i hi => (hother u i (List.mem_range.1 hi)).trans hu

section
variable (t : Task) (sr : BitVec 32) (entry : Option Nat) (now : Nat)

/-- The thread of a new task before its arguments are written. -/
def blankThread : Thread := { Thread.fresh t.func with task := some t, sr := sr, entry := entry, lastIssue := now }

/-- An argument is written, where the task has it. -/
def writeArg (th : Thread) (i : Nat) : Thread := if i < t.nargs then th.setG (BitVec.ofNat 4 i) (t.args.getD i 0) else th

theorem start_eq_foldl : t.start sr entry now = (List.range 16).foldl (writeArg t) (blankThread t sr entry now) := rfl

/-- Arguments change g registers alone. -/
theorem start_eq : t.start sr entry now = { blankThread t sr entry now with g := (t.start sr entry now).g } := by
  rw [start_eq_foldl]
  refine List.foldlRecOn (motive := fun u : Thread => u = { blankThread t sr entry now with g := u.g }) _ _ rfl fun u hu i _ => ?_
  rw [writeArg]
  split
  · rw [hu]
    rfl
  · exact hu

theorem getG_start (r : GReg) : (t.start sr entry now).getG r = if r.toNat < t.nargs then t.args.getD r.toNat 0 else 0 := by
  rw [start_eq_foldl]
  split
  · rename_i harg
    refine foldl_range_write (fun th : Thread => th.getG r) _ r.isLt (fun th => ?_) (fun th i hi hne => ?_) _
    · rw [writeArg, if_pos harg, ofNat_toNat_self, getG_setG_same]
    · rw [writeArg]
      split
      · exact getG_setG_other _ _ _ _ (ne_ofNat hi hne)
      · rfl
  · rename_i harg
    refine (foldl_range_keep (fun th : Thread => th.getG r) _ 16 (fun th i hi => ?_) _).trans ?_
    · rw [writeArg]
      split
      · exact getG_setG_other _ _ _ _ (ne_ofNat hi fun e => by omega)
      · rfl
    · simp [blankThread, Thread.fresh, Thread.getG, Vector.get]

end

-- A task starts.

variable {s : State} {tile th : Nat}

/-- The itinerary neither shows nor takes a record of a run that it is not on for. -/
theorem itinTake_off {run : Nat} (h : s.itinMode run = none) (kind tile : Nat) (want : List (Nat × Nat × Nat)) :
    s.itinTake run kind tile want = (none, s) := by
  simp [State.itinTake, State.replaying, h]

theorem itin_off {run : Nat} (h : s.itinMode run = none) (kind tile : Nat) (a b c : BitVec 64) : s.itin run kind tile a b c = s := by
  simp [State.itin, State.recording, h]

/-- A task as it starts: with a new id. -/
def numbered (s : State) (t : Task) : Task := { t with id := s.nextStore + 1, readyUs := 0 }

/-- The state with an entry taken, where the task takes one. -/
def withEntryOf (s : State) (tile th : Nat) (entry : Option Nat) (k : Task) : State :=
  let v : State := { s with nextStore := s.nextStore + 1 }
  match entry with
  | some n => v.takeEntry tile n th k
  | none => v

/-- The state with a task started in a slot. -/
def started (s : State) (tile th : Nat) (entry : Option Nat) (k : Task) : State :=
  let v := withEntryOf s tile th entry k
  (v.setLodge tile { v.lodge tile with lastRun := k.run }).setThread th (k.start k.seed entry s.cycle)

theorem startTask_eq {t : Task} (h : s.itinMode t.run = none) (entry : Option Nat) :
    s.startTask tile th entry t = started s tile th entry (numbered s t) := by
  have hmode : ({ s with nextStore := s.nextStore + 1 } : State).itinMode t.run = none := h
  unfold State.startTask
  simp only [itinTake_off hmode, itin_off hmode]
  cases entry <;> rfl

theorem lodge_withEntryOf (entry : Option Nat) (k : Task) : ((withEntryOf s tile th entry k).lodge tile).queue = (s.lodge tile).queue ∧
    ((withEntryOf s tile th entry k).lodge tile).ctr = (s.lodge tile).ctr := by
  cases entry with
  | none => exact ⟨rfl, rfl⟩
  | some n =>
    have hlodge : (withEntryOf s tile th (some n) k).lodge tile = _ := lodge_setLodge_same ..
    rw [hlodge]
    exact ⟨rfl, rfl⟩

theorem lodge_started (entry : Option Nat) (k : Task) : (started s tile th entry k).lodge tile =
    { (withEntryOf s tile th entry k).lodge tile with lastRun := k.run } := lodge_setLodge_same ..

/-- The entry a task takes: its own, with nothing logged and empty filters. -/
theorem entry_started (n : Nat) (k : Task) : ∃ e, Sparse.get? ((started s tile th (some n) k).lodge tile).cq n = some e ∧ e.task = k ∧
    e.th = some th ∧ e.finished = false ∧ e.log = [] ∧ e.write = [0, 0, 0, 0] ∧ e.full = [0, 0, 0, 0] ∧ e.reduced = [0, 0, 0, 0] ∧
    e.incarnation = (Sparse.getD (s.lodge tile).incarnations n 0 + 1) % 2 ^ 18 := by
  have hlodge : (withEntryOf s tile th (some n) k).lodge tile = _ := lodge_setLodge_same ..
  rw [lodge_started, hlodge]
  exact ⟨_, get?_set_same .., rfl, rfl, rfl, rfl, rfl, rfl, rfl, rfl⟩

/-- What else a started task leaves: its tile's queue, its thread alone in its slot, and every byte. -/
theorem started_rest (entry : Option Nat) (k : Task) :
    ((started s tile th entry k).lodge tile).queue = (s.lodge tile).queue ∧ ((started s tile th entry k).lodge tile).lastRun = k.run ∧
      s.OtherThreads (started s tile th entry k) th ∧ s.SameBytes (started s tile th entry k) ∧
      (started s tile th entry k).thread? th = some (k.start k.seed entry s.cycle) := by
  refine ⟨?_, ?_, fun n hn => ?_, ?_, thread?_setThread ..⟩
  · rw [lodge_started]
    exact (lodge_withEntryOf entry k).1
  · rw [lodge_started]
  · rw [started, thread?_setThread_other _ _ _ _ hn]
    cases entry <;> rfl
  · cases entry <;> exact sameBytes_of_eq (fun _ _ => rfl) rfl rfl

-- The choice of a task.

section
variable {t : Task}

theorem dispatchable_assured (helig : s.eligible tile t = true) (h : t.spec = false) : s.dispatchable tile t = true := by
  simp [State.dispatchable, helig, h]

theorem dispatchable_free (helig : s.eligible tile t = true) {n : Nat} (h : s.entryFor tile t = .free n) : s.dispatchable tile t = true := by
  simp [State.dispatchable, helig, h]

/-- The one task of a queue, if it may be dispatched, is the choice. -/
theorem choices_one (hqueue : (s.lodge tile).queue = [t]) (h : s.dispatchable tile t = true) : s.choices tile = [t] := by
  cases hover : s.overrun t.launch <;> simp [State.choices, hqueue, h, hover]

theorem choices_none (hqueue : (s.lodge tile).queue = []) : s.choices tile = [] := by
  simp [State.choices, hqueue]

/-- Nothing is dispatched from an empty queue, without a free slot, or on a halted tile. -/
theorem dispatch_none (h : (s.lodge tile).queue = [] ∨ s.freeSlot tile = none ∨ tile ∈ s.dbg.halted) : s.dispatch tile = s := by
  unfold State.dispatch
  split
  · rfl
  rename_i hgoes
  rcases h with hqueue | hslot | hhalted
  · rw [choices_none hqueue]
    split <;> rfl
  · rw [hslot]
  · exact absurd (by simp [State.halted, hhalted]) hgoes

/-- The one task of a queue goes to the free slot. -/
theorem dispatch_one (hfatal : s.fatal = false) (hfenced : s.fenced tile = false) (hhalted : tile ∉ s.dbg.halted)
    (hawaits : s.awaitsEntry tile = false) (hslot : s.freeSlot tile = some th) (hqueue : (s.lodge tile).queue = [t])
    (h : s.dispatchable tile t = true) : s.dispatch tile = s.launchTask tile th t := by
  have hhalt : s.halted tile = false := by simpa [State.halted] using hhalted
  unfold State.dispatch
  rw [if_neg (by simp [hfatal, hfenced, hhalt, hawaits]), hslot, choices_one hqueue h]
  simp [State.chooseRun, leastTask]

theorem queue_unqueue_one (hqueue : (s.lodge tile).queue = [t]) : ((s.unqueue tile t).lodge tile).queue = [] := by
  simp [State.unqueue, hqueue]

-- What each kind of task does before it starts.

theorem launchTask_assured (hspec : t.spec = false) (hmode : s.itinMode t.run = none) :
    s.launchTask tile th t = started (s.unqueue tile t) tile th none (numbered s t) := by
  have hoff : (s.unqueue tile t).itinMode t.run = none := hmode
  rw [State.launchTask, if_pos (by simp [hspec]), startTask_eq hoff]
  rfl

/-- A speculative task takes its free entry, and its key where it has none. -/
theorem launchTask_free {n : Nat} (hspec : t.spec = true) (hfree : s.entryFor tile t = .free n)
    (hkey : (!t.hasTb && decide (0xFFFFFF ≤ s.seqBase tile t)) = false) :
    s.launchTask tile th t =
      let b := if t.hasTb then (t.tb, s.unqueue tile t) else (s.unqueue tile t).assignTb tile t
      b.2.startTask tile th (some n) { t with tb := b.1, hasTb := true } := by
  unfold State.launchTask
  rw [if_neg (by simp [hspec]), hfree]
  dsimp only
  rw [hkey]
  rfl

theorem launchTask_keyed {n : Nat} (hspec : t.spec = true) (hfree : s.entryFor tile t = .free n) (htb : t.hasTb = true)
    (hmode : s.itinMode t.run = none) : s.launchTask tile th t = started (s.unqueue tile t) tile th (some n) (numbered s t) := by
  have hoff : (s.unqueue tile t).itinMode t.run = none := hmode
  have hsame : ({ t with tb := t.tb, hasTb := true } : Task) = t := by rw [← htb]
  rw [launchTask_free hspec hfree (by simp [htb]), if_pos htb]
  dsimp only
  rw [hsame, startTask_eq hoff]
  rfl

/-- The key a tile gives a task: one above its counter. -/
def nextTb (s : State) (tile : Nat) (t : Task) : BitVec 32 := BitVec.ofNat 32 ((s.seqBase tile t + 1) * 256 + tile)

/-- The tile's counter after it. -/
def counterUp (s : State) (tile : Nat) (t : Task) : State :=
  let l := s.lodge tile
  let top := Sparse.getD l.maxTs t.run 0
  s.setLodge tile { l with ctr := Sparse.set l.ctr t.run ((nextTb s tile t).toNat / 256),
                           maxTs := Sparse.set l.maxTs t.run (if top.toNat < t.ts.toNat then t.ts else top) }

theorem assignTb_off (hmode : s.itinMode t.run = none) : s.assignTb tile t = (nextTb s tile t, counterUp s tile t) := by
  have hoff : (counterUp s tile t).itinMode t.run = none := hmode
  unfold State.assignTb
  simp only [itinTake_off hmode]
  exact congrArg (Prod.mk (nextTb s tile t)) (itin_off hoff ..)

theorem launchTask_unkeyed {n : Nat} (hspec : t.spec = true) (hfree : s.entryFor tile t = .free n) (htb : t.hasTb = false)
    (hmode : s.itinMode t.run = none) (hroom : s.seqBase tile t < 0xFFFFFF) :
    s.launchTask tile th t = started (counterUp (s.unqueue tile t) tile t) tile th (some n)
      (numbered s { t with hasTb := true, tb := nextTb (s.unqueue tile t) tile t }) := by
  have hoff : (s.unqueue tile t).itinMode t.run = none := hmode
  have hoff' : (counterUp (s.unqueue tile t) tile t).itinMode t.run = none := hmode
  rw [launchTask_free hspec hfree (by simp [hroom]), if_neg (by simp [htb]), assignTb_off hoff]
  dsimp only
  exact startTask_eq (t := { t with tb := nextTb (s.unqueue tile t) tile t, hasTb := true }) hoff' (some n)

/-- The thread of a started task: its registers are clear but for its arguments, and its seed is that of the task. -/
theorem start_clear (k : Task) (entry : Option Nat) (now : Nat) :
    let x := k.start k.seed entry now
    x.task = some k ∧ x.entry = entry ∧ x.pc = k.func ∧ x.pend = 0 ∧ x.park = .run ∧ x.outs = [] ∧ x.w = Vector.replicate 32 0 ∧
      x.m = Vector.replicate 8 0 ∧ x.p = Vector.replicate 8 false ∧ x.rep.act = false ∧
      (∀ r : GReg, x.getG r = if r.toNat < k.nargs then k.args.getD r.toNat 0 else 0) ∧ x.sr = k.seed := by
  intro x
  have hg := getG_start k k.seed entry now
  have hx : x = { blankThread k k.seed entry now with g := x.g } := start_eq ..
  rw [hx]
  exact ⟨rfl, rfl, rfl, rfl, rfl, rfl, rfl, rfl, rfl, rfl, hg, rfl⟩

end
end Sys2Proof.Proofs
end

