-- ==== Sys2Proof/Proofs/LodgeGridsAndLevel.lean ====
section
/-! GRID_ENTER (R86, R147) of a Lodge's first grid record, and LOAD_BALANCE (R152) where one tile alone has tasks. -/
namespace Sys2Proof.Proofs
open Sys2Proof Sys2Proof.Machine Sys2Proof.Laws

variable {s : State}

-- Grids.

/-- The first record of a list moves on, and goes after its last index. -/
theorem advanceShare_head (g : GridRec) (rest : List GridRec) :
    advanceShare g (g :: rest) = (if g.next + 1 < g.stop then [{ g with next := g.next + 1 }] else []) ++ rest := by
  rw [advanceShare, if_pos rfl, GridRec.advance]
  split <;> rfl

/-- A three-dimensional grid's index, dimensions, origin and extent (R85, R86). -/
theorem gridIdent_three {ext sub dims : List Nat} {d0 d1 d2 : Nat} (hdims : dims = [d0, d1, d2]) (hext : ext.length = 3) (hsub : sub.length = 3)
    (l : Nat) :
    let i := [l % d0, l / d0 % d1, l / (d0 * d1)]
    let org (k : Nat) := i.getD k 0 * sub.getD k 0
    gridIdent ext sub dims l =
      { org := v3Of [org 0, org 1, org 2], ext := v3Of ((List.range 3).map fun k => Nat.min (sub.getD k 0) (ext.getD k 0 - org k)),
        gidx := v3Of i, gdim := v3Of dims } := by
  obtain ⟨e0, e1, e2, rfl⟩ := List.length_eq_three.1 hext
  obtain ⟨s0, s1, s2, rfl⟩ := List.length_eq_three.1 hsub
  subst hdims
  rfl

section
variable {tile : Nat} {g : GridRec} {rest : List GridRec}

theorem gridEnter_full (hfull : 256 ≤ (s.lodge tile).queue.length) : s.gridEnter tile = s := by
  have hroom : s.queueRoom tile = false := decide_eq_false (by omega)
  simp [State.gridEnter, hroom]

/-- The next task of a Lodge's first grid record enters its tile. -/
theorem gridEnter_first (hgrids : (s.lodge tile).grids = g :: rest) (hhold : s.mayHold g.launch tile = true)
    (hroom : (s.lodge tile).queue.length < 256) (hfatal : s.fatal = false) (henters : s.enters g = true) :
    s.gridEnter tile = (s.setLodge tile { s.lodge tile with grids := advanceShare g (g :: rest) }).enqueue tile g.task := by
  have hq : s.queueRoom tile = true := decide_eq_true hroom
  have hhold' : ∀ l, (s.setLodge tile l).mayHold g.launch tile = true := fun _ => hhold
  unfold State.gridEnter
  rw [if_neg (by simp [hfatal, hq])]
  dsimp only
  rw [hgrids, List.find?_cons_of_pos henters]
  exact if_pos (hhold' _)

end

-- Load levelling.

section
variable {l : Lodge}

/-- A state with tasks on tile 0 alone. -/
theorem lodge_alone (hlodges : s.lodges = [(0, l)]) : s.lodge 0 = l ∧ ∀ o, o ≠ 0 → s.lodge o = Lodge.reset := by
  refine ⟨by simp [State.lodge, hlodges, Sparse.getD, Sparse.get?], fun o ho => ?_⟩
  simp [State.lodge, hlodges, Sparse.getD, Sparse.get?, Ne.symm ho]

theorem movable_plain {t : Task} (hhint : t.hmode = .none) (hparent : t.parent = none) (hkey : t.spec = false ∨ t.hasTb = false) :
    s.movable t = true := by
  rcases hkey with h | h <;> simp [State.movable, hhint, State.provisionalChild, hparent, h]

/-- Tasks of a list move from tile 0 to tile 1. -/
def moveTasks (a : State) (ts : List Task) : State := ts.foldl (fun a t => ((a.unqueue 0 t).sendTask (some 0) 1 none t).2) a

/-- Where tile 1 has room for all, each goes straight into its queue. -/
theorem moveTasks_room (ts : List Task) (a : State) (hsent : a.sent = []) (hroom : (a.lodge 1).queue.length + ts.length ≤ 256) :
    ((moveTasks a ts).lodge 0).queue = ts.foldl (fun q t => q.erase t) (a.lodge 0).queue ∧
      ((moveTasks a ts).lodge 1).queue = (a.lodge 1).queue ++ ts ∧
      (∀ o, o ≠ 0 → o ≠ 1 → (moveTasks a ts).lodge o = a.lodge o) ∧ moveTasks a ts = { a with lodges := (moveTasks a ts).lodges } := by
  induction ts generalizing a with
  | nil => exact ⟨rfl, by simp [moveTasks], fun _ _ _ => rfl, rfl⟩
  | cons t r ih =>
    have hone : (a.unqueue 0 t).lodge 1 = a.lodge 1 := lodge_setLodge_other _ (by decide) _
    have hstep : ((a.unqueue 0 t).sendTask (some 0) 1 none t).2 = (a.unqueue 0 t).enqueue 1 t := by
      have hq : (a.unqueue 0 t).queueRoom 1 = true := decide_eq_true (by rw [hone]; simp only [List.length_cons] at hroom; omega)
      have hs : (a.unqueue 0 t).sent = [] := hsent
      simp [State.sendTask, hq, hs]
    have hq0 : (((a.unqueue 0 t).enqueue 1 t).lodge 0).queue = (a.lodge 0).queue.erase t := by
      rw [lodge_enqueue_other (by decide), State.unqueue, lodge_setLodge_same]
    have hq1 : (((a.unqueue 0 t).enqueue 1 t).lodge 1).queue = (a.lodge 1).queue ++ [t] := by rw [queue_enqueue, hone]
    have hroom' : (((a.unqueue 0 t).enqueue 1 t).lodge 1).queue.length + r.length ≤ 256 := by
      rw [hq1, List.length_append, List.length_singleton]
      rw [List.length_cons] at hroom
      omega
    obtain ⟨h0, h1, hother, hrest⟩ := ih ((a.unqueue 0 t).enqueue 1 t) hsent hroom'
    have hmove : moveTasks a (t :: r) = moveTasks ((a.unqueue 0 t).enqueue 1 t) r := by rw [moveTasks, List.foldl_cons, hstep]; rfl
    rw [hmove]
    refine ⟨by rw [h0, hq0]; rfl, by rw [h1, hq1, List.append_assoc]; rfl, fun o ho0 ho1 => ?_, hrest⟩
    rw [hother o ho0 ho1, lodge_enqueue_other ho1, State.unqueue, lodge_setLodge_other _ ho0]

/-- What one tile sends on: half of what it has more than its neighbour with the least, the latest first. -/
def levelTile (s a : State) (tile : Nat) : State :=
  let e := s.surplus tile
  let best := (neighbours tile).foldl (fun b t => match b with
    | none => some t
    | some u => if s.surplus t < s.surplus u then some t else some u) none
  match best with
  | none => a
  | some u =>
    let d := e - s.surplus u
    if e ≤ s.surplus u ∨ d < bitsOf (s.reg 0x200) 32 8 then a
    else ((latestFirst ((s.lodge tile).queue.filter fun t => s.movable t && s.mayHold t.launch u)).take (Nat.min 32 (d / 2))).foldl
      (fun (a : State) t => ((a.unqueue tile t).sendTask (some tile) u none t).2) a

theorem loadBalance_off (h : bitOf (s.reg 0x200) 40 = false) : s.loadBalance = s := by
  simp [State.loadBalance, h]

theorem loadBalance_on (h : bitOf (s.reg 0x200) 40 = true) : s.loadBalance = (List.range 256).foldl (levelTile s) s := by
  unfold State.loadBalance
  simp only [h, Bool.not_true, Bool.false_eq_true, if_false]
  rfl

section
variable (hlodges : s.lodges = [(0, l)])
include hlodges

theorem surplus_other {o : Nat} (ho : o ≠ 0) : s.surplus o = 0 := by
  rw [State.surplus, (lodge_alone hlodges).2 o ho]
  rfl

theorem levelTile_other {tile : Nat} (ho : tile ≠ 0) (a : State) : levelTile s a tile = a := by
  unfold levelTile
  rw [surplus_other hlodges ho]
  dsimp only
  split
  · rfl
  · exact if_pos (.inl (Nat.zero_le _))

/-- Tile 0 sends half of its tasks to tile 1, its first neighbour. -/
theorem levelTile_zero (hmovable : ∀ t ∈ l.queue, s.movable t = true ∧ s.mayHold t.launch 1 = true)
    (hlimit : bitsOf (s.reg 0x200) 32 8 ≤ l.queue.length) (hsome : l.queue ≠ []) (a : State) :
    levelTile s a 0 = moveTasks a ((latestFirst l.queue).take (Nat.min 32 (l.queue.length / 2))) := by
  obtain ⟨hzero, -⟩ := lodge_alone hlodges
  have hall : l.queue.filter s.movable = l.queue := List.filter_eq_self.2 fun t ht => (hmovable t ht).1
  have hall' : l.queue.filter (fun t => s.movable t && s.mayHold t.launch 1) = l.queue :=
    List.filter_eq_self.2 fun t ht => by simp [hmovable t ht]
  have hsurplus : s.surplus 0 = l.queue.length := by rw [State.surplus, hzero, hall]
  have hbest : (neighbours 0).foldl (fun b t => match b with
      | none => some t
      | some u => if s.surplus t < s.surplus u then some t else some u) none = some 1 := by
    show (if s.surplus 8 < s.surplus 1 then some 8 else some 1) = some 1
    rw [surplus_other hlodges (by decide), surplus_other hlodges (by decide)]
    rfl
  have hpos : 0 < l.queue.length := List.length_pos_iff.2 hsome
  unfold levelTile
  rw [hbest, hsurplus, hzero]
  dsimp only
  rw [surplus_other hlodges (by decide), hall', Nat.sub_zero, if_neg (by omega)]
  rfl

/-- Where tile 0 alone has tasks, one move levels the load. -/
theorem loadBalance_alone (hon : bitOf (s.reg 0x200) 40 = true) (hmovable : ∀ t ∈ l.queue, s.movable t = true ∧ s.mayHold t.launch 1 = true)
    (hlimit : bitsOf (s.reg 0x200) 32 8 ≤ l.queue.length) (hsome : l.queue ≠ []) :
    s.loadBalance = moveTasks s ((latestFirst l.queue).take (Nat.min 32 (l.queue.length / 2))) := by
  rw [loadBalance_on hon, List.range_succ_eq_map, List.foldl_cons, List.foldl_map, levelTile_zero hlodges hmovable hlimit hsome,
    List.foldl_fixed' fun k => levelTile_other hlodges (Nat.succ_ne_zero k) _]

end

end
end Sys2Proof.Proofs
end

