-- ==== Sys2Proof/Proofs/LodgeSpills.lean ====
section
/-! SPILL, REFILL and DISCARD (R126 to R129, R146): a Lodge's tasks go to its run's spill area, come back, and are discarded. -/
namespace Sys2Proof.Proofs
open Sys2Proof Sys2Proof.Machine Sys2Proof.Laws

variable {s : State} {tile run : Nat}

theorem blocksOf_setBlocks (l : Lodge) (r : Nat) (b : List SpillBlock) : (l.setBlocks r b).blocksOf r = b := by
  unfold Lodge.setBlocks
  cases b with
  | nil => simp [Lodge.blocksOf, Sparse.getD, get?_erase_same]
  | cons x xs => simp [Lodge.blocksOf, Sparse.getD]

theorem queue_setBlocks (l : Lodge) (r : Nat) (b : List SpillBlock) : (l.setBlocks r b).queue = l.queue := rfl

@[simp] theorem lodge_countEvt (t e n o : Nat) (r : Option Nat) : (s.countEvt t e r n).lodge o = s.lodge o := rfl

-- SPILL.

theorem spill_none (h : (s.lodge tile).queue.length ≤ 224 ∨ (s.lodge tile).spillFault = true) : s.spill tile = s := by
  unfold State.spill
  exact if_pos (.inr h)

section
variable (hmany : 224 < (s.lodge tile).queue.length) (hfatal : s.fatal = false) (hfault : (s.lodge tile).spillFault = false)
  (hmost : mostQueued (s.lodge tile).queue = some run)
include hmany hfatal hfault hmost

/-- The 32 latest tasks of the run that has most are spilled. -/
theorem spill_most {u : State} (h : s.spillTasks tile run ((latestFirst ((s.lodge tile).queue.filter fun t => t.run == run)).take 32) = .ok u) :
    s.spill tile = u := by
  unfold State.spill
  rw [if_neg (by simp [hfatal, hfault, hmany])]
  simp only [hmost, h]

end

/-- The fault of an area with no block: SPF and a record for the byte past the area. -/
def spillOverflow (s : State) (tile run : Nat) : State :=
  (s.onReg (0x300 + tile) fun v => putField v 0 1 1).lodgeFault tile run
    (Trap.protAt .write ((s.spillBase tile run + 2 ^ (s.run run).cfg.splog) % 2 ^ 56) 6)

theorem spillTasks_noBlock (h : s.spillBlocks run = 0) (ts : List Task) : s.spillTasks tile run ts = .ok (spillOverflow s tile run) := by
  unfold State.spillTasks
  rw [h]
  rfl

/-- The fault's own record stands last: it is that of no table walk, and joins none. -/
theorem spillOverflow_record : ∃ r : Record, (spillOverflow s tile run).records = s.records ++ [r] ∧ r.trap.cause = .prot ∧
    r.agent = .lodge tile := by
  refine ⟨_, if_neg ?_, rfl, rfl⟩
  simp [Record.joins, Trap.ofWalk, Trap.protAt]

theorem spillOverflow_rest : ((spillOverflow s tile run).lodge tile).spillFault = true ∧
    ((spillOverflow s tile run).lodge tile).queue = (s.lodge tile).queue ∧ bitOf ((spillOverflow s tile run).reg (0x300 + tile)) 0 = true ∧
    s.SameBytes (spillOverflow s tile run) := by
  have hlodge : (spillOverflow s tile run).lodge tile = { s.lodge tile with spillFault := true } := lodge_setLodge_same ..
  have hreg : ∀ k, (spillOverflow s tile run).reg k = (s.onReg (0x300 + tile) fun v => putField v 0 1 1).reg k := fun _ => rfl
  refine ⟨by rw [hlodge], by rw [hlodge], ?_, sameBytes_of_eq (fun k hk => ?_) rfl rfl⟩
  · rw [hreg, bitOf_onReg (by decide), bitOf_putField_same]
    rfl
  · rw [hreg, reg_onReg_other (ne_of_mapsMemory hk (by omega))]

/-- The block the tasks are spilled into, with what the device keeps beside its records. -/
def spilledBlock (b : Nat) (ts : List Task) : SpillBlock :=
  { block := b, notes := ts.map fun t =>
      ⟨t.launch, t.hintLine, t.unseen, t.parent == some 0, if t.spec && t.hasTb then some t.key else none, t.standing⟩ }

/-- Tasks go into the first block of an area that holds none. -/
theorem spillTasks_first {ts : List Task} {v : State} (hsome : 0 < s.spillBlocks run) (hfree : (s.lodge tile).blocksOf run = [])
    (hwrite : s.writeBlock tile run 0 ts = .ok v) : ∃ u, s.spillTasks tile run ts = .ok u ∧
      (u.lodge tile).blocksOf run = (v.lodge tile).blocksOf run ++ [spilledBlock 0 ts] ∧
      (u.lodge tile).queue = ts.foldl (fun q t => q.erase t) (v.lodge tile).queue ∧ v.SameBytes u := by
  have hblock : (List.range (s.spillBlocks run)).find? (fun b => !(((s.lodge tile).blocksOf run).map fun b => b.block).contains b) = some 0 := by
    obtain ⟨k, hk⟩ := Nat.exists_eq_succ_of_ne_zero hsome.ne'
    rw [hk, hfree, List.range_succ_eq_map]
    rfl
  unfold State.spillTasks
  simp only [hblock, hwrite]
  refine ⟨_, rfl, ?_, ?_, sameBytes_of_eq (fun _ _ => rfl) rfl rfl⟩
  · rw [lodge_countEvt, lodge_setLodge_same, blocksOf_setBlocks]
    rfl
  · rw [lodge_countEvt, lodge_setLodge_same, queue_setBlocks]

-- REFILL.

theorem nextBlock_none {l : Lodge} (hblocks : l.blocksOf run = []) (hspblk : Sparse.get? l.spblk run = none) : l.nextBlock run = none := by
  simp [Lodge.nextBlock, hblocks, hspblk]

/-- A Lodge with no block has nothing to bring back. -/
theorem refill_none (hblocks : (s.lodge tile).blocks = []) (hspblk : (s.lodge tile).spblk = []) : s.refill tile = s := by
  have hnone : ∀ r, (s.lodge tile).nextBlock r = none := fun r =>
    nextBlock_none (by rw [Lodge.blocksOf, hblocks]; rfl) (by rw [hspblk]; rfl)
  have hruns : (List.range 16).filter (fun r => s.runLive r && ((s.lodge tile).nextBlock r).isSome) = [] :=
    List.filter_eq_nil_iff.2 fun r _ => by simp [hnone]
  unfold State.refill
  simp only [hruns, List.find?_nil, ite_self]

/-- Of the numbers below N one alone passes a test. -/
theorem filter_range_one {N k : Nat} (hk : k < N) {p : Nat → Bool} (hp : p k = true) (hother : ∀ r < N, r ≠ k → p r = false) :
    (List.range N).filter p = [k] := by
  have heq : (List.range N).filter p = (List.range N).filter (fun r => r == k) := List.filter_congr fun r hr => by
    by_cases h : r = k
    · simp [h, hp]
    · simp [h, hother r (List.mem_range.1 hr) h]
  rw [heq, List.filter_beq, List.count_eq_one_of_mem List.nodup_range (List.mem_range.2 hk)]
  rfl

/-- The one block of a tile is refilled where no block is wanted before the others. -/
theorem refill_one {b : SpillBlock} {u : State} (hfatal : s.fatal = false) (hfault : (s.lodge tile).spillFault = false)
    (hspblk : ∀ r < 16, r ≠ run → Sparse.get? (s.lodge tile).spblk r = none) (hblocks : (s.lodge tile).blocks = [(run, [b])]) (hrun : run < 16)
    (hlive : s.runLive run = true) (hroom : (s.lodge tile).queue.length ≤ 192) (hwants : s.wantsSpilled tile run = false)
    (h : s.refillBlock tile run b = .ok u) : s.refill tile = u := by
  have hnext : (s.lodge tile).nextBlock run = some b := by simp [Lodge.nextBlock, Lodge.blocksOf, hblocks, Sparse.getD, Sparse.get?]
  have hruns : (List.range 16).filter (fun r => s.runLive r && ((s.lodge tile).nextBlock r).isSome) = [run] := by
    refine filter_range_one hrun (by simp [hlive, hnext]) fun r hr hne => ?_
    have hnone : (s.lodge tile).nextBlock r = none :=
      nextBlock_none (by simp [Lodge.blocksOf, hblocks, Sparse.getD, Sparse.get?, Ne.symm hne]) (hspblk r hr hne)
    simp [hnone]
  have hfind : [run].find? (s.wantsSpilled tile) = none := by simp [hwants]
  unfold State.refill
  rw [if_neg (by simp [hfatal, hfault])]
  simp only [hruns, hfind, if_neg (Nat.not_lt.2 hroom), hnext, h]

/-- Tasks join a tile's queue. -/
def enqueueAll (s : State) (tile : Nat) (ts : List Task) : State := ts.foldl (fun (s : State) t => s.enqueue tile t) s

theorem lodge_enqueueAll (ts : List Task) (s : State) :
    (enqueueAll s tile ts).lodge tile = { s.lodge tile with queue := (s.lodge tile).queue ++ ts } := by
  induction ts generalizing s with
  | nil => simp [enqueueAll]
  | cons t r ih =>
    have hone : (s.enqueue tile t).lodge tile = { s.lodge tile with queue := (s.lodge tile).queue ++ [t] } := lodge_setLodge_same ..
    rw [show enqueueAll s tile (t :: r) = enqueueAll (s.enqueue tile t) tile r from rfl, ih, hone]
    simp

theorem sameBytes_enqueueAll (ts : List Task) (s : State) : s.SameBytes (enqueueAll s tile ts) := by
  have hkept : (enqueueAll s tile ts).regs = s.regs ∧ (enqueueAll s tile ts).mem = s.mem ∧ (enqueueAll s tile ts).stash = s.stash :=
    ⟨foldl_keeps State.regs (fun _ _ => by rfl) ts s, foldl_keeps State.mem (fun _ _ => by rfl) ts s,
      foldl_keeps State.stash (fun _ _ => by rfl) ts s⟩
  obtain ⟨hregs, hmem, hstash⟩ := hkept
  exact sameBytes_of_eq (fun k _ => reg_congr (by rw [hregs])) hmem (by rw [hstash])

/-- Tasks that their tile may hold go nowhere else. -/
theorem foldl_mayHold {f : State → Task → State} (hf : ∀ s t, s.mayHold t.launch tile = true → f s t = s.enqueue tile t) {ts : List Task}
    (h : ∀ t ∈ ts, s.mayHold t.launch tile = true) : ts.foldl f s = enqueueAll s tile ts := by
  induction ts generalizing s with
  | nil => rfl
  | cons t r ih =>
    rw [List.foldl_cons, hf s t (h t (List.mem_cons_self ..))]
    exact ih fun u hu => h u (List.mem_cons_of_mem _ hu)

/-- A block read is cleared, and its live records join the queue. -/
theorem refillBlock_live {b : SpillBlock} {recs : List (List (BitVec 64))} {v x : State} (hread : s.readBlock tile run b.block = .ok (recs, v))
    (hclear : v.areaWrite tile run (v.spillBase tile run + 16 * b.block) [0, 0] = .ok x) (hdiscards : (x.lodge tile).discards = [])
    (hhold : ∀ n ∈ b.notes, x.mayHold n.launch tile = true) (hspblk : Sparse.get? (x.lodge tile).spblk run ≠ some b.block) :
    ∃ u, s.refillBlock tile run b = .ok u ∧ (u.lodge tile).queue = (x.lodge tile).queue ++
        ((recs.zip b.notes).filter fun p => !(p.1.getD 0 0).getLsbD 63).map (fun p => taskOfRecord p.1 run p.2) ∧
      (u.lodge tile).blocksOf run = ((x.lodge tile).blocksOf run).filter (fun y => y.block != b.block) ∧ x.SameBytes u := by
  let ts := ((recs.zip b.notes).filter fun p => !(p.1.getD 0 0).getLsbD 63).map fun p => taskOfRecord p.1 run p.2
  let l := (x.lodge tile).setBlocks run (((x.lodge tile).blocksOf run).filter fun y => y.block != b.block)
  let y := (x.setLodge tile l).countEvt tile 0x0C (some run) 1
  have hlodge : y.lodge tile = l := lodge_setLodge_same ..
  have hts : ∀ t ∈ ts, y.mayHold t.launch tile = true := fun t ht => by
    obtain ⟨p, hp, rfl⟩ := List.mem_map.1 ht
    exact hhold p.2 (List.of_mem_zip (List.mem_of_mem_filter hp)).2
  have hwas : (Sparse.get? (x.lodge tile).spblk run == some b.block) = false := by simpa using hspblk
  refine ⟨enqueueAll y tile ts, ?_, by rw [lodge_enqueueAll, hlodge]; rfl, ?_, ?_⟩
  · unfold State.refillBlock
    simp only [hread, hclear, hdiscards, hwas, List.any_nil, Bool.or_false, Bool.false_eq_true, if_false]
    refine congrArg Except.ok (foldl_mayHold (s := y) (fun s t h => if_pos h) hts)
  · rw [lodge_enqueueAll, hlodge]
    exact blocksOf_setBlocks ..
  · have hy : x.SameBytes y := sameBytes_of_eq (fun _ _ => rfl) rfl rfl
    obtain ⟨hbytes, hcells⟩ := sameBytes_enqueueAll (tile := tile) ts y
    exact ⟨fun pa key => (hbytes pa key).trans (hy.1 pa key), fun a => (hcells a).trans (hy.2 a)⟩

-- DISCARD.

/-- What a discard of a speculation id leaves of a tile with no spilled block, whose entries it does not reach. -/
def discarded (s : State) (tile id : Nat) : State :=
  let l := s.lodge tile
  { s.setLodge tile { l with queue := l.queue.filter fun t => t.parent != some id, grids := l.grids.filter fun g => g.parent != some id } with
    sent := s.sent.filter fun x => !(x.tile == tile && x.task.parent == some id) }

theorem discardWith_quiet {rec : AbortKind → Nat → Nat → State → State} {id : Nat} (hblocks : (s.lodge tile).blocks = [])
    (hcq : ∀ x ∈ (s.lodge tile).cq, x.2.task.parent ≠ some id) : State.discardWith rec tile id run s = discarded s tile id := by
  have hnone : (s.lodge tile).cq.filter (fun e => e.2.task.parent == some id) = [] :=
    List.filter_eq_nil_iff.2 fun e he => by simpa using hcq e he
  have hempty : (Sparse.getD (s.lodge tile).blocks run []).isEmpty = true := by rw [hblocks]; rfl
  unfold State.discardWith
  simp only [hnone, hempty, if_true, List.foldl_nil]
  rfl

/-- The discards a tile still has to carry out. -/
def settled (s : State) (tile id : Nat) : State :=
  s.setLodge tile { s.lodge tile with discards := (s.lodge tile).discards.filter fun d => d.1 != id }

theorem discard_quiet {id : Nat} (hblocks : (s.lodge tile).blocks = []) (hcq : ∀ x ∈ (s.lodge tile).cq, x.2.task.parent ≠ some id)
    (hnew : ∀ d ∈ (s.lodge tile).discards, d.1 ≠ id) :
    s.discard tile id = discarded s tile id ∨ s.discard tile id = settled (discarded s tile id) tile id := by
  have hknown : (s.lodge tile).discards.find? (fun d => d.1 == id) = none := List.find?_eq_none.2 fun d hd => by simpa using hnew d hd
  have hempty : ∀ r, ((discarded s tile id).lodge tile).blocksOf r = [] := fun r => by
    have hlodge : (discarded s tile id).lodge tile = _ := lodge_setLodge_same ..
    rw [hlodge, Lodge.blocksOf, hblocks]
    rfl
  unfold State.discard
  simp only [hknown, Option.isSome_none, Bool.false_eq_true, if_false, discardWith_quiet hblocks hcq, hempty, List.isEmpty_nil, if_true]
  split
  · exact .inl rfl
  · exact .inr rfl

end Sys2Proof.Proofs
end

