-- ==== Sys2Proof/Proofs/MilestoneLatch.lean ====
section
/-! MILESTONE_LATCH (R103, R147, R148): the key latched for a run is no later than any key counted for it. -/
namespace Sys2Proof.Proofs
open Sys2Proof Sys2Proof.Machine Sys2Proof.Laws

-- The order of keys (R4).

/-- A key as a number: the timestamp, then the tiebreaker. -/
def keyRank (k : Key) : Nat := k.ts.toNat * 2 ^ 32 + k.tb.toNat

theorem lt_iff_rank (a b : Key) : a.lt b = true ↔ keyRank a < keyRank b := by
  have ha := a.tb.isLt
  have hb := b.tb.isLt
  simp only [Key.lt, Bool.or_eq_true, Bool.and_eq_true, decide_eq_true_eq, beq_iff_eq, keyRank, BitVec.toNat_eq]
  omega

theorem lt_false_iff_rank (a b : Key) : a.lt b = false ↔ keyRank b ≤ keyRank a := by
  rw [← Bool.not_eq_true, lt_iff_rank, Nat.not_lt]

theorem rank_min (a b : Key) : keyRank (a.min b) ≤ keyRank a ∧ keyRank (a.min b) ≤ keyRank b := by
  unfold Key.min
  split
  · rename_i h
    have := (lt_iff_rank _ _).1 h
    omega
  · rename_i h
    have := (lt_false_iff_rank _ _).1 (by simpa using h)
    omega

section
variable {α : Type} {g : Key → α → Key} (hg : ∀ a x, keyRank (g a x) ≤ keyRank a)
include hg

/-- A fold that only lowers a key ends no later than it starts. -/
theorem foldl_rank_le (l : List α) (a : Key) : keyRank (l.foldl g a) ≤ keyRank a := by
  induction l generalizing a with
  | nil => exact Nat.le_refl _
  | cons x r ih => exact (ih (g a x)).trans (hg a x)

/-- It ends no later than where one of its steps goes. -/
theorem foldl_rank_le_of_mem {l : List α} {x : α} (hx : x ∈ l) {c : Nat} (hc : ∀ a, keyRank (g a x) ≤ c) (a : Key) :
    keyRank (l.foldl g a) ≤ c := by
  induction l generalizing a with
  | nil => cases hx
  | cons y r ih =>
    rcases List.mem_cons.1 hx with rfl | hr
    · exact (foldl_rank_le hg r (g a x)).trans (hc a)
    · exact ih hr (g a y)

end

theorem rank_min_left (a b : Key) : keyRank (a.min b) ≤ keyRank a := (rank_min a b).1

theorem rank_min_right (a b : Key) : keyRank (a.min b) ≤ keyRank b := (rank_min a b).2

/-- The least of keys taken from a list. -/
theorem foldl_min_le {α : Type} (f : α → Key) (l : List α) (a : Key) : keyRank (l.foldl (fun a x => a.min (f x)) a) ≤ keyRank a :=
  foldl_rank_le (fun a x => rank_min_left a (f x)) l a

theorem foldl_min_le_of_mem {α : Type} (f : α → Key) {l : List α} {x : α} (hx : x ∈ l) (a : Key) :
    keyRank (l.foldl (fun a x => a.min (f x)) a) ≤ keyRank (f x) :=
  foldl_rank_le_of_mem (fun a x => rank_min_left a (f x)) hx (fun a => rank_min_right a (f x)) a

-- What is counted for a run, tile by tile and list by list (R103).

variable (s : State) (run : Nat)

/-- The least key that a tile counts, and a. -/
def countTile (a : Key) (l : Nat × Lodge) : Key :=
  if s.fenced l.1 then a
  else
    let a := (l.2.queue.filter fun t => t.run == run).foldl (fun a t => a.min t.counted) a
    let a := match Sparse.get? l.2.spmin run with | some x => a.min x | none => a
    (l.2.grids.filter fun g => g.run == run).foldl (fun a g => a.min ⟨g.ts, 0⟩) a

/-- The least key counted on the tiles. -/
def countTiles : Key := s.lodges.foldl (countTile s run) Key.allOnes

/-- With the threads. -/
def countThreads : Key := (s.runThreads run).foldl (fun a e => if s.fenced (tileOf e.1) then a else a.min e.2.key) (countTiles s run)

/-- With the tasks on their way. -/
def countSent : Key := (s.sent.filter fun x => x.task.run == run).foldl (fun a x => a.min x.task.counted) (countThreads s run)

theorem counted_le_sent : keyRank (s.counted run) ≤ keyRank (countSent s run) :=
  (foldl_min_le _ _ _).trans ((foldl_min_le _ _ _).trans (foldl_min_le _ _ _))

theorem countTile_steps (a : Key) (l : Nat × Lodge) (h : s.fenced l.1 = false) :
    keyRank (countTile s run a l) ≤ keyRank ((l.2.queue.filter fun t => t.run == run).foldl (fun a t => a.min t.counted) a) := by
  rw [countTile, if_neg (by simp [h])]
  refine (foldl_min_le _ _ _).trans ?_
  cases Sparse.get? l.2.spmin run with
  | none => exact Nat.le_refl _
  | some x => exact rank_min_left _ _

theorem countTile_le (a : Key) (l : Nat × Lodge) : keyRank (countTile s run a l) ≤ keyRank a := by
  cases h : s.fenced l.1 with
  | true => rw [countTile, if_pos h]
  | false => exact (countTile_steps s run a l h).trans (foldl_min_le _ _ _)

theorem countThread_le (a : Key) (e : Nat × Thread) :
    keyRank (if s.fenced (tileOf e.1) then a else a.min e.2.key) ≤ keyRank a := by
  split
  · exact Nat.le_refl _
  · exact rank_min_left _ _

variable {s run}

/-- A queued task of a tile that is not fenced is counted. -/
theorem countTiles_le_queued {x : Nat × Lodge} (hx : x ∈ s.lodges) (hfenced : s.fenced x.1 = false) {t : Task} (ht : t ∈ x.2.queue)
    (hrun : t.run = run) : keyRank (countTiles s run) ≤ keyRank t.counted :=
  foldl_rank_le_of_mem (countTile_le s run) hx (fun a => (countTile_steps s run a x hfenced).trans
    (foldl_min_le_of_mem Task.counted (List.mem_filter.2 ⟨ht, by simpa using hrun⟩) a)) _

/-- A thread of a tile that is not fenced is counted. -/
theorem countThreads_le_thread {x : Nat × Thread} (hx : x ∈ s.threads) (hfenced : s.fenced (tileOf x.1) = false) {t : Task}
    (htask : x.2.task = some t) (hrun : t.run = run) : keyRank (countThreads s run) ≤ keyRank x.2.key := by
  have hmem : x ∈ s.runThreads run := List.mem_filter.2 ⟨hx, by simp [htask, hrun]⟩
  refine foldl_rank_le_of_mem (countThread_le s) hmem (fun a => ?_) _
  rw [if_neg (by simp [hfenced])]
  exact rank_min_right _ _

/-- A task on its way is counted. -/
theorem countSent_le_sent {x : Sent} (hx : x ∈ s.sent) (hrun : x.task.run = run) : keyRank (countSent s run) ≤ keyRank x.task.counted :=
  foldl_min_le_of_mem (fun x : Sent => x.task.counted) (List.mem_filter.2 ⟨hx, by simpa using hrun⟩) _

theorem countSent_le_threads : keyRank (countSent s run) ≤ keyRank (countThreads s run) := foldl_min_le _ _ _

theorem countThreads_le_tiles : keyRank (countThreads s run) ≤ keyRank (countTiles s run) := foldl_rank_le (countThread_le s) _ _

-- What the latch adds: the tasks that finish in its cycle (R148).

/-- The least key of the entries of a tile that finish in the latch's cycle, and a. -/
def latchTile (s : State) (run : Nat) (a : Key) (l : Nat × Lodge) : Key :=
  if s.fenced l.1 then a
  else (l.2.cq.filter fun e => e.2.task.run == run && e.2.finished && decide (s.cycle ≤ e.2.doneAt)).foldl (fun a e => a.min e.2.task.key) a

theorem latchTile_le (s : State) (run : Nat) (a : Key) (l : Nat × Lodge) : keyRank (latchTile s run a l) ≤ keyRank a := by
  unfold latchTile
  split
  · exact Nat.le_refl _
  · exact foldl_min_le _ _ _

theorem latchKey_le_counted : keyRank (s.latchKey run) ≤ keyRank (s.counted run) := foldl_rank_le (latchTile_le s run) _ _

theorem latchKey_le_finishing {x : Nat × Lodge} (hx : x ∈ s.lodges) (hfenced : s.fenced x.1 = false) {e : Nat × CqEntry} (he : e ∈ x.2.cq)
    (hrun : e.2.task.run = run) (hfinished : e.2.finished = true) (hcycle : s.cycle ≤ e.2.doneAt) :
    keyRank (s.latchKey run) ≤ keyRank e.2.task.key := by
  refine foldl_rank_le_of_mem (latchTile_le s run) hx (fun a => ?_) _
  rw [latchTile, if_neg (by simp [hfenced])]
  exact foldl_min_le_of_mem (fun e : Nat × CqEntry => e.2.task.key) (List.mem_filter.2 ⟨he, by simp [hrun, hfinished, hcycle]⟩) a

/-- No key counted is earlier than the latched one. -/
theorem latchKey_le_queued {x : Nat × Lodge} (hx : x ∈ s.lodges) (hfenced : s.fenced x.1 = false) {t : Task} (ht : t ∈ x.2.queue)
    (hrun : t.run = run) : keyRank (s.latchKey run) ≤ keyRank t.counted :=
  latchKey_le_counted.trans <| (counted_le_sent s run).trans <| countSent_le_threads.trans <| countThreads_le_tiles.trans <|
    countTiles_le_queued hx hfenced ht hrun

theorem latchKey_le_thread {x : Nat × Thread} (hx : x ∈ s.threads) (hfenced : s.fenced (tileOf x.1) = false) {t : Task}
    (htask : x.2.task = some t) (hrun : t.run = run) : keyRank (s.latchKey run) ≤ keyRank x.2.key :=
  latchKey_le_counted.trans <| (counted_le_sent s run).trans <| countSent_le_threads.trans <| countThreads_le_thread hx hfenced htask hrun

theorem latchKey_le_sent {x : Sent} (hx : x ∈ s.sent) (hrun : x.task.run = run) : keyRank (s.latchKey run) ≤ keyRank x.task.counted :=
  latchKey_le_counted.trans <| (counted_le_sent s run).trans <| countSent_le_sent hx hrun

-- The latch.

/-- An entry at a latch: marked where its task had finished before. -/
def latchedEntry (now : Nat) (e : CqEntry) : CqEntry := { e with marked := e.marked || (e.finished && decide (e.doneAt < now)) }

/-- A queued or sent task at a latch. -/
def latchedTask (t : Task) : Task := if t.unseen = 2 then { t with unseen := 1 } else t

/-- A Lodge at a latch. -/
def latchedLodge (now : Nat) (l : Lodge) : Lodge :=
  { l with cq := l.cq.mapVals fun _ e => latchedEntry now e, queue := l.queue.map latchedTask }

/-- A run at a latch: its slot's least key, where it has one. -/
def latchedRun (s : State) (n : Nat) (r : Run) : Run := if r.phase = .free then r else { r with latched := s.latchKey n }

/-- The state with every lane's least key latched. -/
def latched (s : State) : State :=
  { s with
    runs := s.runs.mapVals (latchedRun s)
    lodges := s.lodges.mapVals fun _ l => latchedLodge s.cycle l
    latchCycle := some s.cycle
    rounded := false
    sent := s.sent.map fun x => { x with task := latchedTask x.task } }

theorem latchedEntry_eq (now : Nat) (e : CqEntry) :
    (if e.finished && decide (e.doneAt < now) then { e with marked := true } else e) = latchedEntry now e := by
  unfold latchedEntry
  split
  · rename_i h
    rw [h, Bool.or_true]
  · rename_i h
    rw [Bool.not_eq_true] at h
    rw [h, Bool.or_false]

theorem milestoneLatch_eq (h : s.fatal = false) : s.milestoneLatch = latched s := by
  unfold State.milestoneLatch
  rw [if_neg (by simp [h])]
  simp only [latchedEntry_eq]
  rfl

theorem run_latched {n : Nat} {r : Run} (h : Sparse.get? s.runs n = some r) : (latched s).run n = latchedRun s n r := by
  have hget : Sparse.get? (latched s).runs n = _ := get?_mapVals s.runs (latchedRun s) n
  rw [State.run, Sparse.getD, hget, h]
  rfl

theorem lodge_latched (tile : Nat) : (latched s).lodge tile = latchedLodge s.cycle (s.lodge tile) :=
  getD_mapVals s.lodges (fun _ => latchedLodge s.cycle) tile rfl

theorem entry_latched {tile j : Nat} {e : CqEntry} (h : Sparse.get? (s.lodge tile).cq j = some e) :
    Sparse.get? ((latched s).lodge tile).cq j = some (latchedEntry s.cycle e) := by
  rw [lodge_latched, latchedLodge, get?_mapVals, h]
  rfl

end Sys2Proof.Proofs
end

