-- ==== Sys2Proof/Proofs/RoundFrame.lean ====
section
/-! What an abort (R146) leaves of a round: runs, ROUND and the latch stay, and no entry that is gone comes back. -/
namespace Sys2Proof.Proofs
open Sys2Proof Sys2Proof.Machine Sys2Proof.Laws

/-- The part of the state that a round is about. -/
def roundPart (s : State) : Sparse Run × BitVec 32 × Option Nat × Sparse Lodge := (s.runs, s.round, s.latchCycle, s.lodges)

theorem roundPart_of_stores {s u : State} (h : beyondStores u = beyondStores s) : roundPart u = roundPart s :=
  show roundPart (beyondStores u) = roundPart (beyondStores s) by rw [h]

theorem roundPart_of_homes {s u : State} (h : beyondHomes u = beyondHomes s) : roundPart u = roundPart s :=
  roundPart_of_stores (beyondStores_of_homes h)

/-- Runs, ROUND and the latch stay, and entries only go. -/
structure RoundKept (s u : State) : Prop where
  runs : u.runs = s.runs
  round : u.round = s.round
  latch : u.latchCycle = s.latchCycle
  gone : ∀ tile j, Sparse.get? (s.lodge tile).cq j = none → Sparse.get? (u.lodge tile).cq j = none

theorem RoundKept.refl (s : State) : RoundKept s s := ⟨rfl, rfl, rfl, fun _ _ h => h⟩

theorem RoundKept.trans {s u v : State} (h : RoundKept s u) (k : RoundKept u v) : RoundKept s v :=
  ⟨k.runs.trans h.runs, k.round.trans h.round, k.latch.trans h.latch, fun tile j hj => k.gone tile j (h.gone tile j hj)⟩

theorem roundKept_of_part {s u : State} (h : roundPart u = roundPart s) : RoundKept s u := by
  simp only [roundPart, Prod.mk.injEq] at h
  obtain ⟨hruns, hround, hlatch, hlodges⟩ := h
  exact ⟨hruns, hround, hlatch, fun tile j hj => by rwa [State.lodge, hlodges]⟩

theorem roundKept_of_homes {s u : State} (h : beyondHomes u = beyondHomes s) : RoundKept s u := roundKept_of_part (roundPart_of_homes h)

theorem roundKept_foldl {α : Type} {f : State → α → State} (hf : ∀ s x, RoundKept s (f s x)) (l : List α) (s : State) :
    RoundKept s (l.foldl f s) := by
  induction l generalizing s with
  | nil => exact .refl s
  | cons x r ih => exact (hf s x).trans (ih (f s x))

/-- A Lodge changed with no entry added. -/
theorem roundKept_setLodge {s : State} {tile : Nat} {l : Lodge} (h : ∀ j, Sparse.get? (s.lodge tile).cq j = none → Sparse.get? l.cq j = none) :
    RoundKept s (s.setLodge tile l) := by
  refine ⟨rfl, rfl, rfl, fun t j hj => ?_⟩
  by_cases ht : t = tile
  · subst ht
    rw [lodge_setLodge_same]
    exact h j hj
  · rw [lodge_setLodge_other _ ht]
    exact hj

theorem get?_erase_none {α : Type} {m : Sparse α} {j : Nat} (h : Sparse.get? m j = none) (n : Nat) : Sparse.get? (Sparse.erase m n) j = none := by
  by_cases hj : j = n
  · rw [hj, get?_erase_same]
  · rw [get?_erase_other _ _ _ hj, h]

-- Aborts, over what carries out the aborts they cause.

/-- The slot of a task that has not finished is free. -/
def freeHolder (e : CqEntry) (s : State) : State :=
  match e.th with
  | some th => if e.finished then s else s.freeThread th
  | none => s

/-- The children of an aborted entry are discarded, on every tile where their list has overflowed (R146). -/
def discardChildren (rec : AbortKind → Nat → Nat → State → State) (tile n : Nat) (e : CqEntry) (s : State) : State :=
  if e.ovf then (List.range 256).foldl (fun s t => State.discardWith rec t (e.id tile n) e.task.run s) s
  else e.children.foldl (fun s t => State.discardWith rec t (e.id tile n) e.task.run s) s

/-- So are those on the tile it has departed to. -/
def discardDeparted (rec : AbortKind → Nat → Nat → State → State) (tile n : Nat) (e : CqEntry) (s : State) : State :=
  match e.depart with
  | some t => State.discardWith rec t (e.id tile n) e.task.run s
  | none => s

/-- An abort is counted, and once more where it makes its task wait for the milestone. -/
def countAbort (tile cause run : Nat) (mw : Bool) (s : State) : State :=
  if mw then (s.countEvt tile cause (some run) 1).countEvt tile 0x0A (some run) 1 else s.countEvt tile cause (some run) 1

theorem roundKept_freeHolder (e : CqEntry) (s : State) : RoundKept s (freeHolder e s) := by
  unfold freeHolder
  split
  · split
    · exact .refl s
    · exact roundKept_of_part rfl
  · exact .refl s

theorem roundKept_countAbort (tile cause run : Nat) (mw : Bool) (s : State) : RoundKept s (countAbort tile cause run mw s) := by
  have hcount : ∀ (s : State) (c : Nat), RoundKept s (s.countEvt tile c (some run) 1) := fun s c => roundKept_of_homes (beyond_countEvt ..)
  unfold countAbort
  split
  · exact (hcount s _).trans (hcount _ _)
  · exact hcount s _

section
variable {rec : AbortKind → Nat → Nat → State → State} (hrec : ∀ k tile n s, RoundKept s (rec k tile n s))
include hrec

theorem roundKept_probeWith (s : State) (line : Nat) (cv : BitVec 5) (st : Storer) : RoundKept s (State.probeWith rec s line cv st) := by
  unfold State.probeWith
  split
  · exact .refl s
  · have hcount : ∀ (s : State) (r : Nat), RoundKept s (s.countFalse line r false) := fun s r =>
      roundKept_foldl (fun s t => by
        unfold State.countFalseAt
        dsimp only
        split
        · exact .refl s
        · exact roundKept_of_homes (beyond_countEvt ..)) _ s
    exact (roundKept_foldl hcount _ s).trans ((roundKept_foldl (fun s v => hrec _ _ _ s) _ _).trans (roundKept_of_homes (beyond_reprobe ..)))

theorem roundKept_performWith (s : State) (line key : Nat) (mask data : Line) (st : Storer) :
    RoundKept s (State.performWith rec s line key mask data st).2 := by
  unfold State.performWith
  dsimp only
  exact (roundKept_of_homes (by simp)).trans ((roundKept_probeWith hrec _ _ _ _).trans (roundKept_of_homes (beyond_place ..)))

theorem roundKept_restoreWith (tile n : Nat) (e : CqEntry) (s : State) : RoundKept s (State.restoreWith rec tile n e s) := by
  unfold State.restoreWith
  induction e.log with
  | nil => exact .refl s
  | cons x r ih =>
    refine ih.trans ?_
    rw [List.foldr_cons]
    unfold State.restoreOne
    split
    · exact roundKept_performWith hrec _ _ _ _ _ _
    · exact .refl _

theorem roundKept_discardWith (tile id run : Nat) (s : State) : RoundKept s (State.discardWith rec tile id run s) := by
  unfold State.discardWith
  dsimp only
  refine RoundKept.trans ?_ (roundKept_foldl (fun s e => hrec _ _ _ s) _ _)
  exact (roundKept_setLodge (tile := tile) (l := { s.lodge tile with
      queue := (s.lodge tile).queue.filter fun t => t.parent != some id,
      grids := (s.lodge tile).grids.filter fun g => g.parent != some id,
      discards := if (Sparse.getD (s.lodge tile).blocks run []).isEmpty then (s.lodge tile).discards
        else (s.lodge tile).discards ++ [(id, run)] }) fun j hj => hj).trans ⟨rfl, rfl, rfl, fun _ _ h => h⟩

theorem roundKept_discards (tiles : List Nat) (id run : Nat) (s : State) :
    RoundKept s (tiles.foldl (fun s t => State.discardWith rec t id run s) s) :=
  roundKept_foldl (fun s t => roundKept_discardWith hrec t id run s) tiles s

/-- The discards reach the children of the entry, all tiles where their list has overflowed. -/
theorem roundKept_discardChildren (tile n : Nat) (e : CqEntry) (s : State) : RoundKept s (discardChildren rec tile n e s) := by
  unfold discardChildren
  split
  · exact roundKept_discards hrec _ _ _ s
  · exact roundKept_discards hrec _ _ _ s

theorem roundKept_discardDeparted (tile n : Nat) (e : CqEntry) (s : State) : RoundKept s (discardDeparted rec tile n e s) := by
  unfold discardDeparted
  split
  · exact roundKept_discardWith hrec _ _ _ s
  · exact .refl s

/-- One abort. -/
theorem roundKept_abortStep (k : AbortKind) (tile n : Nat) (s : State) : RoundKept s (State.abortStep rec k tile n s) := by
  unfold State.abortStep
  split
  · exact .refl s
  next e he =>
  split
  · exact .refl s
  dsimp only
  have hmark : RoundKept s (s.setEntry tile n { e with aborting := true }) := roundKept_setLodge fun j hj => by
    rw [get?_set_other]
    · exact hj
    · rintro rfl
      rw [he] at hj
      cases hj
  have hstores : ∀ (v : State) (l : List PendStore), RoundKept v { v with stores := l } := fun v _ => ⟨rfl, rfl, rfl, fun _ _ h => h⟩
  have hgone : ∀ (v : State) (q : List Task),
      RoundKept v (v.setLodge tile { v.lodge tile with cq := Sparse.erase (v.lodge tile).cq n, queue := q }) :=
    fun v q => roundKept_setLodge fun j hj => get?_erase_none hj n
  exact hmark.trans <| (roundKept_freeHolder e _).trans <| (hstores _ _).trans <| (roundKept_restoreWith hrec tile n e _).trans <|
    (roundKept_discardChildren hrec tile n e _).trans <| (roundKept_discardDeparted hrec tile n e _).trans <|
    (hgone _ _).trans (roundKept_countAbort tile k.cause e.task.run _ _)

end

theorem roundKept_abort (s : State) (k : AbortKind) (tile n : Nat) : RoundKept s (s.abort k tile n) := by
  unfold State.abort
  generalize s.entries + 1 = f
  have hfuel : ∀ f k tile n s, RoundKept s (State.abortFuel f k tile n s) := fun f => by
    induction f with
    | zero => exact fun _ _ _ s => .refl s
    | succ f ih => exact roundKept_abortStep ih
  exact hfuel f k tile n s

end Sys2Proof.Proofs
end

