-- ==== Sys2Proof/Proofs/MilestoneBroadcast.lean ====
section
/-! MILESTONE_BROADCAST (R104, R148, R149): what a run keeps through each part of its lane, and what the commits do. -/
namespace Sys2Proof.Proofs
open Sys2Proof Sys2Proof.Machine Sys2Proof.Laws

/-- A run keeps its milestone and its latched key, its floor only rises, and entries only go. -/
structure LaneKept (n : Nat) (s u : State) : Prop where
  round : u.round = s.round
  latch : u.latchCycle = s.latchCycle
  milestone : (u.run n).milestone = (s.run n).milestone
  latched : (u.run n).latched = (s.run n).latched
  floor : keyRank (s.run n).floor ≤ keyRank (u.run n).floor
  gone : ∀ tile j, Sparse.get? (s.lodge tile).cq j = none → Sparse.get? (u.lodge tile).cq j = none

variable {n : Nat} {s u v : State}

theorem LaneKept.refl (s : State) : LaneKept n s s := ⟨rfl, rfl, rfl, rfl, Nat.le_refl _, fun _ _ h => h⟩

theorem LaneKept.trans (h : LaneKept n s u) (k : LaneKept n u v) : LaneKept n s v :=
  ⟨k.round.trans h.round, k.latch.trans h.latch, k.milestone.trans h.milestone, k.latched.trans h.latched, h.floor.trans k.floor,
    fun tile j hj => k.gone tile j (h.gone tile j hj)⟩

theorem LaneKept.of_round (h : RoundKept s u) : LaneKept n s u := by
  have hrun : u.run n = s.run n := by rw [State.run, h.runs, State.run]
  exact ⟨h.round, h.latch, by rw [hrun], by rw [hrun], by rw [hrun], h.gone⟩

theorem laneKept_foldl {α : Type} {f : State → α → State} (hf : ∀ s x, LaneKept n s (f s x)) (l : List α) (s : State) :
    LaneKept n s (l.foldl f s) := by
  induction l generalizing s with
  | nil => exact .refl s
  | cons x r ih => exact (hf s x).trans (ih (f s x))

/-- A run changed in its floor alone, and that only upwards. -/
theorem laneKept_setFloor (s : State) (k : Nat) {f : Key} (h : keyRank (s.run k).floor ≤ keyRank f) :
    LaneKept n s (s.setRun k { s.run k with floor := f }) := by
  by_cases hk : n = k
  · subst hk
    exact ⟨rfl, rfl, by rw [run_setRun_same], by rw [run_setRun_same], by rwa [run_setRun_same], fun _ _ h => h⟩
  · have hrun := run_setRun_other s hk { s.run k with floor := f }
    exact ⟨rfl, rfl, by rw [hrun], by rw [hrun], by rw [hrun], fun _ _ h => h⟩

-- The Itinerary's part of a commit (R286).

theorem roundPart_itinWrite (s : State) (kind tile : Nat) (w1 w2 w3 : BitVec 64) : roundPart (s.itinWrite kind tile w1 w2 w3) = roundPart s := by
  have hkept := roundPart_of_stores (recorded_kept s kind tile w1 w2 w3)
  rw [itinWrite_eq]
  simpa only [roundPart] using hkept

theorem roundPart_itinAppend (s : State) (kind tile : Nat) (w1 w2 w3 : BitVec 64) :
    roundPart (s.itinAppend kind tile w1 w2 w3) = roundPart s := by
  unfold State.itinAppend
  split
  · rfl
  · split
    · exact roundPart_itinWrite ..
    · have hfull := roundPart_itinWrite s 8 tile (BitVec.ofNat 64 s.dbg.csn) 0 0
      dsimp only
      generalize s.itinWrite 8 tile (BitVec.ofNat 64 s.dbg.csn) 0 0 = v at hfull ⊢
      exact hfull

theorem roundPart_itinTake (s : State) (run kind tile : Nat) (want : List (Nat × Nat × Nat)) :
    roundPart (s.itinTake run kind tile want).2 = roundPart s := by
  unfold State.itinTake
  split
  · rfl
  · dsimp only
    split <;> rfl

theorem roundPart_itinCommit (s : State) (tile : Nat) (e : CqEntry) : roundPart (s.itinCommit tile e) = roundPart s := by
  unfold State.itinCommit
  dsimp only
  split
  · have htake := roundPart_itinTake s e.task.run 7 tile []
    split
    · split
      · exact htake
      · exact htake
    · exact htake
  · split
    · have happend := roundPart_itinAppend s 7 tile e.task.ts
        (e.task.tb.setWidth 64 ||| ((writeHash e.write).setWidth 64 <<< 32)) (s.round.setWidth 64)
      generalize s.itinAppend 7 tile e.task.ts _ _ = v at happend ⊢
      exact happend
    · rfl

-- A commit (R149).

/-- The state in which an entry's commit is noted and its tile has let go of it. -/
def released (s : State) (tile j : Nat) (e : CqEntry) : State :=
  let v := s.itinCommit tile e
  v.setLodge tile { v.lodge tile with
    cq := Sparse.erase (v.lodge tile).cq j
    queue := (v.lodge tile).queue.map fun t => if t.parent = some (e.id tile j) then { t with parent := none } else t }

theorem commit_none {tile j : Nat} (h : Sparse.get? (s.lodge tile).cq j = none) : s.commit tile j = s := by
  rw [State.commit, h]

theorem commit_some {tile j : Nat} {e : CqEntry} (h : Sparse.get? (s.lodge tile).cq j = some e) :
    s.commit tile j = (released s tile j e).setRun e.task.run { (released s tile j e).run e.task.run with
      floor := if ((released s tile j e).run e.task.run).floor.lt e.task.key then e.task.key else ((released s tile j e).run e.task.run).floor } := by
  rw [State.commit, h]
  rfl

theorem lodge_itinCommit (s : State) (tile : Nat) (e : CqEntry) (t : Nat) : (s.itinCommit tile e).lodge t = s.lodge t := by
  have h : (s.itinCommit tile e).lodges = s.lodges := congrArg (fun p => p.2.2.2) (roundPart_itinCommit s tile e)
  rw [State.lodge, h, State.lodge]

theorem laneKept_released (s : State) (tile j : Nat) (e : CqEntry) : LaneKept n s (released s tile j e) :=
  .of_round <| (roundKept_of_part (roundPart_itinCommit s tile e)).trans (roundKept_setLodge fun _ hk => get?_erase_none hk j)

/-- The greater of two keys. -/
theorem rank_max (a b : Key) : keyRank a ≤ keyRank (if a.lt b then b else a) ∧ keyRank b ≤ keyRank (if a.lt b then b else a) := by
  split
  · next h =>
    have := (lt_iff_rank _ _).1 h
    omega
  · next h =>
    have := (lt_false_iff_rank _ _).1 (by simpa using h)
    omega

theorem laneKept_commit (s : State) (tile j : Nat) : LaneKept n s (s.commit tile j) := by
  cases he : Sparse.get? (s.lodge tile).cq j with
  | none =>
    rw [commit_none he]
    exact .refl s
  | some e =>
    rw [commit_some he]
    exact (laneKept_released s tile j e).trans (laneKept_setFloor _ _ (rank_max _ _).1)

/-- An entry has committed: it is gone, and its run's floor is no earlier than its key. -/
structure Committed (n tile j : Nat) (e : CqEntry) (u : State) : Prop where
  gone : Sparse.get? (u.lodge tile).cq j = none
  floor : keyRank e.task.key ≤ keyRank (u.run n).floor

theorem Committed.kept {tile j : Nat} {e : CqEntry} (h : Committed n tile j e s) (k : LaneKept n s u) : Committed n tile j e u :=
  ⟨k.gone tile j h.gone, h.floor.trans k.floor⟩

theorem committed_commit {tile j : Nat} {e : CqEntry} (he : Sparse.get? (s.lodge tile).cq j = some e) :
    Committed e.task.run tile j e (s.commit tile j) := by
  rw [commit_some he]
  constructor
  · show Sparse.get? ((released s tile j e).lodge tile).cq j = none
    rw [released, lodge_setLodge_same]
    exact get?_erase_same _ _
  · rw [run_setRun_same]
    exact (rank_max _ _).2

/-- Another entry stays as it is. -/
theorem entry_commit_other {tile j t k : Nat} (h : ¬(t = tile ∧ k = j)) :
    Sparse.get? ((s.commit tile j).lodge t).cq k = Sparse.get? (s.lodge t).cq k := by
  cases he : Sparse.get? (s.lodge tile).cq j with
  | none => rw [commit_none he]
  | some e =>
    rw [commit_some he]
    show Sparse.get? ((released s tile j e).lodge t).cq k = _
    unfold released
    by_cases ht : t = tile
    · subst ht
      rw [lodge_setLodge_same, lodge_itinCommit]
      exact get?_erase_other _ _ _ fun hk => h ⟨rfl, hk⟩
    · rw [lodge_setLodge_other _ ht, lodge_itinCommit]

/-- Each entry of the list commits. -/
theorem committed_of_mem {tile j : Nat} {e : CqEntry} {k : Key} {l : List (Key × Nat × Nat)} (hmem : (k, tile, j) ∈ l)
    (he : Sparse.get? (s.lodge tile).cq j = some e) : Committed e.task.run tile j e (l.foldl (fun s x => s.commit x.2.1 x.2.2) s) := by
  induction l generalizing s with
  | nil => cases hmem
  | cons y r ih =>
    rw [List.foldl_cons]
    by_cases hy : tile = y.2.1 ∧ j = y.2.2
    · obtain ⟨rfl, rfl⟩ := hy
      exact (committed_commit he).kept (laneKept_foldl (fun s x => laneKept_commit s _ _) r _)
    · refine ih ?_ ((entry_commit_other hy).trans he)
      rcases List.mem_cons.1 hmem with rfl | hr
      · exact absurd ⟨rfl, rfl⟩ hy
      · exact hr

/-- Insertion in key order keeps every element. -/
theorem mem_foldl_insert {x : Key × Nat × Nat} {l acc : List (Key × Nat × Nat)} (h : x ∈ l ∨ x ∈ acc) :
    x ∈ l.foldl (fun l x => (l.takeWhile fun y => y.1.lt x.1) ++ [x] ++ (l.dropWhile fun y => y.1.lt x.1)) acc := by
  induction l generalizing acc with
  | nil => exact h.resolve_left List.not_mem_nil
  | cons y r ih =>
    rw [List.foldl_cons]
    apply ih
    have hacc : x ∈ acc → x ∈ acc.takeWhile (fun z => z.1.lt y.1) ∨ x ∈ acc.dropWhile fun z => z.1.lt y.1 := fun hx =>
      List.mem_append.1 (by rwa [List.takeWhile_append_dropWhile])
    simp only [List.mem_append, List.mem_singleton]
    rcases h with h | h
    · rcases List.mem_cons.1 h with rfl | h
      · exact .inr (.inl (.inr rfl))
      · exact .inl h
    · rcases hacc h with h | h
      · exact .inr (.inl (.inl h))
      · exact .inr (.inr h)

/-- The finished, marked entries of a run before the key are among those to commit (R104). -/
theorem mem_commits {tile j : Nat} {e : CqEntry} {m : Key} (he : Sparse.get? (s.lodge tile).cq j = some e) (hrun : e.task.run = n)
    (hfinished : e.finished = true) (hmarked : e.marked = true) (hlt : e.task.key.lt m = true) :
    (e.task.key, tile, j) ∈ s.commits n m := by
  unfold State.commits
  refine mem_foldl_insert (.inl (List.mem_flatMap.2 ⟨(tile, s.lodge tile), ?_, ?_⟩))
  · cases hl : Sparse.get? s.lodges tile with
    | none =>
      rw [State.lodge, Sparse.getD, hl] at he
      cases he
    | some l =>
      rw [State.lodge, Sparse.getD, hl]
      exact mem_of_get? hl
  · exact List.mem_map.2 ⟨(j, e), List.mem_filter.2 ⟨mem_of_get? he, by simp [hrun, hfinished, hmarked, hlt]⟩, rfl⟩

-- What else a lane does.

/-- A Lodge whose tasks at a key have taken their standing. -/
def standLodge (run : Nat) (m : Key) (l : Lodge) : Lodge :=
  { l with
    cq := l.cq.mapVals fun _ e => { e with task := e.task.stand run m }
    queue := l.queue.map (Task.stand run m)
    blocks := l.blocks.mapVals fun r bs => if r != run then bs else bs.map fun b => { b with notes := b.notes.map (SpillNote.stand m) } }

/-- A run whose returning tasks at a key have. -/
def standRun (run : Nat) (m : Key) (r : Run) : Run := { r with returning := r.returning.map fun x => (x.1, x.2.stand run m) }

theorem lodge_giveStanding (s : State) (run : Nat) (m : Key) (tile : Nat) : (s.giveStanding run m).lodge tile = standLodge run m (s.lodge tile) :=
  getD_mapVals s.lodges (fun _ => standLodge run m) tile rfl

theorem run_giveStanding (s : State) (run : Nat) (m : Key) (k : Nat) : (s.giveStanding run m).run k = standRun run m (s.run k) :=
  getD_mapVals s.runs (fun _ => standRun run m) k rfl

theorem laneKept_giveStanding (s : State) (run : Nat) (m : Key) : LaneKept n s (s.giveStanding run m) := by
  have hrun := run_giveStanding s run m n
  refine ⟨rfl, rfl, by rw [hrun]; rfl, by rw [hrun]; rfl, by rw [hrun]; rfl, fun tile j hj => ?_⟩
  rw [lodge_giveStanding, standLodge, get?_mapVals, hj]
  rfl

/-- A Lodge without the counter of a run that the milestone has passed. -/
def passedLodge (run : Nat) (m : Key) (l : Lodge) : Lodge :=
  if (Sparse.getD l.maxTs run 0).toNat < m.ts.toNat then { l with ctr := Sparse.erase l.ctr run, maxTs := Sparse.erase l.maxTs run } else l

theorem passedLodge_cq (run : Nat) (m : Key) (l : Lodge) : (passedLodge run m l).cq = l.cq := by
  unfold passedLodge
  split <;> rfl

theorem lodge_clearCounters (s : State) (run : Nat) (m : Key) (tile : Nat) : (s.clearCounters run m).lodge tile = passedLodge run m (s.lodge tile) :=
  getD_mapVals s.lodges (fun _ => passedLodge run m) tile (by unfold passedLodge; split <;> rfl)

theorem roundKept_clearCounters (s : State) (run : Nat) (m : Key) : RoundKept s (s.clearCounters run m) :=
  ⟨rfl, rfl, rfl, fun tile j hj => by rwa [lodge_clearCounters, passedLodge_cq]⟩

theorem roundKept_abortHolders (s : State) (run : Nat) (m : Key) : RoundKept s (s.abortHolders run m) :=
  roundKept_foldl (fun s _ => roundKept_abort s _ _ _) _ s

theorem roundPart_trap (s : State) (th : Nat) (tr : Trap) : roundPart (s.trap th tr) = roundPart s := by
  unfold State.trap
  split
  · rfl
  · split
    · rfl
    · split <;> rfl

theorem roundPart_resumeEarliest (s : State) (run : Nat) : roundPart (s.resumeEarliest run) = roundPart s := by
  refine foldl_keeps roundPart (fun s x => ?_) _ s
  split
  · rfl
  · split
    · rfl
    · split
      · rfl
      · exact roundPart_trap _ _ _
      · rfl

theorem floor_passEnded (r : Run) (m : Key) : keyRank r.floor ≤ keyRank (r.passEnded m).floor := by
  have hfold : ∀ (l : List (BitVec 64)) (a : Key),
      keyRank a ≤ keyRank (l.foldl (fun f ts => if f.lt ⟨ts, 0⟩ then ⟨ts, 0⟩ else f) a) := fun l => by
    induction l with
    | nil => exact fun _ => Nat.le_refl _
    | cons ts l ih => exact fun a => (rank_max a ⟨ts, 0⟩).1.trans (ih _)
  exact hfold _ _

-- A lane of a broadcast.

/-- The lane of a run once its milestone is set. -/
theorem laneKept_after (s : State) (run : Nat) (m : Key) :
    LaneKept n s ((((s.giveStanding run m).clearCounters run m).abortHolders run m).resumeEarliest run) :=
  (laneKept_giveStanding s run m).trans <| .of_round <| (roundKept_clearCounters _ run m).trans <|
    (roundKept_abortHolders _ run m).trans <| roundKept_of_part (roundPart_resumeEarliest _ run)

/-- A run whose milestone a broadcast sets. -/
def passed (s : State) (n : Nat) (m : Key) : State := s.setRun n { (s.run n).passEnded m with milestone := m }

/-- A lane before its milestone is set: the commits are done. -/
def laneCommitted (s : State) (n : Nat) : State :=
  let v := (s.commits n (s.run n).latched).foldl (fun s x => s.commit x.2.1 x.2.2) s
  v.giveStanding n (v.run n).milestone

theorem laneKept_laneCommitted (s : State) (k : Nat) : LaneKept n s (laneCommitted s k) :=
  (laneKept_foldl (fun s _ => laneKept_commit s _ _) _ s).trans (laneKept_giveStanding _ _ _)

theorem broadcastRun_kept (s : State) (n : Nat) : LaneKept n (passed (laneCommitted s n) n (s.run n).latched) (s.broadcastRun n) :=
  laneKept_after _ _ _

/-- A broadcast of a run: its latched key is its milestone, and what had finished before it has committed (R104, R149). -/
theorem broadcastRun_milestone (s : State) (n : Nat) : ((s.broadcastRun n).run n).milestone = (s.run n).latched := by
  rw [(broadcastRun_kept s n).milestone, passed, run_setRun_same]

theorem broadcastRun_round (s : State) (n : Nat) : (s.broadcastRun n).round = s.round ∧ (s.broadcastRun n).latchCycle = s.latchCycle := by
  have hlane := broadcastRun_kept s n
  have hcommits := laneKept_laneCommitted (n := n) s n
  exact ⟨hlane.round.trans hcommits.round, hlane.latch.trans hcommits.latch⟩

theorem broadcastRun_committed {tile j : Nat} {e : CqEntry} (he : Sparse.get? (s.lodge tile).cq j = some e) (hrun : e.task.run = n)
    (hfinished : e.finished = true) (hmarked : e.marked = true) (hlt : e.task.key.lt (s.run n).latched = true) :
    Committed n tile j e (s.broadcastRun n) := by
  have hcommitted := committed_of_mem (mem_commits he hrun hfinished hmarked hlt) he
  rw [hrun] at hcommitted
  obtain ⟨hgone, hfloor⟩ := hcommitted.kept (u := laneCommitted s n) (laneKept_giveStanding _ _ _)
  refine Committed.kept (s := passed (laneCommitted s n) n (s.run n).latched) ⟨hgone, ?_⟩ (broadcastRun_kept s n)
  rw [passed, run_setRun_same]
  exact hfloor.trans (floor_passEnded _ _)

theorem laneKept_broadcastPreempted (s : State) (n : Nat) : LaneKept n s (s.broadcastPreempted n) :=
  laneKept_foldl (fun s _ => laneKept_commit s _ _) _ s

-- The broadcast.

/-- A queued or sent task at a broadcast (R103). -/
def seenTask (s : State) (t : Task) : Task := if t.unseen = 1 then { t with unseen := if s.takesRound t.run then 0 else 2 } else t

/-- The state in which the lanes take the round. -/
def roundOpened (s : State) : State :=
  { s.countRound with
    latchCycle := none
    rounded := false
    lodges := s.countRound.lodges.mapVals fun _ l => { l with queue := l.queue.map (seenTask s.countRound) }
    sent := s.countRound.sent.map fun x => { x with task := seenTask s.countRound x.task } }

/-- What a round does to one run. -/
def roundOf (s : State) (n : Nat) (r : Run) : State :=
  match r.phase with
  | .resident => if r.resuming then s else s.broadcastRun n
  | .preempting => s.broadcastPreempted n
  | _ => s

theorem countRound_runs (s : State) : s.countRound.runs = s.runs := by
  unfold State.countRound
  split <;> rfl

theorem countRound_lodges (s : State) : s.countRound.lodges = s.lodges := by
  unfold State.countRound
  split <;> rfl

theorem countRound_round (h : s.latchCycle.isSome = true) : s.countRound.round = if s.rounded then s.round else s.round + 1 := by
  unfold State.countRound
  rw [h]
  cases s.rounded <;> rfl

theorem broadcast_none (h : s.latchCycle = none) : s.milestoneBroadcast = s := by
  unfold State.milestoneBroadcast
  rw [h, ite_self]

theorem broadcast_one {c : Nat} {r : Run} (hfatal : s.fatal = false) (hlatch : s.latchCycle = some c) (hruns : s.runs = [(n, r)]) :
    s.milestoneBroadcast = roundOf (roundOpened s) n r := by
  have hopened : (roundOpened s).runs = [(n, r)] := (countRound_runs s).trans hruns
  have hfold : s.milestoneBroadcast = (roundOpened s).runs.foldl (fun s r => roundOf s r.1 r.2) (roundOpened s) := by
    unfold State.milestoneBroadcast
    rw [if_neg (by simp [hfatal]), hlatch]
    rfl
  rw [hfold, hopened]
  rfl

theorem run_roundOpened {r : Run} (hruns : s.runs = [(n, r)]) : (roundOpened s).run n = r := by
  have hopened : (roundOpened s).runs = [(n, r)] := (countRound_runs s).trans hruns
  simp [State.run, hopened, Sparse.getD, Sparse.get?]

theorem lodge_roundOpened (s : State) (tile : Nat) :
    (roundOpened s).lodge tile = { s.lodge tile with queue := (s.lodge tile).queue.map (seenTask s.countRound) } := by
  rw [State.lodge, State.lodge, ← countRound_lodges s]
  exact getD_mapVals s.countRound.lodges (fun _ l => { l with queue := l.queue.map (seenTask s.countRound) }) tile rfl

/-- Every lane ends the round that the latch began. -/
theorem roundOf_round (s : State) (n : Nat) (r : Run) : (roundOf s n r).round = s.round ∧ (roundOf s n r).latchCycle = s.latchCycle := by
  unfold roundOf
  split
  · split
    · exact ⟨rfl, rfl⟩
    · exact broadcastRun_round s n
  · have hlane := laneKept_broadcastPreempted s n
    exact ⟨hlane.round, hlane.latch⟩
  · exact ⟨rfl, rfl⟩

theorem roundOf_held {r : Run} (h : r.phase = .preempting ∨ r.resuming = true) : ((roundOf s n r).run n).milestone = (s.run n).milestone := by
  unfold roundOf
  split
  · next hphase =>
    rw [if_pos (h.resolve_left (by simp [hphase]))]
  · exact (laneKept_broadcastPreempted s n).milestone
  · rfl

theorem roundOf_taken {r : Run} (hphase : r.phase = .resident) (hresuming : r.resuming = false) : roundOf s n r = s.broadcastRun n := by
  rw [roundOf, hphase, if_neg (by simp [hresuming])]

end Sys2Proof.Proofs
end

