-- ==== Sys2Proof/Proofs/LodgeSteps.lean ====
section
/-! O54: a Lodge accepts, dispatches, enters, spills, refills, discards and levels tasks, and a milestone round latches and commits. -/
namespace Sys2Proof.Proofs
open Sys2Proof Sys2Proof.Machine Sys2Proof.Laws

variable {s : State}

-- Acceptance.

/-- One task accepted: its queue, the tasks on their way, and the thread that waited for it. -/
theorem acceptTask_room {n : Nat} {x : Sent} (hfind : s.sent.find? (fun x => x.id == n) = some x)
    (hhold : s.mayHold x.task.launch x.tile = true) (hroom : (s.lodge x.tile).queue.length < 256) (hfatal : s.fatal = false)
    (holdest : ∀ y ∈ s.sent, y.tile = x.tile → n ≤ y.id)
    (hends : ∀ th t i len, x.th = some th → s.thread? th = some t → t.park ≠ .send i len true) :
    let u := s.acceptTask n
    (u.lodge x.tile).queue = (s.lodge x.tile).queue ++ [x.task] ∧ (∀ o, o ≠ x.tile → u.lodge o = s.lodge o) ∧
      u.sent = s.sent.filter (fun y => y.id != n) ∧ s.SameBytes u ∧
      (∀ th t len, x.th = some th → s.thread? th = some t → t.park = .send n len false →
        s.OtherThreads u th ∧ u.thread? th = some { t.advance len with park := .run, lastIssue := s.cycle, remote := [] }) ∧
      (x.th = none → u.threads = s.threads) := by
  have hqueue : ((accepted s n x).lodge x.tile).queue = (s.lodge x.tile).queue ++ [x.task] := queue_enqueue ..
  have hother : ∀ o, o ≠ x.tile → (accepted s n x).lodge o = s.lodge o := fun o ho => lodge_enqueue_other ho _
  by_cases hwait : ∃ th len t, WaitsFor s n x th len t
  · obtain ⟨th, len, t, hw⟩ := hwait
    rw [acceptTask_ends hfind hhold hroom hfatal holdest hw]
    obtain ⟨hth, hslot, hpark⟩ := hw
    refine ⟨hqueue, hother, rfl, sameBytes_of_eq (fun _ _ => rfl) rfl rfl, fun th' t' len' hth' hslot' hpark' => ?_, fun hnone => ?_⟩
    · obtain rfl : th = th' := Option.some.inj (hth.symm.trans hth')
      obtain rfl : t = t' := Option.some.inj (hslot.symm.trans hslot')
      obtain ⟨-, rfl, -⟩ : n = n ∧ len = len' ∧ false = false := by simpa using hpark.symm.trans hpark'
      refine ⟨fun o ho => thread?_setThread_other _ _ _ _ ho, ?_⟩
      rw [State.finish, thread?_setThread, advance_withRemote]
      rfl
    · rw [hnone] at hth
      cases hth
  · have hnot : ∀ th len t, ¬WaitsFor s n x th len t := fun th len t hw => hwait ⟨th, len, t, hw⟩
    rw [acceptTask_alone hfind hhold hroom hfatal holdest hends hnot]
    exact ⟨hqueue, hother, rfl, sameBytes_of_eq (fun _ _ => rfl) rfl rfl,
      fun th t len hth hslot hpark => absurd ⟨hth, hslot, hpark⟩ (hnot th len t), fun _ => rfl⟩

-- Dispatch.

/-- A task started where only Lodges differ: an empty queue, a clear thread with its arguments, and nothing else. -/
theorem started_starts {w : State} {tile : Nat} (hqueue : (w.lodge tile).queue = []) (hthreads : w.threads = s.threads) (hbytes : s.SameBytes w)
    (th : Nat) (e : Option Nat) (k : Task) :
    let u := started w tile th e k
    (u.lodge tile).queue = [] ∧ (u.lodge tile).lastRun = k.run ∧ s.OtherThreads u th ∧ s.SameBytes u ∧
      ∃ x, u.thread? th = some x ∧ x.task = some k ∧ x.entry = e ∧ x.pc = k.func ∧ x.pend = 0 ∧ x.park = .run ∧ x.outs = [] ∧
        x.w = Vector.replicate 32 0 ∧ x.m = Vector.replicate 8 0 ∧ x.p = Vector.replicate 8 false ∧ x.rep.act = false ∧
        (∀ r : GReg, x.getG r = if r.toNat < k.nargs then k.args.getD r.toNat 0 else 0) ∧ x.sr = k.seed := by
  obtain ⟨hq, hlast, hothers, ⟨hb, hc⟩, hthread⟩ := started_rest (s := w) (tile := tile) (th := th) e k
  refine ⟨hq.trans hqueue, hlast, fun o ho => (hothers o ho).trans ?_, ⟨fun pa key => (hb pa key).trans (hbytes.1 pa key),
    fun a => (hc a).trans (hbytes.2 a)⟩, _, hthread, start_clear k e w.cycle⟩
  rw [State.thread?, hthreads, State.thread?]

theorem seqBase_eq (tile : Nat) (t : Task) : s.seqBase tile t =
    Nat.max (Sparse.getD (s.lodge tile).ctr t.run 0) (if t.floor.ts = t.ts then t.floor.tb.toNat / 256 else 0) := by
  simp [State.seqBase, Task.floorSeq]

theorem seqBase_unqueue (tile : Nat) (t : Task) : (s.unqueue tile t).seqBase tile t = s.seqBase tile t := by
  rw [State.seqBase, State.unqueue, lodge_setLodge_same, State.seqBase]

theorem queue_counterUp (tile : Nat) (t : Task) : ((counterUp s tile t).lodge tile).queue = (s.lodge tile).queue := by
  rw [counterUp, lodge_setLodge_same]

theorem ctr_counterUp (tile : Nat) (t : Task) :
    Sparse.get? ((counterUp s tile t).lodge tile).ctr t.run = some ((nextTb s tile t).toNat / 256) := by
  rw [counterUp, lodge_setLodge_same]
  exact get?_set_same ..

theorem ctr_started (tile th : Nat) (e : Option Nat) (k : Task) : ((started s tile th e k).lodge tile).ctr = (s.lodge tile).ctr := by
  rw [lodge_started]
  exact (lodge_withEntryOf e k).2

theorem sameBytes_lodges (ls : Sparse Lodge) : s.SameBytes { s with lodges := ls } := sameBytes_of_eq (fun _ _ => rfl) rfl rfl

theorem milestone_latchedRun (n : Nat) (r : Run) : (latchedRun s n r).milestone = r.milestone := by
  unfold latchedRun
  split <;> rfl

theorem latched_latchedRun (n : Nat) {r : Run} (h : r.phase ≠ .free) : (latchedRun s n r).latched = s.latchKey n := by
  rw [latchedRun, if_neg h]

/-- Settles O54, part by part: the Lodge's steps on its queue, grids and spill area, the two halves of a milestone round, and levelling. -/
theorem lodgeSteps : Obligations.LodgeSteps := by
  unfold Obligations.LodgeSteps
  refine ⟨?accept, ?dispatch, ?grid, ?spill, ?refill, ?discard, ?latch, ?broadcast, ?level⟩
  case accept =>
    intro s n x hfind hhold
    exact ⟨fun hfull => congrArg Host.Outcome.next (acceptTask_full hfind hhold hfull),
      fun hroom hfatal holdest hends => ⟨_, rfl, acceptTask_room hfind hhold hroom hfatal holdest hends⟩⟩
  case dispatch =>
    intro s tile
    refine ⟨fun h => congrArg Host.Outcome.next (dispatch_none h), ?_⟩
    intro th t hfatal hfenced hhalted hawaits hslot hqueue helig hmode starts
    have hone (h : s.dispatchable tile t = true) : exec (.taskDispatch tile) s = .next (s.launchTask tile th t) :=
      congrArg Host.Outcome.next (dispatch_one hfatal hfenced hhalted hawaits hslot hqueue h)
    have hempty : ((s.unqueue tile t).lodge tile).queue = [] := queue_unqueue_one hqueue
    refine ⟨fun hspec => ?_, fun n hspec hfree htb => ?_, fun n hspec hfree htb => ?_⟩
    · have hstep := (hone (dispatchable_assured helig hspec)).trans (congrArg Host.Outcome.next (launchTask_assured hspec hmode))
      exact ⟨_, hstep, started_starts hempty rfl (sameBytes_lodges _) th none (numbered s t)⟩
    · have hstep := (hone (dispatchable_free helig hfree)).trans (congrArg Host.Outcome.next (launchTask_keyed hspec hfree htb hmode))
      obtain ⟨e, hentry, hrest⟩ := entry_started (s := s.unqueue tile t) (tile := tile) (th := th) n (numbered s t)
      refine ⟨_, e, ⟨hstep, started_starts hempty rfl (sameBytes_lodges _) th (some n) (numbered s t)⟩, hentry, ?_⟩
      rwa [State.unqueue, lodge_setLodge_same] at hrest
    · intro base hroom
      have hbase : s.seqBase tile t = base := seqBase_eq tile t
      have hstep := (hone (dispatchable_free helig hfree)).trans
        (congrArg Host.Outcome.next (launchTask_unkeyed hspec hfree htb hmode (hbase ▸ hroom)))
      have htb' : nextTb (s.unqueue tile t) tile t = BitVec.ofNat 32 ((base + 1) * 256 + tile) := by rw [nextTb, seqBase_unqueue, hbase]
      rw [htb'] at hstep
      refine ⟨_, ⟨hstep, started_starts ((queue_counterUp tile t).trans hempty) rfl (sameBytes_lodges _) th (some n) (numbered s _)⟩, ?_⟩
      rw [ctr_started, ctr_counterUp, htb']
  case grid =>
    intro s tile g rest d0 d1 d2 hgrids hdims hext hsub hhold
    refine ⟨fun hfull => congrArg Host.Outcome.next (gridEnter_full hfull), fun hroom hfatal henters => ?_⟩
    have hident := gridIdent_three hdims hext hsub g.next
    refine ⟨_, g.task, congrArg Host.Outcome.next (gridEnter_first hgrids hhold hroom hfatal henters), ?_, rfl, rfl, rfl, rfl, rfl, rfl, rfl, rfl,
      ?_, ?_, fun o ho => ?_, rfl, sameBytes_lodges _⟩
    · rw [queue_enqueue, lodge_setLodge_same]
    · rw [State.enqueue, lodge_setLodge_same, lodge_setLodge_same]
      exact advanceShare_head g rest
    · show (g.task.ident.gidx = _ ∧ g.task.ident.gdim = _ ∧ g.task.ident.org = _ ∧ g.task.ident.ext = _)
      rw [show g.task.ident = _ from hident]
      exact ⟨rfl, rfl, rfl, rfl⟩
    · rw [lodge_enqueue_other ho, lodge_setLodge_other _ ho]
  case spill =>
    intro s tile run
    refine ⟨fun h => congrArg Host.Outcome.next (spill_none h), fun hmany hfatal hfault hmost => ?_⟩
    intro ts
    refine ⟨fun hnone => ?_, fun v hsome hfree hwrite => ?_⟩
    · obtain ⟨r, hrecords, hcause, hagent⟩ := spillOverflow_record (s := s) (tile := tile) (run := run)
      obtain ⟨hset, hqueue, hreg, hbytes⟩ := spillOverflow_rest (s := s) (tile := tile) (run := run)
      exact ⟨_, r, congrArg Host.Outcome.next (spill_most hmany hfatal hfault hmost (spillTasks_noBlock hnone _)), hset, hreg, hrecords, hcause,
        hagent, hqueue, hbytes⟩
    · obtain ⟨u, hspill, hblocks, hqueue, hbytes⟩ := spillTasks_first hsome hfree hwrite
      refine ⟨u, spilledBlock 0 ts, congrArg Host.Outcome.next (spill_most hmany hfatal hfault hmost hspill), hblocks, rfl, List.length_map _,
        fun n hn => ?_, hqueue, hbytes⟩
      obtain ⟨t, ht, rfl⟩ := List.mem_map.1 hn
      exact ⟨t, ht, rfl⟩
  case refill =>
    intro s tile
    refine ⟨fun hblocks hspblk => congrArg Host.Outcome.next (refill_none hblocks hspblk), ?_⟩
    intro run b recs v x hfatal hfault hspblk hblocks hrun hlive hroom hwants hread hclear hdiscards hhold hnot
    obtain ⟨u, hrefill, hrest⟩ := refillBlock_live hread hclear hdiscards hhold hnot
    exact ⟨u, congrArg Host.Outcome.next (refill_one hfatal hfault hspblk hblocks hrun hlive hroom hwants hrefill), hrest⟩
  case discard =>
    intro s tile id hblocks hcq hnew
    have hlodge : (discarded s tile id).lodge tile = _ := lodge_setLodge_same ..
    have hother : ∀ o, o ≠ tile → (discarded s tile id).lodge o = s.lodge o := fun o ho => lodge_setLodge_other _ ho _
    rcases discard_quiet hblocks hcq hnew with h | h
    · refine ⟨_, congrArg Host.Outcome.next h, ?_, ?_, ?_, rfl, hother, rfl, sameBytes_of_eq (fun _ _ => rfl) rfl rfl⟩
      · rw [hlodge]
      · rw [hlodge]
      · rw [hlodge]
    · refine ⟨_, congrArg Host.Outcome.next h, ?_, ?_, ?_, rfl, fun o ho => ?_, rfl, sameBytes_of_eq (fun _ _ => rfl) rfl rfl⟩
      · rw [settled, lodge_setLodge_same, hlodge]
      · rw [settled, lodge_setLodge_same, hlodge]
      · rw [settled, lodge_setLodge_same, hlodge]
      · rw [settled, lodge_setLodge_other _ ho, hother o ho]
  case latch =>
    intro s hfatal
    refine ⟨_, congrArg Host.Outcome.next (milestoneLatch_eq hfatal), rfl, rfl, rfl, sameBytes_of_eq (fun _ _ => rfl) rfl rfl, fun n r hr => ?_,
      fun tile j e he => entry_latched he⟩
    rw [run_latched hr]
    refine ⟨milestone_latchedRun n r, fun hphase => ?_⟩
    rw [latched_latchedRun n hphase]
    exact ⟨fun x hx hfenced t ht hrun => (lt_false_iff_rank _ _).2 (latchKey_le_queued hx hfenced ht hrun),
      fun x hx hfenced t ht hrun => (lt_false_iff_rank _ _).2 (latchKey_le_thread hx hfenced ht hrun),
      fun x hx hrun => (lt_false_iff_rank _ _).2 (latchKey_le_sent hx hrun),
      fun x hx hfenced e he hrun hfinished hcycle => (lt_false_iff_rank _ _).2 (latchKey_le_finishing hx hfenced he hrun hfinished hcycle)⟩
  case broadcast =>
    intro s
    refine ⟨fun h => congrArg Host.Outcome.next (broadcast_none h), fun c n r hfatal hlatch hruns => ?_⟩
    have hrun : (roundOpened s).run n = r := run_roundOpened hruns
    obtain ⟨hround, hended⟩ := roundOf_round (roundOpened s) n r
    refine ⟨_, congrArg Host.Outcome.next (broadcast_one hfatal hlatch hruns), hended, ?_, fun hheld => ?_, fun hphase hresuming => ?_⟩
    · exact hround.trans (countRound_round (by rw [hlatch]; rfl))
    · rw [roundOf_held hheld, hrun]
    · rw [roundOf_taken hphase hresuming]
      refine ⟨by rw [broadcastRun_milestone, hrun], fun tile j e he hn hfinished hmarked hlt => ?_⟩
      obtain ⟨hgone, hfloor⟩ := broadcastRun_committed (s := roundOpened s) (by rwa [lodge_roundOpened]) hn hfinished hmarked (by rwa [hrun])
      exact ⟨hgone, (lt_false_iff_rank _ _).2 hfloor⟩
  case level =>
    intro s
    refine ⟨fun h => congrArg Host.Outcome.next (loadBalance_off h), ?_⟩
    intro l hon hlodges hsent hmovable hlimit hsome moved
    have hmove := loadBalance_alone hlodges hon (fun t ht => by
      obtain ⟨hhint, hparent, hkey, hhold⟩ := hmovable t ht
      exact ⟨movable_plain hhint hparent hkey, hhold⟩) hlimit hsome
    obtain ⟨hzero, hreset⟩ := lodge_alone hlodges
    have hone : s.lodge 1 = Lodge.reset := hreset 1 (by decide)
    have hlen : moved.length ≤ 32 := (List.length_take_le _ _).trans (Nat.min_le_left _ _)
    have hroom : (s.lodge 1).queue.length + moved.length ≤ 256 := by
      rw [hone]
      show 0 + moved.length ≤ 256
      omega
    obtain ⟨hq0, hq1, hother, hrest⟩ := moveTasks_room moved s hsent hroom
    refine ⟨_, congrArg Host.Outcome.next hmove, by rw [hq1, hone]; rfl, by rw [hq0, hzero], hother, hrest, ?_⟩
    rw [hrest]
    exact sameBytes_lodges _

end Sys2Proof.Proofs
end

