-- ==== Sys2Proof/Proofs/FetchChecks.lean ====
section
/-! Fetch (R291, R293): what the checks of the instruction at PC answer, once its block is at hand, and the trap of one that passes the
end of its block. -/
namespace Sys2Proof.Proofs
open Sys2Proof Sys2Proof.Machine Sys2Proof.Laws

-- The block that a thread keeps.

theorem pc_keepBlock (t : Thread) (base : Nat) (v : BitVec 256) : (t.keepBlock base v).pc = t.pc := by
  unfold Thread.keepBlock
  split_ifs <;> rfl

theorem who_keepBlock (t : Thread) (base : Nat) (v : BitVec 256) (th : Nat) : (t.keepBlock base v).who th = t.who th := by
  unfold Thread.keepBlock
  split_ifs <;> rfl

theorem fetchxTrap_keepBlock (s : State) (th : Nat) (t : Thread) (base : Nat) (v w : BitVec 256) :
    s.fetchxTrap th (t.keepBlock base v) w = s.fetchxTrap th t w := by
  unfold State.fetchxTrap
  rw [pc_keepBlock, who_keepBlock]

-- The length of an instruction (R290).

/-- FETCHX read off the block as a number. -/
theorem fetchx_iff (v : BitVec 256) (off : Nat) :
    let code := v.toNat / 2 ^ (8 * off) % 4
    fetchx v off = true ↔ code = 3 ∨ 32 < off + (if code = 0 then 8 else if code = 1 then 12 else 16) := by
  intro code
  have hlen : lenAt v off = lenBytes (BitVec.ofNat 2 code) := by
    rw [lenAt]
    congr 1
    apply BitVec.eq_of_toNat_eq
    simp [code, Nat.shiftRight_eq_div_pow]
  have hcode : code < 4 := Nat.mod_lt _ (by decide)
  rw [fetchx, hlen]
  clear_value code
  interval_cases code <;> simp [lenBytes]

-- The checks, in their order (R293).

/-- What the bits of an instruction decide once its block is at hand: FETCHX, then ILLOP. -/
def checkedAt (s : State) (th : Nat) (t : Thread) (v : BitVec 256) : Ready :=
  if fetchx v (t.pc.toNat % 32) then .trap (s.fetchxTrap th t v) s
  else match decode (instrBytes v (t.pc.toNat % 32)) with
    | .ok (i, _) => if (s.thread? th).isNone then .wait s else .run i s
    | .error _ => .trap (.plain .illop) s

section
variable {s : State} {th : Nat} {t : Thread}

theorem checkedAt_crosses {v : BitVec 256} (h : fetchx v (t.pc.toNat % 32) = true) :
    checkedAt s th t v = .trap (s.fetchxTrap th t v) s := if_pos h

theorem checkedAt_undefined {v : BitVec 256} (h : fetchx v (t.pc.toNat % 32) = false) {e : Reject}
    (hdecode : decode (instrBytes v (t.pc.toNat % 32)) = .error e) : checkedAt s th t v = .trap (.plain .illop) s := by
  rw [checkedAt, h, hdecode]
  simp

theorem fetch_unaligned (h : t.pc.toNat % 4 ≠ 0 ∨ t.badFunc = true) : s.fetch th t = .trap (.at .align .fetch t.pc.toNat) s := by
  unfold State.fetch
  rw [if_pos (by simpa using h)]

/-- With the block at hand the thread keeps it, and its checks follow. -/
theorem fetch_atBlock (halign : t.pc.toNat % 4 = 0) (hfunc : t.badFunc = false) (hslot : s.thread? th = some t) {v : BitVec 256}
    (hblock : t.blockAt (blockBase t.pc) = some v) :
    s.fetch th t = checkedAt (s.setThread th (t.keepBlock (blockBase t.pc) v)) th t v := by
  have hfor : s.blockFor th t (blockBase t.pc) = .block v s := by
    unfold State.blockFor
    rw [hblock]
  have hkeep : (s.onThread th fun t => { t.keepBlock (blockBase t.pc) v with
      remote := (t.keepBlock (blockBase t.pc) v).remote.filter fun r =>
        r.1 != blockBase t.pc / 2 ^ 16 || (s.thread? th).any fun u => (u.blockAt (blockBase t.pc)).isSome }) =
      s.setThread th (t.keepBlock (blockBase t.pc) v) := by
    rw [onThread_eq _ _ _ _ hslot, hslot]
    simp [hblock]
  rw [onThread_eq _ _ _ _ hslot] at hkeep
  unfold State.fetch
  rw [if_neg (by simp [halign, hfunc])]
  dsimp only
  rw [hfor]
  dsimp only
  rw [onThread_eq _ _ _ _ hslot, hkeep]
  rfl

/-- A fetch that traps ends the issue: nothing is executed. -/
theorem step_fetchTraps {s : State} {moves : List Move} {x : Trap} {u : State} (hagenda : s.agenda = .issue th :: moves)
    (hcan : ({ s with agenda := moves, focus := th } : State).canIssue th = true) (hslot : s.thread? th = some t)
    (hends : t.ending = false) (hfetch : ({ s with agenda := moves, focus := th } : State).fetch th t = .trap x u) :
    step s = .next ((u.trap th x).stepped th) := by
  have hslot0 : ({ s with agenda := moves, focus := th } : State).thread? th = some t := hslot
  unfold step
  rw [hagenda]
  dsimp only [State.move, issueThread]
  rw [if_neg (by simp [hcan]), hslot0]
  dsimp only
  rw [if_neg (by simp [hends]), hfetch]

end

-- The trap of an instruction that passes the end of its block (R161).

theorem fetchxTrap_fields (s : State) (th : Nat) (t : Thread) (v : BitVec 256) :
    let x := s.fetchxTrap th t v
    x.cause = .fetchx ∧ x.va = 0 ∧ x.pa = none ∧ x.detail = 0 := by
  unfold State.fetchxTrap
  dsimp only
  split <;> exact ⟨rfl, rfl, rfl, rfl⟩

theorem fetchxTrap_whole (s : State) (th : Nat) {t : Thread} (v : BitVec 256) (h : t.pc.toNat % 32 ≤ 24) :
    s.fetchxTrap th t v = .plain .fetchx := if_pos h

/-- The low n bytes of WORD, of a block that ends n bytes on, are what the block holds there. -/
theorem low_bytes {x n rest : Nat} (hn : n ≤ 8) (hx : x < 2 ^ (8 * n)) :
    (BitVec.ofNat 64 (x % 2 ^ 64 % 2 ^ (8 * n) + 2 ^ (8 * n) * rest)).toNat % 2 ^ (8 * n) = x := by
  have hdvd : 2 ^ (8 * n) ∣ 2 ^ 64 := Nat.pow_dvd_pow 2 (by omega)
  rw [BitVec.toNat_ofNat, Nat.mod_mod_of_dvd _ hdvd, Nat.add_mul_mod_self_left, Nat.mod_mod, Nat.mod_mod_of_dvd _ hdvd,
    Nat.mod_eq_of_lt hx]

theorem fetchxTrap_word (s : State) (th : Nat) (t : Thread) (v : BitVec 256) {y : BitVec 64} (hy : (s.fetchxTrap th t v).word = some y) :
    y.toNat % 2 ^ (8 * (32 - t.pc.toNat % 32)) = v.toNat / 2 ^ (8 * (t.pc.toNat % 32)) := by
  have hoff : t.pc.toNat % 32 < 32 := Nat.mod_lt _ (by decide)
  unfold State.fetchxTrap at hy
  generalize t.pc.toNat % 32 = off at hy hoff ⊢
  dsimp only at hy
  split at hy
  · cases hy
  · have hlow : ((v >>> (8 * off)).setWidth 64).toNat = v.toNat / 2 ^ (8 * off) % 2 ^ 64 := by
      simp [Nat.shiftRight_eq_div_pow]
    have hx : v.toNat / 2 ^ (8 * off) < 2 ^ (8 * (32 - off)) := by
      rw [Nat.div_lt_iff_lt_mul (Nat.two_pow_pos _), ← Nat.pow_add, show 8 * (32 - off) + 8 * off = 256 by omega]
      exact v.isLt
    rw [← Option.some.inj hy, hlow]
    exact low_bytes (by omega) hx

/-- Settles O5, check by check: alignment before the block, its length rule before the encoding. -/
theorem fetchChecks : Obligations.FetchChecks := by
  unfold Obligations.FetchChecks
  intro s th moves t v hagenda s0 base off s2 code crosses hcan hslot hends unaligned
  have hbad : t.badFunc = true ↔ t.pc.toNat % 8 ≠ 0 ∧ ∃ k, t.task = some k ∧ k.func = t.pc := by
    unfold Thread.badFunc
    cases t.task <;> simp
  have hcrosses : fetchx v off = true ↔ crosses := fetchx_iff v off
  refine ⟨fun hun => ?_, fun hal hblock => ?_⟩
  · exact step_fetchTraps hagenda hcan hslot hends (fetch_unaligned (hun.imp_right hbad.2))
  · obtain ⟨halign, hfunc⟩ := not_or.1 hal
    have hfetch : s0.fetch th t = _ :=
      fetch_atBlock (not_not.1 halign) (Bool.eq_false_iff.2 (mt hbad.1 hfunc)) hslot hblock
    refine ⟨fun hc => ?_, fun hc e he => ?_⟩
    · intro x
      rw [checkedAt_crosses (hcrosses.2 hc), ← fetchxTrap_keepBlock] at hfetch
      have hpc : (t.keepBlock base v).pc = t.pc := pc_keepBlock ..
      obtain ⟨hcause, hva, hpa, hdetail⟩ := fetchxTrap_fields s2 th (t.keepBlock base v) v
      refine ⟨step_fetchTraps hagenda hcan hslot hends hfetch, hcause, hva, hpa, hdetail, fun hoff => ?_, fun y hy => ?_⟩
      · exact fetchxTrap_whole s2 th v (by rwa [hpc])
      · simpa only [hpc] using fetchxTrap_word s2 th (t.keepBlock base v) v hy
    · rw [checkedAt_undefined (Bool.eq_false_iff.2 (mt hcrosses.1 hc)) he] at hfetch
      exact step_fetchTraps hagenda hcan hslot hends hfetch

end Sys2Proof.Proofs
end

