-- ==== Sys2Proof/Proofs/Marks.lean ====
section
/-! The marks of speculative state at the homes (R135, R141): what an entry of a directory reads as after one is written, what marking
and unmarking a tile does to a line's marks, and the probes that clear them. -/
namespace Sys2Proof.Proofs
open Sys2Proof Sys2Proof.Machine Sys2Proof.Laws

-- What the directories change of the state.

/-- The state without the caches and directories. -/
def beyondCoh (s : State) : State := { s with coh := State.reset.coh }

section
variable (s : State)

@[simp] theorem beyondCoh_ite (c : Prop) [Decidable c] (a b : State) :
    beyondCoh (if c then a else b) = if c then beyondCoh a else beyondCoh b := apply_ite ..
@[simp] theorem beyondCoh_setL2 (e : L2Entry) : beyondCoh (s.setL2 e) = beyondCoh s := rfl
@[simp] theorem beyondCoh_setL3 (e : L3Entry) : beyondCoh (s.setL3 e) = beyondCoh s := rfl
@[simp] theorem beyondCoh_setSf (l : Nat) (t : Option Ty) : beyondCoh (s.setSf l t) = beyondCoh s := rfl
@[simp] theorem beyondCoh_followHw (e : L3Entry) : beyondCoh (s.followHw e) = beyondCoh s := rfl
@[simp] theorem beyondCoh_clearSf (l : Nat) : beyondCoh (s.clearSf l) = beyondCoh s := by simp [State.clearSf]
@[simp] theorem beyondCoh_settleL3 (e : L3Entry) : beyondCoh (s.settleL3 e) = beyondCoh s := by simp [State.settleL3]
@[simp] theorem beyondCoh_settle (l : Nat) : beyondCoh (s.settle l) = beyondCoh s := by simp [State.settle]
@[simp] theorem beyondCoh_syncDie (d l : Nat) : beyondCoh (s.syncDie d l) = beyondCoh s := by
  unfold State.syncDie
  split <;> simp
@[simp] theorem beyondCoh_unmarkDie (d l : Nat) : beyondCoh (s.unmarkDie d l) = beyondCoh s := by simp [State.unmarkDie]
@[simp] theorem beyondCoh_unmark (t l : Nat) : beyondCoh (s.unmark t l) = beyondCoh s := by
  simp only [State.unmark]
  split <;> simp
end

section
variable {s u : State} (h : beyondCoh u = beyondCoh s)
include h

theorem eq_of_beyondCoh : u = { s with coh := u.coh } := by
  have hcoh : ({ beyondCoh u with coh := u.coh } : State) = { beyondCoh s with coh := u.coh } := by rw [h]
  exact hcoh

theorem lodges_of_beyondCoh : u.lodges = s.lodges := by
  rw [eq_of_beyondCoh h]

theorem sameBytes_of_beyondCoh : s.SameBytes u := by
  rw [eq_of_beyondCoh h]
  exact sameBytes_of_eq (fun _ _ => rfl) rfl rfl

theorem tileMatches_of_beyondCoh (tile run line : Nat) : u.tileMatches tile run line = s.tileMatches tile run line := by
  rw [State.tileMatches, State.tileMatches, State.lodge, State.lodge, lodges_of_beyondCoh h]
end

-- Directory entries.

section
variable {s : State}

theorem find?_replace {α : Type} (p : α → Bool) (l : List α) {e : α} (he : p e = true) :
    (if l.any p then l.map fun x => if p x then e else x else l ++ [e]).find? p = some e := by
  split
  next h =>
    obtain ⟨x, hx, hp⟩ := List.any_eq_true.1 h
    cases hf : (l.map fun x => if p x then e else x).find? p with
    | none =>
      have := List.find?_eq_none.1 hf e (List.mem_map.2 ⟨x, hx, if_pos hp⟩)
      exact absurd he this
    | some y =>
      obtain ⟨z, -, rfl⟩ := List.mem_map.1 (List.mem_of_find?_eq_some hf)
      have hy : p (if p z then e else z) = true := List.find?_some (p := p) hf
      split at hy
      · simp [*]
      · contradiction
  next h =>
    have hnone : l.find? p = none := List.find?_eq_none.2 fun x hx hp => h (List.any_eq_true.2 ⟨x, hx, hp⟩)
    simp [List.find?_append, hnone, he]

theorem find?_replace_other {α : Type} (p q : α → Bool) (l : List α) {e : α} (he : q e = false) (hq : ∀ x, p x = true → q x = false) :
    (if l.any p then l.map fun x => if p x then e else x else l ++ [e]).find? q = l.find? q := by
  split
  next h =>
    clear h
    induction l with
    | nil => rfl
    | cons x l ih =>
      rw [List.map_cons, List.find?_cons, List.find?_cons, ih]
      by_cases hx : p x = true
      · rw [if_pos hx, he, hq x hx]
      · rw [if_neg hx]
  next => simp [List.find?_append, he]

theorem l3?_setL3_same (s : State) {e : L3Entry} {line : Nat} (hline : e.line = line) : (s.setL3 e).l3? line = some e := by
  subst hline
  exact find?_replace (fun x : L3Entry => x.line == e.line) s.coh.l3 (beq_self_eq_true _)

theorem l3?_setL3_other (s : State) (e : L3Entry) {o : Nat} (h : o ≠ e.line) : (s.setL3 e).l3? o = s.l3? o :=
  find?_replace_other (fun x : L3Entry => x.line == e.line) (fun x => x.line == o) s.coh.l3 (by simpa using h.symm)
    (fun x hx => by simp at hx; simpa [hx] using h.symm)

theorem l2?_setL2_same (s : State) {e : L2Entry} {die line : Nat} (hdie : e.die = die) (hline : e.line = line) :
    (s.setL2 e).l2? die line = some e := by
  subst hdie hline
  exact find?_replace (fun x : L2Entry => x.die == e.die && x.line == e.line) s.coh.l2 (by simp)

theorem l2?_setL2_other (s : State) (e : L2Entry) {d o : Nat} (h : ¬(d = e.die ∧ o = e.line)) : (s.setL2 e).l2? d o = s.l2? d o := by
  have hne : ∀ x : L2Entry, x.die = e.die → x.line = e.line → (x.die == d && x.line == o) = false := fun x hd hl => by
    by_contra hx
    simp only [Bool.not_eq_false, Bool.and_eq_true, beq_iff_eq] at hx
    exact h ⟨hx.1.symm.trans hd, hx.2.symm.trans hl⟩
  refine find?_replace_other (fun x : L2Entry => x.die == e.die && x.line == e.line) (fun x => x.die == d && x.line == o) s.coh.l2
    (hne e rfl rfl) fun x hx => ?_
  simp only [Bool.and_eq_true, beq_iff_eq] at hx
  exact hne x hx.1 hx.2

theorem line_l3 (s : State) (line : Nat) : (s.l3 line).line = line := by
  unfold State.l3
  cases h : s.l3? line with
  | none => rfl
  | some e => simpa using List.find?_some h

theorem die_line_of_l2? {s : State} {die line : Nat} {e : L2Entry} (h : s.l2? die line = some e) : e.die = die ∧ e.line = line := by
  simpa using List.find?_some h

theorem die_line_l2 (s : State) (die line : Nat) : (s.l2 die line).die = die ∧ (s.l2 die line).line = line := by
  unfold State.l2
  cases h : s.l2? die line with
  | none => exact ⟨rfl, rfl⟩
  | some e => exact die_line_of_l2? h

theorem l2_of_l2? {die line : Nat} {e : L2Entry} (h : s.l2? die line = some e) : s.l2 die line = e := by
  rw [State.l2, h]
  rfl

theorem l3_of_l3? {line : Nat} {e : L3Entry} (h : s.l3? line = some e) : s.l3 line = e := by
  rw [State.l3, h]
  rfl

-- Marks.

/-- The marks of a line at the L2 home of a die: of its writers and of its readers. -/
def marks (s : State) (die line : Nat) : BitVec 64 × BitVec 64 := ((s.l2 die line).swm, (s.l2 die line).srm)

theorem marks_eq (s : State) (die line : Nat) :
    marks s die line = match s.l2? die line with | some e => (e.swm, e.srm) | none => (0, 0) := by
  unfold marks State.l2
  cases s.l2? die line <;> rfl

theorem marks_some {die line : Nat} {e : L2Entry} (h : s.l2? die line = some e) : marks s die line = (e.swm, e.srm) := by
  rw [marks_eq, h]

theorem marks_of_l2? {s u : State} {die line : Nat} (h : u.l2? die line = s.l2? die line) : marks u die line = marks s die line := by
  rw [marks_eq, marks_eq, h]

/-- A change of other fields in every entry leaves the marks. -/
theorem marks_map {s u : State} {f : L2Entry → L2Entry} (h : u.coh.l2 = s.coh.l2.map f)
    (hf : ∀ e, (f e).die = e.die ∧ (f e).line = e.line ∧ (f e).swm = e.swm ∧ (f e).srm = e.srm) (die line : Nat) :
    marks u die line = marks s die line := by
  have hp : ((fun e : L2Entry => e.die == die && e.line == line) ∘ f) = fun e => e.die == die && e.line == line := by
    funext e
    obtain ⟨hdie, hline, -, -⟩ := hf e
    simp [hdie, hline]
  have hfind : u.l2? die line = (s.l2? die line).map f := by
    rw [State.l2?, h, List.find?_map, hp, State.l2?]
  rw [marks_eq, marks_eq, hfind]
  cases s.l2? die line with
  | none => rfl
  | some e =>
    obtain ⟨-, -, hswm, hsrm⟩ := hf e
    simp [hswm, hsrm]

theorem marks_setSf (s : State) (l : Nat) (t : Option Ty) (die line : Nat) : marks (s.setSf l t) die line = marks s die line :=
  marks_map rfl (fun e => by split <;> exact ⟨rfl, rfl, rfl, rfl⟩) die line

theorem marks_settleL3 (s : State) (e : L3Entry) (die line : Nat) : marks (s.settleL3 e) die line = marks s die line := by
  have hhw : marks (s.followHw e) die line = marks s die line :=
    marks_map rfl (fun e => by split <;> exact ⟨rfl, rfl, rfl, rfl⟩) die line
  unfold State.settleL3 State.clearSf
  dsimp only
  split
  · exact hhw
  · rw [marks_setSf, hhw]

theorem marks_unmarkDie (s : State) (d l die line : Nat) : marks (s.unmarkDie d l) die line = marks s die line := by
  unfold State.unmarkDie
  dsimp only
  split
  · rfl
  · exact marks_settleL3 ..

/-- An L2 home's entry without the marks of a tile. -/
def clearedL2 (e : L2Entry) (tile : Nat) : L2Entry :=
  { e with swm := e.swm &&& ~~~(1#64 <<< (tile % 64)), srm := e.srm &&& ~~~(1#64 <<< (tile % 64)) }

theorem marks_unmark_some {tile line : Nat} {e : L2Entry} (h : s.l2? (tile / 64) line = some e) (die : Nat) :
    marks (s.unmark tile line) die line = marks (s.setL2 (clearedL2 e tile)) die line := by
  unfold State.unmark
  dsimp only [dieOfTile]
  rw [h]
  exact marks_unmarkDie ..

theorem unmark_none {tile line : Nat} (h : s.l2? (tile / 64) line = none) : s.unmark tile line = s := by
  unfold State.unmark
  dsimp only [dieOfTile]
  rw [h]

/-- Unmarking a tile clears its two bits. -/
theorem marks_unmark_same (s : State) (tile line : Nat) :
    marks (s.unmark tile line) (tile / 64) line =
      ((marks s (tile / 64) line).1 &&& ~~~(1#64 <<< (tile % 64)), (marks s (tile / 64) line).2 &&& ~~~(1#64 <<< (tile % 64))) := by
  cases h : s.l2? (tile / 64) line with
  | none => simp [unmark_none h, marks_eq s, h]
  | some e =>
    obtain ⟨hdie, hline⟩ := die_line_of_l2? h
    rw [marks_unmark_some h, marks_some h, marks_some (l2?_setL2_same s (e := clearedL2 e tile) hdie hline)]
    rfl

theorem marks_unmark_other (s : State) {tile die : Nat} (hd : die ≠ tile / 64) (line : Nat) :
    marks (s.unmark tile line) die line = marks s die line := by
  cases h : s.l2? (tile / 64) line with
  | none => rw [unmark_none h]
  | some e =>
    obtain ⟨hdie, -⟩ := die_line_of_l2? h
    rw [marks_unmark_some h]
    exact marks_of_l2? (l2?_setL2_other s (clearedL2 e tile) fun hx => hd (hx.1.trans hdie))

/-- Whether a tile is marked on a line, for its writes and for its reads. -/
def marked (s : State) (t line : Nat) : Bool × Bool :=
  ((marks s (t / 64) line).1.getLsbD (t % 64), (marks s (t / 64) line).2.getLsbD (t % 64))

theorem marked_unmark (s : State) (tile line t : Nat) :
    marked (s.unmark tile line) t line = if t = tile then (false, false) else marked s t line := by
  unfold marked
  have hbit : t % 64 < 64 := Nat.mod_lt _ (by decide)
  by_cases hd : t / 64 = tile / 64
  · rw [hd, marks_unmark_same]
    by_cases ht : t = tile
    · simp [ht]
    · have hne : t % 64 ≠ tile % 64 := by omega
      have hkept : (~~~(1#64 <<< (tile % 64))).getLsbD (t % 64) = true := by
        simp [hbit]
        omega
      simp [ht, hkept]
  · have ht : t ≠ tile := fun e => hd (by rw [e])
    rw [marks_unmark_other s hd, if_neg ht]

theorem marked_unmarkDie (s : State) (d l t line : Nat) : marked (s.unmarkDie d l) t line = marked s t line := by
  rw [marked, marked, marks_unmarkDie]

-- A home marks a tile (R135).

/-- An L2 home's entry with a tile marked as a reader of a run. -/
def readerL2 (e : L2Entry) (tile run : Nat) : L2Entry := { e with srm := e.srm ||| (1#64 <<< (tile % 64)), srun := run }

/-- The L3 home's entry with the tile's die marked so. -/
def readerL3 (e : L3Entry) (tile run : Nat) : L3Entry := { e with srm := e.srm ||| (1#4 <<< (tile / 64)), srun := run }

theorem markSpec_eq (tile run line : Nat) (hl3 : s.roomL3 line = s) (hl2 : s.roomL2 (tile / 64) line = s) :
    s.markSpec tile run line false =
      (s.setL2 (readerL2 (s.l2 (tile / 64) line) tile run)).setL3 (readerL3 (s.l3 line) tile run) := by
  unfold State.markSpec
  rw [hl3]
  dsimp only [dieOfTile]
  rw [hl2]
  rfl

-- Probes without effect on tasks (R141).

/-- A tile that answers no-match loses its marks. -/
def answer (run line : Nat) (s : State) (t : Nat) : State := if s.tileMatches t run line then s else s.unmark t line

theorem beyondCoh_answer (run line : Nat) (s : State) (t : Nat) : beyondCoh (answer run line s t) = beyondCoh s := by simp [answer]

theorem marked_answer (run line : Nat) (s : State) (tile t : Nat) : marked (answer run line s tile) t line =
    if t = tile ∧ s.tileMatches t run line = false then (false, false) else marked s t line := by
  unfold answer
  split
  next h =>
    rw [if_neg]
    rintro ⟨rfl, hno⟩
    rw [h] at hno
    cases hno
  next h =>
    rw [marked_unmark]
    by_cases ht : t = tile
    · subst ht
      simp [h]
    · simp [ht]

theorem marked_answers (run line t : Nat) (l : List Nat) (s : State) : marked (l.foldl (answer run line) s) t line =
    if t ∈ l ∧ s.tileMatches t run line = false then (false, false) else marked s t line := by
  induction l generalizing s with
  | nil => simp
  | cons x l ih =>
    rw [List.foldl_cons, ih, tileMatches_of_beyondCoh (beyondCoh_answer run line s x), marked_answer]
    cases s.tileMatches t run line with
    | true => simp
    | false => by_cases hx : t = x <;> simp [hx]

theorem mem_markedTiles {t line : Nat} (h : marked s t line ≠ (false, false)) : t ∈ s.markedTiles line false := by
  unfold marked at h
  rw [marks_eq] at h
  cases he : s.l2? (t / 64) line with
  | none => simp [he] at h
  | some e =>
    obtain ⟨hdie, hline⟩ := die_line_of_l2? he
    rw [he] at h
    have hbits : (e.swm.getLsbD (t % 64) || e.srm.getLsbD (t % 64)) = true := by
      by_contra hnone
      simp only [Bool.not_eq_true, Bool.or_eq_false_iff] at hnone
      exact h (by rw [hnone.1, hnone.2])
    refine List.mem_flatMap.2 ⟨e, List.mem_filter.2 ⟨List.mem_of_find?_eq_some he, by simp [hline]⟩, List.mem_map.2 ⟨t % 64, ?_, ?_⟩⟩
    · exact List.mem_filter.2 ⟨List.mem_range.2 (Nat.mod_lt _ (by decide)), by simpa using hbits⟩
    · rw [hdie]
      omega

/-- The home forgets the marks of a die whose tiles all answer no-match. -/
def forgetDie (line run : Nat) (s : State) (d : Nat) : State :=
  if s.lodges.any fun l => dieOfTile l.1 == d && s.tileMatches l.1 run line then s else s.unmarkDie d line

theorem beyondCoh_forgetDie (line run : Nat) (s : State) (d : Nat) : beyondCoh (forgetDie line run s d) = beyondCoh s := by
  simp [forgetDie]

theorem marked_forgetDie (line run : Nat) (s : State) (d t : Nat) : marked (forgetDie line run s d) t line = marked s t line := by
  unfold forgetDie
  split
  · rfl
  · exact marked_unmarkDie ..

/-- The tiles a home hears from where the line carries a run's marks. -/
def answered (s : State) (line : Nat) : State :=
  match s.markRun line with
  | none => s
  | some run => (s.markedTiles line false).foldl (answer run line) s

theorem reprobe_eq (s : State) (line : Nat) : s.reprobe line =
    ((answered s line).l3 line).markedDies.foldl (forgetDie line ((answered s line).l3 line).srun) (answered s line) := by
  unfold State.reprobe answered
  cases s.markRun line <;> rfl

theorem beyondCoh_answered (s : State) (line : Nat) : beyondCoh (answered s line) = beyondCoh s := by
  unfold answered
  split
  · rfl
  · exact foldl_keeps beyondCoh (beyondCoh_answer _ line) _ s

theorem beyondCoh_reprobe (s : State) (line : Nat) : beyondCoh (s.reprobe line) = beyondCoh s := by
  rw [reprobe_eq, foldl_keeps beyondCoh (beyondCoh_forgetDie line _), beyondCoh_answered]

/-- After the probes of a marked line exactly the marks of tiles that match stand. -/
theorem marked_reprobe {line run : Nat} (h : s.markRun line = some run) (t : Nat) : marked (s.reprobe line) t line =
    ((marked s t line).1 && s.tileMatches t run line, (marked s t line).2 && s.tileMatches t run line) := by
  have hanswered : answered s line = (s.markedTiles line false).foldl (answer run line) s := by
    unfold answered
    rw [h]
  rw [reprobe_eq, foldl_keeps (marked · t line) (fun s d => marked_forgetDie line _ s d t), hanswered, marked_answers]
  cases hmatch : s.tileMatches t run line with
  | true => simp
  | false =>
    by_cases hm : marked s t line = (false, false)
    · simp [hm]
    · simp [mem_markedTiles hm]

theorem reprobe_unmarked {line : Nat} (h : s.markRun line = none) (hswm : (s.l3 line).swm = 0) (hsrm : (s.l3 line).srm = 0) :
    s.reprobe line = s := by
  have hanswered : answered s line = s := by
    unfold answered
    rw [h]
  have hdies : (s.l3 line).markedDies = [] := by simp [L3Entry.markedDies, hswm, hsrm]
  rw [reprobe_eq, hanswered, hdies, List.foldl_nil]

/-- Counting false positives changes the values of counters. -/
theorem countFalse_eq (s : State) (line run : Nat) (w : Bool) :
    s.countFalse line run w = { s with dbg := (s.countFalse line run w).dbg } := by
  have hrest : ({ s.countFalse line run w with dbg := s.dbg } : State) = { s with dbg := s.dbg } :=
    foldl_keeps (fun u : State => { u with dbg := s.dbg }) (fun u t => by
      unfold State.countFalseAt
      dsimp only
      split <;> rfl) _ s
  exact congrArg (fun u : State => { u with dbg := (s.countFalse line run w).dbg }) hrest

-- The steps, as a home takes them.

/-- SPEC_MARK_REQUEST where neither home makes room. -/
theorem markSpec_room {tile run line : Nat} (hl3 : s.roomL3 line = s) (hl2 : s.roomL2 (tile / 64) line = s) :
    let u := s.markSpec tile run line false
    (u.l2 (tile / 64) line).srm = (s.l2 (tile / 64) line).srm ||| (1#64 <<< (tile % 64)) ∧
    (u.l2 (tile / 64) line).srun = run ∧ (u.l2 (tile / 64) line).swm = (s.l2 (tile / 64) line).swm ∧
    (u.l3 line).srm = (s.l3 line).srm ||| (1#4 <<< (tile / 64)) ∧ (u.l3 line).swm = (s.l3 line).swm ∧
    (∀ d o, ¬(d = tile / 64 ∧ o = line) → u.l2? d o = s.l2? d o) ∧ (∀ o, o ≠ line → u.l3? o = s.l3? o) ∧
    beyondCoh u = beyondCoh s := by
  intro u
  have hu : u = _ := markSpec_eq tile run line hl3 hl2
  obtain ⟨hdie, hline⟩ := die_line_l2 s (tile / 64) line
  have hline3 : (readerL3 (s.l3 line) tile run).line = line := line_l3 s line
  have hentry2 : u.l2 (tile / 64) line = readerL2 (s.l2 (tile / 64) line) tile run := l2_of_l2? (by
    rw [hu]
    exact l2?_setL2_same s (e := readerL2 _ tile run) hdie hline)
  have hentry3 : u.l3 line = readerL3 (s.l3 line) tile run := l3_of_l3? (by
    rw [hu]
    exact l3?_setL3_same _ hline3)
  rw [hentry2, hentry3]
  refine ⟨rfl, rfl, rfl, rfl, rfl, fun d o h => ?_, fun o h => ?_, by rw [hu]; rfl⟩
  · rw [hu]
    exact l2?_setL2_other s _ fun hx => h ⟨hx.1.trans hdie, hx.2.trans hline⟩
  · rw [hu]
    exact l3?_setL3_other (s.setL2 _) _ (by rwa [hline3])

/-- OTHER_RUN_REPROBE of a marked line. -/
theorem repeatProbe_marked {line run : Nat} (h : s.markRun line = some run) :
    s.repeatProbe line = (s.countFalse line run false).reprobe line := by
  unfold State.repeatProbe
  rw [h]

theorem repeatProbe_rest {line run : Nat} (h : s.markRun line = some run) :
    let u := s.repeatProbe line
    u = { s with coh := u.coh, dbg := u.dbg } := by
  intro u
  have hcount := countFalse_eq s line run false
  have hu : u = { s.countFalse line run false with coh := u.coh } :=
    eq_of_beyondCoh (by rw [show u = _ from repeatProbe_marked h, beyondCoh_reprobe])
  rw [hcount] at hu
  have hdbg : u.dbg = (s.countFalse line run false).dbg := by rw [hu]
  rw [hdbg]
  exact hu

/-- Exactly the marks of tiles that match stand after it. -/
theorem marked_repeatProbe {line run : Nat} (h : s.markRun line = some run) (t : Nat) : marked (s.repeatProbe line) t line =
    ((marked s t line).1 && s.tileMatches t run line, (marked s t line).2 && s.tileMatches t run line) := by
  have hcount := countFalse_eq s line run false
  generalize hv : s.countFalse line run false = v at hcount
  have hrun : v.markRun line = some run := by rw [hcount]; exact h
  rw [repeatProbe_marked h, hv, marked_reprobe hrun, hcount]
  rfl

theorem repeatProbe_unmarked {line : Nat} (h : s.markRun line = none) (hswm : (s.l3 line).swm = 0) (hsrm : (s.l3 line).srm = 0) :
    s.repeatProbe line = s := by
  unfold State.repeatProbe
  rw [h]
  exact reprobe_unmarked h hswm hsrm

end
end Sys2Proof.Proofs
end

