-- ==== Sys2Proof/Proofs/Probes.lean ====
section
/-! STORE_PROBE and LOAD_PROBE (R138, R139) on a Lodge with one entry: whom they abort, and what the abort (R118, R119, R146) does. -/
namespace Sys2Proof.Proofs
open Sys2Proof Sys2Proof.Machine Sys2Proof.Laws

-- An abort, part by part (R146).

/-- The entry goes, and its task is queued again unless it is discarded. -/
def leaveQueue (k : AbortKind) (tile n : Nat) (e : CqEntry) (s : State) : State :=
  s.setLodge tile { s.lodge tile with
    cq := Sparse.erase (s.lodge tile).cq n
    queue := if k.discarded || e.creatorAborted then (s.lodge tile).queue else (s.lodge tile).queue ++ [e.task.aborted k.counted] }

/-- The in-flight stores of an entry go. -/
def dropStores (tile n : Nat) (e : CqEntry) (s : State) : State :=
  { s with stores := s.stores.filter fun x => x.specid != some (e.id tile n) }

theorem abortStep_eq (rec : AbortKind → Nat → Nat → State → State) (k : AbortKind) {s : State} {tile n : Nat} {e : CqEntry}
    (hentry : Sparse.get? (s.lodge tile).cq n = some e) (habort : e.aborting = false) : State.abortStep rec k tile n s =
      countAbort tile k.cause e.task.run (!(k.discarded || e.creatorAborted) && k.counted && decide (7 ≤ e.task.aborts))
        (leaveQueue k tile n e (discardDeparted rec tile n e (discardChildren rec tile n e (State.restoreWith rec tile n e
          (dropStores tile n e (freeHolder e (s.setEntry tile n { e with aborting := true }))))))) := by
  unfold State.abortStep
  rw [hentry]
  dsimp only
  rw [if_neg (by simp [habort])]
  rfl

/-- A Lodge's one entry is a running task's that has written, created and departed nothing. -/
structure Lone (s : State) (tile n th : Nat) (e : CqEntry) : Prop where
  cq : (s.lodge tile).cq = [(n, e)]
  th : e.th = some th
  finished : e.finished = false
  aborting : e.aborting = false
  log : e.log = []
  children : e.children = []
  ovf : e.ovf = false
  depart : e.depart = none
  creator : e.creatorAborted = false

/-- The state after the abort of a lone entry, before it is counted. -/
def requeued (s : State) (tile n th : Nat) (e : CqEntry) : State :=
  leaveQueue ⟨true, false, 0⟩ tile n e (dropStores tile n e ((s.setEntry tile n { e with aborting := true }).freeThread th))

theorem countAbort_eq (tile cause run : Nat) (mw : Bool) (s : State) : ∃ p, countAbort tile cause run mw s = { s with dbg := p } := by
  unfold countAbort
  split <;> exact ⟨_, rfl⟩

section
variable {s : State} {tile n th : Nat} {e : CqEntry} (h : Lone s tile n th e)
include h

theorem Lone.abort (cause : Nat) : s.abort ⟨true, false, cause⟩ tile n =
    countAbort tile cause e.task.run (decide (7 ≤ e.task.aborts)) (requeued s tile n th e) := by
  have hget : Sparse.get? (s.lodge tile).cq n = some e := by simp [h.cq, Sparse.get?]
  have hfree (v : State) : freeHolder e v = v.freeThread th := by simp [freeHolder, h.th, h.finished]
  have hrestore (v : State) : State.restoreWith (State.abortFuel s.entries) tile n e v = v := by simp [State.restoreWith, h.log]
  have hchildren (v : State) : discardChildren (State.abortFuel s.entries) tile n e v = v := by
    simp [discardChildren, h.ovf, h.children]
  have hdepart (v : State) : discardDeparted (State.abortFuel s.entries) tile n e v = v := by simp [discardDeparted, h.depart]
  have hagain : (!(false || e.creatorAborted) && true && decide (7 ≤ e.task.aborts)) = decide (7 ≤ e.task.aborts) := by simp [h.creator]
  rw [State.abort, State.abortFuel, abortStep_eq _ _ hget h.aborting, hfree, hrestore, hchildren, hdepart]
  exact congrArg (countAbort tile cause e.task.run · (requeued s tile n th e)) hagain

theorem Lone.requeued_lodge : (requeued s tile n th e).lodge tile =
    { s.lodge tile with cq := [], queue := (s.lodge tile).queue ++ [e.task.aborted true] } := by
  have hmark : (dropStores tile n e ((s.setEntry tile n { e with aborting := true }).freeThread th)).lodge tile =
      { s.lodge tile with cq := Sparse.set (s.lodge tile).cq n { e with aborting := true } } := lodge_setLodge_same ..
  rw [requeued, leaveQueue, lodge_setLodge_same, hmark]
  simp [h.cq, Sparse.set, Sparse.erase, h.creator]

omit h in
theorem requeued_lodge_other {o : Nat} (ho : o ≠ tile) : (requeued s tile n th e).lodge o = s.lodge o :=
  (lodge_setLodge_other _ ho _).trans (lodge_setLodge_other s ho _)

/-- What the abort of a lone entry does. -/
theorem Lone.aborted (cause : Nat) :
    let u := s.abort ⟨true, false, cause⟩ tile n
    (u.lodge tile).cq = [] ∧ (u.lodge tile).queue = (s.lodge tile).queue ++ [e.task.aborted true] ∧
      u.thread? th = none ∧ s.OtherThreads u th ∧ u.stores = s.stores.filter (fun x => x.specid != some (e.id tile n)) ∧ s.SameBytes u ∧
      ∀ o, o ≠ tile → u.lodge o = s.lodge o := by
  intro u
  obtain ⟨p, hu⟩ : ∃ p, u = { requeued s tile n th e with dbg := p } := by
    obtain ⟨p, hp⟩ := countAbort_eq tile cause e.task.run (decide (7 ≤ e.task.aborts)) (requeued s tile n th e)
    exact ⟨_, (h.abort cause).trans hp⟩
  have hlodge : u.lodge tile = _ := (congrArg (State.lodge · tile) hu).trans h.requeued_lodge
  rw [hlodge, hu]
  exact ⟨rfl, rfl, thread?_freeThread_same th, fun m hm => thread?_freeThread_other hm, rfl,
    sameBytes_of_eq (fun _ _ => rfl) rfl rfl, fun o ho => requeued_lodge_other ho⟩

end

-- Whom a probe aborts.

/-- A probe of a Lodge, by what it aborts there: latest first (R140). -/
def probeLodge (s : State) (tile run line cause : Nat) (p : Nat × CqEntry → Bool) : State :=
  (((s.lodge tile).cq.filter p).foldl (fun l x => (l.takeWhile fun y => x.2.task.key.lt y.2.task.key) ++ [x] ++
    (l.dropWhile fun y => x.2.task.key.lt y.2.task.key)) []).foldl (fun s e => s.abort ⟨true, false, cause⟩ tile e.1)
      (s.countFalseAt tile line run)

theorem probeLodge_one {s : State} {tile n : Nat} {e : CqEntry} (h : (s.lodge tile).cq = [(n, e)]) (run line cause : Nat)
    (p : Nat × CqEntry → Bool) : probeLodge s tile run line cause p =
      if p (n, e) then (s.countFalseAt tile line run).abort ⟨true, false, cause⟩ tile n else s.countFalseAt tile line run := by
  unfold probeLodge
  rw [h]
  cases hp : p (n, e) <;> simp [hp]

/-- The entries that a probe of a run may abort: later than the prober, not of earliest standing, and not the prober's own. -/
def mayAbort (s : State) (tile run : Nat) (key : Key) (specid : Option Nat) (e : Nat × CqEntry) : Bool :=
  e.2.task.run == run && !s.entryEarliest e.2 && (s.standingId specid || key.lt e.2.task.key) && some (e.2.id tile e.1) != specid

theorem storeProbe_eq (s : State) (tile run line : Nat) (cv : BitVec 5) (key : Key) (specid : Option Nat) :
    s.storeProbe tile run line cv key specid =
      probeLodge s tile run line 0x03 fun e => mayAbort s tile run key specid e && e.2.conflicts line cv := rfl

theorem loadProbe_eq (s : State) (tile run line : Nat) (key : Key) (specid : Option Nat) :
    s.loadProbeAt tile run line key specid =
      probeLodge s tile run line 0x04 fun e => mayAbort s tile run key specid e && sigMatch e.2.write line := rfl

/-- The count of false positives is all that a probe changes which aborts nothing, and it changes where the filters are wrong. -/
theorem countFalseAt_eq (s : State) (tile line run : Nat) :
    s.countFalseAt tile line run = { s with dbg := { s.dbg with pmcVal := (s.countFalseAt tile line run).dbg.pmcVal } } := by
  unfold State.countFalseAt
  dsimp only
  split <;> rfl

theorem countFalseAt_exact {s : State} {tile n : Nat} {e : CqEntry} (h : (s.lodge tile).cq = [(n, e)]) {line : Nat}
    (hexact : e.falsePositive line = false) (run : Nat) : s.countFalseAt tile line run = s := by
  unfold State.countFalseAt
  simp [h, hexact]

end Sys2Proof.Proofs
end

