-- ==== Sys2Proof/Proofs/HomeStores.lean ====
section
/-! Stores that the device makes at a line's home with no translation (R140, R171, R211), restores and swaps of the walker: the line
then holds the masked bytes, whatever the home has to do before, and where no cache holds anything no other line changes. -/
namespace Sys2Proof.Proofs
open Sys2Proof Sys2Proof.Machine Sys2Proof.Laws

-- What lines hold.

/-- What the contents of memory and stashes rest on, beside the layout. -/
def held (s : State) : List Host.Cell × List Host.Cell × Sparse ChipLine × Sparse (KeyMaterial × Nat) × Sparse KeyMaterial × Stash :=
  (s.mem.hbm, s.mem.sys, s.mem.chip, s.mem.slotKey, s.mem.keys, s.stash)

section
variable {s u : State}

theorem SameContents.held (h : SameContents s u) : held u = held s := by
  simp [Proofs.held, h.hbm, h.sys, h.chip, h.slotKey, h.keys, h.stash]

theorem stash_of_held (h : held u = held s) : u.stash = s.stash := congrArg (fun x => x.2.2.2.2.2) h
theorem chip_of_held (h : held u = held s) : u.mem.chip = s.mem.chip := congrArg (fun x => x.2.2.1) h

theorem lineAt_of_held (h : held u = held s) (hregs : ∀ k, mapsMemory k → u.reg k = s.reg k) (line key : Nat) :
    u.lineAt line key = s.lineAt line key := by
  simp only [held, Prod.mk.injEq] at h
  obtain ⟨hhbm, hsys, hchip, hslot, hkeys, -⟩ := h
  simp only [State.lineAt, State.hbmLine, State.keyAt, window_congr hregs, slotOf_congr hregs, hhbm, hsys, hchip, hslot, hkeys]

theorem sameBytes_of_held (h : held u = held s) (hregs : ∀ k, mapsMemory k → u.reg k = s.reg k) : s.SameBytes u :=
  ⟨fun pa key => by rw [State.byteAt, State.byteAt, lineAt_of_held h hregs], fun a => by rw [stash_of_held h]⟩
end

section
variable (s : State)

@[simp] theorem held_coh (c : Coherence) : held { s with coh := c } = held s := rfl
@[simp] theorem held_hbmRead (line : Nat) : held (s.hbmRead line) = held s := (sameContents_hbmRead s line).held
@[simp] theorem held_setL2 (e : L2Entry) : held (s.setL2 e) = held s := rfl
@[simp] theorem held_setL3 (e : L3Entry) : held (s.setL3 e) = held s := rfl

theorem held_of_beyondCoh {s u : State} (h : beyondCoh u = beyondCoh s) : held u = held s := by
  rw [eq_of_beyondCoh h]
  rfl
@[simp] theorem held_clearSf (l : Nat) : held (s.clearSf l) = held s := held_of_beyondCoh (by simp)
@[simp] theorem held_settleL3 (e : L3Entry) : held (s.settleL3 e) = held s := held_of_beyondCoh (by simp)
@[simp] theorem held_settle (l : Nat) : held (s.settle l) = held s := held_of_beyondCoh (by simp)
@[simp] theorem held_syncDie (d l : Nat) : held (s.syncDie d l) = held s := held_of_beyondCoh (by simp)
@[simp] theorem held_storerL1 (l : Nat) (st : Storer) : held (s.storerL1 l st) = held s := by
  unfold State.storerL1
  split <;> rfl
@[simp] theorem held_countWrite (l : Nat) : held (s.countWrite l) = held s := by
  unfold State.countWrite
  split <;> rfl
@[simp] theorem held_l3Miss (l : Nat) (hint : BitVec 3) (always : Bool) : held (s.l3Miss l hint always).2 = held s := by
  unfold State.l3Miss
  dsimp only
  split_ifs <;> rfl
end

-- A line that no cache holds: what its home does before it writes.

section
variable {s : State} {line : Nat}

/-- Without replicas and collapses under way there is nothing to collapse. -/
theorem collapse_none (hrep : (s.l3 line).rep = 0) (hcollapses : s.coh.collapses = []) (cv : BitVec 5) (new : Line) (counted : Bool)
    (w : List Agent) (sp : Spared) :
    ∃ c, s.collapse line cv new true counted w sp = { s with coh := c } ∧ c.l2 = s.coh.l2 ∧ c.collapses = [] := by
  have hnone : (List.range 4).filter (fun q => (s.l3 line).rep.getLsbD q ||
      (s.coh.collapses.filter fun c => c.line == line).any fun c => c.quad == q) = [] := by
    simp [hrep, hcollapses]
  unfold State.collapse
  dsimp only
  rw [if_pos rfl, hnone, List.foldl_nil, hcollapses]
  split
  · exact ⟨_, rfl, rfl, rfl⟩
  · exact ⟨_, rfl, rfl, rfl⟩

theorem ackCollapse_none (h : s.coh.collapses = []) (q : Nat) : s.ackCollapse q line = s := by
  unfold State.ackCollapse
  rw [h]
  rfl

theorem roomL2_none (h : s.coh.l2 = []) (d : Nat) : s.roomL2 d line = s := by
  unfold State.roomL2
  simp [h]

theorem filterDie_none (h : s.coh.l2 = []) (d : Nat) (cv : BitVec 5) (new : Line) (sp : Spared) : s.filterDie d line cv new sp = s := by
  unfold State.filterDie State.l2?
  rw [h]
  rfl

variable (h : Calm s line)
include h

theorem Calm.held_atL3 (hint : BitVec 3) (always : Bool) : held (s.atL3 line hint always) = held s := by
  unfold State.atL3
  rw [h.roomL3]
  dsimp only
  split
  · rfl
  · rw [held_setL3, held_l3Miss, held_hbmRead]

/-- A store reaches the L3 home (R225). -/
theorem Calm.toL3Home (hint : BitVec 3) (always : Bool) :
    let v := ((s.recallOwner line).countWrite line).atL3 line hint always
    Calm v line ∧ held v = held s ∧ beyondHomes v = beyondHomes s := by
  dsimp only
  rw [h.recallOwner]
  exact ⟨h.countWrite.atL3 hint always, (h.countWrite.held_atL3 hint always).trans (held_countWrite s line), by simp⟩

theorem Calm.held_collapse (cv : BitVec 5) (new : Line) (w : List Agent) (sp : Spared) :
    held ((s.settle line).collapse line cv new true true w sp) = held s := by
  obtain ⟨c, hc, -, -⟩ := collapse_none h.settle.entry.rep h.settle.collapses cv new true w sp
  rw [hc, held_coh, held_settle]

/-- A die comes to own the line (R226). -/
theorem Calm.takeOwner (d : Nat) (now : Line) (hint : BitVec 3) (w : List Agent) (sp : Spared) :
    held (s.takeOwner line d now hint true w sp) = held s ∧ (s.takeOwner line d now hint true w sp).coh.l2 = [] := by
  obtain ⟨hhome, hheld, -⟩ := h.toL3Home hint false
  unfold State.takeOwner
  generalize ((s.recallOwner line).countWrite line).atL3 line hint false = v at hhome hheld ⊢
  have hline : (v.l3 line).line = line := hhome.entry.line
  dsimp only
  rw [hhome.present, List.foldl_nil]
  generalize hx : v.setL3 { (v.l3 line).setDie d (some (.full, false)) with own := some d } = x
  have hentry : x.l3 line = { (v.l3 line).setDie d (some (.full, false)) with own := some d } := by
    rw [← hx]
    exact l3_of_l3? (l3?_setL3_same v hline)
  have hrep : (x.l3 line).rep = 0 := by
    rw [hentry]
    exact hhome.entry.rep
  obtain ⟨c, hc, hc2, hcc⟩ := collapse_none hrep (by rw [← hx]; exact hhome.collapses) cvAll now true w sp
  rw [hc, ackCollapse_none hcc]
  refine ⟨?_, ?_⟩
  · rw [held_coh, ← hx, held_setL3, hheld]
  · show c.l2 = []
    rw [hc2, ← hx]
    exact hhome.l2
end

-- The home performs a store (R211).

section
variable {s : State} {line : Nat}

theorem Calm.storerL1_any (h : Calm s line) (st : Storer) : Calm (s.storerL1 line st) line := by
  unfold State.storerL1
  split
  · exact h.setL1 (by rw [h.l1, List.filter_nil])
  · exact h.setL1 (by rw [h.l1, List.filter_nil])

/-- Whatever stands in the caches, the home at last writes the line with the masked bytes of the store; where no cache holds the line it
changes nothing before that. -/
theorem place_eq (s : State) (line key : Nat) (mask data : Line) {st : Storer} (h : st.hint ≠ 4) :
    ∃ (x : State) (p : Bool), beyondHomes x = beyondHomes s ∧
      (s.place line key mask data st).2 = (x.storeLine line key (mergeLine mask (s.lineAt line key) data) p).samePoison line p ∧
      (Calm s line → st.eager = true → s.isSystem (line * 128) = false → held x = held s) := by
  obtain ⟨x, p, hx, hcalm⟩ : ∃ (x : State) (p : Bool), (s.place line key mask data st).2 =
      (x.storeLine line key (mergeLine mask (s.lineAt line key) data) p).samePoison line p ∧
      (Calm s line → st.eager = true → s.isSystem (line * 128) = false → held x = held s) := by
    unfold State.place
    extract_lets full read s1 old new s2 sf cv sp who home passes atHome sent performed s3 poison l1 coh s4 s5
    have hread : held read = held s ∧ beyondHomes read = beyondHomes s := by
      simp only [read]
      split <;> simp
    have hold : old = s.lineAt line key :=
      lineAt_of_held ((held_storerL1 read line st).trans hread.1)
        (mapsMemory_of_beyond ((beyond_storerL1 read line st).trans hread.2)) line key
    have hpasses : passes = false := by
      unfold passes
      rw [beq_false_of_ne h, Bool.false_and]
    refine ⟨s4, poison, ?_, fun hcalm heager hdevice => ?_⟩
    · simp only [hpasses, Bool.false_eq_true, if_false]
      rw [← hold]
    have h2 : Calm s2 line := by
      have hcread : Calm read line := by
        simp only [read]
        split
        · exact hcalm
        · exact (sameContents_hbmRead s line).calm hcalm
      exact (hcread.storerL1_any st).clearSf
    have hheld2 : held s2 = held s := by simp [s2, s1, hread.1]
    have hbeyond2 : beyondHomes s2 = beyondHomes s := by simp [s2, s1, hread.2]
    have hperformed : held performed = held s2 ∧ beyondHomes performed = beyondHomes s2 := by
      unfold performed
      rw [hpasses, heager]
      generalize home = o
      cases o with
      | none =>
        obtain ⟨hhome, hheld, hbeyond⟩ := h2.toL3Home st.hint ((s2.l3 line).hw || st.rmw)
        have hsent : sent = atHome := by
          unfold sent
          rw [hhome.present, List.foldl_nil]
        rw [hsent]
        exact ⟨(hhome.held_collapse cv new who sp).trans hheld, ((beyond_collapse ..).trans (beyond_settle ..)).trans hbeyond⟩
      | some d =>
        obtain ⟨htaken, hl2⟩ := h2.takeOwner d new st.hint who sp
        have howner : ¬(s2.l3 line).own = some d := by simp [h2.entry.own]
        simp [if_neg howner, roomL2_none hl2, filterDie_none hl2, htaken]
    have hdevice3 : performed.isSystem (line * 128) = false := by
      rw [(backed_of_beyond (hperformed.2.trans hbeyond2) _).2, hdevice]
    have h3 : s3 = performed := by
      simp only [s3]
      split
      · rfl
      · rw [hostHold_device hdevice3, hostDirty_device hdevice3]
    calc held s4 = held s3 := rfl
      _ = held performed := by rw [h3]
      _ = held s := hperformed.1.trans hheld2
  refine ⟨x, p, ?_, hx, hcalm⟩
  have hbeyond := beyond_place s line key mask data st
  rw [hx] at hbeyond
  simpa using hbeyond

/-- The line afterwards. -/
theorem lineAt_place {key : Nat} (mask data : Line) {st : Storer} (h : st.hint ≠ 4) (hb : s.backed (line * 128) = true)
    (hd : s.isSystem (line * 128) = false) :
    (s.place line key mask data st).2.lineAt line key = mergeLine mask (s.lineAt line key) data := by
  have hkept := beyond_place s line key mask data st
  obtain ⟨x, p, hx, hplace, -⟩ := place_eq s line key mask data h
  obtain ⟨hbx, hdx⟩ := backed_of_beyond hx (line * 128)
  obtain ⟨hbu, hdu⟩ := backed_of_beyond hkept (line * 128)
  have hchip : Sparse.get? (s.place line key mask data st).2.mem.chip line = some ⟨key, mergeLine mask (s.lineAt line key) data, p⟩ := by
    rw [hplace, storeLine_device (hbx.trans hb) (hdx.trans hd), samePoison_eq]
    exact get?_set_same _ _ _
  exact lineAt_chip (hbu.trans hb) (hdu.trans hd) hchip

theorem samePoison_none (h : s.stash.lines = []) (p : Bool) : s.samePoison line p = s := by
  simp [State.samePoison, h]

theorem lineAt_storeLine_other (hb : s.backed (line * 128) = true) (hd : s.isSystem (line * 128) = false) (key : Nat) (d : Line) (p : Bool)
    {o : Nat} (ho : o ≠ line) (k : Nat) : (s.storeLine line key d p).lineAt o k = s.lineAt o k := by
  rw [storeLine_device hb hd]
  unfold State.lineAt
  dsimp only
  rw [get?_set_other _ _ _ _ ho]
  rfl

/-- No other line, and no stash, changes where no cache holds anything. -/
theorem place_rest (h : Calm s line) (hlines : s.stash.lines = []) (hb : s.backed (line * 128) = true)
    (hd : s.isSystem (line * 128) = false) (key : Nat) (mask data : Line) {st : Storer} (hhint : st.hint ≠ 4) (heager : st.eager = true) :
    let u := (s.place line key mask data st).2
    (∀ o k, o ≠ line → u.lineAt o k = s.lineAt o k) ∧ u.stash = s.stash := by
  intro u
  obtain ⟨x, p, hbeyond, hplace, hcalm⟩ := place_eq s line key mask data hhint
  have hheld := hcalm h heager hd
  have hstash : x.stash = s.stash := stash_of_held hheld
  obtain ⟨hbx, hdx⟩ := backed_of_beyond hbeyond (line * 128)
  have hu : u = x.storeLine line key (mergeLine mask (s.lineAt line key) data) p := by
    refine hplace.trans (samePoison_none ?_ p)
    rw [storeLine_device (hbx.trans hb) (hdx.trans hd)]
    exact (congrArg Stash.lines hstash).trans hlines
  rw [hu]
  refine ⟨fun o k ho => ?_, ?_⟩
  · rw [lineAt_storeLine_other (hbx.trans hb) (hdx.trans hd) key _ p ho, lineAt_of_held hheld (mapsMemory_of_beyond hbeyond)]
  · rw [storeLine_device (hbx.trans hb) (hdx.trans hd)]
    exact hstash

/-- No copy of a line stands anywhere, so that the home of the line need not call one back, whatever its key. -/
structure Uncopied (s : State) (line : Nat) : Prop where
  lines : s.stash.lines = []
  l1 : s.coh.l1 = []
  l2 : s.coh.l2 = []
  replicas : s.coh.replicas = []
  chip : Sparse.get? s.mem.chip line = none

theorem Uncopied.performWith (h : Uncopied s line) (rec : AbortKind → Nat → Nat → State → State) (key : Nat) (mask data : Line) {st : Storer}
    (hprobe : ∀ cv, State.probeWith rec s line cv st = s) :
    State.performWith rec s line key mask data st = s.place line key mask data st := by
  have hrecall : s.recallStash line st.via = s := by simp [State.recallStash, h.lines]
  have hrekey : s.rekey line key = s := by
    unfold State.rekey
    rw [h.chip]
    simp [h.l1, h.l2, h.replicas]
  unfold State.performWith
  rw [hrecall, hrekey]
  dsimp only
  rw [hprobe]

-- The walker's swap of a leaf (R171).

theorem lineAt_storePte {addr pte : Nat} (h : Uncopied s (addr / 128)) (hb : s.backed (addr / 128 * 128) = true)
    (hd : s.isSystem (addr / 128 * 128) = false) : (s.storePte addr pte).lineAt (addr / 128) 0 =
      mergeLine (byteMask (addr % 128) 8) (s.lineAt (addr / 128) 0) (putLine 0 (addr % 128) 8 pte) := by
  unfold State.storePte State.perform
  rw [h.performWith abortRec 0 _ _ fun _ => rfl]
  exact lineAt_place _ _ (by decide) hb hd

end
end Sys2Proof.Proofs
end

