-- ==== Sys2Proof/Proofs/Restores.lean ====
section
/-! RESTORE_AT_HOME (R140, R146): the last logged word of an aborting entry goes back into its line. -/
namespace Sys2Proof.Proofs
open Sys2Proof Sys2Proof.Machine Sys2Proof.Laws

section
variable {s : State} {line : Nat}

theorem probeWith_unmarked (rec : AbortKind → Nat → Nat → State → State) (hcoh : s.coh = State.reset.coh) (cv : BitVec 5) {st : Storer}
    {r : Nat} (hrun : st.run = some r) : State.probeWith rec s line cv st = s := by
  have hl2 : s.coh.l2 = [] := by rw [hcoh]; rfl
  have hl3 : s.l3 line = L3Entry.new line := by rw [State.l3, State.l3?, hcoh]; rfl
  have htiles : s.probeTiles line r false = [] := by
    have hwide : s.wideTiles = [] := by rw [State.wideTiles, hcoh]; rfl
    simp [State.probeTiles, State.markedTiles, hwide, hl2]
  have hcount : s.countFalse line r false = s := by rw [State.countFalse, htiles, List.foldl_nil]
  have hvictims : s.storeVictims line cv st = [] := by
    simp [State.storeVictims, hrun, htiles]
  have hmarks : s.markRun line = none := by simp [State.markRun, hl2]
  have hreprobe : s.reprobe line = s := reprobe_unmarked hmarks (by rw [hl3]; rfl) (by rw [hl3]; rfl)
  unfold State.probeWith
  rw [hrun]
  simp [hcount, hvictims, hreprobe]

theorem restoreNext_none {tile : Nat} (h : ∀ x ∈ (s.lodge tile).cq, x.2.aborting = true → x.2.log = []) : s.restoreNext tile = s := by
  have hnone : (s.lodge tile).cq.find? (fun e => e.2.aborting && !e.2.log.isEmpty) = none := by
    refine List.find?_eq_none.2 fun x hx => ?_
    cases hab : x.2.aborting with
    | false => simp
    | true => simp [h x hx hab]
  unfold State.restoreNext
  rw [hnone]

/-- The state once the last logged word of an entry is taken out of its log. -/
def unlogged (s : State) (tile n : Nat) (e : CqEntry) (rest : List LogEntry) : State := s.setEntry tile n { e with log := rest }

/-- The storer of a restore. -/
def restorer (tile n : Nat) (e : CqEntry) : Storer :=
  { agent := .lodge tile, die := some (dieOfTile tile), core := none, run := some e.task.run, key := e.task.key,
    specid := some (e.id tile n), eager := true, probes := true, restore := true, atHome := false }

theorem hint_restorer (tile n : Nat) (e : CqEntry) : (restorer tile n e).hint ≠ 4 := show (0 : BitVec 3) ≠ 4 by decide

theorem restoreNext_last {tile n : Nat} {e : CqEntry} {x : LogEntry} {rest : List LogEntry} (hcq : (s.lodge tile).cq = [(n, e)])
    (haborting : e.aborting = true) (hlog : e.log = rest ++ [x]) (hvalid : x.valid = true) (hkey : (s.keyAt x.key).isSome = true)
    (hcoh : s.coh = State.reset.coh) (hlines : s.stash.lines = []) (hchip : Sparse.get? s.mem.chip (x.pa / 128) = none) :
    s.restoreNext tile = ((unlogged s tile n e rest).place (x.pa / 128) x.key (byteMask (x.pa % 128) 8)
      (putLine 0 (x.pa % 128) 8 x.old.toNat) (restorer tile n e)).2 := by
  have hfind : (s.lodge tile).cq.find? (fun e => e.2.aborting && !e.2.log.isEmpty) = some (n, e) := by
    simp [hcq, haborting, hlog]
  have hnow : (unlogged s tile n e rest).coh = State.reset.coh := hcoh
  have huncopied : Uncopied (unlogged s tile n e rest) (x.pa / 128) :=
    ⟨hlines, by rw [hnow]; rfl, by rw [hnow]; rfl, by rw [hnow]; rfl, hchip⟩
  unfold State.restoreNext
  rw [hfind]
  dsimp only
  rw [hlog, List.getLast?_concat, List.dropLast_concat]
  dsimp only
  unfold State.restoreOne
  rw [if_pos (by rw [hvalid]; exact hkey)]
  exact congrArg Prod.snd (huncopied.performWith abortRec x.key _ _ fun cv => probeWith_unmarked abortRec hnow cv rfl)

theorem calm_reset (hcoh : s.coh = State.reset.coh) (hlines : s.stash.lines = []) : Calm s line where
  clean := by simp [hlines]
  l1 := by rw [hcoh]; rfl
  l2 := by rw [hcoh]; rfl
  replicas := by rw [hcoh]; rfl
  collapses := by rw [hcoh]; rfl
  l3 := by
    rw [hcoh]
    intro e he
    cases he

/-- RESTORE_AT_HOME. -/
theorem restoreNext_spec {tile n : Nat} {e : CqEntry} {x : LogEntry} {rest : List LogEntry} (hcq : (s.lodge tile).cq = [(n, e)])
    (haborting : e.aborting = true) (hlog : e.log = rest ++ [x]) (hvalid : x.valid = true) (hkey : (s.keyAt x.key).isSome = true)
    (hcoh : s.coh = State.reset.coh) (hlines : s.stash.lines = []) (hb : s.backed (x.pa / 128 * 128) = true)
    (hd : s.isSystem (x.pa / 128 * 128) = false) (hchip : Sparse.get? s.mem.chip (x.pa / 128) = none) :
    let u := s.restoreNext tile
    (u.lodge tile).cq = [(n, { e with log := rest })] ∧
      u.lineAt (x.pa / 128) x.key = mergeLine (byteMask (x.pa % 128) 8) (s.lineAt (x.pa / 128) x.key)
        (putLine 0 (x.pa % 128) 8 x.old.toNat) ∧
      (∀ o key, o ≠ x.pa / 128 → u.lineAt o key = s.lineAt o key) ∧ u.threads = s.threads ∧ u.stash = s.stash := by
  intro u
  have hu : u = _ := restoreNext_last hcq haborting hlog hvalid hkey hcoh hlines hchip
  have hsame (o k : Nat) : (unlogged s tile n e rest).lineAt o k = s.lineAt o k := lineAt_congr (fun _ _ => rfl) rfl o k
  have hkept := beyondStores_of_homes (beyond_place (unlogged s tile n e rest) (x.pa / 128) x.key (byteMask (x.pa % 128) 8)
    (putLine 0 (x.pa % 128) 8 x.old.toNat) (restorer tile n e))
  rw [← hu] at hkept
  have hlodges : u.lodges = (unlogged s tile n e rest).lodges := congrArg (fun p => p.2.2.2) (roundPart_of_stores hkept)
  have hthreads : u.threads = (unlogged s tile n e rest).threads := threads_of_beyond hkept
  have hline := lineAt_place (s := unlogged s tile n e rest) (line := x.pa / 128) (key := x.key) (byteMask (x.pa % 128) 8)
    (putLine 0 (x.pa % 128) 8 x.old.toNat) (st := restorer tile n e) (hint_restorer tile n e) hb hd
  obtain ⟨hothers, hstash⟩ := place_rest (s := unlogged s tile n e rest) (calm_reset hcoh hlines) hlines hb hd x.key (byteMask (x.pa % 128) 8)
    (putLine 0 (x.pa % 128) 8 x.old.toNat) (st := restorer tile n e) (hint_restorer tile n e) rfl
  rw [← hu] at hline hothers hstash
  refine ⟨?_, by rw [hline, hsame], fun o k ho => by rw [hothers o k ho, hsame], hthreads, hstash⟩
  have hlodge : u.lodge tile = (unlogged s tile n e rest).lodge tile := by rw [State.lodge, State.lodge, hlodges]
  rw [hlodge, unlogged, State.setEntry, lodge_setLodge_same]
  simp [hcq, Sparse.set]

end
end Sys2Proof.Proofs
end

