-- ==== Sys2Proof/Proofs/PageWalks.lean ====
section
/-! PAGE_WALK (R168, R171 to R173, R209, R210): the leaf as the walker leaves it, the TLBs that hold it then, and the table; and
PRIVATE_RELEASE (R210). -/
namespace Sys2Proof.Proofs
open Sys2Proof Sys2Proof.Machine Sys2Proof.Laws

-- The leaf (R171).

/-- A leaf with A set, and D for a write. -/
def touched (write : Bool) (pte : Nat) : Nat := if write then putField (putField pte 5 1 1) 6 1 1 else putField pte 5 1 1

theorem testBit_touched (write : Bool) (pte k : Nat) : (touched write pte).testBit k =
    if k = 5 then true else if k = 6 then pte.testBit 6 || write else pte.testBit k := by
  unfold touched
  by_cases h5 : k = 5
  · subst h5
    cases write <;> simp [testBit_putField]
  · by_cases h6 : k = 6
    · subst h6
      cases write <;> simp [testBit_putField]
    · have hbit (x : Nat) : (putField x 5 1 1).testBit k = x.testBit k := by rw [testBit_putField, if_neg (by omega)]
      have hbit' (x : Nat) : (putField x 6 1 1).testBit k = x.testBit k := by rw [testBit_putField, if_neg (by omega)]
      cases write <;> simp [h5, h6, hbit, hbit']

section
variable {w : Who} {core : Nat} (hcore : w.core = some core) (write : Bool) {pte : Nat}
include hcore

/-- A first touch gives the page to the core. -/
theorem usedPte_first (h : bitsOf pte 11 2 = 0) :
    usedPte w write pte = putField (putField (touched write pte) 11 2 1) 13 11 core := by
  unfold usedPte
  rw [h, hcore]
  rfl

/-- The touch of another core ends that. -/
theorem usedPte_leaves (h : bitsOf pte 11 2 = 1) (howner : bitsOf pte 13 11 ≠ core) :
    usedPte w write pte = putField (touched write pte) 11 2 2 := by
  unfold usedPte
  rw [h, hcore]
  exact if_neg fun e => howner (Option.some.inj e).symm

theorem usedPte_kept (h0 : bitsOf pte 11 2 ≠ 0) (h1 : bitsOf pte 11 2 = 1 → bitsOf pte 13 11 = core) :
    usedPte w write pte = touched write pte := by
  unfold usedPte
  rw [hcore]
  generalize bitsOf pte 11 2 = cls at h0 h1 ⊢
  match cls with
  | 0 => exact absurd rfl h0
  | 1 => exact if_pos (by rw [h1 rfl])
  | _ + 2 => rfl

/-- Beside CLS and OWNER only A and D change. -/
theorem testBit_usedPte {k : Nat} (hk : k < 11 ∨ 24 ≤ k) : (usedPte w write pte).testBit k = (touched write pte).testBit k := by
  by_cases h0 : bitsOf pte 11 2 = 0
  · rw [usedPte_first hcore write h0, testBit_putField, if_neg (by omega), testBit_putField, if_neg (by omega)]
  · by_cases h1 : bitsOf pte 11 2 = 1 → bitsOf pte 13 11 = core
    · rw [usedPte_kept hcore write h0 h1]
    · obtain ⟨h, howner⟩ := Classical.not_imp.1 h1
      rw [usedPte_leaves hcore write h howner, testBit_putField, if_neg (by omega)]
end

-- Entering a TLB (R173).

theorem mem_victim {α : Type} {s : State} {l : List α} {x : α} (h : s.victim l = some x) : x ∈ l := List.mem_of_getElem? h

theorem mem_addTlb_self (s : State) (x : TlbEntry) : x ∈ (s.addTlb x).tlb := by
  unfold State.addTlb
  extract_lets rest mine set most
  split
  · simp
  · split <;> simp

/-- An entry of another unit stays. -/
theorem mem_addTlb_other {s : State} {x y : TlbEntry} (hy : y ∈ s.tlb) (h : y.unit ≠ x.unit) : y ∈ (s.addTlb x).tlb := by
  have hrest : y ∈ s.tlb.filter fun e =>
      !(e.unit == x.unit && e.run == x.run && e.gen == x.gen && e.asid == x.asid && e.level == x.level && e.page == x.page) :=
    List.mem_filter.2 ⟨hy, by simp [h]⟩
  unfold State.addTlb
  extract_lets rest mine set most
  have hvictim : ∀ v ∈ set, v ≠ y := by
    rintro v hv rfl
    have hmine : v ∈ mine := by
      simp only [set] at hv
      split at hv
      · exact (List.mem_filter.1 hv).1
      · exact hv
    exact h (by simpa using (List.mem_filter.1 hmine).2)
  split
  · exact List.mem_append_left _ hrest
  · split
    next v hv =>
      refine List.mem_append_left _ (List.mem_filter.2 ⟨hrest, ?_⟩)
      simpa using (hvictim v (mem_victim hv)).symm
    · exact List.mem_append_left _ hrest

/-- What is no TLB and no free value. -/
theorem addTlb_eq (s : State) (x : TlbEntry) : s.addTlb x = { s with tlb := (s.addTlb x).tlb, fresh := (s.addTlb x).fresh } := by
  unfold State.addTlb
  extract_lets rest mine set most
  split
  · rfl
  · split <;> rfl

-- The lines that a walk reads, at their homes.

/-- No copy of anything stands in the caches, and the L3 homes hold at most n entries, whose lines no die owns. -/
structure Bare (s : State) (n : Nat) : Prop where
  lines : s.stash.lines = []
  l1 : s.coh.l1 = []
  l2 : s.coh.l2 = []
  replicas : s.coh.replicas = []
  own : ∀ e ∈ s.coh.l3, e.own = none
  few : s.coh.l3.length ≤ n

section
variable {s : State} {n : Nat}

theorem Bare.of_eq (h : Bare s n) {u : State} (hs : u.stash = s.stash) (h1 : u.coh.l1 = s.coh.l1) (h2 : u.coh.l2 = s.coh.l2)
    (hr : u.coh.replicas = s.coh.replicas) (h3 : u.coh.l3 = s.coh.l3) : Bare u n :=
  ⟨hs ▸ h.lines, h1 ▸ h.l1, h2 ▸ h.l2, hr ▸ h.replicas, h3 ▸ h.own, h3 ▸ h.few⟩

theorem Bare.own_l3 (h : Bare s n) (line : Nat) : (s.l3 line).own = none := by
  unfold State.l3 State.l3?
  cases hf : s.coh.l3.find? fun e => e.line == line with
  | none => rfl
  | some e => exact h.own e (List.mem_of_find?_eq_some hf)

theorem Bare.setL3 (h : Bare s n) {e : L3Entry} (he : e.own = none) : Bare (s.setL3 e) (n + 1) := by
  refine ⟨h.lines, h.l1, h.l2, h.replicas, fun x hx => ?_, ?_⟩
  · simp only [State.setL3] at hx
    split at hx
    · obtain ⟨y, hy, rfl⟩ := List.mem_map.1 hx
      split
      · exact he
      · exact h.own y hy
    · rcases List.mem_append.1 hx with hx | hx
      · exact h.own x hx
      · exact List.mem_singleton.1 hx ▸ he
  · have := h.few
    simp only [State.setL3]
    split
    · rw [List.length_map]
      omega
    · rw [List.length_append, List.length_singleton]
      omega

theorem Bare.roomL3 (h : Bare s n) (hn : n < 16) (line : Nat) : s.roomL3 line = s := by
  have hfew : ((s.inSlice (s.homeQuad line) (sliceOf line)).filter fun x => x.1 != line).length < 16 := by
    refine (List.length_filter_le _ _).trans_lt ?_
    simp only [State.inSlice, h.replicas, List.filter_nil, List.map_nil, List.append_nil, List.length_map]
    exact ((List.length_filter_le _ _).trans h.few).trans_lt hn
  exact if_pos hfew

theorem Bare.l3Miss (h : Bare s n) (line : Nat) (hint : BitVec 3) (always : Bool) : Bare (s.l3Miss line hint always).2 n := by
  unfold State.l3Miss
  dsimp only
  split_ifs
  · exact h
  · exact h
  · exact h
  · exact h.of_eq rfl rfl rfl rfl rfl

/-- A read at the home of a line changes no byte. -/
theorem Bare.homeRead (h : Bare s n) (hn : n < 16) (line : Nat) :
    Bare (s.homeRead line false) (n + 1) ∧ held (s.homeRead line false) = held s := by
  have hrecall : s.recallOwner line = s := by
    unfold State.recallOwner
    dsimp only
    rw [h.own_l3 line]
  unfold State.homeRead State.atL3
  rw [hrecall, h.roomL3 hn]
  dsimp only
  split
  · exact ⟨⟨h.lines, h.l1, h.l2, h.replicas, h.own, Nat.le_succ_of_le h.few⟩, rfl⟩
  · have hread := sameContents_hbmRead s line
    have hmiss : Bare ((s.hbmRead line).l3Miss line 0 false).2 n :=
      (h.of_eq hread.stash (by rw [hread.coh]) (by rw [hread.coh]) (by rw [hread.coh]) (by rw [hread.coh])).l3Miss line 0 false
    exact ⟨hmiss.setL3 (hmiss.own_l3 line), by rw [held_setL3, held_l3Miss, held_hbmRead]⟩

theorem beyond_homeRead (s : State) (line : Nat) (always : Bool) : beyondHomes (s.homeRead line always) = beyondHomes s := by
  simp [State.homeRead]

theorem itinMode_of_beyond {u : State} (h : beyondHomes u = beyondHomes s) (run : Nat) : u.itinMode run = s.itinMode run := by
  have hreg : u.reg 0x640 = s.reg 0x640 := reg_of_beyond (beyondStores_of_homes h) (by decide) (by decide)
  obtain ⟨p, hdbg⟩ := dbg_of_beyond (beyondStores_of_homes h)
  rw [State.itinMode, State.itinMode, hreg, hdbg]

theorem walkLine_off {run : Nat} (h : s.itinMode run = none) (tile line : Nat) : (s.walkLine tile run line).2 = s := by
  unfold State.walkLine State.itinHostRead
  split
  · split
    · rfl
    next r hr =>
      split at hr
      · cases hr
      · cases hr
        rw [h]
        rfl
  · rfl

/-- One entry that a walk has read is read at its home. -/
def readEntry (tile run : Nat) (s : State) (d : Nat × Nat × Nat) : State :=
  (s.walkLine tile run (d.2.1 / 128)).2.homeRead (d.2.1 / 128) false

theorem Bare.readEntries {tile run : Nat} (l : List (Nat × Nat × Nat)) {s : State} {n : Nat} (h : Bare s n) (hn : n + l.length ≤ 16)
    (hoff : s.itinMode run = none) :
    let u := l.foldl (readEntry tile run) s
    Bare u (n + l.length) ∧ held u = held s ∧ beyondHomes u = beyondHomes s := by
  induction l generalizing s n with
  | nil => exact ⟨h, rfl, rfl⟩
  | cons d l ih =>
    rw [List.length_cons] at hn
    have hfirst : readEntry tile run s d = s.homeRead (d.2.1 / 128) false := by rw [readEntry, walkLine_off hoff]
    obtain ⟨hbare, hheld⟩ := h.homeRead (by omega) (d.2.1 / 128)
    have hbeyond := beyond_homeRead s (d.2.1 / 128) false
    obtain ⟨hbare', hheld', hbeyond'⟩ := ih hbare (by omega) ((itinMode_of_beyond hbeyond run).trans hoff)
    rw [List.foldl_cons, hfirst]
    refine ⟨?_, hheld'.trans hheld, hbeyond'.trans hbeyond⟩
    rw [List.length_cons, show n + (l.length + 1) = n + 1 + l.length by omega]
    exact hbare'
end

/-- A walk reads at most one entry at each level. -/
theorem length_walkEntries (s : State) (tile run gen asid va : Nat) (n table : Nat) :
    (s.walkEntries tile run gen asid va n table).length ≤ n := by
  induction n generalizing table with
  | zero => exact Nat.le_refl _
  | succ n ih =>
    unfold State.walkEntries
    split
    · exact (ih _).trans (Nat.le_succ n)
    · dsimp only
      rw [List.length_cons]
      split
      · simp
      · exact Nat.succ_le_succ (ih _)

-- The walk takes effect.

/-- The entries of its table that a walk has read. -/
def readOf (s : State) (w : Who) (va : Nat) : List (Nat × Nat × Nat) :=
  let sp := s.space w.run
  s.walkEntries w.tile sp.2.1 sp.2.2.1 sp.2.2.2 va 4 sp.1

/-- The translation of a page, for a TLB or a walk cache. -/
def tlbEntry (s : State) (w : Who) (va unit level e : Nat) : TlbEntry :=
  let sp := s.space w.run
  { unit := unit, run := sp.2.1, gen := sp.2.2.1, asid := sp.2.2.2, page := va / 2 ^ levelShift level, level := level,
    pte := BitVec.ofNat 64 e }

/-- The leaf is written back where it has changed. -/
def writtenBack (w : Who) (write : Bool) (pte addr : Nat) (s : State) : State :=
  if usedPte w write pte = pte then s else s.storePte addr (usedPte w write pte)

/-- Releases that the walk ends, begun by it or before it. -/
def releasesDone (w : Who) (pte level pa : Nat) (s : State) : State :=
  (if w.releases pte then s.releasePrivate (bitsOf pte 13 11) pte level else s).endReleases pa

theorem useWalk_eq {s : State} {w : Who} {write : Bool} {l : Located} {pte level addr : Nat} (h : l.walk = some (pte, level, addr)) :
    s.useWalk w write l = (w.core.toList ++ [2048 + w.tile]).foldl
      (fun v u => v.addTlb (tlbEntry s w l.part.va u level (usedPte w write pte)))
      (((readOf s w l.part.va).filter fun d => d.2.1 != addr).foldl
        (fun v d => v.addTlb (tlbEntry s w l.part.va (4096 + dieOfTile w.tile) d.1 d.2.2))
        (releasesDone w pte level (leafPa pte level l.part.va) (writtenBack w write pte addr
          ((readOf s w l.part.va).foldl (readEntry w.tile (s.space w.run).2.1) s)))) := by
  unfold State.useWalk
  rw [h]
  rfl

/-- What the bytes of memory rest on, with the registers that place them. -/
def backing (s : State) : Sparse (BitVec 64) × Memory × Stash := (s.regs, s.mem, s.stash)

theorem backing_addTlb (s : State) (x : TlbEntry) : backing (s.addTlb x) = backing s := by
  rw [addTlb_eq]
  rfl

theorem backing_releasesDone (w : Who) (pte level pa : Nat) (s : State) : backing (releasesDone w pte level pa s) = backing s := by
  have hend (v : State) : backing (v.endReleases pa) = backing v := by
    unfold State.endReleases
    refine foldl_keeps backing (fun v x => ?_) _ v
    rfl
  unfold releasesDone
  rw [hend]
  split <;> rfl

theorem held_of_backing {s u : State} (h : backing u = backing s) : held u = held s ∧ ∀ k, u.reg k = s.reg k := by
  simp only [backing, Prod.mk.injEq] at h
  obtain ⟨hregs, hmem, hstash⟩ := h
  refine ⟨by rw [held, held, hmem, hstash], fun k => ?_⟩
  rw [State.reg, State.reg, hregs]

theorem backing_useWalk {s : State} {w : Who} {write : Bool} {l : Located} {pte level addr : Nat} (h : l.walk = some (pte, level, addr)) :
    backing (s.useWalk w write l) =
      backing (writtenBack w write pte addr ((readOf s w l.part.va).foldl (readEntry w.tile (s.space w.run).2.1) s)) := by
  rw [useWalk_eq h, foldl_keeps backing fun v u => backing_addTlb v _, foldl_keeps backing fun v d => backing_addTlb v _,
    backing_releasesDone]

/-- The core's TLB and its tile's hold the leaf as the walk has left it. -/
theorem mem_tlb_useWalk {s : State} {w : Who} {write : Bool} {l : Located} {pte level addr core : Nat} (hcore : w.core = some core)
    (h : l.walk = some (pte, level, addr)) {unit : Nat} (hunit : unit = core ∨ unit = 2048 + w.tile) :
    tlbEntry s w l.part.va unit level (usedPte w write pte) ∈ (s.useWalk w write l).tlb := by
  rw [useWalk_eq h, hcore, Option.toList_some, List.singleton_append, List.foldl_cons, List.foldl_cons, List.foldl_nil]
  by_cases hlast : unit = 2048 + w.tile
  · rw [hlast]
    exact mem_addTlb_self _ _
  · obtain rfl := hunit.resolve_right hlast
    exact mem_addTlb_other (mem_addTlb_self _ _) hlast

section
variable {s : State} {w : Who} {write : Bool} {l : Located} {pte level addr run : Nat} (h : l.walk = some (pte, level, addr))
  (hrun : w.run = some run) (hcoh : s.coh = State.reset.coh) (hlines : s.stash.lines = []) (hoff : s.itinMode run = none)
include hrun hcoh hlines hoff

/-- The reads of a walk find no copies and leave every byte. -/
theorem readOf_keeps : let v := (readOf s w l.part.va).foldl (readEntry w.tile (s.space w.run).2.1) s
    Bare v 4 ∧ held v = held s ∧ beyondHomes v = beyondHomes s := by
  have hbare : Bare s 0 := ⟨hlines, by rw [hcoh]; rfl, by rw [hcoh]; rfl, by rw [hcoh]; rfl, by rw [hcoh]; simp [State.reset],
    by rw [hcoh]; simp [State.reset]⟩
  have hlen : (readOf s w l.part.va).length ≤ 4 := length_walkEntries ..
  have hspace : (s.space w.run).2.1 = run := by rw [hrun]; rfl
  obtain ⟨hkept, hheld, hbeyond⟩ := hbare.readEntries (tile := w.tile) (run := (s.space w.run).2.1) (readOf s w l.part.va) (by omega)
    (by rw [hspace, hoff])
  exact ⟨⟨hkept.lines, hkept.l1, hkept.l2, hkept.replicas, hkept.own, hkept.few.trans (by omega)⟩, hheld, hbeyond⟩

include h

/-- A walk that leaves its leaf as it was changes no byte. -/
theorem sameBytes_useWalk (hpte : usedPte w write pte = pte) : s.SameBytes (s.useWalk w write l) := by
  obtain ⟨-, hheld, hbeyond⟩ := readOf_keeps (l := l) hrun hcoh hlines hoff
  obtain ⟨hback, hregs⟩ := held_of_backing (backing_useWalk (s := s) (w := w) (write := write) h)
  rw [writtenBack, if_pos hpte] at hback hregs
  exact sameBytes_of_held (hback.trans hheld) fun k hk => (hregs k).trans (mapsMemory_of_beyond hbeyond k hk)

/-- Else the word of the leaf stands in the table as the walk has left it. -/
theorem lineAt_useWalk (hpte : usedPte w write pte ≠ pte) (hb : s.backed (addr / 128 * 128) = true)
    (hd : s.isSystem (addr / 128 * 128) = false) (hchip : Sparse.get? s.mem.chip (addr / 128) = none) :
    (s.useWalk w write l).lineAt (addr / 128) 0 = mergeLine (byteMask (addr % 128) 8) (s.lineAt (addr / 128) 0)
      (putLine 0 (addr % 128) 8 (usedPte w write pte)) := by
  obtain ⟨hbare, hheld, hbeyond⟩ := readOf_keeps (l := l) hrun hcoh hlines hoff
  obtain ⟨hback, hregs⟩ := held_of_backing (backing_useWalk (s := s) (w := w) (write := write) h)
  rw [writtenBack, if_neg hpte] at hback hregs
  rw [lineAt_of_held hback fun k _ => hregs k]
  obtain ⟨hbv, hdv⟩ := backed_of_beyond hbeyond (addr / 128 * 128)
  have huncopied : Uncopied ((readOf s w l.part.va).foldl (readEntry w.tile (s.space w.run).2.1) s) (addr / 128) :=
    ⟨hbare.lines, hbare.l1, hbare.l2, hbare.replicas, by rw [chip_of_held hheld, hchip]⟩
  rw [lineAt_storePte huncopied (hbv.trans hb) (hdv.trans hd), lineAt_of_held hheld (mapsMemory_of_beyond hbeyond)]
end

-- PRIVATE_RELEASE (R210).

/-- A core gives up a page of its own: its translations, its tile's with them, and the lines of it in its L1D. -/
theorem releasePrivate_spec (s : State) (core pte level : Nat) :
    let base := leafPa pte level 0
    let u := s.releasePrivate core pte level
    u = { s with coh := u.coh, tlb := u.tlb } ∧ s.SameBytes u ∧
      u.tlb = s.tlb.filter (fun x => !((x.unit == core || x.unit == 2048 + core / 8) && leafPa x.pte.toNat x.level 0 == base)) ∧
      ∀ x, x ∈ u.coh.l1 ↔ x ∈ s.coh.l1 ∧
        ¬(x.core = core ∧ x.icache = false ∧ base ≤ 128 * x.line ∧ 128 * x.line < base + 2 ^ levelShift level) := by
  intro base u
  refine ⟨rfl, sameBytes_of_eq (fun _ _ => rfl) rfl rfl, rfl, fun x => ?_⟩
  have hl1 : u.coh.l1 = s.coh.l1.filter fun l => !(l.core == core && !l.icache && decide (base ≤ l.line * 128) &&
      decide (l.line * 128 < base + 2 ^ levelShift level)) := rfl
  rw [hl1, List.mem_filter, Nat.mul_comm 128, Bool.not_eq_true', ← Bool.not_eq_true]
  refine and_congr_right fun _ => not_congr ?_
  simp [and_assoc]

end Sys2Proof.Proofs
end

