-- ==== Sys2Proof/Proofs/ConflictSteps.lean ====
section
/-! O53: marks at the homes, probes and restores (R135 to R141, R146), walks and PRIVATE_RELEASE (R168, R171, R210). -/
namespace Sys2Proof.Proofs
open Sys2Proof Sys2Proof.Machine Sys2Proof.Laws

/-- Who walks for a core of a run. -/
def walker (run core : Nat) : Who :=
  { agent := .thread (core * 8), tile := core / 8, core := some core, run := some run, issuer := core, th := core * 8, remote := [] }

section
variable {s : State} {run core va : Nat} {write : Bool} (hcore : isInnkeeperCore core = false)
include hcore

theorem pageWalk_located {l : Located} (h : s.locate (walker run core) (if write then .write else .read) va 1 = .ok l) :
    s.pageWalk run core va write = s.useWalk (walker run core) write l := by
  unfold walker at h ⊢
  unfold State.pageWalk
  simp only [hcore, Bool.false_eq_true, if_false, h]

theorem pageWalk_none (h : ∀ l, s.locate (walker run core) (if write then .write else .read) va 1 = .ok l → l.walk = none) :
    s.pageWalk run core va write = s := by
  cases hfound : s.locate (walker run core) (if write then .write else .read) va 1 with
  | ok l =>
    rw [pageWalk_located hcore hfound, State.useWalk, h l hfound]
  | error e =>
    unfold walker at hfound
    unfold State.pageWalk
    simp only [hcore, Bool.false_eq_true, if_false, hfound]
end

/-- A probe that finds a Lodge's one entry: where it may abort it and the filters conflict it does, and else it changes no more than the
count of false positives. -/
theorem probe_outcome {s : State} {tile run line n th cause : Nat} {e : CqEntry} (h : Lone s tile n th e) (p : Nat × CqEntry → Bool) :
    (p (n, e) = false → ∃ v, probeLodge s tile run line cause p = { s with dbg := { s.dbg with pmcVal := v } } ∧
      (e.falsePositive line = false → v = s.dbg.pmcVal)) ∧
    (p (n, e) = true → let u := probeLodge s tile run line cause p
      (u.lodge tile).cq = [] ∧ (u.lodge tile).queue = (s.lodge tile).queue ++ [e.task.aborted true] ∧
        u.thread? th = none ∧ s.OtherThreads u th ∧ u.stores = s.stores.filter (fun x => x.specid != some (e.id tile n)) ∧ s.SameBytes u ∧
        ∀ o, o ≠ tile → u.lodge o = s.lodge o) := by
  have hcount := countFalseAt_eq s tile line run
  refine ⟨fun hp => ?_, fun hp => ?_⟩
  · rw [probeLodge_one h.cq, hp]
    exact ⟨_, hcount, fun hexact => by rw [countFalseAt_exact h.cq hexact]⟩
  · intro u
    have hu : u = (s.countFalseAt tile line run).abort ⟨true, false, cause⟩ tile n := by
      show probeLodge s tile run line cause p = _
      rw [probeLodge_one h.cq, hp]
      rfl
    generalize s.countFalseAt tile line run = v at hcount hu
    generalize v.dbg.pmcVal = q at hcount
    subst hcount
    have hlone : Lone { s with dbg := { s.dbg with pmcVal := q } } tile n th e :=
      ⟨h.cq, h.th, h.finished, h.aborting, h.log, h.children, h.ovf, h.depart, h.creator⟩
    rw [hu]
    exact hlone.aborted cause

/-- Settles O53, step by step. -/
theorem conflictSteps : Obligations.ConflictSteps := by
  unfold Obligations.ConflictSteps
  refine ⟨?mark, ?probe, ?unlogged, ?restore, ?answer, ?walk, ?release⟩
  case mark =>
    intro s tile run line
    refine ⟨_, rfl, fun hl3 hl2 => ?_⟩
    obtain ⟨hsrm, hsrun, hswm, hsrm3, hswm3, hothers2, hothers3, hrest⟩ := markSpec_room (run := run) hl3 hl2
    exact ⟨hsrm, hsrun, hswm, hsrm3, hswm3, hothers2, hothers3, eq_of_beyondCoh hrest, sameBytes_of_beyondCoh hrest⟩
  case probe =>
    intro s tile run line n id th ts tb e cv i conflict hcq hrun hth hfinished haborting hlog hchildren hovf hdepart hcreator hprobe
      earliest prober later own
    obtain ⟨cause, p, hexec, hp⟩ : ∃ cause p, exec i s = .next (probeLodge s tile run line cause p) ∧
        p (n, e) = (mayAbort s tile run ⟨ts, tb⟩ prober (n, e) && conflict) := by
      obtain ⟨rfl, rfl⟩ | ⟨rfl, rfl⟩ := hprobe
      · exact ⟨_, _, congrArg Host.Outcome.next (storeProbe_eq s tile run line cv ⟨ts, tb⟩ prober), rfl⟩
      · exact ⟨_, _, congrArg Host.Outcome.next (loadProbe_eq s tile run line ⟨ts, tb⟩ prober), rfl⟩
    have hmay : mayAbort s tile run ⟨ts, tb⟩ prober (n, e) = (!earliest && later && own != prober) := by
      unfold mayAbort
      rw [beq_iff_eq.2 hrun, Bool.true_and, State.entryEarliest, hrun]
      rfl
    have hlone : Lone s tile n th e := ⟨hcq, hth, hfinished, haborting, hlog, hchildren, hovf, hdepart, hcreator⟩
    obtain ⟨hspares, haborts⟩ := probe_outcome (run := run) (line := line) (cause := cause) hlone p
    rw [hexec]
    refine ⟨fun hno => ?_, fun hearliest hlater hown hconflict => ⟨_, rfl, haborts ?_⟩⟩
    · obtain ⟨v, hv, hexact⟩ := hspares (by
        rw [hp, hmay]
        rcases hno with h | h | h | h <;> simp [h])
      exact ⟨v, congrArg Host.Outcome.next hv, hexact⟩
    · rw [hp, hmay, hearliest, hlater, hconflict]
      simpa using hown
  case unlogged => exact fun s tile h => congrArg Host.Outcome.next (restoreNext_none h)
  case restore =>
    intro s tile n e x rest hcq haborting hlog hvalid hkey hcoh hlines _ hb hd hchip
    exact ⟨_, rfl, restoreNext_spec hcq haborting hlog hvalid hkey hcoh hlines hb hd hchip⟩
  case answer =>
    intro s tile line
    refine ⟨fun hnone => ⟨?_, fun hswm hsrm => congrArg Host.Outcome.next (repeatProbe_unmarked hnone hswm hsrm)⟩, fun run hsome => ?_⟩
    · exact congrArg Host.Outcome.next (by rw [State.probeAnswer, hnone])
    · have hanswer : s.probeAnswer tile line = if s.tileMatches tile run line then s else s.unmark tile line := by
        rw [State.probeAnswer, hsome]
      have hrest := repeatProbe_rest hsome
      refine ⟨fun hmatch => ?_, fun hmatch => ?_, _, rfl, hrest, ?_, fun t => ?_⟩
      · exact congrArg Host.Outcome.next (hanswer.trans (if_pos hmatch))
      · have hclear := marks_unmark_same s tile line
        refine ⟨_, congrArg Host.Outcome.next (hanswer.trans (if_neg (by simp [hmatch]))), congrArg Prod.fst hclear, congrArg Prod.snd hclear,
          eq_of_beyondCoh (beyondCoh_unmark s tile line), sameBytes_of_beyondCoh (beyondCoh_unmark s tile line)⟩
      · rw [hrest]
        exact sameBytes_of_eq (fun _ _ => rfl) rfl rfl
      · have hmarks := marked_repeatProbe hsome t
        exact ⟨congrArg Prod.fst hmarks, congrArg Prod.snd hmarks⟩
  case walk =>
    intro s run core va write hcore w found
    refine ⟨fun h => congrArg Host.Outcome.next (pageWalk_none hcore h), fun l pte level addr hfound hwalk _ => ?_⟩
    have hbit {k : Nat} (hk : k < 11 ∨ 24 ≤ k) : (usedPte w write pte).testBit k = _ :=
      (testBit_usedPte (w := w) rfl write hk).trans (testBit_touched write pte k)
    refine ⟨_, usedPte w write pte, congrArg Host.Outcome.next (pageWalk_located hcore hfound), ?_, ?_, fun hfirst => ?_, fun hcls howner => ?_,
      fun k hk => ?_, fun unit hunit => ?_, fun hcoh hlines _ hoff => ⟨fun hsame => ?_, fun hchanged hb hd hchip => ?_⟩⟩
    · exact hbit (.inl (by decide))
    · exact hbit (.inl (by decide))
    · rw [usedPte_first rfl write hfirst]
      exact ⟨(bitsOf_putField_other (by decide)).trans (bitsOf_putField_same ..), bitsOf_putField_same ..⟩
    · rw [usedPte_leaves rfl write hcls howner]
      exact bitsOf_putField_same ..
    · rw [hbit (by omega), if_neg (by omega), if_neg (by omega)]
    · exact ⟨_, mem_tlb_useWalk rfl hwalk hunit, rfl, rfl, rfl, rfl, rfl⟩
    · exact sameBytes_useWalk hwalk rfl hcoh hlines hoff hsame
    · exact lineAt_useWalk hwalk rfl hcoh hlines hoff hchanged hb hd hchip
  case release =>
    intro s core page
    refine ⟨fun hnone => congrArg Host.Outcome.next ?_, fun e hfind => ?_⟩
    · have hnot : s.tlb.find? (fun e => e.unit == core && leafPa e.pte.toNat e.level 0 / 2 ^ 16 == page) = none :=
        List.find?_eq_none.2 fun e he => by simpa using hnone e he
      rw [State.privateRelease, hnot]
    · intro base
      have hrelease : s.privateRelease core page =
          if s.fillsPrivate core (leafPage e.pte.toNat e.level) then s else s.releasePrivate core e.pte.toNat e.level := by
        rw [State.privateRelease, hfind]
      refine ⟨fun hfills => congrArg Host.Outcome.next (hrelease.trans (if_pos hfills)), fun hfree => ?_⟩
      exact ⟨_, congrArg Host.Outcome.next (hrelease.trans (if_neg (by rw [leafPage, hfree]; decide))),
        releasePrivate_spec s core e.pte.toNat e.level⟩

end Sys2Proof.Proofs
end

