-- ==== Sys2Proof/Proofs/StoreAtHome.lean ====
section
/-! The store that does not leave flight (R41, R47): another store carries its number, and the key slot that this other one names is
empty. -/
namespace Sys2Proof.Proofs
open Sys2Proof Sys2Proof.Machine

/-- A plain store of eight bytes of slot 8, whose thread is no more, to an address under a key slot. -/
def orphanStore (place : Place) (key : Nat) : PendStore :=
  { id := 7, agent := .thread 8, run := 0, key := Key.zero, specid := none, seq := 3,
    part := { va := 0, place := place, pa := 64, len := 8, cls := .u, key := key, sub := false, priv := false, bias := false, remote := false },
    mask := byteMask 64 8, data := putLine 0 64 8 5, op := .write, cls := .u, rel := none, after := 0, log := none, hint := 0 }

/-- The store of the value 5 to offset 64 of tile 0's stash. -/
def stashStore : PendStore := orphanStore (.stash 0) 0

/-- After reset, with that store in flight and another of the same number, to device memory under key slot 5, which holds no key. The
device numbers its stores apart; the obligation takes this state as any other. -/
def twoOfOneNumber : State := { State.reset with stores := [stashStore, orphanStore .line 5] }

/-- The thread's order and the stash let the store be performed. -/
theorem stashStore_ready : twoOfOneNumber.storeReady stashStore = (true, twoOfOneNumber) := by decide +kernel

/-- The two trap for the empty key slot, and without their thread they are lost: the stash keeps what it held. -/
theorem stashStore_lost : twoOfOneNumber.performStore stashStore = State.reset := by decide +kernel

/-- STORE_AT_HOME of the store. -/
theorem storeAtHome_twoOfOneNumber : exec (.storeAtHome 7) twoOfOneNumber = .next State.reset := by
  have hfind : twoOfOneNumber.stores.find? (fun y => y.id == 7) = some stashStore := rfl
  show execStoreAtHome 7 twoOfOneNumber = _
  unfold execStoreAtHome
  rw [hfind]
  dsimp only
  rw [stashStore_ready, if_pos rfl, stashStore_lost]

/-- The stash line with the store's bytes is another than the one it holds after reset. -/
theorem stashStore_changes_line :
    State.reset.stashData 0 64 ≠ mergeLine stashStore.mask (twoOfOneNumber.stashData 0 64) stashStore.data := by decide +kernel

/-- Refutes O43 at a store to a stash: it says that in every state such a store is performed, and where another store carries the same
number and names an empty key slot, the two trap together, as the parts of a packed block do (R47, R266), and are lost with their thread. -/
theorem not_storeAtHome : ¬ Obligations.StoreAtHome := by
  unfold Obligations.StoreAtHome
  intro h
  obtain ⟨-, hperforms⟩ := h twoOfOneNumber 7 8 stashStore rfl rfl
  obtain ⟨hstash, -⟩ := hperforms (by decide +kernel) rfl rfl rfl rfl rfl rfl
  obtain ⟨u, hstep, -, hline, -⟩ := hstash 0 rfl rfl (by decide)
  obtain rfl := Host.Outcome.next.inj (storeAtHome_twoOfOneNumber.symm.trans hstep)
  exact stashStore_changes_line hline

end Sys2Proof.Proofs
end

