-- ==== Sys2Proof/Proofs/CoherenceSteps.lean ====
section
/-! The ownership that brings a mapped line up to date (R201, R221, R226, R232): the die's own waystation has a collapse still to
acknowledge, and behind it a stash holds the line in update mode as it stood before. -/
namespace Sys2Proof.Proofs
open Sys2Proof Sys2Proof.Machine

/-- Line 0x300 in tile 67's stash, at offset 0: clean, in update mode. -/
def mappedCopy : MapLine :=
  { tile := 67, off := 0, pa := 0x300, key := 0, cls := .u, dirty := false, upd := true, by_ := [], held := [] }

/-- Die 1's L2 home records tile 67, its fourth, in update mode. -/
def updatedL2 : L2Entry := { L2Entry.new 1 0x300 with recs := [(3, .full, true)] }

/-- The L3 home records die 1 so, and waits for its waystation's acknowledgement. -/
def awaitingL3 : L3Entry := { L3Entry.new 0x300 with cpq := 2, drec := [none, some (.full, true), none, none], data := true }

/-- Memory is enabled and locked. A store has cleared the line and its lazy collapse is on its way to quadrant 1; byte 0 of the mapped
copy there is still 1. -/
def staleBehindCollapse : State :=
  let s := State.reset.setReg 0x008 (2 ^ 63 + 64)
  { s with
    stash := { s.stash with cells := [(2 ^ 20 * 67, 1)], lines := [mappedCopy] }
    coh := { s.coh with l2 := [updatedL2], l3 := [awaitingL3],
                        collapses := [{ quad := 1, line := 0x300, cv := 1, charged := [], held := [] }] } }

/-- Die 1 may obtain ownership of the line. -/
theorem staleBehindCollapse_obtains : (staleBehindCollapse.l3 0x300).hw = false ∧ (staleBehindCollapse.l3 0x300).own = none ∧
    staleBehindCollapse.locked = true ∧ (staleBehindCollapse.l3 0x300).drec.length = 4 := by decide +kernel

/-- Its collapse is acknowledged then, and the tile in update mode receives the line as it stands. -/
theorem obtain_updates_mapped : cellRead (staleBehindCollapse.obtain 1 0x300).stash.cells (2 ^ 20 * 67) = 0 := by decide +kernel

/-- Refutes O59 at OWNERSHIP_REQUEST: it says that no byte of a stash changes where nothing has to make room and no die owned the line,
and where a collapse stands before the die's own waystation, its mapped copies in update mode receive the line's new bytes (R221). -/
theorem not_coherenceSteps : ¬ Obligations.CoherenceSteps := by
  unfold Obligations.CoherenceSteps
  rintro ⟨-, -, hownership, -⟩
  obtain ⟨hhw, hown, hlocked, hdies⟩ := staleBehindCollapse_obtains
  obtain ⟨-, hobtains, -⟩ := hownership staleBehindCollapse 1 0x300
  obtain ⟨u, hstep, -, -, -, hsame⟩ := hobtains hhw (by rw [hown]; decide) (by decide)
    (fun hwaits => by rw [hlocked] at hwaits; exact absurd hwaits.1 (by decide)) hdies
  obtain ⟨-, hcells⟩ := hsame (by decide) (by decide) hown
  obtain rfl := Host.Outcome.next.inj (show Host.Outcome.next (staleBehindCollapse.obtain 1 0x300) = .next u from hstep)
  have hbyte : cellRead staleBehindCollapse.stash.cells (2 ^ 20 * 67) = 1 := rfl
  have hkept := hcells (2 ^ 20 * 67)
  rw [obtain_updates_mapped, hbyte] at hkept
  exact absurd hkept (by decide)

end Sys2Proof.Proofs
end

