-- ==== Sys2Proof/Proofs/IssueForms.lean ====
section
/-! What an encoded instruction brings to the issue checks of R293: the header of its words, its mark (R159), the registers it names
(R158), and for opcode 0x7F its privilege (R303). -/
namespace Sys2Proof.Proofs
open Sys2Proof Sys2Proof.Machine Sys2Proof.Laws

-- The parts of an encoding that leave its header and its opcode alone.

theorem hdr_withAddr {r : Raw} {h : Hdr} (x : Addr) (hr : r.hdr = h) : h = (r.withAddr x).hdr := by
  unfold Raw.withAddr
  split <;> exact hr.symm

theorem hdr_withSel {r : Raw} {h : Hdr} (n : RegSel) (hr : r.hdr = h) : h = (r.withSel n).hdr := by cases n <;> exact hr.symm

theorem hdr_withAcc {r : Raw} {h : Hdr} (c : Option WReg) (hr : r.hdr = h) : h = (r.withAcc c).hdr := by cases c <;> exact hr.symm

theorem op_withAddr (r : Raw) (x : Addr) : (r.withAddr x).op = r.op := by
  unfold Raw.withAddr
  split <;> rfl

theorem op_withAcc (r : Raw) (c : Option WReg) : (r.withAcc c).op = r.op := by cases c <;> rfl

-- The forms.

/-- Executing i is issuing it with header h: marked as R159 says, and naming its operands unless it acts as marked. -/
def IssuesWith (i : Instr) (s : State) (h : Hdr) : Prop :=
  ∃ x body, exec i s = issue s x body ∧
    ∀ t, (x t).h = h ∧ (x t).marked = i.actsMarked ∧ (i.actsMarked = false → i.names ⊆ (x t).names)

/-- Every encoded instruction is issued with the header of its words. -/
theorem exec_issuesWith {i : Instr} {r : Raw} (h : encodeRaw i = some r) (s : State) : IssuesWith i s r.hdr := by
  cases i with
  | nop _ ext => cases ext <;> cases h <;> exact ⟨_, _, rfl, fun _ => ⟨rfl, rfl, fun _ => List.Subset.refl _⟩⟩
  | vmul _ hi => cases hi <;> cases h <;> exact ⟨_, _, rfl, fun _ => ⟨rfl, rfl, fun _ => List.Subset.refl _⟩⟩
  | plog _ op | mlog _ op | vfsgn _ op | vlog _ op =>
    cases h
    refine ⟨_, _, rfl, fun _ => ⟨rfl, rfl, fun _ => ?_⟩⟩
    cases op <;> simp [Instr.names, namesW]
  | atomRed _ op =>
    cases h
    refine ⟨_, _, rfl, fun _ => ⟨hdr_withAddr _ rfl, rfl, fun _ => ?_⟩⟩
    cases op <;> simp [Instr.names]
  | sysr | sysw =>
    cases h
    exact ⟨_, _, rfl, fun _ => ⟨hdr_withSel _ rfl, rfl, fun _ => List.Subset.refl _⟩⟩
  | vfred | vred =>
    cases h
    exact ⟨_, _, rfl, fun _ => ⟨hdr_withAcc _ rfl, rfl, fun _ => by simp [Instr.names, namesW]⟩⟩
  | vsel =>
    cases h
    exact ⟨_, _, rfl, fun _ => ⟨rfl, rfl, fun _ => by simp [Instr.names, namesW]⟩⟩
  | purge | cflush | cinval | ld | st | lds | gather | scatter | pref | sbind | atomAdd | atomMin | atomMax | atomAnd | atomOr
  | atomXor | atomSwap | atomCas | ctradd | ctrread | ctrwait | ctrarriveMax | ctrarriveSum | stashunmap | stashflush =>
    cases h
    exact ⟨_, _, rfl, fun _ => ⟨hdr_withAddr _ rfl, rfl, fun _ => List.Subset.refl _⟩⟩
  | mma | mmaq | mmab | accld | accst =>
    cases h
    refine ⟨_, _, rfl, fun _ => ⟨rfl, rfl, fun _ n hn => ?_⟩⟩
    simp only [Instr.names, matNames, matSpec, pastE, List.mem_append, List.mem_cons, List.not_mem_nil] at hn ⊢
    grind
  | _ => cases h <;> exact ⟨_, _, rfl, fun _ => ⟨rfl, rfl, fun _ => List.Subset.refl _⟩⟩

/-- Executing i is issuing it with header h as a privileged instruction that no state makes ill-formed. -/
def IssuesPrivileged (i : Instr) (s : State) (h : Hdr) : Prop :=
  ∃ x body, exec i s = issue s x body ∧ ∀ t, (x t).h = h ∧ (x t).priv = true ∧ (x t).ill = false

/-- Opcode 0x7F holds the privileged instructions and cflush alone (R303). -/
theorem exec_issuesPrivileged {i : Instr} {r : Raw} (h : encodeRaw i = some r) (hop : r.op = 0x7F)
    (hflush : ∀ h x b, i ≠ .cflush h x b) (s : State) : IssuesPrivileged i s r.hdr := by
  cases i with
  | cflush g x b => exact absurd rfl (hflush g x b)
  | sysr | sysw =>
    cases h
    exact ⟨_, _, rfl, fun _ => ⟨hdr_withSel _ rfl, rfl, rfl⟩⟩
  | purge | cinval =>
    cases h
    exact ⟨_, _, rfl, fun _ => ⟨hdr_withAddr _ rfl, rfl, rfl⟩⟩
  | faultreplyRetry | faultreplyRemote | faultreplyKilltask | faultreplyKillrun | fltwait | tlbinvPage | tlbinvAsid | tlbinvAll =>
    cases h
    exact ⟨_, _, rfl, fun _ => ⟨rfl, rfl, rfl⟩⟩
  | nop _ ext => cases ext <;> cases h <;> cases hop
  | atomRed _ op =>
    cases h
    cases op <;> cases (op_withAddr _ _).symm.trans hop
  | vfred | vred =>
    cases h
    cases (op_withAcc _ _).symm.trans hop
  | ld | st | lds | gather | scatter | pref | sbind | atomAdd | atomMin | atomMax | atomAnd | atomOr | atomXor | atomSwap | atomCas
  | ctradd | ctrread | ctrwait | ctrarriveMax | ctrarriveSum | stashunmap | stashflush =>
    cases h
    cases (op_withAddr _ _).symm.trans hop
  | _ => cases h <;> cases hop

-- The checks that stop an instruction (R293), after that for ILLOP.

/-- A marked instruction with a result pending parks at the marker (R157, R159). -/
theorem issue_marked {s : State} {t : Thread} (x : Thread → Issue) (body : Thread → State) (ht : s.thread? s.focus = some t)
    (hpend : t.pend ≠ 0) (hmark : (x t).h.sw = true ∨ (x t).marked = true) :
    issue s x body = .next (s.parkAt s.focus .marker) ∨ issue s x body = .next (s.trap s.focus (.plain .illop)) := by
  cases hill : (x t).ill with
  | true => exact .inr (by simp [issue, ht, hill])
  | false =>
    have hstops : (((x t).h.sw || (x t).marked) && t.pend != 0) = true := by simpa [hmark] using hpend
    exact .inl (by simp only [issue, ht, hill, hstops]; rfl)

/-- An unmarked instruction that names a pending register parks for PENDREAD (R158). -/
theorem issue_pendread {s : State} {t : Thread} {n : Nat} (x : Thread → Issue) (body : Thread → State)
    (ht : s.thread? s.focus = some t) (hsw : (x t).h.sw = false) (hmark : (x t).marked = false) (hn : n ∈ (x t).allNames)
    (hpend : t.pending n = true) :
    issue s x body = .next (s.parkAt s.focus .pendread) ∨ issue s x body = .next (s.trap s.focus (.plain .illop)) := by
  have hany : (x t).allNames.any t.pending = true := List.any_eq_true.mpr ⟨n, hn, hpend⟩
  cases hill : (x t).ill with
  | true => exact .inr (by simp [issue, ht, hill])
  | false => exact .inl (by simp only [issue, ht, hill, hsw, hmark, hany]; rfl)

/-- A privileged instruction with nothing pending and a true guard traps on a core that is no Innkeeper's (R303). -/
theorem issue_unprivileged {s : State} {t : Thread} (x : Thread → Issue) (body : Thread → State) (ht : s.thread? s.focus = some t)
    (hill : (x t).ill = false) (hpend : t.pend = 0) (hguard : t.guard (x t).h.pg = true) (hpriv : (x t).priv = true)
    (hcore : ¬s.Privileged) : issue s x body = .next (s.trap s.focus (.plain .priv)) := by
  have hcore : isInnkeeperCore (coreOf s.focus) = false := Bool.not_eq_true _ ▸ hcore
  simp [issue, ht, hill, hpend, hguard, hpriv, hcore, Thread.pending]

/-- Parking is all that becomes of an instruction that parks. -/
theorem becomes_of_park {s : State} {i : Instr} {t : Thread} {p : Park} (ht : s.thread? s.focus = some t)
    (h : exec i s = .next (s.parkAt s.focus p)) : s.Becomes i { t with park := p } := by
  refine becomes_of_set s i _ (h.trans ?_)
  rw [State.parkAt, onThread_eq s _ t _ ht]

end Sys2Proof.Proofs
end

