-- ==== Sys2Proof/Proofs/IssueChecks.lean ====
section
/-! O6, O12 and O15: every instruction answers, waits or traps for what is pending, and traps where it lacks privilege. -/
namespace Sys2Proof.Proofs
open Sys2Proof Sys2Proof.Machine Sys2Proof.Laws

/-- Settles O6: an event is a step of its agent, and an instruction is an issue, which a thread in the focus slot always answers. -/
theorem execAnswers : Obligations.ExecAnswers := fun i _ h => exec_next h i

/-- SWITCH_MARKER_WAKE changes at most the slot it names. -/
theorem markerWake_frame (s : State) (th : Nat) :
    s.OtherThreads (s.markerWake th) th ∧ s.markerWake th = { s with threads := (s.markerWake th).threads } := by
  unfold State.markerWake
  cases ht : s.thread? th with
  | none => rw [onThread_none _ _ _ ht]; exact ⟨fun _ _ => rfl, rfl⟩
  | some t => rw [onThread_eq _ _ _ _ ht]; exact ⟨fun n hn => thread?_setThread_other s th n _ hn, rfl⟩

/-- It lets the thread go on that is parked at a marker with nothing pending (R157). -/
theorem thread?_markerWake {s : State} {th : Nat} {t : Thread} (ht : s.thread? th = some t) :
    (s.markerWake th).thread? th = some (if t.park = .marker ∧ t.pend = 0 then { t with park := .run } else t) := by
  simp [State.markerWake, onThread_eq _ _ _ _ ht]

theorem setPend_unpendable (t : Thread) {n : Nat} (hn : n = numM 0 ∨ n = numP 0) : t.setPend n = t := if_pos hn

/-- A thread parked for PENDREAD takes the trap once no result is outstanding (R158). -/
theorem endPendread_eq {s : State} {t : Thread} {th : Nat} (ht : s.thread? th = some t) (hpark : t.park = .pendread) :
    s.endPendread th = if t.outs = [] then
      (s.countEvt (tileOf th) 0x0D (t.task.map fun k => k.run) 1).trap th (.plain .pendread) else s := by
  simp [State.endPendread, ht, hpark]

/-- Settles O12, by the issue form of the encoded instructions: its mark and its header decide which check stops it. -/
theorem pendingChecks : Obligations.PendingChecks := by
  refine ⟨?marked, ?unmarked, fun s th => ⟨_, rfl, (markerWake_frame s th).1, (markerWake_frame s th).2,
    fun t ht => thread?_markerWake ht⟩, fun t n => setPend_unpendable t, fun s t th => endPendread_eq⟩
  case marked =>
    intro s t i r henc _ ht hpend hmark
    obtain ⟨x, body, hexec, hx⟩ := exec_issuesWith henc s
    obtain ⟨hh, hmarked, -⟩ := hx t
    rw [hexec]
    refine (issue_marked x body ht hpend (by rw [hh, hmarked]; exact hmark)).imp (fun h => ?_) id
    exact becomes_of_park ht (hexec.trans h)
  case unmarked =>
    intro s t i r n henc _ ht hsw hmark hpend hn
    obtain ⟨x, body, hexec, hx⟩ := exec_issuesWith henc s
    obtain ⟨hh, hmarked, hnames⟩ := hx t
    have hall : n ∈ (x t).allNames := by
      rw [Issue.allNames, hh]
      exact List.cons_subset_cons _ (List.cons_subset_cons _ (hnames hmark)) hn
    rw [hexec]
    refine (issue_pendread x body ht (by rw [hh]; exact hsw) (hmarked.trans hmark) hall hpend).imp (fun h => ?_) id
    exact becomes_of_park ht (hexec.trans h)

/-- Settles O15, by the issue form of opcode 0x7F. -/
theorem privilegeTraps : Obligations.PrivilegeTraps := by
  refine ⟨fun s t i r henc _ hop hflush ht hpend hguard hcore => ?_, fun s hfocus => ?_⟩
  · obtain ⟨x, body, hexec, hx⟩ := exec_issuesPrivileged henc hop hflush s
    obtain ⟨hh, hpriv, hill⟩ := hx t
    exact hexec.trans (issue_unprivileged x body ht hill hpend (by rw [hh]; exact hguard) hpriv hcore)
  · simp only [State.Privileged, isInnkeeperCore, coreOf, beq_iff_eq]
    omega

end Sys2Proof.Proofs
end

