-- ==== Sys2Proof/Proofs/FaultRecords.lean ====
section
/-! Fault records (R161): what the words of a record say, and what raising one does to those that wait. -/
namespace Sys2Proof.Proofs
open Sys2Proof Sys2Proof.Machine Sys2Proof.Laws

theorem bitsOf_eq_div (x lo n : Nat) : bitsOf x lo n = x / 2 ^ lo % 2 ^ n := by rw [bitsOf, Nat.shiftRight_eq_div_pow]

theorem Cause.code_lt (c : Cause) : c.code < 32 := by cases c <;> decide

theorem Acc.code_lt (a : Acc) : a.code < 8 := by cases a <;> decide

section
variable {ws : List (BitVec 64)} {tr : Trap} {erl : Bool} {run src pc gen asid tile core slot : Nat} {ts word : BitVec 64} {tb : BitVec 32}
  (hws : ws = Machine.recordWords tr erl run src pc gen asid tile core slot ts tb word)
include hws

/-- CAUSE, SRC, ACC, RUN and ERL stand in word 0, whose upper half TOKEN takes. -/
theorem recordWords_head (hsrc : src < 16) :
    let w := (ws.getD 0 0).toNat
    bitsOf w 0 8 = tr.cause.code ∧ bitsOf w 8 4 = src ∧ bitsOf w 12 4 = tr.acc.code ∧ bitsOf w 16 4 = run % 16 ∧
      bitOf w 20 = erl ∧ w < 2 ^ 21 := by
  have hcause := Cause.code_lt tr.cause
  have hacc := Acc.code_lt tr.acc
  intro w
  have hw : w = ((if erl then 2 ^ 20 else 0) + 2 ^ 16 * (run % 16) + 2 ^ 12 * tr.acc.code + 2 ^ 8 * src + tr.cause.code) % 2 ^ 64 := by
    rw [← BitVec.toNat_ofNat]
    exact congrArg (fun l => (List.getD l 0 0).toNat) hws
  rw [bitOf, Nat.testBit_eq_decide_div_mod_eq]
  simp only [bitsOf_eq_div]
  cases erl <;> simp only [if_true, Bool.false_eq_true, if_false, decide_eq_true_eq, decide_eq_false_iff_not] at hw ⊢ <;> omega

/-- VA, PA with PAV, and PC stand in words 1 to 3. -/
theorem recordWords_addresses : (ws.getD 1 0).toNat = tr.va % 2 ^ 56 ∧
    (ws.getD 2 0).toNat = (match tr.pa with | none => 0 | some p => 2 ^ 63 + p % 2 ^ 52) ∧ (ws.getD 3 0).toNat = pc % 2 ^ 56 := by
  subst hws
  refine ⟨(BitVec.toNat_ofNat ..).trans (by omega), ?_, (BitVec.toNat_ofNat ..).trans (by omega)⟩
  show (match tr.pa with | none => 0 | some p => BitVec.ofNat 64 (2 ^ 63 + p % 2 ^ 52) : BitVec 64).toNat = _
  cases tr.pa with
  | none => rfl
  | some p => exact (BitVec.toNat_ofNat ..).trans (Nat.mod_eq_of_lt (show 2 ^ 63 + p % 2 ^ 52 < 2 ^ 64 by omega))

/-- CORE, SLOT, TILE, ASID and GEN stand in word 4. -/
theorem recordWords_place :
    let w := (ws.getD 4 0).toNat
    bitsOf w 0 11 = core % 2048 ∧ bitsOf w 11 3 = slot % 8 ∧ bitsOf w 16 8 = tile % 256 ∧ bitsOf w 24 12 = asid % 4096 ∧
      bitsOf w 36 4 = gen % 16 := by
  intro w
  have hw : w = (2 ^ 36 * (gen % 16) + 2 ^ 24 * (asid % 4096) + 2 ^ 16 * (tile % 256) + 2 ^ 11 * (slot % 8) + core % 2048) % 2 ^ 64 := by
    rw [← BitVec.toNat_ofNat]
    exact congrArg (fun l => (List.getD l 4 0).toNat) hws
  simp only [bitsOf_eq_div]
  omega

/-- DETAIL stands above TB in word 6. -/
theorem recordWords_detail : bitsOf (ws.getD 6 0).toNat 0 32 = tb.toNat ∧ bitsOf (ws.getD 6 0).toNat 32 32 = tr.detail.toNat := by
  have hw : (ws.getD 6 0).toNat = tr.detail.toNat * 2 ^ 32 + tb.toNat := by
    rw [congrArg (fun l => (List.getD l 6 0).toNat) hws]
    show (tr.detail ++ tb).toNat = _
    rw [BitVec.toNat_append, ← Nat.shiftLeft_add_eq_or_of_lt tb.isLt, Nat.shiftLeft_eq]
  have htb := tb.isLt
  have hdetail := tr.detail.isLt
  simp only [bitsOf_eq_div]
  omega
end

-- Raising a record.

section
variable {s : State} {r : Record}

/-- A record that joins none is listed after those that wait. -/
theorem addRecord_new (h : s.records.any r.joins = false) : (s.addRecord r).records = s.records ++ [r] := by
  simp [State.addRecord, h]

/-- One that joins another adds its request to it, and none is listed anew (R173). -/
theorem addRecord_joined (h : s.records.any r.joins = true) : (s.addRecord r).records.length = s.records.length ∧
    ∃ x ∈ (s.addRecord r).records, (r.agent, r.trap.va) ∈ x.requests := by
  have hrecords : (s.addRecord r).records =
      s.records.map fun x => if r.joins x && (s.records.find? r.joins) == some x then x.join r.agent r.trap.va else x := if_pos h
  obtain ⟨x, hfind⟩ := Option.isSome_iff_exists.mp (List.find?_isSome.mpr (List.any_eq_true.mp h))
  have hjoins : r.joins x = true := List.find?_some hfind
  rw [hrecords]
  refine ⟨List.length_map .., x.join r.agent r.trap.va, List.mem_map.mpr ⟨x, List.mem_of_find?_eq_some hfind, ?_⟩, ?_⟩
  · simp [hjoins, hfind]
  · simp [Record.join, Record.requests]

theorem joins_iff (x : Record) : r.joins x = true ↔ (r.trap.cause = .page ∨ r.trap.acc = .walk) ∧ x.token = none ∧ x.run = r.run ∧
    x.tile = r.tile ∧ x.trap.cause = r.trap.cause ∧ x.trap.acc = r.trap.acc ∧ x.trap.va / 2 ^ 16 = r.trap.va / 2 ^ 16 := by
  simp [Record.joins, Trap.ofWalk, and_assoc]
end

end Sys2Proof.Proofs
end

