-- ==== Sys2Proof/Proofs/TrapEntry.lean ====
section
/-! O13: a trap parks its thread and raises its record (R160, R161), is held by a task that is not earliest (R116), and stops the device
where a service slot takes it (R167). -/
namespace Sys2Proof.Proofs
open Sys2Proof Sys2Proof.Machine Sys2Proof.Laws

section
variable {s : State} {th : Nat} {t : Thread} {tr : Trap} (ht : s.thread? th = some t)
include ht

/-- Taking a trap changes no byte, no other slot and no register. -/
theorem trap_frame : s.SameBytes (s.trap th tr) ∧ s.OtherThreads (s.trap th tr) th ∧ (s.trap th tr).regs = s.regs := by
  rw [trap_eq s th tr t ht]
  split
  · exact ⟨⟨fun _ _ => rfl, fun _ => rfl⟩, fun _ _ => rfl, rfl⟩
  split
  · exact ⟨⟨fun _ _ => rfl, fun _ => rfl⟩, fun n hn => thread?_setThread_other s th n _ hn, rfl⟩
  · exact ⟨⟨fun _ _ => rfl, fun _ => rfl⟩, fun n hn => thread?_setThread_other s th n _ hn, rfl⟩

theorem trap_service (htask : t.task = none) : s.trap th tr = s.fatalStop 0x167 := by
  rw [trap_eq s th tr t ht, htask]
  rfl

theorem trap_held {k : Task} (htask : t.task = some k) (h : s.provisional t = true) :
    s.trap th tr = s.setThread th { t with park := .held tr } := by
  rw [trap_eq s th tr t ht, htask, if_neg (by simp), if_pos h]

theorem trap_raised {k : Task} (htask : t.task = some k) (h : s.provisional t = false) :
    s.trap th tr = (s.setThread th { t with park := .fault }).addRecord (s.threadRecord th t tr) := by
  rw [trap_eq s th tr t ht, htask, if_neg (by simp), if_neg (by simp [h])]
end

section
variable {t : Thread} {k : Task} (htask : t.task = some k)
include htask

/-- A task's traps are held while it is speculative and not earliest (R105, R106, R116). -/
theorem provisional_eq (s : State) :
    s.provisional t = (k.spec && !(k.standing || (s.run k.run).milestone == k.key)) := by
  simp only [State.provisional, Thread.spec, State.isEarliest, htask]
  cases k.spec <;> simp

theorem isEarliest_eq (s : State) (h : k.spec = false ∨ k.standing = true ∨ (s.run k.run).milestone = k.key) :
    s.isEarliest t = k.spec := by
  rcases h with h | h | h <;> simp [State.isEarliest, htask, h]

/-- The words of a task's record (R161). -/
theorem threadRecord_words (s : State) (th : Nat) (tr : Trap) : (s.threadRecord th t tr).words =
    Machine.recordWords tr (s.isEarliest t) k.run 0 (tr.pc.getD t.pc).toNat (s.run k.run).gen (s.run k.run).cfg.asid (tileOf th)
      (coreOf th) (th % 8) k.key.ts k.key.tb (tr.word.getD (s.wordOf t)) := by
  simp [State.threadRecord, htask, Thread.key]
end

theorem Task.key_ts (k : Task) : k.key.ts = k.ts := by
  unfold Task.key
  split <;> rfl

theorem Task.key_tb (k : Task) : k.key.tb.toNat = if k.spec then k.tb.toNat else 0 := by
  unfold Task.key
  split <;> rfl

/-- Settles O13, by who takes the trap: a service slot, a task that holds it, or one whose record is raised. -/
theorem trapEntry : Obligations.TrapEntry := by
  intro s th t tr ht
  refine ⟨trap_frame ht, fun htask => ?service, fun k htask => ⟨fun hspec hlate => ?held, fun hearly => ?raised⟩, rfl⟩
  case service =>
    rw [trap_service ht htask]
    exact ⟨rfl, rfl, rfl⟩
  case held =>
    refine trap_held ht htask ?_
    rw [provisional_eq htask, hspec]
    simpa [not_or] using hlate
  case raised =>
    have hprov : s.provisional t = false := by
      rw [provisional_eq htask]
      rcases hearly with h | h | h <;> simp [h]
    have hrun : (s.threadRecord th t tr).run = some k.run := by simp [State.threadRecord, htask]
    rw [trap_raised ht htask hprov]
    refine ⟨thread?_setThread s th _, rfl, fun x hx => ?joins, ?listed, rfl, ?die, rfl, ?words⟩
    case joins => exact hrun ▸ (joins_iff x).mp hx
    case listed =>
      split
      · next h => exact addRecord_joined h
      · next h => exact addRecord_new (Bool.not_eq_true _ ▸ h)
    case die =>
      show th / 64 / 64 = th / 4096
      omega
    case words =>
      have hwords := threadRecord_words htask s th tr
      obtain ⟨hcause, hsrc, hacc, hslot, herl, hhead⟩ := recordWords_head hwords (by decide)
      obtain ⟨hva, hpa, hpc⟩ := recordWords_addresses hwords
      obtain ⟨hcore, hth, htile, hasid, hgen⟩ := recordWords_place hwords
      obtain ⟨htb, hdetail⟩ := recordWords_detail hwords
      have hts : ((s.threadRecord th t tr).words.getD 5 0).toNat = k.ts.toNat := by rw [hwords, ← Task.key_ts]; rfl
      exact ⟨rfl, hcause, hsrc, hacc, hslot, herl.trans (isEarliest_eq htask s hearly), hhead, hva, hpa,
        hpc.trans (Nat.mod_eq_of_lt (BitVec.isLt _)), hcore, hth.trans (Nat.mod_mod ..), htile, hasid, hgen, hts,
        htb.trans (Task.key_tb k), hdetail, rfl⟩

end Sys2Proof.Proofs
end

