-- ==== Sys2Proof/Proofs/FatalFaults.lean ====
section
/-! O30: a tile's fatal fault fences it, reports it and orders its runs to be killed (R176 to R178), and the device's stops every slot
(R167). -/
namespace Sys2Proof.Proofs
open Sys2Proof Sys2Proof.Machine Sys2Proof.Laws

-- A tile that keeps no copy of anything changes the homes alone (R43, R177).

theorem beyond_leaveLine (tile : Nat) (s : State) (e : L2Entry) : beyondHomes (s.leaveLine tile e) = beyondHomes s := by
  unfold State.leaveLine
  extract_lets e v
  split
  · split
    · simp [v]
    · simp [v]
  · simp [v]

theorem beyond_loseStash (s : State) (tile : Nat) : beyondHomes (s.loseStash tile) = beyondHomes s := by
  unfold State.loseStash
  extract_lets mine lost stash coh v
  have hlost : beyondHomes lost = beyondHomes s := beyond_foldl _ (fun a l => by simp) _
  exact (beyond_foldl v (beyond_leaveLine tile) _).trans hlost

-- Ordering runs to be killed (R178, R183).

/-- The state without the tables of runs. -/
def beyondRuns (s : State) : State := { s with runs := [], saved := [] }

theorem beyondRuns_orderKill (s : State) (r : Nat) : beyondRuns (s.orderKill r) = beyondRuns s := by
  unfold State.orderKill
  extract_lets x
  split
  · rfl
  split <;> rfl

theorem beyondRuns_orderKills (l : List Nat) (s : State) : beyondRuns (l.foldl State.orderKill s) = beyondRuns s :=
  foldl_keeps beyondRuns beyondRuns_orderKill l s

/-- A run in its slot is ordered to be killed. -/
theorem run_orderKill {s : State} {n : Nat} (hn : n < 16) (hphase : (s.run n).phase ≠ .free) :
    (s.orderKill n).run n = { s.run n with killed := true } := by
  simp [State.orderKill, Nat.not_le.mpr hn, hphase]

/-- An order keeps a run's phase, and an order given before. -/
theorem run_orderKill_keeps (s : State) (r n : Nat) : ((s.orderKill r).run n).phase = (s.run n).phase ∧
    ((s.run n).killed = true → ((s.orderKill r).run n).killed = true) := by
  unfold State.orderKill
  extract_lets x
  split
  · exact ⟨rfl, id⟩
  split
  · exact ⟨rfl, id⟩
  · by_cases h : n = r
    · subst h
      simp [x]
    · simp [run_setRun_other _ h]

theorem foldl_orderKill_keeps (l : List Nat) (s : State) (n : Nat) (h : (s.run n).killed = true) :
    ((l.foldl State.orderKill s).run n).killed = true := by
  induction l generalizing s with
  | nil => exact h
  | cons r l ih => exact ih _ ((run_orderKill_keeps s r n).2 h)

theorem foldl_orderKill_kills {l : List Nat} {n : Nat} (hmem : n ∈ l) (hn : n < 16) (s : State) (hphase : (s.run n).phase ≠ .free) :
    ((l.foldl State.orderKill s).run n).killed = true := by
  induction l generalizing s with
  | nil => cases hmem
  | cons r l ih =>
    rw [List.foldl_cons]
    rcases List.mem_cons.mp hmem with rfl | hmem
    · exact foldl_orderKill_keeps l _ n (by rw [run_orderKill hn hphase])
    · exact ih hmem _ ((run_orderKill_keeps s r n).1 ▸ hphase)

-- A tile's fatal fault.

/-- The tile is fenced and its fault reported (R176, R178). -/
def tileReported (s : State) (tile : Nat) : State :=
  (s.setReg (0x0E8 + tile / 64) (s.reg (0x0E8 + tile / 64) ||| 2 ^ (tile % 64))).raise (.lodge tile) 5 none tile Key.zero 0 0
    (.plain .tilefatal)
/-- The resident runs with work on the tile. -/
def runsHit (s : State) (tile : Nat) : List Nat := (List.range 16).filter fun r => (s.run r).phase != .free && s.runOnTile tile r

section
variable {s : State} {tile : Nat}

theorem fatalTile_reports (h : tile % 64 ≠ 0) : ∃ saved, s.fatalTile tile =
    (runsHit s tile ++ saved).foldl State.orderKill ((tileReported s tile).loseStash tile) :=
  ⟨_, if_neg (by simpa [isInnkeeperTile] using h)⟩

theorem fatalTile_innkeeper (h : tile % 64 = 0) : s.fatalTile tile = s.fatalStop 0x176 := if_pos (by simpa [isInnkeeperTile] using h)

/-- The report lists one record more: a fault that no walk found joins none (R173). -/
theorem tileReported_records : ∃ r : Record, (tileReported s tile).records = s.records ++ [r] ∧ r.agent = .lodge tile ∧
    r.die = tile / 64 ∧ r.words = Machine.recordWords (.plain .tilefatal) false 0 5 0 0 0 tile 0 0 0 0 0 := by
  refine ⟨_, addRecord_new ?_, rfl, rfl, rfl⟩
  rw [List.any_eq_false]
  intro x _ hx
  rcases ((joins_iff x).mp hx).1 with h | h <;> cases h

/-- The fault as it leaves everything but the homes and the tables of runs. -/
theorem fatalTile_keeps {β : Type} (p : State → β) (hruns : ∀ v, p (beyondRuns v) = p v) (hhomes : ∀ v, p (beyondHomes v) = p v)
    (h : tile % 64 ≠ 0) : p (s.fatalTile tile) = p (tileReported s tile) := by
  obtain ⟨saved, heq⟩ := fatalTile_reports (s := s) h
  rw [heq, ← hruns, beyondRuns_orderKills, hruns, ← hhomes, beyond_loseStash, hhomes]

theorem fenced_fatalTile (h : tile % 64 ≠ 0) : (s.fatalTile tile).fenced tile = true := by
  have hreg : (s.fatalTile tile).reg (0x0E8 + tile / 64) = (tileReported s tile).reg (0x0E8 + tile / 64) := by
    obtain ⟨saved, heq⟩ := fatalTile_reports (s := s) h
    have hregs : (s.fatalTile tile).regs = ((tileReported s tile).loseStash tile).regs := by
      rw [heq]
      exact (congrArg State.regs (beyondRuns_orderKills _ _) :)
    exact (reg_congr (by rw [hregs])).trans
      (reg_of_beyond (beyondStores_of_homes (beyond_loseStash _ tile)) (by omega) (by omega))
  have hset : (tileReported s tile).reg (0x0E8 + tile / 64) = (s.reg (0x0E8 + tile / 64) ||| 2 ^ (tile % 64)) % 2 ^ 64 :=
    reg_setReg_same s _ _
  have hlt : tile % 64 < 64 := Nat.mod_lt _ (by decide)
  rw [State.fenced, hreg, hset, bitOf, Nat.testBit_mod_two_pow, Nat.testBit_or, Nat.testBit_two_pow_self]
  simp [hlt]

theorem killed_fatalTile (h : tile % 64 ≠ 0) {r : Nat} (hr : r < 16) (hphase : (s.run r).phase ≠ .free)
    (hwork : s.runOnTile tile r = true) : ((s.fatalTile tile).run r).killed = true := by
  obtain ⟨saved, heq⟩ := fatalTile_reports (s := s) h
  have hruns : ((tileReported s tile).loseStash tile).runs = s.runs :=
    (congrArg State.runs (beyond_loseStash (tileReported s tile) tile) :)
  have hrun : ((tileReported s tile).loseStash tile).run r = s.run r := by rw [State.run, hruns, State.run]
  rw [heq]
  refine foldl_orderKill_kills (List.mem_append_left _ ?_) hr _ (hrun ▸ hphase)
  simp [runsHit, hr, hphase, hwork]
end

-- Slots that may issue nothing.

theorem canIssue_fatal {s : State} (h : s.fatal = true) (th : Nat) : s.canIssue th = false := by
  unfold State.canIssue
  split <;> simp [h]

theorem canIssue_fenced {s : State} {th : Nat} (h : s.fenced (tileOf th) = true) : s.canIssue th = false := by
  unfold State.canIssue
  split <;> simp [h]

/-- Settles O30: a tile's fault goes on to its fence, its record and the orders to kill, and the two that are fatal to the device
stop it. -/
theorem fatalFaults : Obligations.FatalFaults := by
  refine ⟨fun s tile hlt htile => ?tile, fun s tile htile => ?innkeeper, fun s => ?device⟩
  case tile =>
    have hfenced := fenced_fatalTile (s := s) htile
    have hrecords : (s.fatalTile tile).records = (tileReported s tile).records :=
      fatalTile_keeps State.records (fun _ => rfl) (fun _ => rfl) htile
    obtain ⟨r, hraised, hagent, hdie, hwords⟩ := tileReported_records (s := s) (tile := tile)
    obtain ⟨-, -, hshown, -, -⟩ := recordWords_place hwords
    refine ⟨_, rfl, hfenced, fun th hth => canIssue_fenced (hth ▸ hfenced), ⟨r, ?_, hagent, hdie, ?_, ?_⟩,
      fun n hn hphase hwork => killed_fatalTile htile hn hphase hwork, fatalTile_keeps State.threads (fun _ => rfl) (fun _ => rfl) htile⟩
    · rw [hrecords, hraised]
      simp
    · rw [hwords]
      rfl
    · exact hshown.trans (Nat.mod_eq_of_lt hlt)
  case innkeeper =>
    have heq := fatalTile_innkeeper (s := s) htile
    refine ⟨_, congrArg Host.Outcome.next heq, rfl, ⟨fun _ _ => rfl, fun _ => rfl⟩, rfl, canIssue_fatal rfl⟩
  case device =>
    refine ⟨_, rfl, canIssue_fatal rfl, ⟨fun _ _ => rfl, fun _ => rfl⟩, rfl, fun hagenda => ?_⟩
    have hstopped : (s.fatalStop 0x167).agenda = [] := hagenda
    simp only [step, hstopped, State.choose]
    rfl

end Sys2Proof.Proofs
end

