-- ==== Sys2Proof/Proofs/StashBytes.lean ====
section
/-! Bytes of a stash after a store to it, and the bytes of words laid one after another. -/
namespace Sys2Proof.Proofs
open Sys2Proof Sys2Proof.Machine Sys2Proof.Laws

theorem byteOf_eq_lineNat (x : Line) (i : Nat) : byteOf x i = BitVec.ofNat 8 (lineNat x i 1) := rfl

theorem byteOf_lineOf (f : Nat → Byte) {i : Nat} (hi : i < 128) : byteOf (lineOf f) i = f i := by
  have hlt := packElems_lt 8 ((List.range 128).map fun i => (f i).toNat)
  rw [List.length_map, List.length_range] at hlt
  rw [byteOf, elem, lineOf, BitVec.toNat_ofNat, Nat.mod_eq_of_lt hlt, Nat.shiftRight_eq_div_pow, packElems_elem]
  exact BitVec.eq_of_toNat_eq (by simpa [hi] using (f i).isLt)

/-- A byte of what has been stored. -/
theorem byteOf_stored (x : Line) {o n v i : Nat} (hi : i < 128) :
    byteOf (stored x o n v) i = if o ≤ i ∧ i < o + n then BitVec.ofNat 8 (v / 2 ^ (8 * (i - o))) else byteOf x i := by
  split
  · next hin =>
    apply BitVec.eq_of_toNat_eq
    rw [byteOf_eq_lineNat, BitVec.toNat_ofNat, BitVec.toNat_ofNat]
    apply Nat.eq_of_testBit_eq
    intro k
    rw [Nat.testBit_mod_two_pow, Nat.testBit_mod_two_pow, testBit_lineNat, Nat.testBit_div_two_pow]
    by_cases hk : k < 8
    · rw [stored, getLsbD_mergeLine, getLsbD_byteMask (by omega), if_pos (by simp; omega), getLsbD_putLine_zero (by omega) (by omega)]
      simp [hk, show 8 * i + k - 8 * o = k + 8 * (i - o) by omega]
    · simp [hk]
  · next hout => rw [byteOf_eq_lineNat, byteOf_eq_lineNat, stored, ← stored, lineNat_stored_other x (by omega) (by omega)]

/-- A store of n bytes within a stash line changes those bytes alone. -/
theorem cellRead_stashWrite (s : State) (tile : Nat) {off n : Nat} (v : Nat) (hoff : off < 2 ^ 20) (hn : off % 128 + n ≤ 128) (a : Nat) :
    cellRead (s.stashWrite tile off (byteMask (off % 128) n) (putLine 0 (off % 128) n v)).stash.cells a =
      if 2 ^ 20 * tile + off ≤ a ∧ a < 2 ^ 20 * tile + off + n then BitVec.ofNat 8 (v / 2 ^ (8 * (a - (2 ^ 20 * tile + off))))
      else cellRead s.stash.cells a := by
  have hbase : stashAddr tile (off / 128 * 128) = 2 ^ 20 * tile + off / 128 * 128 := by
    rw [stashAddr, Nat.mod_eq_of_lt (by omega)]
  by_cases hline : a < 2 ^ 20 * tile + off / 128 * 128 ∨ 2 ^ 20 * tile + off / 128 * 128 + 128 ≤ a
  · rw [stashWrite_other _ _ _ _ _ _ (by omega), if_neg (by omega)]
  · obtain ⟨i, hi⟩ : ∃ i, a = stashAddr tile (off / 128 * 128) + i := ⟨a - stashAddr tile (off / 128 * 128), by omega⟩
    have hlt : i < 128 := by omega
    have hold : byteOf (s.stashData tile (off / 128 * 128)) i = cellRead s.stash.cells a := by
      rw [State.stashData, byteOf_lineOf _ hlt, hi, show off / 128 * 128 / 128 * 128 = off / 128 * 128 by omega]
    have hwritten : cellRead (s.stashWrite tile off (byteMask (off % 128) n) (putLine 0 (off % 128) n v)).stash.cells a =
        byteOf (stored (s.stashData tile (off / 128 * 128)) (off % 128) n v) i := by
      rw [hi]
      refine (cellRead_writes _ _ _ i (by rw [lineBytes_length]; exact hlt)).trans ?_
      simp [lineBytes, stored]
    rw [hwritten, byteOf_stored _ hlt, hold]
    by_cases hin : off % 128 ≤ i ∧ i < off % 128 + n
    · rw [if_pos hin, if_pos (by omega), show i - off % 128 = a - (2 ^ 20 * tile + off) by omega]
    · rw [if_neg hin, if_neg (by omega)]

/-- A byte of 64-bit words laid one after another. -/
theorem packElems_byte (ws : List (BitVec 64)) (i : Nat) :
    BitVec.ofNat 8 (packElems 64 (ws.map fun w => w.toNat) / 2 ^ (8 * i)) =
      BitVec.ofNat 8 ((ws.getD (i / 8) 0).toNat / 2 ^ (8 * (i % 8))) := by
  generalize hx : packElems 64 (ws.map fun w => w.toNat) = x
  have hword : x / 2 ^ (64 * (i / 8)) % 2 ^ 64 = (ws.getD (i / 8) 0).toNat := by
    rw [← hx, packElems_elem, List.getD_eq_getElem?_getD, List.getElem?_map]
    cases hw : ws[i / 8]? with
    | none => simp [hw]
    | some w => simpa [hw] using w.isLt
  have hplace : x / 2 ^ (8 * i) = x / 2 ^ (64 * (i / 8)) / 2 ^ (8 * (i % 8)) := by
    rw [Nat.div_div_eq_div_mul, ← Nat.pow_add, show 64 * (i / 8) + 8 * (i % 8) = 8 * i by omega]
  apply BitVec.eq_of_toNat_eq
  apply Nat.eq_of_testBit_eq
  intro k
  rw [BitVec.toNat_ofNat, BitVec.toNat_ofNat, ← hword, hplace]
  simp only [Nat.testBit_mod_two_pow, Nat.testBit_div_two_pow]
  by_cases hk : k < 8
  · simp [hk, show k + 8 * (i % 8) < 64 by omega]
  · simp [hk]

end Sys2Proof.Proofs
end

