-- ==== Sys2Proof/Proofs/FaultMailbox.lean ====
section
/-! O29: FAULT_POST writes a record to its die's ring (R161, R163), and the registers of the mailbox (R163, R164). -/
namespace Sys2Proof.Proofs
open Sys2Proof Sys2Proof.Machine Sys2Proof.Laws

-- FAULT_POST.

/-- The state without its threads. -/
def beyondThreads (s : State) : State := { s with threads := [] }

theorem beyond_fltwaitLook (s : State) (th : Nat) : beyondThreads (s.fltwaitLook th) = beyondThreads s := by
  unfold State.fltwaitLook State.endFltwait
  split
  · split
    · extract_lets n
      split
      · rfl
      split <;> rfl
    · rfl
  · rfl

theorem beyond_fltwaitLooks (l : List (Nat × Thread)) (s : State) :
    beyondThreads (l.foldl (fun (s : State) x => s.fltwaitLook x.1) s) = beyondThreads s :=
  foldl_keeps beyondThreads (fun s x => beyond_fltwaitLook s x.1) l s

/-- The words of a posted record: the TOKEN stands in word 0. -/
theorem postedWord {ws : List (BitVec 64)} (hlen : ws.length = 8) (token : BitVec 32) (i : Nat) :
    ((ws.set 0 (ws.getD 0 0 ||| (token.setWidth 64 <<< 32))).getD (i / 8) 0).toNat =
      (ws.getD (i / 8) 0).toNat ||| (if i < 8 then token.toNat * 2 ^ 32 else 0) := by
  have htoken := token.isLt
  rw [List.getD_eq_getElem?_getD, List.getElem?_set]
  by_cases hi : i < 8
  · rw [if_pos (by omega), if_pos (by omega), if_pos hi, show i / 8 = 0 by omega]
    simp only [Option.getD_some, BitVec.toNat_or, BitVec.toNat_shiftLeft, BitVec.toNat_setWidth, Nat.shiftLeft_eq]
    rw [Nat.mod_eq_of_lt (show token.toNat < 2 ^ 64 by omega), Nat.mod_eq_of_lt (by omega)]
  · rw [if_neg (by omega), if_neg hi, Nat.or_zero, List.getD_eq_getElem?_getD]

theorem faultTail_key (die : Nat) : regKey die 0x0E1 = 0x0E1 + 0x1000 * die := by simp [regKey, perDie]
theorem faultHead_key (die : Nat) : regKey die 0x0E2 = 0x0E2 + 0x1000 * die := by simp [regKey, perDie]

/-- Where and what FAULT_POST writes, and what it leaves of the state but its threads. -/
theorem faultPost_posts {s : State} {die : Nat} {r : Record}
    (hfirst : s.records.find? (fun x => x.die == die && x.token.isNone) = some r) (hen : s.faultCfg.1 = true)
    (hroom : s.faultCount die < s.faultCfg.2.2) :
    let token := State.tokenAt s.nextToken
    let off := s.faultCfg.2.1 + 64 * (s.faultTail die % s.faultCfg.2.2)
    let ws := r.words.set 0 (r.words.getD 0 0 ||| (token.setWidth 64 <<< 32))
    beyondThreads (s.faultPost die) = beyondThreads
      (({ s.stashWrite (innkeeperTile die) off (byteMask (off % 128) 64)
            (putLine 0 (off % 128) 64 (packElems 64 (ws.map BitVec.toNat))) with
          tokens := s.nextToken + 1
          records := s.records.map fun x : Record =>
            if x = r ∧ s.records.find? (fun y : Record => y.die == die && y.token.isNone) = some x then { x with token := some token }
            else x }).setReg (regKey die 0x0E1) ((s.faultTail die + 1) % 2 ^ 32)) := by
  have hposts : ¬ (!s.faultCfg.1 || decide (s.faultCfg.2.2 ≤ s.faultCount die)) = true := by simp [hen, hroom]
  unfold State.faultPost
  split
  · next hnone => exact nomatch hnone.symm.trans hfirst
  · next r' hr' =>
    obtain rfl : r' = r := Option.some.inj (hr'.symm.trans hfirst)
    exact (congrArg beyondThreads (if_neg hposts)).trans (beyond_fltwaitLooks _ _)

/-- With posting off, or a full ring, or no record, nothing is posted. -/
theorem faultPost_idle {s : State} {die : Nat}
    (h : s.faultCfg.1 = false ∨ s.faultCfg.2.2 ≤ s.faultCount die ∨ ∀ x ∈ s.records, x.die = die → x.token ≠ none) :
    s.faultPost die = s := by
  unfold State.faultPost
  extract_lets c
  split
  · rfl
  next r hr =>
    have hmem := List.mem_of_find?_eq_some hr
    have hwaits := List.find?_some hr
    rw [if_pos]
    obtain hoff | hfull | hnone := h
    · simp [c, hoff]
    · simp [c, hfull]
    · simp at hwaits
      exact absurd hwaits.2 (hnone r hmem hwaits.1)

theorem faultPost_ring {s : State} {die : Nat} {r : Record}
    (hfirst : s.records.find? (fun x => x.die == die && x.token.isNone) = some r) (hen : s.faultCfg.1 = true)
    (hroom : s.faultCount die < s.faultCfg.2.2) (hlen : r.words.length = 8)
    (hring : s.faultCfg.2.1 + 64 * (s.faultTail die % s.faultCfg.2.2) + 64 ≤ 2 ^ 20) :
    let token := State.tokenAt s.nextToken
    let base := 2 ^ 26 * die + (s.faultCfg.2.1 + 64 * (s.faultTail die % s.faultCfg.2.2))
    (s.faultPost die).faultTail die = (s.faultTail die + 1) % 2 ^ 32 ∧ { r with token := some token } ∈ (s.faultPost die).records ∧
      (∀ i < 64, cellRead (s.faultPost die).stash.cells (base + i) = BitVec.ofNat 8
        (((r.words.getD (i / 8) 0).toNat ||| (if i < 8 then token.toNat * 2 ^ 32 else 0)) / 2 ^ (8 * (i % 8)))) ∧
      (∀ a, a < base ∨ base + 64 ≤ a → cellRead (s.faultPost die).stash.cells a = cellRead s.stash.cells a) ∧
      (s.faultPost die).mem = s.mem := by
  have hposts := faultPost_posts hfirst hen hroom
  have hslot : (s.faultCfg.2.1 + 64 * (s.faultTail die % s.faultCfg.2.2)) % 64 = 0 := by
    rw [show s.faultCfg.2.1 = 4096 * (bitsOf (s.reg 0x0E0) 12 8) from rfl]; omega
  extract_lets token base
  generalize hoff : s.faultCfg.2.1 + 64 * (s.faultTail die % s.faultCfg.2.2) = off at *
  have hbase : base = 2 ^ 20 * innkeeperTile die + off := by rw [innkeeperTile]; omega
  generalize hu : s.faultPost die = u at *
  have hcells := fun a => (congrArg (fun v : State => cellRead v.stash.cells a) hposts).trans
    (cellRead_stashWrite s (innkeeperTile die) (off := off) (n := 64) _ (by omega) (by omega) a)
  refine ⟨?_, ?_, fun i hi => ?_, fun a ha => ?_, (congrArg State.mem hposts :)⟩
  · exact (reg_congr (congrArg (fun v : State => Sparse.get? v.regs (regKey die 0x0E1)) hposts)).trans
      ((reg_setReg_same _ _ _).trans (by omega))
  · rw [show u.records = _ from (congrArg State.records hposts :)]
    exact List.mem_map.mpr ⟨r, List.mem_of_find?_eq_some hfirst, if_pos ⟨rfl, hfirst⟩⟩
  · refine (hcells _).trans ?_
    rw [if_pos (by omega), hbase, Nat.add_sub_cancel_left, packElems_byte, postedWord hlen]
  · exact (hcells a).trans (if_neg (by omega))

-- FAULT_HEAD and FAULT_CFG.

theorem faultHeadWrite_head (s : State) (die v : Nat) : (s.faultHeadWrite die v).faultHead die =
    if (v % 2 ^ 32 + 2 ^ 32 - s.faultHead die) % 2 ^ 32 ≤ s.faultCount die then v % 2 ^ 32 else s.faultTail die % 2 ^ 64 := by
  refine (reg_setReg_same _ _ _).trans ?_
  by_cases hpass : s.faultCount die < (v % 2 ^ 32 + 2 ^ 32 - s.faultHead die) % 2 ^ 32
  · rw [if_pos hpass, if_neg (by omega)]
  · rw [if_neg hpass, if_pos (by omega)]
    omega

theorem faultHeadWrite_sameBytes (s : State) (die v : Nat) : s.SameBytes (s.faultHeadWrite die v) := by
  refine sameBytes_of_eq (fun k hk => reg_setReg_other ?_) rfl rfl
  rw [faultHead_key]
  unfold mapsMemory at hk
  omega

theorem ringsEmpty_iff (s : State) : s.ringsEmpty = true ↔ ∀ d < 4, s.faultCount d = 0 := by
  simp [State.ringsEmpty]

theorem faultCfgRefused_past {s : State} {v : Nat} (h : 2 ^ 20 < (ringOf v).1 + (ringOf v).2) : s.faultCfgRefused v = true := by
  rw [State.faultCfgRefused, decide_eq_true h, Bool.true_or]

/-- A write that is taken sets EN. -/
theorem faultCfgWrite_enable {s : State} {v : Nat} (htaken : s.faultCfgRefused v = false) :
    (s.faultCfgWrite v).faultCfg.1 = v.testBit 63 := by
  have hbit : (bitsOf v 63 1).testBit 0 = v.testBit 63 := testBit_bitsOf v 63 1 0
  have hstored (u : Nat) : ((s.setReg 0x0E0 u).faultCfg).1 = bitOf u 63 := by
    rw [State.faultCfg, reg_setReg_same, bitOf, Nat.testBit_mod_two_pow, bitOf]
    rfl
  rw [State.faultCfgWrite, if_neg (by simp [htaken])]
  by_cases hempty : s.ringsEmpty = true
  · rw [if_pos hempty, hstored, bitOf_putField_other (.inr (by decide)), bitOf_putField_other (.inr (by decide)),
      bitOf_putField_same, hbit]
  · rw [if_neg hempty, hstored, bitOf_putField_same, hbit]

/-- A write that is taken while every ring is empty sets the ring. -/
theorem faultCfgWrite_ring {s : State} {v : Nat} (htaken : s.faultCfgRefused v = false) (hempty : s.ringsEmpty = true) :
    (s.faultCfgWrite v).faultCfg.2 = (4096 * bitsOf v 12 8, 2 ^ Nat.min 12 (Nat.max 4 (bitsOf v 0 4))) := by
  rw [State.faultCfgWrite, if_neg (by simp [htaken]), if_pos hempty, State.faultCfg, reg_setReg_same]
  simp only [bitsOf_mod (show 12 + 8 ≤ 64 by decide), bitsOf_mod (show 0 + 4 ≤ 64 by decide)]
  rw [bitsOf_putField_other (.inr (by decide)), bitsOf_putField_same, bitsOf_putField_same, bitsOf_bitsOf_same, bitsOf_bitsOf_same]

/-- A write that is taken while a ring holds a record leaves the ring. -/
theorem faultCfgWrite_keeps {s : State} {v : Nat} (htaken : s.faultCfgRefused v = false) (hempty : s.ringsEmpty = false) :
    (s.faultCfgWrite v).faultCfg.2 = s.faultCfg.2 := by
  rw [State.faultCfgWrite, if_neg (by simp [htaken]), if_neg (by simp [hempty]), State.faultCfg, reg_setReg_same]
  simp only [bitsOf_mod (show 12 + 8 ≤ 64 by decide), bitsOf_mod (show 0 + 4 ≤ 64 by decide)]
  rw [bitsOf_putField_other (.inl (by decide)), bitsOf_putField_other (.inl (by decide))]
  rfl

/-- Settles O29, by what FAULT_POST leaves in the ring's stash and what a write of FAULT_HEAD or FAULT_CFG leaves in its register. -/
theorem faultMailbox : Obligations.FaultMailbox := by
  unfold Obligations.FaultMailbox
  refine ⟨fun s die r _ => ?_, fun s die h => congrArg Host.Outcome.next (faultPost_idle (.inr (.inr h))), fun s die v => ?_,
    fun s v => ?_⟩
  · extract_lets off base
    intro hfirst
    refine ⟨fun hen hroom hring hlen => ⟨_, _, rfl, faultPost_ring hfirst hen hroom hlen hring⟩, fun h => ?_⟩
    exact congrArg Host.Outcome.next (faultPost_idle (h.imp_right .inl))
  · exact ⟨_, rfl, faultHeadWrite_head s die _, faultHeadWrite_sameBytes s die _, rfl⟩
  · extract_lets first size
    refine ⟨fun hpast => congrArg Host.Outcome.next (if_pos (faultCfgRefused_past hpast)),
      fun htaken _ => ⟨_, rfl, ?_, fun h => ?_, ?_⟩⟩
    · rw [faultCfgWrite_enable htaken, BitVec.testBit_toNat]
    · exact faultCfgWrite_ring htaken ((ringsEmpty_iff s).mpr h)
    · rintro ⟨d, hd, hne⟩
      exact faultCfgWrite_keeps htaken (Bool.eq_false_iff.mpr fun h => hne ((ringsEmpty_iff s).mp h d hd))

end Sys2Proof.Proofs
end

