-- ==== Sys2Proof/Proofs/FaultService.lean ====
section
/-! O28: faultreply gives a parked thread its outcome (R165, R166, R334), and fltwait waits for records (R333). -/
namespace Sys2Proof.Proofs
open Sys2Proof Sys2Proof.Machine Sys2Proof.Laws

-- What a reply to a thread leaves unchanged.

/-- The state without the threads and what is in flight for them, and without the tables of runs. -/
def beyondReply (s : State) : State := { s with threads := [], stores := [], scOps := [], runs := [], saved := [] }

theorem beyondReply_goOn (s : State) (th : Nat) (t : Thread) (f : Acc → Part → Part) :
    beyondReply (s.goOn th t f) = beyondReply s := rfl

theorem beyondReply_giveUp (s : State) (th : Nat) (t : Thread) : beyondReply (s.giveUp th t) = beyondReply s := by
  unfold State.giveUp
  extract_lets outs xs v
  have hleave : beyondReply v = beyondReply (s.loseStores xs) :=
    foldl_keeps beyondReply (f := fun (s : State) q => s.leaveS th q) (fun _ _ => rfl) _ _
  exact hleave

theorem beyondReply_orderKill (s : State) (r : Nat) : beyondReply (s.orderKill r) = beyondReply s :=
  (congrArg beyondReply (beyondRuns_orderKill s r) :)

/-- The record a TOKEN names is withdrawn. -/
def withdrawn (s : State) (token : BitVec 32) : State :=
  { s with records := s.records.filter fun y => y.token != some token }

theorem faultReply_unknown {s : State} {token : BitVec 32} (h : ∀ y ∈ s.records, y.token ≠ some token) (r : Reply) :
    s.faultReply token r = s := by
  have hnone : s.records.find? (fun y => y.token == some token) = none := by simpa using h
  rw [State.faultReply, hnone]

/-- A posted record of one parked thread: the reply acts on that thread alone. -/
theorem faultReply_thread {s : State} {token : BitVec 32} {x : Record} {th : Nat}
    (hx : s.records.find? (fun y => y.token == some token) = some x) (hagent : x.agent = .thread th) (halone : x.joined = [])
    (r : Reply) : s.faultReply token r = (withdrawn s token).replyThread th x.trap r := by
  rw [State.faultReply, hx]
  simp only [Record.requests, hagent, halone, List.foldl_cons, List.foldl_nil]
  rfl

-- The outcomes.

/-- On retry, an access that trapped after its issue goes on as it was. -/
theorem thread_retried {s : State} {th : Nat} {w : Thread} (hw : s.thread? th = some w) (hpark : w.park = .fault) (tr : Trap) :
    (s.replyThread th tr .retry).thread? th =
        some { w with park := .run, outs := w.outs.map fun o => { o with stopped := false } } ∧
      beyondReply (s.replyThread th tr .retry) = beyondReply s := by
  have hreply : s.replyThread th tr .retry = s.goOn th w fun _ p => p := by
    rw [State.replyThread, hw]
    exact if_neg (not_not.mpr hpark)
  rw [hreply]
  refine ⟨(thread?_setThread _ _ _).trans ?_, beyondReply_goOn _ _ _ _⟩
  have houts : (w.outs.map fun o => if o.stopped then { o with stopped := false, parts := o.parts.map fun p => p } else o) =
      w.outs.map fun o => { o with stopped := false } := by
    refine List.map_congr_left fun o _ => ?_
    cases hstopped : o.stopped with
    | true => simp
    | false => cases o; simp at hstopped; simp [hstopped]
  rw [← houts]

/-- On remote, an instruction that trapped at its issue is issued again with the reply page. -/
theorem thread_remote {s : State} {th : Nat} {w : Thread} (hw : s.thread? th = some w) (hpark : w.park = .fault) {tr : Trap}
    (hissue : tr.pc = none) (page : Nat) :
    (s.replyThread th tr (.remote page)).thread? th =
        some { w with park := .run, remote := w.remote ++ [(tr.va / 2 ^ 16, tr.remoteOf page)] } ∧
      beyondReply (s.replyThread th tr (.remote page)) = beyondReply s := by
  have hreply : s.replyThread th tr (.remote page) =
      s.setThread th { w with park := .run, remote := w.remote ++ [(tr.va / 2 ^ 16, tr.remoteOf page)] } := by
    rw [State.replyThread, hw]
    refine (if_neg (not_not.mpr hpark)).trans ?_
    unfold State.remoteThread
    rw [hissue]
  rw [hreply]
  exact ⟨thread?_setThread _ _ _, rfl⟩

/-- On killtask, the thread gives up what had trapped and ends at its next boundary. -/
theorem thread_killed {s : State} {th : Nat} {w : Thread} (hw : s.thread? th = some w) (hpark : w.park = .fault) (tr : Trap) :
    (s.replyThread th tr .killTask).thread? th =
        some { (w.outs.filter fun o => o.stopped).foldl Thread.endOut w with park := .run, ending := true } ∧
      beyondReply (s.replyThread th tr .killTask) = beyondReply s := by
  have hgiven : (s.giveUp th w).thread? th = some ((w.outs.filter fun o => o.stopped).foldl Thread.endOut w) :=
    thread?_setThread _ _ _
  have hreply : s.replyThread th tr .killTask = (s.giveUp th w).setThread th
      { (w.outs.filter fun o => o.stopped).foldl Thread.endOut w with park := .run, ending := true } := by
    rw [State.replyThread, hw]
    exact (if_neg (not_not.mpr hpark)).trans (onThread_eq _ _ _ _ hgiven)
  rw [hreply]
  exact ⟨thread?_setThread _ _ _, beyondReply_giveUp s th w⟩

/-- On killrun, the thread waits on while its run is ordered to be killed. -/
theorem run_killed {s : State} {th : Nat} {w : Thread} {k : Task} (hw : s.thread? th = some w) (hpark : w.park = .fault)
    (htask : w.task = some k) (tr : Trap) (hrun : k.run < 16) (hphase : (s.run k.run).phase ≠ .free) :
    (s.replyThread th tr .killRun).thread? th = some w ∧ beyondReply (s.replyThread th tr .killRun) = beyondReply s ∧
      (s.replyThread th tr .killRun).run k.run = { s.run k.run with killed := true } := by
  have hreply : s.replyThread th tr .killRun = s.orderKill k.run := by
    rw [State.replyThread, hw]
    refine (if_neg (not_not.mpr hpark)).trans ?_
    dsimp only
    rw [htask]
  rw [hreply]
  refine ⟨?_, beyondReply_orderKill s k.run, run_orderKill hrun hphase⟩
  have hthreads : (s.orderKill k.run).threads = s.threads := (congrArg State.threads (beyondRuns_orderKill s k.run) :)
  rw [State.thread?, hthreads, ← State.thread?, hw]

-- The instructions.

/-- A faultreply that issues gives its outcome and ends. -/
theorem replyOp_runs {s : State} {t : Thread} {h : Hdr} {a : Src32} {ns : List Nat} (hpriv : s.Privileged) (hquiet : s.Quiet t)
    (hissues : s.Issues t h (ns ++ numSrc32 a)) (r : Thread → Reply) :
    replyOp h a ns r s = .next ((s.faultReply ((t.srcZ a).setWidth 32) (r t)).finish s.focus a.len t) :=
  sysOp_runs s h a.len _ true _ t hissues (fun _ => hpriv) hquiet

/-- A reply that leaves the state but for threads, what is in flight and the runs, and then the replier's end. -/
theorem replier_ends {s v : State} {token : BitVec 32} (hv : beyondReply v = beyondReply (withdrawn s token)) (len : Nat) (t : Thread) :
    (v.finish s.focus len t).thread? s.focus = some { t.advance len with park := .run, lastIssue := s.cycle } ∧
      s.SameBytes (v.finish s.focus len t) ∧
      (v.finish s.focus len t).records = s.records.filter fun y => y.token != some token := by
  have hcycle : v.cycle = s.cycle := (congrArg State.cycle hv :)
  have hregs : v.regs = s.regs := (congrArg State.regs hv :)
  have hmem : v.mem = s.mem := (congrArg State.mem hv :)
  have hstash : v.stash = s.stash := (congrArg State.stash hv :)
  refine ⟨by rw [thread?_finish, hcycle], sameBytes_of_eq (fun k _ => reg_congr ?_) hmem ?_, (congrArg State.records hv :)⟩
  · rw [finish_regs, hregs]
  · rw [finish_stash, hstash]

/-- The page of a map-remote reply. -/
theorem replyPage_eq (v : BitVec 64) : bitsOf v.toNat 16 36 = v.toNat / 2 ^ 16 % 2 ^ 36 := bitsOf_eq_div _ _ _

/-- fltwait that issues returns its count, or waits. -/
theorem execFltwait_runs {s : State} {t : Thread} {h : Hdr} {d : GReg} {a : Src32} {n left : Nat} (hpriv : s.Privileged)
    (hquiet : s.Quiet t) (hissues : s.Issues t h (numG d :: numSrc32 a)) (hn : s.faultCount (dieOfTile (tileOf s.focus)) = n)
    (hleft : (t.srcZ a).toNat = left) :
    execFltwait h d a s = .next (
      if 16 ≤ t.outs.length then s
      else if n != 0 || left == 0 then s.finish s.focus a.len (t.addOut (readyOut t (numG d) (BitVec.ofNat 64 n)))
      else s.setThread s.focus { t.setPend (numG d) with park := .fltwait d left a.len }) := by
  subst hn hleft
  exact sysOp_runs s h a.len _ true _ t hissues (fun _ => hpriv) hquiet

/-- The records in the ring of a slot's die. -/
theorem faultCount_ofSlot (s : State) (th : Nat) : s.faultCount (dieOfTile (tileOf th)) =
    (s.reg (0x0E1 + 0x1000 * (th / 4096)) + 2 ^ 32 - s.reg (0x0E2 + 0x1000 * (th / 4096))) % 2 ^ 32 := by
  have hdie : dieOfTile (tileOf th) = th / 4096 := Nat.div_div_eq_div_mul th 64 64
  rw [State.faultCount, State.faultTail, State.faultHead, faultTail_key, faultHead_key, hdie]

theorem srcZ_toNat (t : Thread) (a : Src32) :
    (t.srcZ a).toNat = match a with | .reg r => (t.getG r).toNat | .imm v => v.toNat := by
  cases a with
  | reg r => rfl
  | imm v => simp [Thread.srcZ]; omega

/-- The end of a wait whose cycles have run out. -/
theorem fltwaitTimeout_ends {s : State} {t : Thread} {th len : Nat} {d : GReg} (ht : s.thread? th = some t)
    (hpark : t.park = .fltwait d 0 len) :
    s.fltwaitTimeout th = s.finish th len ((t.clearPend (numG d)).setG d (BitVec.ofNat 64 (s.faultCount (dieOfTile (tileOf th))))) := by
  simp only [State.fltwaitTimeout, ht, hpark, State.endFltwait]

/-- Settles O28, by the outcome of each reply for the parked thread and what it leaves, and by the two ways a wait ends. -/
theorem faultService : Obligations.FaultService := by
  unfold Obligations.FaultService
  refine ⟨fun s t w k h a b x th hpriv hquiet => ?_, fun s t h d a hpriv hquiet hissues => ?_, fun s t th len d ht hpark => ?_⟩
  · extract_lets token page mine
    have hunknown (hnone : ∀ y ∈ s.records, y.token ≠ some token) (i : Instr) (ns : List Nat) (r : Thread → Reply)
        (hissues : s.Issues t h (ns ++ numSrc32 a)) (hexec : exec i s = replyOp h a ns r s) : s.Ends i a.len t :=
      ends_of_finish s i a.len t (by rw [hexec, replyOp_runs hpriv hquiet hissues, faultReply_unknown hnone])
    refine ⟨fun hissues hnone => ?_, fun hissues hnone => hunknown hnone _ [numG b] _ hissues rfl, ?_⟩
    · exact ⟨hunknown hnone _ [] _ hissues rfl, hunknown hnone _ [] _ hissues rfl, hunknown hnone _ [] _ hissues rfl⟩
    · intro hx hagent halone hne hw hpark htask
      have hreplied (ns : List Nat) (r : Thread → Reply) (hissues : s.Issues t h (ns ++ numSrc32 a)) :
          replyOp h a ns r s = .next (((withdrawn s token).replyThread th x.trap (r t)).finish s.focus a.len t) := by
        rw [replyOp_runs hpriv hquiet hissues, faultReply_thread hx hagent halone]
      have hw' : (withdrawn s token).thread? th = some w := hw
      refine ⟨fun hissues => ⟨?_, ?_, fun hrun hphase => ?_⟩, fun hissues hissue => ?_⟩
      · obtain ⟨hthread, hframe⟩ := thread_retried hw' hpark x.trap
        exact ⟨_, hreplied [] _ hissues, replier_ends hframe a.len t, (thread?_finish_other _ _ _ _ _ hne).trans hthread⟩
      · obtain ⟨hthread, hframe⟩ := thread_killed hw' hpark x.trap
        exact ⟨_, hreplied [] _ hissues, replier_ends hframe a.len t, (thread?_finish_other _ _ _ _ _ hne).trans hthread⟩
      · obtain ⟨hthread, hframe, hkilled⟩ := run_killed hw' hpark htask x.trap hrun hphase
        exact ⟨_, hreplied [] _ hissues, replier_ends hframe a.len t, (thread?_finish_other _ _ _ _ _ hne).trans hthread, hkilled⟩
      · obtain ⟨hthread, hframe⟩ := thread_remote hw' hpark hissue page
        refine ⟨_, ?_, replier_ends hframe a.len t, (thread?_finish_other _ _ _ _ _ hne).trans hthread⟩
        exact (hreplied [numG b] _ hissues).trans (by rw [replyPage_eq])
  · extract_lets die n left
    have hexec : exec (.fltwait h d a) s = _ :=
      execFltwait_runs (n := n) (left := left) hpriv hquiet hissues (faultCount_ofSlot s _) (srcZ_toNat t a)
    refine ⟨fun hfull => ?_, fun hnow hroom => ?_, fun hn hleft hroom => ?_⟩
    · rw [hexec]
      exact congrArg Host.Outcome.next (if_pos hfull)
    · refine ends_of_finish s _ _ _ (hexec.trans (congrArg Host.Outcome.next ?_))
      exact (if_neg (by omega)).trans (if_pos (by simpa using hnow))
    · refine becomes_of_set s _ _ (hexec.trans (congrArg Host.Outcome.next ?_))
      exact (if_neg (by omega)).trans (if_neg (by simpa using ⟨hn, hleft⟩))
  · extract_lets die n
    refine ⟨_, congrArg Host.Outcome.next (fltwaitTimeout_ends ht hpark), ?_, fun m hm => thread?_finish_other _ _ _ _ _ hm,
      fun _ _ => rfl, fun _ => rfl⟩
    rw [thread?_finish, faultCount_ofSlot]

end Sys2Proof.Proofs
end

