-- ==== Sys2Proof/Proofs/WrittenElements.lean ====
section
/-! The elements of a w register that an instruction has written (R341, R342). -/
namespace Sys2Proof.Proofs
open Sys2Proof Sys2Proof.Machine Sys2Proof.Laws

/-- Elements packed into a register that has room for them. -/
theorem elem_pack {w : Nat} {l : List Nat} (hroom : w * l.length ≤ 1024) (i : Nat) :
    elem w (BitVec.ofNat 1024 (packElems w l)) i = l.getD i 0 % 2 ^ w := by
  have hlt := (packElems_lt w l).trans_le (Nat.pow_le_pow_right (by decide) hroom)
  rw [elem, BitVec.toNat_ofNat, Nat.mod_eq_of_lt hlt, Nat.shiftRight_eq_div_pow, packElems_elem]

/-- Bits past the packed elements are zero. -/
theorem getLsbD_pack_past {w : Nat} {l : List Nat} {k : Nat} (hk : w * l.length ≤ k) :
    (BitVec.ofNat 1024 (packElems w l)).getLsbD k = false := by
  rw [BitVec.getLsbD_ofNat, Nat.testBit_lt_two_pow ((packElems_lt w l).trans_le (Nat.pow_le_pow_right (by decide) hk)), Bool.and_false]

theorem elem_lt (w : Nat) (x : Line) (i : Nat) : elem w x i < 2 ^ w := Nat.mod_lt _ (Nat.two_pow_pos w)

theorem getD_map_range {α : Type} (f : Nat → α) {n i : Nat} (hi : i < n) (d : α) : ((List.range n).map f).getD i d = f i := by
  simp [List.getD_eq_getElem?_getD, hi]

/-- An element written under the lane guard. -/
theorem choose_mod (c : Bool) (a : Nat) (w : Nat) (x : Line) (i : Nat) :
    (if c = true then a else elem w x i) % 2 ^ w = if c = true then a % 2 ^ w else elem w x i := by
  rw [apply_ite (· % 2 ^ w), Nat.mod_eq_of_lt (elem_lt w x i)]

/-- writeElems writes the selected elements, keeps the others, and clears what lies past them. -/
theorem writeElems_elems (mask : BitVec 64) {w : Nat} (hw : 0 < w) (old : Line) (f : Nat → Nat) :
    Elems mask w old (writeElems mask w old f) f := by
  have hcount : elemCount w = 1024 / w := if_neg hw.ne'
  have hroom : w * (1024 / w) ≤ 1024 := Nat.mul_div_le 1024 w
  unfold writeElems
  rw [hcount]
  refine ⟨fun i hi => ?_, fun k hk _ => getLsbD_pack_past (by simpa using hk)⟩
  rw [elem_pack (by simpa using hroom), getD_map_range _ hi, choose_mod]

/-- Elems reads f modulo the width alone. -/
theorem elems_congr {mask : BitVec 64} {w : Nat} {old v : Line} {f g : Nat → Nat} (h : Elems mask w old v f)
    (hfg : ∀ i, f i % 2 ^ w = g i % 2 ^ w) : Elems mask w old v g :=
  ⟨fun i hi => (h.1 i hi).trans (by rw [hfg]), h.2⟩

-- One element put.

theorem testBit_elem (w : Nat) (x : Line) (i k : Nat) : (elem w x i).testBit k = (decide (k < w) && x.getLsbD (w * i + k)) := by
  rw [elem, Nat.testBit_mod_two_pow, Nat.testBit_shiftRight, BitVec.testBit_toNat]

theorem getLsbD_putElem (w : Nat) (x : Line) {i v k : Nat} (hk : k < 1024) : (putElem w x i v).getLsbD k =
    if w * i ≤ k ∧ k < w * i + w then v.testBit (k - w * i) else x.getLsbD k := by
  unfold putElem
  rw [BitVec.getLsbD_or, BitVec.getLsbD_and, BitVec.getLsbD_not, BitVec.getLsbD_ofNat, BitVec.getLsbD_ofNat, Nat.testBit_shiftLeft,
    Nat.testBit_shiftLeft, Nat.testBit_mod_two_pow, Nat.testBit_two_pow_sub_one]
  by_cases hlow : w * i ≤ k
  · by_cases hhigh : k < w * i + w
    · simp [hk, hlow, hhigh, show k - w * i < w by omega]
    · simp [hk, hhigh, show ¬ k - w * i < w by omega]
  · simp [hk, hlow]

theorem elem_putElem {w i j : Nat} (x : Line) (v : Nat) (hj : j < 1024 / w) :
    elem w (putElem w x i v) j = if j = i then v % 2 ^ w else elem w x j := by
  have hplace : w * j + w ≤ 1024 := by
    rw [← Nat.mul_succ]
    exact (Nat.mul_le_mul_left w hj).trans (Nat.mul_div_le 1024 w)
  apply Nat.eq_of_testBit_eq
  intro k
  rw [testBit_elem]
  by_cases hk : k < w
  · rw [getLsbD_putElem w x (by omega)]
    by_cases hji : j = i
    · subst hji
      simp [hk, Nat.testBit_mod_two_pow]
    · have hapart : ¬ (w * i ≤ w * j + k ∧ w * j + k < w * i + w) := by
        obtain hlt | hgt := Nat.lt_or_gt_of_ne hji
        · have := Nat.mul_le_mul_left w (show j + 1 ≤ i from hlt); rw [Nat.mul_succ] at this; omega
        · have := Nat.mul_le_mul_left w (show i + 1 ≤ j from hgt); rw [Nat.mul_succ] at this; omega
      rw [if_neg hapart, if_neg hji, testBit_elem]
  · simp only [hk, decide_false, Bool.false_and]
    rw [eq_comm]
    refine Nat.testBit_lt_two_pow (lt_of_lt_of_le ?_ (Nat.pow_le_pow_right (by decide) (Nat.le_of_not_lt hk)))
    split
    · exact Nat.mod_lt _ (Nat.two_pow_pos w)
    · exact elem_lt w x j

theorem zip_concat {α β : Type} (l : List α) (vs : List β) (a : α) (d : β) (h : l.length < vs.length) :
    (l ++ [a]).zip vs = l.zip vs ++ [(a, vs.getD l.length d)] := by
  induction l generalizing vs with
  | nil =>
    cases vs with
    | nil => simp at h
    | cons v r => simp
  | cons b l ih =>
    cases vs with
    | nil => simp at h
    | cons v r => simpa using ih r (by simpa using h)

/-- The pieces of a gather, put one after another at the selected elements below n. -/
def putSelected (mask : BitVec 64) (w n : Nat) (old : Line) (vs : List Nat) : Line :=
  (((List.range n).filter (selectedBy mask w)).zip vs).foldl (fun x p => putElem w x p.1 p.2) old

/-- A selected element holds the piece whose index is the number of selected elements before it. -/
theorem elem_putSelected {mask : BitVec 64} {w n : Nat} {old : Line} {vs : List Nat}
    (henough : ((List.range n).filter (selectedBy mask w)).length ≤ vs.length) {i : Nat} (hi : i < 1024 / w) :
    elem w (putSelected mask w n old vs) i =
      if i < n ∧ selectedBy mask w i = true then vs.getD ((List.range i).filter (selectedBy mask w)).length 0 % 2 ^ w
      else elem w old i := by
  induction n with
  | zero => simp [putSelected]
  | succ n ih =>
    rw [List.range_succ, List.filter_append, List.length_append] at henough
    specialize ih (by omega)
    by_cases hsel : selectedBy mask w n = true
    · rw [List.filter_singleton, hsel, cond_true, List.length_singleton] at henough
      generalize hl : (List.range n).filter (selectedBy mask w) = l at *
      have hput : putSelected mask w (n + 1) old vs = putElem w (putSelected mask w n old vs) n (vs.getD l.length 0) := by
        rw [putSelected, List.range_succ, List.filter_append, List.filter_singleton, hsel, hl, cond_true, zip_concat l vs n 0 (by omega),
          List.foldl_append, putSelected, hl]
        rfl
      rw [hput, elem_putElem _ _ hi, ih]
      by_cases hin : i = n
      · subst hin
        rw [if_pos rfl, if_pos ⟨by omega, hsel⟩, hl]
      · rw [if_neg hin]
        simp [show i < n + 1 ↔ i < n by omega]
    · have hsame : putSelected mask w (n + 1) old vs = putSelected mask w n old vs := by
        simp [putSelected, List.range_succ, List.filter_append, hsel]
      rw [hsame, ih]
      by_cases hin : i = n
      · subst hin
        simp [hsel]
      · simp [show i < n + 1 ↔ i < n by omega]

end Sys2Proof.Proofs
end

