-- ==== Sys2Proof/Proofs/LoadResults.lean ====
section
/-! O41: the result of a load whose bytes lie in stashes, as it is bound and written (R156, R374 to R381). -/
namespace Sys2Proof.Proofs
open Sys2Proof Sys2Proof.Machine Sys2Proof.Laws

-- Parts in a stash.

/-- A part of a load in a stash line that is not poisoned, of class U. -/
def Stashed (s : State) (p : Part) : Prop :=
  p.cls = .u ∧ p.va < 2 ^ 56 ∧ ∃ tile, p.place = .stash tile ∧ s.stash.poison.contains (stashLine tile p.pa) = false

/-- The bytes of such a part. -/
def stashBytes (s : State) (p : Part) : Nat :=
  match p.place with | .stash tile => lineNat (s.stashData tile p.pa) (p.pa % 128) p.len | _ => 0

theorem stashBytes_lt (s : State) (p : Part) : stashBytes s p < 2 ^ (8 * p.len) := by
  unfold stashBytes
  split
  · exact Nat.mod_lt _ (Nat.two_pow_pos _)
  · exact Nat.two_pow_pos _

theorem allReady_stashed {s : State} (run : Option Nat) (write : Bool) {ps : List Part} (h : ∀ p ∈ ps, Stashed s p) :
    s.allReady run write ps = (true, s) := by
  induction ps with
  | nil => rfl
  | cons p r ih =>
    obtain ⟨_, _, tile, hplace, _⟩ := h p (by simp)
    have hready : s.partReady run write p = (true, s) := by rw [State.partReady, hplace]
    rw [State.allReady, hready]
    exact ih fun q hq => h q (List.mem_cons_of_mem _ hq)

theorem trapPart_none {o : Outstanding} {bad : Part → Bool} (h : ∀ p ∈ o.parts, bad p = false) : o.trapPart bad = none := by
  have hnone : o.parts.find? bad = none := by simpa using h
  rw [Outstanding.trapPart, hnone]

theorem outTrap_stashed {s : State} {o : Outstanding} (w : Who) (hread : o.atHome = false) (h : ∀ p ∈ o.parts, Stashed s p) :
    s.outTrap w o = none := by
  have hkey : o.trapPart s.keyGone = none := trapPart_none fun p hp => by
    obtain ⟨_, _, tile, hplace, _⟩ := h p hp
    rw [State.keyGone, hplace]
    rfl
  have hpoison : o.trapPart (s.partPoisoned w) = none := trapPart_none fun p hp => by
    obtain ⟨_, _, tile, hplace, hclean⟩ := h p hp
    rw [State.partPoisoned, hplace]
    exact hclean
  unfold State.outTrap
  simp only [hkey, hread, Bool.false_eq_true, if_false]
  rw [hpoison]
  rfl

/-- An acquire of class U bytes that no release has tagged changes nothing. -/
theorem acquired_unordered {s : State} {p : Part} (hcls : p.cls = .u) (hcarries : s.coh.carries = []) (w : Who)
    (acq fence : Option Scope) : s.acquired w p acq fence = s := by
  have hcheck : s.checkAcquire p acq w = s := by
    cases acq with
    | none => rfl
    | some a => exact if_pos (by simp [hcls])
  have hcarry (acq : Option Scope) : s.carryIn w p acq = s := by simp [State.carryIn, hcarries]
  unfold State.acquired
  rw [hcheck, hcarry]
  cases fence with
  | none => rfl
  | some f => exact hcarry _

theorem readParts_stashed {s : State} {th : Nat} (t : Thread) (o : Outstanding) (view : View) (src : Ty) {ps : List Part}
    (hstores : s.storesOf th = []) (hcarries : s.coh.carries = []) (h : ∀ p ∈ ps, Stashed s p) :
    s.readParts th t o view src ps = (ps.map fun p => (p.va, p.len, stashBytes s p), s) := by
  induction ps with
  | nil => rfl
  | cons p r ih =>
    obtain ⟨hcls, _, tile, hplace, _⟩ := h p (by simp)
    have hread : s.readPart (t.who th) t.key (s.specidOf th t) p view src o.hint true = (s.stashData tile p.pa, s) := by
      rw [State.readPart, hplace]
    have hbytes : stashBytes s p = lineNat (s.stashData tile p.pa) (p.pa % 128) p.len := by rw [stashBytes, hplace]
    simp only [State.readParts, hread, State.forward, hstores, List.foldl_nil, acquired_unordered hcls hcarries,
      ih fun q hq => h q (List.mem_cons_of_mem _ hq), List.map_cons, hbytes]

/-- The bytes a single piece gives from its own address. -/
theorem gotBytes_single {va : Nat} (hva : va < 2 ^ 56) (n len v : Nat) : gotBytes va n [(va, len, v)] = v % 2 ^ (8 * n) := by
  have hplace : (va + 2 ^ 56 - va % 2 ^ 56) % 2 ^ 56 = 0 := by rw [Nat.mod_eq_of_lt hva]; omega
  have hshift : v <<< (8 * ((va + 2 ^ 56 - va % 2 ^ 56) % 2 ^ 56)) = v := by rw [hplace]; rfl
  rw [gotBytes, List.foldl_cons, List.foldl_nil, hshift, Nat.zero_add]

-- A result that may be bound.

/-- The conditions under which a load's result is written at once. -/
structure Bindable (s : State) (th : Nat) (t : Thread) (o : Outstanding) (rest : List Outstanding) : Prop where
  slot : s.thread? th = some t
  head : t.outs = o :: rest
  park : t.park ≠ .pendread
  mayBind : s.mayBind th t o = true
  noStores : s.storesOf th = []
  noRelease : o.rel = none
  running : o.stopped = false
  outOfS : ∀ x ∈ s.scOps, x.th = th → x.seq ≠ o.seq
  noCarries : s.coh.carries = []
  stashed : ∀ p ∈ o.parts, Stashed s p

section
variable {s : State} {th : Nat} {t : Thread} {o : Outstanding} {rest : List Outstanding}

theorem doneS_outOfS (h : ∀ x ∈ s.scOps, x.th = th → x.seq ≠ o.seq) : s.doneS th o.seq = s := by
  have hsame : s.scOps.map (fun x => if x.th == th && x.seq == o.seq then { x with done := true } else x) = s.scOps :=
    (List.map_congr_left fun x hx => if_neg (by simpa using h x hx)).trans (List.map_id' _)
  unfold State.doneS
  rw [hsame]

theorem endOut_head (h : t.outs = o :: rest) : ∃ f, t.endOut o =
    { t with outs := rest, pend := t.pend &&& ~~~(1#64 <<< o.dst.toNat), fences := f } := by
  have herase : t.outs.erase o = rest := by rw [h, List.erase_cons_head]
  refine ⟨t.fences.filter fun f => rest.any fun x => x.isMem && decide (x.seq < f), ?_⟩
  rw [Thread.endOut, herase]
  rfl

theorem writeDst_g {d : GReg} (hd : o.dst = BitVec.ofNat 6 (numG d)) (t : Thread) (v : Line) :
    t.writeDst o.dst.toNat v = t.setG d (v.setWidth 64) := by
  have hlt := d.isLt
  have hnum : o.dst.toNat = d.toNat := by rw [hd, numG, BitVec.toNat_ofNat, Nat.mod_eq_of_lt (by omega)]
  rw [Thread.writeDst, hnum, if_pos (by omega), BitVec.ofNat_toNat, BitVec.setWidth_eq]

theorem dst_w {d : WReg} (hd : o.dst = BitVec.ofNat 6 (numW d)) : o.dst.toNat = 16 + d.toNat := by
  have hlt := d.isLt
  rw [hd, numW, BitVec.toNat_ofNat, Nat.mod_eq_of_lt (by omega)]

theorem writeDst_w {d : WReg} (hd : o.dst = BitVec.ofNat 6 (numW d)) (t : Thread) (v : Line) :
    t.writeDst o.dst.toNat v = t.setW d v := by
  have hlt := d.isLt
  rw [Thread.writeDst, dst_w hd, if_neg (by omega), if_pos (by omega), Nat.add_sub_cancel_left, BitVec.ofNat_toNat, BitVec.setWidth_eq]

theorem oldDst_w {d : WReg} (hd : o.dst = BitVec.ofNat 6 (numW d)) (t : Thread) : t.oldDst o.dst.toNat = t.getW d := by
  have hlt := d.isLt
  rw [Thread.oldDst, dst_w hd, if_pos (by omega), Nat.add_sub_cancel_left, BitVec.ofNat_toNat, BitVec.setWidth_eq]

/-- A read's result whose binding leaves the state ends as its thread's registers say. -/
theorem deliver_read (h : Bindable s th t o rest) (hread : o.atHome = false) {x : Line} (hbind : s.bindResult th t o = (x, s)) :
    s.deliver th o.dst.toNat = s.setThread th ((t.endOut o).writeDst o.dst.toNat x) := by
  have hrmw : o.isRmw = false := by
    unfold Outstanding.atHome at hread
    exact (Bool.or_eq_false_iff.mp hread).1
  have hfind : t.outs.find? (fun y => y.dst.toNat == o.dst.toNat) = some o := by rw [h.head, List.find?_cons_of_pos (by simp)]
  have hhold : s.holdOut th t o = s := by rw [State.holdOut, hrmw]
  have hwrite : s.onThread th (fun t => (t.endOut o).writeDst o.dst.toNat x) =
      s.setThread th ((t.endOut o).writeDst o.dst.toNat x) := onThread_eq _ _ _ _ h.slot
  have hpark : ((t.endOut o).writeDst o.dst.toNat x).park = t.park := by
    unfold Thread.writeDst
    split
    · rfl
    split
    · rfl
    split
    · unfold Thread.setM; split <;> rfl
    · unfold Thread.setP; split <;> rfl
  have hend : (s.setThread th ((t.endOut o).writeDst o.dst.toNat x)).endPendread th =
      s.setThread th ((t.endOut o).writeDst o.dst.toNat x) := by
    rw [State.endPendread, thread?_setThread]
    exact if_neg (by simp [hpark, h.park])
  simp only [State.deliver, h.slot, hfind, h.noRelease, State.cleanBefore, h.running, h.mayBind, Bool.not_true, Bool.or_false,
    Bool.false_eq_true, if_false, allReady_stashed _ _ h.stashed, outTrap_stashed _ hread h.stashed, hbind, hrmw,
    doneS_outOfS h.outOfS, hhold, hwrite, hend]

/-- What stands after a result is written: only its thread has changed, in its destination and what was outstanding. -/
def Delivered (s : State) (th : Nat) (t : Thread) (o : Outstanding) (rest : List Outstanding) (v : Thread) : Prop :=
  ∃ z f, exec (.variableLatencyResult th o.dst.toNat) s = .next z ∧
    z.thread? th = some { v with outs := rest, pend := t.pend &&& ~~~(1#64 <<< o.dst.toNat), fences := f } ∧
    s.OtherThreads z th ∧ s.SameBytes z ∧ z = { s with threads := z.threads }

theorem delivered_of_thread (h : Bindable s th t o rest) (hread : o.atHome = false) {x : Line} (hbind : s.bindResult th t o = (x, s))
    {v : Thread} (hv : ∀ f, ({ t with outs := rest, pend := t.pend &&& ~~~(1#64 <<< o.dst.toNat), fences := f } : Thread).writeDst
      o.dst.toNat x = { v with outs := rest, pend := t.pend &&& ~~~(1#64 <<< o.dst.toNat), fences := f }) :
    Delivered s th t o rest v := by
  obtain ⟨f, hended⟩ := endOut_head h.head
  refine ⟨_, f, congrArg Host.Outcome.next (deliver_read h hread hbind), ?_, fun n hn => thread?_setThread_other _ _ _ _ hn,
    ⟨fun _ _ => rfl, fun _ => rfl⟩, rfl⟩
  rw [thread?_setThread, hended, hv]

theorem delivered_g (h : Bindable s th t o rest) (hread : o.atHome = false) {x : Line} (hbind : s.bindResult th t o = (x, s))
    {d : GReg} (hd : o.dst = BitVec.ofNat 6 (numG d)) : Delivered s th t o rest (t.setG d (x.setWidth 64)) :=
  delivered_of_thread h hread hbind fun _ => writeDst_g hd _ _

theorem delivered_w (h : Bindable s th t o rest) (hread : o.atHome = false) {x : Line} (hbind : s.bindResult th t o = (x, s))
    {d : WReg} (hd : o.dst = BitVec.ofNat 6 (numW d)) : Delivered s th t o rest (t.setW d x) :=
  delivered_of_thread h hread hbind fun _ => writeDst_w hd _ _

-- What each kind of load reads.

theorem readParts_bindable (h : Bindable s th t o rest) (view : View) (src : Ty) :
    s.readParts th t o view src o.parts = (o.parts.map fun p => (p.va, p.len, stashBytes s p), s) :=
  readParts_stashed t o view src h.noStores h.noCarries h.stashed

/-- A load of one part reads its bytes, as far as it has room for them. -/
theorem gotBytes_bindable (h : Bindable s th t o rest) {p : Part} (hone : o.parts = [p]) {n : Nat} (hn : p.len ≤ n) :
    gotBytes p.va n (o.parts.map fun p => (p.va, p.len, stashBytes s p)) = stashBytes s p := by
  have hva : p.va < 2 ^ 56 := (h.stashed p (by simp [hone])).2.1
  have hlt := (stashBytes_lt s p).trans_le (Nat.pow_le_pow_right (by decide) (Nat.mul_le_mul_left 8 hn))
  rw [hone, List.map_singleton, gotBytes_single hva, Nat.mod_eq_of_lt hlt]

theorem va_single {p : Part} (hone : o.parts = [p]) : o.va = p.va := by rw [Outstanding.va, hone]

theorem scalarResult_of_lt {ty : Ty} (hty : ty.isLane = true) {x : Nat} (hx : x < 2 ^ ty.fixedWidth) :
    scalarResult ty x = if ty.isInt then extOf ty x else BitVec.ofNat 64 x := by
  have hwide : ty.fixedWidth ≤ 8 * atomBytes ty := by
    cases ty <;> simp [Ty.isLane, Ty.isInt, Ty.isFp, Ty.fixedWidth, atomBytes] at hty ⊢
  rw [scalarResult, Nat.mod_eq_of_lt (hx.trans_le (Nat.pow_le_pow_right (by decide) hwide))]

/-- ld into a g register (R374). -/
theorem bind_loadG (h : Bindable s th t o rest) {ty : Ty} (hkind : o.kind = .loadG ty) (hty : ty.isLane = true) {p : Part}
    (hone : o.parts = [p]) (hlen : p.len = ty.fixedWidth / 8) : s.bindResult th t o =
      ((if ty.isInt then extOf ty (stashBytes s p) else BitVec.ofNat 64 (stashBytes s p)).setWidth 1024, s) := by
  have hnarrow : p.len ≤ 8 := by
    cases ty <;> simp [Ty.isLane, Ty.isInt, Ty.isFp, Ty.fixedWidth] at hty hlen <;> omega
  have hlt : stashBytes s p < 2 ^ ty.fixedWidth :=
    (stashBytes_lt s p).trans_le (Nat.pow_le_pow_right (by decide) (by rw [hlen]; exact Nat.mul_div_le _ _))
  unfold State.bindResult
  simp only [hkind, readParts_bindable h, va_single hone, gotBytes_bindable h hone hnarrow, Nat.mod_eq_of_lt hlt,
    scalarResult_of_lt hty hlt]

/-- ld into a w register (R374). -/
theorem bind_loadW (h : Bindable s th t o rest) {w : Nat} {mask : BitVec 64} (hkind : o.kind = .loadW w mask) {p : Part}
    (hone : o.parts = [p]) (hlen : p.len = 128) :
    s.bindResult th t o = (lineResult w mask (t.oldDst o.dst.toNat) (stashBytes s p), s) := by
  unfold State.bindResult
  simp only [hkind, readParts_bindable h, va_single hone, gotBytes_bindable h hone hlen.le]

/-- lds (R378). -/
theorem bind_loadSub (h : Bindable s th t o rest) {src : Ty} {view : View} {sat toW : Bool} {mask : BitVec 64}
    (hkind : o.kind = .loadSub src view sat mask toW) {p : Part} (hone : o.parts = [p]) (hlen : p.len ≤ 128) :
    s.bindResult th t o = (if toW then subResult src view sat mask (t.oldDst o.dst.toNat) (stashBytes s p)
      else BitVec.ofNat 1024 (viewConvert src view sat (stashBytes s p % 2 ^ src.fixedWidth)), s) := by
  unfold State.bindResult
  simp only [hkind, readParts_bindable h, va_single hone, gotBytes_bindable h hone hlen]

/-- ld of packed blocks (R375). -/
theorem bind_loadPacked (h : Bindable s th t o rest) {w blocks : Nat} {mask : BitVec 64} {p : Part}
    (hkind : o.kind = .loadPacked w blocks mask p.va) (hone : o.parts = [p]) (hlen : p.len ≤ 128) :
    s.bindResult th t o = (packedResult w blocks mask (t.oldDst o.dst.toNat) (stashBytes s p), s) := by
  unfold State.bindResult
  simp only [hkind, readParts_bindable h, gotBytes_bindable h hone hlen]

/-- gather (R381). -/
theorem bind_gather (h : Bindable s th t o rest) {ty : Ty} {mask : BitVec 64} (hkind : o.kind = .gather ty mask) :
    s.bindResult th t o =
      (gatherResult ty mask (t.oldDst o.dst.toNat) (o.parts.map fun p => (p.va, p.len, stashBytes s p)), s) := by
  unfold State.bindResult
  simp only [hkind, readParts_bindable h]

end

-- What each kind of load writes.

theorem lineResult_elems (mask : BitVec 64) {w : Nat} (hw : 0 < w) (old : Line) (x : Nat) :
    Elems mask w old (lineResult w mask old x) fun i => x / 2 ^ (w * i) :=
  elems_congr (writeElems_elems mask hw old _) fun i => by rw [Nat.mod_mod, Nat.shiftRight_eq_div_pow]

theorem viewWidth_pos {src : Ty} (hsrc : src = .f16 ∨ src = .bf16 ∨ src = .f32) (view : View) : 0 < viewWidth src view := by
  unfold viewWidth
  split
  · obtain rfl | rfl | rfl := hsrc <;> decide
  · cases view <;> decide

theorem subResult_elems {src : Ty} (hsrc : src = .f16 ∨ src = .bf16 ∨ src = .f32) (view : View) (sat : Bool) (mask : BitVec 64)
    (old : Line) (x : Nat) : Elems mask (viewWidth src view) old (subResult src view sat mask old x) fun i =>
      if i < 1024 / src.fixedWidth then viewConvert src view sat (x / 2 ^ (src.fixedWidth * i) % 2 ^ src.fixedWidth) else 0 :=
  elems_congr (writeElems_elems mask (viewWidth_pos hsrc view) old _) fun i => by simp only [Nat.shiftRight_eq_div_pow]

/-- The elements of the packed blocks. -/
theorem elem_packedResult {w blocks : Nat} (mask : BitVec 64) (old : Line) (x : Nat) (hroom : 32 * blocks * w ≤ 1024) {i : Nat}
    (hi : i < 32 * blocks) : elem w (packedResult w blocks mask old x) i =
      if selectedBy mask w i then x / 2 ^ (w * i) % 2 ^ w else elem w old i := by
  rw [packedResult, elem_pack (by rw [List.length_map, List.length_range, Nat.mul_comm]; exact hroom), getD_map_range _ hi, choose_mod,
    Nat.mod_mod, Nat.shiftRight_eq_div_pow]

theorem getLsbD_packedResult_past {w blocks : Nat} (mask : BitVec 64) (old : Line) (x : Nat) {k : Nat} (hk : 32 * blocks * w ≤ k) :
    (packedResult w blocks mask old x).getLsbD k = false :=
  getLsbD_pack_past (by rw [List.length_map, List.length_range, Nat.mul_comm]; exact hk)

/-- A gather puts its pieces at the selected elements. -/
theorem gatherResult_eq (ty : Ty) (hty : ty.isLane = true) (mask : BitVec 64) (old : Line) (ps : List Got) :
    gatherResult ty mask old ps = putSelected mask ty.fixedWidth (1024 / ty.fixedWidth) old (ps.map fun p => p.2.2) := by
  have hcount : elemCount ty.fixedWidth = 1024 / ty.fixedWidth :=
    if_neg (by cases ty <;> simp [Ty.isLane, Ty.isInt, Ty.isFp, Ty.fixedWidth] at hty ⊢)
  rw [gatherResult, hcount, putSelected, List.zip_map_right, List.foldl_map]
  rfl

/-- Settles O41, by what a load's binding reads from the stashes and how each destination is written. -/
theorem loadResults : Obligations.LoadResults := by
  unfold Obligations.LoadResults
  intro s th t o rest hslot hhead hpark hmay hnone hrel _ hrun hscops hcarries hparts
  extract_lets got done conv
  have h : Bindable s th t o rest := ⟨hslot, hhead, hpark, hmay, hnone, hrel, hrun, hscops, hcarries, hparts⟩
  have hgot : got = stashBytes s := rfl
  have hread {k : OutKind} (hkind : o.kind = k) (hk : Outstanding.atHome { o with kind := k } = false) : o.atHome = false := by
    subst hkind; exact hk
  refine ⟨fun d ty p hd hkind hone hty hlen => ?_, fun d w mask p hd hkind hone hw hlen => ?_,
    fun d src view sat mask p hd hkind hone hsrc hlen => ?_, fun d src view sat mask p hd hkind hone hsrc _ hlen => ?_,
    fun d w blocks mask p hd hkind hone hw hw8 hlen _ hroom _ => ?_, fun d ty mask hd hkind hty hcount => ?_⟩
  · have hdone := delivered_g h (hread hkind rfl) (bind_loadG h hkind hty hone hlen) hd
    rwa [BitVec.setWidth_setWidth_of_le _ (by decide), BitVec.setWidth_eq] at hdone
  · refine ⟨_, delivered_w h (hread hkind rfl) (bind_loadW h hkind hone hlen) hd, ?_⟩
    rw [oldDst_w hd]
    exact lineResult_elems mask hw _ _
  · have hnarrow : p.len ≤ 128 := by obtain rfl | rfl | rfl := hsrc <;> simp [hlen, Ty.fixedWidth]
    have hdone := delivered_g h (hread hkind rfl) (bind_loadSub h hkind hone hnarrow) hd
    have hlt : stashBytes s p < 2 ^ src.fixedWidth :=
      (stashBytes_lt s p).trans_le (Nat.pow_le_pow_right (by decide) (by rw [hlen]; exact Nat.mul_div_le _ _))
    rw [Nat.mod_eq_of_lt hlt, if_neg (by simp), BitVec.setWidth_ofNat_of_le (by decide)] at hdone
    exact hdone
  · refine ⟨_, delivered_w h (hread hkind rfl) (bind_loadSub h hkind hone hlen.le) hd, ?_⟩
    rw [oldDst_w hd, if_pos rfl]
    exact subResult_elems hsrc view sat mask _ _
  · refine ⟨_, delivered_w h (hread hkind rfl) (bind_loadPacked h hkind hone (by omega)) hd, fun i hi => ?_, fun k hk _ => ?_⟩
    · rw [oldDst_w hd]
      exact elem_packedResult mask _ _ hroom hi
    · exact getLsbD_packedResult_past mask _ _ hk
  · refine ⟨_, delivered_w h (hread hkind rfl) (bind_gather h hkind) hd, fun i hi => ?_⟩
    rw [gatherResult_eq ty hty, oldDst_w hd, elem_putSelected (by simp [hcount]) hi, List.map_map]
    simp only [hi, true_and]
    rfl

end Sys2Proof.Proofs
end

