-- ==== Sys2Proof/Proofs/RegisterFile.lean ====
section
/-! O10: the register file of a thread (R184) and its pending bits (R185). -/
namespace Sys2Proof.Proofs
open Sys2Proof Sys2Proof.Machine Sys2Proof.Laws

-- What a read returns after a write of the same class.

/-- Register numbers of one class differ as the registers do. -/
theorem toNat_ne_of_ne {n : Nat} {q r : BitVec n} (h : q ≠ r) : r.toNat ≠ q.toNat := fun e => h (BitVec.eq_of_toNat_eq e.symm)

section
variable (t : Thread)

theorem getG_setG (r q : GReg) (v : BitVec 64) : (t.setG r v).getG q = if q = r then v else t.getG q := by
  split
  · next h => rw [h, getG_setG_same]
  · next h => exact getG_setG_other t r q v h

theorem getW_setW (r q : WReg) (x : Line) : (t.setW r x).getW q = if q = r then x else t.getW q := by
  split
  · next h => rw [h, getW_setW_same]
  · next h => exact getW_setW_other t h x

/-- A write of m0 is discarded, and m0 reads as all-ones (R184). -/
theorem getM_setM (r q : MReg) (v : BitVec 64) :
    (t.setM r v).getM q = if q = 0 then BitVec.allOnes 64 else if q = r then v else t.getM q := by
  by_cases hq : q = 0
  · rw [if_pos hq, hq, getM_zero]
  rw [if_neg hq]
  by_cases hr : r = 0
  · rw [hr, setM_zero, if_neg hq]
  rw [Thread.setM, if_neg hr, Thread.getM, if_neg hq, Thread.getM, if_neg hq]
  split
  · next h => subst h; exact Vector.getElem_set_self q.isLt
  · next h => exact Vector.getElem_set_ne r.isLt q.isLt (toNat_ne_of_ne h)

/-- A write of p0 is discarded, and p0 reads as true (R184). -/
theorem getP_setP (r q : PReg) (b : Bool) : (t.setP r b).getP q = if q = 0 then true else if q = r then b else t.getP q := by
  by_cases hq : q = 0
  · rw [if_pos hq, hq, getP_zero]
  rw [if_neg hq]
  by_cases hr : r = 0
  · rw [hr, setP_zero, if_neg hq]
  rw [Thread.setP, if_neg hr, Thread.getP, if_neg hq, Thread.getP, if_neg hq]
  split
  · next h => subst h; exact Vector.getElem_set_self q.isLt
  · next h => exact Vector.getElem_set_ne r.isLt q.isLt (toNat_ne_of_ne h)

theorem setM_frame (r : MReg) (v : BitVec 64) : t.setM r v = { t with m := (t.setM r v).m } := by
  unfold Thread.setM
  split <;> rfl

theorem setP_frame (r : PReg) (b : Bool) : t.setP r b = { t with p := (t.setP r b).p } := by
  unfold Thread.setP
  split <;> rfl

-- Pending bits.

/-- One bit, by its number. -/
theorem getLsbD_oneBit {n : Nat} (hn : n < 64) (k : Nat) : (1#64 <<< n).getLsbD k = (k == n) := by
  rw [BitVec.getLsbD_shiftLeft, BitVec.getLsbD_one, Bool.eq_iff_iff]
  simp
  omega

theorem pending_setPend {n : Nat} (hn : n < 64) (hm : n ≠ 48) (hp : n ≠ 56) (k : Nat) :
    (t.setPend n).pending k = (k == n || t.pending k) := by
  rw [Thread.setPend, if_neg (by simp [hm, hp]), Thread.pending, BitVec.getLsbD_or, getLsbD_oneBit hn, Bool.or_comm, Thread.pending]

theorem pending_clearPend {n : Nat} (hn : n < 64) (k : Nat) : (t.clearPend n).pending k = (k != n && t.pending k) := by
  rw [Thread.clearPend, Thread.pending, BitVec.getLsbD_and, BitVec.getLsbD_not, getLsbD_oneBit hn, Thread.pending, Bool.and_comm]
  by_cases hk : k < 64
  · simp [hk, bne]
  · simp [BitVec.getLsbD_of_ge _ _ (Nat.not_lt.mp hk)]
end

/-- Settles O10, by what each class of register reads as after a write and which pending bits a result sets. -/
theorem registerFile : Obligations.RegisterFile := fun t v x b =>
  ⟨fun r q => getG_setG t r q v, fun _ => rfl, fun r q => getW_setW t r q x, fun _ => rfl, fun r q => getM_setM t r q v,
    fun r => setM_frame t r v, setM_zero t v, fun r q => getP_setP t r q b, fun r => setP_frame t r b, setP_zero t b,
    setPend_unpendable t (.inl rfl), setPend_unpendable t (.inr rfl), fun _ hn hm hp k => pending_setPend t hn hm hp k,
    fun _ k hn => pending_clearPend t hn k⟩

end Sys2Proof.Proofs
end

