-- ==== Sys2Proof/Proofs/GuardFalse.lean ====
section
/-! O11: an instruction whose scalar guard is false ends with no effect (R187, R294), once ILLOP has not stopped it (R293). -/
namespace Sys2Proof.Proofs
open Sys2Proof Sys2Proof.Machine Sys2Proof.Laws

-- The length of an instruction is that of its words (R290).

theorem lenBytes_src (b : Src) : b.len = lenBytes b.fields.1 := by cases b <;> rfl
theorem lenBytes_src32 (b : Src32) : b.len = lenBytes b.fields.1 := by cases b <;> rfl
theorem lenBytes_imm (v : Imm) : v.len = lenBytes v.fields.1 := by cases v <;> rfl

theorem lenBytes_withSel {r : Raw} (n : RegSel) (hr : r.len = 0) : Machine.RegSel.len n = lenBytes (r.withSel n).len := by
  cases n with
  | reg g => rw [Raw.withSel, hr]; rfl
  | num n => rfl

theorem lenBytes_withAcc {r : Raw} (c : Option WReg) (hr : r.len = 0) : 8 = lenBytes (r.withAcc c).len := by
  cases c <;> rw [Raw.withAcc, hr] <;> rfl

theorem lenBytes_withAddr {r : Raw} (x : Addr) (hr : r.len = 0) : x.len = lenBytes (r.withAddr x).len := by
  unfold Raw.withAddr Addr.len
  cases x.disp with
  | none => rw [hr]; rfl
  | some v => rfl

/-- Executing i is issuing it as an instruction of n bytes with header h. -/
def IssuesLong (i : Instr) (s : State) (h : Hdr) (n : Nat) : Prop :=
  ∃ x body, exec i s = issue s x body ∧ ∀ t, (x t).h = h ∧ (x t).len = n

/-- Every encoded instruction is issued with the header and the length of its words. -/
theorem exec_issuesLong {i : Instr} {r : Raw} (h : encodeRaw i = some r) (s : State) : IssuesLong i s r.hdr (lenBytes r.len) := by
  cases i with
  | nop _ ext => cases ext <;> cases h <;> exact ⟨_, _, rfl, fun _ => ⟨rfl, rfl⟩⟩
  | vmul _ hi => cases hi <;> cases h <;> exact ⟨_, _, rfl, fun _ => ⟨rfl, rfl⟩⟩
  | add | sub | mul | mulh | div | rem | min | max | and | or | xor | andn | mov =>
    cases h
    exact ⟨_, _, rfl, fun _ => ⟨rfl, lenBytes_src _⟩⟩
  | shl | shr | sar | rot | bext | bins | lea | pcmp | mfirst | faultreplyRetry | faultreplyRemote | faultreplyKilltask
  | faultreplyKillrun | fltwait | tlbinvPage | tlbinvAsid | stashmap | task | tgrid | depart =>
    cases h
    exact ⟨_, _, rfl, fun _ => ⟨rfl, lenBytes_src32 _⟩⟩
  | mmovMImm | vbcastImm =>
    cases h
    exact ⟨_, _, rfl, fun _ => ⟨rfl, lenBytes_imm _⟩⟩
  | sysr | sysw =>
    cases h
    exact ⟨_, _, rfl, fun _ => ⟨hdr_withSel _ rfl, lenBytes_withSel _ rfl⟩⟩
  | vfred | vred =>
    cases h
    exact ⟨_, _, rfl, fun _ => ⟨hdr_withAcc _ rfl, lenBytes_withAcc _ rfl⟩⟩
  | purge | cflush | cinval | ld | st | lds | gather | scatter | pref | sbind | atomAdd | atomMin | atomMax | atomAnd | atomOr
  | atomXor | atomSwap | atomCas | atomRed | ctradd | ctrread | ctrwait | ctrarriveMax | ctrarriveSum | stashunmap | stashflush =>
    cases h
    exact ⟨_, _, rfl, fun _ => ⟨hdr_withAddr _ rfl, lenBytes_withAddr _ rfl⟩⟩
  | _ => cases h <;> exact ⟨_, _, rfl, fun _ => ⟨rfl, rfl⟩⟩

-- A guard that is false.

/-- An instruction that nothing pends for and whose guard is false ends, or ILLOP has stopped it before the guard was read. -/
theorem issue_idle {s : State} {t : Thread} (x : Thread → Issue) (body : Thread → State) (ht : s.thread? s.focus = some t)
    (hpend : t.pend = 0) (hguard : t.guard (x t).h.pg = false) :
    issue s x body = .next (s.finish s.focus (x t).len t) ∨ issue s x body = .next (s.trap s.focus (.plain .illop)) := by
  cases hill : (x t).ill with
  | true => exact .inr (by simp [issue, ht, hill])
  | false => exact .inl (by simp [issue, ht, hill, hpend, hguard, Thread.pending])

/-- A store of a g register of a type of fixed width is never ill-formed (R373). -/
theorem store_wellFormed (t : Thread) {ty : Ty} (hty : ty.isNf = false) (r : GReg) :
    (!t.usable ty || t.wideBlocks ty .one || t.anyBound (wOfGW (.g r))) = false := by
  cases ty with
  | nf k => cases hty
  | _ => rfl

/-- Settles O11, by the issue form of the encoded instructions. -/
theorem guardFalseEnds : Obligations.GuardFalseEnds := by
  refine ⟨fun s t i r henc _ ht hpend hguard => ?_, fun s t h ty mo b d a x y n ht hpend hguard hty => ?_⟩
  · obtain ⟨x, body, hexec, hx⟩ := exec_issuesLong henc s
    obtain ⟨hh, hlen⟩ := hx t
    obtain hends | hill := issue_idle x body ht hpend (by rw [hh]; exact hguard)
    · exact .inl (hlen ▸ ends_of_finish s i _ t (hexec.trans hends))
    · exact .inr (hexec.trans hill)
  · have hguard : t.guard h.pg = false := hguard
    have hadd : exec (.add h ty b d a x) s = .next (s.finish s.focus x.len t) :=
      issue_guarded s _ _ t h _ x.len false rfl ht hpend hguard
    have hst : exec (.st h ty mo .one y (.g a)) s = .next (s.finish s.focus y.len t) :=
      issue_guarded s _ _ t h _ y.len false (congrArg (Issue.mk h y.len _ false false) (store_wellFormed t hty a)) ht hpend hguard
    have hsysw : exec (.sysw h n a) s = .next (s.finish s.focus n.len t) :=
      issue_guarded s _ _ t h _ n.len true rfl ht hpend hguard
    exact ⟨ends_of_finish _ _ _ _ hadd, ends_of_finish _ _ _ _ hst, ends_of_finish _ _ _ _ hsysw⟩

end Sys2Proof.Proofs
end

