-- ==== Sys2Proof/Proofs/IdentityAndControl.lean ====
section
/-! O25 and O26: the identity registers (R188), the user control registers (R189), and the time (R329). -/
namespace Sys2Proof.Proofs
open Sys2Proof Sys2Proof.Machine Sys2Proof.Laws

/-- An instruction that is ill-formed for its thread traps with ILLOP before any other check (R293). -/
theorem issue_ill {s : State} {t : Thread} (x : Thread → Issue) (body : Thread → State) (ht : s.thread? s.focus = some t)
    (hill : (x t).ill = true) : issue s x body = .next (s.trap s.focus (.plain .illop)) := by
  simp [issue, ht, hill]

-- The identity registers (R188).

/-- The identity registers of a slot whose thread runs a task, by number. -/
def identityTable (s : State) (th : Nat) (k : Task) : List (Nat × BitVec 64) :=
  [(0x00, k.ts), (0x01, if k.spec then k.tb.setWidth 64 else 0), (0x02, BitVec.ofNat 64 (th / 64)), (0x03, BitVec.ofNat 64 (th / 8)),
    (0x04, BitVec.ofNat 64 (th % 8)), (0x05, BitVec.ofNat 64 (s.run k.run).cfg.runid), (0x06, if k.spec then 1 else 0),
    (0x08, k.ident.org.x), (0x09, k.ident.org.y), (0x0A, k.ident.org.z), (0x0C, k.ident.ext.x), (0x0D, k.ident.ext.y),
    (0x0E, k.ident.ext.z), (0x10, k.ident.gidx.x), (0x11, k.ident.gidx.y), (0x12, k.ident.gidx.z), (0x14, k.ident.gdim.x),
    (0x15, k.ident.gdim.y), (0x16, k.ident.gdim.z)]

theorem key_of_task {t : Thread} {k : Task} (hk : t.task = some k) :
    t.key.ts = k.ts ∧ t.key.tb.setWidth 64 = if k.spec then k.tb.setWidth 64 else (0 : BitVec 64) := by
  unfold Thread.key Task.key
  rw [hk]
  cases hspec : k.spec <;> simp [hspec]

theorem idReg_listed {s : State} {th : Nat} {t : Thread} {k : Task} (hk : t.task = some k) {n : Nat} {v : BitVec 64}
    (h : (n, v) ∈ identityTable s th k) : s.idReg th t n = some v := by
  obtain ⟨hts, htb⟩ := key_of_task hk
  have hall : ∀ e ∈ identityTable s th k, s.idReg th t e.1 = some e.2 := by
    simp [identityTable, State.idReg, hk, hts, htb, State.runidOf, Thread.spec, tileOf, coreOf, V3.comp]
  exact hall (n, v) h

theorem idReg_unlisted (s : State) (th : Nat) (t : Thread) {n : Nat}
    (h : n = 7 ∨ n = 0x0B ∨ n = 0x0F ∨ n = 0x13 ∨ 0x17 ≤ n) : s.idReg th t n = none := by
  obtain rfl | rfl | rfl | rfl | h := h
  · rfl
  · rfl
  · rfl
  · rfl
  · obtain ⟨m, rfl⟩ := Nat.exists_eq_add_of_le' h
    rfl

/-- Settles O25, by the table of the identity registers. -/
theorem identityRegisters : Obligations.IdentityRegisters := by
  intro s t k h d n hk
  refine ⟨fun v hissue hlisted => ?_, fun ht hn => ?_⟩
  · have hreg : s.idReg s.focus t n.toNat = some v := idReg_listed hk hlisted
    refine ends_of_finish _ _ _ _ ((issue_runs s _ _ t h [numG d] 8 false (by simp [hreg]) hissue (by simp)).trans ?_)
    rw [hreg]
    rfl
  · exact issue_ill _ _ ht (by simp [idReg_unlisted s s.focus t hn])

-- The user control registers (R189).

/-- What a user control register keeps of a value written to it: not the bits its layout marks RZ, and no 0 in SR_STATE. -/
def ucrKept (n : Nat) (v : BitVec 64) : BitVec 64 :=
  if n < 8 then v &&& 0x13FFF7 else if n = 8 then (if v.setWidth 32 = 0#32 then 1 else v &&& 0xFFFFFFFF)
  else if n = 0x0E then v else if n = 0x0F then v &&& 7 else v &&& 0xFFFFFFFFFFFFFF

theorem ucr_isSome_iff (t : Thread) (n : Nat) : (t.ucr n).isSome = true ↔ n ≤ 8 ∨ (0x0C ≤ n ∧ n ≤ 0x10) := by
  unfold Thread.ucr
  split_ifs <;> simp <;> omega

theorem ucrReserved_iff (n : Nat) (v : BitVec 64) :
    ucrReserved n v = true ↔ (n < 8 ∧ v.toNat / 2 ^ 16 % 4 = 3) ∨ (n = 0x0F ∧ v.toNat % 4 = 3) := by
  simp [ucrReserved, bitsOf, Nat.shiftRight_eq_div_pow]

/-- The low n bits of a value, by the mask that keeps them. -/
theorem setWidth_setWidth_eq_and (v : BitVec 64) {n : Nat} (hn : n ≤ 64) :
    (v.setWidth n).setWidth 64 = v &&& BitVec.ofNat 64 (2 ^ n - 1) := by
  have hmask : 2 ^ n - 1 < 2 ^ 64 := (Nat.sub_lt (Nat.two_pow_pos n) Nat.one_pos).trans_le (Nat.pow_le_pow_right (by decide) hn)
  have hlow : v.toNat % 2 ^ n < 2 ^ 64 := (Nat.mod_le _ _).trans_lt v.isLt
  apply BitVec.eq_of_toNat_eq
  rw [BitVec.toNat_and, BitVec.toNat_ofNat, Nat.mod_eq_of_lt hmask, Nat.and_two_pow_sub_one_eq_mod, BitVec.toNat_setWidth,
    BitVec.toNat_setWidth, Nat.mod_eq_of_lt hlow]

theorem getD_set_self {l : List (BitVec 64)} {i : Nat} (h : i < l.length) {a d : BitVec 64} : (l.set i a).getD i d = a := by
  simp [List.getD_eq_getElem?_getD, h]

theorem getD_set_other {l : List (BitVec 64)} {i j : Nat} (h : j ≠ i) (a d : BitVec 64) : (l.set i a).getD j d = l.getD j d := by
  simp [List.getD_eq_getElem?_getD, List.getElem?_set_ne h.symm]

section
variable {t : Thread} {n : Nat} (v : BitVec 64)

/-- A listed register reads as what it keeps of the value written to it. -/
theorem ucr_setUcr_same (hfmt : t.fmt.length = 8) (hmq : t.mq.length = 4) (hn : n ≤ 8 ∨ (0x0C ≤ n ∧ n ≤ 0x10)) :
    (t.setUcr n v).ucr n = some (ucrKept n v) := by
  obtain h | rfl | rfl | rfl | rfl | rfl | rfl : n < 8 ∨ n = 8 ∨ n = 0x0C ∨ n = 0x0D ∨ n = 0x0E ∨ n = 0x0F ∨ n = 0x10 := by omega
  · simp only [Thread.setUcr, Thread.ucr, ucrKept, if_pos h, getD_set_self (hfmt ▸ h)]
    rfl
  · have hlow := (setWidth_setWidth_eq_and v (n := 32) (by decide)).symm
    refine congrArg some ?_
    show (if v.setWidth 32 = 0#32 then 1 else v.setWidth 32 : BitVec 32).setWidth 64 =
      if v.setWidth 32 = 0#32 then 1 else v &&& BitVec.ofNat 64 (2 ^ 32 - 1)
    rw [hlow]
    split <;> rfl
  · exact congrArg some (getD_set_self (by omega))
  · exact congrArg some (getD_set_self (by omega))
  · refine (congrArg some (getD_set_self (by omega))).trans (congrArg some ?_)
    exact BitVec.and_allOnes
  · exact congrArg some (getD_set_self (by omega))
  · exact congrArg some (setWidth_setWidth_eq_and v (n := 56) (by decide))

/-- The other user control registers stay. -/
theorem ucr_setUcr_other (hn : n ≤ 8 ∨ (0x0C ≤ n ∧ n ≤ 0x10)) {m : Nat} (h : m ≠ n) : (t.setUcr n v).ucr m = t.ucr m := by
  obtain hf | rfl | hq | rfl : n < 8 ∨ n = 8 ∨ (0x0C ≤ n ∧ n ≤ 0x0F) ∨ n = 0x10 := by omega
  · rw [Thread.setUcr, if_pos hf]
    simp only [Thread.ucr, getD_set_other h]
  · simp [Thread.setUcr, Thread.ucr, h]
  · rw [Thread.setUcr, if_neg (by omega), if_neg (by omega), if_pos hq]
    simp only [Thread.ucr]
    by_cases hm : 0x0C ≤ m ∧ m ≤ 0x0F
    · rw [getD_set_other (by omega)]
    · rw [if_neg hm, if_neg hm]
  · simp [Thread.setUcr, Thread.ucr, h]

theorem setUcr_frame : t.setUcr n v = { t with
    fmt := (t.setUcr n v).fmt, sr := (t.setUcr n v).sr, mq := (t.setUcr n v).mq, sbase := (t.setUcr n v).sbase } := by
  unfold Thread.setUcr
  split_ifs <;> rfl
end

-- The instructions.

/-- ucrw writes a listed register, or traps where the code written is reserved (R7). -/
theorem exec_ucrw {s : State} {t : Thread} {h : Hdr} {a : GReg} {n : BitVec 8} (hissue : s.Issues t h [numG a])
    (hn : (t.ucr n.toNat).isSome = true) : exec (.ucrw h a n) s = .next (if ucrReserved n.toNat (t.getG a) = true
      then s.trap s.focus (.plain .illop) else s.finish s.focus 8 (t.setUcr n.toNat (t.getG a))) :=
  issue_runs s _ _ t h [numG a] 8 false (by simp [Option.isNone_eq_false_iff.mpr hn]) hissue (by simp)

/-- A timer that the Itinerary neither records nor replays gives its own value (R329). -/
theorem itinTimer_off {s : State} {t : Thread} (hoff : ∀ k, t.task = some k → s.itinMode k.run = none) (tile : Nat) (v : BitVec 64) :
    s.itinTimer (t.task.map fun k => k.run) tile v = (v, s) := by
  cases hk : t.task with
  | none => rfl
  | some k =>
    have hrun := hoff k hk
    simp only [Option.map_some, State.itinTimer, itinTake_off hrun, itin_off hrun]

theorem exec_time {s : State} {t : Thread} {h : Hdr} {d : GReg} (v : BitVec 64) (hissue : s.Issues t h [numG d])
    (hoff : ∀ k, t.task = some k → s.itinMode k.run = none) : timeOp h d v s = .next (s.finish s.focus 8 (t.setG d v)) :=
  (issue_runs s _ _ t h [numG d] 8 false rfl hissue (by simp)).trans (by simp only [itinTimer_off hoff])

/-- Settles O26, by what each user control register keeps of a value, and by the timer outside the Itinerary. -/
theorem userControlAndTime : Obligations.UserControlAndTime := by
  refine ⟨fun s t h d a n hfmt hmq => ?_, fun s t h d hissue hoff => ?_⟩
  · extract_lets v listed bad kept
    refine ⟨fun hn => ⟨fun hissue => ?_, fun hissue => ?_⟩, fun hn ht => ?_⟩
    · obtain ⟨r, hr⟩ := Option.isSome_iff_exists.mp ((ucr_isSome_iff t n.toNat).mpr hn)
      refine ⟨r, hr, ends_of_finish _ _ _ _ ((issue_runs s _ _ t h [numG d] 8 false (by simp [hr]) hissue (by simp)).trans ?_)⟩
      rw [hr]
      rfl
    · have hexec := exec_ucrw hissue ((ucr_isSome_iff t n.toNat).mpr hn)
      refine ⟨fun hbad => ?_, fun hbad => ?_⟩
      · rwa [if_pos ((ucrReserved_iff _ _).mpr hbad)] at hexec
      · rw [if_neg fun hr => hbad ((ucrReserved_iff _ _).mp hr)] at hexec
        exact ⟨t.setUcr n.toNat v, ends_of_finish _ _ _ _ hexec, ucr_setUcr_same v hfmt hmq hn, fun m hm => ucr_setUcr_other v hn hm,
          setUcr_frame v⟩
    · have hnone : (t.ucr n.toNat).isNone = true := by
        rw [← Option.not_isSome, Bool.not_eq_true', ← Bool.not_eq_true, ucr_isSome_iff]
        exact hn
      exact ⟨issue_ill _ _ ht hnone, issue_ill _ _ ht hnone⟩
  · exact ⟨ends_of_finish _ _ _ _ (exec_time _ hissue hoff), ends_of_finish _ _ _ _ (exec_time _ hissue hoff)⟩

end Sys2Proof.Proofs
end

