-- ==== Sys2Proof/Proofs/EngineQueue.lean ====
section
/-! How a job enters the queue of its engine or lane (R204 to R206), what the thread that offers it becomes (R413, R421), and the charges
that pass between a thread and its tile's engines (R251, R254). -/
namespace Sys2Proof.Proofs
open Sys2Proof Sys2Proof.Machine Sys2Proof.Laws

-- Charges.

/-- Passing charges on changes only who waits for the collapses under way. -/
theorem passCharges_eq (s : State) (a b : Agent) :
    s.passCharges a b = { s with coh := { s.coh with collapses := (s.passCharges a b).coh.collapses } } := rfl

/-- Every collapse that a is charged with, b is charged with. -/
def Follows (s : State) (a b : Agent) : Prop := ∀ c ∈ s.coh.collapses, a ∈ c.charged → b ∈ c.charged

/-- A collapse after charges have passed from a to b: as it was, with b among the charged where a was. -/
theorem mem_passCharges {s : State} {a b : Agent} {c : Collapse} (h : c ∈ (s.passCharges a b).coh.collapses) :
    ∃ x ∈ s.coh.collapses, (∀ y, y ∈ c.charged ↔ y ∈ x.charged ∨ (y = b ∧ a ∈ x.charged)) := by
  obtain ⟨x, hx, rfl⟩ := List.mem_map.mp h
  refine ⟨x, hx, fun y => ?_⟩
  by_cases ha : a ∈ x.charged <;> by_cases hb : b ∈ x.charged
  · simp [hb]
    rintro rfl _
    exact hb
  · simp [ha, hb]
  · simp [ha]
  · simp [ha]

theorem follows_passCharges (s : State) (a b : Agent) : Follows (s.passCharges a b) a b := by
  intro c hc ha
  obtain ⟨x, -, hx⟩ := mem_passCharges hc
  rw [hx] at ha ⊢
  obtain ha | ⟨rfl, ha⟩ := ha
  · exact .inr ⟨rfl, ha⟩
  · exact .inl ha

theorem Follows.passCharges {s : State} {a b : Agent} (h : Follows s a b) (hab : a ≠ b) (c : Agent) : Follows (s.passCharges c b) a b := by
  intro x hx ha
  obtain ⟨y, hy, hcharged⟩ := mem_passCharges hx
  rw [hcharged] at ha ⊢
  obtain ha | ⟨rfl, -⟩ := ha
  · exact .inl (h y hy ha)
  · exact absurd rfl hab

theorem unitAgent_ne_thread (tile unit th : Nat) : unitAgent tile unit ≠ .thread th := by
  unfold unitAgent
  split <;> exact nofun

section
variable (s : State) (th : Nat)

/-- The end of a job charges its thread with the collapses of the three units of its tile, and does nothing else. -/
theorem joinJobs_eq : s.joinJobs th = { s with coh := { s.coh with collapses := (s.joinJobs th).coh.collapses } } := rfl

theorem joinJobs_follows {unit : Nat} (h : unit < 3) : Follows (s.joinJobs th) (unitAgent (tileOf th) unit) (.thread th) := by
  have hall : s.joinJobs th = ((s.passCharges (unitAgent (tileOf th) 0) (.thread th)).passCharges (unitAgent (tileOf th) 1)
      (.thread th)).passCharges (unitAgent (tileOf th) 2) (.thread th) := rfl
  have hne := unitAgent_ne_thread (tileOf th)
  rw [hall]
  obtain rfl | rfl | rfl : unit = 0 ∨ unit = 1 ∨ unit = 2 := by omega
  · exact ((follows_passCharges _ _ _).passCharges (hne 0 th) _).passCharges (hne 0 th) _
  · exact (follows_passCharges _ _ _).passCharges (hne 1 th) _
  · exact follows_passCharges _ _ _
end

-- The id of a job (R206).

theorem freeId_eq {s : State} {tile base n size : Nat} (h : s.idHeld tile (base + n % size) = false) :
    s.freeId tile base n size = n % size := by
  have hrange (k : Nat) : List.range (65 + k) = 0 :: (List.range (64 + k)).map Nat.succ := by
    rw [show 65 + k = 64 + k + 1 by omega, List.range_succ_eq_map]
  unfold State.freeId
  rw [hrange, List.find?_cons_of_pos (by simp [h])]
  rfl

-- A job joins its queue.

/-- The state in which a job stands in a tile's engines: nothing else has changed but the row collectives under way. -/
def Joined (s u : State) : Prop := u = { s with engines := u.engines, rows := u.rows, rowCount := u.rowCount }

theorem joinRow_eq (s : State) (tile : Nat) (j : PorterJob) : ∃ ri rows rc,
    s.joinRow tile j = ({ j with rowInst := ri }, { s with rows := rows, rowCount := rc }) := by
  unfold State.joinRow
  split
  · exact ⟨j.rowInst, s.rows, s.rowCount, rfl⟩
  · exact ⟨_, _, _, rfl⟩

theorem joined_joinRow (s : State) (tile : Nat) (j : PorterJob) : Joined s (s.joinRow tile j).2 := by
  obtain ⟨ri, rows, rc, hrow⟩ := joinRow_eq s tile j
  rw [hrow]
  rfl

theorem Joined.setEngine {s u : State} (h : Joined s u) (tile : Nat) (e : Engines) : Joined s (u.setEngine tile e) := by
  rw [h]
  rfl

theorem joined_joinQueue (s : State) (tile unit : Nat) (job : Job) : Joined s (s.joinQueue tile unit job).2 := by
  unfold State.joinQueue
  cases job with
  | matrix j => rfl
  | porter j => exact (joined_joinRow s tile _).setEngine tile _

/-- A matrix job stands last in the matrix queue, under the next id. -/
theorem joinQueue_matrix {s : State} {tile : Nat} (unit : Nat) (j : MatrixJob)
    (h : s.idHeld tile ((s.engine tile).mcount % 2 ^ 15) = false) :
    (s.joinQueue tile unit (.matrix j)).1 = (s.engine tile).mcount % 2 ^ 15 ∧
      ((s.joinQueue tile unit (.matrix j)).2.engine tile).mq =
        (s.engine tile).mq ++ [{ j with id := (s.engine tile).mcount % 2 ^ 15 }] := by
  have hid : s.freeId tile 0 (s.engine tile).mcount (2 ^ 15) = (s.engine tile).mcount % 2 ^ 15 := freeId_eq (by rwa [Nat.zero_add])
  simp only [State.joinQueue, hid, engine_setEngine_same, and_self]

theorem getD_modify {α : Type} {l : List α} {i : Nat} (h : i < l.length) (f : α → α) (d : α) :
    (l.modify i f).getD i d = f (l.getD i d) := by
  simp [List.getD_eq_getElem?_getD, h]

/-- A Porter job stands last in its lane, under the next id of the lane. -/
theorem joinQueue_porter {s : State} {tile lane : Nat} (j : PorterJob) (hlane : lane < (s.engine tile).lanes.length)
    (h : s.idHeld tile (2 ^ 15 + 2 ^ 14 * lane + (s.engine tile).pcount.getD lane 0 % 2 ^ 14) = false) : ∃ ri,
    (s.joinQueue tile (lane + 1) (.porter j)).1 = 2 ^ 15 + 2 ^ 14 * lane + (s.engine tile).pcount.getD lane 0 % 2 ^ 14 ∧
      ((s.joinQueue tile (lane + 1) (.porter j)).2.engine tile).lanes.getD lane [] = (s.engine tile).lanes.getD lane [] ++
        [{ j with id := 2 ^ 15 + 2 ^ 14 * lane + (s.engine tile).pcount.getD lane 0 % 2 ^ 14, rowInst := ri }] := by
  have hid := freeId_eq h
  simp only [State.joinQueue, Nat.add_sub_cancel, hid]
  obtain ⟨ri, rows, rc, hrow⟩ := joinRow_eq s tile
    { j with id := 2 ^ 15 + 2 ^ 14 * lane + (s.engine tile).pcount.getD lane 0 % 2 ^ 14 }
  refine ⟨ri, trivial, ?_⟩
  rw [hrow, engine_setEngine_same]
  exact getD_modify hlane _ _

-- The thread's side.

/-- What becomes of the slot of a thread whose job has been accepted: gD holds the id, and the instruction has ended (R413, R421). -/
structure Accepted (s u : State) (th : Nat) (t : Thread) (d : GReg) (id len : Nat) : Prop where
  bytes : s.SameBytes u
  others : s.OtherThreads u th
  thread : u.thread? th = some { (t.setG d (BitVec.ofNat 64 id)).advance len with
    park := .run, lastIssue := s.cycle, remote := [], seq := t.seq + 1 }

/-- The replies and the place in program order of a thread do not tell where it goes on. -/
theorem advance_withSeq (t : Thread) (len : Nat) (rs : List (Nat × Remote)) (n : Nat) :
    ({ t with remote := rs, seq := n } : Thread).advance len = { t.advance len with remote := rs, seq := n } := by
  unfold Thread.advance
  dsimp only
  split_ifs <;> rfl

/-- An accepted job has joined its queue, and the engines are as that left them but for whose turn is next. -/
theorem acceptJob_accepted {s : State} {th : Nat} {t : Thread} (ht : s.thread? th = some t) (unit : Nat) (job : Job) (d : GReg) (len : Nat) :
    let x := s.joinQueue (tileOf th) unit job
    Accepted s (s.acceptJob th unit job d len) th t d x.1 len ∧
      ∃ l, (s.acceptJob th unit job d len).engine (tileOf th) = { x.2.engine (tileOf th) with last := l } := by
  intro x
  have hjoined : Joined s x.2 := joined_joinQueue s (tileOf th) unit job
  have hslot : x.2.thread? th = some t := by rw [hjoined]; exact ht
  have haccept : s.acceptJob th unit job d len =
      ((x.2.passCharges (.thread th) (unitAgent (tileOf th) unit)).setEngine (tileOf th) { x.2.engine (tileOf th) with
        last := (x.2.engine (tileOf th)).last.set unit (some (coreOf th % 8)) }).finish th len
        { t.setG d (BitVec.ofNat 64 x.1) with remote := [], seq := t.seq + 1 } := by
    unfold State.acceptJob
    extract_lets y e s1 s2
    have hslot1 : s1.thread? th = some t := hslot
    rw [hslot1]
  rw [haccept]
  refine ⟨⟨?_, fun n hn => ?_, ?_⟩, _, engine_setEngine_same _ _ _⟩
  · rw [hjoined]
    exact sameBytes_of_eq (fun _ _ => rfl) rfl rfl
  · refine (thread?_finish_other _ _ _ _ _ hn).trans ?_
    rw [hjoined]
    rfl
  · rw [thread?_finish, advance_withSeq, hjoined]
    rfl

-- An offer (R204).

section
variable {s : State} {th : Nat} {t : Thread}

/-- The stores of a thread are performed, as far as its tile sees them (R284). -/
theorem storesDone_tile (ht : s.thread? th = some t) (hstores : s.storesOf th = [])
    (hrmw : ∀ o ∈ t.outs, o.isMem = true → o.isRmw = false) : s.storesDone th .tile = true := by
  have hnone : (t.outs.any fun o => o.isMem && o.isRmw) = false := by
    rw [List.any_eq_false]
    intro o ho
    cases hmem : o.isMem with
    | false => simp
    | true => simp [hrmw o ho hmem]
  simp only [State.storesDone, ht, hnone, hstores]
  rfl

/-- A thread whose loads are bound and whose stores are performed offers its job at once (R254). -/
theorem forkJob_offers (ht : s.thread? th = some t) (hprov : s.provisional t = false) (houts : ∀ o ∈ t.outs, o.parts = [])
    (hstores : s.storesOf th = []) (unit : Nat) (job : Job) (d : GReg) (len : Nat) :
    s.forkJob th unit t job d len = s.offerJob th unit job d len := by
  have hmem : t.outs.any Outstanding.isMem = false := by
    rw [List.any_eq_false]
    intro o ho
    simp [Outstanding.isMem, houts o ho]
  have hdone : s.storesDone th .tile = true :=
    storesDone_tile ht hstores fun o ho hmem => by simp [Outstanding.isMem, houts o ho] at hmem
  simp [State.forkJob, hprov, hmem, hdone]

theorem offerJob_room {unit : Nat} (hroom : s.unitRoom (tileOf th) unit = true)
    (halone : ∀ x ∈ s.threads, x.1 / 64 = tileOf th → x.1 ≠ th → x.2.park.offers unit = false) (job : Job) (d : GReg) (len : Nat) :
    s.offerJob th unit job d len = s.acceptJob th unit job d len := by
  have hwaiting : (s.threads.any fun e => tileOf e.1 == tileOf th && e.1 != th && e.2.park.offers unit) = false := by
    rw [List.any_eq_false]
    intro x hx
    by_cases htile : x.1 / 64 = tileOf th <;> by_cases hth : x.1 = th
    · simp [hth]
    · simp [halone x hx htile hth]
    · simp [hth]
    · simp [show tileOf x.1 ≠ tileOf th from htile]
  rw [State.offerJob, hroom, hwaiting]
  rfl

theorem offerJob_full {unit : Nat} (hroom : s.unitRoom (tileOf th) unit = false) (job : Job) (d : GReg) (len : Nat) :
    s.offerJob th unit job d len = s.parkAt th (.offer unit job d len) := by
  rw [State.offerJob, hroom]
  rfl
end

theorem laneRoom_iff {s : State} {tile lane : Nat} :
    s.unitRoom tile (lane + 1) = true ↔ ((s.engine tile).lanes.getD lane []).length < 32 := by
  simp [State.unitRoom]

theorem matrixRoom_iff {s : State} {tile : Nat} : s.unitRoom tile 0 = true ↔ (s.engine tile).mq.length < 16 := by
  simp [State.unitRoom]

end Sys2Proof.Proofs
end

