-- ==== Sys2Proof/Proofs/EngineIssue.lean ====
section
/-! O50: Porter and matrix instructions enter their jobs (R413, R421, R429), ENGINE_QUEUE_ACCEPT takes the job of a parked thread (R204),
jwait ends or parks (R439), and jpoll delivers whether a job is not live (R440). -/
namespace Sys2Proof.Proofs
open Sys2Proof Sys2Proof.Machine Sys2Proof.Laws

/-- Nothing holds the job of the thread back: its task is not provisional, its loads are bound and its stores performed (R254, R413). -/
structure MayFork (s : State) (t : Thread) : Prop where
  assured : s.provisional t = false
  bound : ∀ o ∈ t.outs, o.parts = []
  stored : s.storesOf s.focus = []

-- Porter instructions.

/-- The lane of a Porter instruction. -/
def laneOf (urg : Bool) : Nat := if urg then 1 else 0

/-- The id that the next job of a lane takes (R206). -/
def nextPorterId (s : State) (tile lane : Nat) : Nat :=
  2 ^ 15 + 2 ^ 14 * lane + (s.engine tile).pcount.getD lane 0 % 2 ^ 14

/-- A lane of the thread's tile takes a job at once. -/
def LaneFree (s : State) (lane : Nat) : Prop :=
  (s.engine (tileOf s.focus)).lanes.length = 2 ∧ ((s.engine (tileOf s.focus)).lanes.getD lane []).length < 32 ∧
    s.idHeld (tileOf s.focus) (nextPorterId s (tileOf s.focus) lane) = false ∧
    ∀ x ∈ s.threads, x.1 / 64 = tileOf s.focus → x.1 ≠ s.focus → x.2.park.offers (lane + 1) = false

/-- The job that a Porter instruction makes of its operands (R413). -/
def portJob (s : State) (t : Thread) (h : Hdr) (a b c e : GReg) (i : Instr) : PorterJob :=
  { id := 0, ins := i, dst := t.getG a, src := t.getG b, cval := t.getG c, count := t.getG (c + 1), dctr := t.getG e,
    sctr := t.getG (e + 1), run := t.task.map fun k => k.run, key := t.key,
    launch := (match t.task with | some k => k.launch | none => 0), th := s.focus,
    task := (match t.task with | some k => k.id | none => 0), hint := h.ch, progress := 0,
    srcBumped := false, rowInst := none, remotes := [] }

/-- A job holds the operands of a Porter instruction and has made no progress. -/
def Latched (s : State) (t : Thread) (a b c e : GReg) (j : PorterJob) (i : Instr) : Prop :=
  j.ins = i ∧ j.dst = t.getG a ∧ j.src = t.getG b ∧ j.cval = t.getG c ∧ j.count = t.getG (c + 1) ∧ j.dctr = t.getG e ∧
    j.sctr = t.getG (e + 1) ∧ j.th = s.focus ∧ j.key = t.key ∧ j.progress = 0 ∧ j.srcBumped = false

theorem latched_portJob (s : State) (t : Thread) (h : Hdr) (a b c e : GReg) (i : Instr) :
    Latched s t a b c e (portJob s t h a b c e i) i := ⟨rfl, rfl, rfl, rfl, rfl, rfl, rfl, rfl, rfl, rfl, rfl⟩

/-- The operands of a Porter instruction are outside the limits of R412. -/
def portOutside (p : PortSpec) (s : State) (t : Thread) (c : GReg) (own : Option GReg) (mask : BitVec 8) : Bool :=
  p.refused (t.getG c) (t.getG (c + 1)) mask (tileOf s.focus % 8) || match own with | some r => !inOwnStash (t.getG r) | none => false

/-- The operand numbers of a Porter instruction (R411). -/
def portNames (p : PortSpec) (d a b c e : GReg) : List Nat :=
  [numG d, numG a, numG b, numG c] ++ (match p.kind with | .gath | .scat _ => [numG (c + 1)] | _ => []) ++
    ((if p.dct then [numG e] else []) ++ if p.sct then [numG (e + 1)] else [])

section
variable {s : State} {t : Thread} {h : Hdr} {i : Instr} {p : PortSpec} {d a b c e : GReg} {own : Option GReg} {mask : BitVec 8}

theorem portOp_outside (hspec : portSpec i = some p) (hissues : s.Issues t h (portNames p d a b c e))
    (hout : portOutside p s t c own mask = true) :
    portOp i s h d a b c e own mask = .next (s.trap s.focus (.plain .illop)) := by
  rw [portOp, hspec]
  refine (memOp_runs s h 16 _ _ _ t hissues rfl).trans ?_
  exact congrArg Host.Outcome.next (if_pos hout)

theorem portOp_offers (hspec : portSpec i = some p) (hissues : s.Issues t h (portNames p d a b c e)) (hfork : MayFork s t)
    (hin : portOutside p s t c own mask = false) :
    portOp i s h d a b c e own mask = .next (s.offerJob s.focus (laneOf p.urg + 1) (.porter (portJob s t h a b c e i)) d 16) := by
  rw [portOp, hspec]
  refine (memOp_runs s h 16 _ _ _ t hissues rfl).trans ?_
  refine congrArg Host.Outcome.next ((if_neg (Bool.eq_false_iff.mp hin)).trans ?_)
  rw [forkJob_offers hissues.1 hfork.assured hfork.bound hfork.stored]
  cases p.urg <;> rfl

/-- What the statement says of each Porter instruction: it traps outside its limits, enters its job in a lane with room, and parks with
it at a full one. -/
def PortEnters (s : State) (t : Thread) (i : Instr) (lane : Nat) (d a b c e : GReg) (ok : Prop) : Prop :=
  (¬ok → exec i s = .next (s.trap s.focus (.plain .illop))) ∧
  (ok → LaneFree s lane → ∃ (u : State) (j : PorterJob), exec i s = .next u ∧
    (u.engine (tileOf s.focus)).lanes.getD lane [] = (s.engine (tileOf s.focus)).lanes.getD lane [] ++ [j] ∧
    j.id = nextPorterId s (tileOf s.focus) lane ∧ Latched s t a b c e j i ∧ s.SameBytes u ∧ s.OtherThreads u s.focus ∧
    u.thread? s.focus = some { (t.setG d (BitVec.ofNat 64 (nextPorterId s (tileOf s.focus) lane))).advance 16 with
      park := .run, lastIssue := s.cycle, remote := [], seq := t.seq + 1 }) ∧
  (ok → 32 ≤ ((s.engine (tileOf s.focus)).lanes.getD lane []).length →
    ∃ j, Latched s t a b c e j i ∧ s.Becomes i { t with park := .offer (lane + 1) (.porter j) d 16 })

theorem porter_enters (hspec : portSpec i = some p) (hexec : exec i s = portOp i s h d a b c e own mask)
    (hissues : s.Issues t h (portNames p d a b c e)) (hfork : MayFork s t) {ok : Prop} (hok : ok ↔ portOutside p s t c own mask = false) :
    PortEnters s t i (laneOf p.urg) d a b c e ok := by
  refine ⟨fun hbad => ?_, fun hgood hfree => ?_, fun hgood hfull => ?_⟩
  · rw [hok, Bool.not_eq_false] at hbad
    rw [hexec, portOp_outside hspec hissues hbad]
  · obtain ⟨hlanes, hroom, hunused, halone⟩ := hfree
    have hlane : laneOf p.urg < (s.engine (tileOf s.focus)).lanes.length := by
      rw [hlanes]
      cases p.urg <;> decide
    obtain ⟨ri, hid, hqueue⟩ := joinQueue_porter (portJob s t h a b c e i) hlane hunused
    obtain ⟨⟨hbytes, hothers, hthread⟩, l, hengine⟩ :=
      acceptJob_accepted hissues.1 (laneOf p.urg + 1) (.porter (portJob s t h a b c e i)) d 16
    refine ⟨_, { portJob s t h a b c e i with id := nextPorterId s (tileOf s.focus) (laneOf p.urg), rowInst := ri },
      ?_, ?_, rfl, ?_, hbytes, hothers, ?_⟩
    · rw [hexec, portOp_offers hspec hissues hfork (hok.mp hgood), offerJob_room (laneRoom_iff.mpr hroom) halone]
    · rw [hengine]
      exact hqueue
    · exact latched_portJob s t h a b c e i
    · rw [hthread, hid]
      rfl
  · have hno : s.unitRoom (tileOf s.focus) (laneOf p.urg + 1) = false := by
      rw [Bool.eq_false_iff, Ne, laneRoom_iff]
      omega
    refine ⟨portJob s t h a b c e i, latched_portJob s t h a b c e i, becomes_of_park hissues.1 ?_⟩
    rw [hexec, portOp_offers hspec hissues hfork (hok.mp hgood), offerJob_full hno]
end


/-- The window test of R412, on the bits that R41 names. -/
theorem inOwnStash_iff (v : BitVec 64) : inOwnStash v = true ↔ v.toNat / 2 ^ 48 % 2 ^ 8 = 0xFF := by
  rw [inOwnStash, bitsOf_eq_div, beq_iff_eq]

/-- Each Porter instruction enters its job within the limits of R412. -/
theorem porter_instructions_enter {s : State} {t : Thread} (hfork : MayFork s t) (h : Hdr) (urg : Bool) (op : RowOp) (ty : Ty)
    (ctl rows : BitVec 32) (mask : BitVec 8) (tag : BitVec 16) (d a b c e : GReg) :
    let enters (i : Instr) (k : PortKind) (n : Nat) (ok : Prop) : Prop := s.Issues t h (portNames ⟨k, urg, ctl.toNat, n⟩ d a b c e) →
      PortEnters s t i (laneOf urg) d a b c e ok
    let own (r : GReg) := (t.getG r).toNat / 2 ^ 48 % 2 ^ 8 = 0xFF
    let short := (t.getG c).toNat < 2 ^ 40
    let listed := (t.getG (c + 1)).toNat < 2 ^ 32 ∧ rows ≠ 0 ∧ rows.toNat ≤ 2 ^ 20
    enters (.prpush h urg ctl d a b c e) .copy 0 (short ∧ own b) ∧ enters (.prget h urg ctl d a b c e) .copy 0 (short ∧ own a) ∧
    enters (.prcopy h urg ctl d a b c e) .copy 0 short ∧ enters (.prfill h urg ctl d a b c e) .fill 0 short ∧
    enters (.prgath h urg ctl rows d a b c e) .gath rows.toNat listed ∧
    enters (.prscat h urg ty ctl rows d a b c e) (.scat ty) rows.toNat (listed ∧ (ty ≠ .none → rows.toNat % (ty.fixedWidth / 8) = 0)) ∧
    enters (.prrow h urg op ty ctl mask tag d a b c e) (.row op ty) 0
      (short ∧ (op = .merge → (t.getG c).toNat % 2 = 0) ∧ mask.getLsbD (s.focus / 64 % 8) = true) := by
  refine ⟨fun hi => porter_enters (own := some b) (mask := 0) rfl rfl hi hfork ?_,
    fun hi => porter_enters (own := some a) (mask := 0) rfl rfl hi hfork ?_,
    fun hi => porter_enters (own := none) (mask := 0) rfl rfl hi hfork ?_,
    fun hi => porter_enters (own := none) (mask := 0) rfl rfl hi hfork ?_,
    fun hi => porter_enters (own := none) (mask := 0) rfl rfl hi hfork ?_,
    fun hi => porter_enters (own := none) (mask := 0) rfl rfl hi hfork ?_,
    fun hi => porter_enters (own := none) rfl rfl hi hfork ?_⟩
  · simp [portOutside, PortSpec.refused, inOwnStash_iff]
  · simp [portOutside, PortSpec.refused, inOwnStash_iff]
  · simp [portOutside, PortSpec.refused]
  · simp [portOutside, PortSpec.refused]
  · simp [portOutside, PortSpec.refused, ← BitVec.toNat_inj, and_assoc]
  · simp [portOutside, PortSpec.refused, ← BitVec.toNat_inj, and_assoc, elemBytes]
  · simp [portOutside, PortSpec.refused, and_assoc, tileOf]

-- Matrix instructions.

/-- The job that a matrix instruction makes of its operands (R421). -/
def matJob (s : State) (t : Thread) (h : Hdr) (p : MatSpec) (a b c e : GReg) (i : Instr) : MatrixJob :=
  { id := 0, ins := i, aval := (if p.multiplies then t.getG a else 0), bval := (if p.multiplies then t.getG b else 0),
    cval := (if p.usesC then t.getG c else 0), dims := t.getG e, lds := (if p.multiplies then t.getG (e + 1) else 0),
    ctrva := (if p.ctr then t.getG (e + 2) else 0), mq := t.mq, fmt := t.fmt, run := t.task.map fun k => k.run,
    runid := s.runidOf t, key := t.key, launch := (match t.task with | some k => k.launch | none => 0), th := s.focus,
    task := (match t.task with | some k => k.id | none => 0), hint := h.ch, rp := 0, started := false, remotes := [] }

/-- The operand numbers of a matrix instruction (R421). -/
def matNames (p : MatSpec) (d a b c e : GReg) : List Nat :=
  [numG d, numG e] ++ (if p.multiplies then [numG a, numG b] ++ (if e.toNat = 15 then [] else [numG (e + 1)]) else []) ++
    (if p.usesC then [numG c] else []) ++ (if p.ctr = true ∧ e.toNat ≤ 13 then [numG (e + 2)] else [])

theorem pastG_iff {e : GReg} {k : Nat} : pastG e k = true ↔ 15 < e.toNat + k := by simp [pastG]

theorem matNames_eq (p : MatSpec) (d a b c e : GReg) : matNames p d a b c e =
    [numG d, numG e] ++ (if p.multiplies then [numG a, numG b] ++ (if pastG e 1 then [] else [numG (e + 1)]) else []) ++
      (if p.usesC then [numG c] else []) ++ (if p.ctr && !pastG e 2 then [numG (e + 2)] else []) := by
  have hone : pastG e 1 = true ↔ e.toNat = 15 := by
    have := e.isLt
    rw [pastG_iff]
    omega
  have htwo : (p.ctr && !pastG e 2) = true ↔ p.ctr = true ∧ e.toNat ≤ 13 := by
    rw [Bool.and_eq_true, Bool.not_eq_true', Bool.eq_false_iff, Ne, pastG_iff, show ¬15 < e.toNat + 2 ↔ e.toNat ≤ 13 by omega]
  simp only [matNames, hone, htwo]

/-- The instruction needs a register past g15 (R429). -/
def matPast (p : MatSpec) (e : GReg) : Bool := pastG e 1 || (p.ctr && pastG e 2)

theorem matPast_of {p : MatSpec} {e : GReg} (h : e.toNat = 15 ∨ (p.ctr = true ∧ e.toNat = 14)) : matPast p e = true := by
  rw [matPast, Bool.or_eq_true, Bool.and_eq_true, pastG_iff, pastG_iff]
  obtain h15 | ⟨hctr, h14⟩ := h
  · exact .inl (by omega)
  · exact .inr ⟨hctr, by omega⟩

theorem not_matPast_of {p : MatSpec} {e : GReg} (h : e.toNat ≤ 13 ∨ (e.toNat = 14 ∧ p.ctr = false)) : matPast p e = false := by
  have hpast {k : Nat} (hk : e.toNat + k ≤ 15) : pastG e k = false := decide_eq_false (by omega)
  rw [matPast, Bool.or_eq_false_iff, Bool.and_eq_false_iff]
  obtain h13 | ⟨h14, hctr⟩ := h
  · exact ⟨hpast (by omega), .inr (hpast (by omega))⟩
  · exact ⟨hpast (by omega), .inl hctr⟩

section
variable {s : State} {t : Thread} {h : Hdr} {i : Instr} {p : MatSpec} {d a b c e : GReg}

theorem matOp_past (hspec : matSpec i = some p) (hissues : s.Issues t h (matNames p d a b c e)) (hpast : matPast p e = true) :
    matOp i s h d a b c e = .next (s.trap s.focus (.plain .illop)) := by
  rw [matNames_eq] at hissues
  rw [matOp, hspec]
  cases hill : p.undecoded c with
  | true => exact issue_ill _ _ hissues.1 hill
  | false =>
    refine (memOp_runs s h 16 _ _ _ t hissues hill).trans (congrArg Host.Outcome.next (if_pos ?_))
    rw [Bool.or_eq_true]
    exact .inl hpast

theorem undecoded_of_refused {dims lds : BitVec 64} {mq fmt : List (BitVec 64)} (h : p.refused c dims lds mq fmt = false) :
    p.undecoded c = false := by
  simp only [MatSpec.refused, Bool.or_eq_false_iff] at h
  tauto

theorem matOp_offers (hspec : matSpec i = some p) (hissues : s.Issues t h (matNames p d a b c e)) (hfork : MayFork s t)
    (hin : matPast p e = false) (hok : p.refused c (t.getG e) (if p.multiplies then t.getG (e + 1) else 0) t.mq t.fmt = false)
    (haligned : misaligned (p.bases (t.getG a) (t.getG b) (t.getG c) t.mq t.fmt) = none) :
    matOp i s h d a b c e = .next (s.offerJob s.focus 0 (.matrix (matJob s t h p a b c e i)) d 16) := by
  rw [matNames_eq] at hissues
  rw [matOp, hspec]
  refine (memOp_runs s h 16 _ _ _ t hissues (undecoded_of_refused hok)).trans (congrArg Host.Outcome.next ?_)
  rw [matPast] at hin
  dsimp only
  rw [hin, hok, haligned]
  exact forkJob_offers hissues.1 hfork.assured hfork.bound hfork.stored ..

/-- A matrix instruction within the limits of R429 enters its job in a queue with room. -/
theorem matrix_enters (hspec : matSpec i = some p) (hissues : s.Issues t h (matNames p d a b c e)) (hfork : MayFork s t)
    (hexec : exec i s = matOp i s h d a b c e)
    (hin : matPast p e = false) (hok : p.refused c (t.getG e) (if p.multiplies then t.getG (e + 1) else 0) t.mq t.fmt = false)
    (haligned : misaligned (p.bases (t.getG a) (t.getG b) (t.getG c) t.mq t.fmt) = none)
    (hroom : (s.engine (tileOf s.focus)).mq.length < 16)
    (hunused : s.idHeld (tileOf s.focus) ((s.engine (tileOf s.focus)).mcount % 2 ^ 15) = false)
    (halone : ∀ x ∈ s.threads, x.1 / 64 = tileOf s.focus → x.1 ≠ s.focus → x.2.park.offers 0 = false) :
    ∃ u : State, exec i s = .next u ∧
      (u.engine (tileOf s.focus)).mq = (s.engine (tileOf s.focus)).mq ++
        [{ matJob s t h p a b c e i with id := (s.engine (tileOf s.focus)).mcount % 2 ^ 15 }] ∧
      Accepted s u s.focus t d ((s.engine (tileOf s.focus)).mcount % 2 ^ 15) 16 := by
  obtain ⟨hid, hqueue⟩ := joinQueue_matrix 0 (matJob s t h p a b c e i) hunused
  obtain ⟨haccepted, l, hengine⟩ := acceptJob_accepted hissues.1 0 (.matrix (matJob s t h p a b c e i)) d 16
  refine ⟨_, ?_, ?_, hid ▸ haccepted⟩
  · rw [hexec, matOp_offers hspec hissues hfork hin hok haligned, offerJob_room (matrixRoom_iff.mpr hroom) halone]
  · rw [hengine]
    exact hqueue
end

-- ENGINE_QUEUE_ACCEPT.

section
variable {s : State} {th : Nat} {t : Thread} {tile unit : Nat}

theorem acceptOffer_full (h : s.unitRoom tile unit = false) : s.acceptOffer tile unit = s := by
  rw [State.acceptOffer, h]
  rfl

/-- A fold that keeps the first of the elements that qualify, or prefers another, answers the only one that qualifies. -/
theorem foldl_only {α : Type} {q : α → Prop} [DecidablePred q] {pick : Option α → α → Option α} {x : α}
    (hfirst : pick none x = some x) (hagain : pick (some x) x = some x) {l : List α} (honly : ∀ e ∈ l, q e → e = x) {a : Option α}
    (ha : a = some x ∨ a = none ∧ x ∈ l ∧ q x) :
    l.foldl (fun a e => if q e then pick a e else a) a = some x := by
  induction l generalizing a with
  | nil =>
    obtain rfl | ⟨-, hx, -⟩ := ha
    · rfl
    · cases hx
  | cons e r ih =>
    refine ih (fun y hy => honly y (.tail e hy)) ?_
    dsimp only
    by_cases he : q e
    · obtain rfl := honly e List.mem_cons_self he
      rw [if_pos he]
      obtain rfl | ⟨rfl, -, -⟩ := ha
      · exact .inl hagain
      · exact .inl hfirst
    · rw [if_neg he]
      obtain rfl | ⟨rfl, hx, hq⟩ := ha
      · exact .inl rfl
      · refine .inr ⟨rfl, ?_, hq⟩
        obtain rfl | hx := List.mem_cons.mp hx
        · exact absurd hq he
        · exact hx

/-- The offer that a unit takes is the only one there is (R204). -/
theorem acceptOffer_only {job : Job} {d : GReg} {len : Nat} (hslot : s.thread? th = some t) (hpark : t.park = .offer unit job d len)
    (hroom : s.unitRoom (tileOf th) unit = true) (hfatal : s.fatal = false) (hfenced : s.fenced (tileOf th) = false)
    (honly : ∀ x ∈ s.threads, tileOf x.1 = tileOf th → x.2.park.offers unit = true → x = (th, t)) :
    s.acceptOffer (tileOf th) unit = s.acceptJob th unit job d len := by
  have hoffers : t.park.offers unit = true := by simp [hpark, Park.offers]
  rw [State.acceptOffer, hroom, hfatal, hfenced]
  dsimp only
  rw [foldl_only (x := (th, t)) (q := fun e => tileOf e.1 = tileOf th ∧ e.2.park.offers unit = true) rfl ?_
    (fun e he hq => honly e he hq.1 hq.2) (.inr ⟨rfl, mem_of_get? hslot, rfl, hoffers⟩)]
  · dsimp only
    rw [hpark]
    rfl
  · exact ite_self _
end

-- jwait and jpoll.

section
variable {s : State} {t : Thread} {h : Hdr} {d a : GReg}

theorem jwait_parks {st : Bool} (hissues : s.Issues t h (if st then [numG d, numG a] else [numG a]))
    (hlive : s.jobLive (tileOf s.focus) ((t.getG a).toNat % 2 ^ 16) = true) :
    s.Becomes (.jwait h st d a) { t with park := .jwait ((t.getG a).toNat % 2 ^ 16) } := by
  refine becomes_of_park hissues.1 ((issue_runs s _ _ t h _ 8 false ?_ hissues nofun).trans (congrArg Host.Outcome.next (if_pos hlive)))
  cases st <;> rfl

theorem jwait_ends {st : Bool} (hissues : s.Issues t h (if st then [numG d, numG a] else [numG a]))
    (hdead : s.jobLive (tileOf s.focus) ((t.getG a).toNat % 2 ^ 16) = false) :
    exec (.jwait h st d a) s = .next ((s.joinJobs s.focus).finish s.focus 8
      (if st then t.setG d (if s.jobStatus (tileOf s.focus) ((t.getG a).toNat % 2 ^ 16) then 1 else 0) else t)) := by
  refine (issue_runs s _ _ t h _ 8 false ?_ hissues nofun).trans (congrArg Host.Outcome.next (if_neg (Bool.eq_false_iff.mp hdead)))
  cases st <;> rfl

theorem jpoll_ends {p : PReg} (hissues : s.Issues t h [numP p, numG a]) (houts : t.outs.length < 16) :
    s.Ends (.jpoll h p a) 8 { t.addOut { readyOut t (numP p) 0 with kind := .jpoll ((t.getG a).toNat % 2 ^ 16), acq := some .thread } with
      seq := t.seq + 1 } :=
  ends_of_finish _ _ _ _ (varOp_runs s h 8 _ _ t hissues houts)
end

-- The result of jpoll.

theorem writeDst_p {o : Outstanding} {p : PReg} (hd : o.dst = BitVec.ofNat 6 (numP p)) (t : Thread) (v : Line) :
    t.writeDst o.dst.toNat v = t.setP p (v.getLsbD 0) := by
  have hlt := p.isLt
  have hnum : o.dst.toNat = 56 + p.toNat := by rw [hd, numP, BitVec.toNat_ofNat, Nat.mod_eq_of_lt (by omega)]
  rw [Thread.writeDst, hnum, if_neg (by omega), if_neg (by omega), if_neg (by omega), Nat.add_sub_cancel_left, BitVec.ofNat_toNat,
    BitVec.setWidth_eq]

/-- Writing a predicate and ending a result do not meet. -/
theorem setP_ended (t : Thread) (p : PReg) (b : Bool) (outs : List Outstanding) (pend : BitVec 64) (fences : List Nat) :
    ({ t with outs := outs, pend := pend, fences := fences } : Thread).setP p b =
      { t.setP p b with outs := outs, pend := pend, fences := fences } := by
  unfold Thread.setP
  split <;> rfl

section
variable {s : State} {th id : Nat} {t : Thread} {o : Outstanding} {rest : List Outstanding}

/-- Reading a job's state changes nothing but the charges of the thread, where the job is not live (R251, R440). -/
theorem bindResult_jpoll (hkind : o.kind = .jpoll id) : s.bindResult th t o =
    (BitVec.ofNat 1024 (!s.jobLive (tileOf th) id).toNat, if s.jobLive (tileOf th) id then s else s.joinJobs th) := by
  rw [State.bindResult, hkind]

theorem bindResult_jpoll_state (hkind : o.kind = .jpoll id) :
    ∃ x, (s.bindResult th t o).2 = { s with coh := { s.coh with collapses := x } } := by
  rw [bindResult_jpoll hkind]
  cases s.jobLive (tileOf th) id with
  | true => exact ⟨s.coh.collapses, rfl⟩
  | false => exact ⟨_, joinJobs_eq s th⟩

theorem outTrap_nil (w : Who) (h : o.parts = []) : s.outTrap w o = none := by
  have hnone (bad : Part → Bool) : o.trapPart bad = none := trapPart_none fun p hp => by rw [h] at hp; cases hp
  rw [State.outTrap, hnone, hnone]
  rfl

theorem endPendread_eq_self (h : ∀ t, s.thread? th = some t → t.park ≠ .pendread) : s.endPendread th = s := by
  unfold State.endPendread
  cases ht : s.thread? th with
  | none => rfl
  | some t => exact if_neg (by simp [h t ht])

/-- Delivering jpoll's answer: what binding it does, and the answer written. -/
theorem deliver_jpoll (hslot : s.thread? th = some t) (houts : t.outs = o :: rest) (hkind : o.kind = .jpoll id) (hparts : o.parts = [])
    (hrel : o.rel = none) (hstopped : o.stopped = false) {p : PReg} (hd : o.dst = BitVec.ofNat 6 (numP p)) (hpark : t.park ≠ .pendread) :
    s.deliver th o.dst.toNat = ((s.bindResult th t o).2.doneS th o.seq).setThread th
      ((t.endOut o).setP p (!s.jobLive (tileOf th) id)) := by
  have hfind : t.outs.find? (fun y => y.dst.toNat == o.dst.toNat) = some o := by rw [houts, List.find?_cons_of_pos (by simp)]
  have hbind : s.mayBind th t o = true := by simp [State.mayBind, Outstanding.isMem, hparts]
  have hrmw : o.isRmw = false := by rw [Outstanding.isRmw, hkind]
  have hready (w : Who) : s.allReady w.run false o.parts = (true, s) := by rw [hparts]; rfl
  have hhold (u : State) : u.holdOut th t o = u := by rw [State.holdOut, hrmw]
  have hvalue : (BitVec.ofNat 1024 (!s.jobLive (tileOf th) id).toNat).getLsbD 0 = !s.jobLive (tileOf th) id := by
    cases s.jobLive (tileOf th) id <;> simp
  have hthreads : ((s.bindResult th t o).2.doneS th o.seq).thread? th = some t := by
    obtain ⟨x, hx⟩ := bindResult_jpoll_state (s := s) (th := th) (t := t) hkind
    rw [hx]
    exact hslot
  have hwritten : (t.endOut o).writeDst o.dst.toNat (s.bindResult th t o).1 = (t.endOut o).setP p (!s.jobLive (tileOf th) id) := by
    rw [writeDst_p hd, bindResult_jpoll hkind, hvalue]
  have hpark' : ((t.endOut o).setP p (!s.jobLive (tileOf th) id)).park = t.park := by
    unfold Thread.setP
    split <;> rfl
  simp only [State.deliver, hslot, hfind, hrel, State.cleanBefore, hstopped, hbind, Bool.not_true, Bool.or_false, Bool.false_eq_true, if_false,
    hrmw, hready, outTrap_nil _ hparts, hhold, onThread_eq _ _ _ _ hthreads, hwritten]
  exact endPendread_eq_self fun v hv => by
    rw [thread?_setThread] at hv
    rw [← Option.some.inj hv, hpark']
    exact hpark

/-- The predicate of jpoll tells whether its job is not live (R440). -/
theorem jpoll_delivers (hslot : s.thread? th = some t) (houts : t.outs = o :: rest) (hkind : o.kind = .jpoll id) (hparts : o.parts = [])
    (hrel : o.rel = none) (hstopped : o.stopped = false) {p : PReg} (hd : o.dst = BitVec.ofNat 6 (numP p)) (hpark : t.park ≠ .pendread) :
    ∃ z f, exec (.variableLatencyResult th o.dst.toNat) s = .next z ∧ s.SameBytes z ∧ s.OtherThreads z th ∧
      z.thread? th = some { t.setP p (!s.jobLive (tileOf th) id) with
        outs := rest, pend := t.pend &&& ~~~(1#64 <<< o.dst.toNat), fences := f } := by
  obtain ⟨f, hended⟩ := endOut_head houts
  obtain ⟨x, hx⟩ := bindResult_jpoll_state (s := s) (th := th) (t := t) hkind
  refine ⟨_, f, congrArg Host.Outcome.next (deliver_jpoll hslot houts hkind hparts hrel hstopped hd hpark), ?_, fun n hn => ?_, ?_⟩
  · rw [hx]
    exact sameBytes_of_eq (fun _ _ => rfl) rfl rfl
  · rw [thread?_setThread_other _ _ _ _ hn, hx]
    rfl
  · rw [thread?_setThread, hended, setP_ended]
end

/-- Settles O50: an engine instruction within its limits offers its job, which joins its queue at once where there is room (R204), or once
ENGINE_QUEUE_ACCEPT takes it; jwait and jpoll read whether the job is live. -/
theorem engineIssue : Obligations.EngineIssue := by
  refine ⟨fun s t h urg op ty ctl rows mask tag d a b c e hprov houts hstores => ?porter,
    fun s t h tc ctl ldc d a b c e i p va vb hform hspec hprov houts hstores => ?matrix,
    fun s t th len j d hslot hpark hfatal hfenced => ?accept, fun s t h d a p => ?wait,
    fun s t th id p o rest hslot houts hkind hparts hrel hstopped hd hpark => jpoll_delivers hslot houts hkind hparts hrel hstopped hd hpark⟩
  case porter =>
    obtain ⟨hpush, hget, hcopy, hfill, hgath, hscat, hrow⟩ :=
      porter_instructions_enter ⟨hprov, houts, hstores⟩ h urg op ty ctl rows mask tag d a b c e
    exact ⟨hpush, hget, hcopy, hfill, hgath, fun _ => hscat, hrow⟩
  case matrix =>
    intro tile ab hissues id
    have hexec : exec i s = matOp i s h d a b c e ∧ (if p.multiplies then t.getG a else 0) = va ∧
        (if p.multiplies then t.getG b else 0) = vb := by
      obtain ⟨rfl | rfl | rfl, rfl, rfl⟩ | ⟨rfl | rfl, rfl, rfl, rfl, rfl⟩ := hform <;> cases hspec <;> exact ⟨rfl, rfl, rfl⟩
    obtain ⟨hexec, hva, hvb⟩ := hexec
    refine ⟨fun hpast => hexec.trans (matOp_past hspec hissues (matPast_of hpast)),
      fun hin hok haligned hroom hunused halone => ?_⟩
    obtain ⟨u, hu, hqueue, hbytes, hothers, hthread⟩ :=
      matrix_enters hspec hissues ⟨hprov, houts, hstores⟩ hexec (not_matPast_of hin) hok haligned hroom hunused halone
    exact ⟨u, _, hu, hqueue, rfl, rfl, hva, hvb, rfl, rfl, rfl, rfl, rfl, rfl, hbytes, hothers, hthread⟩
  case accept =>
    intro tile id honly
    refine ⟨fun hfull => congrArg Host.Outcome.next (acceptOffer_full ?_), fun hroom hunused => ?_⟩
    · rw [Bool.eq_false_iff, Ne, matrixRoom_iff]
      omega
    · obtain ⟨hid, hqueue⟩ := joinQueue_matrix 0 j hunused
      obtain ⟨⟨hbytes, hothers, hthread⟩, l, hengine⟩ := acceptJob_accepted hslot 0 (.matrix j) d len
      refine ⟨_, congrArg Host.Outcome.next (acceptOffer_only hslot hpark (matrixRoom_iff.mpr hroom) hfatal hfenced honly), ?_, hbytes,
        hothers, ?_⟩
      · exact (congrArg Engines.mq hengine).trans hqueue
      · rw [hthread]
        exact hid ▸ rfl
  case wait =>
    intro tile id names
    refine ⟨fun st hissues => ⟨jwait_parks hissues, fun hdead => ?_⟩, jpoll_ends⟩
    obtain ⟨x, hx⟩ : ∃ x, s.joinJobs s.focus = { s with coh := { s.coh with collapses := x } } := ⟨_, joinJobs_eq s s.focus⟩
    have hends := jwait_ends hissues hdead
    have hfollows {unit : Nat} := joinJobs_follows s s.focus (unit := unit)
    rw [hx] at hends hfollows
    exact ⟨_, hends, rfl, fun c hc unit hunit => hfollows hunit c hc, sameBytes_of_eq (fun _ _ => rfl) rfl rfl,
      fun n hn => thread?_finish_other _ _ _ _ _ hn, thread?_finish ..⟩

end Sys2Proof.Proofs
end

