-- ==== Sys2Proof/Proofs/StashMaps.lean ====
section
/-! Stash mappings are made and taken away (R200, R406, R407): the index that a mapping takes, the lines that leave with it. -/
namespace Sys2Proof.Proofs
open Sys2Proof Sys2Proof.Machine Sys2Proof.Laws

-- stashmap.

/-- Fewer numbers than n leave one below n free. -/
theorem exists_free {l : List Nat} {n : Nat} (h : l.length < n) : ∃ i < n, i ∉ l := by
  by_contra hall
  push Not at hall
  have hsub : List.range n ⊆ l := fun i hi => hall i (List.mem_range.mp hi)
  have hlen := (List.nodup_range.subperm hsub).length_le
  rw [List.length_range] at hlen
  omega

/-- The index that a new mapping takes is used by none where fewer than all are. -/
theorem firstFree_notMem {l : List Nat} {n : Nat} (h : l.length < n) :
    ((List.range n).find? fun i => !l.contains i).getD 0 ∉ l := by
  obtain ⟨i, hi, hfree⟩ := exists_free h
  have hsome : ((List.range n).find? fun i => !l.contains i).isSome := by
    rw [List.find?_isSome]
    exact ⟨i, List.mem_range.mpr hi, by simpa using hfree⟩
  obtain ⟨k, hk⟩ := Option.isSome_iff_exists.mp hsome
  have hnot := List.find?_some hk
  rw [hk]
  simpa using hnot

theorem rangesMeet_iff {a n b m : Nat} : rangesMeet a n b m = true ↔ a < b + m ∧ b < a + n := by simp [rangesMeet]

/-- The cases in which stashmap traps, as R200 and R406 name them. -/
theorem mapRefused_iff {s : State} {tile run a b n : Nat} : s.mapRefused tile run a b n = true ↔
    0xFD ≤ a / 2 ^ 48 % 2 ^ 8 ∨ 2 ^ 20 ≤ b ∨ n = 0 ∨ 256 < n ∨ 2 ^ 20 < b + 4096 * n ∨
      (∃ m ∈ s.stash.maps, m.tile = tile ∧ ((m.soff < b + 4096 * n ∧ b < m.soff + 4096 * m.pages) ∨
        (m.run = run ∧ m.vbase < a % 2 ^ 56 + 4096 * n ∧ a % 2 ^ 56 < m.vbase + 4096 * m.pages))) ∨
      s.inRing tile b (4096 * n) = true ∨ 64 ≤ (s.stash.maps.filter fun m => m.tile == tile).length := by
  simp only [State.mapRefused, bitsOf_eq_div, Bool.or_eq_true, decide_eq_true_eq, beq_iff_eq, List.any_eq_true, List.mem_filter,
    Bool.and_eq_true, rangesMeet_iff, and_assoc, or_assoc]
  have hsplit : (∃ m ∈ s.stash.maps, m.tile = tile ∧ ((m.soff < b + 4096 * n ∧ b < m.soff + 4096 * m.pages) ∨
      (m.run = run ∧ m.vbase < a % 2 ^ 56 + 4096 * n ∧ a % 2 ^ 56 < m.vbase + 4096 * m.pages))) ↔
      (∃ m ∈ s.stash.maps, m.tile = tile ∧ m.soff < b + 4096 * n ∧ b < m.soff + 4096 * m.pages) ∨
      (∃ m ∈ s.stash.maps, m.tile = tile ∧ m.run = run ∧ m.vbase < a % 2 ^ 56 + 4096 * n ∧ a % 2 ^ 56 < m.vbase + 4096 * m.pages) := by
    simp only [and_or_left, exists_or]
  rw [hsplit]
  simp only [or_assoc]

/-- The mapping that stashmap makes (R406). -/
def newMapping (s : State) (tile run va off n : Nat) (upd : Bool) : Mapping :=
  { tile := tile, idx := ((List.range 64).find? fun i =>
      !((s.stash.maps.filter fun m => m.tile == tile).map fun m => m.idx).contains i).getD 0,
    run := run, vbase := va % 2 ^ 56, pages := n, soff := off, upd := upd }

theorem newMapping_fresh {s : State} {tile : Nat} (h : (s.stash.maps.filter fun m => m.tile == tile).length < 64) (run va off n : Nat)
    (upd : Bool) : ∀ x ∈ s.stash.maps, x.tile = tile → x.idx ≠ (newMapping s tile run va off n upd).idx := by
  intro x hx htile hidx
  refine firstFree_notMem (l := (s.stash.maps.filter fun m => m.tile == tile).map fun m => m.idx) (n := 64) (by simpa using h) ?_
  exact List.mem_map.mpr ⟨x, List.mem_filter.mpr ⟨hx, by simpa using htile⟩, hidx⟩

section
variable {s : State} {t : Thread} {h : Hdr} {upd : Bool} {a b : GReg} {c : Src32}

/-- stashmap in the order of its checks (R406, R409). -/
theorem stashmap_exec (hissues : s.Issues t h ([numG a, numG b] ++ numSrc32 c)) (hprov : s.provisional t = false) :
    exec (.stashmap h upd a b c) s = .next (
      if (t.getG a).toNat % 4096 ≠ 0 ∨ (t.getG b).toNat % 4096 ≠ 0 then s.trap s.focus (.at .align .none ((t.getG a).toNat % 2 ^ 56))
      else if s.mapRefused (tileOf s.focus) t.mapRun (t.getG a).toNat (t.getG b).toNat (t.src32 .none c).toNat then
        s.trap s.focus (.plain .illop)
      else ({ s with stash := { s.stash with maps := s.stash.maps ++
        [newMapping s (tileOf s.focus) t.mapRun (t.getG a).toNat (t.getG b).toNat (t.src32 .none c).toNat upd] } } : State).finish
          s.focus c.len t) := by
  refine (memOp_runs s h _ _ _ _ t hissues rfl).trans (congrArg Host.Outcome.next ((if_neg ?_).trans rfl))
  rw [hprov]
  exact Bool.false_ne_true

theorem src32_none_toNat (t : Thread) (c : Src32) :
    (t.src32 .none c).toNat = match c with | .reg r => (t.getG r).toNat | .imm v => (v.signExtend 64).toNat := by
  cases c <;> rfl
end

-- stashunmap.

/-- No mapped line of the tile is modified. -/
def CleanLines (s : State) (tile : Nat) : Prop := ∀ l ∈ s.stash.lines, l.tile = tile → l.dirty = false

/-- A state whose stash has lost lines, and whose L2 homes may have forgotten them: nothing else has changed. -/
def Shed (s u : State) : Prop :=
  u = { s with stash := { s.stash with lines := u.stash.lines }, coh := u.coh } ∧ ∀ l ∈ u.stash.lines, l ∈ s.stash.lines

theorem Shed.trans {s u v : State} (h : Shed s u) (k : Shed u v) : Shed s v := by
  obtain ⟨hu, hul⟩ := h
  obtain ⟨hv, hvl⟩ := k
  refine ⟨?_, fun l hl => hul l (hvl l hl)⟩
  rw [hv, hu]

theorem cleanMapLine_clean {s : State} {tile : Nat} (h : CleanLines s tile) (off : Nat) (asker : List Agent) (hint : BitVec 3) :
    s.cleanMapLine tile off asker hint = s := by
  unfold State.cleanMapLine
  cases hl : s.mapLine? tile off with
  | none => rfl
  | some l =>
    have htile := List.find?_some hl
    simp only [Bool.and_eq_true, beq_iff_eq] at htile
    have hclean := h l (List.mem_of_find?_eq_some hl) htile.1
    exact if_pos (by rw [hclean]; rfl)

theorem forgetTile_coh (s : State) (tile line : Nat) : s.forgetTile tile line = { s with coh := (s.forgetTile tile line).coh } := by
  unfold State.forgetTile
  dsimp only
  split
  · rfl
  · split <;> rfl

/-- One line of a mapping leaves a tile with no modified line. -/
theorem shed_line {s : State} {tile : Nat} (h : CleanLines s tile) (off line : Nat) (asker : List Agent) (hint : BitVec 3) :
    Shed s (((s.cleanMapLine tile off asker hint).dropMapLine tile off).forgetTile tile line) ∧
      (((s.cleanMapLine tile off asker hint).dropMapLine tile off).forgetTile tile line).stash.lines =
        s.stash.lines.filter fun l => !(l.tile == tile && l.off == off / 128 * 128) := by
  rw [cleanMapLine_clean h, forgetTile_coh]
  exact ⟨⟨rfl, fun l hl => List.mem_of_mem_filter hl⟩, rfl⟩

theorem CleanLines.shed {s u : State} {tile : Nat} (h : CleanLines s tile) (hu : Shed s u) : CleanLines u tile :=
  fun l hl => h l (hu.2 l hl)

/-- The lines of a list leave a tile with no modified line. -/
theorem shed_lines {tile : Nat} (asker : List Agent) (hint : BitVec 3) (ls : List MapLine) {s : State} (h : CleanLines s tile) :
    let u := ls.foldl (fun (s : State) (l : MapLine) =>
      ((s.cleanMapLine tile l.off asker hint).dropMapLine tile l.off).forgetTile tile l.pa) s
    Shed s u ∧ ∀ l ∈ u.stash.lines, ∀ x ∈ ls, ¬(l.tile = tile ∧ l.off = x.off / 128 * 128) := by
  induction ls generalizing s with
  | nil => exact ⟨⟨rfl, fun _ hl => hl⟩, nofun⟩
  | cons x r ih =>
    obtain ⟨hstep, hlines⟩ := shed_line h x.off x.pa asker hint
    obtain ⟨hrest, hgone⟩ := ih (h.shed hstep)
    refine ⟨hstep.trans hrest, fun l hl y hy => ?_⟩
    obtain rfl | hy := List.mem_cons.mp hy
    · have hkept := hrest.2 l hl
      rintro ⟨htile, hoff⟩
      rw [hlines, List.mem_filter] at hkept
      simp [htile, hoff] at hkept
    · exact hgone l hl y hy

theorem Shed.sameBytes {s u : State} (h : Shed s u) : s.SameBytes u := by
  rw [h.1]
  exact sameBytes_of_eq (fun _ _ => rfl) rfl rfl

theorem Shed.cycle {s u : State} (h : Shed s u) : u.cycle = s.cycle := by rw [h.1]

/-- A mapping leaves with its lines, of which none is modified (R407). -/
theorem unmap_clean {s : State} {m : Mapping} (hclean : CleanLines s m.tile) (hoff : ∀ l ∈ s.stash.lines, l.off % 128 = 0)
    (asker : List Agent) (hint : BitVec 3) :
    s.SameBytes (s.unmap m asker hint) ∧ (s.unmap m asker hint).cycle = s.cycle ∧
      (s.unmap m asker hint).stash.maps = s.stash.maps.filter (fun x => !(x.tile == m.tile && x.idx == m.idx)) ∧
      ∀ l ∈ (s.unmap m asker hint).stash.lines, ¬(l.tile = m.tile ∧ m.soff ≤ l.off ∧ l.off < m.soff + 4096 * m.pages) := by
  obtain ⟨hshed, hgone⟩ := shed_lines asker hint
    (s.stash.lines.filter fun (l : MapLine) => l.tile == m.tile && decide (m.soff ≤ l.off) && decide (l.off < m.soff + 4096 * m.pages)) hclean
  refine ⟨hshed.sameBytes, hshed.cycle, ?_, fun l hl hin => ?_⟩
  · unfold State.unmap
    dsimp only
    rw [hshed.1]
  · have hmem := hshed.2 l hl
    refine hgone l hl l (List.mem_filter.mpr ⟨hmem, by simpa [and_assoc] using hin⟩) ⟨hin.1, ?_⟩
    have := hoff l hmem
    omega

end Sys2Proof.Proofs
end

