-- ==== Sys2Proof/Proofs/LineFlush.lean ====
section
/-! A modified mapped line goes home (R203, R408), with whatever hint and page class: at a home that no cache and no collapse stands before,
the store of the whole line changes nothing but the line itself, and with .nol2 the line goes on to its HBM slot as it is (R296). -/
namespace Sys2Proof.Proofs
open Sys2Proof Sys2Proof.Machine Sys2Proof.Laws

-- The home of a line that no cache holds, for eager and lazy collapses alike.

section
variable {s : State} {line : Nat}

/-- Without replicas there is no quadrant to send a lazy collapse to. -/
theorem collapse_calm (hrep : (s.l3 line).rep = 0) (hcollapses : s.coh.collapses = []) (cv : BitVec 5) (new : Line) (eager counted : Bool)
    (w : List Agent) (sp : Spared) :
    ∃ c, s.collapse line cv new eager counted w sp = { s with coh := c } ∧ c.l2 = s.coh.l2 ∧ c.collapses = [] := by
  cases eager with
  | true => exact collapse_none hrep hcollapses cv new counted w sp
  | false =>
    have hnone : (List.range 4).filter (fun q => (s.l3 line).rep.getLsbD q) = [] := by simp [hrep]
    unfold State.collapse
    dsimp only
    rw [if_neg Bool.false_ne_true, hnone, hcollapses]
    exact ⟨_, rfl, rfl, rfl⟩

variable (h : Calm s line)
include h

theorem Calm.held_settleCollapse (cv : BitVec 5) (new : Line) (eager : Bool) (w : List Agent) (sp : Spared) :
    held ((s.settle line).collapse line cv new eager true w sp) = held s := by
  obtain ⟨c, hc, -, -⟩ := collapse_calm h.settle.entry.rep h.settle.collapses cv new eager true w sp
  rw [hc, held_coh, held_settle]

/-- A die comes to own the line (R226). -/
theorem Calm.takeOwner_any (d : Nat) (now : Line) (hint : BitVec 3) (eager : Bool) (w : List Agent) (sp : Spared) :
    held (s.takeOwner line d now hint eager w sp) = held s ∧ (s.takeOwner line d now hint eager w sp).coh.l2 = [] := by
  obtain ⟨hhome, hheld, -⟩ := h.toL3Home hint false
  unfold State.takeOwner
  generalize ((s.recallOwner line).countWrite line).atL3 line hint false = v at hhome hheld ⊢
  dsimp only
  rw [hhome.present, List.foldl_nil]
  generalize hx : v.setL3 { (v.l3 line).setDie d (some (.full, false)) with own := some d } = x
  have hentry : x.l3 line = { (v.l3 line).setDie d (some (.full, false)) with own := some d } := by
    rw [← hx]
    exact l3_of_l3? (l3?_setL3_same v hhome.entry.line)
  have hrep : (x.l3 line).rep = 0 := by
    rw [hentry]
    exact hhome.entry.rep
  obtain ⟨c, hc, hc2, hcc⟩ := collapse_calm hrep (by rw [← hx]; exact hhome.collapses) cvAll now eager true w sp
  rw [hc, ackCollapse_none hcc]
  refine ⟨?_, ?_⟩
  · rw [held_coh, ← hx, held_setL3, hheld]
  · show c.l2 = []
    rw [hc2, ← hx]
    exact hhome.l2
end

/-- A line that has been written, and that goes on from its L2 home at once where the store has .nol2 (R296). -/
def sentOn (s : State) (line : Nat) (passes : Bool) : State := if passes then s.l3WriteBack line else s

/-- Where no cache holds the line, its home changes no contents before it writes the masked bytes, whatever the hint and the class. -/
theorem place_calm {s : State} {line : Nat} (hcalm : Calm s line) (hdevice : s.isSystem (line * 128) = false) (key : Nat) (mask data : Line)
    (st : Storer) :
    ∃ (x : State) (p passes : Bool), beyondHomes x = beyondHomes s ∧ held x = held s ∧ (passes = true → st.hint = 4) ∧
      (s.place line key mask data st).2 =
        sentOn ((x.storeLine line key (mergeLine mask (s.lineAt line key) data) p).samePoison line p) line passes := by
  unfold State.place
  extract_lets full read s1 old new s2 sf cv sp who home passes atHome sent performed s3 poison l1 coh s4 s5
  have hread : held read = held s ∧ beyondHomes read = beyondHomes s := by
    simp only [read]
    split <;> simp
  have hold : old = s.lineAt line key :=
    lineAt_of_held ((held_storerL1 read line st).trans hread.1)
      (mapsMemory_of_beyond ((beyond_storerL1 read line st).trans hread.2)) line key
  have h2 : Calm s2 line := by
    have hcread : Calm read line := by
      simp only [read]
      split
      · exact hcalm
      · exact (sameContents_hbmRead s line).calm hcalm
    exact (hcread.storerL1_any st).clearSf
  have hheld2 : held s2 = held s := by simp [s2, s1, hread.1]
  have hbeyond2 : beyondHomes s2 = beyondHomes s := by simp [s2, s1, hread.2]
  have hperformed : held performed = held s2 ∧ beyondHomes performed = beyondHomes s2 := by
    unfold performed
    generalize home = o
    cases o with
    | none =>
      obtain ⟨hhome, hheld, hbeyond⟩ := h2.toL3Home st.hint ((s2.l3 line).hw || st.rmw)
      have hsent : sent = atHome := by
        unfold sent
        rw [hhome.present, List.foldl_nil]
      rw [hsent]
      exact ⟨(hhome.held_settleCollapse cv new st.eager who sp).trans hheld, ((beyond_collapse ..).trans (beyond_settle ..)).trans hbeyond⟩
    | some d =>
      obtain ⟨htaken, hl2⟩ := h2.takeOwner_any d new st.hint st.eager who sp
      have howner : ¬(s2.l3 line).own = some d := by simp [h2.entry.own]
      cases passes <;> simp [if_neg howner, roomL2_none hl2, filterDie_none hl2, htaken]
  have hdevice3 : performed.isSystem (line * 128) = false := by
    rw [(backed_of_beyond (hperformed.2.trans hbeyond2) _).2, hdevice]
  have h3 : s3 = performed := by
    simp only [s3]
    split
    · rfl
    · rw [hostHold_device hdevice3, hostDirty_device hdevice3]
  have hbeyond4 : beyondHomes s4 = beyondHomes s3 := beyond_coh s3 _
  refine ⟨s4, poison, passes, ?_, ?_, fun hpasses => ?_, ?_⟩
  · rw [hbeyond4, h3, hperformed.2, hbeyond2]
  · calc held s4 = held s3 := rfl
      _ = held performed := by rw [h3]
      _ = held s := hperformed.1.trans hheld2
  · unfold passes at hpasses
    simp only [Bool.and_eq_true, beq_iff_eq] at hpasses
    exact hpasses.1
  · rw [← hold]
    rfl

-- The write-back to HBM.

theorem lineOf_congr {f g : Nat → Byte} (h : ∀ i < 128, f i = g i) : lineOf f = lineOf g := by
  unfold lineOf
  rw [List.map_congr_left fun i hi => by rw [h i (List.mem_range.mp hi)]]

/-- A line's bytes, written to memory, are read back as the line. -/
theorem lineOf_cellsWrite (m : List Host.Cell) (a : Nat) (f : Nat → Byte) :
    (lineOf fun i => cellRead (cellsWrite m a (lineBytes (lineOf f))) (a + i)) = lineOf f := by
  refine lineOf_congr fun i hi => ?_
  have hlen : i < (lineBytes (lineOf f)).length := by simpa [lineBytes] using hi
  rw [cellRead_writes _ _ _ _ hlen]
  simp only [lineBytes, List.getElem_map, List.getElem_range]
  exact byteOf_lineOf f hi

/-- A line of device memory that the chip does not hold reads as its slot. -/
theorem lineAt_slot {s : State} {line : Nat} (hb : s.backed (line * 128) = true) (hd : s.isSystem (line * 128) = false)
    (hchip : Sparse.get? s.mem.chip line = none) (key : Nat) : s.lineAt line key = s.hbmLine line key := by
  unfold State.backed at hb
  unfold State.isSystem at hd
  unfold State.lineAt
  rw [hchip]
  split <;> simp_all

section
variable {s : State} {line key : Nat} {f : Nat → Byte} {p : Bool} (hb : s.backed (line * 128) = true) (hd : s.isSystem (line * 128) = false)
  (hchip : Sparse.get? s.mem.chip line = some ⟨key, lineOf f, p⟩)
include hb hd hchip

/-- A line in its slot reads under its own key as it stood on the chip (R32, R35, R44). -/
theorem lineAt_writeBack (hkey : (s.keyAt key).isSome = true) : (s.writeBack line).lineAt line key = lineOf f := by
  obtain ⟨m, hm⟩ := Option.isSome_iff_exists.mp hkey
  have hwritten : s.writeBack line = { s with mem := (s.writeBack line).mem } ∧
      (s.writeBack line).mem.chip = Sparse.erase s.mem.chip line ∧ (s.writeBack line).mem.keys = s.mem.keys ∧
      (s.writeBack line).mem.hbm = cellsWrite s.mem.hbm (s.slotOf line * 128) (lineBytes (lineOf f)) ∧
      (s.writeBack line).mem.slotKey = Sparse.set s.mem.slotKey (s.slotOf line) (m, line) := by
    unfold State.writeBack
    rw [hchip]
    dsimp only
    rw [hm]
    exact ⟨rfl, rfl, rfl, rfl, rfl⟩
  obtain ⟨heq, herased, hkeys, hhbm, hslot⟩ := hwritten
  generalize hu : s.writeBack line = u at heq herased hkeys hhbm hslot ⊢
  have hwindow : u.window (line * 128) = s.window (line * 128) := by rw [heq]; rfl
  have hslotOf : u.slotOf line = s.slotOf line := by rw [heq]; rfl
  have hread : u.keyAt key = some m := by rw [State.keyAt, hkeys]; exact hm
  rw [lineAt_slot (by rwa [State.backed, hwindow]) (by rwa [State.isSystem, hwindow]) (by rw [herased]; exact get?_erase_same _ _)]
  rw [State.hbmLine, hslotOf, hhbm, hslot, get?_set_same, hread]
  dsimp only
  rw [lineOf_cellsWrite]
  exact if_pos ⟨rfl, rfl⟩

theorem lineAt_toHbm : (s.toHbm line).lineAt line key = lineOf f := by
  unfold State.toHbm
  rw [hchip]
  dsimp only
  split
  · rename_i hgoes
    rw [State.hbmStore, if_pos (by rw [hchip]; rfl)]
    exact lineAt_writeBack (s := s.hbmRequest (pcOfSlot (s.slotOf line))) hb hd hchip (Bool.and_eq_true_iff.mp hgoes).2
  · exact lineAt_chip hb hd hchip

/-- A line that its L2 home writes back reads as it stood (R33). -/
theorem lineAt_l3WriteBack : (s.l3WriteBack line).lineAt line key = lineOf f := by
  have hmiss : (s.l3Miss line 0 false).2 = { s with coh := (s.l3Miss line 0 false).2.coh } := by
    unfold State.l3Miss
    dsimp only
    split_ifs <;> rfl
  unfold State.l3WriteBack
  dsimp only
  generalize hmiss' : (s.l3Miss line 0 false).2 = u at hmiss
  split
  · exact lineAt_chip hb hd hchip
  split
  · rw [hmiss]
    exact lineAt_chip hb hd hchip
  · rw [hd, if_neg Bool.false_ne_true, hmiss]
    exact lineAt_toHbm hb hd hchip
end

theorem stash_l3WriteBack (s : State) (line : Nat) : (s.l3WriteBack line).stash = s.stash := by
  have hstore (u : State) : (u.hbmStore line).stash = u.stash := by
    unfold State.hbmStore State.writeBack
    split
    · split <;> rfl
    · rfl
  have hmiss : (s.l3Miss line 0 false).2.stash = s.stash := stash_of_held (held_l3Miss s line 0 false)
  unfold State.l3WriteBack State.toHbm
  dsimp only
  split_ifs
  · rfl
  · exact hmiss
  · exact hmiss
  · split
    · exact hmiss
    · split_ifs
      · exact (hstore _).trans hmiss
      · exact hmiss

theorem mergeLine_full (old new : Line) : mergeLine (BitVec.allOnes 1024) old new = new :=
  BitVec.eq_of_getLsbD_eq fun i hi => by rw [getLsbD_mergeLine, BitVec.getLsbD_allOnes, decide_eq_true hi, if_pos rfl]

-- The store of a whole line.

/-- A whole line has gone home from a mapped line: the line holds it, and the mapped lines and the bytes of the stashes stand as they did. -/
structure WentHome (s u : State) (line key : Nat) (data : Line) (hint : BitVec 3) : Prop where
  beyond : beyondHomes u = beyondHomes s
  holds : u.lineAt line key = data
  lines : u.stash.lines = s.stash.lines
  cells : u.stash.cells = s.stash.cells
  others : hint ≠ 4 → ∀ o k, o ≠ line → u.lineAt o k = s.lineAt o k

/-- The line stands on the chip as written, whatever its mapped copies' poison. -/
theorem written {x : State} {line : Nat} (hb : x.backed (line * 128) = true) (hd : x.isSystem (line * 128) = false) (key : Nat) (d : Line)
    (p : Bool) : let y := (x.storeLine line key d p).samePoison line p
    y.backed (line * 128) = true ∧ y.isSystem (line * 128) = false ∧ Sparse.get? y.mem.chip line = some ⟨key, d, p⟩ ∧
      y.stash.lines = x.stash.lines ∧ y.stash.cells = x.stash.cells ∧ ∀ o k, o ≠ line → y.lineAt o k = x.lineAt o k := by
  have hother {o : Nat} (ho : o ≠ line) (k : Nat) := lineAt_storeLine_other hb hd key d p ho k
  have hpoison := samePoison_eq (x.storeLine line key d p) line p
  generalize ((x.storeLine line key d p).samePoison line p).stash.poison = q at hpoison
  dsimp only
  rw [hpoison]
  rw [storeLine_device hb hd] at hother ⊢
  exact ⟨hb, hd, get?_set_same _ _ _, rfl, rfl, fun o k ho => hother ho k⟩

theorem lineAt_sentOn {s : State} {line key : Nat} {f : Nat → Byte} {p : Bool} (hb : s.backed (line * 128) = true)
    (hd : s.isSystem (line * 128) = false) (hchip : Sparse.get? s.mem.chip line = some ⟨key, lineOf f, p⟩) (passes : Bool) :
    (sentOn s line passes).lineAt line key = lineOf f := by
  cases passes with
  | false => exact lineAt_chip hb hd hchip
  | true => exact lineAt_l3WriteBack hb hd hchip

theorem stash_sentOn (s : State) (line : Nat) (passes : Bool) : (sentOn s line passes).stash = s.stash := by
  cases passes with
  | false => rfl
  | true => exact stash_l3WriteBack s line

theorem place_line {s : State} {line : Nat} (hcalm : Calm s line) (hb : s.backed (line * 128) = true)
    (hd : s.isSystem (line * 128) = false) (key : Nat) (f : Nat → Byte) (st : Storer) :
    WentHome s (s.place line key (BitVec.allOnes 1024) (lineOf f) st).2 line key (lineOf f) st.hint := by
  obtain ⟨x, p, passes, hx, hheld, hhint, hplace⟩ := place_calm hcalm hd key (BitVec.allOnes 1024) (lineOf f) st
  obtain ⟨hbx, hdx⟩ := backed_of_beyond hx (line * 128)
  obtain ⟨hby, hdy, hchip, hlines, hcells, hothers⟩ := written (hbx.trans hb) (hdx.trans hd) key (lineOf f) p
  have hstash := stash_of_held hheld
  rw [mergeLine_full] at hplace
  refine ⟨beyond_place .., ?_, ?_, ?_, fun h4 o k ho => ?_⟩
  · rw [hplace, lineAt_sentOn hby hdy hchip]
  · rw [hplace, stash_sentOn, hlines, hstash]
  · rw [hplace, stash_sentOn, hcells, hstash]
  · have hstays : passes = false := Bool.eq_false_iff.mpr fun hp => h4 (hhint hp)
    rw [hplace, hstays, ← lineAt_of_held hheld (mapsMemory_of_beyond hx), ← hothers o k ho]
    rfl

-- The modified line of a tile.

/-- The modified line that a flush finds, alone in the stashes, with nothing in the caches and its home in device memory. -/
structure LoneDirty (s : State) (tile : Nat) (l : MapLine) : Prop where
  lines : s.stash.lines = [l]
  tile : l.tile = tile
  dirty : l.dirty = true
  start : l.off % 128 = 0
  inside : l.off < 2 ^ 20
  caches : s.coh = State.reset.coh
  backed : s.backed (l.pa * 128) = true
  device : s.isSystem (l.pa * 128) = false
  chip : Sparse.get? s.mem.chip l.pa = none

/-- A mapped line after its data has gone home (R203). -/
def cleaned (l : MapLine) : MapLine := { l with dirty := false, by_ := [], held := [] }

/-- The stashes once the line counts as clean, before its home has it. -/
def countedClean (s : State) (l : MapLine) : State := { s with stash := { s.stash with lines := [cleaned l] } }

/-- The storer of a mapped line's data (R203, R232). -/
def lineStorer (s : State) (tile : Nat) (l : MapLine) (asker : List Agent) (hint : BitVec 3) : Storer :=
  { agent := .lodge tile, die := some (dieOfTile tile), core := none, run := none, key := Key.zero, specid := none,
    eager := l.cls.eager, probes := false, restore := false, atHome := false, via := some (tile, l.off),
    back := some (s.mapPoison l), hint := hint, charge := l.by_ ++ asker.filter fun a => !l.by_.contains a }

section
variable {s : State} {tile : Nat} {l : MapLine} (h : LoneDirty s tile l)
include h

theorem LoneDirty.mapData : s.mapData l = s.stashData tile l.off := by
  have hstart := h.start
  have haddr : 2 ^ 20 * l.tile + l.off = stashAddr tile (l.off / 128 * 128) := by
    rw [stashAddr, show l.off / 128 * 128 = l.off by omega, Nat.mod_eq_of_lt h.inside, h.tile]
  rw [State.mapData, haddr]
  rfl

theorem LoneDirty.mapLine : s.mapLine? tile l.off = some l := by
  have hstart := h.start
  have hoff : l.off = l.off / 128 * 128 := by omega
  rw [State.mapLine?, h.lines, List.find?_cons_of_pos (by simp [h.tile, ← hoff])]

theorem LoneDirty.calm : Calm (countedClean s l) l.pa := by
  have hcaches : (countedClean s l).coh = State.reset.coh := h.caches
  refine ⟨fun x hx => ?_, by rw [hcaches]; rfl, by rw [hcaches]; rfl, by rw [hcaches]; rfl, by rw [hcaches]; rfl,
    by rw [hcaches]; exact nofun⟩
  rw [List.mem_singleton.mp hx]
  rfl

theorem LoneDirty.rekey : (countedClean s l).rekey l.pa l.key = countedClean s l := by
  have hchip : Sparse.get? (countedClean s l).mem.chip l.pa = none := h.chip
  unfold State.rekey
  rw [hchip, h.calm.l1, h.calm.l2, h.calm.replicas]
  rfl

theorem LoneDirty.cleanMapLine_eq (asker : List Agent) (hint : BitVec 3) : s.cleanMapLine tile l.off asker hint =
    ((countedClean s l).place l.pa l.key (BitVec.allOnes 1024) (s.mapData l) (lineStorer s tile l asker hint)).2 := by
  have hmapped : (s.stash.lines.map fun x => if x.tile == tile && x.off == l.off then cleaned x else x) = [cleaned l] := by
    rw [h.lines]
    simp [h.tile]
  have hperform : State.performWith abortRec (countedClean s l) l.pa l.key (BitVec.allOnes 1024) (s.mapData l)
      (lineStorer s tile l asker hint) =
      (countedClean s l).place l.pa l.key (BitVec.allOnes 1024) (s.mapData l) (lineStorer s tile l asker hint) := by
    unfold State.performWith
    rw [h.calm.recallStash, h.rekey]
    rfl
  rw [← hperform, countedClean, ← hmapped]
  unfold State.cleanMapLine
  rw [h.mapLine]
  dsimp only
  rw [h.dirty]
  rfl

/-- The line goes home from where it stays clean (R203). -/
theorem LoneDirty.wentHome (asker : List Agent) (hint : BitVec 3) :
    WentHome (countedClean s l) (s.cleanMapLine tile l.off asker hint) l.pa l.key (s.stashData tile l.off) hint := by
  rw [h.cleanMapLine_eq, ← h.mapData]
  exact place_line h.calm h.backed h.device l.key (fun i => cellRead s.stash.cells (2 ^ 20 * l.tile + l.off + i)) _
end

end Sys2Proof.Proofs
end

