-- ==== Sys2Proof/Proofs/StashMappings.lean ====
section
/-! O48: stashmap, stashunmap and stashflush (R200, R406 to R408). -/
namespace Sys2Proof.Proofs
open Sys2Proof Sys2Proof.Machine Sys2Proof.Laws

section
variable {s : State} {t : Thread} {h : Hdr}

/-- An instruction on mapped lines acts once its thread's stores are performed (R407, R409). -/
theorem mapOp_runs {len : Nat} {names : List Nat} (f : Thread → State) (hissues : s.Issues t h names) (hprov : s.provisional t = false)
    (hstores : s.storesOf s.focus = []) (hrmw : ∀ o ∈ t.outs, o.isMem = true → o.isRmw = false) :
    mapOp s h len names f = .next (f t) := by
  refine (memOp_runs s h len names _ _ t hissues rfl).trans (congrArg Host.Outcome.next ?_)
  rw [hprov, storesDone_tile hissues.1 hstores hrmw]
  rfl

/-- What stashmap does within its limits (R406). -/
theorem stashmap_maps {upd : Bool} {a b : GReg} {c : Src32} (hissues : s.Issues t h ([numG a, numG b] ++ numSrc32 c))
    (hprov : s.provisional t = false) (hva : (t.getG a).toNat % 4096 = 0) (hoff : (t.getG b).toNat % 4096 = 0)
    (hok : s.mapRefused (tileOf s.focus) t.mapRun (t.getG a).toNat (t.getG b).toNat (t.src32 .none c).toNat = false) :
    ∃ (u : State) (m : Mapping), exec (.stashmap h upd a b c) s = .next u ∧ u.stash.maps = s.stash.maps ++ [m] ∧
      m.tile = tileOf s.focus ∧ m.run = t.mapRun ∧ m.vbase = (t.getG a).toNat % 2 ^ 56 ∧ m.pages = (t.src32 .none c).toNat ∧
      m.soff = (t.getG b).toNat ∧ m.upd = upd ∧ (∀ x ∈ s.stash.maps, x.tile = tileOf s.focus → x.idx ≠ m.idx) ∧ s.SameBytes u ∧
      s.OtherThreads u s.focus ∧ u.thread? s.focus = some { t.advance c.len with park := .run, lastIssue := s.cycle } := by
  have hfew : (s.stash.maps.filter fun m => m.tile == tileOf s.focus).length < 64 := by
    rw [Bool.eq_false_iff, Ne, mapRefused_iff] at hok
    push Not at hok
    omega
  have hexec := stashmap_exec (upd := upd) hissues hprov
  rw [if_neg (by simp [hva, hoff]), hok, if_neg Bool.false_ne_true] at hexec
  exact ⟨_, _, hexec, rfl, rfl, rfl, rfl, rfl, rfl, rfl, newMapping_fresh hfew _ _ _ _ _, sameBytes_of_eq (fun _ _ => rfl) rfl rfl,
    fun n hn => thread?_finish_other _ _ _ _ _ hn, thread?_finish ..⟩

variable {addr : Addr} (hprov : s.provisional t = false) (hstores : s.storesOf s.focus = [])
  (hrmw : ∀ o ∈ t.outs, o.isMem = true → o.isRmw = false)
include hprov hstores hrmw

theorem stashunmap_exec (hissues : s.Issues t h [numG addr.base]) : exec (.stashunmap h addr) s = .next
    (match s.stash.maps.find? fun m => m.tile == tileOf s.focus && m.run == t.mapRun && m.vbase == t.addr addr with
      | none => s.trap s.focus (.plain .illop)
      | some m => (s.unmap m [.thread s.focus] h.ch).finish s.focus addr.len t) :=
  (mapOp_runs _ hissues hprov hstores hrmw).trans rfl

/-- The modified lines that stashflush names (R408). -/
def flushed (s : State) (t : Thread) (addr : Addr) (b : GReg) : List MapLine :=
  s.stash.lines.filter fun (l : MapLine) => l.tile == tileOf s.focus && l.dirty &&
    s.stash.maps.any fun m => m.tile == tileOf s.focus && m.run == t.mapRun && decide (m.soff ≤ l.off) &&
      decide (l.off < m.soff + 4096 * m.pages) && (t.getG b).toNat != 0 &&
      rangesMeet (m.vbase + (l.off - m.soff)) 128 (t.addr addr) (t.getG b).toNat

theorem stashflush_exec {b : GReg} (hissues : s.Issues t h [numG addr.base, numG b]) : exec (.stashflush h addr b) s = .next
    (((flushed s t addr b).foldl (fun (u : State) (l : MapLine) => u.cleanMapLine (tileOf s.focus) l.off [.thread s.focus] h.ch) s).finish
      s.focus addr.len t) := by
  exact mapOp_runs _ hissues hprov hstores hrmw

/-- A flush of a tile with no modified line ends at once. -/
theorem stashflush_clean {b : GReg} (hissues : s.Issues t h [numG addr.base, numG b]) (hclean : CleanLines s (tileOf s.focus)) :
    s.Becomes (.stashflush h addr b) { t.advance addr.len with park := .run, lastIssue := s.cycle } := by
  have hnone : flushed s t addr b = [] := List.filter_eq_nil_iff.mpr fun l hl => by
    by_cases htile : l.tile = tileOf s.focus
    · simp [hclean l hl htile]
    · simp [htile]
  refine ends_of_finish s _ addr.len t ((stashflush_exec hprov hstores hrmw hissues).trans ?_)
  rw [hnone]
  rfl

/-- A modified line in the flushed range goes home (R203, R408). -/
theorem stashflush_line {b : GReg} (hissues : s.Issues t h [numG addr.base, numG b]) {m : Mapping} {l : MapLine}
    (hlone : LoneDirty s (tileOf s.focus) l) (hmaps : s.stash.maps = [m]) (htile : m.tile = tileOf s.focus) (hrun : m.run = t.mapRun)
    (hlow : m.soff ≤ l.off) (hhigh : l.off < m.soff + 4096 * m.pages) (hfrom : t.addr addr ≤ m.vbase + (l.off - m.soff))
    (hto : m.vbase + (l.off - m.soff) < t.addr addr + (t.getG b).toNat) :
    ∃ u : State, exec (.stashflush h addr b) s = .next u ∧
      u.thread? s.focus = some { t.advance addr.len with park := .run, lastIssue := s.cycle } ∧
      u.lineAt l.pa l.key = s.stashData (tileOf s.focus) l.off ∧ u.stash.lines = [cleaned l] ∧
      (h.ch ≠ 4 → ∀ o k, o ≠ l.pa → u.lineAt o k = s.lineAt o k) ∧ u.stash.cells = s.stash.cells := by
  have hone : flushed s t addr b = [l] := by
    have hsize : (t.getG b).toNat ≠ 0 := by omega
    have hmeets : rangesMeet (m.vbase + (l.off - m.soff)) 128 (t.addr addr) (t.getG b).toNat = true := rangesMeet_iff.mpr ⟨hto, by omega⟩
    rw [flushed, hlone.lines, hmaps]
    simp [hlone.tile, hlone.dirty, htile, hrun, hlow, hhigh, hsize, hmeets]
  have hexec := stashflush_exec hprov hstores hrmw hissues
  rw [hone, List.foldl_cons, List.foldl_nil] at hexec
  have hhome := hlone.wentHome [.thread s.focus] h.ch
  have hcycle : (s.cleanMapLine (tileOf s.focus) l.off [.thread s.focus] h.ch).cycle = s.cycle :=
    congrArg State.cycle (a₁ := beyondHomes _) (a₂ := beyondHomes s) (beyond_cleanMapLine s (tileOf s.focus) l.off [.thread s.focus] h.ch)
  refine ⟨_, hexec, ?_, hhome.holds, hhome.lines, fun hch o k ho => (hhome.others hch o k ho).trans rfl, hhome.cells⟩
  rw [thread?_finish, hcycle]
end

/-- Settles O48: stashmap by the checks of R406 and the first free index; stashunmap and stashflush by what becomes of the tile's lines, the
modified one by the store of a whole line at a home that no cache holds. -/
theorem stashMappings : Obligations.StashMappings := by
  refine ⟨fun s t h upd a b c hissues hprov => ?map, fun s t h addr b hprov hstores hrmw => ?lines⟩
  case map =>
    intro tile va off n run i meets bad
    have hn : (t.src32 .none c).toNat = n := src32_none_toNat t c
    have hrefused : s.mapRefused tile run va off n = true ↔ bad := mapRefused_iff
    have hexec := stashmap_exec (upd := upd) hissues hprov
    rw [hn] at hexec
    refine ⟨fun hmis => hexec.trans (congrArg Host.Outcome.next (if_pos hmis)),
      fun hva hoff => ⟨fun hbad => hexec.trans ?_, fun hgood => ?_⟩⟩
    · rw [if_neg (by simp [va, off] at hva hoff; simp [hva, hoff])]
      exact congrArg Host.Outcome.next (if_pos (hrefused.mpr hbad))
    · have hmaps := stashmap_maps (upd := upd) hissues hprov hva hoff
      rw [hn] at hmaps
      exact hmaps (Bool.eq_false_iff.mpr fun hr => hgood (hrefused.mp hr))
  case lines =>
    intro tile run ended
    refine ⟨fun hissues => ⟨fun m hfound hlines => ?_, fun hnone => ?_⟩, fun hissues => ⟨fun hclean => ?_, fun m l hmaps htile hrun hlines
      hltile hdirty hstart hinside hlow hhigh hfrom hto hcaches hbacked hdevice hchip => ?_⟩⟩
    · have hm := List.find?_some hfound
      simp only [Bool.and_eq_true, beq_iff_eq] at hm
      obtain ⟨⟨hmtile, -⟩, -⟩ := hm
      have hexec := stashunmap_exec hprov hstores hrmw hissues
      rw [show s.stash.maps.find? (fun m => m.tile == tileOf s.focus && m.run == t.mapRun && m.vbase == t.addr addr) = some m from hfound]
        at hexec
      have hclean : CleanLines s m.tile := fun l hl htile => (hlines l hl).2 (htile.trans hmtile)
      obtain ⟨hbytes, hcycle, hleft, hgone⟩ := unmap_clean hclean (fun l hl => (hlines l hl).1) [.thread s.focus] h.ch
      rw [hmtile] at hleft hgone
      exact ⟨_, hexec, by rw [thread?_finish, hcycle], hleft, hgone, hbytes⟩
    · have hexec := stashunmap_exec hprov hstores hrmw hissues
      have hno : (s.stash.maps.find? fun m => m.tile == tileOf s.focus && m.run == t.mapRun && m.vbase == t.addr addr) = none :=
        List.find?_eq_none.mpr fun m hm hthis => by
          simp only [Bool.and_eq_true, beq_iff_eq, and_assoc] at hthis
          exact hnone m hm hthis
      rw [hno] at hexec
      exact hexec
    · exact stashflush_clean hprov hstores hrmw hissues hclean
    · exact stashflush_line hprov hstores hrmw hissues
        ⟨hlines, hltile, hdirty, hstart, hinside, hcaches, hbacked, hdevice, hchip⟩ hmaps htile hrun hlow hhigh hfrom hto

end Sys2Proof.Proofs
end

