-- ==== Sys2Proof/Proofs/StreamPops.lean ====
section
/-! Vector instructions that name a bound register (R190 to R193, R343), and the pop of a read stream whose elements lie in stashes. -/
namespace Sys2Proof.Proofs
open Sys2Proof Sys2Proof.Machine Sys2Proof.Laws

-- Bound registers.

section
variable {s : State} {t : Thread} {h : Hdr} {names : List Nat} {srcs : List WReg} {dst : Option WReg} {f : BitVec 64 → Thread → Thread}

/-- Every vector instruction that names a bound register in its own direction runs by R343. -/
theorem vecOp_streams (hissues : s.Issues t h names) (hok : t.streamIll srcs dst = false)
    (hbound : ((srcs.any fun r => (t.stream? r).isSome) || (dst.any fun r => (t.stream? r).isSome)) = true) :
    vecOp s h 8 names (fun _ => false) srcs dst f = .next (streamBody s s.focus 8 t (t.laneMask h.mg) srcs dst (f (t.laneMask h.mg))) :=
  (issue_runs s _ _ t h names 8 false (by rw [hok]; rfl) hissues nofun).trans (congrArg Host.Outcome.next (if_pos hbound))

/-- A register bound in the other direction makes the instruction ill-formed (R193). -/
theorem vecOp_streamIll (ht : s.thread? s.focus = some t) (hill : t.streamIll srcs dst = true) :
    vecOp s h 8 names (fun _ => false) srcs dst f = .next (s.trap s.focus (.plain .illop)) :=
  issue_ill _ _ ht hill
end

section
variable {t : Thread} {a b d : WReg} {x : Stream}

theorem streamIll_source (ha : t.stream? a = some x) (hdir : x.dir = true) : t.streamIll [a, b] (some d) = true := by
  simp [Thread.streamIll, ha, hdir]

theorem streamIll_dest (hd : t.stream? d = some x) (hdir : x.dir = false) : t.streamIll [a, b] (some d) = true := by
  simp [Thread.streamIll, hd, hdir]

theorem not_streamIll_pop (ha : t.stream? a = some x) (hdir : x.dir = false) (hu : t.Unbound [b, d]) :
    t.streamIll [a, b] (some d) = false := by
  simp [Thread.streamIll, ha, hdir, hu b (by simp), hu d (by simp)]

theorem not_streamIll_push (hd : t.stream? d = some x) (hdir : x.dir = true) (hu : t.Unbound [a, b]) :
    t.streamIll [a, b] (some d) = false := by
  simp [Thread.streamIll, hd, hdir, hu a (by simp), hu b (by simp)]

theorem ne_of_unbound (ha : t.stream? a = some x) (hb : t.stream? b = none) : b ≠ a := by
  rintro rfl
  rw [ha] at hb
  cases hb

/-- The streams that a vadd pops: that of its first source, where no other register is bound. -/
theorem pops_first (ha : t.stream? a = some x) (hb : t.stream? b = none) :
    (distinctRegs [a, b]).filterMap (fun r => (t.stream? r).map fun x => (r, x)) = [(a, x)] := by
  simp [distinctRegs, ne_of_unbound ha hb, ha, hb]

theorem pops_none (hu : t.Unbound [a, b]) : (distinctRegs [a, b]).filterMap (fun r => (t.stream? r).map fun x => (r, x)) = [] := by
  rw [List.filterMap_eq_nil_iff]
  intro r hr
  have hmem : r ∈ [a, b] := by
    simp only [distinctRegs, List.mem_cons, List.mem_filter] at hr ⊢
    tauto
  rw [hu r hmem]
  rfl
end

/-- The end of a stream traps (R192, R193). -/
theorem stopAccess_streamx (s : State) (th : Nat) : s.stopAccess th (.trap (.plain .streamx)) = s.trap th (.plain .streamx) := rfl

-- Located elements.

theorem locateAll_length {s : State} {w : Who} {acc : Acc} {ps : List (Nat × Nat)} {ls : List Located}
    (h : s.locateAll w acc ps = .ok ls) : ls.length = ps.length := by
  induction ps generalizing ls with
  | nil =>
    cases h
    rfl
  | cons p r ih =>
    obtain ⟨va, n⟩ := p
    rw [State.locateAll] at h
    split at h
    · cases h
    split at h
    · cases h
    · rename_i hrest
      cases h
      rw [List.length_cons, List.length_cons, ih hrest]

/-- What is reached without a walk changes nothing when it is used. -/
theorem useAll_direct {s : State} (w : Who) (acc : Acc) {ls : List Located} (h : ∀ l ∈ ls, l.walk = none) : s.useAll w acc ls = s := by
  unfold State.useAll
  induction ls with
  | nil => rfl
  | cons l r ih =>
    have hl : s.useWalk w acc.writes l = s := by rw [State.useWalk, h l List.mem_cons_self]
    rw [List.foldl_cons, hl]
    exact ih fun x hx => h x (.tail l hx)

/-- Elements in stashes that hold no poison, reached without a walk. -/
structure InStash (s : State) (ls : List Located) : Prop where
  placed : ∀ l ∈ ls, l.walk = none ∧ ∃ tile, l.part.place = .stash tile
  clean : s.stash.poison = []

theorem InStash.tail {s : State} {l : Located} {ls : List Located} (h : InStash s (l :: ls)) : InStash s ls :=
  ⟨fun x hx => h.placed x (.tail l hx), h.clean⟩

theorem InStash.poisonTrap {s : State} {ls : List Located} (h : InStash s ls) (w : Who) (acc : Acc) : s.poisonTrap w acc ls = none := by
  have hnone : ls.find? (fun l => s.partPoisoned w l.part) = none := List.find?_eq_none.mpr fun l hl => by
    obtain ⟨-, tile, hplace⟩ := h.placed l hl
    rw [State.partPoisoned, hplace, h.clean]
    exact Bool.false_ne_true
  rw [State.poisonTrap, hnone]
  rfl

theorem InStash.allReady {s : State} {ls : List Located} (h : InStash s ls) (run : Option Nat) (write : Bool) :
    s.allReady run write (ls.map fun l => l.part) = (true, s) := by
  induction ls with
  | nil => rfl
  | cons l r ih =>
    obtain ⟨-, tile, hplace⟩ := h.placed l List.mem_cons_self
    have hready : s.partReady run write l.part = (true, s) := by rw [State.partReady, hplace]
    rw [List.map_cons, State.allReady, hready]
    exact ih h.tail

-- Popped elements.

/-- The bytes of an element in a stash. -/
def popped (s : State) (bytes : Nat) (p : Part) : Nat :=
  match p.place with | .stash tile => lineNat (s.stashData tile p.pa) (p.pa % 128) bytes | _ => 0

theorem popped_lt (s : State) (bytes : Nat) (p : Part) : popped s bytes p < 2 ^ (8 * bytes) := by
  unfold popped
  split
  · exact Nat.mod_lt _ (Nat.two_pow_pos _)
  · exact Nat.two_pow_pos _

/-- The elements of a register into which located ones are popped from index i on. -/
theorem popElems_stash {s : State} {th : Nat} (t : Thread) (x : Stream) (hstores : s.storesOf th = []) (hcarries : s.coh.carries = [])
    {ls : List Located} (h : InStash s ls) (i : Nat) (v : Line) :
    ∃ r, s.popElems (t.who th) th t x ls i v = (r, s) ∧ ∀ k < 1024 / (8 * x.bytes), elem (8 * x.bytes) r k =
      if k < i then elem (8 * x.bytes) v k else
        match (ls[k - i]?).map fun l => l.part with | some p => popped s x.bytes p | none => elem (8 * x.bytes) v k := by
  induction ls generalizing i v with
  | nil => exact ⟨v, rfl, fun k _ => by simp⟩
  | cons l rest ih =>
    obtain ⟨-, tile, hplace⟩ := h.placed l List.mem_cons_self
    have hread : s.readPart (t.who th) t.key (s.specidOf th t) l.part .full .none x.ch true = (s.stashData tile l.part.pa, s) := by
      rw [State.readPart, hplace]
    have hcarry : s.carryIn (t.who th) l.part none = s := by simp [State.carryIn, hcarries]
    have hvalue : popped s x.bytes l.part = lineNat (s.stashData tile l.part.pa) (l.part.pa % 128) x.bytes := by rw [popped, hplace]
    obtain ⟨r, hr, helems⟩ := ih h.tail (i + 1) (putElem (8 * x.bytes) v i (popped s x.bytes l.part))
    refine ⟨r, ?_, fun k hk => ?_⟩
    · rw [← hr, hvalue]
      simp only [State.popElems, hread, State.forward, hstores, List.foldl_nil, hcarry]
    · rw [helems k hk, elem_putElem _ _ hk, Nat.mod_eq_of_lt (popped_lt s x.bytes l.part)]
      obtain hlt | rfl | hgt := Nat.lt_trichotomy k i
      · rw [if_pos (by omega), if_neg (by omega), if_pos hlt]
      · simp
      · obtain ⟨n, rfl⟩ : ∃ n, k = i + 1 + n := ⟨k - (i + 1), by omega⟩
        have hnext : i + 1 + n - i = n + 1 := by omega
        rw [if_neg (by omega), if_neg (by omega), if_neg (by omega), Nat.add_sub_cancel_left, hnext, List.getElem?_cons_succ]

/-- A narrow element shares its mask bit with its neighbour; a wider one has its own (R186). -/
theorem maskBitOf_bytes {esz : Nat} (hesz : esz ≤ 3) (k : Nat) : maskBitOf (8 * 2 ^ esz) k = if esz = 0 then k / 2 else k := by
  obtain rfl | rfl | rfl | rfl : esz = 0 ∨ esz = 1 ∨ esz = 2 ∨ esz = 3 := by omega
  · rw [maskBitOf, if_pos (by decide), if_pos rfl]
    omega
  all_goals rfl

/-- The bits that govern an element delivered by a final pop (R192). -/
theorem getLsbD_finalMask {x : Stream} (hesz : x.esz ≤ 3) {n : Nat} (hn : n ≤ 1024 / (8 * x.bytes)) {j : Nat} (hj : j < 64) :
    (finalMask (8 * x.bytes) n).getLsbD j = true ↔ ∃ k < n, maskBitOf (8 * x.bytes) k = j := by
  have hbit (k : Nat) : maskBitOf (8 * x.bytes) k = if x.esz = 0 then k / 2 else k := maskBitOf_bytes hesz k
  obtain rfl | hpos := Nat.eq_zero_or_pos n
  · simp [finalMask, firstMask]
  have hcount : elemCount (8 * x.bytes) = 1024 / (8 * x.bytes) := if_neg (by simp [Stream.bytes])
  have hmask : finalMask (8 * x.bytes) n = BitVec.ofNat 64 (2 ^ (maskBitOf (8 * x.bytes) (n - 1) + 1) - 1) := by
    have hmin : (if (n : Int) ≤ 0 then 0 else Nat.min (n : Int).toNat (elemCount (8 * x.bytes))) = n := by
      rw [if_neg (by omega), Int.toNat_natCast, hcount]
      exact Nat.min_eq_left hn
    rw [finalMask, firstMask, hmin]
    exact if_neg (by omega)
  rw [hmask, BitVec.getLsbD_ofNat, Nat.testBit_two_pow_sub_one, decide_eq_true hj, Bool.true_and, decide_eq_true_eq, hbit]
  constructor
  · intro hle
    by_cases hnarrow : x.esz = 0
    · rw [if_pos hnarrow] at hle
      refine ⟨2 * j, by omega, ?_⟩
      rw [hbit, if_pos hnarrow]
      omega
    · rw [if_neg hnarrow] at hle
      refine ⟨j, by omega, ?_⟩
      rw [hbit, if_neg hnarrow]
  · rintro ⟨k, hk, rfl⟩
    rw [hbit]
    split <;> omega

-- The pop.

/-- The thread after a pop of the register a: its register, POS, and m7 for a final pop (R192). -/
def poppedThread (t : Thread) (a : WReg) (x : Stream) (r : Line) (n : Nat) : Thread :=
  let y := (t.setW a r).setStream a.toNat x.moved
  if x.final then y.setM 7 (finalMask (8 * x.bytes) n) else y

section
variable {s : State} {th len : Nat} {t : Thread} {mask : BitVec 64} {a b d : WReg} {x : Stream} {f : Thread → Thread}
  (ha : t.stream? a = some x) (hu : t.Unbound [b, d])
include ha hu

theorem streamBody_pop_end (hend : x.length ≤ x.pos) : streamBody s th len t mask [a, b] (some d) f = s.trap th (.plain .streamx) := by
  have hplan : s.planPops (t.who th) [(a, x)] = .error (.trap (.plain .streamx)) := by
    rw [State.planPops, State.streamParts, if_pos hend]
  unfold streamBody
  simp only [pops_first ha (hu b (by simp)), hplan]
  exact stopAccess_streamx s th

/-- Before the end of its stream, with its elements in stashes and the thread's order clear, the pop takes effect and the instruction ends
(R343). -/
theorem streamBody_pop (hpos : x.pos < x.length) {ls : List Located}
    (hlocate : s.locateAll (t.who th) .read (x.next.map fun e => (e.2, x.bytes)) = .ok ls) (hstash : InStash s ls)
    (hstores : s.storesOf th = []) (hcarries : s.coh.carries = [])
    (hclear : s.linesClear th t (t.relaxedRead 0 (ls.map fun l => l.part)) = true) :
    streamBody s th len t mask [a, b] (some d) f = s.finish th len
      { f (poppedThread t a x (s.popElems (t.who th) th t x ls 0 0).1 ls.length) with remote := [] } := by
  obtain ⟨r, hr, -⟩ := popElems_stash t x hstores hcarries hstash 0 0
  have hpops : s.planPops (t.who th) [(a, x)] = .ok [(a, x, ls)] := by
    simp only [State.planPops, State.streamParts, if_neg (Nat.not_le.mpr hpos), hlocate, hstash.poisonTrap]
  have hpush : (some d).bind (fun r => (t.stream? r).map fun x => (r, x)) = none := by simp [hu d (by simp)]
  have hdone : s.doPops (t.who th) th t [(a, x, ls)] = (poppedThread t a x r ls.length, s) := by
    simp only [State.doPops, hr]
    rfl
  unfold streamBody
  simp only [pops_first ha (hu b (by simp)), hpops, hpush, State.planPush, List.flatMap_cons, List.flatMap_nil, List.append_nil,
    hstash.allReady, hclear, useAll_direct (t.who th) .read fun l hl => (hstash.placed l hl).1, hdone, hstash.poisonTrap, hr]
  simp [State.writeGate]
end

end Sys2Proof.Proofs
end

