-- ==== Sys2Proof/Proofs/StreamPushes.lean ====
section
/-! O39, the push: the stores that an assured task sends, and what a vector instruction with a write stream as destination does (R193, R343,
R364). -/
namespace Sys2Proof.Proofs
open Sys2Proof Sys2Proof.Machine Sys2Proof.Laws

-- Stores leave a thread.

/-- A store in flight is the one that a request asks for, of a thread at its instruction. -/
structure Sent (th : Nat) (t : Thread) (relf : Cls → Option Scope) (r : StoreReq) (y : PendStore) : Prop where
  agent : y.agent = .thread th
  part : y.part = r.part
  seq : y.seq = t.seq
  op : y.op = r.op
  rel : y.rel = relf r.part.cls
  mask : y.mask = r.mask
  data : y.data = r.data

/-- The requests leave in order, and nothing else changes but the number of the next store. -/
theorem sendStores_eq (th : Nat) (t : Thread) (relf : Cls → Option Scope) (hint : BitVec 3) (sc : Bool) (reqs : List StoreReq) (s : State)
    (prev : Nat) : ∃ xs n, s.sendStores th t none relf hint sc none reqs prev = { s with stores := s.stores ++ xs, nextStore := n } ∧
      xs.length = reqs.length ∧ ∀ (k : Nat) (y : PendStore) (r : StoreReq), xs[k]? = some y → reqs[k]? = some r → Sent th t relf r y := by
  induction reqs generalizing s prev with
  | nil => exact ⟨[], s.nextStore, by rw [List.append_nil]; rfl, rfl, fun k y r hy => by simp at hy⟩
  | cons r rest ih =>
    obtain ⟨x, hx, hstep⟩ : ∃ x : PendStore, Sent th t relf r x ∧ s.sendStores th t none relf hint sc none (r :: rest) prev =
        State.sendStores { s with stores := s.stores ++ [x], nextStore := s.nextStore + 1 } th t none relf hint sc none rest x.id :=
      ⟨_, ⟨rfl, rfl, rfl, rfl, rfl, rfl, rfl⟩, rfl⟩
    obtain ⟨xs, n, hsent, hlen, hxs⟩ := ih { s with stores := s.stores ++ [x], nextStore := s.nextStore + 1 } x.id
    refine ⟨x :: xs, n, ?_, by rw [List.length_cons, List.length_cons, hlen], fun k y q hy hq => ?_⟩
    · rw [hstep, hsent]
      simp only [List.append_assoc, List.singleton_append]
    · cases k with
      | zero =>
        cases hy
        cases hq
        exact hx
      | succ k => exact hxs k y q (by simpa using hy) (by simpa using hq)

/-- An earlier store's note of a release changes stores that wait and nothing that memory holds. -/
theorem noteStores_eq (s : State) (th : Nat) (rel : Option Scope) : ∃ stores collapses lines, s.noteStores th rel =
    { s with stores := stores, coh := { s.coh with collapses := collapses }, stash := { s.stash with lines := lines } } := by
  cases rel with
  | none => exact ⟨s.stores, s.coh.collapses, s.stash.lines, rfl⟩
  | some sc => exact ⟨_, _, _, rfl⟩

section
variable {s : State} {th len : Nat} {t done : Thread} {relf : Cls → Option Scope} {hint : BitVec 3} {w : Who} {ls : List Located}
  {reqs : List StoreReq}

/-- The release of the first request that makes one (R243, R245). -/
def firstRel (relf : Cls → Option Scope) (reqs : List StoreReq) : Option Scope := (reqs.filterMap fun r => relf r.part.cls).head?

/-- An assured task's stores leave its thread as it ends the instruction: no log, and nothing to wait for (R142, R376). -/
theorem issueStores_assured (hspec : t.spec = false) (hdirect : ∀ l ∈ ls, l.walk = none) :
    s.issueStores th len t done relf hint false w ls reqs =
      ((s.noteStores th (firstRel relf reqs)).sendStores th t none relf hint false none reqs 0).finish th len
        { done.noteOuts (firstRel relf reqs) with seq := t.seq + 1, nolog := done.nolog, remote := [] } := by
  have hgate : s.writeGate th t reqs = .go := by simp [State.writeGate, hspec]
  have hlogs : s.logs th t reqs = false := by simp [State.logs, hspec]
  have hstop : s.stopsLogging th t reqs = false := by simp [State.stopsLogging, hspec]
  unfold State.issueStores State.sendGated
  simp only [hgate, hlogs, hstop, useAll_direct w .write hdirect, Bool.or_false, Bool.not_false, if_true, Bool.false_eq_true, if_false]
  rfl
end

-- The push.

section
variable {s : State} {th len : Nat} {t : Thread} {mask : BitVec 64} {a b d : WReg} {x : Stream} {f : Thread → Thread}
  (hd : t.stream? d = some x) (hu : t.Unbound [a, b])
include hd hu

theorem streamBody_push_end (hend : x.length ≤ x.pos) : streamBody s th len t mask [a, b] (some d) f = s.trap th (.plain .streamx) := by
  have hplan : s.planPush (t.who th) mask (some (d, x)) = .error (.trap (.plain .streamx)) := by
    simp only [State.planPush, State.streamParts, if_pos hend]
  have hpush : (some d).bind (fun r => (t.stream? r).map fun x => (r, x)) = some (d, x) := by simp [hd]
  unfold streamBody
  simp only [pops_none hu, hpush, State.planPops, hplan]
  exact stopAccess_streamx s th

/-- The selected elements of the next push. -/
def pushed (x : Stream) (mask : BitVec 64) : List (Nat × Nat) := x.next.filter fun e => selectedBy mask (8 * x.bytes) e.1

/-- Before the end of its stream, a push of an assured task sends its stores (R193, R343). -/
theorem streamBody_push (hspec : t.spec = false) (hpos : x.pos < x.length) {ls : List Located}
    (hlocate : s.locateAll (t.who th) .write ((pushed x mask).map fun e => (e.2, x.bytes)) = .ok ls)
    (hlen : (pushed x mask).length = ls.length) :
    streamBody s th len t mask [a, b] (some d) f =
      s.issueStores th len t ((f t).setStream d.toNat x.moved) (storeRel relaxedOrd) x.ch false (t.who th) ls
        (pushReqs x ((f t).getW d) (((pushed x mask).map fun e => e.1).zip ls)) := by
  have hplan : s.planPush (t.who th) mask (some (d, x)) = .ok (some (d, x, ((pushed x mask).map fun e => e.1).zip ls)) := by
    unfold pushed at hlocate ⊢
    simp only [State.planPush, State.streamParts, if_neg (Nat.not_le.mpr hpos), hlocate]
  have hpush : (some d).bind (fun r => (t.stream? r).map fun x => (r, x)) = some (d, x) := by simp [hd]
  have hgate (reqs : List StoreReq) : s.writeGate th t reqs = .go := by simp [State.writeGate, hspec]
  have hwrites : (((pushed x mask).map fun e => e.1).zip ls).map (fun e => e.2) = ls :=
    List.map_snd_zip (by rw [List.length_map, hlen])
  have hclear : s.linesClear th t (t.relaxedRead 0 []) = true := by simp [State.linesClear, Thread.relaxedRead, Outstanding.touches]
  unfold streamBody
  simp only [pops_none hu, hpush, State.planPops, hplan, hgate, List.flatMap_nil, List.map_nil, State.allReady, hclear, hwrites]
  rfl
end

end Sys2Proof.Proofs
end

