-- ==== Sys2Proof/Proofs/VaddStreams.lean ====
section
/-! O39, the vector instruction: vadd of a register popped from a read stream and into one pushed to a write stream (R190 to R193, R343). -/
namespace Sys2Proof.Proofs
open Sys2Proof Sys2Proof.Machine Sys2Proof.Laws

-- What vadd writes.

/-- The sums that vadd writes over wD under the lane mask (R359). -/
def sums (mask : BitVec 64) (ty : Ty) (old va vb : Line) : Line :=
  writeElems mask ty.fixedWidth old fun i => patternOf ty.fixedWidth (satOf ty false (elemInt ty va i + elemInt ty vb i))

/-- vadd on the registers of a thread. -/
def addWritten (ty : Ty) (d a b : WReg) (mask : BitVec 64) (t : Thread) : Thread :=
  t.setW d (sums mask ty (t.getW d) (t.getW a) (t.getW b))

theorem exec_vadd (h : Hdr) (ty : Ty) (d a b : WReg) (s : State) : exec (.vadd h ty false d a b) s =
    vecOp s h 8 [numW d, numW a, numW b] (fun _ => false) [a, b] (some d) (addWritten ty d a b) := rfl

theorem fixedWidth_pos_of_isInt {ty : Ty} (h : ty.isInt = true) : 0 < ty.fixedWidth := by
  cases ty <;> simp [Ty.isInt, Ty.fixedWidth] at h ⊢

theorem sums_elems {ty : Ty} (hty : ty.isInt = true) (mask : BitVec 64) (old va vb : Line) :
    Elems mask ty.fixedWidth old (sums mask ty old va vb) fun k => ((valOf ty (BitVec.ofNat 64 (elem ty.fixedWidth va k)) +
      valOf ty (BitVec.ofNat 64 (elem ty.fixedWidth vb k))) % 2 ^ ty.fixedWidth).toNat :=
  elems_congr (writeElems_elems mask (fixedWidth_pos_of_isInt hty) old _) fun i => by simp [patternOf, satOf, elemInt]

-- The pop.

section
variable (t : Thread) (a : WReg) (x : Stream) (r : Line) (n : Nat)

theorem getW_setM (m : MReg) (v : BitVec 64) (q : WReg) : (t.setM m v).getW q = t.getW q := by
  unfold Thread.setM
  split <;> rfl

theorem getW_poppedThread (q : WReg) : (poppedThread t a x r n).getW q = (t.setW a r).getW q := by
  unfold poppedThread
  dsimp only
  split
  · exact getW_setM ..
  · rfl

theorem poppedThread_eq : poppedThread t a x r n =
    let y := (t.setW a r).setStream a.toNat { x with pos := Nat.min x.length (x.pos + 128 / 2 ^ x.esz) }
    if x.length ≤ x.pos + 128 / 2 ^ x.esz then y.setM 7 (finalMask (8 * x.bytes) n) else y := by
  unfold poppedThread
  by_cases hfinal : x.length ≤ x.pos + 128 / 2 ^ x.esz
  · rw [if_pos hfinal]
    exact if_pos (decide_eq_true hfinal)
  · rw [if_neg hfinal]
    exact if_neg fun h => hfinal (of_decide_eq_true h)
end

section
variable {s : State} {t : Thread} {h : Hdr} {ty : Ty} {d a b : WReg} {x : Stream} {ls : List Located}

theorem next_length_le (x : Stream) : x.next.length ≤ 128 / 2 ^ x.esz := by
  rw [Stream.next, List.length_map, List.length_range]
  exact Nat.min_le_left _ _

theorem elemCount_bytes {esz : Nat} : 1024 / (8 * 2 ^ esz) = 128 / 2 ^ esz := by rw [← Nat.div_div_eq_div_mul]

theorem elem_zero (w k : Nat) : elem w 0 k = 0 := by
  rw [elem, show (0 : Line) = 0#1024 from rfl, BitVec.toNat_zero, Nat.zero_shiftRight, Nat.zero_mod]

/-- vadd of a popped register ends with the sums of the elements popped (R192, R343). -/
theorem vadd_pops (hty : ty.isInt = true) (hissues : s.Issues t h [numW d, numW a, numW b]) (ha : t.stream? a = some x)
    (hu : t.Unbound [b, d]) (hdir : x.dir = false) (hesz : x.esz ≤ 3) (hpos : x.pos < x.length)
    (hlocate : s.locateAll (t.who s.focus) .read (x.next.map fun e => (e.2, x.bytes)) = .ok ls) (hstash : InStash s ls)
    (hstores : s.storesOf s.focus = []) (hcarries : s.coh.carries = [])
    (hclear : s.linesClear s.focus t (t.relaxedRead 0 (ls.map fun l => l.part)) = true) :
    ∃ (v r : Line) (m7 : BitVec 64),
      (let y := (t.setW a r).setStream a.toNat { x with pos := Nat.min x.length (x.pos + 128 / 2 ^ x.esz) }
       let y := if x.length ≤ x.pos + 128 / 2 ^ x.esz then y.setM 7 m7 else y
       s.Ends (.vadd h ty false d a b) 8 { y.setW d v with remote := [] }) ∧
      (∀ k < 128 / 2 ^ x.esz, elem (8 * 2 ^ x.esz) r k =
        match (ls[k]?).map fun l => l.part with
        | some p => popped s x.bytes p
        | none => 0) ∧
      (∀ j < 64, m7.getLsbD j = true ↔ ∃ k < ls.length, maskBitOf (8 * 2 ^ x.esz) k = j) ∧
      Elems (t.laneMask h.mg) ty.fixedWidth (t.getW d) v fun k => ((valOf ty (BitVec.ofNat 64 (elem ty.fixedWidth r k)) +
        valOf ty (BitVec.ofNat 64 (elem ty.fixedWidth (t.getW b) k))) % 2 ^ ty.fixedWidth).toNat := by
  have hb : b ≠ a := ne_of_unbound ha (hu b (by simp))
  have hd : d ≠ a := ne_of_unbound ha (hu d (by simp))
  have hfew : ls.length ≤ 1024 / (8 * x.bytes) := by
    rw [locateAll_length hlocate, List.length_map, Stream.bytes, elemCount_bytes]
    exact next_length_le x
  obtain ⟨r, hr, helems⟩ := popElems_stash t x hstores hcarries hstash 0 0
  have hexec : exec (.vadd h ty false d a b) s = .next (s.finish s.focus 8
      { addWritten ty d a b (t.laneMask h.mg) (poppedThread t a x r ls.length) with remote := [] }) := by
    rw [exec_vadd, vecOp_streams hissues (not_streamIll_pop ha hdir hu) (by simp [ha]),
      streamBody_pop ha hu hpos hlocate hstash hstores hcarries hclear, hr]
  refine ⟨sums (t.laneMask h.mg) ty (t.getW d) r (t.getW b), r, finalMask (8 * x.bytes) ls.length, ?_, fun k hk => ?_,
    fun j hj => getLsbD_finalMask hesz hfew hj, sums_elems hty _ _ _ _⟩
  · refine ends_of_finish s _ 8 _ (hexec.trans ?_)
    rw [addWritten, getW_poppedThread, getW_poppedThread, getW_poppedThread, getW_setW_same, getW_setW_other _ hb, getW_setW_other _ hd,
      poppedThread_eq]
  · have hk' := helems k (by rw [Stream.bytes, elemCount_bytes]; exact hk)
    rw [if_neg (Nat.not_lt_zero k), Nat.sub_zero] at hk'
    refine hk'.trans ?_
    cases ls[k]? with
    | none => exact elem_zero _ k
    | some l => rfl

-- The push.

theorem storeRel_relaxed (c : Cls) : storeRel relaxedOrd c = if c = .t then some .dev else none := by cases c <;> rfl

theorem parts_pushReqs {es : List (Nat × Nat)} (hlen : es.length = ls.length) (v : Line) :
    (pushReqs x v ((es.map fun e => e.1).zip ls)).map (fun r => r.part) = ls.map fun l => l.part := by
  have hzip : ((es.map fun e => e.1).zip ls).map (fun e => e.2) = ls := List.map_snd_zip (by rw [List.length_map, hlen])
  rw [pushReqs, List.map_map]
  conv_rhs => rw [← hzip, List.map_map]
  rfl

/-- The release of a push: that of its first element on a T page (R243). -/
theorem firstRel_pushReqs {es : List (Nat × Nat)} (hlen : es.length = ls.length) (v : Line) :
    firstRel (storeRel relaxedOrd) (pushReqs x v ((es.map fun e => e.1).zip ls)) =
      (ls.filterMap fun l => if l.part.cls = .t then some Scope.dev else none).head? := by
  have hparts := congrArg (List.filterMap fun p => storeRel relaxedOrd p.cls) (parts_pushReqs (x := x) hlen v)
  rw [List.filterMap_map, List.filterMap_map] at hparts
  refine congrArg List.head? (hparts.trans ?_)
  simp only [Function.comp_def, storeRel_relaxed]

theorem getElem?_pushReqs {es : List (Nat × Nat)} {k : Nat} {e : Nat × Nat} {l : Located} (he : es[k]? = some e) (hl : ls[k]? = some l)
    (v : Line) : (pushReqs x v ((es.map fun e => e.1).zip ls))[k]? = some
      { part := l.part, mask := byteMask (l.part.pa % 128) x.bytes,
        data := putLine 0 (l.part.pa % 128) x.bytes (elem (8 * x.bytes) v e.1), op := .write } := by
  have hzip : ((es.map fun e => e.1).zip ls)[k]? = some (e.1, l) :=
    List.getElem?_zip_eq_some.mpr ⟨by rw [List.getElem?_map, he]; rfl, hl⟩
  rw [pushReqs, List.getElem?_map, hzip]
  rfl

theorem byteMask_eq (o n : Nat) : byteMask o n = BitVec.ofNat 1024 ((2 ^ (8 * n) - 1) * 2 ^ (8 * o)) := by
  rw [byteMask, Nat.shiftLeft_eq]

theorem putLine_zero {o n v : Nat} (hv : v < 2 ^ (8 * n)) : putLine 0 o n v = BitVec.ofNat 1024 (v * 2 ^ (8 * o)) := by
  rw [putLine, Nat.mod_eq_of_lt hv, Nat.shiftLeft_eq v, show (0 : Line) = 0#1024 from rfl, BitVec.zero_and, BitVec.zero_or]

/-- Noting a release does not tell whether a task logs. -/
theorem noteOuts_withNolog (t : Thread) (rel : Option Scope) (n : Nat) :
    ({ t.noteOuts rel with seq := n, nolog := t.nolog, remote := [] } : Thread) = { t.noteOuts rel with remote := [], seq := n } := by
  cases rel <;> rfl

/-- vadd into a pushed register ends with a store for each selected element of the result (R193, R343). -/
theorem vadd_pushes (hty : ty.isInt = true) (hissues : s.Issues t h [numW d, numW a, numW b]) (hd : t.stream? d = some x)
    (hdir : x.dir = true) (hu : t.Unbound [a, b]) (hspec : t.spec = false) (hpos : x.pos < x.length)
    (hlocate : s.locateAll (t.who s.focus) .write ((pushed x (t.laneMask h.mg)).map fun e => (e.2, x.bytes)) = .ok ls)
    (hlen : (pushed x (t.laneMask h.mg)).length = ls.length) (hdirect : ∀ l ∈ ls, l.walk = none) :
    let relOne (l : Located) : Option Scope := if l.part.cls = .t then some .dev else none
    let rel := (ls.filterMap relOne).head?
    ∃ (v : Line) (u : State) (xs : List PendStore), exec (.vadd h ty false d a b) s = .next u ∧ s.SameBytes u ∧ s.OtherThreads u s.focus ∧
      u.stores = (s.noteStores s.focus rel).stores ++ xs ∧ xs.length = ls.length ∧
      (∀ (k : Nat) (y : PendStore) (e : Nat × Nat) (l : Located), xs[k]? = some y → (pushed x (t.laneMask h.mg))[k]? = some e →
        ls[k]? = some l → y.agent = .thread s.focus ∧ y.part = l.part ∧ y.seq = t.seq ∧ y.op = .write ∧ y.rel = relOne l ∧
          y.mask = BitVec.ofNat 1024 ((2 ^ (8 * x.bytes) - 1) * 2 ^ (8 * (l.part.pa % 128))) ∧
          y.data = BitVec.ofNat 1024 (elem (8 * x.bytes) v e.1 * 2 ^ (8 * (l.part.pa % 128)))) ∧
      u.thread? s.focus = some { ((((t.setW d v).setStream d.toNat x.moved).noteOuts rel).advance 8) with
        seq := t.seq + 1, remote := [], park := .run, lastIssue := s.cycle } ∧
      Elems (t.laneMask h.mg) ty.fixedWidth (t.getW d) v fun k => ((valOf ty (BitVec.ofNat 64 (elem ty.fixedWidth (t.getW a) k)) +
        valOf ty (BitVec.ofNat 64 (elem ty.fixedWidth (t.getW b) k))) % 2 ^ ty.fixedWidth).toNat := by
  intro relOne rel
  have hexec : exec (.vadd h ty false d a b) s = _ := (exec_vadd h ty d a b s).trans
    ((vecOp_streams hissues (not_streamIll_push hd hdir hu) (by simp [hd])).trans (congrArg Host.Outcome.next
      ((streamBody_push hd hu hspec hpos hlocate hlen).trans (issueStores_assured hspec hdirect))))
  have hrel (v : Line) : firstRel (storeRel relaxedOrd) (pushReqs x v (((pushed x (t.laneMask h.mg)).map fun e => e.1).zip ls)) = rel :=
    firstRel_pushReqs hlen v
  generalize hv : sums (t.laneMask h.mg) ty (t.getW d) (t.getW a) (t.getW b) = v at *
  have hwritten : (addWritten ty d a b (t.laneMask h.mg) t) = t.setW d v := by rw [addWritten, hv]
  rw [hrel, hwritten, getW_setW_same] at hexec
  obtain ⟨xs, n, hsent, hxlen, hxs⟩ := sendStores_eq s.focus t (storeRel relaxedOrd) x.ch false
    (pushReqs x v (((pushed x (t.laneMask h.mg)).map fun e => e.1).zip ls)) (s.noteStores s.focus rel) 0
  obtain ⟨stores, collapses, lines, hnoted⟩ := noteStores_eq s s.focus rel
  rw [hsent] at hexec
  refine ⟨v, _, xs, hexec, ?_, ?_, rfl, ?_, ?_, ?_, hv ▸ sums_elems hty _ _ _ _⟩
  · rw [hnoted]
    exact sameBytes_of_eq (fun _ _ => rfl) rfl rfl
  · intro k hk
    refine (thread?_finish_other _ _ _ _ _ hk).trans ?_
    rw [hnoted]
    rfl
  · rw [hxlen, pushReqs, List.length_map, List.length_zip, List.length_map, hlen, Nat.min_self]
  · intro k y e l hy he hl
    obtain ⟨hagent, hpart, hseq, hop, hyrel, hmask, hdata⟩ := hxs k y _ hy (getElem?_pushReqs he hl v)
    refine ⟨hagent, hpart, hseq, hop, hyrel.trans (storeRel_relaxed _), hmask.trans (byteMask_eq _ _), hdata.trans (putLine_zero ?_)⟩
    exact elem_lt _ _ _
  · rw [thread?_finish, hnoted, noteOuts_withNolog, advance_withSeq]
end

end Sys2Proof.Proofs
end

