-- ==== Sys2Proof/Proofs/SbindStreams.lean ====
section
/-! O39: the addresses of a stream's elements (R191), and sbind and sbind.unbind (R364 to R366). -/
namespace Sys2Proof.Proofs
open Sys2Proof Sys2Proof.Machine Sys2Proof.Laws

-- Addresses.

/-- The innermost index of an element, and the element of the remaining dimensions. -/
theorem elemIndices_cons {b i : Nat} (h : i < b) (r : List Nat) (n : Nat) : elemIndices (b :: r) (i + b * n) = i :: elemIndices r n := by
  have hb : b ≠ 0 := by omega
  rw [elemIndices, if_neg hb, if_neg hb, Nat.add_mul_mod_self_left, Nat.mod_eq_of_lt h, Nat.add_mul_div_left _ _ (by omega),
    Nat.div_eq_of_lt h, Nat.zero_add]

theorem addrOf_indices {x : Stream} {b0 b1 b2 b3 i0 i1 i2 i3 : Nat} {s0 s1 s2 s3 : BitVec 32} (hbound : x.bound = [b0, b1, b2, b3])
    (hstride : x.stride = [s0, s1, s2, s3]) (h0 : i0 < b0) (h1 : i1 < b1) (h2 : i2 < b2) (h3 : i3 < b3) :
    (x.addrOf (i0 + b0 * (i1 + b1 * (i2 + b2 * i3))) : Int) =
      ((x.addr.toNat : Int) + i0 * s0.toInt + i1 * s1.toInt + i2 * s2.toInt + i3 * s3.toInt) % 2 ^ 56 := by
  have hlast : elemIndices [b3] i3 = [i3] := by
    have hb : b3 ≠ 0 := by omega
    rw [elemIndices, if_neg hb, Nat.mod_eq_of_lt h3, elemIndices]
  have hindices : elemIndices [b0, b1, b2, b3] (i0 + b0 * (i1 + b1 * (i2 + b2 * i3))) = [i0, i1, i2, i3] := by
    rw [elemIndices_cons h0, elemIndices_cons h1, elemIndices_cons h2, hlast]
  rw [Stream.addrOf, hbound, hstride, hindices]
  simp only [List.zip_cons_cons, List.zip_nil_left, List.foldl_cons, List.foldl_nil, zero_add]
  rw [Int.toNat_of_nonneg (Int.emod_nonneg _ (by decide))]
  simp only [← add_assoc]
  rfl

-- The image of a descriptor.

section
variable (x i : Nat)

theorem imageWord_eq : imageWord x i = x / 2 ^ (64 * i) % 2 ^ 64 := by rw [imageWord, Nat.shiftRight_eq_div_pow]

theorem imageHalf_eq : imageHalf x i = x / 2 ^ (32 * i) % 2 ^ 32 := by rw [imageHalf, Nat.shiftRight_eq_div_pow]
end

/-- What R191 refuses in an image: reserved bits and codes, and too long a stream. -/
def reservedImage (x : Nat) : Prop :=
  2 ^ 56 ≤ imageWord x 0 ∨ imageWord x 5 / 8 % 32 ≠ 0 ∨ imageWord x 5 / 2 ^ 9 % 2 ^ 7 ≠ 0 ∨ 2 ^ 19 ≤ imageWord x 5 ∨
    imageWord x 6 ≠ 0 ∨ imageWord x 7 ≠ 0 ∨ 3 < imageWord x 5 % 8 ∨ imageWord x 5 / 2 ^ 16 % 8 = 7 ∨
    2 ^ 48 ≤ imageHalf x 2 * imageHalf x 3 * imageHalf x 4 * imageHalf x 5

/-- What R191 asks of the address and the strides of an image. -/
def alignedImage (x : Nat) (sbase : BitVec 56) : Prop :=
  (BitVec.ofNat 56 (imageWord x 0) + sbase).toNat % 2 ^ (imageWord x 5 % 8) = 0 ∧
    ∀ k < 4, 1 < imageHalf x (2 + k) → imageHalf x (6 + k) % 2 ^ (imageWord x 5 % 8) = 0

theorem imageWord_lt (x i : Nat) : imageWord x i < 2 ^ 64 := Nat.mod_lt _ (Nat.two_pow_pos _)

theorem imageHalf_lt (x i : Nat) : imageHalf x i < 2 ^ 32 := Nat.mod_lt _ (Nat.two_pow_pos _)

/-- The bits of a number from one place to its end. -/
theorem topBits_iff {v lo n : Nat} (h : v < 2 ^ (lo + n)) : bitsOf v lo n ≠ 0 ↔ 2 ^ lo ≤ v := by
  have hlt : v / 2 ^ lo < 2 ^ n := Nat.div_lt_of_lt_mul (by rwa [← Nat.pow_add])
  rw [bitsOf_eq_div, Nat.mod_eq_of_lt hlt, Nat.div_ne_zero_iff]
  exact ⟨fun h => h.2, fun h => ⟨(Nat.two_pow_pos lo).ne', h⟩⟩

theorem length_streamOf (x : Nat) (sbase : BitVec 56) :
    (streamOf x sbase).length = imageHalf x 2 * imageHalf x 3 * imageHalf x 4 * imageHalf x 5 := by
  show 1 * imageHalf x 2 * imageHalf x 3 * imageHalf x 4 * imageHalf x 5 = _
  rw [Nat.one_mul]

theorem ch_streamOf (x : Nat) (sbase : BitVec 56) : (streamOf x sbase).ch = 7 ↔ imageWord x 5 / 2 ^ 16 % 8 = 7 := by
  show BitVec.ofNat 3 (bitsOf (imageWord x 5) 16 3) = 7#3 ↔ _
  rw [← BitVec.toNat_inj, BitVec.toNat_ofNat, bitsOf_eq_div, Nat.mod_mod]
  rfl

theorem esz_streamOf (x : Nat) (sbase : BitVec 56) : (streamOf x sbase).esz = imageWord x 5 % 8 := by
  show bitsOf (imageWord x 5) 0 3 = _
  rw [bitsOf_eq_div, Nat.pow_zero, Nat.div_one]
  rfl

/-- The descriptor an image gives, by its fields (R190). -/
theorem streamOf_eq (x : Nat) (sbase : BitVec 56) : streamOf x sbase =
    { base := BitVec.ofNat 56 (imageWord x 0), bound := [imageHalf x 2, imageHalf x 3, imageHalf x 4, imageHalf x 5],
      stride := [imageHalf x 6, imageHalf x 7, imageHalf x 8, imageHalf x 9].map (BitVec.ofNat 32), esz := imageWord x 5 % 8,
      dir := (imageWord x 5).testBit 8, ch := BitVec.ofNat 3 (imageWord x 5 / 2 ^ 16), pos := 0, bnd := true,
      addr := BitVec.ofNat 56 (imageWord x 0) + sbase } := by
  have hch : BitVec.ofNat 3 (bitsOf (imageWord x 5) 16 3) = BitVec.ofNat 3 (imageWord x 5 / 2 ^ 16) := by
    rw [← BitVec.toNat_inj, BitVec.toNat_ofNat, BitVec.toNat_ofNat, bitsOf_eq_div, Nat.mod_mod]
  rw [← hch, ← esz_streamOf x sbase]
  rfl

/-- The reserved fields and the length of an image, as the checks find them. -/
theorem reservedImage_iff (x : Nat) (sbase : BitVec 56) : reservedImage x ↔
    (bitsOf (imageWord x 0) 56 8 ≠ 0 ∨ bitsOf (imageWord x 5) 3 5 ≠ 0 ∨ bitsOf (imageWord x 5) 9 7 ≠ 0 ∨
      bitsOf (imageWord x 5) 19 45 ≠ 0 ∨
      imageWord x 6 ≠ 0 ∨ imageWord x 7 ≠ 0 ∨ 3 < (streamOf x sbase).esz ∨ (streamOf x sbase).ch = 7) ∨
      2 ^ 48 ≤ (streamOf x sbase).length := by
  rw [topBits_iff (lo := 56) (n := 8) (imageWord_lt x 0), topBits_iff (lo := 19) (n := 45) (imageWord_lt x 5), esz_streamOf, ch_streamOf,
    length_streamOf, bitsOf_eq_div, bitsOf_eq_div, reservedImage]
  simp only [or_assoc]
  rfl

theorem imageTrap_reserved {x : Nat} {sbase : BitVec 56} (h : reservedImage x) : imageTrap x sbase = some (.plain .illop) := by
  rw [reservedImage_iff x sbase] at h
  unfold imageTrap
  dsimp only
  split
  · rfl
  · rename_i hfields
    exact if_pos (h.resolve_left hfields)

theorem imageTrap_none {x : Nat} {sbase : BitVec 56} (h : ¬reservedImage x) (ha : alignedImage x sbase) : imageTrap x sbase = none := by
  rw [reservedImage_iff x sbase, not_or] at h
  obtain ⟨hbase, hstrides⟩ := ha
  have hbytes : (streamOf x sbase).bytes = 2 ^ (imageWord x 5 % 8) := by rw [Stream.bytes, esz_streamOf]
  have hstride (k : Nat) (hk : k < 4) : (decide (1 < imageHalf x (2 + k)) &&
      decide ((BitVec.ofNat 32 (imageHalf x (6 + k))).toNat % 2 ^ (imageWord x 5 % 8) ≠ 0)) = false := by
    rw [BitVec.toNat_ofNat, Nat.mod_eq_of_lt (imageHalf_lt x _)]
    by_cases hlong : 1 < imageHalf x (2 + k)
    · simp [hstrides k hk hlong]
    · simp [hlong]
  have hall : (((streamOf x sbase).bound.zip (streamOf x sbase).stride).any fun p =>
      decide (1 < p.1) && decide (p.2.toNat % (streamOf x sbase).bytes ≠ 0)) = false := by
    rw [hbytes]
    simp only [streamOf, List.map_cons, List.map_nil, List.zip_cons_cons, List.zip_nil_left, List.any_cons, List.any_nil]
    rw [hstride 0 (by decide), hstride 1 (by decide), hstride 2 (by decide), hstride 3 (by decide)]
    rfl
  have haddr : (streamOf x sbase).addr.toNat % (streamOf x sbase).bytes = 0 := by
    rw [hbytes]
    exact hbase
  unfold imageTrap
  dsimp only
  rw [if_neg h.1, if_neg h.2, hall, haddr]
  rfl

-- sbind.

section
variable {s : State} {t : Thread} {h : Hdr} {d : BitVec 2}

/-- The read of one part in a stash, made at issue by a thread with nothing before it (R240, R364). -/
theorem readNow_stash {p : Part} {tile : Nat} (hint : BitVec 3) (houts : t.outs = []) (hstores : s.storesOf s.focus = [])
    (hcarries : s.coh.carries = []) (hplace : p.place = .stash tile) (hcls : p.cls = .u) :
    s.readNow s.focus t (t.who s.focus) hint [⟨p, none⟩] = (some (lineNat (s.stashData tile p.pa) (p.pa % 128) p.len), s) := by
  have hready : s.allReady (t.who s.focus).run false [p] = (true, s) := by
    rw [State.allReady, State.partReady, hplace]
    rfl
  have hbind : s.mayBind s.focus t (t.relaxedRead hint [p]) = true := by
    simp [State.mayBind, Thread.relaxedRead, Outstanding.isMem, Outstanding.isT, weakest, Cls.weaker, Thread.clearOf,
      State.linesClear, houts, hstores, hcls]
  have hread : s.readPart (t.who s.focus) t.key (s.specidOf s.focus t) p .full .none hint true = (s.stashData tile p.pa, s) := by
    rw [State.readPart, hplace]
  have hcarry : s.carryIn (t.who s.focus) p none = s := by simp [State.carryIn, hcarries]
  have huse : s.useAll (t.who s.focus) .read [⟨p, none⟩] = s := rfl
  unfold State.readNow
  simp only [List.map_cons, List.map_nil, hready, hbind, huse, List.foldl_cons, List.foldl_nil, hread, State.forward, hstores, hcarry]
  simp

/-- A located read has met no poison. -/
theorem poisonTrap_of_reach {w : Who} {va n align : Nat} {ls : List Located} (hreach : s.reach w .read va n align = .ok ls) :
    s.poisonTrap w .read ls = none := by
  unfold State.reach at hreach
  split at hreach
  · cases hreach
  split at hreach
  · cases hreach
  · split at hreach
    · cases hreach
    · rename_i hnone
      cases hreach
      exact hnone

/-- sbind of an image in a stash does what the image's checks say (R191, R365). -/
theorem sbind_exec {addr : Addr} {p : Part} {tile : Nat} (hissues : s.Issues t h [16 + d.toNat, numG addr.base]) (houts : t.outs = [])
    (hstores : s.storesOf s.focus = []) (hcarries : s.coh.carries = [])
    (hreach : s.reach (t.who s.focus) .read (t.addr addr) 64 64 = .ok [⟨p, none⟩]) (hplace : p.place = .stash tile) (hcls : p.cls = .u)
    (hlen : p.len = 64) :
    let x := lineNat (s.stashData tile p.pa) (p.pa % 128) 64
    (∀ e, imageTrap x t.sbase = some e → exec (.sbind h d addr) s = .next (s.trap s.focus e)) ∧
    (imageTrap x t.sbase = none → exec (.sbind h d addr) s =
      .next (s.finish s.focus addr.len { t.setStream d.toNat (streamOf x t.sbase) with remote := [] })) := by
  intro x
  have hread := readNow_stash h.ch houts hstores hcarries hplace hcls
  rw [hlen] at hread
  have hpoison := poisonTrap_of_reach hreach
  have hruns : exec (.sbind h d addr) s = _ := memOp_runs s h addr.len _ _ _ t hissues rfl
  refine ⟨fun e he => hruns.trans (congrArg Host.Outcome.next ?_), fun he => hruns.trans (congrArg Host.Outcome.next ?_)⟩
  · simp only [hreach, hread, hpoison, x, he] at he ⊢
  · simp only [hreach, hread, hpoison, x, he] at he ⊢

/-- sbind.unbind clears the binding (R366). -/
theorem sbindUnbind_ends {x : Stream} (hissues : s.Issues t h [16 + d.toNat]) (hx : t.streams[d.toNat]? = some x) :
    s.Ends (.sbindUnbind h d) 8 (t.setStream d.toNat { x with bnd := false }) := by
  refine ends_of_finish s _ 8 _ ((memOp_runs s h 8 _ _ _ t hissues rfl).trans (congrArg Host.Outcome.next ?_))
  rw [List.modify_eq_set_getElem?, hx]
  rfl
end

/-- Settles O39: the pop and the push of vadd, the addresses of elements, registers bound the other way, and sbind by the checks of R191. -/
theorem streams : Obligations.Streams := by
  refine ⟨fun s t h ty d a b x ls hty hissues ha hu hdir hlong hesz => ?pop,
    fun s t h ty d a b x ls hty hissues hd hdir hu hspec hlong hesz => ?push,
    fun x b0 b1 b2 b3 i0 i1 i2 i3 s0 s1 s2 s3 hbound hstride h0 h1 h2 h3 => addrOf_indices hbound hstride h0 h1 h2 h3,
    fun s t h ty d a b x ht hbound => ?ill, fun s t h d addr p tile hissues hfour houts hfences hstores hcarries hreach hplace hcls hlen => ?bind,
    fun s t h d x hissues hx => sbindUnbind_ends hissues hx⟩
  case pop =>
    intro bytes i
    refine ⟨fun hend => ?_, fun hpos hlocate hplaced hclean hstores hcarries hclear => ?_⟩
    · show exec (.vadd h ty false d a b) s = _
      rw [exec_vadd, vecOp_streams hissues (not_streamIll_pop ha hdir hu) (by simp [ha]), streamBody_pop_end ha hu hend]
    · exact vadd_pops hty hissues ha hu hdir hesz hpos hlocate ⟨hplaced, hclean⟩ hstores hcarries hclear
  case push =>
    intro bytes i es relOne rel
    refine ⟨fun hend => ?_, fun hpos hlocate hlen hplaced => ?_⟩
    · show exec (.vadd h ty false d a b) s = _
      rw [exec_vadd, vecOp_streams hissues (not_streamIll_push hd hdir hu) (by simp [hd]), streamBody_push_end hd hu hend]
    · exact vadd_pushes hty hissues hd hdir hu hspec hpos hlocate hlen fun l hl => (hplaced l hl).1
  case ill =>
    rw [exec_vadd]
    obtain ⟨ha, hdir⟩ | ⟨hd, hdir⟩ := hbound
    · exact vecOp_streamIll ht (streamIll_source ha hdir)
    · exact vecOp_streamIll ht (streamIll_dest hd hdir)
  case bind =>
    intro x w half base reserved aligned bound
    obtain ⟨htraps, hbinds⟩ := sbind_exec hissues houts hstores hcarries hreach hplace hcls hlen
    have hw (i : Nat) : imageWord x i = w i := imageWord_eq x i
    have hhalf (i : Nat) : imageHalf x i = half i := imageHalf_eq x i
    have hreserved : reservedImage x ↔ reserved := by simp only [reservedImage, hw, hhalf, reserved]
    have haligned : alignedImage x t.sbase ↔ aligned := by simp only [alignedImage, hw, hhalf, aligned, base]
    have hbound : streamOf x t.sbase = bound := by simp only [streamOf_eq, hw, hhalf, bound, base]
    refine ⟨fun hres => htraps _ (imageTrap_reserved (hreserved.mpr hres)), fun hres hal => ends_of_finish s _ _ _ ?_⟩
    rw [← hbound]
    exact hbinds (imageTrap_none (fun hr => hres (hreserved.mp hr)) (haligned.mpr hal))

end Sys2Proof.Proofs
end
